-- ==== Sys2Proof/Word.lean ====
section
/-!
DEFINITION. The words of the machine (R1): bytes, the 36-bit native word, 32-bit registers, 64-bit bus time.
-/

namespace Sys2Proof

/-- A byte of host memory, of a command entry or of flash. -/
abbrev Byte := BitVec 8

/-- The controller's native word, bits [35:0] (R1). -/
abbrev Word := BitVec 36

/-- A host-visible register, 32 bits (R471). -/
abbrev Reg32 := BitVec 32

/-- Bus time: an unsigned count of nanoseconds (R128). -/
abbrev BusTime := BitVec 64

end Sys2Proof
end

