-- ==== Sys2Proof/Operand.lean ====
section
/-!
DEFINITION. The types of the commands' operands: places in a tree, ports and devices, blocks, packets, boards, taken commands.
-/

namespace Sys2Proof

/-- A block on a link, 40 bits, bit 39 sent first (R30). -/
abbrev Block := BitVec 40

/-- A place in a tree: the trunk and the hub port taken at each tier, tier 1 first (R65). The empty path is the device on the root
port itself. -/
structure Pos where
  trunk : Fin 16
  path : List (Fin 16)
deriving DecidableEq, Repr

/-- A port, the upstream side of a link: a root port 0–15, gang port GA, or port `p` of the hub at a place. -/
inductive PortRef where
  | root (t : Fin 16)
  | ga
  | hub (h : Pos) (p : Fin 16)
deriving DecidableEq, Repr

/-- A downstream side: the device at a place of a tree, or gang port GB in its device role (R363). -/
inductive DevRef where
  | node (d : Pos)
  | gb
deriving DecidableEq, Repr

/-- A receiver on a link: the port above or the device below. -/
inductive Side where
  | up (p : PortRef)
  | down (d : DevRef)
deriving DecidableEq, Repr

/-- A packet or handshake as its receiver has descrambled it: one entry per block, the word in the clear, or none for a block in error or
one that STOP cut off (R32, R43). -/
abbrev Packet := List (Option Word)

/-- The data blocks of a packet or handshake as they stand on a link, and the index in the course of the first, on the grid of the side
that receives them (R26, R35): block 0 is the first of COURSE_START. `before`: that course is the one before the running one, whose last
upstream blocks arrive after the next course start. -/
structure Wire where
  before : Bool
  first : Nat
  blocks : List Block
deriving DecidableEq, Repr

/-- How a side judges its receiver's eye (R52): the controller's receivers by what the sampler measures, in 1/64 UI and 2 mV; a node or hub
by a criterion of its own. -/
inductive Eye where
  | measured (h v : BitVec 8)
  | judged (ok : Bool)
deriving DecidableEq, Repr

/-- The board that a technician pushes into a port: its node descriptor (R97), hub descriptor (R98, empty when it is no hub) and
maker block (R99, empty when it has none). -/
structure Board where
  desc : List Word
  hub : List Word
  maker : List Word
deriving DecidableEq, Repr

/-- What happens to a board at a port when its presence reading changes: nothing, it is pushed in, or it is pulled. -/
inductive BoardMove where
  | same
  | pushed (b : Board)
  | pulled
deriving DecidableEq, Repr

/-- How a DMA read ends: with data, or with one of the errors of R449. -/
inductive ReadEnd where
  | ok
  | ur
  | ca
  | poisoned
  | timeout
deriving DecidableEq, Repr

/-- A command that firmware has taken: the instance and the command's place in its ring. -/
structure CmdRef where
  inst : Fin 512
  idx : BitVec 16
deriving DecidableEq, Repr

/-- Who writes a gutter address: the manager through BAR0, or the owner of an instance page (R347). -/
inductive SigWriter where
  | bar0
  | page (n : Fin 512)
deriving DecidableEq, Repr

/-- The two payload words of a SETUP (R85). -/
structure Setup where
  w0 : Word
  w1 : Word
deriving DecidableEq, Repr

/-- How a control transfer that firmware runs ended on the bus: acknowledged, STALL, or failed (LASTING). -/
inductive Answer where
  | ack
  | stall
  | lasting
deriving DecidableEq, Repr

/-- What a block answers to SLEEP_REQ (R394). -/
inductive SleepAnswer where
  | grant
  | defer (retry : BitVec 8)
  | deny (reason : BitVec 8)
deriving DecidableEq, Repr

/-- Who answers GET_GANG_INFO (R374): a device that is asked, or the controller below GA, with the node descriptor and the three words that
its answers bring. -/
inductive GangAsk where
  | dev (d : DevRef) (s : Setup)
  | ga (desc info : List Word)
deriving DecidableEq, Repr

/-- Who gets SET_GANG (R374): a device, or the controller below GA, with its answer. -/
inductive GangSet where
  | dev (d : DevRef) (s : Setup) (data : List Word)
  | ga (a : Answer)
deriving DecidableEq, Repr

/-- D-states that a PMCSR write asks for (R466). -/
inductive DStateCode where
  | d0
  | d3hot
deriving DecidableEq, Repr

/-- How far a start comes before the next command (R432): the PLL relocked, the retained image is intact, and the step in which the
start stands; `none`: it has ended. -/
structure StartEnv where
  relocked : Bool
  intact : Bool
  step : Option (Fin 9)
deriving DecidableEq, Repr

/-- What an ADC conversion of the port power manager brings (R410). -/
inductive PpmSample where
  | port (n : Fin 16) (isns vsns : BitVec 12)
  | feed (g : Fin 4) (b : Bool) (code : BitVec 12)
deriving DecidableEq, Repr

/-- Errors found in the staged words of a packet (R214): the words corrected, and an uncorrectable one, found before the packet starts or while it
is on the wire. -/
structure StageCheck where
  corrected : Nat
  bad : Option (Nat × Bool)
deriving DecidableEq, Repr

/-- What firmware does to its own task 8192 + `n` (R228–R231, R238, R243): it enables the task on a firmware priority list, writes its mask, sets
and clears flags other than TIME and DOORBELL, assigns it the mailbox doorbell of an instance, takes a DOORBELL, arms its delay at a tick of
128 ns of bus time, cancels it. -/
inductive FwOp where
  | enable (n : Fin 64) (prio : Fin 8)
  | mask (n : Fin 64) (mask : BitVec 8)
  | flags (n : Fin 64) (set clear : BitVec 8)
  | bell (n : Fin 64) (inst : Option (Fin 512))
  | answered (n : Fin 64)
  | arm (n : Fin 64) (deadline : Nat)
  | cancel (n : Fin 64)
deriving DecidableEq, Repr

end Sys2Proof
end

