-- ==== Sys2Proof/Syntax.lean ====
section
/-!
DEFINITION. The commands that the controller takes: one constructor per row of the opcode table, in the table's order. A row that a
mailbox command heads takes the command it acts on (`c`), an event row what its event brings from outside.
-/

namespace Sys2Proof

/-- The commands of the opcode table. -/
inductive Instr where
  /-- Command that does nothing and completes OK (R295). -/
  | nop (c : CmdRef)
  /-- Command returning device, silicon, mode, firmware and command set versions and fuses (R295). -/
  | identify (c : CmdRef)
  /-- Command returning the instance's shares and usage or a trunk's slot budget (R295). -/
  | getLimits (c : CmdRef)
  /-- Command enabling event codes and choosing the local source each raises (R311). -/
  | eventRoute (c : CmdRef)
  /-- Command creating an instance and carving its shares from the pools (R323). -/
  | instCreate (c : CmdRef)
  /-- Command running the reset sequence, returning shares, unbinding nodes and freeing the instance (R332). -/
  | instDestroy (c : CmdRef)
  /-- Command that advances the epoch, cancels the instance's tasks and drops old-epoch work (R330). -/
  | instReset (c : CmdRef)
  /-- Command changing named shares, with FORCE removing scheduled flows at a boundary (R326). -/
  | instSetShare (c : CmdRef)
  /-- Command returning an instance's state, usage, epoch and host-stall record (R296). -/
  | instQuery (c : CmdRef)
  /-- Command stopping binding at boundary F and freezing the instance there (R333). -/
  | instFreeze (c : CmdRef)
  /-- Command writing the image of a frozen, quiescent instance to manager memory (R335). -/
  | instSave (c : CmdRef)
  /-- Command checking an image and recreating the instance FROZEN from it (R338). `image` is what the DMA read of the image
  brought. -/
  | instRestore (c : CmdRef) (image : List Byte) (e : ReadEnd)
  /-- Command resuming binding from boundary T and making the instance ACTIVE (R340). -/
  | instThaw (c : CmdRef)
  /-- Command powering a port on or off, with FORCE acting as detach (R299). -/
  | portPower (c : CmdRef)
  /-- Command resetting a port and ending transfers below it (R299). -/
  | portReset (c : CmdRef)
  /-- Command suspending a port when no admitted non-service scheduled flow routes through it (R110). -/
  | portSuspend (c : CmdRef)
  /-- Command resuming a suspended port (R113). -/
  | portResume (c : CmdRef)
  /-- Command returning a port's status word, retries and power state (R298). -/
  | portStatus (c : CmdRef)
  /-- Command enumerating a whole trunk, optionally replacing the address map (R96). `map` is what the DMA read of the address map
  brought. -/
  | treeEnumerate (c : CmdRef) (map : List Byte) (e : ReadEnd)
  /-- Command returning a node's identity and placement, optionally writing its descriptor (R299). -/
  | nodeInfo (c : CmdRef)
  /-- Command binding a node to an instance or unbinding it (R299). -/
  | nodeBind (c : CmdRef)
  /-- Command returning a link's margin ledger, optionally clearing it (R299). -/
  | linkMargin (c : CmdRef)
  /-- Command requesting a step-down to BR or a reset to HR (R299). -/
  | linkRate (c : CmdRef)
  /-- Command checking, admitting and opening a flow after a CLEAR_HALT (R300). `safe` is the safe packet read, `a` how CLEAR_HALT
  ended. -/
  | flowOpen (c : CmdRef) (safe : List Byte) (e : ReadEnd) (a : Answer)
  /-- Command closing a flow at boundary B, cancelling its remaining descriptors (R177). -/
  | flowClose (c : CmdRef)
  /-- Command changing plan fields at B after admission, or priority and hold policy sooner (R303). `safe` is the safe packet read.
  -/
  | flowModify (c : CmdRef) (safe : List Byte) (e : ReadEnd)
  /-- Command returning a flow's state, counts or pace figures by page (R302). -/
  | flowQuery (c : CmdRef)
  /-- Command running the admission test on a list of flow commands without changing anything (R303). `list` is the list read. -/
  | planCheck (c : CmdRef) (list : List Byte) (e : ReadEnd)
  /-- Command holding a flow with cause COMMAND (R303). -/
  | flowHold (c : CmdRef)
  /-- Command clearing command-clearable hold causes, with a CLEAR_HALT where needed (R303). `a` is how CLEAR_HALT ended. -/
  | flowUnhold (c : CmdRef) (a : Answer)
  /-- Command running a control transfer to a bound node (R303). `data` is the OUT data read, `a` how the transfer ended. -/
  | controlXfer (c : CmdRef) (data : List Byte) (e : ReadEnd) (a : Option Answer)
  /-- Command returning bus time, quality, uncertainty and course count (R304). -/
  | timeGet (c : CmdRef)
  /-- Command stepping bus time at the next course start or slewing it (R138). -/
  | timeAdjust (c : CmdRef)
  /-- Command selecting the source that disciplines bus time (R305). -/
  | timeSource (c : CmdRef)
  /-- Command configuring an estimator and opening a bus source's sample flow (R305). -/
  | paceConfig (c : CmdRef)
  /-- Command returning a latched estimator snapshot and a flow's pace counts (R304). -/
  | paceQuery (c : CmdRef)
  /-- Command changing the course period at a plan-cycle boundary (R124). -/
  | courseConfig (c : CmdRef)
  /-- Manager write of TAPU_COURSE_CFG.PERIOD, handled as COURSE_CONFIG (R124). -/
  | coursePeriodWrite (v : Reg32)
  /-- Command computing the gang digest and taking GA out of OFF (R369). -/
  | gangConfig (c : CmdRef)
  /-- Command returning gang role, state, digest, offset and members (R306). -/
  | gangStatus (c : CmdRef)
  /-- Command joining the gang, deciding a head's role at its start (R376). -/
  | gangJoin (c : CmdRef)
  /-- Command returning the controller to solo (R383). -/
  | gangLeave (c : CmdRef)
  /-- Command requesting a mode transition (R392). -/
  | modeSet (c : CmdRef)
  /-- Command setting a power domain's gating policy (R391). -/
  | domainPolicy (c : CmdRef)
  /-- Command setting a root port's power limits and timers (R418). -/
  | ppmConfig (c : CmdRef)
  /-- Command returning a port's metering and power state (R307). -/
  | ppmRead (c : CmdRef)
  /-- Command writing image bytes into the slot that is not running, verifying on LAST (R441). `data` is what the DMA read brought.
  -/
  | fwStage (c : CmdRef) (data : List Byte) (e : ReadEnd)
  /-- Command making the staged slot primary and optionally warm starting (R441). -/
  | fwCommit (c : CmdRef) (run : StartEnv)
  /-- Command returning a category's first-error record, optionally acknowledging it (R451). -/
  | errlogRead (c : CmdRef)
  /-- Command configuring the decision trace and its filters (R310). -/
  | traceConfig (c : CmdRef)
  /-- Command setting or clearing one perturbation control (R456). -/
  | perturbSet (c : CmdRef)
  /-- Command running the selected self tests (R310). `fails` are the tests that fail. -/
  | selftest (c : CmdRef) (fails : BitVec 32)
  /-- Standard request returning a node, hub or maker descriptor (R99). -/
  | getDescriptor (d : DevRef) (s : Setup)
  /-- Standard request assigning a node address after its status stage (R84). -/
  | setAddress (d : DevRef) (s : Setup)
  /-- Standard request configuring a node and resetting its non-zero endpoints (R82). -/
  | setConfig (d : DevRef) (s : Setup)
  /-- Standard request clearing an endpoint's halt and toggles (R82). -/
  | clearHalt (d : DevRef) (s : Setup)
  /-- Standard request halting an endpoint (R85). -/
  | setHalt (d : DevRef) (s : Setup)
  /-- Standard request returning node or endpoint status and clearing late counts (R100). -/
  | getStatus (d : DevRef) (s : Setup)
  /-- Standard request giving a node its path delay D for the next valid course start (R132). -/
  | setPathDelay (d : DevRef) (s : Setup)
  /-- Hub class request returning a port status word (R104). -/
  | getPortStatus (d : DevRef) (s : Setup)
  /-- Hub class request returning and clearing a port's error counters (R104). -/
  | getPortErrors (d : DevRef) (s : Setup)
  /-- Hub class request powering, resetting, suspending, resuming or stepping down a hub port (R103). -/
  | setPortFeature (d : DevRef) (s : Setup)
  /-- Hub class request removing port power, disabling, or clearing a change bit (R103). -/
  | clearPortFeature (d : DevRef) (s : Setup)
  /-- Hub class request setting the hub's tier (R103). -/
  | setHubTier (d : DevRef) (s : Setup)
  /-- Hub class request returning a hub port link's delay estimate (R136). -/
  | getPortDelay (d : DevRef) (s : Setup)
  /-- Gang vendor request returning a controller's gang state and bitmaps (R374). -/
  | getGangInfo (x : GangAsk)
  /-- Gang vendor request checked by a member, which then follows the ridge (R375). -/
  | setGang (x : GangSet)
  /-- Write of INST_FLOW_DB making descriptors visible or recording an error (R204). -/
  | flowDoorbell (i : Fin 512) (v : Reg32)
  /-- Write of INST_MB_DB making commands visible (R281). -/
  | mailboxDoorbell (i : Fin 512) (v : Reg32)
  /-- Write of INST_MB_CFG.ENABLE starting or stopping a mailbox (R279). -/
  | mailboxEnable (i : Fin 512) (v : Reg32)
  /-- Write of INST_MB_CPL_CONS releasing completion ring room (R282). -/
  | mailboxConsumerWrite (i : Fin 512) (v : Reg32)
  /-- Write of 1 to FETCH_ERR that resumes command taking at FETCH (R508). -/
  | fetchErrClear (i : Fin 512) (v : Reg32)
  /-- Write of INST_CQ_CFG.ENABLE starting a completion ring at index 0 (R226). -/
  | cqEnable (i : Fin 512) (q : Fin 16) (v : Reg32)
  /-- Write of INST_CQ_CONS releasing completion ring room or setting CONS_ERR (R219). -/
  | cqConsumerWrite (i : Fin 512) (q : Fin 16) (v : Reg32)
  /-- Write raising a source as hardware does, including its STOP trigger (R347). -/
  | sigRaise (w : SigWriter) (v : Reg32)
  /-- Write setting a source pending without STOP (R347). -/
  | sigPendSet (w : SigWriter) (v : Reg32)
  /-- Write clearing a source's pending bit and STOP_LATCH (R347). -/
  | sigPendClr (w : SigWriter) (v : Reg32)
  /-- Write masking a source (R347). -/
  | sigMaskSet (w : SigWriter) (v : Reg32)
  /-- Write unmasking a source (R347). -/
  | sigMaskClr (w : SigWriter) (v : Reg32)
  /-- Write of a source's settings, discarded whole on a bad target (R348). -/
  | sigSrcCfgWrite (w : SigWriter) (v : Reg32)
  /-- Write posting a vector's running priority for later decisions (R355). -/
  | sigPrio (i : Fin 512) (v : Reg32)
  /-- Write of TRK_CTRL.STEP_DOWN requesting a step-down (R58). -/
  | stepDownWrite (t : Fin 18) (v : Reg32)
  /-- Write zeroing a root link's ledger counters and eye minima (R61). -/
  | trkLedgerClr (t : Fin 18) (v : Reg32)
  /-- Manager write triggering STOP with reason 0x3 (R269). -/
  | engStopCmd (v : Reg32)
  /-- Write acknowledging a first-error record whose SEQ matches (R451). -/
  | errAck (v : Reg32)
  /-- Write acknowledging ERR_FATAL whose SEQ matches (R453). -/
  | errFatalAck (v : Reg32)
  /-- Write with the key that triggers a warm start (R447). -/
  | bootCtrl (v : Reg32) (run : StartEnv)
  /-- Write zeroing the energy counters of the named ports (R425). -/
  | ppmEclr (v : Reg32)
  /-- Write of latency tolerance that sends an LTR message (R480). -/
  | hifLtrWrite (v : Reg32)
  /-- Read of TRC_BUF_LO removing the oldest trace record into the latch (R251). -/
  | trcBufRead
  /-- Write to a register without a row of its own, acting field by field by class (R474). `data` are the bytes in address order,
  none where the byte enable is clear; `run` serves a write of BOOT_CTRL. -/
  | registerWrite (bar2 : Bool) (addr : BitVec 25) (data : List (Option Byte)) (run : StartEnv)
  /-- Raw presence comparator of a port changes (R93). `m` is what the technician does with a board. -/
  | presenceChange (p : PortRef) (level : Bool) (m : BoardMove)
  /-- Presence held for T_ATTACH takes a POWERED port to DISABLED (R91). -/
  | attach (p : PortRef)
  /-- Absence held for T_DETACH takes a port to POWERED and ends transfers below it (R94). -/
  | detach (p : PortRef)
  /-- Activity detector of a watching port becomes active (R46). -/
  | activityDetect (p : PortRef) (level : Bool)
  /-- A downstream side sees no transitions for T_RST_DET and resets, starting CHIRP (R48). -/
  | resetDetect (d : DevRef)
  /-- A port receives CHIRP blocks during its reset hold (R49). -/
  | chirpReceive (p : PortRef) (blocks : List Block)
  /-- End of T_RST_HOLD: the port answers CHIRP_ACK or starts BR training (R49). -/
  | resetHoldEnd (p : PortRef)
  /-- A downstream side receives 4 CHIRP_ACK blocks and stops CHIRP (R49). -/
  | chirpAckReceive (d : DevRef) (blocks : List Block)
  /-- A side receives blocks in training and advances its training states and presets (R51). `sent`: how many TRAIN blocks it sent meanwhile. -/
  | trainReceive (x : Side) (blocks : List Block) (eye : Eye) (sent : Nat := 0)
  /-- Receiver gains block lock after 64 valid sync headers (R33). -/
  | blockLockGained (x : Side)
  /-- Preset request interval expires and the controller requests a far preset (R55). -/
  | presetRequest (p : PortRef) (eyeH eyeV : BitVec 8)
  /-- 16 READY blocks each way bring the link UP and the port to ENABLED (R51). -/
  | trainingUp (p : PortRef)
  /-- Training attempt time expires; the upstream side counts failure and resets or faults (R51). -/
  | trainingTimeout (p : PortRef)
  /-- Receipt of a block with bad sync, check, code or IDLE, counted and discarded (R32). `origin`: no receiver before this one has
  marked the block; `b`: the block, after its index in the course on the receiver's grid. -/
  | blockInError (x : Side) (b : Nat × Block) (origin : Bool)
  /-- 16 of 64 blocks with invalid sync headers lose block lock (R33). -/
  | blockLockLost (x : Side)
  /-- A receiver takes COURSE_START, seeds its scrambler and re-anchors its time (R42). a hub's residence, 1/8 ns; GB's time stamp,
  1/64 ns. -/
  | courseStartReceive (d : DevRef) (b0 b1 b2 : Block) (residence stamp : Nat)
  /-- No COURSE_START at two predicted positions loses course synchronisation (R42). -/
  | courseSyncLost (d : DevRef)
  /-- A node not re-anchored for 64 courses treats its time as invalid (R131). -/
  | nodeTimeInvalid (d : Pos)
  /-- A receiver enters the suspended link state on SUSPEND count 0 or idle after SUSPEND (R45). -/
  | suspendReceive (d : DevRef) (blocks : List Block) (idle : Bool)
  /-- A port sends 16 SUSPEND blocks after its next COURSE_START and enters SUSPENDED (R110). -/
  | portSuspendEntry (p : PortRef)
  /-- 8 consecutive WAKE blocks recognised by a suspended receiver (R46). -/
  | wakeRecognised (x : Side) (blocks : List Block)
  /-- A remote-wake capable node in suspend starts sending WAKE (R112). -/
  | nodeRemoteWake (d : Pos)
  /-- A port's 2 ms WAKE ends and training resumes from TR_LOCK (R54). -/
  | wakeSendEnd (p : PortRef)
  /-- Upstream side sends PING in block E0 of each course (R133). -/
  | pingSend (p : PortRef)
  /-- Downstream side consumes PING and answers PONG at E1 of its grid (R133). -/
  | pingReceive (d : DevRef) (b : Block) (hold : Nat)
  /-- Upstream side takes a one-way delay sample from PONG (R134). -/
  | pongReceive (p : PortRef) (b : Block) (rtt : Nat) (late : Bool)
  /-- A node discards pending releases and takes its stop action on a valid STOP (R272). -/
  | stopReceive (x : Side) (b : Block)
  /-- A hub routes a downstream packet by route nibble or consumes it (R72). -/
  | hubDownstreamForward (h : Pos) (pkt : Wire)
  /-- A hub forwards upstream blocks, resolving collisions by port number (R75). -/
  | hubUpstreamForward (h : Pos) (arrivals : List (Fin 16 × Wire))
  /-- A node handles an intact OUT by toggle, hold flag and room, and answers (R80). -/
  | outReceive (d : Pos) (pkt : Wire) (busy : Bool)
  /-- A node answers an IN token with DATA, NAK or STALL (R80). `sample`: the newest data it has; `busy`: the effect of a write is not
  complete (R84). -/
  | inTokenReceive (d : Pos) (pkt : Wire) (sample : Option (List Word)) (busy : Bool := false)
  /-- A node starts or recognises a duplicate control transfer on SETUP (R84). `own`: what the node's own class and vendor requests answer,
  with the data of a read; none: it has no such request. -/
  | setupReceive (d : Pos) (pkt : Wire) (own : Option (List Word) := none)
  /-- A node takes an HS ACK or BULK_ACK and advances its send toggle or frees packets (R80). -/
  | nodeHandshakeReceive (d : Pos) (pkt : Wire)
  /-- A node fires a pending timed release at its release time (R68). -/
  | releaseFire (d : Pos) (ep : BitVec 4)
  /-- A course starts: COURSE_START is sent and rate, steps and sequencing advance (R123). -/
  | courseBoundary (eyes : List (PortRef × BitVec 8 × BitVec 8))
  /-- A threshold window of TRK_THR_WIN plan cycles ends and a new one starts (R57). -/
  | marginWindowEnd (p : PortRef)
  /-- The planner finishes building a shadow plan and marks it ready (R126). -/
  | planMarkedReady
  /-- Each course period in HOLDOVER the uncertainty grows by WANDER × P (R140). -/
  | holdoverTick
  /-- A PPS_IN edge is stamped and steers bus time (R139). `stamp`: bus time of the edge, 1/64 ns; `fall`: it is a falling one. -/
  | ppsEdge (stamp : Nat) (fall : Bool := false)
  /-- No PPS edge within ±1 ms of the expected second (R139). -/
  | ppsMissing
  /-- LOCK_CNT consecutive pulses within LOCK_THR make time quality LOCKED (R140). -/
  | ppsLock
  /-- PPS_OUT rises where bus time minus OFS is a whole second (R145). -/
  | ppsOutEdge
  /-- Core PLL relock or reference change, with bus time reconstructed (R143). AO ticks without a clock, and the trunks that lost
  theirs. -/
  | coreClockChange (ticks : Nat) (lost : BitVec 16)
  /-- The stage window of a slot course opens and a waiting descriptor binds (R151). -/
  | stageWindowOpen (ctx : Nat) (course : BitVec 48)
  /-- At S_c − 2 µs incomplete staging completes NOT_ACCEPTED or an underrun counts (R153). -/
  | acceptanceDeadline (ctx : Nat) (course : BitVec 48)
  /-- Ring fetch issues a descriptor read once cache room and tags allow (R209). -/
  | ringFetchIssue (ctx : Nat)
  /-- A descriptor read completes, or fails and holds the flow (R209). -/
  | descriptorArrival (ctx : Nat) (i : BitVec 16) (e : ReadEnd) (w : List Byte)
  /-- Stage fetch issues a data read in deadline order once tags and words allow (R211). -/
  | stageFetchIssue (ctx : Nat)
  /-- A stage read completes, accepting the transfer or failing it on error (R214). -/
  | stageReadComplete (ctx : Nat) (i : BitVec 16) (e : ReadEnd) (data : List Byte)
  /-- Write-back issues input data to host memory when posted credit allows (R215). -/
  | inputWriteBack (ctx : Nat) (i : BitVec 16) (credit : Bool)
  /-- Write-back or release has waited 2 µs and a HOST_STALL interval opens (R174). -/
  | hostStallOpen (i : Fin 512) (waits : BitVec 3)
  /-- The wait ends and held writes issue, closing the interval with an event (R174). -/
  | hostStallClose (i : Fin 512)
  /-- Ordered release writes one final completion entry per CCLK in domain order (R222). -/
  | completionRelease
  /-- The dispatcher hands a resolved plan entry or the best ready task to an engine (R235). `fw`: what firmware does to its
  tasks in that cycle. -/
  | dispatchDecision (fw : List FwOp := [])
  /-- The firmware chooser hands the best ready firmware task to an idle core (R235). -/
  | firmwareTaskDispatch (core : Fin 4)
  /-- An armed task delay expires and sets TIME (R239). -/
  | delayExpiry (ctx : Nat)
  /-- A task READY for AGE courses is served as priority 0 (R236). -/
  | taskAged (ctx : Nat)
  /-- An engine queues its packet or token and returns the task (R253). -/
  | engineTaskReturn (e : Fin 16)
  /-- The trunk sends a queued packet at its stamped slot, or drops a missed one as HELD (R254). `check`: the errors in its staged
  words. -/
  | packetTransmit (t : Fin 16) (check : StageCheck := ⟨0, none⟩)
  /-- An engine classes a response that arrives on a trunk and decides success, STALL or further packets (R257). `pkt`: the
  trunk, and the response. -/
  | responseMatch (e : Fin 16) (pkt : Fin 16 × Wire)
  /-- A response window closes and a failure is established (R256). -/
  | responseWindowClose (e : Fin 16)
  /-- STOP_IN_N held low triggers STOP with reason 0x1 (R269). -/
  | stopInLow (ns : Nat)
  /-- Firmware takes the next visible command when EXEC and completion room allow (R282). -/
  | commandTake (i : Fin 512) (e : ReadEnd) (entry : List Byte)
  /-- A taken command starts once no earlier command holds its object or fence (R286). -/
  | commandStart (c : CmdRef)
  /-- An engine with no old-epoch work acknowledges, and the last one completes the reset (R330). -/
  | engineEpochAck (e : Fin 16) (i : Fin 512)
  /-- A frozen instance drains all in-flight items and becomes quiescent (R334). -/
  | instanceQuiescent (i : Fin 512)
  /-- Firmware enumerates a port that reached DISABLED by attach (R96). -/
  | autoEnumerate (p : PortRef) (a : Answer)
  /-- T_READY expires without an answer and the port goes to DISABLED (R96). -/
  | enumFail (p : PortRef)
  /-- A re-seat window ends without a match and the flows stay HELD (R117). -/
  | reseatExpired (addr : BitVec 12)
  /-- Firmware powers the next hub port at least 10 ms after the previous one (R96). -/
  | hubPortPowerStep (h : Pos)
  /-- Firmware's retry timer for a faulted hub port expires (R91). -/
  | hubPortRetryExpiry (h : Pos) (p : Fin 16)
  /-- The gutter chooses a member for an eligible source and delivers it (R350). -/
  | gutterDecision
  /-- A group's hold-off gap to a member ends (R352). -/
  | holdoffEnd (group : BitVec 8) (member : Nat)
  /-- A management core takes an in-flight delivery (R354). -/
  | coreDeliveryTaken (core : Fin 4)
  /-- A PMCSR write changes the function's D-state, releasing HELD vectors on return to D0 (R356). `pmeEn` is PME_En as written. -/
  | powerStateChange (d : DStateCode) (pmeEn : Bool)
  /-- A change of MSI-X Enable or Function Mask changes whether the function can receive (R356). -/
  | msixControlChange (enable mask : Bool)
  /-- Unmasking a vector in the MSI-X table sends its PBA-pending message (R355). -/
  | vectorUnmask (v : Fin 2048)
  /-- A member takes the ridge's pace record and relays it on GA (R372). -/
  | pacePacketReceive (pkt : Wire)
  /-- 64 consecutive samples within 1.0 ns reach ridge lock (R379). -/
  | ridgeLockGained
  /-- Two courses without a sample lose ridge lock and time goes to HOLDOVER (R379). -/
  | ridgeLockLost
  /-- Lease missing in 8 consecutive courses takes a member to LEASE_LOST and Run to Hold (R381). -/
  | leaseLost
  /-- Lease present in 8 consecutive courses leaves LEASE_LOST (R381). -/
  | leaseRestored
  /-- The 2 s decision interval of a controller without RIDGE_ALLOWED ends and its role is decided (R366). -/
  | gangDecisionEnd
  /-- GANG_JOIN reaches 2 s and completes with the state found (R376). -/
  | gangJoinTimeout
  /-- A faulted GA retries after 1 s (R364). -/
  | gangPortRetry
  /-- Setting EN moves an estimator from OFF to ACQUIRING (R187). -/
  | estimatorEnable (e : Fin 8) (v : Reg32)
  /-- A decoded edge re-anchors the estimator and updates rate and bounds (R186). `hold`: how long its level is held, ns. -/
  | encoderEdge (n : Fin 8) (a b : Bool) (stamp : BusTime) (hold : Nat := 80)
  /-- An index edge sets or checks the estimator position (R182). `hold`: how long its level is held, ns. -/
  | indexEdge (n : Fin 8) (stamp : BusTime) (hold : Nat := 80)
  /-- Two consecutive missing samples or records take the estimator to LOST (R184). -/
  | sourceLost (e : Fin 8)
  /-- No edge for STOP_CYC plan cycles returns a tracking estimator to ACQUIRING (R187). -/
  | estimatorStopped (e : Fin 8)
  /-- The PMU sends SLEEP_REQ to a domain and acts on the answers (R394). -/
  | sleepRequest (dom : Fin 12) (answers : List SleepAnswer)
  /-- A deferred handshake's retry time passes and the PMU asks again (R394). -/
  | deferRetry (dom : Fin 12)
  /-- A block silent for 32 CCLK makes the PMU abandon the entry (R394). -/
  | handshakeNoAnswer (dom : Fin 12)
  /-- After ports are SUSPENDED the PMU runs the domain handshakes to enter Standby or Dormant (R393). -/
  | standbyEntry (answers : List (Fin 12 × List SleepAnswer)) (busy : Bool)
  /-- An enabled wake source becomes active and wakes domains or the controller (R398). -/
  | wakeSourceActive (n : Fin 32)
  /-- An access or request to a sleeping domain starts its wake (R400). -/
  | domainWakeRequest (dom : Fin 12)
  /-- A domain finishes waking, checks canaries and serves stalled accesses (R404). -/
  | domainWakeComplete (dom : Fin 12) (bad : BitVec 64) (run : StartEnv)
  /-- The course sequencer wakes domains and banks ahead of a course (R402). -/
  | prewake
  /-- A stage bank idle for BANK_IDLE CCLK enters OFF or RETAINED (R401). -/
  | bankIdleGate (b : Fin 64)
  /-- A background scrub scans a bank and compares its checksum (R404). `corrected`: words that it corrected (R214). -/
  | scrubPass (b : Fin 64) (bad : Bool) (corrected : Nat := 0)
  /-- Once its transfers are resolved a lost bank is cleared and returns to service (R405). -/
  | bankRestore (b : Fin 64)
  /-- 5 µs after SRAM_RET falls the PMU wakes domains (R489). -/
  | sramRetRelease
  /-- Each 1 µs tick applies requests, evaluates faults, feeds and power good, and advances ramps (R413). -/
  | ppmTick (samples : List PpmSample)
  /-- Three samples below 0.9 × ILIM release the limit (R416). -/
  | limitRelease (n : Fin 16)
  /-- The fault timer expires and the port enters FAULT with OVERCURRENT (R416). -/
  | faultTimerExpiry (n : Fin 16)
  /-- A ramp without power good within RAMP_TMO enters FAULT (R416). -/
  | rampTimeout (n : Fin 16)
  /-- ISNS crosses the fast-trip threshold and GEN_n drops asynchronously (R417). -/
  | fastTrip (n : Fin 16)
  /-- A port's retry timer expires and it ramps again or locks out (R420). -/
  | ppmRetryExpiry (n : Fin 16)
  /-- PG_n high for 60 s without a break clears RETRIES (R420). -/
  | retriesClear (n : Fin 16)
  /-- The PPM oscillator starts after the first power request (R412). -/
  | oscillatorStart
  /-- A feed at or above UV for 1 ms becomes good (R422). -/
  | feedGood (g : Fin 4) (b : Bool)
  /-- Two samples below UV lose a feed and the group switches or enters NONE (R423). -/
  | feedLost (g : Fin 4) (b : Bool)
  /-- A group's dead time ends and the next feed is selected (R423). -/
  | deadTimeEnd (g : Fin 4)
  /-- Feed A good for RETURN_S starts the return from B (R423). -/
  | feedReturn (g : Fin 4)
  /-- Blanking ends 1 ms after a dead time (R424). -/
  | blankingEnd (g : Fin 4)
  /-- PORST_N starts a cold start that resets everything (R432). -/
  | porst (run : StartEnv)
  /-- WRST_N triggers a warm start (R434). -/
  | wrst (run : StartEnv)
  /-- A start step exceeds its time and the start fails (R432). -/
  | startStepTimeout (code : BitVec 8) (run : StartEnv)
  /-- The firmware watchdog expires after 100 ms and warm starts (R434). -/
  | watchdog (run : StartEnv)
  /-- A start survives 10 s: attempts clear, HEALTHY sets and rollback may advance (R434). -/
  | successWindowEnd
  /-- PERST_N low puts the function in D3cold and resets instances outside Dormant and Standby (R431). -/
  | perstAssert
  /-- PERST_N rises, releasing WAKE_N and waking PD_HOST (R399). -/
  | perstDeassert
  /-- Function level reset disables mailboxes, holds Run and resets instances (R430). -/
  | flr
  /-- CLKREQ_N low requests L1 exit and wakes PD_HOST (R398). -/
  | l1ExitRequest
  /-- WAKEIN0_N or WAKEIN1_N held low is a wake source (R398). -/
  | wakein (n : Fin 2) (low : Bool)
  /-- The AO counter reaches the armed compare value (R398). -/
  | aoTimer
  /-- JTAG instruction that stops, zeroes tenant arrays and opens debug access (R444). -/
  | dbgUnlock
  /-- JTAG BYPASS instruction (R443). -/
  | bypass
  /-- JTAG IDCODE instruction returning 0x1751_254F (R443). -/
  | idcode
  /-- JTAG SAMPLE/PRELOAD instruction (R443). -/
  | samplePreload (pins preload : BitVec 247)
  /-- JTAG EXTEST instruction driving the balls (R443). -/
  | extest
  /-- JTAG CLAMP instruction holding the balls (R443). -/
  | clamp
  /-- JTAG HIGHZ instruction floating the outputs (R443). -/
  | highz
  /-- Host read of a register whose read clears RC fields or latches _HI companions (R471). `bytes` are read from `addr` on. -/
  | registerRead (bar2 : Bool) (addr : BitVec 25) (bytes : Nat)
  /-- A management core returns its firmware task, which leaves IN_HAND and is evaluated afresh (R237). -/
  | firmwareTaskReturn (core : Fin 4)
  /-- A core finishes a fast-class delivery and frees its second register bank for the next fast decision (R353). -/
  | fastBankRelease (core : Fin 4)
  /-- A CONTROL_XFER not finished after 500 ms ends with transfer status LASTING (R303). -/
  | controlXferTimeout (c : CmdRef)
  /-- STOP_IN_N returns high, clearing PIN_LOW and one condition that blocks leaving Hold (R276). -/
  | stopInRelease
  /-- A supply leaves its operating range while PORST_N is high and a fatal-class SUPPLY error is recorded (R449). -/
  | supplyFault (n : Fin 7)
  /-- The PCIe link goes down without PERST_N, recorded as a fatal-class host error and HIF_EVENT bit (R449). -/
  | surpriseDown (ltssm : Reg32)
  /-- The host interface detects an uncorrectable PCIe error, logs AER_UNCORRECTABLE and sets HIF_EVENT.AER_UNCORR (R480). -/
  | aerUncorrectable (status : Reg32)
  /-- A hub detects over-current on a port, removes its power and the port enters FAULT with cause POWER (R91). -/
  | hubPortOvercurrent (h : Pos) (p : Fin 16)
  /-- The 32.768 kHz AO counter advances, at which the PMU snapshots and the TAPU reconstructs bus time (R142). -/
  | aoTick
  /-- A node finishes its start-up after its link reaches UP and begins to answer packets at address 0 (R78). -/
  | nodeReady (d : Pos)
  /-- The host enables LTR in configuration space and the controller sends an LTR message (R480). -/
  | ltrEnable
deriving DecidableEq, Repr

end Sys2Proof
end

