-- ==== Sys2Proof/Decode.lean ====
section
/-!
DEFINITION. The command that a word of the opcode table spells. The table gives no row any bits: commands come over PCIe, links and
pins, not as words of one encoding. So no word spells a command.
-/

namespace Sys2Proof

/-- The command that `nbits` bits `w` spell by the table: none, for no row has bits. -/
def decodeTableWord (_nbits _w : Nat) : Option Instr := none

end Sys2Proof
end

