-- ==== Sys2Proof/Config.lean ====
section
/-!
DEFINITION. What an implementation fixes and what the spec leaves open: OTP and straps of the part at hand, and the free values
(opaque constants, so that no proof can rest on a value of them).
-/

namespace Sys2Proof.Config

/-- The 64 OTP words of the part as it left the factory (R442). The identity, the key digests and the trims differ from part to
part (R479), so they are free. Assumption 12. -/
opaque otpWord : Fin 64 → Reg32

/-- The straps GANG_ID[2:0] of the board (R366, R479). Assumption 12. -/
opaque gangIdStraps : BitVec 3

/-- The flash content of a slot before anything was staged: the image with which the board was built, 7 MiB from the slot base
(R437). Assumption 13. -/
opaque factoryImage : Bool → List Byte

/-- SHA-256, as R439 names it; its definition is outside the spec. Assumption 14. -/
opaque sha256 : List Byte → List Byte

/-- Verification of an ECDSA P-256 signature: public key, signature, digest (R439). Assumption 14. -/
opaque ecdsaVerify : List Byte → List Byte → List Byte → Bool

/-- A free word: the spec states no value. Applied to a counter that State holds and advances. Assumption 15. -/
opaque freeWord : Nat → BitVec 64

/-- A free decision: the spec allows either outcome. Assumption 15. -/
opaque freeBool : Nat → Bool

/-- The maker code and the upstream grid offset that GB's node descriptor carries (R97); R365 does not state them. Assumption 15. -/
opaque gbMaker : BitVec 16

/-- See `gbMaker`. -/
opaque gbGrid : BitVec 8

end Sys2Proof.Config
end

