-- ==== Sys2Proof/Machine/Codec.lean ====
section
/-!
DEFINITION. Codes on the links: blocks and their check (R30, R31), the scrambler (R34, R35), control ordered sets (R37–R39), CRCs (R71),
headers, trailers and handshakes (R63, R69, R70).
-/

namespace Sys2Proof.Machine

/-- Bits `hi` down to `lo` of a number, as a number. -/
def bitsOf (v hi lo : Nat) : Nat := (v >>> lo) % 2 ^ (hi + 1 - lo)

/-- Bits of a word, as a number. -/
def wbits (w : Word) (hi lo : Nat) : Nat := bitsOf w.toNat hi lo

/-- XOR of the bits of a payload at positions `i`, `i - 2`, … -/
def xorEvery (p : Word) : Nat → Bool
  | 0 => p.getLsbD 0
  | 1 => p.getLsbD 1
  | n + 2 => (p.getLsbD (n + 2)).xor (xorEvery p n)

/-- The check of a payload (R30). -/
def checkOf (p : Word) : BitVec 2 :=
  BitVec.ofBool (xorEvery p 35) ++ BitVec.ofBool (xorEvery p 34)

/-- A block with a sync header and a payload, its check computed (R30). -/
def mkBlock (sync : BitVec 2) (p : Word) : Block := sync ++ p ++ checkOf p

/-- Payload of a block. -/
def Block.payload (b : Block) : Word := b.extractLsb' 2 36

/-- Sync header of a block. -/
def Block.sync (b : Block) : BitVec 2 := b.extractLsb' 38 2

/-- The check of a block agrees with its payload (R31). -/
def Block.checkOk (b : Block) : Bool := b.extractLsb' 0 2 == checkOf (Block.payload b)

/-- An intact control block (R30). -/
def Block.isControl (b : Block) : Bool := Block.sync b == 0b10#2 && Block.checkOk b

/-- An intact data block. -/
def Block.isData (b : Block) : Bool := Block.sync b == 0b01#2 && Block.checkOk b

/-- Code and argument of a control block (R37). -/
def Block.code (b : Block) : Nat := wbits (Block.payload b) 35 28
def Block.arg (b : Block) : Nat := wbits (Block.payload b) 27 0

/-- A control block of a code and an argument. -/
def ctlBlock (code arg : Nat) : Block :=
  mkBlock 0b10#2 (BitVec.ofNat 36 (code * 2 ^ 28 + arg % 2 ^ 28))

/-! Control codes (R37). -/
def cIdle : Nat := 0x1E
def cCourseStart : Nat := 0x2D
def cStop : Nat := 0x4B
def cWake : Nat := 0x55
def cChirp : Nat := 0x5A
def cChirpAck : Nat := 0xA5
def cTrain : Nat := 0x66
def cPing : Nat := 0x78
def cPong : Nat := 0x87
def cSuspend : Nat := 0x99

/-- The STOP block of a reason and the course number of the trigger (R37, R44). -/
def stopBlock (reason : BitVec 4) (course : Nat) : Block :=
  ctlBlock cStop (reason.toNat * 2 ^ 24 + course % 2 ^ 24)

/-- The argument of a control block follows the layout of its set (R37, R38). An IDLE argument is judged against the scrambler by R32,
not here. -/
def argOk (code arg : Nat) : Bool :=
  if code = cIdle ∨ code = cCourseStart ∨ code = cStop then true
  else if code = cWake then arg == 0xAAAAAAA
  else if code = cChirp then bitsOf arg 27 22 == 0 && bitsOf arg 19 0 == 0x5A5A5
  else if code = cChirpAck then bitsOf arg 27 21 == 0 && bitsOf arg 20 20 == 1 && bitsOf arg 19 0 == 0xA5A5A
  else if code = cTrain then
    bitsOf arg 27 26 != 3 && bitsOf arg 19 18 != 0 && bitsOf arg 17 16 == 0
  else if code = cPing then bitsOf arg 19 0 == 0
  else if code = cPong then true
  else if code = cSuspend then bitsOf arg 27 4 == 0
  else false

/-- A valid control block of a given set. -/
def Block.isSet (b : Block) (code : Nat) : Bool :=
  Block.isControl b && Block.code b == code && argOk code (Block.arg b)

/-- How many of the last blocks of a list, in a row, satisfy a test. -/
def runAtEnd (f : Block → Bool) (bs : List Block) : Nat :=
  bs.foldl (fun n b => if f b then n + 1 else 0) 0

/-- The longest run of blocks that satisfy a test. -/
def longestRun (f : Block → Bool) (bs : List Block) : Nat :=
  (bs.foldl (fun (x : Nat × Nat) b =>
    let n := if f b then x.1 + 1 else 0
    (n, max x.2 n)) (0, 0)).2

/-! The scrambler. -/

/-- Seed of a course number (R35). -/
def scrSeed (course : BitVec 24) : BitVec 31 := 0x5A3C96E1#31 ^^^ course.zeroExtend 31

/-- One bit: the output and the next state (R34). -/
def scrBit (s : BitVec 31) : Bool × BitVec 31 :=
  let o := (s.getLsbD 30).xor (s.getLsbD 27)
  (o, (s <<< 1) ||| (BitVec.ofBool o).zeroExtend 31)

/-- `n` more bits, the first in the highest place. -/
def scrBits : Nat → BitVec 31 → Nat → Nat × BitVec 31
  | 0, s, acc => (acc, s)
  | n + 1, s, acc =>
    let x := scrBit s
    scrBits n x.2 (acc * 2 + x.1.toNat)

/-- The output for one block, and the state after it (R34). -/
def scrBlock (s : BitVec 31) : Word × BitVec 31 :=
  let x := scrBits 36 s 0
  (BitVec.ofNat 36 x.1, x.2)

/-- The scrambler state for block `k` of a course, its seed being the state for block 1 (R34, R35). -/
def scrAt (seed : BitVec 31) : Nat → BitVec 31
  | 0 => seed
  | 1 => seed
  | k + 2 => (scrBlock (scrAt seed (k + 1))).2

/-- Words as data blocks, scrambled from a state on; the check covers the payload as it appears on the wire (R31, R34). -/
def scramble (s : BitVec 31) : List Word → List Block
  | [] => []
  | w :: ws => mkBlock 0b01#2 (w ^^^ (scrBlock s).1) :: scramble (scrBlock s).2 ws

/-- Blocks as a receiver reads them from a state on: the check first, then the descrambler; the sequence advances whatever the block is
(R31, R32, R34). -/
def descramble (s : BitVec 31) : List Block → Packet
  | [] => []
  | b :: bs => (if Block.isData b then some (Block.payload b ^^^ (scrBlock s).1) else none) :: descramble (scrBlock s).2 bs

/-- Words put on a link from block `k` of a course on. -/
def onWire (seed : BitVec 31) (k : Nat) (ws : List Word) : Wire := ⟨false, k, scramble (scrAt seed k) ws⟩

/-- Blocks on a link as the receiver has them. -/
def Wire.read (seed : BitVec 31) (w : Wire) : Packet := descramble (scrAt seed w.first) w.blocks

/-- Blocks taken from one place of a sequence to another: data descrambled and scrambled again, a block in error with sync header 0b00
(R32, R36). -/
def rescramble (s t : BitVec 31) : List Block → List Block
  | [] => []
  | b :: bs =>
    (if Block.isData b then mkBlock 0b01#2 (Block.payload b ^^^ (scrBlock s).1 ^^^ (scrBlock t).1) else b &&& 0x3FFFFFFFFF) ::
      rescramble (scrBlock s).2 (scrBlock t).2 bs

/-- The argument of an IDLE block at block `k` of a course (R34). -/
def idleArg (seed : BitVec 31) (k : Nat) : Nat := (scrBlock (scrAt seed k)).1.toNat % 2 ^ 28

/-- IDLE at block `k` of a course (R34, R37). -/
def idleBlock (seed : BitVec 31) (k : Nat) : Block := ctlBlock cIdle (idleArg seed k)

/-- A block with sync header 0b00 (R32). -/
def Block.killed (b : Block) : Block := b &&& 0x3FFFFFFFFF

/-- A block that R32 calls an error; `idle`: the argument that a course-synchronised receiver expects of IDLE. -/
def Block.faulty (idle : Option Nat) (b : Block) : Bool :=
  !(Block.isData b || (Block.isControl b && argOk (Block.code b) (Block.arg b))) ||
    (Block.isControl b && Block.code b == cIdle && (match idle with | some a => Block.arg b != a | none => false))

/-! CRCs (R71). -/

/-- One bit into a CRC register. -/
def crcBit (width poly reg : Nat) (b : Bool) : Nat :=
  let top := (reg >>> (width - 1) % 2 == 1).xor b
  let r := (reg <<< 1) % 2 ^ width
  if top then r ^^^ poly else r

/-- The top `n` bits of a word of `w` bits, from bit `w - 1` down. -/
def crcTop (width poly : Nat) (v : Nat) (w : Nat) : Nat → Nat → Nat
  | 0, reg => reg
  | n + 1, reg => crcTop width poly v (w - 1) n (crcBit width poly reg (v.testBit (w - 1)))

/-- Whole words, in order. -/
def crcWords (width poly : Nat) (ws : List Word) (reg : Nat) : Nat :=
  ws.foldl (fun r w => crcTop width poly w.toNat 36 36 r) reg

/-- CRC-8 over H0 and H1[35:8]. -/
def crc8 (h0 h1 : Word) : Nat :=
  crcTop 8 0x07 h1.toNat 36 28 (crcWords 8 0x07 [h0] 0xFF)

/-- CRC-7 over a handshake's bits [35:7]. -/
def crc7 (h : Word) : Nat := crcTop 7 0x09 h.toNat 36 29 0x7F

/-- CRC-32 over H0, H1, the payload words and the trailer's bits [35:32]. -/
def crc32 (ws : List Word) (trailer : Word) : Nat :=
  crcTop 32 0x04C11DB7 trailer.toNat 36 4 (crcWords 32 0x04C11DB7 ws 0xFFFFFFFF) ^^^ 0xFFFFFFFF

/-- CRC-32 over bytes, most significant bit of each byte first (R438, R288). -/
def crc32Bytes (bs : List Byte) : BitVec 32 :=
  BitVec.ofNat 32 ((bs.foldl (fun r b => crcTop 32 0x04C11DB7 b.toNat 8 8 r) 0xFFFFFFFF) ^^^ 0xFFFFFFFF)

/-! Packets. -/

/-- The fields of a header (R63). -/
structure Header where
  ty : Nat
  route : BitVec 16
  addr : BitVec 12
  hold : Bool
  noack : Bool
  ep : BitVec 4
  seq : BitVec 5
  len : Nat
  rel : BitVec 2
  tag : BitVec 10
deriving DecidableEq, Repr

def tOut : Nat := 1
def tIn : Nat := 2
def tSetup : Nat := 3
def tData : Nat := 4
def tHs : Nat := 5
def tBulkAck : Nat := 6

/-- H0 of a header (R63). -/
def Header.h0 (h : Header) : Word :=
  BitVec.ofNat 36 (h.ty * 2 ^ 32 + h.route.toNat * 2 ^ 16 + h.addr.toNat * 2 ^ 4 + h.hold.toNat * 8 + h.noack.toNat * 4)

/-- H1 of a header, its CRC-8 in place (R63). -/
def Header.h1 (h : Header) : Word :=
  let w := BitVec.ofNat 36 (h.ep.toNat * 2 ^ 32 + h.seq.toNat * 2 ^ 27 + h.len % 128 * 2 ^ 20 + h.rel.toNat * 2 ^ 18 +
    h.tag.toNat * 2 ^ 8)
  w ||| BitVec.ofNat 36 (crc8 h.h0 w)

/-- The header that two words spell. -/
def headerOf (h0 h1 : Word) : Header where
  ty := wbits h0 35 32
  route := BitVec.ofNat 16 (wbits h0 31 16)
  addr := BitVec.ofNat 12 (wbits h0 15 4)
  hold := h0.getLsbD 3
  noack := h0.getLsbD 2
  ep := BitVec.ofNat 4 (wbits h1 35 32)
  seq := BitVec.ofNat 5 (wbits h1 31 27)
  len := wbits h1 26 20
  rel := BitVec.ofNat 2 (wbits h1 19 18)
  tag := BitVec.ofNat 10 (wbits h1 17 8)

/-- The CRC-8 of a header holds. -/
def crc8Ok (h0 h1 : Word) : Bool := wbits h1 7 0 == crc8 h0 h1

/-- The trailer of a data packet (R69). -/
def mkTrailer (h : Header) (payload : List Word) (last abort : Bool) : Word :=
  let t := BitVec.ofNat 36 (last.toNat * 2 ^ 35 + abort.toNat * 2 ^ 34)
  t ||| BitVec.ofNat 36 (crc32 ([h.h0, h.h1] ++ payload) t)

/-- The words of a data packet: H0, H1, payload, trailer. `abort`: the sender could not supply the payload correctly. -/
def dataPacket (h : Header) (payload : List Word) (last : Bool) (abort : Bool := false) : List Word :=
  [h.h0, h.h1] ++ payload ++ [mkTrailer h payload last abort]

/-- The words of a token. -/
def tokenPacket (h : Header) : List Word := [h.h0, h.h1]

/-- A handshake block (R70). -/
structure Shake where
  bulk : Bool
  code : BitVec 4
  addr : BitVec 12
  ep : BitVec 4
  seq : BitVec 5
deriving DecidableEq, Repr

def hsAck : BitVec 4 := 1
def hsNak : BitVec 4 := 2
def hsStall : BitVec 4 := 3
def hsNyet : BitVec 4 := 4

/-- The word of a handshake, its CRC-7 in place. -/
def Shake.word (k : Shake) : Word :=
  let w := BitVec.ofNat 36 ((if k.bulk then tBulkAck else tHs) * 2 ^ 32 + k.code.toNat * 2 ^ 28 + k.addr.toNat * 2 ^ 16 +
    k.ep.toNat * 2 ^ 12 + k.seq.toNat * 2 ^ 7)
  w ||| BitVec.ofNat 36 (crc7 w)

/-- A packet as its receiver reads it. -/
inductive Parsed where
  /-- A data packet that passes its checks: header, payload, LAST and ABORT. -/
  | data (h : Header) (payload : List Word) (last abort : Bool)
  | token (h : Header)
  | shake (k : Shake)
  /-- A block error or a CRC that fails; the second says whether every block was intact, so that it is a CRC failure (R264). -/
  | bad (crc : Bool)
  /-- A reserved type, code or release mode, or no block at all: discarded without a response (R62, R66, R70). -/
  | ignored
deriving DecidableEq, Repr

/-- Reads a handshake word (R70). -/
def parseShake (w : Word) : Parsed :=
  if wbits w 6 0 ≠ crc7 w then .bad true
  else
    let bulk := wbits w 35 32 == tBulkAck
    let code := BitVec.ofNat 4 (wbits w 31 28)
    if !bulk && (code == 0 || code > hsNyet) then .ignored
    else .shake ⟨bulk, code, BitVec.ofNat 12 (wbits w 27 16), BitVec.ofNat 4 (wbits w 15 12), BitVec.ofNat 5 (wbits w 11 7)⟩

/-- Reads the words of a packet whose blocks were all intact (R62–R70). -/
def parseWords : List Word → Parsed
  | [] => .ignored
  | h0 :: rest =>
    let ty := wbits h0 35 32
    if ty = tHs ∨ ty = tBulkAck then (if rest.isEmpty then parseShake h0 else .bad false)
    else if ty = 0 ∨ ty > tBulkAck then .ignored
    else
      match rest with
      | [] => .bad false
      | h1 :: body =>
        if crc8Ok h0 h1 then
          let h := headerOf h0 h1
          if ty = tIn then (if body.isEmpty then .token h else .bad false)
          else if body.length ≠ h.len + 1 then .bad false
          else
            let payload := body.take h.len
            match body.drop h.len with
            | [t] =>
              if wbits t 31 0 = crc32 ([h0, h1] ++ payload) t then .data h payload (t.getLsbD 35) (t.getLsbD 34) else .bad true
            | _ => .bad false
        else .bad true

/-- The words of a packet, if every block was intact. -/
def wholeWords : Packet → Option (List Word)
  | [] => some []
  | none :: _ => none
  | some w :: p => (wholeWords p).map (w :: ·)

/-- Reads a received packet: a block error damages it (R32). -/
def parsePacket (p : Packet) : Parsed :=
  match wholeWords p with
  | some ws => parseWords ws
  | none => .bad false

/-- Bits of little-endian bytes as a number. -/
def leNat : List Byte → Nat
  | [] => 0
  | b :: bs => b.toNat + 256 * leNat bs

/-- `n` bytes of a number, least significant first (R2). -/
def leBytes : Nat → Nat → List Byte
  | 0, _ => []
  | n + 1, v => BitVec.ofNat 8 v :: leBytes n (v / 256)

/-- Bytes `lo` to `lo + n - 1` of a list as a little-endian number. -/
def fieldAt (bs : List Byte) (lo n : Nat) : Nat := leNat ((bs.drop lo).take n)

/-- Words in lane format; bits 63–36 are ignored (R2). -/
def laneWords (data : List Byte) : List Word := (List.range (data.length / 8)).map fun k => BitVec.ofNat 36 (fieldAt data (8 * k) 8)

/-- Words in packed format: of each 9 bytes the low 36 bits are the even word, the high 36 bits the odd one (R3). -/
def packedWords (data : List Byte) : List Word :=
  (List.range (data.length / 9)).flatMap fun k =>
    let g := fieldAt data (9 * k) 9
    [BitVec.ofNat 36 g, BitVec.ofNat 36 (g / 2 ^ 36)]

end Sys2Proof.Machine

namespace Sys2Proof

open Sys2Proof.Machine

/-! Fields of a setup (R85). -/

def Setup.dir (q : Setup) : Bool := q.w0.getLsbD 35
def Setup.kindN (q : Setup) : Nat := wbits q.w0 34 32
def Setup.code (q : Setup) : Nat := wbits q.w0 31 24
def Setup.value (q : Setup) : Nat := wbits q.w0 23 0
def Setup.index (q : Setup) : Nat := wbits q.w1 35 20
def Setup.count (q : Setup) : Nat := wbits q.w1 11 0

end Sys2Proof
end

