-- ==== Sys2Proof/Machine/KMap.lean ====
section
/-!
DEFINITION. Keyed lists: a list of (key, value) pairs, keys strictly rising, as the machine's sparse tables are held. A table with
a default leaves out every entry that equals what an unlisted key reads as, so that equal tables are equal data.
-/

namespace Sys2Proof.Machine

/-- A sparse table keyed by a number. -/
abbrev KMap (α : Type) := List (Nat × α)

/-- The entry of a key, if listed. -/
def kget {α : Type} : KMap α → Nat → Option α
  | [], _ => none
  | (k, v) :: m, i => if i = k then some v else kget m i

/-- Write an entry, keys kept rising. -/
def kset {α : Type} : KMap α → Nat → α → KMap α
  | [], i, v => [(i, v)]
  | (k, w) :: m, i, v =>
    if i < k then (i, v) :: (k, w) :: m
    else if i = k then (i, v) :: m
    else (k, w) :: kset m i v

/-- Remove the entry of a key. -/
def kdel {α : Type} : KMap α → Nat → KMap α
  | [], _ => []
  | (k, w) :: m, i => if i = k then m else (k, w) :: kdel m i

/-- Write an entry of a table with a default: the default value removes the entry. -/
def kput {α : Type} [DecidableEq α] (dflt : α) (m : KMap α) (i : Nat) (v : α) : KMap α :=
  if v = dflt then kdel m i else kset m i v

/-- Change an entry that is listed. -/
def kmod {α : Type} (m : KMap α) (i : Nat) (f : α → α) : KMap α :=
  m.map fun e => if e.1 = i then (e.1, f e.2) else e

/-- Every key of `m` is above `b`, and the keys rise strictly. -/
def kabove {α : Type} : Nat → KMap α → Bool
  | _, [] => true
  | b, (k, _) :: m => decide (b < k) && kabove k m

/-- Keys strictly rising. -/
def ksorted {α : Type} : KMap α → Bool
  | [] => true
  | (k, _) :: m => kabove k m

end Sys2Proof.Machine
end

