-- ==== Sys2Proof/Machine/CoreTypes.lean ====
section
/-!
DEFINITION. State of the gutter, the error manager, bus time and the course sequencer.
-/

namespace Sys2Proof.Machine

/-- Settings of a gutter source that live in PD_DISP (R348, R358): group, target kind (0 none, 1 host vector set, 2 core set),
vector block and mask, cores. -/
structure SrcCfg where
  group : BitVec 8
  kind : BitVec 2
  vblock : BitVec 8
  vmask : BitVec 8
  cores : BitVec 4
deriving DecidableEq, Repr

/-- A running hold-off gap: the group, the member (vector number, or 2048 + core) and its end in running ns (R352). -/
structure Gap where
  group : BitVec 8
  member : Nat
  ends : Nat
deriving DecidableEq, Repr

/-- A management core as the gutter and the dispatcher see it (R237, R354). -/
structure CoreState where
  prio : BitVec 4
  sleep : Bool
  fastBusy : Bool
  /-- A delivery in flight, and whether it is fast. -/
  inFlight : Bool
  fastFlight : Bool
  /-- Firmware task in hand. -/
  task : Option Nat
deriving DecidableEq, Repr

/-- The gutter (R345–R360) with the MSI-X table and PBA (R355, R466). -/
structure Gutter where
  pend : BitVec 2048
  mask : BitVec 2048
  latch : BitVec 2048
  fast : BitVec 2048
  wake : BitVec 2048
  stop : BitVec 2048
  cfg : KMap SrcCfg
  /-- Member chosen last, 7 where unlisted (R350). -/
  last : KMap Nat
  /-- Posted priority of each vector, 0 where unlisted (R355). -/
  prio : KMap (BitVec 4)
  held : BitVec 2048
  gaps : List Gap
  lastFast : Nat
  lastNormal : Nat
  cores : Vector CoreState 4
  /-- The MSI-X table in double words, by word index; unlisted: 0, but vector control words read 1 (masked). -/
  msix : KMap Reg32
  pba : BitVec 2048
deriving DecidableEq, Repr

/-- A first-error record (R448). -/
structure ErrRec where
  valid : Bool
  fatalClass : Bool
  overflow : Bool
  aoTime : Bool
  time : BitVec 64
  code : BitVec 16
  source : BitVec 8
  seq : BitVec 8
  count : BitVec 16
  detail : BitVec 32
  /-- CCLK of detection (R462). -/
  cclk : Nat
deriving DecidableEq, Repr

/-- ERR_FATAL (R452, R463). -/
structure FatalRec where
  valid : Bool
  category : BitVec 3
  cause : BitVec 2
  seq : BitVec 8
  count : BitVec 16
  /-- CCLK of the escalation (R462). -/
  cclk : Nat
deriving DecidableEq, Repr

/-- The error manager (R448–R454): records of the seven categories, ERR_FATAL, and the running times (ns) of the fatal-class errors
that count toward escalation. -/
structure ErrState where
  recs : Vector ErrRec 7
  fatal : FatalRec
  fatalAt : List Nat
deriving DecidableEq, Repr

/-- Time quality, coded 0 to 3 (R140, R145). -/
inductive Quality where
  | unset | estimated | holdover | locked
deriving DecidableEq, Repr

/-- Bus time and its discipline (R128–R143). -/
structure TimeState where
  /-- Bus time, ns, and its fraction in units of 2^-32 ns. -/
  bus : BitVec 64
  frac : BitVec 32
  /-- Running time in ns on the symbol clock: 2 ns a CCLK, without rate offsets and steps (R24, R123). -/
  mono : Nat
  /-- CCLK cycles. -/
  cclk : Nat
  /-- Rate offset r and the rate that discipline asks for, ppb. -/
  rate : Int
  rateGoal : Int
  /-- Offset still to slew, 10^-9 ns. -/
  slewLeft : Int
  /-- Value of a step that awaits its course start. -/
  step : Option (BitVec 64)
  /-- An offset that awaits its course start to be stepped away, 1/64 ns (R139, R378). -/
  stepBy : Option Int
  quality : Quality
  /-- Uncertainty, in 10^-9 ns. -/
  uncert : Nat
  /-- Consecutive PPS pulses within LOCK_THR; consecutive pulses missing or outlier; whether a pulse came since the quality last
  fell; the next expected second. -/
  lockRun : Nat
  missRun : Nat
  firstPulse : Bool
  /-- A step since the quality became ESTIMATED has set the seconds (R139, R140). -/
  secondsSet : Bool
  /-- The running course's start carried a step (R141). -/
  stepped : Bool
  /-- The 48-bit AO counter, and the snapshot of bus time and AO counter at the entry to retention (R142). -/
  ao : BitVec 48
  snap : Option (BitVec 64 × BitVec 48)
deriving DecidableEq, Repr

/-- The course sequencer (R120–R127). -/
structure CourseState where
  /-- Courses run (modes Setup, Run, Hold, Service) and the first has started. -/
  running : Bool
  begun : Bool
  /-- Course count of the current course (R123). -/
  count : BitVec 48
  /-- Start of the current course: bus time as carried, and running time (ns). -/
  start : BitVec 64
  startMono : Nat
  /-- Period in force, in 128 ns units (R120). -/
  period : BitVec 14
  /-- Period asked for that waits for a swap, and the one that the swap now decided brings (R8, R124, R127). -/
  periodNext : Option (BitVec 14)
  periodSwap : Option (BitVec 14)
deriving DecidableEq, Repr

/-- A pooled retry granted (R162, R258): its trunk, course, place, costs, and where its window ends, in blocks of the root link. -/
structure PoolGrant where
  trunk : Fin 16
  course : Nat
  pos : Pos
  down : Nat
  up : Nat
  ends : Nat
deriving DecidableEq, Repr

/-- Room of a course's control or bulk area that a packet takes from its dispatch on (R229, R232, R325). -/
structure AreaUse where
  ctx : Nat
  course : Nat
  pos : Pos
  inst : Nat
  bulk : Bool
  down : Nat
  up : Nat
deriving DecidableEq, Repr

/-- The planner's banks (R125–R127): the active one, whether the shadow bank is ready, whether changes wait for it, and whether one of
them waits for the rebuild after the next swap. -/
structure Planner where
  active : Bool
  ready : Bool
  pending : Bool
  /-- Course count of the boundary of the last swap. -/
  lastSwap : Option (BitVec 48)
  /-- Start of the pooled part of the lap, by trunk × 64 + course index, in root-link blocks (R258). -/
  pools : KMap Nat
  poolsNext : KMap Nat
  /-- End of the periodic area and start of the lap, by the same key (R121). -/
  areas : KMap (Nat × Nat)
  areasNext : KMap (Nat × Nat)
  /-- The boundary of a swap whose first courses are being committed (R126); none: no swap is under way. -/
  swapAt : Option Nat
  /-- Pooled room used in a course so far: course, port and direction of each grant, with its cost; and the block at which the last
  granted retry's window ends (R162, R258). -/
  grants : List PoolGrant
  /-- Blocks that scheduled traffic takes of each link's committed courses, the bulk area of each trunk and its shares by instance (R163, R325). -/
  taken : List AreaUse
  bulkArea : KMap Nat
  bulkShare : KMap Nat
  /-- What unscheduled packets take of the areas of the committed courses. -/
  uses : List AreaUse
deriving DecidableEq, Repr

end Sys2Proof.Machine
end

