-- ==== Sys2Proof/Machine/FlowTypes.lean ====
section
/-!
DEFINITION. State of flows, transfers, the dispatcher, the engines and the pace estimators.
-/

namespace Sys2Proof.Machine

/-- The seven flow types (R146). -/
inductive FlowType where
  | periodicOut | periodicIn | pacedOut | pacedIn | bulkOut | bulkIn | control
deriving DecidableEq, Repr

/-- Release modes (R148). -/
inductive RelMode where
  | course | timed | angle
deriving DecidableEq, Repr

/-- Hold policies (R149). -/
inductive HoldPolicy where
  | rep | safe | skip
deriving DecidableEq, Repr

/-- What a service flow serves (R167): a hub's status changes, or a bus pace source. -/
inductive Service where
  | hubStatus
  | sample (src : Fin 32)
deriving DecidableEq, Repr

/-- Why a flow is HELD: the causes that its state carries (R302). STEPPED_DOWN, TIME_INVALID and MODE_HOLD follow from other state. -/
structure HoldCauses where
  command : Bool
  escalated : Bool
  detached : Bool
  frozen : Bool
  stalled : Bool
  resync : Bool
  bulkLasting : Bool
  readFault : Bool
  ringFault : Bool
deriving DecidableEq, Repr

/-- Parameters of a flow, fixed at FLOW_OPEN or changed at a boundary (R146–R149, R158, R190, R203, R212). -/
structure FlowParams where
  ty : FlowType
  /-- Payload words L. -/
  words : Nat
  /-- Interval 2^k courses, phase φ, q transactions per active course. -/
  k : Nat
  phase : Nat
  q : Nat
  lead : Nat
  rel : RelMode
  lateFire : Bool
  policy : HoldPolicy
  essential : Bool
  dedicated : Bool
  prio : Nat
  /-- Estimator, counts per transfer M, due offset Z, maximum rate ρ. -/
  est : Fin 8
  m : Nat
  z : Nat
  rho : Nat
  safe : List Word
  safeAddr : BitVec 64
  packed : Bool
  /-- Bulk packet size W_p. -/
  packet : Nat
deriving DecidableEq, Repr

/-- Status codes of a transfer completion (R224); code 15 is never written. -/
inductive Status where
  | done | doneRetried | lasting | notAccepted | held | detached | portReset | stalled
  | revoked | stageLost | cancelled | retryDenied | overrun | short | hostStall
deriving DecidableEq, Repr

/-- The final outcome of a transfer, waiting for ordered release (R218). -/
structure Final where
  status : Status
  length : Nat
  retries : Nat
  busTime : BitVec 64
  effect : Bool
deriving DecidableEq, Repr

/-- The stages of a control transfer as the controller runs it (R84). -/
inductive CtlStep where
  | setup | dataOut | dataIn | statusIn | statusOut | finished
deriving DecidableEq, Repr

/-- A descriptor with its transfer record (R206, R210). -/
structure Transfer where
  idx : BitVec 16
  /-- The descriptor's four words; none: visible but not yet fetched. -/
  desc : Option (Word × Word × Word × Word)
  /-- Place in the order in which descriptors became visible, over all flows (R222). -/
  vis : Nat
  /-- Course to which it is bound (R151), its slot number in that course, and whether it was accepted (R152). -/
  course : Option Nat
  slot : Nat
  /-- Offset of that slot in root-link blocks (R159, R222). -/
  ofs : Nat
  accepted : Bool
  /-- Its data read has been issued; words staged so far; stage bank that holds them. -/
  reading : Bool
  /-- The word of its buffer from which the read in flight goes on (R212). -/
  readAt : Nat
  /-- Running time at which its next read fell due: its arrival, its binding, the end of its last read (R211, R456). -/
  dueAt : Nat
  /-- It has left the descriptor cache (R210). -/
  issued : Bool
  /-- Stage words that it holds or that its read in flight will fill (R11, R213). -/
  words : Nat
  /-- Its data read failed (R214). -/
  readFail : Bool
  staged : List Word
  stagedAll : Bool
  bank : Option (Fin 64)
  /-- Its bank was lost after it had been accepted (R178). -/
  lostWords : Bool
  /-- Release word written into stage word 0 of an ANGLE transfer (R207, R253). -/
  release : Option Word
  /-- Bus time of the last packet or token sent for it, if any (R218). -/
  sentAt : Option (BitVec 64)
  /-- A packet or token of it has been placed in a transmit queue (R243). -/
  inProgress : Bool
  /-- First attempt failed; a lap retry was granted. -/
  failed : Bool
  retried : Bool
  resends : Nat
  /-- Consecutive failures of the packet in work (R263). -/
  fails : Nat
  /-- Words acknowledged (output) or received (input). -/
  moved : Nat
  step : CtlStep
  ctlToggle : Bool
  /-- Input data taken and not yet written to host memory; writes wait since this running time. -/
  toWrite : List Word
  writtenAt : Option Nat
  /-- The last attempt that went out whole got no intact handshake (R265). -/
  unsure : Bool
  /-- Perturbation: a control was on at binding, and the count of changes seen then (R460). -/
  pertOn : Bool
  pertSeq : Nat
  /-- Dispatched while an earlier transfer of its domain was unreleased (R241). -/
  reordered : Bool
  fin : Option Final
deriving DecidableEq, Repr

/-- Task states, coded 0 to 3 (R228, R250). -/
inductive TaskState where
  | idle | waiting | ready | inHand
deriving DecidableEq, Repr

/-- A task of the dispatcher (R227–R230, R238). -/
structure Task where
  flags : BitVec 8
  mask : BitVec 8
  state : TaskState
  cancelPending : Bool
  /-- Armed deadline in whole ticks of 128 ns of bus time. -/
  delay : Option Nat
  /-- Order of arrival on its list, and the course count at which it became READY. -/
  since : Nat
  readyCourse : Nat
  aged : Bool
  prio : Nat
  /-- Firmware task: the instance whose mailbox doorbell rings it (R229). -/
  bell : Option Nat
deriving DecidableEq, Repr

/-- Counts of a flow that FLOW_QUERY and PACE_QUERY return (R302). -/
structure FlowCounts where
  done : Nat
  retried : Nat
  lasting : Nat
  notAccepted : Nat
  held : Nat
  retryDenied : Nat
  underrun : Nat
  badDesc : Nat
  angleWait : Nat
  overrate : Nat
  angleVoid : Nat
  /-- Largest confirmed ε_t, ns (R196, R197). -/
  angleErrMax : Nat
deriving DecidableEq, Repr

/-- A change of a flow that waits for its boundary (R176): opening, closing, new parameters, leaving HELD. -/
structure FlowChange where
  /-- Takes effect at this course count at the earliest. -/
  from_ : Nat
  opens : Bool
  closes : Bool
  unholds : Bool
  params : Option FlowParams
  realign : Bool
  /-- The command that waits for the boundary, by instance and ring index. -/
  cmd : Option (Nat × BitVec 16)
deriving DecidableEq, Repr

/-- The hold policy and safe value that courses up to `last` keep, after FLOW_MODIFY has brought others (R155, R303). -/
structure HoldOld where
  last : Nat
  policy : HoldPolicy
  safe : List Word
deriving DecidableEq, Repr

/-- A flow. Its key in the flow table is its context number (R227). -/
structure Flow where
  inst : Nat
  num : Nat
  pos : Pos
  addr : BitVec 12
  ep : BitVec 4
  service : Option Service
  par : FlowParams
  ring : BitVec 64
  ringLog : Nat
  cq : Fin 16
  /-- Ordering domain: local number of the instance (R221). -/
  dom : Nat
  /-- Order of admission (R159). -/
  order : Nat
  /-- In the active plan (scheduled) or in use (R125, R176), and since which course. -/
  active : Bool
  since : Nat
  /-- Changes that wait for their boundaries, earliest first (R176). -/
  changes : List FlowChange
  holdOld : List HoldOld
  /-- Course count at which it closed; none: open (R177). -/
  closedAt : Option Nat
  causes : HoldCauses
  /-- Producer index P, oldest unreleased index K, next index to fetch, descriptor reads outstanding (R204, R209). -/
  prod : BitVec 16
  cons : BitVec 16
  fetched : BitVec 16
  fetching : Nat
  xfers : List Transfer
  /-- Toggle that the next ordinary packet carries, and the one expected of DATA (R80). -/
  sendToggle : Bool
  recvToggle : Bool
  /-- Bulk: next sequence to send, last acknowledged, credit, next expected (R86–R88). -/
  seq : BitVec 5
  acked : BitVec 5
  credit : Nat
  recvSeq : BitVec 5
  /-- A probe is due after NYET or NAK (R87). -/
  probe : Bool
  /-- Payload of the last ordinary packet, without its release word (R149). -/
  lastSent : Option (List Word)
  /-- Next due position u (R190). -/
  due : Option Int
  /-- Releases committed and not yet confirmed by an edge: the largest ε_t of each anchor (R197). -/
  unconfirmed : List Nat
  counts : FlowCounts
  /-- Courses with a LASTING outcome, newest first (R266), and one in this plan cycle (R268). -/
  lastingAt : List Nat
  lastingCycle : Bool
  /-- What the management firmware has yet to act on (R9): the course that completed F LASTING courses of W (R266), the first LASTING outcome of a
  bulk flow (R267). -/
  escalateDue : Option Nat
  bulkDue : Bool
  /-- TOGGLE_UNKNOWN (R265). -/
  toggleUnknown : Bool
  /-- Slot offsets and lap offsets in blocks of the root link, per course index (R159): the list of layout results. -/
  slots : List (Nat × List Nat)
  laps : List (Nat × List Nat)
  /-- The same for the plan that takes over at the next boundary, laid out at the commit point of its first course (R124, R126). -/
  slotsNext : List (Nat × List Nat)
  lapsNext : List (Nat × List Nat)
  /-- Service flow: first course of the plan cycle from which its tokens go again (R167). -/
  quietUntil : Nat
  missing : Nat
  /-- Highest course to which a descriptor has been bound, and the highest one whose acceptance deadline has been carried out (R151,
  R153); 0 before the first. -/
  lastBound : Nat
  deadDone : Nat
  /-- Bulk OUT: packets after `acked` that have been sent at least once (R261). -/
  sentTop : Nat
  task : Task
deriving DecidableEq, Repr

/-- What a resolved entry sends (R233, R247). -/
inductive Reason where
  | send | hold | empty | retry | bulk | goback | probe | setup | ctrlData | ctrlStatus
deriving DecidableEq, Repr

/-- An entry of a plan-order queue (R232): context, course, slot number and offset in blocks, whether a lap retry; its reason once
resolved (R233). -/
structure PlanEntry where
  ctx : Nat
  course : Nat
  slot : Nat
  ofs : Nat
  lap : Bool
  reason : Option Reason
deriving DecidableEq, Repr

/-- A packet or token in a trunk transmit queue (R253). -/
structure TxEntry where
  ctx : Nat
  idx : BitVec 16
  course : Nat
  slot : Nat
  ofs : Nat
  sched : Bool
  reason : Reason
  engine : Fin 16
  /-- It reached the queue after its slot had begun (R253). -/
  late : Bool
  /-- Words that a token asks for (R13). -/
  want : Nat
deriving DecidableEq, Repr

/-- How an attempt's response was classed (R77, R257). -/
inductive Response where
  | none | damaged | mismatched | nak | dup
deriving DecidableEq, Repr

/-- An expectation of an engine (R255). -/
structure Expect where
  engine : Fin 16
  trunk : Fin 16
  ctx : Nat
  idx : BitVec 16
  course : Nat
  slot : Nat
  reason : Reason
  ep : BitVec 4
  addr : BitVec 12
  seq : BitVec 5
  len : Nat
  isIn : Bool
  /-- The response window opens and closes at these running times, ns (R255). -/
  opens : Nat
  closes : Nat
  got : Response
deriving DecidableEq, Repr

/-- An engine: the tasks in its two hand places with the CCLK at which it accepted each, and that of its last acceptance (R252, R456). -/
structure Engine where
  sched : Option (Nat × PlanEntry)
  unsched : Option Nat
  schedAt : Nat
  unschedAt : Nat
  lastAccept : Option Nat
deriving DecidableEq, Repr

/-- Where the round robins of the fetchers stand (R12, R209, R211): the instance served last by ring fetch for scheduled flows and for the others,
by stage fetch among reads of one deadline and among bulk and control reads; the flow served last, by group × 512 + instance;
the instance whose commands start next (R285). -/
structure Turns where
  ringSched : Nat
  ringRest : Nat
  stageDead : Nat
  stageRest : Nat
  flows : KMap Nat
  cmds : Nat
deriving DecidableEq, Repr

/-- A trace record: two words (R246). -/
structure TraceRec where
  w0 : Word
  w1 : Word
deriving DecidableEq, Repr

/-- Estimator states, coded 0 to 3 (R187, R200). -/
inductive EstState where
  | off | acquiring | tracking | lost
deriving DecidableEq, Repr

/-- A pace estimator (R182, R186, R187). Rates in counts per second, times in ns. -/
structure Estimator where
  state : EstState
  /-- Anchor position and stamp; edges of the window, newest first, with their stamps. -/
  pos : Int
  stamp : BitVec 64
  edges : List (Int × BitVec 64)
  omega : Rat
  alpha : Rat
  dTheta : Rat
  dOmega : Rat
  stopped : Bool
  reversing : Bool
  highest : Int
  indexSeen : Bool
  /-- Plan cycles without an edge. -/
  quiet : Nat
  /-- Consecutive missing samples (R184). -/
  missing : Nat
  /-- The rate bound was exceeded (R196). -/
  overrate : Bool
deriving DecidableEq, Repr

/-- An encoder input (R179–R181): the filtered levels of A and B, the edges counted, the last counted direction. -/
structure Encoder where
  a : Bool
  b : Bool
  count : BitVec 32
  up : Bool
deriving DecidableEq, Repr

/-- A counted edge (its direction on the input) or an index edge (none), stamped in or after the CCLK of the next commit point (R188, R199). -/
structure LateEdge where
  input : Fin 8
  up : Option Bool
  stamp : BitVec 64
deriving DecidableEq, Repr

end Sys2Proof.Machine
end

