-- ==== Sys2Proof/Machine/HostTypes.lean ====
section
/-!
DEFINITION. State of instances, mailboxes, completion rings, node bindings and re-seat records.
-/

namespace Sys2Proof.Machine

/-- Instance states, coded 0 to 3 (R318). -/
inductive InstState where
  | free | active | resetting | frozen
deriving DecidableEq, Repr

/-- How far the transfer of a CONTROL_XFER has come (R114): not to where its request may have been performed; sent so far, but not performed;
performed, with the words it returns; refused by STALL. -/
inductive XferRun where
  | notSent
  | sent
  | did (ws : List Word)
  | refused
deriving DecidableEq, Repr

/-- A command that firmware has taken (R282): its entry, its place in the order of starting, and what it waits for. -/
structure Taken where
  idx : BitVec 16
  entry : List Byte
  started : Bool
  /-- It was taken as a duplicate of the running command with this tag, and gets a copy of its completion (R289). -/
  copies : Bool
  /-- It has acted and waits for the machine to finish it: a port to arrive, a boundary, a descriptor in progress. -/
  waiting : Bool
  /-- Boundary or course that it waits for, where it waits for one. -/
  boundary : Nat
  /-- Result bytes 8–27 kept for its completion. -/
  result : List Byte
  /-- CONTROL_XFER: how far its transfer has come. -/
  ran : XferRun
  /-- A perturbation control was on when it was taken, and the count of changes then (R460). -/
  pertOn : Bool
  pertSeq : Nat
deriving DecidableEq, Repr

/-- An entry of the duplicate cache (R288): tag, digest, and the completion once written. -/
structure Cached where
  tag : BitVec 32
  digest : BitVec 32
  cpl : Option (List Byte)
deriving DecidableEq, Repr

/-- A mailbox (R278–R290, R313): producer index, oldest command without a completion, next to take, next completion to write. -/
structure Mailbox where
  prod : BitVec 16
  oldest : BitVec 16
  fetch : BitVec 16
  write : BitVec 16
  phase : Bool
  taken : List Taken
  /-- Indices of commands completed out of order, whose entries are still ahead of `oldest`. -/
  completed : List (BitVec 16)
  eventSeq : BitVec 32
  /-- An event was lost since the last one written. -/
  lost : Bool
  cache : List Cached
deriving DecidableEq, Repr

/-- A completion ring (R217–R219). -/
structure CqState where
  write : BitVec 16
  phase : Bool
  /-- A HOST_STALL interval opened by this ring is open. -/
  stalling : Bool
deriving DecidableEq, Repr

/-- The shares of an instance (R322). -/
structure Shares where
  ctx : Nat
  words : Nat
  weight : Nat
  /-- Global numbers of its source blocks, local block 0 first. -/
  blocks : List Nat
  vecFirst : Nat
  vecs : Nat
  /-- Slot budget of each trunk, and a smaller one that applies from a boundary (R328). -/
  slots : Vector Nat 16
deriving DecidableEq, Repr

/-- Event routes (R311): codes enabled, codes signalled, and the local source of each code; none: INST_MB_CFG.SRC. -/
structure Routes where
  enabled : BitVec 32
  signalled : BitVec 32
  src : KMap Nat
deriving DecidableEq, Repr

/-- What a HOST_STALL interval waits for (R174, R343). -/
structure Waits where
  credit : Bool
  ring : Bool
  link : Bool
deriving DecidableEq, Repr

/-- Host-stall record of an instance (R341). -/
structure Stall where
  open_ : Bool
  waits : Waits
  cnt : BitVec 32
  openAt : BitVec 64
  closeAt : BitVec 64
deriving DecidableEq, Repr

/-- What a reset in progress will end in (R330, R332), and the command that asked for it. -/
structure ResetRun where
  destroy : Bool
  acked : BitVec 16
  cmd : Option CmdRef
deriving DecidableEq, Repr

/-- An instance (R317–R344). -/
structure Instance where
  state : InstState
  epoch : BitVec 32
  pasid : BitVec 20
  shares : Shares
  mb : Mailbox
  cqs : Vector CqState 16
  routes : Routes
  stall : Stall
  freezeAt : Option Nat
  thawAt : Option Nat
  quiescent : Bool
  reset : Option ResetRun
  /-- Forced decrease: budgets that apply at the boundary (R328), flows removed in order, descriptors revoked. -/
  cutAt : Option Nat
  cutSlots : Vector Nat 16
  revoked : List Nat
  revokedDescs : Nat
deriving DecidableEq, Repr

/-- A node's binding (R291): instance, and whether with the PORT option. -/
structure Binding where
  inst : Nat
  port : Bool
deriving DecidableEq, Repr

/-- A re-seat record (R116). -/
structure Reseat where
  addr : BitVec 12
  pos : Pos
  ident : BitVec 64
  gen : BitVec 16
  expired : Bool
  byLinkFail : Bool
  /-- A match was found: the plan-cycle boundary from which the node's flows run again (R95, R117). -/
  resumeAt : Option Nat
deriving DecidableEq, Repr

/-- What firmware knows of an enumerated node (R97, R101): its place, descriptor and hub descriptor. -/
structure NodeRec where
  addr : BitVec 12
  pos : Pos
  desc : List Word
  hub : List Word
  /-- D last sent by SET_PATH_DELAY, 1/64 ns (R132). -/
  sentD : Option (BitVec 24)
  present : Bool
  /-- Hubs: ports that firmware has powered since it enumerated the hub (R96). -/
  powered : Nat
  /-- Hubs: the delay estimates that firmware has read, by port, 1/64 ns (R136). -/
  delays : KMap Nat
deriving DecidableEq, Repr

/-- An entry of the address map (R101): trunk, route and address. -/
structure MapEntry where
  trunk : Fin 16
  route : BitVec 16
  addr : BitVec 12
deriving DecidableEq, Repr

/-- A place whose device is still to be enumerated (R96). -/
structure EnumRun where
  pos : Pos
deriving DecidableEq, Repr

end Sys2Proof.Machine
end

