-- ==== Sys2Proof/Machine/LinkTypes.lean ====
section
/-!
DEFINITION. State of links, ports, hubs and nodes: training and block lock, port states, margin ledgers, link delay estimates,
endpoints with their toggles and pending releases, a node's local time.
-/

namespace Sys2Proof.Machine

/-- Port states, coded 0 to 7 (R90). -/
inductive PortState where
  | off | powered | disabled | resetting | enabled | suspended | resuming | fault
deriving DecidableEq, Repr

/-- Line rates (R23). -/
inductive Rate where
  | br | hr
deriving DecidableEq, Repr

/-- Why a port is in FAULT (R104). -/
inductive FaultCause where
  | none | power | train
deriving DecidableEq, Repr

/-- Where a side stands in reset, chirp and training (R48–R51). -/
inductive TrainState where
  | idle | hold | chirpAck | lock | eq | ready | up
deriving DecidableEq, Repr

/-- Receiver and training of one side of a link. -/
structure Rx where
  /-- Block lock (R33). -/
  blockLock : Bool
  train : TrainState
  /-- Rate at which this attempt trains or the link runs; none: link not up. -/
  rate : Option Rate
  /-- Preset in use by this side's transmitter, and the one reported in use by the far transmitter (R55). -/
  nearPreset : BitVec 3
  farPreset : BitVec 3
  /-- Preset this side last requested of the far transmitter. -/
  request : BitVec 3
  /-- Own eye meets its criterion (R52). -/
  eyeOk : Bool
  /-- Consecutive TRAIN blocks of phase 0b10 received, and those sent (R51). -/
  gotReady : Nat
  sentReady : Nat
  /-- Number of the training attempt, 1–3, and TRAIN blocks sent in it, which its block counter shows (R37). -/
  attempt : BitVec 2
  sent : BitVec 16
deriving DecidableEq, Repr

/-- A margin ledger (R56); at a hub port firmware keeps it. -/
structure Ledger where
  blk : BitVec 32
  crc : BitVec 32
  retry : BitVec 32
  eyeH : BitVec 8
  eyeV : BitVec 8
  eyeHMin : BitVec 8
  eyeVMin : BitVec 8
deriving DecidableEq, Repr

/-- Counts of the current threshold window (R57), and which of its four crossings have been reported. -/
structure Window where
  started : Bool
  /-- Plan cycles of the window that have ended. -/
  cycles : Nat
  /-- Its length in plan cycles, fixed when it started. -/
  length : Nat
  blk : Nat
  crc : Nat
  retry : Nat
  crossed : BitVec 4
deriving DecidableEq, Repr

/-- Delay estimate of a link and the samples of the running plan cycle, in 1/64 ns (R134). -/
structure Delay where
  oneWay : BitVec 20
  valid : Bool
  stale : Bool
  sum : Nat
  count : Nat
  /-- COURSE_STARTs sent on the link in this plan cycle. -/
  pings : Nat
  /-- Sequence of the PING outstanding. -/
  awaiting : Option (BitVec 8)
  lastSeq : BitVec 8
  validCnt : BitVec 8
  missed : BitVec 8
deriving DecidableEq, Repr

/-- Why a suspended port sends WAKE (R91): to resume, or ahead of a reset. -/
inductive WakeFor where
  | none | resume | reset
deriving DecidableEq, Repr

/-- A hub's error counters of one port, read and cleared by GET_PORT_ERRORS (R104). -/
structure PortErrors where
  blk : BitVec 32
  crc : BitVec 32
  misroute : BitVec 32
  collision : BitVec 32
deriving DecidableEq, Repr

/-- A port, the upstream side of a link: root port, gang port GA or hub port (R90–R95, R104). -/
structure Port where
  state : PortState
  /-- Raw presence comparator (R28) and activity detector (R29). -/
  present : Bool
  activity : Bool
  attachLatch : Bool
  cause : FaultCause
  brFails : BitVec 2
  hrFails : BitVec 2
  remoteWake : Bool
  rx : Rx
  /-- Rate and training of the link before it was suspended (R54). -/
  lastRate : Option Rate
  /-- Consecutive valid CHIRP blocks with HR_CAP = 1 in this hold, and the capability bits of the last CHIRP (R49). -/
  chirps : Nat
  farHrCap : Bool
  farMarginCap : Bool
  suspendReq : Bool
  wakeFor : WakeFor
  /-- The port has sent COURSE_START since it reached ENABLED (R133). -/
  started : Bool
  /-- A step-down awaits its boundary, and the course count from which that boundary may be (R58). -/
  stepPending : Bool
  stepFrom : Nat
  /-- RATE_DOWN goes out in the COURSE_START of the last course before the boundary (R58). -/
  rateDown : Bool
  ledger : Ledger
  window : Window
  delay : Delay
  /-- A reset asked for as recovery or retraining raises LINK_FAIL (R91). -/
  recovering : Bool
  /-- Course count at the last entry to ENABLED. -/
  enabledAt : Nat
  /-- Hub ports: change bits C_ATTACH … C_LINK (R104), remote wake recognised, over-current, suspended by its hub (R111),
  the hub's error counters, the retry count that firmware keeps (R91). -/
  change : BitVec 6
  wakeEn : Bool
  overcurrent : Bool
  byHub : Bool
  errs : PortErrors
  retries : BitVec 8
  /-- Hub ports: the link may train at HR; cleared by a step-down (R59). -/
  hrEn : Bool
  /-- The link has stepped down to BR (R58, R150) and not come up at HR since. -/
  stepped : Bool
  /-- Seeds of the link's scrambler in the running course and in the one before, whose last blocks may still arrive (R34–R36). -/
  seed : BitVec 31
  seedBefore : BitVec 31
  /-- The eye has been sampled since the link came up (R56, R57). -/
  eyed : Bool
deriving DecidableEq, Repr

/-- A pending timed release at a node (R67, R68). -/
structure Release where
  time : BitVec 64
  lateFire : Bool
  tag : BitVec 10
  payload : List Word
deriving DecidableEq, Repr

/-- An endpoint of a node: toggles and bulk sequences (R80, R86), halt, pending releases, late releases (R100), what it last put
on its output, and for bulk IN the packets kept for resending (R88). -/
structure Endpoint where
  num : BitVec 4
  expToggle : Bool
  sendToggle : Bool
  seq : BitVec 5
  sendSeq : BitVec 5
  halted : Bool
  releases : List Release
  late : BitVec 8
  lateTag : BitVec 10
  output : List Word
  /-- The latest sample of an IN endpoint; none: it has never produced one (R80). -/
  sample : Option (List Word)
  /-- Bulk IN packets sent and not acknowledged, oldest first, numbered from `sendSeq`. -/
  kept : List (List Word)
deriving DecidableEq, Repr

/-- Stages of a control transfer at the node (R84). -/
inductive CtrlStage where
  | dataOut | dataIn | statusIn | statusOut | done
deriving DecidableEq, Repr

/-- A control transfer at the node (R84). -/
structure CtrlXfer where
  setup : Setup
  stage : CtrlStage
  toggle : Bool
  /-- OUT data taken, and the IN data fixed at the SETUP with how many of its words have been acknowledged and how many the last
  DATA carried. -/
  taken : List Word
  reply : List Word
  acked : Nat
  lastSent : Nat
deriving DecidableEq, Repr

/-- A node's or hub's local bus time (R130–R132), in 1/64 ns. -/
structure NodeTime where
  valid : Bool
  /-- The D applied and the D that waits for the next valid course start, 1/64 ns. -/
  d : Option (BitVec 24)
  dNext : Option (BitVec 24)
  /-- Local time at the last anchor, and the machine's running time then (ns). -/
  anchor : Nat
  anchorAt : Nat
  /-- Courses since the last re-anchor. -/
  missed : Nat
  /-- Carried time of the last COURSE_START with a valid time and the running time then (ns); and the rate between the last two, as bus time
  over symbol-clock time (R130). -/
  last : Option (Nat × Nat)
  rateNum : Int
  rateDen : Nat
deriving DecidableEq, Repr

/-- State of a downstream side's link (R45, R48–R51). -/
inductive DownPhase where
  | quiet | chirp | train | up | suspended
deriving DecidableEq, Repr

/-- The downstream side of a link: training, course synchronisation and the scrambler (R34–R36, R42). -/
structure DownLink where
  phase : DownPhase
  rx : Rx
  lastRate : Option Rate
  synced : Bool
  /-- Course number carried by the last COURSE_START. -/
  course : BitVec 24
  /-- Predicted positions passed without a COURSE_START, in a row. -/
  missed : Nat
  /-- Running time at the last COURSE_START and the course period learned from consecutive ones, ns (R42, R124). -/
  startAt : Nat
  period : Nat
  /-- Seed of the link's scrambler in the running course (R34–R36). -/
  seed : BitVec 31
  /-- Index of the block after the last packet received: where an answer is counted from (R76). -/
  heard : Nat
  /-- RATE_DOWN was carried by the last COURSE_START (R58). -/
  rateDown : Bool
  timeValid : Bool
  cycleStart : Bool
  lease : Bool
  /-- This side sends WAKE (R112). -/
  waking : Bool
deriving DecidableEq, Repr

/-- A device on a link: node or hub. -/
structure Device where
  pos : Pos
  board : Board
  /-- Its port supplies power (R90, R103). -/
  powered : Bool
  /-- It answers packets (R78). -/
  ready : Bool
  addr : Option (BitVec 12)
  /-- SET_ADDRESS taken, in force when its status DATA has been sent (R84). -/
  addrNext : Option (BitVec 12)
  configured : Bool
  config : BitVec 8
  link : DownLink
  time : NodeTime
  eps : List Endpoint
  ctrl : Option CtrlXfer
  /-- Endpoint 0 answers STALL until the next SETUP (R85). -/
  stalled0 : Bool
  late : BitVec 8
  /-- Hubs: the tier, 0 until SET_HUB_TIER (R103), and the downstream ports. -/
  tier : BitVec 3
  ports : List Port
  /-- A STOP made the node take its stop action (R272). -/
  stopped : Bool
deriving DecidableEq, Repr

end Sys2Proof.Machine
end

