-- ==== Sys2Proof/Machine/PowerTypes.lean ====
section
/-!
DEFINITION. State of the gang, of the power domains and the mode, of the host function, and of JTAG.
-/

namespace Sys2Proof.Machine

/-- The six modes, coded 0 to 5 (R307). -/
inductive Mode where
  | dormant | standby | setup | run | hold | service
deriving DecidableEq, Repr

/-- Gang roles, coded 0 to 2 (R389). -/
inductive Role where
  | solo | ridge | member
deriving DecidableEq, Repr

/-- Gang states, coded 0 to 4 (R306). -/
inductive GangPhase where
  | setup | locked | mismatch | unqualified | leaseLost
deriving DecidableEq, Repr

/-- A ridge estimator's entry in a pace record (R370): the seven words. -/
structure PaceEntry where
  valid : Bool
  words : List Word
deriving DecidableEq, Repr

/-- The gang block (R363–R387). -/
structure Gang where
  role : Role
  phase : GangPhase
  size : BitVec 4
  hop : BitVec 3
  ridgeAllowed : Bool
  configured : Bool
  joined : Bool
  effMinor : BitVec 8
  digest : BitVec 32
  ridgeDigest : BitVec 32
  map : BitVec 64
  /-- SET_GANG accepted, and its three words. -/
  accepted : Option (Word × Word × Word)
  /-- GB received transitions in the decision interval (R366); the interval runs. -/
  sawEdges : Bool
  deciding : Bool
  /-- Consecutive samples within 1.0 ns, consecutive courses without a sample, ridge lock held (R379); the first sample since
  SET_GANG, ESTIMATED or HOLDOVER is still to come (R378). -/
  goodRun : Nat
  noSample : Nat
  ridgeLock : Bool
  firstSample : Bool
  offset : Int
  /-- Lease: courses missing and present in a row; the lease at the last position of COURSE_START (R368). -/
  leaseMiss : Nat
  leaseHave : Nat
  leaseNow : Bool
  /-- In this course GB's position of COURSE_START has been counted, and an offset sample has been taken. -/
  heard : Bool
  sampled : Bool
  timeValid : Bool
  /-- The GB device as GA's firmware last learned it (R374), and the step of the exchange reached. -/
  below : Option (Word × Word × Word)
  exchanged : Bool
  setSent : Bool
  sentD : Option (BitVec 24)
  /-- Latest intact pace record, and consecutive courses without one that has the VALID bit, per ridge estimator (R372). -/
  record : List PaceEntry
  recordNow : Bool
  recordMiss : Vector Nat 8
  /-- GANG_JOIN that waits (R376). -/
  joining : Option (Nat × BitVec 16)
deriving DecidableEq, Repr

/-- Power state of a domain, coded 0 to 3 (R390, R409). -/
inductive DomState where
  | on | waking | retained | off
deriving DecidableEq, Repr

/-- State of a stage bank, coded 0 to 3 (R409). -/
inductive BankState where
  | on | retained | off | lost
deriving DecidableEq, Repr

/-- Why a domain is asked to sleep, and how its handshake stands (R394). -/
structure Handshake where
  dom : Fin 12
  rounds : Nat
  /-- Longest retry time asked for, in units of 128 ns. -/
  retry : BitVec 8
deriving DecidableEq, Repr

/-- An entry to Standby or Dormant under way (R393): the mode being entered, the ports that it suspends (16: GA), and the MODE_SET that
waits. -/
structure Entry where
  mode : Mode
  ports : List Nat
  cmd : Option (Nat × BitVec 16)
deriving DecidableEq, Repr

/-- The PMU (R390–R409). -/
structure Pmu where
  mode : Mode
  target : Mode
  changing : Bool
  doms : Vector DomState 12
  banks : Vector BankState 64
  handshake : Option Handshake
  entry : Option Entry
  /-- Accesses stalled by the wake of each domain (R400). -/
  stalled : Vector Nat 12
  /-- Levels of PACEn_A and PACEn_B recorded when PD_TIME committed (R397). -/
  paceLevels : BitVec 16
  /-- CCLK that are left of the entry window of PD_TIME (R396). -/
  window : Nat
  /-- Words held by each bank, for transfers staged there. -/
  bankUse : Vector Nat 64
  /-- WAKEIN0_N and WAKEIN1_N are low (R398). -/
  wakeLow : BitVec 2
  /-- Ports that the entry to Standby or Dormant suspended (R392): root ports, and 16 for GA. -/
  slept : List Nat
  /-- SRAM_RET is high; it has fallen in this wake, and the domains that wait for its 5 µs (R489). -/
  sramRet : Bool
  sramFell : Bool
  wakeAfter : BitVec 12
deriving DecidableEq, Repr

/-- D-states of the host function (R466). -/
inductive DState where
  | d0 | d3hot | d3cold
deriving DecidableEq, Repr

/-- The host function and its link (R355, R465, R480). -/
structure HostFn where
  d : DState
  msixEn : Bool
  funcMask : Bool
  pmeEn : Bool
  pasidEn : Bool
  ltrEn : Bool
  /-- PME_En as it was when the function entered D3cold (R399); WAKE_N driven low. -/
  pmeAtCold : Bool
  wakeN : Bool
  perst : Bool
  up : Bool
  width : BitVec 3
  speed : BitVec 4
  linkPm : BitVec 3
  /-- Read tags outstanding for stage fetch and for ring fetch. -/
  stageTags : Nat
  ringTags : Nat
deriving DecidableEq, Repr

/-- Power state of a root port, coded 0 to 6 (R414). -/
inductive PpmPhase where
  | off | ramping | on | limiting | fault | lockout | noFeed
deriving DecidableEq, Repr

/-- Fault causes of the port power manager, coded 0 to 4 (R414). -/
inductive PpmCause where
  | none | overcurrent | fastTrip | rampTimeout | feedLost
deriving DecidableEq, Repr

/-- A root port in the port power manager (R410–R425). Voltages in µV, times in ticks of 1 µs. -/
structure PpmPort where
  phase : PpmPhase
  cause : PpmCause
  gen : Bool
  pg : Bool
  retries : BitVec 8
  /-- Fault timer: ticks left; none: not running. -/
  faultLeft : Option Nat
  /-- Ticks since GEN_n went high, blanked ticks left out, and the ramp timeout taken then. -/
  rampTicks : Nat
  rampMax : Nat
  /-- Slope taken when the ramp started, V/s, and the target, µV. -/
  slope : Nat
  target : Nat
  /-- Retry timer: ticks left; none: not running. -/
  retryLeft : Option Nat
  /-- Fast trip latched since the last tick (R417). -/
  tripLatch : Bool
  /-- Power request and power-off request that the next tick applies (R413); a power request kept in NO_FEED (R427). -/
  onReq : Bool
  offReq : Bool
  kept : Bool
  /-- Waits in FAULT for a feed, its retry timer having expired (R424). -/
  waitFeed : Bool
  /-- Consecutive samples below 0.9 × ILIM while limiting. -/
  lowRun : Nat
  /-- Ticks for which PG_n has been high (R420). -/
  pgTicks : Nat
  /-- Last sample: ISNS and VSNS codes. -/
  isns : BitVec 12
  vsns : BitVec 12
  /-- Metering: samples of the running 64 and their sums; energy in mJ with its fraction in 2^-32 mJ. -/
  samples : Nat
  sumI : Nat
  sumV : Nat
  sumP : Nat
  energy : BitVec 48
  energyFrac : BitVec 32
  /-- GRAMP_n, the 10-bit DAC. -/
  gramp : BitVec 10
deriving DecidableEq, Repr

/-- Feed selection of a group, coded 0 to 4 (R423). -/
inductive FeedSel where
  | none | onA | deadToB | onB | deadToA
deriving DecidableEq, Repr

/-- A feed of a group (R422): good, ticks without a break at or above UV, consecutive samples below UV − UV / 32, last voltage. -/
structure Feed where
  /-- It has been sampled since the oscillator started (R412). -/
  seen : Bool
  good : Bool
  goodTicks : Nat
  lowRun : Nat
  mv : BitVec 16
deriving DecidableEq, Repr

/-- A port group's feed logic (R423, R424): dead and blanking timers in ticks, and the time for which A has been good in ON_B. -/
structure FeedGroup where
  sel : FeedSel
  a : Feed
  b : Feed
  aEn : Bool
  bEn : Bool
  deadLeft : Option Nat
  blankLeft : Option Nat
  returnTicks : Nat
  /-- RETURN_S taken when the interval started, in ticks. -/
  returnMax : Nat
deriving DecidableEq, Repr

/-- Kinds of start, coded 0 to 7 in BOOT_STATUS.KIND (R447). -/
inductive StartKind where
  | porst | forcedCold | wrst | fwCommit | bootCtrl | watchdog | retention | rom
deriving DecidableEq, Repr

/-- A start in progress (R432): its kind, whether warm, the step reached, and the mode in which it began. -/
structure StartRun where
  kind : StartKind
  warm : Bool
  step : Nat
  verify : Bool
  linkRetained : Bool
  begun : Mode
deriving DecidableEq, Repr

/-- What a flash slot holds (R437, R441): the bytes staged so far, or none for the image with which the board was built; marked
valid by the verification of R439. -/
structure Slot where
  staged : Option (List Byte)
  /-- Offset up to which staging has come, when staging. -/
  offset : Nat
  /-- Verification passed, with VERSION, ROLLBACK, KEY and CMDSET of its header. -/
  valid : Bool
  version : BitVec 24
  rollback : BitVec 8
  key : BitVec 8
  cmdset : BitVec 16
deriving DecidableEq, Repr

/-- Boot state (R432–R447). -/
structure Boot where
  start : Option StartRun
  kind : StartKind
  running : Bool
  loaded : Bool
  /-- Boot record in force: SEQ, PRIMARY, PENDING (R438). -/
  seq : BitVec 32
  primary : Bool
  commitPending : Bool
  slotA : Slot
  slotB : Slot
  fellBack : Bool
  imageRetained : Bool
  linkRetained : Bool
  debugUnlocked : Bool
  healthy : Bool
  /-- The success window runs (R434), and the running time at which the last start ended, ns. -/
  window : Bool
  endedAt : Nat
  warmFails : BitVec 2
  coldFails : BitVec 2
  /-- Cold attempts run on the slot other than the primary (R435). -/
  coldOther : Bool
  starts : BitVec 16
  failStep : BitVec 4
  failCode : BitVec 8
  failCount : BitVec 16
  /-- OTP bits blown since manufacture: rollback level advanced to, and KEY0_REVOKED (R440). -/
  rollback : BitVec 7
  key0Revoked : Bool
  /-- A cold start has completed step 7 since PORST_N (R446). -/
  readyOnce : Bool
  rom : Bool
  /-- Warm-start triggers held during a cold start, and FLR or PERST_N during a warm start (R446). -/
  heldWarm : Option StartKind
  heldFlr : Bool
  heldPerst : Bool
  /-- FATAL escalations during a warm start, category and cause, oldest first (R462). -/
  heldFatal : List (Nat × Nat)
  dmaRefused : Bool
deriving DecidableEq, Repr

/-- JTAG instructions (R443, R444). -/
inductive JtagInstr where
  | bypass | idcode | samplePreload | extest | clamp | highz | dbgUnlock
deriving DecidableEq, Repr

/-- The JTAG port: instruction, the boundary values preloaded, the word last captured for TDO. -/
structure Jtag where
  instr : JtagInstr
  preload : BitVec 247
  captured : BitVec 247
  width : Nat
deriving DecidableEq, Repr

/-- The latched stop (R269–R277). -/
structure StopState where
  latched : Bool
  reason : BitVec 4
  pinLow : Bool
  /-- Courses in whose control area STOP is still to be repeated, for each trunk, and for GA and GB (R271). -/
  repeats : Vector Nat 18
  /-- Course in whose control area STOP was last repeated on each trunk. -/
  repeatAt : Vector (Option Nat) 16
  /-- Bus time and course count latched at the trigger. -/
  time : BitVec 64
  course : BitVec 48
  /-- Course count of the last trigger: no transaction starts in the rest of that course (R273). -/
  quiet : Option Nat
  /-- CCLK of the last burst: a trigger in the same CCLK sends none of its own (R276). -/
  burst : Option Nat
deriving DecidableEq, Repr

end Sys2Proof.Machine
end

