-- ==== Sys2Proof/Machine/Init.lean ====
section
/-!
DEFINITION. Initial values of the parts of the state: what PORST_N, a start, a link reset or the opening of a table entry leaves.
-/

namespace Sys2Proof.Machine

/-- A receiver before training. -/
def Rx.init : Rx where
  blockLock := false
  train := .idle
  rate := none
  nearPreset := 0
  farPreset := 0
  request := 0
  eyeOk := false
  gotReady := 0
  sentReady := 0
  attempt := 1
  sent := 0

/-- A ledger with zero counts and eye minima at 0xFF (R56, R61). -/
def Ledger.init : Ledger where
  blk := 0
  crc := 0
  retry := 0
  eyeH := 0
  eyeV := 0
  eyeHMin := 0xFF
  eyeVMin := 0xFF

/-- No window runs. -/
def Window.init : Window where
  started := false
  cycles := 0
  length := 0
  blk := 0
  crc := 0
  retry := 0
  crossed := 0

/-- No delay estimate. -/
def Delay.init : Delay where
  oneWay := 0
  valid := false
  stale := false
  sum := 0
  count := 0
  pings := 0
  awaiting := none
  lastSeq := 0
  validCnt := 0
  missed := 0

/-- Hub error counters at zero. -/
def PortErrors.init : PortErrors := ⟨0, 0, 0, 0⟩

/-- A port that is OFF. -/
def Port.init : Port where
  state := .off
  present := false
  activity := false
  attachLatch := false
  cause := .none
  brFails := 0
  hrFails := 0
  remoteWake := false
  rx := Rx.init
  lastRate := none
  chirps := 0
  farHrCap := false
  farMarginCap := false
  suspendReq := false
  wakeFor := .none
  started := false
  stepPending := false
  stepFrom := 0
  rateDown := false
  ledger := Ledger.init
  window := Window.init
  delay := Delay.init
  recovering := false
  enabledAt := 0
  change := 0
  wakeEn := false
  overcurrent := false
  byHub := false
  errs := PortErrors.init
  retries := 0
  hrEn := true
  stepped := false
  seed := 0
  seedBefore := 0
  eyed := false

/-- A downstream side that has not yet seen a transition. -/
def DownLink.init : DownLink where
  phase := .quiet
  rx := Rx.init
  lastRate := none
  synced := false
  course := 0
  missed := 0
  startAt := 0
  period := 0
  seed := 0
  heard := 0
  rateDown := false
  timeValid := false
  cycleStart := false
  lease := false
  waking := false

/-- Local time before the first anchor (R131). -/
def NodeTime.init : NodeTime where
  valid := false
  d := none
  dNext := none
  anchor := 0
  anchorAt := 0
  missed := 0
  last := none
  rateNum := 1
  rateDen := 1

/-- An endpoint in the initial state of R82. -/
def Endpoint.init (num : BitVec 4) : Endpoint where
  num := num
  expToggle := false
  sendToggle := false
  seq := 0
  sendSeq := 0
  halted := false
  releases := []
  late := 0
  lateTag := 0
  output := []
  sample := none
  kept := []

/-- A board at a place, without power. -/
def Device.init (pos : Pos) (board : Board) : Device where
  pos := pos
  board := board
  powered := false
  ready := false
  addr := none
  addrNext := none
  configured := false
  config := 0
  link := DownLink.init
  time := NodeTime.init
  eps := []
  ctrl := none
  stalled0 := false
  late := 0
  tier := 0
  ports := []
  stopped := false

/-- Bus time after PORST_N (R145, R432). -/
def TimeState.init : TimeState where
  bus := 0
  frac := 0
  mono := 0
  cclk := 0
  rate := 0
  rateGoal := 0
  slewLeft := 0
  step := none
  stepBy := none
  quality := .unset
  uncert := 0
  lockRun := 0
  missRun := 0
  firstPulse := false
  secondsSet := false
  stepped := false
  ao := 0
  snap := none

/-- The course sequencer before the first course: the default period of 160 units (R120). -/
def CourseState.init : CourseState where
  running := false
  begun := false
  count := 0
  start := 0
  startMono := 0
  period := 160
  periodNext := none
  periodSwap := none

/-- The planner with an empty active plan. -/
def Planner.init : Planner where
  active := false
  ready := false
  pending := false
  lastSwap := none
  pools := []
  poolsNext := []
  areas := []
  areasNext := []
  swapAt := none
  grants := []
  taken := []
  bulkArea := []
  bulkShare := []
  uses := []

/-- An idle engine. -/
def Engine.init : Engine := ⟨none, none, 0, 0, none⟩

/-- An estimator in OFF. -/
def Estimator.init : Estimator where
  state := .off
  pos := 0
  stamp := 0
  edges := []
  omega := 0
  alpha := 0
  dTheta := 0
  dOmega := 0
  stopped := false
  reversing := false
  highest := 0
  indexSeen := false
  quiet := 0
  missing := 0
  overrate := false

/-- An encoder input at rest. -/
def Encoder.init : Encoder := ⟨false, false, 0, false⟩

/-- A core that has nothing in hand (R354). -/
def CoreState.init : CoreState where
  prio := 0
  sleep := false
  fastBusy := false
  inFlight := false
  fastFlight := false
  task := none

/-- The gutter with nothing pending and every source masked (R348). -/
def Gutter.init : Gutter where
  pend := 0
  mask := BitVec.allOnes 2048
  latch := 0
  fast := 0
  wake := 0
  stop := 0
  cfg := []
  last := []
  prio := []
  held := 0
  gaps := []
  lastFast := 2047
  lastNormal := 2047
  cores := Vector.replicate 4 CoreState.init
  msix := []
  pba := 0

/-- An empty record. -/
def ErrRec.init : ErrRec where
  valid := false
  fatalClass := false
  overflow := false
  aoTime := false
  time := 0
  code := 0
  source := 0
  seq := 0
  count := 0
  detail := 0
  cclk := 0

/-- The error manager without errors. -/
def ErrState.init : ErrState where
  recs := Vector.replicate 7 ErrRec.init
  fatal := ⟨false, 0, 0, 0, 0, 0⟩
  fatalAt := []

/-- No stop latched; STOP_IN_N high. -/
def StopState.init : StopState where
  latched := false
  reason := 0
  pinLow := false
  repeats := Vector.replicate 18 0
  repeatAt := Vector.replicate 16 none
  time := 0
  course := 0
  quiet := none
  burst := none

/-- The gang block after a start: solo, SETUP (R366). -/
def Gang.init : Gang where
  role := .solo
  phase := .setup
  size := 1
  hop := 0
  ridgeAllowed := false
  configured := false
  joined := false
  effMinor := 4
  digest := 0
  ridgeDigest := 0
  map := 0
  accepted := none
  sawEdges := false
  deciding := false
  goodRun := 0
  noSample := 0
  ridgeLock := false
  firstSample := true
  offset := 0
  leaseMiss := 0
  leaseHave := 0
  leaseNow := false
  heard := false
  sampled := false
  timeValid := false
  below := none
  exchanged := false
  setSent := false
  sentD := none
  record := []
  recordNow := false
  recordMiss := Vector.replicate 8 0
  joining := none

/-- The PMU while the part starts (R392, R409). -/
def Pmu.init : Pmu where
  mode := .setup
  target := .setup
  changing := false
  doms := (Vector.replicate 12 DomState.on).set 11 .off
  banks := Vector.replicate 64 .off
  handshake := none
  entry := none
  stalled := Vector.replicate 12 0
  paceLevels := 0
  window := 0
  bankUse := Vector.replicate 64 0
  wakeLow := 0
  slept := []
  sramRet := false
  sramFell := false
  wakeAfter := 0

/-- The host function after PORST_N, PERST_N high. -/
def HostFn.init : HostFn where
  d := .d0
  msixEn := false
  funcMask := false
  pmeEn := false
  pasidEn := false
  ltrEn := false
  pmeAtCold := false
  wakeN := false
  perst := false
  up := false
  width := 0
  speed := 0
  linkPm := 0
  stageTags := 0
  ringTags := 0

/-- A root port's power at OFF (R426). -/
def PpmPort.init : PpmPort where
  phase := .off
  cause := .none
  gen := false
  pg := false
  retries := 0
  faultLeft := none
  rampTicks := 0
  rampMax := 0
  slope := 0
  target := 0
  retryLeft := none
  tripLatch := false
  onReq := false
  offReq := false
  kept := false
  waitFeed := false
  lowRun := 0
  pgTicks := 0
  isns := 0
  vsns := 0
  samples := 0
  sumI := 0
  sumV := 0
  sumP := 0
  energy := 0
  energyFrac := 0
  gramp := 0

/-- A feed not yet watched. -/
def Feed.init : Feed := ⟨false, false, 0, 0, 0⟩

/-- A feed group with no feed selected (R426). -/
def FeedGroup.init : FeedGroup where
  sel := .none
  a := Feed.init
  b := Feed.init
  aEn := false
  bEn := false
  deadLeft := none
  blankLeft := none
  returnTicks := 0
  returnMax := 0

/-- A slot as the board was built: its image has not been looked at. -/
def Slot.init : Slot where
  staged := none
  offset := 0
  valid := false
  version := 0
  rollback := 0
  key := 0
  cmdset := 0

/-- The boot state right after PORST_N: the cold start at step 1 (R432, R447). -/
def Boot.init : Boot where
  start := some ⟨.porst, false, 1, true, false, .setup⟩
  kind := .porst
  running := false
  loaded := false
  seq := 0
  primary := false
  commitPending := false
  slotA := Slot.init
  slotB := Slot.init
  fellBack := false
  imageRetained := false
  linkRetained := false
  debugUnlocked := false
  healthy := false
  window := false
  endedAt := 0
  warmFails := 0
  coldFails := 0
  coldOther := false
  starts := 0
  failStep := 0
  failCode := 0
  failCount := 0
  rollback := 0
  key0Revoked := false
  readyOnce := false
  rom := false
  heldWarm := none
  heldFlr := false
  heldPerst := false
  heldFatal := []
  dmaRefused := false

/-- JTAG after TRST_N: IDCODE selected, as IEEE 1149.1 has it. -/
def Jtag.init : Jtag := ⟨.idcode, 0, 0, 0⟩

/-- No share of anything. -/
def Shares.none : Shares where
  ctx := 0
  words := 0
  weight := 0
  blocks := []
  vecFirst := 0
  vecs := 0
  slots := Vector.replicate 16 0

/-- A mailbox that is not enabled, its indices 0 and phase 1 (R280). -/
def Mailbox.init : Mailbox where
  prod := 0
  oldest := 0
  fetch := 0
  write := 0
  phase := true
  taken := []
  completed := []
  eventSeq := 0
  lost := false
  cache := []

/-- A completion ring at index 0 (R217). -/
def CqState.init : CqState := ⟨0, true, false⟩

/-- No stall recorded. -/
def Stall.init : Stall := ⟨false, ⟨false, false, false⟩, 0, 0, 0⟩

/-- A FREE instance (R318). -/
def Instance.init : Instance where
  state := .free
  epoch := 0
  pasid := 0
  shares := Shares.none
  mb := Mailbox.init
  cqs := Vector.replicate 16 CqState.init
  routes := ⟨0, 0, []⟩
  stall := Stall.init
  freezeAt := none
  thawAt := none
  quiescent := false
  reset := none
  cutAt := none
  cutSlots := Vector.replicate 16 0
  revoked := []
  revokedDescs := 0

/-- Every event code written and signalled (R311, R312): codes 0x01 to 0x13. -/
def Routes.all : Routes := ⟨0x000FFFFE, 0x000FFFFE, []⟩

/-- The manager after a cold start (R317, R322): 256 contexts, 65,536 stage words, weight 16, vectors 0–63, 64 blocks of every trunk;
every event enabled and signalled (R311). Its sources 0–255 are no granted blocks. -/
def Instance.manager : Instance :=
  { Instance.init with
    state := .active
    shares := ⟨256, 65536, 16, [], 0, 64, Vector.replicate 16 64⟩
    routes := Routes.all }

/-- The controller as a device on its GB link (R97, R365): class 0x20, CONFIG_GEN of command set 1.4, turnaround 32 ns, HR_CAP and
REMOTE_WAKE set, identity from OTP words 0 and 1. The spec states neither its maker code nor its grid offset: both are free
(assumption 15). -/
def gbBoard : Board where
  desc := [0x50110000 ||| Config.gbMaker.zeroExtend 36, (Config.otpWord 1).zeroExtend 36, (Config.otpWord 0).zeroExtend 36,
    0x200104020, 0xC000 ||| (Config.gbGrid.zeroExtend 36 <<< 16)]
  hub := []
  maker := []

/-- An idle task. -/
def Task.init : Task where
  flags := 0
  mask := 0
  state := .idle
  cancelPending := false
  delay := none
  since := 0
  readyCourse := 0
  aged := false
  prio := 0
  bell := none

/-- No cause. -/
def HoldCauses.none : HoldCauses := ⟨false, false, false, false, false, false, false, false, false⟩

/-- All counts zero. -/
def FlowCounts.zero : FlowCounts := ⟨0, 0, 0, 0, 0, 0, 0, 0, 0, 0, 0, 0⟩

end Sys2Proof.Machine
end

