-- ==== Sys2Proof/Machine/OutTypes.lean ====
section
/-!
DEFINITION. What the controller, and the nodes and hubs on its trees, put out: reads and writes of host memory, messages on the PCIe
link, packets and blocks on links, outputs of nodes, levels of pins. The machine appends them to a log, newest first.
-/

namespace Sys2Proof.Machine

/-- A thing put out. -/
inductive Out where
  /-- A posted write into host memory under a PASID (none: no PASID prefix), bytes in address order (R2, R3). -/
  | hostWrite (pasid : Option (BitVec 20)) (addr : BitVec 64) (data : List Byte)
  /-- A memory read request: address and bytes. -/
  | hostRead (pasid : Option (BitVec 20)) (addr : BitVec 64) (bytes : Nat)
  /-- The bytes that answer a read of a BAR (R471), and the answer Unsupported Request. -/
  | reply (data : List Byte)
  | unsupported
  /-- An MSI-X message of a vector: its address and data (R355). -/
  | msix (vec : Nat) (addr : BitVec 64) (data : Reg32)
  /-- Messages on the PCIe link: LTR with its two values (R480), PM_PME (R399), ERR_NONFATAL and ERR_FATAL (R480). -/
  | ltr (v : Reg32)
  | pme
  | errMsg (fatal : Bool)
  /-- A packet or handshake of a side, scrambled, with the index of its first block in the course (R31, R34, R62, R70). -/
  | packet (x : Side) (w : Wire)
  /-- A packet that a hub or a gang member sends on, block by block, a block in error with sync header 0b00 (R32, R74, R371). -/
  | forward (x : Side) (w : Wire)
  /-- Control blocks of a side, encoded (R30, R37). -/
  | blocks (x : Side) (bs : List Block)
  /-- A side starts or stops driving what is no block: reset hold, training, idle. -/
  | drive (x : Side) (on : Bool)
  /-- A node presents a payload at an output endpoint (R66, R172), and takes its stop action (R272). -/
  | node (pos : Pos) (ep : BitVec 4) (words : List Word)
  | stopAction (pos : Pos)
  /-- A delivery to a management core (R354). -/
  | core (n : Nat) (src : Nat) (fast : Bool)
  /-- Levels of pins: PPS_OUT rises for a time in µs, WAKE_N, SRAM_RET, GEN_n, PG_n, FEED_A_EN_g, FEED_B_EN_g. -/
  | ppsOut (us : Nat)
  | wakeN (low : Bool)
  | sramRet (high : Bool)
  | genN (n : Nat) (high : Bool)
  | pgN (n : Nat) (high : Bool)
  | feedEn (g : Nat) (b : Bool) (high : Bool)
  /-- A word shifted out at TDO (R443). -/
  | tdo (width : Nat) (v : BitVec 247)
  /-- The signal balls follow the boundary register, whatever the blocks behind them ask for; none: the outputs float (R443). -/
  | boundary (v : Option (BitVec 247))
  /-- Control transfers that firmware sends to a device (R96, R132, R374). -/
  | control (addr : BitVec 12) (s : Setup) (data : List Word)
  /-- A control transfer that GA's firmware sends to the GB device below (R373). -/
  | gangControl (s : Setup) (data : List Word)
deriving DecidableEq, Repr

/-- A posted write that waits in write-back while the function cannot issue it, or a raise that follows it (R10, R357). -/
inductive Posted where
  | write (o : Out)
  | raise (src : Nat)
deriving DecidableEq, Repr

end Sys2Proof.Machine
end

