-- ==== Sys2Proof/Machine/RegMap.lean ====
section
/-!
DEFINITION. The register map of BAR0 and of an instance page of BAR2: every register of R481 with its place and its fields,
each field with its bits, access code (R5), class (R7) and reset value, as the register tables of the home chapters give them.
-/

namespace Sys2Proof.Machine

/-- The access codes of R5. -/
inductive Access where
  | ro | rw | wo | w1s | w1c | rc
deriving DecidableEq, Repr

/-- The field classes of R7: static, course-shadowed, live. -/
inductive FieldClass where
  | s | c | l
deriving DecidableEq, Repr

/-- The registers of R481, under the manual's names. The registers `SIG_…` of an instance page (R361) carry the prefix `P` here,
because BAR0 holds registers of the same names (R362). -/
inductive Reg where
  | TRK_CTRL | TRK_STATUS | TRK_LEDGER_BLK | TRK_LEDGER_CRC | TRK_LEDGER_RETRY | TRK_EYE
  | TRK_THR0 | TRK_THR1 | TRK_THR_WIN | TRK_LEDGER_CLR | TRK_EVENT | TRK_PCFG
  | TRK_PSTATE | TRK_PEVENT | TRK_DELAY | TRK_DELAY_STAT | TAPU_COURSE_CFG | TAPU_TIME_CTRL
  | TAPU_COURSE_CNT_LO | TAPU_COURSE_CNT_HI | TAPU_TIME_LO | TAPU_TIME_HI | TAPU_TIME_STATUS | TAPU_RATE
  | TAPU_SLEW_CFG | TAPU_SLEW_LEFT | TAPU_UNCERT | TAPU_HOLD_CFG | TAPU_LOCK_CFG | TAPU_PPS_CFG
  | TAPU_PPS_OUT_OFS | TAPU_PPS_STAMP_LO | TAPU_PPS_STAMP_HI | TAPU_PPS_STAT | TAPU_OFFSET | TAPU_EVENT
  | PLN_CFG | PLN_STATUS | PLN_SWAP_CNT | PLN_NEXT_SWAP | PLN_EVENT | PLN_DENIED_CNT
  | PLN_NOTACC_CNT | PLN_UNDERRUN_CNT | PLN_STALL_CNT | PLN_TRK_LOAD | PLN_TRK_CAP | TAPU_PACE_CFG
  | TAPU_PACE_CPR | TAPU_PACE_IDX_OFS | TAPU_PACE_AMAX | TAPU_PACE_RMAX | TAPU_PACE_HMAX | TAPU_PACE_POS_LO
  | TAPU_PACE_POS_HI | TAPU_PACE_STAMP_LO | TAPU_PACE_STAMP_HI | TAPU_PACE_RATE | TAPU_PACE_ACCEL | TAPU_PACE_ERR
  | TAPU_PACE_STATUS | TAPU_PACE_EVENT | TAPU_ENC_CNT | TAPU_ENC_ERR | INST_FLOW_DB | INST_DB_ERR
  | INST_CQ_BASE_LO | INST_CQ_BASE_HI | INST_CQ_CFG | INST_CQ_CONS | INST_CQ_STATUS | DSP_CFG
  | DSP_STATUS | DSP_DECISIONS_LO | DSP_DECISIONS_HI | DSP_LOST_READY_CNT | DSP_ORD_USE | DSP_ORD_HWM
  | DSP_DELAY_STAT | DSP_TASK_SEL | DSP_TASK_VIEW | DSP_TASK_DEADLINE | DSP_EVENT | DSP_TRK_READY
  | TRC_CTRL | TRC_FILT_INST | TRC_FILT_TRUNK | TRC_FILT_CLASS | TRC_RING_BASE_LO | TRC_RING_BASE_HI
  | TRC_RING_CFG | TRC_RING_PROD | TRC_RING_CONS | TRC_DROP | TRC_BUF_STAT | TRC_BUF_LO
  | TRC_BUF_MID | TRC_BUF_HI | ENG_ESC | ENG_STOP_CFG | ENG_STOP_CMD | ENG_STOP_STATUS
  | ENG_STOP_TIME_LO | ENG_STOP_TIME_HI | ENG_STOP_CNT | ENG_EVENT | ENG_SUSPECT | ENG_TRK_FAULT
  | ENG_STATUS | ENG_TXQ | INST_MB_CMD_BASE_LO | INST_MB_CMD_BASE_HI | INST_MB_CPL_BASE_LO | INST_MB_CPL_BASE_HI
  | INST_MB_CFG | INST_MB_DB | INST_MB_CPL_CONS | INST_MB_STATUS | INST_MB_CPL_WRITE | INST_MB_EVENT_LOST
  | INST_INFO | INST_EPOCH | INST_STALL_CFG | INST_STALL_STATUS | INST_STALL_CNT | INST_STALL_OPEN_LO
  | INST_STALL_OPEN_HI | INST_STALL_CLOSE_LO | INST_STALL_CLOSE_HI | INST_REVOKE_STAT | INST_FREEZE_COURSE | INST_REVOKE_LOG
  | INST_MGR_CFG | INST_POOL_CTX | INST_POOL_STAGE | INST_POOL_SIG | INST_POOL_INST | INST_POOL_SLOT
  | INST_SEL | INST_VIEW | INST_VIEW_EPOCH | INST_EVENT | PSIG_RAISE | PSIG_PEND_SET
  | PSIG_PEND_CLR | PSIG_MASK_SET | PSIG_MASK_CLR | PSIG_SRC_SEL | PSIG_SRC_CFG | PSIG_PRIO
  | PSIG_VEC_SEL | PSIG_VEC_VIEW | PSIG_ERR | PSIG_PEND | PSIG_MASK | SIG_RAISE
  | SIG_PEND_SET | SIG_PEND_CLR | SIG_MASK_SET | SIG_MASK_CLR | SIG_SRC_SEL | SIG_SRC_CFG
  | SIG_SRC_CTL | SIG_STATUS | SIG_DELIVER_CNT | SIG_COALESCE_CNT | SIG_ERR | SIG_CORE
  | SIG_VEC_SEL | SIG_VEC_VIEW | SIG_GRP_HOLDOFF | SIG_PEND | SIG_MASK | GANG_CFG
  | GANG_STATE | GANG_DIGEST | GANG_RIDGE_DIGEST | GANG_OFFSET | GANG_MEMBERS | GANG_LEASE
  | GANG_XCHG | GANG_PACE_STAT | GANG_OFS_STAT | GANG_MAP_LO | GANG_MAP_HI | GANG_EVENT
  | PMU_MODE | PMU_CFG | PMU_DOM_POLICY | PMU_DOM_STATE | PMU_WAKE_EN | PMU_WAKE_SETUP
  | PMU_WAKE_STAT | PMU_AO_CNT_LO | PMU_AO_CNT_HI | PMU_TIMER_LO | PMU_TIMER_HI | PMU_DENY
  | PMU_WINDOW_CNT | PMU_STALL_CNT | PMU_EVENT | PMU_BANK_STATE | PMU_BANK_LOST_LO | PMU_BANK_LOST_HI
  | PMU_ARRAY_LOST | PMU_LOST_CNT | PPM_LIMIT | PPM_TIMERS | PPM_RAMP | PPM_SCALE
  | PPM_STATUS | PPM_MEAS | PPM_PEAK | PPM_PEVENT | PPM_GRP_CFG | PPM_FEED_CFG
  | PPM_FEED_STATUS | PPM_FEED_V | PPM_POWER | PPM_ENERGY_LO | PPM_ENERGY_HI | PPM_GSTATUS
  | PPM_ECLR | BOOT_STATUS | BOOT_ATTEMPTS | BOOT_FAIL | BOOT_IMG_A | BOOT_IMG_B
  | BOOT_CTRL | BOOT_OTP_SEL | BOOT_OTP_DATA | BOOT_ROLLBACK | ERR_SEL | ERR_REC_TIME_LO
  | ERR_REC_TIME_HI | ERR_REC_CODE | ERR_REC_FLAGS | ERR_REC_DETAIL | ERR_STATUS | ERR_ACK
  | ERR_FATAL | ERR_FATAL_ACK | ERR_CE_CNT | ERR_TOTAL | PTB_CFG | PTB_ACTIVE
  | PTB_ENG_DELAY | PTB_THROTTLE | PTB_BLKERR_CFG | PTB_BLKERR_N | PTB_BLKERR_CNT | PTB_SILENCE
  | PTB_SILENCE_CNT | PTB_SFD_CFG | PTB_SFD_NS | PTB_WAKE_EXT | PTB_ON_TIME_LO | PTB_ON_TIME_HI
  | PTB_OFF_TIME_LO | PTB_OFF_TIME_HI | ID_DEVICE | ID_UNIQUE_LO | ID_UNIQUE_HI | ID_FW_VERSION
  | ID_CMDSET | ID_SKU | ID_CAP0 | ID_CAP1 | ID_CAP2 | ID_CAP3
  | ID_CAP4 | ID_CAP5 | ID_STRAPS | ID_SCRATCH | HIF_LINK | HIF_TAGS
  | HIF_LTR | HIF_EVENT | HIF_DMA_ERR | HIF_BAD_ACCESS
deriving DecidableEq, Repr

/-- One field of a register (R1, R5, R7). -/
structure Fld where
  reg : Reg
  lo : Nat
  width : Nat
  acc : Access
  cls : FieldClass
  reset : Nat
deriving DecidableEq, Repr

/-! TRK_CTRL: R61. -/
def Fld.TRK_CTRL_HR_EN : Fld := ⟨.TRK_CTRL, 0, 1, .rw, .l, 1⟩
def Fld.TRK_CTRL_AUTO_STEP : Fld := ⟨.TRK_CTRL, 1, 1, .rw, .l, 0⟩
def Fld.TRK_CTRL_DFE_EN : Fld := ⟨.TRK_CTRL, 2, 1, .rw, .s, 1⟩
def Fld.TRK_CTRL_PRESET_FORCE : Fld := ⟨.TRK_CTRL, 3, 1, .rw, .s, 0⟩
def Fld.TRK_CTRL_PRESET : Fld := ⟨.TRK_CTRL, 4, 3, .rw, .s, 2⟩
def Fld.TRK_CTRL_STEP_DOWN : Fld := ⟨.TRK_CTRL, 7, 1, .wo, .c, 0⟩
/-! TRK_STATUS: R61. -/
def Fld.TRK_STATUS_RATE : Fld := ⟨.TRK_STATUS, 0, 2, .ro, .l, 0⟩
def Fld.TRK_STATUS_BLOCK_LOCK : Fld := ⟨.TRK_STATUS, 2, 1, .ro, .l, 0⟩
def Fld.TRK_STATUS_TRAINED : Fld := ⟨.TRK_STATUS, 3, 1, .ro, .l, 0⟩
def Fld.TRK_STATUS_HR_FAILS : Fld := ⟨.TRK_STATUS, 4, 2, .ro, .l, 0⟩
def Fld.TRK_STATUS_NEAR_PRESET : Fld := ⟨.TRK_STATUS, 6, 3, .ro, .l, 0⟩
def Fld.TRK_STATUS_FAR_PRESET : Fld := ⟨.TRK_STATUS, 9, 3, .ro, .l, 0⟩
def Fld.TRK_STATUS_PRESENT : Fld := ⟨.TRK_STATUS, 12, 1, .ro, .l, 0⟩
def Fld.TRK_STATUS_ACTIVITY : Fld := ⟨.TRK_STATUS, 13, 1, .ro, .l, 0⟩
def Fld.TRK_STATUS_STEP_PENDING : Fld := ⟨.TRK_STATUS, 14, 1, .ro, .l, 0⟩
def Fld.TRK_STATUS_FAR_HR_CAP : Fld := ⟨.TRK_STATUS, 15, 1, .ro, .l, 0⟩
def Fld.TRK_STATUS_FAR_MARGIN_CAP : Fld := ⟨.TRK_STATUS, 16, 1, .ro, .l, 0⟩
/-! TRK_LEDGER_BLK: R61. -/
def Fld.TRK_LEDGER_BLK_COUNT : Fld := ⟨.TRK_LEDGER_BLK, 0, 32, .ro, .l, 0⟩
/-! TRK_LEDGER_CRC: R61. -/
def Fld.TRK_LEDGER_CRC_COUNT : Fld := ⟨.TRK_LEDGER_CRC, 0, 32, .ro, .l, 0⟩
/-! TRK_LEDGER_RETRY: R61. -/
def Fld.TRK_LEDGER_RETRY_COUNT : Fld := ⟨.TRK_LEDGER_RETRY, 0, 32, .ro, .l, 0⟩
/-! TRK_EYE: R61. -/
def Fld.TRK_EYE_EYE_H : Fld := ⟨.TRK_EYE, 0, 8, .ro, .l, 0⟩
def Fld.TRK_EYE_EYE_V : Fld := ⟨.TRK_EYE, 8, 8, .ro, .l, 0⟩
def Fld.TRK_EYE_EYE_H_MIN : Fld := ⟨.TRK_EYE, 16, 8, .ro, .l, 0xff⟩
def Fld.TRK_EYE_EYE_V_MIN : Fld := ⟨.TRK_EYE, 24, 8, .ro, .l, 0xff⟩
/-! TRK_THR0: R61. -/
def Fld.TRK_THR0_BLK_THR : Fld := ⟨.TRK_THR0, 0, 16, .rw, .l, 0x10⟩
def Fld.TRK_THR0_CRC_THR : Fld := ⟨.TRK_THR0, 16, 16, .rw, .l, 8⟩
/-! TRK_THR1: R61. -/
def Fld.TRK_THR1_RETRY_THR : Fld := ⟨.TRK_THR1, 0, 16, .rw, .l, 0x20⟩
def Fld.TRK_THR1_EYE_H_THR : Fld := ⟨.TRK_THR1, 16, 8, .rw, .l, 0xd⟩
def Fld.TRK_THR1_EYE_V_THR : Fld := ⟨.TRK_THR1, 24, 8, .rw, .l, 0xf⟩
/-! TRK_THR_WIN: R61. -/
def Fld.TRK_THR_WIN_WINDOW : Fld := ⟨.TRK_THR_WIN, 0, 16, .rw, .c, 0x400⟩
/-! TRK_LEDGER_CLR: R61. -/
def Fld.TRK_LEDGER_CLR_CLEAR : Fld := ⟨.TRK_LEDGER_CLR, 0, 1, .wo, .l, 0⟩
/-! TRK_EVENT: R61. -/
def Fld.TRK_EVENT_BLK_X : Fld := ⟨.TRK_EVENT, 0, 1, .w1c, .l, 0⟩
def Fld.TRK_EVENT_CRC_X : Fld := ⟨.TRK_EVENT, 1, 1, .w1c, .l, 0⟩
def Fld.TRK_EVENT_RETRY_X : Fld := ⟨.TRK_EVENT, 2, 1, .w1c, .l, 0⟩
def Fld.TRK_EVENT_EYE_X : Fld := ⟨.TRK_EVENT, 3, 1, .w1c, .l, 0⟩
def Fld.TRK_EVENT_STEPPED_DOWN : Fld := ⟨.TRK_EVENT, 4, 1, .w1c, .l, 0⟩
def Fld.TRK_EVENT_HR_TRAIN_FAIL : Fld := ⟨.TRK_EVENT, 5, 1, .w1c, .l, 0⟩
def Fld.TRK_EVENT_LOCK_LOST : Fld := ⟨.TRK_EVENT, 6, 1, .w1c, .l, 0⟩
/-! TRK_PCFG: R119. -/
def Fld.TRK_PCFG_WAKE_EN : Fld := ⟨.TRK_PCFG, 0, 1, .rw, .l, 1⟩
def Fld.TRK_PCFG_AUTO_ENUM : Fld := ⟨.TRK_PCFG, 1, 1, .rw, .l, 1⟩
def Fld.TRK_PCFG_RESEAT_WIN : Fld := ⟨.TRK_PCFG, 8, 7, .rw, .l, 0xa⟩
/-! TRK_PSTATE: R119. -/
def Fld.TRK_PSTATE_STATE : Fld := ⟨.TRK_PSTATE, 0, 3, .ro, .l, 0⟩
def Fld.TRK_PSTATE_ATTACH_LATCH : Fld := ⟨.TRK_PSTATE, 3, 1, .ro, .l, 0⟩
def Fld.TRK_PSTATE_FAULT_CAUSE : Fld := ⟨.TRK_PSTATE, 4, 2, .ro, .l, 0⟩
def Fld.TRK_PSTATE_BR_FAILS : Fld := ⟨.TRK_PSTATE, 6, 2, .ro, .l, 0⟩
def Fld.TRK_PSTATE_REMOTE_WAKE : Fld := ⟨.TRK_PSTATE, 8, 1, .ro, .l, 0⟩
/-! TRK_PEVENT: R119. -/
def Fld.TRK_PEVENT_ATTACH : Fld := ⟨.TRK_PEVENT, 0, 1, .w1c, .l, 0⟩
def Fld.TRK_PEVENT_DETACH : Fld := ⟨.TRK_PEVENT, 1, 1, .w1c, .l, 0⟩
def Fld.TRK_PEVENT_RESET_DONE : Fld := ⟨.TRK_PEVENT, 2, 1, .w1c, .l, 0⟩
def Fld.TRK_PEVENT_LINK_FAIL : Fld := ⟨.TRK_PEVENT, 3, 1, .w1c, .l, 0⟩
def Fld.TRK_PEVENT_FAULT : Fld := ⟨.TRK_PEVENT, 4, 1, .w1c, .l, 0⟩
def Fld.TRK_PEVENT_SUSPENDED : Fld := ⟨.TRK_PEVENT, 5, 1, .w1c, .l, 0⟩
def Fld.TRK_PEVENT_RESUMED : Fld := ⟨.TRK_PEVENT, 6, 1, .w1c, .l, 0⟩
def Fld.TRK_PEVENT_WAKE : Fld := ⟨.TRK_PEVENT, 7, 1, .w1c, .l, 0⟩
def Fld.TRK_PEVENT_ATTACH_IN_FAULT : Fld := ⟨.TRK_PEVENT, 8, 1, .w1c, .l, 0⟩
/-! TRK_DELAY: R144. -/
def Fld.TRK_DELAY_ONE_WAY : Fld := ⟨.TRK_DELAY, 0, 20, .ro, .l, 0⟩
def Fld.TRK_DELAY_VALID : Fld := ⟨.TRK_DELAY, 20, 1, .ro, .l, 0⟩
def Fld.TRK_DELAY_STALE : Fld := ⟨.TRK_DELAY, 21, 1, .ro, .l, 0⟩
/-! TRK_DELAY_STAT: R144. -/
def Fld.TRK_DELAY_STAT_LAST_SEQ : Fld := ⟨.TRK_DELAY_STAT, 0, 8, .ro, .l, 0⟩
def Fld.TRK_DELAY_STAT_VALID_CNT : Fld := ⟨.TRK_DELAY_STAT, 8, 8, .ro, .l, 0⟩
def Fld.TRK_DELAY_STAT_MISSED : Fld := ⟨.TRK_DELAY_STAT, 16, 8, .rc, .l, 0⟩
/-! TAPU_COURSE_CFG: R145. -/
def Fld.TAPU_COURSE_CFG_PERIOD : Fld := ⟨.TAPU_COURSE_CFG, 0, 14, .rw, .c, 0xa0⟩
/-! TAPU_TIME_CTRL: R145. -/
def Fld.TAPU_TIME_CTRL_SOURCE : Fld := ⟨.TAPU_TIME_CTRL, 0, 2, .rw, .c, 0⟩
/-! TAPU_COURSE_CNT_LO: R145. -/
def Fld.TAPU_COURSE_CNT_LO_COUNT : Fld := ⟨.TAPU_COURSE_CNT_LO, 0, 32, .ro, .l, 0⟩
/-! TAPU_COURSE_CNT_HI: R145. -/
def Fld.TAPU_COURSE_CNT_HI_COUNT : Fld := ⟨.TAPU_COURSE_CNT_HI, 0, 16, .ro, .l, 0⟩
/-! TAPU_TIME_LO: R145. -/
def Fld.TAPU_TIME_LO_TIME : Fld := ⟨.TAPU_TIME_LO, 0, 32, .ro, .l, 0⟩
/-! TAPU_TIME_HI: R145. -/
def Fld.TAPU_TIME_HI_TIME : Fld := ⟨.TAPU_TIME_HI, 0, 32, .ro, .l, 0⟩
/-! TAPU_TIME_STATUS: R145. -/
def Fld.TAPU_TIME_STATUS_QUALITY : Fld := ⟨.TAPU_TIME_STATUS, 0, 2, .ro, .l, 0⟩
def Fld.TAPU_TIME_STATUS_IN_BOUND : Fld := ⟨.TAPU_TIME_STATUS, 2, 1, .ro, .l, 0⟩
def Fld.TAPU_TIME_STATUS_TIME_VALID : Fld := ⟨.TAPU_TIME_STATUS, 3, 1, .ro, .l, 0⟩
def Fld.TAPU_TIME_STATUS_STEP_PENDING : Fld := ⟨.TAPU_TIME_STATUS, 4, 1, .ro, .l, 0⟩
def Fld.TAPU_TIME_STATUS_SLEWING : Fld := ⟨.TAPU_TIME_STATUS, 5, 1, .ro, .l, 0⟩
/-! TAPU_RATE: R145. -/
def Fld.TAPU_RATE_RATE : Fld := ⟨.TAPU_RATE, 0, 24, .ro, .l, 0⟩
/-! TAPU_SLEW_CFG: R145. -/
def Fld.TAPU_SLEW_CFG_MAX_PPB : Fld := ⟨.TAPU_SLEW_CFG, 0, 18, .rw, .l, 0x186a0⟩
/-! TAPU_SLEW_LEFT: R145. -/
def Fld.TAPU_SLEW_LEFT_LEFT : Fld := ⟨.TAPU_SLEW_LEFT, 0, 32, .ro, .l, 0⟩
/-! TAPU_UNCERT: R145. -/
def Fld.TAPU_UNCERT_U : Fld := ⟨.TAPU_UNCERT, 0, 32, .ro, .l, 0xffffffff⟩
/-! TAPU_HOLD_CFG: R145. -/
def Fld.TAPU_HOLD_CFG_WANDER : Fld := ⟨.TAPU_HOLD_CFG, 0, 16, .rw, .l, 0x32⟩
def Fld.TAPU_HOLD_CFG_LIMIT : Fld := ⟨.TAPU_HOLD_CFG, 16, 16, .rw, .l, 0x3e8⟩
/-! TAPU_LOCK_CFG: R145. -/
def Fld.TAPU_LOCK_CFG_LOCK_THR : Fld := ⟨.TAPU_LOCK_CFG, 0, 16, .rw, .l, 0x64⟩
def Fld.TAPU_LOCK_CFG_LOCK_CNT : Fld := ⟨.TAPU_LOCK_CFG, 16, 4, .rw, .l, 4⟩
def Fld.TAPU_LOCK_CFG_TAU : Fld := ⟨.TAPU_LOCK_CFG, 20, 4, .rw, .l, 4⟩
/-! TAPU_PPS_CFG: R145. -/
def Fld.TAPU_PPS_CFG_IN_EN : Fld := ⟨.TAPU_PPS_CFG, 0, 1, .rw, .l, 0⟩
def Fld.TAPU_PPS_CFG_IN_FALL : Fld := ⟨.TAPU_PPS_CFG, 1, 1, .rw, .l, 0⟩
def Fld.TAPU_PPS_CFG_OUT_EN : Fld := ⟨.TAPU_PPS_CFG, 2, 1, .rw, .l, 0⟩
def Fld.TAPU_PPS_CFG_OUT_WIDTH : Fld := ⟨.TAPU_PPS_CFG, 8, 8, .rw, .l, 0x64⟩
/-! TAPU_PPS_OUT_OFS: R145. -/
def Fld.TAPU_PPS_OUT_OFS_OFS : Fld := ⟨.TAPU_PPS_OUT_OFS, 0, 32, .rw, .c, 0⟩
/-! TAPU_PPS_STAMP_LO: R145. -/
def Fld.TAPU_PPS_STAMP_LO_STAMP : Fld := ⟨.TAPU_PPS_STAMP_LO, 0, 32, .ro, .l, 0⟩
/-! TAPU_PPS_STAMP_HI: R145. -/
def Fld.TAPU_PPS_STAMP_HI_STAMP : Fld := ⟨.TAPU_PPS_STAMP_HI, 0, 32, .ro, .l, 0⟩
/-! TAPU_PPS_STAT: R145. -/
def Fld.TAPU_PPS_STAT_FRAC : Fld := ⟨.TAPU_PPS_STAT, 0, 6, .ro, .l, 0⟩
def Fld.TAPU_PPS_STAT_MISSED : Fld := ⟨.TAPU_PPS_STAT, 8, 8, .rc, .l, 0⟩
/-! TAPU_OFFSET: R145. -/
def Fld.TAPU_OFFSET_OFFSET : Fld := ⟨.TAPU_OFFSET, 0, 32, .ro, .l, 0⟩
/-! TAPU_EVENT: R145. -/
def Fld.TAPU_EVENT_QUALITY_CHG : Fld := ⟨.TAPU_EVENT, 0, 1, .w1c, .l, 0⟩
def Fld.TAPU_EVENT_PPS_MISSED : Fld := ⟨.TAPU_EVENT, 1, 1, .w1c, .l, 0⟩
def Fld.TAPU_EVENT_STEP_DONE : Fld := ⟨.TAPU_EVENT, 2, 1, .w1c, .l, 0⟩
def Fld.TAPU_EVENT_BOUND_EXCEEDED : Fld := ⟨.TAPU_EVENT, 3, 1, .w1c, .l, 0⟩
def Fld.TAPU_EVENT_DELAY_STALE : Fld := ⟨.TAPU_EVENT, 4, 1, .w1c, .l, 0⟩
def Fld.TAPU_EVENT_RECONSTRUCTED : Fld := ⟨.TAPU_EVENT, 5, 1, .w1c, .l, 0⟩
/-! PLN_CFG: R179. -/
def Fld.PLN_CFG_POOL_R : Fld := ⟨.PLN_CFG, 0, 5, .rw, .s, 8⟩
/-! PLN_STATUS: R179. -/
def Fld.PLN_STATUS_ACTIVE_BANK : Fld := ⟨.PLN_STATUS, 0, 1, .ro, .l, 0⟩
def Fld.PLN_STATUS_SHADOW_READY : Fld := ⟨.PLN_STATUS, 1, 1, .ro, .l, 0⟩
def Fld.PLN_STATUS_CHANGE_PENDING : Fld := ⟨.PLN_STATUS, 2, 1, .ro, .l, 0⟩
def Fld.PLN_STATUS_CYCLE_POS : Fld := ⟨.PLN_STATUS, 8, 6, .ro, .l, 0⟩
/-! PLN_SWAP_CNT: R179. -/
def Fld.PLN_SWAP_CNT_COUNT : Fld := ⟨.PLN_SWAP_CNT, 0, 32, .ro, .l, 0⟩
/-! PLN_NEXT_SWAP: R179. -/
def Fld.PLN_NEXT_SWAP_COURSE : Fld := ⟨.PLN_NEXT_SWAP, 0, 32, .ro, .l, 0⟩
/-! PLN_EVENT: R179. -/
def Fld.PLN_EVENT_SWAP_DONE : Fld := ⟨.PLN_EVENT, 0, 1, .w1c, .l, 0⟩
def Fld.PLN_EVENT_SWAP_DEFERRED : Fld := ⟨.PLN_EVENT, 1, 1, .w1c, .l, 0⟩
def Fld.PLN_EVENT_RETRY_DENIED : Fld := ⟨.PLN_EVENT, 2, 1, .w1c, .l, 0⟩
def Fld.PLN_EVENT_NOT_ACCEPTED : Fld := ⟨.PLN_EVENT, 3, 1, .w1c, .l, 0⟩
def Fld.PLN_EVENT_UNDERRUN : Fld := ⟨.PLN_EVENT, 4, 1, .w1c, .l, 0⟩
def Fld.PLN_EVENT_HOST_STALL : Fld := ⟨.PLN_EVENT, 5, 1, .w1c, .l, 0⟩
/-! PLN_DENIED_CNT: R179. -/
def Fld.PLN_DENIED_CNT_COUNT : Fld := ⟨.PLN_DENIED_CNT, 0, 32, .rc, .l, 0⟩
/-! PLN_NOTACC_CNT: R179. -/
def Fld.PLN_NOTACC_CNT_COUNT : Fld := ⟨.PLN_NOTACC_CNT, 0, 32, .rc, .l, 0⟩
/-! PLN_UNDERRUN_CNT: R179. -/
def Fld.PLN_UNDERRUN_CNT_COUNT : Fld := ⟨.PLN_UNDERRUN_CNT, 0, 32, .rc, .l, 0⟩
/-! PLN_STALL_CNT: R179. -/
def Fld.PLN_STALL_CNT_COUNT : Fld := ⟨.PLN_STALL_CNT, 0, 32, .rc, .l, 0⟩
/-! PLN_TRK_LOAD: R179. -/
def Fld.PLN_TRK_LOAD_MAX_DOWN : Fld := ⟨.PLN_TRK_LOAD, 0, 16, .ro, .l, 0⟩
def Fld.PLN_TRK_LOAD_MAX_UP : Fld := ⟨.PLN_TRK_LOAD, 16, 16, .ro, .l, 0⟩
/-! PLN_TRK_CAP: R179. -/
def Fld.PLN_TRK_CAP_CAP : Fld := ⟨.PLN_TRK_CAP, 0, 16, .ro, .l, 0x3c0⟩
def Fld.PLN_TRK_CAP_FLOOR : Fld := ⟨.PLN_TRK_CAP, 16, 16, .ro, .l, 0x40⟩
/-! TAPU_PACE_CFG: R200. -/
def Fld.TAPU_PACE_CFG_EN : Fld := ⟨.TAPU_PACE_CFG, 0, 1, .rw, .c, 0⟩
def Fld.TAPU_PACE_CFG_KIND : Fld := ⟨.TAPU_PACE_CFG, 1, 2, .rw, .s, 0⟩
def Fld.TAPU_PACE_CFG_SRC : Fld := ⟨.TAPU_PACE_CFG, 3, 5, .rw, .s, 0⟩
def Fld.TAPU_PACE_CFG_REVERSE_DIR : Fld := ⟨.TAPU_PACE_CFG, 8, 1, .rw, .s, 0⟩
def Fld.TAPU_PACE_CFG_INDEX_EN : Fld := ⟨.TAPU_PACE_CFG, 9, 1, .rw, .s, 0⟩
def Fld.TAPU_PACE_CFG_WIN : Fld := ⟨.TAPU_PACE_CFG, 10, 4, .rw, .c, 3⟩
def Fld.TAPU_PACE_CFG_STOP_CYC : Fld := ⟨.TAPU_PACE_CFG, 14, 8, .rw, .c, 8⟩
def Fld.TAPU_PACE_CFG_FILT : Fld := ⟨.TAPU_PACE_CFG, 22, 4, .rw, .s, 2⟩
/-! TAPU_PACE_CPR: R200. -/
def Fld.TAPU_PACE_CPR_CPR : Fld := ⟨.TAPU_PACE_CPR, 0, 24, .rw, .s, 0x1000⟩
/-! TAPU_PACE_IDX_OFS: R200. -/
def Fld.TAPU_PACE_IDX_OFS_OFS : Fld := ⟨.TAPU_PACE_IDX_OFS, 0, 24, .rw, .s, 0⟩
/-! TAPU_PACE_AMAX: R200. -/
def Fld.TAPU_PACE_AMAX_AMAX : Fld := ⟨.TAPU_PACE_AMAX, 0, 32, .rw, .c, 0xf4240⟩
/-! TAPU_PACE_RMAX: R200. -/
def Fld.TAPU_PACE_RMAX_RMAX : Fld := ⟨.TAPU_PACE_RMAX, 0, 32, .rw, .l, 0⟩
/-! TAPU_PACE_HMAX: R200. -/
def Fld.TAPU_PACE_HMAX_HMAX : Fld := ⟨.TAPU_PACE_HMAX, 0, 20, .rw, .l, 0x2710⟩
/-! TAPU_PACE_POS_LO: R200. -/
def Fld.TAPU_PACE_POS_LO_POS : Fld := ⟨.TAPU_PACE_POS_LO, 0, 32, .ro, .l, 0⟩
/-! TAPU_PACE_POS_HI: R200. -/
def Fld.TAPU_PACE_POS_HI_POS : Fld := ⟨.TAPU_PACE_POS_HI, 0, 16, .ro, .l, 0⟩
/-! TAPU_PACE_STAMP_LO: R200. -/
def Fld.TAPU_PACE_STAMP_LO_STAMP : Fld := ⟨.TAPU_PACE_STAMP_LO, 0, 32, .ro, .l, 0⟩
/-! TAPU_PACE_STAMP_HI: R200. -/
def Fld.TAPU_PACE_STAMP_HI_STAMP : Fld := ⟨.TAPU_PACE_STAMP_HI, 0, 32, .ro, .l, 0⟩
/-! TAPU_PACE_RATE: R200. -/
def Fld.TAPU_PACE_RATE_RATE : Fld := ⟨.TAPU_PACE_RATE, 0, 32, .ro, .l, 0⟩
/-! TAPU_PACE_ACCEL: R200. -/
def Fld.TAPU_PACE_ACCEL_ACCEL : Fld := ⟨.TAPU_PACE_ACCEL, 0, 32, .ro, .l, 0⟩
/-! TAPU_PACE_ERR: R200. -/
def Fld.TAPU_PACE_ERR_RATE_ERR : Fld := ⟨.TAPU_PACE_ERR, 0, 16, .ro, .l, 0⟩
def Fld.TAPU_PACE_ERR_POS_ERR : Fld := ⟨.TAPU_PACE_ERR, 16, 16, .ro, .l, 0⟩
/-! TAPU_PACE_STATUS: R200. -/
def Fld.TAPU_PACE_STATUS_STATE : Fld := ⟨.TAPU_PACE_STATUS, 0, 2, .ro, .l, 0⟩
def Fld.TAPU_PACE_STATUS_STOPPED : Fld := ⟨.TAPU_PACE_STATUS, 2, 1, .ro, .l, 0⟩
def Fld.TAPU_PACE_STATUS_REVERSING : Fld := ⟨.TAPU_PACE_STATUS, 3, 1, .ro, .l, 0⟩
def Fld.TAPU_PACE_STATUS_INDEX_SEEN : Fld := ⟨.TAPU_PACE_STATUS, 4, 1, .ro, .l, 0⟩
def Fld.TAPU_PACE_STATUS_EDGES : Fld := ⟨.TAPU_PACE_STATUS, 8, 8, .ro, .l, 0⟩
/-! TAPU_PACE_EVENT: R200. -/
def Fld.TAPU_PACE_EVENT_STARTED : Fld := ⟨.TAPU_PACE_EVENT, 0, 1, .w1c, .l, 0⟩
def Fld.TAPU_PACE_EVENT_STOPPED : Fld := ⟨.TAPU_PACE_EVENT, 1, 1, .w1c, .l, 0⟩
def Fld.TAPU_PACE_EVENT_REVERSED : Fld := ⟨.TAPU_PACE_EVENT, 2, 1, .w1c, .l, 0⟩
def Fld.TAPU_PACE_EVENT_OVERRATE : Fld := ⟨.TAPU_PACE_EVENT, 3, 1, .w1c, .l, 0⟩
def Fld.TAPU_PACE_EVENT_ACCEL_EXCEEDED : Fld := ⟨.TAPU_PACE_EVENT, 4, 1, .w1c, .l, 0⟩
def Fld.TAPU_PACE_EVENT_INDEX_ERR : Fld := ⟨.TAPU_PACE_EVENT, 5, 1, .w1c, .l, 0⟩
def Fld.TAPU_PACE_EVENT_QUAD_ERR : Fld := ⟨.TAPU_PACE_EVENT, 6, 1, .w1c, .l, 0⟩
def Fld.TAPU_PACE_EVENT_SOURCE_LOST : Fld := ⟨.TAPU_PACE_EVENT, 7, 1, .w1c, .l, 0⟩
/-! TAPU_ENC_CNT: R201. -/
def Fld.TAPU_ENC_CNT_COUNT : Fld := ⟨.TAPU_ENC_CNT, 0, 32, .ro, .l, 0⟩
/-! TAPU_ENC_ERR: R201. -/
def Fld.TAPU_ENC_ERR_QUAD_ERRS : Fld := ⟨.TAPU_ENC_ERR, 0, 16, .rc, .l, 0⟩
def Fld.TAPU_ENC_ERR_INDEX_ERRS : Fld := ⟨.TAPU_ENC_ERR, 16, 16, .rc, .l, 0⟩
/-! INST_FLOW_DB: R226. -/
def Fld.INST_FLOW_DB_FLOW : Fld := ⟨.INST_FLOW_DB, 0, 13, .wo, .l, 0⟩
def Fld.INST_FLOW_DB_PROD : Fld := ⟨.INST_FLOW_DB, 13, 16, .wo, .l, 0⟩
/-! INST_DB_ERR: R226. -/
def Fld.INST_DB_ERR_LAST_FLOW : Fld := ⟨.INST_DB_ERR, 0, 13, .ro, .l, 0⟩
def Fld.INST_DB_ERR_LAST_REASON : Fld := ⟨.INST_DB_ERR, 13, 2, .ro, .l, 0⟩
def Fld.INST_DB_ERR_COUNT : Fld := ⟨.INST_DB_ERR, 16, 16, .rc, .l, 0⟩
/-! INST_CQ_BASE_LO: R226. -/
def Fld.INST_CQ_BASE_LO_BASE : Fld := ⟨.INST_CQ_BASE_LO, 6, 26, .rw, .s, 0⟩
/-! INST_CQ_BASE_HI: R226. -/
def Fld.INST_CQ_BASE_HI_BASE : Fld := ⟨.INST_CQ_BASE_HI, 0, 32, .rw, .s, 0⟩
/-! INST_CQ_CFG: R226. -/
def Fld.INST_CQ_CFG_ENABLE : Fld := ⟨.INST_CQ_CFG, 0, 1, .rw, .l, 0⟩
def Fld.INST_CQ_CFG_SIZE : Fld := ⟨.INST_CQ_CFG, 1, 5, .rw, .s, 4⟩
def Fld.INST_CQ_CFG_EVERY : Fld := ⟨.INST_CQ_CFG, 6, 1, .rw, .l, 0⟩
def Fld.INST_CQ_CFG_ERR_SIG : Fld := ⟨.INST_CQ_CFG, 7, 1, .rw, .l, 0⟩
def Fld.INST_CQ_CFG_SRC : Fld := ⟨.INST_CQ_CFG, 16, 11, .rw, .s, 0⟩
/-! INST_CQ_CONS: R226. -/
def Fld.INST_CQ_CONS_CONS : Fld := ⟨.INST_CQ_CONS, 0, 16, .rw, .l, 0⟩
/-! INST_CQ_STATUS: R226. -/
def Fld.INST_CQ_STATUS_WRITE : Fld := ⟨.INST_CQ_STATUS, 0, 16, .ro, .l, 0⟩
def Fld.INST_CQ_STATUS_PHASE : Fld := ⟨.INST_CQ_STATUS, 16, 1, .ro, .l, 1⟩
def Fld.INST_CQ_STATUS_FULL : Fld := ⟨.INST_CQ_STATUS, 17, 1, .ro, .l, 0⟩
def Fld.INST_CQ_STATUS_STALLING : Fld := ⟨.INST_CQ_STATUS, 18, 1, .ro, .l, 0⟩
def Fld.INST_CQ_STATUS_CONS_ERR : Fld := ⟨.INST_CQ_STATUS, 19, 1, .w1c, .l, 0⟩
/-! DSP_CFG: R250. -/
def Fld.DSP_CFG_AGE : Fld := ⟨.DSP_CFG, 0, 8, .rw, .s, 0x10⟩
def Fld.DSP_CFG_ORD_LIMIT : Fld := ⟨.DSP_CFG, 8, 11, .rw, .s, 0x100⟩
/-! DSP_STATUS: R250. -/
def Fld.DSP_STATUS_READY : Fld := ⟨.DSP_STATUS, 0, 14, .ro, .l, 0⟩
def Fld.DSP_STATUS_DELAYED : Fld := ⟨.DSP_STATUS, 14, 14, .ro, .l, 0⟩
/-! DSP_DECISIONS_LO: R250. -/
def Fld.DSP_DECISIONS_LO_COUNT : Fld := ⟨.DSP_DECISIONS_LO, 0, 32, .ro, .l, 0⟩
/-! DSP_DECISIONS_HI: R250. -/
def Fld.DSP_DECISIONS_HI_COUNT : Fld := ⟨.DSP_DECISIONS_HI, 0, 16, .ro, .l, 0⟩
/-! DSP_LOST_READY_CNT: R250. -/
def Fld.DSP_LOST_READY_CNT_COUNT : Fld := ⟨.DSP_LOST_READY_CNT, 0, 32, .rc, .l, 0⟩
/-! DSP_ORD_USE: R250. -/
def Fld.DSP_ORD_USE_IN_USE : Fld := ⟨.DSP_ORD_USE, 0, 13, .ro, .l, 0⟩
def Fld.DSP_ORD_USE_RESERVED : Fld := ⟨.DSP_ORD_USE, 16, 13, .ro, .l, 0⟩
/-! DSP_ORD_HWM: R250. -/
def Fld.DSP_ORD_HWM_HWM : Fld := ⟨.DSP_ORD_HWM, 0, 13, .rc, .l, 0⟩
/-! DSP_DELAY_STAT: R250. -/
def Fld.DSP_DELAY_STAT_INS_MAX : Fld := ⟨.DSP_DELAY_STAT, 0, 6, .rc, .l, 0⟩
def Fld.DSP_DELAY_STAT_CLAMPS : Fld := ⟨.DSP_DELAY_STAT, 16, 16, .rc, .l, 0⟩
/-! DSP_TASK_SEL: R250. -/
def Fld.DSP_TASK_SEL_TASK : Fld := ⟨.DSP_TASK_SEL, 0, 14, .rw, .l, 0⟩
/-! DSP_TASK_VIEW: R250. -/
def Fld.DSP_TASK_VIEW_FLAGS : Fld := ⟨.DSP_TASK_VIEW, 0, 8, .ro, .l, 0⟩
def Fld.DSP_TASK_VIEW_MASK : Fld := ⟨.DSP_TASK_VIEW, 8, 8, .ro, .l, 0⟩
def Fld.DSP_TASK_VIEW_STATE : Fld := ⟨.DSP_TASK_VIEW, 16, 2, .ro, .l, 0⟩
def Fld.DSP_TASK_VIEW_CANCEL_PENDING : Fld := ⟨.DSP_TASK_VIEW, 18, 1, .ro, .l, 0⟩
def Fld.DSP_TASK_VIEW_DELAY_ARMED : Fld := ⟨.DSP_TASK_VIEW, 19, 1, .ro, .l, 0⟩
def Fld.DSP_TASK_VIEW_LIST : Fld := ⟨.DSP_TASK_VIEW, 20, 9, .ro, .l, 0x1ff⟩
def Fld.DSP_TASK_VIEW_PRIORITY : Fld := ⟨.DSP_TASK_VIEW, 29, 3, .ro, .l, 0⟩
/-! DSP_TASK_DEADLINE: R250. -/
def Fld.DSP_TASK_DEADLINE_TICK : Fld := ⟨.DSP_TASK_DEADLINE, 0, 32, .ro, .l, 0⟩
/-! DSP_EVENT: R250. -/
def Fld.DSP_EVENT_LOST_READY : Fld := ⟨.DSP_EVENT, 0, 1, .w1c, .l, 0⟩
def Fld.DSP_EVENT_ORD_LIMIT_HIT : Fld := ⟨.DSP_EVENT, 1, 1, .w1c, .l, 0⟩
def Fld.DSP_EVENT_HORIZON_CLAMP : Fld := ⟨.DSP_EVENT, 2, 1, .w1c, .l, 0⟩
def Fld.DSP_EVENT_AGED : Fld := ⟨.DSP_EVENT, 3, 1, .w1c, .l, 0⟩
/-! DSP_TRK_READY: R250. -/
def Fld.DSP_TRK_READY_READY : Fld := ⟨.DSP_TRK_READY, 0, 16, .ro, .l, 0⟩
def Fld.DSP_TRK_READY_UNRESOLVED : Fld := ⟨.DSP_TRK_READY, 16, 16, .ro, .l, 0⟩
/-! TRC_CTRL: R251. -/
def Fld.TRC_CTRL_EN : Fld := ⟨.TRC_CTRL, 0, 1, .rw, .l, 0⟩
def Fld.TRC_CTRL_DEST : Fld := ⟨.TRC_CTRL, 1, 1, .rw, .s, 0⟩
def Fld.TRC_CTRL_STOP_FULL : Fld := ⟨.TRC_CTRL, 2, 1, .rw, .s, 1⟩
def Fld.TRC_CTRL_EVENTS : Fld := ⟨.TRC_CTRL, 3, 1, .rw, .l, 0⟩
/-! TRC_FILT_INST: R251. -/
def Fld.TRC_FILT_INST_INST : Fld := ⟨.TRC_FILT_INST, 0, 9, .rw, .l, 0⟩
def Fld.TRC_FILT_INST_ALL : Fld := ⟨.TRC_FILT_INST, 9, 1, .rw, .l, 1⟩
/-! TRC_FILT_TRUNK: R251. -/
def Fld.TRC_FILT_TRUNK_TRUNKS : Fld := ⟨.TRC_FILT_TRUNK, 0, 16, .rw, .l, 0xffff⟩
def Fld.TRC_FILT_TRUNK_NO_TRUNK : Fld := ⟨.TRC_FILT_TRUNK, 16, 1, .rw, .l, 1⟩
/-! TRC_FILT_CLASS: R251. -/
def Fld.TRC_FILT_CLASS_SCHED : Fld := ⟨.TRC_FILT_CLASS, 0, 1, .rw, .l, 1⟩
def Fld.TRC_FILT_CLASS_CONTROL : Fld := ⟨.TRC_FILT_CLASS, 1, 1, .rw, .l, 1⟩
def Fld.TRC_FILT_CLASS_BULK_OUT : Fld := ⟨.TRC_FILT_CLASS, 2, 1, .rw, .l, 1⟩
def Fld.TRC_FILT_CLASS_BULK_IN : Fld := ⟨.TRC_FILT_CLASS, 3, 1, .rw, .l, 1⟩
def Fld.TRC_FILT_CLASS_FIRMWARE : Fld := ⟨.TRC_FILT_CLASS, 4, 1, .rw, .l, 1⟩
/-! TRC_RING_BASE_LO: R251. -/
def Fld.TRC_RING_BASE_LO_BASE : Fld := ⟨.TRC_RING_BASE_LO, 6, 26, .rw, .s, 0⟩
/-! TRC_RING_BASE_HI: R251. -/
def Fld.TRC_RING_BASE_HI_BASE : Fld := ⟨.TRC_RING_BASE_HI, 0, 32, .rw, .s, 0⟩
/-! TRC_RING_CFG: R251. -/
def Fld.TRC_RING_CFG_SIZE : Fld := ⟨.TRC_RING_CFG, 0, 5, .rw, .s, 0xa⟩
/-! TRC_RING_PROD: R251. -/
def Fld.TRC_RING_PROD_PROD : Fld := ⟨.TRC_RING_PROD, 0, 32, .ro, .l, 0⟩
/-! TRC_RING_CONS: R251. -/
def Fld.TRC_RING_CONS_CONS : Fld := ⟨.TRC_RING_CONS, 0, 32, .rw, .l, 0⟩
/-! TRC_DROP: R251. -/
def Fld.TRC_DROP_COUNT : Fld := ⟨.TRC_DROP, 0, 32, .rc, .l, 0⟩
/-! TRC_BUF_STAT: R251. -/
def Fld.TRC_BUF_STAT_COUNT : Fld := ⟨.TRC_BUF_STAT, 0, 15, .ro, .l, 0⟩
def Fld.TRC_BUF_STAT_FULL : Fld := ⟨.TRC_BUF_STAT, 15, 1, .ro, .l, 0⟩
/-! TRC_BUF_LO: R251. -/
def Fld.TRC_BUF_LO_W0_LO : Fld := ⟨.TRC_BUF_LO, 0, 32, .rc, .l, 0⟩
/-! TRC_BUF_MID: R251. -/
def Fld.TRC_BUF_MID_W0_HI : Fld := ⟨.TRC_BUF_MID, 0, 4, .ro, .l, 0⟩
def Fld.TRC_BUF_MID_W1_LO : Fld := ⟨.TRC_BUF_MID, 4, 28, .ro, .l, 0⟩
/-! TRC_BUF_HI: R251. -/
def Fld.TRC_BUF_HI_W1_HI : Fld := ⟨.TRC_BUF_HI, 0, 8, .ro, .l, 0⟩
def Fld.TRC_BUF_HI_EMPTY : Fld := ⟨.TRC_BUF_HI, 31, 1, .ro, .l, 1⟩
/-! ENG_ESC: R277. -/
def Fld.ENG_ESC_F : Fld := ⟨.ENG_ESC, 0, 7, .rw, .c, 3⟩
def Fld.ENG_ESC_W : Fld := ⟨.ENG_ESC, 8, 7, .rw, .c, 0x40⟩
def Fld.ENG_ESC_K : Fld := ⟨.ENG_ESC, 16, 8, .rw, .c, 4⟩
/-! ENG_STOP_CFG: R277. -/
def Fld.ENG_STOP_CFG_PIN_EN : Fld := ⟨.ENG_STOP_CFG, 0, 1, .rw, .s, 1⟩
def Fld.ENG_STOP_CFG_GANG_EN : Fld := ⟨.ENG_STOP_CFG, 1, 1, .rw, .s, 1⟩
/-! ENG_STOP_CMD: R277. -/
def Fld.ENG_STOP_CMD_TRIGGER : Fld := ⟨.ENG_STOP_CMD, 0, 1, .wo, .l, 0⟩
/-! ENG_STOP_STATUS: R277. -/
def Fld.ENG_STOP_STATUS_STOPPED : Fld := ⟨.ENG_STOP_STATUS, 0, 1, .ro, .l, 0⟩
def Fld.ENG_STOP_STATUS_REASON : Fld := ⟨.ENG_STOP_STATUS, 1, 4, .ro, .l, 0⟩
def Fld.ENG_STOP_STATUS_PIN_LOW : Fld := ⟨.ENG_STOP_STATUS, 5, 1, .ro, .l, 0⟩
def Fld.ENG_STOP_STATUS_ACTIVE : Fld := ⟨.ENG_STOP_STATUS, 6, 1, .ro, .l, 0⟩
/-! ENG_STOP_TIME_LO: R277. -/
def Fld.ENG_STOP_TIME_LO_TIME : Fld := ⟨.ENG_STOP_TIME_LO, 0, 32, .ro, .l, 0⟩
/-! ENG_STOP_TIME_HI: R277. -/
def Fld.ENG_STOP_TIME_HI_TIME : Fld := ⟨.ENG_STOP_TIME_HI, 0, 32, .ro, .l, 0⟩
/-! ENG_STOP_CNT: R277. -/
def Fld.ENG_STOP_CNT_COUNT : Fld := ⟨.ENG_STOP_CNT, 0, 32, .rc, .l, 0⟩
/-! ENG_EVENT: R277. -/
def Fld.ENG_EVENT_STOP : Fld := ⟨.ENG_EVENT, 0, 1, .w1c, .l, 0⟩
def Fld.ENG_EVENT_FLOW_ESCALATED : Fld := ⟨.ENG_EVENT, 1, 1, .w1c, .l, 0⟩
def Fld.ENG_EVENT_LINK_SUSPECT : Fld := ⟨.ENG_EVENT, 2, 1, .w1c, .l, 0⟩
def Fld.ENG_EVENT_TOGGLE_UNKNOWN : Fld := ⟨.ENG_EVENT, 3, 1, .w1c, .l, 0⟩
def Fld.ENG_EVENT_BULK_LASTING : Fld := ⟨.ENG_EVENT, 4, 1, .w1c, .l, 0⟩
/-! ENG_SUSPECT: R277. -/
def Fld.ENG_SUSPECT_TRUNK : Fld := ⟨.ENG_SUSPECT, 0, 4, .ro, .l, 0⟩
def Fld.ENG_SUSPECT_ROUTE : Fld := ⟨.ENG_SUSPECT, 4, 16, .ro, .l, 0⟩
def Fld.ENG_SUSPECT_DEPTH : Fld := ⟨.ENG_SUSPECT, 20, 3, .ro, .l, 0⟩
def Fld.ENG_SUSPECT_VALID : Fld := ⟨.ENG_SUSPECT, 23, 1, .ro, .l, 0⟩
def Fld.ENG_SUSPECT_COUNT : Fld := ⟨.ENG_SUSPECT, 24, 8, .rc, .l, 0⟩
/-! ENG_TRK_FAULT: R277. -/
def Fld.ENG_TRK_FAULT_TRANSIENT : Fld := ⟨.ENG_TRK_FAULT, 0, 16, .rc, .l, 0⟩
def Fld.ENG_TRK_FAULT_LASTING : Fld := ⟨.ENG_TRK_FAULT, 16, 16, .rc, .l, 0⟩
/-! ENG_STATUS: R277. -/
def Fld.ENG_STATUS_SCHED_HAND : Fld := ⟨.ENG_STATUS, 0, 1, .ro, .l, 0⟩
def Fld.ENG_STATUS_UNSCHED_HAND : Fld := ⟨.ENG_STATUS, 1, 1, .ro, .l, 0⟩
def Fld.ENG_STATUS_AWAKE : Fld := ⟨.ENG_STATUS, 2, 1, .ro, .l, 0⟩
def Fld.ENG_STATUS_EXPECT : Fld := ⟨.ENG_STATUS, 8, 7, .ro, .l, 0⟩
/-! ENG_TXQ: R277. -/
def Fld.ENG_TXQ_SCHED : Fld := ⟨.ENG_TXQ, 0, 6, .ro, .l, 0⟩
def Fld.ENG_TXQ_UNSCHED : Fld := ⟨.ENG_TXQ, 8, 5, .ro, .l, 0⟩
def Fld.ENG_TXQ_HWM : Fld := ⟨.ENG_TXQ, 16, 8, .rc, .l, 0⟩
/-! INST_MB_CMD_BASE_LO: R279. -/
def Fld.INST_MB_CMD_BASE_LO_BASE : Fld := ⟨.INST_MB_CMD_BASE_LO, 6, 26, .rw, .s, 0⟩
/-! INST_MB_CMD_BASE_HI: R279. -/
def Fld.INST_MB_CMD_BASE_HI_BASE : Fld := ⟨.INST_MB_CMD_BASE_HI, 0, 32, .rw, .s, 0⟩
/-! INST_MB_CPL_BASE_LO: R279. -/
def Fld.INST_MB_CPL_BASE_LO_BASE : Fld := ⟨.INST_MB_CPL_BASE_LO, 6, 26, .rw, .s, 0⟩
/-! INST_MB_CPL_BASE_HI: R279. -/
def Fld.INST_MB_CPL_BASE_HI_BASE : Fld := ⟨.INST_MB_CPL_BASE_HI, 0, 32, .rw, .s, 0⟩
/-! INST_MB_CFG: R279. -/
def Fld.INST_MB_CFG_ENABLE : Fld := ⟨.INST_MB_CFG, 0, 1, .rw, .l, 0⟩
def Fld.INST_MB_CFG_CMD_SIZE : Fld := ⟨.INST_MB_CFG, 1, 4, .rw, .s, 2⟩
def Fld.INST_MB_CFG_CPL_SIZE : Fld := ⟨.INST_MB_CFG, 5, 4, .rw, .s, 2⟩
def Fld.INST_MB_CFG_EVERY : Fld := ⟨.INST_MB_CFG, 9, 1, .rw, .l, 0⟩
def Fld.INST_MB_CFG_SRC : Fld := ⟨.INST_MB_CFG, 16, 11, .rw, .s, 0⟩
/-! INST_MB_DB: R279. -/
def Fld.INST_MB_DB_PROD : Fld := ⟨.INST_MB_DB, 0, 16, .wo, .l, 0⟩
/-! INST_MB_CPL_CONS: R279. -/
def Fld.INST_MB_CPL_CONS_CONS : Fld := ⟨.INST_MB_CPL_CONS, 0, 16, .rw, .l, 0⟩
/-! INST_MB_STATUS: R279. -/
def Fld.INST_MB_STATUS_FETCH : Fld := ⟨.INST_MB_STATUS, 0, 16, .ro, .l, 0⟩
def Fld.INST_MB_STATUS_PHASE : Fld := ⟨.INST_MB_STATUS, 16, 1, .ro, .l, 1⟩
def Fld.INST_MB_STATUS_EXEC : Fld := ⟨.INST_MB_STATUS, 17, 4, .ro, .l, 0⟩
def Fld.INST_MB_STATUS_FULL : Fld := ⟨.INST_MB_STATUS, 21, 1, .ro, .l, 0⟩
def Fld.INST_MB_STATUS_EVENT_LOST : Fld := ⟨.INST_MB_STATUS, 22, 1, .w1c, .l, 0⟩
def Fld.INST_MB_STATUS_DB_ERR : Fld := ⟨.INST_MB_STATUS, 23, 1, .w1c, .l, 0⟩
def Fld.INST_MB_STATUS_CONS_ERR : Fld := ⟨.INST_MB_STATUS, 24, 1, .w1c, .l, 0⟩
def Fld.INST_MB_STATUS_ABORTED : Fld := ⟨.INST_MB_STATUS, 25, 1, .w1c, .l, 0⟩
def Fld.INST_MB_STATUS_FETCH_ERR : Fld := ⟨.INST_MB_STATUS, 26, 1, .w1c, .l, 0⟩
/-! INST_MB_CPL_WRITE: R279. -/
def Fld.INST_MB_CPL_WRITE_WRITE : Fld := ⟨.INST_MB_CPL_WRITE, 0, 16, .ro, .l, 0⟩
/-! INST_MB_EVENT_LOST: R279. -/
def Fld.INST_MB_EVENT_LOST_COUNT : Fld := ⟨.INST_MB_EVENT_LOST, 0, 32, .rc, .l, 0⟩
/-! INST_INFO: R343. -/
def Fld.INST_INFO_INSTANCE : Fld := ⟨.INST_INFO, 0, 9, .ro, .l, 0⟩
def Fld.INST_INFO_STATE : Fld := ⟨.INST_INFO, 9, 2, .ro, .l, 0⟩
def Fld.INST_INFO_QUIESCENT : Fld := ⟨.INST_INFO, 11, 1, .ro, .l, 0⟩
/-! INST_EPOCH: R343. -/
def Fld.INST_EPOCH_EPOCH : Fld := ⟨.INST_EPOCH, 0, 32, .ro, .l, 0⟩
/-! INST_STALL_CFG: R343. -/
def Fld.INST_STALL_CFG_EN : Fld := ⟨.INST_STALL_CFG, 0, 1, .rw, .l, 1⟩
def Fld.INST_STALL_CFG_SRC : Fld := ⟨.INST_STALL_CFG, 16, 11, .rw, .l, 0⟩
/-! INST_STALL_STATUS: R343. -/
def Fld.INST_STALL_STATUS_OPEN : Fld := ⟨.INST_STALL_STATUS, 0, 1, .ro, .l, 0⟩
def Fld.INST_STALL_STATUS_CREDIT : Fld := ⟨.INST_STALL_STATUS, 1, 1, .ro, .l, 0⟩
def Fld.INST_STALL_STATUS_RING : Fld := ⟨.INST_STALL_STATUS, 2, 1, .ro, .l, 0⟩
def Fld.INST_STALL_STATUS_LINK : Fld := ⟨.INST_STALL_STATUS, 3, 1, .ro, .l, 0⟩
/-! INST_STALL_CNT: R343. -/
def Fld.INST_STALL_CNT_COUNT : Fld := ⟨.INST_STALL_CNT, 0, 32, .ro, .l, 0⟩
/-! INST_STALL_OPEN_LO: R343. -/
def Fld.INST_STALL_OPEN_LO_TIME : Fld := ⟨.INST_STALL_OPEN_LO, 0, 32, .ro, .l, 0⟩
/-! INST_STALL_OPEN_HI: R343. -/
def Fld.INST_STALL_OPEN_HI_TIME : Fld := ⟨.INST_STALL_OPEN_HI, 0, 32, .ro, .l, 0⟩
/-! INST_STALL_CLOSE_LO: R343. -/
def Fld.INST_STALL_CLOSE_LO_TIME : Fld := ⟨.INST_STALL_CLOSE_LO, 0, 32, .ro, .l, 0⟩
/-! INST_STALL_CLOSE_HI: R343. -/
def Fld.INST_STALL_CLOSE_HI_TIME : Fld := ⟨.INST_STALL_CLOSE_HI, 0, 32, .ro, .l, 0⟩
/-! INST_REVOKE_STAT: R343. -/
def Fld.INST_REVOKE_STAT_FLOWS : Fld := ⟨.INST_REVOKE_STAT, 0, 8, .ro, .l, 0⟩
def Fld.INST_REVOKE_STAT_DESCS : Fld := ⟨.INST_REVOKE_STAT, 16, 16, .ro, .l, 0⟩
/-! INST_FREEZE_COURSE: R343. -/
def Fld.INST_FREEZE_COURSE_COURSE : Fld := ⟨.INST_FREEZE_COURSE, 0, 32, .ro, .l, 0⟩
/-! INST_REVOKE_LOG: R343. -/
def Fld.INST_REVOKE_LOG_FLOW : Fld := ⟨.INST_REVOKE_LOG, 0, 13, .ro, .l, 0⟩
def Fld.INST_REVOKE_LOG_VALID : Fld := ⟨.INST_REVOKE_LOG, 13, 1, .ro, .l, 0⟩
/-! INST_MGR_CFG: R344. -/
def Fld.INST_MGR_CFG_PASID : Fld := ⟨.INST_MGR_CFG, 0, 20, .rw, .s, 0⟩
def Fld.INST_MGR_CFG_PASID_EN : Fld := ⟨.INST_MGR_CFG, 20, 1, .rw, .s, 0⟩
/-! INST_POOL_CTX: R344. -/
def Fld.INST_POOL_CTX_FREE : Fld := ⟨.INST_POOL_CTX, 0, 14, .ro, .l, 0x1f00⟩
/-! INST_POOL_STAGE: R344. -/
def Fld.INST_POOL_STAGE_FREE : Fld := ⟨.INST_POOL_STAGE, 0, 23, .ro, .l, 0x3f0000⟩
/-! INST_POOL_SIG: R344. -/
def Fld.INST_POOL_SIG_BLOCKS : Fld := ⟨.INST_POOL_SIG, 0, 8, .ro, .l, 0xe0⟩
def Fld.INST_POOL_SIG_VECTORS : Fld := ⟨.INST_POOL_SIG, 16, 12, .ro, .l, 0x7c0⟩
/-! INST_POOL_INST: R344. -/
def Fld.INST_POOL_INST_FREE : Fld := ⟨.INST_POOL_INST, 0, 10, .ro, .l, 0⟩
/-! INST_POOL_SLOT: R344. -/
def Fld.INST_POOL_SLOT_FREE : Fld := ⟨.INST_POOL_SLOT, 0, 16, .ro, .l, 0x380⟩
def Fld.INST_POOL_SLOT_POOL : Fld := ⟨.INST_POOL_SLOT, 16, 16, .ro, .l, 0x3c0⟩
/-! INST_SEL: R344. -/
def Fld.INST_SEL_INSTANCE : Fld := ⟨.INST_SEL, 0, 9, .rw, .l, 0⟩
/-! INST_VIEW: R344. -/
def Fld.INST_VIEW_STATE : Fld := ⟨.INST_VIEW, 0, 2, .ro, .l, 1⟩
def Fld.INST_VIEW_QUIESCENT : Fld := ⟨.INST_VIEW, 2, 1, .ro, .l, 0⟩
def Fld.INST_VIEW_STALL_OPEN : Fld := ⟨.INST_VIEW, 3, 1, .ro, .l, 0⟩
def Fld.INST_VIEW_PASID : Fld := ⟨.INST_VIEW, 4, 20, .ro, .l, 0⟩
/-! INST_VIEW_EPOCH: R344. -/
def Fld.INST_VIEW_EPOCH_EPOCH : Fld := ⟨.INST_VIEW_EPOCH, 0, 32, .ro, .l, 0⟩
/-! INST_EVENT: R344. -/
def Fld.INST_EVENT_RESET_DONE : Fld := ⟨.INST_EVENT, 0, 1, .w1c, .l, 0⟩
def Fld.INST_EVENT_FROZEN : Fld := ⟨.INST_EVENT, 1, 1, .w1c, .l, 0⟩
def Fld.INST_EVENT_QUIESCENT : Fld := ⟨.INST_EVENT, 2, 1, .w1c, .l, 0⟩
def Fld.INST_EVENT_THAWED : Fld := ⟨.INST_EVENT, 3, 1, .w1c, .l, 0⟩
def Fld.INST_EVENT_SHARE_FORCED : Fld := ⟨.INST_EVENT, 4, 1, .w1c, .l, 0⟩
/-! PSIG_RAISE: R361. -/
def Fld.PSIG_RAISE_SOURCE : Fld := ⟨.PSIG_RAISE, 0, 11, .wo, .l, 0⟩
/-! PSIG_PEND_SET: R361. -/
def Fld.PSIG_PEND_SET_SOURCE : Fld := ⟨.PSIG_PEND_SET, 0, 11, .wo, .l, 0⟩
/-! PSIG_PEND_CLR: R361. -/
def Fld.PSIG_PEND_CLR_SOURCE : Fld := ⟨.PSIG_PEND_CLR, 0, 11, .wo, .l, 0⟩
/-! PSIG_MASK_SET: R361. -/
def Fld.PSIG_MASK_SET_SOURCE : Fld := ⟨.PSIG_MASK_SET, 0, 11, .wo, .l, 0⟩
/-! PSIG_MASK_CLR: R361. -/
def Fld.PSIG_MASK_CLR_SOURCE : Fld := ⟨.PSIG_MASK_CLR, 0, 11, .wo, .l, 0⟩
/-! PSIG_SRC_SEL: R361. -/
def Fld.PSIG_SRC_SEL_SOURCE : Fld := ⟨.PSIG_SRC_SEL, 0, 11, .rw, .l, 0⟩
/-! PSIG_SRC_CFG: R361. -/
def Fld.PSIG_SRC_CFG_CLASS : Fld := ⟨.PSIG_SRC_CFG, 0, 1, .rw, .l, 0⟩
def Fld.PSIG_SRC_CFG_WAKE : Fld := ⟨.PSIG_SRC_CFG, 1, 1, .rw, .l, 0⟩
def Fld.PSIG_SRC_CFG_KIND : Fld := ⟨.PSIG_SRC_CFG, 2, 2, .rw, .l, 0⟩
def Fld.PSIG_SRC_CFG_GROUP : Fld := ⟨.PSIG_SRC_CFG, 4, 8, .rw, .l, 0⟩
def Fld.PSIG_SRC_CFG_VBLOCK : Fld := ⟨.PSIG_SRC_CFG, 12, 8, .rw, .l, 0⟩
def Fld.PSIG_SRC_CFG_VMASK : Fld := ⟨.PSIG_SRC_CFG, 20, 8, .rw, .l, 0⟩
def Fld.PSIG_SRC_CFG_CORES : Fld := ⟨.PSIG_SRC_CFG, 28, 4, .rw, .l, 0⟩
/-! PSIG_PRIO: R361. -/
def Fld.PSIG_PRIO_VECTOR : Fld := ⟨.PSIG_PRIO, 0, 11, .wo, .l, 0⟩
def Fld.PSIG_PRIO_PRIO : Fld := ⟨.PSIG_PRIO, 16, 4, .wo, .l, 0⟩
/-! PSIG_VEC_SEL: R361. -/
def Fld.PSIG_VEC_SEL_VECTOR : Fld := ⟨.PSIG_VEC_SEL, 0, 11, .rw, .l, 0⟩
/-! PSIG_VEC_VIEW: R361. -/
def Fld.PSIG_VEC_VIEW_PRIO : Fld := ⟨.PSIG_VEC_VIEW, 0, 4, .ro, .l, 0⟩
def Fld.PSIG_VEC_VIEW_HELD : Fld := ⟨.PSIG_VEC_VIEW, 4, 1, .ro, .l, 0⟩
/-! PSIG_ERR: R361. -/
def Fld.PSIG_ERR_LAST_SRC : Fld := ⟨.PSIG_ERR, 0, 11, .ro, .l, 0⟩
def Fld.PSIG_ERR_REASON : Fld := ⟨.PSIG_ERR, 12, 2, .ro, .l, 0⟩
def Fld.PSIG_ERR_COUNT : Fld := ⟨.PSIG_ERR, 16, 16, .rc, .l, 0⟩
/-! PSIG_PEND: R361. -/
def Fld.PSIG_PEND_PEND : Fld := ⟨.PSIG_PEND, 0, 32, .ro, .l, 0⟩
/-! PSIG_MASK: R361. -/
def Fld.PSIG_MASK_MASK : Fld := ⟨.PSIG_MASK, 0, 32, .ro, .l, 0xffffffff⟩
/-! SIG_RAISE: R362. -/
def Fld.SIG_RAISE_SOURCE : Fld := ⟨.SIG_RAISE, 0, 11, .wo, .l, 0⟩
/-! SIG_PEND_SET: R362. -/
def Fld.SIG_PEND_SET_SOURCE : Fld := ⟨.SIG_PEND_SET, 0, 11, .wo, .l, 0⟩
/-! SIG_PEND_CLR: R362. -/
def Fld.SIG_PEND_CLR_SOURCE : Fld := ⟨.SIG_PEND_CLR, 0, 11, .wo, .l, 0⟩
/-! SIG_MASK_SET: R362. -/
def Fld.SIG_MASK_SET_SOURCE : Fld := ⟨.SIG_MASK_SET, 0, 11, .wo, .l, 0⟩
/-! SIG_MASK_CLR: R362. -/
def Fld.SIG_MASK_CLR_SOURCE : Fld := ⟨.SIG_MASK_CLR, 0, 11, .wo, .l, 0⟩
/-! SIG_SRC_SEL: R362. -/
def Fld.SIG_SRC_SEL_SOURCE : Fld := ⟨.SIG_SRC_SEL, 0, 11, .rw, .l, 0⟩
/-! SIG_SRC_CFG: R362. -/
def Fld.SIG_SRC_CFG_CLASS : Fld := ⟨.SIG_SRC_CFG, 0, 1, .rw, .l, 0⟩
def Fld.SIG_SRC_CFG_WAKE : Fld := ⟨.SIG_SRC_CFG, 1, 1, .rw, .l, 0⟩
def Fld.SIG_SRC_CFG_KIND : Fld := ⟨.SIG_SRC_CFG, 2, 2, .rw, .l, 0⟩
def Fld.SIG_SRC_CFG_GROUP : Fld := ⟨.SIG_SRC_CFG, 4, 8, .rw, .l, 0⟩
def Fld.SIG_SRC_CFG_VBLOCK : Fld := ⟨.SIG_SRC_CFG, 12, 8, .rw, .l, 0⟩
def Fld.SIG_SRC_CFG_VMASK : Fld := ⟨.SIG_SRC_CFG, 20, 8, .rw, .l, 0⟩
def Fld.SIG_SRC_CFG_CORES : Fld := ⟨.SIG_SRC_CFG, 28, 4, .rw, .l, 0⟩
/-! SIG_SRC_CTL: R362. -/
def Fld.SIG_SRC_CTL_STOP : Fld := ⟨.SIG_SRC_CTL, 0, 1, .rw, .l, 0⟩
def Fld.SIG_SRC_CTL_STOP_LATCH : Fld := ⟨.SIG_SRC_CTL, 1, 1, .ro, .l, 0⟩
def Fld.SIG_SRC_CTL_PENDING : Fld := ⟨.SIG_SRC_CTL, 2, 1, .ro, .l, 0⟩
def Fld.SIG_SRC_CTL_MASKED : Fld := ⟨.SIG_SRC_CTL, 3, 1, .ro, .l, 1⟩
def Fld.SIG_SRC_CTL_OWNER : Fld := ⟨.SIG_SRC_CTL, 4, 9, .ro, .l, 0⟩
def Fld.SIG_SRC_CTL_LAST : Fld := ⟨.SIG_SRC_CTL, 13, 3, .ro, .l, 7⟩
/-! SIG_STATUS: R362. -/
def Fld.SIG_STATUS_HOST_READY : Fld := ⟨.SIG_STATUS, 0, 1, .ro, .l, 0⟩
def Fld.SIG_STATUS_HELD_ANY : Fld := ⟨.SIG_STATUS, 1, 1, .ro, .l, 0⟩
/-! SIG_DELIVER_CNT: R362. -/
def Fld.SIG_DELIVER_CNT_COUNT : Fld := ⟨.SIG_DELIVER_CNT, 0, 32, .rc, .l, 0⟩
/-! SIG_COALESCE_CNT: R362. -/
def Fld.SIG_COALESCE_CNT_COUNT : Fld := ⟨.SIG_COALESCE_CNT, 0, 32, .rc, .l, 0⟩
/-! SIG_ERR: R362. -/
def Fld.SIG_ERR_LAST_SRC : Fld := ⟨.SIG_ERR, 0, 11, .ro, .l, 0⟩
def Fld.SIG_ERR_REASON : Fld := ⟨.SIG_ERR, 12, 2, .ro, .l, 0⟩
def Fld.SIG_ERR_COUNT : Fld := ⟨.SIG_ERR, 16, 16, .rc, .l, 0⟩
/-! SIG_CORE: R362. -/
def Fld.SIG_CORE_PRIO : Fld := ⟨.SIG_CORE, 0, 4, .ro, .l, 0⟩
def Fld.SIG_CORE_SLEEP : Fld := ⟨.SIG_CORE, 4, 1, .ro, .l, 0⟩
def Fld.SIG_CORE_FAST_BUSY : Fld := ⟨.SIG_CORE, 5, 1, .ro, .l, 0⟩
def Fld.SIG_CORE_IN_FLIGHT : Fld := ⟨.SIG_CORE, 6, 1, .ro, .l, 0⟩
/-! SIG_VEC_SEL: R362. -/
def Fld.SIG_VEC_SEL_VECTOR : Fld := ⟨.SIG_VEC_SEL, 0, 11, .rw, .l, 0⟩
/-! SIG_VEC_VIEW: R362. -/
def Fld.SIG_VEC_VIEW_PRIO : Fld := ⟨.SIG_VEC_VIEW, 0, 4, .ro, .l, 0⟩
def Fld.SIG_VEC_VIEW_HELD : Fld := ⟨.SIG_VEC_VIEW, 4, 1, .ro, .l, 0⟩
def Fld.SIG_VEC_VIEW_OWNER : Fld := ⟨.SIG_VEC_VIEW, 16, 9, .ro, .l, 0⟩
/-! SIG_GRP_HOLDOFF: R362. -/
def Fld.SIG_GRP_HOLDOFF_HOLDOFF : Fld := ⟨.SIG_GRP_HOLDOFF, 0, 13, .rw, .l, 0⟩
/-! SIG_PEND: R362. -/
def Fld.SIG_PEND_PEND : Fld := ⟨.SIG_PEND, 0, 32, .ro, .l, 0⟩
/-! SIG_MASK: R362. -/
def Fld.SIG_MASK_MASK : Fld := ⟨.SIG_MASK, 0, 32, .ro, .l, 0xffffffff⟩
/-! GANG_CFG: R389. -/
def Fld.GANG_CFG_GTAU : Fld := ⟨.GANG_CFG, 0, 4, .rw, .l, 6⟩
def Fld.GANG_CFG_RWAKE_EN : Fld := ⟨.GANG_CFG, 4, 1, .rw, .l, 1⟩
/-! GANG_STATE: R389. -/
def Fld.GANG_STATE_GANG_ID : Fld := ⟨.GANG_STATE, 0, 3, .ro, .l, 0⟩
def Fld.GANG_STATE_ROLE : Fld := ⟨.GANG_STATE, 3, 2, .ro, .l, 0⟩
def Fld.GANG_STATE_STATE : Fld := ⟨.GANG_STATE, 5, 3, .ro, .l, 0⟩
def Fld.GANG_STATE_SIZE : Fld := ⟨.GANG_STATE, 8, 4, .ro, .l, 0⟩
def Fld.GANG_STATE_HOP : Fld := ⟨.GANG_STATE, 12, 3, .ro, .l, 0⟩
def Fld.GANG_STATE_RIDGE_ALLOWED : Fld := ⟨.GANG_STATE, 15, 1, .ro, .l, 0⟩
def Fld.GANG_STATE_CONFIGURED : Fld := ⟨.GANG_STATE, 16, 1, .ro, .l, 0⟩
def Fld.GANG_STATE_JOINED : Fld := ⟨.GANG_STATE, 17, 1, .ro, .l, 0⟩
def Fld.GANG_STATE_EFF_MINOR : Fld := ⟨.GANG_STATE, 18, 8, .ro, .l, 4⟩
/-! GANG_DIGEST: R389. -/
def Fld.GANG_DIGEST_DIGEST : Fld := ⟨.GANG_DIGEST, 0, 32, .ro, .l, 0⟩
/-! GANG_RIDGE_DIGEST: R389. -/
def Fld.GANG_RIDGE_DIGEST_DIGEST : Fld := ⟨.GANG_RIDGE_DIGEST, 0, 32, .ro, .l, 0⟩
/-! GANG_OFFSET: R389. -/
def Fld.GANG_OFFSET_OFFSET : Fld := ⟨.GANG_OFFSET, 0, 32, .ro, .l, 0⟩
/-! GANG_MEMBERS: R389. -/
def Fld.GANG_MEMBERS_PRESENT : Fld := ⟨.GANG_MEMBERS, 0, 8, .ro, .l, 0⟩
def Fld.GANG_MEMBERS_LOCKED : Fld := ⟨.GANG_MEMBERS, 8, 8, .ro, .l, 0⟩
def Fld.GANG_MEMBERS_MISMATCH : Fld := ⟨.GANG_MEMBERS, 16, 8, .ro, .l, 0⟩
/-! GANG_LEASE: R389. -/
def Fld.GANG_LEASE_MISSED : Fld := ⟨.GANG_LEASE, 0, 4, .ro, .l, 0⟩
def Fld.GANG_LEASE_LOST_CNT : Fld := ⟨.GANG_LEASE, 16, 16, .rc, .l, 0⟩
/-! GANG_XCHG: R389. -/
def Fld.GANG_XCHG_STATUS : Fld := ⟨.GANG_XCHG, 0, 16, .ro, .l, 0⟩
def Fld.GANG_XCHG_ABORTS : Fld := ⟨.GANG_XCHG, 16, 8, .rc, .l, 0⟩
/-! GANG_PACE_STAT: R389. -/
def Fld.GANG_PACE_STAT_VALID : Fld := ⟨.GANG_PACE_STAT, 0, 8, .ro, .l, 0⟩
def Fld.GANG_PACE_STAT_BAD_RECORDS : Fld := ⟨.GANG_PACE_STAT, 16, 16, .rc, .l, 0⟩
/-! GANG_OFS_STAT: R389. -/
def Fld.GANG_OFS_STAT_WARN : Fld := ⟨.GANG_OFS_STAT, 0, 16, .rc, .l, 0⟩
def Fld.GANG_OFS_STAT_UNQUAL : Fld := ⟨.GANG_OFS_STAT, 16, 16, .rc, .l, 0⟩
/-! GANG_MAP_LO: R389. -/
def Fld.GANG_MAP_LO_MAP : Fld := ⟨.GANG_MAP_LO, 0, 32, .ro, .l, 0xffffffff⟩
/-! GANG_MAP_HI: R389. -/
def Fld.GANG_MAP_HI_MAP : Fld := ⟨.GANG_MAP_HI, 0, 32, .ro, .l, 0xffffffff⟩
/-! GANG_EVENT: R389. -/
def Fld.GANG_EVENT_LOCKED : Fld := ⟨.GANG_EVENT, 0, 1, .w1c, .l, 0⟩
def Fld.GANG_EVENT_MISMATCH : Fld := ⟨.GANG_EVENT, 1, 1, .w1c, .l, 0⟩
def Fld.GANG_EVENT_TIME_UNQUAL : Fld := ⟨.GANG_EVENT, 2, 1, .w1c, .l, 0⟩
def Fld.GANG_EVENT_LEASE_LOST : Fld := ⟨.GANG_EVENT, 3, 1, .w1c, .l, 0⟩
def Fld.GANG_EVENT_MEMBER_CHG : Fld := ⟨.GANG_EVENT, 4, 1, .w1c, .l, 0⟩
def Fld.GANG_EVENT_EXCHANGE_ABORTED : Fld := ⟨.GANG_EVENT, 5, 1, .w1c, .l, 0⟩
def Fld.GANG_EVENT_REMOTE_WAKE : Fld := ⟨.GANG_EVENT, 6, 1, .w1c, .l, 0⟩
def Fld.GANG_EVENT_TWO_RIDGES : Fld := ⟨.GANG_EVENT, 7, 1, .w1c, .l, 0⟩
def Fld.GANG_EVENT_LOCK_LOST : Fld := ⟨.GANG_EVENT, 8, 1, .w1c, .l, 0⟩
/-! PMU_MODE: R409. -/
def Fld.PMU_MODE_MODE : Fld := ⟨.PMU_MODE, 0, 3, .ro, .l, 2⟩
def Fld.PMU_MODE_TARGET : Fld := ⟨.PMU_MODE, 3, 3, .ro, .l, 2⟩
def Fld.PMU_MODE_CHANGING : Fld := ⟨.PMU_MODE, 6, 1, .ro, .l, 0⟩
/-! PMU_CFG: R409. -/
def Fld.PMU_CFG_DEFER_MAX : Fld := ⟨.PMU_CFG, 0, 4, .rw, .l, 8⟩
def Fld.PMU_CFG_SCRUB_PER : Fld := ⟨.PMU_CFG, 8, 8, .rw, .l, 0x40⟩
def Fld.PMU_CFG_BANK_IDLE : Fld := ⟨.PMU_CFG, 16, 8, .rw, .l, 0x80⟩
/-! PMU_DOM_POLICY: R409. -/
def Fld.PMU_DOM_POLICY_POLICY : Fld := ⟨.PMU_DOM_POLICY, 0, 24, .rw, .c, 0x800000⟩
/-! PMU_DOM_STATE: R409. -/
def Fld.PMU_DOM_STATE_STATE : Fld := ⟨.PMU_DOM_STATE, 0, 24, .ro, .l, 0xc00000⟩
/-! PMU_WAKE_EN: R409. -/
def Fld.PMU_WAKE_EN_EN : Fld := ⟨.PMU_WAKE_EN, 0, 10, .rw, .l, 0x3ff⟩
/-! PMU_WAKE_SETUP: R409. -/
def Fld.PMU_WAKE_SETUP_SETUP : Fld := ⟨.PMU_WAKE_SETUP, 0, 10, .rw, .l, 0⟩
/-! PMU_WAKE_STAT: R409. -/
def Fld.PMU_WAKE_STAT_CAUSE : Fld := ⟨.PMU_WAKE_STAT, 0, 10, .w1c, .l, 0⟩
/-! PMU_AO_CNT_LO: R409. -/
def Fld.PMU_AO_CNT_LO_COUNT : Fld := ⟨.PMU_AO_CNT_LO, 0, 32, .ro, .l, 0⟩
/-! PMU_AO_CNT_HI: R409. -/
def Fld.PMU_AO_CNT_HI_COUNT : Fld := ⟨.PMU_AO_CNT_HI, 0, 16, .ro, .l, 0⟩
/-! PMU_TIMER_LO: R409. -/
def Fld.PMU_TIMER_LO_CMP : Fld := ⟨.PMU_TIMER_LO, 0, 32, .rw, .l, 0⟩
/-! PMU_TIMER_HI: R409. -/
def Fld.PMU_TIMER_HI_CMP : Fld := ⟨.PMU_TIMER_HI, 0, 16, .rw, .l, 0⟩
def Fld.PMU_TIMER_HI_ARM : Fld := ⟨.PMU_TIMER_HI, 31, 1, .rw, .l, 0⟩
/-! PMU_DENY: R409. -/
def Fld.PMU_DENY_DOMAIN : Fld := ⟨.PMU_DENY, 0, 4, .ro, .l, 0⟩
def Fld.PMU_DENY_BLOCK : Fld := ⟨.PMU_DENY, 8, 8, .ro, .l, 0⟩
def Fld.PMU_DENY_REASON : Fld := ⟨.PMU_DENY, 16, 8, .ro, .l, 0⟩
def Fld.PMU_DENY_COUNT : Fld := ⟨.PMU_DENY, 24, 8, .rc, .l, 0⟩
/-! PMU_WINDOW_CNT: R409. -/
def Fld.PMU_WINDOW_CNT_COUNT : Fld := ⟨.PMU_WINDOW_CNT, 0, 32, .rc, .l, 0⟩
/-! PMU_STALL_CNT: R409. -/
def Fld.PMU_STALL_CNT_COUNT : Fld := ⟨.PMU_STALL_CNT, 0, 32, .rc, .l, 0⟩
/-! PMU_EVENT: R409. -/
def Fld.PMU_EVENT_MODE_CHANGED : Fld := ⟨.PMU_EVENT, 0, 1, .w1c, .l, 0⟩
def Fld.PMU_EVENT_WOKEN : Fld := ⟨.PMU_EVENT, 1, 1, .w1c, .l, 0⟩
def Fld.PMU_EVENT_DENIED : Fld := ⟨.PMU_EVENT, 2, 1, .w1c, .l, 0⟩
def Fld.PMU_EVENT_BANK_LOST : Fld := ⟨.PMU_EVENT, 3, 1, .w1c, .l, 0⟩
def Fld.PMU_EVENT_ARRAY_LOST : Fld := ⟨.PMU_EVENT, 4, 1, .w1c, .l, 0⟩
def Fld.PMU_EVENT_PREWAKE_LATE : Fld := ⟨.PMU_EVENT, 5, 1, .w1c, .l, 0⟩
def Fld.PMU_EVENT_PACE_LEVEL : Fld := ⟨.PMU_EVENT, 6, 1, .w1c, .l, 0⟩
def Fld.PMU_EVENT_PME_SENT : Fld := ⟨.PMU_EVENT, 7, 1, .w1c, .l, 0⟩
/-! PMU_BANK_STATE: R409. -/
def Fld.PMU_BANK_STATE_STATE : Fld := ⟨.PMU_BANK_STATE, 0, 32, .ro, .l, 0xaaaaaaaa⟩
/-! PMU_BANK_LOST_LO: R409. -/
def Fld.PMU_BANK_LOST_LO_LOST : Fld := ⟨.PMU_BANK_LOST_LO, 0, 32, .w1c, .l, 0⟩
/-! PMU_BANK_LOST_HI: R409. -/
def Fld.PMU_BANK_LOST_HI_LOST : Fld := ⟨.PMU_BANK_LOST_HI, 0, 32, .w1c, .l, 0⟩
/-! PMU_ARRAY_LOST: R409. -/
def Fld.PMU_ARRAY_LOST_LOST : Fld := ⟨.PMU_ARRAY_LOST, 0, 12, .w1c, .l, 0⟩
/-! PMU_LOST_CNT: R409. -/
def Fld.PMU_LOST_CNT_BANKS : Fld := ⟨.PMU_LOST_CNT, 0, 16, .rc, .l, 0⟩
def Fld.PMU_LOST_CNT_ARRAYS : Fld := ⟨.PMU_LOST_CNT, 16, 16, .rc, .l, 0⟩
/-! PPM_LIMIT: R428. -/
def Fld.PPM_LIMIT_ILIM : Fld := ⟨.PPM_LIMIT, 0, 16, .rw, .l, 0x3e8⟩
def Fld.PPM_LIMIT_FTRIP : Fld := ⟨.PPM_LIMIT, 16, 16, .rw, .l, 0x7d0⟩
/-! PPM_TIMERS: R428. -/
def Fld.PPM_TIMERS_FAULT_MS : Fld := ⟨.PPM_TIMERS, 0, 7, .rw, .l, 0xa⟩
def Fld.PPM_TIMERS_RETRY_S : Fld := ⟨.PPM_TIMERS, 8, 6, .rw, .l, 5⟩
def Fld.PPM_TIMERS_RETRY_LIM : Fld := ⟨.PPM_TIMERS, 16, 8, .rw, .l, 3⟩
def Fld.PPM_TIMERS_RAMP_TMO : Fld := ⟨.PPM_TIMERS, 24, 8, .rw, .l, 0x32⟩
/-! PPM_RAMP: R428. -/
def Fld.PPM_RAMP_SLOPE : Fld := ⟨.PPM_RAMP, 0, 16, .rw, .l, 0x2710⟩
def Fld.PPM_RAMP_PG_THR : Fld := ⟨.PPM_RAMP, 16, 7, .rw, .l, 0x5a⟩
/-! PPM_SCALE: R428. -/
def Fld.PPM_SCALE_I_FS : Fld := ⟨.PPM_SCALE, 0, 16, .rw, .s, 0x1388⟩
def Fld.PPM_SCALE_V_FS : Fld := ⟨.PPM_SCALE, 16, 16, .rw, .s, 0x7530⟩
/-! PPM_STATUS: R428. -/
def Fld.PPM_STATUS_STATE : Fld := ⟨.PPM_STATUS, 0, 3, .ro, .l, 0⟩
def Fld.PPM_STATUS_CAUSE : Fld := ⟨.PPM_STATUS, 3, 3, .ro, .l, 0⟩
def Fld.PPM_STATUS_GEN : Fld := ⟨.PPM_STATUS, 6, 1, .ro, .l, 0⟩
def Fld.PPM_STATUS_PG : Fld := ⟨.PPM_STATUS, 7, 1, .ro, .l, 0⟩
def Fld.PPM_STATUS_BLANKED : Fld := ⟨.PPM_STATUS, 8, 1, .ro, .l, 0⟩
def Fld.PPM_STATUS_RETRIES : Fld := ⟨.PPM_STATUS, 16, 8, .ro, .l, 0⟩
/-! PPM_MEAS: R428. -/
def Fld.PPM_MEAS_I : Fld := ⟨.PPM_MEAS, 0, 16, .ro, .l, 0⟩
def Fld.PPM_MEAS_V : Fld := ⟨.PPM_MEAS, 16, 16, .ro, .l, 0⟩
/-! PPM_PEAK: R428. -/
def Fld.PPM_PEAK_IPEAK : Fld := ⟨.PPM_PEAK, 0, 16, .rc, .l, 0⟩
def Fld.PPM_PEAK_TRIPS : Fld := ⟨.PPM_PEAK, 16, 16, .rc, .l, 0⟩
/-! PPM_PEVENT: R428. -/
def Fld.PPM_PEVENT_RAMP_DONE : Fld := ⟨.PPM_PEVENT, 0, 1, .w1c, .l, 0⟩
def Fld.PPM_PEVENT_LIMIT_START : Fld := ⟨.PPM_PEVENT, 1, 1, .w1c, .l, 0⟩
def Fld.PPM_PEVENT_LIMIT_END : Fld := ⟨.PPM_PEVENT, 2, 1, .w1c, .l, 0⟩
def Fld.PPM_PEVENT_OVERCURRENT : Fld := ⟨.PPM_PEVENT, 3, 1, .w1c, .l, 0⟩
def Fld.PPM_PEVENT_FAST_TRIP : Fld := ⟨.PPM_PEVENT, 4, 1, .w1c, .l, 0⟩
def Fld.PPM_PEVENT_RAMP_TIMEOUT : Fld := ⟨.PPM_PEVENT, 5, 1, .w1c, .l, 0⟩
def Fld.PPM_PEVENT_RETRY : Fld := ⟨.PPM_PEVENT, 6, 1, .w1c, .l, 0⟩
def Fld.PPM_PEVENT_LOCKOUT : Fld := ⟨.PPM_PEVENT, 7, 1, .w1c, .l, 0⟩
def Fld.PPM_PEVENT_FEED_LOST : Fld := ⟨.PPM_PEVENT, 8, 1, .w1c, .l, 0⟩
def Fld.PPM_PEVENT_VSAG : Fld := ⟨.PPM_PEVENT, 9, 1, .w1c, .l, 0⟩
/-! PPM_GRP_CFG: R428. -/
def Fld.PPM_GRP_CFG_DEAD : Fld := ⟨.PPM_GRP_CFG, 0, 9, .rw, .l, 0x64⟩
def Fld.PPM_GRP_CFG_RETURN_S : Fld := ⟨.PPM_GRP_CFG, 16, 16, .rw, .l, 0x1e⟩
/-! PPM_FEED_CFG: R428. -/
def Fld.PPM_FEED_CFG_UV : Fld := ⟨.PPM_FEED_CFG, 0, 16, .rw, .l, 0x4e20⟩
def Fld.PPM_FEED_CFG_V_FS : Fld := ⟨.PPM_FEED_CFG, 16, 16, .rw, .s, 0x7530⟩
/-! PPM_FEED_STATUS: R428. -/
def Fld.PPM_FEED_STATUS_SEL : Fld := ⟨.PPM_FEED_STATUS, 0, 3, .ro, .l, 0⟩
def Fld.PPM_FEED_STATUS_A_GOOD : Fld := ⟨.PPM_FEED_STATUS, 3, 1, .ro, .l, 0⟩
def Fld.PPM_FEED_STATUS_B_GOOD : Fld := ⟨.PPM_FEED_STATUS, 4, 1, .ro, .l, 0⟩
def Fld.PPM_FEED_STATUS_A_EN : Fld := ⟨.PPM_FEED_STATUS, 5, 1, .ro, .l, 0⟩
def Fld.PPM_FEED_STATUS_B_EN : Fld := ⟨.PPM_FEED_STATUS, 6, 1, .ro, .l, 0⟩
def Fld.PPM_FEED_STATUS_SWITCHED_TO_B : Fld := ⟨.PPM_FEED_STATUS, 16, 1, .w1c, .l, 0⟩
def Fld.PPM_FEED_STATUS_RETURNED_TO_A : Fld := ⟨.PPM_FEED_STATUS, 17, 1, .w1c, .l, 0⟩
def Fld.PPM_FEED_STATUS_A_LOST : Fld := ⟨.PPM_FEED_STATUS, 18, 1, .w1c, .l, 0⟩
def Fld.PPM_FEED_STATUS_B_LOST : Fld := ⟨.PPM_FEED_STATUS, 19, 1, .w1c, .l, 0⟩
def Fld.PPM_FEED_STATUS_BOTH_LOST : Fld := ⟨.PPM_FEED_STATUS, 20, 1, .w1c, .l, 0⟩
/-! PPM_FEED_V: R428. -/
def Fld.PPM_FEED_V_VA : Fld := ⟨.PPM_FEED_V, 0, 16, .ro, .l, 0⟩
def Fld.PPM_FEED_V_VB : Fld := ⟨.PPM_FEED_V, 16, 16, .ro, .l, 0⟩
/-! PPM_POWER: R428. -/
def Fld.PPM_POWER_P : Fld := ⟨.PPM_POWER, 0, 32, .ro, .l, 0⟩
/-! PPM_ENERGY_LO: R428. -/
def Fld.PPM_ENERGY_LO_E : Fld := ⟨.PPM_ENERGY_LO, 0, 32, .ro, .l, 0⟩
/-! PPM_ENERGY_HI: R428. -/
def Fld.PPM_ENERGY_HI_E : Fld := ⟨.PPM_ENERGY_HI, 0, 16, .ro, .l, 0⟩
/-! PPM_GSTATUS: R428. -/
def Fld.PPM_GSTATUS_OSC_RUN : Fld := ⟨.PPM_GSTATUS, 0, 1, .ro, .l, 0⟩
def Fld.PPM_GSTATUS_PORTS_ON : Fld := ⟨.PPM_GSTATUS, 16, 16, .ro, .l, 0⟩
/-! PPM_ECLR: R428. -/
def Fld.PPM_ECLR_CLEAR : Fld := ⟨.PPM_ECLR, 0, 16, .wo, .l, 0⟩
/-! BOOT_STATUS: R447. -/
def Fld.BOOT_STATUS_KIND : Fld := ⟨.BOOT_STATUS, 0, 3, .ro, .l, 0⟩
def Fld.BOOT_STATUS_RUNNING : Fld := ⟨.BOOT_STATUS, 3, 1, .ro, .l, 0⟩
def Fld.BOOT_STATUS_PRIMARY : Fld := ⟨.BOOT_STATUS, 4, 1, .ro, .l, 0⟩
def Fld.BOOT_STATUS_FELL_BACK : Fld := ⟨.BOOT_STATUS, 5, 1, .w1c, .l, 0⟩
def Fld.BOOT_STATUS_IMAGE_RETAINED : Fld := ⟨.BOOT_STATUS, 6, 1, .ro, .l, 0⟩
def Fld.BOOT_STATUS_LINK_RETAINED : Fld := ⟨.BOOT_STATUS, 7, 1, .ro, .l, 0⟩
def Fld.BOOT_STATUS_DEBUG_UNLOCKED : Fld := ⟨.BOOT_STATUS, 8, 1, .ro, .l, 0⟩
def Fld.BOOT_STATUS_COMMIT_PENDING : Fld := ⟨.BOOT_STATUS, 9, 1, .ro, .l, 0⟩
def Fld.BOOT_STATUS_HEALTHY : Fld := ⟨.BOOT_STATUS, 10, 1, .ro, .l, 0⟩
/-! BOOT_ATTEMPTS: R447. -/
def Fld.BOOT_ATTEMPTS_WARM_FAILS : Fld := ⟨.BOOT_ATTEMPTS, 0, 2, .ro, .l, 0⟩
def Fld.BOOT_ATTEMPTS_COLD_FAILS : Fld := ⟨.BOOT_ATTEMPTS, 2, 2, .ro, .l, 0⟩
def Fld.BOOT_ATTEMPTS_COLD_SLOT : Fld := ⟨.BOOT_ATTEMPTS, 4, 1, .ro, .l, 0⟩
def Fld.BOOT_ATTEMPTS_STARTS : Fld := ⟨.BOOT_ATTEMPTS, 16, 16, .ro, .l, 0⟩
/-! BOOT_FAIL: R447. -/
def Fld.BOOT_FAIL_STEP : Fld := ⟨.BOOT_FAIL, 0, 4, .ro, .l, 0⟩
def Fld.BOOT_FAIL_CODE : Fld := ⟨.BOOT_FAIL, 8, 8, .ro, .l, 0⟩
def Fld.BOOT_FAIL_COUNT : Fld := ⟨.BOOT_FAIL, 16, 16, .rc, .l, 0⟩
/-! BOOT_IMG_A: R447. -/
def Fld.BOOT_IMG_A_PATCH : Fld := ⟨.BOOT_IMG_A, 0, 8, .ro, .l, 0⟩
def Fld.BOOT_IMG_A_MINOR : Fld := ⟨.BOOT_IMG_A, 8, 8, .ro, .l, 0⟩
def Fld.BOOT_IMG_A_MAJOR : Fld := ⟨.BOOT_IMG_A, 16, 8, .ro, .l, 0⟩
def Fld.BOOT_IMG_A_ROLLBACK : Fld := ⟨.BOOT_IMG_A, 24, 7, .ro, .l, 0⟩
def Fld.BOOT_IMG_A_VALID : Fld := ⟨.BOOT_IMG_A, 31, 1, .ro, .l, 0⟩
/-! BOOT_IMG_B: R447. -/
def Fld.BOOT_IMG_B_PATCH : Fld := ⟨.BOOT_IMG_B, 0, 8, .ro, .l, 0⟩
def Fld.BOOT_IMG_B_MINOR : Fld := ⟨.BOOT_IMG_B, 8, 8, .ro, .l, 0⟩
def Fld.BOOT_IMG_B_MAJOR : Fld := ⟨.BOOT_IMG_B, 16, 8, .ro, .l, 0⟩
def Fld.BOOT_IMG_B_ROLLBACK : Fld := ⟨.BOOT_IMG_B, 24, 7, .ro, .l, 0⟩
def Fld.BOOT_IMG_B_VALID : Fld := ⟨.BOOT_IMG_B, 31, 1, .ro, .l, 0⟩
/-! BOOT_CTRL: R447. -/
def Fld.BOOT_CTRL_KEY : Fld := ⟨.BOOT_CTRL, 0, 8, .wo, .l, 0⟩
def Fld.BOOT_CTRL_WARM : Fld := ⟨.BOOT_CTRL, 8, 1, .wo, .l, 0⟩
/-! BOOT_OTP_SEL: R447. -/
def Fld.BOOT_OTP_SEL_WORD : Fld := ⟨.BOOT_OTP_SEL, 0, 6, .rw, .l, 0⟩
/-! BOOT_OTP_DATA: R447. -/
def Fld.BOOT_OTP_DATA_DATA : Fld := ⟨.BOOT_OTP_DATA, 0, 32, .ro, .l, 0⟩
/-! BOOT_ROLLBACK: R447. -/
def Fld.BOOT_ROLLBACK_LEVEL : Fld := ⟨.BOOT_ROLLBACK, 0, 7, .ro, .l, 0⟩
/-! ERR_SEL: R463. -/
def Fld.ERR_SEL_CATEGORY : Fld := ⟨.ERR_SEL, 0, 3, .rw, .l, 0⟩
/-! ERR_REC_TIME_LO: R463. -/
def Fld.ERR_REC_TIME_LO_TIME : Fld := ⟨.ERR_REC_TIME_LO, 0, 32, .ro, .l, 0⟩
/-! ERR_REC_TIME_HI: R463. -/
def Fld.ERR_REC_TIME_HI_TIME : Fld := ⟨.ERR_REC_TIME_HI, 0, 32, .ro, .l, 0⟩
/-! ERR_REC_CODE: R463. -/
def Fld.ERR_REC_CODE_CODE : Fld := ⟨.ERR_REC_CODE, 0, 16, .ro, .l, 0⟩
def Fld.ERR_REC_CODE_SOURCE : Fld := ⟨.ERR_REC_CODE, 16, 8, .ro, .l, 0⟩
def Fld.ERR_REC_CODE_SEQ : Fld := ⟨.ERR_REC_CODE, 24, 8, .ro, .l, 0⟩
/-! ERR_REC_FLAGS: R463. -/
def Fld.ERR_REC_FLAGS_FLAGS : Fld := ⟨.ERR_REC_FLAGS, 0, 4, .ro, .l, 0⟩
def Fld.ERR_REC_FLAGS_COUNT : Fld := ⟨.ERR_REC_FLAGS, 16, 16, .ro, .l, 0⟩
/-! ERR_REC_DETAIL: R463. -/
def Fld.ERR_REC_DETAIL_DETAIL : Fld := ⟨.ERR_REC_DETAIL, 0, 32, .ro, .l, 0⟩
/-! ERR_STATUS: R463. -/
def Fld.ERR_STATUS_VALID : Fld := ⟨.ERR_STATUS, 0, 7, .ro, .l, 0⟩
def Fld.ERR_STATUS_OVERFLOW : Fld := ⟨.ERR_STATUS, 8, 7, .ro, .l, 0⟩
def Fld.ERR_STATUS_FATAL : Fld := ⟨.ERR_STATUS, 15, 1, .ro, .l, 0⟩
/-! ERR_ACK: R463. -/
def Fld.ERR_ACK_CATEGORY : Fld := ⟨.ERR_ACK, 0, 3, .wo, .l, 0⟩
def Fld.ERR_ACK_SEQ : Fld := ⟨.ERR_ACK, 8, 8, .wo, .l, 0⟩
/-! ERR_FATAL: R463. -/
def Fld.ERR_FATAL_CATEGORY : Fld := ⟨.ERR_FATAL, 0, 3, .ro, .l, 0⟩
def Fld.ERR_FATAL_CAUSE : Fld := ⟨.ERR_FATAL, 3, 2, .ro, .l, 0⟩
def Fld.ERR_FATAL_VALID : Fld := ⟨.ERR_FATAL, 5, 1, .ro, .l, 0⟩
def Fld.ERR_FATAL_SEQ : Fld := ⟨.ERR_FATAL, 8, 8, .ro, .l, 0⟩
def Fld.ERR_FATAL_COUNT : Fld := ⟨.ERR_FATAL, 16, 16, .ro, .l, 0⟩
/-! ERR_FATAL_ACK: R463. -/
def Fld.ERR_FATAL_ACK_SEQ : Fld := ⟨.ERR_FATAL_ACK, 8, 8, .wo, .l, 0⟩
/-! ERR_CE_CNT: R463. -/
def Fld.ERR_CE_CNT_COUNT : Fld := ⟨.ERR_CE_CNT, 0, 32, .rc, .l, 0⟩
/-! ERR_TOTAL: R463. -/
def Fld.ERR_TOTAL_COUNT : Fld := ⟨.ERR_TOTAL, 0, 32, .rc, .l, 0⟩
/-! PTB_CFG: R464. -/
def Fld.PTB_CFG_RUN_ENABLE : Fld := ⟨.PTB_CFG, 0, 1, .rw, .s, 0⟩
def Fld.PTB_CFG_ABSENT : Fld := ⟨.PTB_CFG, 1, 1, .ro, .l, 0⟩
/-! PTB_ACTIVE: R464. -/
def Fld.PTB_ACTIVE_ANY : Fld := ⟨.PTB_ACTIVE, 0, 1, .ro, .l, 0⟩
def Fld.PTB_ACTIVE_CONTROLS : Fld := ⟨.PTB_ACTIVE, 1, 6, .ro, .l, 0⟩
/-! PTB_ENG_DELAY: R464. -/
def Fld.PTB_ENG_DELAY_CCLK : Fld := ⟨.PTB_ENG_DELAY, 0, 16, .ro, .l, 0⟩
def Fld.PTB_ENG_DELAY_ENGINES : Fld := ⟨.PTB_ENG_DELAY, 16, 16, .ro, .l, 0⟩
/-! PTB_THROTTLE: R464. -/
def Fld.PTB_THROTTLE_INDEX : Fld := ⟨.PTB_THROTTLE, 0, 13, .ro, .l, 0⟩
def Fld.PTB_THROTTLE_DEPTH : Fld := ⟨.PTB_THROTTLE, 16, 13, .ro, .l, 0⟩
def Fld.PTB_THROTTLE_ON : Fld := ⟨.PTB_THROTTLE, 31, 1, .ro, .l, 0⟩
/-! PTB_BLKERR_CFG: R464. -/
def Fld.PTB_BLKERR_CFG_LINK : Fld := ⟨.PTB_BLKERR_CFG, 0, 5, .ro, .l, 0⟩
def Fld.PTB_BLKERR_CFG_TRANSMIT : Fld := ⟨.PTB_BLKERR_CFG, 5, 1, .ro, .l, 0⟩
def Fld.PTB_BLKERR_CFG_ON : Fld := ⟨.PTB_BLKERR_CFG, 31, 1, .ro, .l, 0⟩
/-! PTB_BLKERR_N: R464. -/
def Fld.PTB_BLKERR_N_N : Fld := ⟨.PTB_BLKERR_N, 0, 32, .ro, .l, 0⟩
/-! PTB_BLKERR_CNT: R464. -/
def Fld.PTB_BLKERR_CNT_COUNT : Fld := ⟨.PTB_BLKERR_CNT, 0, 32, .rc, .l, 0⟩
/-! PTB_SILENCE: R464. -/
def Fld.PTB_SILENCE_CONTEXT : Fld := ⟨.PTB_SILENCE, 0, 13, .ro, .l, 0⟩
def Fld.PTB_SILENCE_MODE : Fld := ⟨.PTB_SILENCE, 13, 2, .ro, .l, 0⟩
def Fld.PTB_SILENCE_PERIOD : Fld := ⟨.PTB_SILENCE, 16, 16, .ro, .l, 0⟩
/-! PTB_SILENCE_CNT: R464. -/
def Fld.PTB_SILENCE_CNT_COUNT : Fld := ⟨.PTB_SILENCE_CNT, 0, 32, .rc, .l, 0⟩
/-! PTB_SFD_CFG: R464. -/
def Fld.PTB_SFD_CFG_INSTANCE : Fld := ⟨.PTB_SFD_CFG, 0, 9, .ro, .l, 0⟩
def Fld.PTB_SFD_CFG_ALL : Fld := ⟨.PTB_SFD_CFG, 9, 1, .ro, .l, 0⟩
def Fld.PTB_SFD_CFG_ON : Fld := ⟨.PTB_SFD_CFG, 31, 1, .ro, .l, 0⟩
/-! PTB_SFD_NS: R464. -/
def Fld.PTB_SFD_NS_NS : Fld := ⟨.PTB_SFD_NS, 0, 24, .ro, .l, 0⟩
/-! PTB_WAKE_EXT: R464. -/
def Fld.PTB_WAKE_EXT_DOMAINS : Fld := ⟨.PTB_WAKE_EXT, 0, 12, .ro, .l, 0⟩
def Fld.PTB_WAKE_EXT_EXT : Fld := ⟨.PTB_WAKE_EXT, 16, 16, .ro, .l, 0⟩
/-! PTB_ON_TIME_LO: R464. -/
def Fld.PTB_ON_TIME_LO_TIME : Fld := ⟨.PTB_ON_TIME_LO, 0, 32, .ro, .l, 0⟩
/-! PTB_ON_TIME_HI: R464. -/
def Fld.PTB_ON_TIME_HI_TIME : Fld := ⟨.PTB_ON_TIME_HI, 0, 32, .ro, .l, 0⟩
/-! PTB_OFF_TIME_LO: R464. -/
def Fld.PTB_OFF_TIME_LO_TIME : Fld := ⟨.PTB_OFF_TIME_LO, 0, 32, .ro, .l, 0⟩
/-! PTB_OFF_TIME_HI: R464. -/
def Fld.PTB_OFF_TIME_HI_TIME : Fld := ⟨.PTB_OFF_TIME_HI, 0, 32, .ro, .l, 0⟩
/-! ID_DEVICE: R479. -/
def Fld.ID_DEVICE_DEVICE : Fld := ⟨.ID_DEVICE, 0, 16, .ro, .l, 0x7512⟩
def Fld.ID_DEVICE_REVISION : Fld := ⟨.ID_DEVICE, 16, 8, .ro, .l, 0xb0⟩
/-! ID_UNIQUE_LO: R479. -/
def Fld.ID_UNIQUE_LO_ID : Fld := ⟨.ID_UNIQUE_LO, 0, 32, .ro, .l, 0⟩
/-! ID_UNIQUE_HI: R479. -/
def Fld.ID_UNIQUE_HI_ID : Fld := ⟨.ID_UNIQUE_HI, 0, 32, .ro, .l, 0⟩
/-! ID_FW_VERSION: R479. -/
def Fld.ID_FW_VERSION_PATCH : Fld := ⟨.ID_FW_VERSION, 0, 8, .ro, .l, 0⟩
def Fld.ID_FW_VERSION_MINOR : Fld := ⟨.ID_FW_VERSION, 8, 8, .ro, .l, 0⟩
def Fld.ID_FW_VERSION_MAJOR : Fld := ⟨.ID_FW_VERSION, 16, 8, .ro, .l, 0⟩
/-! ID_CMDSET: R479. -/
def Fld.ID_CMDSET_MINOR : Fld := ⟨.ID_CMDSET, 0, 8, .ro, .l, 0⟩
def Fld.ID_CMDSET_MAJOR : Fld := ⟨.ID_CMDSET, 8, 8, .ro, .l, 0⟩
def Fld.ID_CMDSET_EFF_MINOR : Fld := ⟨.ID_CMDSET, 16, 8, .ro, .l, 0⟩
/-! ID_SKU: R479. -/
def Fld.ID_SKU_PTB_DISABLE : Fld := ⟨.ID_SKU, 0, 1, .ro, .l, 0⟩
def Fld.ID_SKU_GANG_ALLOWED : Fld := ⟨.ID_SKU, 1, 1, .ro, .l, 0⟩
def Fld.ID_SKU_MAX_INSTANCES : Fld := ⟨.ID_SKU, 2, 10, .ro, .l, 0⟩
def Fld.ID_SKU_KEY0_REVOKED : Fld := ⟨.ID_SKU, 12, 1, .ro, .l, 0⟩
def Fld.ID_SKU_PTB_RUN_ENABLE : Fld := ⟨.ID_SKU, 13, 1, .ro, .l, 0⟩
/-! ID_CAP0: R479. -/
def Fld.ID_CAP0_TRUNKS : Fld := ⟨.ID_CAP0, 0, 8, .ro, .l, 0x10⟩
def Fld.ID_CAP0_GANG_PORTS : Fld := ⟨.ID_CAP0, 8, 4, .ro, .l, 2⟩
def Fld.ID_CAP0_HUB_TIERS : Fld := ⟨.ID_CAP0, 12, 4, .ro, .l, 4⟩
def Fld.ID_CAP0_ENGINES : Fld := ⟨.ID_CAP0, 16, 8, .ro, .l, 0x10⟩
def Fld.ID_CAP0_ESTIMATORS : Fld := ⟨.ID_CAP0, 24, 4, .ro, .l, 8⟩
def Fld.ID_CAP0_PACE_INPUTS : Fld := ⟨.ID_CAP0, 28, 4, .ro, .l, 8⟩
/-! ID_CAP1: R479. -/
def Fld.ID_CAP1_FLOW_CONTEXTS : Fld := ⟨.ID_CAP1, 0, 14, .ro, .l, 0x2000⟩
def Fld.ID_CAP1_INSTANCES : Fld := ⟨.ID_CAP1, 16, 10, .ro, .l, 0x200⟩
/-! ID_CAP2: R479. -/
def Fld.ID_CAP2_STAGE_LOG2 : Fld := ⟨.ID_CAP2, 0, 5, .ro, .l, 0x16⟩
def Fld.ID_CAP2_PLAN_LOG2 : Fld := ⟨.ID_CAP2, 8, 5, .ro, .l, 0x13⟩
def Fld.ID_CAP2_STAGE_BANKS : Fld := ⟨.ID_CAP2, 16, 7, .ro, .l, 0x40⟩
/-! ID_CAP3: R479. -/
def Fld.ID_CAP3_SOURCES : Fld := ⟨.ID_CAP3, 0, 12, .ro, .l, 0x800⟩
def Fld.ID_CAP3_VECTORS : Fld := ⟨.ID_CAP3, 16, 12, .ro, .l, 0x800⟩
/-! ID_CAP4: R479. -/
def Fld.ID_CAP4_ORDER_DOMAINS : Fld := ⟨.ID_CAP4, 0, 11, .ro, .l, 0x400⟩
def Fld.ID_CAP4_REORDER : Fld := ⟨.ID_CAP4, 16, 13, .ro, .l, 0x1000⟩
/-! ID_CAP5: R479. -/
def Fld.ID_CAP5_NODES : Fld := ⟨.ID_CAP5, 0, 12, .ro, .l, 0xfe0⟩
def Fld.ID_CAP5_ENDPOINTS : Fld := ⟨.ID_CAP5, 16, 5, .ro, .l, 0x10⟩
def Fld.ID_CAP5_CQ_RINGS : Fld := ⟨.ID_CAP5, 24, 8, .ro, .l, 0x10⟩
/-! ID_STRAPS: R479. -/
def Fld.ID_STRAPS_GANG_ID : Fld := ⟨.ID_STRAPS, 0, 3, .ro, .l, 0⟩
/-! ID_SCRATCH: R479. -/
def Fld.ID_SCRATCH_DATA : Fld := ⟨.ID_SCRATCH, 0, 32, .rw, .l, 0⟩
/-! HIF_LINK: R480. -/
def Fld.HIF_LINK_WIDTH : Fld := ⟨.HIF_LINK, 0, 3, .ro, .l, 0⟩
def Fld.HIF_LINK_SPEED : Fld := ⟨.HIF_LINK, 3, 4, .ro, .l, 0⟩
def Fld.HIF_LINK_UP : Fld := ⟨.HIF_LINK, 7, 1, .ro, .l, 0⟩
def Fld.HIF_LINK_LINK_PM : Fld := ⟨.HIF_LINK, 8, 3, .ro, .l, 0⟩
def Fld.HIF_LINK_DSTATE : Fld := ⟨.HIF_LINK, 11, 2, .ro, .l, 0⟩
def Fld.HIF_LINK_MSIX_EN : Fld := ⟨.HIF_LINK, 13, 1, .ro, .l, 0⟩
def Fld.HIF_LINK_FUNC_MASK : Fld := ⟨.HIF_LINK, 14, 1, .ro, .l, 0⟩
def Fld.HIF_LINK_PME_EN : Fld := ⟨.HIF_LINK, 15, 1, .ro, .l, 0⟩
def Fld.HIF_LINK_PASID_EN : Fld := ⟨.HIF_LINK, 16, 1, .ro, .l, 0⟩
/-! HIF_TAGS: R480. -/
def Fld.HIF_TAGS_IN_USE : Fld := ⟨.HIF_TAGS, 0, 11, .ro, .l, 0⟩
def Fld.HIF_TAGS_HWM : Fld := ⟨.HIF_TAGS, 16, 11, .rc, .l, 0⟩
/-! HIF_LTR: R480. -/
def Fld.HIF_LTR_VALUE : Fld := ⟨.HIF_LTR, 0, 10, .rw, .l, 1⟩
def Fld.HIF_LTR_SCALE : Fld := ⟨.HIF_LTR, 10, 3, .rw, .l, 2⟩
/-! HIF_EVENT: R480. -/
def Fld.HIF_EVENT_FLR : Fld := ⟨.HIF_EVENT, 0, 1, .w1c, .l, 0⟩
def Fld.HIF_EVENT_PERST : Fld := ⟨.HIF_EVENT, 1, 1, .w1c, .l, 0⟩
def Fld.HIF_EVENT_SURPRISE_DOWN : Fld := ⟨.HIF_EVENT, 2, 1, .w1c, .l, 0⟩
def Fld.HIF_EVENT_AER_UNCORR : Fld := ⟨.HIF_EVENT, 3, 1, .w1c, .l, 0⟩
def Fld.HIF_EVENT_D3HOT : Fld := ⟨.HIF_EVENT, 4, 1, .w1c, .l, 0⟩
def Fld.HIF_EVENT_BAD_ACCESS : Fld := ⟨.HIF_EVENT, 5, 1, .w1c, .l, 0⟩
/-! HIF_DMA_ERR: R480. -/
def Fld.HIF_DMA_ERR_READ_ERRS : Fld := ⟨.HIF_DMA_ERR, 0, 16, .rc, .l, 0⟩
def Fld.HIF_DMA_ERR_TIMEOUTS : Fld := ⟨.HIF_DMA_ERR, 16, 16, .rc, .l, 0⟩
/-! HIF_BAD_ACCESS: R480. -/
def Fld.HIF_BAD_ACCESS_LAST_OFS : Fld := ⟨.HIF_BAD_ACCESS, 0, 24, .ro, .l, 0⟩
def Fld.HIF_BAD_ACCESS_LAST_BAR2 : Fld := ⟨.HIF_BAD_ACCESS, 24, 1, .ro, .l, 0⟩
def Fld.HIF_BAD_ACCESS_REASON : Fld := ⟨.HIF_BAD_ACCESS, 25, 3, .ro, .l, 0⟩
def Fld.HIF_BAD_ACCESS_COUNT : Fld := ⟨.HIF_BAD_ACCESS, 28, 4, .rc, .l, 0⟩

/-- The fields of a register that are not reserved (R4). -/
def Reg.fields : Reg → List Fld
  | .TRK_CTRL => [.TRK_CTRL_HR_EN, .TRK_CTRL_AUTO_STEP, .TRK_CTRL_DFE_EN, .TRK_CTRL_PRESET_FORCE, .TRK_CTRL_PRESET, .TRK_CTRL_STEP_DOWN]
  | .TRK_STATUS => [.TRK_STATUS_RATE, .TRK_STATUS_BLOCK_LOCK, .TRK_STATUS_TRAINED, .TRK_STATUS_HR_FAILS, .TRK_STATUS_NEAR_PRESET, .TRK_STATUS_FAR_PRESET, .TRK_STATUS_PRESENT, .TRK_STATUS_ACTIVITY, .TRK_STATUS_STEP_PENDING, .TRK_STATUS_FAR_HR_CAP, .TRK_STATUS_FAR_MARGIN_CAP]
  | .TRK_LEDGER_BLK => [.TRK_LEDGER_BLK_COUNT]
  | .TRK_LEDGER_CRC => [.TRK_LEDGER_CRC_COUNT]
  | .TRK_LEDGER_RETRY => [.TRK_LEDGER_RETRY_COUNT]
  | .TRK_EYE => [.TRK_EYE_EYE_H, .TRK_EYE_EYE_V, .TRK_EYE_EYE_H_MIN, .TRK_EYE_EYE_V_MIN]
  | .TRK_THR0 => [.TRK_THR0_BLK_THR, .TRK_THR0_CRC_THR]
  | .TRK_THR1 => [.TRK_THR1_RETRY_THR, .TRK_THR1_EYE_H_THR, .TRK_THR1_EYE_V_THR]
  | .TRK_THR_WIN => [.TRK_THR_WIN_WINDOW]
  | .TRK_LEDGER_CLR => [.TRK_LEDGER_CLR_CLEAR]
  | .TRK_EVENT => [.TRK_EVENT_BLK_X, .TRK_EVENT_CRC_X, .TRK_EVENT_RETRY_X, .TRK_EVENT_EYE_X, .TRK_EVENT_STEPPED_DOWN, .TRK_EVENT_HR_TRAIN_FAIL, .TRK_EVENT_LOCK_LOST]
  | .TRK_PCFG => [.TRK_PCFG_WAKE_EN, .TRK_PCFG_AUTO_ENUM, .TRK_PCFG_RESEAT_WIN]
  | .TRK_PSTATE => [.TRK_PSTATE_STATE, .TRK_PSTATE_ATTACH_LATCH, .TRK_PSTATE_FAULT_CAUSE, .TRK_PSTATE_BR_FAILS, .TRK_PSTATE_REMOTE_WAKE]
  | .TRK_PEVENT => [.TRK_PEVENT_ATTACH, .TRK_PEVENT_DETACH, .TRK_PEVENT_RESET_DONE, .TRK_PEVENT_LINK_FAIL, .TRK_PEVENT_FAULT, .TRK_PEVENT_SUSPENDED, .TRK_PEVENT_RESUMED, .TRK_PEVENT_WAKE, .TRK_PEVENT_ATTACH_IN_FAULT]
  | .TRK_DELAY => [.TRK_DELAY_ONE_WAY, .TRK_DELAY_VALID, .TRK_DELAY_STALE]
  | .TRK_DELAY_STAT => [.TRK_DELAY_STAT_LAST_SEQ, .TRK_DELAY_STAT_VALID_CNT, .TRK_DELAY_STAT_MISSED]
  | .TAPU_COURSE_CFG => [.TAPU_COURSE_CFG_PERIOD]
  | .TAPU_TIME_CTRL => [.TAPU_TIME_CTRL_SOURCE]
  | .TAPU_COURSE_CNT_LO => [.TAPU_COURSE_CNT_LO_COUNT]
  | .TAPU_COURSE_CNT_HI => [.TAPU_COURSE_CNT_HI_COUNT]
  | .TAPU_TIME_LO => [.TAPU_TIME_LO_TIME]
  | .TAPU_TIME_HI => [.TAPU_TIME_HI_TIME]
  | .TAPU_TIME_STATUS => [.TAPU_TIME_STATUS_QUALITY, .TAPU_TIME_STATUS_IN_BOUND, .TAPU_TIME_STATUS_TIME_VALID, .TAPU_TIME_STATUS_STEP_PENDING, .TAPU_TIME_STATUS_SLEWING]
  | .TAPU_RATE => [.TAPU_RATE_RATE]
  | .TAPU_SLEW_CFG => [.TAPU_SLEW_CFG_MAX_PPB]
  | .TAPU_SLEW_LEFT => [.TAPU_SLEW_LEFT_LEFT]
  | .TAPU_UNCERT => [.TAPU_UNCERT_U]
  | .TAPU_HOLD_CFG => [.TAPU_HOLD_CFG_WANDER, .TAPU_HOLD_CFG_LIMIT]
  | .TAPU_LOCK_CFG => [.TAPU_LOCK_CFG_LOCK_THR, .TAPU_LOCK_CFG_LOCK_CNT, .TAPU_LOCK_CFG_TAU]
  | .TAPU_PPS_CFG => [.TAPU_PPS_CFG_IN_EN, .TAPU_PPS_CFG_IN_FALL, .TAPU_PPS_CFG_OUT_EN, .TAPU_PPS_CFG_OUT_WIDTH]
  | .TAPU_PPS_OUT_OFS => [.TAPU_PPS_OUT_OFS_OFS]
  | .TAPU_PPS_STAMP_LO => [.TAPU_PPS_STAMP_LO_STAMP]
  | .TAPU_PPS_STAMP_HI => [.TAPU_PPS_STAMP_HI_STAMP]
  | .TAPU_PPS_STAT => [.TAPU_PPS_STAT_FRAC, .TAPU_PPS_STAT_MISSED]
  | .TAPU_OFFSET => [.TAPU_OFFSET_OFFSET]
  | .TAPU_EVENT => [.TAPU_EVENT_QUALITY_CHG, .TAPU_EVENT_PPS_MISSED, .TAPU_EVENT_STEP_DONE, .TAPU_EVENT_BOUND_EXCEEDED, .TAPU_EVENT_DELAY_STALE, .TAPU_EVENT_RECONSTRUCTED]
  | .PLN_CFG => [.PLN_CFG_POOL_R]
  | .PLN_STATUS => [.PLN_STATUS_ACTIVE_BANK, .PLN_STATUS_SHADOW_READY, .PLN_STATUS_CHANGE_PENDING, .PLN_STATUS_CYCLE_POS]
  | .PLN_SWAP_CNT => [.PLN_SWAP_CNT_COUNT]
  | .PLN_NEXT_SWAP => [.PLN_NEXT_SWAP_COURSE]
  | .PLN_EVENT => [.PLN_EVENT_SWAP_DONE, .PLN_EVENT_SWAP_DEFERRED, .PLN_EVENT_RETRY_DENIED, .PLN_EVENT_NOT_ACCEPTED, .PLN_EVENT_UNDERRUN, .PLN_EVENT_HOST_STALL]
  | .PLN_DENIED_CNT => [.PLN_DENIED_CNT_COUNT]
  | .PLN_NOTACC_CNT => [.PLN_NOTACC_CNT_COUNT]
  | .PLN_UNDERRUN_CNT => [.PLN_UNDERRUN_CNT_COUNT]
  | .PLN_STALL_CNT => [.PLN_STALL_CNT_COUNT]
  | .PLN_TRK_LOAD => [.PLN_TRK_LOAD_MAX_DOWN, .PLN_TRK_LOAD_MAX_UP]
  | .PLN_TRK_CAP => [.PLN_TRK_CAP_CAP, .PLN_TRK_CAP_FLOOR]
  | .TAPU_PACE_CFG => [.TAPU_PACE_CFG_EN, .TAPU_PACE_CFG_KIND, .TAPU_PACE_CFG_SRC, .TAPU_PACE_CFG_REVERSE_DIR, .TAPU_PACE_CFG_INDEX_EN, .TAPU_PACE_CFG_WIN, .TAPU_PACE_CFG_STOP_CYC, .TAPU_PACE_CFG_FILT]
  | .TAPU_PACE_CPR => [.TAPU_PACE_CPR_CPR]
  | .TAPU_PACE_IDX_OFS => [.TAPU_PACE_IDX_OFS_OFS]
  | .TAPU_PACE_AMAX => [.TAPU_PACE_AMAX_AMAX]
  | .TAPU_PACE_RMAX => [.TAPU_PACE_RMAX_RMAX]
  | .TAPU_PACE_HMAX => [.TAPU_PACE_HMAX_HMAX]
  | .TAPU_PACE_POS_LO => [.TAPU_PACE_POS_LO_POS]
  | .TAPU_PACE_POS_HI => [.TAPU_PACE_POS_HI_POS]
  | .TAPU_PACE_STAMP_LO => [.TAPU_PACE_STAMP_LO_STAMP]
  | .TAPU_PACE_STAMP_HI => [.TAPU_PACE_STAMP_HI_STAMP]
  | .TAPU_PACE_RATE => [.TAPU_PACE_RATE_RATE]
  | .TAPU_PACE_ACCEL => [.TAPU_PACE_ACCEL_ACCEL]
  | .TAPU_PACE_ERR => [.TAPU_PACE_ERR_RATE_ERR, .TAPU_PACE_ERR_POS_ERR]
  | .TAPU_PACE_STATUS => [.TAPU_PACE_STATUS_STATE, .TAPU_PACE_STATUS_STOPPED, .TAPU_PACE_STATUS_REVERSING, .TAPU_PACE_STATUS_INDEX_SEEN, .TAPU_PACE_STATUS_EDGES]
  | .TAPU_PACE_EVENT => [.TAPU_PACE_EVENT_STARTED, .TAPU_PACE_EVENT_STOPPED, .TAPU_PACE_EVENT_REVERSED, .TAPU_PACE_EVENT_OVERRATE, .TAPU_PACE_EVENT_ACCEL_EXCEEDED, .TAPU_PACE_EVENT_INDEX_ERR, .TAPU_PACE_EVENT_QUAD_ERR, .TAPU_PACE_EVENT_SOURCE_LOST]
  | .TAPU_ENC_CNT => [.TAPU_ENC_CNT_COUNT]
  | .TAPU_ENC_ERR => [.TAPU_ENC_ERR_QUAD_ERRS, .TAPU_ENC_ERR_INDEX_ERRS]
  | .INST_FLOW_DB => [.INST_FLOW_DB_FLOW, .INST_FLOW_DB_PROD]
  | .INST_DB_ERR => [.INST_DB_ERR_LAST_FLOW, .INST_DB_ERR_LAST_REASON, .INST_DB_ERR_COUNT]
  | .INST_CQ_BASE_LO => [.INST_CQ_BASE_LO_BASE]
  | .INST_CQ_BASE_HI => [.INST_CQ_BASE_HI_BASE]
  | .INST_CQ_CFG => [.INST_CQ_CFG_ENABLE, .INST_CQ_CFG_SIZE, .INST_CQ_CFG_EVERY, .INST_CQ_CFG_ERR_SIG, .INST_CQ_CFG_SRC]
  | .INST_CQ_CONS => [.INST_CQ_CONS_CONS]
  | .INST_CQ_STATUS => [.INST_CQ_STATUS_WRITE, .INST_CQ_STATUS_PHASE, .INST_CQ_STATUS_FULL, .INST_CQ_STATUS_STALLING, .INST_CQ_STATUS_CONS_ERR]
  | .DSP_CFG => [.DSP_CFG_AGE, .DSP_CFG_ORD_LIMIT]
  | .DSP_STATUS => [.DSP_STATUS_READY, .DSP_STATUS_DELAYED]
  | .DSP_DECISIONS_LO => [.DSP_DECISIONS_LO_COUNT]
  | .DSP_DECISIONS_HI => [.DSP_DECISIONS_HI_COUNT]
  | .DSP_LOST_READY_CNT => [.DSP_LOST_READY_CNT_COUNT]
  | .DSP_ORD_USE => [.DSP_ORD_USE_IN_USE, .DSP_ORD_USE_RESERVED]
  | .DSP_ORD_HWM => [.DSP_ORD_HWM_HWM]
  | .DSP_DELAY_STAT => [.DSP_DELAY_STAT_INS_MAX, .DSP_DELAY_STAT_CLAMPS]
  | .DSP_TASK_SEL => [.DSP_TASK_SEL_TASK]
  | .DSP_TASK_VIEW => [.DSP_TASK_VIEW_FLAGS, .DSP_TASK_VIEW_MASK, .DSP_TASK_VIEW_STATE, .DSP_TASK_VIEW_CANCEL_PENDING, .DSP_TASK_VIEW_DELAY_ARMED, .DSP_TASK_VIEW_LIST, .DSP_TASK_VIEW_PRIORITY]
  | .DSP_TASK_DEADLINE => [.DSP_TASK_DEADLINE_TICK]
  | .DSP_EVENT => [.DSP_EVENT_LOST_READY, .DSP_EVENT_ORD_LIMIT_HIT, .DSP_EVENT_HORIZON_CLAMP, .DSP_EVENT_AGED]
  | .DSP_TRK_READY => [.DSP_TRK_READY_READY, .DSP_TRK_READY_UNRESOLVED]
  | .TRC_CTRL => [.TRC_CTRL_EN, .TRC_CTRL_DEST, .TRC_CTRL_STOP_FULL, .TRC_CTRL_EVENTS]
  | .TRC_FILT_INST => [.TRC_FILT_INST_INST, .TRC_FILT_INST_ALL]
  | .TRC_FILT_TRUNK => [.TRC_FILT_TRUNK_TRUNKS, .TRC_FILT_TRUNK_NO_TRUNK]
  | .TRC_FILT_CLASS => [.TRC_FILT_CLASS_SCHED, .TRC_FILT_CLASS_CONTROL, .TRC_FILT_CLASS_BULK_OUT, .TRC_FILT_CLASS_BULK_IN, .TRC_FILT_CLASS_FIRMWARE]
  | .TRC_RING_BASE_LO => [.TRC_RING_BASE_LO_BASE]
  | .TRC_RING_BASE_HI => [.TRC_RING_BASE_HI_BASE]
  | .TRC_RING_CFG => [.TRC_RING_CFG_SIZE]
  | .TRC_RING_PROD => [.TRC_RING_PROD_PROD]
  | .TRC_RING_CONS => [.TRC_RING_CONS_CONS]
  | .TRC_DROP => [.TRC_DROP_COUNT]
  | .TRC_BUF_STAT => [.TRC_BUF_STAT_COUNT, .TRC_BUF_STAT_FULL]
  | .TRC_BUF_LO => [.TRC_BUF_LO_W0_LO]
  | .TRC_BUF_MID => [.TRC_BUF_MID_W0_HI, .TRC_BUF_MID_W1_LO]
  | .TRC_BUF_HI => [.TRC_BUF_HI_W1_HI, .TRC_BUF_HI_EMPTY]
  | .ENG_ESC => [.ENG_ESC_F, .ENG_ESC_W, .ENG_ESC_K]
  | .ENG_STOP_CFG => [.ENG_STOP_CFG_PIN_EN, .ENG_STOP_CFG_GANG_EN]
  | .ENG_STOP_CMD => [.ENG_STOP_CMD_TRIGGER]
  | .ENG_STOP_STATUS => [.ENG_STOP_STATUS_STOPPED, .ENG_STOP_STATUS_REASON, .ENG_STOP_STATUS_PIN_LOW, .ENG_STOP_STATUS_ACTIVE]
  | .ENG_STOP_TIME_LO => [.ENG_STOP_TIME_LO_TIME]
  | .ENG_STOP_TIME_HI => [.ENG_STOP_TIME_HI_TIME]
  | .ENG_STOP_CNT => [.ENG_STOP_CNT_COUNT]
  | .ENG_EVENT => [.ENG_EVENT_STOP, .ENG_EVENT_FLOW_ESCALATED, .ENG_EVENT_LINK_SUSPECT, .ENG_EVENT_TOGGLE_UNKNOWN, .ENG_EVENT_BULK_LASTING]
  | .ENG_SUSPECT => [.ENG_SUSPECT_TRUNK, .ENG_SUSPECT_ROUTE, .ENG_SUSPECT_DEPTH, .ENG_SUSPECT_VALID, .ENG_SUSPECT_COUNT]
  | .ENG_TRK_FAULT => [.ENG_TRK_FAULT_TRANSIENT, .ENG_TRK_FAULT_LASTING]
  | .ENG_STATUS => [.ENG_STATUS_SCHED_HAND, .ENG_STATUS_UNSCHED_HAND, .ENG_STATUS_AWAKE, .ENG_STATUS_EXPECT]
  | .ENG_TXQ => [.ENG_TXQ_SCHED, .ENG_TXQ_UNSCHED, .ENG_TXQ_HWM]
  | .INST_MB_CMD_BASE_LO => [.INST_MB_CMD_BASE_LO_BASE]
  | .INST_MB_CMD_BASE_HI => [.INST_MB_CMD_BASE_HI_BASE]
  | .INST_MB_CPL_BASE_LO => [.INST_MB_CPL_BASE_LO_BASE]
  | .INST_MB_CPL_BASE_HI => [.INST_MB_CPL_BASE_HI_BASE]
  | .INST_MB_CFG => [.INST_MB_CFG_ENABLE, .INST_MB_CFG_CMD_SIZE, .INST_MB_CFG_CPL_SIZE, .INST_MB_CFG_EVERY, .INST_MB_CFG_SRC]
  | .INST_MB_DB => [.INST_MB_DB_PROD]
  | .INST_MB_CPL_CONS => [.INST_MB_CPL_CONS_CONS]
  | .INST_MB_STATUS => [.INST_MB_STATUS_FETCH, .INST_MB_STATUS_PHASE, .INST_MB_STATUS_EXEC, .INST_MB_STATUS_FULL, .INST_MB_STATUS_EVENT_LOST, .INST_MB_STATUS_DB_ERR, .INST_MB_STATUS_CONS_ERR, .INST_MB_STATUS_ABORTED, .INST_MB_STATUS_FETCH_ERR]
  | .INST_MB_CPL_WRITE => [.INST_MB_CPL_WRITE_WRITE]
  | .INST_MB_EVENT_LOST => [.INST_MB_EVENT_LOST_COUNT]
  | .INST_INFO => [.INST_INFO_INSTANCE, .INST_INFO_STATE, .INST_INFO_QUIESCENT]
  | .INST_EPOCH => [.INST_EPOCH_EPOCH]
  | .INST_STALL_CFG => [.INST_STALL_CFG_EN, .INST_STALL_CFG_SRC]
  | .INST_STALL_STATUS => [.INST_STALL_STATUS_OPEN, .INST_STALL_STATUS_CREDIT, .INST_STALL_STATUS_RING, .INST_STALL_STATUS_LINK]
  | .INST_STALL_CNT => [.INST_STALL_CNT_COUNT]
  | .INST_STALL_OPEN_LO => [.INST_STALL_OPEN_LO_TIME]
  | .INST_STALL_OPEN_HI => [.INST_STALL_OPEN_HI_TIME]
  | .INST_STALL_CLOSE_LO => [.INST_STALL_CLOSE_LO_TIME]
  | .INST_STALL_CLOSE_HI => [.INST_STALL_CLOSE_HI_TIME]
  | .INST_REVOKE_STAT => [.INST_REVOKE_STAT_FLOWS, .INST_REVOKE_STAT_DESCS]
  | .INST_FREEZE_COURSE => [.INST_FREEZE_COURSE_COURSE]
  | .INST_REVOKE_LOG => [.INST_REVOKE_LOG_FLOW, .INST_REVOKE_LOG_VALID]
  | .INST_MGR_CFG => [.INST_MGR_CFG_PASID, .INST_MGR_CFG_PASID_EN]
  | .INST_POOL_CTX => [.INST_POOL_CTX_FREE]
  | .INST_POOL_STAGE => [.INST_POOL_STAGE_FREE]
  | .INST_POOL_SIG => [.INST_POOL_SIG_BLOCKS, .INST_POOL_SIG_VECTORS]
  | .INST_POOL_INST => [.INST_POOL_INST_FREE]
  | .INST_POOL_SLOT => [.INST_POOL_SLOT_FREE, .INST_POOL_SLOT_POOL]
  | .INST_SEL => [.INST_SEL_INSTANCE]
  | .INST_VIEW => [.INST_VIEW_STATE, .INST_VIEW_QUIESCENT, .INST_VIEW_STALL_OPEN, .INST_VIEW_PASID]
  | .INST_VIEW_EPOCH => [.INST_VIEW_EPOCH_EPOCH]
  | .INST_EVENT => [.INST_EVENT_RESET_DONE, .INST_EVENT_FROZEN, .INST_EVENT_QUIESCENT, .INST_EVENT_THAWED, .INST_EVENT_SHARE_FORCED]
  | .PSIG_RAISE => [.PSIG_RAISE_SOURCE]
  | .PSIG_PEND_SET => [.PSIG_PEND_SET_SOURCE]
  | .PSIG_PEND_CLR => [.PSIG_PEND_CLR_SOURCE]
  | .PSIG_MASK_SET => [.PSIG_MASK_SET_SOURCE]
  | .PSIG_MASK_CLR => [.PSIG_MASK_CLR_SOURCE]
  | .PSIG_SRC_SEL => [.PSIG_SRC_SEL_SOURCE]
  | .PSIG_SRC_CFG => [.PSIG_SRC_CFG_CLASS, .PSIG_SRC_CFG_WAKE, .PSIG_SRC_CFG_KIND, .PSIG_SRC_CFG_GROUP, .PSIG_SRC_CFG_VBLOCK, .PSIG_SRC_CFG_VMASK, .PSIG_SRC_CFG_CORES]
  | .PSIG_PRIO => [.PSIG_PRIO_VECTOR, .PSIG_PRIO_PRIO]
  | .PSIG_VEC_SEL => [.PSIG_VEC_SEL_VECTOR]
  | .PSIG_VEC_VIEW => [.PSIG_VEC_VIEW_PRIO, .PSIG_VEC_VIEW_HELD]
  | .PSIG_ERR => [.PSIG_ERR_LAST_SRC, .PSIG_ERR_REASON, .PSIG_ERR_COUNT]
  | .PSIG_PEND => [.PSIG_PEND_PEND]
  | .PSIG_MASK => [.PSIG_MASK_MASK]
  | .SIG_RAISE => [.SIG_RAISE_SOURCE]
  | .SIG_PEND_SET => [.SIG_PEND_SET_SOURCE]
  | .SIG_PEND_CLR => [.SIG_PEND_CLR_SOURCE]
  | .SIG_MASK_SET => [.SIG_MASK_SET_SOURCE]
  | .SIG_MASK_CLR => [.SIG_MASK_CLR_SOURCE]
  | .SIG_SRC_SEL => [.SIG_SRC_SEL_SOURCE]
  | .SIG_SRC_CFG => [.SIG_SRC_CFG_CLASS, .SIG_SRC_CFG_WAKE, .SIG_SRC_CFG_KIND, .SIG_SRC_CFG_GROUP, .SIG_SRC_CFG_VBLOCK, .SIG_SRC_CFG_VMASK, .SIG_SRC_CFG_CORES]
  | .SIG_SRC_CTL => [.SIG_SRC_CTL_STOP, .SIG_SRC_CTL_STOP_LATCH, .SIG_SRC_CTL_PENDING, .SIG_SRC_CTL_MASKED, .SIG_SRC_CTL_OWNER, .SIG_SRC_CTL_LAST]
  | .SIG_STATUS => [.SIG_STATUS_HOST_READY, .SIG_STATUS_HELD_ANY]
  | .SIG_DELIVER_CNT => [.SIG_DELIVER_CNT_COUNT]
  | .SIG_COALESCE_CNT => [.SIG_COALESCE_CNT_COUNT]
  | .SIG_ERR => [.SIG_ERR_LAST_SRC, .SIG_ERR_REASON, .SIG_ERR_COUNT]
  | .SIG_CORE => [.SIG_CORE_PRIO, .SIG_CORE_SLEEP, .SIG_CORE_FAST_BUSY, .SIG_CORE_IN_FLIGHT]
  | .SIG_VEC_SEL => [.SIG_VEC_SEL_VECTOR]
  | .SIG_VEC_VIEW => [.SIG_VEC_VIEW_PRIO, .SIG_VEC_VIEW_HELD, .SIG_VEC_VIEW_OWNER]
  | .SIG_GRP_HOLDOFF => [.SIG_GRP_HOLDOFF_HOLDOFF]
  | .SIG_PEND => [.SIG_PEND_PEND]
  | .SIG_MASK => [.SIG_MASK_MASK]
  | .GANG_CFG => [.GANG_CFG_GTAU, .GANG_CFG_RWAKE_EN]
  | .GANG_STATE => [.GANG_STATE_GANG_ID, .GANG_STATE_ROLE, .GANG_STATE_STATE, .GANG_STATE_SIZE, .GANG_STATE_HOP, .GANG_STATE_RIDGE_ALLOWED, .GANG_STATE_CONFIGURED, .GANG_STATE_JOINED, .GANG_STATE_EFF_MINOR]
  | .GANG_DIGEST => [.GANG_DIGEST_DIGEST]
  | .GANG_RIDGE_DIGEST => [.GANG_RIDGE_DIGEST_DIGEST]
  | .GANG_OFFSET => [.GANG_OFFSET_OFFSET]
  | .GANG_MEMBERS => [.GANG_MEMBERS_PRESENT, .GANG_MEMBERS_LOCKED, .GANG_MEMBERS_MISMATCH]
  | .GANG_LEASE => [.GANG_LEASE_MISSED, .GANG_LEASE_LOST_CNT]
  | .GANG_XCHG => [.GANG_XCHG_STATUS, .GANG_XCHG_ABORTS]
  | .GANG_PACE_STAT => [.GANG_PACE_STAT_VALID, .GANG_PACE_STAT_BAD_RECORDS]
  | .GANG_OFS_STAT => [.GANG_OFS_STAT_WARN, .GANG_OFS_STAT_UNQUAL]
  | .GANG_MAP_LO => [.GANG_MAP_LO_MAP]
  | .GANG_MAP_HI => [.GANG_MAP_HI_MAP]
  | .GANG_EVENT => [.GANG_EVENT_LOCKED, .GANG_EVENT_MISMATCH, .GANG_EVENT_TIME_UNQUAL, .GANG_EVENT_LEASE_LOST, .GANG_EVENT_MEMBER_CHG, .GANG_EVENT_EXCHANGE_ABORTED, .GANG_EVENT_REMOTE_WAKE, .GANG_EVENT_TWO_RIDGES, .GANG_EVENT_LOCK_LOST]
  | .PMU_MODE => [.PMU_MODE_MODE, .PMU_MODE_TARGET, .PMU_MODE_CHANGING]
  | .PMU_CFG => [.PMU_CFG_DEFER_MAX, .PMU_CFG_SCRUB_PER, .PMU_CFG_BANK_IDLE]
  | .PMU_DOM_POLICY => [.PMU_DOM_POLICY_POLICY]
  | .PMU_DOM_STATE => [.PMU_DOM_STATE_STATE]
  | .PMU_WAKE_EN => [.PMU_WAKE_EN_EN]
  | .PMU_WAKE_SETUP => [.PMU_WAKE_SETUP_SETUP]
  | .PMU_WAKE_STAT => [.PMU_WAKE_STAT_CAUSE]
  | .PMU_AO_CNT_LO => [.PMU_AO_CNT_LO_COUNT]
  | .PMU_AO_CNT_HI => [.PMU_AO_CNT_HI_COUNT]
  | .PMU_TIMER_LO => [.PMU_TIMER_LO_CMP]
  | .PMU_TIMER_HI => [.PMU_TIMER_HI_CMP, .PMU_TIMER_HI_ARM]
  | .PMU_DENY => [.PMU_DENY_DOMAIN, .PMU_DENY_BLOCK, .PMU_DENY_REASON, .PMU_DENY_COUNT]
  | .PMU_WINDOW_CNT => [.PMU_WINDOW_CNT_COUNT]
  | .PMU_STALL_CNT => [.PMU_STALL_CNT_COUNT]
  | .PMU_EVENT => [.PMU_EVENT_MODE_CHANGED, .PMU_EVENT_WOKEN, .PMU_EVENT_DENIED, .PMU_EVENT_BANK_LOST, .PMU_EVENT_ARRAY_LOST, .PMU_EVENT_PREWAKE_LATE, .PMU_EVENT_PACE_LEVEL, .PMU_EVENT_PME_SENT]
  | .PMU_BANK_STATE => [.PMU_BANK_STATE_STATE]
  | .PMU_BANK_LOST_LO => [.PMU_BANK_LOST_LO_LOST]
  | .PMU_BANK_LOST_HI => [.PMU_BANK_LOST_HI_LOST]
  | .PMU_ARRAY_LOST => [.PMU_ARRAY_LOST_LOST]
  | .PMU_LOST_CNT => [.PMU_LOST_CNT_BANKS, .PMU_LOST_CNT_ARRAYS]
  | .PPM_LIMIT => [.PPM_LIMIT_ILIM, .PPM_LIMIT_FTRIP]
  | .PPM_TIMERS => [.PPM_TIMERS_FAULT_MS, .PPM_TIMERS_RETRY_S, .PPM_TIMERS_RETRY_LIM, .PPM_TIMERS_RAMP_TMO]
  | .PPM_RAMP => [.PPM_RAMP_SLOPE, .PPM_RAMP_PG_THR]
  | .PPM_SCALE => [.PPM_SCALE_I_FS, .PPM_SCALE_V_FS]
  | .PPM_STATUS => [.PPM_STATUS_STATE, .PPM_STATUS_CAUSE, .PPM_STATUS_GEN, .PPM_STATUS_PG, .PPM_STATUS_BLANKED, .PPM_STATUS_RETRIES]
  | .PPM_MEAS => [.PPM_MEAS_I, .PPM_MEAS_V]
  | .PPM_PEAK => [.PPM_PEAK_IPEAK, .PPM_PEAK_TRIPS]
  | .PPM_PEVENT => [.PPM_PEVENT_RAMP_DONE, .PPM_PEVENT_LIMIT_START, .PPM_PEVENT_LIMIT_END, .PPM_PEVENT_OVERCURRENT, .PPM_PEVENT_FAST_TRIP, .PPM_PEVENT_RAMP_TIMEOUT, .PPM_PEVENT_RETRY, .PPM_PEVENT_LOCKOUT, .PPM_PEVENT_FEED_LOST, .PPM_PEVENT_VSAG]
  | .PPM_GRP_CFG => [.PPM_GRP_CFG_DEAD, .PPM_GRP_CFG_RETURN_S]
  | .PPM_FEED_CFG => [.PPM_FEED_CFG_UV, .PPM_FEED_CFG_V_FS]
  | .PPM_FEED_STATUS => [.PPM_FEED_STATUS_SEL, .PPM_FEED_STATUS_A_GOOD, .PPM_FEED_STATUS_B_GOOD, .PPM_FEED_STATUS_A_EN, .PPM_FEED_STATUS_B_EN, .PPM_FEED_STATUS_SWITCHED_TO_B, .PPM_FEED_STATUS_RETURNED_TO_A, .PPM_FEED_STATUS_A_LOST, .PPM_FEED_STATUS_B_LOST, .PPM_FEED_STATUS_BOTH_LOST]
  | .PPM_FEED_V => [.PPM_FEED_V_VA, .PPM_FEED_V_VB]
  | .PPM_POWER => [.PPM_POWER_P]
  | .PPM_ENERGY_LO => [.PPM_ENERGY_LO_E]
  | .PPM_ENERGY_HI => [.PPM_ENERGY_HI_E]
  | .PPM_GSTATUS => [.PPM_GSTATUS_OSC_RUN, .PPM_GSTATUS_PORTS_ON]
  | .PPM_ECLR => [.PPM_ECLR_CLEAR]
  | .BOOT_STATUS => [.BOOT_STATUS_KIND, .BOOT_STATUS_RUNNING, .BOOT_STATUS_PRIMARY, .BOOT_STATUS_FELL_BACK, .BOOT_STATUS_IMAGE_RETAINED, .BOOT_STATUS_LINK_RETAINED, .BOOT_STATUS_DEBUG_UNLOCKED, .BOOT_STATUS_COMMIT_PENDING, .BOOT_STATUS_HEALTHY]
  | .BOOT_ATTEMPTS => [.BOOT_ATTEMPTS_WARM_FAILS, .BOOT_ATTEMPTS_COLD_FAILS, .BOOT_ATTEMPTS_COLD_SLOT, .BOOT_ATTEMPTS_STARTS]
  | .BOOT_FAIL => [.BOOT_FAIL_STEP, .BOOT_FAIL_CODE, .BOOT_FAIL_COUNT]
  | .BOOT_IMG_A => [.BOOT_IMG_A_PATCH, .BOOT_IMG_A_MINOR, .BOOT_IMG_A_MAJOR, .BOOT_IMG_A_ROLLBACK, .BOOT_IMG_A_VALID]
  | .BOOT_IMG_B => [.BOOT_IMG_B_PATCH, .BOOT_IMG_B_MINOR, .BOOT_IMG_B_MAJOR, .BOOT_IMG_B_ROLLBACK, .BOOT_IMG_B_VALID]
  | .BOOT_CTRL => [.BOOT_CTRL_KEY, .BOOT_CTRL_WARM]
  | .BOOT_OTP_SEL => [.BOOT_OTP_SEL_WORD]
  | .BOOT_OTP_DATA => [.BOOT_OTP_DATA_DATA]
  | .BOOT_ROLLBACK => [.BOOT_ROLLBACK_LEVEL]
  | .ERR_SEL => [.ERR_SEL_CATEGORY]
  | .ERR_REC_TIME_LO => [.ERR_REC_TIME_LO_TIME]
  | .ERR_REC_TIME_HI => [.ERR_REC_TIME_HI_TIME]
  | .ERR_REC_CODE => [.ERR_REC_CODE_CODE, .ERR_REC_CODE_SOURCE, .ERR_REC_CODE_SEQ]
  | .ERR_REC_FLAGS => [.ERR_REC_FLAGS_FLAGS, .ERR_REC_FLAGS_COUNT]
  | .ERR_REC_DETAIL => [.ERR_REC_DETAIL_DETAIL]
  | .ERR_STATUS => [.ERR_STATUS_VALID, .ERR_STATUS_OVERFLOW, .ERR_STATUS_FATAL]
  | .ERR_ACK => [.ERR_ACK_CATEGORY, .ERR_ACK_SEQ]
  | .ERR_FATAL => [.ERR_FATAL_CATEGORY, .ERR_FATAL_CAUSE, .ERR_FATAL_VALID, .ERR_FATAL_SEQ, .ERR_FATAL_COUNT]
  | .ERR_FATAL_ACK => [.ERR_FATAL_ACK_SEQ]
  | .ERR_CE_CNT => [.ERR_CE_CNT_COUNT]
  | .ERR_TOTAL => [.ERR_TOTAL_COUNT]
  | .PTB_CFG => [.PTB_CFG_RUN_ENABLE, .PTB_CFG_ABSENT]
  | .PTB_ACTIVE => [.PTB_ACTIVE_ANY, .PTB_ACTIVE_CONTROLS]
  | .PTB_ENG_DELAY => [.PTB_ENG_DELAY_CCLK, .PTB_ENG_DELAY_ENGINES]
  | .PTB_THROTTLE => [.PTB_THROTTLE_INDEX, .PTB_THROTTLE_DEPTH, .PTB_THROTTLE_ON]
  | .PTB_BLKERR_CFG => [.PTB_BLKERR_CFG_LINK, .PTB_BLKERR_CFG_TRANSMIT, .PTB_BLKERR_CFG_ON]
  | .PTB_BLKERR_N => [.PTB_BLKERR_N_N]
  | .PTB_BLKERR_CNT => [.PTB_BLKERR_CNT_COUNT]
  | .PTB_SILENCE => [.PTB_SILENCE_CONTEXT, .PTB_SILENCE_MODE, .PTB_SILENCE_PERIOD]
  | .PTB_SILENCE_CNT => [.PTB_SILENCE_CNT_COUNT]
  | .PTB_SFD_CFG => [.PTB_SFD_CFG_INSTANCE, .PTB_SFD_CFG_ALL, .PTB_SFD_CFG_ON]
  | .PTB_SFD_NS => [.PTB_SFD_NS_NS]
  | .PTB_WAKE_EXT => [.PTB_WAKE_EXT_DOMAINS, .PTB_WAKE_EXT_EXT]
  | .PTB_ON_TIME_LO => [.PTB_ON_TIME_LO_TIME]
  | .PTB_ON_TIME_HI => [.PTB_ON_TIME_HI_TIME]
  | .PTB_OFF_TIME_LO => [.PTB_OFF_TIME_LO_TIME]
  | .PTB_OFF_TIME_HI => [.PTB_OFF_TIME_HI_TIME]
  | .ID_DEVICE => [.ID_DEVICE_DEVICE, .ID_DEVICE_REVISION]
  | .ID_UNIQUE_LO => [.ID_UNIQUE_LO_ID]
  | .ID_UNIQUE_HI => [.ID_UNIQUE_HI_ID]
  | .ID_FW_VERSION => [.ID_FW_VERSION_PATCH, .ID_FW_VERSION_MINOR, .ID_FW_VERSION_MAJOR]
  | .ID_CMDSET => [.ID_CMDSET_MINOR, .ID_CMDSET_MAJOR, .ID_CMDSET_EFF_MINOR]
  | .ID_SKU => [.ID_SKU_PTB_DISABLE, .ID_SKU_GANG_ALLOWED, .ID_SKU_MAX_INSTANCES, .ID_SKU_KEY0_REVOKED, .ID_SKU_PTB_RUN_ENABLE]
  | .ID_CAP0 => [.ID_CAP0_TRUNKS, .ID_CAP0_GANG_PORTS, .ID_CAP0_HUB_TIERS, .ID_CAP0_ENGINES, .ID_CAP0_ESTIMATORS, .ID_CAP0_PACE_INPUTS]
  | .ID_CAP1 => [.ID_CAP1_FLOW_CONTEXTS, .ID_CAP1_INSTANCES]
  | .ID_CAP2 => [.ID_CAP2_STAGE_LOG2, .ID_CAP2_PLAN_LOG2, .ID_CAP2_STAGE_BANKS]
  | .ID_CAP3 => [.ID_CAP3_SOURCES, .ID_CAP3_VECTORS]
  | .ID_CAP4 => [.ID_CAP4_ORDER_DOMAINS, .ID_CAP4_REORDER]
  | .ID_CAP5 => [.ID_CAP5_NODES, .ID_CAP5_ENDPOINTS, .ID_CAP5_CQ_RINGS]
  | .ID_STRAPS => [.ID_STRAPS_GANG_ID]
  | .ID_SCRATCH => [.ID_SCRATCH_DATA]
  | .HIF_LINK => [.HIF_LINK_WIDTH, .HIF_LINK_SPEED, .HIF_LINK_UP, .HIF_LINK_LINK_PM, .HIF_LINK_DSTATE, .HIF_LINK_MSIX_EN, .HIF_LINK_FUNC_MASK, .HIF_LINK_PME_EN, .HIF_LINK_PASID_EN]
  | .HIF_TAGS => [.HIF_TAGS_IN_USE, .HIF_TAGS_HWM]
  | .HIF_LTR => [.HIF_LTR_VALUE, .HIF_LTR_SCALE]
  | .HIF_EVENT => [.HIF_EVENT_FLR, .HIF_EVENT_PERST, .HIF_EVENT_SURPRISE_DOWN, .HIF_EVENT_AER_UNCORR, .HIF_EVENT_D3HOT, .HIF_EVENT_BAD_ACCESS]
  | .HIF_DMA_ERR => [.HIF_DMA_ERR_READ_ERRS, .HIF_DMA_ERR_TIMEOUTS]
  | .HIF_BAD_ACCESS => [.HIF_BAD_ACCESS_LAST_OFS, .HIF_BAD_ACCESS_LAST_BAR2, .HIF_BAD_ACCESS_REASON, .HIF_BAD_ACCESS_COUNT]

/-- Where a register sits: in BAR0, or in every instance page of BAR2 (R467, R468). -/
inductive Space where
  | bar0 | page
deriving DecidableEq, Repr

/-- The place of a register: the offset of its first copy, and the stride and number of its copies (R481). The trunk layouts have
18 copies: trunks 0-15, then GA and GB, which sit in the gang block (R388). -/
structure Place where
  space : Space
  base : Nat
  stride : Nat
  count : Nat
deriving DecidableEq, Repr

def Reg.place : Reg → Place
  | .TRK_CTRL => ⟨.bar0, 0x8000, 0x100, 18⟩
  | .TRK_STATUS => ⟨.bar0, 0x8004, 0x100, 18⟩
  | .TRK_LEDGER_BLK => ⟨.bar0, 0x8008, 0x100, 18⟩
  | .TRK_LEDGER_CRC => ⟨.bar0, 0x800C, 0x100, 18⟩
  | .TRK_LEDGER_RETRY => ⟨.bar0, 0x8010, 0x100, 18⟩
  | .TRK_EYE => ⟨.bar0, 0x8014, 0x100, 18⟩
  | .TRK_THR0 => ⟨.bar0, 0x8018, 0x100, 18⟩
  | .TRK_THR1 => ⟨.bar0, 0x801C, 0x100, 18⟩
  | .TRK_THR_WIN => ⟨.bar0, 0x8020, 0x100, 18⟩
  | .TRK_LEDGER_CLR => ⟨.bar0, 0x8028, 0x100, 18⟩
  | .TRK_EVENT => ⟨.bar0, 0x8024, 0x100, 18⟩
  | .TRK_PCFG => ⟨.bar0, 0x802C, 0x100, 18⟩
  | .TRK_PSTATE => ⟨.bar0, 0x8030, 0x100, 18⟩
  | .TRK_PEVENT => ⟨.bar0, 0x8034, 0x100, 18⟩
  | .TRK_DELAY => ⟨.bar0, 0x8038, 0x100, 18⟩
  | .TRK_DELAY_STAT => ⟨.bar0, 0x803C, 0x100, 18⟩
  | .TAPU_COURSE_CFG => ⟨.bar0, 0x7000, 0x0, 1⟩
  | .TAPU_TIME_CTRL => ⟨.bar0, 0x7004, 0x0, 1⟩
  | .TAPU_COURSE_CNT_LO => ⟨.bar0, 0x7008, 0x0, 1⟩
  | .TAPU_COURSE_CNT_HI => ⟨.bar0, 0x700C, 0x0, 1⟩
  | .TAPU_TIME_LO => ⟨.bar0, 0x7010, 0x0, 1⟩
  | .TAPU_TIME_HI => ⟨.bar0, 0x7014, 0x0, 1⟩
  | .TAPU_TIME_STATUS => ⟨.bar0, 0x7018, 0x0, 1⟩
  | .TAPU_RATE => ⟨.bar0, 0x701C, 0x0, 1⟩
  | .TAPU_SLEW_CFG => ⟨.bar0, 0x7024, 0x0, 1⟩
  | .TAPU_SLEW_LEFT => ⟨.bar0, 0x7028, 0x0, 1⟩
  | .TAPU_UNCERT => ⟨.bar0, 0x702C, 0x0, 1⟩
  | .TAPU_HOLD_CFG => ⟨.bar0, 0x7030, 0x0, 1⟩
  | .TAPU_LOCK_CFG => ⟨.bar0, 0x7034, 0x0, 1⟩
  | .TAPU_PPS_CFG => ⟨.bar0, 0x7038, 0x0, 1⟩
  | .TAPU_PPS_OUT_OFS => ⟨.bar0, 0x703C, 0x0, 1⟩
  | .TAPU_PPS_STAMP_LO => ⟨.bar0, 0x7040, 0x0, 1⟩
  | .TAPU_PPS_STAMP_HI => ⟨.bar0, 0x7044, 0x0, 1⟩
  | .TAPU_PPS_STAT => ⟨.bar0, 0x7048, 0x0, 1⟩
  | .TAPU_OFFSET => ⟨.bar0, 0x704C, 0x0, 1⟩
  | .TAPU_EVENT => ⟨.bar0, 0x7050, 0x0, 1⟩
  | .PLN_CFG => ⟨.bar0, 0x4000, 0x0, 1⟩
  | .PLN_STATUS => ⟨.bar0, 0x4004, 0x0, 1⟩
  | .PLN_SWAP_CNT => ⟨.bar0, 0x4008, 0x0, 1⟩
  | .PLN_NEXT_SWAP => ⟨.bar0, 0x400C, 0x0, 1⟩
  | .PLN_EVENT => ⟨.bar0, 0x4010, 0x0, 1⟩
  | .PLN_DENIED_CNT => ⟨.bar0, 0x4014, 0x0, 1⟩
  | .PLN_NOTACC_CNT => ⟨.bar0, 0x4018, 0x0, 1⟩
  | .PLN_UNDERRUN_CNT => ⟨.bar0, 0x401C, 0x0, 1⟩
  | .PLN_STALL_CNT => ⟨.bar0, 0x4020, 0x0, 1⟩
  | .PLN_TRK_LOAD => ⟨.bar0, 0x4040, 0x4, 16⟩
  | .PLN_TRK_CAP => ⟨.bar0, 0x4080, 0x4, 16⟩
  | .TAPU_PACE_CFG => ⟨.bar0, 0x7100, 0x40, 8⟩
  | .TAPU_PACE_CPR => ⟨.bar0, 0x7104, 0x40, 8⟩
  | .TAPU_PACE_IDX_OFS => ⟨.bar0, 0x7108, 0x40, 8⟩
  | .TAPU_PACE_AMAX => ⟨.bar0, 0x710C, 0x40, 8⟩
  | .TAPU_PACE_RMAX => ⟨.bar0, 0x7110, 0x40, 8⟩
  | .TAPU_PACE_HMAX => ⟨.bar0, 0x7114, 0x40, 8⟩
  | .TAPU_PACE_POS_LO => ⟨.bar0, 0x7118, 0x40, 8⟩
  | .TAPU_PACE_POS_HI => ⟨.bar0, 0x711C, 0x40, 8⟩
  | .TAPU_PACE_STAMP_LO => ⟨.bar0, 0x7120, 0x40, 8⟩
  | .TAPU_PACE_STAMP_HI => ⟨.bar0, 0x7124, 0x40, 8⟩
  | .TAPU_PACE_RATE => ⟨.bar0, 0x7128, 0x40, 8⟩
  | .TAPU_PACE_ACCEL => ⟨.bar0, 0x712C, 0x40, 8⟩
  | .TAPU_PACE_ERR => ⟨.bar0, 0x7130, 0x40, 8⟩
  | .TAPU_PACE_STATUS => ⟨.bar0, 0x7134, 0x40, 8⟩
  | .TAPU_PACE_EVENT => ⟨.bar0, 0x7138, 0x40, 8⟩
  | .TAPU_ENC_CNT => ⟨.bar0, 0x7300, 0x4, 8⟩
  | .TAPU_ENC_ERR => ⟨.bar0, 0x7320, 0x4, 8⟩
  | .INST_FLOW_DB => ⟨.page, 0x0100, 0x0, 1⟩
  | .INST_DB_ERR => ⟨.page, 0x0104, 0x0, 1⟩
  | .INST_CQ_BASE_LO => ⟨.page, 0x0800, 0x20, 16⟩
  | .INST_CQ_BASE_HI => ⟨.page, 0x0804, 0x20, 16⟩
  | .INST_CQ_CFG => ⟨.page, 0x0808, 0x20, 16⟩
  | .INST_CQ_CONS => ⟨.page, 0x080C, 0x20, 16⟩
  | .INST_CQ_STATUS => ⟨.page, 0x0810, 0x20, 16⟩
  | .DSP_CFG => ⟨.bar0, 0x5000, 0x0, 1⟩
  | .DSP_STATUS => ⟨.bar0, 0x5004, 0x0, 1⟩
  | .DSP_DECISIONS_LO => ⟨.bar0, 0x5008, 0x0, 1⟩
  | .DSP_DECISIONS_HI => ⟨.bar0, 0x500C, 0x0, 1⟩
  | .DSP_LOST_READY_CNT => ⟨.bar0, 0x5010, 0x0, 1⟩
  | .DSP_ORD_USE => ⟨.bar0, 0x5014, 0x0, 1⟩
  | .DSP_ORD_HWM => ⟨.bar0, 0x5018, 0x0, 1⟩
  | .DSP_DELAY_STAT => ⟨.bar0, 0x501C, 0x0, 1⟩
  | .DSP_TASK_SEL => ⟨.bar0, 0x5020, 0x0, 1⟩
  | .DSP_TASK_VIEW => ⟨.bar0, 0x5024, 0x0, 1⟩
  | .DSP_TASK_DEADLINE => ⟨.bar0, 0x5028, 0x0, 1⟩
  | .DSP_EVENT => ⟨.bar0, 0x502C, 0x0, 1⟩
  | .DSP_TRK_READY => ⟨.bar0, 0x5040, 0x4, 16⟩
  | .TRC_CTRL => ⟨.bar0, 0x5100, 0x0, 1⟩
  | .TRC_FILT_INST => ⟨.bar0, 0x5104, 0x0, 1⟩
  | .TRC_FILT_TRUNK => ⟨.bar0, 0x5108, 0x0, 1⟩
  | .TRC_FILT_CLASS => ⟨.bar0, 0x510C, 0x0, 1⟩
  | .TRC_RING_BASE_LO => ⟨.bar0, 0x5110, 0x0, 1⟩
  | .TRC_RING_BASE_HI => ⟨.bar0, 0x5114, 0x0, 1⟩
  | .TRC_RING_CFG => ⟨.bar0, 0x5118, 0x0, 1⟩
  | .TRC_RING_PROD => ⟨.bar0, 0x511C, 0x0, 1⟩
  | .TRC_RING_CONS => ⟨.bar0, 0x5120, 0x0, 1⟩
  | .TRC_DROP => ⟨.bar0, 0x5124, 0x0, 1⟩
  | .TRC_BUF_STAT => ⟨.bar0, 0x5128, 0x0, 1⟩
  | .TRC_BUF_LO => ⟨.bar0, 0x512C, 0x0, 1⟩
  | .TRC_BUF_MID => ⟨.bar0, 0x5130, 0x0, 1⟩
  | .TRC_BUF_HI => ⟨.bar0, 0x5134, 0x0, 1⟩
  | .ENG_ESC => ⟨.bar0, 0x6000, 0x0, 1⟩
  | .ENG_STOP_CFG => ⟨.bar0, 0x6004, 0x0, 1⟩
  | .ENG_STOP_CMD => ⟨.bar0, 0x6008, 0x0, 1⟩
  | .ENG_STOP_STATUS => ⟨.bar0, 0x600C, 0x0, 1⟩
  | .ENG_STOP_TIME_LO => ⟨.bar0, 0x6010, 0x0, 1⟩
  | .ENG_STOP_TIME_HI => ⟨.bar0, 0x6014, 0x0, 1⟩
  | .ENG_STOP_CNT => ⟨.bar0, 0x6018, 0x0, 1⟩
  | .ENG_EVENT => ⟨.bar0, 0x601C, 0x0, 1⟩
  | .ENG_SUSPECT => ⟨.bar0, 0x6020, 0x0, 1⟩
  | .ENG_TRK_FAULT => ⟨.bar0, 0x6040, 0x4, 16⟩
  | .ENG_STATUS => ⟨.bar0, 0x6080, 0x4, 16⟩
  | .ENG_TXQ => ⟨.bar0, 0x60C0, 0x4, 16⟩
  | .INST_MB_CMD_BASE_LO => ⟨.page, 0x0000, 0x0, 1⟩
  | .INST_MB_CMD_BASE_HI => ⟨.page, 0x0004, 0x0, 1⟩
  | .INST_MB_CPL_BASE_LO => ⟨.page, 0x0008, 0x0, 1⟩
  | .INST_MB_CPL_BASE_HI => ⟨.page, 0x000C, 0x0, 1⟩
  | .INST_MB_CFG => ⟨.page, 0x0010, 0x0, 1⟩
  | .INST_MB_DB => ⟨.page, 0x0014, 0x0, 1⟩
  | .INST_MB_CPL_CONS => ⟨.page, 0x0018, 0x0, 1⟩
  | .INST_MB_STATUS => ⟨.page, 0x001C, 0x0, 1⟩
  | .INST_MB_CPL_WRITE => ⟨.page, 0x0020, 0x0, 1⟩
  | .INST_MB_EVENT_LOST => ⟨.page, 0x0024, 0x0, 1⟩
  | .INST_INFO => ⟨.page, 0x0200, 0x0, 1⟩
  | .INST_EPOCH => ⟨.page, 0x0204, 0x0, 1⟩
  | .INST_STALL_CFG => ⟨.page, 0x0208, 0x0, 1⟩
  | .INST_STALL_STATUS => ⟨.page, 0x020C, 0x0, 1⟩
  | .INST_STALL_CNT => ⟨.page, 0x0210, 0x0, 1⟩
  | .INST_STALL_OPEN_LO => ⟨.page, 0x0214, 0x0, 1⟩
  | .INST_STALL_OPEN_HI => ⟨.page, 0x0218, 0x0, 1⟩
  | .INST_STALL_CLOSE_LO => ⟨.page, 0x021C, 0x0, 1⟩
  | .INST_STALL_CLOSE_HI => ⟨.page, 0x0220, 0x0, 1⟩
  | .INST_REVOKE_STAT => ⟨.page, 0x0224, 0x0, 1⟩
  | .INST_FREEZE_COURSE => ⟨.page, 0x0228, 0x0, 1⟩
  | .INST_REVOKE_LOG => ⟨.page, 0x0240, 0x4, 16⟩
  | .INST_MGR_CFG => ⟨.bar0, 0x2000, 0x0, 1⟩
  | .INST_POOL_CTX => ⟨.bar0, 0x2004, 0x0, 1⟩
  | .INST_POOL_STAGE => ⟨.bar0, 0x2008, 0x0, 1⟩
  | .INST_POOL_SIG => ⟨.bar0, 0x200C, 0x0, 1⟩
  | .INST_POOL_INST => ⟨.bar0, 0x2010, 0x0, 1⟩
  | .INST_POOL_SLOT => ⟨.bar0, 0x2040, 0x4, 16⟩
  | .INST_SEL => ⟨.bar0, 0x2080, 0x0, 1⟩
  | .INST_VIEW => ⟨.bar0, 0x2084, 0x0, 1⟩
  | .INST_VIEW_EPOCH => ⟨.bar0, 0x2088, 0x0, 1⟩
  | .INST_EVENT => ⟨.bar0, 0x208C, 0x0, 1⟩
  | .PSIG_RAISE => ⟨.page, 0x0300, 0x0, 1⟩
  | .PSIG_PEND_SET => ⟨.page, 0x0304, 0x0, 1⟩
  | .PSIG_PEND_CLR => ⟨.page, 0x0308, 0x0, 1⟩
  | .PSIG_MASK_SET => ⟨.page, 0x030C, 0x0, 1⟩
  | .PSIG_MASK_CLR => ⟨.page, 0x0310, 0x0, 1⟩
  | .PSIG_SRC_SEL => ⟨.page, 0x0314, 0x0, 1⟩
  | .PSIG_SRC_CFG => ⟨.page, 0x0318, 0x0, 1⟩
  | .PSIG_PRIO => ⟨.page, 0x031C, 0x0, 1⟩
  | .PSIG_VEC_SEL => ⟨.page, 0x0320, 0x0, 1⟩
  | .PSIG_VEC_VIEW => ⟨.page, 0x0324, 0x0, 1⟩
  | .PSIG_ERR => ⟨.page, 0x0328, 0x0, 1⟩
  | .PSIG_PEND => ⟨.page, 0x0400, 0x4, 56⟩
  | .PSIG_MASK => ⟨.page, 0x0500, 0x4, 56⟩
  | .SIG_RAISE => ⟨.bar0, 0x3000, 0x0, 1⟩
  | .SIG_PEND_SET => ⟨.bar0, 0x3004, 0x0, 1⟩
  | .SIG_PEND_CLR => ⟨.bar0, 0x3008, 0x0, 1⟩
  | .SIG_MASK_SET => ⟨.bar0, 0x300C, 0x0, 1⟩
  | .SIG_MASK_CLR => ⟨.bar0, 0x3010, 0x0, 1⟩
  | .SIG_SRC_SEL => ⟨.bar0, 0x3014, 0x0, 1⟩
  | .SIG_SRC_CFG => ⟨.bar0, 0x3018, 0x0, 1⟩
  | .SIG_SRC_CTL => ⟨.bar0, 0x301C, 0x0, 1⟩
  | .SIG_STATUS => ⟨.bar0, 0x3020, 0x0, 1⟩
  | .SIG_DELIVER_CNT => ⟨.bar0, 0x3024, 0x0, 1⟩
  | .SIG_COALESCE_CNT => ⟨.bar0, 0x3028, 0x0, 1⟩
  | .SIG_ERR => ⟨.bar0, 0x302C, 0x0, 1⟩
  | .SIG_CORE => ⟨.bar0, 0x3030, 0x4, 4⟩
  | .SIG_VEC_SEL => ⟨.bar0, 0x3040, 0x0, 1⟩
  | .SIG_VEC_VIEW => ⟨.bar0, 0x3044, 0x0, 1⟩
  | .SIG_GRP_HOLDOFF => ⟨.bar0, 0x3400, 0x4, 256⟩
  | .SIG_PEND => ⟨.bar0, 0x3800, 0x4, 64⟩
  | .SIG_MASK => ⟨.bar0, 0x3900, 0x4, 64⟩
  | .GANG_CFG => ⟨.bar0, 0x9100, 0x0, 1⟩
  | .GANG_STATE => ⟨.bar0, 0x9104, 0x0, 1⟩
  | .GANG_DIGEST => ⟨.bar0, 0x9108, 0x0, 1⟩
  | .GANG_RIDGE_DIGEST => ⟨.bar0, 0x910C, 0x0, 1⟩
  | .GANG_OFFSET => ⟨.bar0, 0x9110, 0x0, 1⟩
  | .GANG_MEMBERS => ⟨.bar0, 0x9114, 0x0, 1⟩
  | .GANG_LEASE => ⟨.bar0, 0x9118, 0x0, 1⟩
  | .GANG_XCHG => ⟨.bar0, 0x911C, 0x0, 1⟩
  | .GANG_PACE_STAT => ⟨.bar0, 0x9120, 0x0, 1⟩
  | .GANG_OFS_STAT => ⟨.bar0, 0x9124, 0x0, 1⟩
  | .GANG_MAP_LO => ⟨.bar0, 0x9128, 0x0, 1⟩
  | .GANG_MAP_HI => ⟨.bar0, 0x912C, 0x0, 1⟩
  | .GANG_EVENT => ⟨.bar0, 0x9130, 0x0, 1⟩
  | .PMU_MODE => ⟨.bar0, 0xA000, 0x0, 1⟩
  | .PMU_CFG => ⟨.bar0, 0xA004, 0x0, 1⟩
  | .PMU_DOM_POLICY => ⟨.bar0, 0xA008, 0x0, 1⟩
  | .PMU_DOM_STATE => ⟨.bar0, 0xA00C, 0x0, 1⟩
  | .PMU_WAKE_EN => ⟨.bar0, 0xA010, 0x0, 1⟩
  | .PMU_WAKE_SETUP => ⟨.bar0, 0xA014, 0x0, 1⟩
  | .PMU_WAKE_STAT => ⟨.bar0, 0xA018, 0x0, 1⟩
  | .PMU_AO_CNT_LO => ⟨.bar0, 0xA01C, 0x0, 1⟩
  | .PMU_AO_CNT_HI => ⟨.bar0, 0xA020, 0x0, 1⟩
  | .PMU_TIMER_LO => ⟨.bar0, 0xA024, 0x0, 1⟩
  | .PMU_TIMER_HI => ⟨.bar0, 0xA028, 0x0, 1⟩
  | .PMU_DENY => ⟨.bar0, 0xA02C, 0x0, 1⟩
  | .PMU_WINDOW_CNT => ⟨.bar0, 0xA030, 0x0, 1⟩
  | .PMU_STALL_CNT => ⟨.bar0, 0xA034, 0x0, 1⟩
  | .PMU_EVENT => ⟨.bar0, 0xA038, 0x0, 1⟩
  | .PMU_BANK_STATE => ⟨.bar0, 0xA040, 0x4, 4⟩
  | .PMU_BANK_LOST_LO => ⟨.bar0, 0xA050, 0x0, 1⟩
  | .PMU_BANK_LOST_HI => ⟨.bar0, 0xA054, 0x0, 1⟩
  | .PMU_ARRAY_LOST => ⟨.bar0, 0xA058, 0x0, 1⟩
  | .PMU_LOST_CNT => ⟨.bar0, 0xA05C, 0x0, 1⟩
  | .PPM_LIMIT => ⟨.bar0, 0xB000, 0x20, 16⟩
  | .PPM_TIMERS => ⟨.bar0, 0xB004, 0x20, 16⟩
  | .PPM_RAMP => ⟨.bar0, 0xB008, 0x20, 16⟩
  | .PPM_SCALE => ⟨.bar0, 0xB00C, 0x20, 16⟩
  | .PPM_STATUS => ⟨.bar0, 0xB010, 0x20, 16⟩
  | .PPM_MEAS => ⟨.bar0, 0xB014, 0x20, 16⟩
  | .PPM_PEAK => ⟨.bar0, 0xB018, 0x20, 16⟩
  | .PPM_PEVENT => ⟨.bar0, 0xB01C, 0x20, 16⟩
  | .PPM_GRP_CFG => ⟨.bar0, 0xB200, 0x10, 4⟩
  | .PPM_FEED_CFG => ⟨.bar0, 0xB204, 0x10, 4⟩
  | .PPM_FEED_STATUS => ⟨.bar0, 0xB208, 0x10, 4⟩
  | .PPM_FEED_V => ⟨.bar0, 0xB20C, 0x10, 4⟩
  | .PPM_POWER => ⟨.bar0, 0xB240, 0x10, 16⟩
  | .PPM_ENERGY_LO => ⟨.bar0, 0xB244, 0x10, 16⟩
  | .PPM_ENERGY_HI => ⟨.bar0, 0xB248, 0x10, 16⟩
  | .PPM_GSTATUS => ⟨.bar0, 0xB340, 0x0, 1⟩
  | .PPM_ECLR => ⟨.bar0, 0xB344, 0x0, 1⟩
  | .BOOT_STATUS => ⟨.bar0, 0xC000, 0x0, 1⟩
  | .BOOT_ATTEMPTS => ⟨.bar0, 0xC004, 0x0, 1⟩
  | .BOOT_FAIL => ⟨.bar0, 0xC008, 0x0, 1⟩
  | .BOOT_IMG_A => ⟨.bar0, 0xC00C, 0x0, 1⟩
  | .BOOT_IMG_B => ⟨.bar0, 0xC010, 0x0, 1⟩
  | .BOOT_CTRL => ⟨.bar0, 0xC014, 0x0, 1⟩
  | .BOOT_OTP_SEL => ⟨.bar0, 0xC018, 0x0, 1⟩
  | .BOOT_OTP_DATA => ⟨.bar0, 0xC01C, 0x0, 1⟩
  | .BOOT_ROLLBACK => ⟨.bar0, 0xC020, 0x0, 1⟩
  | .ERR_SEL => ⟨.bar0, 0xD000, 0x0, 1⟩
  | .ERR_REC_TIME_LO => ⟨.bar0, 0xD004, 0x0, 1⟩
  | .ERR_REC_TIME_HI => ⟨.bar0, 0xD008, 0x0, 1⟩
  | .ERR_REC_CODE => ⟨.bar0, 0xD00C, 0x0, 1⟩
  | .ERR_REC_FLAGS => ⟨.bar0, 0xD010, 0x0, 1⟩
  | .ERR_REC_DETAIL => ⟨.bar0, 0xD014, 0x0, 1⟩
  | .ERR_STATUS => ⟨.bar0, 0xD018, 0x0, 1⟩
  | .ERR_ACK => ⟨.bar0, 0xD01C, 0x0, 1⟩
  | .ERR_FATAL => ⟨.bar0, 0xD020, 0x0, 1⟩
  | .ERR_FATAL_ACK => ⟨.bar0, 0xD024, 0x0, 1⟩
  | .ERR_CE_CNT => ⟨.bar0, 0xD028, 0x0, 1⟩
  | .ERR_TOTAL => ⟨.bar0, 0xD02C, 0x4, 7⟩
  | .PTB_CFG => ⟨.bar0, 0xE000, 0x0, 1⟩
  | .PTB_ACTIVE => ⟨.bar0, 0xE004, 0x0, 1⟩
  | .PTB_ENG_DELAY => ⟨.bar0, 0xE008, 0x0, 1⟩
  | .PTB_THROTTLE => ⟨.bar0, 0xE00C, 0x4, 8⟩
  | .PTB_BLKERR_CFG => ⟨.bar0, 0xE02C, 0x0, 1⟩
  | .PTB_BLKERR_N => ⟨.bar0, 0xE030, 0x0, 1⟩
  | .PTB_BLKERR_CNT => ⟨.bar0, 0xE034, 0x0, 1⟩
  | .PTB_SILENCE => ⟨.bar0, 0xE038, 0x0, 1⟩
  | .PTB_SILENCE_CNT => ⟨.bar0, 0xE03C, 0x0, 1⟩
  | .PTB_SFD_CFG => ⟨.bar0, 0xE040, 0x0, 1⟩
  | .PTB_SFD_NS => ⟨.bar0, 0xE044, 0x0, 1⟩
  | .PTB_WAKE_EXT => ⟨.bar0, 0xE048, 0x0, 1⟩
  | .PTB_ON_TIME_LO => ⟨.bar0, 0xE04C, 0x0, 1⟩
  | .PTB_ON_TIME_HI => ⟨.bar0, 0xE050, 0x0, 1⟩
  | .PTB_OFF_TIME_LO => ⟨.bar0, 0xE054, 0x0, 1⟩
  | .PTB_OFF_TIME_HI => ⟨.bar0, 0xE058, 0x0, 1⟩
  | .ID_DEVICE => ⟨.bar0, 0x0000, 0x0, 1⟩
  | .ID_UNIQUE_LO => ⟨.bar0, 0x0004, 0x0, 1⟩
  | .ID_UNIQUE_HI => ⟨.bar0, 0x0008, 0x0, 1⟩
  | .ID_FW_VERSION => ⟨.bar0, 0x000C, 0x0, 1⟩
  | .ID_CMDSET => ⟨.bar0, 0x0010, 0x0, 1⟩
  | .ID_SKU => ⟨.bar0, 0x0014, 0x0, 1⟩
  | .ID_CAP0 => ⟨.bar0, 0x0018, 0x0, 1⟩
  | .ID_CAP1 => ⟨.bar0, 0x001C, 0x0, 1⟩
  | .ID_CAP2 => ⟨.bar0, 0x0020, 0x0, 1⟩
  | .ID_CAP3 => ⟨.bar0, 0x0024, 0x0, 1⟩
  | .ID_CAP4 => ⟨.bar0, 0x0028, 0x0, 1⟩
  | .ID_CAP5 => ⟨.bar0, 0x002C, 0x0, 1⟩
  | .ID_STRAPS => ⟨.bar0, 0x0030, 0x0, 1⟩
  | .ID_SCRATCH => ⟨.bar0, 0x0034, 0x0, 1⟩
  | .HIF_LINK => ⟨.bar0, 0x1000, 0x0, 1⟩
  | .HIF_TAGS => ⟨.bar0, 0x1004, 0x0, 1⟩
  | .HIF_LTR => ⟨.bar0, 0x1008, 0x0, 1⟩
  | .HIF_EVENT => ⟨.bar0, 0x100C, 0x0, 1⟩
  | .HIF_DMA_ERR => ⟨.bar0, 0x1010, 0x0, 1⟩
  | .HIF_BAD_ACCESS => ⟨.bar0, 0x1014, 0x0, 1⟩

def Reg.all0 : List Reg :=
  [.TRK_CTRL, .TRK_STATUS, .TRK_LEDGER_BLK, .TRK_LEDGER_CRC, .TRK_LEDGER_RETRY,
   .TRK_EYE, .TRK_THR0, .TRK_THR1, .TRK_THR_WIN, .TRK_LEDGER_CLR,
   .TRK_EVENT, .TRK_PCFG, .TRK_PSTATE, .TRK_PEVENT, .TRK_DELAY,
   .TRK_DELAY_STAT, .TAPU_COURSE_CFG, .TAPU_TIME_CTRL, .TAPU_COURSE_CNT_LO, .TAPU_COURSE_CNT_HI,
   .TAPU_TIME_LO, .TAPU_TIME_HI, .TAPU_TIME_STATUS, .TAPU_RATE, .TAPU_SLEW_CFG,
   .TAPU_SLEW_LEFT, .TAPU_UNCERT, .TAPU_HOLD_CFG, .TAPU_LOCK_CFG, .TAPU_PPS_CFG,
   .TAPU_PPS_OUT_OFS, .TAPU_PPS_STAMP_LO, .TAPU_PPS_STAMP_HI, .TAPU_PPS_STAT, .TAPU_OFFSET,
   .TAPU_EVENT, .PLN_CFG, .PLN_STATUS, .PLN_SWAP_CNT, .PLN_NEXT_SWAP,
   .PLN_EVENT, .PLN_DENIED_CNT, .PLN_NOTACC_CNT, .PLN_UNDERRUN_CNT, .PLN_STALL_CNT,
   .PLN_TRK_LOAD, .PLN_TRK_CAP, .TAPU_PACE_CFG, .TAPU_PACE_CPR, .TAPU_PACE_IDX_OFS,
   .TAPU_PACE_AMAX, .TAPU_PACE_RMAX, .TAPU_PACE_HMAX, .TAPU_PACE_POS_LO, .TAPU_PACE_POS_HI,
   .TAPU_PACE_STAMP_LO]

def Reg.all1 : List Reg :=
  [.TAPU_PACE_STAMP_HI, .TAPU_PACE_RATE, .TAPU_PACE_ACCEL, .TAPU_PACE_ERR, .TAPU_PACE_STATUS,
   .TAPU_PACE_EVENT, .TAPU_ENC_CNT, .TAPU_ENC_ERR, .INST_FLOW_DB, .INST_DB_ERR,
   .INST_CQ_BASE_LO, .INST_CQ_BASE_HI, .INST_CQ_CFG, .INST_CQ_CONS, .INST_CQ_STATUS,
   .DSP_CFG, .DSP_STATUS, .DSP_DECISIONS_LO, .DSP_DECISIONS_HI, .DSP_LOST_READY_CNT,
   .DSP_ORD_USE, .DSP_ORD_HWM, .DSP_DELAY_STAT, .DSP_TASK_SEL, .DSP_TASK_VIEW,
   .DSP_TASK_DEADLINE, .DSP_EVENT, .DSP_TRK_READY, .TRC_CTRL, .TRC_FILT_INST,
   .TRC_FILT_TRUNK, .TRC_FILT_CLASS, .TRC_RING_BASE_LO, .TRC_RING_BASE_HI, .TRC_RING_CFG,
   .TRC_RING_PROD, .TRC_RING_CONS, .TRC_DROP, .TRC_BUF_STAT, .TRC_BUF_LO,
   .TRC_BUF_MID, .TRC_BUF_HI, .ENG_ESC, .ENG_STOP_CFG, .ENG_STOP_CMD,
   .ENG_STOP_STATUS, .ENG_STOP_TIME_LO, .ENG_STOP_TIME_HI, .ENG_STOP_CNT, .ENG_EVENT,
   .ENG_SUSPECT, .ENG_TRK_FAULT, .ENG_STATUS, .ENG_TXQ, .INST_MB_CMD_BASE_LO,
   .INST_MB_CMD_BASE_HI]

def Reg.all2 : List Reg :=
  [.INST_MB_CPL_BASE_LO, .INST_MB_CPL_BASE_HI, .INST_MB_CFG, .INST_MB_DB, .INST_MB_CPL_CONS,
   .INST_MB_STATUS, .INST_MB_CPL_WRITE, .INST_MB_EVENT_LOST, .INST_INFO, .INST_EPOCH,
   .INST_STALL_CFG, .INST_STALL_STATUS, .INST_STALL_CNT, .INST_STALL_OPEN_LO, .INST_STALL_OPEN_HI,
   .INST_STALL_CLOSE_LO, .INST_STALL_CLOSE_HI, .INST_REVOKE_STAT, .INST_FREEZE_COURSE, .INST_REVOKE_LOG,
   .INST_MGR_CFG, .INST_POOL_CTX, .INST_POOL_STAGE, .INST_POOL_SIG, .INST_POOL_INST,
   .INST_POOL_SLOT, .INST_SEL, .INST_VIEW, .INST_VIEW_EPOCH, .INST_EVENT,
   .PSIG_RAISE, .PSIG_PEND_SET, .PSIG_PEND_CLR, .PSIG_MASK_SET, .PSIG_MASK_CLR,
   .PSIG_SRC_SEL, .PSIG_SRC_CFG, .PSIG_PRIO, .PSIG_VEC_SEL, .PSIG_VEC_VIEW,
   .PSIG_ERR, .PSIG_PEND, .PSIG_MASK, .SIG_RAISE, .SIG_PEND_SET,
   .SIG_PEND_CLR, .SIG_MASK_SET, .SIG_MASK_CLR, .SIG_SRC_SEL, .SIG_SRC_CFG,
   .SIG_SRC_CTL, .SIG_STATUS, .SIG_DELIVER_CNT, .SIG_COALESCE_CNT, .SIG_ERR,
   .SIG_CORE]

def Reg.all3 : List Reg :=
  [.SIG_VEC_SEL, .SIG_VEC_VIEW, .SIG_GRP_HOLDOFF, .SIG_PEND, .SIG_MASK,
   .GANG_CFG, .GANG_STATE, .GANG_DIGEST, .GANG_RIDGE_DIGEST, .GANG_OFFSET,
   .GANG_MEMBERS, .GANG_LEASE, .GANG_XCHG, .GANG_PACE_STAT, .GANG_OFS_STAT,
   .GANG_MAP_LO, .GANG_MAP_HI, .GANG_EVENT, .PMU_MODE, .PMU_CFG,
   .PMU_DOM_POLICY, .PMU_DOM_STATE, .PMU_WAKE_EN, .PMU_WAKE_SETUP, .PMU_WAKE_STAT,
   .PMU_AO_CNT_LO, .PMU_AO_CNT_HI, .PMU_TIMER_LO, .PMU_TIMER_HI, .PMU_DENY,
   .PMU_WINDOW_CNT, .PMU_STALL_CNT, .PMU_EVENT, .PMU_BANK_STATE, .PMU_BANK_LOST_LO,
   .PMU_BANK_LOST_HI, .PMU_ARRAY_LOST, .PMU_LOST_CNT, .PPM_LIMIT, .PPM_TIMERS,
   .PPM_RAMP, .PPM_SCALE, .PPM_STATUS, .PPM_MEAS, .PPM_PEAK,
   .PPM_PEVENT, .PPM_GRP_CFG, .PPM_FEED_CFG, .PPM_FEED_STATUS, .PPM_FEED_V,
   .PPM_POWER, .PPM_ENERGY_LO, .PPM_ENERGY_HI, .PPM_GSTATUS, .PPM_ECLR,
   .BOOT_STATUS]

def Reg.all4 : List Reg :=
  [.BOOT_ATTEMPTS, .BOOT_FAIL, .BOOT_IMG_A, .BOOT_IMG_B, .BOOT_CTRL,
   .BOOT_OTP_SEL, .BOOT_OTP_DATA, .BOOT_ROLLBACK, .ERR_SEL, .ERR_REC_TIME_LO,
   .ERR_REC_TIME_HI, .ERR_REC_CODE, .ERR_REC_FLAGS, .ERR_REC_DETAIL, .ERR_STATUS,
   .ERR_ACK, .ERR_FATAL, .ERR_FATAL_ACK, .ERR_CE_CNT, .ERR_TOTAL,
   .PTB_CFG, .PTB_ACTIVE, .PTB_ENG_DELAY, .PTB_THROTTLE, .PTB_BLKERR_CFG,
   .PTB_BLKERR_N, .PTB_BLKERR_CNT, .PTB_SILENCE, .PTB_SILENCE_CNT, .PTB_SFD_CFG,
   .PTB_SFD_NS, .PTB_WAKE_EXT, .PTB_ON_TIME_LO, .PTB_ON_TIME_HI, .PTB_OFF_TIME_LO,
   .PTB_OFF_TIME_HI, .ID_DEVICE, .ID_UNIQUE_LO, .ID_UNIQUE_HI, .ID_FW_VERSION,
   .ID_CMDSET, .ID_SKU, .ID_CAP0, .ID_CAP1, .ID_CAP2,
   .ID_CAP3, .ID_CAP4, .ID_CAP5, .ID_STRAPS, .ID_SCRATCH,
   .HIF_LINK, .HIF_TAGS, .HIF_LTR, .HIF_EVENT, .HIF_DMA_ERR,
   .HIF_BAD_ACCESS]

/-- Every register, in the order of the map. -/
def Reg.all : List Reg :=
  Reg.all0 ++ Reg.all1 ++ Reg.all2 ++ Reg.all3 ++ Reg.all4

/-- Bit 24 marks a BAR2 offset, as the DETAIL of STATIC_WRITE codes it (R449). -/
def bar2Bit : Nat := 0x1000000

/-- The key of copy `k` of a register, in instance page `n` for a page register: its BAR offset, with bit 24 for BAR2. The trunk
layouts of GA (copy 16) and GB (copy 17) sit at 0x9000 and 0x9040 (R388). -/
def Reg.key (r : Reg) (n k : Nat) : Nat :=
  let p := r.place
  match p.space with
  | .page => bar2Bit + 0x1000 * n + p.base + p.stride * k
  | .bar0 =>
    if p.count = 18 ∧ k = 16 then p.base + 0x1000
    else if p.count = 18 ∧ k = 17 then p.base + 0x1040
    else p.base + p.stride * k

/-- Reset value of a register: its fields at their reset values, reserved bits zero (R4). -/
def Reg.reset (r : Reg) : BitVec 32 :=
  r.fields.foldl (fun v f => v ||| (BitVec.ofNat 32 f.reset <<< f.lo)) 0#32

/-- The copy of `r` that sits at offset `ofs` of its space, if any. -/
def Reg.copyAt (r : Reg) (ofs : Nat) : Option Nat :=
  let p := r.place
  if p.count = 18 ∧ ofs = p.base + 0x1000 then some 16
  else if p.count = 18 ∧ ofs = p.base + 0x1040 then some 17
  else
    let c := if p.count = 18 then 16 else p.count
    if p.count = 1 then (if ofs = p.base then some 0 else none)
    else if p.base ≤ ofs ∧ (ofs - p.base) % p.stride = 0 ∧ (ofs - p.base) / p.stride < c
      then some ((ofs - p.base) / p.stride)
    else none

/-- The register at an offset of BAR0 or of a page of BAR2, with its copy (R473: an offset no register occupies has none). -/
def findReg (sp : Space) (ofs : Nat) : Option (Reg × Nat) :=
  Reg.all.findSome? fun r => if r.place.space = sp then (r.copyAt ofs).map (fun k => (r, k)) else none

end Sys2Proof.Machine
end

