-- ==== Sys2Proof/Machine/State.lean ====
section
/-!
DEFINITION. The state of the controller with the trees on its trunks, as plain data; the faults and refusals of a command; the state
after reset.
-/

namespace Sys2Proof.Machine

/-- Why a command ends in no state. -/
inductive Fault where
  /-- Raised by a meaning whose operands cannot come together on the machine: a setup of another request than the row's, a read that
  brought another number of bytes or words than was asked for, a host access outside both BARs (assumption 4). Safe: nothing is claimed
  of such a command. -/
  | illFormed
deriving DecidableEq, Repr

/-- Why a command is turned away by the model. -/
inductive Refusal where
  /-- Raised by the dispatch for a row of the opcode table whose meaning is not written. Safe: nothing is claimed of it. -/
  | notModelled (mnemonic : String)
deriving DecidableEq, Repr

/-- The machine: every register, table, queue, counter, mode and pin that the spec gives it, the nodes and hubs on its trees, the
log of what it put out, and the queue of commands that wait. -/
structure State where
  /-- Registers that are stored, by `Reg.key`; an unlisted one holds its reset value. -/
  regs : KMap Reg32
  /-- Values still in force of registers with C fields written since the last boundary, by key (R7, R8). -/
  regsOld : KMap Reg32
  /-- What the last read of a _LO register latched for its companions, by key (R472). -/
  latch : KMap Reg32
  time : TimeState
  course : CourseState
  plan : Planner
  ports : Vector Port 16
  ga : Port
  gb : Device
  devices : List Device
  nodes : KMap NodeRec
  binds : KMap Binding
  amap : List MapEntry
  reseats : List Reseat
  enums : List EnumRun
  flows : KMap Flow
  /-- Firmware tasks of the dispatcher, by context number (R227); one that is not listed is IDLE, with mask 0. -/
  fwTasks : KMap Task
  /-- Number of the priority list served last, from which the round robin goes on (R235). -/
  dispLast : Nat
  /-- Where the round robins of ring fetch and stage fetch stand (R12, R209, R211). -/
  turns : Turns
  /-- The ordering domain outside scheduled ones that was released last (R242). -/
  relLast : Nat
  /-- Descriptors made visible so far, over all flows (R222). -/
  visCount : Nat
  planq : Vector (List PlanEntry) 16
  txq : Vector (List TxEntry) 16
  expects : List Expect
  /-- Symbol-clock times from which and to which the last packet of each trunk takes its line. -/
  txLine : Vector (Nat × Nat) 16
  engines : Vector Engine 16
  trace : List TraceRec
  /-- A trace record was dropped since the last one written (R248). -/
  traceDropped : Bool
  ests : Vector Estimator 8
  encs : Vector Encoder 8
  /-- Edges that count only toward the next commit point, oldest first (R188, R199). -/
  edgesLate : List LateEdge
  insts : KMap Instance
  gutter : Gutter
  errs : ErrState
  stop : StopState
  gang : Gang
  pmu : Pmu
  ppm : Vector PpmPort 16
  feeds : Vector FeedGroup 4
  oscRun : Bool
  host : HostFn
  /-- Posted writes and raises that wait for the function to return to D0, oldest first (R357). -/
  hostq : List Posted
  boot : Boot
  jtag : Jtag
  /-- Changes of perturbation controls so far (R460), and what each control's period has counted (R457). -/
  ptbSeq : Nat
  ptbCount : KMap Nat
  /-- The model's own counter behind its free values (assumption 15). -/
  free : Nat
  /-- What has been put out, newest first. -/
  out : List Out
  /-- Commands that wait, first in, first out. -/
  pending : List Instr
deriving DecidableEq, Repr

/-- The machine right after PORST_N rises: registers at their reset values, everything off, the cold start at its first step (R426,
R429, R432). -/
def State.reset : State where
  regs := []
  regsOld := []
  latch := []
  time := TimeState.init
  course := CourseState.init
  plan := Planner.init
  ports := Vector.replicate 16 Port.init
  ga := Port.init
  gb := Device.init ⟨0, []⟩ gbBoard
  devices := []
  nodes := []
  binds := []
  amap := []
  reseats := []
  enums := []
  flows := []
  fwTasks := []
  dispLast := 0x18F
  turns := ⟨0, 0, 0, 0, [], 1⟩
  relLast := 0
  visCount := 0
  planq := Vector.replicate 16 []
  txq := Vector.replicate 16 []
  expects := []
  txLine := Vector.replicate 16 (0, 0)
  engines := Vector.replicate 16 Engine.init
  trace := []
  traceDropped := false
  ests := Vector.replicate 8 Estimator.init
  encs := Vector.replicate 8 Encoder.init
  edgesLate := []
  insts := [(0, Instance.manager)]
  gutter := Gutter.init
  errs := ErrState.init
  stop := StopState.init
  gang := Gang.init
  pmu := Pmu.init
  ppm := Vector.replicate 16 PpmPort.init
  feeds := Vector.replicate 4 FeedGroup.init
  oscRun := false
  host := HostFn.init
  hostq := []
  boot := Boot.init
  jtag := Jtag.init
  ptbSeq := 0
  ptbCount := []
  free := 0
  out := []
  pending := []

end Sys2Proof.Machine
end

