-- ==== Sys2Proof/Machine/Ops.lean ====
section
/-!
DEFINITION. Named operations that the commands share: registers and their fields, places in the tables of the state, the log of what is
put out, free values.
-/

namespace Sys2Proof

/-! Places in the trees. -/

/-- The device that hangs on a port. GA faces another controller, which is no device of this state. -/
def PortRef.below : PortRef → Option Pos
  | .root t => some ⟨t, []⟩
  | .ga => none
  | .hub h p => some ⟨h.trunk, h.path ++ [p]⟩

/-- The port above a place. -/
def Pos.above (d : Pos) : PortRef :=
  match d.path.getLast? with
  | none => .root d.trunk
  | some p => .hub ⟨d.trunk, d.path.dropLast⟩ p

/-- The route string of a place (R65). -/
def Pos.route (d : Pos) : BitVec 16 :=
  let nib (i : Nat) : Nat := ((d.path[i]?).map (·.val)).getD 0
  BitVec.ofNat 16 (nib 0 * 4096 + nib 1 * 256 + nib 2 * 16 + nib 3)

/-- `d` is `a` or hangs somewhere below it. -/
def Pos.under (d a : Pos) : Bool := d.trunk == a.trunk && a.path.isPrefixOf d.path

/-- `d` hangs below a port. -/
def PortRef.covers (p : PortRef) (d : Pos) : Bool :=
  match p.below with
  | some a => d.under a
  | none => false

/-- The trunk of a port, if it is one of a tree. -/
def PortRef.trunk : PortRef → Option (Fin 16)
  | .root t => some t
  | .ga => none
  | .hub h _ => some h.trunk

/-- The copy of the TRK_ registers that shows a port: trunks 0–15, GA 16; a hub port has none (R119, R388). -/
def PortRef.copy : PortRef → Option Nat
  | .root t => some t.val
  | .ga => some 16
  | .hub _ _ => none

/-- A root port of a trunk. Its transfers end at once with its own changes; at hub ports the controller acts by its own requests and by
what the hub reports. -/
def PortRef.isRoot : PortRef → Bool
  | .root _ => true
  | _ => false

/-- A link of a route: by the port at its upstream side, from the root on. -/
def Pos.ports (d : Pos) : List PortRef :=
  .root d.trunk :: (List.range d.path.length).filterMap fun i =>
    (d.path[i]?).map fun p => .hub ⟨d.trunk, d.path.take i⟩ p

end Sys2Proof

namespace Sys2Proof.Machine

/-! Fields and stored registers (R5, R471). -/

/-- Value of a field in a register word. -/
def Fld.get (f : Fld) (v : Reg32) : Nat := v.toNat >>> f.lo % 2 ^ f.width

/-- A register word with a field set. -/
def Fld.put (f : Fld) (v : Reg32) (x : Nat) : Reg32 :=
  let m : Reg32 := BitVec.ofNat 32 ((2 ^ f.width - 1) <<< f.lo)
  (v &&& ~~~m) ||| (BitVec.ofNat 32 (x % 2 ^ f.width) <<< f.lo)

/-- The stored register at a key. -/
def State.rawReg (s : State) (r : Reg) (key : Nat) : Reg32 := (kget s.regs key).getD r.reset

/-- Copy `k` of a register of BAR0, or of an instance page `n`. -/
def State.reg (s : State) (r : Reg) (k : Nat := 0) (n : Nat := 0) : Reg32 := s.rawReg r (r.key n k)

/-- Store a register; a register at its reset value is not listed. -/
def State.setReg (s : State) (r : Reg) (v : Reg32) (k : Nat := 0) (n : Nat := 0) : State :=
  { s with regs := kput r.reset s.regs (r.key n k) v }

/-- A stored field. -/
def State.fld (s : State) (f : Fld) (k : Nat := 0) (n : Nat := 0) : Nat := f.get (s.reg f.reg k n)

/-- A stored one-bit field. -/
def State.flag (s : State) (f : Fld) (k : Nat := 0) (n : Nat := 0) : Bool := s.fld f k n != 0

/-- Store a field. -/
def State.setFld (s : State) (f : Fld) (x : Nat) (k : Nat := 0) (n : Nat := 0) : State :=
  s.setReg f.reg (f.put (s.reg f.reg k n) x) k n

/-- Set a bit that the controller sets (R6). -/
def State.setBit (s : State) (f : Fld) (k : Nat := 0) (n : Nat := 0) : State := s.setFld f 1 k n

/-- Add to a count that saturates at the width of its field. -/
def State.addSat (s : State) (f : Fld) (d : Nat) (k : Nat := 0) (n : Nat := 0) : State :=
  s.setFld f (min (s.fld f k n + d) (2 ^ f.width - 1)) k n

/-- The value in force of a C field (R7, R8): the old one until its boundary. -/
def State.effFld (s : State) (f : Fld) (k : Nat := 0) (n : Nat := 0) : Nat :=
  let key := f.reg.key n k
  f.get ((kget s.regsOld key).getD (s.rawReg f.reg key))

/-- A course-shadowed field takes a value: the old one stays in force until its boundary while courses run (R7, R475). -/
def State.shadow (s : State) (r : Reg) (n k : Nat) : State :=
  let key := r.key n k
  if s.course.running && (kget s.regsOld key).isNone then { s with regsOld := kset s.regsOld key (s.rawReg r key) } else s

/-- Store a 64-bit value in a _LO and _HI pair of fields. -/
def State.setPair (s : State) (lo hi : Fld) (v : Nat) (n : Nat := 0) : State :=
  (s.setFld lo (v % 2 ^ 32) 0 n).setFld hi (v / 2 ^ 32) 0 n

/-- A _LO and _HI pair as one value. -/
def State.pair (s : State) (lo hi : Reg) (k : Nat := 0) (n : Nat := 0) : Nat :=
  (s.reg lo k n).toNat + (s.reg hi k n).toNat * 2 ^ 32

/-! Outputs, free values. -/

/-- Put something out. -/
def State.emit (s : State) (o : Out) : State := { s with out := o :: s.out }

/-- A free word of `w` bits: the spec states no value (assumption 15). -/
def State.freeWord (s : State) : BitVec 64 × State := (Config.freeWord s.free, { s with free := s.free + 1 })

/-- A free decision (assumption 15). -/
def State.freeBool (s : State) : Bool × State := (Config.freeBool s.free, { s with free := s.free + 1 })

/-! Outcomes. -/

/-- The outcomes of a command over this machine. -/
abbrev Res := Host.Outcome State Fault Refusal

/-- The next state, or a fault where the operands are ill-formed. -/
def guarded (ok : Bool) (s : State) : Res := if ok then .next s else .fault .illFormed

/-! Vectors by number. -/

/-- Change an element by number; a number outside changes nothing. -/
def vmod {α : Type} {n : Nat} (v : Vector α n) (i : Nat) (f : α → α) : Vector α n :=
  match v[i]? with
  | some x => v.setIfInBounds i (f x)
  | none => v

/-- Change an element of a list by number. -/
def lmod {α : Type} : List α → Nat → (α → α) → List α
  | [], _, _ => []
  | x :: xs, 0, f => f x :: xs
  | x :: xs, n + 1, f => x :: lmod xs n f

/-! Devices and ports. -/

/-- The device at a place. -/
def State.dev (s : State) (d : Pos) : Option Device := s.devices.find? (·.pos == d)

/-- The device of a downstream side. -/
def State.devAt (s : State) : DevRef → Option Device
  | .node d => s.dev d
  | .gb => some s.gb

/-- Change the device at a place. -/
def State.modDev (s : State) (d : Pos) (f : Device → Device) : State :=
  { s with devices := s.devices.map fun x => if x.pos == d then f x else x }

/-- Change the device of a downstream side. -/
def State.modDevAt (s : State) (d : DevRef) (f : Device → Device) : State :=
  match d with
  | .node d => s.modDev d f
  | .gb => { s with gb := f s.gb }

/-- The number of downstream ports that a hub's descriptor declares (R98); 0 for a node. -/
def Device.nports (d : Device) : Nat :=
  match d.board.hub with
  | [_, w] => wbits w 35 32 + 1
  | _ => 0

/-- The port at a place of the state. -/
def State.port (s : State) : PortRef → Option Port
  | .root t => some s.ports[t]
  | .ga => some s.ga
  | .hub h p => (s.dev h).bind fun d => d.ports[p.val]?

/-- Change a port. -/
def State.modPort (s : State) (p : PortRef) (f : Port → Port) : State :=
  match p with
  | .root t => { s with ports := vmod s.ports t.val f }
  | .ga => { s with ga := f s.ga }
  | .hub h p => s.modDev h fun d => { d with ports := lmod d.ports p.val f }

/-- The link of a port is up: its port is ENABLED. -/
def State.enabled (s : State) (p : PortRef) : Bool :=
  match s.port p with
  | some x => x.state == .enabled
  | none => false

/-- Every link of a route is up. -/
def State.routeUp (s : State) (d : Pos) : Bool := d.ports.all s.enabled

/-- A port's code in R90. -/
def PortState.code : PortState → Nat
  | .off => 0 | .powered => 1 | .disabled => 2 | .resetting => 3 | .enabled => 4 | .suspended => 5 | .resuming => 6 | .fault => 7

/-- RATE as TRK_STATUS codes it (R61). -/
def rateCode : Option Rate → Nat
  | none => 0 | some .br => 1 | some .hr => 2

/-- FAULT_CAUSE (R104). -/
def FaultCause.code : FaultCause → Nat
  | .none => 0 | .power => 1 | .train => 2

/-- Block time of a rate, ns (R23). -/
def blockNs : Rate → Nat
  | .hr => 16 | .br => 128

/-- The link rate of a port, if it is up. -/
def Port.linkRate (p : Port) : Option Rate := if p.state == .enabled then p.rx.rate else none

/-! Blocks of a side: its scrambler and its place in the course (R26, R34–R36). -/

/-- The seed of a side's scrambler in the running course, for what it sends. -/
def State.seedOf (s : State) : Side → BitVec 31
  | .up p => match s.port p with | some x => x.seed | none => 0
  | .down d => match s.devAt d with | some y => y.link.seed | none => 0

/-- The seed that a side reads blocks with: at a port, blocks of the course before may still arrive. -/
def State.seedIn (s : State) (x : Side) (before : Bool) : BitVec 31 :=
  match x with
  | .up p => match s.port p with | some y => if before then y.seedBefore else y.seed | none => 0
  | .down _ => s.seedOf x

/-- What a side reads in blocks that arrive (R31, R34). -/
def State.receive (s : State) (x : Side) (w : Wire) : Packet := Wire.read (s.seedIn x w.before) w

/-- Index in the course of the block that a port sends now (R121). -/
def State.blockNow (s : State) (p : PortRef) : Nat :=
  (s.time.mono - s.course.startMono) / blockNs (((s.port p).bind (·.rx.rate)).getD .hr)

/-- A side sends words as data blocks from block `k` of the course on. -/
def State.sendWords (s : State) (x : Side) (k : Nat) (ws : List Word) : State := s.emit (.packet x (onWire (s.seedOf x) k ws))

/-- Blocks after a packet's end at which a device's answer begins: its declared turnaround, up to the next boundary of its upstream grid
(R76). -/
def Device.turn (d : Device) : Nat := wbits ((d.board.desc[3]?).getD 0) 6 0 / blockNs (d.link.rx.rate.getD .hr)

/-- A device has received blocks: an answer counts from their end. -/
def State.heardAt (s : State) (d : DevRef) (w : Wire) : State :=
  s.modDevAt d fun y => { y with link := { y.link with heard := w.first + w.blocks.length } }

/-- A device's answer goes up after its turnaround (R76). -/
def State.answer (s : State) (d : DevRef) (ws : List Word) : State :=
  match s.devAt d with
  | none => s
  | some y =>
    let k := y.link.heard + y.turn
    (s.sendWords (.down d) k ws).modDevAt d fun y => { y with link := { y.link with heard := k + ws.length } }


/-! Instances and flows. -/

/-- Instance `i`; an unlisted one is FREE. -/
def State.inst (s : State) (i : Nat) : Instance := (kget s.insts i).getD Instance.init

/-- Store instance `i`. -/
def State.setInst (s : State) (i : Nat) (x : Instance) : State := { s with insts := kput Instance.init s.insts i x }

/-- Change instance `i`. -/
def State.modInst (s : State) (i : Nat) (f : Instance → Instance) : State := s.setInst i (f (s.inst i))

/-- The flow on a context. -/
def State.flow (s : State) (ctx : Nat) : Option Flow := kget s.flows ctx

/-- Change the flow on a context. -/
def State.modFlow (s : State) (ctx : Nat) (f : Flow → Flow) : State := { s with flows := kmod s.flows ctx f }

/-- Change every flow. -/
def State.mapFlows (s : State) (f : Flow → Flow) : State := { s with flows := s.flows.map fun e => (e.1, f e.2) }

/-- The context of a flow of an instance by its flow number; service flows have none (R167). -/
def State.ctxOf (s : State) (inst num : Nat) : Option Nat :=
  (s.flows.find? fun e => e.2.inst == inst && e.2.num == num && e.2.service.isNone).map (·.1)

/-- Scheduled flow types (R146). -/
def FlowType.scheduled : FlowType → Bool
  | .periodicOut | .periodicIn | .pacedOut | .pacedIn => true
  | _ => false

/-- Flow types that send payloads down the tree. -/
def FlowType.output : FlowType → Bool
  | .periodicOut | .pacedOut | .bulkOut => true
  | _ => false

/-- Paced flow types. -/
def FlowType.paced : FlowType → Bool
  | .pacedOut | .pacedIn => true
  | _ => false

/-- Bulk flow types. -/
def FlowType.bulk : FlowType → Bool
  | .bulkOut | .bulkIn => true
  | _ => false

/-- A flow that is open and scheduled, service flows aside. -/
def Flow.hostScheduled (f : Flow) : Bool := f.par.ty.scheduled && f.service.isNone

/-- A flow whose instance has been reset since it was opened (R330): no number names it any more, and its responses are dropped. -/
def Flow.dead (f : Flow) : Bool := decide (f.num ≥ 0x2000)

/-! Course arithmetic. -/

/-- Course period in ns (R120). -/
def State.periodNs (s : State) : Nat := s.course.period.toNat * 128

/-- Blocks in a course at a rate (R120). -/
def State.blocks (s : State) (r : Rate) : Nat := s.periodNs / blockNs r

/-- Symbol-clock time from the start of the current course to that of course `c`: courses from a swap that is decided on run at its period
(R123, R124). -/
def State.startsIn (s : State) (c : Nat) : Int :=
  let far : Int := (c : Int) - (s.course.count.toNat : Int)
  match s.plan.swapAt, s.course.periodSwap with
  | some b, some p =>
    if b < c then ((b : Int) - (s.course.count.toNat : Int)) * (s.periodNs : Int) +
        ((c : Int) - (b : Int)) * (p.toNat * 128 : Nat) else far * (s.periodNs : Int)
  | _, _ => far * (s.periodNs : Int)

/-- The symbol clock at the start of course `c` (R123). -/
def State.monoOf (s : State) (c : Nat) : Int := (s.course.startMono : Int) + s.startsIn c

/-- A pulse reaches PD_TIME while it does not run: it is lost, and counts if it came in the entry window (R396). -/
def State.lostPulse (s : State) : State := if s.pmu.window = 0 then s else s.addSat .PMU_WINDOW_CNT_COUNT 1

/-- The instant `ns` before the start of course `c` is still to come. -/
def State.ahead (s : State) (c ns : Nat) : Bool := decide ((s.time.mono : Int) + ns < s.monoOf c)

/-- Bus time over an interval of the symbol clock, at the present rate (R128). -/
def State.busSpan (s : State) (d : Int) : Int := d + d * s.time.rate / 1000000000

/-- Bus time at an instant of the symbol clock. -/
def State.busAt (s : State) (m : Int) : BitVec 64 := BitVec.ofInt 64 ((s.time.bus.toNat : Int) + s.busSpan (m - s.time.mono))

/-- Start of course `c` on bus time (R123, R128). -/
def State.startOf (s : State) (c : Nat) : BitVec 64 := BitVec.ofInt 64 ((s.course.start.toNat : Int) + s.busSpan (s.startsIn c))

/-- First course of the next plan cycle (R123). -/
def State.nextBoundary (s : State) : Nat := (s.course.count.toNat / 64 + 1) * 64

/-- The course whose commit point was the start of the current course (R155). -/
def State.committed (s : State) : Nat := s.course.count.toNat + 2

/-- The modes in which courses run (R392). -/
def Mode.courses : Mode → Bool
  | .setup | .run | .hold | .service => true
  | _ => false

/-- Mode codes (R307). -/
def Mode.code : Mode → Nat
  | .dormant => 0 | .standby => 1 | .setup => 2 | .run => 3 | .hold => 4 | .service => 5

/-- Codes of time quality (R145). -/
def Quality.code : Quality → Nat
  | .unset => 0 | .estimated => 1 | .holdover => 2 | .locked => 3

/-- Timed release is allowed (R140, R379): LOCKED, or HOLDOVER with U at most LIMIT; never on a gang member that is TIME_UNQUALIFIED. -/
def State.timedOk (s : State) : Bool :=
  s.gang.phase != .unqualified &&
    match s.time.quality with
    | .locked => true
    | .holdover => s.time.uncert ≤ s.fld .TAPU_HOLD_CFG_LIMIT * 1000000000
    | _ => false

/-- The planner has to build the shadow plan, afresh where it was ready (R127). -/
def State.planAgain (s : State) : State := { s with plan := { s.plan with pending := true, ready := false } }

/-- A link steps down at boundary `b` at the latest (R58). -/
def Port.stepsBy (x : Port) (b : Nat) : Bool :=
  x.stepPending && x.stepFrom != 0 && decide ((BitVec.ofNat 24 b - BitVec.ofNat 24 x.stepFrom).toNat < 2 ^ 23)

/-- Firmware runs: no start is in progress and the part is not in ROM recovery (R433, R436). -/
def State.fwReady (s : State) : Bool := s.boot.start.isNone && !s.boot.rom

/-- Some perturbation control is on (R464). -/
def State.perturbed (s : State) : Bool := s.flag .PTB_ACTIVE_ANY

end Sys2Proof.Machine
end

