-- ==== Sys2Proof/Machine/Signal.lean ====
section
/-!
DEFINITION. What many commands do to the rest of the machine: the raise of a gutter source (R347), posted writes into host memory
(R10, R357), STOP (R269–R273), Hold (R17), event entries (R311–R313), errors and FATAL (R448–R452), the final outcome of a transfer
(R218, R224).
-/

namespace Sys2Proof.Machine

/-! Gutter sources. -/

/-- Global number of a local source of an instance, if it is one (R345, R470). -/
def State.globalSrc (s : State) (i loc : Nat) : Option Nat :=
  if i = 0 then (if loc < 256 then some loc else none)
  else ((s.inst i).shares.blocks[loc / 8]?).map fun b => 256 + 8 * b + loc % 8

/-- Instance that owns a source; none for an ungranted block (R345). -/
def State.srcOwner (s : State) (src : Nat) : Option Nat :=
  if src < 256 then some 0
  else (s.insts.find? fun e => e.2.shares.blocks.contains ((src - 256) / 8)).map (·.1)

/-- Settings of a source. -/
def Gutter.srcCfg (g : Gutter) (src : Nat) : SrcCfg := (kget g.cfg src).getD ⟨0, 0, 0, 0, 0⟩

/-- One bit of a 2048-bit map, set or cleared. -/
def bitPut (m : BitVec 2048) (i : Nat) (b : Bool) : BitVec 2048 :=
  let one : BitVec 2048 := BitVec.ofNat 2048 (2 ^ i)
  if b then m ||| one else m &&& ~~~one

/-- A raise sets pending; of a source already pending it only counts (R347). -/
def State.pend (s : State) (src : Nat) : State :=
  if s.gutter.pend.getLsbD src then s.addSat .SIG_COALESCE_CNT_COUNT 1
  else { s with gutter := { s.gutter with pend := bitPut s.gutter.pend src true } }

/-- The source is configured to stop: fast class with STOP = 1 (R353). -/
def Gutter.stops (g : Gutter) (src : Nat) : Bool := g.fast.getLsbD src && g.stop.getLsbD src

/-! What a STOP trigger sends. -/

/-- Trunks whose root link is up. -/
def State.upTrunks (s : State) : List (Fin 16) := (List.finRange 16).filter fun t => s.enabled (.root t)

/-- GB's link to the controller above is up. -/
def State.gbUp (s : State) : Bool := s.gb.link.phase == .up

/-- The burst of a trigger: 4 STOP blocks on every enabled trunk and gang link but the one it came from, and repetitions owed in the
next 4 courses (R270, R271, R384). A trigger in the CCLK of an earlier one shares its burst, and REASON takes the lower code (R276; the
blocks of that burst carry the reason of the earlier row, assumption 48). -/
def State.stopBurst (s : State) (reason : BitVec 4) (skip : Option Side) : State :=
  let now := s.time.cclk
  let shared := s.stop.burst == some now
  let bs := List.replicate 4 (stopBlock reason s.course.count.toNat)
  let sides : List Side := (s.upTrunks.map fun t => Side.up (.root t)) ++
    (if s.enabled .ga then [Side.up .ga] else []) ++ (if s.gbUp then [Side.down .gb] else [])
  let s := if s.pmu.mode.courses && !shared then
      (sides.filter fun x => some x != skip).foldl (fun s x => s.emit (.blocks x bs)) s
    else s
  let s := s.addSat .ENG_STOP_CNT_COUNT 1
  let lower : Bool := shared && s.stop.time == s.time.bus && decide (reason < s.stop.reason)
  { s with stop := { s.stop with
      reason := if lower then reason else s.stop.reason
      burst := some now
      repeats := Vector.ofFn fun n => if n.val < 16 then 4 else s.stop.repeats[n] } }

/-- How a raise acts on the machine, for the operations that a STOP trigger itself performs. -/
abbrev Raising := State → Nat → State

/-- A raise while a STOP trigger is being carried out (R347, R353): a source configured to stop sets its STOP_LATCH and counts as a further
trigger, which shares the burst of that CCLK (R275, R276). -/
def State.raiseAgain (s : State) (src : Nat) : State :=
  let s := if s.gutter.stops src then
      ({ s with gutter := { s.gutter with latch := bitPut s.gutter.latch src true } }).stopBurst 2 none
    else s
  s.pend src

/-! Posted writes. -/

/-- The function issues memory writes: it is in D0, its link works and DMA is not refused (R357, R444). -/
def State.canPost (s : State) : Bool := s.host.d == .d0 && !s.host.perst

/-- An access of a block to the host wakes PD_HOST where it sleeps, and stalls until it is ON (R400); it takes its effect in the row
(assumption 1). -/
def State.wakeHost (s : State) : State :=
  if s.pmu.doms[0] == .retained || s.pmu.doms[0] == .waking then
    ({ s with pmu := { s.pmu with doms := s.pmu.doms.set 0 .waking, stalled := vmod s.pmu.stalled 0 (· + 1) } }).addSat .PMU_STALL_CNT_COUNT 1
  else s

/-- A posted write into host memory, in order after the earlier ones (R10, R357); after DBG_UNLOCK the HIF refuses it (R444). -/
def State.post (s : State) (o : Out) : State :=
  if s.boot.dmaRefused then s else
  let s := s.wakeHost
  if s.canPost && s.hostq.isEmpty then s.emit o
  else { s with hostq := s.hostq ++ [.write o] }

/-- PASID of an instance's accesses: instance 0 has one when INST_MGR_CFG enables it (R278, R344). -/
def State.pasidOf (s : State) (i : Nat) : Option (BitVec 20) :=
  if i = 0 then (if s.flag .INST_MGR_CFG_PASID_EN then some (BitVec.ofNat 20 (s.fld .INST_MGR_CFG_PASID)) else none)
  else some (s.inst i).pasid

/-! The final outcome of a transfer. -/

/-- Transfer `i` of a flow. -/
def Flow.xfer (f : Flow) (i : BitVec 16) : Option Transfer := f.xfers.find? (·.idx == i)

/-- Change transfer `i` of a flow. -/
def Flow.modXfer (f : Flow) (i : BitVec 16) (g : Transfer → Transfer) : Flow :=
  { f with xfers := f.xfers.map fun x => if x.idx == i then g x else x }

/-- Change a transfer of the flow on a context. -/
def State.modXfer (s : State) (ctx : Nat) (i : BitVec 16) (g : Transfer → Transfer) : State :=
  s.modFlow ctx fun f => f.modXfer i g

/-- BUS_TIME of a completion (R218). -/
def State.cplTime (s : State) (f : Flow) (x : Transfer) : BitVec 64 :=
  match x.sentAt with
  | some t => t
  | none =>
    match (if f.par.ty.scheduled then x.course else none) with
    | some c => s.startOf c
    | none => s.time.bus

/-- Counts of a flow after an outcome (R302). -/
def FlowCounts.note (n : FlowCounts) : Status → FlowCounts
  | .done => { n with done := n.done + 1 }
  | .doneRetried => { n with retried := n.retried + 1 }
  | .lasting => { n with lasting := n.lasting + 1 }
  | .notAccepted => { n with notAccepted := n.notAccepted + 1 }
  | .held => { n with held := n.held + 1 }
  | .retryDenied => { n with retryDenied := n.retryDenied + 1 }
  | _ => n

/-- A transfer takes its final outcome (R218): the first one stands. The planner's and the trunk's counts follow (R179, R264). -/
def State.finishBy (r : Raising) (s : State) (ctx : Nat) (i : BitVec 16) (st : Status) (length : Nat) (effect : Bool := false) : State :=
  match (s.flow ctx).bind fun f => (f.xfer i).map fun x => (f, x) with
  | none => s
  | some (f, x) =>
    if x.fin.isSome then s
    else
      let retries := if f.par.ty.scheduled then (if x.retried then 1 else 0) else min x.resends 15
      let fin : Final := ⟨st, length, retries, s.cplTime f x, effect⟩
      let s := s.modFlow ctx fun f => { (f.modXfer i fun x => { x with fin := some fin }) with counts := f.counts.note st }
      let t := f.pos.trunk.val
      match st with
      | .doneRetried => s.addSat .ENG_TRK_FAULT_TRANSIENT 1 t
      | .lasting => s.addSat .ENG_TRK_FAULT_LASTING 1 t
      | .retryDenied => r ((s.addSat .PLN_DENIED_CNT_COUNT 1).setBit .PLN_EVENT_RETRY_DENIED) 4
      | .notAccepted => r ((s.addSat .PLN_NOTACC_CNT_COUNT 1).setBit .PLN_EVENT_NOT_ACCEPTED) 4
      | _ => s

/-- The accepted transfers of scheduled flows, service flows aside, that wait for no response. -/
def State.acceptedWaiting (s : State) : List (Nat × BitVec 16) :=
  s.flows.flatMap fun e =>
    if e.2.hostScheduled then
      (e.2.xfers.filter fun x => x.accepted && x.fin.isNone &&
        !(s.expects.any fun w => w.ctx == e.1 && w.idx == x.idx)).map fun x => (e.1, x.idx)
    else []

/-! Event entries. -/

/-- Room of a ring of `2^size` entries (R219). -/
def ringRoom (size : Nat) (w c : BitVec 16) : Nat := 2 ^ size - (w - c).toNat

/-- Writes a 32-byte entry into the completion ring of an instance's mailbox, and moves its write index (R283). -/
def State.putEntry (s : State) (i : Nat) (body : List Byte) (flags bad : Byte) : State :=
  let m := (s.inst i).mb
  let size := s.fld .INST_MB_CFG_CPL_SIZE 0 i
  let base := s.pair .INST_MB_CPL_BASE_LO .INST_MB_CPL_BASE_HI 0 i
  let tail : Byte := if m.phase then 0x80 else 0
  let w := m.write + 1
  let s := s.post (.hostWrite (s.pasidOf i) (BitVec.ofNat 64 (base + 32 * (m.write.toNat % 2 ^ size)))
    (body ++ [flags, bad, 0, tail]))
  s.modInst i fun x => { x with mb := { m with write := w, phase := if w.toNat % 2 ^ size = 0 then !m.phase else m.phase } }

/-- The raise that follows an entry on the ordering path (R10, R357). -/
def State.raiseAfterBy (r : Raising) (s : State) (src : Option Nat) : State :=
  match src with
  | none => s
  | some n => if s.hostq.isEmpty then r s n else { s with hostq := s.hostq ++ [.raise n] }

/-- The gutter source of an instance's mailbox. -/
def State.mbSrc (s : State) (i : Nat) : Option Nat := s.globalSrc i (s.fld .INST_MB_CFG_SRC 0 i)

/-- An event entry for an instance (R311–R313): the code, the subject, the time it carries and the detail bytes 20–27. -/
def State.eventAtBy (r : Raising) (s : State) (i code subject : Nat) (time : BitVec 64) (detail : List Byte) : State :=
  let x := s.inst i
  let m := x.mb
  if x.state == .free || !x.routes.enabled.getLsbD code then s
  else
    let size := s.fld .INST_MB_CFG_CPL_SIZE 0 i
    let room := ringRoom size m.write (BitVec.ofNat 16 (s.fld .INST_MB_CPL_CONS_CONS 0 i))
    let seq := m.eventSeq
    let s := s.modInst i fun x => { x with mb := { x.mb with eventSeq := seq + 1 } }
    if s.flag .INST_MB_CFG_ENABLE 0 i && m.taken.length < room then
      let body := leBytes 4 seq.toNat ++ leBytes 4 0 ++ leBytes 2 code ++ leBytes 2 subject ++ leBytes 8 time.toNat ++
        (detail ++ List.replicate 8 0).take 8
      let flags : Byte := if m.lost then 0x0C else 0x04
      let s := s.putEntry i body flags 0
      let s := s.modInst i fun x => { x with mb := { x.mb with lost := false } }
      let src := (kget x.routes.src code).getD (s.fld .INST_MB_CFG_SRC 0 i)
      let s := if x.routes.signalled.getLsbD code then s.raiseAfterBy r (s.globalSrc i src) else s
      if s.flag .INST_MB_CFG_EVERY 0 i then s.raiseAfterBy r (s.mbSrc i) else s
    else
      let s := s.modInst i fun x => { x with mb := { x.mb with lost := true } }
      (s.setBit .INST_MB_STATUS_EVENT_LOST 0 i).addSat .INST_MB_EVENT_LOST_COUNT 1 0 i

/-- An event entry that carries the present bus time. -/
def State.eventBy (r : Raising) (s : State) (i code subject : Nat) (detail : List Byte) : State :=
  s.eventAtBy r i code subject s.time.bus detail

/-! Event codes (R312). -/
def evFlowHeld : Nat := 0x01
def evFlowResumed : Nat := 0x02
def evFlowEscalated : Nat := 0x03
def evToggleUnknown : Nat := 0x04
def evReseated : Nat := 0x05
def evReseatExpired : Nat := 0x06
def evNodeChanged : Nat := 0x07
def evNodeDetached : Nat := 0x08
def evLinkRecovered : Nat := 0x09
def evLinkEvent : Nat := 0x0A
def evHostStall : Nat := 0x0B
def evTimeQuality : Nat := 0x0C
def evModeChanged : Nat := 0x0D
def evPace : Nat := 0x0E
def evShareChanged : Nat := 0x0F
def evPortEvent : Nat := 0x10
def evEnumResult : Nat := 0x11
def evGang : Nat := 0x12
def evError : Nat := 0x13

/-! STOP and Hold. -/

/-- The CLEAR_HALT of an endpoint, as firmware sends it (R85). -/
def clearHaltSetup (ep : BitVec 4) : Setup := ⟨BitVec.ofNat 36 (4 * 2 ^ 24), BitVec.ofNat 36 (ep.toNat * 2 ^ 20)⟩

/-- Firmware takes up a flow's TOGGLE_UNKNOWN (R265): RESYNC holds the flow, and CLEAR_HALT goes out. -/
def State.startResyncBy (r : Raising) (s : State) (ctx : Nat) : State :=
  match s.flow ctx with
  | none => s
  | some f =>
    let s := s.modFlow ctx fun f => { f with causes := { f.causes with resync := true } }
    let s := if f.causes.resync then s else s.eventBy r f.inst evFlowHeld f.num (leBytes 2 32)
    (s.eventBy r f.inst evToggleUnknown f.num []).emit (.control f.addr (clearHaltSetup f.ep) [])

/-- A flow's endpoint may have taken a packet unseen (R265): the engine sets TOGGLE_UNKNOWN, and the rest waits for firmware (R9). -/
def State.toggleUnknownBy (r : Raising) (s : State) (ctx : Nat) : State :=
  let s := s.modFlow ctx fun f => { f with toggleUnknown := true }
  if s.fwReady then s.startResyncBy r ctx else s

/-- Device sources 2 and 6. -/
def srcPmu : Nat := 2
def srcEng : Nat := 6

/-- Accepted scheduled transfers that wait for no response complete HELD (R17, R273); one whose last attempt left its toggle open sets
TOGGLE_UNKNOWN (R265). -/
def State.holdAcceptedBy (r : Raising) (s : State) : State :=
  s.acceptedWaiting.foldl (fun (s : State) y =>
    let isOpen : Bool := ((s.flow y.1).bind fun f => (f.xfer y.2).map fun x => f.par.ty.output && x.failed && x.unsure).getD false
    let s := s.finishBy r y.1 y.2 .held 0
    if isOpen then r ((s.toggleUnknownBy r y.1).setBit .ENG_EVENT_TOGGLE_UNKNOWN) srcEng else s) s

/-- What a committed entry becomes when its course is rebuilt in Hold (R273, R274): a service flow's token goes as before. -/
def State.rebuilt (s : State) (e : PlanEntry) : Option PlanEntry :=
  match s.flow e.ctx with
  | none => none
  | some f =>
    if f.service.isSome then some { e with reason := some (if e.lap then .retry else .send) }
    else if e.lap then none
    else if f.par.ty.output && f.par.policy != .skip then some { e with reason := some .hold }
    else none

/-- The plan entry of a scheduled packet in a transmit queue. -/
def TxEntry.entry (e : TxEntry) : PlanEntry := ⟨e.ctx, e.course, e.slot, e.ofs, e.reason == .retry, none⟩

/-- Flows whose entries engines have in hand and that satisfy a test: their tasks return. -/
def State.handsBack (s : State) (p : PlanEntry → Bool) : State :=
  let gone (c : Nat) : Bool := s.engines.toList.any fun e => e.sched.any fun x => x.1 == c && p x.2
  { s with
    flows := s.flows.map fun (e : Nat × Flow) => if gone e.1 then (e.1, { e.2 with task := { e.2.task with state := .waiting } }) else e
    engines := s.engines.map fun (e : Engine) => { e with sched := e.sched.filter fun x => !p x.2 } }

/-- In Hold the committed courses carry hold packets wherever their entries stand, and queued bulk packets are taken back (R17, R274). -/
def State.rebuildHeld (s : State) : State :=
  let bulk (c : Nat) : Bool := ((s.flow c).map (·.par.ty.bulk)).getD true
  let s := s.handsBack fun e => (s.rebuilt e).isNone
  { s with
    txq := s.txq.map fun q => q.filterMap fun e =>
      if e.sched then (s.rebuilt e.entry).map fun x => { e with reason := x.reason.getD .hold } else if bulk e.ctx then none else some e
    engines := s.engines.map fun (g : Engine) => { g with sched := g.sched.bind fun x => (s.rebuilt x.2).map fun e => (x.1, e) }
    planq := s.planq.map fun q => q.filterMap s.rebuilt }

/-- Symbol-clock time of the first STOP block of a trigger recognised now on a trunk: its first block boundary at least 4 ns on (R270). -/
def State.stopBlockAt (s : State) (t : Fin 16) : Nat :=
  let b := blockNs ((s.ports[t].rx.rate).getD .hr)
  s.course.startMono + (s.time.mono + 4 - s.course.startMono + b - 1) / b * b

/-- A packet has gone out whole where its last block has left before the first STOP block, its first one by now (R273). -/
def State.wholeAtStop (s : State) (w : Expect) : Bool :=
  decide (w.opens ≤ s.time.mono) || (decide ((s.txLine[w.trunk]).1 ≤ s.time.mono) && decide (w.opens ≤ s.stopBlockAt w.trunk))

/-- The traffic of the trigger course ends (R273): what is queued and not started is dropped, a packet on the wire is cut, accepted
scheduled transfers that wait for no response complete HELD, and the committed courses are rebuilt as hold packets. -/
def State.stopTraffic (s : State) : State :=
  let now := s.course.count.toNat
  let s := { s with expects := s.expects.filter s.wholeAtStop }
  let queued : List (Fin 16 × PlanEntry) := (List.finRange 16).flatMap fun t => (s.txq[t].filter (·.sched)).map fun e => (t, e.entry)
  let inHand : List (Fin 16 × PlanEntry) := s.engines.toList.filterMap fun e =>
    e.sched.bind fun x => (s.flow x.1).map fun f => (f.pos.trunk, x.2)
  let s := s.holdAcceptedBy State.raiseAgain
  let planned : List (Fin 16 × PlanEntry) := (List.finRange 16).flatMap fun t => s.planq[t].map fun e => (t, e)
  let later := (queued ++ inHand ++ planned).filterMap fun x =>
    if x.2.course > now then (s.rebuilt x.2).map fun e => (x.1, e) else none
  let s := s.handsBack fun _ => true
  { s with
    txq := Vector.replicate 16 []
    planq := Vector.ofFn fun t => (later.filter fun x => x.1 == t).map (·.2)
    stop := { s.stop with quiet := some now } }

/-- Every perturbation control goes off (R459, R464). -/
def State.clearPtbBy (r : Raising) (s : State) : State :=
  if s.perturbed then
    let keys := [Reg.PTB_ACTIVE, .PTB_ENG_DELAY, .PTB_BLKERR_CFG, .PTB_BLKERR_N, .PTB_SILENCE, .PTB_SFD_CFG, .PTB_SFD_NS, .PTB_WAKE_EXT]
    let s := keys.foldl (fun s r => s.setReg r 0) s
    let s := (List.range 8).foldl (fun s l => s.setReg .PTB_THROTTLE 0 l) s
    let s := s.setPair .PTB_OFF_TIME_LO_TIME .PTB_OFF_TIME_HI_TIME s.time.bus.toNat
    r { s with ptbSeq := s.ptbSeq + 1, ptbCount := [] } 50
  else s

/-- The mode changes (R392): PMU_EVENT.MODE_CHANGED, an event, every perturbation control off but between Run and Hold, and the source
(R312, R409, R459). -/
def State.setModeBy (r : Raising) (s : State) (m : Mode) : State :=
  let old := s.pmu.mode
  if old = m then s
  else
    let s := { s with pmu := { s.pmu with mode := m, target := m, changing := false } }
    let s := (s.setBit .PMU_EVENT_MODE_CHANGED).eventBy r 0 evModeChanged 0 [BitVec.ofNat 8 old.code, BitVec.ofNat 8 m.code]
    let between := (old == .run && m == .hold) || (old == .hold && m == .run)
    r (if between then s else s.clearPtbBy r) srcPmu

/-- A recognised STOP trigger (R269–R273). -/
def State.stopTrigger (s : State) (reason : BitVec 4) (skip : Option Side := none) : State :=
  let fresh := !s.stop.latched
  let s := if fresh then
      { s with stop := { s.stop with latched := true, reason := reason, time := s.time.bus, course := s.course.count, burst := none } }
    else s
  let s := s.stopBurst reason skip
  let s := if s.pmu.mode.courses then s.stopTraffic else s
  let s := if s.pmu.mode = .run then s.setModeBy State.raiseAgain .hold else s
  if fresh then (s.setBit .ENG_EVENT_STOP).raiseAgain srcEng else s

/-- A hardware raise of a source: its STOP trigger where it is configured to stop, and the pending bit (R347, R353). -/
def State.raise (s : State) (src : Nat) : State :=
  let s := if s.gutter.stops src then
      ({ s with gutter := { s.gutter with latch := bitPut s.gutter.latch src true } }).stopTrigger 2
    else s
  s.pend src

/-- An event bit sets, and the source of its block is raised. -/
def State.happen (s : State) (f : Fld) (src : Nat) (k : Nat := 0) : State := (s.setBit f k).raise src

/-- The raise that follows an entry on the ordering path (R10, R357). -/
def State.raiseAfter (s : State) (src : Option Nat) : State := s.raiseAfterBy State.raise src

/-- An event entry (R311–R313). -/
def State.eventAt (s : State) (i code subject : Nat) (time : BitVec 64) (detail : List Byte) : State :=
  s.eventAtBy State.raise i code subject time detail

/-- An event entry that carries the present bus time. -/
def State.event (s : State) (i code subject : Nat) (detail : List Byte) : State := s.eventBy State.raise i code subject detail

/-- A transfer takes its final outcome (R218). -/
def State.finish (s : State) (ctx : Nat) (i : BitVec 16) (st : Status) (length : Nat) (effect : Bool := false) : State :=
  s.finishBy State.raise ctx i st length effect

/-- Ends every transfer of a list with one status and no words. -/
def State.finishAll (s : State) (xs : List (Nat × BitVec 16)) (st : Status) : State :=
  xs.foldl (fun s x => s.finish x.1 x.2 st 0) s

/-- See `State.startResyncBy`. -/
def State.startResync (s : State) (ctx : Nat) : State := s.startResyncBy State.raise ctx

/-- See `State.toggleUnknownBy`. -/
def State.toggleUnknown (s : State) (ctx : Nat) : State := s.toggleUnknownBy State.raise ctx

/-- Change of mode (R392). -/
def State.setMode (s : State) (m : Mode) : State := s.setModeBy State.raise m

/-- Entry to Hold from Run (R17, R18): accepted transfers complete HELD and are not sent. In other modes nothing changes. -/
def State.enterHold (s : State) : State :=
  if s.pmu.mode = .run then (s.holdAcceptedBy State.raise).rebuildHeld.setMode .hold else s

/-! Errors. -/

/-- Classes of error codes (R449). -/
inductive ErrClass where
  | normal | fatalClass | escalates
deriving DecidableEq, Repr

/-- Categories of the error manager (R448). -/
def catLink : Nat := 0
def catHost : Nat := 1
def catMemory : Nat := 2
def catEngine : Nat := 3
def catPower : Nat := 4
def catFirmware : Nat := 5
def catGang : Nat := 6

/-- Detecting blocks (R448). -/
def blkHif : Nat := 0
def blkMbx : Nat := 1
def blkCore : Nat := 2
def blkPln : Nat := 3
def blkDsp : Nat := 4
def blkEng : Nat := 5
def blkStg : Nat := 6
def blkTrk : Nat := 7
def blkTapu : Nat := 8
def blkGang : Nat := 9
def blkPpm : Nat := 10
def blkPmu : Nat := 11
def blkPtb : Nat := 12
def blkBoot : Nat := 13

/-- FATAL (R452): STOP with reason 0x4, Hold from Run, ERR_FATAL, device source 0. Two of one CCLK are one FATAL, whose CAUSE is the lower
(R462). -/
def State.escalateNow (s : State) (cat cause : Nat) : State :=
  let f := s.errs.fatal
  if f.valid && f.cclk == s.time.cclk then
    let f := if cause < f.cause.toNat then { f with category := BitVec.ofNat 3 cat, cause := BitVec.ofNat 2 cause } else f
    { s with errs := { s.errs with fatal := f } }
  else
    let s := s.stopTrigger 4
    let f := s.errs.fatal
    let f : FatalRec :=
      if f.valid then { f with count := if f.count = 0xFFFF then f.count else f.count + 1 }
      else ⟨true, BitVec.ofNat 3 cat, BitVec.ofNat 2 cause, f.seq + 1, 0, s.time.cclk⟩
    ({ s with errs := { s.errs with fatal := f } }).raise 0

/-- A warm start is under way. -/
def State.inWarm (s : State) : Bool := s.boot.start.any (·.warm)

/-- FATAL escalation (R452): every fatal-class error before it is dropped from the count. During a warm start it waits for the end of step 8
(R462). -/
def State.escalate (s : State) (cat cause : Nat) : State :=
  let s := { s with errs := { s.errs with fatalAt := [] } }
  if s.inWarm then { s with boot := { s.boot with heldFatal := s.boot.heldFatal ++ [(cat, cause)] } } else s.escalateNow cat cause

/-- The fields of a new record (R448, R450). -/
def State.newRec (s : State) (r : ErrRec) (code source detail : Nat) (fatal : Bool) : ErrRec :=
  let unset := s.time.quality == .unset
  { valid := true, fatalClass := fatal, overflow := false, aoTime := unset
    time := if unset then s.time.ao.zeroExtend 64 else s.time.bus
    code := BitVec.ofNat 16 code, source := BitVec.ofNat 8 source, seq := r.seq + 1, count := 0
    detail := BitVec.ofNat 32 detail, cclk := s.time.cclk }

/-- A record that is VALID at a further error (R450). Of two errors of one CCLK that find it not VALID the lower CODE is recorded (R462). -/
def State.laterError (s : State) (r : ErrRec) (code source detail : Nat) (fatal : Bool) : ErrRec :=
  let x := if r.cclk == s.time.cclk && decide (code < r.code.toNat) then { s.newRec r code source detail fatal with seq := r.seq, count := r.count } else r
  { x with overflow := true, count := if x.count = 0xFFFF then x.count else x.count + 1 }

/-- A detected error (R449, R450): it fills its category's record or counts against it, and escalates where R452 says so. -/
def State.error (s : State) (cat code source : Nat) (cls : ErrClass) (detail : Nat) : State :=
  match s.errs.recs[cat]? with
  | none => s
  | some r =>
    let s := s.addSat .ERR_TOTAL_COUNT 1 cat
    let recent := s.errs.fatalAt.filter fun t => s.time.mono ≤ t + 1000000
    let third := cls == .fatalClass && recent.length ≥ 2
    let bits (f o : Bool) : List Byte := [BitVec.ofNat 8 (f.toNat + 2 * o.toNat)]
    let put (s : State) (r : ErrRec) : State := { s with errs := { s.errs with recs := s.errs.recs.setIfInBounds cat r } }
    let s :=
      if r.valid then
        let s := put s (s.laterError r code source detail (cls != .normal))
        if r.overflow then s else s.event 0 evError cat (bits r.fatalClass true)
      else ((put s (s.newRec r code source detail (cls != .normal))).raise 1).event 0 evError cat (bits (cls != .normal) false)
    let s := if cls == .fatalClass then { s with errs := { s.errs with fatalAt := s.time.mono :: recent } } else s
    if cls == .escalates then s.escalate cat 1 else if third then s.escalate cat 2 else s

/-- DETAIL of a link error: trunk, or 16 GA, 17 GB, and the route (R449). -/
def linkDetail (p : PortRef) : Nat :=
  match p with
  | .root t => t.val
  | .ga => 16
  | .hub h q => h.trunk.val + (Pos.route ⟨h.trunk, h.path ++ [q]⟩).toNat * 256

/-- A block error or the like at a place that is a controller's own link: the source of a trunk's link events, or of a gang port's. -/
def linkSrc : PortRef → Option Nat
  | .root t => some (16 + t.val)
  | .ga => some 48
  | .hub h _ => some (16 + h.trunk.val)

/-- The source of a port's port events (R346). -/
def portSrc : PortRef → Option Nat
  | .root t => some (32 + t.val)
  | .ga => some 48
  | .hub _ _ => none

/-! Perturbation controls. -/

/-- The controls that are on, bit c for CONTROL c (R456, R464). -/
def State.ptbControls (s : State) : Nat :=
  (s.fld .PTB_ENG_DELAY_ENGINES != 0).toNat * 2 + ((List.range 8).any fun l => s.flag .PTB_THROTTLE_ON l).toNat * 4 +
    (s.flag .PTB_BLKERR_CFG_ON).toNat * 8 + (s.fld .PTB_SILENCE_MODE != 0).toNat * 16 + (s.flag .PTB_SFD_CFG_ON).toNat * 32 +
    (s.fld .PTB_WAKE_EXT_DOMAINS != 0).toNat * 64

/-- After a change of the controls: PTB_ACTIVE, the times at which the first turned on and the last off, and source 50 (R459, R464). -/
def State.ptbRefresh (s : State) : State :=
  let on := s.ptbControls
  let was := s.perturbed
  let s := ({ s with ptbSeq := s.ptbSeq + 1 }.setFld .PTB_ACTIVE_CONTROLS (on / 2)).setFld .PTB_ACTIVE_ANY (on != 0).toNat
  if was == (on != 0) then s
  else if was then (s.setPair .PTB_OFF_TIME_LO_TIME .PTB_OFF_TIME_HI_TIME s.time.bus.toNat).raise 50
  else (s.setPair .PTB_ON_TIME_LO_TIME .PTB_ON_TIME_HI_TIME s.time.bus.toNat).raise 50

/-- Raise a source, if there is one. -/
def State.raiseOpt (s : State) : Option Nat → State
  | some n => s.raise n
  | none => s

/-! Registers of domains that a warm start resets (R433, R477, R478). -/

/-- A register of PD_DISP or of the engines that R477 resets at a warm start. -/
def Reg.warmReset (r : Reg) : Bool :=
  let p := r.place
  match p.space with
  | .page => false
  | .bar0 =>
    let b := p.base / 0x1000
    if b = 3 then
      !([Reg.SIG_RAISE, .SIG_PEND_SET, .SIG_PEND_CLR, .SIG_MASK_SET, .SIG_MASK_CLR, .SIG_SRC_CTL, .SIG_PEND, .SIG_MASK].contains r)
    else if b = 6 then !([Reg.ENG_STOP_STATUS, .ENG_STOP_TIME_LO, .ENG_STOP_TIME_HI].contains r)
    else b == 5

/-- A warm start resets the register's domain, and step 7 has not given its configuration back (R433, R478). -/
def State.underReset (s : State) (r : Reg) : Bool :=
  match s.boot.start with
  | some x => x.warm && decide (x.step ≤ 7) && r.warmReset
  | none => false

end Sys2Proof.Machine
end

