-- ==== Sys2Proof/Machine/Gutter.lean ====
section
/-!
DEFINITION. The gutter: writes of its addresses, decisions, deliveries to cores and vectors, hold-off (R345–R362).
-/

namespace Sys2Proof.Machine

/-! Access to an instance page (R469). -/

/-- MAX_INSTANCES after the rules of R442. -/
def maxInstances : Nat :=
  let v := (Config.otpWord 20).toNat >>> 2 % 1024
  if v = 0 then 1 else if v > 512 then 512 else v

/-- Records an access in HIF_BAD_ACCESS (R480). -/
def State.badAccess (s : State) (bar2 : Bool) (ofs reason : Nat) : State :=
  let s := s.setFld .HIF_BAD_ACCESS_LAST_OFS ofs
  let s := s.setFld .HIF_BAD_ACCESS_LAST_BAR2 bar2.toNat
  let s := s.setFld .HIF_BAD_ACCESS_REASON reason
  (s.addSat .HIF_BAD_ACCESS_COUNT 1).setBit .HIF_EVENT_BAD_ACCESS

/-- State of instance `n` as its page shows it (R469). -/
def State.pageState (s : State) (n : Nat) : InstState := if n ≥ maxInstances then .free else (s.inst n).state

/-- A write to page `n` that R469 turns away: the state after it, or none where the register defines the effect. -/
def State.pageGate (s : State) (n ofs : Nat) : Option State :=
  match s.pageState n with
  | .free => some (s.badAccess true (n * 0x1000 + ofs) 4)
  | .resetting => some (s.badAccess true (n * 0x1000 + ofs) 5)
  | _ => none

/-! Writes of the five addresses (R347). -/

/-- SIG_ERR of the writer records a discarded write: 1 BAD_SOURCE, 2 BAD_TARGET. -/
def State.sigErr (s : State) (w : SigWriter) (num reason : Nat) : State :=
  match w with
  | .bar0 => ((s.setFld .SIG_ERR_LAST_SRC num).setFld .SIG_ERR_REASON reason).addSat .SIG_ERR_COUNT 1
  | .page n =>
    ((s.setFld .PSIG_ERR_LAST_SRC num 0 n.val).setFld .PSIG_ERR_REASON reason 0 n.val).addSat .PSIG_ERR_COUNT 1 0 n.val

/-- The global source that a writer's number names (R345, R347, R470). -/
def State.writerSrc (s : State) (w : SigWriter) (num : Nat) : Option Nat :=
  match w with
  | .bar0 => if num < 2048 then some num else none
  | .page n => s.globalSrc n.val num

/-- Offset of the register behind a writer's address. -/
def sigOfs (ofs : Nat) : Nat := 0x300 + ofs

/-- A write of one of the five addresses: turned away by the page's state, discarded with BAD_SOURCE, or carried out. `quiet`: a raise,
which a RESETTING instance's page discards without a record (R330, R469). -/
def State.sigWrite (s : State) (w : SigWriter) (ofs : Nat) (v : Reg32) (quiet : Bool) (act : State → Nat → State) : State :=
  let go : State :=
    let num := v.toNat % 2048
    match s.writerSrc w num with
    | some src => if v.toNat ≥ 2048 then s.sigErr w num 1 else act s src
    | none => s.sigErr w num 1
  match w with
  | .bar0 => go
  | .page n =>
    match s.pageState n.val with
    | .free => s.badAccess true (n.val * 0x1000 + sigOfs ofs) 4
    | .resetting => if quiet then s else s.badAccess true (n.val * 0x1000 + sigOfs ofs) 5
    | _ => go

/-- The device sources that hardware raises (R346). -/
def hwSource (n : Nat) : Bool := n ≤ 51 || (64 ≤ n && n ≤ 83)

/-- SIG_RAISE (R347): exactly as a hardware raise; a device source that hardware never raises is refused (R346). -/
def State.sigRaise (s : State) (w : SigWriter) (v : Reg32) : State :=
  s.sigWrite w 0 v true fun s src =>
    if src < 128 && !hwSource src then s.sigErr w (v.toNat % 2048) 1 else s.raise src

/-- SIG_PEND_SET (R347): pending, without STOP. -/
def State.sigPendSet (s : State) (w : SigWriter) (v : Reg32) : State :=
  s.sigWrite w 4 v false fun s src => { s with gutter := { s.gutter with pend := bitPut s.gutter.pend src true } }

/-- SIG_PEND_CLR (R347): clears pending and STOP_LATCH. -/
def State.sigPendClr (s : State) (w : SigWriter) (v : Reg32) : State :=
  s.sigWrite w 8 v false fun s src =>
    { s with gutter := { s.gutter with pend := bitPut s.gutter.pend src false, latch := bitPut s.gutter.latch src false } }

/-- SIG_MASK_SET (R347). -/
def State.sigMaskSet (s : State) (w : SigWriter) (v : Reg32) : State :=
  s.sigWrite w 12 v false fun s src => { s with gutter := { s.gutter with mask := bitPut s.gutter.mask src true } }

/-- SIG_MASK_CLR (R347). -/
def State.sigMaskClr (s : State) (w : SigWriter) (v : Reg32) : State :=
  s.sigWrite w 16 v false fun s src => { s with gutter := { s.gutter with mask := bitPut s.gutter.mask src false } }

/-- See `State.sigRaise`. -/
def execSigRaise (w : SigWriter) (v : Reg32) (s : State) : Res := .next (s.sigRaise w v)

/-- See `State.sigPendSet`. -/
def execSigPendSet (w : SigWriter) (v : Reg32) (s : State) : Res := .next (s.sigPendSet w v)

/-- See `State.sigPendClr`. -/
def execSigPendClr (w : SigWriter) (v : Reg32) (s : State) : Res := .next (s.sigPendClr w v)

/-- See `State.sigMaskSet`. -/
def execSigMaskSet (w : SigWriter) (v : Reg32) (s : State) : Res := .next (s.sigMaskSet w v)

/-- See `State.sigMaskClr`. -/
def execSigMaskClr (w : SigWriter) (v : Reg32) (s : State) : Res := .next (s.sigMaskClr w v)

/-- The settings that a SIG_SRC_CFG word spells (R361): class, wake, and the rest. -/
def srcCfgOf (v : Reg32) : Bool × Bool × SrcCfg :=
  (v.getLsbD 0, v.getLsbD 1, ⟨v.extractLsb' 4 8, v.extractLsb' 2 2, v.extractLsb' 12 8, v.extractLsb' 20 8, v.extractLsb' 28 4⟩)

/-- Members of a vector set or core set, by index 0–7: vector numbers, or 2048 + core (R348). -/
def State.members (s : State) (src : Nat) : List (Nat × Nat) :=
  let c := s.gutter.srcCfg src
  if c.kind = 1 then
    match s.srcOwner src with
    | none => []
    | some i =>
      let first := (s.inst i).shares.vecFirst
      (List.range 8).filterMap fun k => if c.vmask.getLsbD k then some (k, first + 8 * c.vblock.toNat + k) else none
  else if c.kind = 2 then
    (List.range 4).filterMap fun k => if c.cores.getLsbD k then some (k, 2048 + k) else none
  else []

/-- A target that may be set for a source (R348). -/
def State.targetOk (s : State) (src : Nat) (c : SrcCfg) : Bool :=
  if c.kind = 1 then
    match s.srcOwner src with
    | none => false
    | some i => c.vmask != 0 && (List.range 8).all fun k =>
        !c.vmask.getLsbD k || decide (8 * c.vblock.toNat + k < (s.inst i).shares.vecs)
  else if c.kind = 2 then src < 256 && c.cores != 0
  else true

/-- SIG_SRC_CFG (R348): the settings of the source that SIG_SRC_SEL shows; a bad target discards the write whole, and so does kind
0b11. -/
def State.sigSrcCfg (s : State) (w : SigWriter) (v : Reg32) : State :=
  let num := match w with
    | .bar0 => s.fld .SIG_SRC_SEL_SOURCE
    | .page n => s.fld .PSIG_SRC_SEL_SOURCE 0 n.val
  let act (s : State) (src : Nat) : State :=
    let (fast, wake, c) := srcCfgOf v
    if c.kind = 3 then s
    else if s.targetOk src c then
      let g := s.gutter
      { s with gutter := { g with fast := bitPut g.fast src fast, wake := bitPut g.wake src wake,
                                  cfg := kput ⟨0, 0, 0, 0, 0⟩ g.cfg src c } }
    else s.sigErr w num 2
  match w with
  | .bar0 => if s.underReset .SIG_SRC_CFG then s else s.sigWrite w 0x18 (BitVec.ofNat 32 num) false act
  | .page _ => s.sigWrite w 0x18 (BitVec.ofNat 32 num) false act

/-- See `State.sigSrcCfg`. -/
def execSigSrcCfgWrite (w : SigWriter) (v : Reg32) (s : State) : Res := .next (s.sigSrcCfg w v)

/-- SIG_PRIO (R355): the running priority of a vector of the page's instance. -/
def State.sigPrio (s : State) (i : Nat) (v : Reg32) : State :=
    match s.pageGate i 0x31C with
    | some s => s
    | none =>
      let x := s.inst i
      let vec := v.toNat % 2048
      if vec < x.shares.vecs then
        let g := s.gutter
        { s with gutter := { g with prio := kput 0 g.prio (x.shares.vecFirst + vec) (v.extractLsb' 16 4) } }
      else s

/-- See `State.sigPrio`. -/
def execSigPrio (i : Fin 512) (v : Reg32) (s : State) : Res := .next (s.sigPrio i.val v)

/-! Decisions (R349–R353). -/

/-- Posted running priority of a member; a sleeping core counts as 0 (R354, R355). -/
def Gutter.prioOf (g : Gutter) (m : Nat) : Nat :=
  if m < 2048 then ((kget g.prio m).getD 0).toNat
  else match g.cores[m - 2048]? with
    | some c => if c.sleep then 0 else c.prio.toNat
    | none => 0

/-- A hold-off of the group to the member runs (R352). -/
def Gutter.heldOff (g : Gutter) (now : Nat) (grp : BitVec 8) (m : Nat) : Bool :=
  g.gaps.any fun x => x.group == grp && x.member == m && now < x.ends

/-- The first member of lowest priority in index order after the one chosen last (R350). -/
def pickMember (last : Nat) (prio : Nat → Nat) (ms : List (Nat × Nat)) : Option (Nat × Nat) :=
  let low := ms.foldl (fun m x => min m (prio x.2)) 16
  let best := ms.filter fun x => prio x.2 == low
  match best.find? fun x => last < x.1 with
  | some x => some x
  | none => best.head?

/-- choose(s) of R350: the member, as its index and what it is. -/
def State.chooseMember (s : State) (src : Nat) : Option (Nat × Nat) :=
  let g := s.gutter
  let c := g.srcCfg src
  let all := s.members src
  let avail := all.filter fun x => g.prioOf x.2 < 15
  let ms := if c.kind = 1 && !avail.isEmpty then avail else all
  let ms := if g.fast.getLsbD src then
      (if c.kind = 2 then ms.filter fun x => !(g.cores[x.2 - 2048]?.any (·.fastBusy)) else ms)
    else ms.filter fun x => !g.heldOff s.time.mono c.group x.2
  pickMember ((kget g.last src).getD 7) g.prioOf ms

/-- A source is eligible (R345). -/
def Gutter.eligible (g : Gutter) (src : Nat) : Bool :=
  g.pend.getLsbD src && !g.mask.getLsbD src && (g.srcCfg src).kind != 0

/-- The sources of a class that may be decided now, round robin after the one served last (R349). -/
def State.nextSource (s : State) (fast : Bool) : Option (Nat × Nat × Nat) :=
  let g := s.gutter
  let start := (if fast then g.lastFast else g.lastNormal) + 1
  (List.range 2048).findSome? fun k =>
    let src := (start + k) % 2048
    if g.eligible src && g.fast.getLsbD src == fast then (s.chooseMember src).map fun m => (src, m) else none

/-- The host function can receive (R355). -/
def HostFn.canReceive (h : HostFn) : Bool := h.d == .d0 && h.msixEn && !h.funcMask && !h.perst

/-- Word `k` of a vector's MSI-X table entry; vector control reads masked after reset. -/
def Gutter.msixWord (g : Gutter) (vec k : Nat) : Reg32 := (kget g.msix (4 * vec + k)).getD (if k = 3 then 1 else 0)

/-- The MSI-X message of a vector (R355). -/
def State.sendMsix (s : State) (vec : Nat) : State :=
  let g := s.gutter
  s.post (.msix vec (g.msixWord vec 1 ++ g.msixWord vec 0) (g.msixWord vec 2))

/-- The vector is masked in the MSI-X table. -/
def Gutter.vecMasked (g : Gutter) (vec : Nat) : Bool := (g.msixWord vec 3).getLsbD 0

/-- A message to a vector while the function can receive: issued, or its PBA bit sets (R355). -/
def State.messageOrPba (s : State) (vec : Nat) : State :=
  if s.gutter.vecMasked vec then { s with gutter := { s.gutter with pba := bitPut s.gutter.pba vec true } }
  else s.sendMsix vec

/-- The wake that the first HELD vector asks of the host (R356, R399). -/
def State.askWake (s : State) : State :=
  if s.host.perst then
    if s.host.pmeAtCold && !s.host.wakeN then
      (({ s with host := { s.host with wakeN := true } }).emit (.wakeN true)).happen .PMU_EVENT_PME_SENT srcPmu
    else s
  else if s.host.d == .d3hot && s.host.pmeEn then (s.emit .pme).happen .PMU_EVENT_PME_SENT srcPmu
  else s

/-- A decision's delivery to a vector (R355). -/
def State.deliverVec (s : State) (vec : Nat) : State :=
  if s.host.canReceive then s.messageOrPba vec
  else
    let first := s.gutter.held == 0
    let s := { s with gutter := { s.gutter with held := bitPut s.gutter.held vec true } }
    if first then s.askWake else s

/-- A decision's delivery to a core (R354); a sleeping core makes PD_CORE wake. -/
def State.deliverCore (s : State) (src c : Nat) (fast : Bool) : State :=
  let asleep := (s.gutter.cores[c]?).any (·.sleep)
  let f (x : CoreState) : CoreState := { x with inFlight := true, fastFlight := (x.inFlight && x.fastFlight) || fast, fastBusy := x.fastBusy || fast }
  let s := { s with gutter := { s.gutter with cores := vmod s.gutter.cores c f } }
  let s := if asleep then
      { s with pmu := { s.pmu with doms := vmod s.pmu.doms 2 fun d => if d == .on then .on else .waking } }
    else s
  s.emit (.core c src fast)

/-- The decision for a source with the member chosen (R350–R353). -/
def State.decideFor (s : State) (src : Nat) (m : Nat × Nat) : State :=
  let g := s.gutter
  let c := g.srcCfg src
  let fast := g.fast.getLsbD src
  let same (n : Nat) : Bool :=
    let d := g.srcCfg n
    n == src || (g.eligible n && g.fast.getLsbD n == fast && d.group == c.group && d.kind == c.kind &&
      (if c.kind = 1 then d.vblock == c.vblock && d.vmask == c.vmask && s.srcOwner n == s.srcOwner src else d.cores == c.cores))
  let served := (List.range 2048).foldl (fun p n => if g.pend.getLsbD n && same n then bitPut p n false else p) g.pend
  let hold := min (s.fld .SIG_GRP_HOLDOFF_HOLDOFF c.group.toNat) 7812
  let gaps := if !fast && hold != 0 then ⟨c.group, m.2, s.time.mono + hold * 128⟩ :: g.gaps else g.gaps
  let s := { s with gutter := { g with pend := served, last := kput 7 g.last src m.1, gaps := gaps
                                       lastFast := if fast then src else g.lastFast
                                       lastNormal := if fast then g.lastNormal else src } }
  let s := s.addSat .SIG_DELIVER_CNT_COUNT 1
  if m.2 < 2048 then s.deliverVec m.2 else s.deliverCore src (m.2 - 2048) fast

/-- A decision of the gutter (R349): the fast sources first. While PD_DISP sleeps none is made. -/
def execGutterDecision (s : State) : Res :=
  .next <|
    if s.pmu.doms[4] == .on then
      match s.nextSource true with
      | some (src, m) => s.decideFor src m
      | none =>
        match s.nextSource false with
        | some (src, m) => s.decideFor src m
        | none => s
    else s

/-- A group's hold-off gap to a member ends (R352). -/
def execHoldoffEnd (group : BitVec 8) (member : Nat) (s : State) : Res :=
  .next { s with gutter := { s.gutter with gaps := s.gutter.gaps.filter fun x => !(x.group == group && x.member == member) } }

/-- Change a core. -/
def State.modCore (s : State) (c : Nat) (f : CoreState → CoreState) : State :=
  { s with gutter := { s.gutter with cores := vmod s.gutter.cores c f } }

/-- A core takes the delivery in flight (R354); a sleeping core takes it when it is awake. -/
def execCoreDeliveryTaken (core : Fin 4) (s : State) : Res :=
  .next <| s.modCore core.val fun x => if x.sleep then x else { x with inFlight := false, fastFlight := false }

/-- A core finishes a fast delivery and frees its second register bank (R353). A delivery still in flight stays. -/
def execFastBankRelease (core : Fin 4) (s : State) : Res :=
  .next <| s.modCore core.val fun x => if x.inFlight && x.fastFlight then x else { x with fastBusy := false }

/-! The host function (R355–R357). -/

/-- What waited in write-back issues in order, raises after their entries (R357). -/
def State.flushPosted (s : State) : State :=
  if s.canPost then
    let q := s.hostq
    q.foldl (fun s p => match p with
      | .write o => s.emit o
      | .raise n => s.raise n) { s with hostq := [] }
  else s

/-- When the function can receive again, each HELD vector sends one message or moves to the PBA, in increasing order, and PBA-pending
vectors that are not masked send theirs (R355, R356). -/
def State.releaseHeld (s : State) : State :=
  if s.host.canReceive then
    let held := s.gutter.held
    let s := { s with gutter := { s.gutter with held := 0 } }
    (List.range 2048).foldl (fun s v =>
      let s := if held.getLsbD v then s.messageOrPba v else s
      if s.gutter.pba.getLsbD v && !s.gutter.vecMasked v then
        ({ s with gutter := { s.gutter with pba := bitPut s.gutter.pba v false } }).sendMsix v
      else s) s
  else s

/-- A PMCSR write (R356): D3hot stops messages and memory writes; the return to D0 lets entries, raises and HELD vectors go. -/
def execPowerStateChange (d : DStateCode) (pmeEn : Bool) (s : State) : Res :=
  .next <|
    if s.host.perst then s
    else
      let s := { s with host := { s.host with pmeEn := pmeEn } }
      match d with
      | .d3hot =>
        let fresh := s.host.d == .d0
        let s := { s with host := { s.host with d := .d3hot } }
        if fresh then s.setBit .HIF_EVENT_D3HOT else s
      | .d0 => (({ s with host := { s.host with d := .d0 } }).flushPosted).releaseHeld

/-- A change of MSI-X Enable or Function Mask (R356). -/
def execMsixControlChange (enable mask : Bool) (s : State) : Res :=
  .next <| if s.host.perst then s else ({ s with host := { s.host with msixEn := enable, funcMask := mask } }).releaseHeld

/-- Writes a word of the MSI-X table; a vector that becomes unmasked with its PBA bit set sends its message (R355). -/
def State.msixWrite (s : State) (idx : Nat) (v : Reg32) : State :=
  let k := idx % 4
  let vec := idx / 4
  let v : Reg32 := if k = 3 then v &&& 1 else if k = 0 then v &&& 0xFFFFFFFC else v
  let s := { s with gutter := { s.gutter with msix := kput (if k = 3 then 1 else 0) s.gutter.msix idx v } }
  if k = 3 && v == 0 && s.gutter.pba.getLsbD vec && s.host.canReceive then
    ({ s with gutter := { s.gutter with pba := bitPut s.gutter.pba vec false } }).sendMsix vec
  else s

/-- The host unmasks a vector in the MSI-X table (R355). -/
def execVectorUnmask (v : Fin 2048) (s : State) : Res :=
  .next <| if s.host.perst then s else s.msixWrite (4 * v.val + 3) 0

end Sys2Proof.Machine
end

