-- ==== Sys2Proof/Machine/RegFile.lean ====
section
/-!
DEFINITION. Writes of configuration fields by class (R5–R8, R474–R476): which block runs, which values a field takes, STATIC_WRITE.
-/

namespace Sys2Proof.Machine

/-- The detecting block of a register, as R448 codes it. -/
def Reg.block (r : Reg) : Nat :=
  let p := r.place
  match p.space with
  | .page => blkMbx
  | .bar0 =>
    let b := p.base / 0x1000
    if b = 0x2 then blkMbx
    else if b = 0x3 then blkMbx
    else if b = 0x4 then blkPln
    else if b = 0x5 then blkDsp
    else if b = 0x6 then blkEng
    else if b = 0x7 then blkTapu
    else if b = 0x8 then blkTrk
    else if b = 0x9 then blkGang
    else if b = 0xA then blkPmu
    else if b = 0xB then blkPpm
    else if b = 0xC then blkBoot
    else if b = 0xE then blkPtb
    else blkHif

/-- The detecting block of a copy of a register: those of GA and GB lie in the gang's block (R388, R467). -/
def Reg.copyBlock (r : Reg) (k : Nat) : Nat := if r.place.count = 18 && decide (16 ≤ k) then blkGang else r.block

/-- The modes in which the dispatcher and the engines run (R250, R277). -/
def State.busy (s : State) : Bool := s.pmu.mode.courses

/-- A flow of an instance names a completion ring. -/
def State.ringNamed (s : State) (i q : Nat) : Bool := s.flows.any fun e => e.2.service.isNone && e.2.inst == i && e.2.cq.val == q

/-- The block behind a static field runs (R476). DESIGN CHOICE (assumption 75): an estimator runs by the EN last written, not by the shadowed one in
force. -/
def State.blockRuns (s : State) (r : Reg) (n k : Nat) : Bool :=
  let p := r.place
  match p.space with
  | .page =>
    if p.base < 0x100 then s.flag .INST_MB_CFG_ENABLE 0 n || !(s.inst n).mb.taken.isEmpty
    else if 0x800 ≤ p.base && p.base < 0xA00 then s.flag .INST_CQ_CFG_ENABLE k n
    else false
  | .bar0 =>
    let b := p.base / 0x1000
    if p.count = 18 then
      if k = 16 then s.ga.state != .off
      else if k = 17 then s.gbUp
      else match s.ports[k]? with
        | some x => x.state == .resetting || x.state == .enabled || x.state == .suspended || x.state == .resuming
        | none => false
    else if b = 0x2 then
      s.flag .INST_MB_CFG_ENABLE || (s.flows.any fun e => e.2.inst == 0 && e.2.service.isNone) ||
        (s.flag .TRC_CTRL_EN && s.flag .TRC_CTRL_DEST)
    else if b = 0x4 then s.flows.any fun e => e.2.par.ty.scheduled
    else if b = 0x5 then (if p.base < 0x5100 then s.busy else s.flag .TRC_CTRL_EN)
    else if b = 0x6 then s.busy
    else if b = 0x7 then (if 0x7100 ≤ p.base && p.base < 0x7300 then s.flag .TAPU_PACE_CFG_EN k else false)
    else if b = 0xB then
      if p.base < 0xB200 then (match s.ppm[k]? with | some x => x.phase != .off | none => false)
      else match s.feeds[k]? with | some g => g.aEn || g.bEn | none => false
    else if b = 0xE then s.pmu.mode == .run || s.pmu.mode == .hold
    else false

/-- A source that an instance may name for its events and entries (R345): the manager only its software sources. -/
def State.nameable (s : State) (i loc : Nat) : Bool := if i = 0 then decide (128 ≤ loc) && decide (loc ≤ 255) else (s.globalSrc i loc).isSome

/-- A value that a field takes; others are discarded, and the field keeps its value. -/
def State.fieldOk (s : State) (f : Fld) (n x : Nat) : Bool :=
  if f = .TAPU_COURSE_CFG_PERIOD then 32 ≤ x && x ≤ 8192
  else if f = .TAPU_TIME_CTRL_SOURCE then x != 3
  else if f = .TAPU_PACE_CFG_KIND then x != 3
  else if f = .INST_CQ_CFG_SIZE then 4 ≤ x && x ≤ 16
  else if f = .INST_CQ_CFG_SRC ∨ f = .INST_MB_CFG_SRC ∨ f = .INST_STALL_CFG_SRC then s.nameable n x
  else if f = .TRC_RING_CFG_SIZE then 6 ≤ x && x ≤ 20
  else true

/-- The gang port copies of TRK_ registers have no such field (R388). -/
def noField (f : Fld) (k : Nat) : Bool :=
  (k ≥ 16 && [Fld.TRK_CTRL_HR_EN, .TRK_CTRL_AUTO_STEP, .TRK_CTRL_STEP_DOWN, .TRK_PCFG_AUTO_ENUM, .TRK_PCFG_RESEAT_WIN].contains f) ||
    (k == 17 && f == .TRK_PCFG_WAKE_EN)

/-- What a write of one field does to the register's word and to the state, and whether a static field turned it away (R5, R7, R474).
`runs`: the block ran when the write came; `locked`: a live field that R225 treats as static. DESIGN CHOICE (assumption 75): a value that the field
cannot hold is discarded before the static check, so it logs no STATIC_WRITE in a running block. -/
def State.writeField (s : State) (f : Fld) (n k : Nat) (v : Reg32) (runs locked : Bool) : State × Bool :=
  let x := f.get v
  let old := s.fld f k n
  if noField f k then (s, false)
  else
    match f.acc with
    | .rw =>
      if x = old || !s.fieldOk f n x then (s, false)
      else if locked || (f.cls == .s && runs) then (s, true)
      else ((if f.cls == .c then s.shadow f.reg n k else s).setFld f x k n, false)
    | .w1s => (s.setFld f (old ||| x) k n, false)
    | .w1c => (s.setFld f (old &&& ((2 ^ f.width - 1) ^^^ x)) k n, false)
    | _ => (s, false)

/-- Writes the fields of a register; static ones that were turned away log one STATIC_WRITE (R474). -/
def State.writeFields (s : State) (r : Reg) (n k : Nat) (v : Reg32) (locked : Fld → Bool := fun _ => false) : State :=
  let x := r.fields.foldl (fun (x : State × Bool) f =>
    let y := x.1.writeField f n k v (s.blockRuns r n k) (locked f)
    (y.1, x.2 || y.2)) (s, false)
  if x.2 then x.1.error catFirmware 0x01 (r.copyBlock k) .normal (r.key n k) else x.1

end Sys2Proof.Machine
end

