-- ==== Sys2Proof/Machine/Errors.lean ====
section
/-!
DEFINITION. The error manager's acknowledgements (R451, R453), the host's stop command (R269, R277), and the errors that arrive from
outside: a supply, the PCIe link, AER (R449, R480); LTR (R480).
-/

namespace Sys2Proof.Machine

/-- Acknowledges the record of a category: VALID, OVERFLOW and COUNT clear (R451). -/
def State.ackRec (s : State) (cat : Nat) : State :=
  match s.errs.recs[cat]? with
  | none => s
  | some r =>
    let r := { r with valid := false, overflow := false, count := 0 }
    { s with errs := { s.errs with recs := s.errs.recs.setIfInBounds cat r } }

/-- ERR_ACK (R451): discarded when SEQ is not that of the current record. -/
def State.errAck (s : State) (v : Reg32) : State :=
  let cat := Fld.ERR_ACK_CATEGORY.get v
  match s.errs.recs[cat]? with
  | none => s
  | some r => if r.valid && r.seq.toNat == Fld.ERR_ACK_SEQ.get v then s.ackRec cat else s

/-- See `State.errAck`. -/
def execErrAck (v : Reg32) (s : State) : Res := .next (s.errAck v)

/-- ERR_FATAL_ACK (R453): discarded when SEQ differs. -/
def State.errFatalAck (s : State) (v : Reg32) : State :=
  let f := s.errs.fatal
  if f.valid && f.seq.toNat == Fld.ERR_FATAL_ACK_SEQ.get v then
    { s with errs := { s.errs with fatal := { f with valid := false } } }
  else s

/-- See `State.errFatalAck`. -/
def execErrFatalAck (v : Reg32) (s : State) : Res := .next (s.errFatalAck v)

/-- ENG_STOP_CMD.TRIGGER (R269): STOP with reason 0x3. A warm start discards the write while it resets the engines (R433). -/
def State.stopCmd (s : State) (v : Reg32) : State :=
  if s.underReset .ENG_STOP_CMD then s else if Fld.ENG_STOP_CMD_TRIGGER.get v = 1 then s.stopTrigger 3 else s

/-- See `State.stopCmd`. -/
def execEngStopCmd (v : Reg32) (s : State) : Res := .next (s.stopCmd v)

/-- A supply leaves its operating range (R449): SUPPLY, fatal class, with the supply's index. -/
def execSupplyFault (n : Fin 7) (s : State) : Res :=
  .next (s.error catPower 0x01 blkPmu .fatalClass n.val)

/-- The PCIe link goes down without PERST_N (R449, R480). -/
def execSurpriseDown (ltssm : Reg32) (s : State) : Res :=
  .next <|
    if s.host.up then
      let s := { s with host := { s.host with up := false, width := 0 } }
      (s.setBit .HIF_EVENT_SURPRISE_DOWN).error catHost 0x03 blkHif .fatalClass ltssm.toNat
    else s

/-- An uncorrectable PCIe error is reported (R449, R480). -/
def execAerUncorrectable (status : Reg32) (s : State) : Res :=
  .next ((s.setBit .HIF_EVENT_AER_UNCORR).error catHost 0x02 blkHif .normal status.toNat)

/-- The bits of HIF_LTR that are fields. -/
def ltrMask : Reg32 := 0x1FFF

/-- Write of HIF_LTR (R480): an LTR message goes out when VALUE or SCALE changes, once the host has enabled LTR. -/
def State.ltrWrite (s : State) (v : Reg32) : State :=
  let old := s.reg .HIF_LTR
  let new := v &&& ltrMask
  let s := s.setReg .HIF_LTR new
  if s.host.ltrEn && new != old then s.emit (.ltr new) else s

/-- See `State.ltrWrite`. -/
def execHifLtrWrite (v : Reg32) (s : State) : Res := .next (s.ltrWrite v)

/-- The host enables LTR (R480). -/
def execLtrEnable (s : State) : Res :=
  .next <|
    if s.host.ltrEn then s
    else ({ s with host := { s.host with ltrEn := true } }).emit (.ltr (s.reg .HIF_LTR))

end Sys2Proof.Machine
end

