-- ==== Sys2Proof/Machine/Complete.lean ====
section
/-!
DEFINITION. Commands that firmware has taken and their completions (R283, R284, R288–R290), the port address (R294), the port status
word (R104), and the commands that wait for a port (R298, R299).
-/

namespace Sys2Proof.Machine

/-! Status codes (R293). -/
def stOk : Nat := 0x0000
def stTagConflict : Nat := 0x0002
def stBadOpcode : Nat := 0x0010
def stBadParam : Nat := 0x0011
def stNotPermitted : Nat := 0x0012
def stNoResource : Nat := 0x0020
def stNotAdmissible : Nat := 0x0021
def stShareInUse : Nat := 0x0022
def stBusy : Nat := 0x0030
def stWrongMode : Nat := 0x0031
def stAborted : Nat := 0x0040
def stDetached : Nat := 0x0041
def stGangMismatch : Nat := 0x0050
def stImageInvalid : Nat := 0x0060
def stRollback : Nat := 0x0061
def stInternal : Nat := 0x0070

/-! Taken commands. -/

/-- OPCODE, FLAGS and TAG of a command entry (R280). -/
def Taken.opcode (t : Taken) : Nat := fieldAt t.entry 0 2
def Taken.flags (t : Taken) : Nat := fieldAt t.entry 2 1
def Taken.tag (t : Taken) : BitVec 32 := BitVec.ofNat 32 (fieldAt t.entry 4 4)

/-- A parameter of a command: `n` bytes at offset `o`, little-endian (R294). -/
def Taken.arg (t : Taken) (o n : Nat) : Nat := fieldAt t.entry o n

/-- A taken command. -/
def State.taken (s : State) (c : CmdRef) : Option Taken := (s.inst c.inst.val).mb.taken.find? (·.idx == c.idx)

/-- Change a taken command of an instance. -/
def State.modTaken (s : State) (i : Nat) (idx : BitVec 16) (f : Taken → Taken) : State :=
  s.modInst i fun x => { x with mb := { x.mb with taken := x.mb.taken.map fun t => if t.idx == idx then f t else t } }

/-- Advances K past completed commands; at most `n` of them. -/
def Mailbox.advance : Nat → Mailbox → Mailbox
  | 0, m => m
  | n + 1, m =>
    if m.completed.contains m.oldest then
      Mailbox.advance n { m with completed := m.completed.filter (· != m.oldest), oldest := m.oldest + 1 }
    else m

/-- A command leaves the taken ones, its completion written (R281). -/
def Mailbox.retire (m : Mailbox) (idx : BitVec 16) : Mailbox :=
  let m := { m with taken := m.taken.filter (·.idx != idx), completed := idx :: m.completed }
  m.advance m.completed.length

/-- The raise after a completion entry: SIG, or EVERY (R284). -/
def State.raiseMb (s : State) (i : Nat) (sig : Bool) : State :=
  if sig || s.flag .INST_MB_CFG_EVERY 0 i then s.raiseAfter (s.mbSrc i) else s

/-- Twenty result bytes. -/
def result20 (r : List Byte) : List Byte := (r ++ List.replicate 20 0).take 20

/-- The cache after a completion (R289, R290): an aborted command leaves it, a conflict does not change it. -/
def cacheNote (cache : List Cached) (tag : BitVec 32) (status : Nat) (entry : List Byte) : List Cached :=
  if status = stAborted then cache.filter (·.tag != tag)
  else if status = stTagConflict then cache
  else cache.map fun k => if k.tag == tag then { k with cpl := some entry } else k

/-- Writes the copies that duplicates of a completed command get (R289). -/
def State.writeCopies (s : State) (i : Nat) (dups : List Taken) (body : List Byte) (flags bad : Byte) : State :=
  dups.foldl (fun s t =>
    let s := s.putEntry i body (flags ||| 1) bad
    let s := s.modInst i fun x => { x with mb := x.mb.retire t.idx }
    s.raiseMb i (t.flags % 2 == 1)) s

/-- A taken command completes (R283, R284): one entry, in the order of completing, then the raise, then copies for duplicates. -/
def State.complete (s : State) (i : Nat) (idx : BitVec 16) (status : Nat) (result : List Byte) (bad : Nat := 0) : State :=
  match (s.inst i).mb.taken.find? (·.idx == idx) with
  | none => s
  | some t =>
    let pert := s.perturbed || t.pertOn || s.ptbSeq != t.pertSeq
    let flags : Byte := if pert then 2 else 0
    let body := leBytes 4 t.tag.toNat ++ leBytes 2 status ++ leBytes 2 t.opcode ++ result20 result
    let bad := BitVec.ofNat 8 bad
    let s := s.putEntry i body flags bad
    let s := s.modInst i fun x =>
      { x with mb := { x.mb.retire idx with cache := cacheNote x.mb.cache t.tag status (body ++ [flags, bad]) } }
    let s := s.raiseMb i (t.flags % 2 == 1)
    if status = stTagConflict then s
    else s.writeCopies i ((s.inst i).mb.taken.filter fun u => u.copies && u.tag == t.tag) body flags bad

/-- The command of a row completes. -/
def State.done (s : State) (c : CmdRef) (status : Nat) (result : List Byte) (bad : Nat := 0) : State :=
  s.complete c.inst.val c.idx status result bad

/-- Commands of any instance that have acted and wait, and satisfy a test. -/
def State.waitingCmds (s : State) (f : Taken → Bool) : List (Nat × Taken) :=
  s.insts.flatMap fun e => (e.2.mb.taken.filter fun t => t.waiting && f t).map fun t => (e.1, t)

/-! Ports as commands name them. -/

/-- The nibbles of a route string, tier 1 first. -/
def routeNibs (r : Nat) : List (Fin 16) :=
  [Fin.ofNat 16 (r / 4096), Fin.ofNat 16 (r / 256), Fin.ofNat 16 (r / 16), Fin.ofNat 16 r]

/-- The place that a route string of some depth names (R65). -/
def posOf (trunk : Fin 16) (depth route : Nat) : Pos := ⟨trunk, (routeNibs route).take depth⟩

/-- The port address of bytes 8–12 (R294), or the first byte in error. -/
def paPort (e : List Byte) : Except Nat PortRef :=
  let b (n : Nat) : Nat := fieldAt e n 1
  let route := fieldAt e 10 2
  let depth := b 9
  if b 8 ≥ 16 then .error 8
  else if depth > 4 then .error 9
  else
    let t : Fin 16 := Fin.ofNat 16 (b 8)
    if depth = 0 then
      if route ≠ 0 then .error 10 else if b 12 ≠ 0 then .error 12 else .ok (.root t)
    else if ((routeNibs route).drop (depth - 1)).any (· != 0) then .error 10
    else if b 12 ≥ 16 then .error 12
    else .ok (.hub (posOf t (depth - 1) route) (Fin.ofNat 16 (b 12)))

/-- Bytes 8–12 of a port address (R294, R312). -/
def paBytes (p : PortRef) : List Byte :=
  match p with
  | .root t => [BitVec.ofNat 8 t.val, 0, 0, 0, 0]
  | .ga => [16, 0, 0, 0, 0]
  | .hub h q => [BitVec.ofNat 8 h.trunk.val, BitVec.ofNat 8 (h.path.length + 1)] ++ leBytes 2 h.route.toNat ++
      [BitVec.ofNat 8 q.val]

/-- The port status word (R104). -/
def Port.word (p : Port) : Word :=
  BitVec.ofNat 36 (p.state.code + p.present.toNat * 2 ^ 3 +
    rateCode (if p.state == .enabled then p.rx.rate else none) * 2 ^ 4 + p.wakeEn.toNat * 2 ^ 6 + p.overcurrent.toNat * 2 ^ 7 +
    p.cause.code * 2 ^ 8 + p.remoteWake.toNat * 2 ^ 10 + p.attachLatch.toNat * 2 ^ 11 + p.change.toNat * 2 ^ 16)

/-- A port command that has acted has reached its end with the port in this state (R298, R299). -/
def portDone (opcode on : Nat) (st : PortState) : Bool :=
  if opcode = 0x0201 then (if on % 2 = 1 then st != .off else st == .off)
  else if opcode = 0x0203 then st != .enabled
  else if opcode = 0x0202 ∨ opcode = 0x0204 ∨ opcode = 0x020A then
    st == .enabled || st == .fault || st == .powered || st == .off || st == .disabled
  else false

/-- Ports of the hub descriptor that firmware has read (R98). -/
def NodeRec.nports (n : NodeRec) : Nat := match n.hub with | [_, w] => wbits w 35 32 + 1 | _ => 0

/-- A port's way to a device that is to be enumerated is not at its end: it resets, resumes, or waits for its attach (R91, R96). -/
def Port.arriving (x : Port) : Bool := x.state == .resetting || x.state == .resuming || (x.state == .powered && x.present)

/-- The enumeration of a trunk has something to do or to wait for (R96). -/
def State.treePending (s : State) (t : Fin 16) : Bool :=
  s.enums.any (fun r => r.pos.trunk == t) || s.ports[t].arriving ||
    s.devices.any (fun x => x.pos.trunk == t && x.ports.any Port.arriving) ||
    s.nodes.any fun e => e.2.present && e.2.pos.trunk == t && decide (e.2.powered < e.2.nports)

/-- TREE_ENUMERATE of a trunk completes when its walk has come to its end (R96, R298). -/
def State.treeCmds (s : State) (t : Fin 16) : State :=
  if s.treePending t then s
  else (s.waitingCmds fun u => u.opcode == 0x0206 && u.arg 8 1 == t.val).foldl
    (fun (s : State) e => s.complete e.1 e.2.idx stOk e.2.result) s

/-- Completes the port commands that waited for the state a port is now in. -/
def State.settle (s : State) (p : PortRef) : State :=
  match s.port p with
  | none => s
  | some x =>
    let code : Byte := BitVec.ofNat 8 x.state.code
    let ready := s.waitingCmds fun t =>
      (match paPort t.entry with | .ok q => q == p | .error _ => false) && portDone t.opcode (t.arg 13 1) x.state
    let s := ready.foldl (fun s e =>
      s.complete e.1 e.2.idx stOk (if e.2.opcode = 0x0204 then [code, BitVec.ofNat 8 x.remoteWake.toNat] else [code])) s
    match p.trunk with
    | some t => s.treeCmds t
    | none => s

end Sys2Proof.Machine
end

