-- ==== Sys2Proof/Machine/FlowOps.lean ====
section
/-!
DEFINITION. Operations on flows that several chapters share: routes and their delays (R76, R109, R136, R507), hold causes and hold
conditions (R150), the end of transfers by detach, by link failure or by a reset (R94, R95, R114), re-seat records (R116).
-/

namespace Sys2Proof.Machine

/-! Routes. -/

end Sys2Proof.Machine

namespace Sys2Proof

/-- The hubs on a path, from the root on. -/
def Pos.hubs (d : Pos) : List Pos := (List.range d.path.length).map fun i => ⟨d.trunk, d.path.take i⟩

end Sys2Proof

namespace Sys2Proof.Machine

/-- What the controller knows of the hub at a place: of one that is gone, what it last knew (R136, R159). -/
def State.hubKnown (s : State) (h : Pos) : Option NodeRec :=
  let at_ (e : Nat × NodeRec) : Bool := e.2.pos == h && !e.2.hub.isEmpty
  ((s.nodes.find? fun e => at_ e && e.2.present).or (s.nodes.find? at_)).map (·.2)

/-- FWD_DOWN and FWD_UP of the hub at a place, ns, from its descriptor (R98, R136). -/
def State.fwd (s : State) (h : Pos) : Nat × Nat :=
  match (s.hubKnown h).map (·.hub) with
  | some [_, w] => (wbits w 31 26, wbits w 25 20)
  | _ => (0, 0)

/-- The estimate of a link's one-way delay that the controller holds, 1/64 ns: its own of a root link, the one last read of a hub's (R136). -/
def State.estimate (s : State) (p : PortRef) : Option Nat :=
  match p with
  | .hub h q => (s.hubKnown h).bind fun n => kget n.delays q.val
  | _ => (s.port p).bind fun x => if x.delay.valid then some x.delay.oneWay.toNat else none

/-- One-way delay of a link, 1/64 ns: its estimate, or 200 ns before its first (R507). -/
def State.linkDelay (s : State) (p : PortRef) : Nat := (s.estimate p).getD 12800

/-- Every link of a route has an estimate (R507). -/
def State.estimated (s : State) (d : Pos) : Bool := d.ports.all fun p => (s.estimate p).isSome

/-- Path delay D, 1/64 ns (R136). -/
def State.pathDelay (s : State) (d : Pos) : Nat :=
  (d.ports.map s.linkDelay).sum + 64 * (d.hubs.map fun h => (s.fwd h).1).sum

/-- Path round trip, 1/64 ns (R136). -/
def State.pathRtt (s : State) (d : Pos) : Nat :=
  2 * (d.ports.map s.linkDelay).sum + 64 * (d.hubs.map fun h => (s.fwd h).1 + (s.fwd h).2).sum

/-- The rate of a port's link, while it is up. -/
def State.rateOf (s : State) (p : PortRef) : Option Rate := (s.port p).bind fun x => x.rx.rate

/-- A route passes a port that forwards from HR to BR (R109). -/
def State.mixed (s : State) (d : Pos) : Bool :=
  (d.ports.zip (d.ports.drop 1)).any fun x => s.rateOf x.1 == some .hr && s.rateOf x.2 == some .br

/-- Response timeout in ns after the last block sent: round trip + 96 ns, extended where a port mixes rates (R76, R109).
DESIGN CHOICE (assumption 74): the round trip, held in 1/64 ns, is rounded up to whole ns. -/
def State.respTimeout (s : State) (d : Pos) (down up : Nat) : Nat :=
  (s.pathRtt d + 63) / 64 + 96 + (if s.mixed d then 112 * down + 128 * up + 16 else 0)

/-- Block time of a trunk's root link, ns; HR where it is not up. -/
def State.rootBlock (s : State) (t : Fin 16) : Nat := blockNs ((s.ports[t].rx.rate).getD .hr)

/-- Course-synchronised: the device at each place of a route (R229). -/
def State.synced (s : State) (d : Pos) : Bool :=
  (d.hubs ++ [d]).all fun x => match s.dev x with | some y => y.link.synced | none => false

/-- A re-seat record of a link failure still keeps the flows of an address from running (R95). -/
def State.awaited (s : State) (addr : BitVec 12) : Bool := s.reseats.any fun r => r.addr == addr && r.byLinkFail

/-- LINK (R229): every link of the route ENABLED and course-synchronised, and no link failure whose re-seat check is still to come. -/
def State.linkFlag (s : State) (f : Flow) : Bool := s.routeUp f.pos && s.synced f.pos && !s.awaited f.addr

/-- Some link of a flow's route has stepped down to BR (R150). -/
def State.steppedDown (s : State) (f : Flow) : Bool :=
  f.pos.ports.any fun p => match s.port p with | some x => x.stepped | none => false

/-! Hold. -/

/-- The causes that a flow carries, as bits of R302. -/
def HoldCauses.bits (c : HoldCauses) : Nat :=
  c.command.toNat + c.escalated.toNat * 2 + c.detached.toNat * 4 + c.frozen.toNat * 8 + c.stalled.toNat * 16 +
    c.resync.toNat * 32 + c.ringFault.toNat * 64 + c.bulkLasting.toNat * 128 + c.readFault.toNat * 2048

/-- Release modes that need valid time. -/
def Flow.needsTime (f : Flow) : Bool := f.par.ty.scheduled && f.par.ty.output && f.par.rel != .course

/-- The causes that follow from other state: STEPPED_DOWN, TIME_INVALID, MODE_HOLD (R150, R302). -/
def State.derivedCauses (s : State) (f : Flow) : Nat :=
  if f.service.isSome || !f.par.ty.scheduled then
    (if f.service.isNone && s.pmu.mode == .hold && f.par.ty.bulk then 1024 else 0)
  else
    (s.steppedDown f && !f.par.essential).toNat * 256 + (f.needsTime && !s.timedOk).toNat * 512 +
      (s.pmu.mode == .hold).toNat * 1024

/-- All hold causes of a flow (R302). -/
def State.causeBits (s : State) (f : Flow) : Nat := f.causes.bits + s.derivedCauses f

/-- A condition of R150 holds for a flow, or its instance is being reset (R330). A service flow is never held (R167). -/
def State.holds (s : State) (f : Flow) : Bool :=
  f.service.isNone && (s.causeBits f != 0 || (s.inst f.inst).state == .resetting)

/-- An event of a flow, for its instance (R311, R312); service flows have none. -/
def State.flowEvent (s : State) (code : Nat) (f : Flow) (detail : List Byte) : State :=
  if f.service.isSome then s else s.event f.inst code f.num detail

/-- An event of a node, for the manager and the instance to which the node is bound (R311). -/
def State.nodeEvent (s : State) (code : Nat) (addr : BitVec 12) (detail : List Byte) : State :=
  let s := s.event 0 code addr.toNat detail
  match kget s.binds addr.toNat with
  | some b => if b.inst = 0 then s else s.event b.inst code addr.toNat detail
  | none => s

/-- A flow's causes change; FLOW_HELD reports those that began, FLOW_RESUMED the end of the last (R302, R312). -/
def State.setCauses (s : State) (ctx : Nat) (g : HoldCauses → HoldCauses) : State :=
  match s.flow ctx with
  | none => s
  | some f =>
    let old := f.causes
    let new := g old
    let s := s.modFlow ctx fun f => { f with causes := new }
    let began := new.bits &&& (4095 ^^^ old.bits)
    if began ≠ 0 then s.flowEvent evFlowHeld f (leBytes 2 began)
    else if old.bits ≠ 0 && new.bits = 0 then s.flowEvent evFlowResumed f (leBytes 4 s.course.count.toNat)
    else s

/-- Changes the causes of several flows. -/
def State.setCausesAll (s : State) (ctxs : List Nat) (g : HoldCauses → HoldCauses) : State :=
  ctxs.foldl (fun s c => s.setCauses c g) s

/-- Contexts of the flows that satisfy a test. -/
def State.ctxs (s : State) (f : Flow → Bool) : List Nat := (s.flows.filter fun e => f e.2).map (·.1)

/-! Changes (R176). -/

/-- A change joins those that wait; none takes effect before an earlier one. -/
def Flow.addChange (f : Flow) (ch : FlowChange) : Flow :=
  { f with changes := f.changes ++ [{ ch with from_ := max ch.from_ ((f.changes.getLast?.map (·.from_)).getD 0) }] }

/-- No change takes effect before a boundary. -/
def Flow.notBefore (f : Flow) (b : Nat) : Flow := { f with changes := f.changes.map fun ch => { ch with from_ := max ch.from_ b } }

/-- The parameters of a flow once some changes have taken effect. -/
def Flow.parAfter (f : Flow) (l : List FlowChange) : FlowParams := l.foldl (fun (p : FlowParams) ch => ch.params.getD p) f.par

/-- A flow is in the plan once some changes have taken effect. -/
def Flow.inPlanAfter (f : Flow) (l : List FlowChange) : Bool := (f.active || l.any (·.opens)) && !l.any (·.closes)

/-! Toggles and sequences (R82). -/

/-- The controller's side of a flow's endpoint in the initial state (R82). -/
def Flow.resetSeq (f : Flow) : Flow :=
  { f with sendToggle := false, recvToggle := false, seq := 0, acked := 0, recvSeq := 0, credit := 1, probe := false }

/-- FLOW_UNHOLD clears the course history of LASTING outcomes (R266), and what firmware would have done about it. -/
def Flow.forgetLasting (f : Flow) : Flow := { f with lastingAt := [], escalateDue := none, bulkDue := false }

/-! Ends of transfers. -/

/-- The request of a control transfer may have been performed (R114): its SETUP went out for a transfer without OUT data, or its last
OUT data packet went out. -/
def ctlEffect (f : Flow) (x : Transfer) : Bool :=
  f.par.ty == .control && x.inProgress &&
    match x.desc with
    | none => false
    | some (_, _, a0, a1) =>
      let count := wbits a1 11 0
      if a0.getLsbD 35 || count = 0 then true
      else
        match x.step with
        | .setup => false
        | .dataOut => decide (count ≤ x.moved + 16) && x.unsure
        | _ => true

/-- A descriptor of an unscheduled flow is in progress (R243). -/
def Flow.inWork (f : Flow) (x : Transfer) : Bool := !f.par.ty.scheduled && x.inProgress && x.fin.isNone

/-- Drops what the transmit queues and the engines hold for flows that satisfy a test. -/
def State.dropWork (s : State) (hit : Nat → Bool) : State :=
  { s with
    flows := s.flows.map fun (e : Nat × Flow) =>
      if hit e.1 && e.2.task.state == TaskState.inHand then (e.1, { e.2 with task := { e.2.task with state := .waiting } }) else e
    txq := s.txq.map fun q => q.filter fun e => !hit e.ctx
    expects := s.expects.filter fun w => !hit w.ctx
    engines := s.engines.map fun e =>
      { e with sched := e.sched.filter fun x => !hit x.1, unsched := e.unsched.filter fun x => !hit x } }

/-- Ends the transfers of the flows below a port that satisfy a test, with one status; control transfers carry EFFECT. -/
def State.endXfers (s : State) (cs : List Nat) (st : Status) (pick : Flow → Transfer → Bool) : State :=
  cs.foldl (fun s c =>
    match s.flow c with
    | none => s
    | some f => (f.xfers.filter fun x => x.fin.isNone && pick f x).foldl
        (fun s x => s.finish c x.idx st (if f.par.ty.scheduled then 0 else x.moved)
          (st == .portReset && ctlEffect f x)) s) s

/-- Commands of CONTROL_XFER under way to a node below a port, whose transfers end with it (R114, R314). -/
def State.ctlCmds (s : State) (p : PortRef) : List (Nat × Taken) :=
  s.insts.flatMap fun e => (e.2.mb.taken.filter fun t =>
    t.started && !t.copies && t.opcode == 0x0308 &&
      (match kget s.nodes (t.arg 10 2 % 4096) with | some n => p.covers n.pos | none => false)).map fun t => (e.1, t)

/-- CONTROL_XFERs below a port end with a status; an abort carries EFFECT, 0 where the request was certainly not performed (R114). -/
def State.endCtlCmds (s : State) (p : PortRef) (status : Nat) : State :=
  (s.ctlCmds p).foldl (fun s e =>
    s.complete e.1 e.2.idx status (if status = stAborted then [0, 0, 6, BitVec.ofNat 8 (e.2.ran != .notSent).toNat] else [])) s

/-- Identity, configuration generation and class of a node descriptor (R97). -/
def identOf (desc : List Word) : BitVec 64 := BitVec.ofNat 64 (wbits ((desc[1]?).getD 0) 31 0 * 2 ^ 32 + wbits ((desc[2]?).getD 0) 31 0)
def genOf (desc : List Word) : BitVec 16 := BitVec.ofNat 16 (wbits ((desc[3]?).getD 0) 27 12)
def classOf (desc : List Word) : Nat := wbits ((desc[3]?).getD 0) 35 28

/-- Re-seat is disabled on a trunk (R119). -/
def State.noReseat (s : State) (p : PortRef) : Bool :=
  match p.trunk with
  | some t => s.fld .TRK_PCFG_RESEAT_WIN t.val == 0
  | none => false

/-- A record for each addressed node below a port that has flows (R94, R95, R116); an older one of the node is replaced. -/
def State.recordNodes (s : State) (p : PortRef) (byLink : Bool) : State :=
  let hit := s.nodes.filter fun e => p.covers e.2.pos && e.2.present &&
    s.flows.any fun x => x.2.addr == e.2.addr && x.2.service.isNone
  let recs : List Reseat := hit.map fun e =>
    { addr := e.2.addr, pos := e.2.pos, ident := identOf e.2.desc, gen := genOf e.2.desc
      expired := s.noReseat p, byLinkFail := byLink, resumeAt := none }
  let kept := s.reseats.filter fun r => !(recs.any fun n => n.addr == r.addr)
  { s with reseats := kept ++ recs }

/-- The nodes below a port are gone until they are enumerated again. -/
def State.loseNodes (s : State) (p : PortRef) (byLink : Bool) : State :=
  let lost := s.nodes.filter fun e => p.covers e.2.pos && e.2.present
  let s := { s with
    nodes := s.nodes.map fun e => (e.1, if p.covers e.2.pos then { e.2 with present := false, sentD := none } else e.2)
    enums := s.enums.filter fun r => !p.covers r.pos }
  lost.foldl (fun s e => s.nodeEvent evNodeDetached e.2.addr [BitVec.ofNat 8 byLink.toNat]) s

/-- Hub status flows of hubs below a port close (R167). -/
def State.closeHubFlows (s : State) (p : PortRef) : State :=
  { s with flows := s.flows.filter fun e => !(e.2.service == some .hubStatus && p.covers e.2.pos) }

/-- A detach, or a power fault that removes power below a port (R94): transfers end DETACHED, the flows go to HELD, records are kept. -/
def State.endSubtree (s : State) (p : PortRef) : State :=
  let cs := s.ctxs fun f => p.covers f.pos
  let s := s.recordNodes p false
  let s := s.endXfers cs .detached fun f x => f.inWork x || (f.par.ty.scheduled && (x.accepted || x.inProgress))
  let s := s.dropWork fun c => cs.contains c
  let s := s.endCtlCmds p stDetached
  let s := s.setCausesAll (s.ctxs fun f => p.covers f.pos && f.service.isNone) fun c => { c with detached := true }
  (s.loseNodes p false).closeHubFlows p

/-- A link failure or a reset of a port (R95, R114): what is committed or in progress ends PORT_RESET, the rest waits for the nodes to
be enumerated and checked; toggles and sequences start afresh (R82). -/
def State.failSubtree (s : State) (p : PortRef) : State :=
  let cs := s.ctxs fun f => p.covers f.pos
  let last := s.committed
  let s := s.recordNodes p true
  let s := s.endXfers cs .portReset fun f x =>
    f.inWork x || (f.par.ty.scheduled && ((x.accepted && (match x.course with | some c => decide (c ≤ last) | none => false)) || x.inProgress))
  let s := s.dropWork fun c => cs.contains c
  let s := s.endCtlCmds p stAborted
  let s := cs.foldl (fun s c => s.modFlow c Flow.resetSeq) s
  let s := if s.noReseat p then s.setCausesAll (s.ctxs fun f => p.covers f.pos && f.service.isNone) fun c => { c with detached := true } else s
  s.loseNodes p true

end Sys2Proof.Machine
end

