-- ==== Sys2Proof/Machine/GangOps.lean ====
section
/-!
DEFINITION. The gang's bookkeeping (R363–R389): identity and digest, what GET_GANG_INFO returns, the members known, the changes of gang
state with their events, and the GANG_JOIN that waits.
-/

namespace Sys2Proof.Machine

/-- The fuse GANG_ALLOWED (R306, R442). -/
def gangAllowed : Bool := (Config.otpWord 20).getLsbD 1

/-- GANG_ID of this controller (R366). -/
def gangId : Nat := Config.gangIdStraps.toNat

/-- Command set 1.4: the firmware's major and minor version (R315, R316). -/
def cmdMajor : Nat := 1
def cmdMinor : Nat := 4

/-- Gang states (R306) and roles (R389) as coded. -/
def GangPhase.code : GangPhase → Nat
  | .setup => 0 | .locked => 1 | .mismatch => 2 | .unqualified => 3 | .leaseLost => 4

def Role.code : Role → Nat
  | .solo => 0 | .ridge => 1 | .member => 2

/-- The word of R374 that lists members by GANG_ID: this controller, once configured, and every controller below it. -/
def Gang.members (g : Gang) : Nat :=
  let me := 2 ^ gangId
  let own := if g.configured then
      me + (if g.phase = .locked then me * 2 ^ 8 else 0) + (if g.phase = .mismatch then me * 2 ^ 16 else 0)
    else 0
  own ||| (match g.below with | some (_, _, w2) => wbits w2 23 0 | none => 0)

/-- The lowest minor version at or below this controller (R374). -/
def Gang.lowMinor (g : Gang) : Nat :=
  match g.below with
  | some (w0, _, _) => min cmdMinor (wbits w0 31 24)
  | none => cmdMinor

/-- What GET_GANG_INFO returns (R374). -/
def Gang.info (g : Gang) : List Word :=
  [BitVec.ofNat 36 (gangId + g.configured.toNat * 2 ^ 3 + g.ridgeAllowed.toNat * 2 ^ 4 + g.phase.code * 2 ^ 5 +
      cmdMajor * 2 ^ 8 + cmdMinor * 2 ^ 16 + g.lowMinor * 2 ^ 24),
    g.digest.zeroExtend 36, BitVec.ofNat 36 g.members]

/-- Controllers in a map of eight. -/
def countBits (v : Nat) : Nat := ((List.range 8).filter fun i => v.testBit i).length

/-- Bytes 8–11 of GANG_STATUS (R306). -/
def Gang.brief (g : Gang) : List Byte :=
  [BitVec.ofNat 8 g.role.code, BitVec.ofNat 8 gangId, g.size.zeroExtend 8, BitVec.ofNat 8 g.phase.code]

/-- GANG_JOIN that waits completes (R376); the ridge fixes the effective minor with it. A head that stays without a role is decided afresh by its
next GANG_JOIN. -/
def State.endJoin (s : State) (status : Nat) : State :=
  match s.gang.joining with
  | none => s
  | some (i, idx) =>
    let g := s.gang
    let ok := status == stOk
    let s := { s with gang := { g with
      joining := none, deciding := g.deciding && g.role == Role.solo, joined := g.joined || ok
      effMinor := if ok && g.role == Role.ridge then BitVec.ofNat 8 g.lowMinor else g.effMinor } }
    let seen := if g.role = .ridge then List.replicate 9 0 ++ [BitVec.ofNat 8 (g.members % 256)] else []
    s.complete i idx status (if ok then g.brief ++ seen else [])

/-- GANG_JOIN completes when its condition is met (R376). -/
def State.joinCheck (s : State) : State :=
  let g := s.gang
  if g.joining.isNone then s
  else if g.role = .ridge then
    (if countBits g.members = g.size.toNat && countBits (g.members / 256) = g.size.toNat then s.endJoin stOk else s)
  else if g.phase = .mismatch then s.endJoin stGangMismatch
  else if g.phase = .locked then s.endJoin stOk
  else s

/-- A change of the gang block, with the events of R381 and R389 and the GANG_JOIN that it ends. -/
def State.modGang (s : State) (f : Gang → Gang) : State :=
  let old := s.gang
  let s := { s with gang := f old }
  let new := s.gang
  let moved := old.phase != new.phase
  let entered (p : GangPhase) : Bool := moved && new.phase = p
  let below (g : Gang) : Nat := match g.below with | some (_, _, w2) => wbits w2 23 16 | none => 0
  let s := if entered .locked then s.happen .GANG_EVENT_LOCKED 48 else s
  let s := if entered .mismatch || (below new ≠ below old && below new ≠ 0) then s.happen .GANG_EVENT_MISMATCH 48 else s
  let s := if entered .unqualified then (s.addSat .GANG_OFS_STAT_UNQUAL 1).happen .GANG_EVENT_TIME_UNQUAL 48 else s
  let s := if entered .leaseLost then (s.addSat .GANG_LEASE_LOST_CNT 1).happen .GANG_EVENT_LEASE_LOST 48 else s
  let s := if old.members % 65536 ≠ new.members % 65536 then s.happen .GANG_EVENT_MEMBER_CHG 48 else s
  let s := if moved then s.event 0 evGang 0 [BitVec.ofNat 8 new.phase.code] else s
  s.joinCheck

/-- GB's receiver sees transitions (R366). -/
def State.gbEdge (s : State) (d : DevRef) : State :=
  if d == .gb && s.gang.deciding then { s with gang := { s.gang with sawEdges := true } } else s

end Sys2Proof.Machine
end

