-- ==== Sys2Proof/Machine/Ports.lean ====
section
/-!
DEFINITION. The port state machine (R90–R93): the changes of state that several commands cause, presence, attach and detach; what a
board is that is pushed in, powered or pulled.
-/

namespace Sys2Proof.Machine

/-! Events of a port. -/

/-- Change bits of a hub's port status word (R104). -/
def chgAttach : BitVec 6 := 1
def chgDetach : BitVec 6 := 2
def chgReset : BitVec 6 := 4
def chgFault : BitVec 6 := 8
def chgWake : BitVec 6 := 16
def chgLink : BitVec 6 := 32

/-- An event of a port: a root port's or GA's TRK_PEVENT bit, its source and a PORT_EVENT (R119, R312); a hub port's change bit (R105),
which may be none. -/
def State.portEvent (s : State) (p : PortRef) (f : Fld) (change : BitVec 6) : State :=
  match p with
  | .hub _ _ => s.modPort p fun x => { x with change := x.change ||| change }
  | _ =>
    let k := (p.copy).getD 0
    let s := (s.setBit f k).raiseOpt (portSrc p)
    let bits := (s.reg .TRK_PEVENT k).toNat
    s.event 0 evPortEvent (p.copy.getD 0) (paBytes p ++ [BitVec.ofNat 8 bits, BitVec.ofNat 8 (bits / 256 % 2)])

/-- Firmware's LINK_EVENT entry about a link (R312): TRK_EVENT bits, and bit 0 SUSPECT, bit 1 RETRY_DENIED. GB's and GA's links are no trunk's. -/
def State.linkEvent (s : State) (p : PortRef) (bits more : Nat) : State :=
  match p with
  | .ga => s
  | .root t => s.event 0 evLinkEvent t.val ([0, 0, 0] ++ [BitVec.ofNat 8 bits, BitVec.ofNat 8 more])
  | .hub h q =>
    s.event 0 evLinkEvent h.trunk.val (leBytes 2 (Pos.route ⟨h.trunk, h.path ++ [q]⟩).toNat ++
      [BitVec.ofNat 8 (h.path.length + 1), BitVec.ofNat 8 bits, BitVec.ofNat 8 more])

/-- A port in OFF or FAULT reads present: ATTACH_LATCH (R93). -/
def State.latchAttach (s : State) (p : PortRef) : State :=
  (s.modPort p fun x => { x with attachLatch := true }).portEvent p .TRK_PEVENT_ATTACH_IN_FAULT 0

/-! Power of a board. -/

/-- A device that loses power, or whose link side starts afresh: its board and place stay. -/
def Device.dark (d : Device) : Device :=
  { Device.init d.pos d.board with ports := List.replicate d.nports Port.init }

/-- Power at the board on a port: switched off, it takes everything below with it (R103). DESIGN CHOICE (assumption 73): a port that is powered
off or in FAULT darkens what is below it also at a hub whose PORT_POWER is 0 (R98). -/
def State.boardPower (s : State) (p : PortRef) (on : Bool) : State :=
  match p.below with
  | none => s
  | some d =>
    if on then s.modDev d fun x => { x with powered := true }
    else { s with devices := s.devices.map fun x => if x.pos.under d then x.dark else x }

/-- What a technician does with the board of a port (R116, R118). -/
def State.boardMove (s : State) (p : PortRef) (m : BoardMove) : State :=
  match p.below with
  | none => s
  | some d =>
    match m with
    | .same => s
    | .pulled => { s with devices := s.devices.filter fun x => !x.pos.under d }
    | .pushed b =>
      let live := match s.port p with | some x => x.state != .off && x.state != .fault | none => false
      let x := (Device.init d b).dark
      { s with devices := (s.devices.filter fun y => !y.pos.under d) ++ [{ x with powered := live }] }

/-- The device on a port is to be enumerated (R95, R96). -/
def State.awaitDevice (s : State) (p : PortRef) : State :=
  match p.below with
  | none => s
  | some d => if s.enums.any fun r => r.pos == d then s else { s with enums := s.enums ++ [⟨d⟩] }

/-! Changes of state. -/

/-- A reset of a gang link ends the exchange of R373 (R386). -/
def State.exchangeAborted (s : State) : State :=
  let s := (s.setFld .GANG_XCHG_STATUS 0x0040).addSat .GANG_XCHG_ABORTS 1
  (s.happen .GANG_EVENT_EXCHANGE_ABORTED 48).error catGang 0x05 blkGang .normal 0

/-- GA leaves ENABLED or is reset: an exchange under way is aborted (R386), and it starts afresh when the link is UP again. -/
def State.gaDown (s : State) (p : PortRef) : State :=
  if p == .ga then
    let s := if s.ga.state == .enabled && !s.gang.exchanged then s.exchangeAborted else s
    { s with gang := { s.gang with exchanged := false, setSent := false, sentD := none } }
  else s

/-- GA has lost the controller below it: its bitmaps hold this controller alone. -/
def State.gaGone (s : State) (p : PortRef) : State :=
  if p == .ga then (s.gaDown p).modGang fun g => { g with below := none } else s

/-- The link part of a port as it is without a link. -/
def Port.unlink (x : Port) : Port :=
  { x with rx := Rx.init, chirps := 0, suspendReq := false, wakeFor := .none, started := false, stepPending := false,
           rateDown := false, window := { x.window with started := false },
           delay := { x.delay with awaiting := none, sum := 0, count := 0 } }

/-- A reset hold starts (R48, R91): a pending step-down is cancelled (R60). -/
def State.startHold (s : State) (p : PortRef) : State :=
  let s := s.gaDown p
  let s := s.modPort p fun x => { x.unlink with state := .resetting, rx := { Rx.init with train := .hold } }
  s.emit (.drive (.up p) true)

/-- A reset of a port from a state with a link (R91, R95, R114). `failure`: it is a link failure, link-failure recovery or the retraining of
a suspect link, which raises LINK_FAIL. -/
def State.resetPort (s : State) (p : PortRef) (failure : Bool) : State :=
  let s := if p.isRoot then s.failSubtree p else s
  let s := s.startHold p
  let s := s.modPort p fun x => { x with recovering := failure }
  if failure then s.portEvent p .TRK_PEVENT_LINK_FAIL chgLink else s

/-- Reset requested (R91): in DISABLED, ENABLED and RESETTING, and where training fails in RESUMING, the hold starts; a suspended link is
woken first; the rest do not take it. -/
def State.requestReset (s : State) (p : PortRef) (failure : Bool) : State :=
  match s.port p with
  | none => s
  | some x =>
    match x.state with
    | .disabled | .enabled | .resetting | .resuming => s.resetPort p failure
    | .suspended =>
      let s := if p.isRoot then s.failSubtree p else s
      let s := s.gaDown p
      let s := s.modPort p fun x => { x.unlink with state := .resetting, wakeFor := .reset, recovering := failure }
      s.emit (.blocks (.up p) [ctlBlock cWake 0xAAAAAAA])
    | _ => s

/-- Resume requested (R91, R113): a suspended port sends WAKE; a port that resumes already is joined. -/
def State.requestResume (s : State) (p : PortRef) (remote : Bool) : State :=
  match s.port p with
  | some x =>
    if x.state == .suspended then
      let s := s.modPort p fun x => { x with state := .resuming, wakeFor := .resume, remoteWake := remote, byHub := false }
      s.emit (.blocks (.up p) [ctlBlock cWake 0xAAAAAAA])
    else s
  | none => s

/-- States from which a detach or a power fault ends the subtree (R91). -/
def PortState.linked : PortState → Bool
  | .disabled | .resetting | .enabled | .suspended | .resuming => true
  | _ => false

/-- Disable requested (R91): electrical idle. -/
def State.disablePort (s : State) (p : PortRef) : State :=
  let s := s.gaDown p
  let s := s.modPort p fun x => { x.unlink with state := .disabled, stepped := false }
  (s.emit (.drive (.up p) false)).settle p

/-- A port is powered off by request (R91): ATTACH_LATCH and the failure counts clear. -/
def State.portOff (s : State) (p : PortRef) : State :=
  match s.port p with
  | none => s
  | some x =>
    let s := if p.isRoot && x.state.linked then s.endSubtree p else s
    let s := s.gaGone p
    let s := s.modPort p fun x =>
      { x.unlink with state := .off, brFails := 0, hrFails := 0, attachLatch := false, cause := .none, stepped := false,
                      retries := 0, overcurrent := false }
    ((s.boardPower p false).emit (.drive (.up p) false)).settle p

/-- A port enters FAULT (R91, R93): power is removed; a power fault from a state with a link ends the subtree as on detach. Where training has
failed, what a reset of the port ended stands as it ended it, with its records (R95). -/
def State.portFault (s : State) (p : PortRef) (cause : FaultCause) : State :=
  match s.port p with
  | none => s
  | some x =>
    let s := if p.isRoot && x.state.linked && cause == .power then s.endSubtree p else s
    let s := s.gaGone p
    let s := s.modPort p fun x => { x.unlink with state := .fault, cause := cause, stepped := false }
    let s := (s.portEvent p .TRK_PEVENT_FAULT chgFault).boardPower p false
    let s := if x.present then s.latchAttach p else s
    (s.emit (.drive (.up p) false)).settle p

/-- Power good: OFF to POWERED, presence is watched (R91). -/
def State.portPowered (s : State) (p : PortRef) : State :=
  match s.port p with
  | some x =>
    if x.state == .off then
      ((s.modPort p fun x => { x with state := .powered, cause := .none }).boardPower p true).settle p
    else s
  | none => s

/-- The port power manager drops the switch of a root port: GEN_n and PG_n low (R415). -/
def State.ppmCut (s : State) (n : Nat) : State :=
  match s.ppm[n]? with
  | none => s
  | some x =>
    let s := { s with ppm := vmod s.ppm n fun x => { x with gen := false, pg := false, pgTicks := 0, gramp := 0 } }
    let s := if x.gen then s.emit (.genN n false) else s
    if x.pg then s.emit (.pgN n false) else s

/-- A root port that failed to train goes to FAULT in the port power manager as well, and its retry timer starts (R91). -/
def State.ppmTrainFault (s : State) (n : Nat) : State :=
  let s := s.ppmCut n
  let us := s.fld .PPM_TIMERS_RETRY_S n * 1000000
  { s with ppm := vmod s.ppm n fun x =>
      { x with phase := .fault, cause := .none, faultLeft := none, retryLeft := some us, lowRun := 0, tripLatch := false } }

/-- The first plan-cycle boundary at least `n` courses after the present course. -/
def State.boundaryIn (s : State) (n : Nat) : Nat := (s.course.count.toNat + n + 63) / 64 * 64

/-- The raw presence comparator of a port changes, with what the technician does (R28, R93). -/
def State.presenceChange (s : State) (p : PortRef) (level : Bool) (m : BoardMove) : State :=
  let s := s.boardMove p m
  match s.port p with
  | none => s
  | some x =>
    let s := s.modPort p fun x => { x with present := level }
    if level && (x.state == .off || x.state == .fault) then s.latchAttach p else s

/-! Rows. -/

/-- Presence held for T_ATTACH (R91). -/
def execAttach (p : PortRef) (s : State) : Res :=
  match s.port p with
  | none => .next s
  | some x =>
    .next <|
      if x.state == .powered && x.present then
        let s := s.modPort p fun x => { x with state := .disabled }
        let s := s.portEvent p .TRK_PEVENT_ATTACH chgAttach
        let s := s.awaitDevice p
        -- GA resets its link as soon as it is attached (R373)
        let s := if p == .ga then s.requestReset .ga false else s
        s.settle p
      else s

/-- Absence held for T_DETACH (R91, R94). A root port ends its subtree; a hub port's detach reaches the controller by the hub's report. -/
def execDetach (p : PortRef) (s : State) : Res :=
  match s.port p with
  | none => .next s
  | some x =>
    .next <|
      if x.state.linked && !x.present then
        let s := if p.isRoot then s.endSubtree p else s
        let s := s.gaGone p
        let s := s.modPort p fun x => { x.unlink with state := .powered, hrFails := 0, recovering := false, stepped := false }
        let s := s.portEvent p .TRK_PEVENT_DETACH chgDetach
        (s.emit (.drive (.up p) false)).settle p
      else s

end Sys2Proof.Machine
end

