-- ==== Sys2Proof/WellFormed.lean ====
section
/-!
DEFINITION. Which commands are well formed: their operands could come about on the machine. A meaning faults on a command that is not.
-/

namespace Sys2Proof

/-- What a read of a 64-byte command entry brought: its 64 bytes, or an error (R280, R508). -/
def wfEntry (e : ReadEnd) (bs : List Byte) : Bool := e != .ok || bs.length == 64

/-- What a read of a descriptor brought: the 32 bytes of its four words, or an error (R2, R206, R209). -/
def wfDesc (e : ReadEnd) (bs : List Byte) : Bool := e != .ok || bs.length == 32

/-- KIND of a setup (R85). -/
def Setup.kind (s : Setup) : Nat := s.w0.toNat >>> 32 % 8

/-- REQUEST of a setup. -/
def Setup.request (s : Setup) : Nat := s.w0.toNat >>> 24 % 256

/-- A setup of a given kind and request. -/
def Setup.isReq (s : Setup) (kind req : Nat) : Bool := s.kind == kind && s.request == req

/-- The side's receiver is one of the controller's: a root port, GA or GB (R52). -/
def Side.ofController : Side → Bool
  | .up (.hub _ _) => false
  | .up _ => true
  | .down .gb => true
  | .down (.node _) => false

/-- An eye is measured at the controller's receivers, and judged at any other (R52). -/
def wfEye (x : Side) : Eye → Bool
  | .measured _ _ => x.ofController
  | .judged _ => !x.ofController

/-- The commands whose operands fit together. -/
def Instr.wf : Instr → Bool
  | .commandTake _ e bs => wfEntry e bs
  | .trainReceive x _ eye _ => wfEye x eye
  | .descriptorArrival _ _ e bs => wfDesc e bs
  | .getDescriptor _ s => s.isReq 0 0x01
  | .setAddress _ s => s.isReq 0 0x02
  | .setConfig _ s => s.isReq 0 0x03
  | .clearHalt _ s => s.isReq 0 0x04
  | .setHalt _ s => s.isReq 0 0x05
  | .getStatus _ s => s.isReq 0 0x06
  | .setPathDelay _ s => s.isReq 0 0x07
  | .getPortStatus _ s => s.isReq 1 0x01
  | .getPortErrors _ s => s.isReq 1 0x02
  | .setPortFeature _ s => s.isReq 1 0x03
  | .clearPortFeature _ s => s.isReq 1 0x04
  | .setHubTier _ s => s.isReq 1 0x05
  | .getPortDelay _ s => s.isReq 1 0x06
  | .getGangInfo (.dev _ s) => s.isReq 2 0x10
  | .setGang (.dev _ s _) => s.isReq 2 0x11
  | _ => true

end Sys2Proof
end

