-- ==== Sys2Proof/Machine/Link.lean ====
section
/-!
DEFINITION. The links: reset detection, chirp and training (R48–R55), block lock and block errors (R31–R33), suspend, resume and wake
(R45, R46, R110–R113), PING and PONG (R133, R134), STOP at a receiver (R43, R272, R384).
-/

namespace Sys2Proof.Machine

/-! Sides. -/

/-- The receiver of a side. -/
def State.rxOf (s : State) : Side → Option Rx
  | .up p => (s.port p).map (·.rx)
  | .down d => (s.devAt d).map (·.link.rx)

/-- Change a device's link. -/
def State.modLink (s : State) (d : DevRef) (f : DownLink → DownLink) : State :=
  s.modDevAt d fun x => { x with link := f x.link }

/-- Change the receiver of a side. -/
def State.modRx (s : State) (x : Side) (f : Rx → Rx) : State :=
  match x with
  | .up p => s.modPort p fun y => { y with rx := f y.rx }
  | .down d => s.modLink d fun l => { l with rx := f l.rx }

/-- The hub of a place, if the device there is one. -/
def State.hubAt (s : State) (d : DevRef) : Option Device :=
  match d with
  | .node h => (s.dev h).filter fun x => x.nports != 0
  | .gb => none

/-- The ports of a hub that are ENABLED. -/
def Device.enabledPorts (h : Device) : List PortRef :=
  (List.finRange 16).filterMap fun q =>
    match h.ports[q.val]? with
    | some x => if x.state == .enabled then some (PortRef.hub h.pos q) else none
    | none => none

/-- A capability bit of a node descriptor's word 4 (R97). -/
def Device.cap (d : Device) (bit : Nat) : Bool := ((d.board.desc[4]?).getD 0).getLsbD bit

/-! Reset and chirp. -/

/-- A node in the initial state of R82 after a reset: address 0, toggles and sequences initial, halts clear, pending releases gone, its
time invalid until a new D is applied (R131). A hub's ports are OFF (R103). -/
def Device.reset (d : Device) : Device :=
  { d with
    ready := false, addr := none, addrNext := none, configured := false, config := 0, ctrl := none, stalled0 := false
    eps := d.eps.map fun e => { Endpoint.init e.num with late := e.late, lateTag := e.lateTag, output := e.output, sample := e.sample }
    time := { d.time with valid := false, d := none, dNext := none }
    tier := 0
    ports := d.ports.map fun x => { x.unlink with state := .off, wakeEn := false, change := 0, byHub := false }
    link := { DownLink.init with phase := if d.cap 15 then .chirp else .quiet } }

/-- GB's link is reset in the exchange (R386): it is UP, and SET_CONFIG has not been taken (assumption 56: a request at GB is one row). -/
def State.gbAborted (s : State) (d : DevRef) (x : Device) : State :=
  if d == .gb && x.link.phase == .up && !x.configured then s.exchangeAborted else s

/-- A downstream side sees no transitions for T_RST_DET (R48, R103): it is reset, and so is everything below a hub. A suspended side
does not detect reset. -/
def execResetDetect (d : DevRef) (s : State) : Res :=
  let s := s.gbEdge d
  .next <|
    match s.devAt d with
    | none => s
    | some x =>
      if (x.powered || d == .gb) && x.link.phase != .suspended then
        -- a hub stops transmitting, and takes port power away where it switches it
        let s :=
          match s.hubAt d with
          | none => s
          | some h =>
            let dark := wbits ((h.board.hub[1]?).getD 0) 19 19 == 1
            if dark then
              { s with devices := s.devices.map fun (y : Device) => if y.pos.under h.pos && y.pos != h.pos then y.dark else y }
            else s
        let s := (s.gbAborted d x).modDevAt d Device.reset
        let (m, s) := if d == .gb then (true, s) else s.freeBool
        if x.cap 15 then s.emit (.blocks (.down d) [ctlBlock cChirp (m.toNat * 2 ^ 21 + 2 ^ 20 + 0x5A5A5)]) else s
      else s

/-- A port receives CHIRP during its reset hold (R49). -/
def execChirpReceive (p : PortRef) (blocks : List Block) (s : State) : Res :=
  .next <|
    match s.port p with
    | none => s
    | some x =>
      if x.state == .resetting && x.rx.train == .hold then
        let good (b : Block) : Bool := Block.isSet b cChirp && (Block.arg b).testBit 20
        let last := (blocks.filter fun b => Block.isSet b cChirp).getLast?
        s.modPort p fun x =>
          { x with
            chirps := max x.chirps (longestRun good blocks)
            farHrCap := match last with | some b => (Block.arg b).testBit 20 | none => x.farHrCap
            farMarginCap := match last with | some b => (Block.arg b).testBit 21 | none => x.farMarginCap }
      else s

/-- A side is in one of the states in which it sends TRAIN. -/
def Rx.training (r : Rx) : Bool := r.train == .lock || r.train == .eq || r.train == .ready

/-- TRAIN block of a side: phase, the preset it requests, the one in use, the attempt, the block counter (R37). -/
def trainBlock (r : Rx) : Block :=
  let phase := match r.train with | .eq => 1 | .ready | .up => 2 | _ => 0
  ctlBlock cTrain (phase * 2 ^ 26 + r.request.toNat * 2 ^ 23 + r.nearPreset.toNat * 2 ^ 20 + r.attempt.toNat * 2 ^ 18 + r.sent.toNat)

/-- `n` TRAIN blocks have been sent: the block counter goes on, and those of phase 0b10 count toward UP (R37, R51). -/
def Rx.count (r : Rx) (n : Nat) : Rx :=
  { r with sent := r.sent + BitVec.ofNat 16 n, sentReady := if r.train == .ready then r.sentReady + n else r.sentReady }

/-- A side in training sends `n` TRAIN blocks; a downstream side only once its receiver has block lock (R51). -/
def State.sendTrain (s : State) (x : Side) (n : Nat) : State :=
  match s.rxOf x with
  | none => s
  | some r =>
    let may := r.training && (match x with | .up _ => true | .down _ => r.blockLock)
    if may && n != 0 then
      (s.modRx x fun r => r.count n).emit (.blocks x ((List.range n).map fun i => trainBlock (r.count i)))
    else s

/-- HR training is open to a port: HR_EN set, HR_FAILS below 3, and no slower link above a hub (R49, R108). -/
def State.hrAllowed (s : State) (p : PortRef) (x : Port) : Bool :=
  x.hrFails != 3 &&
    match p with
    | .hub h _ => x.hrEn && (match s.dev h with | some y => y.link.rx.rate == some .hr | none => false)
    | _ => s.flag .TRK_CTRL_HR_EN ((p.copy).getD 0)

/-- The controller's own preset is forced (R55). -/
def State.forcedPreset (s : State) (p : PortRef) : Option (BitVec 3) :=
  match p.copy with
  | some k => if s.flag .TRK_CTRL_PRESET_FORCE k then some (BitVec.ofNat 3 (s.fld .TRK_CTRL_PRESET k)) else none
  | none => none

/-- The receiver of a side that enters TR_LOCK at a rate (R51): preset 2 in use at HR, preset 0 at BR (R55), no request. -/
def lockRx (r : Rate) (forced : Option (BitVec 3)) : Rx :=
  match r with
  | .hr => { Rx.init with train := .lock, rate := some .hr, nearPreset := forced.getD 2, farPreset := 2, request := 2 }
  | .br => { Rx.init with train := .lock, rate := some .br }

/-- A port enters TR_LOCK at a rate and sends TRAIN. -/
def State.startTraining (s : State) (p : PortRef) (r : Rate) : State :=
  (s.modPort p fun x => { x with rx := { lockRx r (s.forcedPreset p) with
    attempt := BitVec.ofNat 2 (min 3 ((if r == .hr then x.hrFails else x.brFails).toNat + 1)) } }).sendTrain (.up p) 1

/-- End of T_RST_HOLD (R49): 16 CHIRP_ACK and HR training, or BR training; GA has no BR training and goes to FAULT (R364). -/
def execResetHoldEnd (p : PortRef) (s : State) : Res :=
  .next <|
    match s.port p with
    | none => s
    | some x =>
      if x.state == .resetting && x.rx.train == .hold then
        if x.chirps ≥ 8 && s.hrAllowed p x then
          let s := s.emit (.blocks (.up p) (List.replicate 16 (ctlBlock cChirpAck (2 ^ 20 + 0xA5A5A))))
          s.startTraining p .hr
        else if p == .ga then s.portFault .ga .train
        else s.startTraining p .br
      else s

/-- A downstream side receives 4 valid CHIRP_ACK blocks and stops CHIRP (R49). -/
def execChirpAckReceive (d : DevRef) (blocks : List Block) (s : State) : Res :=
  let s := s.gbEdge d
  .next <|
    match s.devAt d with
    | none => s
    | some x =>
      if x.link.phase == .chirp && (blocks.filter fun b => Block.isSet b cChirpAck).length ≥ 4 then
        (s.modLink d fun l => { l with phase := .train, rx := lockRx .hr none }).emit (.drive (.down d) false)
      else s

/-! Training. -/

/-- The training state that follows from lock and eye (R51). -/
def Rx.advance (r : Rx) : Rx :=
  match r.train with
  | .lock => if r.blockLock then { r with train := if r.rate == some .hr then .eq else .ready } else r
  | .eq => if r.eyeOk then { r with train := .ready } else r
  | _ => r

/-- Valid TRAIN of phase 0b10. -/
def Block.ready (b : Block) : Bool := Block.isSet b cTrain && bitsOf (Block.arg b) 27 26 == 2

/-- What a receiver takes from the blocks of training: of the last valid TRAIN the far preset and the far request, which TR_EQ applies unless
the preset is forced; and the run of consecutive READY blocks, which any other block breaks (R51, R55). -/
def Rx.takeTrain (r : Rx) (blocks : List Block) (eyeOk forced : Bool) : Rx :=
  match (blocks.filter fun b => Block.isSet b cTrain).getLast? with
  | none => { r with gotReady := 0 }
  | some b =>
    let a := Block.arg b
    let asked := BitVec.ofNat 3 (bitsOf a 25 23)
    let r : Rx := r.advance
    let r : Rx := { r with
      eyeOk := eyeOk
      farPreset := BitVec.ofNat 3 (bitsOf a 22 20)
      nearPreset := if r.train == .eq && r.rate == some .hr && !forced then asked else r.nearPreset
      gotReady := blocks.foldl (fun (n : Nat) b => if Block.ready b then n + 1 else 0) r.gotReady }
    r.advance

/-- The eye meets the receiver's criterion (R52): 0.30 UI and 40 mV at the controller's receivers, its own at a node or hub. -/
def eyeMeets : Eye → Bool
  | .measured h v => decide (20 ≤ h.toNat) && decide (20 ≤ v.toNat)
  | .judged ok => ok

/-- GB comes UP (R363, R51): its far side is another controller's GA, so its own readiness decides. -/
def Device.gbUp (d : Device) : Device :=
  if d.link.rx.train == .ready && d.link.rx.gotReady ≥ 16 && d.link.rx.sentReady ≥ 16 && d.link.rx.eyeOk then
    { d with ready := true, link := { d.link with phase := .up, synced := false, lastRate := d.link.rx.rate, seed := scrSeed 0
                                                  rx := { d.link.rx with train := .up } } }
  else d

/-- A side in training sends TRAIN blocks and takes the ones that arrive; a new state shows in the next block. -/
def State.trainSide (s : State) (x : Side) (blocks : List Block) (eyeOk forced : Bool) (sent : Nat) : State :=
  let s := s.sendTrain x sent
  match s.rxOf x with
  | none => s
  | some r =>
    let r' := r.takeTrain blocks eyeOk forced
    let s := s.modRx x fun _ => r'
    if r'.train != r.train then s.sendTrain x 1 else s

/-- A downstream side that receives TRAIN while it chirps, or is quiet, stops and trains at BR (R49). Its attempt field shows the one that
the far side sends (assumption 70). -/
def DownLink.meetTrain (l : DownLink) (blocks : List Block) : DownLink :=
  match (blocks.filter fun b => Block.isSet b cTrain).getLast? with
  | none => l
  | some b =>
    let l : DownLink := if l.phase == .chirp || l.phase == .quiet then
        { l with phase := .train, rx := { lockRx .br none with blockLock := l.rx.blockLock } }
      else l
    if l.phase == .train then { l with rx := { l.rx with attempt := BitVec.ofNat 2 (bitsOf (Block.arg b) 19 18) } } else l

/-- A side receives blocks in training (R51, R52, R55). -/
def execTrainReceive (x : Side) (blocks : List Block) (eye : Eye) (s : State) (sent : Nat := 0) : Res :=
  guarded (Instr.trainReceive x blocks eye sent).wf <|
    match x with
    | .up p =>
      (match s.port p with
        | none => s
        | some y =>
          if (y.state == .resetting || y.state == .resuming) && y.rx.training then
            s.trainSide x blocks (eyeMeets eye) (s.forcedPreset p).isSome sent
          else s)
    | .down d =>
      let s := (s.gbEdge d).modLink d fun l => l.meetTrain blocks
      (match s.devAt d with
        | none => s
        | some y =>
          if y.link.phase == .train then
            let s := s.trainSide x blocks (eyeMeets eye) false sent
            if d == .gb then s.modDevAt .gb Device.gbUp else s
          else s)

/-- A receiver gains block lock (R33); a downstream side then begins to send TRAIN (R51). -/
def execBlockLockGained (x : Side) (s : State) : Res :=
  .next <|
    match s.rxOf x with
    | none => s
    | some r =>
      if r.blockLock then s
      else
        let s := s.modRx x fun r => { r with blockLock := true }
        match x with
        | .down d =>
          let s := s.gbEdge d
          (match s.devAt d with
            | some y => if y.link.phase == .train then s.sendTrain x 1 else s
            | none => s)
        | .up _ => s

/-- The preset request interval expires in TR_EQ (R52, R55): while the eye misses 0.30 UI or 40 mV, a preset is requested of the far
transmitter. Which one is not specified, so it is free. -/
def execPresetRequest (p : PortRef) (eyeH eyeV : BitVec 8) (s : State) : Res :=
  .next <|
    match s.port p with
    | none => s
    | some x =>
      if x.rx.train == .eq then
        if eyeMeets (.measured eyeH eyeV) then s.modRx (.up p) fun r => { r with eyeOk := true }
        else
          let (w, s) := s.freeWord
          (s.modRx (.up p) fun r => { r with eyeOk := false, request := w.setWidth 3 }).sendTrain (.up p) 1
      else s

/-- 16 READY blocks received in a row, and 16 sent (R51). -/
def Rx.sixteen (r : Rx) : Bool := r.train == .ready && r.gotReady ≥ 16 && r.sentReady ≥ 16

/-- The device on a port has finished its side of training at the port's rate; beyond GA stands another controller. -/
def State.farReady (s : State) (p : PortRef) (rate : Option Rate) : Bool :=
  match p.below with
  | none => true
  | some d =>
    match s.dev d with
    | some y => y.link.phase == .train && y.link.rx.sixteen && y.link.rx.rate == rate
    | none => false

/-- Where a STOP is latched, a link that reaches ENABLED gets its repetitions (R271). -/
def State.owedStops (s : State) (p : PortRef) : State :=
  if s.stop.latched then
    match p with
    | .root t => { s with stop := { s.stop with repeats := vmod s.stop.repeats t.val fun _ => 4 } }
    | _ => s
  else s

/-- A hub whose link is UP again resumes the ports that it suspended (R111). -/
def State.resumeByHub (s : State) (d : Pos) : State :=
  match s.dev d with
  | none => s
  | some h => (List.finRange 16).foldl (fun (s : State) q =>
      match h.ports[q.val]? with
      | some x => if x.byHub && x.state == .suspended then s.requestResume (.hub d q) false else s
      | none => s) s

/-- 16 READY blocks each way: the link is UP and the port ENABLED (R51, R91). -/
def execTrainingUp (p : PortRef) (s : State) : Res :=
  .next <|
    match s.port p with
    | none => s
    | some x =>
      if (x.state == .resetting || x.state == .resuming) && x.rx.sixteen && x.rx.blockLock && x.rx.eyeOk &&
          s.farReady p x.rx.rate then
        let fresh := x.state == .resetting
        let hr := x.rx.rate == some .hr
        let s := s.modPort p fun x =>
          { x with
            state := .enabled, rx := { x.rx with train := .up }, lastRate := x.rx.rate, attachLatch := false, wakeFor := .none
            brFails := if fresh then 0 else x.brFails
            hrFails := if hr then 0 else x.hrFails
            stepped := x.stepped && !hr, recovering := false, started := false, enabledAt := s.course.count.toNat
            window := { x.window with started := false }, cause := .none, byHub := false, eyed := false
            seed := scrSeed 0, seedBefore := scrSeed 0 }
        let s :=
          match p.below with
          | none => s
          | some d => (s.modDev d fun y =>
              { y with link := { y.link with phase := .up, synced := false, lastRate := y.link.rx.rate, waking := false, seed := scrSeed 0
                                             rx := { y.link.rx with train := .up } } }).emit
              (.blocks (.down (.node d)) [idleBlock (scrSeed 0) 1])
        let s := s.emit (.blocks (.up p) [idleBlock (scrSeed 0) 1])
        let s := if fresh then s.portEvent p .TRK_PEVENT_RESET_DONE chgReset else s.portEvent p .TRK_PEVENT_RESUMED chgReset
        let s := s.owedStops p
        let planned := s.flows.any fun e => e.2.par.ty.scheduled && p.covers e.2.pos
        let s := if planned && (fresh || x.lastRate != x.rx.rate) then s.planAgain else s
        let s :=
          match p.below with
          | none => s
          | some d =>
            if fresh then s.awaitDevice p else s.resumeByHub d
        s.settle p
      else s

/-- The error of a failed HR attempt, with its event and source (R51, R61, R449). -/
def State.hrFailed (s : State) (p : PortRef) : State :=
  let s := s.modPort p fun x => { x with hrFails := if x.hrFails = 3 then 3 else x.hrFails + 1 }
  match p.copy with
  | some k => ((s.happen .TRK_EVENT_HR_TRAIN_FAIL ((linkSrc p).getD 0) k).linkEvent p 0x20 0).error catLink 0x02 blkTrk .normal (linkDetail p)
  | none => s

/-- The training attempt's time expires (R51, R53, R54, R91, R364). -/
def execTrainingTimeout (p : PortRef) (s : State) : Res :=
  .next <|
    match s.port p with
    | none => s
    | some x =>
      if x.rx.training && (x.state == .resetting || x.state == .resuming) then
        let hr := x.rx.rate == some .hr
        let s := if hr then s.hrFailed p else s
        if x.state == .resuming then s.requestReset p false
        else if hr then
          if p == .ga && x.hrFails.toNat + 1 ≥ 3 then s.portFault .ga .train else s.startHold p
        else if x.brFails.toNat + 1 < 3 then (s.modPort p fun x => { x with brFails := x.brFails + 1 }).startHold p
        else
          let s := (s.modPort p fun x => { x with brFails := 3 }).portFault p .train
          match p with
          | .root t => s.ppmTrainFault t.val
          | _ => s
      else s

/-! Block errors and block lock. -/

/-- The receiver of a side is course-synchronised (R36): a port's from the first COURSE_START that it sends on, a downstream side's from the
first that it takes. -/
def State.syncedAt (s : State) : Side → Bool
  | .up p => match s.port p with | some x => x.started | none => false
  | .down d => match s.devAt d with | some y => y.link.synced | none => false

/-- The argument of IDLE that a side expects at block `k` (R32, R34). -/
def State.idleDue (s : State) (x : Side) (k : Nat) : Option Nat := if s.syncedAt x then some (idleArg (s.seedOf x) k) else none

/-- A block error at a receiver (R32, R56, R104): the origin counts it, and a hub sends the block on with sync header 0b00. -/
def execBlockInError (x : Side) (b : Nat × Block) (origin : Bool) (s : State) : Res :=
  .next <|
    if Block.faulty (s.idleDue x b.1) b.2 then
      let inc (v : BitVec 32) : BitVec 32 := if v = 0xFFFFFFFF then v else v + 1
      let s := if origin then
          match x with
          | .up (.hub h p) => s.modPort (.hub h p) fun y => { y with errs := { y.errs with blk := inc y.errs.blk } }
          | .up p => s.modPort p fun y =>
              { y with ledger := { y.ledger with blk := inc y.ledger.blk }, window := { y.window with blk := y.window.blk + 1 } }
          | .down .gb => s.addSat .TRK_LEDGER_BLK_COUNT 1 17
          | .down (.node _) => s
        else s
      match x with
      | .down (.node h) =>
        (match s.hubAt (.node h) with
          | some y => y.enabledPorts.foldl (fun (s : State) p => s.emit (.blocks (.up p) [Block.killed b.2])) s
          | none => s)
      | .up (.hub h _) => s.emit (.blocks (.down (.node h)) [Block.killed b.2])
      | _ => s
    else s

/-- A link failure of an ENABLED port (R91, R95). -/
def State.linkFailure (s : State) (p : PortRef) : State := if s.enabled p then s.resetPort p true else s

/-- A receiver loses block lock (R33): on an enabled link that is a link failure, with LOCK_LOST. -/
def execBlockLockLost (x : Side) (s : State) : Res :=
  .next <|
    match s.rxOf x with
    | none => s
    | some r =>
      if r.blockLock then
        match x with
        | .up p =>
          if s.enabled p then
            let s := match p.copy with
              | some k => ((s.happen .TRK_EVENT_LOCK_LOST ((linkSrc p).getD 0) k).linkEvent p 0x40 0).error catLink 0x01 blkTrk .normal (linkDetail p)
              | none => s
            s.linkFailure p
          else s.modRx x fun r => { r with blockLock := false }
        | .down d =>
          let s := s.modRx x fun r => { r with blockLock := false }
          if d == .gb && s.gbUp then (s.happen .TRK_EVENT_LOCK_LOST 49 17).error catLink 0x01 blkTrk .normal 17 else s
      else s

/-- A course start without a re-anchor (R131): 64 in a row make a node's time invalid. -/
def NodeTime.miss (t : NodeTime) : NodeTime := { t with missed := min 64 (t.missed + 1), valid := t.valid && decide (t.missed < 63) }

/-- A predicted position passes a downstream side without COURSE_START (R42): at the second in a row it loses course synchronisation and
reports it, a link failure of the port above (R91). -/
def State.missStart (s : State) (d : DevRef) : State :=
  match s.devAt d with
  | none => s
  | some x =>
    if !x.link.synced then s
    else
      let s := s.modDevAt d fun y => { y with
        link := { y.link with missed := y.link.missed + 1, synced := decide (y.link.missed + 1 < 2) }, time := y.time.miss }
      if x.link.missed + 1 < 2 then s
      else
        match d with
        | .node n => s.linkFailure n.above
        | .gb => s

/-- A predicted position of COURSE_START brings no blocks at all, the second in a row (R42, assumption 70). -/
def execCourseSyncLost (d : DevRef) (s : State) : Res :=
  .next <|
    match s.devAt d with
    | none => s
    | some x => if x.link.synced && x.link.missed ≥ 1 then s.missStart d else s

/-- 64 courses without a re-anchor: a node's time is invalid (R131). -/
def execNodeTimeInvalid (d : Pos) (s : State) : Res :=
  .next (s.modDev d fun x => if x.time.missed ≥ 64 then { x with time := { x.time with valid := false } } else x)

/-! Suspend, resume, wake. -/

/-- The SUSPEND blocks of an entry, counts 15 down to 0 (R45). -/
def suspendBlocks : List Block := (List.range 16).map fun i => ctlBlock cSuspend (15 - i)

/-- A port is suspended: electrical idle after SUSPEND. -/
def Port.asleep (x : Port) : Port :=
  { x.unlink with state := .suspended, lastRate := x.rx.rate, rx := { x.rx with train := .idle, blockLock := false, gotReady := 0 } }

/-- A receiver takes SUSPEND (R45); a hub suspends each of its ENABLED ports (R111). -/
def execSuspendReceive (d : DevRef) (blocks : List Block) (idle : Bool) (s : State) : Res :=
  .next <|
    match s.devAt d with
    | none => s
    | some x =>
      let good := blocks.filter fun b => Block.isSet b cSuspend
      if x.link.phase == .up && ((good.any fun b => Block.arg b % 16 == 0) || (idle && good.length ≥ 4)) then
        let s := s.modLink d fun l =>
          { l with phase := .suspended, synced := false, lastRate := l.rx.rate, waking := false
                   rx := { l.rx with train := .idle, blockLock := false, gotReady := 0 } }
        match s.hubAt d with
        | none => s
        | some h => h.enabledPorts.foldl (fun (s : State) p =>
            (s.modPort p fun y => { y.asleep with byHub := true }).emit (.blocks (.up p) suspendBlocks)) s
      else s

/-- A port sends its 16 SUSPEND blocks after its next COURSE_START and enters SUSPENDED (R110). -/
def execPortSuspendEntry (p : PortRef) (s : State) : Res :=
  .next <|
    match s.port p with
    | none => s
    | some x =>
      if x.state == .enabled && x.suspendReq then
        let s := s.gaDown p
        let s := (s.modPort p Port.asleep).emit (.blocks (.up p) suspendBlocks)
        (s.portEvent p .TRK_PEVENT_SUSPENDED 0).settle p
      else s

/-- Remote wake is recognised at a port (R112). -/
def State.wakeEnabled (s : State) (p : PortRef) (x : Port) : Bool :=
  match p.copy with
  | some k => s.flag .TRK_PCFG_WAKE_EN k
  | none => x.wakeEn

/-- GB sends WAKE on its suspended link (R385). -/
def State.gbWakes (s : State) : State :=
  if s.gb.link.phase == .suspended && !s.gb.link.waking then
    (s.modLink .gb fun l => { l with waking := true }).emit (.blocks (.down .gb) [ctlBlock cWake 0xAAAAAAA])
  else s

/-- A hub that recognises WAKE sends WAKE on its own suspended upstream link (R112); so does a member whose GA recognises it (R385). -/
def State.hubWakesUp (s : State) (p : PortRef) : State :=
  match p with
  | .hub h _ =>
    (match s.dev h with
      | some y =>
        if y.link.phase == .suspended && !y.link.waking then
          (s.modLink (.node h) fun l => { l with waking := true }).emit (.blocks (.down (.node h)) [ctlBlock cWake 0xAAAAAAA])
        else s
      | none => s)
  | .ga => (if s.gang.role == .member then s.gbWakes else s).happen .GANG_EVENT_REMOTE_WAKE 48
  | .root _ => s

/-- A resume of GB: whether its own WAKE was absorbed into it (R385, R388). -/
def State.gbResumes (s : State) (own : Bool) : State :=
  let s := s.setFld .TRK_PSTATE_REMOTE_WAKE own.toNat 17
  if own then s.happen .GANG_EVENT_REMOTE_WAKE 48 else s

/-- 8 consecutive WAKE blocks are recognised (R46, R91, R112, R113). -/
def execWakeRecognised (x : Side) (blocks : List Block) (s : State) : Res :=
  .next <|
    if longestRun (fun b => Block.isSet b cWake) blocks < 8 then s
    else
      match x with
      | .up p =>
        (match s.port p with
          | none => s
          | some y =>
            if !s.wakeEnabled p y then s
            else if y.state == .suspended then
              ((s.requestResume p true).portEvent p .TRK_PEVENT_WAKE chgWake).hubWakesUp p
            else if y.state == .resuming && y.wakeFor == .resume then
              let s := (s.modPort p fun y => { y with remoteWake := true }).portEvent p .TRK_PEVENT_WAKE chgWake
              if p == .ga then s.happen .GANG_EVENT_REMOTE_WAKE 48 else s
            else s)
      | .down d =>
        (match s.devAt d with
          | none => s
          | some y =>
            if y.link.phase == .suspended then
              let s := if d == .gb then s.gbResumes y.link.waking else s
              s.modLink d fun l => { l with
                phase := .train, waking := false
                rx := { l.rx with train := .lock, rate := l.lastRate, blockLock := false, gotReady := 0, sentReady := 0, sent := 0, attempt := 1
                                  eyeOk := false, request := l.rx.farPreset } }
            else s)

/-- A node capable of remote wake sends WAKE while its link is suspended (R112). -/
def execNodeRemoteWake (d : Pos) (s : State) : Res :=
  .next <|
    match s.dev d with
    | none => s
    | some x =>
      if x.link.phase == .suspended && x.cap 14 && !x.link.waking then
        (s.modLink (.node d) fun l => { l with waking := true }).emit (.blocks (.down (.node d)) [ctlBlock cWake 0xAAAAAAA])
      else s

/-- The rate at which a suspended link trains again: its previous one, but never HR below an upstream link at BR (R54, R108). -/
def State.resumeRate (s : State) (p : PortRef) (x : Port) : Rate :=
  match p with
  | .hub h _ => if (s.dev h).any fun y => y.link.rx.rate == some .br then .br else x.lastRate.getD .br
  | _ => x.lastRate.getD .br

/-- A port's 2 ms of WAKE end: training resumes at the previous rate with the last presets, or the reset hold starts (R48, R54). -/
def execWakeSendEnd (p : PortRef) (s : State) : Res :=
  .next <|
    match s.port p with
    | none => s
    | some x =>
      match x.wakeFor with
      | .none => s
      | .reset =>
        let s := s.modPort p fun x => { x with wakeFor := .none, state := .resetting, rx := { Rx.init with train := .hold } }
        s.emit (.drive (.up p) true)
      | .resume =>
        let r := s.resumeRate p x
        let s := s.modPort p fun x =>
          { x with wakeFor := .none
                   rx := { x.rx with train := .lock, rate := some r, blockLock := false, gotReady := 0, sentReady := 0, sent := 0, attempt := 1
                                     eyeOk := false, request := x.rx.farPreset } }
        s.sendTrain (.up p) 1

/-! PING and PONG. -/

/-- The course number that a port's link runs in. -/
def State.linkCourse (s : State) (p : PortRef) : Nat :=
  match p with
  | .hub h _ => (match s.dev h with | some y => y.link.course.toNat | none => 0)
  | _ => s.course.count.toNat % 2 ^ 24

/-- A discarded sample (R134). -/
def Delay.miss (d : Delay) : Delay := { d with awaiting := none, missed := if d.missed = 255 then 255 else d.missed + 1 }

/-- PING in block E0 of a course whose COURSE_START was sent (R133). An earlier PONG that is still missing is discarded. -/
def execPingSend (p : PortRef) (s : State) : Res :=
  .next <|
    match s.port p with
    | none => s
    | some x =>
      if x.state == .enabled && x.started then
        let seq := s.linkCourse p % 256
        let s := s.modPort p fun x =>
          let d := if x.delay.awaiting.isSome then x.delay.miss else x.delay
          { x with delay := { d with awaiting := some (BitVec.ofNat 8 seq), pings := d.pings + 1 } }
        s.emit (.blocks (.up p) [ctlBlock cPing (seq * 2 ^ 20)])
      else s

/-- The downstream side consumes PING and answers PONG with its hold time (R47, R133). -/
def execPingReceive (d : DevRef) (b : Block) (hold : Nat) (s : State) : Res :=
  .next <|
    match s.devAt d with
    | none => s
    | some x =>
      if x.link.phase == .up && Block.isSet b cPing then
        s.emit (.blocks (.down d) [ctlBlock cPong (Block.arg b / 2 ^ 20 * 2 ^ 20 + min hold (2 ^ 20 - 1))])
      else s

/-- The upstream side takes a delay sample from PONG: round trip `rtt` in 1/64 ns; `late`: after block 7 of the following course
(R134). -/
def execPongReceive (p : PortRef) (b : Block) (rtt : Nat) (late : Bool) (s : State) : Res :=
  .next <|
    match s.port p with
    | none => s
    | some x =>
      if x.state == .enabled then
        match x.delay.awaiting with
        | none => s
        | some q =>
          let seq := BitVec.ofNat 8 (Block.arg b / 2 ^ 20)
          if Block.isSet b cPong && seq == q && !late then
            s.modPort p fun x => { x with delay := { x.delay with
              awaiting := none, lastSeq := seq, sum := x.delay.sum + (rtt - Block.arg b % 2 ^ 20), count := x.delay.count + 1 } }
          else s.modPort p fun x => { x with delay := x.delay.miss }
      else s

/-! STOP at a receiver. -/

/-- A valid STOP is received (R43, R272, R384). A node discards its pending releases and takes its stop action, a hub sends STOP on; a
gang port passes it to the controller; at the other ports of the upstream side it is discarded. -/
def execStopReceive (x : Side) (b : Block) (s : State) : Res :=
  .next <|
    if Block.isSet b cStop then
      match x with
      | .down (.node d) =>
        (match s.dev d with
          | none => s
          | some y =>
            let s := match s.hubAt (.node d) with
              | some h => h.enabledPorts.foldl (fun (s : State) p => s.emit (.blocks (.up p) [b])) s
              | none => s
            let s := s.modDev d fun (y : Device) => { y with stopped := true, eps := y.eps.map fun e => { e with releases := [] } }
            if y.nports = 0 then s.emit (.stopAction d) else s)
      | .down .gb => if s.flag .ENG_STOP_CFG_GANG_EN then s.stopTrigger 5 (some (.down .gb)) else s
      | .up .ga => if s.flag .ENG_STOP_CFG_GANG_EN then s.stopTrigger 5 (some (.up .ga)) else s
      | .up _ => s
    else s

/-- A node finishes its start-up and answers packets at address 0 from now on (R78). -/
def execNodeReady (d : Pos) (s : State) : Res :=
  .next (s.modDev d fun x => if x.powered && x.link.phase == .up then { x with ready := true } else x)

end Sys2Proof.Machine
end

