-- ==== Sys2Proof/Machine/Time.lean ====
section
/-!
DEFINITION. Bus time: quality, source, steps and slews (R128–R141), PPS (R139), holdover (R140), sleep and clock changes (R142, R143).
-/

namespace Sys2Proof.Machine

/-- Device source 3: TAPU time events (R346). -/
def srcTapu : Nat := 3

/-- Time quality changes (R140, R145, R312). -/
def State.setQuality (s : State) (q : Quality) : State :=
  let old := s.time.quality
  if old = q then s
  else
    let again := q == .estimated || q == .holdover
    let s := { s with time := { s.time with quality := q }, gang := { s.gang with firstSample := s.gang.firstSample || again } }
    (s.happen .TAPU_EVENT_QUALITY_CHG srcTapu).event 0 evTimeQuality 0 [BitVec.ofNat 8 old.code, BitVec.ofNat 8 q.code]

/-- LOCKED, with U := 0. -/
def State.lockTime (s : State) : State :=
  ({ s with time := { s.time with uncert := 0, missRun := 0 } }).setQuality .locked

/-- HOLDOVER from LOCKED, with U from 0. -/
def State.loseLock (s : State) : State :=
  ({ s with time := { s.time with uncert := 0, lockRun := 0, firstPulse := true } }).setQuality .holdover

/-- The source of bus time in force (R138). -/
def State.timeSource (s : State) : Nat := s.effFld .TAPU_TIME_CTRL_SOURCE

/-- A change of SOURCE takes effect (R140): LOCKED for INTERNAL, HOLDOVER for the others; bus time and U are kept. -/
def State.sourceEffect (s : State) (src : Nat) : State :=
  let s := { s with time := { s.time with lockRun := 0, missRun := 0, firstPulse := true, rateGoal := 0 } }
  if s.time.quality = .unset then s else s.setQuality (if src = 0 then .locked else .holdover)

/-- SOURCE is written: at the next course start it takes effect, at once while no courses run (R7, R475). -/
def State.setSource (s : State) (src : Nat) : State :=
  let was := s.timeSource
  let s := if s.fld .TAPU_TIME_CTRL_SOURCE = src then s else (s.shadow .TAPU_TIME_CTRL 0 0).setFld .TAPU_TIME_CTRL_SOURCE src
  if s.timeSource = was then s else s.sourceEffect src

/-- A deadline moved by a step (R240). -/
def Task.shift (t : Task) (delta : Int) : Task :=
  { t with delay := t.delay.map fun d => (((d : Int) * 128 + delta) / 128).toNat }

/-- A step takes effect (R138, R140): bus time is set, armed deadlines keep their remaining time, and with source INTERNAL the quality
leaves UNSET and ESTIMATED. With source PPS the pulses count again after it (assumption 71). An offset that a step removes is not steered away as
well (R139). -/
def State.applyStep (s : State) (v : BitVec 64) (frac : BitVec 32) : State :=
  let delta : Int := (v.toNat : Int) - (s.time.bus.toNat : Int)
  let s := { s with
    time := { s.time with
      bus := v, frac := frac, step := none, stepBy := none, slewLeft := 0, secondsSet := true
      rateGoal := if s.time.step.isNone && s.time.stepBy.isSome then 0 else s.time.rateGoal }
    flows := s.flows.map fun (e : Nat × Flow) => (e.1, { e.2 with task := e.2.task.shift delta })
    fwTasks := s.fwTasks.map fun (e : Nat × Task) => (e.1, e.2.shift delta) }
  let s := s.happen .TAPU_EVENT_STEP_DONE srcTapu
  if s.timeSource = 0 && (s.time.quality == .unset || s.time.quality == .estimated) then s.lockTime else s

/-- Bus time and fraction after an offset in 1/64 ns is taken away. -/
def TimeState.minus (t : TimeState) (o : Int) : BitVec 64 × BitVec 32 :=
  let v : Int := (t.bus.toNat : Int) * 2 ^ 32 + (t.frac.toNat : Int) - o * 2 ^ 26
  (BitVec.ofInt 64 (v / 2 ^ 32), BitVec.ofInt 32 (v % 2 ^ 32))

/-- The step that waits takes effect at a course start (R138, R141); a host's step goes before one that discipline asked for. -/
def State.dueStep (s : State) : State :=
  match s.time.step, s.time.stepBy with
  | some v, _ => s.applyStep v 0
  | none, some o =>
    let x := s.time.minus o
    s.applyStep x.1 x.2
  | none, none => s

/-- The largest rate offset in force, ppb (R145). -/
def State.maxPpb (s : State) : Int := ((min (s.fld .TAPU_SLEW_CFG_MAX_PPB) 200000 : Nat) : Int)

/-- A value held within ±b. -/
def clampInt (b v : Int) : Int := if v > b then b else if v < -b then -b else v

/-- Offset that a rate and its ramp down to 0 by 10 ppb a course remove, in ppb × courses. -/
def rampArea (r : Int) : Int := r * r / 20 + r / 2

/-- The rate at which a slew goes on, for an offset left in ppb × courses (assumption 21: the ramp's shape). -/
def slewRate (rate left : Int) : Int :=
  if left < 0 then -(if -left < 10 then -left else if rampArea (-rate + 10) ≤ -left then -rate + 10
    else if rampArea (-rate) ≤ -left then -rate else -rate - 10)
  else if left < 10 then left
  else if rampArea (rate + 10) ≤ left then rate + 10
  else if rampArea rate ≤ left then rate
  else rate - 10

/-- The rate of the next course (R129): toward what slew or discipline asks for, by at most 10 ppb, within the limit. What the course just ended
has removed of a slew is counted. DESIGN CHOICE (assumption 76): where MAX_PPB is lowered below the present rate, the rate follows at once. -/
def State.nextRate (s : State) : State :=
  let t := s.time
  let p : Int := (s.periodNs : Int)
  let left := if t.slewLeft = 0 then 0 else t.slewLeft - t.rate * p
  let left := if left.natAbs < s.periodNs then 0 else left
  let goal := if left = 0 then t.rateGoal else slewRate t.rate (left / p)
  let rate := clampInt s.maxPpb (t.rate + clampInt 10 (goal - t.rate))
  { s with time := { t with slewLeft := left, rate := rate } }

/-- A slew is asked for (R138, R140, R141): it replaces the one in progress; ESTIMATED with source INTERNAL becomes LOCKED. -/
def State.startSlew (s : State) (ns : Int) : State :=
  let s := { s with time := { s.time with slewLeft := ns * 1000000000 } }
  if s.timeSource = 0 && s.time.quality == .estimated then s.lockTime else s

/-! Rows. -/

/-- Each course period in HOLDOVER, U grows by WANDER × P (R140). -/
def execHoldoverTick (s : State) : Res :=
  .next <|
    if s.time.quality = .holdover then
      let limit := s.fld .TAPU_HOLD_CFG_LIMIT * 1000000000
      let u := s.time.uncert + s.fld .TAPU_HOLD_CFG_WANDER * s.periodNs
      let passed := s.time.uncert ≤ limit && limit < u
      let s := { s with time := { s.time with uncert := u } }
      if passed then s.happen .TAPU_EVENT_BOUND_EXCEEDED srcTapu else s
    else s

/-- A signed value in 32 bits, saturating. -/
def sat32 (v : Int) : Nat := (BitVec.ofInt 32 (if v > 0x7FFFFFFF then 0x7FFFFFFF else if v < -0x80000000 then -0x80000000 else v)).toNat

/-- One second in 1/64 ns. -/
def second64 : Nat := 64000000000

/-- The offset of a stamp from the nearest whole second, 1/64 ns (R139). -/
def ppsOffset (stamp : Nat) : Int :=
  let r := stamp % second64
  if r * 2 ≥ second64 then (r : Int) - (second64 : Int) else (r : Int)

/-- No pulse can resolve the uncertainty: ESTIMATED with U of 0.5 s or more, and no step since (R140). -/
def State.blind (s : State) : Bool := s.time.quality == .estimated && s.time.uncert ≥ 500000000 * 1000000000 && !s.time.secondsSet

/-- A PPS pulse that was taken as a sample (R139, R140): it steers the rate, or asks for a step, where it can resolve the offset.
DESIGN CHOICE (assumption 76): the loop is proportional alone, its goal −offset / 2^TAU ppb and kept until the next pulse. -/
def State.ppsSample (s : State) (o : Int) : State :=
  let thr : Int := (s.fld .TAPU_LOCK_CFG_LOCK_THR * 64 : Nat)
  let within := (o.natAbs : Int) ≤ thr
  let blind := s.blind
  let free := s.pmu.mode != .run && s.pmu.mode != .hold
  let step := free && s.time.firstPulse && s.time.quality != .locked && !within && !blind
  let goal := clampInt s.maxPpb (-(o / 64) / (2 ^ s.fld .TAPU_LOCK_CFG_TAU : Nat))
  { s with time := { s.time with
      missRun := 0, firstPulse := false
      lockRun := if within && !blind then s.time.lockRun + 1 else 0
      stepBy := if step then some o else s.time.stepBy
      rateGoal := if blind then s.time.rateGoal else if step then 0 else goal } }

/-- A pulse missing or an outlier (R140): two in a row lose LOCKED. -/
def State.ppsGone (s : State) : State :=
  let n := s.time.missRun + 1
  let s := { s with time := { s.time with missRun := n, lockRun := 0 } }
  if s.time.quality = .locked && n ≥ 2 then s.loseLock else s

/-- A PPS_IN edge (R139, R141), the one that marks the second by PPS_CFG.IN_FALL: stamped, and with source PPS it steers bus time; an outlier is
discarded. -/
def execPpsEdge (stamp : Nat) (s : State) (fall : Bool := false) : Res :=
  .next <|
    if s.pmu.doms[10] != .on then s.lostPulse
    else if s.flag .TAPU_PPS_CFG_IN_EN && s.flag .TAPU_PPS_CFG_IN_FALL == fall then
      let s := (s.setPair .TAPU_PPS_STAMP_LO_STAMP .TAPU_PPS_STAMP_HI_STAMP (stamp / 64)).setFld .TAPU_PPS_STAT_FRAC (stamp % 64)
      if s.timeSource = 1 && !s.time.stepped then
        let o := ppsOffset stamp
        let s := s.setFld .TAPU_OFFSET_OFFSET (sat32 o)
        if s.time.quality = .locked && o.natAbs > 256 * s.fld .TAPU_LOCK_CFG_LOCK_THR then s.ppsGone else s.ppsSample o
      else s
    else s

/-- No edge within ±1 ms of the expected second (R139). -/
def execPpsMissing (s : State) : Res :=
  .next <|
    if s.flag .TAPU_PPS_CFG_IN_EN && s.timeSource = 1 && !s.time.stepped then
      ((s.addSat .TAPU_PPS_STAT_MISSED 1).happen .TAPU_EVENT_PPS_MISSED srcTapu).ppsGone
    else s

/-- LOCK_CNT consecutive pulses within LOCK_THR (R140). -/
def execPpsLock (s : State) : Res :=
  .next <|
    if s.timeSource = 1 && s.time.quality != .locked && s.time.lockRun ≥ max 1 (s.fld .TAPU_LOCK_CFG_LOCK_CNT) then s.lockTime
    else s

/-- PPS_OUT rises where bus time less OFS is a whole second within this CCLK, and stays high for OUT_WIDTH (R145). -/
def execPpsOutEdge (s : State) : Res :=
  .next <|
    let ofs : Int := (BitVec.ofNat 32 (s.effFld .TAPU_PPS_OUT_OFS_OFS)).toInt
    let now : Int := (s.time.bus.toNat : Int) * 64 + (s.time.frac.toNat / 2 ^ 26 : Nat)
    if s.flag .TAPU_PPS_CFG_OUT_EN && s.pmu.doms[10] == .on && (now - ofs) % (second64 : Int) < 129 then
      s.emit (.ppsOut (max 1 (s.fld .TAPU_PPS_CFG_OUT_WIDTH)))
    else s

/-- Bus time rebuilt over a number of AO ticks of 30,517.578125 ns (R142, R143): ESTIMATED, U grown. Deadlines that have passed then expire, see
`State.expireDue`. -/
def State.rebuild (s : State) (base : BitVec 64) (ticks : Nat) : State :=
  let ps := ticks * 30517578125
  let bus := base + BitVec.ofNat 64 (ps / 1000000)
  let s := { s with
    time := { s.time with
      bus := bus, frac := BitVec.ofNat 32 (ps % 1000000 * 2 ^ 32 / 1000000), mono := s.time.mono + ps / 1000000
      uncert := s.time.uncert + 50 * 1000 * (ps / 1000000) + 30518 * 1000000000
      lockRun := 0, firstPulse := true, secondsSet := false } }
  let s := if s.time.quality = .unset then s else s.setQuality .estimated
  s.happen .TAPU_EVENT_RECONSTRUCTED srcTapu

/-- The AO counter advances (R142). -/
def execAoTick (s : State) : Res := .next { s with time := { s.time with ao := s.time.ao + 1 } }

end Sys2Proof.Machine
end

