-- ==== Sys2Proof/Machine/Gang.lean ====
section
/-!
DEFINITION. COURSE_START at nodes, hubs and GB (R36–R42, R130–R132), and the gang's happenings: following, lock, lease, pace records, joining,
and GA's retry (R363–R387).
-/

namespace Sys2Proof.Machine

/-! Endpoints and what they put out. -/

/-- An endpoint of a node; one not used yet is in the initial state. -/
def Device.ep (d : Device) (ep : BitVec 4) : Endpoint := (d.eps.find? (·.num == ep)).getD (Endpoint.init ep)

/-- Change an endpoint. -/
def Device.modEp (d : Device) (ep : BitVec 4) (f : Endpoint → Endpoint) : Device :=
  { d with eps := (d.eps.filter (·.num != ep)) ++ [f (d.ep ep)] }

/-- A saturating byte count. -/
def inc8 (v : BitVec 8) : BitVec 8 := if v = 255 then v else v + 1

/-- A late release (R66, R67, R100). -/
def Device.lateRelease (d : Device) (ep : BitVec 4) (tag : BitVec 10) : Device :=
  { d.modEp ep fun e => { e with late := inc8 e.late, lateTag := tag } with late := inc8 d.late }

/-- An endpoint puts a payload out. -/
def State.applyOut (s : State) (n : Pos) (ep : BitVec 4) (ws : List Word) : State :=
  (s.modDev n fun x => x.modEp ep fun e => { e with output := ws }).emit (.node n ep ws)

/-! COURSE_START. -/

/-- A COURSE_START as a receiver has it: the course number, the flags, the bus time carried and the residence correction; no time where it
is invalid for this course (R39, R42). -/
structure Started where
  num : BitVec 24
  /-- Flags of block 0; none where block 0 was in error. -/
  flags : Option (BitVec 4)
  time : Option (Nat × Int)
deriving DecidableEq, Repr

/-- Reads three blocks at a predicted position (R39, R42). `known`: the number that a course-synchronised receiver expects. Block 0 seeds the
scrambler for blocks 1 and 2 (R35); in error and followed by two data blocks, it is taken with the number expected. -/
def readStart (known : Option (BitVec 24)) (b0 b1 b2 : Block) : Option Started :=
  let whole := Block.isData b1 && Block.isData b2
  if Block.isSet b0 cCourseStart then
    if known.isSome || whole then
      let flags := BitVec.ofNat 4 (Block.arg b0)
      let num := BitVec.ofNat 24 (Block.arg b0 / 16)
      match (descramble (scrSeed num) [b1, b2] : Packet) with
      | [some w1, some w2] =>
        let c := w2.extractLsb' 0 8
        let b := w1.toNat * 2 ^ 28 + wbits w2 35 8
        some ⟨num, some flags, if flags.getLsbD 1 && c != 0x80 then some (b, c.toInt) else none⟩
      | _ => some ⟨num, some flags, none⟩
    else none
  else if whole && Block.faulty none b0 then known.map fun n => ⟨n, none, none⟩
  else none

/-- The number that a course-synchronised side expects next (R42). -/
def DownLink.expected (l : DownLink) : Option (BitVec 24) :=
  if l.synced then some (l.course + 1 + BitVec.ofNat 24 l.missed) else none

/-- A downstream side after a COURSE_START at running time `now`: synchronised, its scrambler seeded (R35, R36), the period learned again from
this one and the one before (R42, R124), at BR where the last one carried RATE_DOWN (R58). -/
def DownLink.begin (l : DownLink) (x : Started) (now : Nat) : DownLink :=
  let rx : Rx := if l.rateDown then { l.rx with rate := some .br, nearPreset := 0, farPreset := 0 } else l.rx
  let bit (i : Nat) : Bool := match x.flags with | some f => f.getLsbD i | none => false
  { l with synced := true, missed := 0, course := x.num, seed := scrSeed x.num, heard := 3, rx := rx
           startAt := now, period := if l.synced && l.missed = 0 then now - l.startAt else l.period
           rateDown := bit 2, timeValid := bit 1, cycleStart := bit 0, lease := bit 3 }

/-- A node's rate from the carried times of the last two valid course starts and its own symbol count between them (R130). -/
def NodeTime.measure (t : NodeTime) (b now : Nat) : NodeTime :=
  match t.last with
  | some (b0, at0) =>
    if at0 < now then { t with last := some (b, now), rateNum := (b : Int) - (b0 : Int), rateDen := now - at0 } else { t with last := some (b, now) }
  | none => { t with last := some (b, now) }

/-- A node's local time at a COURSE_START (R130–R132): anchored where the time is valid and a D is known; otherwise it goes on at its last
rate, and 64 courses without an anchor make it invalid. -/
def NodeTime.anchorAtStart (t : NodeTime) (x : Option (Nat × Int)) (now : Nat) : NodeTime :=
  match x with
  | none => t.miss
  | some (b, c) =>
    let t := t.measure b now
    match t.dNext.or t.d with
    | some d =>
      { t with valid := true, d := some d, dNext := none, missed := 0, anchorAt := now, anchor := ((b * 64 + d.toNat : Nat) + c * 8 : Int).toNat }
    | none => t.miss

/-- The local bus time of a node in whole ns (R130): from its last anchor at its last rate. -/
def Device.localNs (x : Device) (now : Nat) : Nat :=
  ((x.time.anchor : Int) + (now - x.time.anchorAt : Nat) * 64 * x.time.rateNum / (max 1 x.time.rateDen : Nat)).toNat / 64

/-- The residence correction that a hub sends on (R39, R107): the one received plus what its residence exceeds FWD_DOWN by, 0x80 where that is
no correction. -/
def corrected (c : BitVec 8) (residence fwd : Nat) : BitVec 8 :=
  let sum : Int := c.toInt + (residence : Int) - (fwd : Int) * 8
  if c = 0x80 || sum < -127 || sum > 127 then 0x80 else BitVec.ofInt 8 sum

/-- Block 2 as a hub sends it on (R36, R39): descrambled, corrected, scrambled again, its check computed anew. -/
def correctedBlock (num : BitVec 24) (b2 : Block) (residence fwd : Nat) : Block :=
  let out := (scrBlock (scrAt (scrSeed num) 2)).1
  if Block.isData b2 then
    let w := Block.payload b2 ^^^ out
    mkBlock 0b01#2 ((w.extractLsb' 8 28 ++ corrected (w.extractLsb' 0 8) residence fwd : BitVec 36) ^^^ out)
  else Block.killed b2

/-- A hub port at a COURSE_START of course `n` (R58, R108): RATE_DOWN in the last course before its boundary, BR from the boundary on. -/
def Port.hubStart (x : Port) (n : BitVec 24) : Port :=
  let x := { x with started := true, seed := scrSeed n, seedBefore := x.seed }
  if x.rateDown then
    { x with rateDown := false, stepPending := false, stepped := true, hrEn := false
             rx := { x.rx with rate := some .br, nearPreset := 0, farPreset := 0 } }
  else if (n + 1).toNat % 64 == 0 && x.stepsBy (n + 1).toNat then
    { x with rateDown := true }
  else x

/-- A hub sends COURSE_START on through each ENABLED port (R39, R41). -/
def State.forwardStart (s : State) (h : Device) (x : Started) (b0 b1 b2 : Block) (residence : Nat) : State :=
  h.enabledPorts.foldl (fun (s : State) p =>
    let s := s.modPort p fun y => y.hubStart x.num
    match s.port p with
    | none => s
    | some y =>
      let first := match x.flags with
        | some f => ctlBlock cCourseStart (x.num.toNat * 16 + y.rateDown.toNat * 4 + f.toNat % 4)
        | none => Block.killed b0
      let second := if Block.isData b1 then b1 else Block.killed b1
      s.emit (.blocks (.up p) [first, second, correctedBlock x.num b2 residence (s.fwd h.pos).1])) s

/-! A member follows the ridge. -/

/-- A position of COURSE_START on GB is counted: the lease of its course (R368). -/
def Gang.hear (g : Gang) (lease : Bool) : Gang :=
  { g with
    heard := true, leaseNow := lease
    leaseMiss := if lease then 0 else min 15 (g.leaseMiss + 1)
    leaseHave := if lease then g.leaseHave + 1 else 0 }

/-- This controller follows a ridge (R375, R377). -/
def Gang.follows (g : Gang) : Bool := g.role == .member && g.accepted.isSome && g.phase != .mismatch

/-- An offset sample (R378, R379, R381): `o` in 1/64 ns. -/
def State.offsetSample (s : State) (o : Int) : State :=
  let g := s.gang
  let off := o.natAbs > 64
  let free := s.pmu.mode != .run && s.pmu.mode != .hold
  let step := off && free && g.firstSample
  let tau := min 12 (s.fld .GANG_CFG_GTAU)
  let goal := clampInt s.maxPpb (-(o * 1000000000) / (64 * 2 ^ tau * s.periodNs : Nat))
  let s := if off && g.phase == .locked then s.addSat .GANG_OFS_STAT_WARN 1 else s
  let s := { s with time := { s.time with rateGoal := if step then 0 else goal, stepBy := if step then some o else s.time.stepBy } }
  let lost := g.phase == .locked && o.natAbs > 3200
  let s := s.modGang fun g =>
    { g with
      offset := o, sampled := true, noSample := 0, goodRun := if off then 0 else g.goodRun + 1
      firstSample := g.firstSample && !step
      phase := if lost then .unqualified else g.phase }
  if lost then s.error catGang 0x03 blkGang .normal (sat32 o) else s

/-- GB's COURSE_START at a member (R368, R377, R378): the course grid follows the ridge's. -/
def State.gbStart (s : State) (x : Option Started) (stamp : Nat) : State :=
  match x with
  | none => s.modGang fun g => g.hear false
  | some x =>
    let lease := match x.flags with | some f => f.getLsbD 3 | none => false
    let s := s.modGang fun g => { g.hear lease with timeValid := x.time.isSome }
    if s.gang.follows then
      match x.time with
      | none => s
      | some (b, _) =>
        let ahead : Int := ((BitVec.truncate 24 s.course.count) - x.num).toInt
        let s := { s with course := { s.course with start := BitVec.ofInt 64 ((b : Int) + ahead * (s.periodNs : Int)) } }
        match s.gb.time.d with
        | none => s
        | some d => s.offsetSample ((stamp : Int) - ((b * 64 + d.toNat : Nat) : Int))
    else s

/-- A re-anchored node whose local time a forward step has carried past pending releases: they are late, and R66 decides (R68, R138). `was`:
its local time before. -/
def State.lateByStep (s : State) (n : Pos) (was : Nat) : State :=
  match s.dev n with
  | none => s
  | some x =>
    let now := x.localNs s.time.mono
    let hit : List (BitVec 4 × Release) := x.eps.flatMap fun e =>
      (e.releases.filter fun r => decide (was < r.time.toNat) && decide (r.time.toNat < now)).map fun r => (e.num, r)
    hit.foldl (fun (s : State) y =>
      let s := s.modDev n fun x => (x.modEp y.1 fun e => { e with releases := e.releases.erase y.2 }).lateRelease y.1 y.2.tag
      if y.2.lateFire then s.applyOut n y.1 y.2.payload else s) s

/-- A downstream side at its predicted position of COURSE_START, or at another where block 0 is intact: three blocks (R36, R39–R42, R124, R130,
R131). -/
def execCourseStartReceive (d : DevRef) (b0 b1 b2 : Block) (residence stamp : Nat) (s : State) : Res :=
  .next <|
    match s.devAt d with
    | none => s
    | some y =>
      if y.link.phase == .up then
        let s := s.gbEdge d
        let x := readStart y.link.expected b0 b1 b2
        let s := match x with
          | none => s.missStart d
          | some x =>
            let now := s.time.mono
            let s := s.modLink d fun l => l.begin x now
            let s := s.modDevAt d fun y => { y with time := y.time.anchorAtStart x.time now }
            match d with
            | .node n => if y.time.valid then s.lateByStep n (y.localNs now) else s
            | .gb => s
        match d with
        | .gb => s.gbStart x stamp
        | .node _ =>
          match x, s.hubAt d with
          | some x, some h => s.forwardStart h x b0 b1 b2 residence
          | _, _ => s
      else s

/-! The pace record. -/

/-- The seven words of an estimator in a pace record (R370). -/
def recordEntry (payload : List Word) (e : Nat) : PaceEntry :=
  let valid := ((payload[0]?).getD 0).getLsbD e
  ⟨valid, (payload.drop (1 + 7 * e)).take 7⟩

/-- The pace packet of R370, if a packet is one. -/
def paceRecord (pkt : Packet) : Option (List Word) :=
  match parsePacket pkt with
  | .data h payload _ _ =>
    if h.ty = tOut && h.addr == 1 && h.route == 0 && h.ep == 15 && h.noack && h.len = 57 then some payload else none
  | _ => none

/-- Blocks by which a member's relay of the pace packet comes later on its own grid: the first boundary at least 8 ns after the reference
transition of the block at GB (R371). -/
def State.relayShift (s : State) : Nat := (((s.gb.time.d.map (·.toNat)).getD 0) + 26 + 512 + 1023) / 1024

/-- A member relays what it receives on GB, block by block (R371). -/
def State.relay (s : State) (w : Wire) : State :=
  let k := w.first + s.relayShift
  s.emit (.forward (.up .ga) ⟨false, k,
    rescramble (scrAt (s.seedIn (.down .gb) w.before) w.first) (scrAt (s.seedOf (.up .ga)) k) w.blocks⟩)

/-- A member receives the ridge's pace packet on GB (R370–R372): it is relayed, and taken when it is intact. -/
def execPacePacketReceive (pkt : Wire) (s : State) : Res :=
  .next <|
    if s.gang.role == .member && s.gbUp then
      let s := if s.enabled .ga then s.relay pkt else s
      match paceRecord (s.receive (.down .gb) pkt) with
      | none => s
      | some payload =>
        let s := s.setFld .GANG_PACE_STAT_VALID (wbits ((payload[0]?).getD 0) 7 0)
        { s with gang := { s.gang with record := (List.range 8).map (recordEntry payload), recordNow := true } }
    else s

/-! Lock and lease. -/

/-- 64 consecutive samples within 1.0 ns (R379, R381). -/
def execRidgeLockGained (s : State) : Res :=
  .next <|
    if s.gang.follows && s.gang.goodRun ≥ 64 then
      let s := if s.timeSource = 2 then s.lockTime else s
      s.modGang fun g =>
        { g with ridgeLock := true, phase := if g.phase == .setup || g.phase == .unqualified then .locked else g.phase }
    else s

/-- Ridge lock is lost (R379). -/
def State.dropRidgeLock (s : State) : State :=
  if s.gang.ridgeLock then
    let s := { s with gang := { s.gang with ridgeLock := false, goodRun := 0 } }
    let s := if s.time.quality = .locked && s.timeSource = 2 then s.loseLock else s
    s.happen .GANG_EVENT_LOCK_LOST 48
  else s

/-- Two consecutive courses without a sample (R379). -/
def execRidgeLockLost (s : State) : Res := .next (if s.gang.noSample ≥ 2 then s.dropRidgeLock else s)

/-- The lease is missing in 8 consecutive courses (R381): LEASE_LOST, and Run goes to Hold. -/
def execLeaseLost (s : State) : Res :=
  .next <|
    if s.gang.role == .member && (s.gang.phase == .locked || s.gang.phase == .unqualified) && s.gang.leaseMiss ≥ 8 then
      let s := s.modGang fun g => { g with phase := .leaseLost }
      (s.error catGang 0x02 blkGang .normal (s.course.count.toNat % 2 ^ 32)).enterHold
    else s

/-- The lease is present in 8 consecutive courses (R381). -/
def execLeaseRestored (s : State) : Res :=
  .next <|
    if s.gang.phase == .leaseLost && s.gang.leaseHave ≥ 8 then
      s.modGang fun g => { g with phase := if g.ridgeLock then .locked else .setup }
    else s

/-! Joining. -/

/-- GB has received transitions in the decision interval, or its link is UP (R366). -/
def State.gbLive (s : State) : Bool := s.gang.sawEdges || s.gbUp

/-- The decision interval of a controller without RIDGE_ALLOWED ends (R366, R376). -/
def execGangDecisionEnd (s : State) : Res :=
  .next <|
    if s.gang.deciding && !s.gang.ridgeAllowed then
      if s.gbLive then s.modGang fun g => { g with deciding := false, role := .member }
      else (s.modGang fun g => { g with role := .solo }).endJoin stGangMismatch
    else s

/-- GANG_JOIN reaches 2 s (R366, R376): OK with the state found; a controller that still waits to be decided is a member, or a head without
RIDGE_ALLOWED. -/
def execGangJoinTimeout (s : State) : Res :=
  .next <|
    if s.gang.deciding && !s.gang.ridgeAllowed then
      if s.gbLive then (s.modGang fun g => { g with deciding := false, role := .member }).endJoin stOk
      else s.endJoin stGangMismatch
    else s.endJoin stOk

/-- A faulted GA retries after 1 s, without a limit (R364). -/
def execGangPortRetry (s : State) : Res :=
  .next <|
    if s.ga.state == .fault then
      s.modPort .ga fun x => { x with state := .powered, cause := .none, hrFails := 0 }
    else s

end Sys2Proof.Machine
end

