-- ==== Sys2Proof/Machine/Node.lean ====
section
/-!
DEFINITION. The nodes and hubs of a tree: the requests they answer (R83–R85, R99–R105, R132, R136, R374), control transfers, toggles and
bulk sequences (R78–R88, R506), timed releases (R66–R68), forwarding through hubs (R72–R75).
-/

namespace Sys2Proof.Machine

/-! Endpoints. -/

/-- Word of an endpoint in the node descriptor (R97). -/
def Device.epWord (d : Device) (ep : BitVec 4) : Option Word :=
  (d.board.desc.drop 5).find? fun w => wbits w 35 32 == ep.toNat

/-- EP_KIND of an endpoint; 0 where the node does not declare it. -/
def Device.epKind (d : Device) (ep : BitVec 4) : Nat := ((d.epWord ep).map fun w => wbits w 31 28).getD 0

/-- Toggles and sequences in the initial state of R82; what the endpoint puts out stays. -/
def Endpoint.initial (e : Endpoint) : Endpoint :=
  { e with expToggle := false, sendToggle := false, seq := 0, sendSeq := 0, halted := false, kept := [] }

/-- A node declares timing duties: a TIMED endpoint or a pace source (R132). -/
def Device.timing (d : Device) : Bool := d.cap 13 || (d.board.desc.drop 5).any fun w => w.getLsbD 20

/-- A saturating 32-bit count. -/
def inc32 (v : BitVec 32) : BitVec 32 := if v = 0xFFFFFFFF then v else v + 1

/-! Hub requests (R103, R104, R136). -/

/-- Flows of the controller to an endpoint at a place start afresh with the node's (R82, R83); a RESYNC ends. -/
def State.resetFlows (s : State) (d : Pos) (hit : BitVec 4 → Bool) : State :=
  let cs := s.ctxs fun f => f.pos == d && hit f.ep
  let s := cs.foldl (fun s c => s.modFlow c fun f => { f.resetSeq with toggleUnknown := false }) s
  s.setCausesAll cs fun c => { c with resync := false }

/-- SET_PORT_FEATURE on a port of a hub; none: STALL (R91, R103, R114). DESIGN CHOICE (assumption 73): POWER on a port that is powered is
answered with STALL, and the over-current of a port stands through FAULT until the port is powered on or off (R104). -/
def State.setFeature (s : State) (h : Pos) (q : Fin 16) (feature : Nat) (n : BitVec 24) : Option State :=
  let p := PortRef.hub h q
  (s.port p).bind fun x =>
    if feature = 1 then
      if x.state == .off || x.state == .fault then
        some ((s.modPort p fun x => { x with state := .off, cause := .none, overcurrent := false }).portPowered p)
      else none
    else if feature = 2 then
      if x.state == .disabled || x.state == .enabled || x.state == .suspended then
        some ((s.failSubtree p).requestReset p false)
      else none
    else if feature = 3 then
      if x.state == .enabled then some (s.modPort p fun x => { x with suspendReq := true }) else none
    else if feature = 4 then
      if x.state == .suspended then some (s.requestResume p false) else if x.state == .resuming then some s else none
    else if feature = 6 then some (s.modPort p fun x => { x with wakeEn := true })
    else if feature = 7 then
      if x.state == .enabled then
        if x.rx.rate == some .hr && (!x.stepPending || x.stepFrom == 0) then
          some (s.modPort p fun x => { x with stepPending := true, stepFrom := max 1 (n + 8).toNat })
        else some s
      else none
    else none

/-- CLEAR_PORT_FEATURE on a port of a hub; none: STALL. -/
def State.clearFeature (s : State) (h : Pos) (q : Fin 16) (feature : Nat) : Option State :=
  let p := PortRef.hub h q
  (s.port p).bind fun x =>
    if feature = 1 then some (s.portOff p)
    else if feature = 5 then if x.state == .enabled then some (s.disablePort p) else none
    else if feature = 6 then some (s.modPort p fun x => { x with wakeEn := false })
    else if 0x10 ≤ feature ∧ feature ≤ 0x15 then
      some (s.modPort p fun x => { x with change := x.change &&& ~~~(BitVec.ofNat 6 (2 ^ (feature - 0x10))) })
    else none

/-- The answer of a device: its next state with the data of a read, or STALL. -/
abbrev Reply := Option (State × List Word)

/-- A hub class request (R103, R136). -/
def State.hubRequest (s : State) (x : Device) (q : Setup) : Reply :=
  let p := q.index % 16
  let read (n : Nat) : Bool := q.dir && q.count == n
  let write : Bool := !q.dir && q.count == 0
  if x.nports = 0 then none
  else if q.code = 5 then
    (if write && 1 ≤ q.value % 8 && q.value % 8 ≤ 4 then
      some (s.modDev x.pos fun x => { x with tier := BitVec.ofNat 3 q.value }, [])
    else none)
  else if p ≥ x.nports then none
  else
    (x.ports[p]?).bind fun y =>
      if q.code = 1 then if read 1 then some (s, [y.word]) else none
      else if x.tier = 0 then none
      else if q.code = 2 then
        if read 4 then
          some (s.modPort (.hub x.pos (Fin.ofNat 16 p)) fun y => { y with errs := PortErrors.init },
            [y.errs.blk, y.errs.crc, y.errs.misroute, y.errs.collision].map (·.zeroExtend 36))
        else none
      else if q.code = 3 then
        if write then (s.setFeature x.pos (Fin.ofNat 16 p) (q.value % 256) x.link.course).map fun s => (s, []) else none
      else if q.code = 4 then
        if write then (s.clearFeature x.pos (Fin.ofNat 16 p) (q.value % 256)).map fun s => (s, []) else none
      else if q.code = 6 then
        if read 1 then
          some (s, [BitVec.ofNat 36 (y.delay.oneWay.toNat + y.delay.valid.toNat * 2 ^ 20 + y.delay.stale.toNat * 2 ^ 21)])
        else none
      else none

/-! Standard requests (R85, R99, R100, R132). -/

/-- The descriptor of a kind (R99). -/
def Device.descriptor (x : Device) (kind : Nat) : Option (List Word) :=
  let some_ (l : List Word) : Option (List Word) := if l.isEmpty then none else some l
  if kind = 1 then some_ x.board.desc else if kind = 2 then some_ x.board.hub else if kind = 3 then some_ x.board.maker else none

/-- GET_STATUS (R100): the word, and the device with the counts cleared. -/
def Device.status (x : Device) (ep : BitVec 4) : Word × Device :=
  if ep = 0 then
    (BitVec.ofNat 36 (x.configured.toNat + x.late.toNat * 2 ^ 8), { x with late := 0 })
  else
    let e := x.ep ep
    (BitVec.ofNat 36 (e.halted.toNat + min 255 e.releases.length * 2 ^ 4 + e.late.toNat * 2 ^ 16 + e.lateTag.toNat * 2 ^ 24),
      x.modEp ep fun e => { e with late := 0 })

/-- SET_CONFIG at a node (R82, R100). -/
def Device.configure (x : Device) (v : Nat) : Device :=
  { x with configured := true, config := BitVec.ofNat 8 v
           eps := x.eps.map fun e => if e.num = 0 then e else { e.initial with releases := [] } }

/-- A standard request (R85, R99, R132). DESIGN CHOICE (assumption 77): STALL answers
GET_DESCRIPTOR with an index other than 0, and CLEAR_HALT,
SET_HALT or GET_STATUS of an endpoint that the node does not declare; SET_HALT of endpoint 0 stalls it from that transfer's status stage on. -/
def State.standardRequest (s : State) (d : DevRef) (x : Device) (q : Setup) : Reply :=
  let ep : BitVec 4 := BitVec.ofNat 4 q.index
  let known := ep = 0 || x.epKind ep ≠ 0
  let write : Bool := !q.dir && q.count == 0
  let reset (s : State) (hit : BitVec 4 → Bool) : State := match d with | .node n => s.resetFlows n hit | .gb => s
  if q.code = 1 then
    if q.dir && q.value / 256 % 256 == 0 then (x.descriptor (q.value % 256)).map fun ws => (s, ws.take q.count) else none
  else if q.code = 2 then
    let a := q.value % 4096
    if write && 1 ≤ a && a ≤ 4064 then some (s.modDevAt d fun x => { x with addrNext := some (BitVec.ofNat 12 a) }, []) else none
  else if q.code = 3 then
    if write then some (reset (s.modDevAt d fun x => x.configure q.value) (· != 0), []) else none
  else if q.code = 4 then
    if write && known then
      some (reset (s.modDevAt d fun x => if ep = 0 then { x with stalled0 := false } else x.modEp ep Endpoint.initial) (· == ep), [])
    else none
  else if q.code = 5 then
    if write && known then
      some (s.modDevAt d fun x => if ep = 0 then { x with stalled0 := true } else x.modEp ep fun e => { e with halted := true }, [])
    else none
  else if q.code = 6 then
    if q.dir && q.count == 1 && known then
      some (s.modDevAt d fun y => (y.status ep).2, [(x.status ep).1])
    else none
  else if q.code = 7 then
    if write && (x.timing || d == .gb) then
      some (s.modDevAt d fun x => { x with time := { x.time with dNext := some (BitVec.ofNat 24 q.value) } }, [])
    else none
  else none

/-! Gang requests at GB (R374, R375). -/

/-- The first check of R375 that fails. -/
def Gang.checkSet (g : Gang) (w0 w1 : Word) : Option Nat :=
  let minor := wbits w0 29 22
  if wbits w1 31 0 ≠ g.digest.toNat then some 1
  else if wbits w0 21 14 ≠ cmdMajor then some 2
  else if (wbits w0 13 6).testBit gangId then some 3
  else if wbits w0 5 3 ≥ g.size.toNat then some 4
  else if minor ≠ 0xFF && cmdMinor < minor then some 5
  else none

/-- A SET_GANG that passes is accepted: the ridge's course count is adopted, the source becomes RIDGE, and following begins (R375). -/
def State.acceptGang (s : State) (w0 w1 w2 : Word) : State :=
  let s := s.setSource 2
  let s := if s.gang.phase = .setup then
      { s with course := { s.course with count := (w2.truncate 24 : BitVec 24) ++ s.gb.link.course } }
    else s
  let s := s.setFld .GANG_XCHG_STATUS 0
  let s := s.modGang fun g =>
    { g with
      accepted := some (w0, w1, w2), role := .member, hop := BitVec.ofNat 3 (wbits w0 5 3), ridgeDigest := w1.truncate 32
      effMinor := if wbits w0 29 22 = 0xFF then g.effMinor else BitVec.ofNat 8 (wbits w0 29 22)
      goodRun := if g.phase == .setup then 0 else g.goodRun, noSample := 0, firstSample := true }
  s.setFld .GANG_RIDGE_DIGEST_DIGEST (wbits w1 31 0)

/-- SET_GANG at GB; none: STALL (R374, R375). A ridge answers STALL as well, and is MISMATCH afterwards. -/
def State.takeGang (s : State) (data : List Word) : Option State :=
  let g := s.gang
  if g.role == .ridge then
    let s := s.modGang fun g => { g with phase := .mismatch }
    let s := (s.happen .GANG_EVENT_TWO_RIDGES 48).error catGang 0x04 blkGang .normal 0
    some s
  else if !g.configured then none
  else
    match data with
    | [w0, w1, w2] =>
      if g.phase == .mismatch || g.accepted == some (w0, w1, w2) then some s
      else
        match g.checkSet w0 w1 with
        | some n =>
          let s := (s.setFld .GANG_XCHG_STATUS stGangMismatch).modGang fun g => { g with phase := .mismatch, role := .member }
          some (s.error catGang 0x01 blkGang .normal n)
        | none => some (s.acceptGang w0 w1 w2)
    | _ => none

/-! Performing a request. -/

/-- A node's own class and vendor requests (R85, R89): those that the spec gives no node; none: it has no such request. -/
def ownRequest (s : State) (x : Device) (q : Setup) (own : Option (List Word)) : Reply :=
  if q.kindN = 2 || (q.kindN = 1 && x.nports = 0) then own.map fun ws => (s, if q.dir then ws.take q.count else []) else none

/-- A request at a device (R84); none: STALL in the setup stage. The requests that the spec gives have no OUT data, but for SET_GANG; the node's
own, in `own`, may have. -/
def State.request (s : State) (d : DevRef) (x : Device) (q : Setup) (own : Option (List Word) := none) : Reply :=
  if (ownRequest s x q own).isSome && d != .gb then ownRequest s x q own
  else if q.kindN = 0 then s.standardRequest d x q
  else if q.kindN = 1 then s.hubRequest x q
  else if q.kindN = 2 && d == .gb && q.code == 0x10 && q.dir && q.count == 3 then some (s, s.gang.info)
  else none

/-- A device whose link is up and that answers packets (R78). -/
def Device.answers (x : Device) : Bool := x.link.phase == .up && x.ready

/-- The address that a device answers at (R64). -/
def Device.address (x : Device) : BitVec 12 := x.addr.getD 0

/-- A handshake of a device. -/
def State.shake (s : State) (d : DevRef) (addr : BitVec 12) (code : BitVec 4) (ep : BitVec 4) (seq : BitVec 5)
    (bulk : Bool := false) : State :=
  s.answer d [Shake.word ⟨bulk, code, addr, ep, seq⟩]

/-- DATA from a device. -/
def State.sendData (s : State) (d : DevRef) (route : BitVec 16) (addr : BitVec 12) (ep : BitVec 4) (seq : BitVec 5) (ws : List Word)
    (last : Bool) : State :=
  s.answer d (dataPacket ⟨tData, route, addr, false, false, ep, seq, ws.length, 0, 0⟩ ws last)

/-- The transfer that a SETUP starts, once its request is performed: what it returns is fixed (R84). -/
def ctrlStart (q : Setup) (reply : List Word) : CtrlXfer where
  setup := q
  stage := if q.dir then (if q.count = 0 then .statusOut else .dataIn) else if q.count = 0 then .statusIn else .dataOut
  toggle := true
  taken := []
  reply := reply
  acked := 0
  lastSent := 0

/-- A node takes a SETUP (R84): a duplicate of its unfinished transfer gets ACK and nothing else; any other starts a transfer, and its
request is performed or answered with STALL (R85). -/
def State.takeSetup (s : State) (n : Pos) (q : Setup) (ack : Bool) (own : Option (List Word) := none) : State :=
  match s.dev n with
  | none => s
  | some x =>
    if x.answers then
      let a := x.address
      let say (s : State) (code : BitVec 4) : State := if ack then s.shake (.node n) a code 0 0 else s
      let dup : Bool := match x.ctrl with | some c => c.setup == q && c.stage != .done | none => false
      if dup then say s hsAck
      else
        let s := s.modDev n fun x => { x with ctrl := none, stalled0 := false, addrNext := none }
        match s.request (.node n) x q own with
        | none => say (s.modDev n fun x => { x with stalled0 := true }) hsStall
        | some (s, reply) => say (s.modDev n fun x => { x with ctrl := some (ctrlStart q reply) }) hsAck
    else s

/-- GB carries out a request: its answers in the setup and data stages go out, and an address is in force at once, its status stage being
part of the command (R84, R365). -/
def State.gbRequest (s : State) (q : Setup) (data : List Word) : State :=
  let x := s.gb
  if x.answers then
    let s := s.gbEdge .gb
    let a := x.address
    let set := q.kindN = 2 && q.code = 0x11 && !q.dir && q.count = 3
    let ridge := set && s.gang.role == .ridge
    let r : Reply := if set then (s.takeGang data).map fun s => (s, []) else s.request .gb x q
    match r with
    | none => s.shake .gb a hsStall 0 0
    | some (s, reply) =>
      let s := if ridge then s.shake .gb a hsStall 0 0 else s.shake .gb a hsAck 0 0
      let s := s.modDevAt .gb fun x => { x with addr := x.addrNext.or x.addr, addrNext := none }
      if reply.isEmpty then s else s.sendData .gb 0 a 0 1 reply true
  else s

/-- A request row at a device. -/
def State.requestAt (s : State) (d : DevRef) (q : Setup) : State :=
  match d with
  | .node n => s.takeSetup n q true
  | .gb => s.gbRequest q []

/-! Output (R66, R68, R80). -/

/-- The full release time of a release word: the value nearest the node's own time (R67). -/
def fullTime (w : Word) (now : Nat) : Int :=
  let m : Int := 2 ^ 36
  let base : Int := (now : Int) - (2 ^ 35 : Int)
  base + (((w.toNat : Int) - base) % m + m) % m

/-- An intact OUT of a periodic or paced endpoint taken in turn (R66–R68, R80). -/
def State.takeOut (s : State) (n : Pos) (x : Device) (h : Header) (ws : List Word) (busy : Bool) : State :=
  let e := x.ep h.ep
  let t := h.seq.getLsbD 0
  let a := x.address
  let say (s : State) (code : BitVec 4) : State := if h.noack then s else s.shake (.node n) a code h.ep (h.seq &&& 1)
  if h.hold then say (s.applyOut n h.ep ws) hsAck
  else if e.halted then say s hsStall
  else if t != e.expToggle then say s hsAck
  else if busy then say s hsNak
  else
    let flip (s : State) : State := s.modDev n fun x => x.modEp h.ep fun e => { e with expToggle := !e.expToggle }
    if h.rel = 0 then say (flip (s.applyOut n h.ep ws)) hsAck
    else
      let word := (ws[0]?).getD 0
      let body := ws.drop 1
      let now := x.localNs s.time.mono
      let at_ := fullTime word now
      let late := !x.time.valid || decide (at_ < (now : Int))
      let depth := wbits ((x.board.desc[4]?).getD 0) 31 24
      if late then
        let s := flip (s.modDev n fun x => x.lateRelease h.ep h.tag)
        say (if h.rel = 2 then s.applyOut n h.ep body else s) hsAck
      else if e.releases.length ≥ depth then say s hsNak
      else
        let r : Release := ⟨BitVec.ofInt 64 at_, h.rel == 2, h.tag, body⟩
        say (flip (s.modDev n fun x => x.modEp h.ep fun e => { e with releases := e.releases ++ [r] })) hsAck

/-- An intact bulk OUT packet (R86): a handshake carries the number expected next (R70), and none goes out under NOACK. How many buffers a node
has free is the node's own, so it is free (assumption 15). -/
def State.takeBulk (s : State) (n : Pos) (x : Device) (h : Header) (ws : List Word) (busy : Bool) : State :=
  let e := x.ep h.ep
  let say (s : State) (code : BitVec 4) (seq : BitVec 5) (bulk : Bool) : State :=
    if h.noack then s else s.shake (.node n) x.address code h.ep seq bulk
  if e.halted then say s hsStall e.seq false
  else if h.seq != e.seq then
    let (w, s) := s.freeWord
    say s (w.setWidth 4) e.seq true
  else if busy then say s hsNak e.seq false
  else
    let s := (s.modDev n fun x => x.modEp h.ep fun e => { e with seq := e.seq + 1 }).applyOut n h.ep ws
    let (none_, s) := s.freeBool
    let (w, s) := s.freeWord
    if none_ then say s hsNyet (e.seq + 1) false else say s (w.setWidth 4) (e.seq + 1) true

/-- An OUT on endpoint 0 (R80, R84): data of a write at the toggle expected, or the zero-word status of a read at toggle 1; another toggle is a
duplicate. A node performs a write when it takes the last data packet. -/
def State.takeControl (s : State) (n : Pos) (x : Device) (h : Header) (ws : List Word) (busy : Bool) : State :=
  let t := h.seq.getLsbD 0
  let say (s : State) (code : BitVec 4) : State := if h.noack then s else s.shake (.node n) x.address code 0 (h.seq &&& 1)
  let put (s : State) (c : CtrlXfer) : State := s.modDev n fun x => { x with ctrl := some c }
  if x.stalled0 then say s hsStall
  else
    match x.ctrl with
    | none => say s hsStall
    | some c =>
      if c.setup.dir then
        if !ws.isEmpty then say s hsStall
        else if !t || c.stage == .done then say s hsAck
        else say (put s { c with stage := .done }) hsAck
      else if t != c.toggle then say s hsAck
      else if c.stage != .dataOut || c.taken.length + ws.length > c.setup.count then say s hsStall
      else if busy then say s hsNak
      else
        let got := c.taken ++ ws
        say (put s { c with taken := got, toggle := !c.toggle
                            stage := if got.length = c.setup.count then .statusIn else .dataOut }) hsAck

/-- An intact OUT reaches a node (R64, R66, R80, R86, R506). -/
def State.nodeOut (s : State) (n : Pos) (x : Device) (h : Header) (ws : List Word) (abort busy : Bool) : State :=
  let kind := x.epKind h.ep
  if abort || h.rel = 3 then s
  else if h.addr = 4095 then (if kind = 1 then s.applyOut n h.ep ws else s)
  else if h.addr != x.address then s
  else if h.ep = 0 then s.takeControl n x h ws busy
  else if kind = 1 then s.takeOut n x h ws busy
  else if kind = 3 then s.takeBulk n x h ws busy
  else if h.noack then s
  else s.shake (.node n) x.address hsStall h.ep h.seq

/-! Input (R80, R84, R88, R106). -/

/-- The word of a hub's status-change endpoint (R106). -/
def Device.statusChange (x : Device) : Word :=
  BitVec.ofNat 36 ((List.range x.ports.length).foldl (fun n i =>
    match x.ports[i]? with | some p => if p.change ≠ 0 then n + 2 ^ i else n | none => n) 0)

/-- An IN token on endpoint 0 (R84): the next packet of the data that the SETUP fixed, or the status of a write, NAK until its effect is
complete. LAST marks the last packet of a data stage alone (R69). -/
def State.ctrlIn (s : State) (n : Pos) (x : Device) (h : Header) (busy : Bool) : State :=
  let a := x.address
  if x.stalled0 then s.shake (.node n) a hsStall 0 (h.seq &&& 1)
  else
    match x.ctrl with
    | none => s.shake (.node n) a hsNak 0 (h.seq &&& 1)
    | some c =>
      match c.stage with
      | .dataIn =>
        let ws := (c.reply.drop c.acked).take (min 16 h.len)
        let s := s.modDev n fun x => { x with ctrl := some { c with lastSent := ws.length } }
        s.sendData (.node n) h.route a 0 (if c.toggle then 1 else 0) ws (decide (c.acked + ws.length ≥ c.reply.length))
      | .statusIn | .done =>
        if c.setup.dir || busy then s.shake (.node n) a hsNak 0 (h.seq &&& 1)
        else
          let s := s.sendData (.node n) h.route a 0 1 [] false
          s.modDev n fun x => { x with addr := x.addrNext.or x.addr, addrNext := none }
      | _ => s.shake (.node n) a hsNak 0 (h.seq &&& 1)

/-- An IN token on a bulk endpoint asks for packet SEQ (R88). -/
def State.bulkIn (s : State) (n : Pos) (x : Device) (h : Header) (sample : Option (List Word)) : State :=
  let e := x.ep h.ep
  let a := x.address
  let k := (h.seq - e.sendSeq).toNat
  let send (s : State) (ws : List Word) : State :=
    s.sendData (.node n) h.route a h.ep h.seq (ws.take h.len) (decide (ws.length < h.len))
  if e.halted then s.shake (.node n) a hsStall h.ep h.seq
  else
    match e.kept[k]? with
    | some ws => send s ws
    | none =>
      match sample with
      | some ws =>
        if k = e.kept.length && k < 16 then
          send (s.modDev n fun x => x.modEp h.ep fun e => { e with kept := e.kept ++ [ws.take h.len] }) ws
        else s.shake (.node n) a hsNak h.ep h.seq
      | none => s.shake (.node n) a hsNak h.ep h.seq

/-- Exactly `n` words of a sample (R79); words that a shorter one does not give are free (assumption 15). -/
def sized (w : BitVec 64) (ws : List Word) (n : Nat) : List Word := (ws ++ List.replicate (n - ws.length) (w.setWidth 36)).take n

/-- An IN token on a periodic or paced endpoint (R79, R80, R106): the newest sample, or NAK where there has never been one. -/
def State.sampleIn (s : State) (n : Pos) (x : Device) (h : Header) (sample : Option (List Word)) : State :=
  let e := x.ep h.ep
  let a := x.address
  let sample := if x.nports ≠ 0 && h.ep = 1 then some [x.statusChange] else sample.or e.sample
  if e.halted then s.shake (.node n) a hsStall h.ep (h.seq &&& 1)
  else
    match sample with
    | none => s.shake (.node n) a hsNak h.ep (h.seq &&& 1)
    | some ws =>
      let (w, s) := s.freeWord
      let s := s.modDev n fun x => x.modEp h.ep fun e => { e with sample := some ws }
      s.sendData (.node n) h.route a h.ep (if e.sendToggle then 1 else 0) (sized w ws h.len) false

/-- An IN token reaches a node (R78, R80, R506). -/
def State.nodeIn (s : State) (n : Pos) (x : Device) (h : Header) (sample : Option (List Word)) (busy : Bool) : State :=
  let kind := x.epKind h.ep
  if h.addr != x.address || h.noack then s
  else if h.ep = 0 then s.ctrlIn n x h busy
  else if kind = 2 then s.sampleIn n x h sample
  else if kind = 4 then s.bulkIn n x h sample
  else s.shake (.node n) x.address hsStall h.ep h.seq

/-- A SETUP packet reaches a node (R84, R506). -/
def State.nodeSetup (s : State) (n : Pos) (x : Device) (h : Header) (ws : List Word) (abort : Bool) (own : Option (List Word)) : State :=
  if h.addr != x.address || abort then s
  else if h.ep ≠ 0 then (if h.noack then s else s.shake (.node n) x.address hsStall h.ep h.seq)
  else
    match ws with
    | [w0, w1] => s.takeSetup n ⟨w0, w1⟩ (!h.noack) own
    | _ => s

/-- A handshake reaches a node (R80, R84, R88). -/
def State.nodeShake (s : State) (n : Pos) (x : Device) (k : Shake) : State :=
  let mine := k.addr == x.address || (k.ep == 0 && k.addr == 0)
  if !mine then s
  else if k.ep = 0 then
    match x.ctrl with
    | none => s
    | some c =>
      if k.bulk || k.code != hsAck then s
      else
        match c.stage with
        | .dataIn =>
          if k.seq.getLsbD 0 == c.toggle then
            let acked := c.acked + c.lastSent
            let all := acked ≥ c.reply.length || c.lastSent < 16
            s.modDev n fun x => { x with ctrl := some { c with acked := acked, lastSent := 0, toggle := !c.toggle
                                                             , stage := if all then .statusOut else .dataIn } }
          else s
        | .statusIn => if k.seq.getLsbD 0 then s.modDev n fun x => { x with ctrl := some { c with stage := .done } } else s
        | _ => s
  else if k.bulk then
    s.modDev n fun x => x.modEp k.ep fun e =>
      let j := (k.seq - e.sendSeq).toNat
      if j ≤ e.kept.length then { e with kept := e.kept.drop j, sendSeq := k.seq } else e
  else if k.code == hsAck then
    s.modDev n fun x => x.modEp k.ep fun e =>
      if e.sample.isSome && k.seq.getLsbD 0 == e.sendToggle then { e with sendToggle := !e.sendToggle } else e
  else s

/-- What a node does with a packet that reaches it. -/
def State.nodeTake (s : State) (n : Pos) (pkt : Packet) (busy : Bool) (sample own : Option (List Word)) : State :=
  match s.dev n with
  | none => s
  | some x =>
    if x.answers then
      match parsePacket pkt with
      | .data h ws _ abort =>
        if h.ty = tOut then s.nodeOut n x h ws abort busy
        else if h.ty = tSetup then s.nodeSetup n x h ws abort own
        else s
      | .token h => s.nodeIn n x h sample busy
      | .shake k => s.nodeShake n x k
      | _ => s
    else s

/-- A packet of one kind. -/
def pktType (pkt : Packet) (ty : Nat) : Bool :=
  match pkt with
  | some w :: _ => wbits w 35 32 == ty
  | _ => false

/-! Rows: packets at a node. -/

/-- Blocks of a packet of one kind reach a device: it reads them with its scrambler, and its answer counts from their end. -/
def State.arrive (s : State) (n : Pos) (w : Wire) (kind : Packet → Bool) (busy : Bool) (sample own : Option (List Word)) : State :=
  let pkt := s.receive (.down (.node n)) w
  if kind pkt then (s.heardAt (.node n) w).nodeTake n pkt busy sample own else s

/-- An OUT reaches a node; `busy`: its endpoint cannot take it now (R80). -/
def execOutReceive (d : Pos) (pkt : Wire) (busy : Bool) (s : State) : Res :=
  .next (s.arrive d pkt (fun p => pktType p tOut) busy none none)

/-- An IN token reaches a node, with the newest data it has. -/
def execInTokenReceive (d : Pos) (pkt : Wire) (sample : Option (List Word)) (s : State) (busy : Bool := false) : Res :=
  .next (s.arrive d pkt (fun p => pktType p tIn) busy sample none)

/-- A SETUP reaches a node, with what its own requests answer. -/
def execSetupReceive (d : Pos) (pkt : Wire) (s : State) (own : Option (List Word) := none) : Res :=
  .next (s.arrive d pkt (fun p => pktType p tSetup) false none own)

/-- A handshake reaches a node. -/
def execNodeHandshakeReceive (d : Pos) (pkt : Wire) (s : State) : Res :=
  .next (s.arrive d pkt (fun p => pktType p tHs || pktType p tBulkAck) false none none)

/-- The pending release that fires next: the earliest, and of equal times the one received first (R68). -/
def nextRelease : List Release → Option Release
  | [] => none
  | r :: rs =>
    match nextRelease rs with
    | none => some r
    | some q => if q.time.toNat < r.time.toNat then some q else some r

/-- A pending release reaches its time (R66, R68, R131): it fires, or is late where the node's time is invalid. -/
def execReleaseFire (d : Pos) (ep : BitVec 4) (s : State) : Res :=
  .next <|
    match s.dev d with
    | none => s
    | some x =>
      match nextRelease (x.ep ep).releases with
      | none => s
      | some r =>
        let s := s.modDev d fun x => x.modEp ep fun e => { e with releases := e.releases.erase r }
        if x.time.valid then s.applyOut d ep r.payload
        else
          let s := s.modDev d fun x => x.lateRelease ep r.tag
          if r.lateFire then s.applyOut d ep r.payload else s

/-! Rows: hubs. -/

/-- The port that a packet's route names at a hub: the nibble of its tier (R72). -/
def routePort (h0 : Word) (tier : Nat) : Nat := wbits h0 31 16 / 16 ^ (4 - tier) % 16

/-- Where a hub sends a downstream packet (R64, R72, R73). -/
inductive HubWay where
  | all | self | port (p : Nat) | discard
deriving DecidableEq, Repr

/-- Address that a packet or handshake carries (R63, R70). -/
def addrOf (w : Word) : Nat := if wbits w 35 32 = tHs ∨ wbits w 35 32 = tBulkAck then wbits w 27 16 else wbits w 15 4

/-- The way of a packet through a hub, from its first word: one with a reserved address is discarded by every receiver (R64). -/
def Device.way (x : Device) (w : Word) : HubWay :=
  let ty := wbits w 35 32
  let addr := addrOf w
  if 4065 ≤ addr ∧ addr ≤ 4094 then .discard
  else if ty = tHs ∨ ty = tBulkAck then .all
  else if ty = tOut ∧ addr = 4095 then .all
  else if addr = x.address.toNat then .self
  else .port (routePort w x.tier.toNat)

/-- The blocks that a hub sends on: as received, a block in error and the ones after a CRC-8 that fails with sync header 0b00 (R32, R74). -/
def hubBlocks (pkt : Packet) (bs : List Block) : List Block :=
  let good (b : Block) : Block := if Block.isData b then b else Block.killed b
  match pkt, bs with
  | some h0 :: some h1 :: _, b0 :: rest =>
    let ty := wbits h0 35 32
    if ty = tHs ∨ ty = tBulkAck ∨ crc8Ok h0 h1 then bs.map good else good b0 :: rest.map Block.killed
  | _, _ => bs.map good

/-- A hub routes a downstream packet, or consumes it (R72–R74). Handshakes and broadcasts are also its own to read. -/
def execHubDownstreamForward (h : Pos) (pkt : Wire) (s : State) : Res :=
  .next <|
    let read := s.receive (.down (.node h)) pkt
    match s.hubAt (.node h), read with
    | some x, some w :: _ =>
      if x.link.phase == .up then
        let ty := wbits w 35 32
        let on : Wire := { pkt with blocks := hubBlocks read pkt.blocks }
        let own (s : State) : State := (s.heardAt (.node h) pkt).nodeTake h read false none none
        if ty = 0 ∨ ty > tBulkAck then s
        else
          match x.way w with
          | .discard => s
          | .all => own (x.enabledPorts.foldl (fun (s : State) p => s.emit (.forward (.up p) on)) s)
          | .self => own s
          | .port p =>
            if p ≥ x.nports || x.tier = 0 then s
            else
              let q := PortRef.hub h (Fin.ofNat 16 p)
              if s.enabled q then s.emit (.forward (.up q) on)
              else s.modPort q fun y => { y with errs := { y.errs with misroute := inc32 y.errs.misroute } }
      else s
    | _, _ => s

/-- The blocks of an arrival that meet no block of a lower-numbered port in their block times (R75). -/
def clearPart (all : List (Fin 16 × Wire)) (a : Fin 16 × Wire) : Nat :=
  let lower := all.filter fun b => b.1.val < a.1.val
  ((List.range a.2.blocks.length).find? fun i =>
    lower.any fun b => decide (b.2.first ≤ a.2.first + i) && decide (a.2.first + i < b.2.first + b.2.blocks.length)).getD a.2.blocks.length

/-- Blocks that reach a hub's downstream ports in the same block time go up from the lowest-numbered port; the rest of another port's packet goes
nowhere, and a collision is counted there (R75). A CRC that fails is counted at its port (R104). -/
def execHubUpstreamForward (h : Pos) (arrivals : List (Fin 16 × Wire)) (s : State) : Res :=
  .next <|
    match s.hubAt (.node h) with
    | none => s
    | some x =>
      if x.link.phase == .up then
        let live := arrivals.filter fun a => s.enabled (.hub h a.1)
        live.foldl (fun (s : State) (a : Fin 16 × Wire) =>
          let p := PortRef.hub h a.1
          let s := match parsePacket (s.receive (.up p) a.2) with
            | .bad true => s.modPort p fun y => { y with errs := { y.errs with crc := inc32 y.errs.crc } }
            | _ => s
          let n := clearPart live a
          let part := (a.2.blocks.take n).map fun b => if Block.isData b then b else Block.killed b
          let s := if n = 0 then s else s.emit (.forward (.down (.node h)) { a.2 with blocks := part })
          if n < a.2.blocks.length then s.modPort p fun y => { y with errs := { y.errs with collision := inc32 y.errs.collision } } else s) s
      else s

/-- A hub that reports over-current removes a port's power (R91, R98, R103). -/
def execHubPortOvercurrent (h : Pos) (p : Fin 16) (s : State) : Res :=
  .next <|
    match s.hubAt (.node h), s.port (.hub h p) with
    | some x, some y =>
      if ((x.board.hub[1]?).getD 0).getLsbD 18 && y.state != .off && y.state != .fault then
        (s.modPort (.hub h p) fun y => { y with overcurrent := true }).portFault (.hub h p) .power
      else s
    | _, _ => s

/-! Rows: requests. Each is the SETUP of its request reaching the device (R84). -/

/-- GET_DESCRIPTOR (R99). -/
def execGetDescriptor (d : DevRef) (q : Setup) (s : State) : Res := guarded (Instr.getDescriptor d q).wf (s.requestAt d q)

/-- SET_ADDRESS (R84, R85). -/
def execSetAddress (d : DevRef) (q : Setup) (s : State) : Res := guarded (Instr.setAddress d q).wf (s.requestAt d q)

/-- SET_CONFIG (R82, R85). -/
def execSetConfig (d : DevRef) (q : Setup) (s : State) : Res := guarded (Instr.setConfig d q).wf (s.requestAt d q)

/-- CLEAR_HALT (R82, R85). -/
def execClearHalt (d : DevRef) (q : Setup) (s : State) : Res := guarded (Instr.clearHalt d q).wf (s.requestAt d q)

/-- SET_HALT (R85). -/
def execSetHalt (d : DevRef) (q : Setup) (s : State) : Res := guarded (Instr.setHalt d q).wf (s.requestAt d q)

/-- GET_STATUS (R100). -/
def execGetStatus (d : DevRef) (q : Setup) (s : State) : Res := guarded (Instr.getStatus d q).wf (s.requestAt d q)

/-- SET_PATH_DELAY (R132). -/
def execSetPathDelay (d : DevRef) (q : Setup) (s : State) : Res := guarded (Instr.setPathDelay d q).wf (s.requestAt d q)

/-- GET_PORT_STATUS (R103, R104). -/
def execGetPortStatus (d : DevRef) (q : Setup) (s : State) : Res := guarded (Instr.getPortStatus d q).wf (s.requestAt d q)

/-- GET_PORT_ERRORS (R103, R104). -/
def execGetPortErrors (d : DevRef) (q : Setup) (s : State) : Res := guarded (Instr.getPortErrors d q).wf (s.requestAt d q)

/-- SET_PORT_FEATURE (R103). -/
def execSetPortFeature (d : DevRef) (q : Setup) (s : State) : Res := guarded (Instr.setPortFeature d q).wf (s.requestAt d q)

/-- CLEAR_PORT_FEATURE (R103). -/
def execClearPortFeature (d : DevRef) (q : Setup) (s : State) : Res :=
  guarded (Instr.clearPortFeature d q).wf (s.requestAt d q)

/-- SET_HUB_TIER (R103). -/
def execSetHubTier (d : DevRef) (q : Setup) (s : State) : Res := guarded (Instr.setHubTier d q).wf (s.requestAt d q)

/-- GET_PORT_DELAY (R136). -/
def execGetPortDelay (d : DevRef) (q : Setup) (s : State) : Res := guarded (Instr.getPortDelay d q).wf (s.requestAt d q)

/-! The exchange of R373. -/

/-- A setup word pair of firmware. -/
def mkSetup (dir : Bool) (kind req value index count : Nat) : Setup :=
  ⟨BitVec.ofNat 36 (dir.toNat * 2 ^ 35 + kind * 2 ^ 32 + req * 2 ^ 24 + value % 2 ^ 24),
    BitVec.ofNat 36 (index * 2 ^ 20 + count % 4096)⟩

/-- GA's firmware has read the node descriptor and the gang information of the controller below (R373, steps 1–3). -/
def State.gangExchange (s : State) (desc info : List Word) : State :=
  if s.enabled .ga then
    if s.gang.exchanged then
      match info with
      | [w0, w1, w2] =>
        (s.emit (.gangControl (mkSetup true 2 0x10 0 0 3) [])).modGang fun g => { g with below := some (w0, w1, w2) }
      | _ => s
    else if wbits ((desc[3]?).getD 0) 35 28 ≠ 0x20 then
      let s := (s.setFld .GANG_XCHG_STATUS stGangMismatch).happen .GANG_EVENT_MISMATCH 48
      (({ s with gang := { s.gang with exchanged := true } }).disablePort .ga)
    else
      match info with
      | [w0, w1, w2] =>
        let s := s.emit (.gangControl (mkSetup true 0 1 1 0 (desc.length)) [])
        let s := s.emit (.gangControl (mkSetup false 0 2 1 0 0) [])
        let s := s.emit (.gangControl (mkSetup false 0 3 1 0 0) [])
        let s := s.emit (.gangControl (mkSetup true 2 0x10 0 0 3) [])
        (s.setFld .GANG_XCHG_STATUS 0).modGang fun g => { g with below := some (w0, w1, w2), exchanged := true }
      | _ => s
  else s

/-- The words of SET_GANG for the controller below (R374); none where this controller may not send it (R373, R375). -/
def State.gangWords (s : State) : Option (List Word) :=
  let g := s.gang
  let count := BitVec.zeroExtend 36 (s.course.count >>> 24)
  let w0 (ridge hop above minor : Nat) : Word :=
    BitVec.ofNat 36 (ridge + hop % 8 * 2 ^ 3 + above * 2 ^ 6 + cmdMajor * 2 ^ 14 + minor * 2 ^ 22)
  if g.role == .ridge then
    some [w0 gangId 1 (2 ^ gangId) (if g.joined then g.effMinor.toNat else 0xFF), g.digest.zeroExtend 36, count]
  else if g.role == .member && g.phase != .mismatch then
    g.accepted.map fun a =>
      [w0 (wbits a.1 2 0) (g.hop.toNat + 1) (wbits a.1 13 6 ||| 2 ^ gangId) (wbits a.1 29 22), a.2.1, count]
  else none

/-- GA's firmware sends SET_GANG (R373, step 4). -/
def State.sendGang (s : State) (a : Answer) : State :=
  if s.enabled .ga && s.gang.exchanged then
    match s.gangWords with
    | none => s
    | some ws =>
      let s := s.emit (.gangControl (mkSetup false 2 0x11 0 0 3) ws)
      let s := { s with gang := { s.gang with setSent := a == Answer.ack } }
      s.setFld .GANG_XCHG_STATUS (if a == Answer.stall then stGangMismatch else 0)
  else s

/-- GET_GANG_INFO (R374), at a device or by GA's firmware. -/
def execGetGangInfo (x : GangAsk) (s : State) : Res :=
  match x with
  | .dev d q => guarded (Instr.getGangInfo (.dev d q)).wf (s.requestAt d q)
  | .ga desc info => .next (s.gangExchange desc info)

/-- SET_GANG (R374, R375), at a device or by GA's firmware. -/
def execSetGang (x : GangSet) (s : State) : Res :=
  match x with
  | .dev .gb q data => guarded (Instr.setGang (.dev .gb q data)).wf (s.gbRequest q data)
  | .dev (.node n) q data => guarded (Instr.setGang (.dev (.node n) q data)).wf (s.takeSetup n q true)
  | .ga a => .next (s.sendGang a)

end Sys2Proof.Machine
end

