-- ==== Sys2Proof/Machine/Plan.lean ====
section
/-!
DEFINITION. The plan of scheduled flows: costs and caps (R79, R156, R157), activity (R158), layout (R159, R160, R258), the admission test
(R164) and stage words (R168).
-/

namespace Sys2Proof.Machine

/-! Costs. -/

/-- Blocks that a scheduled transaction takes down and up on each link (R79). -/
def FlowParams.cost (p : FlowParams) : Nat × Nat := if p.ty.output then (p.words + 3, 1) else (3, p.words + 3)

/-- Control floor of a link of `n` blocks (R156). -/
def ctlFloor (n : Nat) : Nat := (n + 19) / 20

/-- Periodic cap of a link of `n` blocks (R156). -/
def capOf (n : Nat) : Nat := min (3 * n / 4) (n - 7 - ctlFloor n)

/-- Active in a course of index `j` (R158). -/
def FlowParams.activeAt (p : FlowParams) (j : Nat) : Bool := (j + 64 - p.phase) % 2 ^ p.k = 0

/-- Transactions of a paced flow in an active course, from its declared rate in counts per second (R158). -/
def pacedQ (k periodNs rho m : Nat) : Nat := 2 ^ k * periodNs * rho / (1000000000 * m) + 1

/-- Stage words that the planner reserves for a flow (R168). -/
def FlowParams.stageWords (p : FlowParams) : Nat :=
  let w := 2 ^ p.k
  p.words * p.q * (if p.ty.output then (p.lead + 1 + w - 1) / w else (2 + w - 1) / w)

/-- Pooled retries reserved (R161, R179). -/
def State.poolR (s : State) : Nat := min 16 (s.fld .PLN_CFG_POOL_R)

/-- A planned flow: its context, place, owner and parameters, in order of admission. -/
structure Planned where
  ctx : Nat
  inst : Nat
  pos : Pos
  par : FlowParams
  /-- Order of admission. -/
  order : Nat
deriving DecidableEq, Repr

/-- A list in rising order of a key; equal keys keep their order. -/
def insertBy {α : Type} (key : α → Nat) (x : α) : List α → List α
  | [] => [x]
  | y :: ys => if key x < key y then x :: y :: ys else y :: insertBy key x ys

def sortBy {α : Type} (key : α → Nat) (l : List α) : List α := l.foldl (fun a x => insertBy key x a) []

/-- The first element of a list with the least key. -/
def minBy {α : Type} (key : α → Nat) (l : List α) : Option α :=
  l.foldl (fun (best : Option α) x => match best with | none => some x | some b => if key x < key b then some x else best) none

/-- How far a number lies after the one whose turn is next, among `n` numbers. -/
def turnFrom (n next x : Nat) : Nat := (x + n - next % n) % n

/-- The flows of the plan in use, with the pending changes carried out that `take` selects (R164, R176). -/
def State.plannedWith (s : State) (take : FlowChange → Bool) : List Planned :=
  sortBy (·.order) <| s.flows.filterMap fun (e : Nat × Flow) =>
    let f := e.2
    let due := f.changes.filter take
    if f.par.ty.scheduled && f.inPlanAfter due then some ⟨e.1, f.inst, f.pos, f.parAfter due, f.order⟩ else none

/-- The plan in use, or the plan with every pending change. -/
def State.planned (s : State) (next : Bool) : List Planned := s.plannedWith fun _ => next

/-! Loads (R164). -/

/-- A flow's route passes a port. -/
def Planned.on (f : Planned) (p : PortRef) : Bool := f.pos.ports.contains p

/-- The larger first: the sum of the `n` largest. -/
def sumLargest (n : Nat) (l : List Nat) : Nat := ((sortBy (fun x => 100000 - x) l).take n).sum

/-- Cost in one direction. -/
def Planned.dirCost (f : Planned) (up : Bool) : Nat := if up then f.par.cost.2 else f.par.cost.1

/-- Base load of a link (R164). -/
def baseLoad (fs : List Planned) (p : PortRef) (up : Bool) (j : Nat) : Nat :=
  (fs.map fun f => if f.on p && f.par.activeAt j then (if f.par.dedicated then 2 else 1) * f.par.q * f.dirCost up else 0).sum

/-- Costs of the pooled transactions of a link (R161). -/
def poolCosts (fs : List Planned) (p : PortRef) (up : Bool) (j : Nat) : List Nat :=
  fs.flatMap fun f => if f.on p && f.par.activeAt j && !f.par.dedicated then List.replicate f.par.q (f.dirCost up) else []

/-- Load of a link (R164). -/
def linkLoad (poolR : Nat) (fs : List Planned) (p : PortRef) (up : Bool) (j : Nat) : Nat :=
  baseLoad fs p up j + sumLargest poolR (poolCosts fs p up j)

/-- Engine starts in a course (R164). -/
def starts (poolR : Nat) (fs : List Planned) (j : Nat) : Nat :=
  (fs.map fun f => if f.par.activeAt j then (if f.par.dedicated then 2 else 1) * f.par.q else 0).sum +
    ((List.finRange 16).map fun t => min poolR (poolCosts (fs.filter fun f => f.pos.trunk == t) (.root t) false j).length).sum

/-! Layout (R159). The spec leaves where a slot goes to the planner, within its rules; the placement here is assumption 22. -/

/-- A transaction to place: its flow, the links of its route with their block times in ns, the blocks of its downstream part before the response,
of the response, and the times in ns from the end of the downstream part at the root to the response and to the close of its window. -/
structure Trans where
  ctx : Nat
  links : List (PortRef × Nat)
  down : Nat
  up : Nat
  isIn : Bool
  wait : Nat
  window : Nat
  dedicated : Bool
deriving DecidableEq, Repr

/-- A route passes a port that forwards from HR to BR, at the rates that a plan is laid out for (R109). -/
def Pos.mixedAt (d : Pos) (rate : PortRef → Rate) : Bool :=
  (d.ports.zip (d.ports.drop 1)).any fun x => rate x.1 == .hr && rate x.2 == .br

/-- The transactions of a planned flow in an active course, with the links at some rates; the window is the response timeout of R76 and R109. The
turnaround of a node that is absent is the one that it declared last (R159). -/
def State.transOf (s : State) (rate : PortRef → Rate) (f : Planned) : List Trans :=
  let cost := f.par.cost
  let down := if f.par.ty.output then cost.1 else 2
  let turn := match kget s.nodes ((s.flows.find? fun (e : Nat × Flow) => e.1 == f.ctx).map (·.2.addr.toNat) |>.getD 0) with
    | some n => wbits ((n.desc[3]?).getD 0) 6 0
    | none => 64
  let rtt := (s.pathRtt f.pos + 63) / 64
  let mix := if Pos.mixedAt f.pos rate then 112 * cost.1 + 128 * cost.2 + 16 else 0
  List.replicate f.par.q
    ⟨f.ctx, f.pos.ports.map fun p => (p, blockNs (rate p)), down, cost.2, !f.par.ty.output, rtt + turn + mix, rtt + 96 + mix, f.par.dedicated⟩

/-- What the transactions placed so far take of a link, in ns from its block 0: to where its downstream side is taken, the end of the last
response, the end of the last response window at the root. -/
structure LineUse where
  port : PortRef
  block : Nat
  down : Nat
  up : Nat
  win : Nat
deriving DecidableEq, Repr

/-- Where placing has come to: the links used, the root's blocks held for the handshakes of inputs, and the slots. -/
structure Placing where
  lines : List LineUse
  acks : List Nat
  slots : List (Nat × Nat)
deriving DecidableEq, Repr

/-- The first block from `o` on where `n` blocks meet no held one. -/
def firstFree (held : List Nat) (n : Nat) : Nat → Nat → Nat
  | 0, o => o
  | fuel + 1, o => if held.any fun a => o ≤ a && a < o + n then firstFree held n fuel (o + 1) else o

/-- A link that nothing has used: it is free after COURSE_START (R121). -/
def Placing.line (p : Placing) (l : PortRef × Nat) : LineUse := (p.lines.find? (·.port == l.1)).getD ⟨l.1, l.2, 3 * l.2, 0, 0⟩

/-- When a transaction's response ends on a link, ns after its downstream part leaves the root: on a link slower than the root's it ends before the
root has it (R109). -/
def Trans.respEnd (b : Nat) (t : Trans) (l : PortRef × Nat) : Nat := t.down * b + t.wait + (if l.2 = b then t.up * b else 0)

/-- Places one transaction: its downstream part as early as, on every link of its route, that part and its response stay clear of those before
(R159). `b`: block time of the root link. -/
def Placing.place (b : Nat) (p : Placing) (t : Trans) : Placing :=
  let early := (t.links.map fun l =>
    let x := p.line l
    max ((x.down + b - 1) / b) ((x.up + t.up * l.2 + b - 1 - t.respEnd b l) / b)).foldl max 3
  let o := firstFree p.acks t.down (2 * p.acks.length + t.down * p.acks.length + 1) early
  let up := (o * b + t.down * b + t.wait + t.up * b + b - 1) / b
  let acks := if t.isIn then firstFree p.acks 1 (p.acks.length + 1) up :: p.acks else p.acks
  let used := t.links.map fun l =>
    let x := p.line l
    { x with down := o * b + t.down * l.2, up := max x.up (o * b + t.respEnd b l), win := max x.win (o * b + t.down * b + t.window) }
  { lines := (p.lines.filter fun x => !t.links.any fun l => l.1 == x.port) ++ used, acks := acks, slots := p.slots ++ [(t.ctx, o)] }

/-- Blocks of `b` ns that a retry takes in the lap with its response window (R258). -/
def Trans.lapBlocks (b : Nat) (t : Trans) : Nat := t.down + (t.window + b - 1) / b

/-- Blocks of the lap of a link with blocks of `b` ns: dedicated slots, and the pooled part (R160, R161). -/
def dedBlocks (b : Nat) (ts : List Trans) : Nat := ((ts.filter (·.dedicated)).map (Trans.lapBlocks b)).sum
def poolBlocks (b poolR : Nat) (ts : List Trans) : Nat := sumLargest poolR ((ts.filter fun t => !t.dedicated).map (Trans.lapBlocks b))

/-- The layout of one course of a trunk: first-attempt slots, the end of their area and the start of the lap on the root link, dedicated lap slots,
the start of the pooled part, and the link that needs the most blocks beyond its room with that excess (R159, R164). -/
structure Layout where
  slots : List (Nat × Nat)
  area : Nat
  lap : Nat
  laps : List (Nat × Nat)
  pool : Nat
  excess : Nat
  link : Option PortRef
deriving DecidableEq, Repr

/-- The end of the periodic area of a link, in its blocks (R121): its transactions and responses, and at the root the handshakes. -/
def Placing.areaOf (p : Placing) (root : Bool) (x : LineUse) : Nat :=
  let e := (max x.down (x.up + (if root then 0 else x.block)) + x.block - 1) / x.block
  if root then p.acks.foldl (fun (m : Nat) a => max m (a + 1)) e else e

/-- The blocks by which a link's periodic area and lap, with what keeps the lap 128 ns after the windows that it serves, exceed N − 7 − F; where
there is no lap, windows must close before E0 all the same (R122, R159, R258). -/
def Placing.excess (p : Placing) (root : Bool) (poolR periodNs : Nat) (ts : List Trans) (x : LineUse) : Nat :=
  let b := x.block
  let n := periodNs / b
  let mine := ts.filter fun t => t.links.any fun l => l.1 == x.port
  let lap := dedBlocks b mine + poolBlocks b poolR mine
  let area := p.areaOf root x
  let gap := if lap = 0 then 0 else (x.win + 128 + b - 1) / b - area
  max (area - 3 + gap + lap - (n - 7 - ctlFloor n)) (if lap = 0 then (x.win + b - 1) / b - (n - 4) else 0)

/-- Lays out a course of a trunk from its transactions in plan order (R159); `b`: block time of the root link. DESIGN CHOICE (assumption 22): a
link's excess counts its turn blocks and the gap before the lap (R164). -/
def layoutOf (t : Fin 16) (periodNs b poolR : Nat) (ts : List Trans) : Layout :=
  let p := ts.foldl (Placing.place b) ⟨[], [], []⟩
  let n := periodNs / b
  let isRoot (x : LineUse) : Bool := x.port == .root t
  let pooled := poolBlocks b poolR ts
  let start := n - 4 - (dedBlocks b ts + pooled)
  let laps := ((ts.filter (·.dedicated)).foldl (fun (x : Nat × List (Nat × Nat)) t => (x.1 + t.lapBlocks b, x.2 ++ [(t.ctx, x.1)])) (start, [])).2
  let worst := p.lines.foldl (fun (w : Nat × Option PortRef) x =>
    let e := p.excess (isRoot x) poolR periodNs ts x
    if w.1 < e then (e, some x.port) else w) (0, none)
  { slots := p.slots, area := ((p.lines.find? isRoot).map (p.areaOf true)).getD 3, lap := start, laps := laps, pool := n - 4 - pooled
    excess := worst.1, link := worst.2 }

/-- Transactions of a trunk's course index in plan order: outputs in order of admission, then inputs (R159). -/
def State.transAt (s : State) (rate : PortRef → Rate) (fs : List Planned) (t : Fin 16) (j : Nat) : List Trans :=
  let here := fs.filter fun f => f.pos.trunk == t && f.par.activeAt j
  ((here.filter fun f => f.par.ty.output) ++ here.filter fun f => !f.par.ty.output).flatMap (s.transOf rate)

/-- The layout of a trunk's course index under a plan with the links at some rates. -/
def State.layout (s : State) (rate : PortRef → Rate) (fs : List Planned) (t : Fin 16) (j periodNs : Nat) : Layout :=
  layoutOf t periodNs (blockNs (rate (.root t))) s.poolR (s.transAt rate fs t j)

/-! The admission test (R164). -/

/-- Checks of a refusal record (R294). -/
def ckLinkCap : Nat := 1
def ckBaseRate : Nat := 2
def ckEngine : Nat := 3
def ckSlotBudget : Nat := 4
def ckStageWords : Nat := 5
def ckContexts : Nat := 6
def ckDomains : Nat := 7
def ckPlacement : Nat := 8

/-- The result of the test: a status and the refusal record of R294, result bytes 8–19. -/
structure Refused where
  status : Nat
  record : List Byte
deriving DecidableEq, Repr

/-- Trunk and route of a link's downstream end. -/
def linkBytes (p : Option PortRef) : List Byte :=
  match p with
  | some (.root t) => [BitVec.ofNat 8 t.val, 0, 0]
  | some (.hub h q) => BitVec.ofNat 8 h.trunk.val :: leBytes 2 (Pos.route ⟨h.trunk, h.path ++ [q]⟩).toNat
  | _ => [0, 0, 0]

/-- A refusal record (R294). -/
def refuse (status check : Nat) (p : Option PortRef) (dir : Nat) (j : Nat) (excess : Nat) : Refused :=
  ⟨status, [BitVec.ofNat 8 check] ++ linkBytes p ++ [BitVec.ofNat 8 dir, BitVec.ofNat 8 j] ++ leBytes 4 excess ++ [0, 0]⟩

/-- The first refusal of a list of checks. -/
def firstRefused : List (Option Refused) → Option Refused
  | [] => none
  | some r :: _ => some r
  | none :: rs => firstRefused rs

/-- Links on the routes of some flows, in the order of their flows. -/
def linksOf (fs : List Planned) : List PortRef :=
  (fs.flatMap fun f => f.pos.ports).foldl (fun l p => if l.contains p then l else l ++ [p]) []

/-- Rate of a link for planning: BR where it is up at BR or has stepped down, else HR. -/
def State.planRate (s : State) (p : PortRef) : Rate :=
  match s.port p with
  | some x => if x.stepPending || x.stepped || x.rx.rate == some .br then .br else .hr
  | none => .hr

/-- Caps of every link, in both directions and every course (R164). -/
def capCheck (poolR check : Nat) (fs : List Planned) (blocks : PortRef → Nat) : Option Refused :=
  firstRefused <| (linksOf fs).flatMap fun p => [false, true].flatMap fun up => (List.range 64).map fun j =>
    let x := linkLoad poolR fs p up j
    let c := capOf (blocks p)
    if x > c then some (refuse stNotAdmissible check (some p) up.toNat j (x - c)) else none

/-- The slot budget that admission uses (R326): a smaller one that waits for its boundary counts at once. -/
def Instance.budget (x : Instance) (t : Fin 16) : Nat := if x.cutAt.isSome then min x.shares.slots[t] x.cutSlots[t] else x.shares.slots[t]

/-- The admission test on a whole plan, at a period in units of 128 ns (R164). -/
def State.admission (s : State) (fs : List Planned) (period : Nat) : Option Refused :=
  let r := s.poolR
  let es := fs.filter fun f => f.par.essential
  let blocksAt (x : Rate) : Nat := if x == .hr then 8 * period else period
  let trunks := (List.finRange 16).filter fun t => fs.any fun f => f.pos.trunk == t
  let insts := sortBy id (fs.foldl (fun l f => if l.contains f.inst then l else l ++ [f.inst]) [])
  firstRefused [
    capCheck r ckLinkCap fs fun p => blocksAt (s.planRate p),
    capCheck r ckBaseRate es fun _ => period,
    firstRefused <| trunks.flatMap fun t => (List.range 64).flatMap fun j =>
      let x := s.layout s.planRate fs t j (period * 128)
      let y := s.layout (fun _ => .br) es t j (period * 128)
      [if x.excess > 0 then some (refuse stNotAdmissible ckPlacement x.link 0xFF j x.excess) else none,
        if y.excess > 0 then some (refuse stNotAdmissible ckBaseRate y.link 0xFF j y.excess) else none],
    firstRefused <| (List.range 64).map fun j =>
      if starts r fs j > period * 128 then some (refuse stNotAdmissible ckEngine none 0xFF j 0) else none,
    firstRefused <| insts.flatMap fun i => trunks.flatMap fun t => [false, true].flatMap fun up => (List.range 64).map fun j =>
      let x := baseLoad (fs.filter fun f => f.inst == i) (.root t) up j
      let b := (s.inst i).budget t
      if x > b then some (refuse stNoResource ckSlotBudget (some (.root t)) up.toNat j (x - b)) else none,
    firstRefused <| insts.map fun i =>
      let x := ((fs.filter fun f => f.inst == i).map fun f => f.par.stageWords).sum
      let a := (s.inst i).shares.words
      if x > a then some (refuse stNoResource ckStageWords none 0xFF 0xFF (x - a)) else none]

/-- The greatest per-course load of a plan over every link of a route (R158). -/
def State.greatest (s : State) (fs : List Planned) (d : Pos) : Nat :=
  (d.ports.flatMap fun p => [false, true].flatMap fun up => (List.range 64).map fun j => linkLoad s.poolR fs p up j).foldl max 0

/-- The phase that the planner chooses (R158): the smallest greatest load; ties go to the lowest. -/
def State.bestPhase (s : State) (fs : List Planned) (f : Planned) : Nat :=
  ((List.range (2 ^ f.par.k)).foldl (fun (best : Option (Nat × Nat)) ph =>
    let load := s.greatest (fs ++ [{ f with par := { f.par with phase := ph } }]) f.pos
    match best with
    | some (_, l) => if load < l then some (ph, load) else best
    | none => some (ph, load)) none).map (·.1) |>.getD 0

/-- The layout of a course with links that have stepped down (R166): the flows that pass none of them and the essential ones, then the hold
packets of other outputs with REPEAT or SAFE, in order of admission, as far as the essential flows leave periodic room on those links. -/
def State.steppedLayout (s : State) (rate : PortRef → Rate) (stepped : PortRef → Bool) (fs : List Planned) (t : Fin 16) (j periodNs : Nat) :
    Layout :=
  let b := blockNs (rate (.root t))
  let passes (f : Planned) : Bool := f.pos.ports.any stepped
  let kept := s.transAt rate (fs.filter fun f => f.par.essential || !passes f) t j
  let rest := fs.filter fun f => f.pos.trunk == t && f.par.activeAt j && !f.par.essential && passes f && f.par.ty.output && f.par.policy != .skip
  let es := fs.filter fun f => f.par.essential
  let holds := rest.flatMap fun f => (s.transOf rate f).map fun x => { x with up := 0, wait := 0, window := 0 }
  let fits (ts : List Trans) : Bool := (layoutOf t periodNs b s.poolR ts).excess == 0
  let room (placed : List Trans) (x : Trans) : Bool := x.links.all fun l => !stepped l.1 ||
    decide (linkLoad s.poolR es l.1 false j + ((placed.filter fun y => y.links.contains l).map (·.down)).sum + x.down ≤ capOf (periodNs / l.2))
  let placed := holds.foldl (fun (placed : List Trans) x =>
    if room placed x && fits (kept ++ placed ++ [x]) then placed ++ [x] else placed) []
  -- A hold packet is no first attempt of a retry: it takes no room in the lap.
  let l := layoutOf t periodNs b s.poolR kept
  { layoutOf t periodNs b s.poolR (kept ++ placed) with lap := l.lap, laps := l.laps, pool := l.pool }

/-- The period from the next swap on, in units of 128 ns (R120, R124). -/
def State.periodAhead (s : State) : Nat := (((s.course.periodNext.or s.course.periodSwap).getD s.course.period)).toNat

/-- Rate of a link from boundary `b` on, for the layout. -/
def State.rateAt (s : State) (p : PortRef) (b : Nat) : Rate :=
  match s.port p with
  | some x => if x.stepsBy b || x.stepped || x.rx.rate == some .br then .br else .hr
  | none => .hr

/-- Lays out the plan that takes over at boundary `b`: slots, lap slots and the pooled parts of the laps (R159). Where links
have stepped down, or do so at the swap, see `State.steppedLayout`. -/
def State.layoutNext (s : State) (b : Nat) : State :=
  let fs := s.plannedWith fun c => decide (c.from_ ≤ b)
  let all : List (Nat × Nat × Layout) := ((List.finRange 16).filter fun t => fs.any fun f => f.pos.trunk == t).flatMap fun t =>
    (List.range 64).map fun j =>
      let rate (p : PortRef) : Rate := s.rateAt p b
      let stepped (p : PortRef) : Bool := match s.port p with | some x => x.stepped || x.stepsBy b | none => false
      let some_ := fs.any fun f => f.pos.trunk == t && f.pos.ports.any stepped
      (t.val, j, (if some_ then s.steppedLayout rate stepped fs else s.layout rate fs) t j (s.periodAhead * 128))
  let pick (sel : Layout → List (Nat × Nat)) (ctx : Nat) : List (Nat × List Nat) :=
    all.filterMap fun x =>
      let os := (sel x.2.2).filterMap fun y => if y.1 = ctx then some y.2 else none
      if os.isEmpty then none else some (x.2.1, os)
  { s with
    flows := s.flows.map fun (e : Nat × Flow) => (e.1, { e.2 with slotsNext := pick (·.slots) e.1, lapsNext := pick (·.laps) e.1 })
    plan := { s.plan with
      swapAt := some b
      poolsNext := all.foldl (fun (m : KMap Nat) x => kset m (x.1 * 64 + x.2.1) x.2.2.pool) []
      areasNext := all.foldl (fun (m : KMap (Nat × Nat)) x => kset m (x.1 * 64 + x.2.1) (x.2.2.area, x.2.2.lap)) [] } }

/-- The layout that was prepared takes over. -/
def State.layoutSwap (s : State) : State :=
  { s with
    flows := s.flows.map fun (e : Nat × Flow) => (e.1, { e.2 with slots := e.2.slotsNext, laps := e.2.lapsNext })
    plan := { s.plan with pools := s.plan.poolsNext, areas := s.plan.areasNext, swapAt := none } }

end Sys2Proof.Machine
end

