-- ==== Sys2Proof/Machine/Sched.lean ====
section
/-!
DEFINITION. Courses of the plan (R125–R127, R176), binding and acceptance (R151–R155), plan-order entries (R232, R233), the due rule
(R188–R197, R509), the decision trace (R246–R249), throttles (R458).
-/

namespace Sys2Proof.Machine

/-! Depths (R11, R458). -/

/-- Depth of a credit loop under THROTTLE (R458). -/
def State.depth (s : State) (loop idx natural : Nat) : Nat :=
  if s.flag .PTB_THROTTLE_ON loop && s.fld .PTB_THROTTLE_INDEX loop == idx then min (s.fld .PTB_THROTTLE_DEPTH loop) natural else natural

/-! The decision trace. -/

/-- Reason codes (R247). -/
def Reason.code : Reason → Nat
  | .send => 0x00 | .hold => 0x01 | .empty => 0x02 | .retry => 0x03 | .bulk => 0x04 | .goback => 0x05 | .probe => 0x06
  | .setup => 0x07 | .ctrlData => 0x08 | .ctrlStatus => 0x09

/-- Trace classes, by their bit in TRC_FILT_CLASS (R251). -/
def FlowType.traceClass : FlowType → Nat
  | .control => 1 | .bulkOut => 2 | .bulkIn => 3 | _ => 0

/-- The number of a priority list (R234). -/
def listOf (t : Nat) (ty : FlowType) (p : Nat) : Nat :=
  0x010 + 24 * t + 8 * (match ty with | .control => 0 | .bulkOut => 1 | .bulkIn => 2 | _ => 0) + p

/-- The list of a flow task: its plan-order queue, or its priority list. -/
def Flow.list (f : Flow) : Nat :=
  if f.par.ty.scheduled then f.pos.trunk.val else listOf f.pos.trunk.val f.par.ty f.task.prio

/-- What a trace record says (R246). -/
structure TraceArg where
  task : Nat
  list : Nat
  reason : Nat
  engine : Nat
  lost : Bool
  aged : Bool
  inst : Nat
  trunk : Option (Fin 16)
  cls : Nat

/-- A record passes the filters (R249). -/
def State.traced (s : State) (a : TraceArg) : Bool :=
  s.flag .TRC_CTRL_EN && (s.flag .TRC_FILT_INST_ALL || s.fld .TRC_FILT_INST_INST == a.inst) &&
    (match a.trunk with
     | some t => (s.fld .TRC_FILT_TRUNK_TRUNKS).testBit t.val
     | none => s.flag .TRC_FILT_TRUNK_NO_TRUNK) &&
    (s.reg .TRC_FILT_CLASS).getLsbD a.cls

/-- A dropped record counts, and the next one written says so (R248); the first since TRC_DROP was read raises device source 51 (R461). -/
def State.dropTrace (s : State) : State :=
  let first := s.fld .TRC_DROP_COUNT == 0
  let s := { s.addSat .TRC_DROP_COUNT 1 with traceDropped := true }
  if first then s.raise 51 else s

/-- Writes a record, if it passes, into the internal buffer or the ring (R246, R248). -/
def State.record (s : State) (a : TraceArg) : State :=
  if !s.traced a then s
  else
    let w0 := BitVec.ofNat 36 (s.time.bus.toNat / 128)
    let w1 := BitVec.ofNat 36 (a.task * 2 ^ 22 + a.list * 2 ^ 13 + a.reason * 2 ^ 8 + a.engine * 2 ^ 3 + s.traceDropped.toNat * 4 +
      a.lost.toNat * 2 + a.aged.toNat)
    if s.flag .TRC_CTRL_DEST then
      let prod := s.fld .TRC_RING_PROD_PROD
      let size := s.fld .TRC_RING_CFG_SIZE
      if (prod + 2 ^ 32 - s.fld .TRC_RING_CONS_CONS) % 2 ^ 32 < 2 ^ size then
        let base := s.pair .TRC_RING_BASE_LO .TRC_RING_BASE_HI
        let s := s.post (.hostWrite (s.pasidOf 0) (BitVec.ofNat 64 (base + 16 * (prod % 2 ^ size)))
          (leBytes 8 w0.toNat ++ leBytes 8 w1.toNat))
        { s.setFld .TRC_RING_PROD_PROD (prod + 1) with traceDropped := false }
      else s.dropTrace
    else if s.trace.length < 16384 then
      let s := { s with trace := s.trace ++ [⟨w0, w1⟩], traceDropped := false }
      if s.trace.length = 16384 then s.raise 51 else s
    else if s.flag .TRC_CTRL_STOP_FULL then s.dropTrace
    else { s with trace := s.trace.drop 1 ++ [⟨w0, w1⟩], traceDropped := false }

/-- A record about a flow's task. -/
def State.recordFlow (s : State) (ctx : Nat) (f : Flow) (reason engine : Nat) (lost aged : Bool) : State :=
  s.record ⟨ctx, f.list, reason, engine, lost, aged, f.inst, some f.pos.trunk, f.par.ty.traceClass⟩

/-! Courses and changes. -/

/-- The earliest boundary at which a swap may still come (R126). -/
def State.earliestSwap (s : State) : Nat :=
  if s.course.count.toNat % 64 < 62 then s.nextBoundary
  else match s.plan.swapAt with | some b => b | none => s.nextBoundary + 64

/-- The first boundary for which the shadow plan can still be marked ready (R126). -/
def State.openSwap (s : State) : Nat := if s.course.count.toNat % 64 < 62 then s.nextBoundary else s.nextBoundary + 64

/-- The swap at `b` is under way, or the shadow plan is marked ready for it. -/
def State.readyFor (s : State) (b : Nat) : Bool := s.plan.swapAt == some b || (s.plan.ready && s.openSwap == b)

/-- The boundary at which a change takes effect, as far as is known (R176). -/
def State.boundaryOf (s : State) (ch : FlowChange) : Nat := max ch.from_ s.earliestSwap

/-- The changes of a flow that wait and whose boundaries lie at or before a course. -/
def State.changesBy (s : State) (f : Flow) (c : Nat) : List FlowChange := f.changes.filter fun ch => decide (s.boundaryOf ch ≤ c)

/-- The parameters under which a flow runs in a course; a hold policy that FLOW_MODIFY brought goes from the next uncommitted course on (R155,
R303). -/
def State.parFor (s : State) (f : Flow) (c : Nat) : FlowParams :=
  let p := f.parAfter (s.changesBy f c)
  match f.holdOld.find? fun h => decide (c ≤ h.last) with
  | some h => { p with policy := h.policy, safe := h.safe }
  | none => p

/-- A flow is in the plan of a course: the plan in use, or a shadow plan marked ready (R152, R176). -/
def State.inPlanFor (s : State) (f : Flow) (c : Nat) : Bool :=
  let due := s.changesBy f c
  due.all (fun ch => s.readyFor (s.boundaryOf ch)) && f.inPlanAfter due

/-- A change of the flow that waits takes effect at or before a course: until then, nothing binds to it (R176). -/
def State.unsettled (s : State) (f : Flow) (c : Nat) : Bool := !(s.changesBy f c).isEmpty

/-- A flow is active in a course (R158). -/
def State.activeFor (s : State) (f : Flow) (c : Nat) : Bool := s.inPlanFor f c && (s.parFor f c).activeAt (c % 64)

/-- Slot offsets of a flow in a course, slot 0 first. -/
def State.slotsFor (s : State) (f : Flow) (c : Nat) : List Nat :=
  let next := match s.plan.swapAt with | some b => decide (b ≤ c) | none => false
  ((if next then f.slotsNext else f.slots).find? (·.1 == c % 64)).map (·.2) |>.getD []

/-- The offset of a slot; 0 where the layout gives none. -/
def State.slotOfs (s : State) (f : Flow) (c n : Nat) : Nat := ((s.slotsFor f c)[n]?).getD 0

/-- A freeze or a reset of its instance keeps a flow from binding to a course (R330, R333, R340). -/
def State.bindStopped (s : State) (f : Flow) (c : Nat) : Bool :=
  let x := s.inst f.inst
  x.state == .resetting || x.state == .free ||
    (match x.thawAt, x.freezeAt with
     | some t, _ => decide (c < t)
     | none, some fz => decide (fz ≤ c)
     | none, none => x.state == .frozen)

/-- A descriptor of a periodic flow may bind to a course now (R151, R176). -/
def State.bindable (s : State) (f : Flow) (c : Nat) : Bool :=
  s.activeFor f c && !s.unsettled f c && decide (c ≤ s.course.count.toNat + (s.parFor f c).lead) &&
    decide (f.lastBound < c) && decide (f.deadDone < c) &&
    s.ahead c 2000 && !s.bindStopped f c

/-! Descriptors (R206–R208). -/

/-- Buffer address of a descriptor. -/
def descAddr (w0 w1 : Word) : Nat := w0.toNat + wbits w1 27 0 * 2 ^ 36

/-- INT, SHORT_OK and NEED_END of a descriptor. -/
def descInt (w1 : Word) : Bool := w1.getLsbD 28
def descShortOk (w1 : Word) : Bool := w1.getLsbD 29
def descNeedEnd (w1 : Word) : Bool := w1.getLsbD 30

/-- A descriptor is malformed (R208). -/
def Flow.malformed (f : Flow) (d : Word × Word × Word × Word) : Bool :=
  let (w0, w1, a0, a1) := d
  let ctl := f.par.ty == .control
  let input := f.par.ty == .periodicIn || f.par.ty == .pacedIn || f.par.ty == .bulkIn || (ctl && a0.getLsbD 35)
  let angle := f.par.ty.scheduled && f.par.ty.output && f.par.rel == .angle
  let setup : Setup := ⟨a0, a1⟩
  wbits w1 35 31 != 0 || wbits w0 2 0 != 0 || (descShortOk w1 && !input) || (descNeedEnd w1 && f.par.ty != .bulkIn) ||
    (f.par.ty.scheduled && (a0 != 0 || (a1 != 0 && !angle))) || (f.par.ty.bulk && (wbits a0 35 16 != 0 || a1 != 0)) ||
    (ctl && (wbits a1 19 12 != 0 || (setup.kindN == 0 && [0x02, 0x03, 0x04, 0x07].contains setup.code) ||
      (setup.dir && setup.count == 0)))

/-- The words of the ridge's record that an estimator of KIND 0b10 follows (R185, R372). -/
def State.ridgeEntry (s : State) (e : Fin 8) : Option (List Word) :=
  if s.fld .TAPU_PACE_CFG_KIND e.val = 2 then
    (s.gang.record[s.fld .TAPU_PACE_CFG_SRC e.val % 8]?).bind fun x => if x.valid then some x.words else none
  else none

/-- Counts per revolution of an estimator (R200, R372): 0 acts as 1. -/
def State.cpr (s : State) (e : Fin 8) : Nat :=
  max 1 (match s.ridgeEntry e with
    | some ws => wbits ((ws[5]?).getD 0) 35 12
    | none => s.fld .TAPU_PACE_CPR_CPR e.val)

/-- An angle word that no estimator position can meet (R189). -/
def State.badAngle (s : State) (f : Flow) (d : Word × Word × Word × Word) : Bool :=
  f.par.ty.output && f.par.rel == .angle && f.par.ty.scheduled &&
    (wbits d.2.2.2 35 32 != 0 || decide (s.cpr f.par.est ≤ wbits d.2.2.2 31 8))

/-- Words of data that a transfer of a flow moves from its buffer (R207): the release word of an ANGLE flow is not among them. -/
def FlowParams.bufWords (p : FlowParams) : Nat := if p.ty.output && p.rel == .angle then p.words - 1 else p.words

/-! Positions and release times (R186, R188, R195, R196). -/

/-- Seconds from nanoseconds. -/
def secs (ns : Nat) : Rat := (ns : Rat) / 1000000000

/-- Predicted position at `ns` after the anchor, in half nanoseconds `h` (R186). -/
def Estimator.predict (e : Estimator) (h : Nat) : Rat :=
  let t : Rat := secs h / 2
  (e.pos : Rat) + e.omega * t + e.alpha * t * t / 2

/-- Position at the commit point (R188). -/
def State.estPos (s : State) (n : Fin 8) : Option Rat :=
  let e := s.ests[n]
  match e.state with
  | .tracking => some (e.predict (2 * (s.time.bus - e.stamp).toNat))
  | .acquiring => if s.flag .TAPU_PACE_CFG_INDEX_EN n.val && !e.indexSeen then none else some (e.pos : Rat)
  | _ => none

/-- AMAX in force (R200, R372). -/
def State.amax (s : State) (n : Fin 8) : Nat :=
  match s.ridgeEntry n with
  | some ws => wbits ((ws[6]?).getD 0) 31 0
  | none => s.effFld .TAPU_PACE_AMAX_AMAX n.val

/-- The least `m ≥ lo` below `lo + 2^bits` that satisfies a test which, once true, stays true. -/
def leastSat (p : Nat → Bool) : Nat → Nat → Nat
  | 0, lo => lo
  | b + 1, lo => if p (lo + 2 ^ b - 1) then leastSat p b lo else leastSat p b (lo + 2 ^ b)

/-- The horizon of the release of a position, ns after the anchor, rounded (R195), and at most HMAX; none: no conversion. -/
def State.releaseAfter (s : State) (n : Fin 8) (r : Rat) : Option Nat :=
  let e := s.ests[n]
  let hmax := s.fld .TAPU_PACE_HMAX_HMAX n.val * 1000
  let low (ns : Nat) : Rat := e.omega - e.dOmega - 2 * (s.amax n : Rat) * secs ns
  if e.state != .tracking || e.reversing || decide (r ≤ (e.pos : Rat)) then none
  else
    let ns := leastSat (fun m => decide (low m ≤ 0) || decide (r ≤ e.predict (2 * m + 1))) 31 0
    if decide (low ns ≤ 0) || decide (hmax < ns) || decide (e.predict (2 * ns + 1) < r) then none else some ns

/-- The bound ε_t of a release at a horizon, ns, rounded up (R196). -/
def State.epsT (s : State) (n : Fin 8) (ns : Nat) : Nat :=
  let e := s.ests[n]
  let h := secs ns
  let a : Rat := (s.amax n : Rat)
  let theta := e.dTheta + e.dOmega * h + a * h * h
  ((theta / (e.omega - e.dOmega - 2 * a * h)) * 1000000000).ceil.toNat

/-- An angle word in counts. -/
def angleOf (w : Word) : Rat := (wbits w 31 0 : Rat) / 256

/-- The remainder of a position modulo a number of counts, not below 0. -/
def ratMod (x : Rat) (m : Nat) : Rat := x - ((x / (m : Rat)).floor : Rat) * (m : Rat)

/-- Converts an angle to a release from position `from_` on (R191, R509): the release word and its ε_t. -/
def State.convert (s : State) (n : Fin 8) (from_ : Rat) (angle : Word) : Option (Word × Nat) :=
  let r := from_ + ratMod (angleOf angle - from_) (s.cpr n)
  (s.releaseAfter n r).map fun ns =>
    (BitVec.ofNat 36 ((s.ests[n].stamp.toNat + ns) % 2 ^ 36), s.epsT n ns)

/-- Writes the release word of a transfer and keeps its bound until the next edge confirms it (R197). -/
def State.setRelease (s : State) (ctx : Nat) (i : BitVec 16) (x : Word × Nat) : State :=
  s.modFlow ctx fun f => { f.modXfer i (fun y => { y with release := some x.1 }) with unconfirmed := x.2 :: f.unconfirmed }

/-- Changes a flow's counts. -/
def State.modCounts (s : State) (ctx : Nat) (g : FlowCounts → FlowCounts) : State :=
  s.modFlow ctx fun f => { f with counts := g f.counts }

/-! Entries (R232, R233). -/

/-- What an entry that sends no transfer becomes: a hold packet for an output flow with REPEAT or SAFE, else EMPTY. -/
def FlowParams.holdReason (p : FlowParams) : Reason := if p.ty.output && p.policy != .skip then .hold else .empty

/-- Resolves the entry of a slot that still waits; EMPTY goes to no engine. -/
def State.resolve (s : State) (ctx : Nat) (f : Flow) (c n : Nat) (r : Reason) : State :=
  let mine (e : PlanEntry) : Bool := e.ctx == ctx && e.course == c && e.slot == n && !e.lap && e.reason.isNone
  if r == .empty then
    let s := s.recordFlow ctx f r.code 0x1F false false
    { s with planq := vmod s.planq f.pos.trunk.val fun q => q.filter fun e => !mine e }
  else
    { s with planq := vmod s.planq f.pos.trunk.val fun q => q.map fun e => if mine e then { e with reason := some r } else e }

/-- A slot that was to send its transfer runs the hold policy after all (R178, R214): wherever its entry stands. -/
def State.holdSlot (s : State) (ctx : Nat) (f : Flow) (c n : Nat) (r : Reason) : State :=
  let mine (e : PlanEntry) : Bool := e.ctx == ctx && e.course == c && e.slot == n && !e.lap && e.reason == some .send
  if r == .empty then { s with planq := vmod s.planq f.pos.trunk.val fun q => q.filter fun e => !mine e }
  else { s with
    planq := vmod s.planq f.pos.trunk.val fun q => q.map fun e => if mine e then { e with reason := some r } else e
    engines := s.engines.map fun (g : Engine) =>
      { g with sched := g.sched.map fun x => if mine x.2 then (x.1, { x.2 with reason := some r }) else x }
    txq := vmod s.txq f.pos.trunk.val fun q => q.map fun e =>
      if e.ctx == ctx && e.sched && e.course == c && e.slot == n && e.reason == .send then { e with reason := r } else e }

/-- An entry of a slot still waits for its content. -/
def State.waits (s : State) (f : Flow) (ctx c n : Nat) : Bool :=
  s.planq[f.pos.trunk].any fun e => e.ctx == ctx && e.course == c && e.slot == n && !e.lap && e.reason.isNone

/-! What holds a flow in a course (R150, R233). -/

/-- The causes that FLOW_UNHOLD clears (R303). -/
def HoldCauses.unheld (c : HoldCauses) : HoldCauses :=
  { c with command := false, escalated := false, stalled := false, ringFault := false, bulkLasting := false, readFault := false }

/-- A course lies at or after the boundary of a swap under way. -/
def State.swapped (s : State) (c : Nat) : Bool := match s.plan.swapAt with | some b => decide (b ≤ c) | none => false

/-- A re-seat of the node is carried out by the swap under way, before course `c`. -/
def State.resumed (s : State) (addr : BitVec 12) (c : Nat) : Bool :=
  match s.plan.swapAt with
  | some b => decide (b ≤ c) && s.reseats.any fun r => r.addr == addr && (match r.resumeAt with | some n => decide (n ≤ b) | none => false)
  | none => false

/-- The causes of a flow as they stand in course `c`. -/
def State.causesFor (s : State) (f : Flow) (c : Nat) : HoldCauses :=
  let thawed := match (s.inst f.inst).thawAt with | some t => decide (t ≤ c) | none => false
  let x : HoldCauses := { f.causes with frozen := f.causes.frozen && !thawed, detached := f.causes.detached && !s.resumed f.addr c }
  if s.swapped c && (s.changesBy f c).any (·.unholds) then x.unheld else x

/-- A condition of R150 holds for a flow in course `c`. -/
def State.heldFor (s : State) (f : Flow) (c : Nat) : Bool :=
  let p := s.parFor f c
  let steps := s.swapped c && !p.essential && f.pos.ports.any fun q =>
    match s.port q with | some x => x.stepsBy ((s.plan.swapAt).getD 0) | none => false
  s.holds { f with causes := s.causesFor f c, par := p } || steps

/-- LINK of a flow in course `c`. -/
def State.linkFor (s : State) (f : Flow) (c : Nat) : Bool :=
  s.routeUp f.pos && s.synced f.pos && (!s.awaited f.addr || s.resumed f.addr c)

/-- The status of an accepted transfer that is not sent in course `c` (R150, R233). -/
def State.offStatus (s : State) (f : Flow) (c : Nat) : Status :=
  if s.heldFor f c || s.linkFor f c then .held
  else if f.pos.ports.any fun q => (match s.port q with
      | some x => x.state == .off || x.state == .powered || (x.state == .fault && x.cause == .power)
      | none => true) then .detached
  else .portReset

/-- The entry of a slot is to send its transfer. -/
def State.slotSends (s : State) (f : Flow) (ctx c n : Nat) : Bool :=
  let mine (e : PlanEntry) : Bool := e.ctx == ctx && e.course == c && e.slot == n && !e.lap && e.reason == some .send
  s.planq[f.pos.trunk].any mine || s.engines.any (fun g => g.sched.any fun x => mine x.2) ||
    s.txq[f.pos.trunk].any fun e => e.ctx == ctx && e.sched && e.course == c && e.slot == n && e.reason == .send

/-- A transfer is accepted, if its flow holds the slot in a plan (R152). Where the commit point has passed, its entry sends it, or, if it is
already resolved to the hold policy, the transfer is not sent (R150, R178, R233). -/
def State.accept (s : State) (ctx : Nat) (i : BitVec 16) : State :=
  match (s.flow ctx).bind fun f => (f.xfer i).bind fun x => x.course.map fun c => (f, x, c) with
  | none => s
  | some (f, x, c) =>
    if !s.activeFor f c then s
    else
      let s := s.modXfer ctx i fun y => { y with accepted := true, lostWords := false }
      if s.committed < c then s
      else if s.waits f ctx c x.slot then s.resolve ctx f c x.slot .send
      else if x.lostWords && s.slotSends f ctx c x.slot then s
      else s.finish ctx i (s.offStatus f c) 0

/-- The periodic conversion of an ANGLE transfer (R509); where it fails, the slot runs the hold policy. -/
def State.angleConvert (s : State) (ctx : Nat) (i : BitVec 16) : State :=
  match (s.flow ctx).bind fun f => (f.xfer i).bind fun x => x.course.bind fun c => x.desc.map fun d => (f, x, c, d) with
  | none => s
  | some (f, x, c, d) =>
    if f.par.ty != .periodicOut || (s.parFor f c).rel != .angle || x.release.isSome then s
    else
      match (s.estPos f.par.est).bind fun p => s.convert f.par.est p d.2.2.2 with
      | some r => s.setRelease ctx i r
      | none =>
        let s := s.modCounts ctx fun n => { n with angleWait := n.angleWait + 1 }
        let s := s.resolve ctx f c x.slot (s.parFor f c).holdReason
        if x.accepted then s.finish ctx i .held 0 else s

/-- Binds a transfer to a slot of a course (R151, R191). -/
def State.bindTo (s : State) (ctx : Nat) (f : Flow) (x : Transfer) (c n : Nat) : State :=
  let ofs := s.slotOfs f c n
  let s := s.modFlow ctx fun f =>
    { f.modXfer x.idx (fun y =>
      { y with
        course := some c, slot := n, ofs := ofs, dueAt := if f.par.ty.paced then y.dueAt else s.time.mono, pertOn := s.perturbed
        pertSeq := s.ptbSeq })
      with lastBound := max f.lastBound c }
  match x.desc with
  | none => s
  | some d =>
    if f.malformed d then
      let s := s.modCounts ctx fun n => { n with badDesc := n.badDesc + 1 }
      s.finish ctx x.idx .notAccepted 0
    else if s.badAngle f d then s.finish ctx x.idx .notAccepted 0
    else
      let s := if c ≤ s.committed then s.angleConvert ctx x.idx else s
      if !f.par.ty.output || x.stagedAll then s.accept ctx x.idx else s

/-- The oldest unbound descriptor of a flow, once it has arrived. -/
def Flow.oldestUnbound (f : Flow) : Option Transfer :=
  (f.xfers.find? fun x => x.course.isNone && x.fin.isNone).filter (·.desc.isSome)

/-- The earliest slot course to which a descriptor of a periodic flow may bind (R151). -/
def State.slotCourse (s : State) (f : Flow) : Option Nat :=
  ((List.range 65).map fun k => s.course.count.toNat + 1 + k).find? (s.bindable f)

/-- A periodic flow binds by itself; a paced one under the due rule. -/
def Flow.bindsByWindow (f : Flow) : Bool := f.par.ty.scheduled && !f.par.ty.paced && f.service.isNone

/-- Binds waiting descriptors of a periodic flow to open slot courses, at most `n` of them (R151). A slot whose entry is already resolved
lets its transfer complete HELD; a malformed one leaves its slot to the hold policy. -/
def State.bindWaiting (ctx : Nat) : Nat → State → State
  | 0, s => s
  | n + 1, s =>
    match s.flow ctx with
    | none => s
    | some f =>
      if !f.bindsByWindow then s
      else
        match f.oldestUnbound, s.slotCourse f with
        | some x, some c => State.bindWaiting ctx n (s.bindTo ctx f x c 0)
        | _, _ => s

/-- One cell of a flow's own count and the planner's: a slot course without a bound descriptor (R154, R179). -/
def State.underrun (s : State) (ctx : Nat) : State :=
  let s := s.modCounts ctx fun n => { n with underrun := n.underrun + 1 }
  (s.addSat .PLN_UNDERRUN_CNT_COUNT 1).happen .PLN_EVENT_UNDERRUN 4

/-! The due rule (R190, R191). -/

/-- The smallest position above `x` that is due (R190). -/
def dueAfter (x : Rat) (m z : Nat) : Int := (z : Int) + (m : Int) * (((x - (z : Rat)) / (m : Rat)).floor + 1)

/-- The loop of R191 from slot `n` on: how many slots are due. -/
def State.dueLoop (ctx c : Nat) : Nat → Nat → State → State × Nat
  | 0, n, s => (s, n)
  | fuel + 1, n, s =>
    match s.flow ctx with
    | none => (s, n)
    | some f =>
      let p := s.parFor f c
      match s.estPos p.est, f.due with
      | some x, some u =>
        if decide (x < (u : Rat)) then (s, n)
        else
          let spend (s : State) : State := s.modFlow ctx fun f => { f with due := some (u + p.m) }
          match (if s.bindStopped f c then none else f.oldestUnbound) with
          | none => State.dueLoop ctx c fuel (n + 1) (spend (s.underrun ctx))
          | some t =>
            match t.desc with
            | none => (s, n)
            | some d =>
              if p.ty.output && p.rel == .angle && !f.malformed d && !s.badAngle f d then
                match s.convert p.est (u : Rat) d.2.2.2 with
                | none => (s.modCounts ctx fun n => { n with angleWait := n.angleWait + 1 }, n)
                | some r => State.dueLoop ctx c fuel (n + 1) (spend ((s.setRelease ctx t.idx r).bindTo ctx f t c n))
              else State.dueLoop ctx c fuel (n + 1) (spend (s.bindTo ctx f t c n))
      | _, _ => (s, n)

/-- Sets the next due position of a paced flow where it has none, or afresh at its boundary (R190). -/
def State.dueStart (s : State) (ctx c : Nat) : State :=
  match s.flow ctx with
  | none => s
  | some f =>
    let p := s.parFor f c
    let again := s.plan.swapAt == some c && (s.changesBy f c).any (·.realign)
    if f.due.isSome && !again then s
    else
      match s.estPos p.est with
      | some x => s.modFlow ctx fun f => { f with due := some (dueAfter x p.m p.z) }
      | none => if again then s.modFlow ctx fun f => { f with due := none } else s

/-- The due rule of a paced flow at the commit point of a course in which it is active: the number of its due slots (R191). Nothing is due while a
change of the flow waits for a boundary that the course does not precede (R176). -/
def State.dueRule (s : State) (ctx c : Nat) : State × Nat :=
  match s.flow ctx with
  | none => (s, 0)
  | some f =>
    if s.unsettled f c then (s, 0)
    else
      let p := s.parFor f c
      let (s, n) := State.dueLoop ctx c p.q 0 s
      let behind := match s.estPos p.est, (s.flow ctx).bind (·.due) with
        | some x, some u => decide ((u : Rat) ≤ x)
        | _, _ => false
      (if behind then s.modCounts ctx fun k => { k with overrate := k.overrate + 1 } else s, n)

end Sys2Proof.Machine
end

