-- ==== Sys2Proof/Machine/Rings.lean ====
section
/-!
DEFINITION. Rings, staging and completions: doorbells (R204), descriptor and stage fetch (R209–R214), acceptance (R151–R154), write-back and
release (R215–R223), host stalls (R174, R341).
-/

namespace Sys2Proof.Machine

/-! Doorbells. -/

/-- A doorbell is discarded: INST_DB_ERR records the flow and the reason, 1 OVERFLOW, 2 BAD_FLOW (R204). -/
def State.dbErr (s : State) (i num reason : Nat) : State :=
  ((s.setFld .INST_DB_ERR_LAST_FLOW num 0 i).setFld .INST_DB_ERR_LAST_REASON reason 0 i).addSat .INST_DB_ERR_COUNT 1 0 i

/-- A descriptor that has just become visible (R204). -/
def Transfer.fresh (idx : BitVec 16) (vis : Nat) (pert : Bool) (seq : Nat) : Transfer where
  idx := idx
  desc := none
  vis := vis
  course := none
  slot := 0
  ofs := 0
  accepted := false
  reading := false
  readAt := 0
  dueAt := 0
  issued := false
  words := 0
  readFail := false
  staged := []
  stagedAll := false
  bank := none
  lostWords := false
  release := none
  sentAt := none
  inProgress := false
  failed := false
  retried := false
  resends := 0
  fails := 0
  moved := 0
  step := .setup
  ctlToggle := true
  toWrite := []
  writtenAt := none
  unsure := false
  pertOn := pert
  pertSeq := seq
  reordered := false
  fin := none

/-- `n` descriptors from the producer index on become visible, in index order (R204, R222); on a flow that is closing and whose boundary has
passed they complete CANCELLED (R225). -/
def State.addVisible (s : State) (ctx n : Nat) : State :=
  match s.flow ctx with
  | none => s
  | some f =>
    let new := (List.range n).map fun k => Transfer.fresh (f.prod + BitVec.ofNat 16 k) (s.visCount + k) s.perturbed s.ptbSeq
    let new := match f.closedAt with
      | some b => new.map fun x => { x with course := if f.par.ty.scheduled then some b else none }
      | none => new
    let s := { s with visCount := s.visCount + n }
    let s := s.modFlow ctx fun f => { f with prod := f.prod + BitVec.ofNat 16 n, xfers := f.xfers ++ new }
    if f.closedAt.isSome then s.finishAll (new.map fun x => (ctx, x.idx)) .cancelled else s

/-- A flow doorbell that the page takes (R204). -/
def State.doorbell (s : State) (i : Nat) (v : Reg32) : State :=
  let num := Fld.INST_FLOW_DB_FLOW.get v
  let prod : BitVec 16 := BitVec.ofNat 16 (Fld.INST_FLOW_DB_PROD.get v)
  match s.ctxOf i num with
  | none => s.dbErr i num 2
  | some ctx =>
    match s.flow ctx with
    | none => s.dbErr i num 2
    | some f =>
      let a := (prod - f.cons).toNat
      let b := (f.prod - f.cons).toNat
      if a ≤ b then s
      else if a > 2 ^ f.ringLog then s.dbErr i num 1
      else s.addVisible ctx (a - b)

/-- Write of INST_FLOW_DB (R204, R330, R469). -/
def State.flowDoorbell (s : State) (i : Nat) (v : Reg32) : State :=
  match s.pageState i with
  | .free => s.badAccess true (i * 0x1000 + 0x100) 4
  | .resetting => s.dbErr i (Fld.INST_FLOW_DB_FLOW.get v) 2
  | _ => s.doorbell i v

/-- See `State.flowDoorbell`. -/
def execFlowDoorbell (i : Fin 512) (v : Reg32) (s : State) : Res := .next (s.flowDoorbell i.val v)

/-! Completion ring registers (R226). -/

/-- Write of INST_CQ_CFG: a 0-to-1 change of ENABLE starts the ring at index 0 with phase 1; while a flow names the ring, clearing it is
ignored and logged (R225). -/
def State.cqCfgWrite (s : State) (i : Nat) (q : Fin 16) (v : Reg32) : State :=
  match s.pageGate i (0x808 + 0x20 * q.val) with
  | some s' => s'
  | none =>
    let was := s.flag .INST_CQ_CFG_ENABLE q.val i
    let s := s.writeFields .INST_CQ_CFG i q.val v fun f => f == .INST_CQ_CFG_ENABLE && was && s.ringNamed i q.val
    if !was && s.flag .INST_CQ_CFG_ENABLE q.val i then
      s.modInst i fun x => { x with cqs := x.cqs.setIfInBounds q.val ({ x.cqs[q] with write := 0, phase := true } : CqState) }
    else s

/-- See `State.cqCfgWrite`. -/
def execCqEnable (i : Fin 512) (q : Fin 16) (v : Reg32) (s : State) : Res := .next (s.cqCfgWrite i.val q v)

/-- Write of INST_CQ_CONS (R219): an index beyond the write index is discarded and sets CONS_ERR. -/
def State.cqConsWrite (s : State) (i : Nat) (q : Fin 16) (v : Reg32) : State :=
  match s.pageGate i (0x80C + 0x20 * q.val) with
  | some s' => s'
  | none =>
    let c : BitVec 16 := BitVec.ofNat 16 (s.fld .INST_CQ_CONS_CONS q.val i)
    let new : BitVec 16 := BitVec.ofNat 16 (Fld.INST_CQ_CONS_CONS.get v)
    let w := (s.inst i).cqs[q].write
    if (new - c).toNat > (w - c).toNat then s.setBit .INST_CQ_STATUS_CONS_ERR q.val i
    else s.setFld .INST_CQ_CONS_CONS new.toNat q.val i

/-- See `State.cqConsWrite`. -/
def execCqConsumerWrite (i : Fin 512) (q : Fin 16) (v : Reg32) (s : State) : Res := .next (s.cqConsWrite i.val q v)

/-! Descriptor fetch. -/

/-- Ring fetch waits while the instance is frozen and not thawing, or being reset (R225, R340). -/
def State.fetchStopped (s : State) (f : Flow) : Bool :=
  let x := s.inst f.inst
  x.state == .resetting || x.state == .free || (x.state == .frozen && x.thawAt.isNone)

/-- Descriptors in a flow's cache or being read: from its fetch until its stage fetch, or its binding for an input (R210). -/
def Flow.cached (f : Flow) : Nat :=
  f.fetching + (f.xfers.filter fun x => x.desc.isSome && x.fin.isNone && !x.issued &&
    (f.par.ty.output || f.par.ty == .control || x.course.isNone) && !x.inProgress).length

/-- How many descriptors the next read of a flow's ring takes: up to four, not past the end of the ring, as far as the cache has room and the
producer index goes (R209). -/
def State.ringReadSize (s : State) (ctx : Nat) (f : Flow) : Nat :=
  let n := 2 ^ f.ringLog
  min (min 4 (s.depth 0 ctx 4 - f.cached)) (min (f.prod - f.fetched).toNat (n - f.fetched.toNat % n))

/-- Ring fetch has descriptors of a flow to read, and room for them. -/
def State.ringDue (s : State) (ctx : Nat) (f : Flow) : Bool :=
  !(f.service.isSome || f.closedAt.isSome || f.causes.ringFault || s.ringReadSize ctx f = 0 || s.fetchStopped f || f.fetching != 0)

/-- The flow of a group whose turn it is: round robin by instance, and by flow within an instance (R209, R211). -/
def State.turnOf (s : State) (group next : Nat) (l : List (Nat × Flow)) : Option Nat :=
  (minBy (fun (e : Nat × Flow) =>
    turnFrom 512 next e.2.inst * 8192 + turnFrom 8192 ((kget s.turns.flows (group * 512 + e.2.inst)).getD 0) e.1) l).map (·.1)

/-- The turn moves on past a flow that was served. -/
def State.turnTaken (s : State) (group ctx : Nat) (f : Flow) : State :=
  let t := { s.turns with flows := kset s.turns.flows (group * 512 + f.inst) (ctx + 1) }
  let n := f.inst + 1
  { s with turns := match group with
    | 0 => { t with ringSched := n }
    | 1 => { t with ringRest := n }
    | 2 => { t with stageDead := n }
    | _ => { t with stageRest := n } }

/-- The flow whose ring is read next (R209): scheduled flows first. -/
def State.ringNext (s : State) : Option Nat :=
  let due := s.flows.filter fun e => s.ringDue e.1 e.2
  (s.turnOf 0 s.turns.ringSched (due.filter fun e => e.2.par.ty.scheduled)).or
    (s.turnOf 1 s.turns.ringRest (due.filter fun e => !e.2.par.ty.scheduled))

/-- Ring fetch issues a read request (R209); nothing happens where it is another flow's turn, nothing is to be read, or there is no room or tag. -/
def execRingFetchIssue (ctx : Nat) (s : State) : Res :=
  .next <|
    match s.flow ctx with
    | none => s
    | some f =>
      let k := s.ringReadSize ctx f
      if s.ringNext != some ctx || s.host.ringTags ≥ s.depth 2 0 256 || !s.canPost || s.boot.dmaRefused then s
      else
        let s := s.turnTaken (if f.par.ty.scheduled then 0 else 1) ctx f
        let addr := f.ring + BitVec.ofNat 64 (32 * (f.fetched.toNat % 2 ^ f.ringLog))
        let s := s.modFlow ctx fun f => { f with fetching := k }
        let s := { s with host := { s.host with ringTags := s.host.ringTags + 1 } }
        let used := s.host.ringTags + s.host.stageTags
        let s := s.setFld .HIF_TAGS_HWM (max (s.fld .HIF_TAGS_HWM) used)
        s.emit (.hostRead (s.pasidOf f.inst) addr (32 * k))

/-- Codes of a read's end in READ_ERROR's DETAIL (R449). -/
def readCode : ReadEnd → Nat
  | .ok => 0 | .ur => 1 | .ca => 2 | .poisoned => 3 | .timeout => 4

/-- A read error is logged in the host category, and HIF_DMA_ERR counts it (R214, R449, R480). -/
def State.readError (s : State) (ctx inst : Nat) (e : ReadEnd) (mailbox : Bool) : State :=
  let s := if e == .timeout then s.addSat .HIF_DMA_ERR_TIMEOUTS 1 else s.addSat .HIF_DMA_ERR_READ_ERRS 1
  s.error catHost 0x01 blkHif .normal (ctx % 8192 + readCode e * 2 ^ 13 + inst * 2 ^ 16 + mailbox.toNat * 2 ^ 25)

/-- One descriptor less is being read; the last one of a request frees its tag. -/
def State.arrived (s : State) (ctx : Nat) (f : Flow) : State :=
  let s := s.modFlow ctx fun f => { f with fetching := f.fetching - 1 }
  if f.fetching = 1 then { s with host := { s.host with ringTags := s.host.ringTags - 1 } } else s

/-- All the data that a bulk or control output needs is staged or acknowledged. -/
def Flow.wholeStaged (f : Flow) (x : Transfer) (got : Nat) : Bool :=
  match x.desc with
  | none => false
  | some (_, _, a0, a1) =>
    if f.par.ty.scheduled then true
    else if f.par.ty == .bulkOut then decide (wbits a0 15 0 ≤ x.moved + got)
    else decide (wbits a1 11 0 ≤ x.moved + got)

/-- The staged words of a restored bulk flow beyond the length of a descriptor that has just arrived belong to the next one (R337). -/
def State.spillStaged (s : State) (ctx : Nat) (i : BitVec 16) : State :=
  match (s.flow ctx).bind fun f => (f.xfer i).map fun x => (f, x) with
  | none => s
  | some (f, x) =>
    if f.par.ty != .bulkOut || x.staged.isEmpty then s
    else
      let mine := (match x.desc with | some (_, _, a0, _) => wbits a0 15 0 | none => 0) - x.moved
      let s := s.modFlow ctx fun f =>
        f.modXfer (i + 1) fun y =>
          if y.staged.isEmpty then
            { y with staged := x.staged.drop mine, bank := x.bank, words := (x.staged.drop mine).length, issued := true } else y
      s.modFlow ctx fun f => f.modXfer i fun y =>
        let mine_ := x.staged.take mine
        { y with staged := mine_, words := mine_.length, stagedAll := f.wholeStaged x mine_.length }

/-- A descriptor read of a flow that is gone completes: its tag is free again (R330). -/
def State.orphanRing (s : State) : State :=
  if (s.flows.filter fun e => e.2.fetching != 0).length < s.host.ringTags then
    { s with host := { s.host with ringTags := s.host.ringTags - 1 } }
  else s

/-- Descriptor `i` of a flow arrives in lane format, or its read fails (R2, R209, R214). It binds where a course is open (R151). -/
def execDescriptorArrival (ctx : Nat) (i : BitVec 16) (e : ReadEnd) (w : List Byte) (s : State) : Res :=
  guarded (Instr.wf (.descriptorArrival ctx i e w)) <|
    match s.flow ctx with
    | none => s.orphanRing
    | some f =>
      if f.fetching = 0 || i != f.fetched then s.orphanRing
      else
        match e, laneWords w with
        | .ok, [w0, w1, a0, a1] =>
          let s := (s.arrived ctx f).modFlow ctx fun f =>
            { f.modXfer i (fun x => { x with desc := some (w0, w1, a0, a1), dueAt := s.time.mono, pertOn := s.perturbed, pertSeq := s.ptbSeq })
              with fetched := f.fetched + 1 }
          State.bindWaiting ctx 1 (s.spillStaged ctx i)
        | _, _ =>
          let s := s.modFlow ctx fun f => { f with fetching := 0 }
          let s := { s with host := { s.host with ringTags := s.host.ringTags - 1 } }
          let s := s.readError ctx f.inst e false
          s.setCauses ctx fun c => { c with ringFault := true }

/-- The stage window of a slot course opens (R151): a waiting descriptor binds. -/
def execStageWindowOpen (ctx : Nat) (course : BitVec 48) (s : State) : Res :=
  .next <|
    match s.flow ctx with
    | none => s
    | some f =>
      if f.bindsByWindow && s.slotCourse f == some course.toNat then State.bindWaiting ctx 1 s else s

/-! Stage fetch. -/

/-- Words of the stage store that a bank holds. -/
def bankWords : Nat := 65536

/-- The lowest-numbered bank that is awake and has room (R213); where none is, the lowest-numbered one with room, which the access wakes
(R400). -/
def State.bankFor (s : State) (n : Nat) : Option (Fin 64) :=
  let room (b : Fin 64) : Bool := s.pmu.bankUse[b] + n ≤ bankWords
  ((List.finRange 64).find? fun b => s.pmu.banks[b] == .on && room b).or
    ((List.finRange 64).find? fun b => s.pmu.banks[b] != .lost && room b)

/-- A bank is accessed: it is ON (R390, R400). -/
def State.openBank (s : State) (b : Fin 64) : State :=
  { s with pmu := { s.pmu with banks := vmod s.pmu.banks b.val fun k => if k == .lost then k else .on } }

/-- Stage words come into use, or are freed, in a bank. -/
def State.useBank (s : State) (b : Fin 64) (f : Nat → Nat) : State :=
  { s with pmu := { s.pmu with bankUse := vmod s.pmu.bankUse b.val f } }

/-- A transfer's stage words are freed. -/
def State.freeWords (s : State) (x : Transfer) : State :=
  match x.bank with
  | some b => s.useBank b (· - x.words)
  | none => s

/-- Some of a transfer's stage words are freed. -/
def State.freeSome (s : State) (ctx : Nat) (x : Transfer) (n : Nat) : State :=
  let k := min n x.words
  (match x.bank with | some b => s.useBank b (· - k) | none => s).modXfer ctx x.idx fun y => { y with words := y.words - k }

/-- Stage words reserved for a scheduled flow (R14, R168): under its present parameters and those that its changes bring, from admission on. -/
def Flow.reserved (f : Flow) : Nat :=
  if f.active || f.changes.any (·.opens) then (f.changes.map fun ch => ((ch.params).getD f.par).stageWords).foldl max f.par.stageWords else 0

/-- Stage words of an instance in use or reserved: what the planner reserves for its scheduled flows, and what its bulk and control transfers
hold or have on order (R11, R14, R168). -/
def State.stageUse (s : State) (i : Nat) : Nat :=
  (s.flows.map fun e =>
    if e.2.inst != i then 0 else if e.2.par.ty.scheduled then e.2.reserved else (e.2.xfers.map (·.words)).sum).sum

/-- Words that stage fetch reads for a transfer at once: the whole of a scheduled transfer, the next packet of a bulk or control one (R211,
R212). -/
def Flow.readWords (f : Flow) (x : Transfer) : Nat :=
  match x.desc with
  | none => 0
  | some (_, _, a0, a1) =>
    let have_ := x.moved + x.staged.length
    if f.par.ty.scheduled then f.par.bufWords
    else if f.par.ty == .bulkOut then min f.par.packet (wbits a0 15 0 - have_)
    else if f.par.ty == .control && !a0.getLsbD 35 then min 16 (wbits a1 11 0 - have_)
    else 0

/-- Byte offset in a buffer of word `n`, and the bytes of `k` words from there on, in a flow's word format (R2, R3). -/
def FlowParams.byteOfs (p : FlowParams) (n : Nat) : Nat := if p.packed then n / 2 * 9 else 8 * n
def FlowParams.byteLen (p : FlowParams) (n k : Nat) : Nat := if p.packed then (n + k + 1) / 2 * 9 - n / 2 * 9 else 8 * k

/-- The transfer whose data stage fetch reads next (R211, R212): for a bulk flow, up to 16 packets beyond the last acknowledged one. -/
def State.stageNext (s : State) (f : Flow) : Option Transfer :=
  if f.par.ty.scheduled then
    if !f.par.ty.output then none
    else if f.par.ty.paced then
      let ahead := f.par.q * ((f.par.lead + 2 ^ f.par.k) / 2 ^ f.par.k)
      let staged := (f.xfers.filter fun x => x.course.isNone && x.fin.isNone && (x.reading || x.stagedAll)).length
      f.xfers.find? fun x => x.desc.isSome && x.fin.isNone && !x.reading && !x.readFail && !x.stagedAll &&
        (x.course.isSome || decide (staged < ahead)) && !(match x.desc with | some d => f.malformed d || s.badAngle f d | none => true)
    else f.xfers.find? fun x => x.course.isSome && x.fin.isNone && !x.reading && !x.readFail && !x.stagedAll
  else
    let packets := (f.xfers.map fun x => if x.fin.isSome then 0 else (x.staged.length + f.par.packet - 1) / max 1 f.par.packet).sum
    if f.causes.readFault || (f.par.ty.bulk && packets ≥ 16) then none
    else
      f.xfers.find? fun x => x.fin.isNone && x.desc.isSome && !x.stagedAll && !x.reading &&
        (match x.desc with | some d => !f.malformed d | none => false) && f.readWords x != 0

/-- The bank into which a transfer's next words go (R213): its words stay in one. -/
def State.bankOf (s : State) (x : Transfer) (n : Nat) : Option (Fin 64) :=
  match x.bank with
  | some b => if x.words = 0 then s.bankFor n else if s.pmu.bankUse[b] + n ≤ bankWords && s.pmu.banks[b] != .lost then some b else none
  | none => s.bankFor n

/-- STAGE_DELAY of the instance holds a read back (R456). -/
def State.readHeld (s : State) (f : Flow) (x : Transfer) : Bool :=
  s.flag .PTB_SFD_CFG_ON && (s.flag .PTB_SFD_CFG_ALL || s.fld .PTB_SFD_CFG_INSTANCE == f.inst) &&
    decide (s.time.mono < x.dueAt + s.fld .PTB_SFD_NS_NS)

/-- Stage fetch has a read of a flow to issue, with room for its words (R11, R213, R214): the transfer and the bank. -/
def State.stageDue (s : State) (f : Flow) : Option (Transfer × Fin 64) :=
  (s.stageNext f).bind fun x =>
    let n := f.readWords x
    let room := f.par.ty.scheduled || (decide (s.stageUse f.inst + n ≤ (s.inst f.inst).shares.words) && !f.xfers.any (·.reading))
    if room && !s.fetchStopped f && !s.readHeld f x then (s.bankOf x n).map fun b => (x, b) else none

/-- The first slot course from `c` on in which a flow is active. -/
def State.slotFrom (s : State) (f : Flow) (c : Nat) : Nat := ((List.range 65).map (c + ·)).find? (s.activeFor f) |>.getD (c + 64)

/-- The course whose acceptance deadline a read has to meet (R12, R153): of a paced transfer that is not bound, the first for which the due rule is
still to come (R192). -/
def State.readCourse (s : State) (f : Flow) (x : Transfer) : Nat := x.course.getD (s.slotFrom f (s.committed + 1))

/-- The scheduled flow whose read has the earliest acceptance deadline, round robin by instance among equals (R12). -/
def State.stageFirst (s : State) (due : List (Nat × Flow × Transfer)) : Option Nat :=
  let course (e : Nat × Flow × Transfer) : Nat := s.readCourse e.2.1 e.2.2
  (minBy course due).bind fun m =>
    s.turnOf 2 s.turns.stageDead ((due.filter fun e => course e == course m).map fun e => (e.1, e.2.1))

/-- Reads of bulk and control flows that are in flight. -/
def State.restReads (s : State) : Nat :=
  (s.flows.map fun e => if e.2.par.ty.scheduled then 0 else (e.2.xfers.filter (·.reading)).length).sum

/-- Whether stage fetch may issue a flow's read now (R12, R211): deadline reads in order, keeping 64 tags for bulk and control reads while such
reads wait, and those at most 64, round robin by instance. -/
def State.stageTurn (s : State) (ctx : Nat) (f : Flow) : Bool :=
  let due := s.flows.filterMap fun e => (s.stageDue e.2).map fun x => (e.1, e.2, x.1)
  let rest := due.filter fun e => !e.2.1.par.ty.scheduled
  let used := s.restReads
  decide (s.host.stageTags < s.depth 1 0 512) &&
    if f.par.ty.scheduled then
      s.stageFirst (due.filter fun e => e.2.1.par.ty.scheduled) == some ctx && (rest.isEmpty || decide (s.host.stageTags + (64 - used) < 512))
    else decide (used < 64) && s.turnOf 3 s.turns.stageRest (rest.map fun e => (e.1, e.2.1)) == some ctx

/-- Stage fetch issues a read request for a flow (R12, R211–R213); nothing happens where none is due, it is another flow's turn, or no tag or
word is free. -/
def execStageFetchIssue (ctx : Nat) (s : State) : Res :=
  .next <|
    match (s.flow ctx).bind fun f => (s.stageDue f).bind fun y => y.1.desc.map fun d => (f, y.1, y.2, d) with
    | none => s
    | some (f, x, b, d) =>
        let n := f.readWords x
        if !s.stageTurn ctx f || !s.canPost || s.boot.dmaRefused then s
        else
          let s := s.turnTaken (if f.par.ty.scheduled then 2 else 3) ctx f
          let at_ := x.moved + x.staged.length
          let addr := BitVec.ofNat 64 (descAddr d.1 d.2.1 + f.par.byteOfs at_)
          let s := ((s.openBank b).useBank b (· + n)).modXfer ctx x.idx fun y =>
            { y with reading := true, readAt := at_, issued := true, words := y.words + n, bank := some b }
          let s := { s with host := { s.host with stageTags := s.host.stageTags + 1 } }
          let s := s.setFld .HIF_TAGS_HWM (max (s.fld .HIF_TAGS_HWM) (s.host.ringTags + s.host.stageTags))
          s.emit (.hostRead (s.pasidOf f.inst) addr (f.par.byteLen at_ n))

/-- A read whose transfer or flow is gone completes: its data are discarded and its tag is free again (R153, R330). -/
def State.orphanStage (s : State) : State :=
  let waiting := (s.flows.map fun e => (e.2.xfers.filter (·.reading)).length).sum
  if waiting < s.host.stageTags then { s with host := { s.host with stageTags := s.host.stageTags - 1 } } else s

/-- The words that a read of a flow's buffer from word `n` on brings, `k` of them (R2, R3). -/
def FlowParams.readData (p : FlowParams) (n k : Nat) (data : List Byte) : List Word :=
  if p.packed then ((packedWords data).drop (n % 2)).take k else laneWords data

/-- A stage read completes with data, or fails (R2, R3, R153, R211, R214). Words that were acknowledged meanwhile are not kept. -/
def execStageReadComplete (ctx : Nat) (i : BitVec 16) (e : ReadEnd) (data : List Byte) (s : State) : Res :=
  match (s.flow ctx).bind fun f => (f.xfer i).map fun x => (f, x) with
  | none => .next s.orphanStage
  | some (f, x) =>
    if !x.reading then .next s.orphanStage
    else
      let past := x.moved + x.staged.length - x.readAt
      let n := f.readWords { x with moved := x.readAt, staged := [] }
      guarded (e != .ok || data.length == f.par.byteLen x.readAt n) <|
        let s := { s with host := { s.host with stageTags := s.host.stageTags - 1 } }
        let s := s.modXfer ctx i fun y => { y with reading := false, dueAt := s.time.mono }
        if x.fin.isSome then s
        else if e == .ok then
          let new := (f.par.readData x.readAt n data).drop past
          let s := (match x.bank with | some b => s.openBank b | none => s).freeSome ctx x (n - new.length)
          let s := s.modXfer ctx i fun y =>
            { y with staged := y.staged ++ new, stagedAll := f.wholeStaged x (x.staged.length + new.length) }
          if f.par.ty.scheduled && x.course.isSome then
            let late := match x.course with | some c => !s.ahead c 2000 | none => false
            if late then s else s.accept ctx i
          else s
        else
          let s := (s.readError ctx f.inst e false).freeSome ctx x n
          let s := s.modXfer ctx i fun y => { y with readFail := true }
          if f.par.ty.scheduled then s
          else (s.finish ctx i .notAccepted x.moved).setCauses ctx fun c => { c with readFault := true }

/-! The acceptance deadline. -/

/-- Slot `n` of a course ends its wait: a bound output that is not accepted completes NOT_ACCEPTED, or STAGE_LOST where its bank was lost
after it had been accepted (R178); no bound descriptor is an underrun (R153,
R154). -/
def State.deadlineSlot (ctx c : Nat) (s : State) (n : Nat) : State :=
  match s.flow ctx with
  | none => s
  | some f =>
    let bound := f.xfers.find? fun x => x.course == some c && x.slot == n
    let waiting := s.waits f ctx c n
    let p := s.parFor f c
    let s := match bound with
      | some x =>
        if x.accepted || x.fin.isSome then s
        else ((s.freeWords x).finish ctx x.idx (if x.lostWords then .stageLost else .notAccepted) 0).modXfer ctx x.idx fun y =>
          { y with staged := [], words := 0, bank := none }
      | none => if f.bindsByWindow then s.underrun ctx else s
    if waiting then s.resolve ctx f c n p.holdReason
    else if bound.any fun x => x.lostWords && !x.accepted then s.holdSlot ctx f c n p.holdReason
    else s

/-- The acceptance deadline of a course for a flow (R153, R154). -/
def execAcceptanceDeadline (ctx : Nat) (course : BitVec 48) (s : State) : Res :=
  .next <|
    match s.flow ctx with
    | none => s
    | some f =>
      let c := course.toNat
      if f.service.isSome || !f.par.ty.scheduled || s.committed < c || c ≤ f.deadDone || !s.activeFor f c then s
      else
        let slots := if f.par.ty.paced then List.range (s.parFor f c).q else [0]
        let s := slots.foldl (State.deadlineSlot ctx c) s
        s.modFlow ctx fun f => { f with deadDone := c }

/-! Write-back. -/

/-- Lane format: 8 bytes for each word (R2). -/
def laneBytes (ws : List Word) : List Byte := ws.flatMap fun w => leBytes 8 w.toNat

/-- Packed format: 9 bytes for each two words, the first in the low bits (R3); an odd last word is completed with zero. -/
def packedBytes : List Word → List Byte
  | [] => []
  | [w] => leBytes 9 w.toNat
  | w :: v :: ws => leBytes 9 (w.toNat + v.toNat * 2 ^ 36) ++ packedBytes ws

/-- Words that go out in the next posted write: at most 512 bytes, not across 4 KiB (R215). Packed writes take whole groups of 9 bytes. -/
def writeWords (packed : Bool) (addr n : Nat) : Nat :=
  let room := min 512 (4096 - addr % 4096)
  if packed then min n (max 2 (room / 9 * 2)) else min n (max 1 (room / 8))

/-- One posted write of bytes, split where it would exceed 512 bytes or cross 4 KiB (R215). -/
def State.postBytes (pasid : Option (BitVec 20)) : Nat → Nat → List Byte → State → State
  | 0, _, _, s => s
  | fuel + 1, addr, bs, s =>
    if bs.isEmpty then s
    else
      let n := min bs.length (min 512 (4096 - addr % 4096))
      State.postBytes pasid fuel (addr + n) (bs.drop n) (s.post (.hostWrite pasid (BitVec.ofNat 64 addr) (bs.take n)))

/-- THROTTLE loop 7 makes the write-back of an instance wait (R458): one write in each interval. The count holds the running time of the
last one. -/
def State.writeThrottled (s : State) (i : Nat) : Bool :=
  let idx := s.fld .PTB_THROTTLE_INDEX 7
  s.flag .PTB_THROTTLE_ON 7 && (idx == i || idx == 0x1FFF) &&
    (match kget s.ptbCount (1024 + i) with
     | some at_ => decide (s.time.mono < at_ + s.fld .PTB_THROTTLE_DEPTH 7 * 128)
     | none => false)

/-- Write-back issues the data that a transfer has taken to its buffer, where posted credit allows, in the order of the flow's packets (R215,
R458). -/
def execInputWriteBack (ctx : Nat) (i : BitVec 16) (credit : Bool) (s : State) : Res :=
  .next <|
    match (s.flow ctx).bind fun f => (f.xfer i).bind fun x => x.desc.map fun d => (f, x, d) with
    | none => s
    | some (f, x, d) =>
      if ((f.xfers.find? fun y => !y.toWrite.isEmpty).map (·.idx)) != some i || !credit ||
          (s.inst f.inst).state == .resetting || s.writeThrottled f.inst then s
      else
        let s := if s.flag .PTB_THROTTLE_ON 7 then { s with ptbCount := kset s.ptbCount (1024 + f.inst) s.time.mono } else s
        -- Words taken before a restore are not held (R337); one that shares a group of 9 bytes with a new one is free (assumption 15).
        let gone := x.moved - x.staged.length
        let first := x.moved - x.toWrite.length
        let packed := f.par.packed && f.par.ty.bulk
        let start := if packed then first / 2 * 2 else first
        let ws := (if start < gone then [BitVec.truncate 36 s.freeWord.1] else []) ++ x.staged.drop (start - gone)
        let s := if start < gone then s.freeWord.2 else s
        let addr := descAddr d.1 d.2.1 + (if packed then start / 2 * 9 else 8 * start)
        let bs := if packed then packedBytes ws else laneBytes ws
        let s := State.postBytes (s.pasidOf f.inst) (bs.length + 1) addr bs s
        (s.freeWords x).modXfer ctx i fun y => { y with toWrite := [], writtenAt := none, words := 0, bank := none }

/-! Host stall (R174, R341). -/

/-- Write-back or completion release of an instance waits: data to write, or final completions that no ring takes. -/
def State.hostWaits (s : State) (i : Nat) : Bool :=
  s.flows.any fun e => e.2.inst == i && e.2.xfers.any fun x => !x.toWrite.isEmpty || x.fin.isSome

/-- A completion ring in use has no room (R219, R226). -/
def State.ringFull (s : State) (i : Nat) (q : Fin 16) : Bool :=
  s.flag .INST_CQ_CFG_ENABLE q.val i &&
    ringRoom (s.fld .INST_CQ_CFG_SIZE q.val i) (s.inst i).cqs[q].write (BitVec.ofNat 16 (s.fld .INST_CQ_CONS_CONS q.val i)) == 0

/-- The wait of an instance reaches 2 µs: an interval opens (R174, R341). -/
def execHostStallOpen (i : Fin 512) (waits : BitVec 3) (s : State) : Res :=
  .next <|
    let x := s.inst i.val
    if x.stall.open_ || waits = 0 || x.state == .free || (!s.hostWaits i.val && s.hostq.isEmpty) then s
    else
      let w : Waits := ⟨waits.getLsbD 0, waits.getLsbD 1, waits.getLsbD 2⟩
      let s := s.modInst i.val fun x =>
        { x with
          stall := { open_ := true, waits := w, cnt := if x.stall.cnt = 0xFFFFFFFF then x.stall.cnt else x.stall.cnt + 1,
                     openAt := s.time.bus, closeAt := 0 }
          cqs := Vector.ofFn fun q => (⟨x.cqs[q].write, x.cqs[q].phase, w.ring && s.ringFull i.val q⟩ : CqState) }
      let s := (s.addSat .PLN_STALL_CNT_COUNT 1).happen .PLN_EVENT_HOST_STALL 4
      if s.flag .INST_STALL_CFG_EN 0 i.val then s.raiseOpt (s.globalSrc i.val (s.fld .INST_STALL_CFG_SRC 0 i.val)) else s

/-- An interval closes: its times are recorded, and the instance gets the event (R174, R312, R341). -/
def State.stallClose (s : State) (i : Nat) : State :=
  let x := s.inst i
  if !x.stall.open_ then s
  else
    let opened := x.stall.openAt
    let s := s.modInst i fun x =>
      { x with stall := { x.stall with open_ := false, waits := ⟨false, false, false⟩, closeAt := s.time.bus },
               cqs := x.cqs.map fun r => { r with stalling := false } }
    s.eventAt i evHostStall 0 opened (leBytes 8 s.time.bus.toNat)

/-- See `State.stallClose`. -/
def execHostStallClose (i : Fin 512) (s : State) : Res := .next (s.stallClose i.val)

/-! Ordered release (R218–R223). -/

/-- Status codes (R224). -/
def Status.code : Status → Nat
  | .done => 0 | .doneRetried => 1 | .lasting => 2 | .notAccepted => 3 | .held => 4 | .detached => 5 | .portReset => 6
  | .stalled => 7 | .revoked => 8 | .stageLost => 9 | .cancelled => 10 | .retryDenied => 11 | .overrun => 12 | .short => 13
  | .hostStall => 14

/-- A place in the order of its domain (R177, R222): course, what CANCELLED completions at a boundary precede, slot offset, trunk, index; for
an unscheduled domain the order of becoming visible. The groups of flows that close at one boundary follow in plan order, outputs first, then in
order of admission. -/
structure Rank where
  course : Nat
  late : Nat
  ofs : Nat
  trunk : Nat
  vis : Nat
deriving DecidableEq, Repr

/-- Earlier in the order. -/
def Rank.before (a b : Rank) : Bool :=
  if a.course ≠ b.course then decide (a.course < b.course)
  else if a.late ≠ b.late then decide (a.late < b.late)
  else if a.ofs ≠ b.ofs then decide (a.ofs < b.ofs)
  else if a.trunk ≠ b.trunk then decide (a.trunk < b.trunk)
  else decide (a.vis < b.vis)

/-- The rank of a transfer; one that is not bound comes after every bound one. -/
def Flow.rank (f : Flow) (x : Transfer) : Rank :=
  if f.par.ty.scheduled then
    let gone : Bool := match x.fin with | some n => n.status == .cancelled || n.status == .revoked | none => false
    match x.course with
    | some c => if gone then ⟨c, 0, (!f.par.ty.output).toNat, f.order, x.vis⟩ else ⟨c, 1, x.ofs, f.pos.trunk.val, x.vis⟩
    | none => ⟨2 ^ 60, 1, 0, 0, x.vis⟩
  else ⟨0, 0, 0, 0, x.vis⟩

/-- Transfers of a domain, as context, flow and transfer. -/
def State.domain (s : State) (inst dom : Nat) : List (Nat × Flow × Transfer) :=
  s.flows.flatMap fun e => if e.2.service.isNone && e.2.inst == inst && e.2.dom == dom then e.2.xfers.map fun x => (e.1, e.2, x) else []

/-- No earlier transfer of the domain is unreleased. -/
def State.headOfDomain (s : State) (f : Flow) (x : Transfer) : Bool :=
  (s.domain f.inst f.dom).all fun y => !((y.2.1.rank y.2.2).before (f.rank x))

/-- Nothing more will bind to a slot course of a flow (R151, R191). -/
def State.settled (s : State) (g : Flow) (c : Nat) : Bool :=
  !s.activeFor g c || decide (c ≤ g.lastBound) || decide (c ≤ g.deadDone) || s.bindStopped g c ||
    (if g.par.ty.paced then decide (c ≤ s.committed) else !s.ahead c 2000)

/-- No earlier completion of a scheduled domain is still to come (R170, R222): from the courses before, or from slots of the same course that lie
before it. -/
def State.domainSettled (s : State) (f : Flow) (x : Transfer) : Bool :=
  match (if f.par.ty.scheduled then x.course else none) with
  | none => true
  | some c =>
    let now := s.course.count.toNat + 1
    let early (g : Flow) : Bool := (s.slotsFor g c).any fun o =>
      decide (o < x.ofs) || (o == x.ofs && decide (g.pos.trunk.val < f.pos.trunk.val))
    s.flows.all fun e =>
      !(e.2.inst == f.inst && e.2.dom == f.dom && e.2.service.isNone) ||
        ((List.range (c - now)).all fun k => s.settled e.2 (now + k)) && (!early e.2 || s.settled e.2 c)

/-- Room of a flow's completion ring (R219). -/
def State.cqRoom (s : State) (f : Flow) : Nat :=
  ringRoom (s.fld .INST_CQ_CFG_SIZE f.cq.val f.inst) (s.inst f.inst).cqs[f.cq].write
    (BitVec.ofNat 16 (s.fld .INST_CQ_CONS_CONS f.cq.val f.inst))

/-- A completion that the release stage can write now (R222). -/
def State.releasable (s : State) (f : Flow) (x : Transfer) : Bool :=
  x.fin.isSome && x.toWrite.isEmpty && decide (s.cqRoom f ≠ 0) &&
    (s.inst f.inst).state != .resetting && s.headOfDomain f x && s.domainSettled f x

/-- The status as written: an input delivered after its bound completes HOST_STALL (R173, R174). -/
def State.finalStatus (s : State) (f : Flow) (x : Transfer) (n : Final) : Status :=
  let input := f.par.ty == .periodicIn || f.par.ty == .pacedIn
  match x.course with
  | some c =>
    if input && (n.status == .done || n.status == .doneRetried) && decide (s.monoOf (c + 1) + 3000 < (s.time.mono : Int))
    then .hostStall else n.status
  | none => n.status

/-- The 16 bytes of a completion entry (R218). -/
def entryBytes (f : Flow) (x : Transfer) (n : Final) (st : Status) (pert phase : Bool) : List Byte :=
  leBytes 8 n.busTime.toNat ++ leBytes 2 x.idx.toNat ++ leBytes 2 (f.num % 8192) ++ leBytes 2 n.length ++
    [BitVec.ofNat 8 (st.code + n.retries * 16), BitVec.ofNat 8 (pert.toNat + n.effect.toNat * 2 + phase.toNat * 128)]

/-- The oldest released indices leave a flow: K moves on (R204). -/
def Flow.release (f : Flow) (i : BitVec 16) : Flow :=
  let xs := f.xfers.filter (·.idx != i)
  { f with xfers := xs, cons := match xs with | [] => f.prod | y :: _ => y.idx }

/-- A closed flow's context is free once its last completion is released (R177); a SILENCE of it turns off (R462). -/
def State.freeContext (s : State) (ctx : Nat) : State :=
  match s.flow ctx with
  | some f =>
    if f.closedAt.isSome && f.xfers.isEmpty then
      let s := { s with flows := kdel s.flows ctx }
      if s.fld .PTB_SILENCE_MODE != 0 && s.fld .PTB_SILENCE_CONTEXT == ctx then (s.setReg .PTB_SILENCE 0).ptbRefresh else s
    else s
  | none => s

/-- A FLOW_CLOSE that waited for its flow's last completion completes, with the result kept for it (R177, R301). -/
def State.closeCmds (s : State) (i num : Nat) : State :=
  let ready := ((s.inst i).mb.taken.filter fun t => t.waiting && t.opcode == 0x0302 && t.arg 8 2 == num)
  ready.foldl (fun s t => s.complete i t.idx stOk t.result) s

/-- Writes a completion entry and raises the ring's source (R10, R218–R220). -/
def State.releaseOne (s : State) (ctx : Nat) (f : Flow) (x : Transfer) (n : Final) : State :=
  let i := f.inst
  let q := f.cq.val
  let r := (s.inst i).cqs[f.cq]
  let size := s.fld .INST_CQ_CFG_SIZE q i
  let base := s.pair .INST_CQ_BASE_LO .INST_CQ_BASE_HI q i
  let st := s.finalStatus f x n
  let pert := s.perturbed || x.pertOn || s.ptbSeq != x.pertSeq
  let s := s.post (.hostWrite (s.pasidOf i) (BitVec.ofNat 64 (base + 16 * (r.write.toNat % 2 ^ size))) (entryBytes f x n st pert r.phase))
  let w := r.write + 1
  let s := s.modInst i fun y => { y with cqs := (y.cqs.setIfInBounds q
    ({ r with write := w, phase := if w.toNat % 2 ^ size = 0 then !r.phase else r.phase } : CqState)) }
  let s := s.freeWords x
  let s := s.modFlow ctx fun f => f.release x.idx
  let wants := (match x.desc with | some d => descInt d.2.1 | none => false) || s.flag .INST_CQ_CFG_EVERY q i ||
    (s.flag .INST_CQ_CFG_ERR_SIG q i && st != .done && st != .doneRetried)
  let s := if wants then s.raiseAfter (s.globalSrc i (s.fld .INST_CQ_CFG_SRC q i)) else s
  let gone := f.closedAt.isSome && ((s.flow ctx).map (·.xfers.isEmpty)).getD false
  let s := s.freeContext ctx
  if gone then s.closeCmds i f.num else s

/-- The number of an ordering domain. -/
def Flow.domain (f : Flow) : Nat := f.inst * 1024 + f.dom

/-- The completion that the release stage serves next (R242): scheduled heads first, then the other domains round robin. -/
def State.nextRelease (s : State) : Option (Nat × Flow × Transfer × Final) :=
  let heads : List (Nat × Flow × Transfer × Final) := s.flows.flatMap fun e => if e.2.service.isSome then [] else
    e.2.xfers.filterMap fun x => if s.releasable e.2 x then x.fin.map fun n => (e.1, e.2, x, n) else none
  let first (l : List (Nat × Flow × Transfer × Final)) : Option (Nat × Flow × Transfer × Final) :=
    l.foldl (fun (best : Option (Nat × Flow × Transfer × Final)) y =>
      match best with
      | none => some y
      | some b => if (y.2.1.rank y.2.2.1).before (b.2.1.rank b.2.2.1) then some y else best) none
  match first (heads.filter fun y => y.2.1.par.ty.scheduled) with
  | some y => some y
  | none => minBy (fun (y : Nat × Flow × Transfer × Final) => turnFrom (512 * 1024) s.relLast y.2.1.domain)
      (heads.filter fun y => !y.2.1.par.ty.scheduled)

/-- Ordered release writes one completion (R222, R242). -/
def execCompletionRelease (s : State) : Res :=
  .next <|
    match s.nextRelease with
    | some (ctx, f, x, n) => { s with relLast := if f.par.ty.scheduled then s.relLast else f.domain + 1 }.releaseOne ctx f x n
    | none => s

end Sys2Proof.Machine
end

