-- ==== Sys2Proof/Machine/Disp.lean ====
section
/-!
DEFINITION. The dispatcher: flags and readiness (R228–R231, R241), decisions (R235, R236, R252), firmware tasks (R235, R237), delays (R238,
R239), cancels (R243, R244), reads of the trace buffer (R251).
-/

namespace Sys2Proof.Machine

/-- Device source 5: dispatcher events (R346). -/
def srcDsp : Nat := 5

/-! What an unscheduled flow sends next. -/

/-- A packet of a bulk OUT transfer: its transfer, first word among the staged ones, words, whether it ends the transfer, whether its words
are staged. -/
structure OutPacket where
  idx : BitVec 16
  ofs : Nat
  words : Nat
  last : Bool
  ready : Bool
deriving DecidableEq, Repr

/-- LEN of a bulk descriptor (R206). -/
def Transfer.lenWords (x : Transfer) : Nat :=
  match x.desc with
  | some d => wbits d.2.2.1 15 0
  | none => 0

/-- The setup of a control descriptor (R206). -/
def Transfer.setup (x : Transfer) : Setup :=
  match x.desc with
  | some d => ⟨d.2.2.1, d.2.2.2⟩
  | none => ⟨0, 0⟩

/-- The packets of a bulk OUT transfer that are not acknowledged (R212); a transfer of no words is one empty packet. -/
def Transfer.outPackets (x : Transfer) (w : Nat) : List OutPacket :=
  let rest := x.lenWords - x.moved
  let n := if rest = 0 then 1 else (rest + w - 1) / max 1 w
  (List.range n).map fun j =>
    let k := min w (rest - j * w)
    ⟨x.idx, j * w, k, j + 1 == n, decide (j * w + k ≤ x.staged.length) && !x.lostWords⟩

/-- The transfers of a flow that have no final outcome, up to the first whose descriptor has not arrived or is malformed. -/
def Flow.work (f : Flow) : List Transfer :=
  (f.xfers.filter fun x => x.fin.isNone).takeWhile fun x => match x.desc with | some d => !f.malformed d | none => false

/-- The packets of a bulk OUT flow from the last acknowledged one on. -/
def Flow.outPackets (f : Flow) : List OutPacket := f.work.flatMap fun x => x.outPackets f.par.packet

/-- A packet or token that an unscheduled flow sends next: its transfer, its reason, the blocks it takes down and up (R79), whether it asks for
DATA, the words it carries or asks for. -/
structure Piece where
  idx : BitVec 16
  reason : Reason
  down : Nat
  up : Nat
  isIn : Bool
  words : Nat
deriving DecidableEq, Repr

/-- A packet of a flow waits in a transmit queue. -/
def State.queued (s : State) (ctx : Nat) (t : Fin 16) : Nat := (s.txq[t].filter fun e => e.ctx == ctx && !e.sched).length

/-- A packet or token of a flow waits in a transmit queue or for its response. -/
def State.outstanding (s : State) (ctx : Nat) (t : Fin 16) : Bool := s.queued ctx t != 0 || s.expects.any fun w => w.ctx == ctx

/-- A packet down, or a token and the DATA it asks for. -/
def Transfer.outPiece (x : Transfer) (r : Reason) (n : Nat) : Piece := ⟨x.idx, r, n + 3, 1, false, n⟩
def Transfer.inPiece (x : Transfer) (r : Reason) (n : Nat) : Piece := ⟨x.idx, r, 3, n + 3, true, n⟩

/-- The next packet of a control transfer (R84). -/
def Transfer.controlPiece (x : Transfer) : Option Piece :=
  let rest := x.setup.count - x.moved
  match x.step with
  | .setup => some (x.outPiece .setup 2)
  | .dataOut => if min 16 rest ≤ x.staged.length then some (x.outPiece .ctrlData (min 16 rest)) else none
  | .dataIn => some (x.inPiece .ctrlData (min 16 rest))
  | .statusIn => some (x.inPiece .ctrlStatus 0)
  | .statusOut => some (x.outPiece .ctrlStatus 0)
  | .finished => none

/-- The next packet or token of an unscheduled flow (R84, R87, R88, R212, R261): for bulk OUT within 16 packets and the node's credit, after NYET
or NAK one probe; for the others one at a time. -/
def State.nextPiece (s : State) (ctx : Nat) (f : Flow) : Option Piece :=
  match f.par.ty with
  | .bulkOut =>
    let n := (f.seq - f.acked).toNat + s.queued ctx f.pos.trunk
    if (if f.probe then n = 0 else n < min 16 f.credit) then
      (f.outPackets[n]?).bind fun p =>
        if p.ready then
          some ⟨p.idx, if f.probe then .probe else if n < f.sentTop then .goback else .bulk, p.words + 3, 1, false, p.words⟩
        else none
    else none
  | .bulkIn =>
    if s.outstanding ctx f.pos.trunk then none
    else f.work.head?.map fun x =>
      x.inPiece (if f.probe then .probe else if x.fails != 0 then .goback else .bulk) (min f.par.packet (x.lenWords - x.moved))
  | .control => if s.outstanding ctx f.pos.trunk then none else f.work.head?.bind (·.controlPiece)
  | _ => none

/-! Flags (R229). -/

/-- Words that the tokens on a trunk, sent or queued, may still bring (R13). -/
def State.rxUse (s : State) (t : Fin 16) : Nat :=
  ((s.expects.filter fun w => w.trunk == t && w.isIn).map (·.len)).sum + (s.txq[t].map (·.want)).sum

/-- The trunk's receive buffer can take `n` more words. -/
def State.rxRoom (s : State) (t : Fin 16) (n : Nat) : Bool := decide (s.rxUse t + n ≤ s.depth 5 t.val 2048)

/-- Stage words that the tokens of an instance's unscheduled flows, sent or queued, may still take. -/
def State.stageOwed (s : State) (inst : Nat) : Nat :=
  let mine (c : Nat) : Bool := (s.flow c).any fun f => f.inst == inst && !f.par.ty.scheduled
  ((s.expects.filter fun w => w.isIn && mine w.ctx).map (·.len)).sum +
    (s.txq.toList.map fun q => ((q.filter fun e => mine e.ctx).map (·.want)).sum).sum

/-- The stage words of an unscheduled input (R13, R14). -/
def State.stageRoom (s : State) (inst n : Nat) : Bool :=
  n == 0 || (decide (s.stageUse inst + s.stageOwed inst + n ≤ (s.inst inst).shares.words) && (s.bankFor n).isSome)

/-- Room for a token's DATA. -/
def State.inRoom (s : State) (f : Flow) (p : Piece) : Bool :=
  !p.isIn || (s.rxRoom f.pos.trunk p.words && s.stageRoom f.inst p.words)

/-! Areas (R121, R163, R232, R325). How long the control area is, beyond its floor, is the planner's: assumption 22. -/

/-- Key of a trunk's bulk area in a committed course, and of an instance's share in it. -/
def areaKey (t c : Nat) : Nat := t * 4 + c % 4
def bulkKey (t inst c : Nat) : Nat := areaKey t c * 512 + inst

/-- Share of an instance in the bulk area of a trunk in a course (R325): the whole area where no instance competes. -/
def State.bulkShareOf (s : State) (t inst c : Nat) : Nat :=
  match kget s.plan.bulkShare (bulkKey t inst c) with
  | some n => n
  | none => if s.plan.bulkShare.any fun e => e.1 / 512 == areaKey t c then 0 else (kget s.plan.bulkArea (areaKey t c)).getD 0

/-- The plan of a committed course. -/
def State.plannedIn (s : State) (c : Nat) : List Planned :=
  match s.plan.swapAt with
  | some b => if b ≤ c then s.plannedWith fun ch => decide (ch.from_ ≤ b) else s.planned false
  | none => s.planned false

/-- Scheduled work of a course is left on a trunk: some transaction could still claim lap room (R163). -/
def State.claims (s : State) (t : Fin 16) (c : Nat) : Bool :=
  let here (k : Nat) : Bool := (s.flow k).any (·.pos.trunk == t)
  s.planq[t].any (·.course == c) || s.txq[t].any (fun e => e.sched && e.course == c) ||
    s.engines.any (fun g => g.sched.any fun x => x.2.course == c && here x.1) ||
    s.expects.any fun w => w.trunk == t && w.course == c && (s.flow w.ctx).any (·.par.ty.scheduled)

/-- Blocks that scheduled traffic takes of a link in a committed course (R163): the slots that send something, and the reserve of the lap while a
transaction may claim it. -/
def State.linkTaken (s : State) (p : PortRef) (up : Bool) (c : Nat) : Nat :=
  let sent := ((s.plan.taken.filter fun u => u.course == c && u.pos.ports.contains p).map fun u => if up then u.up else u.down).sum
  let j := c % 64
  let fs := s.plannedIn c
  let lap := ((fs.filter fun f => f.on p && f.par.activeAt j && f.par.dedicated).map fun f => f.par.q * f.dirCost up).sum +
    sumLargest s.poolR (poolCosts fs p up j)
  let free : Bool := match p.trunk with | some t => c == s.course.count.toNat && !s.claims t c | none => true
  sent + if free then 0 else lap

/-- Blocks of the control area of a link of `n` blocks with `planned` blocks taken: its floor, or room for one control packet (R121). -/
def ctlBlocks (n planned : Nat) : Nat := min (max (ctlFloor n) 19) (n - 7 - planned)

/-- What unscheduled packets take of a link's control or bulk area in a course. -/
def State.areaUsed (s : State) (p : PortRef) (up bulk : Bool) (c : Nat) : Nat :=
  ((s.plan.uses.filter fun u => u.course == c && u.bulk == bulk && u.pos.ports.contains p).map fun u => if up then u.up else u.down).sum

/-- STOP takes the first block of a trunk's control area in a course from the present one on (R271). -/
def State.stopIn (s : State) (t : Fin 16) (c : Nat) : Bool :=
  let now := s.course.count.toNat
  s.stop.latched && (if c = now then s.stop.repeatAt[t] == some now else decide (c - now ≤ s.stop.repeats[Fin.ofNat 18 t.val]))

/-- A course has room in a task's area for its next transaction on every link of the route (R229, R232), within its instance's share of a bulk area
(R325). A control area that nothing uses takes a transaction of any length. -/
def State.areaRoom (s : State) (f : Flow) (p : Piece) (c : Nat) : Bool :=
  let bulk := f.par.ty.bulk
  let shared := ((s.plan.uses.filter fun u => u.course == c && u.bulk && u.inst == f.inst && u.pos.trunk == f.pos.trunk).map
    fun u => max u.down u.up).sum
  (f.pos.ports.all fun l => [false, true].all fun up =>
    let n := s.blocks ((s.rateOf l).getD .hr)
    let planned := s.linkTaken l up c
    let stop : Bool := match l with | .root t => !up && s.stopIn t c | _ => false
    let ctl := ctlBlocks n planned
    let used := s.areaUsed l up bulk c + if stop && !bulk then 1 else 0
    decide (used + (if up then p.up else p.down) ≤ if bulk then n - 7 - planned - ctl else ctl) || (!bulk && used ≤ stop.toNat)) &&
    (!bulk || decide (shared < s.bulkShareOf f.pos.trunk.val f.inst c))

/-- The build course of an unscheduled task (R232): the earliest course whose commit point has passed with room for its next transaction. -/
def State.buildCourse (s : State) (f : Flow) (p : Option Piece) : Option Nat :=
  let now := s.course.count.toNat
  if s.pmu.mode.courses && s.course.running then [now, now + 1, now + 2].find? (s.areaRoom f (p.getD ⟨0, .bulk, 0, 0, false, 0⟩)) else none

/-- Limit of reorder entries of a domain (R250). -/
def State.ordLimit (s : State) : Nat := min 1024 (max 1 (s.fld .DSP_CFG_ORD_LIMIT))

/-- Scheduled ordering domains, for each of which 2 reorder entries are reserved (R170). -/
def State.schedDomains (s : State) : List (Nat × Nat) :=
  s.flows.foldl (fun l e => if e.2.hostScheduled && !l.contains (e.2.inst, e.2.dom) then (e.2.inst, e.2.dom) :: l else l) []

/-- Reorder entries that unscheduled domains hold (R223). -/
def State.ordUse (s : State) : Nat := (s.flows.map fun e => (e.2.xfers.filter (·.reordered)).length).sum

/-- Reorder entries that a domain holds. -/
def State.ordDomain (s : State) (inst dom : Nat) : Nat := ((s.domain inst dom).filter fun y => y.2.2.reordered).length

/-- ORDER for the transfer that an unscheduled flow works on (R241). -/
def State.orderOk (s : State) (f : Flow) (x : Transfer) : Bool :=
  x.inProgress || x.reordered || s.headOfDomain f x ||
    (decide (s.ordDomain f.inst f.dom < s.ordLimit) && decide (s.ordUse + 2 * s.schedDomains.length < s.depth 6 0 4096))

/-- The current entry of a scheduled flow: its earliest in the queue that is not resolved (R229, R233). -/
def State.currentEntry (s : State) (ctx : Nat) (f : Flow) : Option PlanEntry :=
  s.planq[f.pos.trunk].find? fun e => e.ctx == ctx && e.reason.isNone

/-- The transfer of a plan entry. -/
def Flow.entryXfer (f : Flow) (e : PlanEntry) : Option Transfer := f.xfers.find? fun x => x.course == some e.course && x.slot == e.slot

/-- The transfer that an unscheduled flow works on next: its next packet's, or its first one. -/
def Flow.nextWork (f : Flow) (p : Option Piece) : Option Transfer := (p.bind fun y => f.xfer y.idx).or f.work.head?

/-- UNHELD (R229): a control transfer under way runs on in a freeze (R333). -/
def State.unheld (s : State) (f : Flow) : Bool :=
  if f.par.ty == .control && f.xfers.any (f.inWork ·) then
    (s.inst f.inst).state != .resetting && (s.causeBits { f with causes := { f.causes with frozen := false } } == 0)
  else !s.holds f && (s.inst f.inst).state != .frozen

/-- The flags of a flow's task (R229). -/
def State.flagsOf (s : State) (ctx : Nat) (f : Flow) : BitVec 8 :=
  let sched := f.par.ty.scheduled
  let piece := if sched then none else s.nextPiece ctx f
  let entry := if sched then s.currentEntry ctx f else none
  let bound := entry.bind f.entryXfer
  let staged : Bool := if sched then
      (match bound with | some x => !f.par.ty.output || x.accepted | none => false)
    else (match piece with | some p => s.inRoom f p | none => false)
  let slot : Bool := if sched then entry.isSome else (s.buildCourse f piece).isSome
  let pace : Bool := !f.par.ty.paced || bound.isSome
  let order : Bool := sched || (match f.nextWork piece with | some x => s.orderOk f x | none => true)
  let bell : Bool := f.xfers.any (·.fin.isNone)
  BitVec.ofNat 8 (staged.toNat + slot.toNat * 2 + (s.linkFlag f).toNat * 4 + pace.toNat * 8 + f.task.delay.isNone.toNat * 16 +
    (s.unheld f).toNat * 32 + order.toNat * 64 + bell.toNat * 128)

/-- Masks of flow tasks (R230). -/
def FlowType.mask (ty : FlowType) : BitVec 8 := if ty.scheduled then 0x02 else 0xF7

/-- Ready (R230): a mask of 0 disables a task. -/
def Task.isReady (t : Task) (flags : BitVec 8) : Bool := t.mask != 0 && flags &&& t.mask == t.mask

/-! Readiness (R228, R231). -/

/-- A task in IDLE, its flags and delay cleared (R228). -/
def Task.idled (t : Task) : Task :=
  { t with flags := 0, state := .idle, cancelPending := false, delay := none, aged := false }

/-- The next number in the order of arrival on lists. -/
def State.nextSince (s : State) : Nat :=
  let m := s.flows.foldl (fun (m : Nat) e => max m e.2.task.since) 0
  s.fwTasks.foldl (fun (m : Nat) e => max m e.2.since) m + 1

/-- A task evaluated with its flags. -/
def Task.evaluate (t : Task) (flags : BitVec 8) (since course : Nat) : Task :=
  match t.state with
  | .waiting =>
    if t.isReady flags then { t with flags := flags, state := .ready, since := since, readyCourse := course, aged := false }
    else { t with flags := flags }
  | .ready => if t.isReady flags then { t with flags := flags } else { t with flags := flags, state := .waiting, aged := false }
  | _ => t

/-- Readiness of every task is evaluated (R231). -/
def State.evaluate (s : State) : State :=
  let since := s.nextSince
  let now := s.course.count.toNat
  { s with
    flows := s.flows.map fun (e : Nat × Flow) =>
      (e.1, { e.2 with task := e.2.task.evaluate (s.flagsOf e.1 e.2) since now })
    fwTasks := s.fwTasks.map fun (e : Nat × Task) => (e.1, e.2.evaluate e.2.flags since now) }

/-- Malformed descriptors that unscheduled flows have come to complete NOT_ACCEPTED (R208). -/
def State.dropMalformed (s : State) : State :=
  s.flows.foldl (fun (s : State) e =>
    if e.2.par.ty.scheduled then s
    else
      match (e.2.xfers.filter fun x => x.fin.isNone).head? with
      | some x =>
        (match x.desc with
          | some d =>
            if e.2.malformed d && !x.inProgress then
              (s.modCounts e.1 fun n => { n with badDesc := n.badDesc + 1 }).finish e.1 x.idx .notAccepted 0
            else s
          | none => s)
      | none => s) s

/-! Decisions (R235, R252). -/

/-- Places of a trunk transmit queue in use, with those taken by tasks in hand. -/
def State.txUse (s : State) (t : Fin 16) (sched : Bool) : Nat :=
  let onTrunk (c : Nat) : Bool := match s.flow c with | some f => f.pos.trunk == t | none => false
  let hands := s.engines.toList.filter fun e =>
    if sched then (match e.sched with | some x => onTrunk x.1 | none => false)
    else (match e.unsched with | some c => onTrunk c | none => false)
  (s.txq[t].filter fun e => e.sched == sched).length + hands.length

/-- A trunk transmit queue has a free place of a kind (R252, R458). -/
def State.txRoom (s : State) (t : Fin 16) (sched : Bool) : Bool :=
  decide (s.txUse t sched < if sched then 48 else 16) && decide (s.txUse t true + s.txUse t false < s.depth 4 t.val 64)

/-- The power domain of an engine: PD_ENG0 for engines 0–7, PD_ENG1 for 8–15 (R390). -/
def engineDomain (e : Fin 16) : Fin 12 := if e.val < 8 then 5 else 6

/-- Expectations of an engine in use, with those that its tasks in hand and its queued packets will take (R252). -/
def State.expectUse (s : State) (e : Fin 16) : Nat :=
  let g := s.engines[e]
  (s.expects.filter fun w => w.engine == e).length + g.sched.isSome.toNat + g.unsched.isSome.toNat +
    (s.txq.toList.map fun q => (q.filter fun x => x.engine == e && x.reason != .hold).length).sum

/-- An engine can accept a task of a kind (R252). -/
def State.engineFree (s : State) (e : Fin 16) (sched : Bool) : Bool :=
  let g := s.engines[e]
  let hands := g.sched.isSome.toNat + g.unsched.isSome.toNat
  (if sched then g.sched.isNone else g.unsched.isNone) && decide (hands < s.depth 3 e.val 2) &&
    (match g.lastAccept with | some t => decide (t + 8 ≤ s.time.cclk) | none => true) &&
    decide (s.expectUse e < 64) && s.pmu.doms[engineDomain e] != .off && s.boot.start.isNone

/-- An access to a domain (R400): one that sleeps begins to wake, and the access stalls. -/
def State.accessDom (s : State) (d : Fin 12) : State :=
  let x := s.pmu.doms[d]
  if x == .retained || x == .waking then
    { s with pmu := { s.pmu with doms := s.pmu.doms.set d.val .waking, stalled := vmod s.pmu.stalled d.val (· + 1) } }.addSat .PMU_STALL_CNT_COUNT 1
  else s

/-- The lowest-numbered engine that can accept (R235). -/
def State.engineFor (s : State) (sched : Bool) : Option (Fin 16) := (List.finRange 16).find? fun e => s.engineFree e sched

/-- Change a flow's task. -/
def State.modTask (s : State) (ctx : Nat) (g : Task → Task) : State := s.modFlow ctx fun f => { f with task := g f.task }

/-- A decision counts (R250). -/
def State.countDecision (s : State) : State :=
  let n := (s.pair .DSP_DECISIONS_LO .DSP_DECISIONS_HI + 1) % 2 ^ 48
  s.setPair .DSP_DECISIONS_LO_COUNT .DSP_DECISIONS_HI_COUNT n

/-- A plan entry and where it stands in the order "earliest slot first": course, time in the course, trunk (R233). -/
def planBefore (a b : Nat × Nat × Nat) : Bool :=
  if a.1 ≠ b.1 then decide (a.1 < b.1) else if a.2.1 ≠ b.2.1 then decide (a.2.1 < b.2.1) else decide (a.2.2 < b.2.2)

/-- The earliest resolved plan entry that can be handed over (R233, R252). -/
def State.nextEntry (s : State) : Option (Fin 16 × PlanEntry) :=
  let all : List (Fin 16 × PlanEntry) := (List.finRange 16).flatMap fun t =>
    if s.txRoom t true then
      (s.planq[t].filter fun e => e.reason.isSome &&
        (match s.flow e.ctx with | some f => f.task.state != .inHand | none => false)).map fun e => (t, e)
    else []
  let place (x : Fin 16 × PlanEntry) : Nat × Nat × Nat := (x.2.course, x.2.ofs * s.rootBlock x.1, x.1.val)
  all.foldl (fun (best : Option (Fin 16 × PlanEntry)) x =>
    match best with
    | none => some x
    | some b => if planBefore (place x) (place b) then some x else best) none

/-- Rank of a priority list in a decision (R235, R236): priority 0, then the aged tasks, then the other priorities. -/
def Task.rank (t : Task) : Nat := if t.prio = 0 then 0 else if t.aged then 1 else t.prio + 1

/-- Distance of a list in the round robin after the one served last. -/
def State.turn (s : State) (list : Nat) : Nat := (list + 384 - 1 - s.dispLast) % 384

/-- The best READY unscheduled task of a list of contexts (R235); heads whose trunk queue has no place are passed over. -/
def State.nextTask (s : State) (cs : List Nat) : Option (Nat × Flow) :=
  let all : List (Nat × Flow) := cs.filterMap fun c => (s.flow c).bind fun f =>
    if f.task.state == .ready && s.txRoom f.pos.trunk false then some (c, f) else none
  let place (x : Nat × Flow) : Nat × Nat × Nat := (x.2.task.rank, s.turn x.2.list, x.2.task.since)
  all.foldl (fun (best : Option (Nat × Flow)) x =>
    match best with
    | none => some x
    | some b => if planBefore (place x) (place b) then some x else best) none

/-- A plan entry goes to an engine. -/
def State.handEntry (s : State) (t : Fin 16) (x : PlanEntry) (e : Fin 16) : State :=
  match s.flow x.ctx with
  | none => s
  | some f =>
    let s := { s with
      planq := vmod s.planq t.val fun q => q.filter (· != x)
      engines := vmod s.engines e.val fun g =>
        { g with sched := some (x.ctx, x), schedAt := s.time.cclk, lastAccept := some s.time.cclk } }
    let s := (s.modTask x.ctx fun k => { k with state := .inHand }).accessDom (engineDomain e)
    s.countDecision.recordFlow x.ctx f ((x.reason.getD .send).code) e.val false false

/-- Reorder entries in use: those of unscheduled domains, and one for each course of a scheduled domain that has an unreleased final
completion (R223, R250). -/
def State.ordInUse (s : State) : Nat :=
  let sched := (s.schedDomains.map fun d =>
    let cs := (s.domain d.1 d.2).filterMap fun y => if y.2.2.fin.isSome then y.2.2.course else none
    (cs.foldl (fun (l : List Nat) c => if l.contains c then l else c :: l) []).length).sum
  sched + s.ordUse

/-- The transfer that a dispatched task works on takes a reorder entry (R223, R241). -/
def State.takeOrder (s : State) (ctx : Nat) (f : Flow) (piece : Option Piece) : State :=
  match f.nextWork piece with
  | none => s
  | some x =>
    if x.inProgress || x.reordered || s.headOfDomain f x then s
    else
      let s := s.modXfer ctx x.idx fun y => { y with reordered := true }
      let s := s.setFld .DSP_ORD_HWM_HWM (max (s.fld .DSP_ORD_HWM_HWM) s.ordInUse)
      if s.ordDomain f.inst f.dom ≥ s.ordLimit then s.happen .DSP_EVENT_ORD_LIMIT_HIT srcDsp else s

/-- A task of a priority list goes to an engine, stamped with its build course (R232, R235, R236). -/
def State.handTask (s : State) (ctx : Nat) (f : Flow) (e : Fin 16) : State :=
  let piece := s.nextPiece ctx f
  let reason := match piece with
    | some p => p.reason
    | none => if f.par.ty == FlowType.control then Reason.setup else Reason.bulk
  let c := (s.buildCourse f piece).getD s.course.count.toNat
  let s := s.takeOrder ctx f piece
  let s := { s with
    dispLast := f.list
    engines := vmod s.engines e.val fun g => { g with unsched := some ctx, unschedAt := s.time.cclk, lastAccept := some s.time.cclk } }
  let aged := f.task.aged
  let s := match piece with
    | some p => { s with plan := { s.plan with uses := s.plan.uses ++ [(⟨ctx, c, f.pos, f.inst, f.par.ty.bulk, p.down, p.up⟩ : AreaUse)] } }
    | none => s
  let s := (s.modTask ctx fun k => { k with state := .inHand, aged := false }).accessDom (engineDomain e)
  let s := s.countDecision.recordFlow ctx f reason.code e.val false aged
  if aged then s.happen .DSP_EVENT_AGED srcDsp else s

/-- One decision (R235): a resolved plan entry if an engine can accept it, else the best task of the priority lists as they stood. -/
def State.decision (s : State) (cs : List Nat) : State :=
  match (s.nextEntry).bind fun x => (s.engineFor true).map fun e => (x, e) with
  | some (x, e) => s.handEntry x.1 x.2 e
  | none =>
    match (s.nextTask cs).bind fun x => (s.engineFor false).map fun e => (x, e) with
    | some (x, e) => s.handTask x.1 x.2 e
    | none => s

/-- A task has been READY on its list for more than AGE courses (R236). -/
def execTaskAged (ctx : Nat) (s : State) : Res :=
  .next <|
    let age := s.fld .DSP_CFG_AGE
    match s.flow ctx with
    | some f =>
      if age ≠ 0 && !f.par.ty.scheduled && f.task.state == .ready && decide (f.task.readyCourse + age < s.course.count.toNat) then
        s.modTask ctx fun t => { t with aged := true }
      else s
    | none => s

/-! Firmware tasks. -/

/-- Firmware task `n` by its task number; one that is not listed is IDLE, with mask 0 (R227, R230). -/
def State.fwTask (s : State) (n : Nat) : Task := (kget s.fwTasks n).getD Task.init

/-- Change a firmware task. -/
def State.modFw (s : State) (n : Nat) (g : Task → Task) : State := { s with fwTasks := kput Task.init s.fwTasks n (g (s.fwTask n)) }

/-- The firmware task that is served next: highest priority, first in, first out (R234, R235). -/
def State.nextFw (s : State) : Option (Nat × Task) :=
  (s.fwTasks.filter fun e => e.2.state == .ready).foldl (fun (best : Option (Nat × Task)) x =>
    match best with
    | none => some x
    | some b => if planBefore (x.2.prio, x.2.since, x.1) (b.2.prio, b.2.since, b.1) then some x else best) none

/-- A trace record about a firmware task. -/
def State.recordFw (s : State) (n prio reason engine : Nat) (lost : Bool) : State :=
  s.record ⟨n, 0x190 + prio, reason, engine, lost, false, 0, none, 4⟩

/-- A trace record about a firmware task's cancel, where events are traced (R246). -/
def State.recordCancelFw (s : State) (n : Nat) (t : Task) (lost : Bool) : State :=
  if s.flag .TRC_CTRL_EVENTS then s.recordFw n t.prio 0x11 0x1F lost else s

/-- An idle core gets the best READY firmware task (R235). -/
def execFirmwareTaskDispatch (core : Fin 4) (s : State) : Res :=
  .next <|
    let c := s.gutter.cores[core]
    if c.task.isNone && !c.sleep && s.busy then
      match s.nextFw with
      | some (n, t) =>
        let s := s.modCore core.val fun c => { c with task := some n }
        let s := s.modFw n fun t => { t with state := .inHand }
        s.recordFw n t.prio 0x0A (0x10 + core.val) false
      | none => s
    else s

/-- A core returns its firmware task (R228, R237); a cancel that waited takes effect (R243). -/
def execFirmwareTaskReturn (core : Fin 4) (s : State) : Res :=
  .next <|
    match s.gutter.cores[core].task with
    | none => s
    | some n =>
      let s := s.modCore core.val fun c => { c with task := none }
      let t := s.fwTask n
      if t.cancelPending then (s.modFw n Task.idled).recordCancelFw n t false else s.modFw n fun t => { t with state := .waiting }

/-! Delays. -/

/-- The current tick of 128 ns. -/
def State.tickNow (s : State) : Nat := s.time.bus.toNat / 128

/-- What an arm leaves of a deadline (R238, R239): none when it has passed; held below the horizon. How long the insertion takes is not stated: it
is free within 32 CCLK (assumption 15). -/
def State.armed (s : State) (d : Nat) : Option Nat × State :=
  let now := s.tickNow
  if d ≤ now then (none, s)
  else
    let (w, s) := s.freeWord
    let s := s.setFld .DSP_DELAY_STAT_INS_MAX (max (s.fld .DSP_DELAY_STAT_INS_MAX) (w.toNat % 33))
    if d ≥ now + 2 ^ 32 then
      (some (now + 2 ^ 32 - 1), (s.addSat .DSP_DELAY_STAT_CLAMPS 1).happen .DSP_EVENT_HORIZON_CLAMP srcDsp)
    else (some d, s)

/-- Arms the delay of a flow's task (R238). -/
def State.armDelay (s : State) (ctx d : Nat) : State :=
  let (x, s) := s.armed d
  s.modTask ctx fun t => { t with delay := x }

/-- A task's delay list, and its task number (R238): one list for the flow tasks of each trunk, one for the firmware tasks. -/
def State.armedOn (s : State) : List (Nat × Nat × Nat) :=
  (s.flows.filterMap fun e => e.2.task.delay.map fun d => (d, e.2.pos.trunk.val, e.1)) ++
    s.fwTasks.filterMap fun e => e.2.delay.map fun d => (d, 16, e.1)

/-- The armed delay of a task expires: TIME sets (R239, R246). -/
def State.expireDelay (s : State) (n : Nat) : State :=
  match s.flow n with
  | some f =>
    let s := s.modTask n fun t => { t with delay := none }
    if s.flag .TRC_CTRL_EVENTS then s.recordFlow n f 0x10 0x1F false false else s
  | none =>
    let t := s.fwTask n
    let s := s.modFw n fun t => { t with delay := none, flags := t.flags ||| 0x10 }
    if s.flag .TRC_CTRL_EVENTS then s.recordFw n t.prio 0x10 0x1F false else s

/-- A task's deadline comes (R239): the entries of a list expire in deadline order. -/
def execDelayExpiry (ctx : Nat) (s : State) : Res :=
  .next <|
    let l := s.armedOn
    match l.find? fun x => x.2.2 == ctx with
    | some x => if x.1 ≤ s.tickNow && l.all (fun y => y.2.1 != x.2.1 || decide (x.1 ≤ y.1)) then s.expireDelay ctx else s
    | none => s

/-- After bus time is rebuilt, every entry whose deadline has passed expires at once, in deadline order (R240). -/
def State.expireDue (s : State) : State :=
  (sortBy (·.1) (s.armedOn.filter fun x => decide (x.1 ≤ s.tickNow))).foldl (fun (s : State) x => s.expireDelay x.2.2) s

/-! Cancels. -/

/-- A ready event that comes with a cancel is discarded and counted (R244). -/
def State.lostReady (s : State) (lost : Bool) : State :=
  if lost then (s.addSat .DSP_LOST_READY_CNT_COUNT 1).happen .DSP_EVENT_LOST_READY srcDsp else s

/-- A cancel takes effect: the task goes to IDLE (R243, R244). -/
def State.applyCancel (s : State) (ctx : Nat) (f : Flow) (lost : Bool) : State :=
  let s := (s.modTask ctx Task.idled).lostReady lost
  if s.flag .TRC_CTRL_EVENTS then s.recordFlow ctx f 0x11 0x1F lost false else s

/-- A flow's task is cancelled (R243, R244): in hand, or with a descriptor in progress, the cancel waits; a ready event that comes with it is
lost. -/
def State.cancelTask (s : State) (ctx : Nat) : State :=
  match s.flow ctx with
  | none => s
  | some f =>
    let t := f.task
    if t.state == .idle then s
    else if t.state == .inHand || f.xfers.any (f.inWork ·) then s.modTask ctx fun t => { t with cancelPending := true }
    else s.applyCancel ctx f (t.state == .waiting && t.isReady (s.flagsOf ctx f))

/-- A cancel that waited takes effect as its task returns, or as its descriptor in progress ends (R243); a return that would have made the task
ready is a lost ready event (R244). -/
def State.cancelDue (s : State) (ctx : Nat) : State :=
  match s.flow ctx with
  | none => s
  | some f =>
    let t := f.task
    if t.cancelPending && t.state != .inHand && !f.xfers.any (f.inWork ·) then
      s.applyCancel ctx f (t.state != .ready && t.isReady (s.flagsOf ctx f))
    else s

/-- Firmware's work on one of its tasks (R228–R231, R238, R243). -/
def State.fwOp (s : State) (op : FwOp) : State :=
  match op with
  | .enable n p => s.modFw (8192 + n.val) fun t =>
    if t.state == .idle then { t with state := .waiting, flags := 0x10, prio := p.val } else { t with prio := p.val }
  | .mask n m => s.modFw (8192 + n.val) fun t => { t with mask := m }
  | .flags n set clear => s.modFw (8192 + n.val) fun t =>
    if t.state == .idle then t else { t with flags := (t.flags &&& ~~~(clear &&& 0x6F)) ||| (set &&& 0x6F) }
  | .bell n i => s.modFw (8192 + n.val) fun t => { t with bell := i.map (·.val) }
  | .answered n => s.modFw (8192 + n.val) fun t => { t with flags := t.flags &&& 0x7F }
  | .arm n d =>
    let (x, s) := s.armed d
    s.modFw (8192 + n.val) fun t =>
      if t.state == .idle then t else { t with delay := x, flags := if x.isSome then t.flags &&& 0xEF else t.flags ||| 0x10 }
  | .cancel n =>
    let k := 8192 + n.val
    let t := s.fwTask k
    if t.state == .idle then s
    else if t.state == .inHand then s.modFw k fun t => { t with cancelPending := true }
    else
      let lost := t.state == .waiting && t.isReady t.flags
      ((s.modFw k Task.idled).lostReady lost).recordCancelFw k t lost

/-- One cycle of the dispatcher (R231): what firmware does to its tasks and the cancels that take effect, then readiness, and up to two decisions
from the lists as they stood at its start. -/
def execDispatchDecision (s : State) (fw : List FwOp := []) : Res :=
  .next <|
    if s.busy && s.pmu.doms[4] == .on then
      let cs := (s.flows.filter fun e => !e.2.par.ty.scheduled && e.2.task.state == .ready).map (·.1)
      let s := if s.fwReady then fw.foldl State.fwOp s else s
      let s := (s.ctxs fun f => f.task.cancelPending).foldl State.cancelDue s
      ((s.decision cs).decision cs).dropMalformed.evaluate
    else s

/-! The trace buffer. -/

/-- A read of TRC_BUF_LO (R251): the oldest record leaves the buffer, and its other bits are latched. -/
def State.trcRead (s : State) : Reg32 × State :=
  let keep (s : State) (mid hi : Nat) : State :=
    { s with latch := kset (kset s.latch (Reg.key .TRC_BUF_MID 0 0) (BitVec.ofNat 32 mid)) (Reg.key .TRC_BUF_HI 0 0) (BitVec.ofNat 32 hi) }
  match s.trace with
  | [] => (0, keep s 0 (2 ^ 31))
  | x :: xs =>
    (BitVec.ofNat 32 (wbits x.w0 31 0),
      keep { s with trace := xs } (wbits x.w0 35 32 + wbits x.w1 27 0 * 16) (wbits x.w1 35 28))

/-- See `State.trcRead`. -/
def execTrcBufRead (s : State) : Res :=
  let x := if s.underReset .TRC_BUF_LO then (0xFFFFFFFF, s) else s.trcRead
  .next (x.2.emit (.reply (leBytes 4 x.1.toNat)))

end Sys2Proof.Machine
end

