-- ==== Sys2Proof/Machine/Pace.lean ====
section
/-!
DEFINITION. Encoder inputs and pace estimators (R180–R187, R197–R201), samples of bus pace sources (R183, R184), the ridge's records on a member
(R185, R372).
-/

namespace Sys2Proof.Machine

/-- Gutter source of an estimator's pace events (R346). -/
def paceSrc (e : Nat) : Nat := 8 + e

/-- A pace event: its bit, the estimator's source and an event entry (R200, R312). -/
def State.paceEvent (s : State) (e : Fin 8) (f : Fld) : State :=
  let s := s.happen f (paceSrc e.val) e.val
  s.event 0 evPace e.val (leBytes 4 (s.reg .TAPU_PACE_EVENT e.val).toNat)

/-- Change an estimator. -/
def State.modEst (s : State) (e : Fin 8) (f : Estimator → Estimator) : State := { s with ests := vmod s.ests e.val f }

/-- KIND and SRC of an estimator, and whether it is on (R200). -/
def State.paceKind (s : State) (e : Fin 8) : Nat := s.fld .TAPU_PACE_CFG_KIND e.val
def State.paceOf (s : State) (e : Fin 8) : Nat := s.fld .TAPU_PACE_CFG_SRC e.val

/-- The estimators of a kind that follow a source, those in OFF left out. -/
def State.readers (s : State) (kind src : Nat) : List (Fin 8) :=
  (List.finRange 8).filter fun e => s.paceKind e == kind && s.paceOf e == src && s.ests[e].state != .off

/-! The fit (R186). -/

/-- Length of the fit window, ns. -/
def State.fitWindow (s : State) (e : Fin 8) : Nat := 2 ^ min 10 (s.effFld .TAPU_PACE_CFG_WIN e.val) * s.periodNs

/-- Edges of a list, newest first, that lie within a window before the newest. -/
def inWindow (win : Nat) (es : List (Int × BitVec 64)) : List (Int × BitVec 64) :=
  match es with
  | [] => []
  | x :: _ => es.filter fun y => decide ((x.2 - y.2).toNat ≤ win)

/-- The edges that a fit uses: those in the window, and at least the three most recent. -/
def fitEdges (win : Nat) (es : List (Int × BitVec 64)) : List (Int × BitVec 64) :=
  let w := inWindow win es
  if w.length < 3 then es.take 3 else w

/-- Rate and acceleration of the quadratic of least squared error through the first edge of a list. -/
def fitQuad (es : List (Int × BitVec 64)) : Rat × Rat :=
  match es with
  | [] => (0, 0)
  | x :: xs =>
    let pts : List (Rat × Rat × Rat) := xs.map fun y =>
      let t : Rat := -(secs (x.2 - y.2).toNat)
      (t, t * t / 2, ((y.1 - x.1 : Int) : Rat))
    let dot (f g : Rat × Rat × Rat → Rat) : Rat := pts.foldl (fun (a : Rat) p => a + f p * g p) 0
    let saa := dot (·.1) (·.1)
    let sab := dot (·.1) (·.2.1)
    let sbb := dot (·.2.1) (·.2.1)
    let say := dot (·.1) (·.2.2)
    let sby := dot (·.2.1) (·.2.2)
    let det := saa * sbb - sab * sab
    if det != 0 then ((say * sbb - sby * sab) / det, (sby * saa - say * sab) / det)
    else if saa != 0 then (say / saa, 0)
    else (0, 0)

/-- A value held within ±b. -/
def clampRat (b v : Rat) : Rat := if v > b then b else if v < -b then -b else v

/-- The magnitude of a value. -/
def absRat (v : Rat) : Rat := if v < 0 then -v else v

/-- Rate, acceleration and error bounds from the edges held (R186), with ε_s in seconds. -/
def Estimator.refit (x : Estimator) (win amax : Nat) (eps : Rat) : Estimator :=
  let es := fitEdges win x.edges
  let (w, a) := fitQuad es
  let span := match es, es.getLast? with | y :: _, some z => secs (y.2 - z.2).toNat | _, _ => 0
  let am : Rat := (amax : Rat)
  let err := 2 * eps * absRat w
  { x with edges := es, omega := w, alpha := clampRat am a, dTheta := eps * absRat w
           dOmega := (if span = 0 then 0 else err / span) + am * span }

/-- The prediction's bound ε_θ at `ns` after the anchor (R196). -/
def Estimator.epsTheta (x : Estimator) (amax ns : Nat) : Rat :=
  let h := secs ns
  x.dTheta + x.dOmega * h + (amax : Rat) * h * h

/-! Releases that an edge confirms or voids (R197). -/

/-- Settles the releases committed since the previous anchor: confirmed, voided, or, with no prediction to check, left out. -/
def State.settleReleases (s : State) (e : Fin 8) (held exceeded : Bool) : State :=
  s.mapFlows fun f =>
    if f.par.est == e && !f.unconfirmed.isEmpty then
      let n := f.unconfirmed.length
      let c := f.counts
      let c := if !held then c
        else if exceeded then { c with angleVoid := c.angleVoid + n }
        else { c with angleErrMax := f.unconfirmed.foldl (fun (a : Nat) x => max a x) c.angleErrMax }
      { f with counts := c, unconfirmed := [] }
    else f

/-! An edge. -/

/-- A new edge or sample at a position and stamp re-anchors an estimator that counts (R186, R187, R197). `index`: it waits for no index edge. -/
def State.estEdge (s : State) (e : Fin 8) (pos : Int) (stamp : BitVec 64) (eps : Rat) : State :=
  let x := s.ests[e]
  let amax := s.amax e
  let win := s.fitWindow e
  let tracking := x.state == .tracking
  let ns := (stamp - x.stamp).toNat
  let off : Rat := (pos : Rat) - x.predict (2 * ns)
  let exceeded := tracking && decide (x.epsTheta amax ns < absRat off)
  let s := s.settleReleases e tracking exceeded
  let back := tracking && decide (pos < x.pos)
  let turned := back && !x.reversing
  let reversing := (x.reversing || back) && decide (pos ≤ (if turned then x.pos else x.highest))
  let y : Estimator := { x with
    pos := pos, stamp := stamp, edges := (pos, stamp) :: x.edges, quiet := 0, reversing := reversing
    highest := if turned then x.pos else x.highest }
  let placed := s.paceKind e != 0 || !s.flag .TAPU_PACE_CFG_INDEX_EN e.val || x.indexSeen
  let starts := x.state == .acquiring && placed && decide ((inWindow win y.edges).length ≥ 3)
  let y : Estimator := y.refit win amax eps
  let y : Estimator := if starts then { y with state := .tracking, stopped := false } else y
  let rmax := s.fld .TAPU_PACE_RMAX_RMAX e.val
  let fast := y.state == .tracking && rmax != 0 && decide ((rmax : Rat) < y.omega)
  let s := s.modEst e fun _ => { y with overrate := fast }
  let s := if starts then s.paceEvent e .TAPU_PACE_EVENT_STARTED else s
  let s := if turned then s.paceEvent e .TAPU_PACE_EVENT_REVERSED else s
  let s := if exceeded then s.paceEvent e .TAPU_PACE_EVENT_ACCEL_EXCEEDED else s
  if fast && !x.overrate then s.paceEvent e .TAPU_PACE_EVENT_OVERRATE else s

/-- ε_s of an encoder input, s (R180). -/
def encoderEps : Rat := 4 / 1000000000

/-- An estimator goes to LOST, its position frozen (R187). -/
def State.loseEst (s : State) (e : Fin 8) (f : Fld) : State :=
  let s := s.settleReleases e false false
  (s.modEst e fun x => { x with state := .lost, omega := 0, alpha := 0, edges := [] }).paceEvent e f

/-- An estimator starts to acquire from nothing: position 0, or none while it waits for its index (R182, R187). -/
def Estimator.started : Estimator := { Estimator.init with state := .acquiring }

/-- EN in force carries out its part of R187: a set EN takes an estimator out of OFF, a cleared one into it. -/
def State.applyPace (s : State) (e : Fin 8) : State :=
  let on := s.effFld .TAPU_PACE_CFG_EN e.val == 1
  let x := s.ests[e]
  if on && x.state == .off then s.modEst e fun _ => Estimator.started
  else if !on && x.state != .off then (s.settleReleases e false false).modEst e fun _ => Estimator.init
  else s

/-- Write of TAPU_PACE_CFG (R187, R200, R475). -/
def State.paceCfgWrite (s : State) (e : Fin 8) (v : Reg32) : State := (s.writeFields .TAPU_PACE_CFG 0 e.val v).applyPace e

/-- See `State.paceCfgWrite`. -/
def execEstimatorEnable (e : Fin 8) (v : Reg32) (s : State) : Res := .next (s.paceCfgWrite e v)

/-! Encoder inputs. -/

/-- A step of the quadrature sequence in which A leads B (R180). -/
def leadsA (a b a' b' : Bool) : Bool :=
  match a, b with
  | false, false => a'
  | true, false => b'
  | true, true => !a'
  | false, true => !b'

/-- A quadrature error of an input (R181). -/
def State.quadError (s : State) (n : Fin 8) : State :=
  let s := s.addSat .TAPU_ENC_ERR_QUAD_ERRS 1 n.val
  (s.readers 0 n.val).foldl (fun (s : State) e => s.loseEst e .TAPU_PACE_EVENT_QUAD_ERR) s

/-- The position congruent to `ofs` modulo `cpr` that lies nearest; of two equally near the lower (R182). -/
def nearestIndex (pos : Int) (ofs cpr : Nat) : Int :=
  let m : Int := (cpr : Int)
  let d := (((ofs : Int) - pos) % m + m) % m
  if 2 * d < m then pos + d else pos + d - m

/-- The third edge in the window, with the position set, takes an estimator to TRACKING (R187). -/
def State.indexStarts (s : State) (e : Fin 8) : State :=
  let x := s.ests[e]
  if x.state == .acquiring && decide ((inWindow (s.fitWindow e) x.edges).length ≥ 3) then
    (s.modEst e fun x => { x with state := .tracking, stopped := false }).paceEvent e .TAPU_PACE_EVENT_STARTED
  else s

/-- An index edge for one estimator (R182, R187): it places the position, or checks it. -/
def State.indexFor (s : State) (e : Fin 8) : State × Bool :=
  let x := s.ests[e]
  if !s.flag .TAPU_PACE_CFG_INDEX_EN e.val then (s, false)
  else
    let cpr := s.cpr e
    let ofs := s.fld .TAPU_PACE_IDX_OFS_OFS e.val % cpr
    let p := nearestIndex x.pos ofs cpr
    if x.state == .lost then
      (s.modEst e fun x => { Estimator.started with pos := p, stamp := x.stamp, indexSeen := true }, false)
    else if !x.indexSeen then
      let d := p - x.pos
      ((s.modEst e fun x => { x with pos := p, indexSeen := true, edges := x.edges.map fun y => (y.1 + d, y.2) }).indexStarts e, false)
    else if p = x.pos then (s, false)
    else (s.paceEvent e .TAPU_PACE_EVENT_INDEX_ERR, true)

/-- A counted edge or an index edge reaches the estimators that follow its input (R180, R182, R186). -/
def State.edgeFor (s : State) (x : LateEdge) : State :=
  match x.up with
  | some up =>
    (s.readers 0 x.input.val).foldl (fun (s : State) e =>
      let y := s.ests[e]
      if y.state == .lost then s
      else
        let fwd := up != s.flag .TAPU_PACE_CFG_REVERSE_DIR e.val
        s.estEdge e (if fwd then y.pos + 1 else y.pos - 1) x.stamp encoderEps) s
  | none =>
    let y := (s.readers 0 x.input.val).foldl
      (fun (a : State × Bool) e => let y := a.1.indexFor e; (y.1, a.2 || y.2)) (s, false)
    if y.2 then y.1.addSat .TAPU_ENC_ERR_INDEX_ERRS 1 x.input.val else y.1

/-- An edge waits if its stamp lies in or after the CCLK of the next commit point, or if an edge before it waits (R188, R199). -/
def State.takeEdge (s : State) (x : LateEdge) : State :=
  let next := s.startOf (s.course.count.toNat + 1)
  if s.course.running && (!s.edgesLate.isEmpty || decide (next.toNat ≤ x.stamp.toNat)) then { s with edgesLate := s.edgesLate ++ [x] }
  else s.edgeFor x

/-- The edges that waited are taken, those after the next commit point left out. -/
def State.lateEdges (s : State) : State :=
  s.edgesLate.foldl (fun (s : State) x => s.takeEdge x) { s with edgesLate := [] }

/-- Shortest time that a level of an input must be held, ns (R181, R200). FILT is that of the lowest-numbered estimator set to the input, or its
reset value (DESIGN CHOICE, assumption 72). -/
def State.filtNs (s : State) (n : Fin 8) : Nat :=
  8 * min 10 (match (List.finRange 8).find? (fun e => s.paceKind e == 0 && s.paceOf e == n.val) with
    | some e => s.fld .TAPU_PACE_CFG_FILT e.val
    | none => 2)

/-- The pins A and B of an encoder input take levels that are then held for `hold` ns (R180, R181): the glitch filter ignores a shorter one. While
PD_TIME does not run nothing is counted (R397). -/
def execEncoderEdge (n : Fin 8) (a b : Bool) (stamp : BusTime) (s : State) (hold : Nat := 80) : Res :=
  .next <|
    let x := s.encs[n]
    if (x.a == a && x.b == b) || decide (hold < s.filtNs n) then s
    else if s.pmu.doms[10] != .on then ({ s with encs := vmod s.encs n.val fun x => { x with a := a, b := b } }).lostPulse
    else if x.a != a && x.b != b then
      ({ s with encs := vmod s.encs n.val fun x => { x with a := a, b := b } }).quadError n
    else
      let up := leadsA x.a x.b a b
      let s := { s with encs := vmod s.encs n.val fun x =>
        { x with a := a, b := b, up := up, count := if up then x.count + 1 else x.count - 1 } }
      s.takeEdge ⟨n, some up, stamp⟩

/-- An index edge of an input, its level held for `hold` ns (R181, R182). -/
def execIndexEdge (n : Fin 8) (stamp : BusTime) (s : State) (hold : Nat := 80) : Res :=
  .next (if hold < s.filtNs n then s else if s.pmu.doms[10] != .on then s.lostPulse else s.takeEdge ⟨n, none, stamp⟩)

/-! Bus sources (R183, R184). -/

/-- ε_s of a bus source at a place, s: its node's bound of R137 and 2 ns. -/
def State.sampleEps (s : State) (d : Pos) : Rat :=
  (41 + 7 * (d.path.length : Rat) + (if s.gang.role == .member then 10 else 0)) / 10000000000

/-- A sample of a bus source is missing (R184). -/
def State.sampleMissing (s : State) (src : Nat) : State :=
  (s.readers 1 src).foldl (fun (s : State) e => s.modEst e fun x => { x with missing := x.missing + 1 }) s

/-- A bus source's sample arrives (R183, R184, R187). -/
def State.paceSample (s : State) (src : Nat) (d : Pos) (ws : List Word) : State :=
  let w1 := (ws[1]?).getD 0
  if !w1.getLsbD 32 then s.sampleMissing src
  else
    let stamp := BitVec.ofInt 64 (fullTime ((ws[0]?).getD 0) s.time.bus.toNat)
    let pos : Int := (w1.setWidth 32).toInt
    (s.readers 1 src).foldl (fun (s : State) e =>
      let x := s.ests[e]
      let s := s.modEst e fun x => { x with missing := 0 }
      if x.state == .lost then s.modEst e fun _ => { Estimator.started with pos := pos, stamp := stamp, edges := [(pos, stamp)] }
      else if x.stamp == stamp && !x.edges.isEmpty then s
      else s.estEdge e pos stamp (s.sampleEps d)) s

/-- Consecutive courses without an intact record of the ridge estimator that an estimator of KIND 0b10 follows (R372). -/
def State.recordGone (s : State) (e : Fin 8) : Nat := s.gang.recordMiss[Fin.ofNat 8 (s.paceOf e)]

/-- Two consecutive missing samples, or courses without the ridge's record (R184, R372). -/
def execSourceLost (e : Fin 8) (s : State) : Res :=
  .next <|
    let x := s.ests[e]
    let gone := (s.paceKind e == 1 && decide (x.missing ≥ 2)) || (s.paceKind e == 2 && decide (s.recordGone e ≥ 2))
    if gone && x.state != .off && x.state != .lost then s.loseEst e .TAPU_PACE_EVENT_SOURCE_LOST else s

/-- No edge for STOP_CYC plan cycles (R187). -/
def execEstimatorStopped (e : Fin 8) (s : State) : Res :=
  .next <|
    let x := s.ests[e]
    if x.state == .tracking && decide (x.quiet ≥ max 1 (s.effFld .TAPU_PACE_CFG_STOP_CYC e.val)) then
      (s.modEst e fun x => { x with state := .acquiring, stopped := true, omega := 0, alpha := 0, edges := [] }).paceEvent e
        .TAPU_PACE_EVENT_STOPPED
    else s

/-! Figures as registers and records show them (R200, R370). -/

/-- The nearest whole number. -/
def nearest (v : Rat) : Int := (v + 1 / 2).floor

/-- A value in `w` bits, unsigned and saturating. -/
def satNat (w : Nat) (v : Int) : Nat := if v < 0 then 0 else min v.toNat (2 ^ w - 1)

/-- TAPU_PACE_RATE, TAPU_PACE_ACCEL and TAPU_PACE_ERR. -/
def Estimator.rateReg (x : Estimator) : Nat := sat32 (nearest (x.omega * 16))
def Estimator.accelReg (x : Estimator) : Nat := sat32 (nearest x.alpha)
def Estimator.errReg (x : Estimator) : Nat :=
  satNat 16 (nearest (x.dOmega * 16)) + satNat 16 (nearest (x.dTheta * 65536)) * 65536

/-- The position that registers show: none until the index has placed it (R182). -/
def State.shownPos (s : State) (e : Fin 8) : BitVec 48 :=
  let x := s.ests[e]
  if s.flag .TAPU_PACE_CFG_INDEX_EN e.val && !x.indexSeen && s.paceKind e == 0 then 0 else BitVec.ofInt 48 x.pos

/-- Codes of estimator states. -/
def EstState.code : EstState → Nat
  | .off => 0 | .acquiring => 1 | .tracking => 2 | .lost => 3

/-- TAPU_PACE_STATUS (R200). -/
def State.paceStatus (s : State) (e : Fin 8) : Nat :=
  let x := s.ests[e]
  x.state.code + x.stopped.toNat * 4 + x.reversing.toNat * 8 + x.indexSeen.toNat * 16 +
    min 255 (inWindow (s.fitWindow e) x.edges).length * 256

/-- The seven words of an estimator in the pace record (R370). -/
def State.recordWords (s : State) (e : Fin 8) : List Word :=
  let x := s.ests[e]
  if x.state == .off then List.replicate 7 0
  else
    let p := s.shownPos e
    [BitVec.ofNat 36 (p.toNat % 2 ^ 36), BitVec.ofNat 36 (x.stamp.toNat % 2 ^ 36), BitVec.ofNat 36 x.rateReg, BitVec.ofNat 36 x.accelReg,
      BitVec.ofNat 36 (x.errReg + x.state.code * 2 ^ 32 + x.stopped.toNat * 2 ^ 34 + x.reversing.toNat * 2 ^ 35),
      BitVec.ofNat 36 (p.toNat / 2 ^ 36 + s.fld .TAPU_PACE_CPR_CPR e.val * 2 ^ 12), BitVec.ofNat 36 (s.amax e)]

/-- A signed field of a word. -/
def signedBits (v w : Nat) : Int := (BitVec.ofNat w v).toInt

/-- A member's estimator as the ridge's record gives it (R185, R372). -/
def State.fromRecord (s : State) (e : Fin 8) (ws : List Word) : Estimator :=
  let x := s.ests[e]
  let w (k : Nat) : Word := (ws[k]?).getD 0
  let code := wbits (w 4) 33 32
  let pos : Int := signedBits ((w 0).toNat + wbits (w 5) 11 0 * 2 ^ 36) 48
  let err := wbits (w 4) 31 0
  { x with
    state := if code = 1 then .acquiring else if code = 2 then .tracking else if code = 3 then .lost else .acquiring
    pos := pos, stamp := BitVec.ofInt 64 (fullTime (w 1) s.time.bus.toNat), edges := []
    omega := (signedBits (wbits (w 2) 31 0) 32 : Rat) / 16, alpha := (signedBits (wbits (w 3) 31 0) 32 : Rat)
    dTheta := ((err / 65536 : Nat) : Rat) / 65536, dOmega := ((err % 65536 : Nat) : Rat) / 16
    stopped := (w 4).getLsbD 34, reversing := (w 4).getLsbD 35, indexSeen := true, quiet := 0 }

/-- At a commit point, the estimators that follow the ridge take its latest record (R372); an edge that came with it settles the releases
of the one before (R197). -/
def State.takeRecords (s : State) : State :=
  (List.finRange 8).foldl (fun (s : State) e =>
    let x := s.ests[e]
    match s.ridgeEntry e with
    | some ws =>
      if x.state == .off || decide (s.recordGone e ≥ 2) then s
      else
        let y := s.fromRecord e ws
        let moved := x.state == .tracking && y.stamp != x.stamp
        let ns := (y.stamp - x.stamp).toNat
        let exceeded := moved && decide (x.epsTheta (s.amax e) ns < absRat ((y.pos : Rat) - x.predict (2 * ns)))
        let s := if moved then s.settleReleases e true exceeded else s
        let rmax := s.fld .TAPU_PACE_RMAX_RMAX e.val
        let fast := y.state == .tracking && rmax != 0 && decide ((rmax : Rat) < y.omega)
        let s := s.modEst e fun _ => { y with overrate := fast }
        let s := if fast && !x.overrate then s.paceEvent e .TAPU_PACE_EVENT_OVERRATE else s
        let s := if y.stopped && !x.stopped then s.paceEvent e .TAPU_PACE_EVENT_STOPPED else s
        let s := if exceeded then s.paceEvent e .TAPU_PACE_EVENT_ACCEL_EXCEEDED else s
        let s := if y.state == .tracking && x.state != .tracking then s.paceEvent e .TAPU_PACE_EVENT_STARTED else s
        if y.reversing && !x.reversing then s.paceEvent e .TAPU_PACE_EVENT_REVERSED else s
    | none => s) s

end Sys2Proof.Machine
end

