-- ==== Sys2Proof/Machine/Hub.lean ====
section
/-!
DEFINITION. What firmware does on a hub's status-change report (R94, R95, R104–R106): it reads each reporting port's status word and errors, acts
on it, and clears the change bits.
-/

namespace Sys2Proof.Machine

/-- Firmware sends a request to a device at an address. -/
def State.firmwareSends (s : State) (addr : BitVec 12) (q : Setup) (data : List Word := []) : State := s.emit (.control addr q data)

/-- Change bits that a port's word carries. -/
def Port.changed (x : Port) (bit : BitVec 6) : Bool := x.change &&& bit != 0

/-- Firmware adds a hub's counts of a port to the link's ledger (R104). -/
def Port.takeErrors (x : Port) : Port :=
  let add (v : BitVec 32) (n : BitVec 32) : BitVec 32 := BitVec.ofNat 32 (min (v.toNat + n.toNat) 0xFFFFFFFF)
  { x with
    window := { x.window with blk := x.window.blk + x.errs.blk.toNat, crc := x.window.crc + x.errs.crc.toNat }
    ledger := { x.ledger with blk := add x.ledger.blk x.errs.blk, crc := add x.ledger.crc x.errs.crc }
    errs := PortErrors.init }

/-- A hub reports that a port has changed (R94, R95, R105): a detach or a power fault ends the subtree, a link failure ends what was in
progress, also where the link then failed to train, and the change bits are cleared. Enumeration follows by itself. -/
def State.hubPortReport (s : State) (h : Pos) (addr : BitVec 12) (q : Fin 16) : State :=
  let p := PortRef.hub h q
  match s.port p with
  | none => s
  | some x =>
    if x.change = 0 then s
    else
      let s := s.firmwareSends addr (mkSetup true 1 1 0 q.val 1)
      let gone : Bool := x.changed chgDetach || (x.changed chgFault && x.cause == .power)
      let s := if gone then s.endSubtree p else s
      let s := if x.changed chgLink && !gone then
          let s := (s.failSubtree p).error catLink 0x01 blkTrk .normal (linkDetail p)
          (s.raise (16 + h.trunk.val)).linkEvent p 0x40 0
        else s
      let s := (List.range 6).foldl (fun (s : State) i =>
        if x.change.getLsbD i then s.firmwareSends addr (mkSetup false 1 4 (0x10 + i) q.val 0) else s) s
      (s.modPort p fun y => { y with change := y.change &&& ~~~x.change }).treeCmds h.trunk

/-- DATA of a hub's status-change endpoint (R106). -/
def State.hubReport (s : State) (h : Pos) (addr : BitVec 12) (ws : List Word) : State :=
  let w := (ws[0]?).getD 0
  (List.finRange 16).foldl (fun (s : State) q => if w.getLsbD q.val then s.hubPortReport h addr q else s) s

end Sys2Proof.Machine
end

