-- ==== Sys2Proof/Machine/Engine.lean ====
section
/-!
DEFINITION. The transfer engines (R252–R268): packets queued and sent, responses matched, failures, retries, escalation; BLOCK_ERROR and SILENCE
(R457).
-/

namespace Sys2Proof.Machine

/-! Ledgers and perturbation. -/

/-- Counts in a root link's ledger and in its threshold window (R56, R57, R264). -/
def State.ledgerCrc (s : State) (t : Fin 16) : State :=
  s.modPort (.root t) fun x =>
    { x with ledger := { x.ledger with crc := inc32 x.ledger.crc }, window := { x.window with crc := x.window.crc + 1 } }
def State.ledgerRetry (s : State) (t : Fin 16) : State :=
  s.modPort (.root t) fun x =>
    { x with ledger := { x.ledger with retry := inc32 x.ledger.retry }, window := { x.window with retry := x.window.retry + 1 } }
def State.ledgerBlk (s : State) (t : Fin 16) (n : Nat) : State :=
  s.modPort (.root t) fun x =>
    { x with
      ledger := { x.ledger with blk := BitVec.ofNat 32 (min (x.ledger.blk.toNat + n) 0xFFFFFFFF) }
      window := { x.window with blk := x.window.blk + n } }

/-- Blocks of a packet that are intact. -/
def intactBlocks (bs : List Block) : Nat := (bs.filter Block.isData).length

/-- BLOCK_ERROR (R457): of the data blocks that pass a link in the chosen direction, every N-th is in error. -/
def State.pertBlocks (s : State) (link : Nat) (transmit : Bool) (bs : List Block) : List Block × State :=
  if s.flag .PTB_BLKERR_CFG_ON && s.fld .PTB_BLKERR_CFG_LINK == link && s.flag .PTB_BLKERR_CFG_TRANSMIT == transmit then
    let n := max 1 (s.fld .PTB_BLKERR_N_N)
    let c := (kget s.ptbCount 3).getD 0
    let bad (i : Nat) : Bool := (c + i + 1) % n == 0
    let hit := ((List.range bs.length).filter bad).length
    let out := bs.zipIdx.map fun b => if bad b.2 then Block.killed b.1 else b.1
    (out, ({ s with ptbCount := kset s.ptbCount 3 (c + bs.length) }).addSat .PTB_BLKERR_CNT_COUNT hit)
  else (bs, s)

/-- SILENCE acts on an attempt (R457). -/
def State.silenced (s : State) (w : Expect) : Bool :=
  let mode := s.fld .PTB_SILENCE_MODE
  let p := s.fld .PTB_SILENCE_PERIOD
  let first : Bool := match w.reason with
    | .send | .bulk => true
    | .setup | .ctrlData | .ctrlStatus =>
      ((s.flow w.ctx).bind fun f => (f.xfer w.idx).map fun x => x.fails == 0).getD true
    | _ => false
  mode != 0 && s.fld .PTB_SILENCE_CONTEXT == w.ctx && (p == 0 || w.course % p == 0) && (mode == 2 || first)

/-- A packet goes out on a trunk from block `k` of the course on, scrambled (R34, R35), with the blocks that BLOCK_ERROR damages sent with sync
header 0b00. -/
def State.sendDown (s : State) (t : Fin 16) (k : Nat) (ws : List Word) : State :=
  let w := onWire (s.seedOf (.up (.root t))) k ws
  let (bs, s) := s.pertBlocks t.val true w.blocks
  let from_ := s.course.startMono + k * s.rootBlock t
  { s with txLine := vmod s.txLine t.val fun _ => (from_, from_ + ws.length * s.rootBlock t) }.emit (.packet (.up (.root t)) { w with blocks := bs })

/-- Block of the course in which an instant of the symbol clock lies, or the next to begin after it. -/
def State.blockFrom (s : State) (t : Fin 16) (mono : Nat) : Nat := (mono - s.course.startMono + s.rootBlock t - 1) / s.rootBlock t

/-- A handshake goes out on a trunk at the block that is due now, or after the packet that is on the line. -/
def State.sendNow (s : State) (t : Fin 16) (ws : List Word) : State :=
  let line := s.txLine[t]
  let busy := line.1 ≤ s.time.mono && s.time.mono < line.2
  s.sendDown t (if busy then s.blockFrom t line.2 else s.blockNow (.root t)) ws

/-! Queueing (R253). -/

/-- Symbol-clock time at which a slot starts (R123, R159). -/
def State.slotMono (s : State) (t : Fin 16) (course ofs : Nat) : Int := s.monoOf course + (ofs * s.rootBlock t : Nat)

/-- A packet or token takes its place in a trunk transmit queue. -/
def State.pushTx (s : State) (t : Fin 16) (e : TxEntry) : State :=
  let s := { s with txq := vmod s.txq t.val fun q => q ++ [e] }
  s.setFld .ENG_TXQ_HWM (max (s.fld .ENG_TXQ_HWM t.val) (s.txq[t]).length) t.val

/-- A task leaves an engine's hand (R228). -/
def State.returnTask (s : State) (ctx : Nat) : State :=
  (s.modTask ctx fun k => { k with state := if k.state == .inHand then .waiting else k.state }).cancelDue ctx

/-- An engine queues a plan entry's packet or token (R253); an input waits for room in the receive buffer (R13). -/
def State.returnSched (s : State) (e : Fin 16) (ctx : Nat) (x : PlanEntry) : State :=
  let clear (s : State) : State := { s with engines := vmod s.engines e.val fun g => { g with sched := none } }
  match s.flow ctx with
  | none => clear s
  | some f =>
    let t := f.pos.trunk
    let p := s.parFor f x.course
    let reason := x.reason.getD .send
    let own := reason == .send || reason == .retry
    if own && !p.ty.output && !s.rxRoom t p.words then s
    else
      let idx := ((f.entryXfer x).map (·.idx)).getD 0
      let late := decide (s.slotMono t x.course x.ofs < s.time.mono)
      let want := if own && !p.ty.output then p.words else 0
      let s := (clear s).pushTx t ⟨ctx, idx, x.course, x.slot, x.ofs, true, reason, e, late, want⟩
      let s := if own && f.service.isNone then s.modXfer ctx idx fun y => { y with inProgress := true } else s
      s.returnTask ctx

/-- The build course with which a task was stamped (R232). -/
def State.stamped (s : State) (ctx : Nat) : Nat :=
  (((s.plan.uses.filter fun u => u.ctx == ctx).getLast?).map (·.course)).getD s.course.count.toNat

/-- An engine queues an unscheduled task's next packet or token; where its unit is gone the task returns without sending (R245, R253). -/
def State.returnUnsched (s : State) (e : Fin 16) (ctx : Nat) : State :=
  let clear (s : State) : State := { s with engines := vmod s.engines e.val fun g => { g with unsched := none } }
  match s.flow ctx with
  | none => clear s
  | some f =>
    match (if s.linkFlag f && s.unheld f then s.nextPiece ctx f else none) with
    | none => (clear s).returnTask ctx
    | some p =>
      if s.inRoom f p then
        let s := (clear s).pushTx f.pos.trunk ⟨ctx, p.idx, s.stamped ctx, 0, 0, false, p.reason, e, false,
          if p.isIn then p.words else 0⟩
        (s.modXfer ctx p.idx fun y => { y with inProgress := true }).returnTask ctx
      else s

/-- ENGINE_DELAY of an engine has passed since it accepted a task (R456). -/
def State.delayPast (s : State) (e : Fin 16) (accepted : Nat) : Bool :=
  !(s.fld .PTB_ENG_DELAY_ENGINES).testBit e.val || decide (accepted + s.fld .PTB_ENG_DELAY_CCLK ≤ s.time.cclk)

/-- An engine queues what it has in hand, the plan entry first, and returns the task (R253), once its domain is ON (R400). -/
def execEngineTaskReturn (e : Fin 16) (s : State) : Res :=
  .next <|
    let g := s.engines[e]
    if s.pmu.doms[engineDomain e] != .on then s
    else match g.sched.filter fun _ => s.delayPast e g.schedAt, g.unsched.filter fun _ => s.delayPast e g.unschedAt with
    | some (ctx, x), _ => s.returnSched e ctx x
    | none, some ctx => s.returnUnsched e ctx
    | none, none => s

/-! Building packets (R63, R79–R81). -/

/-- A packet ready to go: its words, the blocks of its response, whether it asks for DATA and of how many words, and the SEQ of its response. -/
structure Built where
  words : List Word
  up : Nat
  isIn : Bool
  len : Nat
  seq : BitVec 5
deriving DecidableEq, Repr

/-- The header of a flow's packet. -/
def Flow.header (f : Flow) (ty : Nat) (seq : BitVec 5) (len : Nat) (tag : BitVec 10) : Header :=
  ⟨ty, f.pos.route, f.addr, false, false, f.ep, seq, len, 0, tag⟩

/-- A toggle as SEQ. -/
def toggleSeq (b : Bool) : BitVec 5 := if b then 1 else 0

/-- A data packet of a flow; `abort`: a word of its payload was found uncorrectable on the wire (R214). -/
def Flow.outBuilt (f : Flow) (ty : Nat) (seq : BitVec 5) (ws : List Word) (last : Bool) (abort : Bool := false) : Built :=
  ⟨dataPacket (f.header ty seq ws.length 0) ws last abort, 1, false, 0, seq⟩

/-- A token of a flow. -/
def Flow.inBuilt (f : Flow) (seq : BitVec 5) (len : Nat) : Built :=
  ⟨tokenPacket (f.header tIn seq len 0), len + 3, true, len, seq⟩

/-- REL of a scheduled output (R66, R148). -/
def FlowParams.relBits (p : FlowParams) : BitVec 2 :=
  if p.rel == .course then 0 else if p.lateFire then 2 else 1

/-- TAG of a packet: with a release word the low bits of the descriptor index (R67); a packet that carries no release carries TAG 0
(assumption 18). -/
def tagOf (rel : BitVec 2) (i : BitVec 16) : BitVec 10 := if rel = 0 then 0 else i.setWidth 10

/-- The payload of a scheduled output: an ANGLE transfer's release word before its staged words (R207, R253). -/
def Transfer.payload (x : Transfer) : List Word :=
  match x.release with
  | some w => w :: x.staged
  | none => x.staged

/-- The packet or token of a scheduled transfer (R79, R80, R259): a retry carries the toggle of the first attempt. -/
def Flow.schedBuilt (f : Flow) (x : Transfer) (retry : Bool) (abort : Bool := false) : Built :=
  if f.par.ty.output then
    let seq := toggleSeq (if retry then x.ctlToggle else f.sendToggle)
    let ws := x.payload
    let h := { f.header tOut seq ws.length (tagOf f.par.relBits x.idx) with rel := f.par.relBits }
    ⟨dataPacket h ws false abort, 1, false, 0, seq⟩
  else f.inBuilt (toggleSeq f.recvToggle) f.par.words

/-- The payload of a hold packet under the parameters of its course (R149), if there is one. -/
def Flow.holdPayload (f : Flow) (p : FlowParams) : Option (List Word) :=
  match p.policy, f.lastSent with
  | .skip, _ => none
  | .rep, some ws => some ws
  | .rep, none => if p.safe.isEmpty then none else some p.safe
  | .safe, _ => some p.safe

/-- A hold packet (R81). -/
def Flow.holdWords (f : Flow) (ws : List Word) : List Word :=
  dataPacket { f.header tOut (toggleSeq f.sendToggle) ws.length 0 with hold := true } ws false

/-- The packet or token of an unscheduled flow at the moment it is sent (R84, R87, R88); none: it has nothing to send any more. -/
def Flow.unschedBuilt (f : Flow) (abort : Bool := false) : Option Built :=
  match f.par.ty with
  | .bulkOut =>
    (f.outPackets[(f.seq - f.acked).toNat]?).bind fun p =>
      if p.ready then
        (f.xfer p.idx).map fun x => f.outBuilt tOut f.seq ((x.staged.drop p.ofs).take p.words) p.last abort
      else none
  | .bulkIn => f.work.head?.map fun x => f.inBuilt f.recvSeq (min f.par.packet (x.lenWords - x.moved))
  | .control => f.work.head?.bind fun x =>
    let rest := x.setup.count - x.moved
    match x.step with
    | .setup => some (f.outBuilt tSetup 0 [x.setup.w0, x.setup.w1] false)
    | .dataOut => some (f.outBuilt tOut (toggleSeq x.ctlToggle) (x.staged.take (min 16 rest)) (decide (rest ≤ 16)) abort)
    | .dataIn => some (f.inBuilt (toggleSeq x.ctlToggle) (min 16 rest))
    | .statusIn => some (f.inBuilt 1 0)
    | .statusOut => some (f.outBuilt tOut 1 [] false)
    | .finished => none
  | _ => none

/-! Sending (R254). -/

/-- The engine that built a packet expects its response from the end of its last block until the response timeout (R255). -/
def State.expect (s : State) (t : Fin 16) (f : Flow) (e : TxEntry) (b : Built) (idx : BitVec 16) (startMono : Nat) : State :=
  let opens := startMono + b.words.length * s.rootBlock t
  { s with expects := s.expects ++
    [⟨e.engine, t, e.ctx, idx, e.course, e.slot, e.reason, f.ep, f.addr, b.seq, b.len, b.isIn, opens,
      opens + s.respTimeout f.pos b.words.length b.up, .none⟩] }

/-- A scheduled output ends with its toggle open (R265). -/
def State.openToggle (s : State) (ctx : Nat) (f : Flow) (x : Transfer) : State :=
  if f.par.ty.output && x.unsure then (s.toggleUnknown ctx).happen .ENG_EVENT_TOGGLE_UNKNOWN srcEng else s

/-- What the trunk finds in the staged words of a packet (R214, R449): words corrected count, and an uncorrectable one is logged. -/
def State.stageChecked (s : State) (x : Transfer) (k : StageCheck) : State :=
  let s := s.addSat .ERR_CE_CNT_COUNT k.corrected
  match k.bad with
  | some (w, _) => s.error catMemory 0x01 blkStg .normal ((x.bank.map (·.val)).getD 0 + w % 65536 * 64)
  | none => s

/-- A slot's hold packet (R81, R149). -/
def State.sendHold (s : State) (t : Fin 16) (f : Flow) (e : TxEntry) : State :=
  match f.holdPayload (s.parFor f e.course) with
  | none => s
  | some ws => s.sendDown t e.ofs (f.holdWords ws)

/-- A scheduled transfer whose staged words cannot be read completes STAGE_LOST without a retry (R214); its first attempt's slot runs the hold
policy where the error is found before the packet starts, else the packet goes out aborted. -/
def State.schedLost (s : State) (t : Fin 16) (f : Flow) (e : TxEntry) (x : Transfer) (wire : Bool) : State :=
  let retry := e.reason == .retry
  let s := if wire then s.sendDown t e.ofs (f.schedBuilt x retry true).words else if retry then s else s.sendHold t f e
  (s.finish e.ctx e.idx .stageLost 0).openToggle e.ctx f x

/-- A scheduled packet goes out at its slot. -/
def State.sendSched (s : State) (t : Fin 16) (f : Flow) (e : TxEntry) (k : StageCheck) : State :=
  let at_ := s.slotMono t e.course e.ofs
  match e.reason with
  | .hold => s.sendHold t f e
  | _ =>
    let retry := e.reason == .retry
    let s := if retry then s.ledgerRetry t else s
    if f.service.isSome then
      let b := f.inBuilt (toggleSeq f.recvToggle) f.par.words
      (s.sendDown t e.ofs b.words).expect t f e b e.idx at_.toNat
    else
      match f.xfer e.idx with
      | none => s
      | some x =>
        if x.fin.isSome then s
        -- The words of a retry were lost with their bank: they are found uncorrectable before the packet starts (R214, R405).
        else if x.lostWords then s.schedLost t f e x false
        else
          let s := if f.par.ty.output then s.stageChecked x k else s
          match (if f.par.ty.output then k.bad else none) with
          | some (_, wire) => s.schedLost t f e x wire
          | none =>
          let b := f.schedBuilt x retry
          let s := s.modFlow e.ctx fun g =>
            { g.modXfer e.idx (fun y => { y with
                sentAt := some (s.busAt at_), retried := y.retried || retry
                ctlToggle := if retry then y.ctlToggle else f.sendToggle }) with
              lastSent := if f.par.ty.output then some (if f.par.rel == RelMode.course then x.payload else x.payload.drop 1) else g.lastSent }
          (s.sendDown t e.ofs b.words).expect t f e b e.idx at_.toNat

/-- A packet misses its slot by a wake that WAKE_EXT extends by more than 400 ns (R403, R449). -/
def State.prewakeLate (s : State) (d : Fin 12) : State :=
  if (s.fld .PTB_WAKE_EXT_DOMAINS).testBit d.val && decide (400 < 8 * s.fld .PTB_WAKE_EXT_EXT) then
    (s.happen .PMU_EVENT_PREWAKE_LATE srcPmu).error catPower 0x03 blkPmu .normal d.val
  else s

/-- A lap retry that is not sent leaves its flow's toggle as open as the first attempt left it (R265). -/
def State.retryUnsent (s : State) (e : TxEntry) : State :=
  match (if e.reason == .retry then s.flow e.ctx else none) with
  | none => s
  | some f =>
    match f.xfer e.idx with
    | none => s
    | some x => if x.fin.isNone && x.failed then (s.finish e.ctx e.idx .held 0).openToggle e.ctx f x else s

/-- A scheduled packet has missed its slot (R254): nothing is sent, and an accepted transfer completes HELD. -/
def State.missSlot (s : State) (t : Fin 16) (e : TxEntry) : State :=
  let own := e.reason == .send || e.reason == .retry
  let s := s.retryUnsent e
  let s := if own then s.finish e.ctx e.idx .held 0 else s
  let s := s.prewakeLate (engineDomain e.engine)
  s.error catEngine 0x01 blkEng (if s.perturbed then .normal else .fatalClass) (t.val + e.ctx * 16)

/-- A bulk output whose staged words could not be read ends STAGE_LOST once nothing of it is outstanding (R214). -/
def State.bulkLost (s : State) (ctx : Nat) : State :=
  match s.flow ctx with
  | none => s
  | some f =>
    match (f.work.head?).filter (·.lostWords) with
    | some x => if f.par.ty == .bulkOut && f.seq == f.acked then s.finish ctx x.idx .stageLost x.moved else s
    | none => s

/-- The transfer whose staged words an unscheduled packet carries. -/
def Flow.carried (f : Flow) : Option Transfer :=
  match f.par.ty with
  | .bulkOut => ((f.outPackets[(f.seq - f.acked).toNat]?).bind fun p => f.xfer p.idx)
  | .control => (f.work.head?).filter fun x => x.step == .dataOut
  | _ => none

/-- An unscheduled packet's staged words cannot be read (R214): it does not start, or goes out aborted, and its transfer ends STAGE_LOST. -/
def State.unschedLost (s : State) (t : Fin 16) (f : Flow) (ctx k : Nat) (x : Transfer) (wire : Bool) : State :=
  let s := match (if wire then f.unschedBuilt true else none) with | some b => s.sendDown t k b.words | none => s
  if f.par.ty == .bulkOut then (s.modXfer ctx x.idx fun y => { y with lostWords := true }).bulkLost ctx
  else s.finish ctx x.idx .stageLost x.moved

/-- An unscheduled packet or token goes out from block `k` of the course on. -/
def State.sendUnsched (s : State) (t : Fin 16) (f : Flow) (e : TxEntry) (b : Built) (k : Nat) : State :=
  let at_ := s.course.startMono + k * s.rootBlock t
  let bulkOut := f.par.ty == FlowType.bulkOut
  let n := (f.seq - f.acked).toNat
  let idx := if bulkOut then ((f.outPackets[n]?).map (·.idx)).getD e.idx else e.idx
  let again : Bool := if bulkOut then decide (n < f.sentTop) && e.reason != .probe
    else ((f.xfer idx).map fun x => x.fails != 0).getD false
  let lastOut : Bool := ((f.xfer idx).map fun x => x.step == .dataOut && decide (x.setup.count ≤ x.moved + 16)).getD false
  let s := s.modXfer e.ctx idx fun y =>
    { y with sentAt := some (s.busAt at_), inProgress := true, resends := if again then y.resends + 1 else y.resends
             unsure := y.unsure || lastOut }
  let s := if again then s.ledgerRetry t else s
  let s := if bulkOut then s.modFlow e.ctx fun g => { g with seq := g.seq + 1, sentTop := max g.sentTop (n + 1) } else s
  (s.sendDown t k b.words).expect t f { e with course := s.course.count.toNat } b idx at_

/-- What the trunk does with the packet or token whose turn it is (R214, R254). -/
def State.startUnsched (s : State) (t : Fin 16) (f : Flow) (e : TxEntry) (b : Built) (k : Nat) (c : StageCheck) : State :=
  match f.carried with
  | some x =>
    let s := s.stageChecked x c
    (match c.bad with
      | some (_, wire) => s.unschedLost t f e.ctx k x wire
      | none => s.sendUnsched t f e b k)
  | none => s.sendUnsched t f e b k

/-- Blocks of the root link at which the scheduled slots still to come in the current course start on a trunk. -/
def State.heldSlots (s : State) (t : Fin 16) : List Nat :=
  let now := s.course.count.toNat
  let hands := s.engines.toList.filterMap fun g => g.sched.bind fun x =>
    if x.2.course == now && (match s.flow x.1 with | some f => f.pos.trunk == t | none => false) then some x.2.ofs else none
  ((s.planq[t].filter fun e => e.course == now).map (·.ofs) ++ hands ++
    (s.txq[t].filter fun e => e.sched && e.course == now).map (·.ofs))

/-- The block from which the responses of scheduled transactions that a trunk still expects leave a transaction of `down` blocks clear in both
directions (R163). -/
def State.clearOf (s : State) (t : Fin 16) (down : Nat) : Nat :=
  ((s.expects.filter fun w => w.trunk == t && (s.flow w.ctx).any (·.par.ty.scheduled)).map fun w => s.blockFrom t w.closes - down).foldl max 0

/-- Where an unscheduled transaction starts in the current course, in blocks of the root link, if it fits (R121, R122, R163, R254): a control
transaction in the control area, after a repeated STOP (R271), a bulk one in room reclaimed from the periodic area, in the bulk area, or in a lap
that nothing can claim any more. Its response window closes before the next held slot, the lap, and E0. -/
def State.place (s : State) (t : Fin 16) (f : Flow) (b : Built) : Option Nat :=
  let blk := s.rootBlock t
  let n := s.periodNs / blk
  let c := s.course.count.toNat
  let (area, lap) := (kget s.plan.areas (t.val * 64 + c % 64)).getD (3, n - 4)
  let bulk := f.par.ty.bulk
  let ctlEnd := area + ctlBlocks n (s.linkTaken (.root t) false c)
  let ctlFrom := area + (s.stopIn t c).toNat
  let down := b.words.length
  let first := max (max 3 (s.blockFrom t (max s.time.mono (s.txLine[t]).2))) (s.clearOf t down)
  let limit := if s.claims t c then lap else n - 4
  let ends (k : Nat) : Nat := k + down + (s.respTimeout f.pos down b.up + blk - 1) / blk
  let inArea (k : Nat) : Bool := if bulk then decide (k + down ≤ area) || decide (ctlEnd ≤ k) else decide (ctlFrom ≤ k) && decide (k < ctlEnd)
  let fits (k : Nat) : Bool := inArea k && decide (ends k ≤ limit) && (s.heldSlots t).all fun h =>
    decide (h < s.blockNow (.root t)) || decide (ends k ≤ h)
  [first, max first (if bulk then ctlEnd else ctlFrom)].find? fits

/-- Removes an entry from a transmit queue. -/
def State.dropTx (s : State) (t : Fin 16) (e : TxEntry) : State :=
  { s with txq := vmod s.txq t.val fun q => q.erase e }

/-- The scheduled entry that a trunk sends next: the earliest of the current course, or one left over from an earlier course. -/
def State.nextSched (s : State) (t : Fin 16) : Option TxEntry :=
  (s.txq[t].filter fun e => e.sched && decide (e.course ≤ s.course.count.toNat)).foldl (fun (best : Option TxEntry) e =>
    match best with
    | none => some e
    | some b => if planBefore (e.course, e.ofs, e.slot) (b.course, b.ofs, b.slot) then some e else best) none

/-- The unscheduled packet of a kind that a trunk can send now, with where it starts; one that has nothing to send starts at once, and is
dropped. -/
def State.firstUnsched (s : State) (t : Fin 16) (bulk : Bool) : Option (TxEntry × Flow × Option Built × Nat) :=
  let mine (e : TxEntry) : Bool := !e.sched && decide (e.course ≤ s.course.count.toNat) && (s.flow e.ctx).any fun f => f.par.ty.bulk == bulk
  (s.txq[t].find? mine).bind fun e => (s.flow e.ctx).bind fun f =>
    match f.unschedBuilt with
    | some b => (s.place t f b).map fun k => (e, f, some b, k)
    | none => some (e, f, none, 0)

/-- The unscheduled packet that a trunk sends next: none in the rest of a course that STOP ended (R273). -/
def State.nextUnsched (s : State) (t : Fin 16) : Option (TxEntry × Flow × Option Built × Nat) :=
  if s.stop.quiet == some s.course.count.toNat then none
  else
    match s.firstUnsched t false, s.firstUnsched t true with
    | some x, some y => if y.2.2.2 < x.2.2.2 then some y else some x
    | some x, none => some x
    | none, y => y

/-- A trunk sends its next packet (R254): a scheduled one at its slot, an unscheduled one where it fits before that. The staged words are read as it
goes (R214). -/
def execPacketTransmit (t : Fin 16) (s : State) (check : StageCheck := ⟨0, none⟩) : Res :=
  .next <|
    if s.syncedAt (.up (.root t)) && s.enabled (.root t) && s.pmu.mode.courses && s.course.running then
      match s.nextSched t, s.nextUnsched t with
      | some e, u =>
        if e.late || decide (e.course < s.course.count.toNat) then (s.dropTx t e).missSlot t e
        else
          (match u with
          | some (u, f, b, k) =>
            let s := s.dropTx t u
            (match b with | some b => s.startUnsched t f u b k check | none => s)
          | none =>
            match s.flow e.ctx with
            | some f => (s.dropTx t e).sendSched t f e check
            | none => s.dropTx t e)
      | none, some (u, f, b, k) =>
        let s := s.dropTx t u
        (match b with | some b => s.startUnsched t f u b k check | none => s)
      | none, none => s
    else s

/-! Ends of transactions. -/

/-- An expectation is met or moot. -/
def State.dropExpect (s : State) (w : Expect) : State := { s with expects := s.expects.erase w }

/-- How an expectation's response has been classed. -/
def State.setGot (s : State) (w : Expect) (r : Response) : State :=
  { s with expects := s.expects.map fun x => if x == w then { x with got := r } else x }

/-- DONE, or DONE_RETRIED after resends. -/
def Transfer.doneStatus (x : Transfer) : Status := if x.resends = 0 then .done else .doneRetried

/-- Firmware acts on what a flow's outcomes ask for (R9, R265–R267): the hold of a bulk flow, escalation, toggle resynchronisation. -/
def State.firmwareActs (s : State) (ctx : Nat) : State :=
  match s.flow ctx with
  | none => s
  | some f =>
    let s := s.modFlow ctx fun f => { f with escalateDue := none, bulkDue := false }
    let s := if f.bulkDue then
        (s.setCauses ctx fun c => { c with bulkLasting := true }).happen .ENG_EVENT_BULK_LASTING srcEng
      else s
    let s := match f.escalateDue with
      | some course =>
        if f.causes.escalated then s
        else
          let s := s.setCauses ctx fun c => { c with escalated := true }
          let s := s.flowEvent evFlowEscalated f (leBytes 4 course)
          s.happen .ENG_EVENT_FLOW_ESCALATED srcEng
      | none => s
    if f.toggleUnknown && !f.causes.resync then s.startResync ctx else s

/-- A LASTING outcome in a course (R266, R267): F such courses of W hold the flow by escalation; a bulk flow is held at the first. Firmware holds
it, at once unless it is stalled (R9). -/
def State.noteLasting (s : State) (ctx course : Nat) : State :=
  match s.flow ctx with
  | none => s
  | some f =>
    let l := if f.lastingAt.head? == some course then f.lastingAt else course :: f.lastingAt
    let w := s.effFld .ENG_ESC_W
    let need := min 64 (max 1 (s.effFld .ENG_ESC_F))
    let w := max need (min 64 (max 1 w))
    let l := l.filter fun c => decide (course < c + w)
    let reached := l.length ≥ need && !f.causes.escalated && f.service.isNone
    let s := s.modFlow ctx fun f =>
      { f with lastingAt := l, lastingCycle := true, bulkDue := f.bulkDue || f.par.ty.bulk
               escalateDue := if reached && f.escalateDue.isNone then some course else f.escalateDue }
    if s.fwReady then s.firmwareActs ctx else s

/-- A transfer ends LASTING. -/
def State.lasting (s : State) (ctx : Nat) (i : BitVec 16) (course len : Nat) : State :=
  (s.finish ctx i .lasting len).noteLasting ctx course

/-- STALL (R224, R257): the transfer ends STALLED, and a periodic, paced or bulk flow is held. -/
def State.stalled (s : State) (ctx : Nat) (f : Flow) (i : BitVec 16) : State :=
  let len := if f.par.ty.scheduled then 0 else ((f.xfer i).map (·.moved)).getD 0
  let s := s.finish ctx i .stalled len
  if f.par.ty == .control then s else s.setCauses ctx fun c => { c with stalled := true }

/-- The controller's handshake after DATA. -/
def State.ackData (s : State) (w : Expect) (seq : BitVec 5) : State :=
  s.sendNow w.trunk [Shake.word ⟨false, hsAck, w.addr, w.ep, seq⟩]

/-- The controller's BULK_ACK after DATA (R88); the buffers it offers are not stated: free (assumption 15). -/
def State.ackBulk (s : State) (w : Expect) (seq : BitVec 5) : State :=
  let (v, s) := s.freeWord
  s.sendNow w.trunk [Shake.word ⟨true, v.setWidth 4, w.addr, w.ep, seq⟩]

/-- Input words of a transfer take their place in the stage store (R13, R213). -/
def State.storeWords (s : State) (ctx : Nat) (i : BitVec 16) (n : Nat) : State :=
  match ((s.flow ctx).bind fun f => f.xfer i).bind fun x => s.bankOf x n with
  | some b => ((s.openBank b).useBank b (· + n)).modXfer ctx i fun y => { y with words := y.words + n, bank := some b }
  | none => s

/-- Input words of a transfer are taken, and wait for write-back. -/
def State.takeWords (s : State) (ctx : Nat) (i : BitVec 16) (ws : List Word) : State :=
  (s.storeWords ctx i ws.length).modXfer ctx i fun y =>
    { y with staged := y.staged ++ ws, toWrite := y.toWrite ++ ws, moved := y.moved + ws.length, fails := 0
             writtenAt := if ws.isEmpty then y.writtenAt else some s.time.mono }

/-! Responses on scheduled endpoints (R257). -/

/-- A response to a scheduled output. -/
def State.outResponse (s : State) (w : Expect) (f : Flow) (k : Shake) : State :=
  if k.bulk || k.addr != w.addr || k.ep != w.ep || k.seq != w.seq || k.code == hsNyet then s.setGot w .mismatched
  else if k.code == hsAck then
    let s := (s.dropExpect w).modFlow w.ctx fun f => { f with sendToggle := !f.sendToggle }
    s.finish w.ctx w.idx (if w.reason == .retry then .doneRetried else .done) f.par.words
  else if k.code == hsNak then s.setGot w .nak
  else (s.dropExpect w).stalled w.ctx f w.idx

/-- DATA of a service flow goes to firmware (R167); a report that a stalled firmware does not read comes again (R9). -/
def State.serviceData (s : State) (f : Flow) (ws : List Word) : State :=
  match f.service with
  | some .hubStatus => if s.fwReady then s.hubReport f.pos f.addr ws else s
  | some (.sample src) => s.paceSample src.val f.pos ws
  | none => s

/-- DATA that answers a scheduled input. -/
def State.inData (s : State) (w : Expect) (f : Flow) (h : Header) (ws : List Word) : State :=
  if h.ty != tData || h.addr != w.addr || h.ep != w.ep || ws.length != w.len then s.setGot w .mismatched
  else if h.seq != w.seq then (s.ackData w h.seq).setGot w .dup
  else
    let s := ((s.dropExpect w).ackData w h.seq).modFlow w.ctx fun f => { f with recvToggle := !f.recvToggle }
    if f.service.isSome then s.serviceData f ws
    else (s.takeWords w.ctx w.idx ws).finish w.ctx w.idx (if w.reason == .retry then .doneRetried else .done) ws.length

/-! Bulk (R86–R88, R216). -/

/-- The first `d` unacknowledged packets of a bulk OUT flow are acknowledged (R212, R218). -/
def State.bulkPop (ctx : Nat) : Nat → State → State
  | 0, s => s
  | d + 1, s =>
    match s.flow ctx with
    | none => s
    | some f =>
      match f.outPackets.head? with
      | none => s
      | some p =>
        match f.xfer p.idx with
        | none => s
        | some x =>
          let s := (s.freeSome ctx x p.words).modXfer ctx p.idx fun y =>
            { y with moved := y.moved + p.words, staged := y.staged.drop p.words, fails := 0 }
          let s := if p.last then s.finish ctx p.idx x.doneStatus (x.moved + p.words) else s
          State.bulkPop ctx d s

/-- Packets of a flow that wait in a transmit queue are taken back. -/
def State.unqueue (s : State) (ctx : Nat) : State := { s with txq := s.txq.map fun q => q.filter fun e => e.ctx != ctx }

/-- The flow goes back to the last acknowledged packet (R87, R261). -/
def State.goBack (s : State) (ctx : Nat) : State := ((s.unqueue ctx).modFlow ctx fun f => { f with seq := f.acked }).bulkLost ctx

/-- A handshake's SEQ acknowledges every packet before it (R87). -/
def State.bulkAck (s : State) (ctx : Nat) (f : Flow) (seq : BitVec 5) : State :=
  let d := (seq - f.acked).toNat
  if d ≤ f.sentTop then
    let moot (w : Expect) : Bool := w.ctx == ctx && decide ((w.seq - f.acked).toNat < d)
    let s := { s with expects := s.expects.filter fun w => !moot w }
    let sent := (f.seq - f.acked).toNat
    ((State.bulkPop ctx d s).modFlow ctx fun g =>
      { g with acked := seq, seq := if sent < d then seq else g.seq, sentTop := g.sentTop - d }).bulkLost ctx
  else s

/-- Flow control (R87, R88, R261): a probe is due no earlier than the next course. -/
def State.probeLater (s : State) (ctx : Nat) : State :=
  let s := s.modFlow ctx fun f => { f with probe := true }
  s.armDelay ctx (((s.startOf (s.course.count.toNat + 1)).toNat + 127) / 128)

/-- The head of a flow has had an intact answer (R263). -/
def State.clearFails (s : State) (ctx : Nat) (i : BitVec 16) : State := s.modXfer ctx i fun y => { y with fails := 0 }

/-- A response to a bulk OUT packet (R77, R87): a SEQ that no packet outstanding leads to is mismatched. The controller goes back only where the
node has not taken the packet; NYET and NAK leave no credit, and a probe follows. -/
def State.bulkResponse (s : State) (w : Expect) (f : Flow) (k : Shake) : State :=
  if k.addr != w.addr || k.ep != w.ep || (!k.bulk && k.code == hsAck) then s.setGot w .mismatched
  else if (k.seq - f.acked).toNat > f.sentTop && (f.acked - k.seq).toNat > 16 then s.setGot w .mismatched
  else if !k.bulk && k.code == hsStall then (s.dropExpect w).stalled w.ctx f w.idx
  else
    let s := ((s.dropExpect w).clearFails w.ctx w.idx).bulkAck w.ctx f k.seq
    let back (s : State) : State := if (k.seq - (w.seq + 1)).toNat ≥ 16 then s.goBack w.ctx else s
    if k.bulk then back (s.modFlow w.ctx fun f => { f with credit := k.code.toNat + 1, probe := false })
    else (back (s.modFlow w.ctx fun f => { f with credit := 0 })).probeLater w.ctx

/-- How a bulk or control input ends once its last packet is in (R216). -/
def endStatus (x : Transfer) (total got : Nat) (last : Bool) : Status :=
  let need : Bool := (x.desc.map fun d => descNeedEnd d.2.1).getD false
  let short : Bool := (x.desc.map fun d => descShortOk d.2.1).getD false
  if got < total then (if short then x.doneStatus else .short)
  else if need && !last then .overrun
  else x.doneStatus

/-- DATA that answers a bulk IN token (R88, R216). -/
def State.bulkData (s : State) (w : Expect) (f : Flow) (h : Header) (ws : List Word) (last : Bool) : State :=
  if h.ty != tData || h.addr != w.addr || h.ep != w.ep || ws.length > w.len then s.setGot w .mismatched
  else if h.seq != w.seq then (s.ackBulk w f.recvSeq).setGot w .mismatched
  else
    match f.xfer w.idx with
    | none => s.dropExpect w
    | some x =>
      let s := (s.dropExpect w).modFlow w.ctx fun f => { f with recvSeq := f.recvSeq + 1, probe := false }
      let s := (s.ackBulk w (f.recvSeq + 1)).takeWords w.ctx w.idx ws
      let got := x.moved + ws.length
      if ws.length < w.len || last || got ≥ x.lenWords then
        s.finish w.ctx w.idx (endStatus x x.lenWords got last) got
      else s

/-! Control transfers (R84). -/

/-- Change the stage of a control transfer. -/
def State.toStep (s : State) (ctx : Nat) (i : BitVec 16) (st : CtlStep) : State :=
  s.modXfer ctx i fun y => { y with step := st, fails := 0 }

/-- The status of a control transfer whose status stage is over. -/
def Transfer.controlEnd (x : Transfer) : Status :=
  if x.setup.dir && x.moved < x.setup.count && !((x.desc.map fun d => descShortOk d.2.1).getD false) then .short else x.doneStatus

/-- A handshake that answers a packet of a control transfer. -/
def State.controlShake (s : State) (w : Expect) (f : Flow) (x : Transfer) (k : Shake) : State :=
  if k.bulk || k.addr != w.addr || k.ep != w.ep || k.seq != w.seq then s.setGot w .mismatched
  else if k.code == hsStall then (s.dropExpect w).stalled w.ctx f w.idx
  else if k.code == hsNak || k.code == hsNyet then
    let s := (s.dropExpect w).clearFails w.ctx w.idx
    if x.step == .statusIn || x.step == .statusOut then
      s.armDelay w.ctx (((s.startOf (s.course.count.toNat + 1)).toNat + 127) / 128)
    else s
  else if w.isIn then s.setGot w .mismatched
  else
    let s := s.dropExpect w
    match x.step with
    | .setup => s.toStep w.ctx w.idx (if x.setup.count = 0 then .statusIn else if x.setup.dir then .dataIn else .dataOut)
    | .dataOut =>
      let n := min 16 (x.setup.count - x.moved)
      let s := (s.freeSome w.ctx x n).modXfer w.ctx w.idx fun y =>
        { y with moved := y.moved + n, staged := y.staged.drop n, fails := 0, ctlToggle := !y.ctlToggle }
      if x.moved + n ≥ x.setup.count then s.toStep w.ctx w.idx .statusIn else s
    | .statusOut => (s.toStep w.ctx w.idx .finished).finish w.ctx w.idx x.controlEnd x.moved
    | _ => s

/-- DATA that answers a token of a control transfer. -/
def State.controlData (s : State) (w : Expect) (x : Transfer) (h : Header) (ws : List Word) (last : Bool) : State :=
  if !w.isIn || h.ty != tData || h.addr != w.addr || h.ep != w.ep || ws.length > w.len then s.setGot w .mismatched
  else if h.seq != w.seq then (s.ackData w h.seq).setGot w .dup
  else
    let s := (s.dropExpect w).ackData w h.seq
    match x.step with
    | .dataIn =>
      let s := (s.takeWords w.ctx w.idx ws).modXfer w.ctx w.idx fun y => { y with ctlToggle := !y.ctlToggle }
      if ws.length < w.len || last || x.moved + ws.length ≥ x.setup.count then s.toStep w.ctx w.idx .statusOut else s
    | .statusIn => (s.toStep w.ctx w.idx .finished).finish w.ctx w.idx x.controlEnd x.moved
    | _ => s

/-! Matching. -/

/-- The earliest expectation of an engine that satisfies a test. -/
def State.firstExpect (s : State) (e : Fin 16) (p : Expect → Bool) : Option Expect :=
  (s.expects.filter fun w => w.engine == e && p w).foldl (fun (best : Option Expect) w =>
    match best with
    | none => some w
    | some b => if w.opens < b.opens then some w else best) none

/-- A service flow's slot brings no sample (R167, R184). -/
def State.noSample (s : State) (f : Flow) : State :=
  match f.service with
  | some (.sample src) => s.sampleMissing src.val
  | _ => s

/-- An intact handshake arrives for an expectation. STALL ends a scheduled attempt without a retry, that of a service flow too (R257). -/
def State.takeShake (s : State) (w : Expect) (f : Flow) (k : Shake) : State :=
  if f.par.ty.scheduled then
    if f.par.ty.output then s.outResponse w f k
    else if k.bulk || k.addr != w.addr || k.ep != w.ep || k.seq != w.seq then s.setGot w .mismatched
    else if k.code == hsNak then s.setGot w .nak
    else if k.code == hsStall then
      if f.service.isSome then (s.dropExpect w).noSample f else (s.dropExpect w).stalled w.ctx f w.idx
    else s.setGot w .mismatched
  else if f.par.ty == .bulkOut then s.bulkResponse w f k
  else if f.par.ty == .bulkIn then
    if k.bulk || k.addr != w.addr || k.ep != w.ep || k.seq != w.seq then s.setGot w .mismatched
    else if k.code == hsNak || k.code == hsNyet then ((s.dropExpect w).clearFails w.ctx w.idx).probeLater w.ctx
    else if k.code == hsStall then (s.dropExpect w).stalled w.ctx f w.idx
    else s.setGot w .mismatched
  else
    match f.xfer w.idx with
    | some x => s.controlShake w f x k
    | none => s.dropExpect w

/-- Intact DATA arrives for an expectation. -/
def State.takeData (s : State) (w : Expect) (f : Flow) (h : Header) (ws : List Word) (last : Bool) : State :=
  if !w.isIn then s.setGot w .mismatched
  else if f.par.ty.scheduled then s.inData w f h ws
  else if f.par.ty == .bulkIn then s.bulkData w f h ws last
  else
    match f.xfer w.idx with
    | some x => s.controlData w x h ws last
    | none => s.dropExpect w

/-- Blocks that arrive on a trunk, with what BLOCK_ERROR damages counted in the ledger, as the root receiver reads them; a packet or handshake
that fails a CRC is counted, expected or not (R31, R34, R56, R457). -/
def State.readUp (s : State) (t : Fin 16) (w : Wire) : Parsed × State :=
  let (bs, s) := s.pertBlocks t.val false w.blocks
  let s := s.ledgerBlk t (intactBlocks w.blocks - intactBlocks bs)
  let got := parsePacket (s.receive (.up (.root t)) { w with blocks := bs })
  (got, match got with | .bad true => s.ledgerCrc t | _ => s)

/-- A response arrives on a trunk, for the earliest expectation there of an engine that has none yet (R77, R255–R257); outside every window it is
discarded. SILENCE discards it (R457); a transfer that has ended already takes nothing. -/
def execResponseMatch (e : Fin 16) (pkt : Fin 16 × Wire) (s : State) : Res :=
  .next <|
    match (s.firstExpect e fun w => w.trunk == pkt.1 && w.got == .none).bind fun w => (s.flow w.ctx).map fun f => (w, f) with
    | none => (s.readUp pkt.1 pkt.2).2
    | some (w, f) =>
      if s.silenced w then s.addSat .PTB_SILENCE_CNT_COUNT 1
      else
        let (got, s) := s.readUp pkt.1 pkt.2
        let gone : Bool := f.dead || (f.service.isNone && ((f.xfer w.idx).map (·.fin.isSome)).getD true)
        match got with
        | .bad _ => s.setGot w .damaged
        | .data _ _ _ true => s.setGot w .damaged
        | .data h ws last false => if gone then s.dropExpect w else s.takeData w f h ws last
        | .shake k => if gone then s.dropExpect w else s.takeShake w f k
        | .token _ => s.setGot w .mismatched
        | .ignored => s

/-! Failures (R256, R258–R263). -/

/-- A course's lap slot of a flow with a dedicated reserve (R160). -/
def Flow.lapSlot (f : Flow) (course n : Nat) : Option Nat :=
  ((f.laps.find? (·.1 == course % 64)).map (·.2)).bind fun os => os[n]?

/-- Room of the pool on one link and direction (R161, R162). -/
def State.poolRoom (s : State) (p : PortRef) (up : Bool) (course cost : Nat) : Bool :=
  let used := ((s.plan.grants.filter fun g => g.course == course && g.pos.ports.contains p).map fun g => if up then g.up else g.down).sum
  decide (used + cost ≤ sumLargest s.poolR (poolCosts (s.planned false) p up (course % 64)))

/-- A pooled retry is granted: where it starts and where its window ends, in blocks of the root link (R258). -/
def State.poolStart (s : State) (f : Flow) (course : Nat) : Option (Nat × Nat) :=
  let t := f.pos.trunk
  let b := s.rootBlock t
  let n := s.periodNs / b
  let cost := f.par.cost
  let down := if f.par.ty.output then cost.1 else 2
  let here := s.plan.grants.filter fun g => g.trunk == t && g.course == course
  let lastEnd := here.foldl (fun (m : Nat) g => max m g.ends) 0
  let soon := (((s.time.mono : Int) + 128 - s.monoOf course).toNat + b - 1) / b
  let start := max (max ((kget s.plan.pools (t.val * 64 + course % 64)).getD 0) lastEnd) soon
  let ends := start + down + (s.respTimeout f.pos cost.1 cost.2 + b - 1) / b
  let room := f.pos.ports.all fun p => s.poolRoom p false course cost.1 && s.poolRoom p true course cost.2
  if room && decide (ends ≤ n - 4) then some (start, ends) else none

/-- A retry enters the plan-order queue at its lap position (R232, R259). -/
def State.queueRetry (s : State) (w : Expect) (ofs : Nat) : State :=
  { s with planq := vmod s.planq w.trunk.val fun q => q ++ [⟨w.ctx, w.course, w.slot, ofs, true, some .retry⟩] }

/-- A failed first attempt looks for room in the lap (R258). -/
def State.lapRetry (s : State) (w : Expect) (f : Flow) : Option State :=
  if f.par.dedicated then (f.lapSlot w.course w.slot).map fun o => s.queueRetry w o
  else
    (s.poolStart f w.course).map fun x =>
      let g : PoolGrant := ⟨w.trunk, w.course, f.pos, f.par.cost.1, f.par.cost.2, x.2⟩
      ({ s with plan := { s.plan with grants := s.plan.grants ++ [g] } }).queueRetry w x.1

/-- A retry of a course may still be run: the controller is not in Hold and STOP has not ended the course (R17, R273). -/
def State.retryOpen (s : State) (w : Expect) : Bool :=
  s.pmu.mode != .hold && (match s.stop.quiet with | some c => decide (c < w.course) | none => true) &&
    s.course.count.toNat == w.course

/-- A pooled retry finds no room (R162, R258). -/
def State.denyRetry (s : State) (t : Fin 16) : State := (s.raise (16 + t.val)).linkEvent (.root t) 0 2

/-- A service flow's attempt has failed (R167, R184). -/
def State.serviceFailed (s : State) (w : Expect) (f : Flow) : State :=
  if w.reason == .retry then s.noSample f
  else
    match (if s.course.count.toNat == w.course then s.lapRetry w f else none) with
    | some s => s
    | none => (s.denyRetry w.trunk).noSample f

/-- A scheduled attempt has failed (R258–R260, R265). -/
def State.schedFailed (s : State) (w : Expect) (f : Flow) (x : Transfer) : State :=
  let unsure := w.got != .nak
  let x := { x with unsure := unsure }
  let s := s.modXfer w.ctx w.idx fun y => { y with unsure := unsure, failed := true }
  if w.reason == .retry then (s.lasting w.ctx w.idx w.course 0).openToggle w.ctx f x
  else if !s.retryOpen w then (s.finish w.ctx w.idx .held 0).openToggle w.ctx f x
  else
    match s.lapRetry w f with
    | some s => s
    | none => ((s.finish w.ctx w.idx .retryDenied 0).denyRetry w.trunk).openToggle w.ctx f x

/-- A bulk or control attempt has failed (R261–R263). -/
def State.unschedFailed (s : State) (w : Expect) (f : Flow) (x : Transfer) : State :=
  let out := f.par.ty == FlowType.bulkOut
  let base := !out || w.seq == f.acked
  let fails := if base then x.fails + 1 else x.fails
  let s := s.modXfer w.ctx w.idx fun y => { y with fails := fails }
  let s := if out then s.goBack w.ctx else s
  if fails ≥ 2 && base then s.lasting w.ctx w.idx s.course.count.toNat x.moved else s

/-- Of the windows of a trunk that close in one CCLK, that of the earliest transaction in plan order comes first (R162, R178). -/
def State.closesFirst (s : State) (w : Expect) : Expect :=
  let sched (x : Expect) : Bool := (s.flow x.ctx).any (·.par.ty.scheduled)
  let place (x : Expect) : Nat := x.course * 2 ^ 20 + ((s.flow x.ctx).map fun f => s.slotOfs f x.course x.slot).getD 0
  if sched w then (minBy place (s.expects.filter fun x => x.trunk == w.trunk && x.closes / 2 == w.closes / 2 && sched x)).getD w else w

/-- The earliest response window of an engine closes without a success: the failure is established (R256). -/
def execResponseWindowClose (e : Fin 16) (s : State) : Res :=
  .next <|
    match (minBy (·.closes) (s.expects.filter fun w => w.engine == e)).map s.closesFirst with
    | none => s
    | some w =>
      let s := s.dropExpect w
      match s.flow w.ctx with
      | none => s
      | some f =>
        if f.service.isSome then s.serviceFailed w f
        else if f.dead then s
        else
          match f.xfer w.idx with
          | none => s
          | some x =>
            if x.fin.isSome then s
            else if f.par.ty.scheduled then s.schedFailed w f x
            else s.unschedFailed w f x

end Sys2Proof.Machine
end

