-- ==== Sys2Proof/Machine/Course.lean ====
section
/-!
DEFINITION. The course boundary (R39, R120–R127): time and rate, plan changes and the bank swap, the commit point of the course after next, what
goes out at a course start; step-downs (R58–R60), threshold windows (R57), suspect links (R268).
-/

namespace Sys2Proof.Machine

/-! Step-downs. -/

/-- The port itself and the ports of hubs below it whose links run at HR (R108). -/
def State.hrBelow (s : State) (p : PortRef) : List PortRef :=
  let below : List PortRef := match p.below with
    | none => []
    | some d => (s.devices.filter fun x => x.pos.under d).flatMap fun x =>
        (List.finRange 16).filterMap fun q => if decide (q.val < x.ports.length) then some (.hub x.pos q) else none
  (p :: below).filter fun q => s.enabled q && s.rateOf q == some .hr

/-- A step-down is requested (R58, R60, R108): ignored on a link at BR, one with those pending; the links below step down with it. -/
def State.requestStep (s : State) (p : PortRef) : State :=
  if s.enabled p && s.rateOf p == some .hr then
    let from_ := s.boundaryIn 8
    ((s.hrBelow p).foldl (fun (s : State) q => s.modPort q fun x =>
      if x.stepPending then x else { x with stepPending := true, stepFrom := if q.isRoot then from_ else 0 }) s).planAgain
  else s

/-- Firmware instructs the hubs (R58, R108): RATE_BR for each link below a root port that is to step down; the root links above wait for the
same boundary. -/
def State.instructHubs (s : State) : State :=
  let ask : List (Pos × Fin 16) := s.devices.flatMap fun x => (List.finRange 16).filterMap fun q =>
    match x.ports[q.val]? with
    | some y => if y.stepPending && y.stepFrom == 0 then some (x.pos, q) else none
    | none => none
  ask.foldl (fun (s : State) y =>
    match s.nodes.find? fun e => e.2.pos == y.1 && e.2.present with
    | none => s
    | some e =>
      let s := s.firmwareSends e.2.addr (mkSetup false 1 3 7 y.2.val 0)
      let s := (s.setFeature y.1 y.2 7 (BitVec.truncate 24 s.course.count)).getD s
      let b := s.boundaryIn 8
      s.modPort (.root y.1.trunk) fun x => if x.stepPending then { x with stepFrom := max x.stepFrom b } else x) s

/-- Write of TRK_CTRL.STEP_DOWN (R58, R61): a request for the trunk's root link. -/
def State.stepDownWrite (s : State) (t : Fin 18) (v : Reg32) : State :=
  if h : t.val < 16 then
    if Fld.TRK_CTRL_STEP_DOWN.get v = 1 then s.requestStep (.root ⟨t.val, h⟩) else s
  else s

/-- See `State.stepDownWrite`. -/
def execStepDownWrite (t : Fin 18) (v : Reg32) (s : State) : Res := .next (s.stepDownWrite t v)

/-- A root link's step-down takes effect (R58, R59). -/
def State.stepRoot (s : State) (t : Fin 16) : State :=
  let p := PortRef.root t
  let s := s.modPort p fun x =>
    { x with stepPending := false, rateDown := false, stepped := true, lastRate := some .br
             rx := { x.rx with rate := some .br, nearPreset := 0, farPreset := 0 } }
  let s := s.setFld .TRK_CTRL_HR_EN 0 t.val
  ((s.happen .TRK_EVENT_STEPPED_DOWN (16 + t.val) t.val).linkEvent p 0x10 0).error catLink 0x04 blkTrk .normal (linkDetail p)

/-! Ledgers, windows, suspect links. -/

/-- The counts of a ledger zeroed, the eye minima at 0xFF (R61). -/
def Ledger.cleared (l : Ledger) : Ledger := { l with blk := 0, crc := 0, retry := 0, eyeHMin := 0xFF, eyeVMin := 0xFF }

/-- Ledger registers of GB, which are stored as they stand. -/
def State.gbLedgerClear (s : State) : State :=
  let s := [Reg.TRK_LEDGER_BLK, .TRK_LEDGER_CRC, .TRK_LEDGER_RETRY].foldl (fun (s : State) r => s.setReg r 0 17) s
  (s.setFld .TRK_EYE_EYE_H_MIN 0xFF 17).setFld .TRK_EYE_EYE_V_MIN 0xFF 17

/-- The port of a register copy of TRK_*: a trunk's root port or GA. -/
def portOfCopy (t : Fin 18) : Option PortRef :=
  if h : t.val < 16 then some (.root ⟨t.val, h⟩) else if t.val = 16 then some .ga else none

/-- Write of TRK_LEDGER_CLR (R57, R61): the window counts stand. -/
def State.ledgerClear (s : State) (t : Fin 18) (v : Reg32) : State :=
    if Fld.TRK_LEDGER_CLR_CLEAR.get v = 1 then
      match portOfCopy t with
      | some p => s.modPort p fun x => { x with ledger := x.ledger.cleared }
      | none => s.gbLedgerClear
    else s

/-- See `State.ledgerClear`. -/
def execTrkLedgerClr (t : Fin 18) (v : Reg32) (s : State) : Res := .next (s.ledgerClear t v)

/-- A new threshold window (R57). -/
def Window.fresh (length : Nat) : Window := ⟨true, 0, length, 0, 0, 0, 0⟩

/-- Threshold registers of a link: its trunk's, or GA's. -/
def thrCopy (p : PortRef) : Nat := (p.copy).getD ((p.trunk).map (·.val) |>.getD 0)

/-- WINDOW in force for a link, at least 1. -/
def State.windowLen (s : State) (p : PortRef) : Nat := max 1 (s.effFld .TRK_THR_WIN_WINDOW (thrCopy p))

/-- The crossings of a link at a plan-cycle boundary, bits of TRK_EVENT (R57): a threshold of 0 is disabled, and the last eye sample crosses
below its threshold; a link that has had no sample since it came up crosses none (assumption 30). -/
def State.crossings (s : State) (p : PortRef) (x : Port) : BitVec 4 :=
  let k := (thrCopy p)
  let at_ (f : Fld) (n : Nat) : Bool := s.fld f k != 0 && decide (s.fld f k ≤ n)
  let under (f : Fld) (n : BitVec 8) : Bool := decide (n.toNat < s.fld f k)
  BitVec.ofNat 4 ((at_ .TRK_THR0_BLK_THR x.window.blk).toNat + (at_ .TRK_THR0_CRC_THR x.window.crc).toNat * 2 +
    (at_ .TRK_THR1_RETRY_THR x.window.retry).toNat * 4 +
    (x.eyed && (under .TRK_THR1_EYE_H_THR x.ledger.eyeH || under .TRK_THR1_EYE_V_THR x.ledger.eyeV)).toNat * 8)

/-- New crossings are reported once per window, and with AUTO_STEP a link at HR is to step down (R57). -/
def State.reportCrossings (s : State) (p : PortRef) (new : BitVec 4) : State :=
  if new = 0 then s
  else
    let s := match p.copy with
      | some k => [Fld.TRK_EVENT_BLK_X, .TRK_EVENT_CRC_X, .TRK_EVENT_RETRY_X, .TRK_EVENT_EYE_X].zipIdx.foldl
          (fun (s : State) (f : Fld × Nat) => if new.getLsbD f.2 then s.setBit f.1 k else s) s
      | none => s
    let s := (s.raiseOpt (linkSrc p)).linkEvent p new.toNat 0
    if s.flag .TRK_CTRL_AUTO_STEP (thrCopy p) && p != .ga then s.requestStep p else s

/-- A link at a plan-cycle boundary (R57): its first window starts, or the counts so far are compared. -/
def State.windowCycle (s : State) (p : PortRef) : State :=
  match s.port p with
  | none => s
  | some x =>
    if x.state != .enabled then s
    else if !x.window.started then s.modPort p fun x => { x with window := Window.fresh (s.windowLen p) }
    else
      let now := s.crossings p x
      let s := s.reportCrossings p (now &&& ~~~x.window.crossed)
      let len := s.windowLen p
      s.modPort p fun x =>
        if x.window.length = len then { x with window := { x.window with cycles := x.window.cycles + 1, crossed := x.window.crossed ||| now } }
        else { x with window := Window.fresh len }

/-- A threshold window ends and the next one starts (R57). -/
def execMarginWindowEnd (p : PortRef) (s : State) : Res :=
  .next <|
    match s.port p with
    | none => s
    | some x =>
      if x.state == .enabled && x.window.started && x.window.cycles ≥ x.window.length then
        s.modPort p fun x => { x with window := Window.fresh (s.windowLen p) }
      else s

/-- An eye sample of a link at HR (R56). -/
def State.takeEye (s : State) (e : PortRef × BitVec 8 × BitVec 8) : State :=
  s.modPort e.1 fun x =>
    if x.state == .enabled && x.rx.rate == some .hr then
      let low (a b : BitVec 8) : BitVec 8 := if a < b then a else b
      { x with eyed := true, ledger := { x.ledger with
          eyeH := e.2.1, eyeV := e.2.2, eyeHMin := low e.2.1 x.ledger.eyeHMin, eyeVMin := low e.2.2 x.ledger.eyeVMin } }
    else x

/-- The delay estimate at a plan-cycle boundary (R134). -/
def Delay.endCycle (d : Delay) : Delay :=
  let d := { d with validCnt := BitVec.ofNat 8 d.count, pings := 0 }
  if d.count ≥ 32 then { d with oneWay := BitVec.ofNat 20 (d.sum / (2 * d.count)), valid := true, stale := false, sum := 0, count := 0 }
  else { d with stale := d.valid, sum := 0, count := 0 }

/-- Links that LASTING outcomes of the ending cycle point to (R268). -/
def State.suspects (s : State) : List PortRef :=
  let k := s.effFld .ENG_ESC_K
  let hit := (s.flows.filter fun e => e.2.lastingCycle).map (·.2)
  let links := (hit.flatMap fun f => f.pos.ports).foldl (fun (l : List PortRef) p => if l.contains p then l else l ++ [p]) []
  let reach := links.filter fun p => decide (k ≤ (hit.filter fun f => f.pos.ports.contains p).length)
  if k = 0 then []
  else reach.filter fun p => !reach.any fun q => q != p && (match q with
    | .hub h n => p.covers ⟨h.trunk, h.path ++ [n]⟩
    | _ => false)

/-- A suspect link is reported and retrained (R268). -/
def State.suspectLink (s : State) (p : PortRef) : State :=
  if !s.enabled p then s
  else
    let route := match p with | .hub h _ => h.route.toNat | _ => 0
    let depth := match p with | .hub h _ => h.path.length + 1 | _ => 0
    let s := (((s.setFld .ENG_SUSPECT_TRUNK ((p.trunk).map (·.val) |>.getD 0)).setFld .ENG_SUSPECT_ROUTE route).setFld
      .ENG_SUSPECT_DEPTH depth).setFld .ENG_SUSPECT_VALID 1
    let s := (s.addSat .ENG_SUSPECT_COUNT 1).happen .ENG_EVENT_LINK_SUSPECT srcEng
    let s := ((s.raiseOpt (linkSrc p)).linkEvent p 0 1).error catLink 0x03 blkEng .normal (linkDetail p)
    match p with
    | .hub h q =>
      (match s.nodes.find? fun e => e.2.pos == h && e.2.present with
        | none => s
        | some e =>
          let s := (s.firmwareSends e.2.addr (mkSetup false 1 3 2 q.val 0)).failSubtree p
          (s.setFeature h q 2 (BitVec.truncate 24 s.course.count)).getD s)
    | _ => s.resetPort p true

/-! Firmware's rounds, once per plan cycle. -/

/-- Declares a TIMED endpoint or PACE_SOURCE (R97, R132). -/
def NodeRec.timing (n : NodeRec) : Bool := ((n.desc[4]?).getD 0).getLsbD 13 || (n.desc.drop 5).any fun w => w.getLsbD 20

/-- SET_PATH_DELAY as firmware sends it (R132). -/
def pathDelaySetup (d : Nat) : Setup := mkSetup false 0 7 d 0 0

/-- D has moved by 1/8 ns or more from the value last sent, or none was sent. -/
def delayMoved (sent : Option (BitVec 24)) (d : Nat) : Bool :=
  match sent with
  | none => true
  | some v => decide (8 ≤ ((v.toNat : Int) - (d : Int)).natAbs)

/-- Firmware sends a node's path delay where it is due and every link of the path has an estimate (R132). -/
def State.sendDelay (s : State) (key : Nat) : State :=
  match kget s.nodes key with
  | none => s
  | some n =>
    let d := s.pathDelay n.pos
    if n.present && n.timing && s.routeUp n.pos && s.estimated n.pos && delayMoved n.sentD d then
      { s with nodes := kmod s.nodes key fun n => { n with sentD := some (BitVec.ofNat 24 d) } }.firmwareSends n.addr (pathDelaySetup d)
    else s

/-- GA's firmware sends the gang link's delay (R373). -/
def State.sendGangDelay (s : State) : State :=
  let d := s.ga.delay.oneWay.toNat
  if s.enabled .ga && s.gang.exchanged && s.ga.delay.valid && delayMoved s.gang.sentD d then
    ({ s with gang := { s.gang with sentD := some (BitVec.ofNat 24 d) } }).emit (.gangControl (pathDelaySetup d) [])
  else s

/-- Firmware reads the delay estimates and the error counts of a hub's enabled ports (R104, R136). -/
def State.readHub (s : State) (n : NodeRec) : State :=
  if n.present && s.routeUp n.pos then
    (List.finRange 16).foldl (fun (s : State) q =>
      let p := PortRef.hub n.pos q
      if s.enabled p then
        let s := (s.firmwareSends n.addr (mkSetup true 1 6 0 q.val 1)).firmwareSends n.addr (mkSetup true 1 2 0 q.val 4)
        let s := match (s.port p).map (·.delay) with
          | some d => if d.valid then
              { s with nodes := kmod s.nodes n.addr.toNat fun r => { r with delays := kset r.delays q.val d.oneWay.toNat } }
            else s
          | none => s
        s.modPort p Port.takeErrors
      else s) s
  else s

/-- Firmware that runs again acts on what has waited for it, before a commit point (R9). -/
def State.firmwareCatchesUp (s : State) : State :=
  if s.fwReady then
    (s.ctxs fun f => f.bulkDue || f.escalateDue.isSome || (f.toggleUnknown && !f.causes.resync)).foldl State.firmwareActs s
  else s

/-- CLEAR_HALT goes out again for flows that wait for their toggles, while the node is there (R265); of a frozen flow only after the thaw
(R339). -/
def State.resync (s : State) : State :=
  (s.flows.filter fun e => e.2.causes.resync && !e.2.causes.frozen && s.routeUp e.2.pos && !s.awaited e.2.addr).foldl
    (fun (s : State) e => s.firmwareSends e.2.addr (clearHaltSetup e.2.ep)) s

/-- Every port that a link hangs on. -/
def State.allPorts (s : State) : List PortRef :=
  (List.finRange 16).map PortRef.root ++ [.ga] ++ s.devices.flatMap fun x =>
    (List.finRange 16).filterMap fun q => if decide (q.val < x.ports.length) then some (.hub x.pos q) else none

/-- The delay estimate of a port at a plan-cycle boundary; one of a root link that becomes stale is an event (R134, R145). -/
def State.endDelayCycle (s : State) (p : PortRef) : State :=
  match s.port p with
  | none => s
  | some x =>
    let d := x.delay.endCycle
    let s := s.modPort p fun x => { x with delay := d }
    if p.isRoot && d.stale && !x.delay.stale then s.happen .TAPU_EVENT_DELAY_STALE srcTapu else s

/-- Firmware's part of a plan-cycle boundary (R9, R132, R136, R265, R268, R373): hubs read, suspect links retrained, delays and CLEAR_HALT sent. -/
def State.firmwareRound (s : State) : State :=
  let s := s.nodes.foldl (fun (s : State) e => if e.2.hub.isEmpty then s else s.readHub e.2) s
  let bad := s.suspects
  let s := s.mapFlows fun f => { f with lastingCycle := false }
  let s := bad.foldl State.suspectLink s
  let s := s.nodes.foldl (fun (s : State) (e : Nat × NodeRec) => s.sendDelay e.1) s
  s.sendGangDelay.resync

/-- What a plan-cycle boundary does besides the swap (R56, R57, R134, R187); a stall of the firmware delays its part and nothing else (R9). -/
def State.cycleRound (s : State) (eyes : List (PortRef × BitVec 8 × BitVec 8)) : State :=
  let s := s.allPorts.foldl State.endDelayCycle s
  let s := eyes.foldl State.takeEye s
  let s := s.allPorts.foldl State.windowCycle s
  let s := { s with ests := s.ests.map fun (x : Estimator) => if x.state == EstState.tracking then { x with quiet := x.quiet + 1 } else x }
  if s.fwReady then s.firmwareRound else s

/-! The swap. -/

/-- An opening flow takes effect at no boundary before every link of its route has an estimate (R507). -/
def State.deferOpens (s : State) (b : Nat) : State :=
  s.mapFlows fun f => if f.changes.any (·.opens) && f.service.isNone && !s.estimated f.pos then f.notBefore (b + 64) else f

/-- Boundaries that what is pending waits for: changes of flows, step-downs, forced decreases, nodes that resume (R127). -/
def State.waitsFor (s : State) : List Nat :=
  s.flows.flatMap (fun e => e.2.changes.map (·.from_)) ++
    s.ports.toList.filterMap (fun x => if x.stepPending then some x.stepFrom else none) ++
    s.insts.filterMap (fun e => e.2.cutAt) ++ s.reseats.filterMap (·.resumeAt)

/-- Ports of hubs that are to step down, by a boundary or after it (R58, R108). -/
def State.hubSteps (s : State) (b : Nat) (due : Bool) : Bool :=
  s.devices.any fun y => y.ports.any fun x => x.stepPending && x.stepFrom != 0 && x.stepsBy b == due

/-- Some change may take effect at boundary `b` (R127); a rebuild for which nothing waits may, too. -/
def State.swapDue (s : State) (b : Nat) : Bool :=
  s.waitsFor.any (fun n => decide (n ≤ b)) || s.hubSteps b true || s.course.periodNext.isSome || (s.waitsFor.isEmpty && !s.hubSteps b false)

/-- The start of course index 62 (R126): a shadow plan marked ready will swap at the boundary, and its first courses are committed from it. What
waits for a later boundary, and what is asked for from now on, goes into the bank that is rebuilt after it (R125, R127). -/
def State.decideSwap (s : State) (b : Nat) : State :=
  let s := s.deferOpens b
  if s.plan.ready && s.swapDue b then
    let s := s.layoutNext b
    { s with
      plan := { s.plan with ready := false, pending := s.waitsFor.any (fun n => decide (b < n)) || s.hubSteps b false }
      course := { s.course with periodSwap := s.course.periodNext, periodNext := none } }
  else s

/-- A flow leaves the plan, or closes, at `b` (R177, R225, R328, R330): what it still holds completes CANCELLED, or REVOKED under a forced
decrease. -/
def State.closeFlow (s : State) (b ctx : Nat) (f : Flow) : State :=
  let x := s.inst f.inst
  let forced := x.cutAt.isSome && x.revoked.contains ctx
  let gone (y : Transfer) : Bool := y.fin.isNone && !(y.accepted && (match y.course with | some c => decide (c < b) | none => false))
  let held := f.xfers.filter gone
  let s := s.cancelTask ctx
  let s := s.modFlow ctx fun f =>
    { f with active := false, closedAt := some b
             xfers := f.xfers.map fun y => if gone y then { y with course := some b, slot := 0, ofs := 0 } else y }
  let s := s.finishAll (held.map fun y => (ctx, y.idx)) (if forced then .revoked else .cancelled)
  let s := if forced then s.modInst f.inst fun x => { x with revokedDescs := x.revokedDescs + held.length } else s
  let mine := ((s.inst f.inst).mb.taken.filter fun t => t.waiting && t.opcode == 0x0302 && t.arg 8 2 == f.num)
  let s := mine.foldl (fun (s : State) t => s.modTaken f.inst t.idx fun t =>
    { t with result := [0, 0, 0, 0] ++ leBytes 4 b ++ leBytes 2 (if forced then 0 else held.length) }) s
  if ((s.flow ctx).map (·.xfers.isEmpty)).getD false then (s.freeContext ctx).closeCmds f.inst f.num else s

/-- One change of a flow takes effect at boundary `b` (R176, R177). -/
def State.applyOne (b ctx : Nat) (s : State) (ch : FlowChange) : State :=
  match (s.flow ctx).filter (·.closedAt.isNone) with
  | none => s
  | some f =>
    if ch.closes then s.closeFlow b ctx f
    else
      let s := s.modFlow ctx fun f =>
        { f with
          par := ch.params.getD f.par, active := f.active || ch.opens, since := if ch.opens then b else f.since
          lastingAt := if ch.unholds then [] else f.lastingAt
          escalateDue := if ch.unholds then none else f.escalateDue }
      if ch.unholds then s.setCauses ctx HoldCauses.unheld else s

/-- The changes of a flow whose time has come take effect at boundary `b`, in their order (R176). -/
def State.applyChange (b : Nat) (s : State) (ctx : Nat) : State :=
  match s.flow ctx with
  | none => s
  | some f =>
    (f.changes.filter fun ch => decide (ch.from_ ≤ b)).foldl (State.applyOne b ctx)
      (s.modFlow ctx fun f => { f with changes := f.changes.filter fun ch => decide (b < ch.from_) })

/-- The flows of a node that was matched run again (R95, R117). -/
def State.resumeNode (s : State) (r : Reseat) : State :=
  let s := { s with reseats := s.reseats.filter fun x => x.addr != r.addr }
  let s := s.setCausesAll (s.ctxs fun f => f.addr == r.addr && f.service.isNone) fun c => { c with detached := false }
  if r.byLinkFail then s.nodeEvent evLinkRecovered r.addr [] else s.nodeEvent evReseated r.addr (leBytes 8 r.ident.toNat)

/-- A forced decrease reaches its boundary (R328, R329). -/
def State.cutShares (s : State) (i : Nat) : State :=
  let x := s.inst i
  let flows := x.revoked.length
  let descs := min x.revokedDescs 0xFFFF
  let s := s.modInst i fun x => { x with shares := { x.shares with slots := x.cutSlots }, cutAt := none, revoked := [], revokedDescs := 0 }
  if flows = 0 then s
  else
    let s := (s.setFld .INST_REVOKE_STAT_FLOWS (min flows 255) 0 i).setFld .INST_REVOKE_STAT_DESCS descs 0 i
    let s := (s.event i evShareChanged 0 (leBytes 2 descs)).happen .INST_EVENT_SHARE_FORCED 7
    if i = 0 then s else s.event 0 evShareChanged 0 (leBytes 2 descs)

/-- The banks swap at boundary `b` (R125–R127). -/
def State.swapBanks (s : State) (b : Nat) : State :=
  let s := (List.finRange 16).foldl (fun (s : State) t => if s.ports[t].stepsBy b then s.stepRoot t else s) s
  let s := (sortBy (fun c => ((s.flow c).map (·.order)).getD 0) (s.flows.map (·.1))).foldl (State.applyChange b) s
  let s := s.layoutSwap
  let s := match s.course.periodSwap with
    | some p => { s with course := { s.course with period := p, periodSwap := none } }
    | none => s
  let s := { s with plan := { s.plan with active := !s.plan.active, lastSwap := some (BitVec.ofNat 48 b) } }
  let s := s.setFld .PLN_SWAP_CNT_COUNT ((s.fld .PLN_SWAP_CNT_COUNT + 1) % 2 ^ 32)
  let s := s.happen .PLN_EVENT_SWAP_DONE 4
  let due := s.reseats.filter fun r => match r.resumeAt with | some n => decide (n ≤ b) | none => false
  let s := due.foldl State.resumeNode s
  (s.insts.filter fun e => match e.2.cutAt with | some n => decide (n ≤ b) | none => false).foldl (fun (s : State) e => s.cutShares e.1) s

/-! Marking a plan ready. -/

/-- The boundary in a command's result, at bytes 12–15. -/
def withBoundary (r : List Byte) (b : Nat) : List Byte :=
  let r := result20 r
  r.take 4 ++ leBytes 4 b ++ r.drop 8

/-- FLOW_OPEN's result with the slot offsets of the plan that takes over (R300). -/
def State.openResult (s : State) (ctx b : Nat) (r : List Byte) : List Byte :=
  let f := (s.layoutNext b).flow ctx
  let slot := ((f.bind fun f => f.slotsNext.head?).bind fun x => x.2.head?).getD 0
  let lap := ((f.bind fun f => f.lapsNext.head?).bind fun x => x.2.head?).getD 0xFFFF
  (withBoundary r b).take 10 ++ leBytes 2 slot ++ leBytes 2 lap ++ (result20 r).drop 14

/-- Commands that wait for the plan to be ready: FLOW_MODIFY, FLOW_UNHOLD, COURSE_CONFIG, INST_SET_SHARE, PACE_CONFIG of a bus source. -/
def planOpcodes : List Nat := [0x0303, 0x0307, 0x0406, 0x0104, 0x0404]

/-- Descriptors of an instance that a forced decrease would revoke at `b`, as far as they are visible (R329): saturating at 0xFFFF. -/
def State.revocable (s : State) (i b : Nat) : Nat :=
  let x := s.inst i
  min 0xFFFF <| ((s.flows.filter fun e => x.revoked.contains e.1).map fun e =>
    (e.2.xfers.filter fun y => y.fin.isNone && !(y.accepted && (match y.course with | some c => decide (c < b) | none => false))).length).sum

/-- The commands that wait for the plan complete with its boundary (R176, R300, R301, R304, R329). -/
def State.planCmds (s : State) (b : Nat) : State :=
  let opens := s.flows.flatMap fun e => (e.2.changes.filter (·.opens)).filterMap fun ch => ch.cmd.map fun c => (e.1, c, max b ch.from_)
  let s := opens.foldl (fun (s : State) (x : Nat × (Nat × BitVec 16) × Nat) =>
    match (s.inst x.2.1.1).mb.taken.find? (·.idx == x.2.1.2) with
    | some t => s.complete x.2.1.1 t.idx stOk (s.openResult x.1 x.2.2 t.result)
    | none => s) s
  let s := s.mapFlows fun f => { f with changes := f.changes.map fun ch => { ch with cmd := if ch.closes then ch.cmd else none } }
  (s.waitingCmds fun t => planOpcodes.contains t.opcode).foldl
    (fun (s : State) e =>
      let b := max b e.2.boundary
      let r := if e.2.opcode = 0x0104 then leBytes 2 (s.revocable (e.2.arg 8 2) b) ++ e.2.result.drop 2 else e.2.result
      s.complete e.1 e.2.idx stOk (if e.2.opcode = 0x0404 then r else withBoundary r b)) s

/-- The planner marks the shadow plan ready (R126, R127); at course 62 of the cycle or later it swaps one cycle later. While a swap is decided
and has not taken place, the shadow bank is taken: it is rebuilt first (R125). -/
def execPlanMarkedReady (s : State) : Res :=
  .next <|
    if s.plan.pending && !s.plan.ready && s.plan.swapAt.isNone then
      let s := { s with plan := { s.plan with ready := true } }
      let s := s.deferOpens s.openSwap
      let s := if s.course.running && s.course.count.toNat % 64 ≥ 62 then s.happen .PLN_EVENT_SWAP_DEFERRED 4 else s
      s.instructHubs.planCmds s.openSwap
    else s

/-! The period (R124). -/

/-- The service flows, at their present parameters, pass the test at a period (R167). -/
def State.serviceRefused (s : State) (period : Nat) : Option Refused :=
  s.admission ((s.planned true).filter fun p => match s.flow p.ctx with | some f => f.service.isSome | none => false) period

/-- A host's scheduled flow is admitted. -/
def State.hostScheduled (s : State) : Bool :=
  s.flows.any fun e => e.2.hostScheduled && (e.2.active || e.2.changes.any (·.opens))

/-- A new period is asked for (R124): at the next swap, or at once while no courses run (R475). -/
def State.setPeriod (s : State) (p : Nat) : State :=
  let s := s.setFld .TAPU_COURSE_CFG_PERIOD p
  if s.pmu.mode.courses then ({ s with course := { s.course with periodNext := some (BitVec.ofNat 14 p) } }).planAgain
  else { s with course := { s.course with period := BitVec.ofNat 14 p, periodNext := none } }

/-- A member, or a ridge, that has joined: its period is the gang's (R305, R381). -/
def Gang.fixed (g : Gang) : Bool := g.joined && g.role != .solo

/-- A direct write of TAPU_COURSE_CFG.PERIOD, handled as COURSE_CONFIG (R124): discarded out of range, while a host's scheduled flow is admitted,
and where the service flows do not fit. -/
def State.periodWrite (s : State) (v : Reg32) : State :=
  let p := Fld.TAPU_COURSE_CFG_PERIOD.get v
  if p < 32 || p > 8192 || s.hostScheduled || (s.serviceRefused p).isSome || s.gang.fixed then s
  else s.setPeriod p

/-- See `State.periodWrite`. -/
def execCoursePeriodWrite (v : Reg32) (s : State) : Res := .next (s.periodWrite v)

/-- The first boundary at which a change of flows with leads up to `lead` may take effect (R126, R127, R176). -/
def State.changeFrom (s : State) (lead : Nat) : Nat := max s.openSwap ((s.course.count.toNat + lead + 64) / 64 * 64)

/-! The commit point (R150, R155, R191, R232, R233). -/

/-- An entry goes to no engine: it is only traced. -/
def State.emptySlot (s : State) (ctx : Nat) (f : Flow) : State := s.recordFlow ctx f Reason.empty.code 0x1F false false

/-- Entries join their trunk's queue. -/
def State.pushEntries (s : State) (t : Fin 16) (es : List PlanEntry) : State := { s with planq := vmod s.planq t.val fun q => q ++ es }

/-- The entries of a service flow (R167): its tokens go while its route is up and has estimates, from the boundary on from which they may. -/
def State.commitService (s : State) (ctx c : Nat) (f : Flow) (es : List PlanEntry) : State :=
  if s.routeUp f.pos && s.estimated f.pos && s.synced f.pos && decide (f.quietUntil ≤ c) then
    s.pushEntries f.pos.trunk (es.map fun e => { e with reason := some .send })
  else es.foldl (fun (s : State) _ => s.emptySlot ctx f) s

/-- Freeze (R333): a flow without a descriptor bound to a course from F on is held from that course. -/
def State.freezeFlow (s : State) (ctx c : Nat) (f : Flow) : State :=
  let x := s.inst f.inst
  let stopped := s.bindStopped f c && (x.state == .active || x.state == .frozen)
  if stopped && !f.causes.frozen && !f.xfers.any (fun y => y.course == some c && y.fin.isNone) then
    s.setCauses ctx fun k => { k with frozen := true }
  else s

/-- The entries of a periodic flow. -/
def State.commitPeriodic (s : State) (ctx c : Nat) (f : Flow) (es : List PlanEntry) (off : Bool) : State :=
  let s := s.pushEntries f.pos.trunk es
  let mine := f.xfers.filter fun x => x.course == some c && x.fin.isNone
  if off then
    let st := s.offStatus f c
    let s := (mine.filter (·.accepted)).foldl (fun (s : State) x => s.finish ctx x.idx st 0) s
    es.foldl (fun (s : State) e => s.resolve ctx f c e.slot (s.parFor f c).holdReason) s
  else
    let s := mine.foldl (fun (s : State) x => s.angleConvert ctx x.idx) s
    mine.foldl (fun (s : State) x => if x.accepted && s.waits f ctx c x.slot then s.resolve ctx f c x.slot .send else s) s

/-- The entries of a paced flow, after the due rule: `n` slots are due (R191, R194). -/
def State.commitPaced (s : State) (ctx c : Nat) (f : Flow) (es : List PlanEntry) (off : Bool) : State :=
  let kept := (s.parFor f c).holdReason
  if off then
    let (s, n) := s.dueRule ctx c
    let s := s.pushEntries f.pos.trunk es
    es.foldl (fun (s : State) e => s.resolve ctx f c e.slot (if e.slot < n then kept else .empty)) s
  else
    let (s, n) := (s.pushEntries f.pos.trunk es).dueRule ctx c
    es.foldl (fun (s : State) e =>
      if e.slot ≥ n then s.resolve ctx f c e.slot .empty
      else
        let bound := (s.flow ctx).any fun f => f.xfers.any fun x => x.course == some c && x.slot == e.slot && x.fin.isNone
        if bound then s else s.resolve ctx f c e.slot kept) s

/-- The commit point of course `c` for a flow. -/
def State.commitFlow (c : Nat) (s : State) (ctx : Nat) : State :=
  match s.flow ctx with
  | none => s
  | some f0 =>
    if !f0.par.ty.scheduled || !s.inPlanFor f0 c then s
    else
      let s := if f0.par.ty.paced then s.dueStart ctx c else s
      if !s.activeFor f0 c then s
      else
        let es : List PlanEntry := (s.slotsFor f0 c).zipIdx.map fun x => ⟨ctx, c, x.2, x.1, false, none⟩
        -- The course's transfers stand where the plan in force puts their slots (R222).
        let s := s.modFlow ctx fun f => { f with
          holdOld := f.holdOld.filter fun h => decide (s.course.count.toNat ≤ h.last)
          xfers := f.xfers.map fun x => if x.course == some c && x.fin.isNone then { x with ofs := s.slotOfs f c x.slot } else x }
        if f0.service.isSome then s.commitService ctx c f0 es
        else
          let s := s.freezeFlow ctx c f0
          match s.flow ctx with
          | none => s
          | some f =>
            let off := s.heldFor f c || !s.linkFor f c
            if f.par.ty.paced then s.commitPaced ctx c f es off else s.commitPeriodic ctx c f es off

/-- What the slots of a course that do not go EMPTY take of the links (R163); a hold packet has no response. -/
def State.slotsTaken (s : State) (c : Nat) : List AreaUse :=
  (List.finRange 16).flatMap fun t => (s.planq[t].filter fun e => e.course == c).filterMap fun e => (s.flow e.ctx).map fun f =>
    let cost := (s.parFor f c).cost
    ⟨e.ctx, c, f.pos, f.inst, false, cost.1, if e.reason == some .hold then 0 else cost.2⟩

/-- What unscheduled packets take of the areas of the present course and of those to come: a packet that found no room in its course goes in this
one (R254). -/
def State.usesLeft (s : State) : List AreaUse :=
  let now := s.course.count.toNat
  let waits (u : AreaUse) : Bool := s.txq.any fun q => q.any fun e => e.ctx == u.ctx && !e.sched && e.course == u.course
  s.plan.uses.filterMap fun u => if now ≤ u.course then some u else if waits u then some { u with course := now } else none

/-- A bulk task competes for room: READY, or WAITING only for SLOT (R325). -/
def State.competes (s : State) (ctx : Nat) (f : Flow) : Bool :=
  f.par.ty.bulk && (f.task.state == .ready || (f.task.state == .waiting && f.task.isReady (s.flagsOf ctx f ||| 0x02)))

/-- What the slots of the course that is committed take, and with it the bulk area of each trunk, reclaimed room included, and its division by
weight (R121, R163, R325). -/
def State.bulkCourse (s : State) (c : Nat) : State :=
  let now := s.course.count.toNat
  let s := { s with plan := { s.plan with
      taken := (s.plan.taken.filter fun (u : AreaUse) => decide (now ≤ u.course)) ++ s.slotsTaken c, uses := s.usesLeft
      grants := s.plan.grants.filter fun (g : PoolGrant) => decide (now ≤ g.course) } }
  let rivals := s.flows.filter fun e => s.competes e.1 e.2
  let per (t : Fin 16) : Nat × List Nat :=
    let n := s.blocks ((s.rateOf (.root t)).getD .hr)
    let insts := rivals.foldl (fun (l : List Nat) e => if e.2.pos.trunk == t && !l.contains e.2.inst then e.2.inst :: l else l) []
    let planned := s.linkTaken (.root t) false c
    (n - 7 - planned - ctlBlocks n planned, insts)
  let weight (i : Nat) : Nat := (s.inst i).shares.weight
  let area := (List.finRange 16).foldl (fun (m : KMap Nat) t =>
    let k := areaKey t.val c
    if s.enabled (.root t) then kset m k (per t).1 else kdel m k) s.plan.bulkArea
  let share := (List.finRange 16).foldl (fun (m : KMap Nat) t =>
    let x := per t
    let sum := (x.2.map weight).sum
    x.2.foldl (fun (m : KMap Nat) i => kset m (bulkKey t.val i c) (x.1 * weight i / max 1 sum)) m)
    (s.plan.bulkShare.filter fun e => e.1 / 512 % 4 != c % 4)
  { s with plan := { s.plan with bulkArea := area, bulkShare := share } }

/-- Everything that the commit point of course `c` decides: flows in order of admission, each trunk's entries then in plan order. -/
def State.commit (s : State) (c : Nat) : State :=
  let s := if s.gang.role == .member then s.takeRecords else s
  let order := sortBy (fun k => ((s.flow k).map (·.order)).getD 0) (s.flows.map (·.1))
  let s := order.foldl (State.commitFlow c) s
  let key (e : PlanEntry) : Nat := e.course * 2 ^ 20 + e.ofs
  ({ s with planq := s.planq.map (sortBy key) }).bulkCourse c

/-! Freeze and thaw (R318, R333, R340). -/

/-- An instance at the start of course `c`. -/
def State.instCourse (c : Nat) (s : State) (i : Nat) : State :=
  let x := s.inst i
  let s := match x.freezeAt with
    | some f =>
      if x.state == .active && decide (f ≤ c) then
        let s := s.modInst i fun x => { x with state := .frozen, freezeAt := none, quiescent := false }
        let s := s.setFld .INST_FREEZE_COURSE_COURSE (f % 2 ^ 32) 0 i
        let s := s.setCausesAll (s.ctxs fun f => f.inst == i && f.service.isNone && !f.par.ty.scheduled) fun k => { k with frozen := true }
        s.happen .INST_EVENT_FROZEN 7
      else s
    | none => s
  match x.thawAt with
  | some t =>
    if x.state == .frozen && decide (t ≤ c) then
      let s := s.modInst i fun x => { x with state := .active, thawAt := none, quiescent := false }
      let s := s.setCausesAll (s.ctxs fun f => f.inst == i) fun k => { k with frozen := false }
      s.happen .INST_EVENT_THAWED 7
    else s
  | none => s

/-! The course start. -/

/-- Bus time reaches the start of the next course: P on the symbol clock after the last one, P × (1 + r) in bus time (R123, R129). -/
def State.reachStart (s : State) : State :=
  let goal := s.course.startMono + s.periodNs
  if !s.course.running || goal ≤ s.time.mono then s
  else
    let d := goal - s.time.mono
    let t := s.time
    let v : Nat := t.bus.toNat * 2 ^ 32 + t.frac.toNat + (((d : Int) * (1000000000 + t.rate)).toNat * 2 ^ 32) / 1000000000
    { s with time := { t with bus := BitVec.ofNat 64 (v / 2 ^ 32), frac := BitVec.ofNat 32 v, mono := goal, cclk := t.cclk + d / 2 } }

/-- C fields take effect (R7, R8): those of a plan cycle only at its boundary. -/
def cycleFields : List Reg := [.TRK_THR_WIN, .TAPU_COURSE_CFG, .ENG_ESC]

/-- A shadow is kept past a course boundary that starts no plan cycle. F and W of ENG_ESC go at every course boundary; K waits. -/
def State.releaseShadows (s : State) (cycle : Bool) : State :=
  let late (k : Nat) : Bool := (List.range 18).any fun t => k == Reg.TRK_THR_WIN.key 0 t
  let esc := Reg.ENG_ESC.key 0 0
  let kept := s.regsOld.filterMap fun e =>
    if cycle then none
    else if late e.1 then some e
    else if e.1 = esc then some (e.1, Fld.ENG_ESC_K.put (s.rawReg .ENG_ESC esc) (Fld.ENG_ESC_K.get e.2))
    else none
  { s with regsOld := kept }

/-- COURSE_START of this course on a link (R35, R39, R40): the blocks, with blocks 1 and 2 scrambled from the course's seed, and what the port
notes. -/
def State.sendStart (s : State) (p : PortRef) (lease : Bool) : State :=
  match s.port p with
  | none => s
  | some x =>
    if x.state != .enabled then s
    else
      let c := s.course.count.toNat
      let valid := s.timedOk && !(s.gang.follows && !s.gang.timeValid)
      let down := p.isRoot && (match s.plan.swapAt with | some b => c + 1 == b && x.stepsBy b | none => false)
      let flags := (c % 64 == 0).toNat + valid.toNat * 2 + down.toNat * 4 + lease.toNat * 8
      let t := s.time.bus.toNat
      let seed := scrSeed (BitVec.ofNat 24 c)
      let s := s.modPort p fun x => { x with started := true, rateDown := down, seed := seed, seedBefore := x.seed }
      s.emit (.blocks (.up p) (ctlBlock cCourseStart (c % 2 ^ 24 * 16 + flags) ::
        scramble seed [BitVec.ofNat 36 (t / 2 ^ 28), BitVec.ofNat 36 (t % 2 ^ 28 * 2 ^ 8)]))

/-- The ridge's pace packet (R370). -/
def State.sendPace (s : State) : State :=
  if s.gang.role == .ridge && s.enabled .ga then
    let valid := ((List.finRange 8).map fun e => if s.ests[e].state == .off then 0 else 2 ^ e.val).sum
    let head : Word := BitVec.ofNat 36 (valid + s.course.count.toNat % 2 ^ 24 * 2 ^ 8)
    let body := (List.finRange 8).flatMap fun e => if s.ests[e].state == .off then List.replicate 7 0 else s.recordWords e
    s.sendWords (.up .ga) 3 (dataPacket ⟨tOut, 0, 1, false, true, 15, 0, 57, 0, 0⟩ (head :: body) false)
  else s

/-- The repetition of STOP on a link in this course (R271). -/
def State.repeatStop (s : State) : State :=
  if !s.stop.latched then s
  else
    let b := stopBlock s.stop.reason s.stop.course.toNat
    (List.finRange 16).foldl (fun (s : State) t =>
      if s.enabled (.root t) && s.stop.repeats[t.val] != 0 then
        let s := { s with stop := { s.stop with
          repeats := vmod s.stop.repeats t.val (· - 1), repeatAt := vmod s.stop.repeatAt t.val fun _ => some s.course.count.toNat } }
        s.emit (.blocks (.up (.root t)) [b])
      else s) s

/-- The policy in force of a power domain (R391): value 2 is for PD_GANG alone. -/
def State.domPolicy (s : State) (d : Fin 12) : Nat := s.effFld .PMU_DOM_POLICY_POLICY / 4 ^ d.val % 4

/-- Policy 2 keeps PD_GANG OFF: the controller is solo, and no GANG_CONFIG has taken place (R391). -/
def State.gangOff (s : State) : Bool := s.domPolicy 11 == 2 && s.gang.role == .solo && !s.gang.configured

/-- The state in which its policy puts a domain (R391). -/
def State.policyState (s : State) (d : Fin 12) : DomState :=
  let x := s.pmu.doms[d]
  if d == 11 && s.gangOff then .off
  else if d == 11 && x == .off && s.pmu.mode != .dormant then .waking
  else if s.domPolicy d == 1 && x == .retained && s.pmu.mode != .dormant then .waking
  else x

/-- Policies take effect (R391): PD_GANG goes OFF or wakes, and a domain that is to stay ON wakes, but in Dormant. -/
def State.applyPolicies (s : State) : State :=
  let s := if s.gangOff && s.pmu.doms[11] != .off then s.portOff .ga else s
  { s with pmu := { s.pmu with doms := Vector.ofFn s.policyState } }

/-- What a member counts over the course that ends (R368, R372, R379): a lease, a sample, an intact pace record. -/
def State.gangCourse (s : State) : State :=
  if s.gang.role != .member then s
  else
    let s := if s.gang.heard then s else s.modGang fun g => g.hear false
    let s := if s.gang.recordNow then s else s.addSat .GANG_PACE_STAT_BAD_RECORDS 1
    s.modGang fun g =>
      { g with
        heard := false, sampled := false, recordNow := false
        noSample := if g.sampled then 0 else g.noSample + 1
        recordMiss := Vector.ofFn fun e => if g.recordNow && ((g.record[e.val]?).any (·.valid)) then 0 else g.recordMiss[e] + 1 }

/-- Service flows whose route is down or has no estimate wait for the first plan-cycle boundary at least 2 courses after it is up again (R167): a
route that is down at a course start can be up again within that course. -/
def State.quietServices (s : State) : State :=
  let b := s.boundaryIn 3
  s.mapFlows fun f => if f.service.isSome && !(s.routeUp f.pos && s.estimated f.pos) then { f with quietUntil := b } else f

/-- A course starts (R39, R123–R127, R129, R141, R155); during a warm start nothing is committed (R433): time, rate and steps, the boundary's
changes, the commit point of the course after the next, and COURSE_START on every enabled trunk and on GA. -/
def State.startCourse (s : State) (eyes : List (PortRef × BitVec 8 × BitVec 8)) : State :=
  let s := s.reachStart
  let s := if s.course.running then s.nextRate else s
  let stepped := s.time.step.isSome || s.time.stepBy.isSome
  let s := s.dueStep
  let c := if s.course.begun then s.course.count.toNat + 1 else s.course.count.toNat
  let cycle := c % 64 == 0
  let s := if s.course.running then s.gangCourse else s
  let s := { s with
    course := { s.course with running := true, begun := true, count := BitVec.ofNat 48 c, start := s.time.bus, startMono := s.time.mono }
    time := { s.time with stepped := stepped } }
  let source := s.timeSource
  let s := s.releaseShadows cycle
  let s := if s.timeSource = source then s else s.sourceEffect s.timeSource
  let s := if s.plan.swapAt == some c then s.swapBanks c else s
  let s := if cycle then s.cycleRound eyes else s
  let s := ((List.finRange 8).foldl State.applyPace s).applyPolicies
  let s := s.insts.foldl (fun (s : State) e => s.instCourse c e.1) s
  let s := (s.waitingCmds fun t => t.boundary != 0 && decide (t.boundary ≤ c) && (t.opcode == 0x0106 || t.opcode == 0x0109)).foldl
    (fun (s : State) e => s.complete e.1 e.2.idx stOk e.2.result) s
  let s := s.quietServices.firmwareCatchesUp
  let s := if c % 64 = 62 then s.decideSwap (c + 2) else s
  let s := if s.boot.start.isSome then s else s.commit (c + 2)
  let lease := s.gang.role == .ridge || (s.gang.role == .member && s.gang.leaseNow)
  let s := (List.finRange 16).foldl (fun (s : State) t => s.sendStart (.root t) false) s
  (s.sendStart .ga lease).sendPace.repeatStop.lateEdges

/-- See `State.startCourse`; no course starts in a mode without courses. -/
def execCourseBoundary (eyes : List (PortRef × BitVec 8 × BitVec 8)) (s : State) : Res :=
  .next (if s.pmu.mode.courses && s.pmu.doms[10] == .on then s.startCourse eyes else s)

end Sys2Proof.Machine
end

