-- ==== Sys2Proof/Machine/Mailbox.lean ====
section
/-!
DEFINITION. Mailboxes (R278–R290, R508): their registers, taking commands, the duplicate cache, the order of starting; and the checks that every
command passes first (R293).
-/

namespace Sys2Proof.Machine

/-! Registers. -/

/-- A mailbox that has just been enabled (R279). -/
def Mailbox.restart (m : Mailbox) : Mailbox :=
  { m with prod := 0, oldest := 0, fetch := 0, write := 0, phase := true, completed := [], eventSeq := 0 }

/-- Write of INST_MB_CFG (R279): a write of ENABLE = 1 with a size out of range, or with the completion ring below the command ring, is
discarded. -/
def State.mbCfgWrite (s : State) (i : Nat) (v : Reg32) : State :=
  match s.pageGate i 0x010 with
  | some s' => s'
  | none =>
    let was := s.flag .INST_MB_CFG_ENABLE 0 i
    let runs := s.blockRuns .INST_MB_CFG i 0
    let size (f : Fld) : Nat := if runs then s.fld f 0 i else f.get v
    let cmd := size .INST_MB_CFG_CMD_SIZE
    let cpl := size .INST_MB_CFG_CPL_SIZE
    let on := Fld.INST_MB_CFG_ENABLE.get v = 1
    if on && (cmd < 2 || cmd > 8 || cpl < 2 || cpl > 8 || cpl < cmd) then s
    else
      let s := s.writeFields .INST_MB_CFG i 0 v
      if !was && s.flag .INST_MB_CFG_ENABLE 0 i then
        (s.modInst i fun x => { x with mb := x.mb.restart }).setFld .INST_MB_STATUS_FETCH_ERR 0 0 i
      else s

/-- See `State.mbCfgWrite`. -/
def execMailboxEnable (i : Fin 512) (v : Reg32) (s : State) : Res := .next (s.mbCfgWrite i.val v)

/-- A mailbox doorbell sets DOORBELL of the firmware tasks that its instance is assigned to (R229). -/
def State.bellTasks (s : State) (i : Nat) : State :=
  { s with fwTasks := s.fwTasks.map fun e =>
    (e.1, if e.2.bell == some i && e.2.state != .idle then { e.2 with flags := e.2.flags ||| 0x80 } else e.2) }

/-- Write of INST_MB_DB (R281, R330, R469). -/
def State.mbDoorbell (s : State) (i : Nat) (v : Reg32) : State :=
  match s.pageState i with
  | .free => s.badAccess true (i * 0x1000 + 0x014) 4
  | .resetting => s
  | _ =>
    let m := (s.inst i).mb
    let prod : BitVec 16 := BitVec.ofNat 16 (Fld.INST_MB_DB_PROD.get v)
    let a := (prod - m.oldest).toNat
    let b := (m.prod - m.oldest).toNat
    if !s.flag .INST_MB_CFG_ENABLE 0 i then s.setBit .INST_MB_STATUS_DB_ERR 0 i
    else if a ≤ b then s
    else if a > 2 ^ s.fld .INST_MB_CFG_CMD_SIZE 0 i then s.setBit .INST_MB_STATUS_DB_ERR 0 i
    else (s.modInst i fun x => { x with mb := { x.mb with prod := prod } }).bellTasks i

/-- See `State.mbDoorbell`. -/
def execMailboxDoorbell (i : Fin 512) (v : Reg32) (s : State) : Res := .next (s.mbDoorbell i.val v)

/-- Write of INST_MB_CPL_CONS (R282): an index beyond the write index is discarded. -/
def State.mbConsWrite (s : State) (i : Nat) (v : Reg32) : State :=
  match s.pageGate i 0x018 with
  | some s' => s'
  | none =>
    let c : BitVec 16 := BitVec.ofNat 16 (s.fld .INST_MB_CPL_CONS_CONS 0 i)
    let new : BitVec 16 := BitVec.ofNat 16 (Fld.INST_MB_CPL_CONS_CONS.get v)
    let w := (s.inst i).mb.write
    if (new - c).toNat > (w - c).toNat then s.setBit .INST_MB_STATUS_CONS_ERR 0 i
    else s.setFld .INST_MB_CPL_CONS_CONS new.toNat 0 i

/-- See `State.mbConsWrite`. -/
def execMailboxConsumerWrite (i : Fin 512) (v : Reg32) (s : State) : Res := .next (s.mbConsWrite i.val v)

/-- Write of INST_MB_STATUS (R279, R508): a 1 clears; with FETCH_ERR clear, taking resumes at FETCH. -/
def State.mbStatusWrite (s : State) (i : Nat) (v : Reg32) : State :=
  match s.pageGate i 0x01C with
  | some s' => s'
  | none => s.writeFields .INST_MB_STATUS i 0 v

/-- See `State.mbStatusWrite`. -/
def execFetchErrClear (i : Fin 512) (v : Reg32) (s : State) : Res := .next (s.mbStatusWrite i.val v)

/-! Taking commands (R282, R288, R289). -/

/-- The digest of a command entry (R288). -/
def cmdDigest (entry : List Byte) : BitVec 32 := crc32Bytes (entry.take 2 ++ entry.drop 8)

/-- Firmware, or in ROM recovery the boot ROM for the manager, serves a mailbox (R310, R433). -/
def State.serves (s : State) (i : Nat) : Bool := s.fwReady || (s.boot.rom && s.boot.start.isNone && i == 0)

/-- Firmware may take the next command of an instance (R282, R508); its read is DMA (R444). -/
def State.mayTake (s : State) (i : Nat) : Bool :=
  let x := s.inst i
  let m := x.mb
  let room := ringRoom (s.fld .INST_MB_CFG_CPL_SIZE 0 i) m.write (BitVec.ofNat 16 (s.fld .INST_MB_CPL_CONS_CONS 0 i))
  s.serves i && !s.boot.dmaRefused && (x.state == .active || x.state == .frozen) && s.flag .INST_MB_CFG_ENABLE 0 i &&
    !s.flag .INST_MB_STATUS_FETCH_ERR 0 i &&
    m.fetch != m.prod && decide (m.taken.length < 8) && decide (m.taken.length + 1 ≤ room)

/-- A new tag enters the cache; the oldest of 65 leaves (R288). -/
def cacheAdd (cache : List Cached) (k : Cached) : List Cached := (cache ++ [k]).drop (cache.length + 1 - 64)

/-- A command that has been read is looked up by its tag before anything else (R289). -/
def State.lookUp (s : State) (i : Nat) (t : Taken) : State :=
  let digest := cmdDigest t.entry
  match (s.inst i).mb.cache.find? (·.tag == t.tag) with
  | none => s.modInst i fun x => { x with mb := { x.mb with cache := cacheAdd x.mb.cache ⟨t.tag, digest, none⟩ } }
  | some k =>
    if k.digest != digest then s.complete i t.idx stTagConflict []
    else
      match k.cpl with
      | none => s.modTaken i t.idx fun t => { t with copies := true }
      | some old => s.writeCopies i [t] (old.take 28) ((old[28]?).getD 0) ((old[29]?).getD 0)

/-- Firmware reads the next command of an instance and takes it, or its read fails (R282, R508). -/
def execCommandTake (i : Fin 512) (e : ReadEnd) (entry : List Byte) (s : State) : Res :=
  guarded (Instr.wf (.commandTake i e entry)) <|
    if !s.mayTake i.val then s
    else
      let m := (s.inst i.val).mb
      let base := s.pair .INST_MB_CMD_BASE_LO .INST_MB_CMD_BASE_HI 0 i.val
      let at_ := base + 64 * (m.fetch.toNat % 2 ^ s.fld .INST_MB_CFG_CMD_SIZE 0 i.val)
      let s := s.emit (.hostRead (s.pasidOf i.val) (BitVec.ofNat 64 at_) 64)
      if e != .ok then (s.setBit .INST_MB_STATUS_FETCH_ERR 0 i.val).readError 0 i.val e true
      else
        let t : Taken :=
          { idx := m.fetch, entry := entry, started := false, copies := false, waiting := false, boundary := 0, result := [], ran := .notSent
            pertOn := s.perturbed, pertSeq := s.ptbSeq }
        let s := s.modInst i.val fun x => { x with mb := { x.mb with fetch := x.mb.fetch + 1, taken := x.mb.taken ++ [t] } }
        s.lookUp i.val t

/-! Starting (R285, R286, R342). -/

/-- An object that commands name (R286): its kind and number. -/
inductive CmdObject where
  | flow (inst num : Nat)
  | port (trunk depth route port : Nat)
  | node (addr : Nat)
  | instance_ (n : Nat)
  | estimator (n : Nat)
  | device
deriving DecidableEq, Repr

/-- The objects that a command of instance `i` names. -/
def Taken.objects (t : Taken) (i : Nat) : List CmdObject :=
  let op := t.opcode
  let pa : CmdObject := .port (t.arg 8 1) (t.arg 9 1) (t.arg 10 2) (t.arg 12 1)
  if 0x0101 ≤ op && op ≤ 0x0109 then [.instance_ (t.arg 8 2)]
  else if [0x0201, 0x0202, 0x0203, 0x0204, 0x0205, 0x0209, 0x020A].contains op then [pa]
  else if op = 0x0206 then [.port (t.arg 8 1) 0 0 0]
  else if op = 0x0207 then [.node (t.arg 10 2)]
  else if op = 0x0208 then [.node (t.arg 10 2), .instance_ (t.arg 12 2)]
  else if op = 0x0301 then
    [.instance_ i, .node (t.arg 10 2)] ++
      (if t.arg 8 1 = 2 || t.arg 8 1 = 3 || (t.arg 8 1 = 0 && t.arg 16 1 % 4 = 2) then [.estimator (t.arg 40 1)] else [])
  else if op = 0x0303 ∨ op = 0x0307 then [.instance_ i, .flow i (t.arg 8 2)]
  else if op = 0x0305 then [.instance_ i]
  else if op = 0x0302 ∨ op = 0x0304 ∨ op = 0x0306 then [.flow i (t.arg 8 2)]
  else if op = 0x0308 then [.node (t.arg 10 2)]
  else if op = 0x0404 then [.estimator (t.arg 8 1)] ++ (if t.arg 9 1 / 2 % 4 = 1 then [.node (t.arg 36 2)] else [])
  else if op = 0x0405 then [.estimator (t.arg 8 1)] ++ (if t.arg 10 2 = 0xFFFF then [] else [.flow i (t.arg 10 2)])
  else if op = 0x0603 ∨ op = 0x0604 then [.port (t.arg 8 1) 0 0 0]
  else if [0x0601, 0x0406, 0x0402, 0x0403, 0x0501, 0x0502, 0x0503, 0x0504, 0x0702, 0x0706].contains op then [.device]
  else []

/-- The opcodes of command set 1.4. -/
def knownOpcodes : List Nat :=
  [0x0001, 0x0002, 0x0003, 0x0004] ++ (List.range 9).map (0x0101 + ·) ++ (List.range 10).map (0x0201 + ·) ++
    (List.range 8).map (0x0301 + ·) ++ (List.range 6).map (0x0401 + ·) ++ (List.range 4).map (0x0501 + ·) ++
    (List.range 4).map (0x0601 + ·) ++ (List.range 6).map (0x0701 + ·)

/-- The opcodes that the boot ROM serves (R310). -/
def romOpcodes : List Nat := [0x0001, 0x0002, 0x0701, 0x0702, 0x0703]

/-- A command of this opcode is known to what serves the mailbox. -/
def State.knows (s : State) (op : Nat) : Bool := (if s.boot.rom then romOpcodes else knownOpcodes).contains op

/-- An earlier command stands in the way (R286): one that names the same object, or, with FENCE, any earlier one of the instance. -/
def State.blocked (s : State) (i : Nat) (t : Taken) : Bool :=
  let mine := t.objects i
  let base := (s.inst i).mb.oldest
  let earlier (u : Taken) : Bool := decide ((u.idx - base).toNat < (t.idx - base).toNat)
  (t.flags / 2 % 2 == 1 && (s.inst i).mb.taken.any earlier) ||
    s.insts.any fun e => e.2.mb.taken.any fun u =>
      u.started && !(e.1 == i && u.idx == t.idx) && (u.objects e.1).any fun o => mine.contains o

/-- A command that could start now. -/
def State.startable (s : State) (i : Nat) (t : Taken) : Bool := !t.started && !t.copies && !s.blocked i t

/-- An instance's turn to start a command (R285): the manager first, the others round robin. -/
def State.startTurn (s : State) (i : Nat) : Bool :=
  let waits (e : Nat × Instance) : Bool := e.2.mb.taken.any (s.startable e.1)
  i == 0 || (!(s.insts.filter (·.1 == 0)).any waits &&
    minBy (turnFrom 512 s.turns.cmds) ((s.insts.filter fun e => e.1 != 0 && waits e).map (·.1)) == some i)

/-- A taken command starts (R285, R286): the manager's before others', those of one instance in ring order. An unknown opcode ends it. -/
def execCommandStart (c : CmdRef) (s : State) : Res :=
  .next <|
    let i := c.inst.val
    match s.taken c with
    | none => s
    | some t =>
      let m := (s.inst i).mb
      let first := !m.taken.any fun u => decide ((u.idx - m.oldest).toNat < (t.idx - m.oldest).toNat) && s.startable i u
      if s.serves i && s.startable i t && first && s.startTurn i then
        let s := if i = 0 then s else { s with turns := { s.turns with cmds := i + 1 } }
        if s.knows t.opcode then s.modTaken i t.idx fun t => { t with started := true }
        else s.complete i t.idx stBadOpcode []
      else s

/-! The checks common to every command (R280, R291–R294). -/

/-- What a command's table rows say: its opcode, the bytes it names with the bits it uses, its modes, and whether only the manager may issue
it. -/
structure Frame where
  opcode : Nat
  /-- Offset, number of bytes, mask of the bits used. -/
  named : List (Nat × Nat × Nat)
  modes : List Mode
  manager : Bool

/-- The modes of a table's column (R292). -/
def modesAll : List Mode := [.dormant, .standby, .setup, .run, .hold, .service]
def modesURHV : List Mode := [.setup, .run, .hold, .service]
def modesSURHV : List Mode := [.standby, .setup, .run, .hold, .service]
def modesRH : List Mode := [.run, .hold]

/-- The bits of byte `o` that a frame names. -/
def Frame.mask (fr : Frame) (o : Nat) : Nat :=
  fr.named.foldl (fun (m : Nat) x => if x.1 ≤ o && o < x.1 + x.2.1 then m ||| (x.2.2 / 256 ^ (o - x.1) % 256) else m) 0

/-- The first byte with a bit that must be zero (R280). -/
def Frame.reserved (fr : Frame) (t : Taken) : List Nat :=
  (if t.flags / 4 ≠ 0 then [2] else []) ++ (if t.arg 3 1 ≠ 0 then [3] else []) ++
    (((List.range 56).map (· + 8)).filter fun o => t.arg o 1 &&& (255 ^^^ fr.mask o) != 0)

/-- Runs a command: nothing where it has not started or waits, or no firmware serves it; the common checks, of which the first that fails
decides (R293); then its own work. `ranges` lists bytes whose values break a rule. -/
def State.command (s : State) (c : CmdRef) (fr : Frame) (ranges : Taken → List (Nat × Bool)) (permitted : Taken → Bool)
    (act : Taken → State) : State :=
  match s.taken c with
  | none => s
  | some t =>
    if !t.started || t.copies || t.waiting || t.opcode != fr.opcode || !s.serves c.inst.val || !s.knows t.opcode then s
    else
      let bad := fr.reserved t ++ ((ranges t).filter (·.2)).map (·.1)
      match bad with
      | b :: bs => s.done c stBadParam [] (bs.foldl min b)
      | [] =>
        if (fr.manager && c.inst.val != 0) || !permitted t then s.done c stNotPermitted []
        else if !fr.modes.contains s.pmu.mode then s.done c stWrongMode []
        else act t

/-- Every issuer. -/
def anyone (_ : Taken) : Bool := true

/-- A command that has acted waits for the machine, with what it will return and the course it waits for. -/
def State.wait (s : State) (c : CmdRef) (result : List Byte) (boundary : Nat := 0) : State :=
  s.modTaken c.inst.val c.idx fun t => { t with waiting := true, result := result, boundary := boundary }

end Sys2Proof.Machine
end

