-- ==== Sys2Proof/Machine/CmdGeneral.lean ====
section
/-!
DEFINITION. The general commands (R295): NOP, IDENTIFY, GET_LIMITS, EVENT_ROUTE.
-/

namespace Sys2Proof.Machine

/-- A command without parameters. -/
def plainFrame (opcode : Nat) (modes : List Mode) (manager : Bool) : Frame := ⟨opcode, [], modes, manager⟩

/-- No byte has a range of its own. -/
def noRanges (_ : Taken) : List (Nat × Bool) := []

/-- NOP (R295). -/
def execNop (c : CmdRef) (s : State) : Res :=
  .next <| s.command c (plainFrame 0x0001 modesAll false) noRanges anyone fun _ => s.done c stOk []

/-! IDENTIFY. -/

/-- The fuse PTB_DISABLE (R442). -/
def ptbDisable : Bool := (Config.otpWord 20).getLsbD 0

/-- VERSION of the firmware that runs: that of the image it was loaded from; as built, 1.4.0 (assumption 13). -/
def State.fwImage (s : State) : Nat :=
  let x := if s.boot.running then s.boot.slotB else s.boot.slotA
  if x.valid then x.version.toNat else 0x010400

/-- MODE and the firmware version as IDENTIFY gives them: in ROM recovery the boot ROM answers (R436). -/
def State.identity (s : State) : List Byte :=
  if s.boot.rom then [5, 0xFF, 0xFF, 0xFF] else
    [BitVec.ofNat 8 s.pmu.mode.code, BitVec.ofNat 8 (s.fwImage / 65536), BitVec.ofNat 8 (s.fwImage / 256), BitVec.ofNat 8 s.fwImage]

/-- IDENTIFY (R295, R316). -/
def execIdentify (c : CmdRef) (s : State) : Res :=
  .next <| s.command c (plainFrame 0x0002 modesAll false) noRanges anyone fun _ =>
    let fuses := ptbDisable.toNat + gangAllowed.toNat * 2 + (s.flag .PTB_CFG_RUN_ENABLE).toNat * 4
    s.done c stOk <| leBytes 2 0x7512 ++ [0xB0] ++ s.identity ++ [BitVec.ofNat 8 cmdMajor, BitVec.ofNat 8 cmdMinor, s.gang.effMinor] ++
      leBytes 2 c.inst.val ++ [BitVec.ofNat 8 fuses, 0] ++ leBytes 2 maxInstances

/-! GET_LIMITS. -/

/-- Flow contexts in use by an instance; service flows count against the manager (R322). -/
def State.ctxUse (s : State) (i : Nat) : Nat := (s.flows.filter fun e => e.2.inst == i).length

/-- Ordering domains in use by an instance (R221). -/
def State.domsUsed (s : State) (i : Nat) : List Nat :=
  s.flows.foldl (fun (l : List Nat) e =>
    if e.2.inst == i && e.2.service.isNone && !l.contains e.2.dom then e.2.dom :: l else l) []

/-- The greatest use that an instance makes of a trunk's root link in a course of the active plan (R164, R295). -/
def State.slotUse (s : State) (i : Nat) (t : Fin 16) : Nat :=
  let fs := (s.planned false).filter fun f => f.inst == i
  ([false, true].flatMap fun up => (List.range 64).map fun j => baseLoad fs (.root t) up j).foldl max 0

/-- The instance page of GET_LIMITS. -/
def State.limitsPage (s : State) (i : Nat) : List Byte :=
  let h := (s.inst i).shares
  leBytes 2 h.ctx ++ leBytes 2 (s.ctxUse i) ++ leBytes 4 h.words ++ leBytes 4 (s.stageUse i) ++
    [BitVec.ofNat 8 h.blocks.length, BitVec.ofNat 8 h.weight] ++ leBytes 2 h.vecFirst ++ leBytes 2 h.vecs ++ leBytes 2 (s.domsUsed i).length

/-- GET_LIMITS (R295). -/
def execGetLimits (c : CmdRef) (s : State) : Res :=
  .next <| s.command c ⟨0x0003, [(8, 1, 0xFF)], modesAll, false⟩ (fun t => [(8, t.arg 8 1 ≥ 16 && t.arg 8 1 != 0xFF)]) anyone fun t =>
    let i := c.inst.val
    let page := t.arg 8 1
    if page = 0xFF then s.done c stOk (s.limitsPage i)
    else
      let k : Fin 16 := Fin.ofNat 16 page
      s.done c stOk (leBytes 2 (s.inst i).shares.slots[k] ++ leBytes 2 (s.slotUse i k))

/-! EVENT_ROUTE. -/

/-- EVENT_ROUTE (R295, R311): the codes named get their enable, their signal and their source. -/
def execEventRoute (c : CmdRef) (s : State) : Res :=
  let i := c.inst.val
  .next <| s.command c ⟨0x0004, [(8, 4, 0x000FFFFE), (12, 2, 0xFFFF), (14, 1, 3)], modesAll, false⟩
    (fun t => [(12, if t.arg 14 1 / 2 % 2 == 1 then !s.nameable i (t.arg 12 2) else t.arg 12 2 != 0)]) anyone fun t =>
    let codes : BitVec 32 := BitVec.ofNat 32 (t.arg 8 4)
    let put (old : BitVec 32) (on : Bool) : BitVec 32 := if on then old ||| codes else old &&& ~~~codes
    let named (k : Nat) : Bool := codes.getLsbD k && t.arg 14 1 / 2 % 2 == 1
    let src := (List.range 32).foldl (fun (m : KMap Nat) k => if named k then kset m k (t.arg 12 2) else m) (s.inst i).routes.src
    let s := s.modInst i fun x =>
      { x with routes := ⟨put x.routes.enabled (t.arg 14 1 % 2 == 1), put x.routes.signalled (t.arg 14 1 / 2 % 2 == 1), src⟩ }
    s.done c stOk (leBytes 4 (s.inst i).routes.enabled.toNat)

end Sys2Proof.Machine
end

