-- ==== Sys2Proof/Machine/CmdService.lean ====
section
/-!
DEFINITION. Service commands (R309, R310): ERRLOG_READ, TRACE_CONFIG, PERTURB_SET (R455–R458), SELFTEST.
-/

namespace Sys2Proof.Machine

/-! ERRLOG_READ. -/

/-- FLAGS of a record (R448). -/
def ErrRec.flags (r : ErrRec) : Nat := r.valid.toNat + r.fatalClass.toNat * 2 + r.overflow.toNat * 4 + r.aoTime.toNat * 8

/-- The 20 bytes of a record (R448). -/
def ErrRec.bytes (r : ErrRec) : List Byte :=
  leBytes 8 r.time.toNat ++ leBytes 2 r.code.toNat ++ [r.source, r.seq, BitVec.ofNat 8 r.flags, 0] ++ leBytes 2 r.count.toNat ++
    leBytes 4 r.detail.toNat

/-- ERRLOG_READ (R309, R451): the record, and with ACK its acknowledgement. -/
def execErrlogRead (c : CmdRef) (s : State) : Res :=
  .next <| s.command c ⟨0x0703, [(8, 1, 0xFF), (9, 1, 1)], modesAll, true⟩ (fun t => [(8, t.arg 8 1 > 6)]) anyone fun t =>
    let cat := t.arg 8 1
    let r := (s.errs.recs[cat]?).getD ErrRec.init
    (if t.arg 9 1 = 1 then s.ackRec cat else s).done c stOk r.bytes

/-! TRACE_CONFIG. -/

/-- Sets TRC_CTRL.EN; the change from 0 to 1 zeroes the ring's count (R251). -/
def State.traceEnable (s : State) (on : Bool) : State :=
  let was := s.flag .TRC_CTRL_EN
  let s := s.setFld .TRC_CTRL_EN on.toNat
  if on && !was then s.setFld .TRC_RING_PROD_PROD 0 else s

/-- Write of TRC_CTRL (R251). -/
def State.trcCtrlWrite (s : State) (v : Reg32) : State :=
  let was := s.flag .TRC_CTRL_EN
  let s := s.writeFields .TRC_CTRL 0 0 v
  if s.flag .TRC_CTRL_EN && !was then s.setFld .TRC_RING_PROD_PROD 0 else s

/-- TRACE_CONFIG (R309, R310): EN clears, the S fields are written, EN is set as asked. SIZE and RING_BASE apply to a ring only. -/
def execTraceConfig (c : CmdRef) (s : State) : Res :=
  let ring (t : Taken) : Bool := t.arg 8 1 / 2 % 2 == 1
  .next <| s.command c
    ⟨0x0704, [(8, 1, 0x0F), (9, 1, 0xFF), (10, 2, 0x81FF), (12, 2, 0xFFFF), (14, 1, 1), (15, 1, 0x1F), (16, 8, 0xFFFFFFFFFFFFFFFF)],
      modesURHV, true⟩
    (fun t => [(9, if ring t then t.arg 9 1 < 6 || t.arg 9 1 > 20 else t.arg 9 1 != 0),
      (16, if ring t then t.arg 16 8 % 64 != 0 else t.arg 16 8 != 0)]) anyone fun t =>
    let s := s.traceEnable false
    let s := ((s.setFld .TRC_CTRL_DEST (ring t).toNat).setFld .TRC_CTRL_STOP_FULL (t.arg 8 1 / 4)).setFld .TRC_CTRL_EVENTS (t.arg 8 1 / 8)
    let s := if ring t then
        ((s.setFld .TRC_RING_CFG_SIZE (t.arg 9 1)).setReg .TRC_RING_BASE_LO (BitVec.ofNat 32 (t.arg 16 8))).setReg .TRC_RING_BASE_HI
          (BitVec.ofNat 32 (t.arg 16 8 / 2 ^ 32))
      else s
    let s := (s.setFld .TRC_FILT_INST_INST (t.arg 10 2)).setFld .TRC_FILT_INST_ALL (t.arg 10 2 / 2 ^ 15)
    let s := (s.setFld .TRC_FILT_TRUNK_TRUNKS (t.arg 12 2)).setFld .TRC_FILT_TRUNK_NO_TRUNK (t.arg 14 1)
    let s := s.setReg .TRC_FILT_CLASS (BitVec.ofNat 32 (t.arg 15 1))
    (s.traceEnable (t.arg 8 1 % 2 == 1)).done c stOk []

/-! PERTURB_SET (R455–R459). -/

/-- THROTTLE: the index names something of the loop (R458). -/
def throttleIndexOk (loop idx : Nat) : Bool :=
  match loop with
  | 0 => idx < 8192
  | 3 | 4 | 5 => idx < 16
  | 7 => idx < 512 || idx == 0x1FFF
  | _ => idx == 0

/-- Natural depth of a loop (R11, R458). -/
def naturalDepth (loop : Nat) : Nat :=
  match loop with
  | 0 => 4 | 1 => 512 | 2 => 256 | 3 => 2 | 4 => 64 | 5 => 2048 | _ => 4096

/-- Bytes of PERTURB_SET outside the ranges of R456: what a control does not use is zero (R294). -/
def perturbRanges (t : Taken) : List (Nat × Bool) :=
  let ctl := t.arg 8 1
  let on := t.arg 9 1 == 1
  let target := t.arg 10 2
  let v := t.arg 12 4
  let targetOk : Bool := match ctl with
    | 0 => target == 0
    | 1 => target < 16 || target == 0xFFFF
    | 2 => throttleIndexOk (target / 2 ^ 13) (target % 2 ^ 13)
    | 3 => target % 2 ^ 15 ≤ 17
    | 4 => target < 8192
    | 5 => target < 512 || target == 0xFFFF
    | _ => target < 12 || target == 0xFFFF
  let valueOk : Bool := if !on then v == 0 else match ctl with
    | 0 => v == 0
    | 1 => v ≤ 65535
    | 2 => if target / 2 ^ 13 = 7 then 1 ≤ v && v ≤ 8191 else true
    | 3 => true
    | 4 => v % 2 ^ 16 == 1 || v % 2 ^ 16 == 2
    | 5 => v ≤ 10000000
    | _ => v ≤ 100000
  [(8, ctl > 6), (9, ctl == 0 && on), (10, ctl ≤ 6 && !targetOk), (12, ctl ≤ 6 && !valueOk)]

/-- A control turns on: its registers take the target and the value (R456–R458). -/
def State.perturbOn (s : State) (ctl target v : Nat) : State :=
  match ctl with
  | 1 =>
    let all := if target = 0xFFFF then 0xFFFF else s.fld .PTB_ENG_DELAY_ENGINES ||| 2 ^ target
    (s.setFld .PTB_ENG_DELAY_CCLK v).setFld .PTB_ENG_DELAY_ENGINES all
  | 2 =>
    let l := target / 2 ^ 13
    let depth := if l = 7 then v else min v (naturalDepth l)
    let s := ((s.setFld .PTB_THROTTLE_INDEX (target % 2 ^ 13) l).setFld .PTB_THROTTLE_DEPTH depth l).setFld .PTB_THROTTLE_ON 1 l
    if l = 7 then { s with ptbCount := s.ptbCount.filter fun e => e.1 < 1024 } else s
  | 3 =>
    let s := (s.setFld .PTB_BLKERR_CFG_LINK target).setFld .PTB_BLKERR_CFG_TRANSMIT (target / 2 ^ 15)
    let s := (s.setFld .PTB_BLKERR_CFG_ON 1).setFld .PTB_BLKERR_N_N (max 64 v)
    { s with ptbCount := kdel s.ptbCount 3 }
  | 4 => ((s.setFld .PTB_SILENCE_CONTEXT target).setFld .PTB_SILENCE_MODE v).setFld .PTB_SILENCE_PERIOD (v / 2 ^ 16)
  | 5 =>
    let all := target == 0xFFFF
    let s := (s.setFld .PTB_SFD_CFG_INSTANCE (if all then 0 else target)).setFld .PTB_SFD_CFG_ALL all.toNat
    (s.setFld .PTB_SFD_CFG_ON 1).setFld .PTB_SFD_NS_NS v
  | 6 =>
    let all := if target = 0xFFFF then 0xFFF else s.fld .PTB_WAKE_EXT_DOMAINS ||| 2 ^ target
    (s.setFld .PTB_WAKE_EXT_DOMAINS all).setFld .PTB_WAKE_EXT_EXT ((v + 7) / 8)
  | _ => s

/-- A control turns off for its target (R456): one that is set for another target stays. -/
def State.perturbOff (s : State) (ctl target : Nat) : State :=
  match ctl with
  | 1 =>
    let left := if target = 0xFFFF then 0 else s.fld .PTB_ENG_DELAY_ENGINES &&& (0xFFFF ^^^ 2 ^ target)
    if left = 0 then s.setReg .PTB_ENG_DELAY 0 else s.setFld .PTB_ENG_DELAY_ENGINES left
  | 2 =>
    let l := target / 2 ^ 13
    if s.fld .PTB_THROTTLE_INDEX l = target % 2 ^ 13 then s.setReg .PTB_THROTTLE 0 l else s
  | 3 =>
    if s.fld .PTB_BLKERR_CFG_LINK = target % 32 ∧ s.fld .PTB_BLKERR_CFG_TRANSMIT = target / 2 ^ 15 then
      (s.setReg .PTB_BLKERR_CFG 0).setReg .PTB_BLKERR_N 0
    else s
  | 4 => if s.fld .PTB_SILENCE_CONTEXT = target then s.setReg .PTB_SILENCE 0 else s
  | 5 =>
    let same := if s.flag .PTB_SFD_CFG_ALL then target == 0xFFFF else s.fld .PTB_SFD_CFG_INSTANCE == target
    if same then (s.setReg .PTB_SFD_CFG 0).setReg .PTB_SFD_NS 0 else s
  | _ =>
    let left := if target = 0xFFFF then 0 else s.fld .PTB_WAKE_EXT_DOMAINS &&& (0xFFF ^^^ 2 ^ target)
    if left = 0 then s.setReg .PTB_WAKE_EXT 0 else s.setFld .PTB_WAKE_EXT_DOMAINS left

/-- Every control turns off. -/
def State.perturbClear (s : State) : State :=
  let s := [Reg.PTB_ENG_DELAY, .PTB_BLKERR_CFG, .PTB_BLKERR_N, .PTB_SILENCE, .PTB_SFD_CFG, .PTB_SFD_NS, .PTB_WAKE_EXT].foldl
    (fun (s : State) r => s.setReg r 0) s
  let s := (List.range 8).foldl (fun (s : State) l => s.setReg .PTB_THROTTLE 0 l) s
  { s with ptbCount := [] }

/-- PERTURB_SET (R309, R310, R455, R456). -/
def execPerturbSet (c : CmdRef) (s : State) : Res :=
  let modes : List Mode := if s.flag .PTB_CFG_RUN_ENABLE then [.service, .run] else [.service]
  .next <| s.command c ⟨0x0705, [(8, 1, 0xFF), (9, 1, 1), (10, 2, 0xFFFF), (12, 4, 0xFFFFFFFF)], modes, true⟩ perturbRanges
    (fun _ => !ptbDisable) fun t =>
    let ctl := t.arg 8 1
    let s := if ctl = 0 then s.perturbClear
      else if t.arg 9 1 = 1 then s.perturbOn ctl (t.arg 10 2) (t.arg 12 4)
      else s.perturbOff ctl (t.arg 10 2)
    let s := s.ptbRefresh
    s.done c stOk [BitVec.ofNat 8 s.ptbControls]

/-! SELFTEST. -/

/-- SELFTEST (R309, R310): the tests asked for, of which `fails` fail; the loopback of the trunks needs every trunk port without power. -/
def execSelftest (c : CmdRef) (fails : BitVec 32) (s : State) : Res :=
  .next <| s.command c ⟨0x0706, [(8, 4, 0xFF)], [.service], true⟩ noRanges anyone fun t =>
    let tests := t.arg 8 4
    if tests.testBit 3 && s.ports.any fun x => x.state != .off && x.state != .fault then s.done c stBusy []
    else
      let bad := tests &&& fails.toNat
      s.done c stOk (leBytes 4 (tests - bad) ++ leBytes 4 bad)

end Sys2Proof.Machine
end

