-- ==== Sys2Proof/Machine/Inst.lean ====
section
/-!
DEFINITION. Instances (R317–R334, R340): creation, shares, reset and destroy, freeze and thaw, queries.
-/

namespace Sys2Proof.Machine

/-! Pools (R322–R324). -/

/-- What is granted of a pool. -/
def State.granted (s : State) (f : Shares → Nat) : Nat := (s.insts.map fun e => if e.2.state == .free then 0 else f e.2.shares).sum

/-- What is free of a pool. -/
def State.freeCtx (s : State) : Nat := 8192 - s.granted (·.ctx)
def State.freeStage (s : State) : Nat := 4194304 - s.granted (·.words)
def State.freeBlocks (s : State) : Nat := 224 - s.granted (·.blocks.length)
def State.freeVecs (s : State) : Nat := 2048 - s.granted (·.vecs)

/-- Slot pool of a trunk: the periodic cap of its root link at HR at the current period. -/
def State.slotPool (s : State) : Nat := capOf (s.blocks .hr)

/-- Free slots of a trunk's pool; 0 when the grants exceed it. -/
def State.freeSlots (s : State) (t : Fin 16) : Nat := s.slotPool - s.granted (·.slots[t])

/-- Free instance numbers. -/
def State.freeInsts (s : State) : Nat := ((List.range maxInstances).filter fun i => (s.inst i).state == .free).length

/-- The lowest free source blocks, at most `n` of them. -/
def State.takeBlocks (s : State) (n : Nat) : List Nat :=
  ((List.range 224).filter fun b => !s.insts.any fun e => e.2.shares.blocks.contains b).take n

/-- A vector is held by an instance other than `but`. -/
def State.vecHeld (s : State) (but v : Nat) : Bool :=
  s.insts.any fun e => e.1 != but && e.2.state != .free && decide (e.2.shares.vecFirst ≤ v) && decide (v < e.2.shares.vecFirst + e.2.shares.vecs)

/-- A range of vectors lies within the 2048 and meets no other instance's. -/
def State.vecsFree (s : State) (but first n : Nat) : Bool :=
  first + n ≤ 2048 && (List.range n).all fun k => !s.vecHeld but (first + k)

/-- The sources of some blocks as at creation: not pending, masked, their settings at reset values (R331). -/
def State.freshSources (s : State) (blocks : List Nat) : State :=
  (blocks.flatMap fun b => (List.range 8).map fun r => 256 + 8 * b + r).foldl (fun (s : State) n =>
    let g := s.gutter
    { s with gutter := { g with
        pend := bitPut g.pend n false, mask := bitPut g.mask n true, latch := bitPut g.latch n false, fast := bitPut g.fast n false
        wake := bitPut g.wake n false, stop := bitPut g.stop n false, cfg := kdel g.cfg n, last := kdel g.last n } }) s

/-- The registers of an instance page at their reset values. -/
def State.freshPage (s : State) (n : Nat) : State :=
  let mine (k : Nat) : Bool := decide (0x1000000 + n * 0x1000 ≤ k) && decide (k < 0x1000000 + (n + 1) * 0x1000)
  { s with regs := s.regs.filter fun e => !mine e.1, latch := s.latch.filter fun e => !mine e.1 }

/-- A PASID is in use by another instance, or is the manager's (R319). -/
def State.pasidUsed (s : State) (i pasid : Nat) : Bool :=
  (s.insts.any fun e => e.1 != i && e.1 != 0 && e.2.state != .free && e.2.pasid.toNat == pasid) ||
    (s.flag .INST_MGR_CFG_PASID_EN && s.fld .INST_MGR_CFG_PASID == pasid)

/-! INST_CREATE (R296, R297, R317, R318, R323). -/

/-- What INST_CREATE asks for, in its bytes; the same bytes carry the shares of an image (R336). -/
structure Ask where
  weight : Nat
  ctx : Nat
  words : Nat
  blocks : Nat
  vecFirst : Nat
  vecs : Nat
  slots : Vector Nat 16

/-- The shares that an entry of INST_CREATE asks for. -/
def askOf (e : List Byte) : Ask where
  weight := fieldAt e 13 1
  ctx := fieldAt e 14 2
  words := fieldAt e 16 4
  blocks := fieldAt e 20 1
  vecFirst := fieldAt e 22 2
  vecs := fieldAt e 24 2
  slots := Vector.ofFn fun t => fieldAt e (32 + 2 * t.val) 2

/-- The pools hold what is asked for. -/
def State.poolsHold (s : State) (i : Nat) (a : Ask) : Bool :=
  a.ctx ≤ s.freeCtx && a.words ≤ s.freeStage && a.blocks ≤ s.freeBlocks && s.vecsFree i a.vecFirst a.vecs &&
    (List.finRange 16).all fun t => a.slots[t] ≤ s.freeSlots t

/-- Shares carved from the pools for an instance that was FREE, with its PASID. -/
def State.carve (s : State) (i pasid : Nat) (a : Ask) : State :=
  let blocks := s.takeBlocks a.blocks
  let s := (s.freshPage i).freshSources blocks
  s.setInst i { Instance.init with
    state := .active, pasid := BitVec.ofNat 20 pasid, routes := Routes.all
    shares := ⟨a.ctx, a.words, a.weight, blocks, a.vecFirst, a.vecs, a.slots⟩ }

/-- The number that INST_CREATE means: the one named, or the lowest free one. -/
def State.createNumber (s : State) (t : Taken) : Option Nat :=
  let n := t.arg 8 2
  if n = 0xFFFF then ((List.range maxInstances).drop 1).find? fun i => (s.inst i).state == .free else some n

/-- See `State.carve`; with no source block asked for, the number of the first source is free (assumption 15). -/
def execInstCreate (c : CmdRef) (s : State) : Res :=
  .next <| s.command c
    ⟨0x0101, [(8, 2, 0xFFFF), (10, 3, 0xFFFFF), (13, 1, 0xFF), (14, 2, 0xFFFF), (16, 4, 0xFFFFFFFF), (20, 1, 0xFF), (22, 2, 0xFFFF),
      (24, 2, 0xFFFF), (32, 32, 2 ^ 256 - 1)], modesURHV, true⟩
    (fun t => [(8, t.arg 8 2 != 0xFFFF && (t.arg 8 2 == 0 || decide (t.arg 8 2 ≥ maxInstances))),
      (10, s.pasidUsed ((s.createNumber t).getD 0) (t.arg 10 3)), (13, t.arg 13 1 == 0), (20, t.arg 20 1 > 224)]) anyone fun t =>
    match s.createNumber t with
    | none => s.done c stNoResource []
    | some i =>
      let a := askOf t.entry
      if (s.inst i).state != .free then s.done c stWrongMode []
      else if s.poolsHold i a then
        let s := s.carve i (t.arg 10 3) a
        match (s.inst i).shares.blocks with
        | b :: _ => s.done c stOk (leBytes 2 i ++ leBytes 2 (256 + 8 * b))
        | [] =>
          let (w, s) := s.freeWord
          s.done c stOk (leBytes 2 i ++ leBytes 2 (w.toNat % 2 ^ 16))
      else s.done c stNoResource []

/-! INST_QUERY. -/

/-- INST_QUERY (R296, R341). -/
def execInstQuery (c : CmdRef) (s : State) : Res :=
  .next <| s.command c ⟨0x0105, [(8, 2, 0xFFFF), (10, 1, 0xFF)], modesAll, true⟩
    (fun t => [(8, t.arg 8 2 ≥ 512), (10, t.arg 10 1 > 1)]) anyone fun t =>
    let i := t.arg 8 2
    let x := s.inst i
    let st : Nat := match x.state with | .free => 0 | .active => 1 | .resetting => 2 | .frozen => 3
    let pasid := if i = 0 then s.fld .INST_MGR_CFG_PASID else x.pasid.toNat
    s.done c stOk <|
      if t.arg 10 1 = 0 then
        [BitVec.ofNat 8 st, 0] ++ leBytes 3 pasid ++ [0] ++ leBytes 2 (s.ctxUse i) ++ leBytes 4 (s.stageUse i) ++
          leBytes 4 x.epoch.toNat ++ leBytes 4 x.stall.cnt.toNat
      else leBytes 8 x.stall.openAt.toNat ++ leBytes 8 x.stall.closeAt.toNat

/-! Reset and destroy (R330–R332). -/

/-- Vectors from `first` on lose their HELD bits (R359). -/
def State.unheldVecs (s : State) (first n : Nat) : State :=
  { s with gutter := { s.gutter with held := s.gutter.held &&& ~~~(BitVec.ofNat 2048 ((2 ^ n - 1) * 2 ^ first)) } }

/-- Writes of an instance that wait to be issued are dropped, with the raises that were to follow them (R330, R341); messages decided before
are issued (R359). -/
def State.dropPosted (s : State) (i : Nat) : State :=
  { s with hostq := s.hostq.filter fun p => match p with
      | .write (.hostWrite pasid _ _) => pasid != s.pasidOf i
      | .write _ => true
      | .raise n => s.srcOwner n != some i }

/-- At the start of a reset the instance's sources are as at creation, and its vectors lose their HELD bits (R359). -/
def State.dropSignals (s : State) (i : Nat) : State :=
  (s.freshSources (s.inst i).shares.blocks).unheldVecs (s.inst i).shares.vecFirst (s.inst i).shares.vecs

/-- Work of the old epoch that keeps a transfer of a resetting instance: a packet of it is queued, in an engine's hand, or awaits its
response. -/
def State.inFlight (s : State) (ctx : Nat) (x : Transfer) : Bool :=
  s.txq.any (fun q => q.any fun e => e.ctx == ctx && e.idx == x.idx && e.reason != .hold) ||
    s.expects.any (fun w => w.ctx == ctx && w.idx == x.idx) ||
    s.engines.any fun g => (match g.sched with
      | some (k, e) => k == ctx && e.reason != some .hold && x.course == some e.course && x.slot == e.slot
      | none => false) || g.unsched == some ctx

/-- A flow of an instance at the start of its reset: no number names it, it is held, it leaves the plan at the boundary, and only what is in
flight stays. -/
def State.dropFlow (s : State) (b ctx : Nat) : State :=
  match s.flow ctx with
  | none => s
  | some f =>
    let lost := f.xfers.filter fun x => !s.inFlight ctx x
    let s := lost.foldl State.freeWords s
    let s := s.modFlow ctx fun f =>
      let g := { f with
        num := 0x2000, causes := { f.causes with command := true }, xfers := f.xfers.filter fun x => !lost.any fun y => y.idx == x.idx }
      if f.par.ty.scheduled then g.addChange ⟨b, false, true, false, none, false, none⟩ else g
    s.cancelTask ctx

/-- Committed slots of an instance's flows carry their hold policies (R330). -/
def State.holdCommitted (s : State) (cs : List Nat) : State :=
  { s with planq := s.planq.map fun q => q.filterMap fun e => if cs.contains e.ctx then s.rebuilt e else some e }

/-- The reset of an instance starts (R297, R330, R341): its mailbox is disabled and its commands are aborted, the epoch advances, binding
stops. -/
def State.startReset (s : State) (i : Nat) (destroy : Bool) (cmd : Option CmdRef) : State :=
  let s := s.dropPosted i
  let s := ((s.inst i).mb.taken.filter fun t => !t.copies).foldl (fun (s : State) t => s.complete i t.idx stAborted []) s
  let s := (s.setFld .INST_MB_CFG_ENABLE 0 0 i).setBit .INST_MB_STATUS_ABORTED 0 i
  let s := (s.dropSignals i).stallClose i
  let cs := (s.flows.filter fun e => e.2.inst == i && e.2.service.isNone).map (·.1)
  let lead := (cs.map fun k => ((s.flow k).map (·.par.lead)).getD 0).foldl max 0
  let b := s.changeFrom lead
  let s := s.modInst i fun x =>
    { x with
      state := .resetting, epoch := x.epoch + 1, freezeAt := none, thawAt := none, quiescent := false, reset := some ⟨destroy, 0, cmd⟩
      mb := { x.mb with taken := [], cache := [] } }
  let s := cs.foldl (fun (s : State) k => s.dropFlow b k) s
  let s := s.holdCommitted cs
  if cs.any fun k => ((s.flow k).map (·.par.ty.scheduled)).getD false then s.planAgain else s

/-- A flow of an instance that is being reset is what a context holds. -/
def State.oldCtx (s : State) (i ctx : Nat) : Bool :=
  match s.flow ctx with
  | some f => f.inst == i && f.service.isNone
  | none => false

/-- An engine holds work of the old epoch: a task, an expectation or a queue entry (R330). Hold packets belong to the new one. -/
def State.oldWork (s : State) (i : Nat) (e : Fin 16) : Bool :=
  (match s.engines[e].sched with | some (k, x) => s.oldCtx i k && x.reason != some .hold | none => false) ||
    (match s.engines[e].unsched with | some k => s.oldCtx i k | none => false) ||
    s.expects.any (fun w => w.engine == e && s.oldCtx i w.ctx) ||
    s.txq.any fun q => q.any fun x => x.engine == e && s.oldCtx i x.ctx && x.reason != .hold

/-- The instance that the flows of a destroyed one are counted under until they leave the plan: none. -/
def noInst : Nat := 512

/-- The flows of an instance once its reset completes: unscheduled contexts return, scheduled ones wait for the boundary (R330). -/
def State.endFlows (s : State) (i : Nat) (destroy : Bool) : State :=
  let cs := (s.flows.filter fun e => e.2.inst == i && e.2.service.isNone).map (·.1)
  cs.foldl (fun (s : State) k =>
    match s.flow k with
    | none => s
    | some f =>
      let s := f.xfers.foldl State.freeWords s
      if f.par.ty.scheduled then s.modFlow k fun f => { f with xfers := [], inst := if destroy then noInst else f.inst }
      else { s with flows := kdel s.flows k }) s

/-- The instance after a reset (R331). -/
def State.afterReset (s : State) (i : Nat) : State :=
  let s := (List.range 16).foldl (fun (s : State) q => s.setFld .INST_CQ_CFG_ENABLE 0 q i) s
  let s := s.freshSources (s.inst i).shares.blocks
  s.modInst i fun x => { x with state := .active, routes := Routes.all, reset := none }

/-- A destroyed instance (R332): shares, PASID and page are free, its nodes are unbound, their records are gone. -/
def State.afterDestroy (s : State) (i : Nat) : State :=
  let mine := (s.binds.filter fun e => e.2.inst == i).map (·.1)
  let s := s.freshSources (s.inst i).shares.blocks
  let s := { s with
    binds := s.binds.filter fun e => e.2.inst != i
    reseats := s.reseats.filter fun r => !mine.contains r.addr.toNat }
  (s.freshPage i).setInst i Instance.init

/-- The reset of an instance completes (R330–R332). -/
def State.endReset (s : State) (i : Nat) (r : ResetRun) : State :=
  let epoch := (s.inst i).epoch.toNat
  let s := s.endFlows i r.destroy
  let s := if r.destroy then s.afterDestroy i else s.afterReset i
  let s := s.happen .INST_EVENT_RESET_DONE 7
  match r.cmd with
  | some c => s.done c stOk (leBytes 4 epoch)
  | none => s

/-- An engine acknowledges the new epoch of an instance (R330). -/
def execEngineEpochAck (e : Fin 16) (i : Fin 512) (s : State) : Res :=
  .next <|
    match (s.inst i.val).reset with
    | none => s
    | some r =>
      if (s.inst i.val).state != .resetting || s.oldWork i.val e then s
      else
        let r := { r with acked := r.acked ||| BitVec.ofNat 16 (2 ^ e.val) }
        if r.acked = 0xFFFF then s.endReset i.val r else s.modInst i.val fun x => { x with reset := some r }

/-- The frame of a command that names an instance in bytes 8–9 and nothing else. -/
def instFrame (opcode : Nat) (modes : List Mode) (more : List (Nat × Nat × Nat)) : Frame := ⟨opcode, (8, 2, 0xFFFF) :: more, modes, true⟩

/-- The byte of an instance number that a command may not name: instance 0, or beyond the last (R297). -/
def badInst (t : Taken) : List (Nat × Bool) := [(8, t.arg 8 2 == 0 || decide (t.arg 8 2 ≥ maxInstances))]

/-- The state lets an instance be reset. -/
def Instance.lives (x : Instance) : Bool := x.state == .active || x.state == .frozen

/-- INST_RESET and INST_DESTROY start (R296, R330, R332). -/
def State.resetCmd (s : State) (c : CmdRef) (opcode : Nat) (destroy : Bool) : State :=
  s.command c (instFrame opcode modesURHV []) badInst anyone fun t =>
    if (s.inst (t.arg 8 2)).lives then (s.startReset (t.arg 8 2) destroy (some c)).wait c [] else s.done c stWrongMode []

/-- INST_RESET. -/
def execInstReset (c : CmdRef) (s : State) : Res := .next (s.resetCmd c 0x0103 false)

/-- INST_DESTROY. -/
def execInstDestroy (c : CmdRef) (s : State) : Res := .next (s.resetCmd c 0x0102 true)

/-! INST_SET_SHARE (R326–R329). -/

/-- What INST_SET_SHARE would make of the shares. -/
structure Change where
  inst : Nat
  ctx : Option Nat
  words : Option Nat
  slots : Option (Vector Nat 16)
  weight : Option Nat
  blocks : Option Nat
  vecs : Option Nat

/-- The shares that WHICH names. -/
def changeOf (t : Taken) : Change :=
  let which := t.arg 10 1
  let a := askOf t.entry
  { inst := t.arg 8 2
    ctx := if which.testBit 0 then some a.ctx else none
    words := if which.testBit 1 then some a.words else none
    slots := if which.testBit 2 then some a.slots else none
    weight := if which.testBit 3 then some a.weight else none
    blocks := if which.testBit 4 then some a.blocks else none
    vecs := if which.testBit 5 then some a.vecs else none }

/-- Shares that grow beyond their pools (R326). -/
def State.growsTooFar (s : State) (h : Change) : Bool :=
  let x := (s.inst h.inst).shares
  (h.ctx.any fun n => decide (s.freeCtx < n - x.ctx)) || (h.words.any fun n => decide (s.freeStage < n - x.words)) ||
    (h.blocks.any fun n => decide (s.freeBlocks < n - x.blocks.length)) ||
    (h.vecs.any fun n => decide (x.vecs < n) && !s.vecsFree h.inst x.vecFirst n) ||
    (h.slots.any fun v => (List.finRange 16).any fun t => decide (x.slots[t] < v[t]) && decide (s.freeSlots t < v[t] - x.slots[t]))

/-- A source in a block that a decrease removes is named by a register or a route, or is set to a target (R327). -/
def State.blockNamed (s : State) (i n : Nat) : Bool :=
  let x := s.inst i
  let named := [s.fld .INST_MB_CFG_SRC 0 i, s.fld .INST_STALL_CFG_SRC 0 i] ++ (List.range 16).map (fun q => s.fld .INST_CQ_CFG_SRC q i) ++
    x.routes.src.map (·.2)
  let targeted := (x.shares.blocks.drop n).any fun b => (List.range 8).any fun r => (s.gutter.srcCfg (256 + 8 * b + r)).kind != 0
  (decide (n < x.shares.blocks.length) && i != 0 && named.any fun k => decide (8 * n ≤ k)) || targeted

/-- A vector that a decrease removes belongs to a set of the instance (R327). -/
def State.vecNamed (s : State) (i n : Nat) : Bool :=
  s.gutter.cfg.any fun e => e.2.kind == 1 && s.srcOwner e.1 == some i &&
    (List.range 8).any fun k => e.2.vmask.getLsbD k && decide (n ≤ 8 * e.2.vblock.toNat + k)

/-- A plan fits an instance's decreased budgets and stage allowance. -/
def State.fitsCut (h : Change) (fs : List Planned) : Bool :=
  let mine := fs.filter fun f => f.inst == h.inst
  (match h.words with | some n => decide ((mine.map fun f => f.par.stageWords).sum ≤ n) | none => true) &&
    (match h.slots with
     | some v => (List.finRange 16).all fun t => [false, true].all fun up => (List.range 64).all fun j =>
         decide (baseLoad mine (.root t) up j ≤ v[t])
     | none => true)

/-- The cut concerns only what decreases. -/
def State.cutOf (s : State) (h : Change) : Change :=
  let x := (s.inst h.inst).shares
  { h with
    words := h.words.filter fun n => decide (n < x.words)
    slots := h.slots.bind fun v =>
      if (List.finRange 16).any fun t => decide (v[t] < x.slots[t]) then
        some (Vector.ofFn fun t => if v[t] < x.slots[t] then v[t] else 2 ^ 16)
      else none }

/-- The candidates of a forced decrease, the most recently admitted first (R328). -/
def State.candidates (s : State) (h : Change) (fs : List Planned) : List Planned :=
  let all := fs.filter fun f => f.inst == h.inst
  let mine := all.filter fun f => match s.flow f.ctx with | some g => g.service.isNone | none => false
  let cuts (t : Fin 16) : Bool := match h.slots with
    | some v => [false, true].any fun up => (List.range 64).any fun j => decide (v[t] < baseLoad all (.root t) up j)
    | none => false
  let words := match h.words with | some n => decide (n < (all.map fun f => f.par.stageWords).sum) | none => false
  ((mine.filter fun f => words || cuts f.pos.trunk).reverse)

/-- Removes candidates until the plan fits (R328): the contexts removed, in order. -/
def removeUntil (fits : List Planned → Bool) : List Planned → List Planned → List Nat
  | [], _ => []
  | f :: rest, fs =>
    if fits fs then []
    else f.ctx :: removeUntil fits rest (fs.filter fun g => g.ctx != f.ctx)

/-- A decrease that does not fit (R327). -/
def State.shareInUse (s : State) (h : Change) (force : Bool) : Bool :=
  let x := (s.inst h.inst).shares
  (match h.ctx with | some n => decide (n < x.ctx) && decide (n < s.ctxUse h.inst) | none => false) ||
    (!force && !State.fitsCut (s.cutOf h) (s.planned true)) ||
    (match h.blocks with | some n => decide (n < x.blocks.length) && s.blockNamed h.inst n | none => false) ||
    (match h.vecs with | some n => decide (n < x.vecs) && s.vecNamed h.inst n | none => false)

/-- Source blocks of an instance grow or shrink at its high end (R326). -/
def State.setBlocks (s : State) (i n : Nat) : State :=
  let have_ := (s.inst i).shares.blocks
  let more := s.takeBlocks (n - have_.length)
  let s := (s.freshSources more).freshSources (have_.drop n)
  s.modInst i fun x => { x with shares := { x.shares with blocks := have_.take n ++ more } }

/-- Takes the named shares: slot budgets that grow at once, those that shrink at the boundary. -/
def State.takeShares (s : State) (h : Change) (b : Nat) (removed : List Nat) : State :=
  let s := match h.blocks with | some n => s.setBlocks h.inst n | none => s
  let x := s.inst h.inst
  let s := match h.vecs with | some n => s.unheldVecs (x.shares.vecFirst + n) (x.shares.vecs - n) | none => s
  let up := match h.slots with
    | some v => Vector.ofFn fun t => max v[t] x.shares.slots[t]
    | none => x.shares.slots
  let cut := !removed.isEmpty || (s.cutOf h).slots.isSome
  s.modInst h.inst fun x =>
    { x with
      shares := { x.shares with
        ctx := h.ctx.getD x.shares.ctx, words := h.words.getD x.shares.words, weight := h.weight.getD x.shares.weight
        vecs := h.vecs.getD x.shares.vecs, slots := up }
      cutAt := if cut then some b else x.cutAt
      cutSlots := match h.slots with | some v => v | none => if x.cutAt.isSome then x.cutSlots else up
      revoked := x.revoked ++ removed
      revokedDescs := if x.cutAt.isSome then x.revokedDescs else 0 }

/-- The log of flows removed by a forced decrease (R329, R343). -/
def State.logRevoked (s : State) (i : Nat) (removed : List Nat) : State :=
  let s := (List.range 16).foldl (fun (s : State) n => s.setReg .INST_REVOKE_LOG 0 n i) s
  (removed.take 16).zipIdx.foldl (fun (s : State) (e : Nat × Nat) =>
    let num := ((s.flow e.1).map (·.num)).getD 0
    (s.setFld .INST_REVOKE_LOG_FLOW num e.2 i).setFld .INST_REVOKE_LOG_VALID 1 e.2 i) s

/-- The change of shares is carried out (R326, R328). -/
def State.shareAct (s : State) (c : CmdRef) (h : Change) (force : Bool) : State :=
  let fs := s.planned true
  let cut := s.cutOf h
  let removed := if force then removeUntil (State.fitsCut cut) (s.candidates cut fs) fs else []
  let lead := (removed.map fun k => ((s.flow k).map (·.par.lead)).getD 0).foldl max 0
  let b := s.changeFrom lead
  let forced := force && (cut.words.isSome || cut.slots.isSome)
  let s := if forced then s.logRevoked h.inst removed else s
  let s := removed.foldl (fun (s : State) k => s.modFlow k fun f => f.addChange ⟨b, false, true, false, none, false, none⟩) s
  let waits := cut.slots.isSome || !removed.isEmpty
  let s := s.takeShares h b removed
  if waits then s.planAgain.wait c [] b
  else s.done c stOk (if h.slots.isSome then leBytes 4 0 ++ leBytes 4 s.course.count.toNat else [])

/-- INST_SET_SHARE (R296, R326–R329). Bytes of shares that WHICH does not name are zero (R294); the first vector does not move. -/
def execInstSetShare (c : CmdRef) (s : State) : Res :=
  .next <| s.command c
    (instFrame 0x0104 modesURHV [(10, 1, 0x3F), (11, 1, 1), (13, 1, 0xFF), (14, 2, 0xFFFF), (16, 4, 0xFFFFFFFF), (20, 1, 0xFF), (22, 2, 0xFFFF),
      (24, 2, 0xFFFF), (32, 32, 2 ^ 256 - 1)])
    (fun t =>
      let w := t.arg 10 1
      [(8, t.arg 8 2 ≥ maxInstances), (13, if w.testBit 3 then t.arg 13 1 == 0 else t.arg 13 1 != 0), (14, !w.testBit 0 && t.arg 14 2 != 0),
        (16, !w.testBit 1 && t.arg 16 4 != 0), (20, if w.testBit 4 then t.arg 20 1 > 224 else t.arg 20 1 != 0),
        (22, t.arg 22 2 != 0 && !(w.testBit 5 && t.arg 22 2 == (s.inst (t.arg 8 2)).shares.vecFirst)),
        (24, !w.testBit 5 && t.arg 24 2 != 0), (32, !w.testBit 2 && t.arg 32 32 != 0)]) anyone fun t =>
    let h := changeOf t
    if !(s.inst h.inst).lives then s.done c stWrongMode []
    else if s.growsTooFar h then s.done c stNoResource []
    else if s.shareInUse h (t.arg 11 1 == 1) then s.done c stShareInUse []
    else s.shareAct c h (t.arg 11 1 == 1)

/-! Freeze and thaw (R333, R334, R340). -/

/-- The course that 32 bits of a count name, from the present course on; none where it lies behind. -/
def State.courseAhead (s : State) (v : Nat) : Option Nat :=
  let d := (v + 2 ^ 32 - s.course.count.toNat % 2 ^ 32) % 2 ^ 32
  if d < 2 ^ 31 then some (s.course.count.toNat + d) else none

/-- A boundary that a command names: at least 2 courses ahead; 0 names the first one. -/
def State.namedCourse (s : State) (v least : Nat) : Option Nat :=
  if v = 0 then some least else (s.courseAhead v).filter fun b => decide (least ≤ b)

/-- INST_FREEZE (R296, R333, R342): from a course whose commit point is still to come. -/
def execInstFreeze (c : CmdRef) (s : State) : Res :=
  .next <| s.command c (instFrame 0x0106 modesRH [(12, 4, 0xFFFFFFFF)])
    (fun t => badInst t ++ [(12, (s.namedCourse (t.arg 12 4) (s.course.count.toNat + 2)).isNone)]) anyone fun t =>
    let i := t.arg 8 2
    match s.namedCourse (t.arg 12 4) (s.course.count.toNat + 2) with
    | none => s
    | some f =>
      if (s.inst i).state != .active then s.done c stWrongMode []
      else
        let f := max f (s.committed + 1)
        (s.modInst i fun x => { x with freezeAt := some f }).wait c (leBytes 4 0 ++ leBytes 4 f) f

/-- The plan boundary of a restored instance's flows that are still to enter the plan. -/
def State.restoreBound (s : State) (i : Nat) : Nat :=
  (s.flows.flatMap fun e => if e.2.inst == i then (e.2.changes.filter (·.opens)).map s.boundaryOf else []).foldl max 0

/-- INST_THAW (R296, R340). -/
def execInstThaw (c : CmdRef) (s : State) : Res :=
  let least (t : Taken) : Nat := max (s.course.count.toNat + 2) (s.restoreBound (t.arg 8 2))
  .next <| s.command c (instFrame 0x0109 modesRH [(12, 4, 0xFFFFFFFF)])
    (fun t => badInst t ++ [(12, (s.namedCourse (t.arg 12 4) (least t)).isNone)]) anyone fun t =>
    let i := t.arg 8 2
    match s.namedCourse (t.arg 12 4) (least t) with
    | none => s
    | some b =>
      if (s.inst i).state != .frozen then s.done c stWrongMode []
      else (s.modInst i fun x => { x with thawAt := some b }).wait c (leBytes 4 0 ++ leBytes 4 b) b

/-- Nothing of a frozen instance is under way any more (R334). -/
def State.drained (s : State) (i : Nat) : Bool :=
  let mine (ctx : Nat) : Bool := s.oldCtx i ctx
  !(s.txq.any fun q => q.any fun e => mine e.ctx && e.reason != .hold) && !(s.expects.any fun w => mine w.ctx) &&
    !(s.engines.any fun g => (match g.sched with | some (k, x) => mine k && x.reason != some .hold | none => false) ||
      (match g.unsched with | some k => mine k | none => false)) &&
    s.flows.all fun e => !mine e.1 || e.2.xfers.all fun x =>
      x.fin.isNone && x.toWrite.isEmpty && !x.reading && !x.reordered && x.course.isNone && !(e.2.par.ty == .control && x.inProgress)

/-- A frozen instance becomes quiescent (R334). -/
def execInstanceQuiescent (i : Fin 512) (s : State) : Res :=
  .next <|
    let x := s.inst i.val
    if x.state == .frozen && !x.quiescent && s.drained i.val then
      (s.modInst i.val fun x => { x with quiescent := true }).happen .INST_EVENT_QUIESCENT 7
    else s

end Sys2Proof.Machine
end

