-- ==== Sys2Proof/Machine/Admit.lean ====
section
/-!
DEFINITION. Opening flows (R147, R158, R164, R165, R202): contexts and numbers, the flow as it stands when it is opened, the admission test with a
flow included, service flows (R106, R167, R184), closing a flow (R177).
-/

namespace Sys2Proof.Machine

/-! Numbers that firmware gives out. -/

/-- One of some numbers, which one is free (assumption 15). -/
def State.pick (s : State) (l : List Nat) : Option (Nat × State) :=
  let w := s.freeWord
  (l[w.1.toNat % l.length]?).map fun n => (n, w.2)

/-- A flow context of the instance's share for a new flow (R165, R227). -/
def State.takeContext (s : State) (i : Nat) : Option (Nat × State) :=
  if s.ctxUse i < (s.inst i).shares.ctx then s.pick ((List.range 8192).filter fun c => (s.flow c).isNone) else none

/-- A flow number of an instance (R202). -/
def State.takeNumber (s : State) (i : Nat) : Option (Nat × State) :=
  s.pick ((List.range 8192).filter fun n => (s.ctxOf i n).isNone)

/-- The next place in the order of admission (R159). -/
def State.nextOrder (s : State) : Nat := s.flows.foldl (fun (m : Nat) e => max m (e.2.order + 1)) 0

/-- A flow that has just been opened: index 0, initial toggles and sequences, counts zero (R82, R203, R228). -/
def newFlow (inst num : Nat) (pos : Pos) (addr : BitVec 12) (ep : BitVec 4) (service : Option Service) (par : FlowParams) (order : Nat) :
    Flow where
  inst := inst
  num := num
  pos := pos
  addr := addr
  ep := ep
  service := service
  par := par
  ring := 0
  ringLog := 2
  cq := 0
  dom := 0
  order := order
  active := false
  since := 0
  changes := []
  holdOld := []
  closedAt := none
  causes := HoldCauses.none
  prod := 0
  cons := 0
  fetched := 0
  fetching := 0
  xfers := []
  sendToggle := false
  recvToggle := false
  seq := 0
  acked := 0
  credit := 1
  recvSeq := 0
  probe := false
  lastSent := none
  due := none
  unconfirmed := []
  counts := FlowCounts.zero
  lastingAt := []
  lastingCycle := false
  escalateDue := none
  bulkDue := false
  toggleUnknown := false
  slots := []
  laps := []
  slotsNext := []
  lapsNext := []
  quietUntil := 0
  missing := 0
  lastBound := 0
  deadDone := 0
  sentTop := 0
  task := { Task.init with mask := par.ty.mask, state := .waiting, prio := par.prio }

/-- Stores a flow on its context; its task's flags are those of its condition (R228). -/
def State.putFlow (s : State) (ctx : Nat) (f : Flow) : State :=
  let s := { s with flows := kset s.flows ctx f }
  s.modFlow ctx fun f => { f with task := { f.task with flags := s.flagsOf ctx f } }

/-- The plan with every change, at the period that will be in force. -/
def State.nextPeriod (s : State) : Nat := s.periodAhead

/-- The admission test on the plan that the pending changes make (R164). -/
def State.admitNext (s : State) : Option Refused := s.admission (s.planned true) s.nextPeriod

/-- Opens a scheduled flow on a context as a pending change, the planner choosing its phase where `auto` says so (R127, R158, R164); or the refusal,
with nothing opened. -/
def State.openScheduled (s : State) (ctx : Nat) (f : Flow) (auto : Bool) (cmd : Option (Nat × BitVec 16)) : Except Refused State :=
  let from_ := s.changeFrom f.par.lead
  let ch : FlowChange := ⟨from_, true, false, false, none, false, cmd⟩
  let others := s.planned true
  let par := if auto then { f.par with phase := s.bestPhase others ⟨ctx, f.inst, f.pos, f.par, f.order⟩ } else f.par
  let s' := s.putFlow ctx { f with par := par, changes := [ch] }
  match s'.admitNext with
  | some r => .error r
  | none => .ok s'.planAgain

/-! Service flows (R167). -/

/-- Parameters of a service flow: essential PERIODIC_IN, a pooled retry reserve, no release (R106, R184). -/
def servicePar (words k : Nat) : FlowParams where
  ty := .periodicIn
  words := words
  k := k
  phase := 0
  q := 1
  lead := 1
  rel := .course
  lateFire := false
  policy := .skip
  essential := true
  dedicated := false
  prio := 0
  est := 0
  m := 0
  z := 0
  rho := 0
  safe := []
  safeAddr := 0
  packed := false
  packet := 0

/-- The refusal for want of a flow context (R165, R294). -/
def noContext : Refused := refuse stNoResource ckContexts none 0xFF 0xFF 1

/-- Firmware opens a service flow on the manager's behalf (R106, R167, R184, R322); the planner chooses its phase. -/
def State.openService (s : State) (pos : Pos) (addr : BitVec 12) (ep : BitVec 4) (svc : Service) (words k : Nat) : Except Refused State :=
  match s.takeContext 0 with
  | none => .error noContext
  | some (ctx, s) =>
    s.openScheduled ctx { newFlow 0 0 pos addr ep (some svc) (servicePar words k) s.nextOrder with quietUntil := s.boundaryIn 2 } true none

/-! Closing (R177). -/

/-- A flow is closing, or has closed (R302). -/
def Flow.closing (f : Flow) : Bool := f.closedAt.isSome || f.changes.any (·.closes)

/-- A scheduled flow leaves the plan at the next boundary that R176 allows. -/
def State.closeScheduled (s : State) (ctx : Nat) (cmd : Option (Nat × BitVec 16)) : State :=
  let lead := ((s.flow ctx).map (·.par.lead)).getD 0
  (s.modFlow ctx fun f => f.addChange ⟨s.changeFrom lead, false, true, false, none, false, cmd⟩).planAgain

/-- The service flows of a kind close (R167). -/
def State.closeService (s : State) (svc : Service) : State :=
  (s.ctxs fun f => f.service == some svc && !f.closing).foldl (fun (s : State) c => s.closeScheduled c none) s

end Sys2Proof.Machine
end

