-- ==== Sys2Proof/Machine/Tree.lean ====
section
/-!
DEFINITION. Enumeration (R96, R101, R102, R106), re-seat by identity (R116–R118), and the tree commands (R298, R299).
-/

namespace Sys2Proof.Machine

/-! What firmware knows and sends. -/

/-- The record of the device that is addressed and present at a place. -/
def State.nodeRec (s : State) (d : Pos) : Option NodeRec := (s.nodes.find? fun e => e.2.present && e.2.pos == d).map (·.2)

/-- The record of the hub at a place. -/
def State.hubRec (s : State) (h : Pos) : Option NodeRec := (s.nodeRec h).filter fun n => n.nports != 0

/-- A request that firmware runs to its end at a device (R84, R96): sent, performed, its status stage done. -/
def State.firmwareDoes (s : State) (d : Pos) (addr : BitVec 12) (q : Setup) : State :=
  let s := s.firmwareSends addr q
  match s.dev d with
  | none => s
  | some x =>
    match s.request (.node d) x q with
    | none => s.modDev d fun x => { x with ctrl := none, stalled0 := true }
    | some (s, _) => s.modDev d fun x => { x with ctrl := none, stalled0 := false, addr := x.addrNext.or x.addr, addrNext := none }

/-- Firmware sends SET_PORT_FEATURE or CLEAR_PORT_FEATURE to the hub of a port. -/
def State.hubFeature (s : State) (h : Pos) (q : Fin 16) (set : Bool) (feature : Nat) : State :=
  match s.hubRec h with
  | some n => s.firmwareDoes h n.addr (mkSetup false 1 (if set then 3 else 4) feature q.val 0)
  | none => s

/-- Firmware resets a port (R91, R96): a root port itself, a hub port through its hub. -/
def State.firmwareReset (s : State) (p : PortRef) : State :=
  match p with
  | .hub h q => s.hubFeature h q true 2
  | _ => s.requestReset p false

/-! Counting (R298). -/

/-- A result with 1 more in the two bytes at `o`. -/
def countUp (r : List Byte) (o : Nat) : List Byte := r.take o ++ leBytes 2 (min 0xFFFF (fieldAt r o 2 + 1)) ++ r.drop (o + 2)

/-- The TREE_ENUMERATE of a trunk that is under way counts: 0 nodes addressed, 2 hubs, 4 ENUM_FAIL, 6 TOO_DEEP, 8 re-seat matches. -/
def State.tally (s : State) (t : Fin 16) (o : Nat) : State :=
  (s.waitingCmds fun u => u.opcode == 0x0206 && u.arg 8 1 == t.val).foldl
    (fun (s : State) e => s.modTaken e.1 e.2.idx fun u => { u with result := countUp u.result o }) s

/-- A trunk enumerates without a further command: AUTO_ENUM, or a TREE_ENUMERATE under way (R96). -/
def State.enumerates (s : State) (t : Fin 16) : Bool :=
  s.flag .TRK_PCFG_AUTO_ENUM t.val || !(s.waitingCmds fun u => u.opcode == 0x0206 && u.arg 8 1 == t.val).isEmpty

/-! Addresses (R101). -/

/-- A re-seat record keeps its address: its window runs, or flows refer to it. -/
def State.keptRecord (s : State) (r : Reseat) : Bool := !r.expired || s.flows.any fun e => e.2.addr == r.addr

/-- An address that is not free (R101). -/
def State.addrTaken (s : State) (a : BitVec 12) : Bool :=
  s.nodes.any (fun e => e.2.present && e.2.addr == a) || s.flows.any (fun e => e.2.addr == a) ||
    s.reseats.any fun r => r.addr == a && s.keptRecord r

/-- The lowest free address that the map does not name. -/
def State.lowestAddr (s : State) : Option (BitVec 12) :=
  (((List.range 4065).drop 1).map (BitVec.ofNat 12)).find? fun a => !s.addrTaken a && !s.amap.any fun m => m.addr == a

/-- The address of a device that matched no record: the map's for a node, or the lowest free one (R101). -/
def State.chooseAddr (s : State) (d : Pos) (hub : Bool) : Option (BitVec 12) :=
  match (s.amap.find? fun m => m.trunk == d.trunk && m.route == d.route).filter fun m => !hub && !s.addrTaken m.addr with
  | some m => some m.addr
  | none => s.lowestAddr

/-! The walk (R96). -/

/-- A device is not addressed (R96, R102): ENUM_FAIL or TOO_DEEP; its port goes to DISABLED. -/
def State.enumFailed (s : State) (p : PortRef) (d : Pos) (tooDeep : Bool) : State :=
  let s := { s with enums := s.enums.filter fun r => r.pos != d }
  let s := s.tally d.trunk (if tooDeep then 6 else 4)
  let s := s.event 0 evEnumResult d.trunk.val (leBytes 2 (!tooDeep).toNat ++ leBytes 2 tooDeep.toNat)
  let s := match p with
    | .hub h q => s.hubFeature h q false 5
    | _ => s.disablePort p
  s.treeCmds d.trunk

/-- T_READY expires without an answer (R96). -/
def execEnumFail (p : PortRef) (s : State) : Res :=
  .next <|
    match p.below with
    | none => s
    | some d => if s.enabled p && s.enums.any fun r => r.pos == d then s.enumFailed p d false else s

/-- Flows of a node whose re-seat record ends without a match stay HELD with DETACHED (R117). -/
def State.recordEnds (s : State) (r : Reseat) : State :=
  let s := { s with reseats := s.reseats.map fun (x : Reseat) => if x.addr == r.addr then { x with expired := true } else x }
  s.setCausesAll (s.ctxs fun f => f.addr == r.addr && f.service.isNone) fun c => { c with detached := true }

/-- The record that waits for a node at a place. -/
def State.waitingRecord (s : State) (d : Pos) : Option Reseat := s.reseats.find? fun r => r.pos == d && !r.expired && r.resumeAt.isNone

/-- A re-seat window ends without a match (R116, R117). -/
def execReseatExpired (addr : BitVec 12) (s : State) : Res :=
  .next <|
    match s.reseats.find? fun r => r.addr == addr && !r.expired && r.resumeAt.isNone with
    | none => s
    | some r => (s.recordEnds r).nodeEvent evReseatExpired addr (leBytes 8 r.ident.toNat)

/-- A node that takes an address keeps the binding of that address only as the same device at the same place. -/
def State.keepBinding (s : State) (a : BitVec 12) (d : Pos) (desc : List Word) (matched : Bool) : State :=
  let same := match kget s.nodes a.toNat with
    | some n => n.pos == d && identOf n.desc == identOf desc && genOf n.desc == genOf desc
    | none => false
  if matched || same then s else { s with binds := kdel s.binds a.toNat }

/-- A place is enumerated afresh: the status-change flows of the hub there and of those below it close (R167). -/
def State.afresh (s : State) (d : Pos) : State :=
  { s with flows := s.flows.filter fun (e : Nat × Flow) =>
    !(e.2.service == some Service.hubStatus && e.2.pos.trunk == d.trunk && d.path.isPrefixOf e.2.pos.path) }

/-- A hub's configuration (R96 step 4, R106): its descriptor, its tier, its status-change flow. -/
def State.setUpHub (s : State) (d : Pos) (a : BitVec 12) : State :=
  let s := s.firmwareDoes d a (mkSetup true 0 1 2 0 2)
  let s := s.firmwareDoes d a (mkSetup false 1 5 (d.path.length + 1) 0 0)
  let s := s.firmwareDoes d a (mkSetup false 0 3 1 0 0)
  match s.openService d a 1 .hubStatus 1 6 with
  | .ok s => s
  | .error _ => s

/-- A node that matched its record (R117): a CLEAR_HALT for each of its flows, which run again from the first boundary at least 2 courses on. -/
def State.reseatNode (s : State) (d : Pos) (r : Reseat) : State :=
  let eps := s.flows.filterMap fun e => if e.2.addr == r.addr && e.2.service.isNone then some e.2.ep else none
  let s := eps.foldl (fun (s : State) ep => s.firmwareDoes d r.addr (clearHaltSetup ep)) s
  let s := (s.ctxs fun f => f.addr == r.addr && f.service.isNone).foldl (fun (s : State) c => s.modFlow c Flow.resetSeq) s
  let b := s.boundaryIn 2
  let s := { s with reseats := s.reseats.map fun (x : Reseat) => if x.addr == r.addr then { x with resumeAt := some b } else x }
  s.planAgain.tally d.trunk 8

/-- A device whose descriptor has been read gets its address and its configuration (R96, R101, R117). -/
def State.addressDevice (s : State) (p : PortRef) (d : Pos) (x : Device) (hub : Bool) (match_ : Option Reseat) : State :=
  let desc := x.board.desc
  match (match match_ with | some r => some r.addr | none => s.chooseAddr d hub) with
  | none => s.enumFailed p d false
  | some a =>
    let s := s.keepBinding a d desc match_.isSome
    let s := if match_.isSome then s else { s with reseats := s.reseats.filter fun r => r.addr != a }
    let s := s.firmwareDoes d 0 (mkSetup false 0 2 a.toNat 0 0)
    let known := match s.hubKnown d with | some n => if identOf n.desc == identOf desc then n.delays else [] | none => []
    let s := { s with
      nodes := kset s.nodes a.toNat ⟨a, d, desc, if hub then x.board.hub else [], none, true, 0, if hub then known else []⟩
      enums := s.enums.filter fun r => r.pos != d }
    let s := s.afresh d
    let s := if hub then s.setUpHub d a else s.firmwareDoes d a (mkSetup false 0 3 1 0 0)
    let s := s.sendDelay a.toNat
    let s := match match_ with | some r => s.reseatNode d r | none => s
    (s.tally d.trunk (if hub then 2 else 0)).treeCmds d.trunk

/-- A device has answered at address 0 (R96 steps 2–5, R99, R102, R116). -/
def State.foundDevice (s : State) (p : PortRef) (d : Pos) (x : Device) : State :=
  let desc := x.board.desc
  let hub := classOf desc == 1
  let s := s.firmwareDoes d 0 (mkSetup true 0 1 1 0 (wbits ((desc[0]?).getD 0) 35 28))
  if hub && d.path.length = 4 then s.enumFailed p d true
  else
    match s.waitingRecord d with
    | none => s.addressDevice p d x hub none
    | some r =>
      if r.ident == identOf desc && r.gen == genOf desc then s.addressDevice p d x hub (some r)
      else
        let s := (s.recordEnds r).nodeEvent evNodeChanged r.addr (leBytes 8 (identOf desc).toNat)
        s.addressDevice p d x hub none

/-- Firmware goes on with the enumeration of a port (R96): it resets one that reached DISABLED by attach; it polls the device of one that is
ENABLED, and `a` is how the poll ended. -/
def execAutoEnumerate (p : PortRef) (a : Answer) (s : State) : Res :=
  .next <|
    match p.below, s.port p with
    | some d, some x =>
      if !s.fwReady || !(s.enums.any fun r => r.pos == d) then s
      else if x.state == .disabled then (if s.enumerates d.trunk then s.firmwareReset p else s)
      else if x.state == .enabled && s.routeUp d then
        let s := s.firmwareSends 0 (mkSetup true 0 1 1 0 5)
        (match s.dev d with
          | some y => if a == .ack && y.answers && y.addr.isNone then s.foundDevice p d y else s
          | none => s)
      else s
    | _, _ => s

/-- Firmware powers the next port of a hub (R96 step 4). -/
def execHubPortPowerStep (h : Pos) (s : State) : Res :=
  .next <|
    match s.hubRec h with
    | none => s
    | some n =>
      if n.powered < n.nports && s.routeUp h && s.fwReady then
        let q : Fin 16 := Fin.ofNat 16 n.powered
        let s := (s.hubFeature h q true 1).modPort (.hub h q) fun x => { x with retries := 0 }
        let s := { s with nodes := kmod s.nodes n.addr.toNat fun n => { n with powered := n.powered + 1 } }
        s.treeCmds h.trunk
      else s

/-- The retry timer of a faulted hub port expires (R91), with the values set for the root port of its trunk (R420). -/
def execHubPortRetryExpiry (h : Pos) (p : Fin 16) (s : State) : Res :=
  .next <|
    match s.port (.hub h p) with
    | none => s
    | some x =>
      let lim := s.fld .PPM_TIMERS_RETRY_LIM h.trunk.val
      if x.state == .fault && s.fwReady && (lim == 255 || decide (x.retries.toNat < lim)) then
        (s.modPort (.hub h p) fun x => { x with retries := if x.retries = 255 then 255 else x.retries + 1 }).hubFeature h p true 1
      else s

/-! Commands that name a port. -/

/-- The frame of a command with a port address in bytes 8–12 (R294). -/
def paFrame (opcode : Nat) (modes : List Mode) (manager : Bool) (more : List (Nat × Nat × Nat)) : Frame :=
  ⟨opcode, [(8, 1, 0x0F), (9, 1, 0x07), (10, 2, 0xFFFF), (12, 1, 0x0F)] ++ more, modes, manager⟩

/-- The byte of a port address in error: a field out of range, or a port that its hub does not have. -/
def State.paBad (s : State) (t : Taken) : List (Nat × Bool) :=
  match paPort t.entry with
  | .error b => [(b, true)]
  | .ok (.hub h q) => [(12, match s.hubRec h with | some n => decide (n.nports ≤ q.val) | none => false)]
  | .ok _ => []

/-- A root port, or a port of a hub that is present. -/
def State.portThere (s : State) (p : PortRef) : Bool :=
  match p with
  | .hub h _ => (s.hubRec h).isSome
  | _ => true

/-- Bound, for a port (R291): the node on the port is bound to the issuer with the PORT option. -/
def State.boundPort (s : State) (i : Nat) (p : PortRef) : Bool :=
  i == 0 || s.nodes.any fun e => e.2.pos.above == p && (match kget s.binds e.1 with | some b => b.inst == i && b.port | none => false)

/-- Routed (R291): a node bound to the issuer whose route passes the port. -/
def State.routedPort (s : State) (i : Nat) (p : PortRef) : Bool :=
  i == 0 || s.nodes.any fun e => e.2.pos.ports.contains p && (match kget s.binds e.1 with | some b => b.inst == i | none => false)

/-- A test of the port that a command names. -/
def Taken.onPort (t : Taken) (f : PortRef → Bool) : Bool := match paPort t.entry with | .ok p => f p | .error _ => true

/-- Runs a command that names a port; with no hub there it ends with `absent`. -/
def State.portCommand (s : State) (c : CmdRef) (fr : Frame) (more : Taken → List (Nat × Bool)) (permitted : PortRef → Bool) (absent : Nat)
    (act : Taken → PortRef → Port → State) : State :=
  s.command c fr (fun t => s.paBad t ++ more t) (fun t => t.onPort permitted) fun t =>
    match paPort t.entry with
    | .error _ => s
    | .ok p => if s.portThere p then (match s.port p with | some x => act t p x | none => s.done c absent []) else s.done c absent []

/-- The state of a port as a command returns it (R90). -/
def State.portCode (s : State) (p : PortRef) : List Byte := [BitVec.ofNat 8 (((s.port p).map (·.state.code)).getD 0)]

/-- An admitted scheduled flow routes below a port; `services`: service flows count. -/
def State.admittedBelow (s : State) (p : PortRef) (services : Bool) : Bool :=
  s.flows.any fun e => e.2.par.ty.scheduled && e.2.closedAt.isNone && p.covers e.2.pos && (services || e.2.service.isNone)

/-- Power on (R91, R298): in FAULT the retry count clears and the port is OFF until power is good. -/
def State.portOn (s : State) (c : CmdRef) (p : PortRef) (x : Port) : State :=
  if x.state != .off && x.state != .fault then s.done c stOk (s.portCode p)
  else
    let s := s.wait c []
    match p with
    | .root t =>
      let s := s.modPort p fun x => { x with state := .off, cause := .none }
      { s with ppm := vmod s.ppm t.val fun y => { y with onReq := true, offReq := false } }
    | .hub h q => (s.modPort p fun x => { x with retries := 0 }).hubFeature h q true 1
    | .ga => s

/-- Power off (R91, R94, R299): the subtree ends as on detach. -/
def State.portCut (s : State) (c : CmdRef) (p : PortRef) : State :=
  let s := s.wait c []
  match p with
  | .root t =>
    let s := { s with ppm := vmod s.ppm t.val fun y => { y with onReq := false, offReq := true } }
    s.portOff p
  | .hub h q => ((s.endSubtree p).hubFeature h q false 1).settle p
  | .ga => s

/-- PORT_POWER (R298, R299). -/
def execPortPower (c : CmdRef) (s : State) : Res :=
  .next <| s.portCommand c (paFrame 0x0201 modesURHV true [(13, 1, 3)]) (fun t => [(13, t.arg 13 1 == 3)]) (fun _ => true) stWrongMode
    fun t p x =>
      if t.arg 13 1 % 2 = 1 then
        (match p with
          | .hub h _ => if ((s.dev h).map (·.tier)).getD 0 = 0 then s.done c stWrongMode [] else s.portOn c p x
          | _ => s.portOn c p x)
      else if t.arg 13 1 = 0 && s.admittedBelow p true then s.done c stBusy []
      else s.portCut c p

/-- PORT_RESET (R91, R298). -/
def execPortReset (c : CmdRef) (s : State) : Res :=
  .next <| s.portCommand c (paFrame 0x0202 modesURHV false []) (fun _ => []) (s.boundPort c.inst.val) stWrongMode fun _ p x =>
    if x.state == .disabled || x.state == .enabled || x.state == .suspended then (s.wait c []).firmwareReset p else s.done c stWrongMode []

/-- PORT_SUSPEND (R110, R298). -/
def execPortSuspend (c : CmdRef) (s : State) : Res :=
  .next <| s.portCommand c (paFrame 0x0203 modesURHV false []) (fun _ => []) (s.boundPort c.inst.val) stWrongMode fun _ p x =>
    if x.state != .enabled then s.done c stWrongMode []
    else if s.admittedBelow p false then s.done c stBusy []
    else
      let s := s.wait c []
      match p with
      | .hub h q => s.hubFeature h q true 3
      | _ => s.modPort p fun x => { x with suspendReq := true }

/-- PORT_RESUME (R113, R298): it joins a resume in progress. -/
def execPortResume (c : CmdRef) (s : State) : Res :=
  .next <| s.portCommand c (paFrame 0x0204 modesURHV false []) (fun _ => []) (s.boundPort c.inst.val) stWrongMode fun _ p x =>
    if x.state == .resuming then s.wait c []
    else if x.state != .suspended then s.done c stWrongMode []
    else
      let s := s.wait c []
      match p with
      | .hub h q => s.hubFeature h q true 4
      | _ => s.requestResume p false

/-- Codes of R414. -/
def PpmPhase.code : PpmPhase → Nat
  | .off => 0 | .ramping => 1 | .on => 2 | .limiting => 3 | .fault => 4 | .lockout => 5 | .noFeed => 6

/-- The change bits of a root port, as TRK_PEVENT holds them (R104, R119). -/
def rootChanges (v : Reg32) : BitVec 6 :=
  let b (k : Nat) : Nat := (v.getLsbD k).toNat
  BitVec.ofNat 6 (b 0 + b 1 * 2 + (v.getLsbD 2 || v.getLsbD 6).toNat * 4 + b 4 * 8 + b 7 * 16 + b 3 * 32)

/-- The status word, the retries used and the power state of a port (R104, R298, R414). -/
def State.portStatus (s : State) (p : PortRef) (x : Port) : List Byte :=
  match p with
  | .root t =>
    let y := { x with change := rootChanges (s.reg .TRK_PEVENT t.val), wakeEn := s.flag .TRK_PCFG_WAKE_EN t.val }
    leBytes 4 y.word.toNat ++ [s.ppm[t].retries, BitVec.ofNat 8 s.ppm[t].phase.code]
  | _ =>
    let power := match x.state with | .off => 0 | .fault => 4 | _ => 2
    leBytes 4 x.word.toNat ++ [x.retries, BitVec.ofNat 8 power]

/-- PORT_STATUS (R298): of a hub port only in the modes with courses, through its hub. -/
def execPortStatus (c : CmdRef) (s : State) : Res :=
  let hub (t : Taken) : Bool := t.arg 9 1 != 0
  let modes : List Mode := match s.taken c with | some t => if hub t then modesURHV else modesAll | none => modesAll
  .next <| s.portCommand c (paFrame 0x0205 modes false []) (fun _ => []) (s.routedPort c.inst.val) stDetached fun _ p x =>
    let s := match p with
      | .hub h q => (match s.hubRec h with | some n => s.firmwareDoes h n.addr (mkSetup true 1 1 0 q.val 1) | none => s)
      | _ => s
    s.done c stOk (s.portStatus p x)

/-- TRK_EYE of a link (R61). -/
def Ledger.eye (l : Ledger) : Nat := l.eyeH.toNat + l.eyeV.toNat * 2 ^ 8 + l.eyeHMin.toNat * 2 ^ 16 + l.eyeVMin.toNat * 2 ^ 24

/-- LINK_MARGIN (R298, R299): of a hub's link after its counts have been read and added. -/
def execLinkMargin (c : CmdRef) (s : State) : Res :=
  .next <| s.portCommand c (paFrame 0x0209 modesURHV false [(13, 1, 1)]) (fun _ => []) (s.routedPort c.inst.val) stDetached fun t p _ =>
    let s := match p with
      | .hub h q =>
        (match s.hubRec h with
          | some n => (s.modPort p Port.takeErrors).firmwareDoes h n.addr (mkSetup true 1 2 0 q.val 4)
          | none => s)
      | _ => s
    match s.port p with
    | none => s.done c stDetached []
    | some x =>
      let l := x.ledger
      let s := if t.arg 13 1 = 1 then s.modPort p fun x => { x with ledger := x.ledger.cleared } else s
      s.done c stOk (leBytes 4 l.blk.toNat ++ leBytes 4 l.crc.toNat ++ leBytes 4 l.retry.toNat ++ leBytes 4 l.eye ++
        [BitVec.ofNat 8 (rateCode x.linkRate), 0])

/-- LINK_RATE (R58–R60, R298, R299): BR asks for a step-down, HR resets the port with HR open to it. -/
def execLinkRate (c : CmdRef) (s : State) : Res :=
  .next <| s.portCommand c (paFrame 0x020A modesURHV true [(13, 1, 0xFF)]) (fun t => [(13, t.arg 13 1 != 1 && t.arg 13 1 != 2)]) (fun _ => true)
    stWrongMode fun t p x =>
      if t.arg 13 1 = 1 then
        if x.state != .enabled then s.done c stWrongMode []
        else
          let s := s.requestStep p
          let b := match s.port p with
            | some y => if y.stepPending then (if y.stepFrom = 0 then s.boundaryIn 8 else y.stepFrom) else 0
            | none => 0
          s.done c stOk (s.portCode p ++ [0, 0, 0] ++ leBytes 4 b)
      else if x.state == .disabled || x.state == .enabled || x.state == .suspended then
        let s := (s.wait c []).modPort p fun x => { x with hrFails := 0 }
        let s := match p with
          | .root t => s.setFld .TRK_CTRL_HR_EN 1 t.val
          | _ => s.modPort p fun x => { x with hrEn := true }
        s.firmwareReset p
      else s.done c stWrongMode []

/-! TREE_ENUMERATE. -/

/-- The data of a read that a command makes are as long as it asks for. -/
def State.readFits (s : State) (c : CmdRef) (opcode : Nat) (want : Taken → Option Nat) (e : ReadEnd) (data : List Byte) : Bool :=
  match s.taken c with
  | none => true
  | some t => t.opcode != opcode || e != .ok || (match want t with | some n => data.length == n | none => true)

/-- Firmware's read of host memory for a command (R449). -/
def State.cmdRead (s : State) (c : CmdRef) (addr bytes : Nat) (e : ReadEnd) : State :=
  let s := s.emit (.hostRead (s.pasidOf c.inst.val) (BitVec.ofNat 64 addr) bytes)
  if e == .ok then s else s.readError 0 c.inst.val e true

/-- The entries of an address map (R298); none where one is malformed. -/
def mapEntries (trunk : Fin 16) (data : List Byte) (n : Nat) : Option (List MapEntry) :=
  (List.range n).mapM fun k =>
    let v := fieldAt data (4 * k) 4
    let a := v / 2 ^ 16
    if 1 ≤ a && a ≤ 4064 then some ⟨trunk, BitVec.ofNat 16 v, BitVec.ofNat 12 a⟩ else none

/-- The walk over a trunk starts (R96): its root port is reset where it has a device. -/
def State.treeWalk (s : State) (c : CmdRef) (t : Fin 16) : State :=
  let s := s.wait c (List.replicate 10 0)
  let p := PortRef.root t
  let s := match s.ports[t].state with
    | .disabled | .enabled | .suspended => s.requestReset p false
    | _ => s
  s.treeCmds t

/-- TREE_ENUMERATE (R96, R101, R298, R299). -/
def execTreeEnumerate (c : CmdRef) (map : List Byte) (e : ReadEnd) (s : State) : Res :=
  let use (t : Taken) : Bool := t.arg 9 1 == 1
  guarded (s.readFits c 0x0206 (fun t => if use t then some (4 * t.arg 10 2) else none) e map) <|
    s.command c ⟨0x0206, [(8, 1, 0x0F), (9, 1, 1), (10, 2, 0xFFFF), (16, 8, 2 ^ 64 - 1)], modesURHV, true⟩
      (fun t => [(10, if use t then t.arg 10 2 > 4064 else t.arg 10 2 != 0), (16, if use t then t.arg 16 8 % 64 != 0 else t.arg 16 8 != 0)])
      anyone fun t =>
        let k : Fin 16 := Fin.ofNat 16 (t.arg 8 1)
        if use t then
          let s := if t.arg 10 2 = 0 then s else s.cmdRead c (t.arg 16 8) (4 * t.arg 10 2) e
          if e != .ok && t.arg 10 2 != 0 then s.done c stBadParam [] 16
          else
            match mapEntries k map (t.arg 10 2) with
            | none => s.done c stBadParam [] 16
            | some l => { s with amap := (s.amap.filter fun (m : MapEntry) => m.trunk != k) ++ l }.treeWalk c k
        else s.treeWalk c k

/-! Commands that name a node. -/

/-- A node address that no node can have (R65). -/
def badNode (a : Nat) : Bool := a == 0 || decide (4064 < a)

/-- Bound, for a node (R291). -/
def State.boundNode (s : State) (i a : Nat) : Bool :=
  i == 0 || (match kget s.binds a with | some b => b.inst == i | none => false)

/-- NODE_INFO (R298, R299). -/
def execNodeInfo (c : CmdRef) (s : State) : Res :=
  .next <| s.command c ⟨0x0207, [(10, 2, 0x0FFF), (16, 8, 2 ^ 64 - 1)], modesAll, false⟩
    (fun t => [(10, badNode (t.arg 10 2)), (16, t.arg 16 8 % 64 != 0)]) (fun t => s.boundNode c.inst.val (t.arg 10 2)) fun t =>
    match (kget s.nodes (t.arg 10 2)).filter (·.present) with
    | none => s.done c stDetached []
    | some n =>
      let w (k : Nat) : Word := (n.desc[k]?).getD 0
      let inst := match kget s.binds (t.arg 10 2) with | some b => b.inst | none => 0xFFFF
      let s := if t.arg 16 8 = 0 then s
        else State.postBytes (s.pasidOf c.inst.val) n.desc.length (t.arg 16 8) (laneBytes n.desc) s
      s.done c stOk (leBytes 8 (identOf n.desc).toNat ++ leBytes 2 (genOf n.desc).toNat ++
        [BitVec.ofNat 8 (classOf n.desc), BitVec.ofNat 8 (wbits (w 3) 11 8), BitVec.ofNat 8 (wbits (w 3) 6 0), BitVec.ofNat 8 (wbits (w 4) 35 32),
          BitVec.ofNat 8 (n.pos.trunk.val + n.pos.path.length * 16), 0] ++ leBytes 2 n.pos.route.toNat ++ leBytes 2 inst)

/-- A node's binding may not change (R299): it has open flows, or a re-seat record that is held. -/
def State.bindBusy (s : State) (a : Nat) : Bool :=
  s.flows.any (fun e => e.2.addr.toNat == a && e.2.service.isNone) || s.reseats.any fun r => r.addr.toNat == a && s.keptRecord r

/-- NODE_BIND (R298, R299). -/
def execNodeBind (c : CmdRef) (s : State) : Res :=
  .next <| s.command c ⟨0x0208, [(10, 2, 0x0FFF), (12, 2, 0xFFFF), (14, 1, 1)], modesURHV, true⟩
    (fun t => [(10, badNode (t.arg 10 2)), (12, t.arg 12 2 != 0xFFFF && decide (maxInstances ≤ t.arg 12 2)),
      (14, t.arg 12 2 == 0xFFFF && t.arg 14 1 != 0)]) anyone fun t =>
    let a := t.arg 10 2
    let i := t.arg 12 2
    let old := kget s.binds a
    let changes := match old with | some b => b.inst != i | none => false
    if (kget s.nodes a).isNone || (i != 0xFFFF && !(s.inst i).lives) then s.done c stWrongMode []
    else if changes && s.bindBusy a then s.done c stBusy []
    else
      let s := { s with binds := if i = 0xFFFF then kdel s.binds a else kset s.binds a ⟨i, t.arg 14 1 == 1⟩ }
      s.done c stOk []

end Sys2Proof.Machine
end

