-- ==== Sys2Proof/Machine/FlowCmd.lean ====
section
/-!
DEFINITION. The flow commands (R300–R303): FLOW_OPEN, FLOW_CLOSE, FLOW_MODIFY, FLOW_QUERY, PLAN_CHECK, FLOW_HOLD, FLOW_UNHOLD, and control transfers
that a command runs (R83, R114, R132).
-/

namespace Sys2Proof.Machine

/-! FLOW_OPEN: its parameters (R147–R149, R190, R300). -/

/-- Types by code (R300). -/
def flowTypeOf (n : Nat) : Option FlowType :=
  [FlowType.periodicOut, .periodicIn, .pacedOut, .pacedIn, .bulkOut, .bulkIn, .control][n]?

/-- The endpoint kind that a type needs (R97, R147). -/
def FlowType.epKind : FlowType → Nat
  | .periodicOut | .pacedOut => 1
  | .periodicIn | .pacedIn => 2
  | .bulkOut => 3
  | .bulkIn => 4
  | .control => 0

/-- The endpoint word of a node descriptor (R97). -/
def descEp (desc : List Word) (ep : Nat) : Option Word := (desc.drop 5).find? fun w => wbits w 35 32 == ep

/-- Release modes and hold policies by code (R300). -/
def relOf (n : Nat) : RelMode := if n = 1 then .timed else if n = 2 then .angle else .course
def policyOf (n : Nat) : HoldPolicy := if n = 1 then .safe else if n = 2 then .skip else .rep

/-- Words of a safe value: without the release word of TIMED and ANGLE flows (R149). -/
def safeWords (words : Nat) (rel : RelMode) : Nat := words - (rel != .course).toNat

/-- q of a scheduled flow at the period that will be in force (R158). -/
def State.qOf (s : State) (ty : FlowType) (k rho m : Nat) : Nat :=
  if ty.paced then pacedQ k (s.nextPeriod * 128) rho m else if ty.scheduled then 1 else 0

/-- The parameters that an entry of FLOW_OPEN gives. -/
def State.openPar (s : State) (t : Taken) (ty : FlowType) (safe : List Word) : FlowParams where
  ty := ty
  words := t.arg 12 1
  k := t.arg 13 1 % 8
  phase := if t.arg 13 1 / 8 % 2 = 1 then 0 else t.arg 14 1
  q := s.qOf ty (t.arg 13 1 % 8) (t.arg 48 4) (t.arg 41 3)
  lead := t.arg 17 1
  rel := relOf (t.arg 16 1 % 4)
  lateFire := t.arg 15 1 / 4 % 2 == 1
  policy := if ty.scheduled then policyOf (t.arg 16 1 / 4 % 4) else .skip
  essential := t.arg 15 1 % 2 == 1
  dedicated := t.arg 15 1 / 2 % 2 == 1
  prio := t.arg 16 1 / 16 % 8
  est := Fin.ofNat 8 (t.arg 40 1)
  m := t.arg 41 3
  z := t.arg 44 3
  rho := t.arg 48 4
  safe := safe
  safeAddr := BitVec.ofNat 64 (t.arg 32 8)
  packed := t.arg 15 1 / 8 % 2 == 1
  packet := t.arg 12 1

/-- A domain of an instance that holds flows of the other class (R170). -/
def State.domainMixed (s : State) (i dom : Nat) (sched : Bool) : Bool :=
  s.flows.any fun e => e.2.inst == i && e.2.service.isNone && e.2.dom == dom && e.2.par.ty.scheduled != sched

/-- A new domain is needed and all 1024 are in use (R221). -/
def State.noDomain (s : State) (i dom : Nat) : Bool :=
  !(s.domsUsed i).contains dom && decide (1024 ≤ (s.insts.map fun e => (s.domsUsed e.1).length).sum)

/-- Bytes of FLOW_OPEN that break a rule (R146–R149, R158, R170, R190, R203, R217, R294, R300). -/
def State.openBad (s : State) (i : Nat) (t : Taken) : List (Nat × Bool) :=
  match flowTypeOf (t.arg 8 1) with
  | none => [(8, true)]
  | some ty =>
    let node := kget s.nodes (t.arg 10 2)
    let ep := node.bind fun n => descEp n.desc (t.arg 9 1)
    let epField (hi lo : Nat) : Nat := (ep.map fun w => wbits w hi lo).getD 0
    let depth := (node.map fun n => wbits ((n.desc[4]?).getD 0) 31 24).getD 0
    let size := t.arg 12 1
    let k := t.arg 13 1 % 8
    let rel := t.arg 16 1 % 4
    let pol := t.arg 16 1 / 4 % 4
    let sched := ty.scheduled
    let angle := ty == .periodicOut && rel == 2
    let safeAddr := t.arg 32 8
    [(9, if ty == .control then t.arg 9 1 != 0 else node.isSome && epField 31 28 != ty.epKind),
      (10, badNode (t.arg 10 2)),
      (12, if ty == .control then size != 0
        else size < (if sched && rel != 0 then 2 else 1) || decide ((if sched then 16 else 64) < size) ||
          (ep.isSome && decide (epField 27 21 < size))),
      (13, if sched then decide (6 < k) || (ep.isSome && decide (k < epField 19 16)) else t.arg 13 1 != 0),
      (14, if sched then t.arg 13 1 / 8 % 2 == 0 && decide (2 ^ k ≤ t.arg 14 1) else t.arg 14 1 != 0),
      (15, (if sched then t.arg 15 1 / 4 % 2 == 1 && rel == 0 else t.arg 15 1 % 8 != 0) || (!ty.bulk && t.arg 15 1 / 8 % 2 == 1)),
      (16, rel == 3 || pol == 3 ||
        (if sched then t.arg 16 1 / 16 % 8 != 0 || (!ty.output && (rel != 0 || pol != 2)) else rel != 0 || pol != 0) ||
        (sched && rel != 0 && node.isSome && (epField 20 20 == 0 || depth == 0))),
      (17, if sched then t.arg 17 1 == 0 || decide (64 < t.arg 17 1) else t.arg 17 1 != 0),
      (18, s.domainMixed i (t.arg 18 2) sched),
      (20, !s.flag .INST_CQ_CFG_ENABLE (t.arg 20 1) i),
      (21, t.arg 21 1 < 2 || decide (16 < t.arg 21 1)),
      (24, t.arg 24 8 % 64 != 0),
      (32, safeAddr % 64 != 0 || (safeAddr != 0 && !(sched && ty.output)) || (safeAddr == 0 && sched && pol == 1)),
      (40, !ty.paced && !angle && t.arg 40 1 != 0),
      (41, if ty.paced then t.arg 41 3 == 0 else t.arg 41 3 != 0),
      (44, if ty.paced then decide (t.arg 41 3 ≤ t.arg 44 3) else t.arg 44 3 != 0),
      (48, if ty.paced then t.arg 41 3 != 0 && decide (16 < s.qOf ty k (t.arg 48 4) (t.arg 41 3)) else t.arg 48 4 != 0)]

/-- Bytes and bits that FLOW_OPEN names (R300). -/
def openFrame (modes : List Mode) : Frame :=
  ⟨0x0301, [(8, 1, 0xFF), (9, 1, 0x0F), (10, 2, 0x0FFF), (12, 1, 0xFF), (13, 1, 0x0F), (14, 1, 0x3F), (15, 1, 0x0F), (16, 1, 0x7F), (17, 1, 0xFF),
    (18, 2, 0x03FF), (20, 1, 0x0F), (21, 1, 0xFF), (24, 8, 2 ^ 64 - 1), (32, 8, 2 ^ 64 - 1), (40, 1, 0x07), (41, 3, 0xFFFFFF), (44, 3, 0xFFFFFF),
    (48, 4, 0xFFFFFFFF)], modes, false⟩

/-- Modes of an opening (R165, R300). -/
def openModes (t : Taken) : List Mode := if t.arg 8 1 ≤ 3 then [.run] else modesURHV

/-! Control transfers that firmware runs for a command. -/

/-- How a request of firmware to a node ends: a node that cannot be reached answers nothing, and one that does not take the request answers
STALL. -/
def State.outcome (s : State) (n : NodeRec) (q : Setup) (a : Answer) : Answer :=
  if !n.present || !s.routeUp n.pos then .lasting
  else
    match a, s.dev n.pos with
    | .ack, some x => if x.answers then (if (s.request (.node n.pos) x q).isSome then .ack else .stall) else .lasting
    | .ack, none => .lasting
    | _, _ => a

/-- A port of a route is being reset (R114). -/
def State.resetting (s : State) (d : Pos) : Bool :=
  d.ports.any fun p => match s.port p with | some x => x.state == .resetting | none => false

/-- A CLEAR_HALT of firmware to an endpoint (R82), with how it ended. -/
def State.clearHalt (s : State) (n : NodeRec) (ep : BitVec 4) (a : Answer) : State × Answer :=
  let q := clearHaltSetup ep
  let r := s.outcome n q a
  (if r == .ack then s.firmwareDoes n.pos n.addr q else s.firmwareSends n.addr q, r)

/-! FLOW_OPEN. -/

/-- The flow that an entry of FLOW_OPEN describes. -/
def State.openFlow (s : State) (i num : Nat) (n : NodeRec) (t : Taken) (ty : FlowType) (safe : List Word) : Flow :=
  { newFlow i num n.pos n.addr (BitVec.ofNat 4 (t.arg 9 1)) none (s.openPar t ty safe) s.nextOrder with
    ring := BitVec.ofNat 64 (t.arg 24 8), ringLog := t.arg 21 1, cq := Fin.ofNat 16 (t.arg 20 1), dom := t.arg 18 2 }

/-- A flow number, a context and, for a scheduled flow, the admission test (R164, R165, R202, R221): the state with the flow as it will be, or the
refusal. -/
def State.admitOpen (s : State) (c : CmdRef) (t : Taken) (ty : FlowType) (n : NodeRec) (safe : List Word) :
    Except Refused (State × Nat × Nat) :=
  let i := c.inst.val
  match s.takeContext i with
  | none => .error noContext
  | some (ctx, s) =>
    if s.noDomain i (t.arg 18 2) then .error (refuse stNoResource ckDomains none 0xFF 0xFF 1)
    else
      match s.takeNumber i with
      | none => .error noContext
      | some (num, s) =>
        let f := s.openFlow i num n t ty safe
        if ty.scheduled then
          (s.openScheduled ctx f (t.arg 13 1 / 8 % 2 == 1) (some (i, t.idx))).map fun s => (s, ctx, num)
        else .ok (s.putFlow ctx { f with active := true, since := s.course.count.toNat }, ctx, num)

/-- FLOW_OPEN's result but for what waits for the plan: number, context, φ, q (R300). -/
def State.openReply (s : State) (ctx num : Nat) : List Byte :=
  match s.flow ctx with
  | some f =>
    leBytes 2 num ++ leBytes 2 ctx ++ leBytes 4 0 ++ [BitVec.ofNat 8 f.par.phase, BitVec.ofNat 8 f.par.q] ++ leBytes 2 0 ++ leBytes 2 0xFFFF
  | none => []

/-- FLOW_OPEN after the checks common to every command (R293, R300): a node that is not there has no route to test. The admission test comes
before the CLEAR_HALT, and nothing is open where that fails. -/
def State.flowOpenAct (s : State) (c : CmdRef) (t : Taken) (ty : FlowType) (safe : List Word) (a : Answer) : State :=
  match kget s.nodes (t.arg 10 2) with
  | none =>
    let i := c.inst.val
    let r : Option Refused := if (s.takeContext i).isNone || (s.takeNumber i).isNone then some noContext
      else if s.noDomain i (t.arg 18 2) then some (refuse stNoResource ckDomains none 0xFF 0xFF 1) else none
    (match r with
      | some r => s.done c r.status r.record
      | none => s.done c stDetached [])
  | some n =>
    match s.admitOpen c t ty n safe with
    | .error r => s.done c r.status r.record
    | .ok (s', ctx, num) =>
      let ep : BitVec 4 := BitVec.ofNat 4 (t.arg 9 1)
      match (s.clearHalt n ep a).2 with
      | .ack =>
        let s := (s'.clearHalt n ep a).1
        if ty.scheduled then s.wait c (s.openReply ctx num) else s.done c stOk (s.openReply ctx num)
      | .stall => ((s.clearHalt n ep a).1).done c stBadParam [] 9
      | .lasting => ((s.clearHalt n ep a).1).done c (if s.resetting n.pos then stAborted else stDetached) []

/-- FLOW_OPEN (R147–R149, R164, R165, R170, R217, R221, R300). -/
def execFlowOpen (c : CmdRef) (safe : List Byte) (e : ReadEnd) (a : Answer) (s : State) : Res :=
  let n (t : Taken) : Nat := 8 * safeWords (t.arg 12 1) (relOf (t.arg 16 1 % 4))
  let modes : List Mode := match s.taken c with | some t => openModes t | none => []
  guarded (s.readFits c 0x0301 (fun t => if t.arg 32 8 = 0 then none else some (n t)) e safe) <|
    s.command c (openFrame modes) (s.openBad c.inst.val) (fun t => s.boundNode c.inst.val (t.arg 10 2)) fun t =>
      match flowTypeOf (t.arg 8 1) with
      | none => s
      | some ty =>
        if t.arg 32 8 = 0 then s.flowOpenAct c t ty [] a
        else
          let s := s.cmdRead c (t.arg 32 8) (n t) e
          if e == .ok then s.flowOpenAct c t ty (laneWords safe) a else s.done c stBadParam [] 32

/-! Commands that name a flow. -/

/-- The flow that bytes 8–9 name, of instance `i`. -/
def State.flowOf (s : State) (i : Nat) (t : Taken) : Option (Nat × Flow) :=
  (s.ctxOf i (t.arg 8 2)).bind fun ctx => (s.flow ctx).map fun f => (ctx, f)

/-- The frame of a command that names a flow. -/
def flowFrame (opcode : Nat) (modes : List Mode) (more : List (Nat × Nat × Nat)) : Frame := ⟨opcode, (8, 2, 0x1FFF) :: more, modes, false⟩

/-- Bytes 8–9 name no flow of the issuer (R291, R314). -/
def State.badFlow (s : State) (i : Nat) (t : Taken) : Nat × Bool := (8, (s.flowOf i t).isNone)

/-- Runs a command that names a flow of its issuer; one that is closing only where `closing` says so. -/
def State.flowCommand (s : State) (c : CmdRef) (fr : Frame) (more : Taken → List (Nat × Bool)) (closing : Bool)
    (act : Taken → Nat → Flow → State) : State :=
  s.command c fr (fun t => s.badFlow c.inst.val t :: more t) anyone fun t =>
    match s.flowOf c.inst.val t with
    | none => s
    | some (ctx, f) => if f.closing && !closing then s.done c stWrongMode [] else act t ctx f

/-- An unscheduled flow closes as the command executes (R177, R243): its descriptor in progress runs to its end, the others complete CANCELLED. -/
def State.closeNow (s : State) (c : CmdRef) (ctx : Nat) (f : Flow) : State :=
  let gone := f.xfers.filter fun x => x.fin.isNone && !f.inWork x
  let s := (s.cancelTask ctx).modFlow ctx fun f => { f with closedAt := some s.course.count.toNat }
  let s := s.finishAll (gone.map fun x => (ctx, x.idx)) .cancelled
  let s := s.wait c (leBytes 4 0 ++ leBytes 4 0 ++ leBytes 2 gone.length)
  if f.xfers.isEmpty then (s.freeContext ctx).closeCmds f.inst f.num else s

/-- FLOW_CLOSE (R177, R243, R301, R314). -/
def execFlowClose (c : CmdRef) (s : State) : Res :=
  .next <| s.flowCommand c (flowFrame 0x0302 modesURHV []) (fun _ => []) false fun _ ctx f =>
    if f.par.ty.scheduled then (s.closeScheduled ctx none).wait c [] else s.closeNow c ctx f

/-! FLOW_MODIFY. -/

/-- WHAT bits that change the plan: LEAD, REALIGN, RATE, PHASE, ZOFS (R303). -/
def planWhat (t : Taken) : Bool := t.arg 10 1 &&& 0x79 != 0

/-- Bytes of FLOW_MODIFY that break a rule (R301, R303). -/
def State.modifyBad (s : State) (i : Nat) (t : Taken) : List (Nat × Bool) :=
  match s.flowOf i t with
  | none => [(8, true)]
  | some (_, f) =>
    let w := t.arg 10 1
    let p := f.parAfter f.changes
    let safe := t.arg 24 8
    [(10, (w &&& 0x21 != 0 && !p.ty.scheduled) || (w.testBit 1 && p.ty.scheduled) || (w.testBit 2 && !p.ty.scheduled) ||
        (w &&& 0x58 != 0 && !p.ty.paced)),
      (12, if w.testBit 0 then t.arg 12 1 == 0 || decide (64 < t.arg 12 1) else t.arg 12 1 != 0),
      (13, !w.testBit 1 && t.arg 13 1 != 0),
      (14, if w.testBit 2 then t.arg 14 1 == 3 || (!p.ty.output && t.arg 14 1 != 2) else t.arg 14 1 != 0),
      (15, if w.testBit 5 then decide (2 ^ p.k ≤ t.arg 15 1) else t.arg 15 1 != 0),
      (24, if w.testBit 2 then safe % 64 != 0 || (safe != 0 && !p.ty.output) || (safe == 0 && t.arg 14 1 == 1 && p.safe.isEmpty) else safe != 0),
      (32, if w.testBit 6 then decide (p.m ≤ t.arg 32 3) else t.arg 32 3 != 0),
      (36, if w.testBit 4 then p.ty.paced && decide (16 < s.qOf p.ty p.k (t.arg 36 4) p.m) else t.arg 36 4 != 0)]

/-- The parameters that FLOW_MODIFY makes of a flow's, as far as they change the plan. -/
def State.modifyPlan (s : State) (t : Taken) (p : FlowParams) : FlowParams :=
  let w := t.arg 10 1
  let rho := if w.testBit 4 then t.arg 36 4 else p.rho
  { p with
    lead := if w.testBit 0 then t.arg 12 1 else p.lead
    phase := if w.testBit 5 then t.arg 15 1 else p.phase
    z := if w.testBit 6 then t.arg 32 3 else p.z
    rho := rho, q := if w.testBit 4 then s.qOf p.ty p.k rho p.m else p.q }

/-- A hold policy with its safe value. -/
def modifyHold (t : Taken) (safe : Option (List Word)) (p : FlowParams) : FlowParams :=
  if (t.arg 10 1).testBit 2 then
    { p with policy := policyOf (t.arg 14 1), safe := safe.getD p.safe
             safeAddr := if safe.isSome then BitVec.ofNat 64 (t.arg 24 8) else p.safeAddr }
  else p

/-- A change of a flow's plan, on top of those that already wait (R176). -/
def State.planChange (s : State) (f : Flow) (t : Taken) : FlowChange :=
  let p := s.modifyPlan t (f.parAfter f.changes)
  ⟨s.changeFrom (max p.lead f.par.lead), false, false, false, some p, (t.arg 10 1).testBit 3 || (t.arg 10 1).testBit 6, none⟩

/-- FLOW_MODIFY's changes that do not wait: the priority from the next decision, the hold policy from the next commit point, so that courses already
committed keep the old one (R155, R303). -/
def State.modifyNow (s : State) (ctx : Nat) (t : Taken) (safe : Option (List Word)) : State :=
  let prio (p : FlowParams) : FlowParams := if (t.arg 10 1).testBit 1 then { p with prio := t.arg 13 1 } else p
  s.modFlow ctx fun f =>
    { f with
      par := modifyHold t safe (prio f.par)
      holdOld := if (t.arg 10 1).testBit 2 then f.holdOld ++ [⟨s.committed, f.par.policy, f.par.safe⟩] else f.holdOld
      changes := f.changes.map fun ch => { ch with params := ch.params.map fun p => modifyHold t safe (prio p) }
      task := if (t.arg 10 1).testBit 1 then { f.task with prio := t.arg 13 1 } else f.task }

/-- FLOW_MODIFY after the checks (R303). -/
def State.modifyAct (s : State) (c : CmdRef) (t : Taken) (ctx : Nat) (f : Flow) (safe : Option (List Word)) : State :=
  if planWhat t then
    let ch := s.planChange f t
    let s' := s.modFlow ctx fun f => f.addChange ch
    match s'.admitNext with
    | some r => s.done c r.status r.record
    | none =>
      (s'.planAgain.modifyNow ctx t safe).wait c (leBytes 8 0 ++ [0, BitVec.ofNat 8 ((ch.params.getD f.par).q)])
        ((f.addChange ch).changes.getLast?.map (·.from_) |>.getD 0)
  else (s.modifyNow ctx t safe).done c stOk (leBytes 8 0 ++ [0, BitVec.ofNat 8 f.par.q])

/-- Bytes that FLOW_MODIFY names (R301). -/
def modifyFrame (modes : List Mode) : Frame :=
  flowFrame 0x0303 modes [(10, 1, 0x7F), (12, 1, 0xFF), (13, 1, 0x07), (14, 1, 0x03), (15, 1, 0x3F), (24, 8, 2 ^ 64 - 1), (32, 3, 0xFFFFFF),
    (36, 4, 0xFFFFFFFF)]

/-- Modes of a modification (R301). -/
def modifyModes (t : Taken) : List Mode := if planWhat t then [.run] else modesURHV

/-- FLOW_MODIFY (R176, R301, R303). -/
def execFlowModify (c : CmdRef) (safe : List Byte) (e : ReadEnd) (s : State) : Res :=
  let reads (t : Taken) : Option Nat :=
    if (t.arg 10 1).testBit 2 && t.arg 24 8 != 0 then (s.flowOf c.inst.val t).map fun x => 8 * safeWords x.2.par.words x.2.par.rel else none
  let modes : List Mode := match s.taken c with | some t => modifyModes t | none => []
  guarded (s.readFits c 0x0303 reads e safe) <|
    s.flowCommand c (modifyFrame modes) (s.modifyBad c.inst.val) false fun t ctx f =>
      match reads t with
      | none => s.modifyAct c t ctx f none
      | some n =>
        let s := s.cmdRead c (t.arg 24 8) n e
        if e == .ok then s.modifyAct c t ctx f (some (laneWords safe)) else s.done c stBadParam [] 24

/-! FLOW_QUERY (R302). -/

/-- Page 0. -/
def State.queryState (s : State) (ctx : Nat) (f : Flow) : List Byte :=
  let causes := s.causeBits f
  let st := if f.closing then 2 else if causes ≠ 0 then 1 else 0
  let slot := (f.slots.head?.bind fun x => x.2.head?).getD 0
  let lap := (f.laps.head?.bind fun x => x.2.head?).getD 0xFFFF
  [BitVec.ofNat 8 st, 0] ++ leBytes 2 causes ++ leBytes 2 ctx ++ leBytes 2 f.prod.toNat ++ leBytes 2 f.cons.toNat ++ leBytes 2 slot ++
    leBytes 2 lap ++ leBytes 2 (min 0xFFFF f.counts.badDesc) ++ [BitVec.ofNat 8 f.par.q, BitVec.ofNat 8 f.toggleUnknown.toNat]

/-- A saturating count of 4 bytes. -/
def count4 (n : Nat) : List Byte := leBytes 4 (min 0xFFFFFFFF n)

/-- Page 1. -/
def FlowCounts.page (n : FlowCounts) : List Byte :=
  count4 n.underrun ++ count4 n.notAccepted ++ count4 n.held ++ count4 n.retryDenied ++ count4 n.lasting

/-- Page 2: paced flows, and periodic outputs with ANGLE release. -/
def Flow.pacePage (f : Flow) : List Byte :=
  if f.par.ty.paced || (f.par.ty == .periodicOut && f.par.rel == .angle) then
    let u := if f.par.ty.paced then f.due.getD 0 else 0
    leBytes 6 (BitVec.ofInt 48 u).toNat ++ count4 f.counts.angleWait ++ count4 f.counts.overrate ++ count4 f.counts.angleErrMax ++
      count4 f.counts.angleVoid
  else []

/-- FLOW_QUERY (R301, R302). -/
def execFlowQuery (c : CmdRef) (s : State) : Res :=
  .next <| s.flowCommand c (flowFrame 0x0304 modesAll [(10, 1, 0xFF)]) (fun t => [(10, t.arg 10 1 > 2)]) true fun t ctx f =>
    s.done c stOk <|
      if t.arg 10 1 = 0 then s.queryState ctx f else if t.arg 10 1 = 1 then f.counts.page else f.pacePage

/-! FLOW_HOLD and FLOW_UNHOLD (R178, R303). -/

/-- FLOW_HOLD: a scheduled flow is held from the first course whose commit point is still to come. -/
def execFlowHold (c : CmdRef) (s : State) : Res :=
  .next <| s.flowCommand c (flowFrame 0x0306 modesRH []) (fun _ => []) false fun _ ctx f =>
    let first := if f.par.ty.scheduled then s.committed + 1 else s.course.count.toNat
    (s.setCauses ctx fun k => { k with command := true }).done c stOk (leBytes 4 0 ++ leBytes 4 first)

/-- The causes that remain when those of FLOW_UNHOLD are cleared. -/
def State.remaining (s : State) (f : Flow) : Nat := f.causes.unheld.bits + s.derivedCauses f

/-- FLOW_UNHOLD once any CLEAR_HALT has completed. -/
def State.unholdAct (s : State) (c : CmdRef) (ctx : Nat) : State :=
  match s.flow ctx with
  | none => s
  | some f =>
    if f.par.ty.scheduled then
      let g := f.addChange ⟨s.changeFrom f.par.lead, false, false, true, none, false, none⟩
      let s := s.modFlow ctx fun f => { f with changes := g.changes }
      s.planAgain.wait c (leBytes 8 0 ++ leBytes 2 (s.remaining f)) (g.changes.getLast?.map (·.from_) |>.getD 0)
    else
      let s := s.modFlow ctx Flow.forgetLasting
      (s.setCauses ctx HoldCauses.unheld).done c stOk (leBytes 8 0 ++ leBytes 2 (s.remaining f))

/-- FLOW_UNHOLD (R267, R303): STALLED and BULK_LASTING need a CLEAR_HALT first; where that gets no answer, no cause is cleared. -/
def execFlowUnhold (c : CmdRef) (a : Answer) (s : State) : Res :=
  .next <| s.flowCommand c (flowFrame 0x0307 modesRH []) (fun _ => []) false fun _ ctx f =>
    if f.causes.stalled || f.causes.bulkLasting then
      (match kget s.nodes f.addr.toNat with
        | none => s.done c stOk (leBytes 8 0 ++ leBytes 2 (s.causeBits f))
        | some n =>
          let r := s.clearHalt n f.ep a
          match r.2 with
          | .ack => r.1.unholdAct c ctx
          | _ =>
            if s.resetting n.pos then r.1.done c stAborted [] else r.1.done c stOk (leBytes 8 0 ++ leBytes 2 (s.causeBits f)))
    else s.unholdAct c ctx

/-! PLAN_CHECK (R303). -/

/-- An entry of the list as a command entry of its own. -/
def listEntry (bs : List Byte) : Taken :=
  { idx := 0, entry := bs, started := true, copies := false, waiting := false, boundary := 0, result := [], ran := .notSent, pertOn := false
    pertSeq := 0 }

/-- The fault of an entry by the checks common to every command (R293): its status and its byte. -/
def State.entryFault (s : State) (fr : Frame) (bad : List (Nat × Bool)) (permitted : Bool) (t : Taken) : Option (Nat × Nat) :=
  match fr.reserved t ++ (bad.filter (·.2)).map (·.1) with
  | b :: bs => some (stBadParam, bs.foldl min b)
  | [] =>
    if !permitted then some (stNotPermitted, 0)
    else if !fr.modes.contains s.pmu.mode then some (stWrongMode, 0)
    else none

/-- What an entry does to the plan: the fault that ends the check, or the plan with it. -/
def State.checkEntry (s : State) (i : Nat) (t : Taken) : Except (Nat × Nat) State :=
  if t.opcode = 0x0301 then
    match s.entryFault (openFrame (openModes t)) (s.openBad i t) (s.boundNode i (t.arg 10 2)) t, flowTypeOf (t.arg 8 1) with
    | some x, _ => .error x
    | none, none => .error (stBadParam, 8)
    | none, some ty =>
      match (kget s.nodes (t.arg 10 2)).filter (·.present) with
      | none => .error (stDetached, 0)
      | some n =>
        if ty.scheduled then
          let ctx := (((List.range 8192).find? fun c => (s.flow c).isNone).getD 0)
          let f := s.openFlow i 0x1FFF n t ty []
          let par := if t.arg 13 1 / 8 % 2 = 1
            then { f.par with phase := s.bestPhase (s.planned true) ⟨ctx, i, f.pos, f.par, f.order⟩ } else f.par
          .ok (s.putFlow ctx { f with par := par, changes := [⟨0, true, false, false, none, false, none⟩] })
        else .ok s
  else if t.opcode = 0x0302 then
    match s.entryFault (flowFrame 0x0302 modesURHV []) [s.badFlow i t] true t, s.flowOf i t with
    | some x, _ => .error x
    | none, none => .error (stBadParam, 8)
    | none, some (ctx, f) =>
      if f.closing then .error (stWrongMode, 0)
      else .ok (s.modFlow ctx fun f => f.addChange ⟨0, false, true, false, none, false, none⟩)
  else if t.opcode = 0x0303 then
    match s.entryFault (modifyFrame (modifyModes t)) (s.badFlow i t :: s.modifyBad i t) true t, s.flowOf i t with
    | some x, _ => .error x
    | none, none => .error (stBadParam, 8)
    | none, some (ctx, f) =>
      if f.closing then .error (stWrongMode, 0)
      else .ok (s.modFlow ctx fun f => f.addChange (s.planChange f t))
  else .error (stBadParam, 0)

/-- The trunk that an entry's flow is on, where the entry adds or changes a scheduled flow. -/
def State.entryTrunk (s : State) (i : Nat) (t : Taken) : Option (Fin 16) :=
  if t.opcode = 0x0301 then (if t.arg 8 1 ≤ 3 then (kget s.nodes (t.arg 10 2)).map (·.pos.trunk) else none)
  else if t.opcode = 0x0303 then ((s.flowOf i t).filter fun x => x.2.par.ty.scheduled).map fun x => x.2.pos.trunk
  else none

/-- The entries of a list, checked in order. -/
def State.checkList (i : Nat) : List Taken → Nat → State → Except (Nat × Nat × Nat) State
  | [], _, s => .ok s
  | t :: ts, k, s =>
    match s.checkEntry i t with
    | .error (st, b) => .error (st, b, k)
    | .ok s => State.checkList i ts (k + 1) s

/-- The list entry that a refusal names: the last one that adds or changes a flow on the refusing trunk. -/
def State.refusedEntry (s : State) (i : Nat) (ts : List Taken) (r : Refused) : Nat :=
  let trunk := fieldAt r.record 1 1
  let link := r.record.head? != some (BitVec.ofNat 8 ckStageWords) && r.record.head? != some (BitVec.ofNat 8 ckEngine)
  let hits := ts.zipIdx.filterMap fun x => (s.entryTrunk i x.1).bind fun t => if !link || t.val = trunk then some x.2 else none
  (hits.getLast?).getD 0

/-- PLAN_CHECK (R165, R301, R303). -/
def execPlanCheck (c : CmdRef) (list : List Byte) (e : ReadEnd) (s : State) : Res :=
  guarded (s.readFits c 0x0305 (fun t => some (64 * t.arg 8 1)) e list) <|
    s.command c ⟨0x0305, [(8, 1, 0xFF), (16, 8, 2 ^ 64 - 1)], modesURHV, false⟩
      (fun t => [(8, t.arg 8 1 == 0 || decide (64 < t.arg 8 1)), (16, t.arg 16 8 % 64 != 0)]) anyone fun t =>
        let i := c.inst.val
        let s := s.cmdRead c (t.arg 16 8) (64 * t.arg 8 1) e
        if e != .ok then s.done c stBadParam [] 16
        else
          let ts := (List.range (t.arg 8 1)).map fun k => listEntry ((list.drop (64 * k)).take 64)
          match State.checkList i ts 0 s with
          | .error (st, b, k) => s.done c st (List.replicate 10 0 ++ leBytes 2 k) b
          | .ok s' =>
            match s'.admitNext with
            | none => s.done c stOk []
            | some r => s.done c r.status (r.record.take 10 ++ leBytes 2 (s'.refusedEntry i ts r))

/-! CONTROL_XFER (R83, R114, R132, R303). -/

/-- The setup in bytes 16–31, in lane format. -/
def xferSetup (t : Taken) : Setup := ⟨BitVec.ofNat 36 (t.arg 16 8), BitVec.ofNat 36 (t.arg 24 8)⟩

/-- A request that host software may not make (R83, R132). -/
def State.xferForbidden (s : State) (a : Nat) (q : Setup) : Bool :=
  q.kindN = 0 && (q.code = 7 || ((q.code = 2 || q.code = 3 || q.code = 4) && s.flows.any fun e => e.2.addr.toNat == a))

/-- Runs a CONTROL_XFER that passes its checks (R293, R301): the issuer, the node, and a route that takes traffic (R110). -/
def State.xferCommand (s : State) (c : CmdRef) (act : Taken → NodeRec → State) : State :=
  s.command c ⟨0x0308, [(10, 2, 0x0FFF), (16, 8, 2 ^ 64 - 1), (24, 8, 2 ^ 64 - 1), (32, 8, 2 ^ 64 - 1)], modesURHV, false⟩
    (fun t => [(10, badNode (t.arg 10 2)), (25, wbits (xferSetup t).w1 15 12 != 0), (26, wbits (xferSetup t).w1 19 16 != 0),
      (32, if (xferSetup t).count = 0 then t.arg 32 8 != 0 else t.arg 32 8 % 64 != 0)])
    (fun t => s.boundNode c.inst.val (t.arg 10 2) && !s.xferForbidden (t.arg 10 2) (xferSetup t)) fun t =>
      match (kget s.nodes (t.arg 10 2)).filter (·.present) with
      | none => s.done c stDetached []
      | some n =>
        if n.pos.ports.any fun p => (match s.port p with | some x => x.state == .suspended | none => false) then s.done c stWrongMode []
        else act t n

/-- A free number below `n` (assumption 15). -/
def State.freeBelow (s : State) (n : Nat) : Nat × State := let w := s.freeWord; (w.1.toNat % max 1 n, w.2)

/-- `n` free words (assumption 15). -/
def anyWords : Nat → State → List Word × State
  | 0, s => ([], s)
  | n + 1, s =>
    let w := s.freeWord
    let r := anyWords n w.2
    (w.1.truncate 36 :: r.1, r.2)

/-- A control transfer has run (R303): its length, its outcome, EFFECT 0, and the retries, which the spec does not fix (assumption 15). -/
def State.xferResult (s : State) (c : CmdRef) (length : Nat) (st : Status) : State :=
  let k := s.freeBelow 16
  let st := if st == .done && k.1 != 0 then .doneRetried else st
  k.2.done c stOk (leBytes 2 length ++ [BitVec.ofNat 8 st.code, 0, BitVec.ofNat 8 k.1])

/-- A control transfer that failed: how many words were acknowledged is not stated (assumption 15). -/
def State.xferLasting (s : State) (c : CmdRef) (q : Setup) : State :=
  let k := s.freeBelow (q.count + 1)
  k.2.xferResult c k.1 .lasting

/-- The data of an IN transfer go to the issuer's buffer, and the transfer is done. -/
def State.xferData (s : State) (c : CmdRef) (t : Taken) (q : Setup) (ws : List Word) : State :=
  let s := if q.dir then State.postBytes (s.pasidOf c.inst.val) (ws.length + 1) (t.arg 32 8) (laneBytes ws) s else s
  s.xferResult c (if q.dir then ws.length else q.count) (if q.dir && decide (ws.length < q.count) then .short else .done)

/-- A vendor request (R85): the node's own answer decides, and its data are its own (assumption 15). -/
def State.xferVendor (s : State) (c : CmdRef) (t : Taken) (q : Setup) (a : Answer) : State :=
  match a with
  | .ack =>
    let k := s.freeBelow (q.count + 1)
    let r := if q.dir then anyWords k.1 k.2 else ([], k.2)
    r.2.xferData c t q r.1
  | _ => s.xferResult c 0 .stalled

/-- A node has taken another address by SET_ADDRESS (R84): the controller uses it from the next transaction on. -/
def State.readdress (s : State) (n : NodeRec) (a : BitVec 12) : State :=
  if a = n.addr then s
  else
    { s with
      nodes := kset (kdel s.nodes n.addr.toNat) a.toNat { n with addr := a }
      binds := match kget s.binds n.addr.toNat with | some b => kset (kdel s.binds n.addr.toNat) a.toNat b | none => kdel s.binds a.toNat }

/-- A device has performed the request of a control transfer, its status stage included: an address that it was given holds (R84). -/
def State.xferPerformed (s : State) (n : NodeRec) : State :=
  let s := s.modDev n.pos fun x => { x with addr := x.addrNext.or x.addr, addrNext := none }
  match (s.dev n.pos).bind (·.addr) with
  | some a => s.readdress n a
  | none => s

/-- The device that a control transfer reaches. -/
def State.xferDevice (s : State) (n : NodeRec) : Option Device := (s.dev n.pos).filter fun x => x.answers && s.routeUp n.pos

/-- How far the transfer of a command has come. -/
def State.setRan (s : State) (c : CmdRef) (r : XferRun) : State := s.modTaken c.inst.val c.idx fun t => { t with ran := r }

/-- A control transfer has gone out, up to its status stage, and is not over (R114): whether the node has performed the request is free. A vendor
request is performed by the answer that the node gives. -/
def State.xferGoes (s : State) (c : CmdRef) (n : NodeRec) (q : Setup) (data : List Word) : State :=
  let s := (s.firmwareSends n.addr q data).setRan c .sent
  let (did, s) := s.freeBool
  match s.xferDevice n with
  | some x =>
    if !did || q.kindN = 2 then s
    else (match s.request (.node n.pos) x q with | some (s', ws) => s'.setRan c (.did ws) | none => s.setRan c .refused)
  | none => s

/-- A control transfer ends at a node (R84, R114). One that fails may still have been performed. -/
def State.runXfer (s : State) (c : CmdRef) (t : Taken) (n : NodeRec) (q : Setup) (data : List Word) (a : Answer) : State :=
  let s := if t.ran = .notSent then s.firmwareSends n.addr q data else s
  match s.xferDevice n, a with
  | some x, .lasting =>
    let (did, s) := s.freeBool
    let more := did && (t.ran == .notSent || t.ran == .sent)
    ((match s.request (.node n.pos) x q with | some (s', _) => if more then s' else s | none => s).xferLasting c q)
  | none, _ => s.xferLasting c q
  | some x, _ =>
    if q.kindN = 2 then s.xferVendor c t q a
    else
      match t.ran with
      | .did ws => (s.xferPerformed n).xferData c t q ws
      | .refused => s.xferResult c 0 .stalled
      | _ =>
        match s.request (.node n.pos) x q with
        | some (s', ws) => (s'.xferPerformed n).xferData c t q ws
        | none => s.xferResult c 0 .stalled

/-- CONTROL_XFER (R83, R110, R114, R132, R301, R303): how its transfer ended, or that it has gone out and is not over. -/
def execControlXfer (c : CmdRef) (data : List Byte) (e : ReadEnd) (a : Option Answer) (s : State) : Res :=
  let reads (t : Taken) : Option Nat := let q := xferSetup t; if !q.dir && q.count != 0 then some (8 * q.count) else none
  guarded (s.readFits c 0x0308 reads e data) <|
    s.xferCommand c fun t n =>
      let run (s : State) (ws : List Word) : State :=
        match a with
        | some a => s.runXfer c t n (xferSetup t) ws a
        | none => if t.ran = .notSent then s.xferGoes c n (xferSetup t) ws else s
      match (reads t).filter fun _ => t.ran == .notSent with
      | none => run s []
      | some k =>
        let s := s.cmdRead c (t.arg 32 8) k e
        if e == .ok then run s (laneWords data) else s.done c stBadParam [] 32

/-- A CONTROL_XFER that is not finished after 500 ms (R303). -/
def execControlXferTimeout (c : CmdRef) (s : State) : Res := .next <| s.xferCommand c fun t _ => s.xferLasting c (xferSetup t)

end Sys2Proof.Machine
end

