-- ==== Sys2Proof/Machine/Views.lean ====
section
/-!
DEFINITION. What the registers read (R5): a stored register as it stands, and registers that show other parts of the state, field by field; the
companions that a read of a _LO register latches (R472).
-/

namespace Sys2Proof.Machine

/-- The low and the high 32 bits of a value. -/
def lo32 (v : Nat) : Reg32 := BitVec.ofNat 32 v
def hi32 (v : Nat) : Reg32 := BitVec.ofNat 32 (v / 2 ^ 32)

/-- Fields put into a word. -/
def fill (v : Reg32) (l : List (Fld × Nat)) : Reg32 := l.foldl (fun (v : Reg32) x => x.1.put v x.2) v

/-- A signed value in the low `w` bits. -/
def signedNat (w : Nat) (v : Int) : Nat := (BitVec.ofInt w v).toNat

/-- A signed value in `w` bits, held at its ends. -/
def saturate (w : Nat) (v : Int) : Nat :=
  signedNat w (if v > 2 ^ (w - 1) - 1 then 2 ^ (w - 1) - 1 else if v < -(2 ^ (w - 1)) then -(2 ^ (w - 1)) else v)

/-! Trunk and gang ports (R61, R119, R144, R388). -/

/-- The port that a copy of the TRK_ registers shows; none: GB. -/
def copyPort (k : Nat) : Option PortRef := if k < 16 then some (.root (Fin.ofNat 16 k)) else if k = 16 then some .ga else none

/-- The port of a copy, with GB's side shown as one. -/
def State.trkPort (s : State) (k : Nat) : Option Port := (copyPort k).bind s.port

/-- The receiver of a copy. -/
def State.trkRx (s : State) (k : Nat) : Rx := match s.trkPort k with | some x => x.rx | none => s.gb.link.rx

/-- TRK_STATUS (R61, R388). -/
def State.trkStatus (s : State) (k : Nat) : Reg32 :=
  let r := s.trkRx k
  let up : Bool := match s.trkPort k with | some x => x.state == .enabled | none => s.gbUp
  let x := (s.trkPort k).getD Port.init
  fill 0 [(.TRK_STATUS_RATE, if up then (if k < 16 then rateCode r.rate else 2) else 0), (.TRK_STATUS_BLOCK_LOCK, r.blockLock.toNat),
    (.TRK_STATUS_TRAINED, (r.train == .up).toNat), (.TRK_STATUS_HR_FAILS, x.hrFails.toNat), (.TRK_STATUS_NEAR_PRESET, r.nearPreset.toNat),
    (.TRK_STATUS_FAR_PRESET, r.farPreset.toNat), (.TRK_STATUS_PRESENT, x.present.toNat), (.TRK_STATUS_ACTIVITY, x.activity.toNat),
    (.TRK_STATUS_STEP_PENDING, x.stepPending.toNat), (.TRK_STATUS_FAR_HR_CAP, x.farHrCap.toNat),
    (.TRK_STATUS_FAR_MARGIN_CAP, x.farMarginCap.toNat)]

/-- TRK_PSTATE (R119, R388): GB's bit of remote wake is stored. -/
def State.trkPstate (s : State) (k : Nat) : Reg32 :=
  match s.trkPort k with
  | some x =>
    fill 0 [(.TRK_PSTATE_STATE, x.state.code), (.TRK_PSTATE_ATTACH_LATCH, x.attachLatch.toNat), (.TRK_PSTATE_FAULT_CAUSE, x.cause.code),
      (.TRK_PSTATE_BR_FAILS, x.brFails.toNat), (.TRK_PSTATE_REMOTE_WAKE, x.remoteWake.toNat)]
  | none => fill (s.reg .TRK_PSTATE 17) [(.TRK_PSTATE_STATE, if s.gbUp then 4 else 0)]

/-- TRK_DELAY (R144, R388): GB shows the D of its last SET_PATH_DELAY. -/
def State.trkDelay (s : State) (k : Nat) : Reg32 :=
  match s.trkPort k with
  | some x =>
    fill 0 [(.TRK_DELAY_ONE_WAY, x.delay.oneWay.toNat), (.TRK_DELAY_VALID, x.delay.valid.toNat), (.TRK_DELAY_STALE, x.delay.stale.toNat)]
  | none =>
    match s.gb.time.dNext.or s.gb.time.d with
    | some d => fill 0 [(.TRK_DELAY_ONE_WAY, d.toNat), (.TRK_DELAY_VALID, 1)]
    | none => 0

/-- TRK_DELAY_STAT. -/
def State.trkDelayStat (s : State) (k : Nat) : Reg32 :=
  match s.trkPort k with
  | some x =>
    fill 0 [(.TRK_DELAY_STAT_LAST_SEQ, x.delay.lastSeq.toNat), (.TRK_DELAY_STAT_VALID_CNT, x.delay.validCnt.toNat),
      (.TRK_DELAY_STAT_MISSED, x.delay.missed.toNat)]
  | none => 0

/-- The margin ledger of a copy (R61); GB's is stored. -/
def State.trkLedger (s : State) (r : Reg) (k : Nat) : Reg32 :=
  match s.trkPort k with
  | some x =>
    let l := x.ledger
    if r = .TRK_LEDGER_BLK then l.blk else if r = .TRK_LEDGER_CRC then l.crc else if r = .TRK_LEDGER_RETRY then l.retry
    else BitVec.ofNat 32 l.eye
  | none => s.reg r k

/-! Time (R145) and the planner (R179). -/

/-- U as TAPU_UNCERT reads it. -/
def State.uncertNs (s : State) : Nat :=
  match s.time.quality with
  | .locked => 0
  | .unset => 2 ^ 32 - 1
  | _ => min (s.time.uncert / 1000000000) (2 ^ 32 - 1)

/-- TAPU_TIME_STATUS. -/
def State.timeStatus (s : State) : Reg32 :=
  let limit := s.fld .TAPU_HOLD_CFG_LIMIT
  let inBound : Bool := match s.time.quality with
    | .locked => true
    | .unset => false
    | _ => decide (s.time.uncert ≤ limit * 1000000000)
  fill 0 [(.TAPU_TIME_STATUS_QUALITY, s.time.quality.code), (.TAPU_TIME_STATUS_IN_BOUND, inBound.toNat),
    (.TAPU_TIME_STATUS_TIME_VALID, s.timedOk.toNat),
    (.TAPU_TIME_STATUS_STEP_PENDING, (s.time.step.isSome || s.time.stepBy.isSome).toNat),
    (.TAPU_TIME_STATUS_SLEWING, (s.time.slewLeft != 0).toNat)]

/-- The greatest load of a trunk's root link in a direction, reserves included, in the plan in use. -/
def State.trunkLoad (s : State) (t : Fin 16) (up : Bool) : Nat :=
  let fs := s.planned false
  ((List.range 64).map fun j => linkLoad s.poolR fs (.root t) up j).foldl max 0

/-- PLN_TRK_CAP: at the present rate of the root link, HR where it is not up. -/
def State.trunkCap (s : State) (k : Nat) : Reg32 :=
  let n := s.blocks (s.planRate (.root (Fin.ofNat 16 k)))
  fill 0 [(.PLN_TRK_CAP_CAP, capOf n), (.PLN_TRK_CAP_FLOOR, ctlFloor n)]

/-- PLN_STATUS. -/
def State.planStatus (s : State) : Reg32 :=
  let p := s.plan
  fill 0 [(.PLN_STATUS_ACTIVE_BANK, p.active.toNat), (.PLN_STATUS_SHADOW_READY, (p.ready || p.swapAt.isSome).toNat),
    (.PLN_STATUS_CHANGE_PENDING, (p.pending || p.swapAt.isSome).toNat), (.PLN_STATUS_CYCLE_POS, s.course.count.toNat % 64)]

/-- Boundary B of the pending change (R176). -/
def State.nextSwap (s : State) : Nat :=
  match s.plan.swapAt with
  | some b => b
  | none => (s.flows.flatMap fun e => e.2.changes.map s.boundaryOf).foldl max s.earliestSwap

/-! The dispatcher (R250) and the engines (R277). -/

/-- Whether a flow's task waits on a priority list. -/
def Flow.listed (f : Flow) : Bool := !f.par.ty.scheduled && f.task.state == .ready

/-- DSP_STATUS. -/
def State.dspStatus (s : State) : Reg32 :=
  let ready := (s.flows.filter fun e => e.2.listed).length + (s.fwTasks.filter fun e => e.2.state == .ready).length
  let delayed := (s.flows.filter fun e => e.2.task.delay.isSome).length + (s.fwTasks.filter fun e => e.2.delay.isSome).length
  fill 0 [(.DSP_STATUS_READY, ready), (.DSP_STATUS_DELAYED, delayed)]

/-- Codes of task states. -/
def TaskState.code : TaskState → Nat
  | .idle => 0 | .waiting => 1 | .ready => 2 | .inHand => 3

/-- The task that DSP_TASK_SEL names, its flags as they stand, and its list; none above 8255: IDLE with all fields zero (R250). -/
def State.selTask (s : State) : Option (Task × Nat) :=
  let n := s.fld .DSP_TASK_SEL_TASK
  if 8255 < n then none
  else match s.flow n with
    | some f => some (if f.task.state == .idle then f.task else { f.task with flags := s.flagsOf n f },
        if f.par.ty.scheduled || f.task.state == .ready then f.list else 0x1FF)
    | none => let t := s.fwTask n; some (t, if t.state == .ready then 0x190 + t.prio else 0x1FF)

/-- DSP_TASK_VIEW. -/
def State.taskView (s : State) : Reg32 :=
  match s.selTask with
  | none => 0
  | some (t, l) =>
    fill 0 [(.DSP_TASK_VIEW_FLAGS, t.flags.toNat), (.DSP_TASK_VIEW_MASK, t.mask.toNat), (.DSP_TASK_VIEW_STATE, t.state.code),
      (.DSP_TASK_VIEW_CANCEL_PENDING, t.cancelPending.toNat), (.DSP_TASK_VIEW_DELAY_ARMED, t.delay.isSome.toNat),
      (.DSP_TASK_VIEW_LIST, l), (.DSP_TASK_VIEW_PRIORITY, t.prio)]

/-- DSP_TRK_READY. -/
def State.trkReady (s : State) (k : Nat) : Reg32 :=
  let t : Fin 16 := Fin.ofNat 16 k
  fill 0 [(.DSP_TRK_READY_READY, (s.flows.filter fun e => e.2.listed && e.2.pos.trunk == t).length),
    (.DSP_TRK_READY_UNRESOLVED, (s.planq[t].filter fun e => e.reason.isNone).length)]

/-- TRC_BUF_STAT. -/
def State.traceStat (s : State) : Reg32 :=
  fill 0 [(.TRC_BUF_STAT_COUNT, s.trace.length), (.TRC_BUF_STAT_FULL, (decide (16384 ≤ s.trace.length)).toNat)]

/-- A condition of R275 holds: STOP_IN_N low with PIN_EN, a stop-configured fast source pending, a FATAL record not acknowledged. A source
counts as pending here while its STOP_LATCH is set (R353). -/
def State.stopActive (s : State) : Bool :=
  (s.stop.pinLow && s.flag .ENG_STOP_CFG_PIN_EN) || s.gutter.latch &&& s.gutter.fast &&& s.gutter.stop != 0 || s.errs.fatal.valid

/-- ENG_STOP_STATUS. -/
def State.stopStatus (s : State) : Reg32 :=
  fill 0 [(.ENG_STOP_STATUS_STOPPED, s.stop.latched.toNat), (.ENG_STOP_STATUS_REASON, s.stop.reason.toNat),
    (.ENG_STOP_STATUS_PIN_LOW, s.stop.pinLow.toNat), (.ENG_STOP_STATUS_ACTIVE, s.stopActive.toNat)]

/-- ENG_STATUS. -/
def State.engStatus (s : State) (k : Nat) : Reg32 :=
  let e : Fin 16 := Fin.ofNat 16 k
  fill 0 [(.ENG_STATUS_SCHED_HAND, s.engines[e].sched.isSome.toNat), (.ENG_STATUS_UNSCHED_HAND, s.engines[e].unsched.isSome.toNat),
    (.ENG_STATUS_AWAKE, (s.pmu.doms[engineDomain e] == .on).toNat), (.ENG_STATUS_EXPECT, (s.expects.filter (·.engine == e)).length)]

/-- ENG_TXQ, over its stored high-water mark. -/
def State.engTxq (s : State) (k : Nat) : Reg32 :=
  let q := s.txq[Fin.ofNat 16 k]
  fill (s.reg .ENG_TXQ k) [(.ENG_TXQ_SCHED, (q.filter (·.sched)).length), (.ENG_TXQ_UNSCHED, (q.filter fun e => !e.sched).length)]

/-! Instance pages (R226, R279, R343, R361, R469) and the instance table (R344). -/

/-- Codes of instance states. -/
def InstState.code : InstState → Nat
  | .free => 0 | .active => 1 | .resetting => 2 | .frozen => 3

/-- INST_CQ_STATUS, over its stored error bit. -/
def State.cqStatus (s : State) (i k : Nat) : Reg32 :=
  let q : Fin 16 := Fin.ofNat 16 k
  let c := (s.inst i).cqs[q]
  fill (s.reg .INST_CQ_STATUS k i) [(.INST_CQ_STATUS_WRITE, c.write.toNat), (.INST_CQ_STATUS_PHASE, c.phase.toNat),
    (.INST_CQ_STATUS_FULL, (s.ringFull i q).toNat), (.INST_CQ_STATUS_STALLING, c.stalling.toNat)]

/-- INST_MB_STATUS, over its stored bits. -/
def State.mbStatus (s : State) (i : Nat) : Reg32 :=
  let m := (s.inst i).mb
  let room := ringRoom (s.fld .INST_MB_CFG_CPL_SIZE 0 i) m.write (BitVec.ofNat 16 (s.fld .INST_MB_CPL_CONS_CONS 0 i))
  fill (s.reg .INST_MB_STATUS 0 i) [(.INST_MB_STATUS_FETCH, m.fetch.toNat), (.INST_MB_STATUS_PHASE, m.phase.toNat),
    (.INST_MB_STATUS_EXEC, m.taken.length), (.INST_MB_STATUS_FULL, (decide (room ≤ m.taken.length)).toNat)]

/-- INST_INFO (R343, R469). -/
def State.instInfo (s : State) (i : Nat) : Reg32 :=
  fill 0 [(.INST_INFO_INSTANCE, i), (.INST_INFO_STATE, (s.pageState i).code),
    (.INST_INFO_QUIESCENT, ((s.pageState i != .free) && (s.inst i).quiescent).toNat)]

/-- INST_STALL_STATUS. -/
def State.stallStatus (s : State) (i : Nat) : Reg32 :=
  let x := (s.inst i).stall
  fill 0 [(.INST_STALL_STATUS_OPEN, x.open_.toNat), (.INST_STALL_STATUS_CREDIT, (x.open_ && x.waits.credit).toNat),
    (.INST_STALL_STATUS_RING, (x.open_ && x.waits.ring).toNat), (.INST_STALL_STATUS_LINK, (x.open_ && x.waits.link).toNat)]

/-- Bits of 32 sources, by their global numbers. -/
def sourceBits (m : BitVec 2048) (src : Nat → Option Nat) (dflt : Bool) : Reg32 :=
  BitVec.ofNat 32 ((List.range 32).map fun b => (match src b with | some n => m.getLsbD n | none => dflt).toNat * 2 ^ b).sum

/-- SIG_SRC_CFG of a source (R361); one that is none reads as zero. -/
def State.srcCfgWord (s : State) (src : Option Nat) (vofs : Nat := 0) : Reg32 :=
  match src with
  | none => 0
  | some n =>
    let g := s.gutter
    let c := g.srcCfg n
    BitVec.ofNat 32 ((g.fast.getLsbD n).toNat + (g.wake.getLsbD n).toNat * 2 + c.kind.toNat * 2 ^ 2 + c.group.toNat * 2 ^ 4 +
      (c.vblock.toNat + vofs) * 2 ^ 12 + c.vmask.toNat * 2 ^ 20 + c.cores.toNat * 2 ^ 28)

/-- The global number of a local vector (R322, R470). -/
def State.globalVec (s : State) (i v : Nat) : Option Nat :=
  let h := (s.inst i).shares
  if v < h.vecs then some (h.vecFirst + v) else none

/-- SIG_VEC_VIEW of a vector. -/
def State.vecWord (s : State) (v : Nat) : Nat := s.gutter.prioOf v + (s.gutter.held.getLsbD v).toNat * 2 ^ 4

/-- SIG_SRC_CTL of the source that SIG_SRC_SEL names (R362). -/
def State.srcCtl (s : State) : Reg32 :=
  let n := s.fld .SIG_SRC_SEL_SOURCE
  let g := s.gutter
  fill 0 [(.SIG_SRC_CTL_STOP, (g.stop.getLsbD n).toNat), (.SIG_SRC_CTL_STOP_LATCH, (g.latch.getLsbD n).toNat),
    (.SIG_SRC_CTL_PENDING, (g.pend.getLsbD n).toNat), (.SIG_SRC_CTL_MASKED, (g.mask.getLsbD n).toNat),
    (.SIG_SRC_CTL_OWNER, (s.srcOwner n).getD 0x1FF), (.SIG_SRC_CTL_LAST, (kget g.last n).getD 7)]

/-- The instance that holds a vector. -/
def State.vecOwner (s : State) (v : Nat) : Option Nat :=
  (s.insts.find? fun e => e.2.state != .free && decide (e.2.shares.vecFirst ≤ v) && decide (v < e.2.shares.vecFirst + e.2.shares.vecs)).map (·.1)

/-- SIG_CORE. -/
def State.coreWord (s : State) (k : Nat) : Reg32 :=
  match s.gutter.cores[k]? with
  | some c => fill 0 [(.SIG_CORE_PRIO, c.prio.toNat), (.SIG_CORE_SLEEP, c.sleep.toNat), (.SIG_CORE_FAST_BUSY, c.fastBusy.toNat),
      (.SIG_CORE_IN_FLIGHT, c.inFlight.toNat)]
  | none => 0

/-! The gang (R389), power (R409), port power (R428). -/

/-- GANG_STATE. -/
def State.gangState (s : State) : Reg32 :=
  let g := s.gang
  fill 0 [(.GANG_STATE_GANG_ID, gangId), (.GANG_STATE_ROLE, g.role.code), (.GANG_STATE_STATE, g.phase.code), (.GANG_STATE_SIZE, g.size.toNat),
    (.GANG_STATE_HOP, g.hop.toNat), (.GANG_STATE_RIDGE_ALLOWED, g.ridgeAllowed.toNat), (.GANG_STATE_CONFIGURED, g.configured.toNat),
    (.GANG_STATE_JOINED, g.joined.toNat), (.GANG_STATE_EFF_MINOR, g.effMinor.toNat)]

/-- Codes of domain and bank states. -/
def DomState.code : DomState → Nat
  | .on => 0 | .waking => 1 | .retained => 2 | .off => 3

def BankState.code : BankState → Nat
  | .on => 0 | .retained => 1 | .off => 2 | .lost => 3

/-- PMU_DOM_STATE. -/
def State.domWord (s : State) : Reg32 :=
  BitVec.ofNat 32 ((List.finRange 12).map fun d => s.pmu.doms[d].code * 4 ^ d.val).sum

/-- PMU_BANK_STATE. -/
def State.bankWord (s : State) (k : Nat) : Reg32 :=
  BitVec.ofNat 32 ((List.range 16).map fun b => (match s.pmu.banks[16 * k + b]? with | some x => x.code | none => 0) * 4 ^ b).sum

/-- Codes of fault causes and of feed selections. -/
def PpmCause.code : PpmCause → Nat
  | .none => 0 | .overcurrent => 1 | .fastTrip => 2 | .rampTimeout => 3 | .feedLost => 4

def FeedSel.code : FeedSel → Nat
  | .none => 0 | .onA => 1 | .deadToB => 2 | .onB => 3 | .deadToA => 4

/-- Port group of a port (R410). -/
def groupOf (n : Fin 16) : Fin 4 := Fin.ofNat 4 (n.val / 4)

/-- PPM_STATUS. -/
def State.ppmStatus (s : State) (k : Nat) : Reg32 :=
  let n : Fin 16 := Fin.ofNat 16 k
  let x := s.ppm[n]
  fill 0 [(.PPM_STATUS_STATE, x.phase.code), (.PPM_STATUS_CAUSE, x.cause.code), (.PPM_STATUS_GEN, x.gen.toNat), (.PPM_STATUS_PG, x.pg.toNat),
    (.PPM_STATUS_BLANKED, (s.feeds[groupOf n].blankLeft.isSome).toNat), (.PPM_STATUS_RETRIES, x.retries.toNat)]

/-- PPM_FEED_STATUS, over its stored event bits. -/
def State.feedStatus (s : State) (k : Nat) : Reg32 :=
  let g := s.feeds[Fin.ofNat 4 k]
  fill (s.reg .PPM_FEED_STATUS k) [(.PPM_FEED_STATUS_SEL, g.sel.code), (.PPM_FEED_STATUS_A_GOOD, g.a.good.toNat),
    (.PPM_FEED_STATUS_B_GOOD, g.b.good.toNat), (.PPM_FEED_STATUS_A_EN, g.aEn.toNat), (.PPM_FEED_STATUS_B_EN, g.bEn.toNat)]

/-- PPM_GSTATUS. -/
def State.ppmGstatus (s : State) : Reg32 :=
  fill 0 [(.PPM_GSTATUS_OSC_RUN, s.oscRun.toNat),
    (.PPM_GSTATUS_PORTS_ON, ((List.finRange 16).map fun n => s.ppm[n].gen.toNat * 2 ^ n.val).sum)]

/-! Boot (R442, R447) and errors (R463). -/

/-- Codes of the kinds of start. -/
def StartKind.code : StartKind → Nat
  | .porst => 0 | .forcedCold => 1 | .wrst => 2 | .fwCommit => 3 | .bootCtrl => 4 | .watchdog => 5 | .retention => 6 | .rom => 7

/-- The rollback level that the OTP holds: the number of bits blown (R440, R442). -/
def State.rollbackLevel (s : State) : Nat :=
  let word (n : Fin 64) : Nat := ((List.range 32).filter fun b => (Config.otpWord n).getLsbD b).length
  max (word 18 + word 19) s.boot.rollback.toNat

/-- KEY0 has been revoked (R440, R442). -/
def State.key0Gone (s : State) : Bool := (Config.otpWord 20).getLsbD 12 || s.boot.key0Revoked

/-- An OTP word as it stands (R442): the thermometer of the rollback level, and KEY0_REVOKED, as firmware has blown them. -/
def State.otp (s : State) (n : Nat) : Reg32 :=
  let w := Config.otpWord (Fin.ofNat 64 n)
  let therm (lo : Nat) : Reg32 := BitVec.ofNat 32 (2 ^ min 32 (s.boot.rollback.toNat - lo) - 1)
  if n = 18 then w ||| therm 0
  else if n = 19 then w ||| therm 32
  else if n = 20 then (if s.boot.key0Revoked then w ||| 0x1000 else w)
  else w

/-- BOOT_STATUS, over its stored event bit. -/
def State.bootStatus (s : State) : Reg32 :=
  let b := s.boot
  fill 0 [(.BOOT_STATUS_KIND, b.kind.code), (.BOOT_STATUS_RUNNING, b.running.toNat), (.BOOT_STATUS_PRIMARY, b.primary.toNat),
    (.BOOT_STATUS_FELL_BACK, b.fellBack.toNat), (.BOOT_STATUS_IMAGE_RETAINED, b.imageRetained.toNat),
    (.BOOT_STATUS_LINK_RETAINED, b.linkRetained.toNat), (.BOOT_STATUS_DEBUG_UNLOCKED, b.debugUnlocked.toNat),
    (.BOOT_STATUS_COMMIT_PENDING, b.commitPending.toNat), (.BOOT_STATUS_HEALTHY, b.healthy.toNat)]

/-- BOOT_ATTEMPTS. -/
def State.bootAttempts (s : State) : Reg32 :=
  let b := s.boot
  fill 0 [(.BOOT_ATTEMPTS_WARM_FAILS, b.warmFails.toNat), (.BOOT_ATTEMPTS_COLD_FAILS, b.coldFails.toNat),
    (.BOOT_ATTEMPTS_COLD_SLOT, (b.primary != b.coldOther).toNat), (.BOOT_ATTEMPTS_STARTS, b.starts.toNat)]

/-- BOOT_IMG_A and BOOT_IMG_B. -/
def Slot.word (x : Slot) : Reg32 :=
  BitVec.ofNat 32 (x.version.toNat + x.rollback.toNat % 128 * 2 ^ 24 + x.valid.toNat * 2 ^ 31)

/-- The error record that ERR_SEL names. -/
def State.errRec (s : State) : Option ErrRec := s.errs.recs[s.fld .ERR_SEL_CATEGORY]?

/-- One bit of each category's record. -/
def State.errBits (s : State) (f : ErrRec → Bool) : Nat :=
  ((List.finRange 7).map fun c => (f s.errs.recs[c]).toNat * 2 ^ c.val).sum

/-- ERR_STATUS. -/
def State.errStatus (s : State) : Reg32 :=
  fill 0 [(.ERR_STATUS_VALID, s.errBits (·.valid)), (.ERR_STATUS_OVERFLOW, s.errBits (·.overflow)), (.ERR_STATUS_FATAL, s.errs.fatal.valid.toNat)]

/-- ERR_FATAL. -/
def State.errFatal (s : State) : Reg32 :=
  let f := s.errs.fatal
  fill 0 [(.ERR_FATAL_CATEGORY, f.category.toNat), (.ERR_FATAL_CAUSE, f.cause.toNat), (.ERR_FATAL_VALID, f.valid.toNat),
    (.ERR_FATAL_SEQ, f.seq.toNat), (.ERR_FATAL_COUNT, f.count.toNat)]

/-! Identity (R479) and the host interface (R480). -/

/-- Firmware has written the identity registers: step 7 of the start is done (R479). -/
def State.idReady (s : State) : Bool := s.boot.rom || (match s.boot.start with | some r => decide (7 < r.step) | none => true)

/-- ID_FW_VERSION and ID_CMDSET (R316, R436, R479). -/
def State.fwVersion (s : State) : Reg32 := if s.boot.rom then 0xFFFFFF else if s.idReady then lo32 s.fwImage else 0
def State.cmdset (s : State) : Reg32 :=
  if s.idReady then BitVec.ofNat 32 (cmdMinor + cmdMajor * 2 ^ 8 + s.gang.effMinor.toNat * 2 ^ 16) else 0

/-- ID_SKU (R442, R479). -/
def State.idSku (s : State) : Reg32 :=
  fill 0 [(.ID_SKU_PTB_DISABLE, ptbDisable.toNat), (.ID_SKU_GANG_ALLOWED, gangAllowed.toNat), (.ID_SKU_MAX_INSTANCES, maxInstances),
    (.ID_SKU_KEY0_REVOKED, s.key0Gone.toNat), (.ID_SKU_PTB_RUN_ENABLE, s.fld .PTB_CFG_RUN_ENABLE)]

/-- HIF_LINK. -/
def State.hifLink (s : State) : Reg32 :=
  let h := s.host
  fill 0 [(.HIF_LINK_WIDTH, h.width.toNat), (.HIF_LINK_SPEED, h.speed.toNat), (.HIF_LINK_UP, h.up.toNat), (.HIF_LINK_LINK_PM, h.linkPm.toNat),
    (.HIF_LINK_DSTATE, if h.d == .d0 then 0 else 3), (.HIF_LINK_MSIX_EN, h.msixEn.toNat), (.HIF_LINK_FUNC_MASK, h.funcMask.toNat),
    (.HIF_LINK_PME_EN, h.pmeEn.toNat), (.HIF_LINK_PASID_EN, h.pasidEn.toNat)]

/-! Every register. -/


/-- The companions that a read of a _LO register latches, with their values now (R145, R200, R250, R277, R343, R409, R428, R463, R464). -/
def State.companions (s : State) (r : Reg) (n k : Nat) : List (Reg × Reg32) :=
  let e : Fin 8 := Fin.ofNat 8 k
  match r with
  | .TAPU_COURSE_CNT_LO => [(.TAPU_COURSE_CNT_HI, hi32 s.course.count.toNat)]
  | .TAPU_TIME_LO => [(.TAPU_TIME_HI, hi32 s.time.bus.toNat)]
  | .TAPU_PPS_STAMP_LO => [(.TAPU_PPS_STAMP_HI, s.reg .TAPU_PPS_STAMP_HI)]
  | .TAPU_PACE_POS_LO =>
    [(.TAPU_PACE_POS_HI, hi32 (s.shownPos e).toNat), (.TAPU_PACE_STAMP_LO, lo32 s.ests[e].stamp.toNat),
      (.TAPU_PACE_STAMP_HI, hi32 s.ests[e].stamp.toNat), (.TAPU_PACE_RATE, lo32 s.ests[e].rateReg),
      (.TAPU_PACE_ACCEL, lo32 s.ests[e].accelReg), (.TAPU_PACE_ERR, lo32 s.ests[e].errReg)]
  | .DSP_DECISIONS_LO => [(.DSP_DECISIONS_HI, s.reg .DSP_DECISIONS_HI)]
  | .ENG_STOP_TIME_LO => [(.ENG_STOP_TIME_HI, hi32 s.stop.time.toNat)]
  | .INST_STALL_OPEN_LO =>
    let x := (s.inst n).stall
    [(.INST_STALL_OPEN_HI, hi32 x.openAt.toNat), (.INST_STALL_CLOSE_LO, lo32 x.closeAt.toNat), (.INST_STALL_CLOSE_HI, hi32 x.closeAt.toNat)]
  | .PMU_AO_CNT_LO => [(.PMU_AO_CNT_HI, hi32 s.time.ao.toNat)]
  | .PPM_ENERGY_LO => [(.PPM_ENERGY_HI, hi32 (s.ppm[Fin.ofNat 16 k].energy.toNat))]
  | .ERR_REC_TIME_LO =>
    match s.errRec with
    | some x =>
      [(.ERR_REC_TIME_HI, hi32 x.time.toNat),
        (.ERR_REC_CODE, BitVec.ofNat 32 (x.code.toNat + x.source.toNat * 2 ^ 16 + x.seq.toNat * 2 ^ 24)),
        (.ERR_REC_FLAGS, BitVec.ofNat 32 (x.flags + x.count.toNat * 2 ^ 16)), (.ERR_REC_DETAIL, x.detail)]
    | none => [(.ERR_REC_TIME_HI, 0), (.ERR_REC_CODE, 0), (.ERR_REC_FLAGS, 0), (.ERR_REC_DETAIL, 0)]
  | .PTB_ON_TIME_LO => [(.PTB_ON_TIME_HI, s.reg .PTB_ON_TIME_HI)]
  | .PTB_OFF_TIME_LO => [(.PTB_OFF_TIME_HI, s.reg .PTB_OFF_TIME_HI)]
  | _ => []

/-- Registers that show what a read of their _LO register latched (R472). -/
def latchedRegs : List Reg :=
  [.TAPU_COURSE_CNT_HI, .TAPU_TIME_HI, .TAPU_PPS_STAMP_HI, .TAPU_PACE_POS_HI, .TAPU_PACE_STAMP_LO, .TAPU_PACE_STAMP_HI, .TAPU_PACE_RATE,
    .TAPU_PACE_ACCEL, .TAPU_PACE_ERR, .DSP_DECISIONS_HI, .ENG_STOP_TIME_HI, .INST_STALL_OPEN_HI, .INST_STALL_CLOSE_LO, .INST_STALL_CLOSE_HI,
    .PMU_AO_CNT_HI, .PPM_ENERGY_HI, .ERR_REC_TIME_HI, .ERR_REC_CODE, .ERR_REC_FLAGS, .ERR_REC_DETAIL, .PTB_ON_TIME_HI, .PTB_OFF_TIME_HI,
    .TRC_BUF_MID, .TRC_BUF_HI]

/-- Registers of an instance page (R226, R279, R343, R361). -/
def State.pageView (s : State) (r : Reg) (i k : Nat) : Reg32 :=
  let raw := s.reg r k i
  let x := s.inst i
  match r with
  | .INST_CQ_STATUS => s.cqStatus i k
  | .INST_MB_DB => 0
  | .INST_MB_STATUS => s.mbStatus i
  | .INST_MB_CPL_WRITE => lo32 x.mb.write.toNat
  | .INST_INFO => s.instInfo i
  | .INST_EPOCH => x.epoch
  | .INST_STALL_STATUS => s.stallStatus i
  | .INST_STALL_CNT => x.stall.cnt
  | .INST_STALL_OPEN_LO => lo32 x.stall.openAt.toNat
  | .PSIG_SRC_CFG => s.srcCfgWord (s.globalSrc i (s.fld .PSIG_SRC_SEL_SOURCE 0 i))
  | .PSIG_VEC_VIEW =>
    match s.globalVec i (s.fld .PSIG_VEC_SEL_VECTOR 0 i) with
    | some v => lo32 (s.vecWord v)
    | none => 0
  | .PSIG_PEND => sourceBits s.gutter.pend (fun b => s.globalSrc i (32 * k + b)) false
  | .PSIG_MASK => sourceBits s.gutter.mask (fun b => s.globalSrc i (32 * k + b)) false
  | _ => raw

/-- Registers of the instance table and of the gutter in BAR0 (R344, R362). -/
def State.tableView (s : State) (r : Reg) (k : Nat) : Reg32 :=
  let sel := s.fld .INST_SEL_INSTANCE
  let x := s.inst sel
  match r with
  | .INST_POOL_CTX => lo32 s.freeCtx
  | .INST_POOL_STAGE => lo32 s.freeStage
  | .INST_POOL_SIG => fill 0 [(.INST_POOL_SIG_BLOCKS, s.freeBlocks), (.INST_POOL_SIG_VECTORS, s.freeVecs)]
  | .INST_POOL_INST => lo32 s.freeInsts
  | .INST_POOL_SLOT => fill 0 [(.INST_POOL_SLOT_FREE, s.freeSlots (Fin.ofNat 16 k)), (.INST_POOL_SLOT_POOL, s.slotPool)]
  | .INST_VIEW =>
    fill 0 [(.INST_VIEW_STATE, x.state.code), (.INST_VIEW_QUIESCENT, x.quiescent.toNat), (.INST_VIEW_STALL_OPEN, x.stall.open_.toNat),
      (.INST_VIEW_PASID, if sel = 0 then s.fld .INST_MGR_CFG_PASID else x.pasid.toNat)]
  | .INST_VIEW_EPOCH => x.epoch
  | .SIG_SRC_CFG => s.srcCfgWord (some (s.fld .SIG_SRC_SEL_SOURCE))
  | .SIG_SRC_CTL => s.srcCtl
  | .SIG_STATUS => fill 0 [(.SIG_STATUS_HOST_READY, s.host.canReceive.toNat), (.SIG_STATUS_HELD_ANY, (s.gutter.held != 0).toNat)]
  | .SIG_CORE => s.coreWord k
  | .SIG_VEC_VIEW =>
    let v := s.fld .SIG_VEC_SEL_VECTOR
    lo32 (s.vecWord v + ((s.vecOwner v).getD 0x1FF) * 2 ^ 16)
  | .SIG_PEND => sourceBits s.gutter.pend (fun b => some (32 * k + b)) false
  | .SIG_MASK => sourceBits s.gutter.mask (fun b => some (32 * k + b)) false
  | _ => s.reg r k

/-- Registers of trunks, time, planner, estimators, dispatcher and engines. -/
def State.busView (s : State) (r : Reg) (k : Nat) : Reg32 :=
  let e : Fin 8 := Fin.ofNat 8 k
  match r with
  | .TRK_STATUS => s.trkStatus k
  | .TRK_LEDGER_BLK | .TRK_LEDGER_CRC | .TRK_LEDGER_RETRY | .TRK_EYE => s.trkLedger r k
  | .TRK_CTRL => if 16 ≤ k then fill (s.reg .TRK_CTRL k) [(.TRK_CTRL_HR_EN, 0), (.TRK_CTRL_AUTO_STEP, 0)] else s.reg .TRK_CTRL k
  | .TRK_PCFG =>
    if k = 17 then fill (s.reg .TRK_PCFG k) [(.TRK_PCFG_WAKE_EN, 0), (.TRK_PCFG_AUTO_ENUM, 0), (.TRK_PCFG_RESEAT_WIN, 0)]
    else if k = 16 then fill (s.reg .TRK_PCFG k) [(.TRK_PCFG_AUTO_ENUM, 0), (.TRK_PCFG_RESEAT_WIN, 0)]
    else s.reg .TRK_PCFG k
  | .TRK_PSTATE => s.trkPstate k
  | .TRK_DELAY => s.trkDelay k
  | .TRK_DELAY_STAT => s.trkDelayStat k
  | .TAPU_COURSE_CNT_LO => lo32 s.course.count.toNat
  | .TAPU_TIME_LO => lo32 s.time.bus.toNat
  | .TAPU_TIME_STATUS => s.timeStatus
  | .TAPU_RATE => lo32 (saturate 24 s.time.rate)
  | .TAPU_SLEW_LEFT => lo32 (saturate 32 (s.time.slewLeft / 1000000000))
  | .TAPU_UNCERT => lo32 s.uncertNs
  | .PLN_STATUS => s.planStatus
  | .PLN_NEXT_SWAP => lo32 s.nextSwap
  | .PLN_TRK_LOAD => fill 0 [(.PLN_TRK_LOAD_MAX_DOWN, s.trunkLoad (Fin.ofNat 16 k) false), (.PLN_TRK_LOAD_MAX_UP, s.trunkLoad (Fin.ofNat 16 k) true)]
  | .PLN_TRK_CAP => s.trunkCap k
  | .TAPU_PACE_POS_LO => lo32 (s.shownPos e).toNat
  | .TAPU_PACE_STATUS => lo32 (s.paceStatus e)
  | .TAPU_ENC_CNT => s.encs[e].count
  | .DSP_STATUS => s.dspStatus
  | .DSP_ORD_USE => fill 0 [(.DSP_ORD_USE_IN_USE, s.ordInUse), (.DSP_ORD_USE_RESERVED, 2 * s.schedDomains.length)]
  | .DSP_TASK_VIEW => s.taskView
  | .DSP_TASK_DEADLINE => match s.selTask with | some (t, _) => lo32 (t.delay.getD 0) | none => 0
  | .DSP_TRK_READY => s.trkReady k
  | .TRC_BUF_STAT => s.traceStat
  | .ENG_STOP_STATUS => s.stopStatus
  | .ENG_STOP_TIME_LO => lo32 s.stop.time.toNat
  | .ENG_STATUS => s.engStatus k
  | .ENG_TXQ => s.engTxq k
  | _ => s.reg r k

/-- Registers of the gang, power, start, errors, identity and the host interface. -/
def State.coreView (s : State) (r : Reg) (k : Nat) : Reg32 :=
  let g := s.gang
  match r with
  | .GANG_STATE => s.gangState
  | .GANG_DIGEST => g.digest
  | .GANG_OFFSET => lo32 (saturate 32 g.offset)
  | .GANG_MEMBERS => lo32 g.members
  | .GANG_LEASE => fill (s.reg .GANG_LEASE) [(.GANG_LEASE_MISSED, min 15 g.leaseMiss)]
  | .GANG_MAP_LO => lo32 g.map.toNat
  | .GANG_MAP_HI => hi32 g.map.toNat
  | .PMU_MODE =>
    fill 0 [(.PMU_MODE_MODE, s.pmu.mode.code), (.PMU_MODE_TARGET, s.pmu.target.code), (.PMU_MODE_CHANGING, s.pmu.changing.toNat)]
  | .PMU_DOM_STATE => s.domWord
  | .PMU_AO_CNT_LO => lo32 s.time.ao.toNat
  | .PMU_BANK_STATE => s.bankWord k
  | .PPM_STATUS => s.ppmStatus k
  | .PPM_FEED_STATUS => s.feedStatus k
  | .PPM_FEED_V =>
    let x := s.feeds[Fin.ofNat 4 k]
    fill 0 [(.PPM_FEED_V_VA, x.a.mv.toNat), (.PPM_FEED_V_VB, x.b.mv.toNat)]
  | .PPM_ENERGY_LO => lo32 (s.ppm[Fin.ofNat 16 k].energy.toNat)
  | .PPM_GSTATUS => s.ppmGstatus
  | .BOOT_STATUS => s.bootStatus
  | .BOOT_ATTEMPTS => s.bootAttempts
  | .BOOT_FAIL =>
    fill 0 [(.BOOT_FAIL_STEP, s.boot.failStep.toNat), (.BOOT_FAIL_CODE, s.boot.failCode.toNat), (.BOOT_FAIL_COUNT, s.boot.failCount.toNat)]
  | .BOOT_IMG_A => s.boot.slotA.word
  | .BOOT_IMG_B => s.boot.slotB.word
  | .BOOT_OTP_DATA => s.otp (s.fld .BOOT_OTP_SEL_WORD)
  | .BOOT_ROLLBACK => lo32 s.rollbackLevel
  | .ERR_REC_TIME_LO => match s.errRec with | some x => lo32 x.time.toNat | none => 0
  | .ERR_STATUS => s.errStatus
  | .ERR_FATAL => s.errFatal
  | .PTB_CFG => fill (s.reg .PTB_CFG) [(.PTB_CFG_ABSENT, ptbDisable.toNat)]
  | .ID_UNIQUE_LO => Config.otpWord 0
  | .ID_UNIQUE_HI => Config.otpWord 1
  | .ID_FW_VERSION => s.fwVersion
  | .ID_CMDSET => s.cmdset
  | .ID_SKU => s.idSku
  | .ID_STRAPS => lo32 gangId
  | .HIF_LINK => s.hifLink
  | .HIF_TAGS => fill (s.reg .HIF_TAGS) [(.HIF_TAGS_IN_USE, s.host.ringTags + s.host.stageTags)]
  | _ => s.reg r k

/-- The value that a read of copy `k` of a register returns; `n` is the instance of a page register. -/
def State.view (s : State) (r : Reg) (n k : Nat) : Reg32 :=
  if latchedRegs.contains r then (kget s.latch (r.key n k)).getD r.reset
  else
    match r.place.space with
    | .page => s.pageView r n k
    | .bar0 =>
      let b := r.place.base / 0x1000
      if b = 2 ∨ b = 3 then s.tableView r k
      else if 4 ≤ b ∧ b ≤ 8 then s.busView r k
      else s.coreView r k

end Sys2Proof.Machine
end

