-- ==== Sys2Proof/Machine/Image.lean ====
section
/-!
DEFINITION. Instance images (R335–R339): INST_SAVE and INST_RESTORE.
-/

namespace Sys2Proof.Machine

/-! The flows of an image. -/

/-- The open flows of an instance with their contexts, in flow-number order (R335). -/
def State.imageFlows (s : State) (i : Nat) : List (Nat × Flow) :=
  sortBy (fun (e : Nat × Flow) => e.2.num) (s.flows.filter fun e => e.2.inst == i && e.2.service.isNone && e.2.closedAt.isNone)

/-- Codes of flow types, release modes and hold policies (R300). -/
def FlowType.code : FlowType → Nat
  | .periodicOut => 0 | .periodicIn => 1 | .pacedOut => 2 | .pacedIn => 3 | .bulkOut => 4 | .bulkIn => 5 | .control => 6

def RelMode.code : RelMode → Nat
  | .course => 0 | .timed => 1 | .angle => 2

def HoldPolicy.code : HoldPolicy → Nat
  | .rep => 0 | .safe => 1 | .skip => 2

/-- A flow's FLOW_OPEN entry as it stands after its last FLOW_MODIFY, with its number in bytes 2–3 (R300, R337). -/
def Flow.entry (f : Flow) : List Byte :=
  let p := f.parAfter f.changes
  let b (n : Nat) : Byte := BitVec.ofNat 8 n
  let sched := p.ty.scheduled
  leBytes 2 0x0301 ++ leBytes 2 f.num ++ leBytes 4 0 ++
    [b p.ty.code, b f.ep.toNat] ++ leBytes 2 f.addr.toNat ++ [b p.words, b p.k, b p.phase] ++
    [b (p.essential.toNat + p.dedicated.toNat * 2 + p.lateFire.toNat * 4 + p.packed.toNat * 8),
      b (p.rel.code + (if sched then p.policy.code else 0) * 4 + p.prio * 16), b p.lead] ++
    leBytes 2 f.dom ++ [b f.cq.val, b f.ringLog] ++ leBytes 2 0 ++ leBytes 8 f.ring.toNat ++ leBytes 8 p.safeAddr.toNat ++
    [b p.est.val] ++ leBytes 3 p.m ++ leBytes 3 p.z ++ [0] ++ leBytes 4 p.rho ++ List.replicate 12 0

/-- The transfers of a flow whose staged payload goes into the image: outputs, from K on, in index order (R337). -/
def Flow.imageStaged (f : Flow) : List Transfer :=
  if f.par.ty.output then f.xfers.filter fun x => x.fin.isNone && !x.staged.isEmpty else []

/-- The identity and CONFIG_GEN of the node of a flow. -/
def State.flowNode (s : State) (f : Flow) : List Word := match kget s.nodes f.addr.toNat with | some n => n.desc | none => []

/-- The record of a flow (R337). -/
def State.flowRecord (s : State) (f : Flow) : List Byte :=
  let desc := s.flowNode f
  let st := f.imageStaged
  let moved : Nat := match f.xfers.head? with | some x => if f.par.ty.bulk && x.idx == f.cons then x.moved else 0 | none => 0
  f.entry ++ leBytes 8 (identOf desc).toNat ++ leBytes 2 (genOf desc).toNat ++ leBytes 2 f.prod.toNat ++ leBytes 2 f.cons.toNat ++
    leBytes 2 st.length ++
    [BitVec.ofNat 8 (f.sendToggle.toNat + f.recvToggle.toNat * 2 + f.toggleUnknown.toNat * 4)] ++
    leBytes 2 (s.causeBits { f with causes := { f.causes with frozen := false } }) ++
    [BitVec.ofNat 8 f.acked.toNat, BitVec.ofNat 8 f.recvSeq.toNat, BitVec.ofNat 8 f.credit] ++ leBytes 2 moved ++
    leBytes 6 (signedNat 48 (f.due.getD 0)) ++ leBytes 2 (st.map fun x => x.staged.length).sum

/-! The header (R336). -/

/-- The shares as bytes 0–63 of an INST_CREATE entry, bytes 0–12 zero. -/
def Shares.entry (h : Shares) : List Byte :=
  List.replicate 13 0 ++ [BitVec.ofNat 8 h.weight] ++ leBytes 2 h.ctx ++ leBytes 4 h.words ++ [BitVec.ofNat 8 h.blocks.length, 0] ++
    leBytes 2 h.vecFirst ++ leBytes 2 h.vecs ++ List.replicate 6 0 ++ h.slots.toList.flatMap (leBytes 2)

/-- The gang digest of an image: 0 where the controller is in no gang. -/
def State.imageDigest (s : State) : Nat := if s.gang.role == .solo then 0 else s.gang.digest.toNat

/-- Bytes of a list of bits, the first in bit 0 of the first byte. -/
def bitBytes : Nat → List Bool → List Byte
  | 0, _ => []
  | n + 1, bs =>
    BitVec.ofNat 8 (((bs.take 8).zipIdx).map fun (x : Bool × Nat) => x.1.toNat * 2 ^ x.2).sum :: bitBytes n (bs.drop 8)

/-- One bit for each of the 1792 possible local sources of an instance; sources that it has not read `dflt`. -/
def State.localBits (s : State) (i : Nat) (m : BitVec 2048) : List Bool :=
  (List.range 1792).map fun k => match s.globalSrc i k with | some g => m.getLsbD g | none => false

/-- The source that events with a signal raise, as the image carries it: that of the lowest code with a source of its own, else the
mailbox's. -/
def State.routeSrc (s : State) (i : Nat) : Nat :=
  match (s.inst i).routes.src with
  | e :: _ => e.2
  | [] => s.fld .INST_MB_CFG_SRC 0 i

/-- The mailbox registers of an image: bytes 0x000–0x023 of the page, PROD where INST_MB_DB stands, then the event sequence. -/
def State.imageMailbox (s : State) (i : Nat) : List Byte :=
  let m := (s.inst i).mb
  let w (r : Reg) : List Byte := leBytes 4 (s.view r i 0).toNat
  w .INST_MB_CMD_BASE_LO ++ w .INST_MB_CMD_BASE_HI ++ w .INST_MB_CPL_BASE_LO ++ w .INST_MB_CPL_BASE_HI ++ w .INST_MB_CFG ++
    leBytes 4 m.prod.toNat ++ w .INST_MB_CPL_CONS ++ w .INST_MB_STATUS ++ w .INST_MB_CPL_WRITE ++ leBytes 4 m.eventSeq.toNat

/-- The completion rings of an image. -/
def State.imageRings (s : State) (i : Nat) : List Byte :=
  (List.range 16).flatMap fun q =>
    ([Reg.INST_CQ_BASE_LO, .INST_CQ_BASE_HI, .INST_CQ_CFG, .INST_CQ_CONS, .INST_CQ_STATUS].flatMap fun r => leBytes 4 (s.view r i q).toNat) ++
      List.replicate 12 0

/-- An entry of the duplicate cache in 40 bytes. -/
def Cached.bytes (k : Cached) : List Byte :=
  leBytes 4 k.tag.toNat ++ leBytes 4 k.digest.toNat ++ ((k.cpl.getD []) ++ List.replicate 32 0).take 32

/-- A list brought to `n` bytes with zeros. -/
def padTo (n : Nat) (l : List Byte) : List Byte := l ++ List.replicate (n - l.length) 0

/-- The header from byte 0x014 on. -/
def State.imageTail (s : State) (i : Nat) (words : Nat) : List Byte :=
  let x := s.inst i
  leBytes 4 s.imageDigest ++ leBytes 2 (s.fld .TAPU_COURSE_CFG_PERIOD) ++ [BitVec.ofNat 8 cmdMinor, 0] ++ leBytes 4 x.epoch.toNat ++
    leBytes 4 (s.fld .INST_FREEZE_COURSE_COURSE 0 i) ++ leBytes 8 s.time.bus.toNat ++ leBytes 4 words ++ List.replicate 16 0 ++
    x.shares.entry ++ s.imageMailbox i ++
    leBytes 4 x.routes.enabled.toNat ++ leBytes 4 x.routes.signalled.toNat ++ leBytes 4 (s.routeSrc i) ++
    leBytes 4 (s.reg .INST_STALL_CFG 0 i).toNat ++ leBytes 4 x.stall.cnt.toNat ++ List.replicate 68 0 ++
    s.imageRings i ++ bitBytes 224 (s.localBits i s.gutter.pend) ++ bitBytes 224 (s.localBits i s.gutter.mask) ++ List.replicate 64 0 ++
    padTo 2560 ((x.mb.cache.filter (·.cpl.isSome)).flatMap Cached.bytes) ++ List.replicate 256 0

/-- The image of an instance (R335–R337). -/
def State.image (s : State) (i : Nat) : List Byte :=
  let fs := (s.imageFlows i).map (·.2)
  let data := fs.flatMap fun f => f.imageStaged.flatMap fun x => laneBytes x.staged
  let words := data.length / 8
  let rest := s.imageTail i words ++ fs.flatMap s.flowRecord ++ data
  leBytes 4 0x4D494251 ++ leBytes 2 1 ++ leBytes 2 fs.length ++ leBytes 8 (rest.length + 20) ++ leBytes 4 (crc32Bytes rest).toNat ++ rest

/-- INST_SAVE (R296, R334, R335). -/
def execInstSave (c : CmdRef) (s : State) : Res :=
  .next <| s.command c (instFrame 0x0107 modesURHV [(16, 8, 2 ^ 64 - 1), (24, 4, 0xFFFFFFFF)])
    (fun t => badInst t ++ [(16, t.arg 16 8 % 64 != 0)]) anyone fun t =>
    let x := s.inst (t.arg 8 2)
    if x.state != .frozen || !x.quiescent then s.done c stWrongMode []
    else
      let img := s.image (t.arg 8 2)
      if t.arg 24 4 < img.length then s.done c stNoResource (leBytes 4 img.length)
      else (State.postBytes (s.pasidOf 0) img.length (t.arg 16 8) img s).done c stOk (leBytes 4 img.length)

/-! INST_RESTORE: what an image says. -/

/-- Flow records and staged words of an image. -/
def imageFlowsOf (img : List Byte) : Nat := fieldAt img 6 2
def imageWordsOf (img : List Byte) : Nat := fieldAt img 0x2C 4

/-- Record `k` of an image, and the words staged for it. -/
def imageRecord (img : List Byte) (k : Nat) : List Byte := (img.drop (4096 + 96 * k)).take 96

/-- MAGIC, FORMAT, length and CRC-32 (R338), and records that describe flows. -/
def imageSound (img : List Byte) : Bool :=
  decide (4096 ≤ img.length) && fieldAt img 0 4 == 0x4D494251 && fieldAt img 4 2 == 1 && fieldAt img 8 8 == img.length &&
    img.length == 4096 + 96 * imageFlowsOf img + 8 * imageWordsOf img && fieldAt img 0x10 4 == (crc32Bytes (img.drop 0x14)).toNat &&
    (List.range (imageFlowsOf img)).all fun k => (flowTypeOf (fieldAt (imageRecord img k) 8 1)).isSome

/-- The image holds a scheduled flow. -/
def imageScheduled (img : List Byte) : Bool :=
  (List.range (imageFlowsOf img)).any fun k => match flowTypeOf (fieldAt (imageRecord img k) 8 1) with | some ty => ty.scheduled | none => false

/-- The node of a record on the trees here (R338): present, with its identity and an equal CONFIG_GEN. -/
def State.recordNode (s : State) (r : List Byte) : Option NodeRec :=
  (s.nodes.find? fun e => e.2.present && (identOf e.2.desc).toNat == fieldAt r 64 8 && (genOf e.2.desc).toNat == fieldAt r 72 2).map (·.2)

/-- The refusal record for shares that the pools do not hold (R294, R338). -/
def State.poolRefusal (s : State) (a : Ask) : Refused :=
  if s.freeCtx < a.ctx then refuse stNoResource ckContexts none 0xFF 0xFF (a.ctx - s.freeCtx)
  else if s.freeStage < a.words then refuse stNoResource ckStageWords none 0xFF 0xFF (a.words - s.freeStage)
  else
    match (List.finRange 16).find? fun t => decide (s.freeSlots t < a.slots[t]) with
    | some t => refuse stNoResource ckSlotBudget (some (.root t)) 0xFF 0xFF (a.slots[t] - s.freeSlots t)
    | none => refuse stNoResource 0 none 0xFF 0xFF 0

/-! INST_RESTORE: the instance. -/

/-- Stores the fields of a page register that it may hold, from a word of an image. -/
def State.putPage (s : State) (i : Nat) (r : Reg) (k v : Nat) : State := s.setReg r (BitVec.ofNat 32 v) k i

/-- The duplicate cache of an image. -/
def imageCache (img : List Byte) : List Cached :=
  (List.range 64).filterMap fun k =>
    let e := (img.drop (0x500 + 40 * k)).take 40
    if e.all (· == 0) then none
    else some ⟨BitVec.ofNat 32 (fieldAt e 0 4), BitVec.ofNat 32 (fieldAt e 4 4), some ((e.drop 8).take 30)⟩

/-- The completion rings of an image. -/
def State.putRings (s : State) (i : Nat) (img : List Byte) : State :=
  (List.finRange 16).foldl (fun (s : State) q =>
    let at_ := 0x100 + 32 * q.val
    let st := fieldAt img (at_ + 16) 4
    let s := (((s.putPage i .INST_CQ_BASE_LO q.val (fieldAt img at_ 4)).putPage i .INST_CQ_BASE_HI q.val (fieldAt img (at_ + 4) 4)).putPage i
      .INST_CQ_CFG q.val (fieldAt img (at_ + 8) 4)).putPage i .INST_CQ_CONS q.val (fieldAt img (at_ + 12) 4)
    let s := s.setFld .INST_CQ_STATUS_CONS_ERR (Fld.INST_CQ_STATUS_CONS_ERR.get (BitVec.ofNat 32 st)) q.val i
    s.modInst i fun x => { x with cqs := x.cqs.setIfInBounds q.val ⟨BitVec.ofNat 16 st, st.testBit 16, false⟩ }) s

/-- The mailbox of an image (R338): commands that had been taken and not completed are not restored. -/
def State.putMailbox (s : State) (i : Nat) (img : List Byte) : State :=
  let w (k : Nat) : Nat := fieldAt img (0x80 + 4 * k) 4
  let s := ((((s.putPage i .INST_MB_CMD_BASE_LO 0 (w 0)).putPage i .INST_MB_CMD_BASE_HI 0 (w 1)).putPage i .INST_MB_CPL_BASE_LO 0 (w 2)).putPage
    i .INST_MB_CPL_BASE_HI 0 (w 3)).putPage i .INST_MB_CFG 0 (w 4)
  let s := s.putPage i .INST_MB_CPL_CONS 0 (w 6)
  let s := s.putPage i .INST_MB_STATUS 0 (w 7 / 2 ^ 22 % 2 ^ 5 * 2 ^ 22)
  let st := w 7
  s.modInst i fun x =>
    { x with mb := { x.mb with
        prod := BitVec.ofNat 16 (w 5), fetch := BitVec.ofNat 16 st, oldest := BitVec.ofNat 16 st, write := BitVec.ofNat 16 (w 8)
        phase := st.testBit 16, taken := [], completed := [], eventSeq := BitVec.ofNat 32 (w 9), cache := imageCache img } }

/-- Pending and mask bits of an image. -/
def State.putSources (s : State) (i : Nat) (img : List Byte) : State :=
  let bit (at_ k : Nat) : Bool := (fieldAt img (at_ + k / 8) 1).testBit (k % 8)
  (List.range (8 * (s.inst i).shares.blocks.length)).foldl (fun (s : State) k =>
    match s.globalSrc i k with
    | some n => { s with gutter := { s.gutter with
        pend := bitPut s.gutter.pend n (bit 0x300 k), mask := bitPut s.gutter.mask n (bit 0x3E0 k) } }
    | none => s) s

/-- The instance with its shares and the header state of an image, FROZEN (R338). -/
def State.putHeader (s : State) (i pasid : Nat) (img : List Byte) : State :=
  let s := s.carve i pasid (askOf ((img.drop 0x40).take 64))
  let s := ((s.putMailbox i img).putRings i img).putSources i img
  let s := (s.putPage i .INST_STALL_CFG 0 (fieldAt img 0xB4 4)).putPage i .INST_FREEZE_COURSE 0 (fieldAt img 0x20 4)
  let signalled : BitVec 32 := BitVec.ofNat 32 (fieldAt img 0xAC 4)
  let named := (List.range 32).foldl (fun (m : KMap Nat) k => if signalled.getLsbD k then kset m k (fieldAt img 0xB0 4) else m) []
  s.modInst i fun x =>
    { x with
      state := .frozen, epoch := BitVec.ofNat 32 (fieldAt img 0x1C 4), quiescent := false
      routes := ⟨BitVec.ofNat 32 (fieldAt img 0xA8 4), signalled, if fieldAt img 0xB0 4 = s.fld .INST_MB_CFG_SRC 0 i then [] else named⟩
      stall := { x.stall with cnt := BitVec.ofNat 32 (fieldAt img 0xB8 4) } }

/-! INST_RESTORE: its flows. -/

/-- The causes that bits of R302 name, with FROZEN. -/
def causesOf (v : Nat) : HoldCauses where
  command := v.testBit 0
  escalated := v.testBit 1
  detached := v.testBit 2
  frozen := true
  stalled := v.testBit 4
  resync := v.testBit 5
  bulkLasting := v.testBit 7
  readFault := v.testBit 11
  ringFault := v.testBit 6

/-- `n` free words (assumption 15). -/
def State.freeList : Nat → State → List Word × State
  | 0, s => ([], s)
  | n + 1, s =>
    let x := s.freeWord
    let r := State.freeList n x.2
    (BitVec.truncate 36 x.1 :: r.1, r.2)

/-- A restored flow as its record gives it (R337–R339), its node's place and address those of the target. -/
def State.recordFlow' (s : State) (i : Nat) (n : NodeRec) (r : List Byte) (ty : FlowType) (safe : List Word) : Flow :=
  let t : Taken := ⟨0, r.take 64, true, false, false, 0, [], .notSent, false, 0⟩
  let f := s.openFlow i (fieldAt r 2 2) n t ty safe
  let flags := fieldAt r 80 1
  let cons : BitVec 16 := BitVec.ofNat 16 (fieldAt r 76 2)
  let c := causesOf (fieldAt r 81 2)
  { f with
    causes := { c with resync := c.resync || flags.testBit 2 }, toggleUnknown := flags.testBit 2
    prod := cons, cons := cons, fetched := cons, sendToggle := flags.testBit 0, recvToggle := flags.testBit 1
    acked := BitVec.ofNat 5 (fieldAt r 83 1), seq := BitVec.ofNat 5 (fieldAt r 83 1), recvSeq := BitVec.ofNat 5 (fieldAt r 84 1)
    credit := fieldAt r 85 1
    due := if ty.paced then some (BitVec.ofNat 48 (fieldAt r 88 6)).toInt else none }

/-- Staged words take their place in the stage store (R338). -/
def State.placeStaged (s : State) (ctx : Nat) (idx : BitVec 16) (ws : List Word) (whole : Bool) : State :=
  if ws.isEmpty then s
  else
    let b := s.bankFor ws.length
    let s := match b with | some b => s.useBank b (· + ws.length) | none => s
    s.modXfer ctx idx fun x => { x with staged := ws, stagedAll := whole, bank := b, words := ws.length, issued := true }

/-- The descriptors of a restored flow from K to P, with what the image holds staged for them: a paced flow's words are those of whole transfers,
a bulk flow's run on from the first. -/
def State.putXfers (s : State) (ctx : Nat) (r : List Byte) (data : List Word) : State :=
  match s.flow ctx with
  | none => s
  | some f =>
    let n := (BitVec.ofNat 16 (fieldAt r 74 2) - f.cons).toNat
    let s := s.addVisible ctx n
    let s := s.modXfer ctx f.cons fun x => { x with moved := fieldAt r 86 2 }
    if f.par.ty.paced then
      let w := f.par.bufWords
      (List.range (fieldAt r 78 2)).foldl (fun (s : State) k =>
        s.placeStaged ctx (f.cons + BitVec.ofNat 16 k) ((data.drop (k * w)).take w) true) s
    else s.placeStaged ctx f.cons data false

/-- Restores the flow of a record (R338, R339); a scheduled one enters the plan at its boundary. The safe value is read again with the target's
PASID, which the operands do not bring: it is free (assumption 15). None: no context is left. -/
def State.restoreFlow (s : State) (i : Nat) (img : List Byte) (k ofs : Nat) : Option State :=
  let r := imageRecord img k
  match s.recordNode r, flowTypeOf (fieldAt r 8 1), s.takeContext i with
  | some n, some ty, some (ctx, s) =>
    let sw := if fieldAt r 32 8 = 0 then 0 else safeWords (fieldAt r 12 1) (relOf (fieldAt r 16 1 % 4))
    let (safe, s) := State.freeList sw s
    let f := s.recordFlow' i n r ty safe
    let f := if ty.scheduled then { f with changes := [⟨s.changeFrom f.par.lead, true, false, false, none, false, none⟩] }
      else { f with active := true, since := s.course.count.toNat }
    let words := fieldAt r 94 2
    let data := laneWords ((img.drop (4096 + 96 * imageFlowsOf img + 8 * ofs)).take (8 * words))
    let s := { s with binds := if (kget s.binds n.addr.toNat).isSome then s.binds else kset s.binds n.addr.toNat ⟨i, false⟩ }
    some ((s.putFlow ctx f).putXfers ctx r data)
  | _, _, _ => none

/-- Restores the flows of an image, in record order. -/
def State.restoreFlows (i : Nat) (img : List Byte) : Nat → Nat → Nat → State → Option State
  | 0, _, _, s => some s
  | n + 1, k, ofs, s =>
    match s.restoreFlow i img k ofs with
    | some s => State.restoreFlows i img n (k + 1) (ofs + fieldAt (imageRecord img k) 94 2) s
    | none => none

/-- The checks and the work of INST_RESTORE on an image that has been read (R338). -/
def State.restore (s : State) (c : CmdRef) (i pasid : Nat) (img : List Byte) : State :=
  let recs := (List.range (imageFlowsOf img)).map (imageRecord img)
  let ask := askOf ((img.drop 0x40).take 64)
  let bound (n : NodeRec) : Bool := match kget s.binds n.addr.toNat with | some b => b.inst != i | none => false
  if !imageSound img then s.done c stImageInvalid []
  else if fieldAt img 0x18 2 != s.fld .TAPU_COURSE_CFG_PERIOD || fieldAt img 0x14 4 != s.imageDigest then s.done c stGangMismatch []
  else if s.gang.effMinor.toNat < fieldAt img 0x1A 1 then s.done c stImageInvalid []
  else if recs.any fun r => (s.recordNode r).isNone then s.done c stDetached []
  else if recs.any fun r => (s.recordNode r).any bound then s.done c stNotPermitted []
  else if !s.poolsHold i ask then s.done c stNoResource (s.poolRefusal ask).record
  else
    match State.restoreFlows i img (imageFlowsOf img) 0 0 (s.putHeader i pasid img) with
    | none => s.done c stNoResource noContext.record
    | some s' =>
      match (if imageScheduled img then s'.admitNext else none) with
      | some r => s.done c r.status r.record
      | none => ((if imageScheduled img then s'.planAgain else s').happen .INST_EVENT_FROZEN 7).done c stOk (leBytes 2 i)

/-- INST_RESTORE (R296, R338, R339). -/
def execInstRestore (c : CmdRef) (image : List Byte) (e : ReadEnd) (s : State) : Res :=
  let modes := if e == .ok && imageScheduled image then [Mode.run] else modesURHV
  guarded (s.readFits c 0x0108 (fun t => some (t.arg 24 4)) e image) <|
    s.command c (instFrame 0x0108 modes [(10, 3, 0xFFFFF), (16, 8, 2 ^ 64 - 1), (24, 4, 0xFFFFFFFF)])
      (fun t => badInst t ++ [(10, s.pasidUsed (t.arg 8 2) (t.arg 10 3)), (16, t.arg 16 8 % 64 != 0)]) anyone fun t =>
      let i := t.arg 8 2
      if (s.inst i).state != .free then s.done c stWrongMode []
      else
        let s := s.cmdRead c (t.arg 16 8) (t.arg 24 4) e
        if e != .ok then s.done c stBadParam [] 16 else s.restore c i (t.arg 10 3) image

end Sys2Proof.Machine
end

