-- ==== Sys2Proof/Machine/TimeCmd.lean ====
section
/-!
DEFINITION. The time and pace commands (R304, R305): TIME_GET, TIME_ADJUST, TIME_SOURCE, PACE_CONFIG, PACE_QUERY, COURSE_CONFIG.
-/

namespace Sys2Proof.Machine

/-! TIME_GET. -/

/-- TIME_VALID, STEP_PENDING and SLEWING (R304). -/
def State.timeFlags (s : State) : Nat :=
  s.timedOk.toNat + (s.time.step.isSome || s.time.stepBy.isSome).toNat * 2 + (s.time.slewLeft != 0).toNat * 4

/-- TIME_GET (R304). -/
def execTimeGet (c : CmdRef) (s : State) : Res :=
  .next <| s.command c (plainFrame 0x0401 modesSURHV false) noRanges anyone fun _ =>
    s.done c stOk <| leBytes 8 s.time.bus.toNat ++ [BitVec.ofNat 8 s.time.quality.code, BitVec.ofNat 8 s.timeFlags] ++
      leBytes 4 s.uncertNs ++ leBytes 4 (s.course.count.toNat % 2 ^ 32) ++ [BitVec.ofNat 8 s.timeSource]

/-! TIME_ADJUST. -/

/-- The signed offset of a slew, ns. -/
def Taken.slew (t : Taken) : Int := (BitVec.ofNat 64 (t.arg 16 8)).toInt

/-- The step form (R138, R141): the last value written before a course start is the one that applies; without courses it applies at once. -/
def State.stepTo (s : State) (v : BitVec 64) : State × List Byte :=
  if s.course.running then
    ({ s with time := { s.time with step := some v } }, leBytes 8 (s.startOf (s.course.count.toNat + 1)).toNat)
  else (s.applyStep v 0, leBytes 8 s.time.bus.toNat)

/-- TIME_ADJUST (R138, R141, R304). -/
def execTimeAdjust (c : CmdRef) (s : State) : Res :=
  .next <| s.command c ⟨0x0402, [(8, 1, 0xFF), (16, 8, 2 ^ 64 - 1)], modesSURHV, true⟩
    (fun t => [(8, t.arg 8 1 > 1), (16, t.arg 8 1 == 1 && decide (10000000000 < t.slew.natAbs))]) anyone fun t =>
    if t.arg 8 1 = 0 then
      if s.pmu.mode = .run ∨ s.pmu.mode = .hold then s.done c stWrongMode []
      else
        let (s, r) := s.stepTo (BitVec.ofNat 64 (t.arg 16 8))
        s.done c stOk r
    else
      let s := s.startSlew t.slew
      s.done c stOk (leBytes 4 (sat32 t.slew))

/-! TIME_SOURCE. -/

/-- The quality once a source is in force (R140). -/
def State.qualityWith (s : State) (src : Nat) : Quality :=
  if s.timeSource = src || s.time.quality == .unset then s.time.quality else if src = 0 then .locked else .holdover

/-- TIME_SOURCE (R138, R139, R304, R305, R381). -/
def execTimeSource (c : CmdRef) (s : State) : Res :=
  .next <| s.command c ⟨0x0403, [(8, 1, 0xFF), (9, 1, 3)], modesURHV, true⟩ (fun t => [(8, t.arg 8 1 > 2)]) anyone fun t =>
    let src := t.arg 8 1
    if (s.gang.fixed && src != 2) || (src == 2 && s.gang.role != .member) then s.done c stGangMismatch []
    else
      let q := s.qualityWith src
      let s := (s.setFld .TAPU_PPS_CFG_IN_EN (t.arg 9 1 % 2)).setFld .TAPU_PPS_CFG_IN_FALL (t.arg 9 1 / 2)
      (s.setSource src).done c stOk [BitVec.ofNat 8 q.code]

/-! COURSE_CONFIG. -/

/-- COURSE_CONFIG (R124, R167, R304, R305): it completes when the plan at the new period is marked ready. -/
def execCourseConfig (c : CmdRef) (s : State) : Res :=
  .next <| s.command c ⟨0x0406, [(8, 2, 0xFFFF)], modesURHV, true⟩ (fun t => [(8, t.arg 8 2 < 32 || t.arg 8 2 > 8192)]) anyone fun t =>
    if s.gang.fixed then s.done c stGangMismatch []
    else if s.hostScheduled then s.done c stBusy []
    else
      match s.serviceRefused (t.arg 8 2) with
      | some r => s.done c r.status r.record
      | none => (s.setPeriod (t.arg 8 2)).wait c []

/-! PACE_CONFIG. -/

/-- The estimator of a pace command. -/
def Taken.est (t : Taken) : Fin 8 := Fin.ofNat 8 (t.arg 8 1)

/-- Static fields of an estimator with their new values (R200). -/
def paceStatics (t : Taken) : List (Fld × Nat) :=
  [(.TAPU_PACE_CFG_KIND, t.arg 9 1 / 2 % 4), (.TAPU_PACE_CFG_SRC, t.arg 10 1), (.TAPU_PACE_CFG_REVERSE_DIR, t.arg 9 1 / 8 % 2),
    (.TAPU_PACE_CFG_INDEX_EN, t.arg 9 1 / 16 % 2), (.TAPU_PACE_CFG_FILT, t.arg 11 1 / 16), (.TAPU_PACE_CPR_CPR, t.arg 16 3),
    (.TAPU_PACE_IDX_OFS_OFS, t.arg 20 3)]

/-- The fields of an estimator take what PACE_CONFIG brings (R199, R305): through OFF where a static one changes; EN, WIN, STOP_CYC and AMAX
at the next course start. -/
def State.paceSet (s : State) (t : Taken) : State :=
  let e := t.est
  let statics := (paceStatics t).any fun x => s.fld x.1 e.val != x.2
  let on := t.arg 9 1 % 2
  let s := if statics then (s.settleReleases e false false).modEst e fun _ => Estimator.init else s
  let s := (s.shadow .TAPU_PACE_CFG 0 e.val).shadow .TAPU_PACE_AMAX 0 e.val
  let s := (paceStatics t).foldl (fun (s : State) x => s.setFld x.1 x.2 e.val) s
  let s := ((s.setFld .TAPU_PACE_CFG_WIN (t.arg 11 1 % 16) e.val).setFld .TAPU_PACE_CFG_STOP_CYC (t.arg 12 1) e.val).setFld
    .TAPU_PACE_CFG_EN on e.val
  let s := ((s.setFld .TAPU_PACE_AMAX_AMAX (t.arg 24 4) e.val).setFld .TAPU_PACE_RMAX_RMAX (t.arg 28 4) e.val).setFld
    .TAPU_PACE_HMAX_HMAX (t.arg 32 3) e.val
  if statics && on = 0 then s else s.applyPace e

/-- The sample flow of a bus source that no estimator follows any more closes (R184). -/
def State.dropSource (s : State) (kind src : Nat) : State :=
  if kind = 1 && (List.finRange 8).all fun e => s.paceKind e != 1 || s.paceOf e != src then s.closeService (.sample (Fin.ofNat 32 src))
  else s

/-- Bus source `src` is bound to a node (R184): its sample flow, where it has not got that very one; none: it has. -/
def State.bindSource (s : State) (src : Nat) (n : NodeRec) (k : Nat) : Option (Except Refused State) :=
  let svc : Service := .sample (Fin.ofNat 32 src)
  if s.flows.any fun e => e.2.service == some svc && !e.2.closing && e.2.addr == n.addr && e.2.par.k == k then none
  else some ((s.closeService svc).openService n.pos n.addr 15 svc 2 k)

/-- PACE_CONFIG after the checks common to every command. -/
def State.paceConfigAct (s : State) (c : CmdRef) (t : Taken) : State :=
  let e := t.est
  let kind := s.paceKind e
  let src := s.paceOf e
  let reply (s : State) : List Byte := [BitVec.ofNat 8 s.ests[e].state.code]
  if t.arg 9 1 / 2 % 4 = 1 then
    match (kget s.nodes (t.arg 36 2)).filter (·.present) with
    | none => s.done c stDetached []
    | some n =>
      match s.bindSource (t.arg 10 1) n (t.arg 38 1) with
      | none =>
        let s := (s.paceSet t).dropSource kind src
        s.done c stOk (reply s)
      | some (.error r) => s.done c r.status r.record
      | some (.ok s) =>
        let s := (s.paceSet t).dropSource kind src
        s.wait c (reply s)
  else
    let s := (s.paceSet t).dropSource kind src
    s.done c stOk (reply s)

/-- Bytes of PACE_CONFIG that break a rule (R184, R200, R304). -/
def State.paceBad (s : State) (t : Taken) : List (Nat × Bool) :=
  let kind := t.arg 9 1 / 2 % 4
  let node := t.arg 36 2
  let source : Bool := match kget s.nodes node with | some n => ((n.desc[4]?).getD 0).getLsbD 13 | none => true
  [(8, t.arg 8 1 > 7), (9, kind == 3), (10, decide ((if kind = 1 then 31 else 7) < t.arg 10 1)),
    (36, if kind = 1 then badNode node || !source else node != 0), (38, if kind = 1 then t.arg 38 1 == 7 else t.arg 38 1 != 0)]

/-- PACE_CONFIG (R184, R199, R200, R304, R305). -/
def execPaceConfig (c : CmdRef) (s : State) : Res :=
  .next <| s.command c
    ⟨0x0404, [(8, 1, 0xFF), (9, 1, 0x1F), (10, 1, 0xFF), (11, 1, 0xFF), (12, 1, 0xFF), (16, 3, 0xFFFFFF), (20, 3, 0xFFFFFF),
      (24, 4, 0xFFFFFFFF), (28, 4, 0xFFFFFFFF), (32, 3, 0x0FFFFF), (36, 2, 0x0FFF), (38, 1, 7)], modesURHV, true⟩
    s.paceBad anyone (s.paceConfigAct c)

/-! PACE_QUERY. -/

/-- The paced flow that PACE_QUERY names: the issuer's, on that estimator. -/
def State.pacedFlow (s : State) (i : Nat) (t : Taken) : Option Flow :=
  (s.ctxOf i (t.arg 10 2)).bind fun ctx => (s.flow ctx).filter fun f => f.par.ty.paced && f.par.est == t.est

/-- A page of PACE_QUERY (R304). -/
def State.pacePage (s : State) (t : Taken) (f : Option Flow) : List Byte :=
  let e := t.est
  let x := s.ests[e]
  if t.arg 9 1 = 0 then
    leBytes 6 (s.shownPos e).toNat ++ leBytes 8 x.stamp.toNat ++ leBytes 4 x.rateReg ++
      [BitVec.ofNat 8 x.state.code, BitVec.ofNat 8 (x.stopped.toNat + x.reversing.toNat * 2)]
  else
    let u : Int := (f.bind (·.due)).getD 0
    leBytes 4 x.accelReg ++ leBytes 4 x.errReg ++ leBytes 6 (BitVec.ofInt 48 u).toNat ++
      leBytes 4 (min ((f.map (·.counts.angleWait)).getD 0) (2 ^ 32 - 1)) ++ leBytes 2 (min ((f.map (·.counts.overrate)).getD 0) 0xFFFF)

/-- PACE_QUERY (R200, R304, R305). -/
def execPaceQuery (c : CmdRef) (s : State) : Res :=
  .next <| s.command c ⟨0x0405, [(8, 1, 0xFF), (9, 1, 0xFF), (10, 2, 0xFFFF)], modesURHV, false⟩
    (fun t => [(8, t.arg 8 1 > 7), (9, t.arg 9 1 > 1), (10, t.arg 10 2 != 0xFFFF && (s.pacedFlow c.inst.val t).isNone)]) anyone fun t =>
    s.done c stOk (s.pacePage t (if t.arg 10 2 = 0xFFFF then none else s.pacedFlow c.inst.val t))

/-- The core PLL relocks, or its reference changes (R143): bus time is rebuilt over the gap, and trunks that lost their symbol clock
fail. -/
def execCoreClockChange (ticks : Nat) (lost : BitVec 16) (s : State) : Res :=
  .next <|
    let s := { s with time := { s.time with ao := s.time.ao + BitVec.ofNat 48 ticks } }
    let s := (s.rebuild s.time.bus ticks).expireDue
    (List.finRange 16).foldl (fun (s : State) t => if lost.getLsbD t.val then s.linkFailure (.root t) else s) s

end Sys2Proof.Machine
end

