-- ==== Sys2Proof/Machine/GangCmd.lean ====
section
/-!
DEFINITION. The gang commands (R306, R366, R369, R372, R376, R383): GANG_CONFIG, GANG_STATUS, GANG_JOIN, GANG_LEAVE.
-/

namespace Sys2Proof.Machine

/-- The fuse allows gang commands (R306). -/
def ganged (_ : Taken) : Bool := gangAllowed

/-! GANG_CONFIG. -/

/-- The 12 bytes that the digest covers (R369). -/
def State.digestBytes (s : State) (size : Nat) (map : List Byte) : List Byte :=
  leBytes 2 (s.fld .TAPU_COURSE_CFG_PERIOD) ++ [BitVec.ofNat 8 (s.fld .TAPU_TIME_CTRL_SOURCE), BitVec.ofNat 8 size] ++ map

/-- GANG_CONFIG (R306, R364, R366, R369, R381): the digest, SETUP, GA out of OFF; the decision interval starts. -/
def execGangConfig (c : CmdRef) (s : State) : Res :=
  .next <| s.command c ⟨0x0501, [(8, 1, 0xFF), (9, 1, 1), (16, 8, 2 ^ 64 - 1)], [.setup], true⟩
    (fun t => (8, t.arg 8 1 == 0 || decide (8 < t.arg 8 1)) ::
      (List.range 8).map fun e => (16 + e, decide (7 < t.arg (16 + e) 1) && t.arg (16 + e) 1 != 0xFF)) ganged fun t =>
    let digest := crc32Bytes (s.digestBytes (t.arg 8 1) (leBytes 8 (t.arg 16 8)))
    let s := s.modGang fun g =>
      { g with
        phase := .setup, configured := true, joined := false, accepted := none, size := BitVec.ofNat 4 (t.arg 8 1)
        ridgeAllowed := t.arg 9 1 == 1, map := BitVec.ofNat 64 (t.arg 16 8), digest := digest, deciding := true, sawEdges := false
        goodRun := 0 }
    (s.applyPolicies.portPowered .ga).done c stOk (leBytes 4 digest.toNat)

/-! GANG_STATUS. -/

/-- GANG_STATUS (R306). -/
def execGangStatus (c : CmdRef) (s : State) : Res :=
  .next <| s.command c (plainFrame 0x0502 modesAll false) noRanges anyone fun _ =>
    let g := s.gang
    s.done c stOk <| g.brief ++ leBytes 4 g.digest.toNat ++ leBytes 4 (sat32 g.offset) ++
      [g.effMinor, BitVec.ofNat 8 (g.members % 256)]

/-! GANG_JOIN. -/

/-- An estimator goes to OFF at once. -/
def State.paceOff (s : State) (e : Fin 8) : State := (s.settleReleases e false false).modEst e fun _ => Estimator.init

/-- An estimator follows ridge estimator `src` (R372). -/
def State.paceFromRidge (s : State) (e : Fin 8) (src : Nat) : State :=
  let kind := s.paceKind e
  let old := s.paceOf e
  let s := (s.paceOff e).shadow .TAPU_PACE_CFG 0 e.val
  let s := ((s.setFld .TAPU_PACE_CFG_KIND 2 e.val).setFld .TAPU_PACE_CFG_SRC src e.val).setFld .TAPU_PACE_CFG_EN 1 e.val
  (s.dropSource kind old).applyPace e

/-- The estimators of a member that PACE_MAP names (R372). -/
def State.mapPace (s : State) : State :=
  (List.finRange 8).foldl (fun (s : State) e =>
    let m := fieldAt (leBytes 8 s.gang.map.toNat) e.val 1
    if m = 0xFF then s else s.paceFromRidge e m) s

/-- The role is decided at the start of GANG_JOIN where RIDGE_ALLOWED is set; without it the controller waits as a member (R366). -/
def State.joinRole (s : State) : State :=
  if !s.gang.deciding then s.joinCheck
  else if !s.gang.ridgeAllowed then s.mapPace.joinCheck
  else if s.gbLive then (s.modGang fun g => { g with deciding := false, role := .member }).mapPace
  else s.modGang fun g => { g with deciding := false, role := .ridge, phase := .locked }

/-- GANG_JOIN (R306, R366, R372, R376): it waits for its condition, or for 2 s. -/
def execGangJoin (c : CmdRef) (s : State) : Res :=
  .next <| s.command c (plainFrame 0x0503 [.setup] true) noRanges ganged fun t =>
    if s.gang.configured then
      let s := s.wait c []
      { s with gang := { s.gang with joining := some (c.inst.val, t.idx) } }.joinRole
    else s.done c stWrongMode []

/-! GANG_LEAVE. -/

/-- GANG_LEAVE (R306, R383). -/
def execGangLeave (c : CmdRef) (s : State) : Res :=
  .next <| s.command c (plainFrame 0x0504 [.setup] true) noRanges ganged fun _ =>
    let s := (List.finRange 8).foldl (fun (s : State) e =>
      if s.paceKind e = 2 then (s.paceOff e).setFld .TAPU_PACE_CFG_EN 0 e.val else s) s
    let s := if s.ga.state == .off then s else s.portOff .ga
    let s := s.modGang fun g =>
      { g with
        role := .solo, phase := .setup, configured := false, joined := false, accepted := none, deciding := false, digest := 0
        effMinor := BitVec.ofNat 8 cmdMinor, ridgeLock := false, goodRun := 0, noSample := 0 }
    (s.setSource 0).done c stOk []

end Sys2Proof.Machine
end

