-- ==== Sys2Proof/Machine/Boot.lean ====
section
/-!
DEFINITION. Resets and starts (R429–R436), images and the flash (R437–R441), FLR and PERST_N (R430, R431), and the commands FW_STAGE and
FW_COMMIT (R309, R310).
-/

namespace Sys2Proof.Machine

/-! Images (R439). -/

/-- A slot: `false` A, `true` B. -/
def Boot.slot (b : Boot) (y : Bool) : Slot := if y then b.slotB else b.slotA

/-- Change a slot. -/
def State.modSlot (s : State) (y : Bool) (f : Slot → Slot) : State :=
  { s with boot := if y then { s.boot with slotB := f s.boot.slotB } else { s.boot with slotA := f s.boot.slotA } }

/-- What a slot holds. -/
def State.imageOf (s : State) (y : Bool) : List Byte := ((s.boot.slot y).staged).getD (Config.factoryImage y)

/-- Bytes of a part of an image. -/
def imagePart (img : List Byte) (o n : Nat) : List Byte := (img.drop o).take n

/-- Fields of the header whose values the table of R439 fixes. -/
def headerFixed (img : List Byte) : Bool :=
  let zero (o n : Nat) : Bool := (imagePart img o n).all (· == 0)
  fieldAt img 0 4 == 0x4D47524F && fieldAt img 4 2 == 1 && fieldAt img 6 2 == 0x7512 && decide (fieldAt img 8 1 ≤ 0xB0) &&
    decide (fieldAt img 0xE 1 ≤ 64) && decide (fieldAt img 0xF 1 ≤ 1) && decide (fieldAt img 0x10 4 ≤ 7335936) &&
    decide (4096 + fieldAt img 0x10 4 ≤ img.length) && zero 0x14 12 && zero 0x40 64 && zero 0x100 0xF00

/-- The digest of key `k` in OTP (R442), its words low byte first. -/
def State.keyDigest (s : State) (k : Nat) : List Byte := (List.range 8).flatMap fun i => leBytes 4 (s.otp (2 + 8 * k + i)).toNat

/-- The first check of R439 that an image fails, as BOOT_FAIL.CODE names it (R447). -/
def State.verifyImage (s : State) (img : List Byte) : Option Nat :=
  let key := fieldAt img 0xF 1
  let pub := imagePart img 0x80 64
  if !headerFixed img then some 5
  else if Config.sha256 pub != s.keyDigest key || (key == 0 && s.key0Gone) then some 6
  else if !Config.ecdsaVerify pub (imagePart img 0xC0 64) (Config.sha256 (img.take 0xC0)) then some 7
  else if Config.sha256 (imagePart img 4096 (fieldAt img 0x10 4)) != imagePart img 0x20 32 then some 8
  else if fieldAt img 0xE 1 < s.rollbackLevel then some 9
  else if fieldAt img 0xC 1 != 1 then some 5
  else none

/-- What a slot's registers show of its image, once it has been found valid (R447). -/
def Slot.take (x : Slot) (img : List Byte) (version : Nat) : Slot :=
  { x with
    valid := true, version := BitVec.ofNat 24 version
    rollback := BitVec.ofNat 8 (fieldAt img 0xE 1), key := BitVec.ofNat 8 (fieldAt img 0xF 1), cmdset := BitVec.ofNat 16 (fieldAt img 0xC 2) }

/-- VERSION of a header as registers show it: major, minor, patch from the top. -/
def headerVersion (img : List Byte) : Nat := fieldAt img 9 1 * 65536 + fieldAt img 10 1 * 256 + fieldAt img 11 1

/-- An image that a start has loaded is valid; the one with which the board was built is firmware 1.4.0 (assumption 13). -/
def State.loaded (s : State) (y : Bool) : State :=
  let img := s.imageOf y
  s.modSlot y fun x => x.take img (if x.staged.isSome then headerVersion img else 0x010400)

/-! FLR, PERST_N (R430, R431). -/

/-- The HIF registers at their reset values (R477). -/
def State.hifReset (s : State) : State := { s with regs := s.regs.filter fun e => e.1 / 0x1000 != 1 }

/-- The host function without its configuration state; pins and the link stay. -/
def HostFn.fresh (h : HostFn) : HostFn := { HostFn.init with perst := h.perst, wakeN := h.wakeN, up := h.up, width := h.width, speed := h.speed }

/-- Function state is reset: configuration space, MSI-X table and PBA, what waits to be issued (R359, R429). -/
def State.functionReset (s : State) : State :=
  { s.hifReset with
    host := { s.host.fresh with stageTags := s.host.stageTags, ringTags := s.host.ringTags }
    hostq := [], gutter := { s.gutter with msix := [], pba := 0, held := 0 } }

/-- The mailbox of an instance is disabled without completions (R314). -/
def State.muteMailbox (s : State) (i : Nat) : State :=
  (s.modInst i fun x => { x with mb := { x.mb with taken := [] } }).setFld .INST_MB_CFG_ENABLE 0 0 i

/-- An instance at an FLR: 0 is reset, any other destroyed; a reset under way ends so, and its command has gone (R429, R430). -/
def State.flrInstance (s : State) (i : Nat) : State :=
  match (s.inst i).state with
  | .free => s
  | .resetting => s.modInst i fun x => { x with reset := x.reset.map fun (r : ResetRun) => { r with destroy := i != 0, cmd := none } }
  | _ => s.startReset i (i != 0) none

/-- The actions of R430 on the controller. -/
def State.flrActions (s : State) : State :=
  let is := s.insts.map (·.1)
  let s := is.foldl State.muteMailbox s
  let s := { s with
    gang := { s.gang with joining := none }
    pmu := { s.pmu with entry := s.pmu.entry.map fun (x : Entry) => { x with cmd := none } }
    flows := s.flows.map fun (e : Nat × Flow) => (e.1, { e.2 with changes := e.2.changes.map fun (ch : FlowChange) => { ch with cmd := none } }) }
  is.foldl State.flrInstance s.enterHold

/-- An FLR, when no warm start keeps it waiting. -/
def State.flrNow (s : State) : State := s.flrActions.functionReset.setBit .HIF_EVENT_FLR

/-- FLR (R430, R446). -/
def execFlr (s : State) : Res :=
  .next <| if s.host.perst then s else if s.boot.start.isSome then { s with boot := { s.boot with heldFlr := true } } else s.flrNow

/-- What a reset of the host function leaves where it touches nothing else: the decisions that are HELD and the entries that wait in
write-back (R431). -/
def State.heldOver (s was : State) : State := { s with hostq := was.hostq, gutter := { s.gutter with held := was.gutter.held } }

/-- PERST_N falls (R399, R431): D3cold, PD_HOST OFF; but in Dormant and Standby the actions of R430 as well. -/
def State.perstNow (s : State) : State :=
  let pme := s.host.pmeEn
  let s := if s.pmu.mode.courses then s.flrActions.functionReset else s.functionReset.heldOver s
  let s := { s with
    host := { s.host with perst := true, d := .d3cold, pmeAtCold := pme, up := false, width := 0, speed := 0, linkPm := 0 }
    pmu := { s.pmu with doms := s.pmu.doms.set 0 .off } }
  s.setBit .HIF_EVENT_PERST

/-- See `State.perstNow`; during a warm start it waits for the end of step 8 (R446). -/
def execPerstAssert (s : State) : Res :=
  .next <|
    if s.host.perst then s
    else match s.boot.start with
      | some r => { s with host := { s.host with perst := true }, boot := { s.boot with heldPerst := r.warm } }
      | none => s.perstNow

/-- PERST_N is released (R399, R431): WAKE_N goes with it, and the function is in D0, unconfigured. -/
def State.perstRise (s : State) : State :=
  let s := if s.host.wakeN then ({ s with host := { s.host with wakeN := false } }).emit (.wakeN false) else s
  { s with host := { s.host with perst := false, d := .d0, pmeAtCold := false } }

/-- The PCIe link trains: the width and speed that it gets are free (R480, assumption 15). What waited in write-back follows (R357). -/
def State.linkTrains (s : State) : State :=
  if s.host.perst then s
  else
    let (a, s) := s.freeWord
    let (b, s) := s.freeWord
    State.flushPosted
      { s with host := { s.host with
          up := true, width := BitVec.ofNat 3 (2 ^ (a.toNat % 3)), speed := BitVec.ofNat 4 (b.toNat % 5 + 1), linkPm := 0 } }

/-! Cold starts. -/

/-- Keys of the registers that a forced cold start keeps (R477): PPM_, BOOT_, ERR_ and ID_SCRATCH. -/
def coldKept (key : Nat) : Bool := key / 0x1000 == 0xB || key / 0x1000 == 0xC || key / 0x1000 == 0xD || key == Reg.ID_SCRATCH.key 0 0

/-- A root port after a reset of the trunks: its pins stay, and where the port power manager holds it ON it is POWERED (R435). -/
def Port.afterCold (x : Port) (on : Bool) : Port :=
  { Port.init with present := x.present, activity := x.activity, state := if on then .powered else .off }

/-- A device whose link went down: what it holds stays until it sees a reset hold; without power it is dark (R103). -/
def Device.afterCold (d : Device) (power : Bool) : Device :=
  if power then { d with link := { DownLink.init with lastRate := d.link.lastRate } } else d.dark

/-- Boot state right after PORST_N: the flash and the blown OTP bits stay (R437, R440, R447). -/
def Boot.afterPorst (b : Boot) : Boot :=
  { Boot.init with
    seq := b.seq, primary := b.primary, commitPending := b.commitPending, rollback := b.rollback, key0Revoked := b.key0Revoked
    slotA := { b.slotA with offset := 0 }, slotB := { b.slotB with offset := 0 } }

/-- A cold start begins (R429, R435, R477): everything is reset but what `porst` or a forced cold start keeps; pins keep their levels. -/
def State.coldBegin (s : State) (porst : Bool) : State :=
  let s := if porst then (List.range 16).foldl State.ppmCut s else s
  let s := if porst then (List.finRange 4).foldl (fun (s : State) g =>
    let x := s.feeds[g]
    let s := if x.aEn then s.emit (.feedEn g.val false false) else s
    if x.bEn then s.emit (.feedEn g.val true false) else s) s else s
  let on (t : Fin 16) : Bool := !porst && s.ppm[t].phase == .on
  { State.reset with
    regs := if porst then [] else s.regs.filter fun e => coldKept e.1
    time := { TimeState.init with ao := if porst then 0 else s.time.ao, mono := s.time.mono, cclk := s.time.cclk }
    ports := Vector.ofFn fun t => s.ports[t].afterCold (on t)
    ga := s.ga.afterCold false
    devices := s.devices.map fun (d : Device) => d.afterCold (d.powered && !porst)
    encs := s.encs.map fun (e : Encoder) => { Encoder.init with a := e.a, b := e.b }
    errs := if porst then ErrState.init else s.errs
    stop := { StopState.init with pinLow := s.stop.pinLow }
    pmu := { Pmu.init with wakeLow := s.pmu.wakeLow }
    ppm := if porst then Vector.replicate 16 PpmPort.init else s.ppm
    feeds := if porst then Vector.replicate 4 FeedGroup.init else s.feeds
    oscRun := !porst && s.oscRun
    host := { HostFn.init with perst := s.host.perst, d := if s.host.perst then .d3cold else .d0 }
    boot := if porst then s.boot.afterPorst else s.boot
    jtag := s.jtag, ptbSeq := s.ptbSeq + 1, free := s.free, out := s.out, pending := s.pending }

/-- A cold start ends (R432): in Setup, the host link trained. -/
def State.coldEnd (s : State) : State :=
  let s := s.linkTrains
  if s.host.perst then { s with host := { s.host with d := .d3cold }, pmu := { s.pmu with doms := s.pmu.doms.set 0 .off } } else s

/-- ROM recovery (R436). -/
def State.romRecovery (s : State) : State :=
  let doms := (((s.pmu.doms.set 8 .off).set 9 .off).set 10 .off).set 11 .off
  let s := { s with
    boot := { s.boot with start := none, rom := true, kind := .rom, loaded := false }
    pmu := { s.pmu with mode := .service, target := .service, doms := doms } }
  s.coldEnd

/-! Warm starts (R433). -/

/-- A register of a block that a warm start resets, as R477 has it: configuration fields keep their values. ENG_STOP_ registers are kept. -/
def warmReg (key : Nat) (v : Reg32) : Reg32 :=
  let b := key / 0x1000
  if b != 3 && b != 5 && b != 6 then v
  else
    match findReg .bar0 key with
    | none => v
    | some (r, _) =>
      if [Reg.ENG_STOP_STATUS, .ENG_STOP_TIME_LO, .ENG_STOP_TIME_HI].contains r then v
      else r.fields.foldl (fun (x : Reg32) f => if f.acc == .rw then f.put x (f.get v) else x) r.reset

/-- The gutter of PD_DISP after a reset: what AO holds and the settings that firmware writes back stay. -/
def Gutter.afterWarm (g : Gutter) : Gutter :=
  { Gutter.init with
    pend := g.pend, mask := g.mask, latch := g.latch, fast := g.fast, wake := g.wake, stop := g.stop, cfg := g.cfg, prio := g.prio
    msix := g.msix, pba := g.pba, held := g.held }

/-- The domains that a warm start resets: PD_CORE, PD_DISP, PD_ENG0, PD_ENG1. -/
def warmDomains : List (Fin 12) := [2, 4, 5, 6]

/-- Domains take a state. -/
def State.setDoms (s : State) (l : List (Fin 12)) (x : DomState) : State :=
  { s with pmu := { s.pmu with doms := l.foldl (fun (v : Vector DomState 12) d => v.set d.val x) s.pmu.doms } }

/-- A flow as the flow table gives it to the restarted engines (R432 step 11): its task is in no hand, and what a bulk output had outstanding is
sent again. -/
def Flow.afterWarm (f : Flow) : Flow :=
  { f with
    task := if f.task.state == .inHand then { f.task with state := .waiting } else f.task
    seq := if f.par.ty.bulk && f.par.ty.output then f.acked else f.seq }

/-- A warm start begins (R433): Run becomes Hold, the firmware and the blocks that it drives are reset, the rest runs on. -/
def State.warmBegin (s : State) (relocked : Bool) : State :=
  let s := if s.pmu.mode = .run then s.setMode .hold else s
  let s := (s.setDoms warmDomains .waking)
  let s := { s with
    regs := s.regs.filterMap fun e =>
      let v := warmReg e.1 e.2
      match findReg .bar0 e.1 with
      | some (r, _) => if v == r.reset then none else some (e.1, v)
      | none => some (e.1, v)
    gutter := s.gutter.afterWarm, fwTasks := [], planq := Vector.replicate 16 [], txq := Vector.replicate 16 [], expects := []
    engines := Vector.replicate 16 Engine.init, trace := [], traceDropped := false, dispLast := 0x18F
    flows := s.flows.map fun (e : Nat × Flow) => (e.1, e.2.afterWarm)
    pmu := { s.pmu with handshake := none, entry := none, changing := false, target := s.pmu.mode } }
  if relocked then (s.rebuild s.time.bus 0).expireDue else s

/-- A node with flows or a record is asked for its descriptor (R432 step 9); another identity in its place holds its flows (R116, R117). -/
def State.checkNode (s : State) (e : Nat × NodeRec) : State :=
  let n := e.2
  let used := (s.flows.any fun f => f.2.addr == n.addr && f.2.service.isNone) || s.reseats.any fun r => r.addr == n.addr
  if !used || !n.present || !s.routeUp n.pos then s
  else
    let s := s.firmwareSends n.addr (mkSetup true 0 1 1 0 (wbits ((n.desc[0]?).getD 0) 35 28))
    let same := match s.dev n.pos with
      | some d => d.addr == some n.addr && identOf d.board.desc == identOf n.desc && genOf d.board.desc == genOf n.desc
      | none => false
    if same then s
    else
      let found := ((s.dev n.pos).map fun d => (identOf d.board.desc).toNat).getD 0
      (s.setCausesAll (s.ctxs fun f => f.addr == n.addr && f.service.isNone) fun c => { c with detached := true }).nodeEvent evNodeChanged n.addr
        (leBytes 8 found)

/-- Transfers bound to courses whose commit point fell before step 11 completes (R433), in the order of their descriptors. -/
def State.heldByStart (s : State) : State :=
  let c := s.committed
  let l := s.flows.flatMap fun e => if e.2.par.ty.scheduled then (e.2.xfers.filter fun x =>
    x.fin.isNone && (match x.course with | some k => decide (k ≤ c) | none => false)).map fun x => (x.vis, (e.1, x.idx)) else []
  s.finishAll ((sortBy (·.1) l).map (·.2)) .held

/-- Ports that an entry to Standby or Dormant suspended resume (R54, R392). -/
def State.resumeSlept (s : State) : State :=
  let s := s.pmu.slept.foldl (fun (s : State) k =>
    s.requestResume (if k < 16 then .root (Fin.ofNat 16 k) else .ga) false) s
  { s with pmu := { s.pmu with slept := [] } }

/-- The commands that firmware had taken (R314). -/
def State.abortTaken (s : State) : State :=
  let s := { s with gang := { s.gang with joining := none } }
  s.insts.foldl (fun (s : State) e =>
    (e.2.mb.taken.filter fun t => !t.copies).foldl (fun (s : State) t => s.complete e.1 t.idx stAborted []) s) s

/-- A warm start ends (R432, R433): the firmware runs, taken commands are aborted, the mode is Hold where it began in Run or Hold and Setup
elsewhere, and the flows are restored. -/
def State.warmEnd (s : State) (r : StartRun) : State :=
  let s := s.setDoms warmDomains .on
  let s := if r.linkRetained then s else s.functionReset.linkTrains
  let asleep := !r.begun.courses || s.pmu.doms[10] == .off
  let s := if asleep then (s.setDoms ((if s.host.perst then [] else [0]) ++ [1, 3, 7, 8, 9, 10]) .on).resumeSlept else s
  let s := if r.begun = .run ∨ r.begun = .hold then s else s.setMode .setup
  let s := s.abortTaken
  (s.nodes.foldl State.checkNode s).heldByStart

/-! Starts, one after the other (R434, R435). -/

/-- The slot of a start: the primary one, or in the cold attempts after three failures the other (R435). -/
def State.startSlot (s : State) (warm : Bool) : Bool := s.boot.primary ^^ (!warm && s.boot.coldOther)

/-- A failure is counted (R435, R447); what starts next: warm or cold, or nothing more. -/
def State.noteFail (s : State) (step code : Nat) (warm : Bool) : State × Option Bool :=
  let b := { s.boot with
    failStep := BitVec.ofNat 4 step, failCode := BitVec.ofNat 8 code
    failCount := if s.boot.failCount = 0xFFFF then s.boot.failCount else s.boot.failCount + 1 }
  let s := { s with boot := b }.error catFirmware 0x04 blkBoot .normal (step + code * 256)
  let b := s.boot
  if warm then
    if b.warmFails.toNat + 1 < 3 then ({ s with boot := { b with warmFails := b.warmFails + 1 } }, some true)
    else ({ s with boot := { b with warmFails := 0 } }, some false)
  else if b.coldFails.toNat + 1 < 3 then ({ s with boot := { b with coldFails := b.coldFails + 1 } }, some false)
  else if b.coldOther then ({ s with boot := { b with coldFails := b.coldFails + 1 } }, none)
  else ({ s with boot := { b with coldFails := 0, coldOther := true } }, some false)

/-- The check of step 6 that the image of a slot fails. That the image with which the board was built is good, `run` says (assumption 13). -/
def State.imageCode (s : State) (y : Bool) : Option Nat :=
  if (s.boot.slot y).staged.isSome then s.verifyImage (s.imageOf y) else none

/-- What PERST_N low during a warm start has left to do at its end (R446); it may be high again. -/
def State.perstHeld (s : State) : State :=
  let low := s.host.perst
  let s := ({ s with boot := { s.boot with heldPerst := false } }).perstNow
  if low then s else (s.perstRise.setDoms [0] .on).linkTrains

/-- FATAL escalations that a warm start held back (R462). -/
def State.fatalHeld (s : State) : State :=
  s.boot.heldFatal.foldl (fun (s : State) x => s.escalateNow x.1 x.2) { s with boot := { s.boot with heldFatal := [] } }

/-- A start has come to its end. -/
def State.endStart (s : State) (r : StartRun) : State :=
  let y := if r.verify then s.startSlot r.warm else s.boot.running
  let s := if r.verify then s.loaded y else s
  let s := { s with boot := { s.boot with
    start := none, running := y, loaded := true, commitPending := false, window := true, endedAt := s.time.mono
    readyOnce := s.boot.readyOnce || !r.warm, rom := false } }
  let s := if r.warm then s.warmEnd r else s.coldEnd
  let s := s.fatalHeld
  let s := if s.boot.heldPerst then s.perstHeld else s
  if s.boot.heldFlr then ({ s with boot := { s.boot with heldFlr := false } }).flrNow else s

/-- A start begins (R433, R435): the state as it is at step 1, with the start's record. -/
def State.beginStart (s : State) (kind : StartKind) (warm : Bool) (run : StartEnv) : State :=
  let begun := s.pmu.mode
  let retained := warm && s.host.up && !s.host.perst
  let s := if warm then s.warmBegin run.relocked else s.coldBegin (kind == .porst)
  let verify := !warm || !(run.intact && s.boot.loaded && s.boot.running == s.startSlot warm)
  { s with boot := { s.boot with
    start := some ⟨kind, warm, 1, verify, retained, begun⟩, kind := kind, rom := false, healthy := false, window := false
    imageRetained := warm && !verify, linkRetained := retained
    starts := if s.boot.starts = 0xFFFF then s.boot.starts else s.boot.starts + 1 } }

/-- A start that has begun, or goes on, as far as `run` says: it stands in a step, fails at its image, or ends. A held warm start follows a
cold one (R446). The last result: what starts next. -/
def State.goOn (s : State) (r : StartRun) (run : StartEnv) : State × Option (StartKind × Bool) :=
  let failed (code : Nat) : State × Option (StartKind × Bool) :=
    match s.noteFail 6 code r.warm with
    | (s, none) => (s.romRecovery, none)
    | (s, some w) => (s, some (if w then r.kind else .forcedCold, w))
  match (if r.verify && r.step ≤ 6 then s.imageCode (s.startSlot r.warm) else none), run.step with
  | some code, none => failed code
  | some code, some k => if 6 < k.val then failed code
    else ({ s with boot := { s.boot with start := some { r with step := max r.step k.val } } }, none)
  | none, some k => ({ s with boot := { s.boot with start := some { r with step := max r.step (max 1 k.val) } } }, none)
  | none, none =>
    let s := s.endStart r
    match s.boot.heldWarm with
    | some k => ({ s with boot := { s.boot with heldWarm := none } }, some (k, true))
    | none => (s, none)

/-- Starts, at most `n` of them, each as `run` says. -/
def State.runStart : Nat → StartKind → Bool → StartEnv → State → State
  | 0, _, _, _, s => s
  | n + 1, kind, warm, run, s =>
    let s := s.beginStart kind warm run
    match s.boot.start with
    | none => s
    | some r =>
      match s.goOn r run with
      | (s, none) => s
      | (s, some (k, w)) => State.runStart n k w run s

/-- More starts than fail in a row before ROM recovery (R435). -/
def startFuel : Nat := 16

/-- A start fails at a step, and the next one begins, or ROM recovery (R435). -/
def State.failStart (s : State) (step code : Nat) (kind : StartKind) (warm : Bool) (run : StartEnv) : State :=
  match s.noteFail step code warm with
  | (s, none) => s.romRecovery
  | (s, some w) => s.runStart startFuel (if w then kind else .forcedCold) w run

/-- A warm-start trigger (R434, R446): held during a cold start; WRST_N starts a warm start again from step 1, other triggers find it under way. -/
def State.warmTrigger (s : State) (kind : StartKind) (run : StartEnv) : State :=
  match s.boot.start with
  | none => s.runStart startFuel kind true run
  | some r =>
    if !r.warm then
      if kind = .wrst && !s.boot.readyOnce && decide (r.step ≤ 7) then
        { s with boot := { s.boot with failCount := if s.boot.failCount = 0xFFFF then s.boot.failCount else s.boot.failCount + 1 } }
      else { s with boot := { s.boot with heldWarm := some kind } }
    else if kind = .wrst then s.runStart startFuel r.kind true run
    else s

/-- A watchdog or retention loss within the success window makes the last start a failed one (R434). -/
def State.faultStart (s : State) (kind : StartKind) (code : Nat) (run : StartEnv) : State :=
  if s.boot.start.isNone && s.boot.window then
    s.failStart 0 code kind (s.boot.kind != .porst && s.boot.kind != .forcedCold) run
  else s.warmTrigger kind run

/-! Rows. -/

/-- PORST_N is asserted and released (R429, R432). -/
def execPorst (run : StartEnv) (s : State) : Res := .next (s.runStart startFuel .porst false run)

/-- WRST_N (R434, R446). -/
def execWrst (run : StartEnv) (s : State) : Res := .next (s.warmTrigger .wrst run)

/-- A start step ends: it exceeded its time or failed, for the reason that `code` gives (R432, R435, R447); code 0: it passed, and the start
goes on as `run` says. -/
def execStartStepTimeout (code : BitVec 8) (run : StartEnv) (s : State) : Res :=
  .next <|
    match s.boot.start with
    | none => s
    | some r =>
      if code = 0 then
        match s.goOn r run with
        | (s, none) => s
        | (s, some (k, w)) => s.runStart startFuel k w run
      else s.failStart r.step code.toNat r.kind r.warm run

/-- The firmware watchdog expires after 100 ms without service (R434, R449). -/
def execWatchdog (run : StartEnv) (s : State) : Res :=
  .next (if s.fwReady then (s.error catFirmware 0x03 blkCore .normal 0).faultStart .watchdog 0x0B run else s)

/-- The success window passes (R434, R435, R440). -/
def execSuccessWindowEnd (s : State) : Res :=
  .next <|
    if s.boot.window && s.boot.start.isNone then
      let b := s.boot
      let x := b.slot b.running
      let level := max s.rollbackLevel (min 64 x.rollback.toNat)
      let b := { b with
        window := false, healthy := true, warmFails := 0, coldFails := 0, rollback := BitVec.ofNat 7 level
        key0Revoked := b.key0Revoked || (x.key == 1 && decide (1 ≤ x.rollback.toNat)) }
      { s with boot := if b.coldOther then
          { b with coldOther := false, primary := b.running, seq := b.seq + 1, fellBack := true } else b }
    else s

/-- Write of BOOT_CTRL (R447). -/
def State.bootCtrlWrite (s : State) (v : Reg32) (run : StartEnv) : State :=
  if Fld.BOOT_CTRL_KEY.get v = 0xA5 ∧ Fld.BOOT_CTRL_WARM.get v = 1 then s.warmTrigger .bootCtrl run else s

/-- See `State.bootCtrlWrite`. -/
def execBootCtrl (v : Reg32) (run : StartEnv) (s : State) : Res := .next (s.bootCtrlWrite v run)

/-! FW_STAGE and FW_COMMIT. -/

/-- The slot that firmware is staged into: the one that is not running, in ROM recovery A (R436, R441). -/
def State.stageSlot (s : State) : Bool := !s.boot.rom && !s.boot.running

/-- Bytes go into the slot: at OFFSET 0 afresh, else after those staged so far; until it is verified the slot is not valid (R310, R441). -/
def Slot.stage (x : Slot) (offset : Nat) (data : List Byte) : Slot :=
  let have_ : List Byte := if offset = 0 then [] else x.staged.getD []
  { x with staged := some (have_ ++ data), offset := offset + data.length, valid := false }

/-- LAST: the staged image is verified; its status (R441). -/
def State.verifyStaged (s : State) (y : Bool) : State × Nat :=
  let img := s.imageOf y
  match s.verifyImage img with
  | none => (s.modSlot y fun x => x.take img (headerVersion img), stOk)
  | some code => (s, if code = 9 then stRollback else stImageInvalid)

/-- FW_STAGE (R309, R310, R441). -/
def execFwStage (c : CmdRef) (data : List Byte) (e : ReadEnd) (s : State) : Res :=
  guarded (s.readFits c 0x0701 (fun t => some (t.arg 24 4)) e data) <|
    s.command c ⟨0x0701, [(8, 1, 1), (12, 4, 0xFFFFFFFF), (16, 8, 2 ^ 64 - 1), (24, 4, 0xFFFFFFFF)], modesURHV, true⟩
      (fun t =>
        let at_ := t.arg 12 4
        [(12, at_ != 0 && at_ != (s.boot.slot s.stageSlot).offset), (16, t.arg 16 8 % 8 != 0),
          (24, t.arg 24 4 == 0 || decide (65536 < t.arg 24 4) || decide (7340032 < at_ + t.arg 24 4))]) anyone fun t =>
      if s.boot.commitPending then s.done c stBusy []
      else
        let s := s.cmdRead c (t.arg 16 8) (t.arg 24 4) e
        if e != .ok then s.done c stBadParam [] 16
        else
          let y := s.stageSlot
          let s := s.modSlot y fun x => x.stage (t.arg 12 4) data
          let (s, st) := if t.arg 8 1 = 1 then s.verifyStaged y else (s, stOk)
          s.done c st (if st = stOk then leBytes 4 (s.boot.slot y).offset ++ [BitVec.ofNat 8 y.toNat] else [])

/-- A boot record that names a slot as primary (R438, R441). -/
def State.writeRecord (s : State) (y pending : Bool) : State :=
  { s with boot := { s.boot with seq := s.boot.seq + 1, primary := y, commitPending := pending } }

/-- FW_COMMIT (R309, R310, R436, R441, R444). -/
def execFwCommit (c : CmdRef) (run : StartEnv) (s : State) : Res :=
  .next <| s.command c ⟨0x0702, [(8, 1, 0xFF)], [.service], true⟩
    (fun t => [(8, decide ((if s.boot.rom then 0 else 1) < t.arg 8 1))]) (fun _ => !s.boot.debugUnlocked) fun t =>
    let y := s.stageSlot
    let x := s.boot.slot y
    if x.staged.isNone || !x.valid then s.done c stImageInvalid []
    else
      let v := x.version.toNat
      let rom := s.boot.rom
      let s := (s.writeRecord y (t.arg 8 1 == 1)).done c stOk
        [BitVec.ofNat 8 y.toNat, BitVec.ofNat 8 (v / 65536), BitVec.ofNat 8 (v / 256), BitVec.ofNat 8 v]
      if t.arg 8 1 = 1 then s
      else if rom then
        { s with boot := { s.boot with warmFails := 0, coldFails := 0, coldOther := false } }.runStart startFuel .fwCommit false run
      else s.warmTrigger .fwCommit run

end Sys2Proof.Machine
end

