-- ==== Sys2Proof/Machine/Power.lean ====
section
/-!
DEFINITION. The PMU: handshakes (R394, R395), gating (R401, R402), entry to Standby and Dormant (R393), wakes and wake sources (R398–R400, R489),
retention losses (R404–R406), the latched stop's pin (R269), and the commands MODE_SET and DOMAIN_POLICY (R307, R308, R391, R392).
-/

namespace Sys2Proof.Machine

/-! Waking. -/

/-- A domain that a wake finds asleep: RETAINED, or OFF for a reason that no longer holds (R390, R391, R399). -/
def State.asleep (s : State) (d : Fin 12) : Bool :=
  match s.pmu.doms[d] with
  | .retained => true
  | .off => (d == 0 && !s.host.perst) || (d == 11 && !s.gangOff)
  | _ => false

/-- Domains as a map of bits. -/
def domBits (l : List (Fin 12)) : BitVec 12 := BitVec.ofNat 12 ((List.finRange 12).map fun d => if l.contains d then 2 ^ d.val else 0).sum

/-- Domains begin to wake (R400). While SRAM_RET is high it falls first, and they wait for its 5 µs (R489). -/
def State.wakeDoms (s : State) (l : List (Fin 12)) : State :=
  let l := l.filter s.asleep
  if l.isEmpty then s
  else if s.pmu.sramRet || s.pmu.sramFell then
    let s := if s.pmu.sramRet then s.emit (.sramRet false) else s
    { s with pmu := { s.pmu with sramRet := false, sramFell := true, wakeAfter := s.pmu.wakeAfter ||| domBits l } }
  else s.setDoms l .waking

/-- 5 µs after SRAM_RET fell the domains that waited wake (R489). -/
def execSramRetRelease (s : State) : Res :=
  .next <|
    if s.pmu.sramFell then
      let l := (List.finRange 12).filter fun d => s.pmu.wakeAfter.getLsbD d.val
      ({ s with pmu := { s.pmu with sramFell := false, wakeAfter := 0 } }).wakeDoms l
    else s

/-- SRAM_RET rises in Dormant once no domain is awake (R489). -/
def State.sramCheck (s : State) : State :=
  let low := (List.finRange 12).all fun d => s.pmu.doms[d] == .retained || s.pmu.doms[d] == .off
  if s.pmu.mode = .dormant && low && !s.pmu.sramRet && !s.pmu.sramFell then
    ({ s with pmu := { s.pmu with sramRet := true } }).emit (.sramRet true)
  else s

/-! Abandoned entries (R394, R395). -/

def denyInFlight : Nat := 1
def denyWork : Nat := 2
def denyPolicy : Nat := 3
def denyWake : Nat := 4
def denyAccess : Nat := 5
def denyLimit : Nat := 7
def denySilent : Nat := 8

/-- An entry is abandoned: PMU_DENY records why (R394, R409), and a silent block is an error (R449). -/
def State.abandon (s : State) (d : Fin 12) (block reason : Nat) : State :=
  let s := ((s.setFld .PMU_DENY_DOMAIN d.val).setFld .PMU_DENY_BLOCK block).setFld .PMU_DENY_REASON reason
  let s := (s.addSat .PMU_DENY_COUNT 1).happen .PMU_EVENT_DENIED srcPmu
  let s := if reason = denySilent then s.error catPower 0x02 blkPmu .normal (d.val + block * 256) else s
  match s.pmu.handshake with
  | some h => if h.dom = d then { s with pmu := { s.pmu with handshake := none } } else s
  | none => s

/-- The first block that denies, with its reason. -/
def firstDeny : Nat → List SleepAnswer → Option (Nat × Nat)
  | _, [] => none
  | n, .deny r :: _ => some (n, r.toNat)
  | n, _ :: as => firstDeny (n + 1) as

/-- The first block that defers. -/
def firstDefer : Nat → List SleepAnswer → Option Nat
  | _, [] => none
  | n, .defer _ :: _ => some n
  | n, _ :: as => firstDefer (n + 1) as

/-- The longest retry time asked for. -/
def longestRetry : List SleepAnswer → BitVec 8
  | [] => 0
  | .defer r :: as => if (longestRetry as).toNat < r.toNat then r else longestRetry as
  | _ :: as => longestRetry as

/-- What the machine itself knows against a domain's sleep, as block and reason: a delivery in flight to a core (R354, R360), work in hand, a
firmware task READY, a plan being built (R401). -/
def State.busyBlock (s : State) (d : Fin 12) : Option (Nat × Nat) :=
  if d = 2 then
    match (List.finRange 4).find? fun c => s.gutter.cores[c].inFlight with
    | some c => some (c.val, denyInFlight)
    | none =>
      match (List.finRange 4).find? fun c => s.gutter.cores[c].task.isSome with
      | some c => some (c.val, denyWork)
      | none => if s.fwTasks.any fun e => e.2.state == .ready then some (0, denyWork) else none
  else if d = 3 then if s.plan.pending && !s.plan.ready then some (0, denyWork) else none
  else if d = 5 || d = 6 then
    ((List.finRange 16).find? fun e => engineDomain e == d &&
      (s.engines[e].sched.isSome || s.engines[e].unsched.isSome || s.expects.any (·.engine == e))).map fun e => (e.val % 8, denyWork)
  else none

/-- DEFER_MAX, at least 1. -/
def State.deferMax (s : State) : Nat := max 1 (s.fld .PMU_CFG_DEFER_MAX)

/-! Commit (R396, R397, R401). -/

/-- Levels of PACEn_A and PACEn_B, bits 2n and 2n + 1. -/
def State.paceLevels (s : State) : BitVec 16 :=
  BitVec.ofNat 16 ((List.finRange 8).map fun n => ((s.encs[n].a).toNat + (s.encs[n].b).toNat * 2) * 4 ^ n.val).sum

/-- A bank sleeps: OFF if it holds no words, else RETAINED (R401). -/
def Pmu.bankSleeps (p : Pmu) (b : Nat) : Pmu :=
  { p with banks := vmod p.banks b fun k => if k == .on then (if (p.bankUse[b]?).getD 0 = 0 then .off else .retained) else k }

/-- The PMU commits a domain's entry: RETAINED, with what is recorded or given up at that moment. -/
def State.commitDom (s : State) (d : Fin 12) : State :=
  let s := s.setDoms [d] .retained
  let s := if d = 2 then
      { s with gutter := { s.gutter with cores := s.gutter.cores.map fun (c : CoreState) => { c with sleep := true } } }
    else s
  let s := if d = 7 then { s with pmu := (List.range 64).foldl Pmu.bankSleeps s.pmu } else s
  if d = 10 then
    let s := s.edgesLate.foldl State.edgeFor { s with edgesLate := [] }
    { s with pmu := { s.pmu with paceLevels := s.paceLevels, window := 4 }, time := { s.time with snap := some (s.time.bus, s.time.ao) } }
  else s

/-- Bus time is rebuilt as PD_TIME wakes from retention, before the first course (R142). -/
def State.wakeTime (s : State) : State :=
  match s.time.snap with
  | some (bus, ao) => ({ s with time := { s.time with snap := none } }.rebuild bus (s.time.ao - ao).toNat).expireDue
  | none => s

/-! What courses need (R402). -/

/-- The plan has an entry, or a retry reserved, in course `c`. Which engines it will take the dispatcher decides (R235): both domains are needed. -/
def State.usesEngines (s : State) (c : Nat) : Bool := (s.plannedIn c).any fun f => f.par.activeAt (c % 64)

/-- A bank holds words bound to a course up to `c`. -/
def State.bankBound (s : State) (b : Fin 64) (c : Nat) : Bool :=
  s.course.running && s.flows.any fun e => e.2.xfers.any fun x =>
    x.bank == some b && x.fin.isNone && (match x.course with | some k => decide (k ≤ c) | none => false)

/-! Handshakes of single domains (R394, R401). -/

/-- The domains that may sleep by themselves in a mode: those that gate while courses run (R401), those that Standby and Dormant put to sleep
(R390, R393). -/
def Mode.sleepers (m : Mode) : List (Fin 12) :=
  match m with
  | .dormant => [0, 1, 2, 3, 4, 5, 6, 7, 8, 9, 10, 11]
  | .standby => [0, 1, 2, 3, 4, 5, 6, 7]
  | _ => [2, 3, 5, 6]

/-- One round of a handshake. -/
def State.sleepRound (s : State) (d : Fin 12) (rounds : Nat) (answers : List SleepAnswer) : State :=
  match (s.busyBlock d).or (firstDeny 0 answers) with
  | some (b, r) => s.abandon d b r
  | none =>
    match firstDefer 0 answers with
    | some b =>
      if rounds + 1 ≥ s.deferMax then s.abandon d b denyLimit
      else { s with pmu := { s.pmu with handshake := some ⟨d, rounds + 1, longestRetry answers⟩ } }
    | none => (({ s with pmu := { s.pmu with handshake := none } }).commitDom d).sramCheck

/-- The next need of a gated domain, known from the plan, is nearer than twice its wake time and 400 ns (R401): of PD_PLAN and the engine domains
the next commit point, of PD_CORE the next plan-cycle boundary. -/
def State.needNear (s : State) (d : Fin 12) : Bool :=
  let next := s.course.count.toNat + 1
  s.course.running &&
    match d.val with
    | 2 => !s.ahead ((s.course.count.toNat / 64 + 1) * 64) 4400
    | 3 => !s.ahead next 1000
    | 5 | 6 => s.usesEngines (next + 2) && !s.ahead next 800
    | _ => false

/-- The PMU asks a domain to sleep and acts on the answers (R394); policy 1 keeps it ON but in Dormant (R391, R395). -/
def execSleepRequest (dom : Fin 12) (answers : List SleepAnswer) (s : State) : Res :=
  .next <|
    let mine : Option Nat := match s.pmu.handshake with
      | none => some 0
      | some h => if h.dom = dom && h.retry = 0 then some h.rounds else none
    match mine with
    | none => s
    | some rounds =>
      if s.pmu.doms[dom] != .on || s.pmu.entry.isSome || s.pmu.changing || s.boot.start.isSome ||
          !s.pmu.mode.sleepers.contains dom || s.needNear dom then s
      else if s.domPolicy dom = 1 && s.pmu.mode != .dormant then s.abandon dom 0 denyPolicy
      else s.sleepRound dom rounds answers

/-- The retry time of a deferred handshake passes: the PMU may ask again (R394). -/
def execDeferRetry (dom : Fin 12) (s : State) : Res :=
  .next <|
    match s.pmu.handshake with
    | some h => if h.dom = dom then { s with pmu := { s.pmu with handshake := some { h with retry := 0 } } } else s
    | none => s

/-- A block stays silent for 32 CCLK (R394); which one, the row does not say. -/
def execHandshakeNoAnswer (dom : Fin 12) (s : State) : Res :=
  .next <|
    let asked := match s.pmu.handshake with | some h => h.dom == dom | none => true
    if asked && s.pmu.doms[dom] == .on && s.pmu.entry.isNone && s.pmu.mode.sleepers.contains dom then
      let (w, s) := s.freeWord
      s.abandon dom (w.toNat % 256) denySilent
    else s

/-- A stage bank has had no access for BANK_IDLE CCLK (R401). One that holds words of the present course, or of one less than twice the wake time
and 400 ns away, stays ON (R401, R402). -/
def execBankIdleGate (b : Fin 64) (s : State) : Res :=
  let now := s.course.count.toNat
  .next <|
    if s.domPolicy 7 = 0 && s.pmu.doms[7] == .on && !s.bankBound b (if s.ahead (now + 1) 1000 then now else now + 1) then
      { s with pmu := s.pmu.bankSleeps b.val }
    else s

/-! Entry to Standby and Dormant (R392, R393). -/

/-- A port of an entry: a root port, or 16 for GA. -/
def entryPort (k : Nat) : PortRef := if k < 16 then .root (Fin.ofNat 16 k) else .ga

/-- The ports of an entry run again: a request to suspend is taken back, a suspended port resumes (R393). -/
def State.wakePorts (s : State) (l : List Nat) : State :=
  l.foldl (fun (s : State) k =>
    let p := entryPort k
    if s.enabled p then s.modPort p fun x => { x with suspendReq := false } else s.requestResume p false) s

/-- An entry fails: what has entered wakes, the ports resume, MODE_SET completes BUSY (R393, R407). -/
def State.failEntry (s : State) (e : Entry) (done : List (Fin 12)) (d : Fin 12) (block reason : Nat) : State :=
  let s := s.abandon d block reason
  let s := { s with pmu := { s.pmu with entry := none, changing := false, target := s.pmu.mode } }
  let s := (s.wakeDoms done).wakePorts e.ports
  match e.cmd with
  | some (i, idx) => s.complete i idx stBusy []
  | none => s

/-- Level of an enabled wake source at the moment (R398); presence changes, L1 exit and the release of PERST_N are no levels here. -/
def State.wakeLevel (s : State) (n : Nat) : Bool :=
  let down (p : PortRef) : Bool := match s.port p with | some x => x.state == .suspended && x.activity | none => false
  match n with
  | 0 => (List.finRange 16).any fun t => down (.root t) && s.flag .TRK_PCFG_WAKE_EN t.val
  | 1 => down .ga
  | 3 => s.pmu.wakeLow.getLsbD 0
  | 4 => s.pmu.wakeLow.getLsbD 1
  | 5 => s.stop.pinLow
  | 6 => s.flag .PMU_TIMER_HI_ARM && decide (s.fld .PMU_TIMER_LO_CMP + s.fld .PMU_TIMER_HI_CMP * 2 ^ 32 ≤ s.time.ao.toNat)
  | 9 => (List.range 2048).any fun n => s.gutter.wake.getLsbD n && s.gutter.eligible n
  | _ => false

/-- Some enabled wake source is active. -/
def State.wakePending (s : State) : Bool := (List.range 10).any fun n => (s.fld .PMU_WAKE_EN_EN).testBit n && s.wakeLevel n

/-- How the rounds of one domain's handshake end: none where it enters, else the block and the reason (R394). No answer at all is silence. -/
def sleepOutcome (limit : Nat) : Nat → List (List SleepAnswer) → Option (Nat × Nat)
  | _, [] => some (0, denySilent)
  | n, a :: as =>
    match firstDeny 0 a, firstDefer 0 a with
    | some x, _ => some x
    | none, none => none
    | none, some b => if n + 1 ≥ limit then some (b, denyLimit) else sleepOutcome limit (n + 1) as

/-- The outcome of a domain among the answers of an entry. -/
def State.entryOutcome (s : State) (answers : List (Fin 12 × List SleepAnswer)) (d : Fin 12) : Option (Nat × Nat) :=
  (s.busyBlock d).or (sleepOutcome s.deferMax 0 ((answers.filter fun a => a.1 == d).map (·.2)))

/-- Step 2 of R393 over the domains that are left: those that entered, and the one that did not. -/
def State.entryStep (answers : List (Fin 12 × List SleepAnswer)) (a : State × List (Fin 12) × Option (Fin 12 × Nat × Nat)) (d : Fin 12) :
    State × List (Fin 12) × Option (Fin 12 × Nat × Nat) :=
  match a with
  | (s, done, some x) => (s, done, some x)
  | (s, done, none) =>
    match s.entryOutcome answers d with
    | some (b, r) => (s, done, some (d, b, r))
    | none => (s.commitDom d, done ++ [d], none)

/-- Step 4 of R393 for one domain: one that does not enter stays ON, and so does one that policy 1 keeps ON in Standby (R391). -/
def State.lastStep (answers : List (Fin 12 × List SleepAnswer)) (s : State) (d : Fin 12) : State :=
  if s.pmu.doms[d] != .on || (s.pmu.mode != .dormant && s.domPolicy d == 1) then s
  else
    match s.entryOutcome answers d with
    | some (b, r) => s.abandon d b r
    | none => s.commitDom d

/-- Courses stop: what waited for a course start takes effect (R7, R475). -/
def State.stopCourses (s : State) : State :=
  let src := s.timeSource
  let s := { s with course := { s.course with running := false }, regsOld := [] }
  let s := if s.timeSource = src then s else s.sourceEffect s.timeSource
  ((List.finRange 8).foldl State.applyPace s).applyPolicies

/-- The latch of the stop ends; a pin that is still low triggers again (R275). -/
def State.unlatch (s : State) (again : Bool) : State :=
  if s.stop.latched then
    let s := { s with stop := { s.stop with latched := false, repeats := Vector.replicate 18 0 } }
    if again && s.stop.pinLow && s.flag .ENG_STOP_CFG_PIN_EN then s.stopTrigger 1 else s
  else s

/-- Step 3 and 4 of R393: the completion, the mode, and the last domains. -/
def State.endEntry (s : State) (e : Entry) (answers : List (Fin 12 × List SleepAnswer)) : State :=
  let old := s.pmu.mode
  let s := match e.cmd with
    | some (i, idx) => s.complete i idx stOk ([BitVec.ofNat 8 old.code, 0, 0, 0] ++ leBytes 4 0)
    | none => s
  let s := { s with pmu := { s.pmu with entry := none, slept := s.pmu.slept ++ e.ports } }
  let s := s.setMode e.mode
  let s := if old.courses then s.stopCourses.unlatch true else s
  ([2, 1, 0].foldl (State.lastStep answers) s).sramCheck

/-- The domains of step 2 of R393. Those that a policy keeps ON stay out of an entry to Standby (R391). -/
def State.entryDoms (s : State) (m : Mode) : List (Fin 12) :=
  ((if m = .dormant then [6, 5, 3, 7, 4, 8, 9, 11, 10] else [6, 5, 3, 7, 4] : List (Fin 12))).filter fun d =>
    m == .dormant || s.domPolicy d != 1

/-- The ports of an entry are SUSPENDED: the PMU runs the handshakes, `answers` giving each domain's rounds; `busy`: a wake source became active
in them (R393, R407). -/
def execStandbyEntry (answers : List (Fin 12 × List SleepAnswer)) (busy : Bool) (s : State) : Res :=
  .next <|
    match s.pmu.entry with
    | none => s
    | some e =>
      let todo := s.entryDoms e.mode
      if (e.ports.any fun k => s.enabled (entryPort k)) || todo.any fun d => s.pmu.doms[d] == .waking then s
      else if busy || s.wakePending then s.failEntry e [] (todo.headD 6) 0 denyWake
      else
        match (todo.filter fun d => s.pmu.doms[d] == .on).foldl (State.entryStep answers) (s, [], none) with
        | (s, done, some (d, b, r)) => s.failEntry e done d b r
        | (s, _, none) => s.endEntry e answers

/-! Leaving Standby and Dormant (R392). -/

/-- The domains that a mode needs. -/
def State.modeDoms (s : State) (m : Mode) : List (Fin 12) :=
  let l : List (Fin 12) := if m = .standby then [8, 9, 10, 11] else List.finRange 12
  l.filter fun d => !(d == 11 && s.gangOff) && !(d == 0 && s.host.perst)

/-- MODE_SETs that wait for a mode complete (R307). -/
def State.modeCmds (s : State) : State :=
  let n := if s.pmu.mode.courses then s.course.count.toNat else 0
  (s.waitingCmds fun t => t.opcode == 0x0601).foldl (fun (s : State) e => s.complete e.1 e.2.idx stOk (e.2.result ++ leBytes 4 n)) s

/-- The mode being entered from Standby or Dormant is reached when its domains are ON. -/
def State.leaveCheck (s : State) : State :=
  let p := s.pmu
  if p.changing && p.entry.isNone && !p.mode.courses && (s.modeDoms p.target).all fun d => s.pmu.doms[d] == .on then
    let s := s.setMode p.target
    (if s.pmu.mode.courses then s.resumeSlept else s).modeCmds
  else s

/-- The controller leaves Standby or Dormant for a mode. -/
def State.goTo (s : State) (m : Mode) : State :=
  (({ s with pmu := { s.pmu with target := m, changing := true } }).wakeDoms (s.modeDoms m)).leaveCheck

/-! Wake sources (R398, R399, R407). -/

/-- An enabled wake source becomes active: it ends a handshake and an entry under way, and in Standby and Dormant it wakes. -/
def State.wakeSource (s : State) (n : Nat) (extra : List (Fin 12)) : State :=
  if !(s.fld .PMU_WAKE_EN_EN).testBit n then s
  else
    let s := s.setFld .PMU_WAKE_STAT_CAUSE (s.fld .PMU_WAKE_STAT_CAUSE ||| 2 ^ n)
    let s := if s.host.perst then s.askWake else s
    let s := match s.pmu.handshake with | some h => s.abandon h.dom 0 denyWake | none => s
    let s := match s.pmu.entry with | some e => s.failEntry e [] ((s.entryDoms e.mode).headD 6) 0 denyWake | none => s
    if s.pmu.mode.courses then s
    else
      let s := (s.wakeDoms ([4, 2, 1] ++ extra)).happen .PMU_EVENT_WOKEN srcPmu
      let s := if s.flag .GANG_CFG_RWAKE_EN then s.gbWakes else s
      if (s.fld .PMU_WAKE_SETUP_SETUP).testBit n then s.goTo .setup else s

/-- The trunk domain of a root port. -/
def trunkDomain (t : Fin 16) : Fin 12 := if t.val < 8 then 8 else 9

/-- Trunk domains of the root ports in a state. -/
def State.trunkDoms (s : State) (x : PortState) : List (Fin 12) :=
  ((List.finRange 16).filter fun t => s.ports[t].state == x).map trunkDomain

/-- Wake source `n` of R398 becomes active; the sources that are levels must stand so. A gutter source with WAKE = 1 wakes PD_DISP in every
mode (R358). -/
def execWakeSourceActive (n : Fin 32) (s : State) : Res :=
  .next <|
    match n.val with
    | 0 => if s.wakeLevel 0 then s.wakeSource 0 (s.trunkDoms .suspended) else s
    | 1 => if s.wakeLevel 1 || s.gb.link.phase == .suspended then s.wakeSource 1 [11] else s
    | 2 => if (s.trunkDoms .powered).isEmpty then s else s.wakeSource 2 (s.trunkDoms .powered)
    | 7 => s.wakeSource 7 [0]
    | 8 => if s.host.perst then s else s.wakeSource 8 [0]
    | 9 => if s.wakeLevel 9 then (s.wakeDoms [4]).wakeSource 9 [] else s
    | k => if s.wakeLevel k then s.wakeSource k [] else s

/-- WAKEIN0_N or WAKEIN1_N changes (R398). -/
def execWakein (n : Fin 2) (low : Bool) (s : State) : Res :=
  .next <|
    let m : BitVec 2 := BitVec.ofNat 2 (2 ^ n.val)
    let s := { s with pmu := { s.pmu with wakeLow := if low then s.pmu.wakeLow ||| m else s.pmu.wakeLow &&& ~~~m } }
    if low then s.wakeSource (3 + n.val) [] else s

/-- The AO counter reaches the armed compare value (R398). -/
def execAoTimer (s : State) : Res := .next (if s.wakeLevel 6 then s.wakeSource 6 [] else s)

/-- CLKREQ_N asks for L1 exit (R398). -/
def execL1ExitRequest (s : State) : Res := .next (s.wakeSource 7 [0])

/-- PERST_N rises (R399, R431): PD_HOST wakes; the link trains once it is ON. In a start it wakes with the start. -/
def execPerstDeassert (s : State) : Res :=
  .next <|
    if !s.host.perst then s
    else
      let s := s.perstRise
      if s.boot.start.isSome then s else (s.wakeDoms [0]).wakeSource 8 [0]

/-- The raw presence comparator of a port changes (R28, R93): of a POWERED root port a wake source (R398). -/
def execPresenceChange (p : PortRef) (level : Bool) (m : BoardMove) (s : State) : Res :=
  .next <|
    let was := (s.port p).map fun x => (x.state, x.present)
    let s := s.presenceChange p level m
    match p with
    | .root t => if was == some (.powered, !level) then s.wakeSource 2 [trunkDomain t] else s
    | _ => s

/-- The activity detector of a port changes (R29, R46): at a suspended port a wake source (R398). -/
def execActivityDetect (p : PortRef) (level : Bool) (s : State) : Res :=
  .next <|
    let s := s.modPort p fun x => { x with activity := level }
    match p with
    | .root t =>
      if level && s.ports[t].state == .suspended && s.flag .TRK_PCFG_WAKE_EN t.val then s.wakeSource 0 [trunkDomain t] else s
    | .ga => if level && s.ga.state == .suspended then s.wakeSource 1 [11] else s
    | .hub _ _ => s

/-- STOP_IN_N is held low for `ns` (R269): from 4 ns on a trigger, below 2 ns ignored, in between either. -/
def execStopInLow (ns : Nat) (s : State) : Res :=
  .next <|
    let (b, s) := if 2 ≤ ns && ns < 4 then s.freeBool else (decide (4 ≤ ns), s)
    if b then
      let s := { s with stop := { s.stop with pinLow := true } }
      let s := if s.flag .ENG_STOP_CFG_PIN_EN then s.stopTrigger 1 else s
      s.wakeSource 5 []
    else s

/-- STOP_IN_N returns high: nothing changes until MODE_SET (R276). -/
def execStopInRelease (s : State) : Res := .next { s with stop := { s.stop with pinLow := false } }

/-! Accesses and pre-wakes (R400, R402). -/

/-- An access to a domain that sleeps: it wakes, and the access stalls (R400). -/
def execDomainWakeRequest (dom : Fin 12) (s : State) : Res :=
  .next <|
    if s.asleep dom || s.pmu.doms[dom] == .waking then
      let s := ({ s with pmu := { s.pmu with stalled := vmod s.pmu.stalled dom.val (· + 1) } }).addSat .PMU_STALL_CNT_COUNT 1
      s.wakeDoms [dom]
    else s

/-- The course sequencer wakes ahead of the next course start, the commit point of course `c` (R402): PD_PLAN, the engine domains that `c` needs,
the banks with words bound to `c` or to an earlier course, and PD_CORE before a plan-cycle boundary. A handshake of such a domain is abandoned
(R407). -/
def execPrewake (s : State) : Res :=
  .next <|
    if s.course.running && s.pmu.mode.courses then
      let c := s.course.count.toNat + 3
      let l : List (Fin 12) := [3] ++ (if s.usesEngines c then [5, 6] else []) ++ (if (s.course.count.toNat + 1) % 64 = 0 then [2] else [])
      let s := match s.pmu.handshake with
        | some h => if l.contains h.dom then s.abandon h.dom 0 denyAccess else s
        | none => s
      let s := s.wakeDoms l
      { s with pmu := { s.pmu with banks := Vector.ofFn fun b =>
          if s.pmu.banks[b] == .retained && s.bankBound b c then .on else s.pmu.banks[b] } }
    else s

/-! Retention losses (R404–R406). -/

/-- A transfer whose staged words a lost bank held (R178, R192, R214, R405). -/
def State.loseXfer (s : State) (b : Fin 64) (ctx : Nat) (f : Flow) (x : Transfer) : State :=
  if x.bank != some b || x.fin.isSome then s
  else if f.par.ty.scheduled then
    let again (s : State) (lost : Bool) : State := s.modXfer ctx x.idx fun y =>
      { y with accepted := false, reading := false, staged := [], stagedAll := false, words := 0, bank := none, lostWords := lost }
    match x.course with
    | none => again s false
    | some c =>
      if x.sentAt.isSome then s.modXfer ctx x.idx fun y => { y with bank := none, words := 0, lostWords := true }
      else if s.ahead c 2000 then again s x.accepted
      else (s.holdSlot ctx f c x.slot (s.parFor f c).holdReason).finish ctx x.idx .stageLost 0
  else
    -- What has been sent is not recalled; every word that is not acknowledged is read again.
    let s := { s with txq := vmod s.txq f.pos.trunk.val fun q => q.filter fun e => !(e.ctx == ctx && e.idx == x.idx && !e.sched) }
    s.modXfer ctx x.idx fun y => { y with staged := [], stagedAll := false, reading := false, words := 0, bank := none }

/-- A stage bank is lost (R404, R405). -/
def State.loseBank (s : State) (b : Fin 64) : State :=
  let s := { s with pmu := { s.pmu with banks := s.pmu.banks.set b.val .lost, bankUse := s.pmu.bankUse.set b.val 0 } }
  let bit (f : Fld) (k : Nat) : State := s.setFld f (s.fld f ||| 2 ^ k)
  let s := if b.val < 32 then bit .PMU_BANK_LOST_LO_LOST b.val else bit .PMU_BANK_LOST_HI_LOST (b.val - 32)
  let s := (s.addSat .PMU_LOST_CNT_BANKS 1).happen .PMU_EVENT_BANK_LOST srcPmu
  let s := s.error catMemory 0x02 blkPmu .normal b.val
  s.flows.foldl (fun (s : State) e => e.2.xfers.foldl (fun (s : State) x => s.loseXfer b e.1 e.2 x) s) s

/-- The scrub has scanned a bank (R214, R404): the words corrected count, and a mismatch makes the bank LOST. -/
def execScrubPass (b : Fin 64) (bad : Bool) (s : State) (corrected : Nat := 0) : Res :=
  .next <|
    if s.pmu.banks[b] == .on && s.pmu.doms[7] == .on then
      let s := s.addSat .ERR_CE_CNT_COUNT corrected
      if bad then s.loseBank b else s
    else s

/-- A lost bank whose transfers are resolved is cleared and returns to service (R405). -/
def execBankRestore (b : Fin 64) (s : State) : Res :=
  .next <|
    let held := s.flows.any fun e => e.2.xfers.any fun x => x.bank == some b && x.fin.isNone
    if s.pmu.banks[b] == .lost && !held then { s with pmu := { s.pmu with banks := s.pmu.banks.set b.val .on, bankUse := s.pmu.bankUse.set b.val 0 } }
    else s

/-- A lost array is recorded (R406, R449). -/
def State.noteArray (s : State) (d : Fin 12) : State :=
  let s := s.setFld .PMU_ARRAY_LOST_LOST (s.fld .PMU_ARRAY_LOST_LOST ||| 2 ^ d.val)
  let s := (s.addSat .PMU_LOST_CNT_ARRAYS 1).happen .PMU_EVENT_ARRAY_LOST srcPmu
  s.error catMemory 0x03 blkPmu (if d = 3 ∨ d = 4 ∨ d = 10 then .escalates else .normal) d.val

/-- PD_CORE's firmware is reloaded in place (R406): taken commands are aborted, the cores begin afresh. -/
def State.reloadCore (s : State) : State :=
  let s := s.abortTaken
  { s with
    gutter := { s.gutter with cores := s.gutter.cores.map fun (c : CoreState) => { c with task := none, sleep := false } }
    fwTasks := s.fwTasks.map fun (e : Nat × Task) => (e.1, if e.2.state == .inHand then { e.2 with state := .waiting } else e.2) }

/-- PD_MBX is restarted (R406): every mailbox is disabled with ABORTED, the duplicate caches are cleared. -/
def State.reloadMbx (s : State) : State :=
  s.insts.foldl (fun (s : State) e =>
    let s := (s.setFld .INST_MB_CFG_ENABLE 0 0 e.1).setBit .INST_MB_STATUS_ABORTED 0 e.1
    s.modInst e.1 fun x => { x with mb := { x.mb with taken := [], cache := [] } }) s.abortTaken

/-- A port of a lost array fails (R95, R406), a suspended one as well. -/
def State.arrayPort (s : State) (p : PortRef) : State :=
  match s.port p with
  | some x => if x.state == .suspended then s.requestReset p true else s.linkFailure p
  | none => s

/-- What a lost array of one domain brings about (R406). -/
def State.loseArray (s : State) (run : StartEnv) (d : Fin 12) : State :=
  let window := s.boot.start.isNone && s.boot.window
  match d.val with
  | 0 =>
    let s := s.flrActions.functionReset
    { s with host := { s.host with up := false, width := 0, speed := 0 } }
  | 1 => if window then s.faultStart .retention 0x0C run else s.reloadMbx
  | 2 => if window then s.faultStart .retention 0x0C run else s.reloadCore
  | 8 => ((List.finRange 16).filter fun t => t.val < 8).foldl (fun (s : State) t => s.arrayPort (.root t)) s
  | 9 => ((List.finRange 16).filter fun t => 8 ≤ t.val).foldl (fun (s : State) t => s.arrayPort (.root t)) s
  | 10 => s.setQuality .unset
  | 11 => (s.arrayPort .ga).dropRidgeLock
  | _ => s

/-- The levels of the encoder inputs are compared after the sleep of PD_TIME (R397). -/
def State.checkPaceLevels (s : State) : State :=
  let was := s.pmu.paceLevels
  let now := s.paceLevels
  (List.finRange 8).foldl (fun (s : State) n =>
    let moved := was.extractLsb' (2 * n.val) 2 != now.extractLsb' (2 * n.val) 2
    if moved && !(s.readers 0 n.val).isEmpty then (s.quadError n).happen .PMU_EVENT_PACE_LEVEL srcPmu else s) s

/-- The banks that PD_STAGE had retained are read again, or lost. -/
def State.wakeBanks (s : State) (bad : BitVec 64) : State :=
  (List.finRange 64).foldl (fun (s : State) b =>
    if s.pmu.banks[b] == .retained then
      let s := s.openBank b
      if bad.getLsbD b.val then s.loseBank b else s
    else s) s

/-- The arrays that a wake finds lost: that of the domain, and PD_CORE and PD_MBX in the same wake. -/
def lostArrays (dom : Fin 12) (bad : BitVec 64) : List (Fin 12) :=
  (List.finRange 12).filter fun d => bad.getLsbD d.val && d != 7 && (d == dom || ((dom == 1 || dom == 2) && (d == 1 || d == 2)))

/-- A domain is ON again (R400, R404): its canaries have been checked, stalled accesses go on, and a mode that waits for it may be reached.
`bad`: of PD_STAGE the banks that are lost, else the domains whose arrays are. -/
def execDomainWakeComplete (dom : Fin 12) (bad : BitVec 64) (run : StartEnv) (s : State) : Res :=
  .next <|
    if s.pmu.doms[dom] != .waking || (s.boot.start.isSome && warmDomains.contains dom) then s
    else
      let s := s.setDoms [dom] .on
      let s := { s with pmu := { s.pmu with stalled := vmod s.pmu.stalled dom.val fun _ => 0 } }
      let s := if dom = 2 then
          { s with gutter := { s.gutter with cores := s.gutter.cores.map fun (c : CoreState) => { c with sleep := false } } }
        else s
      let s := if dom = 7 then s.wakeBanks bad else s
      let s := if dom = 10 then s.checkPaceLevels.wakeTime else s
      let lost := if dom = 7 then [] else lostArrays dom bad
      let s := lost.foldl State.noteArray s
      let s := if lost.contains 1 && lost.contains 2 then s.faultStart .retention 0x0C run else lost.foldl (fun (s : State) d => s.loseArray run d) s
      let s := if dom = 0 && !s.host.up then s.linkTrains else s
      s.leaveCheck

/-! MODE_SET, DOMAIN_POLICY. -/

/-- A mode change that takes place at once completes with the previous mode and the course count (R307). -/
def State.modeDone (s : State) (c : CmdRef) (old : Mode) : State :=
  s.done c stOk ([BitVec.ofNat 8 old.code, 0, 0, 0] ++ leBytes 4 (if s.pmu.mode.courses then s.course.count.toNat else 0))

/-- The gang keeps a member from Run (R381). -/
def Gang.barsRun (g : Gang) : Bool := g.role == .member && (g.phase == .setup || g.phase == .mismatch || g.phase == .leaseLost)

/-- Run is barred: by the conditions of a latched stop (R275), by the gang. -/
def State.runBarred (s : State) : Bool := (s.stop.latched && s.stopActive) || s.gang.barsRun

/-- Another command of any instance is taken and not completed (R308). -/
def State.othersTaken (s : State) (c : CmdRef) : Bool :=
  s.insts.any fun e => e.2.mb.taken.any fun t => !(e.1 == c.inst.val && t.idx == c.idx)

/-- The entry to Standby or Dormant begins (R393): the ports are asked to suspend. -/
def State.beginEntry (s : State) (c : CmdRef) (m : Mode) : State :=
  if s.othersTaken c then s.done c stBusy []
  else
    let ports := ((List.range 16).filter fun k => s.enabled (entryPort k)) ++ (if s.enabled .ga then [16] else [])
    let s := ports.foldl (fun (s : State) k => s.modPort (entryPort k) fun x => { x with suspendReq := true }) s
    ({ s with pmu := { s.pmu with
        handshake := none, target := m, changing := true, entry := some ⟨m, ports, some (c.inst.val, c.idx)⟩ } }).wait c []

/-- Modes by their codes. -/
def modeOf (n : Nat) : Mode :=
  match n with
  | 0 => .dormant | 1 => .standby | 2 => .setup | 3 => .run | 4 => .hold | _ => .service

/-- The transitions of R392 that MODE_SET asks for. -/
def State.modeSet (s : State) (c : CmdRef) (m : Mode) (stop : Bool) : State :=
  let old := s.pmu.mode
  let wrong := s.done c stWrongMode []
  let leave (s : State) : State := ({ s with pmu := { s.pmu with handshake := none } })
  if s.boot.debugUnlocked && m != .service then wrong
  else if s.pmu.changing then s.done c stBusy []
  else
    match old, m with
    | .setup, .run => if s.runBarred then wrong else (((leave s).unlatch false).setMode .run).modeDone c old
    | .setup, .service => (((leave s).setMode .service).unlatch true).modeDone c old
    | .setup, .standby | .setup, .dormant | .standby, .dormant => s.beginEntry c m
    | .run, .hold => (if stop then s.stopTrigger 3 else s.enterHold).modeDone c old
    | .hold, .run => if s.stopActive || s.gang.barsRun then wrong else ((s.unlatch false).setMode .run).modeDone c old
    | .run, .setup => if s.hostScheduled then s.done c stBusy [] else (s.setMode .setup).modeDone c old
    | .hold, .setup =>
      if s.stopActive then wrong
      else if s.hostScheduled then s.done c stBusy []
      else ((s.setMode .setup).unlatch true).modeDone c old
    | .service, .setup =>
      if s.insts.any fun e => e.2.mb.taken.any fun t => t.started && t.opcode == 0x0706 then s.done c stBusy []
      else ((s.setMode .setup).unlatch true).modeDone c old
    | .dormant, .standby | .dormant, .setup | .standby, .setup => (s.wait c [BitVec.ofNat 8 old.code, 0, 0, 0]).goTo m
    | _, _ => wrong

/-- MODE_SET (R275, R307, R308, R392). -/
def execModeSet (c : CmdRef) (s : State) : Res :=
  .next <| s.command c ⟨0x0601, [(8, 1, 0xFF), (9, 1, 1)], modesAll, true⟩
    (fun t => [(8, decide (5 < t.arg 8 1)), (9, t.arg 9 1 == 1 && t.arg 8 1 != 4)]) anyone fun t =>
    s.modeSet c (modeOf (t.arg 8 1)) (t.arg 9 1 == 1)

/-- PMU_DOM_POLICY takes a value: at the next course start, at once while no courses run (R391). -/
def State.setPolicies (s : State) (v : Nat) : State :=
  let s := (s.shadow .PMU_DOM_POLICY 0 0).setFld .PMU_DOM_POLICY_POLICY v
  if s.course.running then s else s.applyPolicies

/-- DOMAIN_POLICY (R307, R391). -/
def execDomainPolicy (c : CmdRef) (s : State) : Res :=
  .next <| s.command c ⟨0x0602, [(8, 1, 0xFF), (9, 1, 0xFF)], modesSURHV, true⟩
    (fun t => [(8, decide (11 < t.arg 8 1)), (9, decide (2 < t.arg 9 1) || (t.arg 9 1 == 2 && t.arg 8 1 != 11))]) anyone fun t =>
    let d := t.arg 8 1
    let old := s.fld .PMU_DOM_POLICY_POLICY
    (s.setPolicies (old - old / 4 ^ d % 4 * 4 ^ d + t.arg 9 1 * 4 ^ d)).done c stOk []

end Sys2Proof.Machine
end

