-- ==== Sys2Proof/Machine/Ppm.lean ====
section
/-!
DEFINITION. The port power manager (R410–R428): ramps, limits, fast trips, retries, feeds, metering, and the commands PPM_CONFIG and PPM_READ.
-/

namespace Sys2Proof.Machine

/-! Settings (R418, R428). -/

/-- A value held between two bounds. -/
def within (lo hi x : Nat) : Nat := max lo (min hi x)

/-- Full scales of a port, mA and mV; 0 acts as 1. -/
def State.iFs (s : State) (n : Fin 16) : Nat := max 1 (s.fld .PPM_SCALE_I_FS n.val)
def State.vFs (s : State) (n : Fin 16) : Nat := max 1 (s.fld .PPM_SCALE_V_FS n.val)

/-- Lengths of the fault timer, the retry timer and the ramp timeout, in ticks. -/
def State.faultTicks (s : State) (n : Fin 16) : Nat := within 1 100 (s.fld .PPM_TIMERS_FAULT_MS n.val) * 1000
def State.retryTicks (s : State) (n : Fin 16) : Nat := within 1 60 (s.fld .PPM_TIMERS_RETRY_S n.val) * 1000000
def State.rampTmo (s : State) (n : Fin 16) : Nat := max 1 (s.fld .PPM_TIMERS_RAMP_TMO n.val) * 1000

/-- PG_THR, %. -/
def State.pgThr (s : State) (n : Fin 16) : Nat := within 50 99 (s.fld .PPM_RAMP_PG_THR n.val)

/-- DEAD of a group in µs, and RETURN_S in ticks. -/
def State.deadTicks (s : State) (g : Fin 4) : Nat := within 20 500 (s.fld .PPM_GRP_CFG_DEAD g.val)
def State.returnLen (s : State) (g : Fin 4) : Nat := max 1 (s.fld .PPM_GRP_CFG_RETURN_S g.val) * 1000000

/-- Change a port of the power manager, a group. -/
def State.modPpm (s : State) (n : Fin 16) (f : PpmPort → PpmPort) : State := { s with ppm := vmod s.ppm n.val f }
def State.modFeed (s : State) (g : Fin 4) (f : FeedGroup → FeedGroup) : State := { s with feeds := vmod s.feeds g.val f }

/-- An event of a port, of a group (R427). -/
def State.ppmEvent (s : State) (n : Fin 16) (f : Fld) : State := s.happen f (64 + n.val) n.val
def State.feedEvent (s : State) (g : Fin 4) (f : Fld) : State := s.happen f (80 + g.val) g.val

/-- Last output voltage of a port, µV. -/
def State.outUv (s : State) (n : Fin 16) : Nat := s.ppm[n].vsns.toNat * s.vFs n * 1000 / 4095

/-- Voltage of the selected feed, mV; none while neither is closed. -/
def FeedGroup.selected (x : FeedGroup) : Option Nat :=
  match x.sel with
  | .onA => some x.a.mv.toNat
  | .onB => some x.b.mv.toNat
  | _ => none

/-- The ports of a group are blanked (R424). -/
def State.blanked (s : State) (n : Fin 16) : Bool := s.feeds[groupOf n].blankLeft.isSome

/-! Changes of a port's power state. -/

/-- A ramp starts (R416, R421): GEN_n high, the target at the output voltage. The port state machine leaves FAULT for OFF (R91). -/
def State.startRamp (s : State) (n : Fin 16) : State :=
  let slope := max 1 (s.fld .PPM_RAMP_SLOPE n.val)
  let target := s.outUv n
  let rampMax := s.rampTmo n
  let s := s.modPpm n fun x =>
    { x with
      phase := .ramping, cause := .none, gen := true, faultLeft := none, rampTicks := 0, rampMax := rampMax, slope := slope, target := target
      retryLeft := none, tripLatch := false, kept := false, waitFeed := false, lowRun := 0, pgTicks := 0 }
  let s := s.modPort (.root n) fun x => if x.state == .fault then { x with state := .off, cause := .none } else x
  s.emit (.genN n.val true)

/-- A fault of a port: the switch opens, and the port state machine sees a power fault (R415). -/
def State.ppmDown (s : State) (n : Fin 16) (phase : PpmPhase) (cause : PpmCause) (f : Fld) (retry : Option Nat) : State :=
  let s := (s.ppmCut n.val).modPpm n fun x =>
    { x with phase := phase, cause := cause, faultLeft := none, retryLeft := retry, lowRun := 0, tripLatch := false, waitFeed := false }
  let s := s.ppmEvent n f
  match s.port (.root n) with
  | some x => if x.state == .fault then s else s.portFault (.root n) .power
  | none => s

/-- Entry to FAULT, which starts the retry timer (R420). -/
def State.ppmFault (s : State) (n : Fin 16) (cause : PpmCause) (f : Fld) : State := s.ppmDown n .fault cause f (some (s.retryTicks n))

/-- A retry (R420): the port ramps, waits for a feed, or has used up its retries. -/
def State.ppmRetry (s : State) (n : Fin 16) : State :=
  let x := s.ppm[n]
  let lim := s.fld .PPM_TIMERS_RETRY_LIM n.val
  let s := s.modPpm n fun x => { x with retryLeft := none }
  if lim != 255 && decide (lim ≤ x.retries.toNat) then
    let s := s.modPpm n fun x => { x with phase := .lockout, waitFeed := false }
    (s.ppmEvent n .PPM_PEVENT_LOCKOUT).error catPower 0x05 blkPpm .normal n.val
  else if s.feeds[groupOf n].sel == .none then s.modPpm n fun x => { x with waitFeed := true }
  else ((s.modPpm n fun x => { x with retries := if x.retries = 255 then 255 else x.retries + 1 }).startRamp n).ppmEvent n .PPM_PEVENT_RETRY

/-- The limit is released (R416). -/
def State.releaseLimit (s : State) (n : Fin 16) : State :=
  let x := s.ppm[n]
  let v := s.outUv n
  let s := s.modPpm n fun y =>
    { y with phase := if x.pg then .on else .ramping, faultLeft := none, lowRun := 0, target := if x.pg then y.target else v }
  s.ppmEvent n .PPM_PEVENT_LIMIT_END

/-! Step 1: requests (R413, R420, R427). -/

/-- A power-off request. -/
def State.takeOff (s : State) (n : Fin 16) : State :=
  let s := (s.ppmCut n.val).modPpm n fun x =>
    { x with
      phase := .off, retries := 0, faultLeft := none, retryLeft := none, tripLatch := false, onReq := false, offReq := false, kept := false
      waitFeed := false, lowRun := 0, rampTicks := 0 }
  match s.port (.root n) with
  | some x => if x.state == .off then s else s.portOff (.root n)
  | none => s

/-- A power request: it waits in OFF, or in NO_FEED, until a feed is selected, and after a start of the oscillator until the feeds have been sampled
(R412); the port leaves FAULT (R91). -/
def State.takeOn (s : State) (n : Fin 16) : State :=
  let g := s.feeds[groupOf n]
  let fed := g.sel != .none && g.a.seen && g.b.seen
  match s.ppm[n].phase with
  | .off | .fault | .lockout =>
    let s := s.modPpm n fun x => { x with retries := 0, phase := .off, retryLeft := none, waitFeed := false }
    let s := s.modPort (.root n) fun x => if x.state == .fault then { x with state := .off, cause := .none } else x
    if fed then (s.modPpm n fun x => { x with onReq := false }).startRamp n else s
  | .noFeed => s.modPpm n fun x => { x with retries := 0, onReq := false, kept := true }
  | _ => s.modPpm n fun x => { x with retries := 0, onReq := false }

/-- The requests of a port. -/
def State.takeRequest (s : State) (n : Fin 16) : State :=
  if s.ppm[n].offReq then s.takeOff n else if s.ppm[n].onReq then s.takeOn n else s

/-! Samples (R410, R425). -/

/-- A port's conversion is registered and metered. The code that GRAMP_n then takes is the gate loop's (R416): free. -/
def State.portSample (s : State) (n : Fin 16) (isns vsns : BitVec 12) : State :=
  let i := isns.toNat
  let v := vsns.toNat
  let ma := i * s.iFs n / 4095
  let s := s.setFld .PPM_PEAK_IPEAK (max ma (s.fld .PPM_PEAK_IPEAK n.val)) n.val
  let x := s.ppm[n]
  let scale := s.iFs n * s.vFs n
  let frac := x.energyFrac.toNat + i * v * scale * 2 ^ 32 / (4095 * 4095 * 1000 * 100000)
  let full := x.samples + 1 = 64
  let si := x.sumI + i
  let sv := x.sumV + v
  let sp := x.sumP + i * v
  let (w, s) := s.freeWord
  let s := s.modPpm n fun x =>
    { x with
      isns := isns, vsns := vsns, energy := x.energy + BitVec.ofNat 48 (frac / 2 ^ 32), energyFrac := BitVec.ofNat 32 frac
      samples := if full then 0 else x.samples + 1, sumI := if full then 0 else si, sumV := if full then 0 else sv
      sumP := if full then 0 else sp, gramp := if x.gen then w.setWidth 10 else 0 }
  if full then
    let s := (s.setFld .PPM_MEAS_I (si * s.iFs n / (4095 * 64)) n.val).setFld .PPM_MEAS_V (sv * s.vFs n / (4095 * 64)) n.val
    s.setFld .PPM_POWER_P (sp * scale / (4095 * 4095 * 64 * 1000)) n.val
  else s

/-- A feed's conversion: its voltage, and how many samples in a row lay below UV − UV / 32 (R422). -/
def State.feedSample (s : State) (g : Fin 4) (b : Bool) (code : BitVec 12) : State :=
  let mv := code.toNat * max 1 (s.fld .PPM_FEED_CFG_V_FS g.val) / 4095
  let uv := s.fld .PPM_FEED_CFG_UV g.val
  let take (x : Feed) : Feed := { x with seen := true, mv := BitVec.ofNat 16 mv, lowRun := if mv < uv - uv / 32 then x.lowRun + 1 else 0 }
  s.modFeed g fun x => if b then { x with b := take x.b } else { x with a := take x.a }

/-- A conversion. -/
def State.ppmSample (s : State) (x : PpmSample) : State :=
  match x with
  | .port n i v => s.portSample n i v
  | .feed g b code => s.feedSample g b code

/-! Step 2: faults (R416, R427). -/

/-- A new sample of a port under the limit's rules. -/
def State.limitSample (s : State) (n : Fin 16) : State :=
  let x := s.ppm[n]
  let lim := s.fld .PPM_LIMIT_ILIM n.val
  let fs := s.iFs n
  let high := decide ((lim * 4095 + fs - 1) / fs ≤ x.isns.toNat)
  if !x.gen then s
  else if high then
    if s.blanked n then s.modPpm n fun x => { x with lowRun := 0 }
    else if x.faultLeft.isNone then
      let t := s.faultTicks n
      (s.modPpm n fun x => { x with phase := .limiting, faultLeft := some t, lowRun := 0 }).ppmEvent n .PPM_PEVENT_LIMIT_START
    else
      let ma := x.isns.toNat * fs / 4095
      s.modPpm n fun x => { x with lowRun := 0, target := x.target - x.target * (ma - lim) / max 1 lim }
  else if x.faultLeft.isNone then s
  else if x.isns.toNat * fs * 10 < 9 * lim * 4095 then
    if x.lowRun + 1 ≥ 3 then s.releaseLimit n else s.modPpm n fun x => { x with lowRun := x.lowRun + 1 }
  else s.modPpm n fun x => { x with lowRun := 0 }

/-- The faults of a port in one tick; `fresh`: it has a new sample. -/
def State.portFaults (s : State) (n : Fin 16) (fresh : Bool) : State :=
  let x := s.ppm[n]
  let ramping := x.gen && !x.pg
  let counts := ramping && !s.blanked n
  let s := s.modPpm n fun x =>
    { x with faultLeft := x.faultLeft.map (· - 1), rampTicks := if counts then x.rampTicks + 1 else x.rampTicks }
  if x.tripLatch then s.ppmFault n .fastTrip .PPM_PEVENT_FAST_TRIP
  else if s.ppm[n].faultLeft = some 0 then s.ppmFault n .overcurrent .PPM_PEVENT_OVERCURRENT
  else if counts && x.rampMax ≤ x.rampTicks + 1 then s.ppmFault n .rampTimeout .PPM_PEVENT_RAMP_TIMEOUT
  else if fresh then s.limitSample n
  else s

/-! Step 3: feeds (R422–R424). -/

/-- The ports of a group. -/
def groupPorts (g : Fin 4) : List (Fin 16) := (List.finRange 16).filter fun n => groupOf n == g

/-- A feed enable takes a level. -/
def State.setFeed (s : State) (g : Fin 4) (b on : Bool) : State :=
  let x := s.feeds[g]
  if (if b then x.bEn else x.aEn) == on then s
  else (s.modFeed g fun x => if b then { x with bEn := on } else { x with aEn := on }).emit (.feedEn g.val b on)

/-- A feed is selected: ports that waited for it ramp (R424, R427). -/
def State.feedSelected (s : State) (g : Fin 4) : State :=
  (groupPorts g).foldl (fun (s : State) n =>
    let x := s.ppm[n]
    if x.phase == .noFeed then s.startRamp n
    else if x.phase == .fault && x.waitFeed then s.ppmRetry n
    else s) s

/-- Neither feed is closed (R424). -/
def State.feedNone (s : State) (g : Fin 4) (report : Bool) : State :=
  let s := s.modFeed g fun x => { x with sel := .none, deadLeft := none }
  let s := if report then (s.feedEvent g .PPM_FEED_STATUS_BOTH_LOST).error catPower 0x04 blkPpm .normal g.val else s
  (groupPorts g).foldl (fun (s : State) n =>
    let p := s.ppm[n].phase
    if p == .ramping || p == .on || p == .limiting then s.ppmDown n .noFeed .feedLost .PPM_PEVENT_FEED_LOST none else s) s

/-- Feed A, or B, is closed; the return interval starts where A is good (R421, R423). -/
def State.closeFeed (s : State) (g : Fin 4) (b : Bool) : State :=
  let n := s.returnLen g
  let s := s.modFeed g fun x => { x with sel := if b then .onB else .onA, deadLeft := none, returnTicks := 0, returnMax := n }
  (s.setFeed g b true).feedSelected g

/-- A dead time starts (R423): blanking ends 1 ms after it (R424). -/
def State.startDead (s : State) (g : Fin 4) (toB : Bool) : State :=
  let d := s.deadTicks g
  (s.setFeed g (!toB) false).modFeed g fun x =>
    { x with sel := if toB then .deadToB else .deadToA, deadLeft := some d, blankLeft := some (d + 1000) }

/-- A dead time ends (R423). -/
def State.endDead (s : State) (g : Fin 4) : State :=
  let x := s.feeds[g]
  let s := s.modFeed g fun x => { x with deadLeft := none, blankLeft := some 1000 }
  match x.sel with
  | .deadToB => if x.b.good then (s.closeFeed g true).feedEvent g .PPM_FEED_STATUS_SWITCHED_TO_B else s.feedNone g true
  | .deadToA =>
    if x.a.good then (s.closeFeed g false).feedEvent g .PPM_FEED_STATUS_RETURNED_TO_A
    else if x.b.good then s.closeFeed g true
    else s.feedNone g true
  | _ => s

/-- A good feed is lost (R422, R423). -/
def State.loseFeed (s : State) (g : Fin 4) (b : Bool) : State :=
  let gone (x : Feed) : Feed := { x with good := false, goodTicks := 0 }
  let s := s.modFeed g fun x => if b then { x with b := gone x.b } else { x with a := gone x.a, returnTicks := 0 }
  let s := s.feedEvent g (if b then .PPM_FEED_STATUS_B_LOST else .PPM_FEED_STATUS_A_LOST)
  let x := s.feeds[g]
  match x.sel, b with
  | .onA, false => s.startDead g true
  | .onB, true => if x.a.good then s.startDead g false else (s.setFeed g true false).feedNone g true
  | _, _ => s

/-- A feed is good; in NONE it is selected, A before B (R423). -/
def State.goodFeed (s : State) (g : Fin 4) (b : Bool) : State :=
  let n := s.returnLen g
  let s := s.modFeed g fun x =>
    if b then { x with b := { x.b with good := true, goodTicks := 1000 } }
    else { x with a := { x.a with good := true, goodTicks := 1000 }, returnTicks := 0, returnMax := n }
  if s.feeds[g].sel == .none then s.closeFeed g (!s.feeds[g].a.good) else s

/-- One tick of a feed's watch (R422). -/
def State.watchFeed (s : State) (g : Fin 4) (b : Bool) : State :=
  let uv := s.fld .PPM_FEED_CFG_UV g.val
  let x := if b then s.feeds[g].b else s.feeds[g].a
  let n := if uv ≤ x.mv.toNat then x.goodTicks + 1 else 0
  let put (y : Feed) : Feed := { y with goodTicks := min 1000 n }
  let s := s.modFeed g fun y => if b then { y with b := put y.b } else { y with a := put y.a }
  if x.good && x.lowRun ≥ 2 then s.loseFeed g b
  else if !x.good && n ≥ 1000 then s.goodFeed g b
  else s

/-- One tick of a group's feed logic (R423). A's return interval is looked at before the loss of B (R427). -/
def State.groupTick (s : State) (g : Fin 4) : State :=
  let x := s.feeds[g]
  let s := s.modFeed g fun x =>
    { x with
      deadLeft := x.deadLeft.map (· - 1), blankLeft := (x.blankLeft.map (· - 1)).filter (· != 0)
      returnTicks := if x.sel == .onB && x.a.good then x.returnTicks + 1 else x.returnTicks }
  let s := if x.deadLeft.any (· ≤ 1) then s.endDead g else s
  let y := s.feeds[g]
  let s := if y.sel == .onB && y.a.good && decide (y.returnMax ≤ y.returnTicks) then s.startDead g false else s
  let s := (s.watchFeed g false).watchFeed g true
  let z := s.feeds[g]
  if z.sel == .none && (z.a.good || z.b.good) then s.closeFeed g (!z.a.good) else s

/-! Step 4: power good (R419). -/

/-- The output is at PG_THR % of the selected feed; none where no feed is selected. -/
def State.outGood (s : State) (n : Fin 16) : Option Bool :=
  s.feeds[groupOf n].selected.map fun v => decide (v * s.pgThr n * 10 ≤ s.outUv n)

/-- The power-good decision of a port. -/
def State.powerGood (s : State) (n : Fin 16) : State :=
  let x := s.ppm[n]
  match s.outGood n with
  | none => s
  | some ok =>
    if x.phase == .ramping && ok && x.faultLeft.isNone && !s.blanked n then
      let s := (s.modPpm n fun x => { x with pg := true, phase := .on, pgTicks := 0 }).emit (.pgN n.val true)
      (s.ppmEvent n .PPM_PEVENT_RAMP_DONE).portPowered (.root n)
    else if x.pg && !ok && x.faultLeft.isNone && !s.flag .PPM_PEVENT_VSAG n.val then s.ppmEvent n .PPM_PEVENT_VSAG
    else s

/-! Step 5 (R416, R420). -/

/-- Ramps, retry timers, and the time for which PG_n has been high. -/
def State.portAdvance (s : State) (n : Fin 16) : State :=
  let x := s.ppm[n]
  let feed := (s.feeds[groupOf n].selected.getD 0) * 1000
  let rises := (x.phase == .ramping || x.phase == .on) && x.faultLeft.isNone && !s.blanked n
  let long := x.pg && decide (60000000 ≤ x.pgTicks + 1)
  let s := s.modPpm n fun x =>
    { x with
      target := if rises then min feed (x.target + x.slope) else x.target
      pgTicks := if x.pg then x.pgTicks + 1 else 0
      retries := if long then 0 else x.retries
      retryLeft := x.retryLeft.map (· - 1) }
  if s.ppm[n].retryLeft = some 0 then s.ppmRetry n else s

/-! The tick (R412, R413). -/

/-- The oscillator runs until every port is OFF (R412). -/
def State.oscCheck (s : State) : State :=
  if (List.finRange 16).all fun n => s.ppm[n].phase == .off && !s.ppm[n].onReq then { s with oscRun := false } else s

/-- The samples of a tick hold a new one of a port. -/
def freshPort (samples : List PpmSample) (n : Fin 16) : Bool :=
  samples.any fun x => match x with | .port m _ _ => m == n | .feed _ _ _ => false

/-- One tick of 1 µs with the conversions registered in it (R413). -/
def execPpmTick (samples : List PpmSample) (s : State) : Res :=
  .next <|
    if !s.oscRun then s
    else
      let ports := List.finRange 16
      let s := ports.foldl State.takeRequest s
      let s := samples.foldl State.ppmSample s
      let s := ports.foldl (fun (s : State) n => s.portFaults n (freshPort samples n)) s
      let s := (List.finRange 4).foldl State.groupTick s
      let s := ports.foldl State.powerGood s
      (ports.foldl State.portAdvance s).oscCheck

/-! Single happenings of a tick. -/

/-- Three samples below 0.9 × ILIM release the limit (R416). -/
def execLimitRelease (n : Fin 16) (s : State) : Res := .next (if s.ppm[n].faultLeft.isSome then s.releaseLimit n else s)

/-- The fault timer of a port expires (R416); with a fast trip latched in that tick the cause is FAST_TRIP (R427). -/
def execFaultTimerExpiry (n : Fin 16) (s : State) : Res :=
  .next <|
    if s.ppm[n].faultLeft.isNone then s
    else if s.ppm[n].tripLatch then s.ppmFault n .fastTrip .PPM_PEVENT_FAST_TRIP
    else s.ppmFault n .overcurrent .PPM_PEVENT_OVERCURRENT

/-- A ramp has not reached power good in time (R416). -/
def execRampTimeout (n : Fin 16) (s : State) : Res :=
  .next (if s.ppm[n].gen && !s.ppm[n].pg && !s.blanked n then s.ppmFault n .rampTimeout .PPM_PEVENT_RAMP_TIMEOUT else s)

/-- ISNS_n crosses the fast-trip threshold (R417): GEN_n falls at once, the rest follows at the next tick. -/
def execFastTrip (n : Fin 16) (s : State) : Res :=
  .next <|
    if s.ppm[n].gen then
      ((s.modPpm n fun x => { x with gen := false, tripLatch := true }).emit (.genN n.val false)).addSat .PPM_PEAK_TRIPS 1 n.val
    else s

/-- The retry timer of a port expires (R420). -/
def execPpmRetryExpiry (n : Fin 16) (s : State) : Res := .next (if s.ppm[n].retryLeft.isSome then s.ppmRetry n else s)

/-- PG_n has stayed high for 60 s (R420). -/
def execRetriesClear (n : Fin 16) (s : State) : Res := .next (if s.ppm[n].pg then s.modPpm n fun x => { x with retries := 0 } else s)

/-- The oscillator has started after a power request (R412); the feeds were not watched before. -/
def execOscillatorStart (s : State) : Res :=
  .next <|
    if !s.oscRun && (List.finRange 16).any fun n => s.ppm[n].onReq then
      let fresh (x : Feed) : Feed := { x with seen := false, goodTicks := 0, lowRun := 0 }
      { s with oscRun := true, feeds := s.feeds.map fun (x : FeedGroup) => { x with a := fresh x.a, b := fresh x.b } }
    else s

/-- A feed has been at or above UV for 1 ms (R422). -/
def execFeedGood (g : Fin 4) (b : Bool) (s : State) : Res :=
  .next (if s.oscRun && !(if b then s.feeds[g].b.good else s.feeds[g].a.good) then s.goodFeed g b else s)

/-- Two samples below UV − UV / 32 (R422, R423). -/
def execFeedLost (g : Fin 4) (b : Bool) (s : State) : Res :=
  .next (if s.oscRun && (if b then s.feeds[g].b.good else s.feeds[g].a.good) then s.loseFeed g b else s)

/-- A group's dead time ends (R423). -/
def execDeadTimeEnd (g : Fin 4) (s : State) : Res := .next (if s.feeds[g].deadLeft.isSome then s.endDead g else s)

/-- A has been good for RETURN_S (R423). -/
def execFeedReturn (g : Fin 4) (s : State) : Res :=
  .next (if s.feeds[g].sel == .onB && s.feeds[g].a.good then s.startDead g false else s)

/-- 1 ms after the end of a dead time (R424). -/
def execBlankingEnd (g : Fin 4) (s : State) : Res :=
  .next (if s.feeds[g].deadLeft.isNone then s.modFeed g fun x => { x with blankLeft := none } else s)

/-- Write of PPM_ECLR (R425). -/
def State.ppmEclrWrite (s : State) (v : Reg32) : State :=
  { s with ppm := Vector.ofFn fun n => if v.getLsbD n.val then { s.ppm[n] with energy := 0, energyFrac := 0 } else s.ppm[n] }

/-- See `State.ppmEclrWrite`. -/
def execPpmEclr (v : Reg32) (s : State) : Res := .next (s.ppmEclrWrite v)

/-! Commands. -/

/-- PPM_CONFIG (R307, R308, R418). -/
def execPpmConfig (c : CmdRef) (s : State) : Res :=
  .next <| s.command c
    ⟨0x0603, [(8, 1, 0xFF), (10, 2, 0xFFFF), (12, 2, 0xFFFF), (14, 1, 0xFF), (15, 1, 0xFF), (16, 1, 0xFF), (18, 2, 0xFFFF), (20, 2, 0xFFFF),
      (22, 2, 0xFFFF)], modesURHV, true⟩
    (fun t =>
      let ftrip := t.arg 12 2
      [(8, decide (15 < t.arg 8 1)), (10, t.arg 10 2 == 0),
        (12, decide (ftrip < t.arg 10 2) || decide (s.iFs (Fin.ofNat 16 (t.arg 8 1)) < ftrip)),
        (14, t.arg 14 1 == 0 || decide (100 < t.arg 14 1)), (15, t.arg 15 1 == 0 || decide (60 < t.arg 15 1)), (18, t.arg 18 2 == 0),
        (20, decide (t.arg 20 2 < 20) || decide (500 < t.arg 20 2))]) anyone fun t =>
    let n := Fin.ofNat 16 (t.arg 8 1)
    let x := s.ppm[n]
    if x.phase == .fault || (x.gen && !x.pg) then s.done c stBusy []
    else
      let k := n.val
      let g := (groupOf n).val
      let s := (s.setFld .PPM_LIMIT_ILIM (t.arg 10 2) k).setFld .PPM_LIMIT_FTRIP (t.arg 12 2) k
      let s := ((s.setFld .PPM_TIMERS_FAULT_MS (t.arg 14 1) k).setFld .PPM_TIMERS_RETRY_S (t.arg 15 1) k).setFld .PPM_TIMERS_RETRY_LIM
        (t.arg 16 1) k
      let s := ((s.setFld .PPM_RAMP_SLOPE (t.arg 18 2) k).setFld .PPM_GRP_CFG_DEAD (t.arg 20 2) g).setFld .PPM_GRP_CFG_RETURN_S (t.arg 22 2) g
      s.done c stOk []

/-- PPM_READ (R307, R425): the manager, or an instance bound to the node on the port with the PORT option. -/
def execPpmRead (c : CmdRef) (s : State) : Res :=
  .next <| s.command c ⟨0x0604, [(8, 1, 0xFF)], modesAll, false⟩ (fun t => [(8, decide (15 < t.arg 8 1))])
    (fun t => c.inst.val == 0 || s.boundPort c.inst.val (.root (Fin.ofNat 16 (t.arg 8 1)))) fun t =>
    let n := Fin.ofNat 16 (t.arg 8 1)
    let x := s.ppm[n]
    s.done c stOk (leBytes 2 (s.fld .PPM_MEAS_I n.val) ++ leBytes 2 (s.fld .PPM_MEAS_V n.val) ++ leBytes 4 (s.fld .PPM_POWER_P n.val) ++
      leBytes 6 x.energy.toNat ++ [BitVec.ofNat 8 x.phase.code, BitVec.ofNat 8 x.cause.code, x.retries])

end Sys2Proof.Machine
end

