-- ==== Sys2Proof/Machine/Jtag.lean ====
section
/-!
DEFINITION. Physical access by JTAG (R443, R444).
-/

namespace Sys2Proof.Machine

/-! The instructions of IEEE 1149.1 that R443 names. What each captures and drives is the standard's (assumption 16). -/

/-- An instruction is loaded, and what its register captured is shifted out. -/
def State.jtagLoad (s : State) (i : JtagInstr) (width : Nat) (v : BitVec 247) : State :=
  ({ s with jtag := { s.jtag with instr := i, captured := v, width := width } }).emit (.tdo width v)

/-- BYPASS: one bit, captured as 0. -/
def execBypass (s : State) : Res := .next (s.jtagLoad .bypass 1 0)

/-- IDCODE: version 0x1 for B0, part 0x7512, manufacturer 0x2A7, and a 1 (R443). -/
def execIdcode (s : State) : Res := .next (s.jtagLoad .idcode 32 0x1751254F)

/-- SAMPLE/PRELOAD: the levels at the balls are captured, the boundary values for EXTEST and CLAMP loaded. -/
def execSamplePreload (pins preload : BitVec 247) (s : State) : Res :=
  .next ({ s.jtagLoad .samplePreload 247 pins with jtag := ⟨.samplePreload, preload, pins, 247⟩ })

/-- EXTEST: the balls are driven with the boundary values, GEN_n, PG_n and the feed enables included (R443). -/
def execExtest (s : State) : Res :=
  .next (({ s with jtag := { s.jtag with instr := .extest } }).emit (.boundary (some s.jtag.preload)))

/-- CLAMP: as EXTEST at the balls, with the bypass register at TDO. -/
def execClamp (s : State) : Res := .next ((s.jtagLoad .clamp 1 0).emit (.boundary (some s.jtag.preload)))

/-- HIGHZ: the outputs float, with the bypass register at TDO. -/
def execHighz (s : State) : Res := .next ((s.jtagLoad .highz 1 0).emit (.boundary none))

/-! DBG_UNLOCK (R444). -/

/-- A slot in which staging was under way: it ends there (R446). -/
def Slot.cut (x : Slot) : Slot := if x.staged.isSome && !x.valid then { x with offset := 0 } else x

/-- Instance 0 as after a cold start, its page and its rings with it. -/
def State.bareManager (s : State) : State := (s.freshPage 0).setInst 0 Instance.manager

/-- The arrays of step 3 are zeroed, and every instance other than 0 is gone. -/
def State.zeroArrays (s : State) : State :=
  let s := (s.insts.map (·.1)).foldl (fun (s : State) i => if i = 0 then s else s.afterDestroy i) s
  let s := s.bareManager
  { s with
    flows := [], planq := Vector.replicate 16 [], txq := Vector.replicate 16 [], expects := [], engines := Vector.replicate 16 Engine.init
    trace := [], fwTasks := []
    gutter := { s.gutter with cores := s.gutter.cores.map fun (c : CoreState) => { c with task := none } }
    pmu := { s.pmu with bankUse := Vector.replicate 64 0 } }

/-- DBG_UNLOCK: STOP, DMA refused, the arrays zeroed, the instances destroyed, Service; then debug access is open (R444). -/
def execDbgUnlock (s : State) : Res :=
  .next <|
    let s := s.stopTrigger 4
    let s := { s with
      jtag := { s.jtag with instr := .dbgUnlock }
      boot := { s.boot with dmaRefused := true, slotA := s.boot.slotA.cut, slotB := s.boot.slotB.cut }
      hostq := [] }
    let s := s.zeroArrays
    let s := { s with pmu := { s.pmu with entry := none, handshake := none, changing := false } }
    let s := (s.setMode .service).wakeDoms (s.modeDoms .service)
    { s with boot := { s.boot with debugUnlocked := true } }

end Sys2Proof.Machine
end

