-- ==== Sys2Proof/Machine/Hif.lean ====
section
/-!
DEFINITION. Reads and writes of BAR0 and BAR2 by the host (R467–R476): requests and the accesses they make, the effect of a read and of a
write of each register, the MSI-X table and PBA.
-/

namespace Sys2Proof.Machine

/-! Domains (R390, R400). -/

/-- The switched domain that holds a copy of a register; none: AO, or PD_HOST, which the request itself has woken (R390, R400). -/
def Reg.domain (r : Reg) (k : Nat) : Option (Fin 12) :=
  let p := r.place
  match p.space with
  | .page => if 0x300 ≤ p.base ∧ p.base < 0x800 then (if p.base < 0x314 ∨ 0x400 ≤ p.base then none else some 4) else some 1
  | .bar0 =>
    let b := p.base / 0x1000
    if p.count = 18 then some (if k < 8 then 8 else if k < 16 then 9 else 11)
    else if b = 2 then some 1
    else if b = 3 then (if r.warmReset then some 4 else none)
    else if b = 4 then some 3
    else if b = 5 then some 4
    else if b = 6 then some (if p.count = 16 ∧ 8 ≤ k then 6 else 5)
    else if b = 7 then some 10
    else if b = 9 then some 11
    else none

/-- An access to a copy of a register: a sleeping domain wakes, and the access stalls until it is ON (R400); the access takes its effect in
the row (assumption 1). -/
def State.accessReg (s : State) (r : Reg) (k : Nat) : State :=
  match r.domain k with
  | none => s
  | some d =>
    if s.asleep d || s.pmu.doms[d] == .waking then
      (({ s with pmu := { s.pmu with stalled := vmod s.pmu.stalled d.val (· + 1) } }).addSat .PMU_STALL_CNT_COUNT 1).wakeDoms [d]
    else s

/-! Reads. -/

/-- Fields that a read clears (R5); two of them stand outside the registers. -/
def State.clearRead (s : State) (r : Reg) (n k : Nat) : State :=
  let s := r.fields.foldl (fun (s : State) f => if f.acc == .rc then s.setFld f 0 k n else s) s
  match r with
  | .TRK_DELAY_STAT =>
    match copyPort k with
    | some p => s.modPort p fun x => { x with delay := { x.delay with missed := 0 } }
    | none => s
  | .BOOT_FAIL => { s with boot := { s.boot with failCount := 0 } }
  | _ => s

/-- What a read of a register returns, and its side effects: companions are latched (R472), RC fields clear (R5). -/
def State.readReg (s : State) (r : Reg) (n k : Nat) : Reg32 × State :=
  let s := s.accessReg r k
  if s.underReset r then (0xFFFFFFFF, s)
  else if r = .TRC_BUF_LO then s.trcRead
  else
    let v := s.view r n k
    let v := if ptbDisable && r.block == blkPtb && r != .PTB_CFG then 0 else v
    let s := { s with latch := (s.companions r n k).foldl (fun (m : KMap Reg32) (e : Reg × Reg32) => kset m (e.1.key n k) e.2) s.latch }
    (v, s.clearRead r n k)

/-- A word of the MSI-X table or PBA (PCI Express): a vector is masked at reset. -/
def State.msixRead (s : State) (ofs : Nat) : Reg32 :=
  if ofs < 0xF8000 then
    let i := (ofs - 0xF0000) / 4
    (kget s.gutter.msix i).getD (if i % 4 = 3 then 1 else 0)
  else BitVec.ofNat 32 (s.gutter.pba.toNat >>> (8 * (ofs - 0xF8000)))

/-- Offsets of the MSI-X table and of the PBA (R467). -/
def msixOfs (bar2 : Bool) (a : Nat) : Bool := !bar2 && decide (0xF0000 ≤ a) && decide (a < 0xF8100)

/-- One 32-bit read (R467–R469, R473). -/
def State.read32 (s : State) (bar2 : Bool) (a : Nat) : Reg32 × State :=
  if msixOfs bar2 a then (s.msixRead a, s)
  else if bar2 then
    let n := a / 0x1000
    match findReg .page (a % 0x1000) with
    | none => (0, s)
    | some (r, k) => if s.pageState n = .free then (if r = .INST_INFO then s.view r n k else 0, s) else s.readReg r n k
  else
    match findReg .bar0 a with
    | none => (0, s)
    | some (r, k) => s.readReg r 0 k

/-! Writes. -/

/-- Registers whose writes have meanings of their own, in an instance page; a RESETTING or FREE instance's page turns the others away
(R469). -/
def State.writePage (s : State) (r : Reg) (n : Fin 512) (k : Nat) (v : Reg32) : State :=
  match r with
  | .INST_FLOW_DB => s.flowDoorbell n.val v
  | .INST_MB_DB => s.mbDoorbell n.val v
  | .INST_MB_CFG => s.mbCfgWrite n.val v
  | .INST_MB_CPL_CONS => s.mbConsWrite n.val v
  | .INST_MB_STATUS => s.mbStatusWrite n.val v
  | .INST_CQ_CFG => s.cqCfgWrite n.val (Fin.ofNat 16 k) v
  | .INST_CQ_CONS => s.cqConsWrite n.val (Fin.ofNat 16 k) v
  | .PSIG_RAISE => s.sigRaise (.page n) v
  | .PSIG_PEND_SET => s.sigPendSet (.page n) v
  | .PSIG_PEND_CLR => s.sigPendClr (.page n) v
  | .PSIG_MASK_SET => s.sigMaskSet (.page n) v
  | .PSIG_MASK_CLR => s.sigMaskClr (.page n) v
  | .PSIG_SRC_CFG => s.sigSrcCfg (.page n) v
  | .PSIG_PRIO => s.sigPrio n.val v
  | _ =>
    match s.pageGate n.val (r.place.base + r.place.stride * k) with
    | some s' => s'
    | none => s.writeFields r n.val k v

/-- SIG_SRC_CTL.STOP of the source shown (R353, R362): only a device source has it. -/
def State.srcCtlWrite (s : State) (v : Reg32) : State :=
  let n := s.fld .SIG_SRC_SEL_SOURCE
  { s with gutter := { s.gutter with stop := bitPut s.gutter.stop n (decide (n < 256) && v.getLsbD 0) } }

/-- A write of a BAR0 register (R467). STOP_IN_N is a level input: one that is low as PIN_EN sets triggers (R269). -/
def State.writeBar0 (s : State) (r : Reg) (k : Nat) (v : Reg32) (run : StartEnv) : State :=
  match r with
  | .TRK_CTRL => (s.writeFields .TRK_CTRL 0 k v).stepDownWrite (Fin.ofNat 18 k) v
  | .TRK_LEDGER_CLR => s.ledgerClear (Fin.ofNat 18 k) v
  | .TAPU_COURSE_CFG => s.periodWrite v
  | .TAPU_TIME_CTRL =>
    let x := Fld.TAPU_TIME_CTRL_SOURCE.get v
    if s.fieldOk .TAPU_TIME_CTRL_SOURCE 0 x then s.setSource x else s
  | .TAPU_PACE_CFG => s.paceCfgWrite (Fin.ofNat 8 k) v
  | .TRC_CTRL => s.trcCtrlWrite v
  | .ENG_STOP_CMD => s.stopCmd v
  | .ENG_STOP_CFG =>
    let t := s.writeFields .ENG_STOP_CFG 0 k v
    if !s.flag .ENG_STOP_CFG_PIN_EN && t.flag .ENG_STOP_CFG_PIN_EN && t.stop.pinLow then t.stopTrigger 1 else t
  | .SIG_RAISE => s.sigRaise .bar0 v
  | .SIG_PEND_SET => s.sigPendSet .bar0 v
  | .SIG_PEND_CLR => s.sigPendClr .bar0 v
  | .SIG_MASK_SET => s.sigMaskSet .bar0 v
  | .SIG_MASK_CLR => s.sigMaskClr .bar0 v
  | .SIG_SRC_CFG => s.sigSrcCfg .bar0 v
  | .SIG_SRC_CTL => s.srcCtlWrite v
  | .PMU_DOM_POLICY => s.setPolicies (Fld.PMU_DOM_POLICY_POLICY.get v)
  | .PPM_ECLR => s.ppmEclrWrite v
  | .BOOT_CTRL => s.bootCtrlWrite v run
  | .BOOT_STATUS =>
    if Fld.BOOT_STATUS_FELL_BACK.get v = 1 then { s with boot := { s.boot with fellBack := false } } else s
  | .ERR_ACK => s.errAck v
  | .ERR_FATAL_ACK => s.errFatalAck v
  | .HIF_LTR => s.ltrWrite v
  | .PTB_CFG => if ptbDisable then s else s.writeFields .PTB_CFG 0 k v
  | _ => s.writeFields r 0 k v

/-- One 32-bit write (R467–R469, R473): an offset with no register, and a register whose domain a warm start resets (R433), discard it. -/
def State.write32 (s : State) (bar2 : Bool) (a : Nat) (v : Reg32) (run : StartEnv) : State :=
  if msixOfs bar2 a then (if a < 0xF8000 then s.msixWrite ((a - 0xF0000) / 4) v else s)
  else if bar2 then
    match findReg .page (a % 0x1000) with
    | none =>
      if (s.pageState (a / 0x1000)) == .free then s.badAccess true a 4
      else if (s.pageState (a / 0x1000)) == .resetting then s.badAccess true a 5 else s
    | some (r, k) => (if s.pageState (a / 0x1000) = .free then s else s.accessReg r k).writePage r (Fin.ofNat 512 (a / 0x1000)) k v
  else
    match findReg .bar0 a with
    | none => s
    | some (r, k) =>
      let s := s.accessReg r k
      if s.underReset r then s else s.writeBar0 r k v run

/-! Requests (R471, R472). -/

/-- What R471 makes of a request. -/
inductive Request where
  /-- Successive 32-bit accesses from an address on. -/
  | words (first count : Nat)
  /-- Bytes within one register, from a byte of it on: a read only. -/
  | part (word byte : Nat)
  /-- Turned away, recorded with a reason. -/
  | bad (reason : Nat)
deriving DecidableEq, Repr

/-- R471: a request by its address and length. -/
def requestOf (a n : Nat) : Request :=
  if n > 64 then .bad 3
  else if (n = 4 ∧ a % 4 = 0) ∨ (n = 8 ∧ a % 8 = 0) ∨ (12 ≤ n ∧ n % 4 = 0 ∧ a % 4 = 0) then .words a (n / 4)
  else if 0 < n ∧ a % 4 + n ≤ 4 then .part (a - a % 4) (a % 4)
  else .bad 1

/-- Successive reads, lowest address first (R472). -/
def State.readWords (s : State) (bar2 : Bool) (a : Nat) : Nat → List Byte × State
  | 0 => ([], s)
  | n + 1 =>
    let x := s.read32 bar2 a
    let y := x.2.readWords bar2 (a + 4) n
    (leBytes 4 x.1.toNat ++ y.1, y.2)

/-- Successive writes, lowest address first (R472). -/
def State.writeWords (s : State) (bar2 : Bool) (a : Nat) (data : List Byte) (run : StartEnv) : Nat → State
  | 0 => s
  | n + 1 =>
    (s.write32 bar2 a (BitVec.ofNat 32 (leNat (data.take 4))) run).writeWords bar2 (a + 4) (data.drop 4) run n

/-- Bytes of the MSI-X table and PBA, as PCI Express reads and writes them (assumption 17). -/
def State.msixBytes (s : State) (a n : Nat) : List Byte :=
  (List.range n).map fun i => (s.msixRead (a + i - (a + i) % 4)).extractLsb' (8 * ((a + i) % 4)) 8

/-- A write of one byte of the MSI-X table merges into its word (assumption 17). -/
def State.msixByte (s : State) (a : Nat) (b : Byte) : State :=
  if a < 0xF8000 then
    let w := a - a % 4
    let sh := 8 * (a % 4)
    let old := s.msixRead w
    s.msixWrite ((w - 0xF0000) / 4) ((old &&& ~~~((0xFF : Reg32) <<< sh)) ||| (b.zeroExtend 32 <<< sh))
  else s

/-- The bytes of a write whose enables are set. -/
def State.msixBytesWrite (s : State) (a : Nat) (data : List (Option Byte)) : State :=
  data.zipIdx.foldl (fun (s : State) (e : Option Byte × Nat) =>
    match e.1 with
    | some b => s.msixByte (a + e.2) b
    | none => s) s

/-- The address lies in the BAR (R465). -/
def inBar (bar2 : Bool) (a : Nat) : Bool := decide (a < (if bar2 then 0x200000 else 0x100000))

/-- A memory read request (R471): its bytes are put out. -/
def execRegisterRead (bar2 : Bool) (addr : BitVec 25) (bytes : Nat) (s : State) : Res :=
  let a := addr.toNat
  if inBar bar2 a then
    .next <|
      match requestOf a bytes with
      | .words f c => let x := s.readWords bar2 f c; x.2.emit (.reply x.1)
      | .part w b =>
        if msixOfs bar2 a then s.emit (.reply (s.msixBytes a bytes))
        else let x := s.readWords bar2 w 1; x.2.emit (.reply ((x.1.drop b).take bytes))
      | .bad 3 => (s.badAccess bar2 a 3).emit .unsupported
      | .bad r =>
        if msixOfs bar2 a then s.emit (.reply (s.msixBytes a bytes))
        else (s.badAccess bar2 a r).emit (.reply (List.replicate bytes 0))
  else .fault .illFormed

/-- A memory write request (R471). -/
def execRegisterWrite (bar2 : Bool) (addr : BitVec 25) (data : List (Option Byte)) (run : StartEnv) (s : State) : Res :=
  let a := addr.toNat
  let full := data.all Option.isSome
  if inBar bar2 a then
    .next <|
      match requestOf a data.length with
      | .bad 3 => s.badAccess bar2 a 3
      | .words f c =>
        if full then s.writeWords bar2 f (data.filterMap id) run c
        else if msixOfs bar2 a then s.msixBytesWrite a data
        else s.badAccess bar2 a 2
      | _ =>
        if msixOfs bar2 a then s.msixBytesWrite a data
        else s.badAccess bar2 a (if full then 1 else 2)
  else .fault .illFormed

end Sys2Proof.Machine
end

