-- ==== Sys2Proof/Machine/Dispatch.lean ====
section
/-!
DEFINITION. The dispatch: one arm per command, each a call of its meaning.
-/

namespace Sys2Proof.Machine

def exec (i : Instr) (s : State) : Host.Outcome State Fault Refusal :=
  match i with
  | .nop c => Sys2Proof.Machine.execNop c s
  | .identify c => Sys2Proof.Machine.execIdentify c s
  | .getLimits c => Sys2Proof.Machine.execGetLimits c s
  | .eventRoute c => Sys2Proof.Machine.execEventRoute c s
  | .instCreate c => Sys2Proof.Machine.execInstCreate c s
  | .instDestroy c => Sys2Proof.Machine.execInstDestroy c s
  | .instReset c => Sys2Proof.Machine.execInstReset c s
  | .instSetShare c => Sys2Proof.Machine.execInstSetShare c s
  | .instQuery c => Sys2Proof.Machine.execInstQuery c s
  | .instFreeze c => Sys2Proof.Machine.execInstFreeze c s
  | .instSave c => Sys2Proof.Machine.execInstSave c s
  | .instRestore c image e => Sys2Proof.Machine.execInstRestore c image e s
  | .instThaw c => Sys2Proof.Machine.execInstThaw c s
  | .portPower c => Sys2Proof.Machine.execPortPower c s
  | .portReset c => Sys2Proof.Machine.execPortReset c s
  | .portSuspend c => Sys2Proof.Machine.execPortSuspend c s
  | .portResume c => Sys2Proof.Machine.execPortResume c s
  | .portStatus c => Sys2Proof.Machine.execPortStatus c s
  | .treeEnumerate c map e => Sys2Proof.Machine.execTreeEnumerate c map e s
  | .nodeInfo c => Sys2Proof.Machine.execNodeInfo c s
  | .nodeBind c => Sys2Proof.Machine.execNodeBind c s
  | .linkMargin c => Sys2Proof.Machine.execLinkMargin c s
  | .linkRate c => Sys2Proof.Machine.execLinkRate c s
  | .flowOpen c safe e a => Sys2Proof.Machine.execFlowOpen c safe e a s
  | .flowClose c => Sys2Proof.Machine.execFlowClose c s
  | .flowModify c safe e => Sys2Proof.Machine.execFlowModify c safe e s
  | .flowQuery c => Sys2Proof.Machine.execFlowQuery c s
  | .planCheck c list e => Sys2Proof.Machine.execPlanCheck c list e s
  | .flowHold c => Sys2Proof.Machine.execFlowHold c s
  | .flowUnhold c a => Sys2Proof.Machine.execFlowUnhold c a s
  | .controlXfer c data e a => Sys2Proof.Machine.execControlXfer c data e a s
  | .timeGet c => Sys2Proof.Machine.execTimeGet c s
  | .timeAdjust c => Sys2Proof.Machine.execTimeAdjust c s
  | .timeSource c => Sys2Proof.Machine.execTimeSource c s
  | .paceConfig c => Sys2Proof.Machine.execPaceConfig c s
  | .paceQuery c => Sys2Proof.Machine.execPaceQuery c s
  | .courseConfig c => Sys2Proof.Machine.execCourseConfig c s
  | .coursePeriodWrite v => Sys2Proof.Machine.execCoursePeriodWrite v s
  | .gangConfig c => Sys2Proof.Machine.execGangConfig c s
  | .gangStatus c => Sys2Proof.Machine.execGangStatus c s
  | .gangJoin c => Sys2Proof.Machine.execGangJoin c s
  | .gangLeave c => Sys2Proof.Machine.execGangLeave c s
  | .modeSet c => Sys2Proof.Machine.execModeSet c s
  | .domainPolicy c => Sys2Proof.Machine.execDomainPolicy c s
  | .ppmConfig c => Sys2Proof.Machine.execPpmConfig c s
  | .ppmRead c => Sys2Proof.Machine.execPpmRead c s
  | .fwStage c data e => Sys2Proof.Machine.execFwStage c data e s
  | .fwCommit c run => Sys2Proof.Machine.execFwCommit c run s
  | .errlogRead c => Sys2Proof.Machine.execErrlogRead c s
  | .traceConfig c => Sys2Proof.Machine.execTraceConfig c s
  | .perturbSet c => Sys2Proof.Machine.execPerturbSet c s
  | .selftest c fails => Sys2Proof.Machine.execSelftest c fails s
  | .getDescriptor d q => Sys2Proof.Machine.execGetDescriptor d q s
  | .setAddress d q => Sys2Proof.Machine.execSetAddress d q s
  | .setConfig d q => Sys2Proof.Machine.execSetConfig d q s
  | .clearHalt d q => Sys2Proof.Machine.execClearHalt d q s
  | .setHalt d q => Sys2Proof.Machine.execSetHalt d q s
  | .getStatus d q => Sys2Proof.Machine.execGetStatus d q s
  | .setPathDelay d q => Sys2Proof.Machine.execSetPathDelay d q s
  | .getPortStatus d q => Sys2Proof.Machine.execGetPortStatus d q s
  | .getPortErrors d q => Sys2Proof.Machine.execGetPortErrors d q s
  | .setPortFeature d q => Sys2Proof.Machine.execSetPortFeature d q s
  | .clearPortFeature d q => Sys2Proof.Machine.execClearPortFeature d q s
  | .setHubTier d q => Sys2Proof.Machine.execSetHubTier d q s
  | .getPortDelay d q => Sys2Proof.Machine.execGetPortDelay d q s
  | .getGangInfo x => Sys2Proof.Machine.execGetGangInfo x s
  | .setGang x => Sys2Proof.Machine.execSetGang x s
  | .flowDoorbell j v => Sys2Proof.Machine.execFlowDoorbell j v s
  | .mailboxDoorbell j v => Sys2Proof.Machine.execMailboxDoorbell j v s
  | .mailboxEnable j v => Sys2Proof.Machine.execMailboxEnable j v s
  | .mailboxConsumerWrite j v => Sys2Proof.Machine.execMailboxConsumerWrite j v s
  | .fetchErrClear j v => Sys2Proof.Machine.execFetchErrClear j v s
  | .cqEnable j q v => Sys2Proof.Machine.execCqEnable j q v s
  | .cqConsumerWrite j q v => Sys2Proof.Machine.execCqConsumerWrite j q v s
  | .sigRaise w v => Sys2Proof.Machine.execSigRaise w v s
  | .sigPendSet w v => Sys2Proof.Machine.execSigPendSet w v s
  | .sigPendClr w v => Sys2Proof.Machine.execSigPendClr w v s
  | .sigMaskSet w v => Sys2Proof.Machine.execSigMaskSet w v s
  | .sigMaskClr w v => Sys2Proof.Machine.execSigMaskClr w v s
  | .sigSrcCfgWrite w v => Sys2Proof.Machine.execSigSrcCfgWrite w v s
  | .sigPrio j v => Sys2Proof.Machine.execSigPrio j v s
  | .stepDownWrite t v => Sys2Proof.Machine.execStepDownWrite t v s
  | .trkLedgerClr t v => Sys2Proof.Machine.execTrkLedgerClr t v s
  | .engStopCmd v => Sys2Proof.Machine.execEngStopCmd v s
  | .errAck v => Sys2Proof.Machine.execErrAck v s
  | .errFatalAck v => Sys2Proof.Machine.execErrFatalAck v s
  | .bootCtrl v run => Sys2Proof.Machine.execBootCtrl v run s
  | .ppmEclr v => Sys2Proof.Machine.execPpmEclr v s
  | .hifLtrWrite v => Sys2Proof.Machine.execHifLtrWrite v s
  | .trcBufRead => Sys2Proof.Machine.execTrcBufRead s
  | .registerWrite bar2 addr data run => Sys2Proof.Machine.execRegisterWrite bar2 addr data run s
  | .presenceChange p level m => Sys2Proof.Machine.execPresenceChange p level m s
  | .attach p => Sys2Proof.Machine.execAttach p s
  | .detach p => Sys2Proof.Machine.execDetach p s
  | .activityDetect p level => Sys2Proof.Machine.execActivityDetect p level s
  | .resetDetect d => Sys2Proof.Machine.execResetDetect d s
  | .chirpReceive p blocks => Sys2Proof.Machine.execChirpReceive p blocks s
  | .resetHoldEnd p => Sys2Proof.Machine.execResetHoldEnd p s
  | .chirpAckReceive d blocks => Sys2Proof.Machine.execChirpAckReceive d blocks s
  | .trainReceive x blocks eye sent => Sys2Proof.Machine.execTrainReceive x blocks eye s sent
  | .blockLockGained x => Sys2Proof.Machine.execBlockLockGained x s
  | .presetRequest p eyeH eyeV => Sys2Proof.Machine.execPresetRequest p eyeH eyeV s
  | .trainingUp p => Sys2Proof.Machine.execTrainingUp p s
  | .trainingTimeout p => Sys2Proof.Machine.execTrainingTimeout p s
  | .blockInError x b origin => Sys2Proof.Machine.execBlockInError x b origin s
  | .blockLockLost x => Sys2Proof.Machine.execBlockLockLost x s
  | .courseStartReceive d b0 b1 b2 residence stamp => Sys2Proof.Machine.execCourseStartReceive d b0 b1 b2 residence stamp s
  | .courseSyncLost d => Sys2Proof.Machine.execCourseSyncLost d s
  | .nodeTimeInvalid d => Sys2Proof.Machine.execNodeTimeInvalid d s
  | .suspendReceive d blocks idle => Sys2Proof.Machine.execSuspendReceive d blocks idle s
  | .portSuspendEntry p => Sys2Proof.Machine.execPortSuspendEntry p s
  | .wakeRecognised x blocks => Sys2Proof.Machine.execWakeRecognised x blocks s
  | .nodeRemoteWake d => Sys2Proof.Machine.execNodeRemoteWake d s
  | .wakeSendEnd p => Sys2Proof.Machine.execWakeSendEnd p s
  | .pingSend p => Sys2Proof.Machine.execPingSend p s
  | .pingReceive d b hold => Sys2Proof.Machine.execPingReceive d b hold s
  | .pongReceive p b rtt late => Sys2Proof.Machine.execPongReceive p b rtt late s
  | .stopReceive x b => Sys2Proof.Machine.execStopReceive x b s
  | .hubDownstreamForward h pkt => Sys2Proof.Machine.execHubDownstreamForward h pkt s
  | .hubUpstreamForward h arrivals => Sys2Proof.Machine.execHubUpstreamForward h arrivals s
  | .outReceive d pkt busy => Sys2Proof.Machine.execOutReceive d pkt busy s
  | .inTokenReceive d pkt sample busy => Sys2Proof.Machine.execInTokenReceive d pkt sample s busy
  | .setupReceive d pkt own => Sys2Proof.Machine.execSetupReceive d pkt s own
  | .nodeHandshakeReceive d pkt => Sys2Proof.Machine.execNodeHandshakeReceive d pkt s
  | .releaseFire d ep => Sys2Proof.Machine.execReleaseFire d ep s
  | .courseBoundary eyes => Sys2Proof.Machine.execCourseBoundary eyes s
  | .marginWindowEnd p => Sys2Proof.Machine.execMarginWindowEnd p s
  | .planMarkedReady => Sys2Proof.Machine.execPlanMarkedReady s
  | .holdoverTick => Sys2Proof.Machine.execHoldoverTick s
  | .ppsEdge stamp fall => Sys2Proof.Machine.execPpsEdge stamp s fall
  | .ppsMissing => Sys2Proof.Machine.execPpsMissing s
  | .ppsLock => Sys2Proof.Machine.execPpsLock s
  | .ppsOutEdge => Sys2Proof.Machine.execPpsOutEdge s
  | .coreClockChange ticks lost => Sys2Proof.Machine.execCoreClockChange ticks lost s
  | .stageWindowOpen ctx course => Sys2Proof.Machine.execStageWindowOpen ctx course s
  | .acceptanceDeadline ctx course => Sys2Proof.Machine.execAcceptanceDeadline ctx course s
  | .ringFetchIssue ctx => Sys2Proof.Machine.execRingFetchIssue ctx s
  | .descriptorArrival ctx j e w => Sys2Proof.Machine.execDescriptorArrival ctx j e w s
  | .stageFetchIssue ctx => Sys2Proof.Machine.execStageFetchIssue ctx s
  | .stageReadComplete ctx j e data => Sys2Proof.Machine.execStageReadComplete ctx j e data s
  | .inputWriteBack ctx j credit => Sys2Proof.Machine.execInputWriteBack ctx j credit s
  | .hostStallOpen j waits => Sys2Proof.Machine.execHostStallOpen j waits s
  | .hostStallClose j => Sys2Proof.Machine.execHostStallClose j s
  | .completionRelease => Sys2Proof.Machine.execCompletionRelease s
  | .dispatchDecision fw => Sys2Proof.Machine.execDispatchDecision s fw
  | .firmwareTaskDispatch core => Sys2Proof.Machine.execFirmwareTaskDispatch core s
  | .delayExpiry ctx => Sys2Proof.Machine.execDelayExpiry ctx s
  | .taskAged ctx => Sys2Proof.Machine.execTaskAged ctx s
  | .engineTaskReturn e => Sys2Proof.Machine.execEngineTaskReturn e s
  | .packetTransmit t check => Sys2Proof.Machine.execPacketTransmit t s check
  | .responseMatch e pkt => Sys2Proof.Machine.execResponseMatch e pkt s
  | .responseWindowClose e => Sys2Proof.Machine.execResponseWindowClose e s
  | .stopInLow ns => Sys2Proof.Machine.execStopInLow ns s
  | .commandTake j e entry => Sys2Proof.Machine.execCommandTake j e entry s
  | .commandStart c => Sys2Proof.Machine.execCommandStart c s
  | .engineEpochAck e j => Sys2Proof.Machine.execEngineEpochAck e j s
  | .instanceQuiescent j => Sys2Proof.Machine.execInstanceQuiescent j s
  | .autoEnumerate p a => Sys2Proof.Machine.execAutoEnumerate p a s
  | .enumFail p => Sys2Proof.Machine.execEnumFail p s
  | .reseatExpired addr => Sys2Proof.Machine.execReseatExpired addr s
  | .hubPortPowerStep h => Sys2Proof.Machine.execHubPortPowerStep h s
  | .hubPortRetryExpiry h p => Sys2Proof.Machine.execHubPortRetryExpiry h p s
  | .gutterDecision => Sys2Proof.Machine.execGutterDecision s
  | .holdoffEnd group member => Sys2Proof.Machine.execHoldoffEnd group member s
  | .coreDeliveryTaken core => Sys2Proof.Machine.execCoreDeliveryTaken core s
  | .powerStateChange d pmeEn => Sys2Proof.Machine.execPowerStateChange d pmeEn s
  | .msixControlChange enable mask => Sys2Proof.Machine.execMsixControlChange enable mask s
  | .vectorUnmask v => Sys2Proof.Machine.execVectorUnmask v s
  | .pacePacketReceive pkt => Sys2Proof.Machine.execPacePacketReceive pkt s
  | .ridgeLockGained => Sys2Proof.Machine.execRidgeLockGained s
  | .ridgeLockLost => Sys2Proof.Machine.execRidgeLockLost s
  | .leaseLost => Sys2Proof.Machine.execLeaseLost s
  | .leaseRestored => Sys2Proof.Machine.execLeaseRestored s
  | .gangDecisionEnd => Sys2Proof.Machine.execGangDecisionEnd s
  | .gangJoinTimeout => Sys2Proof.Machine.execGangJoinTimeout s
  | .gangPortRetry => Sys2Proof.Machine.execGangPortRetry s
  | .estimatorEnable e v => Sys2Proof.Machine.execEstimatorEnable e v s
  | .encoderEdge n a b stamp hold => Sys2Proof.Machine.execEncoderEdge n a b stamp s hold
  | .indexEdge n stamp hold => Sys2Proof.Machine.execIndexEdge n stamp s hold
  | .sourceLost e => Sys2Proof.Machine.execSourceLost e s
  | .estimatorStopped e => Sys2Proof.Machine.execEstimatorStopped e s
  | .sleepRequest dom answers => Sys2Proof.Machine.execSleepRequest dom answers s
  | .deferRetry dom => Sys2Proof.Machine.execDeferRetry dom s
  | .handshakeNoAnswer dom => Sys2Proof.Machine.execHandshakeNoAnswer dom s
  | .standbyEntry answers busy => Sys2Proof.Machine.execStandbyEntry answers busy s
  | .wakeSourceActive n => Sys2Proof.Machine.execWakeSourceActive n s
  | .domainWakeRequest dom => Sys2Proof.Machine.execDomainWakeRequest dom s
  | .domainWakeComplete dom bad run => Sys2Proof.Machine.execDomainWakeComplete dom bad run s
  | .prewake => Sys2Proof.Machine.execPrewake s
  | .bankIdleGate b => Sys2Proof.Machine.execBankIdleGate b s
  | .scrubPass b bad corrected => Sys2Proof.Machine.execScrubPass b bad s corrected
  | .bankRestore b => Sys2Proof.Machine.execBankRestore b s
  | .sramRetRelease => Sys2Proof.Machine.execSramRetRelease s
  | .ppmTick samples => Sys2Proof.Machine.execPpmTick samples s
  | .limitRelease n => Sys2Proof.Machine.execLimitRelease n s
  | .faultTimerExpiry n => Sys2Proof.Machine.execFaultTimerExpiry n s
  | .rampTimeout n => Sys2Proof.Machine.execRampTimeout n s
  | .fastTrip n => Sys2Proof.Machine.execFastTrip n s
  | .ppmRetryExpiry n => Sys2Proof.Machine.execPpmRetryExpiry n s
  | .retriesClear n => Sys2Proof.Machine.execRetriesClear n s
  | .oscillatorStart => Sys2Proof.Machine.execOscillatorStart s
  | .feedGood g b => Sys2Proof.Machine.execFeedGood g b s
  | .feedLost g b => Sys2Proof.Machine.execFeedLost g b s
  | .deadTimeEnd g => Sys2Proof.Machine.execDeadTimeEnd g s
  | .feedReturn g => Sys2Proof.Machine.execFeedReturn g s
  | .blankingEnd g => Sys2Proof.Machine.execBlankingEnd g s
  | .porst run => Sys2Proof.Machine.execPorst run s
  | .wrst run => Sys2Proof.Machine.execWrst run s
  | .startStepTimeout code run => Sys2Proof.Machine.execStartStepTimeout code run s
  | .watchdog run => Sys2Proof.Machine.execWatchdog run s
  | .successWindowEnd => Sys2Proof.Machine.execSuccessWindowEnd s
  | .perstAssert => Sys2Proof.Machine.execPerstAssert s
  | .perstDeassert => Sys2Proof.Machine.execPerstDeassert s
  | .flr => Sys2Proof.Machine.execFlr s
  | .l1ExitRequest => Sys2Proof.Machine.execL1ExitRequest s
  | .wakein n low => Sys2Proof.Machine.execWakein n low s
  | .aoTimer => Sys2Proof.Machine.execAoTimer s
  | .dbgUnlock => Sys2Proof.Machine.execDbgUnlock s
  | .bypass => Sys2Proof.Machine.execBypass s
  | .idcode => Sys2Proof.Machine.execIdcode s
  | .samplePreload pins preload => Sys2Proof.Machine.execSamplePreload pins preload s
  | .extest => Sys2Proof.Machine.execExtest s
  | .clamp => Sys2Proof.Machine.execClamp s
  | .highz => Sys2Proof.Machine.execHighz s
  | .registerRead bar2 addr bytes => Sys2Proof.Machine.execRegisterRead bar2 addr bytes s
  | .firmwareTaskReturn core => Sys2Proof.Machine.execFirmwareTaskReturn core s
  | .fastBankRelease core => Sys2Proof.Machine.execFastBankRelease core s
  | .controlXferTimeout c => Sys2Proof.Machine.execControlXferTimeout c s
  | .stopInRelease => Sys2Proof.Machine.execStopInRelease s
  | .supplyFault n => Sys2Proof.Machine.execSupplyFault n s
  | .surpriseDown ltssm => Sys2Proof.Machine.execSurpriseDown ltssm s
  | .aerUncorrectable status => Sys2Proof.Machine.execAerUncorrectable status s
  | .hubPortOvercurrent h p => Sys2Proof.Machine.execHubPortOvercurrent h p s
  | .aoTick => Sys2Proof.Machine.execAoTick s
  | .nodeReady d => Sys2Proof.Machine.execNodeReady d s
  | .ltrEnable => Sys2Proof.Machine.execLtrEnable s

end Sys2Proof.Machine
end

