-- ==== Sys2Proof/Machine/Tick.lean ====
section
/-!
DEFINITION. One cycle of the core clock: what time alone does (R128).
-/

namespace Sys2Proof.Machine

/-- Bus time and its fraction after one CCLK: 2 ns × (1 + r), with a fraction of 2^-32 ns (R128); the symbol clock goes on by 2 ns. -/
def TimeState.advance (t : TimeState) : TimeState :=
  let add : Nat := ((2 * (1000000000 + t.rate) * 4294967296) / 1000000000).toNat
  let sum := t.frac.toNat + add
  { t with bus := t.bus + BitVec.ofNat 64 (sum / 4294967296), frac := BitVec.ofNat 32 (sum % 4294967296),
           mono := t.mono + 2, cclk := t.cclk + 1 }

/-- One CCLK. While PD_TIME does not run, bus time stands (R142), and the entry window of PD_TIME runs out (R396). -/
def tick (s : State) : State :=
  if s.pmu.doms[10] == .on then { s with time := s.time.advance } else { s with pmu := { s.pmu with window := s.pmu.window - 1 } }

end Sys2Proof.Machine
end

