-- ==== Sys2Proof/Safety.lean ====
section
/-!
DEFINITION. What counts as a safe state and a safe run: the tables of the state are in their one canonical form, a latched stop and Run
exclude each other, and every step ends in a next state; and when a command of a mailbox is ready to do its work.
-/

namespace Sys2Proof.Machine

/-- What the power manager and the stop latch hold of modes: the latch, the mode, the mode under way, and that of the entry under way. -/
structure Drive where
  latched : Bool
  mode : Mode
  target : Mode
  changing : Bool
  entry : Option Mode

/-- The drive of a state. -/
def State.drive (s : State) : Drive :=
  ⟨s.stop.latched, s.pmu.mode, s.pmu.target, s.pmu.changing, s.pmu.entry.map (·.mode)⟩

/-- No drive that could be or come to Run under a latched stop: Run excludes the latch (R271, R275), a wake never leads to Run, and an
entry leads to a mode without courses (R392). -/
structure Drive.Ok (d : Drive) : Prop where
  /-- Run and the latch exclude each other. -/
  run : d.latched = true → d.mode ≠ .run
  /-- What is being woken for is not Run. -/
  wake : d.changing = true → d.target ≠ .run
  /-- An entry leads to Standby or Dormant. -/
  entry : ∀ m, d.entry = some m → m.courses = false

/-- A sound state: the sparse tables are sorted, so that equal tables are equal data, and the drive is in order. -/
structure State.Sound (s : State) : Prop where
  regs : ksorted s.regs = true
  flows : ksorted s.flows = true
  insts : ksorted s.insts = true
  drive : s.drive.Ok

/-- A command of a mailbox that has started stands before its own work: its entry keeps the frame of its table rows, its issuer may
issue it, and the mode is one of its modes (R280, R291–R293). What it asks of the values of its parameters is not said here. -/
def State.standsReady (s : State) (c : CmdRef) (t : Taken) (fr : Frame) : Bool :=
  s.taken c == some t && t.started && !t.copies && !t.waiting && t.opcode == fr.opcode && s.serves c.inst.val && s.knows t.opcode &&
    (fr.reserved t).isEmpty && (!fr.manager || c.inst.val == 0) && fr.modes.contains s.pmu.mode

end Sys2Proof.Machine

namespace Sys2Proof

open Sys2Proof.Machine

/-- A run of `n` steps that ends in a state. -/
def runsSafely (n : Nat) (s : State) : Prop := ∃ t, Host.Core.run core n s = .next t

end Sys2Proof
end

