-- ==== Sys2Proof/Machine/Ready.lean ====
section
/-!
DEFINITION. What a command of a mailbox names, where it is ready to do its own work: a port that is there, a flow of its issuer.
-/

namespace Sys2Proof.Machine

/-- A command that names instance `n`: the state `r` it leads to where MAX_INSTANCES lets the part have that instance, BAD_PARAM at byte 8
where it does not (R317). -/
def State.within (s : State) (c : CmdRef) (n : Nat) (r : State) : State := if n < maxInstances then r else s.done c stBadParam [] 8

/-- A command that is ready names, by its port address (R294), the port `p`, which stands at `x`. -/
def State.portReady (s : State) (c : CmdRef) (t : Taken) (fr : Frame) (p : PortRef) (x : Port) : Bool :=
  s.standsReady c t fr && (match paPort t.entry with | .ok q => q == p | .error _ => false) && s.portThere p && s.port p == some x &&
    (s.paBad t).all fun b => !b.2

/-- A command that is ready names, at bytes 8 and 9, the flow `f` of its issuer, in the context `ctx` (R314). -/
def State.flowReady (s : State) (c : CmdRef) (t : Taken) (fr : Frame) (ctx : Nat) (f : Flow) : Bool :=
  s.standsReady c t fr && s.flowOf c.inst.val t == some (ctx, f)

/-- A command that is ready names, at bytes 10 and 11, the node `n`, which is present, by its address; its issuer is the manager or the node
is bound to it (R291). -/
def State.nodeReady (s : State) (c : CmdRef) (t : Taken) (fr : Frame) (n : NodeRec) : Bool :=
  s.standsReady c t fr && !badNode (t.arg 10 2) && kget s.nodes (t.arg 10 2) == some n && n.present && s.boundNode c.inst.val (t.arg 10 2)

/-- The node at `n` stands at `x`, answers packets, and `q` does not repeat the SETUP of its unfinished transfer (R84). -/
def State.setupReady (s : State) (n : Pos) (q : Setup) (x : Device) : Bool :=
  s.dev n == some x && x.answers && !(match x.ctrl with | some c => c.setup == q && c.stage != .done | none => false)

/-- The state in which a node performs the request of a SETUP: what an earlier transfer left is gone (R84). -/
def State.setupStart (s : State) (n : Pos) : State :=
  s.modDev n fun y => { y with ctrl := none, stalled0 := false, addrNext := none }

/-- A node has performed a request: it holds the transfer, with the data a read returns, and answered ACK (R84). -/
def State.setupTaken (s : State) (n : Pos) (q : Setup) (x : Device) (reply : List Word) : State :=
  (s.modDev n fun y => { y with ctrl := some (ctrlStart q reply) }).shake (.node n) x.address hsAck 0 0

/-- A node has refused a request: its endpoint 0 is stalled and it answered STALL (R84, R85). -/
def State.setupStalled (s : State) (n : Pos) (x : Device) : State :=
  ((s.setupStart n).modDev n fun y => { y with stalled0 := true }).shake (.node n) x.address hsStall 0 0

/-- The node at `n` stands at `x`, answers packets, and `q` repeats the SETUP of its unfinished transfer (R84). -/
def State.setupRepeats (s : State) (n : Pos) (q : Setup) (x : Device) : Bool :=
  s.dev n == some x && x.answers && (match x.ctrl with | some c => c.setup == q && c.stage != .done | none => false)

/-- GB has performed a request: it answered ACK, a new address is in force, and the data that a read returns went out (R84, R365). -/
def State.gbTaken (s : State) (a : BitVec 12) (reply : List Word) : State :=
  let u := (s.shake .gb a hsAck 0 0).modDevAt .gb fun y => { y with addr := y.addrNext.or y.addr, addrNext := none }
  if reply.isEmpty then u else u.sendData .gb 0 a 0 1 reply true

end Sys2Proof.Machine
end

