-- ==== Sys2Proof/Certificates/Slice0/Obligations.lean ====
section
/-!
DEFINITION. The statements about the model, for the provers. A statement that says where a command completes has the command's meaning on its
left and the next state on its right, so that what the right side does not change is the frame.
-/

section

open Sys2Proof Sys2Proof.Machine

/-! ## The machine as a whole -/

/-- A step carries out the command at the front of the queue, with the queue's rest. The queue itself is the model's form of a block that
takes commands from outside (assumption 1). -/
def Obligations.StepRunsTheFrontCommand : Prop :=
  ∀ (c : Instr) (rest : List Instr) (s : State), s.pending = c :: rest → step s = exec c { s with pending := rest }

/-- On an empty queue a step is one cycle of the core clock (assumption 1). While PD_TIME runs, bus time with its fraction of 2^-32 ns grows by 2
ns × (1 + r) (R128), r being the rate offset in 10^-9, and nothing but time changes; while PD_TIME does not run, time stands, and the entry
window of PD_TIME runs out (R396). -/
def Obligations.IdleStepAdvancesBusTimeOnly : Prop :=
  ∀ s : State, s.pending = [] →
    (s.pmu.doms[10] ≠ .on → step s = .next { s with pmu := { s.pmu with window := s.pmu.window - 1 } }) ∧
    (s.pmu.doms[10] = .on → -1000000000 ≤ s.time.rate →
      ∃ t : TimeState, step s = .next { s with time := t } ∧
        t = { s.time with bus := t.bus, frac := t.frac, mono := s.time.mono + 2, cclk := s.time.cclk + 1 } ∧
        (t.bus.toNat * 2 ^ 32 + t.frac.toNat) % 2 ^ 96 =
          (s.time.bus.toNat * 2 ^ 32 + s.time.frac.toNat + (2 * (1000000000 + s.time.rate).toNat * 2 ^ 32) / 1000000000) % 2 ^ 96)

/-- What reset leaves of what the spec states: a cold start in progress at step 1 (R432), every port OFF (R90, R426), every GEN_n low and no
feed selected (R426), course count and bus time at 0 and quality UNSET (R123, R145, R432), the manager ACTIVE and every other instance FREE
(R317, R322), every source masked and none pending (R348), no record and no stop (R454), every register at its reset value (R4). -/
def Obligations.ResetState : Prop :=
  (State.reset.boot.start.map fun r => (r.kind, r.warm, r.step)) = some (.porst, false, 1) ∧
  (∀ k : Fin 16, State.reset.ports[k].state = .off ∧ State.reset.ppm[k].gen = false ∧ State.reset.ppm[k].pg = false ∧
    State.reset.ppm[k].phase = .off) ∧
  (∀ g : Fin 4, State.reset.feeds[g].sel = .none ∧ State.reset.feeds[g].aEn = false ∧ State.reset.feeds[g].bEn = false) ∧
  State.reset.course.running = false ∧ State.reset.course.count = 0 ∧ State.reset.time.bus = 0 ∧ State.reset.time.quality = .unset ∧
  (State.reset.inst 0).state = .active ∧ (∀ i : Nat, i ≠ 0 → (State.reset.inst i).state = .free) ∧
  State.reset.gutter.pend = 0 ∧ State.reset.gutter.mask = BitVec.allOnes 2048 ∧
  (∀ c : Fin 7, State.reset.errs.recs[c].valid = false) ∧ State.reset.errs.fatal.valid = false ∧ State.reset.stop.latched = false ∧
  (∀ (r : Reg) (n k : Nat), State.reset.reg r k n = r.reset)

/-- The state after reset is sound. -/
def Obligations.ResetStateIsSound : Prop := State.reset.Sound

/-- Every step from a sound state that ends in a state ends in a sound one: the sparse tables keep their canonical form, and Run and the latched
stop exclude each other, whatever the command (R271, R275, R392). -/
def Obligations.EveryStepKeepsTheStateSound : Prop := ∀ s t : State, s.Sound → step s = .next t → t.Sound

/-- A command takes no other command from the queue and adds none, and what has been put out stays put out. -/
def Obligations.CommandsKeepTheQueueAndTheLog : Prop :=
  ∀ (c : Instr) (s t : State), exec c s = .next t → t.pending = s.pending ∧ s.out <:+ t.out

/-- While the stop is latched no command brings the machine into Run (R275): a sound state with the latch set is not in Run, and no step takes
it there with the latch still set. -/
def Obligations.LatchedStopExcludesRun : Prop :=
  ∀ s : State, s.Sound → (s.stop.latched = true → s.pmu.mode ≠ .run) ∧
    ∀ t : State, step s = .next t → t.stop.latched = true → t.pmu.mode ≠ .run

/-- R440, over every step: the rollback level in OTP never decreases and KEY0_REVOKED stays blown; the end of a success window, and of no start
in progress, advances the level to the ROLLBACK of the image that runs (which the OTP can show, 64 at most), and with KEY1 and a
ROLLBACK of at least 1 blows KEY0_REVOKED. -/
def Obligations.RollbackLevelOnlyAdvances : Prop :=
  (∀ s t : State, step s = .next t →
    s.boot.rollback ≤ t.boot.rollback ∧ (s.boot.key0Revoked = true → t.boot.key0Revoked = true)) ∧
  (∀ s : State, s.boot.window = true → s.boot.start = none → (s.boot.slot s.boot.running).rollback ≤ 64 →
    ∃ t : State, exec .successWindowEnd s = .next t ∧
      t.rollbackLevel = max s.rollbackLevel (s.boot.slot s.boot.running).rollback.toNat ∧
      t.boot.key0Revoked = (s.boot.key0Revoked || ((s.boot.slot s.boot.running).key == 1 &&
        decide (1 ≤ (s.boot.slot s.boot.running).rollback))) ∧
      t.boot.window = false ∧ t.boot.healthy = true ∧ t = { s with boot := t.boot })

/-! ## Codes on the links -/

/-- A block holds its sync header, its payload and the check over the payload (R30): read back, the payload and the header are those given and
the check holds; a block with one bit of its payload or check inverted fails its check. -/
def Obligations.BlocksCarryTheirCheck : Prop :=
  ∀ (h : BitVec 2) (p : Word),
    Block.sync (mkBlock h p) = h ∧ Block.payload (mkBlock h p) = p ∧ Block.checkOk (mkBlock h p) = true ∧
    (∀ k : Fin 38, Block.checkOk (mkBlock h p ^^^ BitVec.ofNat 40 (2 ^ k.val)) = false)

/-- A receiver reads back every packet and handshake as it was built, when every block arrives intact (R62, R63, R69, R70, R71): data packets of
up to 127 words, tokens, handshakes with a code that is not reserved, and bulk handshakes with any credit. -/
def Obligations.PacketsReadBackAsBuilt : Prop :=
  (∀ (h : Header) (payload : List Word) (last : Bool), h.ty = tOut ∨ h.ty = tSetup ∨ h.ty = tData → payload.length = h.len → h.len < 128 →
    parsePacket ((dataPacket h payload last).map some) = .data h payload last false) ∧
  (∀ h : Header, h.ty = tIn → h.len < 128 → parsePacket ((tokenPacket h).map some) = .token h) ∧
  (∀ k : Shake, k.bulk = true ∨ (1 ≤ k.code ∧ k.code ≤ hsNyet) → parsePacket [some k.word] = .shake k)

/-- The route string counts hub ports from the trunk, one nibble for each tier, and is zero below the addressee (R65): every nibble is the port
taken at its tier, and 0 where the path has ended; two places of one trunk and one depth up to 4 with the same route are the same place. The
port address of R294 reads back: every root port, and every port of a hub at tier 1 to 4, at bytes 8 to 12 of a command entry. -/
def Obligations.RoutesAndPortAddressesReadBack : Prop :=
  (∀ (d : Pos) (i : Fin 4), bitsOf d.route.toNat (15 - 4 * i.val) (12 - 4 * i.val) = ((d.path[i.val]?).map (·.val)).getD 0) ∧
  (∀ d e : Pos, d.trunk = e.trunk → d.path.length = e.path.length → d.path.length ≤ 4 → d.route = e.route → d = e) ∧
  (∀ (p : PortRef) (head tail : List Byte), head.length = 8 →
    (match p with
      | .root _ => True
      | .ga => False
      | .hub h _ => h.path.length ≤ 3) →
    paPort (head ++ paBytes p ++ tail) = .ok p)

/-! ## Registers -/

/-- Storing a field changes that field and nothing else: it reads back cut to its width, every field of the register that does not overlap it and
every other register keep their values, and all of the state but the stored registers is as it was. -/
def Obligations.StoringAFieldChangesItAlone : Prop :=
  ∀ (s : State) (r : Reg) (f g : Fld) (x k n : Nat), ksorted s.regs = true → f ∈ r.fields → g ∈ r.fields → f ≠ g →
    (s.setFld f x k n).fld f k n = x % 2 ^ f.width ∧ (s.setFld f x k n).fld g k n = s.fld g k n ∧
    (∀ (q : Reg) (j m : Nat), q.key m j ≠ r.key n k → (s.setFld f x k n).reg q j m = s.reg q j m) ∧
    s.setFld f x k n = { s with regs := (s.setFld f x k n).regs }

/-! ## Completions -/

/-- A command completes with one entry (R283, R284), here while the host function takes posted writes and nothing waits before it, for a
command without SIG in a mailbox without EVERY and without a duplicate that waits: 32 bytes at the write position, with TAG, STATUS, OPCODE,
20 bytes of result, PERTURBED, BAD_BYTE and the phase bit; the write index moves on, the command leaves the taken ones, its tag's cached
outcome is noted; and nothing else changes. -/
def Obligations.CompletionIsOneEntry : Prop :=
  ∀ (s : State) (c : CmdRef) (t : Taken) (status : Nat) (result : List Byte) (bad : Nat),
    ksorted s.insts = true → s.taken c = some t → s.canPost = true → s.hostq = [] → s.boot.dmaRefused = false →
    t.flags % 2 = 0 → s.flag .INST_MB_CFG_EVERY 0 c.inst.val = false → (∀ u ∈ (s.inst c.inst.val).mb.taken, u.copies = false) →
    ∃ m : Mailbox,
      s.done c status result bad =
        { s with
          insts := kput Instance.init s.insts c.inst.val { s.inst c.inst.val with mb := m }
          out := .hostWrite (s.pasidOf c.inst.val)
            (BitVec.ofNat 64 (s.pair .INST_MB_CPL_BASE_LO .INST_MB_CPL_BASE_HI 0 c.inst.val + 32 * ((s.inst c.inst.val).mb.write.toNat %
              2 ^ s.fld .INST_MB_CFG_CPL_SIZE 0 c.inst.val)))
            (leBytes 4 t.tag.toNat ++ leBytes 2 status ++ leBytes 2 t.opcode ++ result20 result ++
              [(if s.perturbed || t.pertOn || s.ptbSeq != t.pertSeq then 2 else 0), BitVec.ofNat 8 bad, 0,
                if (s.inst c.inst.val).mb.phase then 0x80 else 0]) :: s.out } ∧
      m.write = (s.inst c.inst.val).mb.write + 1 ∧
      m.phase = (if ((s.inst c.inst.val).mb.write + 1).toNat % 2 ^ s.fld .INST_MB_CFG_CPL_SIZE 0 c.inst.val = 0
        then !(s.inst c.inst.val).mb.phase else (s.inst c.inst.val).mb.phase) ∧
      m.taken = (s.inst c.inst.val).mb.taken.filter (·.idx != c.idx) ∧ m.prod = (s.inst c.inst.val).mb.prod ∧
      m.fetch = (s.inst c.inst.val).mb.fetch ∧ m.eventSeq = (s.inst c.inst.val).mb.eventSeq ∧ m.lost = (s.inst c.inst.val).mb.lost

/-- The checks common to every command come in the order of R293: a reserved or unusable byte ends the command BAD_PARAM with the lowest such
byte in BAD_BYTE, then an issuer that may not issue it NOT_PERMITTED, then a mode outside its modes WRONG_MODE; and only past all of them does
the command do its own work. Whether a command has started and is served is outside these checks. -/
def Obligations.CommonChecksComeInOrder : Prop :=
  ∀ (s : State) (c : CmdRef) (t : Taken) (fr : Frame) (ranges : Taken → List (Nat × Bool)) (permitted : Taken → Bool)
    (act : Taken → State),
    s.taken c = some t → t.started = true → t.copies = false → t.waiting = false → t.opcode = fr.opcode →
    s.serves c.inst.val = true → s.knows t.opcode = true →
    (∀ b : Nat, (b ∈ fr.reserved t ∨ (b, true) ∈ ranges t) → (∀ x : Nat, (x ∈ fr.reserved t ∨ (x, true) ∈ ranges t) → b ≤ x) →
      s.command c fr ranges permitted act = s.done c stBadParam [] b) ∧
    (fr.reserved t = [] → (∀ x ∈ ranges t, x.2 = false) →
      (((fr.manager = true ∧ c.inst.val ≠ 0) ∨ permitted t = false) →
        s.command c fr ranges permitted act = s.done c stNotPermitted []) ∧
      ((fr.manager = false ∨ c.inst.val = 0) → permitted t = true →
        (s.pmu.mode ∉ fr.modes → s.command c fr ranges permitted act = s.done c stWrongMode []) ∧
        (s.pmu.mode ∈ fr.modes → s.command c fr ranges permitted act = act t)))


/-! ## Commands of a mailbox: each does its own work where it is ready -/

/-- Commands that only report (R295, R297, R304, R307, R308): NOP, IDENTIFY, GET_LIMITS by both kinds of page, INST_QUERY, TIME_GET, GANG_STATUS
and PPM_READ complete OK with the bytes of their tables and change nothing else. Silicon 0xB0 and command set 1.4 are this device's. -/
def Obligations.ReportsCompleteWithTheirTables : Prop :=
  ∀ (s : State) (c : CmdRef) (t : Taken),
    (s.standsReady c t ⟨0x0001, [], modesAll, false⟩ = true → exec (.nop c) s = .next (s.done c stOk [])) ∧
    (s.standsReady c t ⟨0x0002, [], modesAll, false⟩ = true →
      exec (.identify c) s = .next (s.done c stOk ([0x12, 0x75, 0xB0] ++
        (if s.boot.rom then [5, 0xFF, 0xFF, 0xFF] else
          [BitVec.ofNat 8 s.pmu.mode.code, BitVec.ofNat 8 (s.fwImage / 65536), BitVec.ofNat 8 (s.fwImage / 256), BitVec.ofNat 8 s.fwImage]) ++
        [1, 4, s.gang.effMinor] ++ leBytes 2 c.inst.val ++
        [BitVec.ofNat 8 (ptbDisable.toNat + 2 * gangAllowed.toNat + 4 * (s.flag .PTB_CFG_RUN_ENABLE).toNat), 0] ++ leBytes 2 maxInstances))) ∧
    (s.standsReady c t ⟨0x0003, [(8, 1, 0xFF)], modesAll, false⟩ = true →
      (t.arg 8 1 = 0xFF → exec (.getLimits c) s = .next (s.done c stOk
        (leBytes 2 (s.inst c.inst.val).shares.ctx ++ leBytes 2 (s.ctxUse c.inst.val) ++ leBytes 4 (s.inst c.inst.val).shares.words ++
          leBytes 4 (s.stageUse c.inst.val) ++ [BitVec.ofNat 8 (s.inst c.inst.val).shares.blocks.length,
            BitVec.ofNat 8 (s.inst c.inst.val).shares.weight] ++ leBytes 2 (s.inst c.inst.val).shares.vecFirst ++
          leBytes 2 (s.inst c.inst.val).shares.vecs ++ leBytes 2 (s.domsUsed c.inst.val).length))) ∧
      (∀ k : Fin 16, t.arg 8 1 = k.val → exec (.getLimits c) s = .next (s.done c stOk
        (leBytes 2 (s.inst c.inst.val).shares.slots[k] ++ leBytes 2 (s.slotUse c.inst.val k))))) ∧
    (s.standsReady c t ⟨0x0105, [(8, 2, 0xFFFF), (10, 1, 0xFF)], modesAll, true⟩ = true → ∀ i : Nat, t.arg 8 2 = i → i < 512 →
      (t.arg 10 1 = 0 → exec (.instQuery c) s = .next (s.done c stOk
        ([(match (s.inst i).state with | .free => 0 | .active => 1 | .resetting => 2 | .frozen => 3 : Byte), 0] ++
          leBytes 3 (if i = 0 then s.fld .INST_MGR_CFG_PASID else (s.inst i).pasid.toNat) ++ [0] ++ leBytes 2 (s.ctxUse i) ++
          leBytes 4 (s.stageUse i) ++ leBytes 4 (s.inst i).epoch.toNat ++ leBytes 4 (s.inst i).stall.cnt.toNat))) ∧
      (t.arg 10 1 = 1 → exec (.instQuery c) s = .next (s.done c stOk
        (leBytes 8 (s.inst i).stall.openAt.toNat ++ leBytes 8 (s.inst i).stall.closeAt.toNat)))) ∧
    (s.standsReady c t ⟨0x0401, [], modesSURHV, false⟩ = true →
      exec (.timeGet c) s = .next (s.done c stOk (leBytes 8 s.time.bus.toNat ++ [BitVec.ofNat 8 s.time.quality.code,
        BitVec.ofNat 8 s.timeFlags] ++ leBytes 4 s.uncertNs ++ leBytes 4 (s.course.count.toNat % 2 ^ 32) ++ [BitVec.ofNat 8 s.timeSource]))) ∧
    (s.standsReady c t ⟨0x0502, [], modesAll, false⟩ = true →
      exec (.gangStatus c) s = .next (s.done c stOk (s.gang.brief ++ leBytes 4 s.gang.digest.toNat ++ leBytes 4 (sat32 s.gang.offset) ++
        [s.gang.effMinor, BitVec.ofNat 8 (s.gang.members % 256)]))) ∧
    (s.standsReady c t ⟨0x0604, [(8, 1, 0xFF)], modesAll, false⟩ = true → ∀ n : Fin 16, t.arg 8 1 = n.val →
      (c.inst.val = 0 ∨ s.boundPort c.inst.val (.root n) = true) →
      exec (.ppmRead c) s = .next (s.done c stOk (leBytes 2 (s.fld .PPM_MEAS_I n.val) ++ leBytes 2 (s.fld .PPM_MEAS_V n.val) ++
        leBytes 4 (s.fld .PPM_POWER_P n.val) ++ leBytes 6 s.ppm[n].energy.toNat ++
        [BitVec.ofNat 8 s.ppm[n].phase.code, BitVec.ofNat 8 s.ppm[n].cause.code, s.ppm[n].retries])))

/-- PACE_QUERY of an estimator, FLOW_QUERY by its three pages, NODE_INFO and PORT_STATUS of a root port complete OK (R298, R301, R306).
FLOW_QUERY answers for a flow that is closing too; NODE_INFO with a buffer posts the node's descriptors, eight bytes for each word. -/
def Obligations.LookupsCompleteWithTheirPages : Prop :=
  ∀ (s : State) (c : CmdRef) (t : Taken),
    (s.standsReady c t ⟨0x0405, [(8, 1, 0xFF), (9, 1, 0xFF), (10, 2, 0xFFFF)], modesURHV, false⟩ = true →
      t.arg 8 1 ≤ 7 → t.arg 9 1 ≤ 1 → t.arg 10 2 = 0xFFFF → exec (.paceQuery c) s = .next (s.done c stOk (s.pacePage t none))) ∧
    (∀ (ctx : Nat) (f : Flow), s.flowReady c t ⟨0x0304, [(8, 2, 0x1FFF), (10, 1, 0xFF)], modesAll, false⟩ ctx f = true →
      (t.arg 10 1 = 0 → exec (.flowQuery c) s = .next (s.done c stOk
        ([if f.closing then 2 else if s.causeBits f ≠ 0 then 1 else 0, 0] ++ leBytes 2 (s.causeBits f) ++ leBytes 2 ctx ++
          leBytes 2 f.prod.toNat ++ leBytes 2 f.cons.toNat ++ leBytes 2 ((f.slots.head?.bind fun x => x.2.head?).getD 0) ++
          leBytes 2 ((f.laps.head?.bind fun x => x.2.head?).getD 0xFFFF) ++ leBytes 2 (min 0xFFFF f.counts.badDesc) ++
          [BitVec.ofNat 8 f.par.q, BitVec.ofNat 8 f.toggleUnknown.toNat]))) ∧
      (t.arg 10 1 = 1 → exec (.flowQuery c) s = .next (s.done c stOk
        (([f.counts.underrun, f.counts.notAccepted, f.counts.held, f.counts.retryDenied, f.counts.lasting].map fun n =>
          leBytes 4 (min 0xFFFFFFFF n)).flatten))) ∧
      (t.arg 10 1 = 2 → f.par.ty.paced = true → exec (.flowQuery c) s = .next (s.done c stOk
        (leBytes 6 (BitVec.ofInt 48 (f.due.getD 0)).toNat ++
          ([f.counts.angleWait, f.counts.overrate, f.counts.angleErrMax, f.counts.angleVoid].map fun n =>
            leBytes 4 (min 0xFFFFFFFF n)).flatten)))) ∧
    (∀ n : NodeRec, s.nodeReady c t ⟨0x0207, [(10, 2, 0x0FFF), (16, 8, 2 ^ 64 - 1)], modesAll, false⟩ n = true → t.arg 16 8 % 64 = 0 →
      exec (.nodeInfo c) s = .next ((if t.arg 16 8 = 0 then s
          else State.postBytes (s.pasidOf c.inst.val) n.desc.length (t.arg 16 8) (laneBytes n.desc) s).done c stOk
        (leBytes 8 (identOf n.desc).toNat ++ leBytes 2 (genOf n.desc).toNat ++
          [BitVec.ofNat 8 (classOf n.desc), BitVec.ofNat 8 (wbits ((n.desc[3]?).getD 0) 11 8), BitVec.ofNat 8 (wbits ((n.desc[3]?).getD 0) 6 0),
            BitVec.ofNat 8 (wbits ((n.desc[4]?).getD 0) 35 32), BitVec.ofNat 8 (n.pos.trunk.val + n.pos.path.length * 16), 0] ++
          leBytes 2 n.pos.route.toNat ++ leBytes 2 (match kget s.binds (t.arg 10 2) with | some b => b.inst | none => 0xFFFF)))) ∧
    (∀ (k : Fin 16) (x : Port), s.portReady c t (paFrame 0x0205 modesAll false []) (.root k) x =
        true → t.arg 9 1 = 0 → s.routedPort c.inst.val (.root k) = true →
      exec (.portStatus c) s = .next (s.done c stOk (s.portStatus (.root k) x)))


/-- EVENT_ROUTE (R311) sets, for each named event code, whether it enters the completion ring and whether it raises, and the source it raises,
and leaves the other codes as they were; the result is the codes enabled afterwards. Code 0 is no event and cannot be named. -/
def Obligations.EventRouteSetsTheNamedCodes : Prop :=
  ∀ (s : State) (c : CmdRef) (t : Taken), ksorted s.insts = true →
    s.standsReady c t ⟨0x0004, [(8, 4, 0x000FFFFE), (12, 2, 0xFFFF), (14, 1, 3)], modesAll, false⟩ = true →
    ((t.arg 14 1).testBit 1 = true → s.nameable c.inst.val (t.arg 12 2) = true) → ((t.arg 14 1).testBit 1 = false → t.arg 12 2 = 0) →
    ∃ r : Routes,
      exec (.eventRoute c) s = .next ((s.modInst c.inst.val fun x => { x with routes := r }).done c stOk (leBytes 4 r.enabled.toNat)) ∧
      ∀ k : Nat, k < 32 →
        r.enabled.getLsbD k = (if (t.arg 8 4).testBit k then (t.arg 14 1).testBit 0 else (s.inst c.inst.val).routes.enabled.getLsbD k) ∧
        r.signalled.getLsbD k = (if (t.arg 8 4).testBit k then (t.arg 14 1).testBit 1 else (s.inst c.inst.val).routes.signalled.getLsbD k) ∧
        kget r.src k = (if (t.arg 8 4).testBit k && (t.arg 14 1).testBit 1 then some (t.arg 12 2) else kget (s.inst c.inst.val).routes.src k)

/-- ERRLOG_READ, SELFTEST, PERTURB_SET and TRACE_CONFIG complete OK where they are ready (R309, R310). ERRLOG_READ returns the record of its
category, and with ACK the record's VALID, OVERFLOW and COUNT clear; a self test's failures are the operand's; PERTURB_SET on a device whose
fuse PTB_DISABLE is set ends NOT_PERMITTED; TRACE_CONFIG applies SIZE and RING_BASE to a ring only. -/
def Obligations.ServiceCommandsComplete : Prop :=
  ∀ (s : State) (c : CmdRef) (t : Taken),
    (s.standsReady c t ⟨0x0703, [(8, 1, 0xFF), (9, 1, 1)], modesAll, true⟩ = true → ∀ k : Fin 7, t.arg 8 1 = k.val →
      exec (.errlogRead c) s = .next ((if t.arg 9 1 = 1 then
          { s with errs := { s.errs with recs := s.errs.recs.set k.val { s.errs.recs[k] with valid := false, overflow := false, count := 0 } } }
        else s).done c stOk
        (leBytes 8 s.errs.recs[k].time.toNat ++ leBytes 2 s.errs.recs[k].code.toNat ++ [s.errs.recs[k].source, s.errs.recs[k].seq,
          BitVec.ofNat 8 s.errs.recs[k].flags, 0] ++ leBytes 2 s.errs.recs[k].count.toNat ++ leBytes 4 s.errs.recs[k].detail.toNat))) ∧
    (s.standsReady c t ⟨0x0706, [(8, 4, 0xFF)], [.service], true⟩ = true →
      ((t.arg 8 4).testBit 3 = true → ∀ k : Fin 16, s.ports[k].state = .off ∨ s.ports[k].state = .fault) → ∀ fails : BitVec 32,
      exec (.selftest c fails) s = .next (s.done c stOk
        (leBytes 4 (t.arg 8 4 - (t.arg 8 4 &&& fails.toNat)) ++ leBytes 4 (t.arg 8 4 &&& fails.toNat)))) ∧
    (s.standsReady c t ⟨0x0705, [(8, 1, 0xFF), (9, 1, 1), (10, 2, 0xFFFF), (12, 4, 0xFFFFFFFF)],
        if s.flag .PTB_CFG_RUN_ENABLE then [.service, .run] else [.service], true⟩ = true → (perturbRanges t).all (fun b => !b.2) = true →
      ∃ u : State,
        u = (if t.arg 8 1 = 0 then s.perturbClear else if t.arg 9 1 = 1 then s.perturbOn (t.arg 8 1) (t.arg 10 2) (t.arg 12 4)
          else s.perturbOff (t.arg 8 1) (t.arg 10 2)).ptbRefresh ∧
        exec (.perturbSet c) s = .next (if ptbDisable then s.done c stNotPermitted [] else u.done c stOk [BitVec.ofNat 8 u.ptbControls])) ∧
    (s.standsReady c t ⟨0x0704, [(8, 1, 0x0F), (9, 1, 0xFF), (10, 2, 0x81FF), (12, 2, 0xFFFF), (14, 1, 1), (15, 1, 0x1F),
        (16, 8, 0xFFFFFFFFFFFFFFFF)], modesURHV, true⟩ = true →
      ((t.arg 8 1).testBit 1 = false → t.arg 9 1 = 0 → t.arg 16 8 = 0 →
        exec (.traceConfig c) s = .next (((((((((s.traceEnable false).setFld .TRC_CTRL_DEST 0).setFld .TRC_CTRL_STOP_FULL
          (t.arg 8 1 / 4)).setFld .TRC_CTRL_EVENTS (t.arg 8 1 / 8)).setFld .TRC_FILT_INST_INST (t.arg 10 2)).setFld .TRC_FILT_INST_ALL
          (t.arg 10 2 / 2 ^ 15)).setFld .TRC_FILT_TRUNK_TRUNKS (t.arg 12 2)).setFld .TRC_FILT_TRUNK_NO_TRUNK (t.arg 14 1)).setReg
          .TRC_FILT_CLASS (BitVec.ofNat 32 (t.arg 15 1)) |>.traceEnable (t.arg 8 1 % 2 == 1) |>.done c stOk [])) ∧
      ((t.arg 8 1).testBit 1 = true → 6 ≤ t.arg 9 1 → t.arg 9 1 ≤ 20 → t.arg 16 8 % 64 = 0 →
        exec (.traceConfig c) s = .next ((((((((((((s.traceEnable false).setFld .TRC_CTRL_DEST 1).setFld .TRC_CTRL_STOP_FULL
          (t.arg 8 1 / 4)).setFld .TRC_CTRL_EVENTS (t.arg 8 1 / 8)).setFld .TRC_RING_CFG_SIZE (t.arg 9 1)).setReg .TRC_RING_BASE_LO
          (BitVec.ofNat 32 (t.arg 16 8))).setReg .TRC_RING_BASE_HI (BitVec.ofNat 32 (t.arg 16 8 / 2 ^ 32))).setFld .TRC_FILT_INST_INST
          (t.arg 10 2)).setFld .TRC_FILT_INST_ALL (t.arg 10 2 / 2 ^ 15)).setFld .TRC_FILT_TRUNK_TRUNKS (t.arg 12 2)).setFld
          .TRC_FILT_TRUNK_NO_TRUNK (t.arg 14 1)).setReg .TRC_FILT_CLASS (BitVec.ofNat 32 (t.arg 15 1)) |>.traceEnable (t.arg 8 1 % 2 == 1)
          |>.done c stOk [])))


/-- INST_CREATE, INST_SET_SHARE, INST_RESET and INST_DESTROY complete or begin (R296, R297, R323, R326–R332): a FREE instance gets its shares
from pools that hold them, is ACTIVE with the PASID named, and the result names it and its first event source, a free value where no block was
asked for; shares move at once or wait for the boundary at which they do; a reset starts for an ACTIVE or FROZEN instance and its command
waits for the acknowledgements. A number at or above MAX_INSTANCES ends BAD_PARAM (R317). -/
def Obligations.InstancesAreMadeAndUnmade : Prop :=
  ∀ (s : State) (c : CmdRef) (t : Taken),
    (s.standsReady c t ⟨0x0101, [(8, 2, 0xFFFF), (10, 3, 0xFFFFF), (13, 1, 0xFF), (14, 2, 0xFFFF), (16, 4, 0xFFFFFFFF), (20, 1, 0xFF),
        (22, 2, 0xFFFF), (24, 2, 0xFFFF), (32, 32, 2 ^ 256 - 1)], modesURHV, true⟩ = true →
      ∀ i : Nat, s.createNumber t = some i → 1 ≤ t.arg 8 2 →
      s.pasidUsed i (t.arg 10 3) = false → t.arg 13 1 ≠ 0 → t.arg 20 1 ≤ 224 → (s.inst i).state = .free →
      s.poolsHold i (askOf t.entry) = true → ksorted s.insts = true →
      ∃ u : State, u.inst i = { Instance.init with
          state := .active, pasid := BitVec.ofNat 20 (t.arg 10 3), routes := Routes.all
          shares := ⟨fieldAt t.entry 14 2, fieldAt t.entry 16 4, fieldAt t.entry 13 1, s.takeBlocks (fieldAt t.entry 20 1),
            fieldAt t.entry 22 2, fieldAt t.entry 24 2, Vector.ofFn fun k => fieldAt t.entry (32 + 2 * k.val) 2⟩ } ∧
        (∀ j : Nat, j ≠ i → u.inst j = s.inst j) ∧ u = { s with regs := u.regs, latch := u.latch, gutter := u.gutter, insts := u.insts } ∧
        (∀ (b : Nat) (l : List Nat), s.takeBlocks (fieldAt t.entry 20 1) = b :: l →
          exec (.instCreate c) s = .next (s.within c i (u.done c stOk (leBytes 2 i ++ leBytes 2 (256 + 8 * b))))) ∧
        (s.takeBlocks (fieldAt t.entry 20 1) = [] → ∃ w : Nat,
          exec (.instCreate c) s = .next (s.within c i (({ u with free := s.free + 1 } : State).done c stOk (leBytes 2 i ++ leBytes 2 w))))) ∧
    (s.standsReady c t (instFrame 0x0104 modesURHV [(10, 1, 0x3F), (11, 1, 1), (13, 1, 0xFF), (14, 2, 0xFFFF), (16, 4, 0xFFFFFFFF), (20, 1, 0xFF),
        (22, 2, 0xFFFF), (24, 2, 0xFFFF), (32, 32, 2 ^ 256 - 1)]) = true →
      t.arg 8 2 < maxInstances → (s.inst (t.arg 8 2)).lives = true → s.growsTooFar (changeOf t) = false →
      s.shareInUse (changeOf t) (t.arg 11 1 == 1) = false →
      ((t.arg 10 1).testBit 0 = false → t.arg 14 2 = 0) → ((t.arg 10 1).testBit 1 = false → t.arg 16 4 = 0) →
      ((t.arg 10 1).testBit 2 = false → t.arg 32 32 = 0) → (if (t.arg 10 1).testBit 3 then t.arg 13 1 ≠ 0 else t.arg 13 1 = 0) →
      (if (t.arg 10 1).testBit 4 then t.arg 20 1 ≤ 224 else t.arg 20 1 = 0) → ((t.arg 10 1).testBit 5 = false → t.arg 24 2 = 0) →
      (t.arg 22 2 = 0 ∨ ((t.arg 10 1).testBit 5 = true ∧ t.arg 22 2 = (s.inst (t.arg 8 2)).shares.vecFirst)) →
      exec (.instSetShare c) s = .next (s.shareAct c (changeOf t) (t.arg 11 1 == 1))) ∧
    (s.standsReady c t (instFrame 0x0103 modesURHV []) = true → 1 ≤ t.arg 8 2 →
      (s.inst (t.arg 8 2)).lives = true →
      exec (.instReset c) s = .next (s.within c (t.arg 8 2) ((s.startReset (t.arg 8 2) false (some c)).wait c []))) ∧
    (s.standsReady c t (instFrame 0x0102 modesURHV []) = true → 1 ≤ t.arg 8 2 →
      (s.inst (t.arg 8 2)).lives = true →
      exec (.instDestroy c) s = .next (s.within c (t.arg 8 2) ((s.startReset (t.arg 8 2) true (some c)).wait c [])))

/-- INST_FREEZE, INST_SAVE, INST_RESTORE and INST_THAW (R333–R337, R340): a freeze of an ACTIVE instance takes effect at the course named, not
before the first uncommitted one, and a thaw of a FROZEN one at the course named; a save of a quiescent instance posts its image where the
buffer has room for it; a restore into a FREE instance reads its image and takes it in. A FROZEN instance whose work has
drained becomes quiescent, once, with its event; and once an engine has no work of an instance's old epoch left it acknowledges the new one, and
with the sixteenth the reset ends (R330, R334). A number at or above MAX_INSTANCES ends BAD_PARAM (R317). -/
def Obligations.InstancesAreFrozenAndMoved : Prop :=
  (∀ (s : State) (c : CmdRef) (t : Taken), 1 ≤ t.arg 8 2 →
    (s.standsReady c t (instFrame 0x0106 modesRH [(12, 4, 0xFFFFFFFF)]) = true → (s.inst (t.arg 8 2)).state = .active →
      ∀ f : Nat, s.namedCourse (t.arg 12 4) (s.course.count.toNat + 2) = some f →
      exec (.instFreeze c) s = .next (s.within c (t.arg 8 2) ((s.modInst (t.arg 8 2) fun x => { x with freezeAt := some (max f (s.committed + 1)) }).wait c
        ([0, 0, 0, 0] ++ leBytes 4 (max f (s.committed + 1))) (max f (s.committed + 1))))) ∧
    (s.standsReady c t (instFrame 0x0109 modesRH [(12, 4, 0xFFFFFFFF)]) = true → (s.inst (t.arg 8 2)).state = .frozen →
      ∀ b : Nat, s.namedCourse (t.arg 12 4) (max (s.course.count.toNat + 2) (s.restoreBound (t.arg 8 2))) = some b →
      exec (.instThaw c) s = .next (s.within c (t.arg 8 2) ((s.modInst (t.arg 8 2) fun x => { x with thawAt := some b }).wait c ([0, 0, 0, 0] ++ leBytes 4 b) b))) ∧
    (s.standsReady c t (instFrame 0x0107 modesURHV [(16, 8, 2 ^ 64 - 1), (24, 4, 0xFFFFFFFF)]) = true → (s.inst (t.arg 8 2)).state = .frozen →
      (s.inst (t.arg 8 2)).quiescent = true → t.arg 16 8 % 64 = 0 → (s.image (t.arg 8 2)).length ≤ t.arg 24 4 →
      exec (.instSave c) s = .next (s.within c (t.arg 8 2) ((State.postBytes (s.pasidOf 0) (s.image (t.arg 8 2)).length (t.arg 16 8) (s.image (t.arg 8 2)) s).done c
        stOk (leBytes 4 (s.image (t.arg 8 2)).length)))) ∧
    (∀ image : List Byte,
      s.standsReady c t (instFrame 0x0108 (if imageScheduled image then [Mode.run] else modesURHV)
        [(10, 3, 0xFFFFF), (16, 8, 2 ^ 64 - 1), (24, 4, 0xFFFFFFFF)]) = true → (s.inst (t.arg 8 2)).state = .free →
      s.pasidUsed (t.arg 8 2) (t.arg 10 3) = false → t.arg 16 8 % 64 = 0 → image.length = t.arg 24 4 →
      exec (.instRestore c image .ok) s = .next
        (s.within c (t.arg 8 2) ((s.emit (.hostRead (s.pasidOf c.inst.val) (BitVec.ofNat 64 (t.arg 16 8)) (t.arg 24 4))).restore c (t.arg 8 2) (t.arg 10 3) image)))) ∧
  (∀ (s : State) (e : Fin 16) (i : Fin 512) (r r' : ResetRun), (s.inst i.val).reset = some r → (s.inst i.val).state = .resetting →
    s.oldWork i.val e = false → r' = { r with acked := r.acked ||| BitVec.ofNat 16 (2 ^ e.val) } →
    exec (.engineEpochAck e i) s = .next (if r'.acked = 0xFFFF then s.endReset i.val r' else s.modInst i.val fun x => { x with reset := some r' })) ∧
  (∀ (s : State) (i : Fin 512), (s.inst i.val).state = .frozen → (s.inst i.val).quiescent = false → s.drained i.val = true →
    exec (.instanceQuiescent i) s = .next ((s.modInst i.val fun x => { x with quiescent := true }).happen .INST_EVENT_QUIESCENT 7))


/-- Commands on a port, root port or hub port, where it stands in a state that takes them (R91, R110, R113, R298): power, reset, suspend, resume
and the link's rate. A root port is driven by the hardware, a hub port through requests to its hub; the command waits for the port. -/
def Obligations.PortCommandsComplete : Prop :=
  ∀ (s : State) (c : CmdRef) (t : Taken) (p : PortRef) (x : Port),
    (s.portReady c t (paFrame 0x0201 modesURHV true [(13, 1, 3)]) p x = true →
      (t.arg 13 1 = 1 → ∀ k : Fin 16, p = .root k → x.state = .off ∨ x.state = .fault →
        exec (.portPower c) s = .next { (s.wait c []).modPort p (fun y => { y with state := .off, cause := .none }) with
          ppm := vmod s.ppm k.val fun y => { y with onReq := true, offReq := false } }) ∧
      (t.arg 13 1 = 1 → x.state ≠ .off → x.state ≠ .fault → (∀ h q, p = .hub h q → ((s.dev h).map (·.tier)).getD 0 ≠ 0) →
        exec (.portPower c) s = .next (s.done c stOk [BitVec.ofNat 8 x.state.code])) ∧
      (t.arg 13 1 = 0 ∨ t.arg 13 1 = 2 → (t.arg 13 1 = 0 → s.admittedBelow p true = false) →
        exec (.portPower c) s = .next (s.portCut c p))) ∧
    (s.portReady c t (paFrame 0x0202 modesURHV false []) p x = true → s.boundPort c.inst.val p = true →
      x.state = .disabled ∨ x.state = .enabled ∨ x.state = .suspended →
      exec (.portReset c) s = .next ((s.wait c []).firmwareReset p)) ∧
    (s.portReady c t (paFrame 0x0203 modesURHV false []) p x = true → s.boundPort c.inst.val p = true → x.state = .enabled →
      s.admittedBelow p false = false →
      exec (.portSuspend c) s = .next (match p with
        | .hub h q => (s.wait c []).hubFeature h q true 3
        | _ => (s.wait c []).modPort p fun y => { y with suspendReq := true })) ∧
    (s.portReady c t (paFrame 0x0204 modesURHV false []) p x = true → s.boundPort c.inst.val p = true →
      (x.state = .resuming → exec (.portResume c) s = .next (s.wait c [])) ∧
      (x.state = .suspended → exec (.portResume c) s = .next (match p with
        | .hub h q => (s.wait c []).hubFeature h q true 4
        | _ => ((s.wait c []).modPort p fun y => { y with state := .resuming, wakeFor := .resume, remoteWake := false, byHub := false }).emit
            (.blocks (.up p) [ctlBlock cWake 0xAAAAAAA])))) ∧
    (s.portReady c t (paFrame 0x020A modesURHV true [(13, 1, 0xFF)]) p x = true →
      (t.arg 13 1 = 1 → x.state = .enabled → s.rateOf p = some .br →
        exec (.linkRate c) s = .next (s.done c stOk ([BitVec.ofNat 8 x.state.code, 0, 0, 0] ++
          leBytes 4 (if x.stepPending then (if x.stepFrom = 0 then s.boundaryIn 8 else x.stepFrom) else 0)))) ∧
      (t.arg 13 1 = 1 → x.state = .enabled → ∀ y : Port, (s.requestStep p).port p = some y →
        exec (.linkRate c) s = .next ((s.requestStep p).done c stOk ([BitVec.ofNat 8 y.state.code, 0, 0, 0] ++
          leBytes 4 (if y.stepPending then (if y.stepFrom = 0 then (s.requestStep p).boundaryIn 8 else y.stepFrom) else 0)))) ∧
      (t.arg 13 1 = 2 → x.state = .disabled ∨ x.state = .enabled ∨ x.state = .suspended →
        ∀ u : State, u = (s.wait c []).modPort p (fun y => { y with hrFails := 0 }) →
        exec (.linkRate c) s = .next (match p with
          | .root k => (u.setFld .TRK_CTRL_HR_EN 1 k.val).firmwareReset p
          | _ => (u.modPort p fun y => { y with hrEn := true }).firmwareReset p))) ∧
    (s.portReady c t (paFrame 0x0209 modesURHV false [(13, 1, 1)]) p x = true → s.routedPort c.inst.val p = true → ∀ k : Fin 16, p = .root k →
      exec (.linkMargin c) s = .next ((if t.arg 13 1 = 1 then s.modPort p fun y => { y with ledger := y.ledger.cleared } else s).done c stOk
        (leBytes 4 x.ledger.blk.toNat ++ leBytes 4 x.ledger.crc.toNat ++ leBytes 4 x.ledger.retry.toNat ++ leBytes 4 x.ledger.eye ++
          [BitVec.ofNat 8 (rateCode x.linkRate), 0])))

/-- TREE_ENUMERATE and NODE_BIND (R96, R101, R298, R299): a walk starts, with the address map read first where the command names one; a known node
is bound to a living instance, or unbound, while it has no flow that holds its binding. -/
def Obligations.TreeCommandsComplete : Prop :=
  ∀ (s : State) (c : CmdRef) (t : Taken),
    (s.standsReady c t ⟨0x0206, [(8, 1, 0x0F), (9, 1, 1), (10, 2, 0xFFFF), (16, 8, 2 ^ 64 - 1)], modesURHV, true⟩ = true →
      ∀ (k : Fin 16) (map : List Byte), t.arg 8 1 = k.val →
      (t.arg 9 1 = 0 → t.arg 10 2 = 0 → t.arg 16 8 = 0 → exec (.treeEnumerate c map .ok) s = .next (s.treeWalk c k)) ∧
      (∀ l : List MapEntry, t.arg 9 1 = 1 → 1 ≤ t.arg 10 2 → t.arg 10 2 ≤ 4064 → t.arg 16 8 % 64 = 0 → map.length = 4 * t.arg 10 2 →
        mapEntries k map (t.arg 10 2) = some l →
        exec (.treeEnumerate c map .ok) s = .next (State.treeWalk
          { s.emit (.hostRead (s.pasidOf c.inst.val) (BitVec.ofNat 64 (t.arg 16 8)) (4 * t.arg 10 2)) with
            amap := (s.amap.filter fun (m : MapEntry) => m.trunk != k) ++ l } c k))) ∧
    (s.standsReady c t ⟨0x0208, [(10, 2, 0x0FFF), (12, 2, 0xFFFF), (14, 1, 1)], modesURHV, true⟩ = true →
      1 ≤ t.arg 10 2 → t.arg 10 2 ≤ 4064 → (kget s.nodes (t.arg 10 2)).isSome = true →
      (t.arg 12 2 = 0xFFFF → t.arg 14 1 = 0 →
        (∀ b : Binding, kget s.binds (t.arg 10 2) = some b → b.inst = 0xFFFF ∨ s.bindBusy (t.arg 10 2) = false) →
        exec (.nodeBind c) s = .next (State.done { s with binds := kdel s.binds (t.arg 10 2) } c stOk [])) ∧
      (t.arg 12 2 < maxInstances → t.arg 12 2 ≠ 0xFFFF → (s.inst (t.arg 12 2)).lives = true →
        (∀ b : Binding, kget s.binds (t.arg 10 2) = some b → b.inst = t.arg 12 2 ∨ s.bindBusy (t.arg 10 2) = false) →
        exec (.nodeBind c) s = .next (State.done { s with binds := kset s.binds (t.arg 10 2) ⟨t.arg 12 2, t.arg 14 1 == 1⟩ } c stOk [])))


/-- FLOW_OPEN, FLOW_CLOSE, FLOW_MODIFY, FLOW_HOLD, FLOW_UNHOLD and PLAN_CHECK (R165, R176–R178, R300–R303). FLOW_OPEN reads its safe value where it
names one, is admitted, clears the endpoint's halt and then completes, or waits for the plan where the flow is scheduled. A hold takes effect
at once; the rest of a scheduled flow's commands wait for the boundary of the plan. -/
def Obligations.FlowCommandsComplete : Prop :=
  ∀ (s : State) (c : CmdRef) (t : Taken),
    (∀ (safe : List Byte) (ty : FlowType) (n : NodeRec) (s0 s1 : State) (ctx num : Nat), s.standsReady c t (openFrame (openModes t)) = true →
      (s.openBad c.inst.val t).all (fun b => !b.2) = true → s.boundNode c.inst.val (t.arg 10 2) = true → flowTypeOf (t.arg 8 1) = some ty →
      (t.arg 32 8 ≠ 0 → safe.length = 8 * safeWords (t.arg 12 1) (relOf (t.arg 16 1 % 4))) →
      s0 = (if t.arg 32 8 = 0 then s else s.emit (.hostRead (s.pasidOf c.inst.val) (BitVec.ofNat 64 (t.arg 32 8))
        (8 * safeWords (t.arg 12 1) (relOf (t.arg 16 1 % 4))))) →
      kget s.nodes (t.arg 10 2) = some n → (s0.clearHalt n (BitVec.ofNat 4 (t.arg 9 1)) .ack).2 = .ack →
      s0.admitOpen c t ty n (if t.arg 32 8 = 0 then [] else laneWords safe) = .ok (s1, ctx, num) →
      exec (.flowOpen c safe .ok .ack) s = .next (
        if ty.scheduled then (s1.clearHalt n (BitVec.ofNat 4 (t.arg 9 1)) .ack).1.wait c
          ((s1.clearHalt n (BitVec.ofNat 4 (t.arg 9 1)) .ack).1.openReply ctx num)
        else (s1.clearHalt n (BitVec.ofNat 4 (t.arg 9 1)) .ack).1.done c stOk
          ((s1.clearHalt n (BitVec.ofNat 4 (t.arg 9 1)) .ack).1.openReply ctx num))) ∧
    (∀ (ctx : Nat) (f : Flow), f.closing = false →
      (s.flowReady c t (flowFrame 0x0302 modesURHV []) ctx f = true →
        exec (.flowClose c) s = .next (if f.par.ty.scheduled then (s.closeScheduled ctx none).wait c [] else s.closeNow c ctx f)) ∧
      (s.flowReady c t (modifyFrame (modifyModes t)) ctx f = true → (s.modifyBad c.inst.val t).all (fun b => !b.2) = true →
        (t.arg 10 1 = 2 → ∀ safe : List Byte, exec (.flowModify c safe .ok) s = .next ((s.modFlow ctx fun g => { g with
          par := { g.par with prio := t.arg 13 1 }
          changes := g.changes.map fun ch => { ch with params := ch.params.map fun p => { p with prio := t.arg 13 1 } }
          task := { g.task with prio := t.arg 13 1 } }).done c stOk (leBytes 8 0 ++ [0, BitVec.ofNat 8 f.par.q]))) ∧
        ((t.arg 10 1).testBit 2 = false ∨ t.arg 24 8 = 0 → ∀ safe : List Byte,
          exec (.flowModify c safe .ok) s = .next (s.modifyAct c t ctx f none)) ∧
        (∀ safe : List Byte, (t.arg 10 1).testBit 2 = true → t.arg 24 8 ≠ 0 → safe.length = 8 * safeWords f.par.words f.par.rel →
          exec (.flowModify c safe .ok) s = .next ((s.emit (.hostRead (s.pasidOf c.inst.val) (BitVec.ofNat 64 (t.arg 24 8))
            (8 * safeWords f.par.words f.par.rel))).modifyAct c t ctx f (some (laneWords safe))))) ∧
      (s.flowReady c t (flowFrame 0x0306 modesRH []) ctx f = true →
        exec (.flowHold c) s = .next ((s.setCauses ctx fun k => { k with command := true }).done c stOk
          ([0, 0, 0, 0] ++ leBytes 4 (if f.par.ty.scheduled then s.committed + 1 else s.course.count.toNat)))) ∧
      (s.flowReady c t (flowFrame 0x0307 modesRH []) ctx f = true → f.causes.stalled = false → f.causes.bulkLasting = false →
        s.flow ctx = some f → ∀ a : Answer,
        (f.par.ty.scheduled = true → ∀ b : Nat, b = max (s.changeFrom f.par.lead) ((f.changes.getLast?.map (·.from_)).getD 0) →
          ∃ u : State, u = (s.modFlow ctx fun g => { g with changes := f.changes ++ [⟨b, false, false, true, none, false, none⟩] }) ∧
            exec (.flowUnhold c a) s = .next (u.planAgain.wait c (leBytes 8 0 ++ leBytes 2 (u.remaining f)) b)) ∧
        (f.par.ty.scheduled = false → exec (.flowUnhold c a) s = .next (((s.modFlow ctx Flow.forgetLasting).setCauses ctx
          HoldCauses.unheld).done c stOk (leBytes 8 0 ++ leBytes 2 ((s.modFlow ctx Flow.forgetLasting).remaining f)))))) ∧
    (s.standsReady c t ⟨0x0305, [(8, 1, 0xFF), (16, 8, 2 ^ 64 - 1)], modesURHV, false⟩ = true → 1 ≤ t.arg 8 1 → t.arg 8 1 ≤ 64 →
      t.arg 16 8 % 64 = 0 → ∀ (list : List Byte) (u : State), list.length = 64 * t.arg 8 1 →
      State.checkList c.inst.val ((List.range (t.arg 8 1)).map fun k => listEntry ((list.drop (64 * k)).take 64)) 0
        (s.emit (.hostRead (s.pasidOf c.inst.val) (BitVec.ofNat 64 (t.arg 16 8)) (64 * t.arg 8 1))) = .ok u → u.admitNext = none →
      exec (.planCheck c list .ok) s = .next ((s.emit (.hostRead (s.pasidOf c.inst.val) (BitVec.ofNat 64 (t.arg 16 8)) (64 * t.arg 8 1))).done
        c stOk []))

/-- CONTROL_XFER (R83, R84, R303) to a node that is present on a route that is not suspended goes out, or runs to its end, with its OUT data read
from host memory first; one that does not finish within 500 ms completes OK with the outcome LASTING, a length that the spec does not state, at most
what the setup asked for, and a count of retries that the spec does not state either (assumption 15). -/
def Obligations.ControlTransfersComplete : Prop :=
  ∀ (s : State) (c : CmdRef) (t : Taken) (n : NodeRec),
    s.nodeReady c t ⟨0x0308, [(10, 2, 0x0FFF), (16, 8, 2 ^ 64 - 1), (24, 8, 2 ^ 64 - 1), (32, 8, 2 ^ 64 - 1)], modesURHV, false⟩ n = true →
    wbits (xferSetup t).w1 15 12 = 0 → wbits (xferSetup t).w1 19 16 = 0 →
    (if (xferSetup t).count = 0 then t.arg 32 8 = 0 else t.arg 32 8 % 64 = 0) → s.xferForbidden (t.arg 10 2) (xferSetup t) = false →
    (∀ p ∈ n.pos.ports, ∀ x : Port, s.port p = some x → x.state ≠ .suspended) →
    (∀ (data : List Byte) (a : Answer), (xferSetup t).dir = true ∨ (xferSetup t).count = 0 →
      exec (.controlXfer c data .ok a) s = .next (s.runXfer c t n (xferSetup t) [] a)) ∧
    (∀ data : List Byte, (xferSetup t).dir = true ∨ (xferSetup t).count = 0 → t.ran = .notSent →
      exec (.controlXfer c data .ok none) s = .next (s.xferGoes c n (xferSetup t) [])) ∧
    (∀ (data : List Byte) (a : Answer), (xferSetup t).dir = false → (xferSetup t).count ≠ 0 → t.ran = .notSent → data.length = 8 * (xferSetup t).count →
      exec (.controlXfer c data .ok a) s = .next ((s.emit (.hostRead (s.pasidOf c.inst.val) (BitVec.ofNat 64 (t.arg 32 8))
        (8 * (xferSetup t).count))).runXfer c t n (xferSetup t) (laneWords data) a)) ∧
    (∃ length retries : Nat, length ≤ (xferSetup t).count ∧ retries < 16 ∧
      exec (.controlXferTimeout c) s = .next (State.done { s with free := s.free + 2 } c stOk
        (leBytes 2 length ++ [BitVec.ofNat 8 Status.lasting.code, 0, BitVec.ofNat 8 retries])))


/-- TIME_ADJUST, TIME_SOURCE, PACE_CONFIG and COURSE_CONFIG, and a write of the course period (R124, R138, R141, R184, R304, R305). A step of
time applies at once while no courses run and at the next course start otherwise; a slew is spread over what follows; the period changes at once
in a mode without courses, and with the plan at it otherwise, and a write of it that may not take effect is discarded. A bus source that its
estimator does not have yet is bound through a service flow, admitted or refused. A solo controller, or one that has not joined its gang, sets
its own period. -/
def Obligations.TimeCommandsComplete : Prop :=
  (∀ (s : State) (c : CmdRef) (t : Taken),
    (s.standsReady c t ⟨0x0402, [(8, 1, 0xFF), (16, 8, 2 ^ 64 - 1)], modesSURHV, true⟩ = true →
      (t.arg 8 1 = 0 → s.pmu.mode ≠ .run → s.pmu.mode ≠ .hold →
        (s.course.running = false → exec (.timeAdjust c) s = .next ((s.applyStep (BitVec.ofNat 64 (t.arg 16 8)) 0).done c stOk
          (leBytes 8 s.time.bus.toNat))) ∧
        (s.course.running = true → exec (.timeAdjust c) s = .next (State.done
          { s with time := { s.time with step := some (BitVec.ofNat 64 (t.arg 16 8)) } } c stOk
          (leBytes 8 (s.startOf (s.course.count.toNat + 1)).toNat)))) ∧
      (t.arg 8 1 = 1 → t.slew.natAbs ≤ 10000000000 → ∀ u : State, u = { s with time := { s.time with slewLeft := t.slew * 1000000000 } } →
        exec (.timeAdjust c) s = .next ((if s.timeSource = 0 ∧ s.time.quality = .estimated then u.lockTime else u).done c stOk
          (leBytes 4 (sat32 t.slew))))) ∧
    (s.standsReady c t ⟨0x0403, [(8, 1, 0xFF), (9, 1, 3)], modesURHV, true⟩ = true → t.arg 8 1 ≤ 2 →
      (if t.arg 8 1 = 2 then s.gang.role = .member else s.gang.fixed = false) →
      exec (.timeSource c) s = .next ((((s.setFld .TAPU_PPS_CFG_IN_EN (t.arg 9 1 % 2)).setFld .TAPU_PPS_CFG_IN_FALL (t.arg 9 1 / 2)).setSource
        (t.arg 8 1)).done c stOk [BitVec.ofNat 8 (if s.timeSource = t.arg 8 1 ∨ s.time.quality = .unset then s.time.quality
          else if t.arg 8 1 = 0 then Quality.locked else .holdover).code])) ∧
    (s.standsReady c t ⟨0x0404, [(8, 1, 0xFF), (9, 1, 0x1F), (10, 1, 0xFF), (11, 1, 0xFF), (12, 1, 0xFF), (16, 3, 0xFFFFFF), (20, 3, 0xFFFFFF),
        (24, 4, 0xFFFFFFFF), (28, 4, 0xFFFFFFFF), (32, 3, 0x0FFFFF), (36, 2, 0x0FFF), (38, 1, 7)], modesURHV, true⟩ = true →
      (s.paceBad t).all (fun b => !b.2) = true →
      (∀ u : State, t.arg 9 1 / 2 % 4 ≠ 1 → u = (s.paceSet t).dropSource (s.paceKind t.est) (s.paceOf t.est) →
        exec (.paceConfig c) s = .next (u.done c stOk [BitVec.ofNat 8 u.ests[t.est].state.code])) ∧
      (∀ n : NodeRec, t.arg 9 1 / 2 % 4 = 1 → (kget s.nodes (t.arg 36 2)).filter (·.present) = some n →
        let set (v : State) : State := (v.paceSet t).dropSource (s.paceKind t.est) (s.paceOf t.est)
        exec (.paceConfig c) s = .next (match s.bindSource (t.arg 10 1) n (t.arg 38 1) with
          | none => (set s).done c stOk [BitVec.ofNat 8 (set s).ests[t.est].state.code]
          | some (.ok v) => (set v).wait c [BitVec.ofNat 8 (set v).ests[t.est].state.code]
          | some (.error r) => s.done c r.status r.record))) ∧
    (s.standsReady c t ⟨0x0406, [(8, 2, 0xFFFF)], modesURHV, true⟩ = true → 32 ≤ t.arg 8 2 → t.arg 8 2 ≤ 8192 → s.gang.fixed = false →
      s.hostScheduled = false → s.serviceRefused (t.arg 8 2) = none →
      exec (.courseConfig c) s = .next ((State.planAgain { s.setFld .TAPU_COURSE_CFG_PERIOD (t.arg 8 2) with
        course := { s.course with periodNext := some (BitVec.ofNat 14 (t.arg 8 2)) } }).wait c []))) ∧
  (∀ (s : State) (v : Reg32) (p : Nat), p = Fld.TAPU_COURSE_CFG_PERIOD.get v →
    exec (.coursePeriodWrite v) s = .next (
      if p < 32 ∨ 8192 < p ∨ s.hostScheduled = true ∨ s.gang.fixed = true ∨ s.serviceRefused p ≠ none then s
      else if s.pmu.mode.courses then State.planAgain { s.setFld .TAPU_COURSE_CFG_PERIOD p with
        course := { s.course with periodNext := some (BitVec.ofNat 14 p) } }
      else { s.setFld .TAPU_COURSE_CFG_PERIOD p with course := { s.course with period := BitVec.ofNat 14 p, periodNext := none } }))

/-- GANG_CONFIG, GANG_JOIN and GANG_LEAVE in Setup (R306, R369, R372, R382): where the fuse GANG_ALLOWED is blown they have their effects, and
otherwise they end NOT_PERMITTED. -/
def Obligations.GangCommandsComplete : Prop :=
  ∀ (s : State) (c : CmdRef) (t : Taken),
    (s.standsReady c t ⟨0x0501, [(8, 1, 0xFF), (9, 1, 1), (16, 8, 2 ^ 64 - 1)], [.setup], true⟩ = true → 1 ≤ t.arg 8 1 → t.arg 8 1 ≤ 8 →
      (∀ e : Nat, e < 8 → t.arg (16 + e) 1 ≤ 7 ∨ t.arg (16 + e) 1 = 0xFF) →
      ∀ digest : BitVec 32, digest = crc32Bytes (leBytes 2 (s.fld .TAPU_COURSE_CFG_PERIOD) ++
          [BitVec.ofNat 8 (s.fld .TAPU_TIME_CTRL_SOURCE), BitVec.ofNat 8 (t.arg 8 1)] ++ leBytes 8 (t.arg 16 8)) →
      exec (.gangConfig c) s = .next (if gangAllowed then
        ((State.applyPolicies (s.modGang fun g => { g with
          phase := .setup, configured := true, joined := false, accepted := none, size := BitVec.ofNat 4 (t.arg 8 1)
          ridgeAllowed := t.arg 9 1 == 1, map := BitVec.ofNat 64 (t.arg 16 8), digest := digest, deciding := true, sawEdges := false
          goodRun := 0 })).portPowered .ga).done c stOk (leBytes 4 digest.toNat)
      else s.done c stNotPermitted [])) ∧
    (s.standsReady c t ⟨0x0503, [], [.setup], true⟩ = true → s.gang.configured = true →
      exec (.gangJoin c) s = .next (if gangAllowed then
        ((s.wait c []).modGang fun g => { g with joining := some (c.inst.val, t.idx) }).joinRole
      else s.done c stNotPermitted [])) ∧
    (∀ u v : State, s.standsReady c t ⟨0x0504, [], [.setup], true⟩ = true →
      u = (List.finRange 8).foldl (fun (s : State) e =>
        if s.paceKind e = 2 then (s.paceOff e).setFld .TAPU_PACE_CFG_EN 0 e.val else s) s →
      v = (if u.ga.state = .off then u else u.portOff .ga) →
      exec (.gangLeave c) s = .next (if gangAllowed then
        (State.setSource (v.modGang fun g => { g with
          role := .solo, phase := .setup, configured := false, joined := false, accepted := none, deciding := false, digest := 0
          effMinor := BitVec.ofNat 8 cmdMinor, ridgeLock := false, goodRun := 0, noSample := 0 }) 0).done c stOk []
      else s.done c stNotPermitted []))

/-- MODE_SET (R307, R308, R392) by its transitions: where the device is not unlocked, no change is under way and nothing bars the change, each
takes place, at once with the previous mode and the course count as result, or beginning an entry or a wake whose end completes the command. -/
def Obligations.ModeSetMakesItsTransitions : Prop :=
  ∀ (s : State) (c : CmdRef) (t : Taken), s.standsReady c t ⟨0x0601, [(8, 1, 0xFF), (9, 1, 1)], modesAll, true⟩ = true →
    s.boot.debugUnlocked = false → s.pmu.changing = false → t.arg 8 1 ≤ 5 → (t.arg 9 1 ≠ 1 ∨ t.arg 8 1 = 4) →
    let at_ (u : State) : State := u.done c stOk ([BitVec.ofNat 8 s.pmu.mode.code, 0, 0, 0] ++
      leBytes 4 (if u.pmu.mode.courses then u.course.count.toNat else 0))
    let awake : State := { s with pmu := { s.pmu with handshake := none } }
    (s.pmu.mode = .setup → t.arg 8 1 = 3 → s.runBarred = false → exec (.modeSet c) s = .next (at_ ((awake.unlatch false).setMode .run))) ∧
    (s.pmu.mode = .setup → t.arg 8 1 = 5 → exec (.modeSet c) s = .next (at_ ((awake.setMode .service).unlatch true))) ∧
    (s.pmu.mode = .run → t.arg 8 1 = 4 → t.arg 9 1 = 0 →
      exec (.modeSet c) s = .next (at_ ((s.holdAcceptedBy State.raise).rebuildHeld.setMode .hold))) ∧
    (s.pmu.mode = .run → t.arg 8 1 = 4 → t.arg 9 1 = 1 → exec (.modeSet c) s = .next (at_ (s.stopTrigger 3))) ∧
    (s.pmu.mode = .hold → t.arg 8 1 = 3 → s.stopActive = false → s.gang.barsRun = false →
      exec (.modeSet c) s = .next (at_ ((s.unlatch false).setMode .run))) ∧
    (s.pmu.mode = .run → t.arg 8 1 = 2 → s.hostScheduled = false → exec (.modeSet c) s = .next (at_ (s.setMode .setup))) ∧
    (s.pmu.mode = .hold → t.arg 8 1 = 2 → s.stopActive = false → s.hostScheduled = false →
      exec (.modeSet c) s = .next (at_ ((s.setMode .setup).unlatch true))) ∧
    (s.pmu.mode = .service → t.arg 8 1 = 2 → (∀ e ∈ s.insts, ∀ u ∈ e.2.mb.taken, u.opcode ≠ 0x0706) →
      exec (.modeSet c) s = .next (at_ ((s.setMode .setup).unlatch true))) ∧
    ((s.pmu.mode = .setup ∧ t.arg 8 1 ≤ 1) ∨ (s.pmu.mode = .standby ∧ t.arg 8 1 = 0) → s.othersTaken c = false →
      ∃ ports : List Nat, exec (.modeSet c) s = .next (State.wait
        { ports.foldl (fun (s : State) k => s.modPort (entryPort k) fun x => { x with suspendReq := true }) s with pmu := { s.pmu with
          handshake := none, target := modeOf (t.arg 8 1), changing := true
          entry := some ⟨modeOf (t.arg 8 1), ports, some (c.inst.val, c.idx)⟩ } } c []) ∧
        ∀ k : Nat, k ∈ ports ↔ k ≤ 16 ∧ s.enabled (entryPort k) = true) ∧
    (s.pmu.mode = .dormant ∨ s.pmu.mode = .standby → t.arg 8 1 = 2 →
      exec (.modeSet c) s = .next ((s.wait c [BitVec.ofNat 8 s.pmu.mode.code, 0, 0, 0]).goTo .setup)) ∧
    (s.pmu.mode = .dormant → t.arg 8 1 = 1 →
      exec (.modeSet c) s = .next ((s.wait c [BitVec.ofNat 8 s.pmu.mode.code, 0, 0, 0]).goTo .standby))

/-- DOMAIN_POLICY, PPM_CONFIG, FW_STAGE and FW_COMMIT (R307, R308, R391, R438, R439): a domain's policy takes its place among the twelve; a port that
is not in FAULT and not ramping takes its limits; the bytes are staged at the next offset of the staging slot, and with LAST
the image is verified, whose outcome is the status; a commit of a valid slot writes
its boot record and, where it is asked for at once, restarts. An unlocked device does not commit. -/
def Obligations.PowerAndFirmwareCommandsComplete : Prop :=
  ∀ (s : State) (c : CmdRef) (t : Taken),
    (s.standsReady c t ⟨0x0602, [(8, 1, 0xFF), (9, 1, 0xFF)], modesSURHV, true⟩ = true → t.arg 8 1 ≤ 11 →
      (t.arg 9 1 ≤ 1 ∨ (t.arg 9 1 = 2 ∧ t.arg 8 1 = 11)) → s.course.running = true →
      exec (.domainPolicy c) s = .next (((s.shadow .PMU_DOM_POLICY 0 0).setFld .PMU_DOM_POLICY_POLICY
        (s.fld .PMU_DOM_POLICY_POLICY - s.fld .PMU_DOM_POLICY_POLICY / 4 ^ t.arg 8 1 % 4 * 4 ^ t.arg 8 1 + t.arg 9 1 * 4 ^ t.arg 8 1)).done c
        stOk [])) ∧
    (s.standsReady c t ⟨0x0602, [(8, 1, 0xFF), (9, 1, 0xFF)], modesSURHV, true⟩ = true → t.arg 8 1 ≤ 11 →
      (t.arg 9 1 ≤ 1 ∨ (t.arg 9 1 = 2 ∧ t.arg 8 1 = 11)) → s.course.running = false →
      exec (.domainPolicy c) s = .next ((((s.shadow .PMU_DOM_POLICY 0 0).setFld .PMU_DOM_POLICY_POLICY
        (s.fld .PMU_DOM_POLICY_POLICY - s.fld .PMU_DOM_POLICY_POLICY / 4 ^ t.arg 8 1 % 4 * 4 ^ t.arg 8 1 +
          t.arg 9 1 * 4 ^ t.arg 8 1)).applyPolicies).done c stOk [])) ∧
    (s.standsReady c t ⟨0x0603, [(8, 1, 0xFF), (10, 2, 0xFFFF), (12, 2, 0xFFFF), (14, 1, 0xFF), (15, 1, 0xFF), (16, 1, 0xFF), (18, 2, 0xFFFF),
        (20, 2, 0xFFFF), (22, 2, 0xFFFF)], modesURHV, true⟩ = true →
      ∀ n : Fin 16, t.arg 8 1 = n.val → 1 ≤ t.arg 10 2 → t.arg 10 2 ≤ t.arg 12 2 → t.arg 12 2 ≤ s.iFs n → 1 ≤ t.arg 14 1 → t.arg 14 1 ≤ 100 →
      1 ≤ t.arg 15 1 → t.arg 15 1 ≤ 60 → 1 ≤ t.arg 18 2 → 20 ≤ t.arg 20 2 → t.arg 20 2 ≤ 500 → s.ppm[n].phase ≠ .fault →
      (s.ppm[n].gen = true → s.ppm[n].pg = true) →
      exec (.ppmConfig c) s = .next (((((((((s.setFld .PPM_LIMIT_ILIM (t.arg 10 2) n.val).setFld .PPM_LIMIT_FTRIP (t.arg 12 2) n.val).setFld
        .PPM_TIMERS_FAULT_MS (t.arg 14 1) n.val).setFld .PPM_TIMERS_RETRY_S (t.arg 15 1) n.val).setFld .PPM_TIMERS_RETRY_LIM (t.arg 16 1)
        n.val).setFld .PPM_RAMP_SLOPE (t.arg 18 2) n.val).setFld .PPM_GRP_CFG_DEAD (t.arg 20 2) (groupOf n).val).setFld .PPM_GRP_CFG_RETURN_S
        (t.arg 22 2) (groupOf n).val).done c stOk [])) ∧
    (s.standsReady c t ⟨0x0701, [(8, 1, 1), (12, 4, 0xFFFFFFFF), (16, 8, 2 ^ 64 - 1), (24, 4, 0xFFFFFFFF)], modesURHV, true⟩ = true →
      ∀ data : List Byte, (t.arg 12 4 = 0 ∨ t.arg 12 4 = (s.boot.slot s.stageSlot).offset) → t.arg 16 8 % 8 = 0 → 1 ≤ t.arg 24 4 →
      t.arg 24 4 ≤ 65536 → t.arg 12 4 + t.arg 24 4 ≤ 7340032 → data.length = t.arg 24 4 → s.boot.commitPending = false →
      ∃ u : State, u = (s.emit (.hostRead (s.pasidOf c.inst.val) (BitVec.ofNat 64 (t.arg 16 8)) (t.arg 24 4))).modSlot s.stageSlot
          (fun x => x.stage (t.arg 12 4) data) ∧
        (t.arg 8 1 = 0 → exec (.fwStage c data .ok) s = .next (u.done c stOk
          (leBytes 4 (u.boot.slot s.stageSlot).offset ++ [BitVec.ofNat 8 s.stageSlot.toNat]))) ∧
        (∀ (w : State) (status : Nat), t.arg 8 1 = 1 → u.verifyStaged s.stageSlot = (w, status) →
          exec (.fwStage c data .ok) s = .next (w.done c status
            (if status = stOk then leBytes 4 (w.boot.slot s.stageSlot).offset ++ [BitVec.ofNat 8 s.stageSlot.toNat] else [])))) ∧
    (s.standsReady c t ⟨0x0702, [(8, 1, 0xFF)], [.service], true⟩ = true → s.boot.debugUnlocked = false →
      (s.boot.slot s.stageSlot).staged.isSome = true → (s.boot.slot s.stageSlot).valid = true → s.boot.rom = false → ∀ run : StartEnv,
      ∃ u : State, u = (s.writeRecord s.stageSlot (t.arg 8 1 == 1)).done c stOk
          [BitVec.ofNat 8 s.stageSlot.toNat, BitVec.ofNat 8 ((s.boot.slot s.stageSlot).version.toNat / 65536),
            BitVec.ofNat 8 ((s.boot.slot s.stageSlot).version.toNat / 256), BitVec.ofNat 8 (s.boot.slot s.stageSlot).version.toNat] ∧
        (t.arg 8 1 = 1 → exec (.fwCommit c run) s = .next u) ∧
        (t.arg 8 1 = 0 → exec (.fwCommit c run) s = .next (u.warmTrigger .fwCommit run)))


/-! ## Registers that host software writes and reads -/

/-- A write of a mailbox doorbell (R229, R281, by the table of R204), in the page of an ACTIVE or FROZEN instance: with n the command ring's size
and K the oldest command without a completion, a := (PROD − K) mod 2^16 and b := (P − K) mod 2^16; a ≤ b has no effect, b < a ≤ n takes PROD and
sets DOORBELL of the firmware tasks that the instance is assigned to, and a > n, or a mailbox that is not enabled, sets DB_ERR and changes
nothing else. In the page of a FREE instance the write is discarded and recorded, and in that of a RESETTING one discarded. -/
def Obligations.MailboxDoorbellsFollowTheTable : Prop :=
  ∀ (i : Fin 512) (v : Reg32) (s : State),
    (s.pageState i.val = .free → exec (.mailboxDoorbell i v) s = .next (s.badAccess true (i.val * 0x1000 + 0x014) 4)) ∧
    (s.pageState i.val = .resetting → exec (.mailboxDoorbell i v) s = .next s) ∧
    ∀ a b : Nat, s.pageState i.val = .active ∨ s.pageState i.val = .frozen →
    a = (BitVec.ofNat 16 (Fld.INST_MB_DB_PROD.get v) - (s.inst i.val).mb.oldest).toNat →
    b = ((s.inst i.val).mb.prod - (s.inst i.val).mb.oldest).toNat →
    exec (.mailboxDoorbell i v) s = .next (
      if s.flag .INST_MB_CFG_ENABLE 0 i.val = false then s.setFld .INST_MB_STATUS_DB_ERR 1 0 i.val
      else if a ≤ b then s
      else if 2 ^ s.fld .INST_MB_CFG_CMD_SIZE 0 i.val < a then s.setFld .INST_MB_STATUS_DB_ERR 1 0 i.val
      else (s.modInst i.val fun x => { x with mb := { x.mb with prod := BitVec.ofNat 16 (Fld.INST_MB_DB_PROD.get v) } }).bellTasks i.val)

/-- A write of a flow doorbell (R204), in the page of an ACTIVE or FROZEN instance: a ≤ b has no effect; b < a ≤ n takes PROD, and descriptors P to
PROD − 1 become visible in index order, on a flow that is closing to end CANCELLED at once; a > n is discarded and recorded as OVERFLOW; a FLOW
that is no open flow of the instance is discarded and recorded as BAD_FLOW. In the page of a FREE instance the write is discarded and recorded as
a bad access, and in that of a RESETTING one discarded and recorded as BAD_FLOW. -/
def Obligations.FlowDoorbellsFollowTheTable : Prop :=
  ∀ (i : Fin 512) (v : Reg32) (s : State),
    (s.pageState i.val = .free → exec (.flowDoorbell i v) s = .next (s.badAccess true (i.val * 0x1000 + 0x100) 4)) ∧
    (s.pageState i.val = .resetting → exec (.flowDoorbell i v) s = .next (s.dbErr i.val (Fld.INST_FLOW_DB_FLOW.get v) 2)) ∧
    (s.pageState i.val = .active ∨ s.pageState i.val = .frozen →
    (s.ctxOf i.val (Fld.INST_FLOW_DB_FLOW.get v) = none →
      exec (.flowDoorbell i v) s = .next (s.dbErr i.val (Fld.INST_FLOW_DB_FLOW.get v) 2)) ∧
    (∀ (ctx a b : Nat) (f : Flow), s.ctxOf i.val (Fld.INST_FLOW_DB_FLOW.get v) = some ctx → s.flow ctx = some f →
      a = (BitVec.ofNat 16 (Fld.INST_FLOW_DB_PROD.get v) - f.cons).toNat → b = (f.prod - f.cons).toNat →
      (a ≤ b → exec (.flowDoorbell i v) s = .next s) ∧
      (2 ^ f.ringLog < a → b < a → exec (.flowDoorbell i v) s = .next (s.dbErr i.val (Fld.INST_FLOW_DB_FLOW.get v) 1)) ∧
      (b < a → a ≤ 2 ^ f.ringLog → ∃ (new : List Transfer) (u : State),
        u = ({ s with visCount := s.visCount + (a - b) } : State).modFlow ctx (fun g =>
          { g with prod := g.prod + BitVec.ofNat 16 (a - b), xfers := g.xfers ++ new }) ∧
        exec (.flowDoorbell i v) s = .next (if f.closedAt = none then u else u.finishAll (new.map fun x => (ctx, x.idx)) .cancelled) ∧
        f.prod + BitVec.ofNat 16 (a - b) = BitVec.ofNat 16 (Fld.INST_FLOW_DB_PROD.get v) ∧ new.length = a - b ∧
        ∀ (k : Nat) (h : k < new.length), new[k].idx = f.prod + BitVec.ofNat 16 k ∧ new[k].desc = none ∧
          new[k].fin = none ∧ new[k].vis = s.visCount + k)))

/-- The other registers of mailboxes and completion rings (R219, R226, R279, R282, R469, R508), in the page of an ACTIVE or FROZEN instance: a
consumer index moves up to the write index and not beyond it; a mailbox or a ring that is enabled starts at index 0 with phase 1, a mailbox with
sizes 2 to 8 and a completion ring not below the command ring, and otherwise the write is discarded; a write of 1 to a STATUS bit clears it. In
the page of a FREE or RESETTING instance the write is discarded and recorded with reason 4 or 5. -/
def Obligations.RingRegistersWork : Prop :=
  ∀ (i : Fin 512) (v : Reg32) (s : State),
    (∀ (q : Fin 16) (reason : Nat), (s.pageState i.val = .free ∧ reason = 4) ∨ (s.pageState i.val = .resetting ∧ reason = 5) →
      exec (.mailboxEnable i v) s = .next (s.badAccess true (i.val * 0x1000 + 0x010) reason) ∧
      exec (.mailboxConsumerWrite i v) s = .next (s.badAccess true (i.val * 0x1000 + 0x018) reason) ∧
      exec (.fetchErrClear i v) s = .next (s.badAccess true (i.val * 0x1000 + 0x01C) reason) ∧
      exec (.cqEnable i q v) s = .next (s.badAccess true (i.val * 0x1000 + (0x808 + 0x20 * q.val)) reason) ∧
      exec (.cqConsumerWrite i q v) s = .next (s.badAccess true (i.val * 0x1000 + (0x80C + 0x20 * q.val)) reason)) ∧
    (s.pageState i.val = .active ∨ s.pageState i.val = .frozen →
    (∀ a b : Nat, a = (BitVec.ofNat 16 (Fld.INST_MB_CPL_CONS_CONS.get v) - BitVec.ofNat 16 (s.fld .INST_MB_CPL_CONS_CONS 0 i.val)).toNat →
      b = ((s.inst i.val).mb.write - BitVec.ofNat 16 (s.fld .INST_MB_CPL_CONS_CONS 0 i.val)).toNat →
      exec (.mailboxConsumerWrite i v) s = .next (if a ≤ b then s.setFld .INST_MB_CPL_CONS_CONS (Fld.INST_MB_CPL_CONS_CONS.get v) 0 i.val
        else s.setFld .INST_MB_STATUS_CONS_ERR 1 0 i.val)) ∧
    (∀ (q : Fin 16) (a b : Nat), a = (BitVec.ofNat 16 (Fld.INST_CQ_CONS_CONS.get v) - BitVec.ofNat 16 (s.fld .INST_CQ_CONS_CONS q.val i.val)).toNat →
      b = ((s.inst i.val).cqs[q].write - BitVec.ofNat 16 (s.fld .INST_CQ_CONS_CONS q.val i.val)).toNat →
      exec (.cqConsumerWrite i q v) s = .next (if a ≤ b then s.setFld .INST_CQ_CONS_CONS (Fld.INST_CQ_CONS_CONS.get v) q.val i.val
        else s.setFld .INST_CQ_STATUS_CONS_ERR 1 q.val i.val)) ∧
    (∀ cmd cpl : Nat, cmd = (if s.blockRuns .INST_MB_CFG i.val 0 then s.fld .INST_MB_CFG_CMD_SIZE 0 i.val else Fld.INST_MB_CFG_CMD_SIZE.get v) →
      cpl = (if s.blockRuns .INST_MB_CFG i.val 0 then s.fld .INST_MB_CFG_CPL_SIZE 0 i.val else Fld.INST_MB_CFG_CPL_SIZE.get v) →
      Fld.INST_MB_CFG_ENABLE.get v = 1 →
      (¬ (2 ≤ cmd ∧ cmd ≤ 8 ∧ 2 ≤ cpl ∧ cpl ≤ 8 ∧ cmd ≤ cpl) → exec (.mailboxEnable i v) s = .next s) ∧
      (2 ≤ cmd → cmd ≤ 8 → 2 ≤ cpl → cpl ≤ 8 → cmd ≤ cpl → ∀ u : State, u = s.writeFields .INST_MB_CFG i.val 0 v →
        exec (.mailboxEnable i v) s = .next (if s.flag .INST_MB_CFG_ENABLE 0 i.val = false ∧ u.flag .INST_MB_CFG_ENABLE 0 i.val = true then
          (u.modInst i.val fun x => { x with mb := { x.mb with
            prod := 0, oldest := 0, fetch := 0, write := 0, phase := true, completed := [], eventSeq := 0 } }).setFld
            .INST_MB_STATUS_FETCH_ERR 0 0 i.val
        else u))) ∧
    (∀ (q : Fin 16) (u : State), u = s.writeFields .INST_CQ_CFG i.val q.val v (fun f =>
        f == .INST_CQ_CFG_ENABLE && s.flag .INST_CQ_CFG_ENABLE q.val i.val && s.ringNamed i.val q.val) →
      exec (.cqEnable i q v) s = .next (if s.flag .INST_CQ_CFG_ENABLE q.val i.val = false ∧ u.flag .INST_CQ_CFG_ENABLE q.val i.val = true then
        u.modInst i.val fun x => { x with cqs := x.cqs.set q.val { x.cqs[q] with write := 0, phase := true } }
      else u)) ∧
    exec (.fetchErrClear i v) s = .next (s.writeFields .INST_MB_STATUS i.val 0 v))

/-- The addresses of sources (R347, R348, R355, R469): where the page, or BAR0, is open to the writer and the number names a source of the writer,
with bits 31 to 11 zero, a raise is a hardware raise, and the others set or clear the bits of that one source; a target that may be set is set
whole; an instance posts the running priority of a vector of its own. A number that names no source is discarded and recorded as BAD_SOURCE. In
the page of a FREE or RESETTING instance every one is discarded, and recorded with reason 4 or 5, but for a raise in that of a RESETTING one,
which leaves no record. -/
def Obligations.SourceAddressesWork : Prop :=
  ∀ (w : SigWriter) (v : Reg32) (s : State),
    (∀ (n : Fin 512) (reason : Nat), w = .page n →
      (s.pageState n.val = .free ∧ reason = 4) ∨ (s.pageState n.val = .resetting ∧ reason = 5) →
      exec (.sigRaise w v) s = .next (if reason = 5 then s else s.badAccess true (n.val * 0x1000 + 0x300) 4) ∧
      exec (.sigPendSet w v) s = .next (s.badAccess true (n.val * 0x1000 + 0x304) reason) ∧
      exec (.sigPendClr w v) s = .next (s.badAccess true (n.val * 0x1000 + 0x308) reason) ∧
      exec (.sigMaskSet w v) s = .next (s.badAccess true (n.val * 0x1000 + 0x30C) reason) ∧
      exec (.sigMaskClr w v) s = .next (s.badAccess true (n.val * 0x1000 + 0x310) reason) ∧
      exec (.sigSrcCfgWrite w v) s = .next (s.badAccess true (n.val * 0x1000 + 0x318) reason) ∧
      exec (.sigPrio n v) s = .next (s.badAccess true (n.val * 0x1000 + 0x31C) reason)) ∧
    ((∀ n : Fin 512, w = .page n → s.pageState n.val = .active ∨ s.pageState n.val = .frozen) →
    (∀ src : Nat, v.toNat < 2048 → s.writerSrc w v.toNat = some src →
      (128 ≤ src ∨ hwSource src = true → exec (.sigRaise w v) s = .next (s.raise src)) ∧
      exec (.sigPendSet w v) s = .next { s with gutter := { s.gutter with pend := bitPut s.gutter.pend src true } } ∧
      exec (.sigPendClr w v) s = .next { s with gutter := { s.gutter with
        pend := bitPut s.gutter.pend src false, latch := bitPut s.gutter.latch src false } } ∧
      exec (.sigMaskSet w v) s = .next { s with gutter := { s.gutter with mask := bitPut s.gutter.mask src true } } ∧
      exec (.sigMaskClr w v) s = .next { s with gutter := { s.gutter with mask := bitPut s.gutter.mask src false } }) ∧
    (2048 ≤ v.toNat ∨ s.writerSrc w v.toNat = none →
      exec (.sigRaise w v) s = .next (s.sigErr w (v.toNat % 2048) 1) ∧ exec (.sigPendSet w v) s = .next (s.sigErr w (v.toNat % 2048) 1) ∧
      exec (.sigPendClr w v) s = .next (s.sigErr w (v.toNat % 2048) 1) ∧ exec (.sigMaskSet w v) s = .next (s.sigErr w (v.toNat % 2048) 1) ∧
      exec (.sigMaskClr w v) s = .next (s.sigErr w (v.toNat % 2048) 1)) ∧
    (∀ src num : Nat, s.boot.start = none →
      num = (match w with | .bar0 => s.fld .SIG_SRC_SEL_SOURCE | .page n => s.fld .PSIG_SRC_SEL_SOURCE 0 n.val) → num < 2048 →
      s.writerSrc w num = some src → ∀ c : SrcCfg, c = ⟨v.extractLsb' 4 8, v.extractLsb' 2 2, v.extractLsb' 12 8, v.extractLsb' 20 8, v.extractLsb' 28 4⟩ →
      c.kind ≠ 3 → s.targetOk src c = true →
      exec (.sigSrcCfgWrite w v) s = .next { s with gutter := { s.gutter with
        fast := bitPut s.gutter.fast src (v.getLsbD 0), wake := bitPut s.gutter.wake src (v.getLsbD 1)
        cfg := kput ⟨0, 0, 0, 0, 0⟩ s.gutter.cfg src c } }) ∧
    (∀ n : Fin 512, w = .page n → exec (.sigPrio n v) s = .next (if v.toNat % 2048 < (s.inst n.val).shares.vecs then
        { s with gutter := { s.gutter with prio := kput 0 s.gutter.prio ((s.inst n.val).shares.vecFirst + v.toNat % 2048) (v.extractLsb' 16 4) } }
      else s)))

/-- A write of ERR_ACK acknowledges the record of its category when SEQ is that of the current record, and is discarded otherwise; an
acknowledgement clears VALID, OVERFLOW and COUNT (R451). A write of ERR_FATAL_ACK clears ERR_FATAL.VALID when SEQ is that of ERR_FATAL, and is
discarded otherwise (R453). -/
def Obligations.AcknowledgementsNameTheirRecord : Prop :=
  ∀ (v : Reg32) (s : State),
    (∀ k : Fin 7, Fld.ERR_ACK_CATEGORY.get v = k.val →
      exec (.errAck v) s = .next (if s.errs.recs[k].valid = true ∧ s.errs.recs[k].seq.toNat = Fld.ERR_ACK_SEQ.get v then
        { s with errs := { s.errs with recs := s.errs.recs.set k.val { s.errs.recs[k] with valid := false, overflow := false, count := 0 } } }
      else s)) ∧
    (7 ≤ Fld.ERR_ACK_CATEGORY.get v → exec (.errAck v) s = .next s) ∧
    exec (.errFatalAck v) s = .next (if s.errs.fatal.valid = true ∧ s.errs.fatal.seq.toNat = Fld.ERR_FATAL_ACK_SEQ.get v then
      { s with errs := { s.errs with fatal := { s.errs.fatal with valid := false } } } else s)

/-- The other registers of the device whose writes act, and the read of the trace ring's port (R58, R104, R187, R257, R270, R425, R434, R480):
each has its effect, and a write without its bit set has none. While a warm start resets their domains, the engines' and the trace's writes are
discarded and reads give ones (R433). -/
def Obligations.DeviceRegistersAct : Prop :=
  ∀ (v : Reg32) (s : State),
    (∀ k : Fin 16, exec (.stepDownWrite ⟨k.val, by omega⟩ v) s = .next (if Fld.TRK_CTRL_STEP_DOWN.get v = 1 then s.requestStep (.root k) else s)) ∧
    (∀ k : Fin 18, 16 ≤ k.val → exec (.stepDownWrite k v) s = .next s) ∧
    (∀ k : Fin 16, exec (.trkLedgerClr ⟨k.val, by omega⟩ v) s = .next (if Fld.TRK_LEDGER_CLR_CLEAR.get v = 1 then
      s.modPort (.root k) fun x => { x with ledger := x.ledger.cleared } else s)) ∧
    exec (.trkLedgerClr 16 v) s = .next (if Fld.TRK_LEDGER_CLR_CLEAR.get v = 1 then { s with ga := { s.ga with ledger := s.ga.ledger.cleared } } else s) ∧
    exec (.trkLedgerClr 17 v) s = .next (if Fld.TRK_LEDGER_CLR_CLEAR.get v = 1 then s.gbLedgerClear else s) ∧
    (∃ l : Vector PpmPort 16, exec (.ppmEclr v) s = .next { s with ppm := l } ∧
      ∀ n : Fin 16, l[n] = (if v.getLsbD n.val then { s.ppm[n] with energy := 0, energyFrac := 0 } else s.ppm[n])) ∧
    exec (.hifLtrWrite v) s = .next (if s.host.ltrEn = true ∧ v &&& ltrMask ≠ s.reg .HIF_LTR then
      (s.setReg .HIF_LTR (v &&& ltrMask)).emit (.ltr (v &&& ltrMask)) else s.setReg .HIF_LTR (v &&& ltrMask)) ∧
    (s.boot.start = none →
      exec (.engStopCmd v) s = .next (if Fld.ENG_STOP_CMD_TRIGGER.get v = 1 then s.stopTrigger 3 else s) ∧
      (∀ (x : TraceRec) (l : List TraceRec), s.trace = x :: l →
        exec .trcBufRead s = .next (State.emit
          { s with
            latch := kset (kset s.latch (Reg.key .TRC_BUF_MID 0 0) (BitVec.ofNat 32 (wbits x.w0 35 32 + wbits x.w1 27 0 * 16)))
              (Reg.key .TRC_BUF_HI 0 0) (BitVec.ofNat 32 (wbits x.w1 35 28))
            trace := l } (.reply (leBytes 4 (BitVec.ofNat 32 (wbits x.w0 31 0)).toNat)))) ∧
      (s.trace = [] → exec .trcBufRead s = .next (State.emit
          { s with latch := kset (kset s.latch (Reg.key .TRC_BUF_MID 0 0) 0) (Reg.key .TRC_BUF_HI 0 0) (BitVec.ofNat 32 (2 ^ 31)) }
          (.reply [0, 0, 0, 0]))) ∧
      ∀ run : StartEnv, exec (.bootCtrl v run) s = .next (if Fld.BOOT_CTRL_KEY.get v = 0xA5 ∧ Fld.BOOT_CTRL_WARM.get v = 1 then
        s.runStart startFuel .bootCtrl true run else s)) ∧
    (∀ r : StartRun, s.boot.start = some r → r.warm = true → r.step ≤ 7 →
      exec (.engStopCmd v) s = .next s ∧ exec .trcBufRead s = .next (s.emit (.reply [0xFF, 0xFF, 0xFF, 0xFF]))) ∧
    (∀ (e : Fin 8) (u : State), u = s.writeFields .TAPU_PACE_CFG 0 e.val v →
      exec (.estimatorEnable e v) s = .next (
        if u.effFld .TAPU_PACE_CFG_EN e.val = 1 ∧ u.ests[e].state = .off then u.modEst e fun _ => Estimator.started
        else if u.effFld .TAPU_PACE_CFG_EN e.val ≠ 1 ∧ u.ests[e].state ≠ .off then
          (u.settleReleases e false false).modEst e fun _ => Estimator.init
        else u))

/-- Requests to BAR0 and BAR2 outside the MSI-X table and PBA (R471–R473): an aligned request of 4 or 8 bytes, or one of 12 to 64 bytes in whole
words, is successive 32-bit accesses, lowest address first; a read within one register returns the bytes addressed, with the effects of the whole
read; a write of fewer than 4 bytes, with partial byte enables or not aligned to its size is discarded and recorded, as is a read not aligned to
its size, which returns zeros; more than 64 bytes end as Unsupported Request; and where no register is, a read gives zero and a write is
discarded. -/
def Obligations.RequestsBecomeRegisterAccesses : Prop :=
  ∀ (bar2 : Bool) (addr : BitVec 25) (s : State), addr.toNat < (if bar2 then 0x200000 else 0x100000) → msixOfs bar2 addr.toNat = false →
    (∀ (bytes : Nat) (data : List (Option Byte)) (run : StartEnv) (whole : Prop), 1 ≤ bytes → data.length = bytes →
      whole = ((bytes = 4 ∧ addr.toNat % 4 = 0) ∨ (bytes = 8 ∧ addr.toNat % 8 = 0) ∨
        (12 ≤ bytes ∧ bytes ≤ 64 ∧ bytes % 4 = 0 ∧ addr.toNat % 4 = 0)) →
      (whole →
        exec (.registerRead bar2 addr bytes) s =
          .next ((s.readWords bar2 addr.toNat (bytes / 4)).2.emit (.reply (s.readWords bar2 addr.toNat (bytes / 4)).1)) ∧
        (∀ bs : List Byte, data = bs.map some → exec (.registerWrite bar2 addr data run) s =
          .next (s.writeWords bar2 addr.toNat bs run (bytes / 4))) ∧
        (none ∈ data → exec (.registerWrite bar2 addr data run) s = .next (s.badAccess bar2 addr.toNat 2))) ∧
      (¬ whole → bytes ≤ 64 →
        exec (.registerWrite bar2 addr data run) s = .next (s.badAccess bar2 addr.toNat (if none ∈ data then 2 else 1)) ∧
        (addr.toNat % 4 + bytes ≤ 4 → exec (.registerRead bar2 addr bytes) s =
          .next ((s.readWords bar2 (addr.toNat - addr.toNat % 4) 1).2.emit
            (.reply (((s.readWords bar2 (addr.toNat - addr.toNat % 4) 1).1.drop (addr.toNat % 4)).take bytes)))) ∧
        (4 < addr.toNat % 4 + bytes → exec (.registerRead bar2 addr bytes) s =
          .next ((s.badAccess bar2 addr.toNat 1).emit (.reply (List.replicate bytes 0))))) ∧
      (64 < bytes → exec (.registerRead bar2 addr bytes) s = .next ((s.badAccess bar2 addr.toNat 3).emit .unsupported) ∧
        exec (.registerWrite bar2 addr data run) s = .next (s.badAccess bar2 addr.toNat 3))) ∧
    (bar2 = false → addr.toNat % 4 = 0 → findReg .bar0 addr.toNat = none →
      exec (.registerRead bar2 addr 4) s = .next (s.emit (.reply [0, 0, 0, 0])) ∧
      ∀ (data : List Byte) (run : StartEnv), data.length = 4 → exec (.registerWrite bar2 addr (data.map some) run) s = .next s)

/-- Commands are taken and started (R282, R285, R286, R288, R289, R508). Where the next command may be taken, its 64 bytes are read at its place
in the ring, it joins the taken commands, and a tag that is new enters the cache of 64; a read that fails sets FETCH_ERR. A taken command starts
when its issuer is served, nothing blocks it, no startable command of its instance is before it and, but for the manager's own, it is its
instance's turn, which moves on; an unknown opcode completes BAD_OPCODE instead. -/
def Obligations.CommandsAreTakenAndStarted : Prop :=
  (∀ (i : Fin 512) (s : State) (entry : List Byte) (t : Taken), s.mayTake i.val = true → entry.length = 64 → ksorted s.insts = true →
    (s.inst i.val).mb.cache.all (fun k => k.tag != BitVec.ofNat 32 (fieldAt entry 4 4)) = true →
    t = { idx := (s.inst i.val).mb.fetch, entry := entry, started := false, copies := false, waiting := false, boundary := 0
          result := [], ran := .notSent, pertOn := s.perturbed, pertSeq := s.ptbSeq } →
    exec (.commandTake i .ok entry) s = .next ((s.emit (.hostRead (s.pasidOf i.val) (BitVec.ofNat 64
        (s.pair .INST_MB_CMD_BASE_LO .INST_MB_CMD_BASE_HI 0 i.val + 64 * ((s.inst i.val).mb.fetch.toNat % 2 ^ s.fld .INST_MB_CFG_CMD_SIZE 0 i.val)))
        64)).modInst i.val fun x => { x with mb := { x.mb with
      fetch := x.mb.fetch + 1
      taken := x.mb.taken ++ [t]
      cache := (x.mb.cache ++ [(⟨BitVec.ofNat 32 (fieldAt entry 4 4), crc32Bytes (entry.take 2 ++ entry.drop 8), none⟩ : Cached)]).drop
        (x.mb.cache.length + 1 - 64) } })) ∧
  (∀ (c : CmdRef) (s : State) (t : Taken), s.taken c = some t → s.serves c.inst.val = true → s.startable c.inst.val t = true →
    (∀ u ∈ (s.inst c.inst.val).mb.taken,
      (u.idx - (s.inst c.inst.val).mb.oldest).toNat < (t.idx - (s.inst c.inst.val).mb.oldest).toNat → s.startable c.inst.val u = false) →
    c.inst.val = 0 ∨ s.startTurn c.inst.val = true → ∀ u : State,
    u = (if c.inst.val = 0 then s else { s with turns := { s.turns with cmds := c.inst.val + 1 } }) →
    exec (.commandStart c) s = .next (if u.knows t.opcode then u.modTaken c.inst.val t.idx fun u => { u with started := true }
      else u.complete c.inst.val t.idx stBadOpcode []))

/-! ## Devices -/

/-- The standard requests at a node that answers (R84, R85, R99, R100, R132): each is performed as its SETUP is taken, with the flows to the
endpoints it sets back starting afresh, and answered with ACK; a read of a status clears the counts it returned. An absent descriptor, and
SET_PATH_DELAY at a node without timing, are answered with STALL, and a SETUP that repeats that of the unfinished transfer is answered alone.
GB, at which an address is in force at once, performs them too (R84, R365). -/
def Obligations.StandardRequestsArePerformed : Prop :=
  (∀ (s : State) (n : Pos) (q : Setup) (x : Device), s.setupRepeats n q x = true → ∀ i ∈ [Instr.getDescriptor (.node n) q,
      .getStatus (.node n) q, .setAddress (.node n) q, .setConfig (.node n) q, .clearHalt (.node n) q, .setHalt (.node n) q,
      .setPathDelay (.node n) q], i.wf = true → exec i s = .next (s.shake (.node n) x.address hsAck 0 0)) ∧
  (∀ (s g : State) (q : Setup), s.gb.answers = true → g = s.gbEdge .gb →
    (q.isReq 0 0x01 = true → q.dir = true → q.value / 256 % 256 = 0 → ∀ ws : List Word, s.gb.descriptor (q.value % 256) = some ws →
      exec (.getDescriptor .gb q) s = .next (g.gbTaken s.gb.address (ws.take q.count))) ∧
    (q.isReq 0 0x06 = true → q.dir = true → q.count = 1 → BitVec.ofNat 4 q.index = 0#4 → exec (.getStatus .gb q) s =
      .next ((g.modDevAt .gb fun y => (y.status 0).2).gbTaken s.gb.address [(s.gb.status 0).1])) ∧
    (q.dir = false → q.count = 0 →
      (q.isReq 0 0x02 = true → 1 ≤ q.value % 4096 → q.value % 4096 ≤ 4064 → exec (.setAddress .gb q) s =
        .next ((g.modDevAt .gb fun y => { y with addrNext := some (BitVec.ofNat 12 q.value) }).gbTaken s.gb.address [])) ∧
      (q.isReq 0 0x03 = true → exec (.setConfig .gb q) s = .next ((g.modDevAt .gb fun y => y.configure q.value).gbTaken s.gb.address [])) ∧
      (q.isReq 0 0x04 = true → BitVec.ofNat 4 q.index = 0#4 → exec (.clearHalt .gb q) s =
        .next ((g.modDevAt .gb fun y => { y with stalled0 := false }).gbTaken s.gb.address [])) ∧
      (q.isReq 0 0x05 = true → BitVec.ofNat 4 q.index = 0#4 → exec (.setHalt .gb q) s =
        .next ((g.modDevAt .gb fun y => { y with stalled0 := true }).gbTaken s.gb.address [])) ∧
      (q.isReq 0 0x07 = true → exec (.setPathDelay .gb q) s = .next ((g.modDevAt .gb fun y =>
        { y with time := { y.time with dNext := some (BitVec.ofNat 24 q.value) } }).gbTaken s.gb.address [])))) ∧
  ∀ (s : State) (n : Pos) (q : Setup) (x : Device) (e : BitVec 4), e = BitVec.ofNat 4 q.index → s.setupReady n q x = true →
    (q.isReq 0 0x01 = true → q.dir = true → q.value / 256 % 256 = 0 → ∀ ws : List Word, x.descriptor (q.value % 256) = some ws →
      exec (.getDescriptor (.node n) q) s = .next ((s.setupStart n).setupTaken n q x (ws.take q.count))) ∧
    (q.isReq 0 0x01 = true → x.descriptor (q.value % 256) = none →
      exec (.getDescriptor (.node n) q) s = .next (s.setupStalled n x)) ∧
    (q.isReq 0 0x07 = true → x.timing = false → exec (.setPathDelay (.node n) q) s = .next (s.setupStalled n x)) ∧
    (q.isReq 0 0x06 = true → q.dir = true → q.count = 1 → e = 0 ∨ x.epKind e ≠ 0 →
      exec (.getStatus (.node n) q) s =
        .next (((s.setupStart n).modDev n fun y => (y.status e).2).setupTaken n q x [(x.status e).1])) ∧
    (q.dir = false → q.count = 0 →
      (q.isReq 0 0x02 = true → 1 ≤ q.value % 4096 → q.value % 4096 ≤ 4064 →
        exec (.setAddress (.node n) q) s =
          .next (((s.setupStart n).modDev n fun y => { y with addrNext := some (BitVec.ofNat 12 q.value) }).setupTaken n q x [])) ∧
      (q.isReq 0 0x03 = true →
        exec (.setConfig (.node n) q) s =
          .next ((((s.setupStart n).modDev n fun y => y.configure q.value).resetFlows n (· != 0)).setupTaken n q x [])) ∧
      (q.isReq 0 0x04 = true →
        (e = 0 → exec (.clearHalt (.node n) q) s =
          .next ((((s.setupStart n).modDev n fun y => { y with stalled0 := false }).resetFlows n (· == 0)).setupTaken n q x [])) ∧
        (e ≠ 0 → x.epKind e ≠ 0 → exec (.clearHalt (.node n) q) s =
          .next ((((s.setupStart n).modDev n fun y => y.modEp e Endpoint.initial).resetFlows n (· == e)).setupTaken n q x []))) ∧
      (q.isReq 0 0x05 = true →
        (e = 0 → exec (.setHalt (.node n) q) s =
          .next (((s.setupStart n).modDev n fun y => { y with stalled0 := true }).setupTaken n q x [])) ∧
        (e ≠ 0 → x.epKind e ≠ 0 → exec (.setHalt (.node n) q) s =
          .next (((s.setupStart n).modDev n fun y => y.modEp e fun z => { z with halted := true }).setupTaken n q x []))) ∧
      (q.isReq 0 0x07 = true → x.timing = true →
        exec (.setPathDelay (.node n) q) s =
          .next (((s.setupStart n).modDev n fun y => { y with time := { y.time with dNext := some (BitVec.ofNat 24 q.value) } }).setupTaken
            n q x [])))

/-- The requests of hubs (R91, R103, R104, R136): a port's status and, once the hub has its tier, its counters, which the read clears, its delay
and its features. Every one but the port's status and the tier is answered with STALL before the hub has its tier, and one that names a port the
hub does not have, or a feature that does not fit the port's state, with STALL always. A SETUP that repeats that of the unfinished transfer is
answered with ACK alone (R84). -/
def Obligations.HubRequestsArePerformed : Prop :=
  (∀ (s : State) (n : Pos) (q : Setup) (x : Device), s.setupRepeats n q x = true → ∀ i ∈ [Instr.getPortStatus (.node n) q,
      .getPortErrors (.node n) q, .setPortFeature (.node n) q, .clearPortFeature (.node n) q, .setHubTier (.node n) q,
      .getPortDelay (.node n) q], i.wf = true → exec i s = .next (s.shake (.node n) x.address hsAck 0 0)) ∧
  (∀ (s : State) (n : Pos) (q : Setup) (x : Device), s.setupReady n q x = true → x.nports ≤ q.index % 16 ∨ x.tier = 0 →
    ∀ i ∈ [Instr.getPortErrors (.node n) q, .setPortFeature (.node n) q, .clearPortFeature (.node n) q, .getPortDelay (.node n) q],
      i.wf = true → exec i s = .next (s.setupStalled n x)) ∧
  (∀ (s : State) (n : Pos) (q : Setup) (x : Device), s.setupReady n q x = true → x.nports ≤ q.index % 16 →
    q.isReq 1 0x01 = true → exec (.getPortStatus (.node n) q) s = .next (s.setupStalled n x)) ∧
  (∀ (s : State) (n : Pos) (q : Setup) (x : Device) (y : Port) (f : Nat), s.setupReady n q x = true → x.ports[q.index % 16]? = some y →
    f = q.value % 256 →
    (q.isReq 1 0x03 = true → (f = 2 ∧ y.state ≠ .disabled ∧ y.state ≠ .enabled ∧ y.state ≠ .suspended) ∨ (f = 3 ∧ y.state ≠ .enabled) ∨
      (f = 4 ∧ y.state ≠ .suspended ∧ y.state ≠ .resuming) ∨ f = 5 ∨ (f = 7 ∧ y.state ≠ .enabled) ∨ (0x10 ≤ f ∧ f ≤ 0x15) →
      exec (.setPortFeature (.node n) q) s = .next (s.setupStalled n x)) ∧
    (q.isReq 1 0x04 = true → f = 2 ∨ f = 3 ∨ f = 4 ∨ (f = 5 ∧ y.state ≠ .enabled) ∨ f = 7 →
      exec (.clearPortFeature (.node n) q) s = .next (s.setupStalled n x))) ∧
  ∀ (s : State) (n : Pos) (q : Setup) (x : Device) (k : Fin 16) (y : Port), s.setupReady n q x = true → k.val = q.index % 16 →
    x.ports[k.val]? = some y → k.val < x.nports →
    (q.isReq 1 0x01 = true → q.dir = true → q.count = 1 →
      exec (.getPortStatus (.node n) q) s = .next ((s.setupStart n).setupTaken n q x [y.word])) ∧
    (q.isReq 1 0x05 = true → q.dir = false → q.count = 0 → 1 ≤ q.value % 8 → q.value % 8 ≤ 4 →
      exec (.setHubTier (.node n) q) s =
        .next (((s.setupStart n).modDev n fun z => { z with tier := BitVec.ofNat 3 q.value }).setupTaken n q x [])) ∧
    (x.tier ≠ 0 →
      (q.isReq 1 0x02 = true → q.dir = true → q.count = 4 →
        exec (.getPortErrors (.node n) q) s =
          .next (((s.setupStart n).modPort (.hub n k) fun z => { z with errs := PortErrors.init }).setupTaken n q x
            [y.errs.blk.zeroExtend 36, y.errs.crc.zeroExtend 36, y.errs.misroute.zeroExtend 36, y.errs.collision.zeroExtend 36])) ∧
      (q.isReq 1 0x06 = true → q.dir = true → q.count = 1 →
        exec (.getPortDelay (.node n) q) s = .next ((s.setupStart n).setupTaken n q x
          [BitVec.ofNat 36 (y.delay.oneWay.toNat + y.delay.valid.toNat * 2 ^ 20 + y.delay.stale.toNat * 2 ^ 21)])) ∧
      (q.dir = false → q.count = 0 →
        (q.isReq 1 0x03 = true →
          (q.value % 256 = 1 → y.state = .off ∨ y.state = .fault → exec (.setPortFeature (.node n) q) s =
            .next ((((s.setupStart n).modPort (.hub n k) fun w => { w with state := .off, cause := .none, overcurrent := false }).portPowered
              (.hub n k)).setupTaken n q x [])) ∧
          (q.value % 256 = 2 → y.state = .disabled ∨ y.state = .enabled ∨ y.state = .suspended → exec (.setPortFeature (.node n) q) s =
            .next ((((s.setupStart n).failSubtree (.hub n k)).requestReset (.hub n k) false).setupTaken n q x [])) ∧
          (q.value % 256 = 3 → y.state = .enabled → exec (.setPortFeature (.node n) q) s =
            .next (((s.setupStart n).modPort (.hub n k) fun w => { w with suspendReq := true }).setupTaken n q x [])) ∧
          (q.value % 256 = 4 → y.state = .suspended → exec (.setPortFeature (.node n) q) s =
            .next (((s.setupStart n).requestResume (.hub n k) false).setupTaken n q x [])) ∧
          (q.value % 256 = 4 → y.state = .resuming → exec (.setPortFeature (.node n) q) s = .next ((s.setupStart n).setupTaken n q x [])) ∧
          (q.value % 256 = 6 → exec (.setPortFeature (.node n) q) s =
            .next (((s.setupStart n).modPort (.hub n k) fun w => { w with wakeEn := true }).setupTaken n q x [])) ∧
          (q.value % 256 = 7 → y.state = .enabled → exec (.setPortFeature (.node n) q) s =
            .next ((if y.rx.rate = some .hr ∧ (y.stepPending = false ∨ y.stepFrom = 0) then
              (s.setupStart n).modPort (.hub n k) fun w => { w with stepPending := true, stepFrom := max 1 (x.link.course + 8).toNat }
              else s.setupStart n).setupTaken n q x []))) ∧
        (q.isReq 1 0x04 = true →
          (q.value % 256 = 1 → exec (.clearPortFeature (.node n) q) s =
            .next (((s.setupStart n).portOff (.hub n k)).setupTaken n q x [])) ∧
          (q.value % 256 = 5 → y.state = .enabled → exec (.clearPortFeature (.node n) q) s =
            .next (((s.setupStart n).disablePort (.hub n k)).setupTaken n q x [])) ∧
          (q.value % 256 = 6 → exec (.clearPortFeature (.node n) q) s =
            .next (((s.setupStart n).modPort (.hub n k) fun w => { w with wakeEn := false }).setupTaken n q x [])) ∧
          (∀ b : Nat, q.value % 256 = 0x10 + b → b ≤ 5 → exec (.clearPortFeature (.node n) q) s =
            .next (((s.setupStart n).modPort (.hub n k) fun w =>
              { w with change := w.change &&& ~~~(BitVec.ofNat 6 (2 ^ b)) }).setupTaken n q x [])))))

/-- Packets at a node that answers, read from the blocks that arrive with its scrambler (R31, R66–R68, R78–R80, R84); what its side has heard
moves on to the end of them. An OUT to a periodic or paced endpoint: a hold packet, and an immediate one in turn, puts its payload out; a timed
one with a place left is kept as a release; one out of turn is acknowledged alone, a halted endpoint answers STALL and one that cannot take it
NAK; with NOACK nothing is answered, and one to every node (R64) is applied without an answer. An IN returns exactly the words it asks for, of
the newest sample, words that a shorter sample does not give being free (assumption 15); a SETUP starts its request; an ACK of the sample last
sent turns the toggle. A release that reaches its time puts its payload out, and one whose node has no valid time is late. A node that is powered
and whose link is up becomes ready. -/
def Obligations.NodePacketsAreTaken : Prop :=
  (∀ (s : State) (n : Pos) (w : Wire) (t : State) (x : Device), t = s.heardAt (.node n) w → t.dev n = some x → x.answers = true →
    ∀ (pkt : Packet) (h : Header) (ws : List Word) (l : Bool), pkt = s.receive (.down (.node n)) w →
    (h.ty = tOut → pktType pkt tOut = true → parsePacket pkt = .data h ws l false → h.addr = 4095 → x.epKind h.ep = 1 → h.rel ≠ 3 →
      ∀ busy : Bool, exec (.outReceive n w busy) s = .next (t.applyOut n h.ep ws)) ∧
    (h.ty = tOut → pktType pkt tOut = true → parsePacket pkt = .data h ws l false → h.addr = x.address → h.addr ≠ 4095 → h.ep ≠ 0 →
      x.epKind h.ep = 1 → h.rel ≠ 3 → ∀ (busy : Bool) (say : State → BitVec 4 → State),
      (∀ (u : State) (code : BitVec 4), say u code = (if h.noack then u else u.shake (.node n) x.address code h.ep (h.seq &&& 1))) →
      (h.hold = true → exec (.outReceive n w busy) s = .next (say (t.applyOut n h.ep ws) hsAck)) ∧
      (h.hold = false → (x.ep h.ep).halted = true → exec (.outReceive n w busy) s = .next (say t hsStall)) ∧
      (h.hold = false → (x.ep h.ep).halted = false →
        (h.seq.getLsbD 0 ≠ (x.ep h.ep).expToggle → exec (.outReceive n w busy) s = .next (say t hsAck)) ∧
        (h.seq.getLsbD 0 = (x.ep h.ep).expToggle → busy = true → exec (.outReceive n w busy) s = .next (say t hsNak)) ∧
        (h.seq.getLsbD 0 = (x.ep h.ep).expToggle → busy = false →
          (h.rel = 0 → exec (.outReceive n w busy) s = .next (say ((t.applyOut n h.ep ws).modDev n fun y =>
            y.modEp h.ep fun e => { e with expToggle := !e.expToggle }) hsAck)) ∧
          (h.rel ≠ 0 → x.time.valid = true → ((x.localNs t.time.mono : Nat) : Int) ≤ fullTime ((ws[0]?).getD 0) (x.localNs t.time.mono) →
            (x.ep h.ep).releases.length < wbits ((x.board.desc[4]?).getD 0) 31 24 →
            exec (.outReceive n w busy) s = .next (say ((t.modDev n fun y => y.modEp h.ep fun e => { e with releases := e.releases ++
              [⟨BitVec.ofInt 64 (fullTime ((ws[0]?).getD 0) (x.localNs t.time.mono)), h.rel == 2, h.tag, ws.drop 1⟩] }).modDev n fun y =>
              y.modEp h.ep fun e => { e with expToggle := !e.expToggle }) hsAck))))) ∧
    (pktType pkt tIn = true → parsePacket pkt = .token h → h.addr = x.address → h.noack = false → h.ep ≠ 0 → x.epKind h.ep = 2 → x.nports = 0 →
      (x.ep h.ep).halted = false → ∀ busy : Bool, exec (.inTokenReceive n w (some ws) busy) s =
        .next ((t.freeWord.2.modDev n fun y => y.modEp h.ep fun e => { e with sample := some ws }).sendData (.node n) h.route x.address h.ep
          (if (x.ep h.ep).sendToggle then 1 else 0) (sized t.freeWord.1 ws h.len) false)) ∧
    (∀ (w0 w1 : Word) (own : Option (List Word)), h.ty = tSetup → pktType pkt tSetup = true → parsePacket pkt = .data h [w0, w1] l false →
      h.addr = x.address → h.ep = 0 → exec (.setupReceive n w own) s = .next (t.takeSetup n ⟨w0, w1⟩ (!h.noack) own)) ∧
    (∀ k : Shake, pktType pkt tHs = true → parsePacket pkt = .shake k → k.addr = x.address → k.ep ≠ 0 → k.bulk = false → k.code = hsAck →
      exec (.nodeHandshakeReceive n w) s = .next (t.modDev n fun y => y.modEp k.ep fun e =>
        if e.sample.isSome && k.seq.getLsbD 0 == e.sendToggle then { e with sendToggle := !e.sendToggle } else e))) ∧
  (∀ (s : State) (n : Pos) (x : Device) (ep : BitVec 4) (r : Release), s.dev n = some x → nextRelease (x.ep ep).releases = some r →
    (x.time.valid = true → exec (.releaseFire n ep) s =
      .next ((s.modDev n fun y => y.modEp ep fun e => { e with releases := e.releases.erase r }).applyOut n ep r.payload)) ∧
    (x.time.valid = false → exec (.releaseFire n ep) s = .next (if r.lateFire then
        ((s.modDev n fun y => y.modEp ep fun e => { e with releases := e.releases.erase r }).modDev n fun y => y.lateRelease ep r.tag).applyOut n
          ep r.payload
      else (s.modDev n fun y => y.modEp ep fun e => { e with releases := e.releases.erase r }).modDev n fun y => y.lateRelease ep r.tag))) ∧
  (∀ (s : State) (n : Pos), (∀ x ∈ s.devices, x.pos = n → x.powered = true ∧ x.link.phase = .up) →
    exec (.nodeReady n) s = .next (s.modDev n fun x => { x with ready := true }))

/-- The gang exchange (R373–R375). Gangway B answers the information of its controller, and takes the first SET_GANG that passes the checks, or
STALLs on one that it may not take. Gangway A's firmware reads the descriptor and the information of a controller below and sends SET_GANG. -/
def Obligations.GangRequestsArePerformed : Prop :=
  (∀ (s : State) (q : Setup), s.gb.answers = true →
    (q.isReq 2 0x10 = true → q.dir = true → q.count = 3 → s.gang.info ≠ [] →
      exec (.getGangInfo (.dev .gb q)) s = .next (State.sendData (State.modDevAt ((s.gbEdge .gb).shake .gb s.gb.address hsAck 0 0) .gb fun y =>
        { y with addr := y.addrNext.or y.addr, addrNext := none }) .gb 0 s.gb.address 0 1 (s.gbEdge .gb).gang.info true)) ∧
    (q.isReq 2 0x11 = true → q.dir = false → q.count = 3 → ∀ w0 w1 w2 : Word,
      ((s.gbEdge .gb).gang.role ≠ .ridge → (s.gbEdge .gb).gang.configured = false →
        exec (.setGang (.dev .gb q [w0, w1, w2])) s = .next ((s.gbEdge .gb).shake .gb s.gb.address hsStall 0 0)) ∧
      ((s.gbEdge .gb).gang.role ≠ .ridge → (s.gbEdge .gb).gang.configured = true → (s.gbEdge .gb).gang.phase ≠ .mismatch →
        (s.gbEdge .gb).gang.accepted ≠ some (w0, w1, w2) → (s.gbEdge .gb).gang.checkSet w0 w1 = none →
        exec (.setGang (.dev .gb q [w0, w1, w2])) s = .next (State.modDevAt (((s.gbEdge .gb).acceptGang w0 w1 w2).shake .gb s.gb.address hsAck
          0 0) .gb fun y => { y with addr := y.addrNext.or y.addr, addrNext := none })))) ∧
  (∀ (s : State), s.enabled .ga = true →
    (∀ (desc : List Word) (w0 w1 w2 : Word),
      (s.gang.exchanged = true → exec (.getGangInfo (.ga desc [w0, w1, w2])) s =
        .next ((s.emit (.gangControl (mkSetup true 2 0x10 0 0 3) [])).modGang fun g => { g with below := some (w0, w1, w2) })) ∧
      (s.gang.exchanged = false → wbits ((desc[3]?).getD 0) 35 28 = 0x20 → exec (.getGangInfo (.ga desc [w0, w1, w2])) s =
        .next ((((((s.emit (.gangControl (mkSetup true 0 1 1 0 desc.length) [])).emit (.gangControl (mkSetup false 0 2 1 0 0) [])).emit
          (.gangControl (mkSetup false 0 3 1 0 0) [])).emit (.gangControl (mkSetup true 2 0x10 0 0 3) [])).setFld .GANG_XCHG_STATUS 0).modGang
          fun g => { g with below := some (w0, w1, w2), exchanged := true }))) ∧
    (∀ (a : Answer) (ws : List Word), s.gang.exchanged = true → s.gangWords = some ws →
      exec (.setGang (.ga a)) s = .next (State.setFld { s.emit (.gangControl (mkSetup false 2 0x11 0 0 3) ws) with
        gang := { s.gang with setSent := a == Answer.ack } } .GANG_XCHG_STATUS (if a == Answer.stall then stGangMismatch else 0))))

/-! ## Links -/

/-- The events at a port (R28, R29, R48–R54, R91, R93, R95, R110, R133, R134, R373): each takes the port from the state the rule names to the next
one, with the blocks it sends and the event it reports. -/
def Obligations.PortsFollowTheirEvents : Prop :=
  ∀ (s : State) (p : PortRef) (x : Port), s.port p = some x →
    (x.state = .powered → x.present = true → ∀ u : State, u = (((s.modPort p fun y => { y with state := .disabled }).portEvent p
      .TRK_PEVENT_ATTACH chgAttach).awaitDevice p) →
      exec (.attach p) s = .next ((if p = .ga then u.requestReset .ga false else u).settle p)) ∧
    (x.state.linked = true → x.present = false → exec (.detach p) s = .next (((((((if p.isRoot then s.endSubtree p else s).gaGone p).modPort p fun y =>
      { y.unlink with state := .powered, hrFails := 0, recovering := false, stepped := false }).portEvent p .TRK_PEVENT_DETACH chgDetach).emit
        (.drive (.up p) false)).settle p))) ∧
    (∀ (level : Bool) (u : State), u = (if level = true ∧ (x.state = .off ∨ x.state = .fault) then
        (s.modPort p fun y => { y with present := level }).latchAttach p else s.modPort p fun y => { y with present := level }) →
      ((∀ k : Fin 16, p ≠ .root k) → exec (.presenceChange p level .same) s = .next u) ∧
      (∀ k : Fin 16, p = .root k → exec (.presenceChange p level .same) s =
        .next (if x.state = .powered ∧ x.present = !level then u.wakeSource 2 [trunkDomain k] else u))) ∧
    (∀ h k, p = .hub h k → ∀ level : Bool, exec (.activityDetect p level) s = .next (s.modPort p fun y => { y with activity := level })) ∧
    (x.state = .resetting → x.rx.train = .hold →
      (∀ blocks : List Block, blocks ≠ [] → (∀ b ∈ blocks, b = ctlBlock cChirp (2 ^ 20 + 0x5A5A5)) →
        exec (.chirpReceive p blocks) s = .next (s.modPort p fun y =>
          { y with chirps := max y.chirps blocks.length, farHrCap := true, farMarginCap := false })) ∧
      (8 ≤ x.chirps → s.hrAllowed p x = true → exec (.resetHoldEnd p) s =
        .next ((s.emit (.blocks (.up p) (List.replicate 16 (ctlBlock cChirpAck (2 ^ 20 + 0xA5A5A))))).startTraining p .hr)) ∧
      (x.chirps < 8 ∨ s.hrAllowed p x = false → exec (.resetHoldEnd p) s =
        .next (if p = .ga then s.portFault .ga .train else s.startTraining p .br))) ∧
    (x.rx.train = .eq → ∀ h v : BitVec 8,
      (20 ≤ h.toNat → 20 ≤ v.toNat → exec (.presetRequest p h v) s = .next (s.modPort p fun y => { y with rx := { y.rx with eyeOk := true } })) ∧
      (h.toNat < 20 ∨ v.toNat < 20 → exec (.presetRequest p h v) s = .next ((s.freeWord.2.modPort p fun y =>
        { y with rx := { y.rx with eyeOk := false, request := s.freeWord.1.setWidth 3 } }).sendTrain (.up p) 1))) ∧
    (∀ (d : Pos) (u : State), x.state = .resetting ∨ x.state = .resuming → p.below = some d → x.rx.sixteen = true → x.rx.blockLock = true →
      x.rx.eyeOk = true → s.farReady p x.rx.rate = true → u = ((((((s.modPort p fun y => { y with
        state := .enabled, rx := { y.rx with train := .up }, lastRate := y.rx.rate, attachLatch := false, wakeFor := .none
        brFails := if x.state = .resetting then 0 else y.brFails, hrFails := if x.rx.rate = some .hr then 0 else y.hrFails
        stepped := y.stepped && !(x.rx.rate == some .hr), recovering := false, started := false, enabledAt := s.course.count.toNat
        window := { y.window with started := false }, cause := .none, byHub := false, eyed := false
        seed := scrSeed 0, seedBefore := scrSeed 0 }).modDev d fun y => { y with link := { y.link with
          phase := .up, synced := false, lastRate := y.link.rx.rate, waking := false, seed := scrSeed 0
          rx := { y.link.rx with train := .up } } }).emit (.blocks (.down (.node d)) [idleBlock (scrSeed 0) 1])).emit
        (.blocks (.up p) [idleBlock (scrSeed 0) 1])).portEvent p
        (if x.state = .resetting then .TRK_PEVENT_RESET_DONE else .TRK_PEVENT_RESUMED) chgReset).owedStops p) →
      (∀ e ∈ u.flows, e.2.par.ty.scheduled = true → p.covers e.2.pos = false) →
      exec (.trainingUp p) s = .next ((if x.state = .resetting then u.awaitDevice p else u.resumeByHub d).settle p)) ∧
    (x.rx.training = true →
      (x.state = .resetting → x.rx.rate ≠ some .hr → x.brFails.toNat < 2 →
        exec (.trainingTimeout p) s = .next ((s.modPort p fun y => { y with brFails := y.brFails + 1 }).startHold p)) ∧
      (x.state = .resetting → x.rx.rate ≠ some .hr → 2 ≤ x.brFails.toNat → ∀ u : State,
        u = (s.modPort p fun y => { y with brFails := 3 }).portFault p .train →
        exec (.trainingTimeout p) s = .next (match p with | .root k => u.ppmTrainFault k.val | _ => u)) ∧
      (x.state = .resetting → x.rx.rate = some .hr → exec (.trainingTimeout p) s = .next (if p = .ga ∧ 2 ≤ x.hrFails.toNat
        then (s.hrFailed p).portFault .ga .train else (s.hrFailed p).startHold p)) ∧
      (x.state = .resuming → x.rx.rate ≠ some .hr → exec (.trainingTimeout p) s = .next (s.requestReset p false)) ∧
      (x.state = .resuming → x.rx.rate = some .hr → exec (.trainingTimeout p) s = .next ((s.hrFailed p).requestReset p false))) ∧
    (x.state = .enabled → x.suspendReq = true → exec (.portSuspendEntry p) s = .next (((((s.gaDown p).modPort p Port.asleep).emit
      (.blocks (.up p) suspendBlocks)).portEvent p .TRK_PEVENT_SUSPENDED 0).settle p)) ∧
    (x.wakeFor = .reset → exec (.wakeSendEnd p) s = .next ((s.modPort p fun y =>
      { y with wakeFor := .none, state := .resetting, rx := { Rx.init with train := .hold } }).emit (.drive (.up p) true))) ∧
    (x.wakeFor = .resume → exec (.wakeSendEnd p) s = .next ((s.modPort p fun y => { y with
      wakeFor := .none
      rx := { y.rx with train := .lock, rate := some (s.resumeRate p x), blockLock := false, gotReady := 0, sentReady := 0, sent := 0, attempt := 1
                        eyeOk := false, request := y.rx.farPreset } }).sendTrain (.up p) 1)) ∧
    (x.state = .enabled → x.started = true → exec (.pingSend p) s = .next ((s.modPort p fun y =>
      { y with delay := { (if y.delay.awaiting.isSome then y.delay.miss else y.delay) with
          awaiting := some (BitVec.ofNat 8 (s.linkCourse p % 256))
          pings := (if y.delay.awaiting.isSome then y.delay.miss else y.delay).pings + 1 } }).emit
            (.blocks (.up p) [ctlBlock cPing (s.linkCourse p % 256 * 2 ^ 20)]))) ∧
    (∀ (q : BitVec 8) (b : Block) (rtt : Nat) (late : Bool), x.state = .enabled → x.delay.awaiting = some q →
      exec (.pongReceive p b rtt late) s = .next (if Block.isSet b cPong = true ∧ BitVec.ofNat 8 (Block.arg b / 2 ^ 20) = q ∧ late = false then
        s.modPort p fun y => { y with delay := { y.delay with awaiting := none, lastSeq := BitVec.ofNat 8 (Block.arg b / 2 ^ 20)
                                                              sum := y.delay.sum + (rtt - Block.arg b % 2 ^ 20), count := y.delay.count + 1 } }
      else s.modPort p fun y => { y with delay := y.delay.miss }))

/-- The events at a downstream side, of a node or hub or of gangway B, whose first edges the controller notes (R39, R42, R45–R49, R103, R111, R112,
R130, R131, R133, R366): what it takes from its link, and what it sends. A hub passes on what concerns its ports. -/
def Obligations.DownstreamSidesFollowTheirEvents : Prop :=
  ∀ (s t : State) (d : DevRef) (x : Device), s.devAt d = some x → t = s.gbEdge d →
    (x.powered = true ∨ d = .gb → x.link.phase ≠ .suspended → ∀ (u v : State) (margin : Bool),
      u = (match t.hubAt d with
        | some h => if wbits ((h.board.hub[1]?).getD 0) 19 19 = 1 then
            { t with devices := t.devices.map fun y => if y.pos.under h.pos && y.pos != h.pos then y.dark else y } else t
        | none => t) →
      (d = .gb → margin = true ∧ v = (u.gbAborted d x).modDevAt d Device.reset) →
      (d ≠ .gb → margin = Config.freeBool s.free ∧ v = { u.modDevAt d Device.reset with free := s.free + 1 }) →
      exec (.resetDetect d) s = .next (if x.cap 15 then
        v.emit (.blocks (.down d) [ctlBlock cChirp (margin.toNat * 2 ^ 21 + 2 ^ 20 + 0x5A5A5)]) else v)) ∧
    (x.link.phase = .chirp → ∀ blocks : List Block, 4 ≤ (blocks.filter fun b => Block.isSet b cChirpAck).length →
      exec (.chirpAckReceive d blocks) s = .next ((t.modLink d fun l => { l with phase := .train, rx := lockRx .hr none }).emit
        (.drive (.down d) false))) ∧
    (x.link.phase = .up →
      (∀ (blocks : List Block) (idle : Bool), (∃ b ∈ blocks, Block.isSet b cSuspend = true ∧ Block.arg b % 16 = 0) ∨
          (idle = true ∧ 4 ≤ (blocks.filter fun b => Block.isSet b cSuspend).length) → ∀ u : State,
        u = (s.modLink d fun l => { l with
          phase := .suspended, synced := false, lastRate := l.rx.rate, waking := false
          rx := { l.rx with train := .idle, blockLock := false, gotReady := 0 } }) →
        exec (.suspendReceive d blocks idle) s = .next (match u.hubAt d with
          | some h => h.enabledPorts.foldl (fun (u : State) p =>
              (u.modPort p fun y => { y.asleep with byHub := true }).emit (.blocks (.up p) suspendBlocks)) u
          | none => u)) ∧
      (∀ (b : Block) (hold : Nat), Block.isSet b cPing = true → exec (.pingReceive d b hold) s =
        .next (s.emit (.blocks (.down d) [ctlBlock cPong (Block.arg b / 2 ^ 20 * 2 ^ 20 + min hold (2 ^ 20 - 1))]))) ∧
      (∀ (b0 b1 b2 : Block) (residence stamp : Nat),
        (readStart x.link.expected b0 b1 b2 = none → exec (.courseStartReceive d b0 b1 b2 residence stamp) s =
          .next (if d = .gb then (t.missStart d).gbStart none stamp else t.missStart d)) ∧
        (∀ (st : Started) (u : State), readStart x.link.expected b0 b1 b2 = some st →
          u = ((t.modLink d fun l => l.begin st s.time.mono).modDevAt d fun y => { y with time := y.time.anchorAtStart st.time s.time.mono }) →
          (d = .gb → exec (.courseStartReceive d b0 b1 b2 residence stamp) s = .next (u.gbStart (some st) stamp)) ∧
          (∀ (n : Pos) (v : State), d = .node n → v = (if x.time.valid then u.lateByStep n (x.localNs s.time.mono) else u) →
            exec (.courseStartReceive d b0 b1 b2 residence stamp) s = .next (match v.hubAt d with
              | some h => v.forwardStart h st b0 b1 b2 residence
              | none => v))))) ∧
    (x.link.synced = true → 1 ≤ x.link.missed → exec (.courseSyncLost d) s = .next (s.missStart d)) ∧
    (x.link.synced = true → ∀ u : State, u = (s.modDevAt d fun y => { y with
        link := { y.link with missed := y.link.missed + 1, synced := decide (y.link.missed + 1 < 2) }, time := y.time.miss }) →
      s.missStart d = (if x.link.missed = 0 then u else match d with | .node n => u.linkFailure n.above | .gb => u)) ∧
    (x.link.synced = false → s.missStart d = s) ∧
    (∀ n : Pos, d = .node n → exec (.nodeTimeInvalid n) s =
      .next (s.modDev n fun y => if 64 ≤ y.time.missed then { y with time := { y.time with valid := false } } else y)) ∧
    (∀ n : Pos, d = .node n → x.link.phase = .suspended → x.cap 14 = true → x.link.waking = false → exec (.nodeRemoteWake n) s =
      .next ((s.modDev n fun y => { y with link := { y.link with waking := true } }).emit
        (.blocks (.down (.node n)) [ctlBlock cWake 0xAAAAAAA])))

/-- The events at a receiver of either side (R32, R33, R43, R46, R51, R55, R56, R91, R104, R111–R113, R272, R384): training, block lock, block
errors, WAKE and STOP. -/
def Obligations.ReceiversFollowTheirBlocks : Prop :=
  (∀ (s : State) (p : PortRef) (x : Port) (blocks : List Block), s.port p = some x →
    (∀ (eye : Eye) (sent : Nat), wfEye (.up p) eye = true → x.state = .resetting ∨ x.state = .resuming → x.rx.training = true →
      exec (.trainReceive (.up p) blocks eye sent) s = .next (s.trainSide (.up p) blocks (eyeMeets eye) (s.forcedPreset p).isSome sent)) ∧
    (x.rx.blockLock = false → exec (.blockLockGained (.up p)) s =
      .next (s.modPort p fun y => { y with rx := { y.rx with blockLock := true } })) ∧
    (x.rx.blockLock = true → s.enabled p = false → exec (.blockLockLost (.up p)) s =
      .next (s.modPort p fun y => { y with rx := { y.rx with blockLock := false } })) ∧
    (x.rx.blockLock = true → s.enabled p = true → exec (.blockLockLost (.up p)) s = .next (State.linkFailure (match p.copy with
      | none => s
      | some k => ((s.happen .TRK_EVENT_LOCK_LOST ((linkSrc p).getD 0) k).linkEvent p 0x40 0).error catLink 0x01 blkTrk .normal (linkDetail p))
      p)) ∧
    (8 ≤ longestRun (fun b => Block.isSet b cWake) blocks → s.wakeEnabled p x = true →
      (x.state = .suspended → exec (.wakeRecognised (.up p) blocks) s =
        .next (((s.requestResume p true).portEvent p .TRK_PEVENT_WAKE chgWake).hubWakesUp p)) ∧
      (x.state = .resuming → x.wakeFor = .resume → ∀ u : State,
        u = (s.modPort p fun y => { y with remoteWake := true }).portEvent p .TRK_PEVENT_WAKE chgWake →
        exec (.wakeRecognised (.up p) blocks) s = .next (if p = .ga then u.happen .GANG_EVENT_REMOTE_WAKE 48 else u)))) ∧
  (∀ (s : State) (d : DevRef) (x : Device), s.devAt d = some x →
    (x.link.rx.blockLock = false → ∀ u : State, u = State.gbEdge (s.modRx (.down d) fun r => { r with blockLock := true }) d →
      exec (.blockLockGained (.down d)) s = .next (if x.link.phase = .train then u.sendTrain (.down d) 1 else u)) ∧
    (x.link.rx.blockLock = true → ∀ u : State, u = s.modRx (.down d) (fun r => { r with blockLock := false }) →
      exec (.blockLockLost (.down d)) s = .next (if d = .gb ∧ u.gbUp = true then
        (u.happen .TRK_EVENT_LOCK_LOST 49 17).error catLink 0x01 blkTrk .normal 17 else u)) ∧
    (∀ blocks : List Block, 8 ≤ longestRun (fun b => Block.isSet b cWake) blocks → x.link.phase = .suspended →
      exec (.wakeRecognised (.down d) blocks) s = .next (State.modLink (if d = .gb then s.gbResumes x.link.waking else s) d fun l => { l with
        phase := .train, waking := false
        rx := { l.rx with train := .lock, rate := l.lastRate, blockLock := false, gotReady := 0, sentReady := 0, sent := 0, attempt := 1
                          eyeOk := false, request := l.rx.farPreset } })) ∧
    (∀ (blocks : List Block) (eye : Eye) (sent : Nat) (u : State) (y : Device), wfEye (.down d) eye = true →
      u = (s.gbEdge d).modLink d (fun l => l.meetTrain blocks) → u.devAt d = some y → y.link.phase = .train →
      exec (.trainReceive (.down d) blocks eye sent) s = .next (if d = .gb
        then (u.trainSide (.down d) blocks (eyeMeets eye) false sent).modDevAt .gb Device.gbUp
        else u.trainSide (.down d) blocks (eyeMeets eye) false sent))) ∧
  (∀ (s : State) (x : Side) (r : Rx) (blocks : List Block) (eyeOk forced : Bool) (sent : Nat),
    (s.sendTrain x sent).rxOf x = some r → s.trainSide x blocks eyeOk forced sent =
      (if (r.takeTrain blocks eyeOk forced).train = r.train then (s.sendTrain x sent).modRx x fun _ => r.takeTrain blocks eyeOk forced
      else ((s.sendTrain x sent).modRx x fun _ => r.takeTrain blocks eyeOk forced).sendTrain x 1)) ∧
  (∀ (s : State) (x : Side) (r : Rx) (n : Nat), s.rxOf x = some r → n ≠ 0 → r.training = true → r.blockLock = true → s.sendTrain x n =
    (s.modRx x fun r => r.count n).emit (.blocks x ((List.range n).map fun i => trainBlock (r.count i)))) ∧
  (∀ (s : State) (x : Side) (b : Block) (k : Nat) (origin : Bool),
    (Block.faulty (s.idleDue x k) b = false → exec (.blockInError x (k, b) origin) s = .next s) ∧
    (Block.faulty (s.idleDue x k) b = true →
      (∀ (h : Pos) (q : Fin 16), x = .up (.hub h q) → exec (.blockInError x (k, b) origin) s = .next ((if origin then
          s.modPort (.hub h q) fun y => { y with errs := { y.errs with blk := inc32 y.errs.blk } } else s).emit
        (.blocks (.down (.node h)) [Block.killed b]))) ∧
      (∀ p : PortRef, x = .up p → (∀ h q, p ≠ .hub h q) → exec (.blockInError x (k, b) origin) s = .next (if origin then s.modPort p fun y => { y with
        ledger := { y.ledger with blk := inc32 y.ledger.blk }, window := { y.window with blk := y.window.blk + 1 } } else s)) ∧
      (x = .down .gb → exec (.blockInError x (k, b) origin) s = .next (if origin then s.addSat .TRK_LEDGER_BLK_COUNT 1 17 else s)) ∧
      (∀ h : Pos, x = .down (.node h) → exec (.blockInError x (k, b) origin) s = .next (match s.hubAt (.node h) with
        | some y => y.enabledPorts.foldl (fun (u : State) p => u.emit (.blocks (.up p) [Block.killed b])) s
        | none => s)))) ∧
  (∀ (s : State) (b : Block), Block.isSet b cStop = true →
    (∀ (n : Pos) (x : Device) (u v : State), s.dev n = some x →
      u = (match s.hubAt (.node n) with
        | some h => h.enabledPorts.foldl (fun (u : State) p => u.emit (.blocks (.up p) [b])) s
        | none => s) →
      v = u.modDev n (fun y => { y with stopped := true, eps := y.eps.map fun e => { e with releases := [] } }) →
      exec (.stopReceive (.down (.node n)) b) s = .next (if x.nports = 0 then v.emit (.stopAction n) else v)) ∧
    exec (.stopReceive (.down .gb) b) s = .next (if s.flag .ENG_STOP_CFG_GANG_EN = true then s.stopTrigger 5 (some (.down .gb)) else s) ∧
    exec (.stopReceive (.up .ga) b) s = .next (if s.flag .ENG_STOP_CFG_GANG_EN = true then s.stopTrigger 5 (some (.up .ga)) else s) ∧
    (∀ p : PortRef, p ≠ .ga → exec (.stopReceive (.up p) b) s = .next s))

/-- A hub that is up (R72–R75, R104, R264): a packet with its own address it takes, one for a port it sends to the port, ENABLED or else counted, and
handshakes and broadcasts to every ENABLED port; upstream, blocks from one port go up and those of another in the same block time
count a collision there. -/
def Obligations.HubsForward : Prop :=
  ∀ (s : State) (h : Pos) (x : Device), s.dev h = some x → x.nports ≠ 0 → x.link.phase = .up →
    (∀ (pkt on : Wire) (w : Word) (rest : Packet) (own : State → State), s.receive (.down (.node h)) pkt = some w :: rest →
      1 ≤ wbits w 35 32 → wbits w 35 32 ≤ tBulkAck → on = { pkt with blocks := hubBlocks (some w :: rest) pkt.blocks } →
      (∀ u : State, own u = (u.heardAt (.node h) pkt).nodeTake h (some w :: rest) false none none) →
      (x.way w = .self → exec (.hubDownstreamForward h pkt) s = .next (own s)) ∧
      (x.way w = .all → exec (.hubDownstreamForward h pkt) s =
        .next (own (x.enabledPorts.foldl (fun (u : State) p => u.emit (.forward (.up p) on)) s))) ∧
      (x.way w = .discard → exec (.hubDownstreamForward h pkt) s = .next s) ∧
      (∀ k : Fin 16, x.way w = .port k.val → k.val < x.nports → x.tier ≠ 0 → exec (.hubDownstreamForward h pkt) s =
        .next (if s.enabled (.hub h k) then s.emit (.forward (.up (.hub h k)) on)
          else s.modPort (.hub h k) fun y => { y with errs := { y.errs with misroute := inc32 y.errs.misroute } }))) ∧
    (∀ (k : Fin 16) (pkt up : Wire), s.enabled (.hub h k) = true → parsePacket (s.receive (.up (.hub h k)) pkt) ≠ .bad true → pkt.blocks ≠ [] →
      up = { pkt with blocks := pkt.blocks.map fun b => if Block.isData b then b else Block.killed b } →
      exec (.hubUpstreamForward h [(k, pkt)]) s = .next (s.emit (.forward (.down (.node h)) up)) ∧
      ∀ (j : Fin 16) (other : Wire), k.val < j.val → s.enabled (.hub h j) = true →
        parsePacket (s.receive (.up (.hub h j)) other) ≠ .bad true → other.blocks ≠ [] →
        pkt.first ≤ other.first → other.first < pkt.first + pkt.blocks.length →
        exec (.hubUpstreamForward h [(k, pkt), (j, other)]) s = .next ((s.emit (.forward (.down (.node h)) up)).modPort (.hub h j) fun y =>
          { y with errs := { y.errs with collision := inc32 y.errs.collision } }))

/-! ## Courses, bus time and pace -/

/-- Courses and plans (R39, R57, R123, R125–R127, R507). A course starts in a mode with courses while PD_TIME runs; the planner marks a pending
shadow plan ready unless a swap is decided, an opening flow whose route lacks an estimate moves on by a cycle, and from course 62 of a cycle on
that swap is deferred, with its event; a threshold window that has had its cycles starts afresh. -/
def Obligations.CoursesAndPlansAdvance : Prop :=
  ∀ s : State,
    (∀ eyes : List (PortRef × BitVec 8 × BitVec 8), s.pmu.mode.courses = true → s.pmu.doms[10] = .on →
      exec (.courseBoundary eyes) s = .next (s.startCourse eyes)) ∧
    (s.plan.pending = true → s.plan.ready = false → s.plan.swapAt = none → ∀ t u v : State, t = { s with plan := { s.plan with ready := true } } →
      u = t.deferOpens t.openSwap →
      v = (if u.course.running = true ∧ 62 ≤ u.course.count.toNat % 64 then u.happen .PLN_EVENT_SWAP_DEFERRED 4 else u) →
      exec .planMarkedReady s = .next (v.instructHubs.planCmds v.openSwap)) ∧
    (∀ (p : PortRef) (x : Port), s.port p = some x → x.state = .enabled → x.window.started = true → x.window.length ≤ x.window.cycles →
      exec (.marginWindowEnd p) s = .next (s.modPort p fun y => { y with window := Window.fresh (s.windowLen p) }))

/-- Bus time (R139–R143, R145, R396). With the input enabled, PPS the source and no step since the last edge, the edge that marks the second is
stamped and taken as a sample, or discarded as an outlier while LOCKED; one that PD_TIME sleeps through is lost; a pulse that does not come
counts as missed; enough pulses in turn lock; each course in HOLDOVER adds WANDER × P to the bound and reports when it passes its limit; PPS_OUT
rises as bus time less its offset passes a whole second; and bus time is rebuilt over what the AO counter measured, 30,517.578125 ns for each of
its ticks, at a core clock change that takes no trunk's symbol clock and as PD_TIME wakes from retention. -/
def Obligations.BusTimeFollowsItsEvents : Prop :=
  ∀ s : State,
    (∀ (stamp : Nat) (fall : Bool), s.pmu.doms[10] ≠ .on → exec (.ppsEdge stamp fall) s = .next s.lostPulse) ∧
    (∀ (stamp : Nat) (fall : Bool), s.pmu.doms[10] = .on → s.flag .TAPU_PPS_CFG_IN_EN = true → s.flag .TAPU_PPS_CFG_IN_FALL = fall →
      s.timeSource = 1 → s.time.stepped = false → ksorted s.regs = true → ∀ u : State,
      u = (((s.setPair .TAPU_PPS_STAMP_LO_STAMP .TAPU_PPS_STAMP_HI_STAMP (stamp / 64)).setFld .TAPU_PPS_STAT_FRAC (stamp % 64)).setFld
        .TAPU_OFFSET_OFFSET (sat32 (ppsOffset stamp))) →
      exec (.ppsEdge stamp fall) s = .next (if s.time.quality = .locked ∧ 256 * s.fld .TAPU_LOCK_CFG_LOCK_THR < (ppsOffset stamp).natAbs
        then u.ppsGone else u.ppsSample (ppsOffset stamp))) ∧
    (s.flag .TAPU_PPS_CFG_IN_EN = true → s.timeSource = 1 → s.time.stepped = false →
      exec .ppsMissing s = .next ((s.addSat .TAPU_PPS_STAT_MISSED 1).happen .TAPU_EVENT_PPS_MISSED srcTapu).ppsGone) ∧
    (s.timeSource = 1 → s.time.quality ≠ .locked → max 1 (s.fld .TAPU_LOCK_CFG_LOCK_CNT) ≤ s.time.lockRun →
      exec .ppsLock s = .next (State.setQuality { s with time := { s.time with uncert := 0, missRun := 0 } } .locked)) ∧
    (∀ limit u : Nat, s.time.quality = .holdover → limit = s.fld .TAPU_HOLD_CFG_LIMIT * 1000000000 →
      u = s.time.uncert + s.fld .TAPU_HOLD_CFG_WANDER * s.periodNs →
      exec .holdoverTick s = .next (if s.time.uncert ≤ limit ∧ limit < u then
        State.happen { s with time := { s.time with uncert := u } } .TAPU_EVENT_BOUND_EXCEEDED srcTapu
      else { s with time := { s.time with uncert := u } })) ∧
    (s.flag .TAPU_PPS_CFG_OUT_EN = true → s.pmu.doms[10] = .on →
      ((s.time.bus.toNat : Int) * 64 + (s.time.frac.toNat / 2 ^ 26 : Nat) - (BitVec.ofNat 32 (s.effFld .TAPU_PPS_OUT_OFS_OFS)).toInt) %
        (second64 : Int) < 129 →
      exec .ppsOutEdge s = .next (s.emit (.ppsOut (max 1 (s.fld .TAPU_PPS_CFG_OUT_WIDTH))))) ∧
    (∀ ticks : Nat, exec (.coreClockChange ticks 0) s =
      .next (State.rebuild { s with time := { s.time with ao := s.time.ao + BitVec.ofNat 48 ticks } } s.time.bus ticks).expireDue) ∧
    exec .aoTick s = .next { s with time := { s.time with ao := s.time.ao + 1 } } ∧
    (∀ (bus : BitVec 64) (ao : BitVec 48), s.time.snap = some (bus, ao) →
      s.wakeTime = (State.rebuild { s with time := { s.time with snap := none } } bus (s.time.ao - ao).toNat).expireDue) ∧
    (∀ (base : BitVec 64) (ticks : Nat),
      (s.rebuild base ticks).time.bus = base + BitVec.ofNat 64 (ticks * 30517578125 / 1000000) ∧
      (s.time.quality ≠ .unset → (s.rebuild base ticks).time.quality = .estimated))

/-- Encoders and estimators (R180–R182, R184, R187, R188, R199, R397). Levels held for less than the filter's time change nothing (assumption 72
names the filter of an input). A change of one level of an input counts one place in its direction and reaches the estimators that read it, at
once or, stamped in or after the CCLK of the next commit point, after that point; both levels at once are a quadrature error; with PD_TIME down
nothing is counted. An index edge reaches the estimator that reads its input, here one or none; an estimator whose source has gone is LOST, and
one without an edge for STOP_CYC cycles stops. -/
def Obligations.PaceFollowsItsEvents : Prop :=
  (∀ (s : State) (n : Fin 8) (a b : Bool) (stamp : BusTime) (hold : Nat) (t : State),
    t = { s with encs := vmod s.encs n.val fun x => { x with a := a, b := b } } →
    ((s.encs[n].a = a ∧ s.encs[n].b = b) ∨ hold < s.filtNs n → exec (.encoderEdge n a b stamp hold) s = .next s) ∧
    (s.encs[n].a ≠ a ∨ s.encs[n].b ≠ b → s.filtNs n ≤ hold → s.pmu.doms[10] ≠ .on → exec (.encoderEdge n a b stamp hold) s = .next t.lostPulse) ∧
    (s.encs[n].a ≠ a → s.encs[n].b ≠ b → s.filtNs n ≤ hold → s.pmu.doms[10] = .on →
      exec (.encoderEdge n a b stamp hold) s = .next (t.quadError n)) ∧
    (∀ (up : Bool) (u : State), (s.encs[n].a = a) ≠ (s.encs[n].b = b) → s.filtNs n ≤ hold → s.pmu.doms[10] = .on →
      up = leadsA s.encs[n].a s.encs[n].b a b →
      u = { s with encs := vmod s.encs n.val fun x => { x with a := a, b := b, up := up, count := if up then x.count + 1 else x.count - 1 } } →
      exec (.encoderEdge n a b stamp hold) s = .next (u.takeEdge ⟨n, some up, stamp⟩))) ∧
  (∀ (s : State) (x : LateEdge),
    (s.course.running = true → s.edgesLate ≠ [] ∨ (s.startOf (s.course.count.toNat + 1)).toNat ≤ x.stamp.toNat →
      s.takeEdge x = { s with edgesLate := s.edgesLate ++ [x] }) ∧
    (s.course.running = false ∨ (s.edgesLate = [] ∧ x.stamp.toNat < (s.startOf (s.course.count.toNat + 1)).toNat) →
      (s.readers 0 x.input.val = [] → s.takeEdge x = s) ∧
      (∀ e : Fin 8, s.readers 0 x.input.val = [e] → x.up = none → s.takeEdge x =
        (if (s.indexFor e).2 then (s.indexFor e).1.addSat .TAPU_ENC_ERR_INDEX_ERRS 1 x.input.val else (s.indexFor e).1)) ∧
      (∀ (e : Fin 8) (up : Bool), s.readers 0 x.input.val = [e] → x.up = some up → s.ests[e].state ≠ .lost → s.takeEdge x =
        s.estEdge e (if up ≠ s.flag .TAPU_PACE_CFG_REVERSE_DIR e.val then s.ests[e].pos + 1 else s.ests[e].pos - 1) x.stamp encoderEps))) ∧
  (∀ (s : State) (n : Fin 8) (stamp : BusTime) (hold : Nat), s.filtNs n ≤ hold →
    (s.pmu.doms[10] ≠ .on → exec (.indexEdge n stamp hold) s = .next s.lostPulse) ∧
    (s.pmu.doms[10] = .on → exec (.indexEdge n stamp hold) s = .next (s.takeEdge ⟨n, none, stamp⟩))) ∧
  (∀ (s : State) (e : Fin 8), s.ests[e].state ≠ .off → s.ests[e].state ≠ .lost →
    (s.paceKind e = 1 ∧ 2 ≤ s.ests[e].missing) ∨ (s.paceKind e = 2 ∧ 2 ≤ s.recordGone e) →
    exec (.sourceLost e) s = .next (((s.settleReleases e false false).modEst e fun x =>
      { x with state := .lost, omega := 0, alpha := 0, edges := [] }).paceEvent e .TAPU_PACE_EVENT_SOURCE_LOST)) ∧
  (∀ (s : State) (e : Fin 8), s.ests[e].state = .tracking → max 1 (s.effFld .TAPU_PACE_CFG_STOP_CYC e.val) ≤ s.ests[e].quiet →
    exec (.estimatorStopped e) s = .next ((s.modEst e fun x => { x with state := .acquiring, stopped := true, omega := 0, alpha := 0
                                                                        edges := [] }).paceEvent e .TAPU_PACE_EVENT_STOPPED))

/-! ## Rings and staging -/

/-- Descriptors (R2, R151, R206, R209, R214). Ring fetch reads up to a read's size of visible descriptors of the flow whose turn it is, where it
may post and has a tag; the descriptor that is next arrives in lane format, is stamped with the perturbations in force and may bind, and a read
that fails gives its tag back, is recorded and holds the flow; one that no read waits for is an orphan. The stage window of a slot course binds a
waiting descriptor. -/
def Obligations.DescriptorsAreFetched : Prop :=
  ∀ (s : State) (ctx : Nat) (f : Flow), s.flow ctx = some f →
    (∀ k : Nat, k = s.ringReadSize ctx f → s.ringNext = some ctx → s.host.ringTags < s.depth 2 0 256 → s.canPost = true →
      s.boot.dmaRefused = false → ∀ t u : State, t = s.turnTaken (if f.par.ty.scheduled then 0 else 1) ctx f →
      u = { t.modFlow ctx fun g => { g with fetching := k } with host := { s.host with ringTags := s.host.ringTags + 1 } } →
      exec (.ringFetchIssue ctx) s = .next ((u.setFld .HIF_TAGS_HWM (max (u.fld .HIF_TAGS_HWM) (s.host.ringTags + 1 + s.host.stageTags))).emit
        (.hostRead (s.pasidOf f.inst) (f.ring + BitVec.ofNat 64 (32 * (f.fetched.toNat % 2 ^ f.ringLog))) (32 * k)))) ∧
    (∀ (i : BitVec 16) (e : ReadEnd) (w : List Byte), e ≠ .ok ∨ w.length = 32 → f.fetching = 0 ∨ i ≠ f.fetched →
      exec (.descriptorArrival ctx i e w) s = .next s.orphanRing) ∧
    (f.fetching ≠ 0 → ∀ w0 w1 a0 a1 : Word, ∀ u : State, u = s.arrived ctx f →
      exec (.descriptorArrival ctx f.fetched .ok (laneBytes [w0, w1, a0, a1])) s =
      .next (State.bindWaiting ctx 1 ((u.modFlow ctx fun g => { g.modXfer f.fetched fun x =>
        { x with desc := some (w0, w1, a0, a1), dueAt := s.time.mono, pertOn := s.perturbed, pertSeq := s.ptbSeq } with fetched := g.fetched + 1 }).spillStaged ctx
          f.fetched))) ∧
    (f.fetching ≠ 0 → ∀ (e : ReadEnd) (w : List Byte), e ≠ .ok → exec (.descriptorArrival ctx f.fetched e w) s =
      .next ((State.readError { s.modFlow ctx fun g => { g with fetching := 0 } with
        host := { s.host with ringTags := s.host.ringTags - 1 } } ctx f.inst e false).setCauses ctx fun c => { c with ringFault := true })) ∧
    (∀ course : BitVec 48, f.bindsByWindow = true → s.slotCourse f = some course.toNat →
      exec (.stageWindowOpen ctx course) s = .next (State.bindWaiting ctx 1 s))

/-- Staged data (R2, R3, R11–R13, R153, R154, R211–R215, R456). Stage fetch reads the words that a transfer is due, of the flow whose turn it is,
into a bank with room, and the bank's use counts them from then on; the read's data join the staged words, or its failure is recorded and ends
the transfer; input data go to the buffer in the flow's order where posted credit allows, and their stage words are freed; and at the acceptance
deadline of a committed course each slot's wait ends, once. -/
def Obligations.StagesAreFilledAndDrained : Prop :=
  (∀ (s : State) (ctx : Nat) (f : Flow) (x : Transfer) (d : Word × Word × Word × Word) (b : Fin 64) (n : Nat), s.flow ctx = some f →
    s.stageDue f = some (x, b) → x.desc = some d → n = f.readWords x → s.stageTurn ctx f = true → s.canPost = true → s.boot.dmaRefused = false →
    ∀ t u : State, t = s.turnTaken (if f.par.ty.scheduled then 2 else 3) ctx f →
    u = { ((t.openBank b).useBank b (· + n)).modXfer ctx x.idx (fun y =>
      { y with reading := true, readAt := x.moved + x.staged.length, issued := true, words := y.words + n, bank := some b }) with
      host := { s.host with stageTags := s.host.stageTags + 1 } } →
    exec (.stageFetchIssue ctx) s = .next ((u.setFld .HIF_TAGS_HWM (max (u.fld .HIF_TAGS_HWM) (s.host.ringTags + (s.host.stageTags + 1)))).emit
      (.hostRead (s.pasidOf f.inst) (BitVec.ofNat 64 (descAddr d.1 d.2.1 + f.par.byteOfs (x.moved + x.staged.length)))
        (f.par.byteLen (x.moved + x.staged.length) n)))) ∧
  (∀ (s : State) (f : Flow) (x : Transfer) (b : Fin 64), s.stageNext f = some x → s.fetchStopped f = false → s.readHeld f x = false →
    s.bankOf x (f.readWords x) = some b →
    f.par.ty.scheduled = true ∨ (s.stageUse f.inst + f.readWords x ≤ (s.inst f.inst).shares.words ∧ f.xfers.any (·.reading) = false) →
    s.stageDue f = some (x, b)) ∧
  (∀ (s : State) (ctx : Nat) (i : BitVec 16) (f : Flow) (x : Transfer) (data : List Byte), s.flow ctx = some f → f.xfer i = some x →
    (x.reading = false → ∀ e : ReadEnd, exec (.stageReadComplete ctx i e data) s = .next s.orphanStage) ∧
    (∀ n : Nat, n = f.readWords { x with moved := x.readAt, staged := [] } → x.reading = true → x.fin = none → f.par.ty.scheduled = false →
      ∀ v : State, v = ({ s with host := { s.host with stageTags := s.host.stageTags - 1 } } : State).modXfer ctx i (fun y =>
        { y with reading := false, dueAt := s.time.mono }) →
      (∀ b : Fin 64, data.length = f.par.byteLen x.readAt n → x.moved + x.staged.length = x.readAt → x.bank = some b →
        exec (.stageReadComplete ctx i .ok data) s = .next (((v.openBank b).freeSome ctx x (n - (f.par.readData x.readAt n data).length)).modXfer
          ctx i fun y => { y with staged := y.staged ++ f.par.readData x.readAt n data
                                  stagedAll := f.wholeStaged x (x.staged.length + (f.par.readData x.readAt n data).length) })) ∧
      (∀ e : ReadEnd, e ≠ .ok → exec (.stageReadComplete ctx i e data) s =
        .next ((((((v.readError ctx f.inst e false).freeSome ctx x n).modXfer ctx i fun y => { y with readFail := true }).finish ctx i
          .notAccepted x.moved).setCauses ctx fun c => { c with readFault := true }))))) ∧
  (∀ (p : FlowParams) (first n : Nat) (ws : List Word), p.packed = false → ws.length = n → p.readData first n (laneBytes ws) = ws) ∧
  (∀ (p : FlowParams) (first n : Nat) (ws : List Word), p.packed = true → first % 2 = 0 → ws.length = n →
    p.readData first n (packedBytes ws) = ws) ∧
  (∀ (s : State) (ctx : Nat) (i : BitVec 16) (f : Flow) (x : Transfer) (d : Word × Word × Word × Word), s.flow ctx = some f → f.xfer i = some x →
    x.desc = some d → (f.xfers.find? fun y => !y.toWrite.isEmpty).map (·.idx) = some i → (s.inst f.inst).state ≠ .resetting → s.writeThrottled f.inst = false → s.flag .PTB_THROTTLE_ON 7 = false →
    (f.par.packed && f.par.ty.bulk) = false → x.moved - x.staged.length ≤ x.moved - x.toWrite.length → ∀ ws : List Word,
    ws = x.staged.drop (x.moved - x.toWrite.length - (x.moved - x.staged.length)) →
    exec (.inputWriteBack ctx i true) s = .next (((State.postBytes (s.pasidOf f.inst) ((laneBytes ws).length + 1)
      (descAddr d.1 d.2.1 + 8 * (x.moved - x.toWrite.length)) (laneBytes ws) s).freeWords x).modXfer ctx i fun y =>
        { y with toWrite := [], writtenAt := none, words := 0, bank := none })) ∧
  (∀ (s : State) (ctx : Nat) (f : Flow) (course : BitVec 48), s.flow ctx = some f → f.service = none → f.par.ty.scheduled = true →
    course.toNat ≤ s.committed → f.deadDone < course.toNat → s.activeFor f course.toNat = true →
    exec (.acceptanceDeadline ctx course) s = .next (State.modFlow
      ((if f.par.ty.paced then List.range (s.parFor f course.toNat).q else [0]).foldl (State.deadlineSlot ctx course.toNat) s) ctx fun g =>
        { g with deadDone := course.toNat }))

/-- Completions and host stalls (R10, R174, R218–R222, R242, R312, R341). The release stage writes the completion that is next in its order. Once an
instance has waited 2 µs an interval opens, with its counts, its event bit and the source it asked for; when the wait ends the interval
closes, with its times in the event. -/
def Obligations.CompletionsAndStallsGoOut : Prop :=
  (∀ (s : State) (ctx : Nat) (f : Flow) (x : Transfer) (n : Final), s.nextRelease = some (ctx, f, x, n) →
    exec .completionRelease s = .next (s.releaseOne ctx f x n)) ∧
  (∀ (s : State) (i : Fin 512) (waits : BitVec 3), (s.inst i.val).stall.open_ = false → waits ≠ 0 → (s.inst i.val).state ≠ .free →
    s.hostWaits i.val = true ∨ s.hostq ≠ [] → ∀ u : State,
    u = (((s.modInst i.val fun x => { x with
      stall := { open_ := true, waits := ⟨waits.getLsbD 0, waits.getLsbD 1, waits.getLsbD 2⟩
                 cnt := if x.stall.cnt = 0xFFFFFFFF then x.stall.cnt else x.stall.cnt + 1, openAt := s.time.bus, closeAt := 0 }
      cqs := Vector.ofFn fun q => (⟨x.cqs[q].write, x.cqs[q].phase, waits.getLsbD 1 && s.ringFull i.val q⟩ : CqState) }).addSat
        .PLN_STALL_CNT_COUNT 1).happen .PLN_EVENT_HOST_STALL 4) →
    exec (.hostStallOpen i waits) s = .next (if u.flag .INST_STALL_CFG_EN 0 i.val = true
      then u.raiseOpt (u.globalSrc i.val (u.fld .INST_STALL_CFG_SRC 0 i.val)) else u)) ∧
  (∀ (s : State) (i : Fin 512), (s.inst i.val).stall.open_ = true → exec (.hostStallClose i) s =
    .next ((s.modInst i.val fun x => { x with
      stall := { x.stall with open_ := false, waits := ⟨false, false, false⟩, closeAt := s.time.bus }
      cqs := x.cqs.map fun r => { r with stalling := false } }).eventAt i.val evHostStall 0 (s.inst i.val).stall.openAt
        (leBytes 8 s.time.bus.toNat)))

/-! ## Tasks and engines -/

/-- The dispatcher (R227–R231, R235–R239, R243, R244, R246). A cycle in a busy mode lets firmware that is ready work on its tasks and waiting cancels
take effect, takes up to two decisions from the lists as they stood, then evaluates readiness; an idle core gets the best READY firmware task,
with its trace record, and returns it to WAITING, or idle where it was cancelled; a deadline that has come, the earliest of its list, is gone
and sets TIME; and a task READY for more than AGE courses has aged. Firmware brings a task that is IDLE to WAITING with TIME set, sets its mask,
and cancels it, which loses a ready event where it was about to be READY. -/
def Obligations.TasksAreDispatched : Prop :=
  ∀ s : State,
    (s.busy = true → s.pmu.doms[4] = .on → ∀ (fw : List FwOp) (cs : List Nat) (u v : State),
      cs = (s.flows.filter fun e => !e.2.par.ty.scheduled && e.2.task.state == .ready).map (·.1) →
      u = (if s.fwReady = true then fw.foldl State.fwOp s else s) → v = (u.ctxs fun f => f.task.cancelPending).foldl State.cancelDue u →
      exec (.dispatchDecision fw) s = .next ((v.decision cs).decision cs).dropMalformed.evaluate) ∧
    (ksorted s.fwTasks = true → ∀ (n : Fin 64) (t : Task), s.fwTask (8192 + n.val) = t →
      (∀ p : Fin 8, t.state = .idle → (s.fwOp (.enable n p)).fwTask (8192 + n.val) = { t with state := .waiting, flags := 0x10, prio := p.val }) ∧
      (∀ m : BitVec 8, (s.fwOp (.mask n m)).fwTask (8192 + n.val) = { t with mask := m }) ∧
      (t.state = .waiting ∨ t.state = .ready → ∀ lost : Bool, lost = (t.state == .waiting && t.isReady t.flags) →
        s.fwOp (.cancel n) = ((s.modFw (8192 + n.val) Task.idled).lostReady lost).recordCancelFw (8192 + n.val) t lost)) ∧
    (∀ core : Fin 4, s.gutter.cores[core].task = none → s.gutter.cores[core].sleep = false → s.busy = true → ∀ (n : Nat) (t : Task),
      s.nextFw = some (n, t) → exec (.firmwareTaskDispatch core) s = .next (State.recordFw
        ((s.modCore core.val fun c => { c with task := some n }).modFw n fun t => { t with state := .inHand })
        n t.prio 0x0A (0x10 + core.val) false)) ∧
    (∀ (core : Fin 4) (n : Nat), s.gutter.cores[core].task = some n → ∀ u : State, u = s.modCore core.val (fun c => { c with task := none }) →
      exec (.firmwareTaskReturn core) s = .next (if (s.fwTask n).cancelPending
        then (u.modFw n Task.idled).recordCancelFw n (s.fwTask n) false else u.modFw n fun t => { t with state := .waiting })) ∧
    (∀ (ctx : Nat) (d l : Nat), s.armedOn.find? (fun x => x.2.2 == ctx) = some (d, l, ctx) → d ≤ s.tickNow →
      (∀ y ∈ s.armedOn, y.2.1 = l → d ≤ y.1) →
      (∀ (f : Flow) (u : State), s.flow ctx = some f → u = s.modTask ctx (fun t => { t with delay := none }) → exec (.delayExpiry ctx) s =
        .next (if s.flag .TRC_CTRL_EVENTS = true then u.recordFlow ctx f 0x10 0x1F false false else u)) ∧
      (∀ u : State, s.flow ctx = none → u = s.modFw ctx (fun t => { t with delay := none, flags := t.flags ||| 0x10 }) →
        exec (.delayExpiry ctx) s =
          .next (if s.flag .TRC_CTRL_EVENTS = true then u.recordFw ctx (s.fwTask ctx).prio 0x10 0x1F false else u))) ∧
    (∀ (ctx : Nat) (f : Flow), s.flow ctx = some f → s.fld .DSP_CFG_AGE ≠ 0 → f.par.ty.scheduled = false → f.task.state = .ready →
      f.task.readyCourse + s.fld .DSP_CFG_AGE < s.course.count.toNat →
      exec (.taskAged ctx) s = .next (s.modTask ctx fun t => { t with aged := true }))

/-- The engines and the trunks (R36, R77, R162, R214, R253–R257, R400, R456, R457). An engine in a domain that is ON queues what it has in hand,
the plan entry first, once ENGINE_DELAY has passed; an ENABLED trunk that has sent a COURSE_START sends the scheduled packet at its slot, misses
one that is late, and sends an unscheduled one where it fits before that; a response goes to the earliest expectation there without one, is
discarded under SILENCE, and one that is damaged is only noted; a window that closes, the earliest in plan order of one CCLK, establishes the
failure. -/
def Obligations.EnginesSendAndTakeAnswers : Prop :=
  (∀ (s : State) (e : Fin 16), s.pmu.doms[engineDomain e] = .on →
    (∀ (ctx : Nat) (x : PlanEntry), s.engines[e].sched = some (ctx, x) → s.delayPast e s.engines[e].schedAt = true →
      exec (.engineTaskReturn e) s = .next (s.returnSched e ctx x)) ∧
    (∀ ctx : Nat, s.engines[e].sched = none ∨ s.delayPast e s.engines[e].schedAt = false → s.engines[e].unsched = some ctx →
      s.delayPast e s.engines[e].unschedAt = true → exec (.engineTaskReturn e) s = .next (s.returnUnsched e ctx))) ∧
  (∀ (s : State) (t : Fin 16) (check : StageCheck), s.syncedAt (.up (.root t)) = true → s.enabled (.root t) = true →
    s.pmu.mode.courses = true → s.course.running = true →
    (∀ e : TxEntry, s.nextSched t = some e →
      (e.late = true ∨ e.course < s.course.count.toNat → exec (.packetTransmit t check) s = .next ((s.dropTx t e).missSlot t e)) ∧
      (e.late = false → s.course.count.toNat ≤ e.course → s.nextUnsched t = none → ∀ f : Flow, s.flow e.ctx = some f →
        exec (.packetTransmit t check) s = .next ((s.dropTx t e).sendSched t f e check)) ∧
      (e.late = false → s.course.count.toNat ≤ e.course → ∀ (u : TxEntry) (f : Flow) (b : Built) (k : Nat),
        s.nextUnsched t = some (u, f, some b, k) → exec (.packetTransmit t check) s = .next ((s.dropTx t u).startUnsched t f u b k check))) ∧
    (s.nextSched t = none → ∀ (u : TxEntry) (f : Flow) (b : Built) (k : Nat), s.nextUnsched t = some (u, f, some b, k) →
      exec (.packetTransmit t check) s = .next ((s.dropTx t u).startUnsched t f u b k check))) ∧
  (∀ (s : State) (t : Fin 16) (f : Flow) (e : TxEntry) (b : Built) (k : Nat) (c : StageCheck),
    (f.carried = none → s.startUnsched t f e b k c = s.sendUnsched t f e b k) ∧
    (∀ x : Transfer, f.carried = some x →
      (c.bad = none → s.startUnsched t f e b k c = (s.addSat .ERR_CE_CNT_COUNT c.corrected).sendUnsched t f e b k) ∧
      (∀ (w : Nat) (wire : Bool), c.bad = some (w, wire) → s.startUnsched t f e b k c = ((s.addSat .ERR_CE_CNT_COUNT c.corrected).error
        catMemory 0x01 blkStg .normal ((x.bank.map (·.val)).getD 0 + w % 65536 * 64)).unschedLost t f e.ctx k x wire))) ∧
  (∀ (s : State) (e t : Fin 16) (w : Expect) (f : Flow) (pkt : Wire), s.firstExpect e (fun w => w.trunk == t && w.got == .none) = some w →
    s.flow w.ctx = some f →
    (s.silenced w = true → exec (.responseMatch e (t, pkt)) s = .next (s.addSat .PTB_SILENCE_CNT_COUNT 1)) ∧
    (s.silenced w = false → ∀ (got : Parsed) (v : State), s.readUp t pkt = (got, v) → ∀ gone : Bool,
      gone = (f.dead || (f.service.isNone && ((f.xfer w.idx).map (·.fin.isSome)).getD true)) →
      (∀ crc : Bool, got = .bad crc → exec (.responseMatch e (t, pkt)) s = .next (v.setGot w .damaged)) ∧
      (∀ (h : Header) (ws : List Word) (l : Bool), got = .data h ws l false → exec (.responseMatch e (t, pkt)) s =
        .next (if gone then v.dropExpect w else v.takeData w f h ws l)) ∧
      (∀ k : Shake, got = .shake k → exec (.responseMatch e (t, pkt)) s =
        .next (if gone then v.dropExpect w else v.takeShake w f k)))) ∧
  (∀ (s : State) (e : Fin 16) (w : Expect), (minBy (·.closes) (s.expects.filter fun w => w.engine == e)).map s.closesFirst = some w →
    (∀ f : Flow, (s.dropExpect w).flow w.ctx = some f → f.service ≠ none →
      exec (.responseWindowClose e) s = .next ((s.dropExpect w).serviceFailed w f)) ∧
    (∀ (f : Flow) (x : Transfer), (s.dropExpect w).flow w.ctx = some f → f.service = none → f.dead = false → f.xfer w.idx = some x → x.fin = none →
      exec (.responseWindowClose e) s = .next (if f.par.ty.scheduled then (s.dropExpect w).schedFailed w f x
        else (s.dropExpect w).unschedFailed w f x)))

/-! ## Trees and the gutter -/

/-- Trees (R91, R96, R98, R103, R116, R117, R420). Firmware resets a port that waits for its device, and polls the device once the port is ENABLED;
one that answers is found, one that does not in time fails; a hub's ports are powered one after the other; a faulted hub port is
powered again while it has retries left, and an over-current removes its power; a re-seat record whose window ends is gone, with its event. -/
def Obligations.TreesGrowAndShrink : Prop :=
  (∀ (s : State) (p : PortRef) (d : Pos) (x : Port), p.below = some d → s.port p = some x → s.fwReady = true →
    s.enums.any (fun r => r.pos == d) = true →
    (x.state = .disabled → s.enumerates d.trunk = true → ∀ a : Answer, exec (.autoEnumerate p a) s = .next (s.firmwareReset p)) ∧
    (x.state = .enabled → s.routeUp d = true → ∀ (y : Device) (u : State), u = s.firmwareSends 0 (mkSetup true 0 1 1 0 5) → u.dev d = some y →
      (y.answers = true → y.addr = none → exec (.autoEnumerate p .ack) s = .next (u.foundDevice p d y)) ∧
      (y.answers = false → exec (.autoEnumerate p .ack) s = .next u))) ∧
  (∀ (s : State) (p : PortRef) (d : Pos), p.below = some d → s.enabled p = true → s.enums.any (fun r => r.pos == d) = true →
    exec (.enumFail p) s = .next (s.enumFailed p d false)) ∧
  (∀ (s : State) (addr : BitVec 12) (r : Reseat), (s.reseats.find? fun r => r.addr == addr && !r.expired && r.resumeAt.isNone) = some r →
    exec (.reseatExpired addr) s = .next ((s.recordEnds r).nodeEvent evReseatExpired addr (leBytes 8 r.ident.toNat))) ∧
  (∀ (s : State) (h : Pos) (n : NodeRec) (q : Fin 16), s.hubRec h = some n → n.powered < n.nports → s.routeUp h = true → s.fwReady = true →
    q = Fin.ofNat 16 n.powered → ∀ u : State, u = (s.hubFeature h q true 1).modPort (.hub h q) (fun x => { x with retries := 0 }) →
    exec (.hubPortPowerStep h) s = .next (State.treeCmds { u with
      nodes := kmod u.nodes n.addr.toNat fun n => { n with powered := n.powered + 1 } } h.trunk)) ∧
  (∀ (s : State) (h : Pos) (p : Fin 16) (x : Port), s.port (.hub h p) = some x → x.state = .fault → s.fwReady = true →
    s.fld .PPM_TIMERS_RETRY_LIM h.trunk.val = 255 ∨ x.retries.toNat < s.fld .PPM_TIMERS_RETRY_LIM h.trunk.val →
    exec (.hubPortRetryExpiry h p) s = .next ((s.modPort (.hub h p) fun x =>
      { x with retries := if x.retries = 255 then 255 else x.retries + 1 }).hubFeature h p true 1)) ∧
  (∀ (s : State) (h : Pos) (p : Fin 16) (x : Device) (y : Port), s.dev h = some x → x.nports ≠ 0 → s.port (.hub h p) = some y →
    ((x.board.hub[1]?).getD 0).getLsbD 18 = true → y.state ≠ .off → y.state ≠ .fault →
    exec (.hubPortOvercurrent h p) s = .next ((s.modPort (.hub h p) fun y => { y with overcurrent := true }).portFault (.hub h p) .power))

/-- The gutter and the function (R349, R352–R356). While PD_DISP is ON a decision takes the next fast source, else the next other one; a gap ends; a
core takes its delivery and frees its second bank; D3hot stops messages and writes, with its event bit, and D0 lets what waited
go, as does a change of the MSI-X enables; unmasking a vector is a write of its table entry. -/
def Obligations.SignalsAreDelivered : Prop :=
  ∀ s : State,
    (s.pmu.doms[4] = .on →
      (∀ (src : Nat) (m : Nat × Nat), s.nextSource true = some (src, m) → exec .gutterDecision s = .next (s.decideFor src m)) ∧
      (∀ (src : Nat) (m : Nat × Nat), s.nextSource true = none → s.nextSource false = some (src, m) → exec .gutterDecision s = .next (s.decideFor src m)) ∧
      (s.nextSource true = none → s.nextSource false = none → exec .gutterDecision s = .next s)) ∧
    (∀ (g : BitVec 8) (m : Nat), exec (.holdoffEnd g m) s = .next { s with
      gutter := { s.gutter with gaps := s.gutter.gaps.filter fun x => !(x.group == g && x.member == m) } }) ∧
    (∀ core : Fin 4,
      exec (.coreDeliveryTaken core) s =
        .next (s.modCore core.val fun x => if x.sleep then x else { x with inFlight := false, fastFlight := false }) ∧
      exec (.fastBankRelease core) s =
        .next (s.modCore core.val fun x => if x.inFlight && x.fastFlight then x else { x with fastBusy := false })) ∧
    (s.host.perst = false →
      (∀ pme : Bool,
        (s.host.d = .d0 → exec (.powerStateChange .d3hot pme) s =
          .next (State.setBit { s with host := { s.host with pmeEn := pme, d := .d3hot } } .HIF_EVENT_D3HOT)) ∧
        exec (.powerStateChange .d0 pme) s = .next (State.flushPosted { s with host := { s.host with pmeEn := pme, d := .d0 } }).releaseHeld) ∧
      (∀ en mask : Bool, exec (.msixControlChange en mask) s =
        .next (State.releaseHeld { s with host := { s.host with msixEn := en, funcMask := mask } })) ∧
      (∀ v : Fin 2048, exec (.vectorUnmask v) s = .next (s.msixWrite (4 * v.val + 3) 0))) ∧
    (s.host.perst = true → (∀ (d : DStateCode) (pme : Bool), exec (.powerStateChange d pme) s = .next s) ∧
      (∀ en mask : Bool, exec (.msixControlChange en mask) s = .next s) ∧ ∀ v : Fin 2048, exec (.vectorUnmask v) s = .next s)

/-! ## Gangs and power domains -/

/-- A gang at work (R364, R366, R370–R372, R376, R379, R381). A member takes the ridge's pace record and relays it; 64 good samples in turn lock
it to the ridge, two courses without a sample drop that lock, and eight courses without the lease lose it and take Run to Hold, until it has
been there for eight; a controller without RIDGE_ALLOWED decides what it is at the end of its interval, and a join ends after 2 s; a faulted
gangway A tries again. -/
def Obligations.GangsFollowTheirEvents : Prop :=
  ∀ s : State,
    (∀ (pkt : Wire) (payload : List Word), s.gang.role = .member → s.gbUp = true → ∀ v u : State, v = (if s.enabled .ga then s.relay pkt else s) →
      paceRecord (v.receive (.down .gb) pkt) = some payload → u = v.setFld .GANG_PACE_STAT_VALID (wbits ((payload[0]?).getD 0) 7 0) →
      exec (.pacePacketReceive pkt) s =
        .next { u with gang := { u.gang with record := (List.range 8).map (recordEntry payload), recordNow := true } }) ∧
    (s.gang.follows = true → 64 ≤ s.gang.goodRun → s.timeSource = 2 → exec .ridgeLockGained s = .next (s.lockTime.modGang fun g =>
      { g with ridgeLock := true, phase := if g.phase == .setup || g.phase == .unqualified then .locked else g.phase })) ∧
    (2 ≤ s.gang.noSample → exec .ridgeLockLost s = .next s.dropRidgeLock) ∧
    (s.gang.role = .member → s.gang.phase = .locked ∨ s.gang.phase = .unqualified → 8 ≤ s.gang.leaseMiss →
      ∀ u : State, u = s.modGang (fun g => { g with phase := .leaseLost }) → exec .leaseLost s =
        .next (u.error catGang 0x02 blkGang .normal (u.course.count.toNat % 2 ^ 32)).enterHold) ∧
    (s.gang.phase = .leaseLost → 8 ≤ s.gang.leaseHave → exec .leaseRestored s =
      .next (s.modGang fun g => { g with phase := if g.ridgeLock then .locked else .setup })) ∧
    (s.gang.deciding = true → s.gang.ridgeAllowed = false →
      (s.gbLive = true → exec .gangDecisionEnd s = .next (s.modGang fun g => { g with deciding := false, role := .member })) ∧
      (s.gbLive = false → exec .gangDecisionEnd s =
        .next ((s.modGang fun g => { g with role := .solo }).endJoin stGangMismatch))) ∧
    (s.gang.deciding = false ∨ s.gang.ridgeAllowed = true → exec .gangJoinTimeout s = .next (s.endJoin stOk)) ∧
    (s.gang.deciding = true → s.gang.ridgeAllowed = false →
      (s.gbLive = true → exec .gangJoinTimeout s =
        .next ((s.modGang fun g => { g with deciding := false, role := .member }).endJoin stOk)) ∧
      (s.gbLive = false → exec .gangJoinTimeout s = .next (s.endJoin stGangMismatch))) ∧
    (s.ga.state = .fault → exec .gangPortRetry s =
      .next { s with ga := { s.ga with state := .powered, cause := .none, hrFails := 0 } })

/-- Power domains going to sleep (R391, R393–R395, R401, R402, R407). A domain that its mode lets sleep and no near course needs is asked, unless its
policy keeps it ON; a deferred request may be made again once its time is over; a silent block abandons it; a mode's entry ends once the ports
sleep and nothing wakes; a stage bank without accesses goes to retention unless it holds words of a near course; and ahead of a course start
the domains and banks that the course will need are woken. -/
def Obligations.DomainsGoToSleep : Prop :=
  ∀ s : State,
    (∀ (dom : Fin 12) (answers : List SleepAnswer), s.pmu.handshake = none → s.pmu.doms[dom] = .on → s.pmu.entry = none → s.pmu.changing = false →
      s.boot.start = none → s.pmu.mode.sleepers.contains dom = true → s.needNear dom = false →
      (s.domPolicy dom = 1 → s.pmu.mode ≠ .dormant → exec (.sleepRequest dom answers) s = .next (s.abandon dom 0 denyPolicy)) ∧
      (s.domPolicy dom ≠ 1 ∨ s.pmu.mode = .dormant → exec (.sleepRequest dom answers) s = .next (s.sleepRound dom 0 answers))) ∧
    (∀ (dom : Fin 12) (h : Handshake), s.pmu.handshake = some h → h.dom = dom → exec (.deferRetry dom) s =
      .next { s with pmu := { s.pmu with handshake := some { h with retry := 0 } } }) ∧
    (∀ dom : Fin 12, s.pmu.handshake = none ∨ (∃ h, s.pmu.handshake = some h ∧ h.dom = dom) → s.pmu.doms[dom] = .on → s.pmu.entry = none →
      s.pmu.mode.sleepers.contains dom = true → exec (.handshakeNoAnswer dom) s =
        .next (State.abandon { s with free := s.free + 1 } dom ((Config.freeWord s.free).toNat % 256) denySilent)) ∧
    (∀ (e : Entry) (answers : List (Fin 12 × List SleepAnswer)) (busy : Bool), s.pmu.entry = some e →
      (∀ k ∈ e.ports, s.enabled (entryPort k) = false) → (∀ d ∈ s.entryDoms e.mode, s.pmu.doms[d] ≠ .waking) →
      (busy = true ∨ s.wakePending = true → exec (.standbyEntry answers busy) s =
        .next (s.failEntry e [] ((s.entryDoms e.mode).headD 6) 0 denyWake)) ∧
      (busy = false → s.wakePending = false → (∀ d ∈ s.entryDoms e.mode, s.pmu.doms[d] ≠ .on) →
        exec (.standbyEntry answers busy) s = .next (s.endEntry e answers))) ∧
    (∀ b : Fin 64, s.domPolicy 7 = 0 → s.pmu.doms[7] = .on →
      s.bankBound b (if s.ahead (s.course.count.toNat + 1) 1000 then s.course.count.toNat else s.course.count.toNat + 1) = false →
      exec (.bankIdleGate b) s = .next { s with pmu := s.pmu.bankSleeps b.val }) ∧
    (s.course.running = true → s.pmu.mode.courses = true → ∀ (l : List (Fin 12)) (u : State),
      l = [3] ++ (if s.usesEngines (s.course.count.toNat + 3) then [5, 6] else []) ++
        (if (s.course.count.toNat + 1) % 64 = 0 then [2] else []) →
      (∀ h : Handshake, s.pmu.handshake = some h → h.dom ∉ l) → u = s.wakeDoms l →
      exec .prewake s = .next { u with pmu := { u.pmu with
        banks := Vector.ofFn fun b => if u.pmu.banks[b] == .retained && u.bankBound b (s.course.count.toNat + 3) then .on else u.pmu.banks[b] } })

/-- Power domains and banks waking (R358, R398, R400, R404, R405, R489). A wake source that becomes active wakes what it names; an access to a
sleeping domain stalls, is counted and wakes it; a domain that is ON again lets its stalled accesses go; a bank that fails its check is lost, and
returns empty once its transfers are resolved; what waited for SRAM_RET to fall wakes after it. -/
def Obligations.DomainsWake : Prop :=
  ∀ s : State,
    (∀ (n : Fin 32) (k : Nat), n.val = k → (k = 0 → s.wakeLevel 0 = true → exec (.wakeSourceActive n) s = .next (s.wakeSource 0 (s.trunkDoms .suspended))) ∧
      (k = 1 → s.wakeLevel 1 = true ∨ s.gb.link.phase = .suspended → exec (.wakeSourceActive n) s = .next (s.wakeSource 1 [11])) ∧
      (k = 2 → s.trunkDoms .powered ≠ [] → exec (.wakeSourceActive n) s = .next (s.wakeSource 2 (s.trunkDoms .powered))) ∧
      (k = 7 → exec (.wakeSourceActive n) s = .next (s.wakeSource 7 [0])) ∧
      (k = 8 → s.host.perst = false → exec (.wakeSourceActive n) s = .next (s.wakeSource 8 [0])) ∧
      (k = 9 → s.wakeLevel 9 = true → exec (.wakeSourceActive n) s = .next ((s.wakeDoms [4]).wakeSource 9 [])) ∧
      ((3 ≤ k ∧ k ≤ 6) ∨ 10 ≤ k → s.wakeLevel k = true → exec (.wakeSourceActive n) s = .next (s.wakeSource k []))) ∧
    exec .l1ExitRequest s = .next (s.wakeSource 7 [0]) ∧
    (s.wakeLevel 6 = true → exec .aoTimer s = .next (s.wakeSource 6 [])) ∧
    (∀ n : Fin 2,
      exec (.wakein n true) s = .next (State.wakeSource { s with pmu := { s.pmu with wakeLow := s.pmu.wakeLow ||| BitVec.ofNat 2 (2 ^ n.val) } }
        (3 + n.val) []) ∧
      exec (.wakein n false) s = .next { s with pmu := { s.pmu with wakeLow := s.pmu.wakeLow &&& ~~~BitVec.ofNat 2 (2 ^ n.val) } }) ∧
    (∀ dom : Fin 12, s.asleep dom = true ∨ s.pmu.doms[dom] = .waking → exec (.domainWakeRequest dom) s =
      .next ((State.addSat { s with pmu := { s.pmu with stalled := vmod s.pmu.stalled dom.val (· + 1) } } .PMU_STALL_CNT_COUNT 1).wakeDoms [dom])) ∧
    (∀ (dom : Fin 12) (run : StartEnv), s.pmu.doms[dom] = .waking → s.boot.start = none → dom = 3 ∨ dom = 4 ∨ dom = 5 ∨ dom = 6 → ∀ u : State,
      u = s.setDoms [dom] .on → exec (.domainWakeComplete dom 0 run) s =
        .next (State.leaveCheck { u with pmu := { u.pmu with stalled := vmod u.pmu.stalled dom.val fun _ => 0 } })) ∧
    (∀ (b : Fin 64) (corrected : Nat) (bad : Bool), s.pmu.doms[7] = .on → s.pmu.banks[b] = .on → exec (.scrubPass b bad corrected) s =
      .next (if bad then (s.addSat .ERR_CE_CNT_COUNT corrected).loseBank b else s.addSat .ERR_CE_CNT_COUNT corrected)) ∧
    (∀ b : Fin 64, s.pmu.banks[b] = .lost → (∀ e ∈ s.flows, ∀ x ∈ e.2.xfers, x.bank = some b → x.fin ≠ none) → exec (.bankRestore b) s =
      .next { s with pmu := { s.pmu with banks := s.pmu.banks.set b.val .on, bankUse := s.pmu.bankUse.set b.val 0 } }) ∧
    (s.pmu.sramFell = true → exec .sramRetRelease s =
      .next (State.wakeDoms { s with pmu := { s.pmu with sramFell := false, wakeAfter := 0 } }
        ((List.finRange 12).filter fun d => s.pmu.wakeAfter.getLsbD d.val)))

/-! ## Port power, starts, the host function and the test port -/

/-- Port power (R412, R413, R416, R417, R420, R422–R424). While the oscillator runs each tick takes the conversions registered in it and advances
every port and group; a fast trip drops the gate at once; the limit ends or the fault timer does; a faulted port retries, waits for a feed or is
locked out; a feed becomes good, is lost, or is returned to after its dead time. -/
def Obligations.PortPowerFollowsItsEvents : Prop :=
  (∀ (s : State) (samples : List PpmSample),
    (s.oscRun = false → exec (.ppmTick samples) s = .next s) ∧
    (s.oscRun = true → exec (.ppmTick samples) s = .next (State.oscCheck ((List.finRange 16).foldl State.portAdvance
      ((List.finRange 16).foldl State.powerGood ((List.finRange 4).foldl State.groupTick ((List.finRange 16).foldl
        (fun (u : State) n => u.portFaults n (freshPort samples n)) (samples.foldl State.ppmSample
          ((List.finRange 16).foldl State.takeRequest s))))))))) ∧
  (∀ (s : State) (n : Fin 16),
    (s.ppm[n].faultLeft ≠ none →
      exec (.limitRelease n) s = .next (s.releaseLimit n) ∧
      (s.ppm[n].tripLatch = false →
        exec (.faultTimerExpiry n) s = .next (s.ppmDown n .fault .overcurrent .PPM_PEVENT_OVERCURRENT (some (s.retryTicks n)))) ∧
      (s.ppm[n].tripLatch = true →
        exec (.faultTimerExpiry n) s = .next (s.ppmDown n .fault .fastTrip .PPM_PEVENT_FAST_TRIP (some (s.retryTicks n))))) ∧
    (s.ppm[n].gen = true → s.ppm[n].pg = false → s.blanked n = false → exec (.rampTimeout n) s =
      .next (s.ppmDown n .fault .rampTimeout .PPM_PEVENT_RAMP_TIMEOUT (some (s.retryTicks n)))) ∧
    (s.ppm[n].gen = true → exec (.fastTrip n) s =
      .next (((s.modPpm n fun x => { x with gen := false, tripLatch := true }).emit (.genN n.val false)).addSat .PPM_PEAK_TRIPS 1 n.val)) ∧
    (s.ppm[n].pg = true → exec (.retriesClear n) s = .next (s.modPpm n fun x => { x with retries := 0 })) ∧
    (∀ (lim : Nat) (u : State), s.ppm[n].retryLeft ≠ none → lim = s.fld .PPM_TIMERS_RETRY_LIM n.val →
      u = s.modPpm n (fun x => { x with retryLeft := none }) →
      (lim ≠ 255 → lim ≤ s.ppm[n].retries.toNat → exec (.ppmRetryExpiry n) s =
        .next (((u.modPpm n fun x => { x with phase := .lockout, waitFeed := false }).ppmEvent n .PPM_PEVENT_LOCKOUT).error catPower 0x05 blkPpm
          .normal n.val)) ∧
      (lim = 255 ∨ s.ppm[n].retries.toNat < lim → s.feeds[groupOf n].sel = .none → exec (.ppmRetryExpiry n) s =
        .next (u.modPpm n fun x => { x with waitFeed := true })) ∧
      (lim = 255 ∨ s.ppm[n].retries.toNat < lim → s.feeds[groupOf n].sel ≠ .none → exec (.ppmRetryExpiry n) s =
        .next (((u.modPpm n fun x => { x with retries := if x.retries = 255 then 255 else x.retries + 1 }).startRamp n).ppmEvent n
          .PPM_PEVENT_RETRY)))) ∧
  (∀ s : State, s.oscRun = false → (∃ n : Fin 16, s.ppm[n].onReq = true) → exec .oscillatorStart s =
    .next { s with oscRun := true, feeds := s.feeds.map fun (x : FeedGroup) =>
      { x with a := { x.a with seen := false, goodTicks := 0, lowRun := 0 }, b := { x.b with seen := false, goodTicks := 0, lowRun := 0 } } }) ∧
  (∀ (s : State) (g : Fin 4),
    (s.oscRun = true →
      (s.feeds[g].a.good = false → exec (.feedGood g false) s = .next (s.goodFeed g false)) ∧
      (s.feeds[g].b.good = false → exec (.feedGood g true) s = .next (s.goodFeed g true)) ∧
      (s.feeds[g].a.good = true → exec (.feedLost g false) s = .next (s.loseFeed g false)) ∧
      (s.feeds[g].b.good = true → exec (.feedLost g true) s = .next (s.loseFeed g true))) ∧
    (s.feeds[g].deadLeft ≠ none → exec (.deadTimeEnd g) s = .next (s.endDead g)) ∧
    (s.feeds[g].sel = .onB → s.feeds[g].a.good = true → exec (.feedReturn g) s = .next ((s.setFeed g true false).modFeed g fun x =>
      { x with sel := .deadToA, deadLeft := some (s.deadTicks g), blankLeft := some (s.deadTicks g + 1000) })) ∧
    (s.feeds[g].deadLeft = none → exec (.blankingEnd g) s = .next (s.modFeed g fun x => { x with blankLeft := none })))

/-- Starts and resets (R399, R429–R435, R446, R447, R449). PORST_N starts the device cold; a warm trigger starts it warm unless a start is under
way; a step that fails is noted and the next start begins, or ROM recovery; one that passes lets the start go on, end, or fail at its image; a
watchdog is an error and a warm start, and within the success window a failed start; the resets of the host function wait for a start, or act at
once. -/
def Obligations.StartsAndResetsAct : Prop :=
  ∀ (s : State) (run : StartEnv),
    exec (.porst run) s = .next (s.runStart startFuel .porst false run) ∧
    (s.boot.start = none → exec (.wrst run) s = .next (s.runStart startFuel .wrst true run)) ∧
    (∀ r : StartRun, s.boot.start = some r → r.warm = true → exec (.wrst run) s = .next (s.runStart startFuel r.kind true run)) ∧
    (∀ (r : StartRun) (code : BitVec 8), s.boot.start = some r → code ≠ 0 → exec (.startStepTimeout code run) s =
      .next (s.failStart r.step code.toNat r.kind r.warm run)) ∧
    (∀ r : StartRun, s.boot.start = some r → exec (.startStepTimeout 0 run) s = .next (match s.goOn r run with
      | (u, none) => u
      | (u, some (kind, warm)) => u.runStart startFuel kind warm run)) ∧
    (s.fwReady = true → exec (.watchdog run) s =
      .next ((s.error catFirmware 0x03 blkCore .normal 0).faultStart .watchdog 0x0B run)) ∧
    (s.host.perst = false →
      (s.boot.start = none → exec .perstAssert s = .next s.perstNow ∧ exec .flr s = .next (s.flrActions.functionReset.setBit .HIF_EVENT_FLR)) ∧
      (∀ r : StartRun, s.boot.start = some r →
        exec .perstAssert s = .next { s with host := { s.host with perst := true }, boot := { s.boot with heldPerst := r.warm } } ∧
        exec .flr s = .next { s with boot := { s.boot with heldFlr := true } })) ∧
    (s.host.perst = true → s.host.wakeN = false → ∀ u : State,
      u = { s with host := { s.host with perst := false, d := .d0, pmeAtCold := false } } →
      exec .perstDeassert s = .next (if s.boot.start.isSome then u else (u.wakeDoms [0]).wakeSource 8 [0]))

/-- Errors and pins (R269, R276, R429, R444, R449, R480). A supply fault and a surprise link down are of the fatal class, an uncorrectable PCIe error
is not, each with its record; the host's enabling of LTR sends the register; STOP_IN_N low for 4 ns triggers a stop where its pin is enabled,
wakes, and below 2 ns does nothing; DBG_UNLOCK stops the device and opens it for debugging in Service. The other
instructions of the test port are loaded: BYPASS, CLAMP and HIGHZ capture the 0 of the bypass register, IDCODE the code of the part,
SAMPLE/PRELOAD the levels at the balls beside the values to be driven, which EXTEST and CLAMP drive; HIGHZ lets the outputs float (R443). -/
def Obligations.ErrorsAndPinsAct : Prop :=
  ∀ s : State,
    (∀ n : Fin 7, exec (.supplyFault n) s = .next (s.error catPower 0x01 blkPmu .fatalClass n.val)) ∧
    (∀ ltssm : Reg32, s.host.up = true → exec (.surpriseDown ltssm) s = .next ((State.setBit
      { s with host := { s.host with up := false, width := 0 } } .HIF_EVENT_SURPRISE_DOWN).error catHost 0x03 blkHif .fatalClass ltssm.toNat)) ∧
    (∀ status : Reg32, exec (.aerUncorrectable status) s =
      .next ((s.setBit .HIF_EVENT_AER_UNCORR).error catHost 0x02 blkHif .normal status.toNat)) ∧
    (s.host.ltrEn = false → exec .ltrEnable s =
      .next (State.emit { s with host := { s.host with ltrEn := true } } (.ltr (s.reg .HIF_LTR)))) ∧
    (∀ ns : Nat, 4 ≤ ns → ∀ u : State, u = { s with stop := { s.stop with pinLow := true } } → exec (.stopInLow ns) s =
      .next ((if u.flag .ENG_STOP_CFG_PIN_EN then u.stopTrigger 1 else u).wakeSource 5 [])) ∧
    (∀ ns : Nat, ns < 2 → exec (.stopInLow ns) s = .next s) ∧
    exec .stopInRelease s = .next { s with stop := { s.stop with pinLow := false } } ∧
    (∀ u v : State, u = s.stopTrigger 4 → v = State.zeroArrays { u with
        jtag := { u.jtag with instr := .dbgUnlock }
        boot := { u.boot with dmaRefused := true, slotA := u.boot.slotA.cut, slotB := u.boot.slotB.cut }
        hostq := [] } → ∀ w : State,
      w = { v with pmu := { v.pmu with entry := none, handshake := none, changing := false } } → ∀ z : State,
      z = (w.setMode .service).wakeDoms (w.modeDoms .service) → exec .dbgUnlock s =
        .next { z with boot := { z.boot with debugUnlocked := true } }) ∧
    exec .bypass s = .next (State.emit { s with jtag := { s.jtag with instr := .bypass, captured := 0, width := 1 } } (.tdo 1 0)) ∧
    exec .idcode s = .next (State.emit { s with jtag := { s.jtag with instr := .idcode, captured := 0x1751254F, width := 32 } } (.tdo 32 0x1751254F)) ∧
    (∀ pins preload : BitVec 247, exec (.samplePreload pins preload) s = .next { s.emit (.tdo 247 pins) with
      jtag := ⟨.samplePreload, preload, pins, 247⟩ }) ∧
    exec .extest s = .next (State.emit { s with jtag := { s.jtag with instr := .extest } } (.boundary (some s.jtag.preload))) ∧
    exec .clamp s = .next (State.emit (State.emit { s with jtag := { s.jtag with instr := .clamp, captured := 0, width := 1 } } (.tdo 1 0))
      (.boundary (some s.jtag.preload))) ∧
    exec .highz s = .next (State.emit (State.emit { s with jtag := { s.jtag with instr := .highz, captured := 0, width := 1 } } (.tdo 1 0))
      (.boundary none))

end
end

