-- ==== Sys2Proof/Laws/Blocks.lean ====
section
/-!
SUPPORT. Laws of blocks: a block gives back what was put into it, and the blocks of a packet, scrambled, are read back with the same seed.
-/

namespace Sys2Proof.Machine

@[simp] theorem payload_mkBlock (k : BitVec 2) (p : Word) : Block.payload (mkBlock k p) = p := by
  simp only [mkBlock, Block.payload]
  ext i hi
  simp only [BitVec.getElem_extractLsb', BitVec.getLsbD_append]
  rw [if_neg (by omega), if_pos (by omega)]
  simp only [show 2 + i - 2 = i by omega]
  exact BitVec.getLsbD_eq_getElem hi

@[simp] theorem sync_mkBlock (k : BitVec 2) (p : Word) : Block.sync (mkBlock k p) = k := by
  simp only [mkBlock, Block.sync]
  ext i hi
  simp only [BitVec.getElem_extractLsb', BitVec.getLsbD_append]
  rw [if_neg (by omega), if_neg (by omega)]
  simp only [show 38 + i - 2 - 36 = i by omega]
  exact BitVec.getLsbD_eq_getElem hi

/-- A data block is intact as it is built. -/
@[simp] theorem isData_mkBlock (p : Word) : Block.isData (mkBlock 0b01#2 p) = true := by
  have h : (mkBlock 0b01#2 p).extractLsb' 0 2 = checkOf p := by
    simp only [mkBlock]
    ext i hi
    simp only [BitVec.getElem_extractLsb', BitVec.getLsbD_append]
    rw [if_pos (by omega)]
    simp only [show 0 + i = i by omega]
    exact BitVec.getLsbD_eq_getElem hi
  simp only [Block.isData, sync_mkBlock, Block.checkOk, payload_mkBlock, h, beq_self_eq_true, Bool.and_self]

theorem descramble_scramble (s : BitVec 31) (ws : List Word) : descramble s (scramble s ws) = ws.map some := by
  induction ws generalizing s with
  | nil => rfl
  | cons w ws ih =>
    simp only [scramble, descramble, isData_mkBlock, payload_mkBlock, ih, List.map_cons, if_true, BitVec.xor_assoc, BitVec.xor_self,
      BitVec.xor_zero]

/-- A receiver reads the words that were put on its link. -/
theorem read_onWire (seed : BitVec 31) (k : Nat) (ws : List Word) : Wire.read seed (onWire seed k ws) = ws.map some :=
  descramble_scramble _ ws

end Sys2Proof.Machine
end

