-- ==== Sys2Proof/Laws/KMap.lean ====
section
/-!
SUPPORT. The laws of keyed lists: every operation keeps the keys rising, a write is read back at its key and leaves every other key alone.
-/

namespace Sys2Proof.Machine

variable {α : Type}

theorem kabove_mono {b c : Nat} {m : KMap α} (h : c ≤ b) (hm : kabove b m = true) : kabove c m = true := by
  cases m with
  | nil => rfl
  | cons e m => simp only [kabove, Bool.and_eq_true, decide_eq_true_eq] at hm ⊢; exact ⟨by omega, hm.2⟩

theorem kabove_sorted {b : Nat} {m : KMap α} (hm : kabove b m = true) : ksorted m = true := by
  cases m with
  | nil => rfl
  | cons e m => simp only [kabove, Bool.and_eq_true] at hm; exact hm.2

/-- Keys above `b` are what makes a list with `b` in front sorted. -/
theorem ksorted_cons {k : Nat} {v : α} {m : KMap α} : ksorted ((k, v) :: m) = kabove k m := rfl

theorem kabove_kset {b : Nat} (m : KMap α) (i : Nat) (v : α) (hi : b < i) (hm : kabove b m = true) : kabove b (kset m i v) = true := by
  induction m generalizing b with
  | nil => simpa [kset, kabove] using hi
  | cons e m ih =>
    obtain ⟨k, w⟩ := e
    simp only [kabove, Bool.and_eq_true, decide_eq_true_eq] at hm
    unfold kset
    split
    · simp only [kabove, Bool.and_eq_true, decide_eq_true_eq]; exact ⟨hi, ‹_›, hm.2⟩
    · split
      · simp only [kabove, Bool.and_eq_true, decide_eq_true_eq]; exact ⟨hi, kabove_mono (by omega) hm.2⟩
      · simp only [kabove, Bool.and_eq_true, decide_eq_true_eq]; exact ⟨hm.1, ih (by omega) hm.2⟩

theorem ksorted_kset (m : KMap α) (i : Nat) (v : α) (hm : ksorted m = true) : ksorted (kset m i v) = true := by
  cases m with
  | nil => rfl
  | cons e m =>
    obtain ⟨k, w⟩ := e
    unfold kset
    split
    · simp only [ksorted, kabove, Bool.and_eq_true, decide_eq_true_eq]; exact ⟨‹_›, hm⟩
    · split
      · exact kabove_mono (by omega) hm
      · exact kabove_kset m i v (by omega) hm

theorem kabove_kdel {b : Nat} (m : KMap α) (i : Nat) (hm : kabove b m = true) : kabove b (kdel m i) = true := by
  induction m generalizing b with
  | nil => rfl
  | cons e m ih =>
    obtain ⟨k, w⟩ := e
    simp only [kabove, Bool.and_eq_true, decide_eq_true_eq] at hm
    unfold kdel
    split
    · exact kabove_mono (by omega) hm.2
    · simp only [kabove, Bool.and_eq_true, decide_eq_true_eq]; exact ⟨hm.1, ih hm.2⟩

theorem ksorted_kdel (m : KMap α) (i : Nat) (hm : ksorted m = true) : ksorted (kdel m i) = true := by
  cases m with
  | nil => rfl
  | cons e m =>
    obtain ⟨k, w⟩ := e
    unfold kdel
    split
    · exact kabove_sorted hm
    · exact kabove_kdel m i hm

theorem ksorted_kput [DecidableEq α] (d : α) (m : KMap α) (i : Nat) (v : α) (hm : ksorted m = true) : ksorted (kput d m i v) = true := by
  unfold kput
  split
  · exact ksorted_kdel m i hm
  · exact ksorted_kset m i v hm

/-- A change of values that keeps the keys. -/
theorem kabove_map {β : Type} {b : Nat} (m : KMap α) (f : Nat × α → Nat × β) (hf : ∀ e, (f e).1 = e.1) (hm : kabove b m = true) :
    kabove b (m.map f) = true := by
  induction m generalizing b with
  | nil => rfl
  | cons e m ih =>
    simp only [kabove, Bool.and_eq_true, decide_eq_true_eq, List.map_cons] at hm ⊢
    rw [hf]
    exact ⟨hm.1, ih hm.2⟩

theorem ksorted_map {β : Type} (m : KMap α) (f : Nat × α → Nat × β) (hf : ∀ e, (f e).1 = e.1) (hm : ksorted m = true) :
    ksorted (m.map f) = true := by
  cases m with
  | nil => rfl
  | cons e m =>
    simp only [ksorted, List.map_cons] at hm ⊢
    rw [hf]
    exact kabove_map m f hf hm

theorem ksorted_kmod (m : KMap α) (i : Nat) (f : α → α) (hm : ksorted m = true) : ksorted (kmod m i f) = true :=
  ksorted_map m _ (fun e => by split <;> rfl) hm

/-- A selection of entries, their keys kept. -/
theorem kabove_filterMap {β : Type} {b : Nat} (m : KMap α) (f : Nat × α → Option (Nat × β)) (hf : ∀ e x, f e = some x → x.1 = e.1)
    (hm : kabove b m = true) : kabove b (m.filterMap f) = true := by
  induction m generalizing b with
  | nil => rfl
  | cons e m ih =>
    simp only [kabove, Bool.and_eq_true, decide_eq_true_eq] at hm
    rw [List.filterMap_cons]
    split
    · exact ih (kabove_mono (by omega) hm.2)
    · rename_i x hx
      simp only [kabove, Bool.and_eq_true, decide_eq_true_eq]
      rw [hf e x hx]
      exact ⟨hm.1, ih hm.2⟩

theorem ksorted_filterMap {β : Type} (m : KMap α) (f : Nat × α → Option (Nat × β)) (hf : ∀ e x, f e = some x → x.1 = e.1)
    (hm : ksorted m = true) : ksorted (m.filterMap f) = true := by
  cases m with
  | nil => rfl
  | cons e m =>
    rw [List.filterMap_cons]
    split
    · exact kabove_sorted (kabove_filterMap m f hf hm)
    · rename_i x hx
      rw [show x = (e.1, x.2) from Prod.ext (hf e x hx) rfl, ksorted_cons]
      exact kabove_filterMap m f hf hm

theorem ksorted_filter (m : KMap α) (p : Nat × α → Bool) (hm : ksorted m = true) : ksorted (m.filter p) = true := by
  rw [← List.filterMap_eq_filter]
  exact ksorted_filterMap m _ (fun e x h => by simp only [Option.guard] at h; split at h <;> simp_all) hm

/-! Reading after writing. -/

theorem kget_above {b i : Nat} {m : KMap α} (hm : kabove b m = true) (hi : i ≤ b) : kget m i = none := by
  induction m generalizing b with
  | nil => rfl
  | cons e m ih =>
    simp only [kabove, Bool.and_eq_true, decide_eq_true_eq] at hm
    rw [kget, if_neg (by omega)]
    exact ih hm.2 (by omega)

theorem kget_kset_same (m : KMap α) (i : Nat) (v : α) : kget (kset m i v) i = some v := by
  induction m with
  | nil => simp [kset, kget]
  | cons e m ih =>
    unfold kset
    split
    · simp [kget]
    · split
      · simp [kget]
      · rename_i h
        rw [kget, if_neg h, ih]

theorem kget_kset_ne (m : KMap α) (i j : Nat) (v : α) (h : j ≠ i) : kget (kset m i v) j = kget m j := by
  induction m with
  | nil => simp [kset, kget, h]
  | cons e m ih =>
    obtain ⟨k, w⟩ := e
    unfold kset
    split
    · rw [kget, if_neg h]
    · split
      · rw [kget, kget, if_neg h, if_neg (by omega)]
      · rw [kget, kget, ih]

theorem kget_kdel_same (m : KMap α) (i : Nat) (hm : ksorted m = true) : kget (kdel m i) i = none := by
  induction m with
  | nil => rfl
  | cons e m ih =>
    obtain ⟨k, w⟩ := e
    rw [ksorted_cons] at hm
    unfold kdel
    split
    · exact kget_above hm (by omega)
    · rw [kget, if_neg ‹_›]
      exact ih (kabove_sorted hm)

theorem kget_kdel_ne (m : KMap α) (i j : Nat) (h : j ≠ i) : kget (kdel m i) j = kget m j := by
  induction m with
  | nil => rfl
  | cons e m ih =>
    obtain ⟨k, w⟩ := e
    unfold kdel
    split
    · rw [kget, if_neg (by omega)]
    · rw [kget, kget, ih]

/-- A table with a default reads back what was written. -/
theorem kget_kput_same [DecidableEq α] (d : α) (m : KMap α) (i : Nat) (v : α) (hm : ksorted m = true) :
    (kget (kput d m i v) i).getD d = v := by
  unfold kput
  split
  · rw [kget_kdel_same m i hm]; exact (‹v = d›).symm
  · rw [kget_kset_same]; rfl

theorem kget_kput_ne [DecidableEq α] (d : α) (m : KMap α) (i j : Nat) (v : α) (h : j ≠ i) : kget (kput d m i v) j = kget m j := by
  unfold kput
  split
  · exact kget_kdel_ne m i j h
  · exact kget_kset_ne m i j v h

theorem kget_kmod (m : KMap α) (i j : Nat) (f : α → α) : kget (kmod m i f) j = if j = i then (kget m j).map f else kget m j := by
  induction m with
  | nil => simp [kmod, kget]
  | cons e m ih =>
    obtain ⟨k, w⟩ := e
    have hc : kmod ((k, w) :: m) i f = (if k = i then (k, f w) else (k, w)) :: kmod m i f := rfl
    rw [hc]
    by_cases hk : k = i <;> by_cases hj : j = k <;> simp [kget, hk, hj, ih]
    all_goals (try (subst hk; simp_all))
    all_goals (try (intro; omega))

/-- Writing an entry twice is writing it once. -/
theorem kset_kset (i : Nat) (v w : α) : ∀ m : KMap α, kset (kset m i v) i w = kset m i w
  | [] => by simp [kset]
  | (k, x) :: m => by
    unfold kset
    by_cases h : i < k
    · simp [h, kset]
    · by_cases h' : i = k
      · simp [h', kset]
      · simp [h, h', kset, kset_kset i v w m]

/-- Removing an entry that is not listed changes nothing. -/
theorem kdel_above {i b : Nat} (hi : i ≤ b) : ∀ m : KMap α, kabove b m = true → kdel m i = m
  | [], _ => rfl
  | (k, x) :: m, h => by
    simp only [kabove, Bool.and_eq_true, decide_eq_true_eq] at h
    have hk : i ≠ k := by omega
    rw [kdel, if_neg hk, kdel_above (b := k) (by omega) m h.2]

theorem kdel_kset (i : Nat) (v : α) : ∀ m : KMap α, ksorted m = true → kdel (kset m i v) i = kdel m i
  | [], _ => by simp [kset, kdel]
  | (k, x) :: m, h => by
    rw [ksorted_cons] at h
    unfold kset
    by_cases h1 : i < k
    · rw [if_pos h1, kdel, if_pos rfl, kdel_above (b := i) (Nat.le_refl i) ((k, x) :: m) (by simp [kabove, h1, h])]
    · by_cases h' : i = k
      · simp [h', kdel]
      · simp only [h1, h', if_false, kdel]
        rw [kdel_kset i v m (kabove_sorted h)]

theorem kset_kdel (i : Nat) (w : α) : ∀ m : KMap α, ksorted m = true → kset (kdel m i) i w = kset m i w
  | [], _ => by simp [kset, kdel]
  | (k, x) :: m, h => by
    rw [ksorted_cons] at h
    by_cases h' : i = k
    · subst h'
      simp only [kdel, if_true, kset, Nat.lt_irrefl, if_false]
      cases m with
      | nil => rfl
      | cons e m =>
        obtain ⟨k2, y⟩ := e
        simp only [kabove, Bool.and_eq_true, decide_eq_true_eq] at h
        simp [kset, h.1]
    · simp only [kdel, h', if_false, kset]
      rw [kset_kdel i w m (kabove_sorted h)]
      by_cases h1 : i < k
      · rw [if_pos h1, if_pos h1, kdel_above (b := k) (by omega) m h]
      · rw [if_neg h1, if_neg h1]

theorem kdel_kdel (i : Nat) : ∀ m : KMap α, ksorted m = true → kdel (kdel m i) i = kdel m i
  | [], _ => rfl
  | (k, x) :: m, h => by
    rw [ksorted_cons] at h
    by_cases h' : i = k
    · subst h'
      rw [kdel, if_pos rfl, kdel_above (b := i) (Nat.le_refl i) m h]
    · rw [kdel, if_neg h', kdel, if_neg h', kdel_kdel i m (kabove_sorted h)]

/-- Of two writes of one key the second counts. -/
theorem kput_kput [DecidableEq α] (d : α) (m : KMap α) (i : Nat) (v w : α) (hs : ksorted m = true) :
    kput d (kput d m i v) i w = kput d m i w := by
  unfold kput
  by_cases hv : v = d <;> by_cases hw : w = d <;> simp [hv, hw, kset_kset, kdel_kset, kset_kdel, kdel_kdel, hs]

end Sys2Proof.Machine
end

