-- ==== Sys2Proof/Laws/State.lean ====
section
/-!
SUPPORT. What the shared updates of the state change and leave: one lemma for each field of the state and each update, so that no proof
unfolds a record update.
-/

namespace Sys2Proof.Machine.State

variable (s : State)

@[simp] theorem setReg_regs (r : Reg) (v : Reg32) (k n : Nat) : (s.setReg r v k n).regs = kput r.reset s.regs (r.key n k) v := rfl
@[simp] theorem setReg_regsOld (r : Reg) (v : Reg32) (k n : Nat) : (s.setReg r v k n).regsOld = s.regsOld := rfl
@[simp] theorem setReg_latch (r : Reg) (v : Reg32) (k n : Nat) : (s.setReg r v k n).latch = s.latch := rfl
@[simp] theorem setReg_time (r : Reg) (v : Reg32) (k n : Nat) : (s.setReg r v k n).time = s.time := rfl
@[simp] theorem setReg_course (r : Reg) (v : Reg32) (k n : Nat) : (s.setReg r v k n).course = s.course := rfl
@[simp] theorem setReg_plan (r : Reg) (v : Reg32) (k n : Nat) : (s.setReg r v k n).plan = s.plan := rfl
@[simp] theorem setReg_ports (r : Reg) (v : Reg32) (k n : Nat) : (s.setReg r v k n).ports = s.ports := rfl
@[simp] theorem setReg_ga (r : Reg) (v : Reg32) (k n : Nat) : (s.setReg r v k n).ga = s.ga := rfl
@[simp] theorem setReg_gb (r : Reg) (v : Reg32) (k n : Nat) : (s.setReg r v k n).gb = s.gb := rfl
@[simp] theorem setReg_devices (r : Reg) (v : Reg32) (k n : Nat) : (s.setReg r v k n).devices = s.devices := rfl
@[simp] theorem setReg_nodes (r : Reg) (v : Reg32) (k n : Nat) : (s.setReg r v k n).nodes = s.nodes := rfl
@[simp] theorem setReg_binds (r : Reg) (v : Reg32) (k n : Nat) : (s.setReg r v k n).binds = s.binds := rfl
@[simp] theorem setReg_amap (r : Reg) (v : Reg32) (k n : Nat) : (s.setReg r v k n).amap = s.amap := rfl
@[simp] theorem setReg_reseats (r : Reg) (v : Reg32) (k n : Nat) : (s.setReg r v k n).reseats = s.reseats := rfl
@[simp] theorem setReg_enums (r : Reg) (v : Reg32) (k n : Nat) : (s.setReg r v k n).enums = s.enums := rfl
@[simp] theorem setReg_flows (r : Reg) (v : Reg32) (k n : Nat) : (s.setReg r v k n).flows = s.flows := rfl
@[simp] theorem setReg_fwTasks (r : Reg) (v : Reg32) (k n : Nat) : (s.setReg r v k n).fwTasks = s.fwTasks := rfl
@[simp] theorem setReg_dispLast (r : Reg) (v : Reg32) (k n : Nat) : (s.setReg r v k n).dispLast = s.dispLast := rfl
@[simp] theorem setReg_turns (r : Reg) (v : Reg32) (k n : Nat) : (s.setReg r v k n).turns = s.turns := rfl
@[simp] theorem setReg_relLast (r : Reg) (v : Reg32) (k n : Nat) : (s.setReg r v k n).relLast = s.relLast := rfl
@[simp] theorem setReg_visCount (r : Reg) (v : Reg32) (k n : Nat) : (s.setReg r v k n).visCount = s.visCount := rfl
@[simp] theorem setReg_planq (r : Reg) (v : Reg32) (k n : Nat) : (s.setReg r v k n).planq = s.planq := rfl
@[simp] theorem setReg_txq (r : Reg) (v : Reg32) (k n : Nat) : (s.setReg r v k n).txq = s.txq := rfl
@[simp] theorem setReg_expects (r : Reg) (v : Reg32) (k n : Nat) : (s.setReg r v k n).expects = s.expects := rfl
@[simp] theorem setReg_txLine (r : Reg) (v : Reg32) (k n : Nat) : (s.setReg r v k n).txLine = s.txLine := rfl
@[simp] theorem setReg_engines (r : Reg) (v : Reg32) (k n : Nat) : (s.setReg r v k n).engines = s.engines := rfl
@[simp] theorem setReg_trace (r : Reg) (v : Reg32) (k n : Nat) : (s.setReg r v k n).trace = s.trace := rfl
@[simp] theorem setReg_traceDropped (r : Reg) (v : Reg32) (k n : Nat) : (s.setReg r v k n).traceDropped = s.traceDropped := rfl
@[simp] theorem setReg_ests (r : Reg) (v : Reg32) (k n : Nat) : (s.setReg r v k n).ests = s.ests := rfl
@[simp] theorem setReg_encs (r : Reg) (v : Reg32) (k n : Nat) : (s.setReg r v k n).encs = s.encs := rfl
@[simp] theorem setReg_edgesLate (r : Reg) (v : Reg32) (k n : Nat) : (s.setReg r v k n).edgesLate = s.edgesLate := rfl
@[simp] theorem setReg_insts (r : Reg) (v : Reg32) (k n : Nat) : (s.setReg r v k n).insts = s.insts := rfl
@[simp] theorem setReg_gutter (r : Reg) (v : Reg32) (k n : Nat) : (s.setReg r v k n).gutter = s.gutter := rfl
@[simp] theorem setReg_errs (r : Reg) (v : Reg32) (k n : Nat) : (s.setReg r v k n).errs = s.errs := rfl
@[simp] theorem setReg_stop (r : Reg) (v : Reg32) (k n : Nat) : (s.setReg r v k n).stop = s.stop := rfl
@[simp] theorem setReg_gang (r : Reg) (v : Reg32) (k n : Nat) : (s.setReg r v k n).gang = s.gang := rfl
@[simp] theorem setReg_pmu (r : Reg) (v : Reg32) (k n : Nat) : (s.setReg r v k n).pmu = s.pmu := rfl
@[simp] theorem setReg_ppm (r : Reg) (v : Reg32) (k n : Nat) : (s.setReg r v k n).ppm = s.ppm := rfl
@[simp] theorem setReg_feeds (r : Reg) (v : Reg32) (k n : Nat) : (s.setReg r v k n).feeds = s.feeds := rfl
@[simp] theorem setReg_oscRun (r : Reg) (v : Reg32) (k n : Nat) : (s.setReg r v k n).oscRun = s.oscRun := rfl
@[simp] theorem setReg_host (r : Reg) (v : Reg32) (k n : Nat) : (s.setReg r v k n).host = s.host := rfl
@[simp] theorem setReg_hostq (r : Reg) (v : Reg32) (k n : Nat) : (s.setReg r v k n).hostq = s.hostq := rfl
@[simp] theorem setReg_boot (r : Reg) (v : Reg32) (k n : Nat) : (s.setReg r v k n).boot = s.boot := rfl
@[simp] theorem setReg_jtag (r : Reg) (v : Reg32) (k n : Nat) : (s.setReg r v k n).jtag = s.jtag := rfl
@[simp] theorem setReg_ptbSeq (r : Reg) (v : Reg32) (k n : Nat) : (s.setReg r v k n).ptbSeq = s.ptbSeq := rfl
@[simp] theorem setReg_ptbCount (r : Reg) (v : Reg32) (k n : Nat) : (s.setReg r v k n).ptbCount = s.ptbCount := rfl
@[simp] theorem setReg_free (r : Reg) (v : Reg32) (k n : Nat) : (s.setReg r v k n).free = s.free := rfl
@[simp] theorem setReg_out (r : Reg) (v : Reg32) (k n : Nat) : (s.setReg r v k n).out = s.out := rfl
@[simp] theorem setReg_pending (r : Reg) (v : Reg32) (k n : Nat) : (s.setReg r v k n).pending = s.pending := rfl

@[simp] theorem setFld_regs (f : Fld) (x k n : Nat) : (s.setFld f x k n).regs = kput f.reg.reset s.regs (f.reg.key n k) (f.put (s.reg f.reg k n) x) := rfl
@[simp] theorem setFld_regsOld (f : Fld) (x k n : Nat) : (s.setFld f x k n).regsOld = s.regsOld := rfl
@[simp] theorem setFld_latch (f : Fld) (x k n : Nat) : (s.setFld f x k n).latch = s.latch := rfl
@[simp] theorem setFld_time (f : Fld) (x k n : Nat) : (s.setFld f x k n).time = s.time := rfl
@[simp] theorem setFld_course (f : Fld) (x k n : Nat) : (s.setFld f x k n).course = s.course := rfl
@[simp] theorem setFld_plan (f : Fld) (x k n : Nat) : (s.setFld f x k n).plan = s.plan := rfl
@[simp] theorem setFld_ports (f : Fld) (x k n : Nat) : (s.setFld f x k n).ports = s.ports := rfl
@[simp] theorem setFld_ga (f : Fld) (x k n : Nat) : (s.setFld f x k n).ga = s.ga := rfl
@[simp] theorem setFld_gb (f : Fld) (x k n : Nat) : (s.setFld f x k n).gb = s.gb := rfl
@[simp] theorem setFld_devices (f : Fld) (x k n : Nat) : (s.setFld f x k n).devices = s.devices := rfl
@[simp] theorem setFld_nodes (f : Fld) (x k n : Nat) : (s.setFld f x k n).nodes = s.nodes := rfl
@[simp] theorem setFld_binds (f : Fld) (x k n : Nat) : (s.setFld f x k n).binds = s.binds := rfl
@[simp] theorem setFld_amap (f : Fld) (x k n : Nat) : (s.setFld f x k n).amap = s.amap := rfl
@[simp] theorem setFld_reseats (f : Fld) (x k n : Nat) : (s.setFld f x k n).reseats = s.reseats := rfl
@[simp] theorem setFld_enums (f : Fld) (x k n : Nat) : (s.setFld f x k n).enums = s.enums := rfl
@[simp] theorem setFld_flows (f : Fld) (x k n : Nat) : (s.setFld f x k n).flows = s.flows := rfl
@[simp] theorem setFld_fwTasks (f : Fld) (x k n : Nat) : (s.setFld f x k n).fwTasks = s.fwTasks := rfl
@[simp] theorem setFld_dispLast (f : Fld) (x k n : Nat) : (s.setFld f x k n).dispLast = s.dispLast := rfl
@[simp] theorem setFld_turns (f : Fld) (x k n : Nat) : (s.setFld f x k n).turns = s.turns := rfl
@[simp] theorem setFld_relLast (f : Fld) (x k n : Nat) : (s.setFld f x k n).relLast = s.relLast := rfl
@[simp] theorem setFld_visCount (f : Fld) (x k n : Nat) : (s.setFld f x k n).visCount = s.visCount := rfl
@[simp] theorem setFld_planq (f : Fld) (x k n : Nat) : (s.setFld f x k n).planq = s.planq := rfl
@[simp] theorem setFld_txq (f : Fld) (x k n : Nat) : (s.setFld f x k n).txq = s.txq := rfl
@[simp] theorem setFld_expects (f : Fld) (x k n : Nat) : (s.setFld f x k n).expects = s.expects := rfl
@[simp] theorem setFld_txLine (f : Fld) (x k n : Nat) : (s.setFld f x k n).txLine = s.txLine := rfl
@[simp] theorem setFld_engines (f : Fld) (x k n : Nat) : (s.setFld f x k n).engines = s.engines := rfl
@[simp] theorem setFld_trace (f : Fld) (x k n : Nat) : (s.setFld f x k n).trace = s.trace := rfl
@[simp] theorem setFld_traceDropped (f : Fld) (x k n : Nat) : (s.setFld f x k n).traceDropped = s.traceDropped := rfl
@[simp] theorem setFld_ests (f : Fld) (x k n : Nat) : (s.setFld f x k n).ests = s.ests := rfl
@[simp] theorem setFld_encs (f : Fld) (x k n : Nat) : (s.setFld f x k n).encs = s.encs := rfl
@[simp] theorem setFld_edgesLate (f : Fld) (x k n : Nat) : (s.setFld f x k n).edgesLate = s.edgesLate := rfl
@[simp] theorem setFld_insts (f : Fld) (x k n : Nat) : (s.setFld f x k n).insts = s.insts := rfl
@[simp] theorem setFld_gutter (f : Fld) (x k n : Nat) : (s.setFld f x k n).gutter = s.gutter := rfl
@[simp] theorem setFld_errs (f : Fld) (x k n : Nat) : (s.setFld f x k n).errs = s.errs := rfl
@[simp] theorem setFld_stop (f : Fld) (x k n : Nat) : (s.setFld f x k n).stop = s.stop := rfl
@[simp] theorem setFld_gang (f : Fld) (x k n : Nat) : (s.setFld f x k n).gang = s.gang := rfl
@[simp] theorem setFld_pmu (f : Fld) (x k n : Nat) : (s.setFld f x k n).pmu = s.pmu := rfl
@[simp] theorem setFld_ppm (f : Fld) (x k n : Nat) : (s.setFld f x k n).ppm = s.ppm := rfl
@[simp] theorem setFld_feeds (f : Fld) (x k n : Nat) : (s.setFld f x k n).feeds = s.feeds := rfl
@[simp] theorem setFld_oscRun (f : Fld) (x k n : Nat) : (s.setFld f x k n).oscRun = s.oscRun := rfl
@[simp] theorem setFld_host (f : Fld) (x k n : Nat) : (s.setFld f x k n).host = s.host := rfl
@[simp] theorem setFld_hostq (f : Fld) (x k n : Nat) : (s.setFld f x k n).hostq = s.hostq := rfl
@[simp] theorem setFld_boot (f : Fld) (x k n : Nat) : (s.setFld f x k n).boot = s.boot := rfl
@[simp] theorem setFld_jtag (f : Fld) (x k n : Nat) : (s.setFld f x k n).jtag = s.jtag := rfl
@[simp] theorem setFld_ptbSeq (f : Fld) (x k n : Nat) : (s.setFld f x k n).ptbSeq = s.ptbSeq := rfl
@[simp] theorem setFld_ptbCount (f : Fld) (x k n : Nat) : (s.setFld f x k n).ptbCount = s.ptbCount := rfl
@[simp] theorem setFld_free (f : Fld) (x k n : Nat) : (s.setFld f x k n).free = s.free := rfl
@[simp] theorem setFld_out (f : Fld) (x k n : Nat) : (s.setFld f x k n).out = s.out := rfl
@[simp] theorem setFld_pending (f : Fld) (x k n : Nat) : (s.setFld f x k n).pending = s.pending := rfl

@[simp] theorem setBit_regs (f : Fld) (k n : Nat) : (s.setBit f k n).regs = kput f.reg.reset s.regs (f.reg.key n k) (f.put (s.reg f.reg k n) 1) := rfl
@[simp] theorem setBit_regsOld (f : Fld) (k n : Nat) : (s.setBit f k n).regsOld = s.regsOld := rfl
@[simp] theorem setBit_latch (f : Fld) (k n : Nat) : (s.setBit f k n).latch = s.latch := rfl
@[simp] theorem setBit_time (f : Fld) (k n : Nat) : (s.setBit f k n).time = s.time := rfl
@[simp] theorem setBit_course (f : Fld) (k n : Nat) : (s.setBit f k n).course = s.course := rfl
@[simp] theorem setBit_plan (f : Fld) (k n : Nat) : (s.setBit f k n).plan = s.plan := rfl
@[simp] theorem setBit_ports (f : Fld) (k n : Nat) : (s.setBit f k n).ports = s.ports := rfl
@[simp] theorem setBit_ga (f : Fld) (k n : Nat) : (s.setBit f k n).ga = s.ga := rfl
@[simp] theorem setBit_gb (f : Fld) (k n : Nat) : (s.setBit f k n).gb = s.gb := rfl
@[simp] theorem setBit_devices (f : Fld) (k n : Nat) : (s.setBit f k n).devices = s.devices := rfl
@[simp] theorem setBit_nodes (f : Fld) (k n : Nat) : (s.setBit f k n).nodes = s.nodes := rfl
@[simp] theorem setBit_binds (f : Fld) (k n : Nat) : (s.setBit f k n).binds = s.binds := rfl
@[simp] theorem setBit_amap (f : Fld) (k n : Nat) : (s.setBit f k n).amap = s.amap := rfl
@[simp] theorem setBit_reseats (f : Fld) (k n : Nat) : (s.setBit f k n).reseats = s.reseats := rfl
@[simp] theorem setBit_enums (f : Fld) (k n : Nat) : (s.setBit f k n).enums = s.enums := rfl
@[simp] theorem setBit_flows (f : Fld) (k n : Nat) : (s.setBit f k n).flows = s.flows := rfl
@[simp] theorem setBit_fwTasks (f : Fld) (k n : Nat) : (s.setBit f k n).fwTasks = s.fwTasks := rfl
@[simp] theorem setBit_dispLast (f : Fld) (k n : Nat) : (s.setBit f k n).dispLast = s.dispLast := rfl
@[simp] theorem setBit_turns (f : Fld) (k n : Nat) : (s.setBit f k n).turns = s.turns := rfl
@[simp] theorem setBit_relLast (f : Fld) (k n : Nat) : (s.setBit f k n).relLast = s.relLast := rfl
@[simp] theorem setBit_visCount (f : Fld) (k n : Nat) : (s.setBit f k n).visCount = s.visCount := rfl
@[simp] theorem setBit_planq (f : Fld) (k n : Nat) : (s.setBit f k n).planq = s.planq := rfl
@[simp] theorem setBit_txq (f : Fld) (k n : Nat) : (s.setBit f k n).txq = s.txq := rfl
@[simp] theorem setBit_expects (f : Fld) (k n : Nat) : (s.setBit f k n).expects = s.expects := rfl
@[simp] theorem setBit_txLine (f : Fld) (k n : Nat) : (s.setBit f k n).txLine = s.txLine := rfl
@[simp] theorem setBit_engines (f : Fld) (k n : Nat) : (s.setBit f k n).engines = s.engines := rfl
@[simp] theorem setBit_trace (f : Fld) (k n : Nat) : (s.setBit f k n).trace = s.trace := rfl
@[simp] theorem setBit_traceDropped (f : Fld) (k n : Nat) : (s.setBit f k n).traceDropped = s.traceDropped := rfl
@[simp] theorem setBit_ests (f : Fld) (k n : Nat) : (s.setBit f k n).ests = s.ests := rfl
@[simp] theorem setBit_encs (f : Fld) (k n : Nat) : (s.setBit f k n).encs = s.encs := rfl
@[simp] theorem setBit_edgesLate (f : Fld) (k n : Nat) : (s.setBit f k n).edgesLate = s.edgesLate := rfl
@[simp] theorem setBit_insts (f : Fld) (k n : Nat) : (s.setBit f k n).insts = s.insts := rfl
@[simp] theorem setBit_gutter (f : Fld) (k n : Nat) : (s.setBit f k n).gutter = s.gutter := rfl
@[simp] theorem setBit_errs (f : Fld) (k n : Nat) : (s.setBit f k n).errs = s.errs := rfl
@[simp] theorem setBit_stop (f : Fld) (k n : Nat) : (s.setBit f k n).stop = s.stop := rfl
@[simp] theorem setBit_gang (f : Fld) (k n : Nat) : (s.setBit f k n).gang = s.gang := rfl
@[simp] theorem setBit_pmu (f : Fld) (k n : Nat) : (s.setBit f k n).pmu = s.pmu := rfl
@[simp] theorem setBit_ppm (f : Fld) (k n : Nat) : (s.setBit f k n).ppm = s.ppm := rfl
@[simp] theorem setBit_feeds (f : Fld) (k n : Nat) : (s.setBit f k n).feeds = s.feeds := rfl
@[simp] theorem setBit_oscRun (f : Fld) (k n : Nat) : (s.setBit f k n).oscRun = s.oscRun := rfl
@[simp] theorem setBit_host (f : Fld) (k n : Nat) : (s.setBit f k n).host = s.host := rfl
@[simp] theorem setBit_hostq (f : Fld) (k n : Nat) : (s.setBit f k n).hostq = s.hostq := rfl
@[simp] theorem setBit_boot (f : Fld) (k n : Nat) : (s.setBit f k n).boot = s.boot := rfl
@[simp] theorem setBit_jtag (f : Fld) (k n : Nat) : (s.setBit f k n).jtag = s.jtag := rfl
@[simp] theorem setBit_ptbSeq (f : Fld) (k n : Nat) : (s.setBit f k n).ptbSeq = s.ptbSeq := rfl
@[simp] theorem setBit_ptbCount (f : Fld) (k n : Nat) : (s.setBit f k n).ptbCount = s.ptbCount := rfl
@[simp] theorem setBit_free (f : Fld) (k n : Nat) : (s.setBit f k n).free = s.free := rfl
@[simp] theorem setBit_out (f : Fld) (k n : Nat) : (s.setBit f k n).out = s.out := rfl
@[simp] theorem setBit_pending (f : Fld) (k n : Nat) : (s.setBit f k n).pending = s.pending := rfl

@[simp] theorem addSat_regs (f : Fld) (d k n : Nat) : (s.addSat f d k n).regs = kput f.reg.reset s.regs (f.reg.key n k) (f.put (s.reg f.reg k n) (min (s.fld f k n + d) (2 ^ f.width - 1))) := rfl
@[simp] theorem addSat_regsOld (f : Fld) (d k n : Nat) : (s.addSat f d k n).regsOld = s.regsOld := rfl
@[simp] theorem addSat_latch (f : Fld) (d k n : Nat) : (s.addSat f d k n).latch = s.latch := rfl
@[simp] theorem addSat_time (f : Fld) (d k n : Nat) : (s.addSat f d k n).time = s.time := rfl
@[simp] theorem addSat_course (f : Fld) (d k n : Nat) : (s.addSat f d k n).course = s.course := rfl
@[simp] theorem addSat_plan (f : Fld) (d k n : Nat) : (s.addSat f d k n).plan = s.plan := rfl
@[simp] theorem addSat_ports (f : Fld) (d k n : Nat) : (s.addSat f d k n).ports = s.ports := rfl
@[simp] theorem addSat_ga (f : Fld) (d k n : Nat) : (s.addSat f d k n).ga = s.ga := rfl
@[simp] theorem addSat_gb (f : Fld) (d k n : Nat) : (s.addSat f d k n).gb = s.gb := rfl
@[simp] theorem addSat_devices (f : Fld) (d k n : Nat) : (s.addSat f d k n).devices = s.devices := rfl
@[simp] theorem addSat_nodes (f : Fld) (d k n : Nat) : (s.addSat f d k n).nodes = s.nodes := rfl
@[simp] theorem addSat_binds (f : Fld) (d k n : Nat) : (s.addSat f d k n).binds = s.binds := rfl
@[simp] theorem addSat_amap (f : Fld) (d k n : Nat) : (s.addSat f d k n).amap = s.amap := rfl
@[simp] theorem addSat_reseats (f : Fld) (d k n : Nat) : (s.addSat f d k n).reseats = s.reseats := rfl
@[simp] theorem addSat_enums (f : Fld) (d k n : Nat) : (s.addSat f d k n).enums = s.enums := rfl
@[simp] theorem addSat_flows (f : Fld) (d k n : Nat) : (s.addSat f d k n).flows = s.flows := rfl
@[simp] theorem addSat_fwTasks (f : Fld) (d k n : Nat) : (s.addSat f d k n).fwTasks = s.fwTasks := rfl
@[simp] theorem addSat_dispLast (f : Fld) (d k n : Nat) : (s.addSat f d k n).dispLast = s.dispLast := rfl
@[simp] theorem addSat_turns (f : Fld) (d k n : Nat) : (s.addSat f d k n).turns = s.turns := rfl
@[simp] theorem addSat_relLast (f : Fld) (d k n : Nat) : (s.addSat f d k n).relLast = s.relLast := rfl
@[simp] theorem addSat_visCount (f : Fld) (d k n : Nat) : (s.addSat f d k n).visCount = s.visCount := rfl
@[simp] theorem addSat_planq (f : Fld) (d k n : Nat) : (s.addSat f d k n).planq = s.planq := rfl
@[simp] theorem addSat_txq (f : Fld) (d k n : Nat) : (s.addSat f d k n).txq = s.txq := rfl
@[simp] theorem addSat_expects (f : Fld) (d k n : Nat) : (s.addSat f d k n).expects = s.expects := rfl
@[simp] theorem addSat_txLine (f : Fld) (d k n : Nat) : (s.addSat f d k n).txLine = s.txLine := rfl
@[simp] theorem addSat_engines (f : Fld) (d k n : Nat) : (s.addSat f d k n).engines = s.engines := rfl
@[simp] theorem addSat_trace (f : Fld) (d k n : Nat) : (s.addSat f d k n).trace = s.trace := rfl
@[simp] theorem addSat_traceDropped (f : Fld) (d k n : Nat) : (s.addSat f d k n).traceDropped = s.traceDropped := rfl
@[simp] theorem addSat_ests (f : Fld) (d k n : Nat) : (s.addSat f d k n).ests = s.ests := rfl
@[simp] theorem addSat_encs (f : Fld) (d k n : Nat) : (s.addSat f d k n).encs = s.encs := rfl
@[simp] theorem addSat_edgesLate (f : Fld) (d k n : Nat) : (s.addSat f d k n).edgesLate = s.edgesLate := rfl
@[simp] theorem addSat_insts (f : Fld) (d k n : Nat) : (s.addSat f d k n).insts = s.insts := rfl
@[simp] theorem addSat_gutter (f : Fld) (d k n : Nat) : (s.addSat f d k n).gutter = s.gutter := rfl
@[simp] theorem addSat_errs (f : Fld) (d k n : Nat) : (s.addSat f d k n).errs = s.errs := rfl
@[simp] theorem addSat_stop (f : Fld) (d k n : Nat) : (s.addSat f d k n).stop = s.stop := rfl
@[simp] theorem addSat_gang (f : Fld) (d k n : Nat) : (s.addSat f d k n).gang = s.gang := rfl
@[simp] theorem addSat_pmu (f : Fld) (d k n : Nat) : (s.addSat f d k n).pmu = s.pmu := rfl
@[simp] theorem addSat_ppm (f : Fld) (d k n : Nat) : (s.addSat f d k n).ppm = s.ppm := rfl
@[simp] theorem addSat_feeds (f : Fld) (d k n : Nat) : (s.addSat f d k n).feeds = s.feeds := rfl
@[simp] theorem addSat_oscRun (f : Fld) (d k n : Nat) : (s.addSat f d k n).oscRun = s.oscRun := rfl
@[simp] theorem addSat_host (f : Fld) (d k n : Nat) : (s.addSat f d k n).host = s.host := rfl
@[simp] theorem addSat_hostq (f : Fld) (d k n : Nat) : (s.addSat f d k n).hostq = s.hostq := rfl
@[simp] theorem addSat_boot (f : Fld) (d k n : Nat) : (s.addSat f d k n).boot = s.boot := rfl
@[simp] theorem addSat_jtag (f : Fld) (d k n : Nat) : (s.addSat f d k n).jtag = s.jtag := rfl
@[simp] theorem addSat_ptbSeq (f : Fld) (d k n : Nat) : (s.addSat f d k n).ptbSeq = s.ptbSeq := rfl
@[simp] theorem addSat_ptbCount (f : Fld) (d k n : Nat) : (s.addSat f d k n).ptbCount = s.ptbCount := rfl
@[simp] theorem addSat_free (f : Fld) (d k n : Nat) : (s.addSat f d k n).free = s.free := rfl
@[simp] theorem addSat_out (f : Fld) (d k n : Nat) : (s.addSat f d k n).out = s.out := rfl
@[simp] theorem addSat_pending (f : Fld) (d k n : Nat) : (s.addSat f d k n).pending = s.pending := rfl

@[simp] theorem setPair_regsOld (lo hi : Fld) (v n : Nat) : (s.setPair lo hi v n).regsOld = s.regsOld := rfl
@[simp] theorem setPair_latch (lo hi : Fld) (v n : Nat) : (s.setPair lo hi v n).latch = s.latch := rfl
@[simp] theorem setPair_time (lo hi : Fld) (v n : Nat) : (s.setPair lo hi v n).time = s.time := rfl
@[simp] theorem setPair_course (lo hi : Fld) (v n : Nat) : (s.setPair lo hi v n).course = s.course := rfl
@[simp] theorem setPair_plan (lo hi : Fld) (v n : Nat) : (s.setPair lo hi v n).plan = s.plan := rfl
@[simp] theorem setPair_ports (lo hi : Fld) (v n : Nat) : (s.setPair lo hi v n).ports = s.ports := rfl
@[simp] theorem setPair_ga (lo hi : Fld) (v n : Nat) : (s.setPair lo hi v n).ga = s.ga := rfl
@[simp] theorem setPair_gb (lo hi : Fld) (v n : Nat) : (s.setPair lo hi v n).gb = s.gb := rfl
@[simp] theorem setPair_devices (lo hi : Fld) (v n : Nat) : (s.setPair lo hi v n).devices = s.devices := rfl
@[simp] theorem setPair_nodes (lo hi : Fld) (v n : Nat) : (s.setPair lo hi v n).nodes = s.nodes := rfl
@[simp] theorem setPair_binds (lo hi : Fld) (v n : Nat) : (s.setPair lo hi v n).binds = s.binds := rfl
@[simp] theorem setPair_amap (lo hi : Fld) (v n : Nat) : (s.setPair lo hi v n).amap = s.amap := rfl
@[simp] theorem setPair_reseats (lo hi : Fld) (v n : Nat) : (s.setPair lo hi v n).reseats = s.reseats := rfl
@[simp] theorem setPair_enums (lo hi : Fld) (v n : Nat) : (s.setPair lo hi v n).enums = s.enums := rfl
@[simp] theorem setPair_flows (lo hi : Fld) (v n : Nat) : (s.setPair lo hi v n).flows = s.flows := rfl
@[simp] theorem setPair_fwTasks (lo hi : Fld) (v n : Nat) : (s.setPair lo hi v n).fwTasks = s.fwTasks := rfl
@[simp] theorem setPair_dispLast (lo hi : Fld) (v n : Nat) : (s.setPair lo hi v n).dispLast = s.dispLast := rfl
@[simp] theorem setPair_turns (lo hi : Fld) (v n : Nat) : (s.setPair lo hi v n).turns = s.turns := rfl
@[simp] theorem setPair_relLast (lo hi : Fld) (v n : Nat) : (s.setPair lo hi v n).relLast = s.relLast := rfl
@[simp] theorem setPair_visCount (lo hi : Fld) (v n : Nat) : (s.setPair lo hi v n).visCount = s.visCount := rfl
@[simp] theorem setPair_planq (lo hi : Fld) (v n : Nat) : (s.setPair lo hi v n).planq = s.planq := rfl
@[simp] theorem setPair_txq (lo hi : Fld) (v n : Nat) : (s.setPair lo hi v n).txq = s.txq := rfl
@[simp] theorem setPair_expects (lo hi : Fld) (v n : Nat) : (s.setPair lo hi v n).expects = s.expects := rfl
@[simp] theorem setPair_txLine (lo hi : Fld) (v n : Nat) : (s.setPair lo hi v n).txLine = s.txLine := rfl
@[simp] theorem setPair_engines (lo hi : Fld) (v n : Nat) : (s.setPair lo hi v n).engines = s.engines := rfl
@[simp] theorem setPair_trace (lo hi : Fld) (v n : Nat) : (s.setPair lo hi v n).trace = s.trace := rfl
@[simp] theorem setPair_traceDropped (lo hi : Fld) (v n : Nat) : (s.setPair lo hi v n).traceDropped = s.traceDropped := rfl
@[simp] theorem setPair_ests (lo hi : Fld) (v n : Nat) : (s.setPair lo hi v n).ests = s.ests := rfl
@[simp] theorem setPair_encs (lo hi : Fld) (v n : Nat) : (s.setPair lo hi v n).encs = s.encs := rfl
@[simp] theorem setPair_edgesLate (lo hi : Fld) (v n : Nat) : (s.setPair lo hi v n).edgesLate = s.edgesLate := rfl
@[simp] theorem setPair_insts (lo hi : Fld) (v n : Nat) : (s.setPair lo hi v n).insts = s.insts := rfl
@[simp] theorem setPair_gutter (lo hi : Fld) (v n : Nat) : (s.setPair lo hi v n).gutter = s.gutter := rfl
@[simp] theorem setPair_errs (lo hi : Fld) (v n : Nat) : (s.setPair lo hi v n).errs = s.errs := rfl
@[simp] theorem setPair_stop (lo hi : Fld) (v n : Nat) : (s.setPair lo hi v n).stop = s.stop := rfl
@[simp] theorem setPair_gang (lo hi : Fld) (v n : Nat) : (s.setPair lo hi v n).gang = s.gang := rfl
@[simp] theorem setPair_pmu (lo hi : Fld) (v n : Nat) : (s.setPair lo hi v n).pmu = s.pmu := rfl
@[simp] theorem setPair_ppm (lo hi : Fld) (v n : Nat) : (s.setPair lo hi v n).ppm = s.ppm := rfl
@[simp] theorem setPair_feeds (lo hi : Fld) (v n : Nat) : (s.setPair lo hi v n).feeds = s.feeds := rfl
@[simp] theorem setPair_oscRun (lo hi : Fld) (v n : Nat) : (s.setPair lo hi v n).oscRun = s.oscRun := rfl
@[simp] theorem setPair_host (lo hi : Fld) (v n : Nat) : (s.setPair lo hi v n).host = s.host := rfl
@[simp] theorem setPair_hostq (lo hi : Fld) (v n : Nat) : (s.setPair lo hi v n).hostq = s.hostq := rfl
@[simp] theorem setPair_boot (lo hi : Fld) (v n : Nat) : (s.setPair lo hi v n).boot = s.boot := rfl
@[simp] theorem setPair_jtag (lo hi : Fld) (v n : Nat) : (s.setPair lo hi v n).jtag = s.jtag := rfl
@[simp] theorem setPair_ptbSeq (lo hi : Fld) (v n : Nat) : (s.setPair lo hi v n).ptbSeq = s.ptbSeq := rfl
@[simp] theorem setPair_ptbCount (lo hi : Fld) (v n : Nat) : (s.setPair lo hi v n).ptbCount = s.ptbCount := rfl
@[simp] theorem setPair_free (lo hi : Fld) (v n : Nat) : (s.setPair lo hi v n).free = s.free := rfl
@[simp] theorem setPair_out (lo hi : Fld) (v n : Nat) : (s.setPair lo hi v n).out = s.out := rfl
@[simp] theorem setPair_pending (lo hi : Fld) (v n : Nat) : (s.setPair lo hi v n).pending = s.pending := rfl

@[simp] theorem emit_regs (o : Out) : (s.emit o).regs = s.regs := rfl
@[simp] theorem emit_regsOld (o : Out) : (s.emit o).regsOld = s.regsOld := rfl
@[simp] theorem emit_latch (o : Out) : (s.emit o).latch = s.latch := rfl
@[simp] theorem emit_time (o : Out) : (s.emit o).time = s.time := rfl
@[simp] theorem emit_course (o : Out) : (s.emit o).course = s.course := rfl
@[simp] theorem emit_plan (o : Out) : (s.emit o).plan = s.plan := rfl
@[simp] theorem emit_ports (o : Out) : (s.emit o).ports = s.ports := rfl
@[simp] theorem emit_ga (o : Out) : (s.emit o).ga = s.ga := rfl
@[simp] theorem emit_gb (o : Out) : (s.emit o).gb = s.gb := rfl
@[simp] theorem emit_devices (o : Out) : (s.emit o).devices = s.devices := rfl
@[simp] theorem emit_nodes (o : Out) : (s.emit o).nodes = s.nodes := rfl
@[simp] theorem emit_binds (o : Out) : (s.emit o).binds = s.binds := rfl
@[simp] theorem emit_amap (o : Out) : (s.emit o).amap = s.amap := rfl
@[simp] theorem emit_reseats (o : Out) : (s.emit o).reseats = s.reseats := rfl
@[simp] theorem emit_enums (o : Out) : (s.emit o).enums = s.enums := rfl
@[simp] theorem emit_flows (o : Out) : (s.emit o).flows = s.flows := rfl
@[simp] theorem emit_fwTasks (o : Out) : (s.emit o).fwTasks = s.fwTasks := rfl
@[simp] theorem emit_dispLast (o : Out) : (s.emit o).dispLast = s.dispLast := rfl
@[simp] theorem emit_turns (o : Out) : (s.emit o).turns = s.turns := rfl
@[simp] theorem emit_relLast (o : Out) : (s.emit o).relLast = s.relLast := rfl
@[simp] theorem emit_visCount (o : Out) : (s.emit o).visCount = s.visCount := rfl
@[simp] theorem emit_planq (o : Out) : (s.emit o).planq = s.planq := rfl
@[simp] theorem emit_txq (o : Out) : (s.emit o).txq = s.txq := rfl
@[simp] theorem emit_expects (o : Out) : (s.emit o).expects = s.expects := rfl
@[simp] theorem emit_txLine (o : Out) : (s.emit o).txLine = s.txLine := rfl
@[simp] theorem emit_engines (o : Out) : (s.emit o).engines = s.engines := rfl
@[simp] theorem emit_trace (o : Out) : (s.emit o).trace = s.trace := rfl
@[simp] theorem emit_traceDropped (o : Out) : (s.emit o).traceDropped = s.traceDropped := rfl
@[simp] theorem emit_ests (o : Out) : (s.emit o).ests = s.ests := rfl
@[simp] theorem emit_encs (o : Out) : (s.emit o).encs = s.encs := rfl
@[simp] theorem emit_edgesLate (o : Out) : (s.emit o).edgesLate = s.edgesLate := rfl
@[simp] theorem emit_insts (o : Out) : (s.emit o).insts = s.insts := rfl
@[simp] theorem emit_gutter (o : Out) : (s.emit o).gutter = s.gutter := rfl
@[simp] theorem emit_errs (o : Out) : (s.emit o).errs = s.errs := rfl
@[simp] theorem emit_stop (o : Out) : (s.emit o).stop = s.stop := rfl
@[simp] theorem emit_gang (o : Out) : (s.emit o).gang = s.gang := rfl
@[simp] theorem emit_pmu (o : Out) : (s.emit o).pmu = s.pmu := rfl
@[simp] theorem emit_ppm (o : Out) : (s.emit o).ppm = s.ppm := rfl
@[simp] theorem emit_feeds (o : Out) : (s.emit o).feeds = s.feeds := rfl
@[simp] theorem emit_oscRun (o : Out) : (s.emit o).oscRun = s.oscRun := rfl
@[simp] theorem emit_host (o : Out) : (s.emit o).host = s.host := rfl
@[simp] theorem emit_hostq (o : Out) : (s.emit o).hostq = s.hostq := rfl
@[simp] theorem emit_boot (o : Out) : (s.emit o).boot = s.boot := rfl
@[simp] theorem emit_jtag (o : Out) : (s.emit o).jtag = s.jtag := rfl
@[simp] theorem emit_ptbSeq (o : Out) : (s.emit o).ptbSeq = s.ptbSeq := rfl
@[simp] theorem emit_ptbCount (o : Out) : (s.emit o).ptbCount = s.ptbCount := rfl
@[simp] theorem emit_free (o : Out) : (s.emit o).free = s.free := rfl
@[simp] theorem emit_out (o : Out) : (s.emit o).out = o :: s.out := rfl
@[simp] theorem emit_pending (o : Out) : (s.emit o).pending = s.pending := rfl

@[simp] theorem setInst_regs (i : Nat) (x : Instance) : (s.setInst i x).regs = s.regs := rfl
@[simp] theorem setInst_regsOld (i : Nat) (x : Instance) : (s.setInst i x).regsOld = s.regsOld := rfl
@[simp] theorem setInst_latch (i : Nat) (x : Instance) : (s.setInst i x).latch = s.latch := rfl
@[simp] theorem setInst_time (i : Nat) (x : Instance) : (s.setInst i x).time = s.time := rfl
@[simp] theorem setInst_course (i : Nat) (x : Instance) : (s.setInst i x).course = s.course := rfl
@[simp] theorem setInst_plan (i : Nat) (x : Instance) : (s.setInst i x).plan = s.plan := rfl
@[simp] theorem setInst_ports (i : Nat) (x : Instance) : (s.setInst i x).ports = s.ports := rfl
@[simp] theorem setInst_ga (i : Nat) (x : Instance) : (s.setInst i x).ga = s.ga := rfl
@[simp] theorem setInst_gb (i : Nat) (x : Instance) : (s.setInst i x).gb = s.gb := rfl
@[simp] theorem setInst_devices (i : Nat) (x : Instance) : (s.setInst i x).devices = s.devices := rfl
@[simp] theorem setInst_nodes (i : Nat) (x : Instance) : (s.setInst i x).nodes = s.nodes := rfl
@[simp] theorem setInst_binds (i : Nat) (x : Instance) : (s.setInst i x).binds = s.binds := rfl
@[simp] theorem setInst_amap (i : Nat) (x : Instance) : (s.setInst i x).amap = s.amap := rfl
@[simp] theorem setInst_reseats (i : Nat) (x : Instance) : (s.setInst i x).reseats = s.reseats := rfl
@[simp] theorem setInst_enums (i : Nat) (x : Instance) : (s.setInst i x).enums = s.enums := rfl
@[simp] theorem setInst_flows (i : Nat) (x : Instance) : (s.setInst i x).flows = s.flows := rfl
@[simp] theorem setInst_fwTasks (i : Nat) (x : Instance) : (s.setInst i x).fwTasks = s.fwTasks := rfl
@[simp] theorem setInst_dispLast (i : Nat) (x : Instance) : (s.setInst i x).dispLast = s.dispLast := rfl
@[simp] theorem setInst_turns (i : Nat) (x : Instance) : (s.setInst i x).turns = s.turns := rfl
@[simp] theorem setInst_relLast (i : Nat) (x : Instance) : (s.setInst i x).relLast = s.relLast := rfl
@[simp] theorem setInst_visCount (i : Nat) (x : Instance) : (s.setInst i x).visCount = s.visCount := rfl
@[simp] theorem setInst_planq (i : Nat) (x : Instance) : (s.setInst i x).planq = s.planq := rfl
@[simp] theorem setInst_txq (i : Nat) (x : Instance) : (s.setInst i x).txq = s.txq := rfl
@[simp] theorem setInst_expects (i : Nat) (x : Instance) : (s.setInst i x).expects = s.expects := rfl
@[simp] theorem setInst_txLine (i : Nat) (x : Instance) : (s.setInst i x).txLine = s.txLine := rfl
@[simp] theorem setInst_engines (i : Nat) (x : Instance) : (s.setInst i x).engines = s.engines := rfl
@[simp] theorem setInst_trace (i : Nat) (x : Instance) : (s.setInst i x).trace = s.trace := rfl
@[simp] theorem setInst_traceDropped (i : Nat) (x : Instance) : (s.setInst i x).traceDropped = s.traceDropped := rfl
@[simp] theorem setInst_ests (i : Nat) (x : Instance) : (s.setInst i x).ests = s.ests := rfl
@[simp] theorem setInst_encs (i : Nat) (x : Instance) : (s.setInst i x).encs = s.encs := rfl
@[simp] theorem setInst_edgesLate (i : Nat) (x : Instance) : (s.setInst i x).edgesLate = s.edgesLate := rfl
@[simp] theorem setInst_insts (i : Nat) (x : Instance) : (s.setInst i x).insts = kput Instance.init s.insts i x := rfl
@[simp] theorem setInst_gutter (i : Nat) (x : Instance) : (s.setInst i x).gutter = s.gutter := rfl
@[simp] theorem setInst_errs (i : Nat) (x : Instance) : (s.setInst i x).errs = s.errs := rfl
@[simp] theorem setInst_stop (i : Nat) (x : Instance) : (s.setInst i x).stop = s.stop := rfl
@[simp] theorem setInst_gang (i : Nat) (x : Instance) : (s.setInst i x).gang = s.gang := rfl
@[simp] theorem setInst_pmu (i : Nat) (x : Instance) : (s.setInst i x).pmu = s.pmu := rfl
@[simp] theorem setInst_ppm (i : Nat) (x : Instance) : (s.setInst i x).ppm = s.ppm := rfl
@[simp] theorem setInst_feeds (i : Nat) (x : Instance) : (s.setInst i x).feeds = s.feeds := rfl
@[simp] theorem setInst_oscRun (i : Nat) (x : Instance) : (s.setInst i x).oscRun = s.oscRun := rfl
@[simp] theorem setInst_host (i : Nat) (x : Instance) : (s.setInst i x).host = s.host := rfl
@[simp] theorem setInst_hostq (i : Nat) (x : Instance) : (s.setInst i x).hostq = s.hostq := rfl
@[simp] theorem setInst_boot (i : Nat) (x : Instance) : (s.setInst i x).boot = s.boot := rfl
@[simp] theorem setInst_jtag (i : Nat) (x : Instance) : (s.setInst i x).jtag = s.jtag := rfl
@[simp] theorem setInst_ptbSeq (i : Nat) (x : Instance) : (s.setInst i x).ptbSeq = s.ptbSeq := rfl
@[simp] theorem setInst_ptbCount (i : Nat) (x : Instance) : (s.setInst i x).ptbCount = s.ptbCount := rfl
@[simp] theorem setInst_free (i : Nat) (x : Instance) : (s.setInst i x).free = s.free := rfl
@[simp] theorem setInst_out (i : Nat) (x : Instance) : (s.setInst i x).out = s.out := rfl
@[simp] theorem setInst_pending (i : Nat) (x : Instance) : (s.setInst i x).pending = s.pending := rfl

@[simp] theorem modInst_regs (i : Nat) (f : Instance → Instance) : (s.modInst i f).regs = s.regs := rfl
@[simp] theorem modInst_regsOld (i : Nat) (f : Instance → Instance) : (s.modInst i f).regsOld = s.regsOld := rfl
@[simp] theorem modInst_latch (i : Nat) (f : Instance → Instance) : (s.modInst i f).latch = s.latch := rfl
@[simp] theorem modInst_time (i : Nat) (f : Instance → Instance) : (s.modInst i f).time = s.time := rfl
@[simp] theorem modInst_course (i : Nat) (f : Instance → Instance) : (s.modInst i f).course = s.course := rfl
@[simp] theorem modInst_plan (i : Nat) (f : Instance → Instance) : (s.modInst i f).plan = s.plan := rfl
@[simp] theorem modInst_ports (i : Nat) (f : Instance → Instance) : (s.modInst i f).ports = s.ports := rfl
@[simp] theorem modInst_ga (i : Nat) (f : Instance → Instance) : (s.modInst i f).ga = s.ga := rfl
@[simp] theorem modInst_gb (i : Nat) (f : Instance → Instance) : (s.modInst i f).gb = s.gb := rfl
@[simp] theorem modInst_devices (i : Nat) (f : Instance → Instance) : (s.modInst i f).devices = s.devices := rfl
@[simp] theorem modInst_nodes (i : Nat) (f : Instance → Instance) : (s.modInst i f).nodes = s.nodes := rfl
@[simp] theorem modInst_binds (i : Nat) (f : Instance → Instance) : (s.modInst i f).binds = s.binds := rfl
@[simp] theorem modInst_amap (i : Nat) (f : Instance → Instance) : (s.modInst i f).amap = s.amap := rfl
@[simp] theorem modInst_reseats (i : Nat) (f : Instance → Instance) : (s.modInst i f).reseats = s.reseats := rfl
@[simp] theorem modInst_enums (i : Nat) (f : Instance → Instance) : (s.modInst i f).enums = s.enums := rfl
@[simp] theorem modInst_flows (i : Nat) (f : Instance → Instance) : (s.modInst i f).flows = s.flows := rfl
@[simp] theorem modInst_fwTasks (i : Nat) (f : Instance → Instance) : (s.modInst i f).fwTasks = s.fwTasks := rfl
@[simp] theorem modInst_dispLast (i : Nat) (f : Instance → Instance) : (s.modInst i f).dispLast = s.dispLast := rfl
@[simp] theorem modInst_turns (i : Nat) (f : Instance → Instance) : (s.modInst i f).turns = s.turns := rfl
@[simp] theorem modInst_relLast (i : Nat) (f : Instance → Instance) : (s.modInst i f).relLast = s.relLast := rfl
@[simp] theorem modInst_visCount (i : Nat) (f : Instance → Instance) : (s.modInst i f).visCount = s.visCount := rfl
@[simp] theorem modInst_planq (i : Nat) (f : Instance → Instance) : (s.modInst i f).planq = s.planq := rfl
@[simp] theorem modInst_txq (i : Nat) (f : Instance → Instance) : (s.modInst i f).txq = s.txq := rfl
@[simp] theorem modInst_expects (i : Nat) (f : Instance → Instance) : (s.modInst i f).expects = s.expects := rfl
@[simp] theorem modInst_txLine (i : Nat) (f : Instance → Instance) : (s.modInst i f).txLine = s.txLine := rfl
@[simp] theorem modInst_engines (i : Nat) (f : Instance → Instance) : (s.modInst i f).engines = s.engines := rfl
@[simp] theorem modInst_trace (i : Nat) (f : Instance → Instance) : (s.modInst i f).trace = s.trace := rfl
@[simp] theorem modInst_traceDropped (i : Nat) (f : Instance → Instance) : (s.modInst i f).traceDropped = s.traceDropped := rfl
@[simp] theorem modInst_ests (i : Nat) (f : Instance → Instance) : (s.modInst i f).ests = s.ests := rfl
@[simp] theorem modInst_encs (i : Nat) (f : Instance → Instance) : (s.modInst i f).encs = s.encs := rfl
@[simp] theorem modInst_edgesLate (i : Nat) (f : Instance → Instance) : (s.modInst i f).edgesLate = s.edgesLate := rfl
@[simp] theorem modInst_insts (i : Nat) (f : Instance → Instance) : (s.modInst i f).insts = kput Instance.init s.insts i (f (s.inst i)) := rfl
@[simp] theorem modInst_gutter (i : Nat) (f : Instance → Instance) : (s.modInst i f).gutter = s.gutter := rfl
@[simp] theorem modInst_errs (i : Nat) (f : Instance → Instance) : (s.modInst i f).errs = s.errs := rfl
@[simp] theorem modInst_stop (i : Nat) (f : Instance → Instance) : (s.modInst i f).stop = s.stop := rfl
@[simp] theorem modInst_gang (i : Nat) (f : Instance → Instance) : (s.modInst i f).gang = s.gang := rfl
@[simp] theorem modInst_pmu (i : Nat) (f : Instance → Instance) : (s.modInst i f).pmu = s.pmu := rfl
@[simp] theorem modInst_ppm (i : Nat) (f : Instance → Instance) : (s.modInst i f).ppm = s.ppm := rfl
@[simp] theorem modInst_feeds (i : Nat) (f : Instance → Instance) : (s.modInst i f).feeds = s.feeds := rfl
@[simp] theorem modInst_oscRun (i : Nat) (f : Instance → Instance) : (s.modInst i f).oscRun = s.oscRun := rfl
@[simp] theorem modInst_host (i : Nat) (f : Instance → Instance) : (s.modInst i f).host = s.host := rfl
@[simp] theorem modInst_hostq (i : Nat) (f : Instance → Instance) : (s.modInst i f).hostq = s.hostq := rfl
@[simp] theorem modInst_boot (i : Nat) (f : Instance → Instance) : (s.modInst i f).boot = s.boot := rfl
@[simp] theorem modInst_jtag (i : Nat) (f : Instance → Instance) : (s.modInst i f).jtag = s.jtag := rfl
@[simp] theorem modInst_ptbSeq (i : Nat) (f : Instance → Instance) : (s.modInst i f).ptbSeq = s.ptbSeq := rfl
@[simp] theorem modInst_ptbCount (i : Nat) (f : Instance → Instance) : (s.modInst i f).ptbCount = s.ptbCount := rfl
@[simp] theorem modInst_free (i : Nat) (f : Instance → Instance) : (s.modInst i f).free = s.free := rfl
@[simp] theorem modInst_out (i : Nat) (f : Instance → Instance) : (s.modInst i f).out = s.out := rfl
@[simp] theorem modInst_pending (i : Nat) (f : Instance → Instance) : (s.modInst i f).pending = s.pending := rfl

@[simp] theorem modTaken_regs (i : Nat) (x : BitVec 16) (f : Taken → Taken) : (s.modTaken i x f).regs = s.regs := rfl
@[simp] theorem modTaken_regsOld (i : Nat) (x : BitVec 16) (f : Taken → Taken) : (s.modTaken i x f).regsOld = s.regsOld := rfl
@[simp] theorem modTaken_latch (i : Nat) (x : BitVec 16) (f : Taken → Taken) : (s.modTaken i x f).latch = s.latch := rfl
@[simp] theorem modTaken_time (i : Nat) (x : BitVec 16) (f : Taken → Taken) : (s.modTaken i x f).time = s.time := rfl
@[simp] theorem modTaken_course (i : Nat) (x : BitVec 16) (f : Taken → Taken) : (s.modTaken i x f).course = s.course := rfl
@[simp] theorem modTaken_plan (i : Nat) (x : BitVec 16) (f : Taken → Taken) : (s.modTaken i x f).plan = s.plan := rfl
@[simp] theorem modTaken_ports (i : Nat) (x : BitVec 16) (f : Taken → Taken) : (s.modTaken i x f).ports = s.ports := rfl
@[simp] theorem modTaken_ga (i : Nat) (x : BitVec 16) (f : Taken → Taken) : (s.modTaken i x f).ga = s.ga := rfl
@[simp] theorem modTaken_gb (i : Nat) (x : BitVec 16) (f : Taken → Taken) : (s.modTaken i x f).gb = s.gb := rfl
@[simp] theorem modTaken_devices (i : Nat) (x : BitVec 16) (f : Taken → Taken) : (s.modTaken i x f).devices = s.devices := rfl
@[simp] theorem modTaken_nodes (i : Nat) (x : BitVec 16) (f : Taken → Taken) : (s.modTaken i x f).nodes = s.nodes := rfl
@[simp] theorem modTaken_binds (i : Nat) (x : BitVec 16) (f : Taken → Taken) : (s.modTaken i x f).binds = s.binds := rfl
@[simp] theorem modTaken_amap (i : Nat) (x : BitVec 16) (f : Taken → Taken) : (s.modTaken i x f).amap = s.amap := rfl
@[simp] theorem modTaken_reseats (i : Nat) (x : BitVec 16) (f : Taken → Taken) : (s.modTaken i x f).reseats = s.reseats := rfl
@[simp] theorem modTaken_enums (i : Nat) (x : BitVec 16) (f : Taken → Taken) : (s.modTaken i x f).enums = s.enums := rfl
@[simp] theorem modTaken_flows (i : Nat) (x : BitVec 16) (f : Taken → Taken) : (s.modTaken i x f).flows = s.flows := rfl
@[simp] theorem modTaken_fwTasks (i : Nat) (x : BitVec 16) (f : Taken → Taken) : (s.modTaken i x f).fwTasks = s.fwTasks := rfl
@[simp] theorem modTaken_dispLast (i : Nat) (x : BitVec 16) (f : Taken → Taken) : (s.modTaken i x f).dispLast = s.dispLast := rfl
@[simp] theorem modTaken_turns (i : Nat) (x : BitVec 16) (f : Taken → Taken) : (s.modTaken i x f).turns = s.turns := rfl
@[simp] theorem modTaken_relLast (i : Nat) (x : BitVec 16) (f : Taken → Taken) : (s.modTaken i x f).relLast = s.relLast := rfl
@[simp] theorem modTaken_visCount (i : Nat) (x : BitVec 16) (f : Taken → Taken) : (s.modTaken i x f).visCount = s.visCount := rfl
@[simp] theorem modTaken_planq (i : Nat) (x : BitVec 16) (f : Taken → Taken) : (s.modTaken i x f).planq = s.planq := rfl
@[simp] theorem modTaken_txq (i : Nat) (x : BitVec 16) (f : Taken → Taken) : (s.modTaken i x f).txq = s.txq := rfl
@[simp] theorem modTaken_expects (i : Nat) (x : BitVec 16) (f : Taken → Taken) : (s.modTaken i x f).expects = s.expects := rfl
@[simp] theorem modTaken_txLine (i : Nat) (x : BitVec 16) (f : Taken → Taken) : (s.modTaken i x f).txLine = s.txLine := rfl
@[simp] theorem modTaken_engines (i : Nat) (x : BitVec 16) (f : Taken → Taken) : (s.modTaken i x f).engines = s.engines := rfl
@[simp] theorem modTaken_trace (i : Nat) (x : BitVec 16) (f : Taken → Taken) : (s.modTaken i x f).trace = s.trace := rfl
@[simp] theorem modTaken_traceDropped (i : Nat) (x : BitVec 16) (f : Taken → Taken) : (s.modTaken i x f).traceDropped = s.traceDropped := rfl
@[simp] theorem modTaken_ests (i : Nat) (x : BitVec 16) (f : Taken → Taken) : (s.modTaken i x f).ests = s.ests := rfl
@[simp] theorem modTaken_encs (i : Nat) (x : BitVec 16) (f : Taken → Taken) : (s.modTaken i x f).encs = s.encs := rfl
@[simp] theorem modTaken_edgesLate (i : Nat) (x : BitVec 16) (f : Taken → Taken) : (s.modTaken i x f).edgesLate = s.edgesLate := rfl
@[simp] theorem modTaken_gutter (i : Nat) (x : BitVec 16) (f : Taken → Taken) : (s.modTaken i x f).gutter = s.gutter := rfl
@[simp] theorem modTaken_errs (i : Nat) (x : BitVec 16) (f : Taken → Taken) : (s.modTaken i x f).errs = s.errs := rfl
@[simp] theorem modTaken_stop (i : Nat) (x : BitVec 16) (f : Taken → Taken) : (s.modTaken i x f).stop = s.stop := rfl
@[simp] theorem modTaken_gang (i : Nat) (x : BitVec 16) (f : Taken → Taken) : (s.modTaken i x f).gang = s.gang := rfl
@[simp] theorem modTaken_pmu (i : Nat) (x : BitVec 16) (f : Taken → Taken) : (s.modTaken i x f).pmu = s.pmu := rfl
@[simp] theorem modTaken_ppm (i : Nat) (x : BitVec 16) (f : Taken → Taken) : (s.modTaken i x f).ppm = s.ppm := rfl
@[simp] theorem modTaken_feeds (i : Nat) (x : BitVec 16) (f : Taken → Taken) : (s.modTaken i x f).feeds = s.feeds := rfl
@[simp] theorem modTaken_oscRun (i : Nat) (x : BitVec 16) (f : Taken → Taken) : (s.modTaken i x f).oscRun = s.oscRun := rfl
@[simp] theorem modTaken_host (i : Nat) (x : BitVec 16) (f : Taken → Taken) : (s.modTaken i x f).host = s.host := rfl
@[simp] theorem modTaken_hostq (i : Nat) (x : BitVec 16) (f : Taken → Taken) : (s.modTaken i x f).hostq = s.hostq := rfl
@[simp] theorem modTaken_boot (i : Nat) (x : BitVec 16) (f : Taken → Taken) : (s.modTaken i x f).boot = s.boot := rfl
@[simp] theorem modTaken_jtag (i : Nat) (x : BitVec 16) (f : Taken → Taken) : (s.modTaken i x f).jtag = s.jtag := rfl
@[simp] theorem modTaken_ptbSeq (i : Nat) (x : BitVec 16) (f : Taken → Taken) : (s.modTaken i x f).ptbSeq = s.ptbSeq := rfl
@[simp] theorem modTaken_ptbCount (i : Nat) (x : BitVec 16) (f : Taken → Taken) : (s.modTaken i x f).ptbCount = s.ptbCount := rfl
@[simp] theorem modTaken_free (i : Nat) (x : BitVec 16) (f : Taken → Taken) : (s.modTaken i x f).free = s.free := rfl
@[simp] theorem modTaken_out (i : Nat) (x : BitVec 16) (f : Taken → Taken) : (s.modTaken i x f).out = s.out := rfl
@[simp] theorem modTaken_pending (i : Nat) (x : BitVec 16) (f : Taken → Taken) : (s.modTaken i x f).pending = s.pending := rfl

@[simp] theorem modFlow_regs (ctx : Nat) (f : Flow → Flow) : (s.modFlow ctx f).regs = s.regs := rfl
@[simp] theorem modFlow_regsOld (ctx : Nat) (f : Flow → Flow) : (s.modFlow ctx f).regsOld = s.regsOld := rfl
@[simp] theorem modFlow_latch (ctx : Nat) (f : Flow → Flow) : (s.modFlow ctx f).latch = s.latch := rfl
@[simp] theorem modFlow_time (ctx : Nat) (f : Flow → Flow) : (s.modFlow ctx f).time = s.time := rfl
@[simp] theorem modFlow_course (ctx : Nat) (f : Flow → Flow) : (s.modFlow ctx f).course = s.course := rfl
@[simp] theorem modFlow_plan (ctx : Nat) (f : Flow → Flow) : (s.modFlow ctx f).plan = s.plan := rfl
@[simp] theorem modFlow_ports (ctx : Nat) (f : Flow → Flow) : (s.modFlow ctx f).ports = s.ports := rfl
@[simp] theorem modFlow_ga (ctx : Nat) (f : Flow → Flow) : (s.modFlow ctx f).ga = s.ga := rfl
@[simp] theorem modFlow_gb (ctx : Nat) (f : Flow → Flow) : (s.modFlow ctx f).gb = s.gb := rfl
@[simp] theorem modFlow_devices (ctx : Nat) (f : Flow → Flow) : (s.modFlow ctx f).devices = s.devices := rfl
@[simp] theorem modFlow_nodes (ctx : Nat) (f : Flow → Flow) : (s.modFlow ctx f).nodes = s.nodes := rfl
@[simp] theorem modFlow_binds (ctx : Nat) (f : Flow → Flow) : (s.modFlow ctx f).binds = s.binds := rfl
@[simp] theorem modFlow_amap (ctx : Nat) (f : Flow → Flow) : (s.modFlow ctx f).amap = s.amap := rfl
@[simp] theorem modFlow_reseats (ctx : Nat) (f : Flow → Flow) : (s.modFlow ctx f).reseats = s.reseats := rfl
@[simp] theorem modFlow_enums (ctx : Nat) (f : Flow → Flow) : (s.modFlow ctx f).enums = s.enums := rfl
@[simp] theorem modFlow_flows (ctx : Nat) (f : Flow → Flow) : (s.modFlow ctx f).flows = kmod s.flows ctx f := rfl
@[simp] theorem modFlow_fwTasks (ctx : Nat) (f : Flow → Flow) : (s.modFlow ctx f).fwTasks = s.fwTasks := rfl
@[simp] theorem modFlow_dispLast (ctx : Nat) (f : Flow → Flow) : (s.modFlow ctx f).dispLast = s.dispLast := rfl
@[simp] theorem modFlow_turns (ctx : Nat) (f : Flow → Flow) : (s.modFlow ctx f).turns = s.turns := rfl
@[simp] theorem modFlow_relLast (ctx : Nat) (f : Flow → Flow) : (s.modFlow ctx f).relLast = s.relLast := rfl
@[simp] theorem modFlow_visCount (ctx : Nat) (f : Flow → Flow) : (s.modFlow ctx f).visCount = s.visCount := rfl
@[simp] theorem modFlow_planq (ctx : Nat) (f : Flow → Flow) : (s.modFlow ctx f).planq = s.planq := rfl
@[simp] theorem modFlow_txq (ctx : Nat) (f : Flow → Flow) : (s.modFlow ctx f).txq = s.txq := rfl
@[simp] theorem modFlow_expects (ctx : Nat) (f : Flow → Flow) : (s.modFlow ctx f).expects = s.expects := rfl
@[simp] theorem modFlow_txLine (ctx : Nat) (f : Flow → Flow) : (s.modFlow ctx f).txLine = s.txLine := rfl
@[simp] theorem modFlow_engines (ctx : Nat) (f : Flow → Flow) : (s.modFlow ctx f).engines = s.engines := rfl
@[simp] theorem modFlow_trace (ctx : Nat) (f : Flow → Flow) : (s.modFlow ctx f).trace = s.trace := rfl
@[simp] theorem modFlow_traceDropped (ctx : Nat) (f : Flow → Flow) : (s.modFlow ctx f).traceDropped = s.traceDropped := rfl
@[simp] theorem modFlow_ests (ctx : Nat) (f : Flow → Flow) : (s.modFlow ctx f).ests = s.ests := rfl
@[simp] theorem modFlow_encs (ctx : Nat) (f : Flow → Flow) : (s.modFlow ctx f).encs = s.encs := rfl
@[simp] theorem modFlow_edgesLate (ctx : Nat) (f : Flow → Flow) : (s.modFlow ctx f).edgesLate = s.edgesLate := rfl
@[simp] theorem modFlow_insts (ctx : Nat) (f : Flow → Flow) : (s.modFlow ctx f).insts = s.insts := rfl
@[simp] theorem modFlow_gutter (ctx : Nat) (f : Flow → Flow) : (s.modFlow ctx f).gutter = s.gutter := rfl
@[simp] theorem modFlow_errs (ctx : Nat) (f : Flow → Flow) : (s.modFlow ctx f).errs = s.errs := rfl
@[simp] theorem modFlow_stop (ctx : Nat) (f : Flow → Flow) : (s.modFlow ctx f).stop = s.stop := rfl
@[simp] theorem modFlow_gang (ctx : Nat) (f : Flow → Flow) : (s.modFlow ctx f).gang = s.gang := rfl
@[simp] theorem modFlow_pmu (ctx : Nat) (f : Flow → Flow) : (s.modFlow ctx f).pmu = s.pmu := rfl
@[simp] theorem modFlow_ppm (ctx : Nat) (f : Flow → Flow) : (s.modFlow ctx f).ppm = s.ppm := rfl
@[simp] theorem modFlow_feeds (ctx : Nat) (f : Flow → Flow) : (s.modFlow ctx f).feeds = s.feeds := rfl
@[simp] theorem modFlow_oscRun (ctx : Nat) (f : Flow → Flow) : (s.modFlow ctx f).oscRun = s.oscRun := rfl
@[simp] theorem modFlow_host (ctx : Nat) (f : Flow → Flow) : (s.modFlow ctx f).host = s.host := rfl
@[simp] theorem modFlow_hostq (ctx : Nat) (f : Flow → Flow) : (s.modFlow ctx f).hostq = s.hostq := rfl
@[simp] theorem modFlow_boot (ctx : Nat) (f : Flow → Flow) : (s.modFlow ctx f).boot = s.boot := rfl
@[simp] theorem modFlow_jtag (ctx : Nat) (f : Flow → Flow) : (s.modFlow ctx f).jtag = s.jtag := rfl
@[simp] theorem modFlow_ptbSeq (ctx : Nat) (f : Flow → Flow) : (s.modFlow ctx f).ptbSeq = s.ptbSeq := rfl
@[simp] theorem modFlow_ptbCount (ctx : Nat) (f : Flow → Flow) : (s.modFlow ctx f).ptbCount = s.ptbCount := rfl
@[simp] theorem modFlow_free (ctx : Nat) (f : Flow → Flow) : (s.modFlow ctx f).free = s.free := rfl
@[simp] theorem modFlow_out (ctx : Nat) (f : Flow → Flow) : (s.modFlow ctx f).out = s.out := rfl
@[simp] theorem modFlow_pending (ctx : Nat) (f : Flow → Flow) : (s.modFlow ctx f).pending = s.pending := rfl

@[simp] theorem modTask_regs (ctx : Nat) (f : Task → Task) : (s.modTask ctx f).regs = s.regs := rfl
@[simp] theorem modTask_regsOld (ctx : Nat) (f : Task → Task) : (s.modTask ctx f).regsOld = s.regsOld := rfl
@[simp] theorem modTask_latch (ctx : Nat) (f : Task → Task) : (s.modTask ctx f).latch = s.latch := rfl
@[simp] theorem modTask_time (ctx : Nat) (f : Task → Task) : (s.modTask ctx f).time = s.time := rfl
@[simp] theorem modTask_course (ctx : Nat) (f : Task → Task) : (s.modTask ctx f).course = s.course := rfl
@[simp] theorem modTask_plan (ctx : Nat) (f : Task → Task) : (s.modTask ctx f).plan = s.plan := rfl
@[simp] theorem modTask_ports (ctx : Nat) (f : Task → Task) : (s.modTask ctx f).ports = s.ports := rfl
@[simp] theorem modTask_ga (ctx : Nat) (f : Task → Task) : (s.modTask ctx f).ga = s.ga := rfl
@[simp] theorem modTask_gb (ctx : Nat) (f : Task → Task) : (s.modTask ctx f).gb = s.gb := rfl
@[simp] theorem modTask_devices (ctx : Nat) (f : Task → Task) : (s.modTask ctx f).devices = s.devices := rfl
@[simp] theorem modTask_nodes (ctx : Nat) (f : Task → Task) : (s.modTask ctx f).nodes = s.nodes := rfl
@[simp] theorem modTask_binds (ctx : Nat) (f : Task → Task) : (s.modTask ctx f).binds = s.binds := rfl
@[simp] theorem modTask_amap (ctx : Nat) (f : Task → Task) : (s.modTask ctx f).amap = s.amap := rfl
@[simp] theorem modTask_reseats (ctx : Nat) (f : Task → Task) : (s.modTask ctx f).reseats = s.reseats := rfl
@[simp] theorem modTask_enums (ctx : Nat) (f : Task → Task) : (s.modTask ctx f).enums = s.enums := rfl
@[simp] theorem modTask_flows (ctx : Nat) (f : Task → Task) : (s.modTask ctx f).flows = kmod s.flows ctx fun x => { x with task := f x.task } := rfl
@[simp] theorem modTask_fwTasks (ctx : Nat) (f : Task → Task) : (s.modTask ctx f).fwTasks = s.fwTasks := rfl
@[simp] theorem modTask_dispLast (ctx : Nat) (f : Task → Task) : (s.modTask ctx f).dispLast = s.dispLast := rfl
@[simp] theorem modTask_turns (ctx : Nat) (f : Task → Task) : (s.modTask ctx f).turns = s.turns := rfl
@[simp] theorem modTask_relLast (ctx : Nat) (f : Task → Task) : (s.modTask ctx f).relLast = s.relLast := rfl
@[simp] theorem modTask_visCount (ctx : Nat) (f : Task → Task) : (s.modTask ctx f).visCount = s.visCount := rfl
@[simp] theorem modTask_planq (ctx : Nat) (f : Task → Task) : (s.modTask ctx f).planq = s.planq := rfl
@[simp] theorem modTask_txq (ctx : Nat) (f : Task → Task) : (s.modTask ctx f).txq = s.txq := rfl
@[simp] theorem modTask_expects (ctx : Nat) (f : Task → Task) : (s.modTask ctx f).expects = s.expects := rfl
@[simp] theorem modTask_txLine (ctx : Nat) (f : Task → Task) : (s.modTask ctx f).txLine = s.txLine := rfl
@[simp] theorem modTask_engines (ctx : Nat) (f : Task → Task) : (s.modTask ctx f).engines = s.engines := rfl
@[simp] theorem modTask_trace (ctx : Nat) (f : Task → Task) : (s.modTask ctx f).trace = s.trace := rfl
@[simp] theorem modTask_traceDropped (ctx : Nat) (f : Task → Task) : (s.modTask ctx f).traceDropped = s.traceDropped := rfl
@[simp] theorem modTask_ests (ctx : Nat) (f : Task → Task) : (s.modTask ctx f).ests = s.ests := rfl
@[simp] theorem modTask_encs (ctx : Nat) (f : Task → Task) : (s.modTask ctx f).encs = s.encs := rfl
@[simp] theorem modTask_edgesLate (ctx : Nat) (f : Task → Task) : (s.modTask ctx f).edgesLate = s.edgesLate := rfl
@[simp] theorem modTask_insts (ctx : Nat) (f : Task → Task) : (s.modTask ctx f).insts = s.insts := rfl
@[simp] theorem modTask_gutter (ctx : Nat) (f : Task → Task) : (s.modTask ctx f).gutter = s.gutter := rfl
@[simp] theorem modTask_errs (ctx : Nat) (f : Task → Task) : (s.modTask ctx f).errs = s.errs := rfl
@[simp] theorem modTask_stop (ctx : Nat) (f : Task → Task) : (s.modTask ctx f).stop = s.stop := rfl
@[simp] theorem modTask_gang (ctx : Nat) (f : Task → Task) : (s.modTask ctx f).gang = s.gang := rfl
@[simp] theorem modTask_pmu (ctx : Nat) (f : Task → Task) : (s.modTask ctx f).pmu = s.pmu := rfl
@[simp] theorem modTask_ppm (ctx : Nat) (f : Task → Task) : (s.modTask ctx f).ppm = s.ppm := rfl
@[simp] theorem modTask_feeds (ctx : Nat) (f : Task → Task) : (s.modTask ctx f).feeds = s.feeds := rfl
@[simp] theorem modTask_oscRun (ctx : Nat) (f : Task → Task) : (s.modTask ctx f).oscRun = s.oscRun := rfl
@[simp] theorem modTask_host (ctx : Nat) (f : Task → Task) : (s.modTask ctx f).host = s.host := rfl
@[simp] theorem modTask_hostq (ctx : Nat) (f : Task → Task) : (s.modTask ctx f).hostq = s.hostq := rfl
@[simp] theorem modTask_boot (ctx : Nat) (f : Task → Task) : (s.modTask ctx f).boot = s.boot := rfl
@[simp] theorem modTask_jtag (ctx : Nat) (f : Task → Task) : (s.modTask ctx f).jtag = s.jtag := rfl
@[simp] theorem modTask_ptbSeq (ctx : Nat) (f : Task → Task) : (s.modTask ctx f).ptbSeq = s.ptbSeq := rfl
@[simp] theorem modTask_ptbCount (ctx : Nat) (f : Task → Task) : (s.modTask ctx f).ptbCount = s.ptbCount := rfl
@[simp] theorem modTask_free (ctx : Nat) (f : Task → Task) : (s.modTask ctx f).free = s.free := rfl
@[simp] theorem modTask_out (ctx : Nat) (f : Task → Task) : (s.modTask ctx f).out = s.out := rfl
@[simp] theorem modTask_pending (ctx : Nat) (f : Task → Task) : (s.modTask ctx f).pending = s.pending := rfl

@[simp] theorem modXfer_regs (ctx : Nat) (i : BitVec 16) (g : Transfer → Transfer) : (s.modXfer ctx i g).regs = s.regs := rfl
@[simp] theorem modXfer_regsOld (ctx : Nat) (i : BitVec 16) (g : Transfer → Transfer) : (s.modXfer ctx i g).regsOld = s.regsOld := rfl
@[simp] theorem modXfer_latch (ctx : Nat) (i : BitVec 16) (g : Transfer → Transfer) : (s.modXfer ctx i g).latch = s.latch := rfl
@[simp] theorem modXfer_time (ctx : Nat) (i : BitVec 16) (g : Transfer → Transfer) : (s.modXfer ctx i g).time = s.time := rfl
@[simp] theorem modXfer_course (ctx : Nat) (i : BitVec 16) (g : Transfer → Transfer) : (s.modXfer ctx i g).course = s.course := rfl
@[simp] theorem modXfer_plan (ctx : Nat) (i : BitVec 16) (g : Transfer → Transfer) : (s.modXfer ctx i g).plan = s.plan := rfl
@[simp] theorem modXfer_ports (ctx : Nat) (i : BitVec 16) (g : Transfer → Transfer) : (s.modXfer ctx i g).ports = s.ports := rfl
@[simp] theorem modXfer_ga (ctx : Nat) (i : BitVec 16) (g : Transfer → Transfer) : (s.modXfer ctx i g).ga = s.ga := rfl
@[simp] theorem modXfer_gb (ctx : Nat) (i : BitVec 16) (g : Transfer → Transfer) : (s.modXfer ctx i g).gb = s.gb := rfl
@[simp] theorem modXfer_devices (ctx : Nat) (i : BitVec 16) (g : Transfer → Transfer) : (s.modXfer ctx i g).devices = s.devices := rfl
@[simp] theorem modXfer_nodes (ctx : Nat) (i : BitVec 16) (g : Transfer → Transfer) : (s.modXfer ctx i g).nodes = s.nodes := rfl
@[simp] theorem modXfer_binds (ctx : Nat) (i : BitVec 16) (g : Transfer → Transfer) : (s.modXfer ctx i g).binds = s.binds := rfl
@[simp] theorem modXfer_amap (ctx : Nat) (i : BitVec 16) (g : Transfer → Transfer) : (s.modXfer ctx i g).amap = s.amap := rfl
@[simp] theorem modXfer_reseats (ctx : Nat) (i : BitVec 16) (g : Transfer → Transfer) : (s.modXfer ctx i g).reseats = s.reseats := rfl
@[simp] theorem modXfer_enums (ctx : Nat) (i : BitVec 16) (g : Transfer → Transfer) : (s.modXfer ctx i g).enums = s.enums := rfl
@[simp] theorem modXfer_flows (ctx : Nat) (i : BitVec 16) (g : Transfer → Transfer) : (s.modXfer ctx i g).flows = kmod s.flows ctx fun f => f.modXfer i g := rfl
@[simp] theorem modXfer_fwTasks (ctx : Nat) (i : BitVec 16) (g : Transfer → Transfer) : (s.modXfer ctx i g).fwTasks = s.fwTasks := rfl
@[simp] theorem modXfer_dispLast (ctx : Nat) (i : BitVec 16) (g : Transfer → Transfer) : (s.modXfer ctx i g).dispLast = s.dispLast := rfl
@[simp] theorem modXfer_turns (ctx : Nat) (i : BitVec 16) (g : Transfer → Transfer) : (s.modXfer ctx i g).turns = s.turns := rfl
@[simp] theorem modXfer_relLast (ctx : Nat) (i : BitVec 16) (g : Transfer → Transfer) : (s.modXfer ctx i g).relLast = s.relLast := rfl
@[simp] theorem modXfer_visCount (ctx : Nat) (i : BitVec 16) (g : Transfer → Transfer) : (s.modXfer ctx i g).visCount = s.visCount := rfl
@[simp] theorem modXfer_planq (ctx : Nat) (i : BitVec 16) (g : Transfer → Transfer) : (s.modXfer ctx i g).planq = s.planq := rfl
@[simp] theorem modXfer_txq (ctx : Nat) (i : BitVec 16) (g : Transfer → Transfer) : (s.modXfer ctx i g).txq = s.txq := rfl
@[simp] theorem modXfer_expects (ctx : Nat) (i : BitVec 16) (g : Transfer → Transfer) : (s.modXfer ctx i g).expects = s.expects := rfl
@[simp] theorem modXfer_txLine (ctx : Nat) (i : BitVec 16) (g : Transfer → Transfer) : (s.modXfer ctx i g).txLine = s.txLine := rfl
@[simp] theorem modXfer_engines (ctx : Nat) (i : BitVec 16) (g : Transfer → Transfer) : (s.modXfer ctx i g).engines = s.engines := rfl
@[simp] theorem modXfer_trace (ctx : Nat) (i : BitVec 16) (g : Transfer → Transfer) : (s.modXfer ctx i g).trace = s.trace := rfl
@[simp] theorem modXfer_traceDropped (ctx : Nat) (i : BitVec 16) (g : Transfer → Transfer) : (s.modXfer ctx i g).traceDropped = s.traceDropped := rfl
@[simp] theorem modXfer_ests (ctx : Nat) (i : BitVec 16) (g : Transfer → Transfer) : (s.modXfer ctx i g).ests = s.ests := rfl
@[simp] theorem modXfer_encs (ctx : Nat) (i : BitVec 16) (g : Transfer → Transfer) : (s.modXfer ctx i g).encs = s.encs := rfl
@[simp] theorem modXfer_edgesLate (ctx : Nat) (i : BitVec 16) (g : Transfer → Transfer) : (s.modXfer ctx i g).edgesLate = s.edgesLate := rfl
@[simp] theorem modXfer_insts (ctx : Nat) (i : BitVec 16) (g : Transfer → Transfer) : (s.modXfer ctx i g).insts = s.insts := rfl
@[simp] theorem modXfer_gutter (ctx : Nat) (i : BitVec 16) (g : Transfer → Transfer) : (s.modXfer ctx i g).gutter = s.gutter := rfl
@[simp] theorem modXfer_errs (ctx : Nat) (i : BitVec 16) (g : Transfer → Transfer) : (s.modXfer ctx i g).errs = s.errs := rfl
@[simp] theorem modXfer_stop (ctx : Nat) (i : BitVec 16) (g : Transfer → Transfer) : (s.modXfer ctx i g).stop = s.stop := rfl
@[simp] theorem modXfer_gang (ctx : Nat) (i : BitVec 16) (g : Transfer → Transfer) : (s.modXfer ctx i g).gang = s.gang := rfl
@[simp] theorem modXfer_pmu (ctx : Nat) (i : BitVec 16) (g : Transfer → Transfer) : (s.modXfer ctx i g).pmu = s.pmu := rfl
@[simp] theorem modXfer_ppm (ctx : Nat) (i : BitVec 16) (g : Transfer → Transfer) : (s.modXfer ctx i g).ppm = s.ppm := rfl
@[simp] theorem modXfer_feeds (ctx : Nat) (i : BitVec 16) (g : Transfer → Transfer) : (s.modXfer ctx i g).feeds = s.feeds := rfl
@[simp] theorem modXfer_oscRun (ctx : Nat) (i : BitVec 16) (g : Transfer → Transfer) : (s.modXfer ctx i g).oscRun = s.oscRun := rfl
@[simp] theorem modXfer_host (ctx : Nat) (i : BitVec 16) (g : Transfer → Transfer) : (s.modXfer ctx i g).host = s.host := rfl
@[simp] theorem modXfer_hostq (ctx : Nat) (i : BitVec 16) (g : Transfer → Transfer) : (s.modXfer ctx i g).hostq = s.hostq := rfl
@[simp] theorem modXfer_boot (ctx : Nat) (i : BitVec 16) (g : Transfer → Transfer) : (s.modXfer ctx i g).boot = s.boot := rfl
@[simp] theorem modXfer_jtag (ctx : Nat) (i : BitVec 16) (g : Transfer → Transfer) : (s.modXfer ctx i g).jtag = s.jtag := rfl
@[simp] theorem modXfer_ptbSeq (ctx : Nat) (i : BitVec 16) (g : Transfer → Transfer) : (s.modXfer ctx i g).ptbSeq = s.ptbSeq := rfl
@[simp] theorem modXfer_ptbCount (ctx : Nat) (i : BitVec 16) (g : Transfer → Transfer) : (s.modXfer ctx i g).ptbCount = s.ptbCount := rfl
@[simp] theorem modXfer_free (ctx : Nat) (i : BitVec 16) (g : Transfer → Transfer) : (s.modXfer ctx i g).free = s.free := rfl
@[simp] theorem modXfer_out (ctx : Nat) (i : BitVec 16) (g : Transfer → Transfer) : (s.modXfer ctx i g).out = s.out := rfl
@[simp] theorem modXfer_pending (ctx : Nat) (i : BitVec 16) (g : Transfer → Transfer) : (s.modXfer ctx i g).pending = s.pending := rfl

@[simp] theorem modFw_regs (n : Nat) (g : Task → Task) : (s.modFw n g).regs = s.regs := rfl
@[simp] theorem modFw_regsOld (n : Nat) (g : Task → Task) : (s.modFw n g).regsOld = s.regsOld := rfl
@[simp] theorem modFw_latch (n : Nat) (g : Task → Task) : (s.modFw n g).latch = s.latch := rfl
@[simp] theorem modFw_time (n : Nat) (g : Task → Task) : (s.modFw n g).time = s.time := rfl
@[simp] theorem modFw_course (n : Nat) (g : Task → Task) : (s.modFw n g).course = s.course := rfl
@[simp] theorem modFw_plan (n : Nat) (g : Task → Task) : (s.modFw n g).plan = s.plan := rfl
@[simp] theorem modFw_ports (n : Nat) (g : Task → Task) : (s.modFw n g).ports = s.ports := rfl
@[simp] theorem modFw_ga (n : Nat) (g : Task → Task) : (s.modFw n g).ga = s.ga := rfl
@[simp] theorem modFw_gb (n : Nat) (g : Task → Task) : (s.modFw n g).gb = s.gb := rfl
@[simp] theorem modFw_devices (n : Nat) (g : Task → Task) : (s.modFw n g).devices = s.devices := rfl
@[simp] theorem modFw_nodes (n : Nat) (g : Task → Task) : (s.modFw n g).nodes = s.nodes := rfl
@[simp] theorem modFw_binds (n : Nat) (g : Task → Task) : (s.modFw n g).binds = s.binds := rfl
@[simp] theorem modFw_amap (n : Nat) (g : Task → Task) : (s.modFw n g).amap = s.amap := rfl
@[simp] theorem modFw_reseats (n : Nat) (g : Task → Task) : (s.modFw n g).reseats = s.reseats := rfl
@[simp] theorem modFw_enums (n : Nat) (g : Task → Task) : (s.modFw n g).enums = s.enums := rfl
@[simp] theorem modFw_flows (n : Nat) (g : Task → Task) : (s.modFw n g).flows = s.flows := rfl
@[simp] theorem modFw_fwTasks (n : Nat) (g : Task → Task) : (s.modFw n g).fwTasks = kput Task.init s.fwTasks n (g (s.fwTask n)) := rfl
@[simp] theorem modFw_dispLast (n : Nat) (g : Task → Task) : (s.modFw n g).dispLast = s.dispLast := rfl
@[simp] theorem modFw_turns (n : Nat) (g : Task → Task) : (s.modFw n g).turns = s.turns := rfl
@[simp] theorem modFw_relLast (n : Nat) (g : Task → Task) : (s.modFw n g).relLast = s.relLast := rfl
@[simp] theorem modFw_visCount (n : Nat) (g : Task → Task) : (s.modFw n g).visCount = s.visCount := rfl
@[simp] theorem modFw_planq (n : Nat) (g : Task → Task) : (s.modFw n g).planq = s.planq := rfl
@[simp] theorem modFw_txq (n : Nat) (g : Task → Task) : (s.modFw n g).txq = s.txq := rfl
@[simp] theorem modFw_expects (n : Nat) (g : Task → Task) : (s.modFw n g).expects = s.expects := rfl
@[simp] theorem modFw_txLine (n : Nat) (g : Task → Task) : (s.modFw n g).txLine = s.txLine := rfl
@[simp] theorem modFw_engines (n : Nat) (g : Task → Task) : (s.modFw n g).engines = s.engines := rfl
@[simp] theorem modFw_trace (n : Nat) (g : Task → Task) : (s.modFw n g).trace = s.trace := rfl
@[simp] theorem modFw_traceDropped (n : Nat) (g : Task → Task) : (s.modFw n g).traceDropped = s.traceDropped := rfl
@[simp] theorem modFw_ests (n : Nat) (g : Task → Task) : (s.modFw n g).ests = s.ests := rfl
@[simp] theorem modFw_encs (n : Nat) (g : Task → Task) : (s.modFw n g).encs = s.encs := rfl
@[simp] theorem modFw_edgesLate (n : Nat) (g : Task → Task) : (s.modFw n g).edgesLate = s.edgesLate := rfl
@[simp] theorem modFw_insts (n : Nat) (g : Task → Task) : (s.modFw n g).insts = s.insts := rfl
@[simp] theorem modFw_gutter (n : Nat) (g : Task → Task) : (s.modFw n g).gutter = s.gutter := rfl
@[simp] theorem modFw_errs (n : Nat) (g : Task → Task) : (s.modFw n g).errs = s.errs := rfl
@[simp] theorem modFw_stop (n : Nat) (g : Task → Task) : (s.modFw n g).stop = s.stop := rfl
@[simp] theorem modFw_gang (n : Nat) (g : Task → Task) : (s.modFw n g).gang = s.gang := rfl
@[simp] theorem modFw_pmu (n : Nat) (g : Task → Task) : (s.modFw n g).pmu = s.pmu := rfl
@[simp] theorem modFw_ppm (n : Nat) (g : Task → Task) : (s.modFw n g).ppm = s.ppm := rfl
@[simp] theorem modFw_feeds (n : Nat) (g : Task → Task) : (s.modFw n g).feeds = s.feeds := rfl
@[simp] theorem modFw_oscRun (n : Nat) (g : Task → Task) : (s.modFw n g).oscRun = s.oscRun := rfl
@[simp] theorem modFw_host (n : Nat) (g : Task → Task) : (s.modFw n g).host = s.host := rfl
@[simp] theorem modFw_hostq (n : Nat) (g : Task → Task) : (s.modFw n g).hostq = s.hostq := rfl
@[simp] theorem modFw_boot (n : Nat) (g : Task → Task) : (s.modFw n g).boot = s.boot := rfl
@[simp] theorem modFw_jtag (n : Nat) (g : Task → Task) : (s.modFw n g).jtag = s.jtag := rfl
@[simp] theorem modFw_ptbSeq (n : Nat) (g : Task → Task) : (s.modFw n g).ptbSeq = s.ptbSeq := rfl
@[simp] theorem modFw_ptbCount (n : Nat) (g : Task → Task) : (s.modFw n g).ptbCount = s.ptbCount := rfl
@[simp] theorem modFw_free (n : Nat) (g : Task → Task) : (s.modFw n g).free = s.free := rfl
@[simp] theorem modFw_out (n : Nat) (g : Task → Task) : (s.modFw n g).out = s.out := rfl
@[simp] theorem modFw_pending (n : Nat) (g : Task → Task) : (s.modFw n g).pending = s.pending := rfl

@[simp] theorem mapFlows_regs (f : Flow → Flow) : (s.mapFlows f).regs = s.regs := rfl
@[simp] theorem mapFlows_regsOld (f : Flow → Flow) : (s.mapFlows f).regsOld = s.regsOld := rfl
@[simp] theorem mapFlows_latch (f : Flow → Flow) : (s.mapFlows f).latch = s.latch := rfl
@[simp] theorem mapFlows_time (f : Flow → Flow) : (s.mapFlows f).time = s.time := rfl
@[simp] theorem mapFlows_course (f : Flow → Flow) : (s.mapFlows f).course = s.course := rfl
@[simp] theorem mapFlows_plan (f : Flow → Flow) : (s.mapFlows f).plan = s.plan := rfl
@[simp] theorem mapFlows_ports (f : Flow → Flow) : (s.mapFlows f).ports = s.ports := rfl
@[simp] theorem mapFlows_ga (f : Flow → Flow) : (s.mapFlows f).ga = s.ga := rfl
@[simp] theorem mapFlows_gb (f : Flow → Flow) : (s.mapFlows f).gb = s.gb := rfl
@[simp] theorem mapFlows_devices (f : Flow → Flow) : (s.mapFlows f).devices = s.devices := rfl
@[simp] theorem mapFlows_nodes (f : Flow → Flow) : (s.mapFlows f).nodes = s.nodes := rfl
@[simp] theorem mapFlows_binds (f : Flow → Flow) : (s.mapFlows f).binds = s.binds := rfl
@[simp] theorem mapFlows_amap (f : Flow → Flow) : (s.mapFlows f).amap = s.amap := rfl
@[simp] theorem mapFlows_reseats (f : Flow → Flow) : (s.mapFlows f).reseats = s.reseats := rfl
@[simp] theorem mapFlows_enums (f : Flow → Flow) : (s.mapFlows f).enums = s.enums := rfl
@[simp] theorem mapFlows_flows (f : Flow → Flow) : (s.mapFlows f).flows = s.flows.map fun e => (e.1, f e.2) := rfl
@[simp] theorem mapFlows_fwTasks (f : Flow → Flow) : (s.mapFlows f).fwTasks = s.fwTasks := rfl
@[simp] theorem mapFlows_dispLast (f : Flow → Flow) : (s.mapFlows f).dispLast = s.dispLast := rfl
@[simp] theorem mapFlows_turns (f : Flow → Flow) : (s.mapFlows f).turns = s.turns := rfl
@[simp] theorem mapFlows_relLast (f : Flow → Flow) : (s.mapFlows f).relLast = s.relLast := rfl
@[simp] theorem mapFlows_visCount (f : Flow → Flow) : (s.mapFlows f).visCount = s.visCount := rfl
@[simp] theorem mapFlows_planq (f : Flow → Flow) : (s.mapFlows f).planq = s.planq := rfl
@[simp] theorem mapFlows_txq (f : Flow → Flow) : (s.mapFlows f).txq = s.txq := rfl
@[simp] theorem mapFlows_expects (f : Flow → Flow) : (s.mapFlows f).expects = s.expects := rfl
@[simp] theorem mapFlows_txLine (f : Flow → Flow) : (s.mapFlows f).txLine = s.txLine := rfl
@[simp] theorem mapFlows_engines (f : Flow → Flow) : (s.mapFlows f).engines = s.engines := rfl
@[simp] theorem mapFlows_trace (f : Flow → Flow) : (s.mapFlows f).trace = s.trace := rfl
@[simp] theorem mapFlows_traceDropped (f : Flow → Flow) : (s.mapFlows f).traceDropped = s.traceDropped := rfl
@[simp] theorem mapFlows_ests (f : Flow → Flow) : (s.mapFlows f).ests = s.ests := rfl
@[simp] theorem mapFlows_encs (f : Flow → Flow) : (s.mapFlows f).encs = s.encs := rfl
@[simp] theorem mapFlows_edgesLate (f : Flow → Flow) : (s.mapFlows f).edgesLate = s.edgesLate := rfl
@[simp] theorem mapFlows_insts (f : Flow → Flow) : (s.mapFlows f).insts = s.insts := rfl
@[simp] theorem mapFlows_gutter (f : Flow → Flow) : (s.mapFlows f).gutter = s.gutter := rfl
@[simp] theorem mapFlows_errs (f : Flow → Flow) : (s.mapFlows f).errs = s.errs := rfl
@[simp] theorem mapFlows_stop (f : Flow → Flow) : (s.mapFlows f).stop = s.stop := rfl
@[simp] theorem mapFlows_gang (f : Flow → Flow) : (s.mapFlows f).gang = s.gang := rfl
@[simp] theorem mapFlows_pmu (f : Flow → Flow) : (s.mapFlows f).pmu = s.pmu := rfl
@[simp] theorem mapFlows_ppm (f : Flow → Flow) : (s.mapFlows f).ppm = s.ppm := rfl
@[simp] theorem mapFlows_feeds (f : Flow → Flow) : (s.mapFlows f).feeds = s.feeds := rfl
@[simp] theorem mapFlows_oscRun (f : Flow → Flow) : (s.mapFlows f).oscRun = s.oscRun := rfl
@[simp] theorem mapFlows_host (f : Flow → Flow) : (s.mapFlows f).host = s.host := rfl
@[simp] theorem mapFlows_hostq (f : Flow → Flow) : (s.mapFlows f).hostq = s.hostq := rfl
@[simp] theorem mapFlows_boot (f : Flow → Flow) : (s.mapFlows f).boot = s.boot := rfl
@[simp] theorem mapFlows_jtag (f : Flow → Flow) : (s.mapFlows f).jtag = s.jtag := rfl
@[simp] theorem mapFlows_ptbSeq (f : Flow → Flow) : (s.mapFlows f).ptbSeq = s.ptbSeq := rfl
@[simp] theorem mapFlows_ptbCount (f : Flow → Flow) : (s.mapFlows f).ptbCount = s.ptbCount := rfl
@[simp] theorem mapFlows_free (f : Flow → Flow) : (s.mapFlows f).free = s.free := rfl
@[simp] theorem mapFlows_out (f : Flow → Flow) : (s.mapFlows f).out = s.out := rfl
@[simp] theorem mapFlows_pending (f : Flow → Flow) : (s.mapFlows f).pending = s.pending := rfl

@[simp] theorem modDev_regs (d : Pos) (f : Device → Device) : (s.modDev d f).regs = s.regs := rfl
@[simp] theorem modDev_regsOld (d : Pos) (f : Device → Device) : (s.modDev d f).regsOld = s.regsOld := rfl
@[simp] theorem modDev_latch (d : Pos) (f : Device → Device) : (s.modDev d f).latch = s.latch := rfl
@[simp] theorem modDev_time (d : Pos) (f : Device → Device) : (s.modDev d f).time = s.time := rfl
@[simp] theorem modDev_course (d : Pos) (f : Device → Device) : (s.modDev d f).course = s.course := rfl
@[simp] theorem modDev_plan (d : Pos) (f : Device → Device) : (s.modDev d f).plan = s.plan := rfl
@[simp] theorem modDev_ports (d : Pos) (f : Device → Device) : (s.modDev d f).ports = s.ports := rfl
@[simp] theorem modDev_ga (d : Pos) (f : Device → Device) : (s.modDev d f).ga = s.ga := rfl
@[simp] theorem modDev_gb (d : Pos) (f : Device → Device) : (s.modDev d f).gb = s.gb := rfl
@[simp] theorem modDev_devices (d : Pos) (f : Device → Device) : (s.modDev d f).devices = s.devices.map fun x => if x.pos == d then f x else x := rfl
@[simp] theorem modDev_nodes (d : Pos) (f : Device → Device) : (s.modDev d f).nodes = s.nodes := rfl
@[simp] theorem modDev_binds (d : Pos) (f : Device → Device) : (s.modDev d f).binds = s.binds := rfl
@[simp] theorem modDev_amap (d : Pos) (f : Device → Device) : (s.modDev d f).amap = s.amap := rfl
@[simp] theorem modDev_reseats (d : Pos) (f : Device → Device) : (s.modDev d f).reseats = s.reseats := rfl
@[simp] theorem modDev_enums (d : Pos) (f : Device → Device) : (s.modDev d f).enums = s.enums := rfl
@[simp] theorem modDev_flows (d : Pos) (f : Device → Device) : (s.modDev d f).flows = s.flows := rfl
@[simp] theorem modDev_fwTasks (d : Pos) (f : Device → Device) : (s.modDev d f).fwTasks = s.fwTasks := rfl
@[simp] theorem modDev_dispLast (d : Pos) (f : Device → Device) : (s.modDev d f).dispLast = s.dispLast := rfl
@[simp] theorem modDev_turns (d : Pos) (f : Device → Device) : (s.modDev d f).turns = s.turns := rfl
@[simp] theorem modDev_relLast (d : Pos) (f : Device → Device) : (s.modDev d f).relLast = s.relLast := rfl
@[simp] theorem modDev_visCount (d : Pos) (f : Device → Device) : (s.modDev d f).visCount = s.visCount := rfl
@[simp] theorem modDev_planq (d : Pos) (f : Device → Device) : (s.modDev d f).planq = s.planq := rfl
@[simp] theorem modDev_txq (d : Pos) (f : Device → Device) : (s.modDev d f).txq = s.txq := rfl
@[simp] theorem modDev_expects (d : Pos) (f : Device → Device) : (s.modDev d f).expects = s.expects := rfl
@[simp] theorem modDev_txLine (d : Pos) (f : Device → Device) : (s.modDev d f).txLine = s.txLine := rfl
@[simp] theorem modDev_engines (d : Pos) (f : Device → Device) : (s.modDev d f).engines = s.engines := rfl
@[simp] theorem modDev_trace (d : Pos) (f : Device → Device) : (s.modDev d f).trace = s.trace := rfl
@[simp] theorem modDev_traceDropped (d : Pos) (f : Device → Device) : (s.modDev d f).traceDropped = s.traceDropped := rfl
@[simp] theorem modDev_ests (d : Pos) (f : Device → Device) : (s.modDev d f).ests = s.ests := rfl
@[simp] theorem modDev_encs (d : Pos) (f : Device → Device) : (s.modDev d f).encs = s.encs := rfl
@[simp] theorem modDev_edgesLate (d : Pos) (f : Device → Device) : (s.modDev d f).edgesLate = s.edgesLate := rfl
@[simp] theorem modDev_insts (d : Pos) (f : Device → Device) : (s.modDev d f).insts = s.insts := rfl
@[simp] theorem modDev_gutter (d : Pos) (f : Device → Device) : (s.modDev d f).gutter = s.gutter := rfl
@[simp] theorem modDev_errs (d : Pos) (f : Device → Device) : (s.modDev d f).errs = s.errs := rfl
@[simp] theorem modDev_stop (d : Pos) (f : Device → Device) : (s.modDev d f).stop = s.stop := rfl
@[simp] theorem modDev_gang (d : Pos) (f : Device → Device) : (s.modDev d f).gang = s.gang := rfl
@[simp] theorem modDev_pmu (d : Pos) (f : Device → Device) : (s.modDev d f).pmu = s.pmu := rfl
@[simp] theorem modDev_ppm (d : Pos) (f : Device → Device) : (s.modDev d f).ppm = s.ppm := rfl
@[simp] theorem modDev_feeds (d : Pos) (f : Device → Device) : (s.modDev d f).feeds = s.feeds := rfl
@[simp] theorem modDev_oscRun (d : Pos) (f : Device → Device) : (s.modDev d f).oscRun = s.oscRun := rfl
@[simp] theorem modDev_host (d : Pos) (f : Device → Device) : (s.modDev d f).host = s.host := rfl
@[simp] theorem modDev_hostq (d : Pos) (f : Device → Device) : (s.modDev d f).hostq = s.hostq := rfl
@[simp] theorem modDev_boot (d : Pos) (f : Device → Device) : (s.modDev d f).boot = s.boot := rfl
@[simp] theorem modDev_jtag (d : Pos) (f : Device → Device) : (s.modDev d f).jtag = s.jtag := rfl
@[simp] theorem modDev_ptbSeq (d : Pos) (f : Device → Device) : (s.modDev d f).ptbSeq = s.ptbSeq := rfl
@[simp] theorem modDev_ptbCount (d : Pos) (f : Device → Device) : (s.modDev d f).ptbCount = s.ptbCount := rfl
@[simp] theorem modDev_free (d : Pos) (f : Device → Device) : (s.modDev d f).free = s.free := rfl
@[simp] theorem modDev_out (d : Pos) (f : Device → Device) : (s.modDev d f).out = s.out := rfl
@[simp] theorem modDev_pending (d : Pos) (f : Device → Device) : (s.modDev d f).pending = s.pending := rfl

@[simp] theorem planAgain_regs : s.planAgain.regs = s.regs := rfl
@[simp] theorem planAgain_regsOld : s.planAgain.regsOld = s.regsOld := rfl
@[simp] theorem planAgain_latch : s.planAgain.latch = s.latch := rfl
@[simp] theorem planAgain_time : s.planAgain.time = s.time := rfl
@[simp] theorem planAgain_course : s.planAgain.course = s.course := rfl
@[simp] theorem planAgain_plan : s.planAgain.plan = { s.plan with pending := true, ready := false } := rfl
@[simp] theorem planAgain_ports : s.planAgain.ports = s.ports := rfl
@[simp] theorem planAgain_ga : s.planAgain.ga = s.ga := rfl
@[simp] theorem planAgain_gb : s.planAgain.gb = s.gb := rfl
@[simp] theorem planAgain_devices : s.planAgain.devices = s.devices := rfl
@[simp] theorem planAgain_nodes : s.planAgain.nodes = s.nodes := rfl
@[simp] theorem planAgain_binds : s.planAgain.binds = s.binds := rfl
@[simp] theorem planAgain_amap : s.planAgain.amap = s.amap := rfl
@[simp] theorem planAgain_reseats : s.planAgain.reseats = s.reseats := rfl
@[simp] theorem planAgain_enums : s.planAgain.enums = s.enums := rfl
@[simp] theorem planAgain_flows : s.planAgain.flows = s.flows := rfl
@[simp] theorem planAgain_fwTasks : s.planAgain.fwTasks = s.fwTasks := rfl
@[simp] theorem planAgain_dispLast : s.planAgain.dispLast = s.dispLast := rfl
@[simp] theorem planAgain_turns : s.planAgain.turns = s.turns := rfl
@[simp] theorem planAgain_relLast : s.planAgain.relLast = s.relLast := rfl
@[simp] theorem planAgain_visCount : s.planAgain.visCount = s.visCount := rfl
@[simp] theorem planAgain_planq : s.planAgain.planq = s.planq := rfl
@[simp] theorem planAgain_txq : s.planAgain.txq = s.txq := rfl
@[simp] theorem planAgain_expects : s.planAgain.expects = s.expects := rfl
@[simp] theorem planAgain_txLine : s.planAgain.txLine = s.txLine := rfl
@[simp] theorem planAgain_engines : s.planAgain.engines = s.engines := rfl
@[simp] theorem planAgain_trace : s.planAgain.trace = s.trace := rfl
@[simp] theorem planAgain_traceDropped : s.planAgain.traceDropped = s.traceDropped := rfl
@[simp] theorem planAgain_ests : s.planAgain.ests = s.ests := rfl
@[simp] theorem planAgain_encs : s.planAgain.encs = s.encs := rfl
@[simp] theorem planAgain_edgesLate : s.planAgain.edgesLate = s.edgesLate := rfl
@[simp] theorem planAgain_insts : s.planAgain.insts = s.insts := rfl
@[simp] theorem planAgain_gutter : s.planAgain.gutter = s.gutter := rfl
@[simp] theorem planAgain_errs : s.planAgain.errs = s.errs := rfl
@[simp] theorem planAgain_stop : s.planAgain.stop = s.stop := rfl
@[simp] theorem planAgain_gang : s.planAgain.gang = s.gang := rfl
@[simp] theorem planAgain_pmu : s.planAgain.pmu = s.pmu := rfl
@[simp] theorem planAgain_ppm : s.planAgain.ppm = s.ppm := rfl
@[simp] theorem planAgain_feeds : s.planAgain.feeds = s.feeds := rfl
@[simp] theorem planAgain_oscRun : s.planAgain.oscRun = s.oscRun := rfl
@[simp] theorem planAgain_host : s.planAgain.host = s.host := rfl
@[simp] theorem planAgain_hostq : s.planAgain.hostq = s.hostq := rfl
@[simp] theorem planAgain_boot : s.planAgain.boot = s.boot := rfl
@[simp] theorem planAgain_jtag : s.planAgain.jtag = s.jtag := rfl
@[simp] theorem planAgain_ptbSeq : s.planAgain.ptbSeq = s.ptbSeq := rfl
@[simp] theorem planAgain_ptbCount : s.planAgain.ptbCount = s.ptbCount := rfl
@[simp] theorem planAgain_free : s.planAgain.free = s.free := rfl
@[simp] theorem planAgain_out : s.planAgain.out = s.out := rfl
@[simp] theorem planAgain_pending : s.planAgain.pending = s.pending := rfl

@[simp] theorem modCore_regs (c : Nat) (f : CoreState → CoreState) : (s.modCore c f).regs = s.regs := rfl
@[simp] theorem modCore_regsOld (c : Nat) (f : CoreState → CoreState) : (s.modCore c f).regsOld = s.regsOld := rfl
@[simp] theorem modCore_latch (c : Nat) (f : CoreState → CoreState) : (s.modCore c f).latch = s.latch := rfl
@[simp] theorem modCore_time (c : Nat) (f : CoreState → CoreState) : (s.modCore c f).time = s.time := rfl
@[simp] theorem modCore_course (c : Nat) (f : CoreState → CoreState) : (s.modCore c f).course = s.course := rfl
@[simp] theorem modCore_plan (c : Nat) (f : CoreState → CoreState) : (s.modCore c f).plan = s.plan := rfl
@[simp] theorem modCore_ports (c : Nat) (f : CoreState → CoreState) : (s.modCore c f).ports = s.ports := rfl
@[simp] theorem modCore_ga (c : Nat) (f : CoreState → CoreState) : (s.modCore c f).ga = s.ga := rfl
@[simp] theorem modCore_gb (c : Nat) (f : CoreState → CoreState) : (s.modCore c f).gb = s.gb := rfl
@[simp] theorem modCore_devices (c : Nat) (f : CoreState → CoreState) : (s.modCore c f).devices = s.devices := rfl
@[simp] theorem modCore_nodes (c : Nat) (f : CoreState → CoreState) : (s.modCore c f).nodes = s.nodes := rfl
@[simp] theorem modCore_binds (c : Nat) (f : CoreState → CoreState) : (s.modCore c f).binds = s.binds := rfl
@[simp] theorem modCore_amap (c : Nat) (f : CoreState → CoreState) : (s.modCore c f).amap = s.amap := rfl
@[simp] theorem modCore_reseats (c : Nat) (f : CoreState → CoreState) : (s.modCore c f).reseats = s.reseats := rfl
@[simp] theorem modCore_enums (c : Nat) (f : CoreState → CoreState) : (s.modCore c f).enums = s.enums := rfl
@[simp] theorem modCore_flows (c : Nat) (f : CoreState → CoreState) : (s.modCore c f).flows = s.flows := rfl
@[simp] theorem modCore_fwTasks (c : Nat) (f : CoreState → CoreState) : (s.modCore c f).fwTasks = s.fwTasks := rfl
@[simp] theorem modCore_dispLast (c : Nat) (f : CoreState → CoreState) : (s.modCore c f).dispLast = s.dispLast := rfl
@[simp] theorem modCore_turns (c : Nat) (f : CoreState → CoreState) : (s.modCore c f).turns = s.turns := rfl
@[simp] theorem modCore_relLast (c : Nat) (f : CoreState → CoreState) : (s.modCore c f).relLast = s.relLast := rfl
@[simp] theorem modCore_visCount (c : Nat) (f : CoreState → CoreState) : (s.modCore c f).visCount = s.visCount := rfl
@[simp] theorem modCore_planq (c : Nat) (f : CoreState → CoreState) : (s.modCore c f).planq = s.planq := rfl
@[simp] theorem modCore_txq (c : Nat) (f : CoreState → CoreState) : (s.modCore c f).txq = s.txq := rfl
@[simp] theorem modCore_expects (c : Nat) (f : CoreState → CoreState) : (s.modCore c f).expects = s.expects := rfl
@[simp] theorem modCore_txLine (c : Nat) (f : CoreState → CoreState) : (s.modCore c f).txLine = s.txLine := rfl
@[simp] theorem modCore_engines (c : Nat) (f : CoreState → CoreState) : (s.modCore c f).engines = s.engines := rfl
@[simp] theorem modCore_trace (c : Nat) (f : CoreState → CoreState) : (s.modCore c f).trace = s.trace := rfl
@[simp] theorem modCore_traceDropped (c : Nat) (f : CoreState → CoreState) : (s.modCore c f).traceDropped = s.traceDropped := rfl
@[simp] theorem modCore_ests (c : Nat) (f : CoreState → CoreState) : (s.modCore c f).ests = s.ests := rfl
@[simp] theorem modCore_encs (c : Nat) (f : CoreState → CoreState) : (s.modCore c f).encs = s.encs := rfl
@[simp] theorem modCore_edgesLate (c : Nat) (f : CoreState → CoreState) : (s.modCore c f).edgesLate = s.edgesLate := rfl
@[simp] theorem modCore_insts (c : Nat) (f : CoreState → CoreState) : (s.modCore c f).insts = s.insts := rfl
@[simp] theorem modCore_gutter (c : Nat) (f : CoreState → CoreState) : (s.modCore c f).gutter = { s.gutter with cores := vmod s.gutter.cores c f } := rfl
@[simp] theorem modCore_errs (c : Nat) (f : CoreState → CoreState) : (s.modCore c f).errs = s.errs := rfl
@[simp] theorem modCore_stop (c : Nat) (f : CoreState → CoreState) : (s.modCore c f).stop = s.stop := rfl
@[simp] theorem modCore_gang (c : Nat) (f : CoreState → CoreState) : (s.modCore c f).gang = s.gang := rfl
@[simp] theorem modCore_pmu (c : Nat) (f : CoreState → CoreState) : (s.modCore c f).pmu = s.pmu := rfl
@[simp] theorem modCore_ppm (c : Nat) (f : CoreState → CoreState) : (s.modCore c f).ppm = s.ppm := rfl
@[simp] theorem modCore_feeds (c : Nat) (f : CoreState → CoreState) : (s.modCore c f).feeds = s.feeds := rfl
@[simp] theorem modCore_oscRun (c : Nat) (f : CoreState → CoreState) : (s.modCore c f).oscRun = s.oscRun := rfl
@[simp] theorem modCore_host (c : Nat) (f : CoreState → CoreState) : (s.modCore c f).host = s.host := rfl
@[simp] theorem modCore_hostq (c : Nat) (f : CoreState → CoreState) : (s.modCore c f).hostq = s.hostq := rfl
@[simp] theorem modCore_boot (c : Nat) (f : CoreState → CoreState) : (s.modCore c f).boot = s.boot := rfl
@[simp] theorem modCore_jtag (c : Nat) (f : CoreState → CoreState) : (s.modCore c f).jtag = s.jtag := rfl
@[simp] theorem modCore_ptbSeq (c : Nat) (f : CoreState → CoreState) : (s.modCore c f).ptbSeq = s.ptbSeq := rfl
@[simp] theorem modCore_ptbCount (c : Nat) (f : CoreState → CoreState) : (s.modCore c f).ptbCount = s.ptbCount := rfl
@[simp] theorem modCore_free (c : Nat) (f : CoreState → CoreState) : (s.modCore c f).free = s.free := rfl
@[simp] theorem modCore_out (c : Nat) (f : CoreState → CoreState) : (s.modCore c f).out = s.out := rfl
@[simp] theorem modCore_pending (c : Nat) (f : CoreState → CoreState) : (s.modCore c f).pending = s.pending := rfl

@[simp] theorem modPpm_regs (n : Fin 16) (f : PpmPort → PpmPort) : (s.modPpm n f).regs = s.regs := rfl
@[simp] theorem modPpm_regsOld (n : Fin 16) (f : PpmPort → PpmPort) : (s.modPpm n f).regsOld = s.regsOld := rfl
@[simp] theorem modPpm_latch (n : Fin 16) (f : PpmPort → PpmPort) : (s.modPpm n f).latch = s.latch := rfl
@[simp] theorem modPpm_time (n : Fin 16) (f : PpmPort → PpmPort) : (s.modPpm n f).time = s.time := rfl
@[simp] theorem modPpm_course (n : Fin 16) (f : PpmPort → PpmPort) : (s.modPpm n f).course = s.course := rfl
@[simp] theorem modPpm_plan (n : Fin 16) (f : PpmPort → PpmPort) : (s.modPpm n f).plan = s.plan := rfl
@[simp] theorem modPpm_ports (n : Fin 16) (f : PpmPort → PpmPort) : (s.modPpm n f).ports = s.ports := rfl
@[simp] theorem modPpm_ga (n : Fin 16) (f : PpmPort → PpmPort) : (s.modPpm n f).ga = s.ga := rfl
@[simp] theorem modPpm_gb (n : Fin 16) (f : PpmPort → PpmPort) : (s.modPpm n f).gb = s.gb := rfl
@[simp] theorem modPpm_devices (n : Fin 16) (f : PpmPort → PpmPort) : (s.modPpm n f).devices = s.devices := rfl
@[simp] theorem modPpm_nodes (n : Fin 16) (f : PpmPort → PpmPort) : (s.modPpm n f).nodes = s.nodes := rfl
@[simp] theorem modPpm_binds (n : Fin 16) (f : PpmPort → PpmPort) : (s.modPpm n f).binds = s.binds := rfl
@[simp] theorem modPpm_amap (n : Fin 16) (f : PpmPort → PpmPort) : (s.modPpm n f).amap = s.amap := rfl
@[simp] theorem modPpm_reseats (n : Fin 16) (f : PpmPort → PpmPort) : (s.modPpm n f).reseats = s.reseats := rfl
@[simp] theorem modPpm_enums (n : Fin 16) (f : PpmPort → PpmPort) : (s.modPpm n f).enums = s.enums := rfl
@[simp] theorem modPpm_flows (n : Fin 16) (f : PpmPort → PpmPort) : (s.modPpm n f).flows = s.flows := rfl
@[simp] theorem modPpm_fwTasks (n : Fin 16) (f : PpmPort → PpmPort) : (s.modPpm n f).fwTasks = s.fwTasks := rfl
@[simp] theorem modPpm_dispLast (n : Fin 16) (f : PpmPort → PpmPort) : (s.modPpm n f).dispLast = s.dispLast := rfl
@[simp] theorem modPpm_turns (n : Fin 16) (f : PpmPort → PpmPort) : (s.modPpm n f).turns = s.turns := rfl
@[simp] theorem modPpm_relLast (n : Fin 16) (f : PpmPort → PpmPort) : (s.modPpm n f).relLast = s.relLast := rfl
@[simp] theorem modPpm_visCount (n : Fin 16) (f : PpmPort → PpmPort) : (s.modPpm n f).visCount = s.visCount := rfl
@[simp] theorem modPpm_planq (n : Fin 16) (f : PpmPort → PpmPort) : (s.modPpm n f).planq = s.planq := rfl
@[simp] theorem modPpm_txq (n : Fin 16) (f : PpmPort → PpmPort) : (s.modPpm n f).txq = s.txq := rfl
@[simp] theorem modPpm_expects (n : Fin 16) (f : PpmPort → PpmPort) : (s.modPpm n f).expects = s.expects := rfl
@[simp] theorem modPpm_txLine (n : Fin 16) (f : PpmPort → PpmPort) : (s.modPpm n f).txLine = s.txLine := rfl
@[simp] theorem modPpm_engines (n : Fin 16) (f : PpmPort → PpmPort) : (s.modPpm n f).engines = s.engines := rfl
@[simp] theorem modPpm_trace (n : Fin 16) (f : PpmPort → PpmPort) : (s.modPpm n f).trace = s.trace := rfl
@[simp] theorem modPpm_traceDropped (n : Fin 16) (f : PpmPort → PpmPort) : (s.modPpm n f).traceDropped = s.traceDropped := rfl
@[simp] theorem modPpm_ests (n : Fin 16) (f : PpmPort → PpmPort) : (s.modPpm n f).ests = s.ests := rfl
@[simp] theorem modPpm_encs (n : Fin 16) (f : PpmPort → PpmPort) : (s.modPpm n f).encs = s.encs := rfl
@[simp] theorem modPpm_edgesLate (n : Fin 16) (f : PpmPort → PpmPort) : (s.modPpm n f).edgesLate = s.edgesLate := rfl
@[simp] theorem modPpm_insts (n : Fin 16) (f : PpmPort → PpmPort) : (s.modPpm n f).insts = s.insts := rfl
@[simp] theorem modPpm_gutter (n : Fin 16) (f : PpmPort → PpmPort) : (s.modPpm n f).gutter = s.gutter := rfl
@[simp] theorem modPpm_errs (n : Fin 16) (f : PpmPort → PpmPort) : (s.modPpm n f).errs = s.errs := rfl
@[simp] theorem modPpm_stop (n : Fin 16) (f : PpmPort → PpmPort) : (s.modPpm n f).stop = s.stop := rfl
@[simp] theorem modPpm_gang (n : Fin 16) (f : PpmPort → PpmPort) : (s.modPpm n f).gang = s.gang := rfl
@[simp] theorem modPpm_pmu (n : Fin 16) (f : PpmPort → PpmPort) : (s.modPpm n f).pmu = s.pmu := rfl
@[simp] theorem modPpm_ppm (n : Fin 16) (f : PpmPort → PpmPort) : (s.modPpm n f).ppm = vmod s.ppm n.val f := rfl
@[simp] theorem modPpm_feeds (n : Fin 16) (f : PpmPort → PpmPort) : (s.modPpm n f).feeds = s.feeds := rfl
@[simp] theorem modPpm_oscRun (n : Fin 16) (f : PpmPort → PpmPort) : (s.modPpm n f).oscRun = s.oscRun := rfl
@[simp] theorem modPpm_host (n : Fin 16) (f : PpmPort → PpmPort) : (s.modPpm n f).host = s.host := rfl
@[simp] theorem modPpm_hostq (n : Fin 16) (f : PpmPort → PpmPort) : (s.modPpm n f).hostq = s.hostq := rfl
@[simp] theorem modPpm_boot (n : Fin 16) (f : PpmPort → PpmPort) : (s.modPpm n f).boot = s.boot := rfl
@[simp] theorem modPpm_jtag (n : Fin 16) (f : PpmPort → PpmPort) : (s.modPpm n f).jtag = s.jtag := rfl
@[simp] theorem modPpm_ptbSeq (n : Fin 16) (f : PpmPort → PpmPort) : (s.modPpm n f).ptbSeq = s.ptbSeq := rfl
@[simp] theorem modPpm_ptbCount (n : Fin 16) (f : PpmPort → PpmPort) : (s.modPpm n f).ptbCount = s.ptbCount := rfl
@[simp] theorem modPpm_free (n : Fin 16) (f : PpmPort → PpmPort) : (s.modPpm n f).free = s.free := rfl
@[simp] theorem modPpm_out (n : Fin 16) (f : PpmPort → PpmPort) : (s.modPpm n f).out = s.out := rfl
@[simp] theorem modPpm_pending (n : Fin 16) (f : PpmPort → PpmPort) : (s.modPpm n f).pending = s.pending := rfl

@[simp] theorem modFeed_regs (g : Fin 4) (f : FeedGroup → FeedGroup) : (s.modFeed g f).regs = s.regs := rfl
@[simp] theorem modFeed_regsOld (g : Fin 4) (f : FeedGroup → FeedGroup) : (s.modFeed g f).regsOld = s.regsOld := rfl
@[simp] theorem modFeed_latch (g : Fin 4) (f : FeedGroup → FeedGroup) : (s.modFeed g f).latch = s.latch := rfl
@[simp] theorem modFeed_time (g : Fin 4) (f : FeedGroup → FeedGroup) : (s.modFeed g f).time = s.time := rfl
@[simp] theorem modFeed_course (g : Fin 4) (f : FeedGroup → FeedGroup) : (s.modFeed g f).course = s.course := rfl
@[simp] theorem modFeed_plan (g : Fin 4) (f : FeedGroup → FeedGroup) : (s.modFeed g f).plan = s.plan := rfl
@[simp] theorem modFeed_ports (g : Fin 4) (f : FeedGroup → FeedGroup) : (s.modFeed g f).ports = s.ports := rfl
@[simp] theorem modFeed_ga (g : Fin 4) (f : FeedGroup → FeedGroup) : (s.modFeed g f).ga = s.ga := rfl
@[simp] theorem modFeed_gb (g : Fin 4) (f : FeedGroup → FeedGroup) : (s.modFeed g f).gb = s.gb := rfl
@[simp] theorem modFeed_devices (g : Fin 4) (f : FeedGroup → FeedGroup) : (s.modFeed g f).devices = s.devices := rfl
@[simp] theorem modFeed_nodes (g : Fin 4) (f : FeedGroup → FeedGroup) : (s.modFeed g f).nodes = s.nodes := rfl
@[simp] theorem modFeed_binds (g : Fin 4) (f : FeedGroup → FeedGroup) : (s.modFeed g f).binds = s.binds := rfl
@[simp] theorem modFeed_amap (g : Fin 4) (f : FeedGroup → FeedGroup) : (s.modFeed g f).amap = s.amap := rfl
@[simp] theorem modFeed_reseats (g : Fin 4) (f : FeedGroup → FeedGroup) : (s.modFeed g f).reseats = s.reseats := rfl
@[simp] theorem modFeed_enums (g : Fin 4) (f : FeedGroup → FeedGroup) : (s.modFeed g f).enums = s.enums := rfl
@[simp] theorem modFeed_flows (g : Fin 4) (f : FeedGroup → FeedGroup) : (s.modFeed g f).flows = s.flows := rfl
@[simp] theorem modFeed_fwTasks (g : Fin 4) (f : FeedGroup → FeedGroup) : (s.modFeed g f).fwTasks = s.fwTasks := rfl
@[simp] theorem modFeed_dispLast (g : Fin 4) (f : FeedGroup → FeedGroup) : (s.modFeed g f).dispLast = s.dispLast := rfl
@[simp] theorem modFeed_turns (g : Fin 4) (f : FeedGroup → FeedGroup) : (s.modFeed g f).turns = s.turns := rfl
@[simp] theorem modFeed_relLast (g : Fin 4) (f : FeedGroup → FeedGroup) : (s.modFeed g f).relLast = s.relLast := rfl
@[simp] theorem modFeed_visCount (g : Fin 4) (f : FeedGroup → FeedGroup) : (s.modFeed g f).visCount = s.visCount := rfl
@[simp] theorem modFeed_planq (g : Fin 4) (f : FeedGroup → FeedGroup) : (s.modFeed g f).planq = s.planq := rfl
@[simp] theorem modFeed_txq (g : Fin 4) (f : FeedGroup → FeedGroup) : (s.modFeed g f).txq = s.txq := rfl
@[simp] theorem modFeed_expects (g : Fin 4) (f : FeedGroup → FeedGroup) : (s.modFeed g f).expects = s.expects := rfl
@[simp] theorem modFeed_txLine (g : Fin 4) (f : FeedGroup → FeedGroup) : (s.modFeed g f).txLine = s.txLine := rfl
@[simp] theorem modFeed_engines (g : Fin 4) (f : FeedGroup → FeedGroup) : (s.modFeed g f).engines = s.engines := rfl
@[simp] theorem modFeed_trace (g : Fin 4) (f : FeedGroup → FeedGroup) : (s.modFeed g f).trace = s.trace := rfl
@[simp] theorem modFeed_traceDropped (g : Fin 4) (f : FeedGroup → FeedGroup) : (s.modFeed g f).traceDropped = s.traceDropped := rfl
@[simp] theorem modFeed_ests (g : Fin 4) (f : FeedGroup → FeedGroup) : (s.modFeed g f).ests = s.ests := rfl
@[simp] theorem modFeed_encs (g : Fin 4) (f : FeedGroup → FeedGroup) : (s.modFeed g f).encs = s.encs := rfl
@[simp] theorem modFeed_edgesLate (g : Fin 4) (f : FeedGroup → FeedGroup) : (s.modFeed g f).edgesLate = s.edgesLate := rfl
@[simp] theorem modFeed_insts (g : Fin 4) (f : FeedGroup → FeedGroup) : (s.modFeed g f).insts = s.insts := rfl
@[simp] theorem modFeed_gutter (g : Fin 4) (f : FeedGroup → FeedGroup) : (s.modFeed g f).gutter = s.gutter := rfl
@[simp] theorem modFeed_errs (g : Fin 4) (f : FeedGroup → FeedGroup) : (s.modFeed g f).errs = s.errs := rfl
@[simp] theorem modFeed_stop (g : Fin 4) (f : FeedGroup → FeedGroup) : (s.modFeed g f).stop = s.stop := rfl
@[simp] theorem modFeed_gang (g : Fin 4) (f : FeedGroup → FeedGroup) : (s.modFeed g f).gang = s.gang := rfl
@[simp] theorem modFeed_pmu (g : Fin 4) (f : FeedGroup → FeedGroup) : (s.modFeed g f).pmu = s.pmu := rfl
@[simp] theorem modFeed_ppm (g : Fin 4) (f : FeedGroup → FeedGroup) : (s.modFeed g f).ppm = s.ppm := rfl
@[simp] theorem modFeed_feeds (g : Fin 4) (f : FeedGroup → FeedGroup) : (s.modFeed g f).feeds = vmod s.feeds g.val f := rfl
@[simp] theorem modFeed_oscRun (g : Fin 4) (f : FeedGroup → FeedGroup) : (s.modFeed g f).oscRun = s.oscRun := rfl
@[simp] theorem modFeed_host (g : Fin 4) (f : FeedGroup → FeedGroup) : (s.modFeed g f).host = s.host := rfl
@[simp] theorem modFeed_hostq (g : Fin 4) (f : FeedGroup → FeedGroup) : (s.modFeed g f).hostq = s.hostq := rfl
@[simp] theorem modFeed_boot (g : Fin 4) (f : FeedGroup → FeedGroup) : (s.modFeed g f).boot = s.boot := rfl
@[simp] theorem modFeed_jtag (g : Fin 4) (f : FeedGroup → FeedGroup) : (s.modFeed g f).jtag = s.jtag := rfl
@[simp] theorem modFeed_ptbSeq (g : Fin 4) (f : FeedGroup → FeedGroup) : (s.modFeed g f).ptbSeq = s.ptbSeq := rfl
@[simp] theorem modFeed_ptbCount (g : Fin 4) (f : FeedGroup → FeedGroup) : (s.modFeed g f).ptbCount = s.ptbCount := rfl
@[simp] theorem modFeed_free (g : Fin 4) (f : FeedGroup → FeedGroup) : (s.modFeed g f).free = s.free := rfl
@[simp] theorem modFeed_out (g : Fin 4) (f : FeedGroup → FeedGroup) : (s.modFeed g f).out = s.out := rfl
@[simp] theorem modFeed_pending (g : Fin 4) (f : FeedGroup → FeedGroup) : (s.modFeed g f).pending = s.pending := rfl

@[simp] theorem modEst_regs (e : Fin 8) (f : Estimator → Estimator) : (s.modEst e f).regs = s.regs := rfl
@[simp] theorem modEst_regsOld (e : Fin 8) (f : Estimator → Estimator) : (s.modEst e f).regsOld = s.regsOld := rfl
@[simp] theorem modEst_latch (e : Fin 8) (f : Estimator → Estimator) : (s.modEst e f).latch = s.latch := rfl
@[simp] theorem modEst_time (e : Fin 8) (f : Estimator → Estimator) : (s.modEst e f).time = s.time := rfl
@[simp] theorem modEst_course (e : Fin 8) (f : Estimator → Estimator) : (s.modEst e f).course = s.course := rfl
@[simp] theorem modEst_plan (e : Fin 8) (f : Estimator → Estimator) : (s.modEst e f).plan = s.plan := rfl
@[simp] theorem modEst_ports (e : Fin 8) (f : Estimator → Estimator) : (s.modEst e f).ports = s.ports := rfl
@[simp] theorem modEst_ga (e : Fin 8) (f : Estimator → Estimator) : (s.modEst e f).ga = s.ga := rfl
@[simp] theorem modEst_gb (e : Fin 8) (f : Estimator → Estimator) : (s.modEst e f).gb = s.gb := rfl
@[simp] theorem modEst_devices (e : Fin 8) (f : Estimator → Estimator) : (s.modEst e f).devices = s.devices := rfl
@[simp] theorem modEst_nodes (e : Fin 8) (f : Estimator → Estimator) : (s.modEst e f).nodes = s.nodes := rfl
@[simp] theorem modEst_binds (e : Fin 8) (f : Estimator → Estimator) : (s.modEst e f).binds = s.binds := rfl
@[simp] theorem modEst_amap (e : Fin 8) (f : Estimator → Estimator) : (s.modEst e f).amap = s.amap := rfl
@[simp] theorem modEst_reseats (e : Fin 8) (f : Estimator → Estimator) : (s.modEst e f).reseats = s.reseats := rfl
@[simp] theorem modEst_enums (e : Fin 8) (f : Estimator → Estimator) : (s.modEst e f).enums = s.enums := rfl
@[simp] theorem modEst_flows (e : Fin 8) (f : Estimator → Estimator) : (s.modEst e f).flows = s.flows := rfl
@[simp] theorem modEst_fwTasks (e : Fin 8) (f : Estimator → Estimator) : (s.modEst e f).fwTasks = s.fwTasks := rfl
@[simp] theorem modEst_dispLast (e : Fin 8) (f : Estimator → Estimator) : (s.modEst e f).dispLast = s.dispLast := rfl
@[simp] theorem modEst_turns (e : Fin 8) (f : Estimator → Estimator) : (s.modEst e f).turns = s.turns := rfl
@[simp] theorem modEst_relLast (e : Fin 8) (f : Estimator → Estimator) : (s.modEst e f).relLast = s.relLast := rfl
@[simp] theorem modEst_visCount (e : Fin 8) (f : Estimator → Estimator) : (s.modEst e f).visCount = s.visCount := rfl
@[simp] theorem modEst_planq (e : Fin 8) (f : Estimator → Estimator) : (s.modEst e f).planq = s.planq := rfl
@[simp] theorem modEst_txq (e : Fin 8) (f : Estimator → Estimator) : (s.modEst e f).txq = s.txq := rfl
@[simp] theorem modEst_expects (e : Fin 8) (f : Estimator → Estimator) : (s.modEst e f).expects = s.expects := rfl
@[simp] theorem modEst_txLine (e : Fin 8) (f : Estimator → Estimator) : (s.modEst e f).txLine = s.txLine := rfl
@[simp] theorem modEst_engines (e : Fin 8) (f : Estimator → Estimator) : (s.modEst e f).engines = s.engines := rfl
@[simp] theorem modEst_trace (e : Fin 8) (f : Estimator → Estimator) : (s.modEst e f).trace = s.trace := rfl
@[simp] theorem modEst_traceDropped (e : Fin 8) (f : Estimator → Estimator) : (s.modEst e f).traceDropped = s.traceDropped := rfl
@[simp] theorem modEst_ests (e : Fin 8) (f : Estimator → Estimator) : (s.modEst e f).ests = vmod s.ests e.val f := rfl
@[simp] theorem modEst_encs (e : Fin 8) (f : Estimator → Estimator) : (s.modEst e f).encs = s.encs := rfl
@[simp] theorem modEst_edgesLate (e : Fin 8) (f : Estimator → Estimator) : (s.modEst e f).edgesLate = s.edgesLate := rfl
@[simp] theorem modEst_insts (e : Fin 8) (f : Estimator → Estimator) : (s.modEst e f).insts = s.insts := rfl
@[simp] theorem modEst_gutter (e : Fin 8) (f : Estimator → Estimator) : (s.modEst e f).gutter = s.gutter := rfl
@[simp] theorem modEst_errs (e : Fin 8) (f : Estimator → Estimator) : (s.modEst e f).errs = s.errs := rfl
@[simp] theorem modEst_stop (e : Fin 8) (f : Estimator → Estimator) : (s.modEst e f).stop = s.stop := rfl
@[simp] theorem modEst_gang (e : Fin 8) (f : Estimator → Estimator) : (s.modEst e f).gang = s.gang := rfl
@[simp] theorem modEst_pmu (e : Fin 8) (f : Estimator → Estimator) : (s.modEst e f).pmu = s.pmu := rfl
@[simp] theorem modEst_ppm (e : Fin 8) (f : Estimator → Estimator) : (s.modEst e f).ppm = s.ppm := rfl
@[simp] theorem modEst_feeds (e : Fin 8) (f : Estimator → Estimator) : (s.modEst e f).feeds = s.feeds := rfl
@[simp] theorem modEst_oscRun (e : Fin 8) (f : Estimator → Estimator) : (s.modEst e f).oscRun = s.oscRun := rfl
@[simp] theorem modEst_host (e : Fin 8) (f : Estimator → Estimator) : (s.modEst e f).host = s.host := rfl
@[simp] theorem modEst_hostq (e : Fin 8) (f : Estimator → Estimator) : (s.modEst e f).hostq = s.hostq := rfl
@[simp] theorem modEst_boot (e : Fin 8) (f : Estimator → Estimator) : (s.modEst e f).boot = s.boot := rfl
@[simp] theorem modEst_jtag (e : Fin 8) (f : Estimator → Estimator) : (s.modEst e f).jtag = s.jtag := rfl
@[simp] theorem modEst_ptbSeq (e : Fin 8) (f : Estimator → Estimator) : (s.modEst e f).ptbSeq = s.ptbSeq := rfl
@[simp] theorem modEst_ptbCount (e : Fin 8) (f : Estimator → Estimator) : (s.modEst e f).ptbCount = s.ptbCount := rfl
@[simp] theorem modEst_free (e : Fin 8) (f : Estimator → Estimator) : (s.modEst e f).free = s.free := rfl
@[simp] theorem modEst_out (e : Fin 8) (f : Estimator → Estimator) : (s.modEst e f).out = s.out := rfl
@[simp] theorem modEst_pending (e : Fin 8) (f : Estimator → Estimator) : (s.modEst e f).pending = s.pending := rfl

end Sys2Proof.Machine.State
end

