-- ==== Sys2Proof/Laws/Ops.lean ====
section
/-!
SUPPORT. What the shared operations do, said once: fields and registers, the instance and flow tables, a command that is ready for its work,
meanings that guard their operands.
-/

namespace Sys2Proof.Machine

/-! Fields. -/

/-- A field lies within its register. -/
abbrev Fld.Fits (f : Fld) : Prop := f.lo + f.width ≤ 32

/-- A field reads back what was put into it, cut to its width. -/
theorem Fld.get_put (f : Fld) (hf : f.Fits) (v : Reg32) (x : Nat) : f.get (f.put v x) = x % 2 ^ f.width := by
  unfold Fld.get Fld.put
  apply Nat.eq_of_testBit_eq
  intro i
  simp only [Nat.testBit_mod_two_pow, Nat.testBit_shiftRight, BitVec.testBit_toNat, BitVec.getLsbD_or, BitVec.getLsbD_and,
    BitVec.getLsbD_not, BitVec.getLsbD_shiftLeft, BitVec.getLsbD_ofNat, Nat.testBit_shiftLeft, Nat.testBit_two_pow_sub_one]
  by_cases h : i < f.width
  · have h1 : f.lo + i < 32 := by omega
    have h2 : f.lo + i - f.lo = i := by omega
    have h3 : i < 32 := by omega
    simp [h, h1, h2, h3]
  · simp [h]

/-- A field of the same register that does not overlap keeps its value. -/
theorem Fld.get_put_apart (f g : Fld) (hg : g.Fits) (v : Reg32) (x : Nat) (h : g.lo + g.width ≤ f.lo ∨ f.lo + f.width ≤ g.lo) :
    g.get (f.put v x) = g.get v := by
  unfold Fld.get Fld.put
  apply Nat.eq_of_testBit_eq
  intro i
  simp only [Nat.testBit_mod_two_pow, Nat.testBit_shiftRight, BitVec.testBit_toNat, BitVec.getLsbD_or, BitVec.getLsbD_and,
    BitVec.getLsbD_not, BitVec.getLsbD_shiftLeft, BitVec.getLsbD_ofNat, Nat.testBit_shiftLeft, Nat.testBit_two_pow_sub_one]
  by_cases hi : i < g.width
  · rcases h with h | h
    · have : g.lo + i < f.lo := by omega
      have h1 : g.lo + i < 32 := by omega
      simp [hi, this, h1]
    · have a : ¬ g.lo + i < f.lo := by omega
      have b : ¬ g.lo + i - f.lo < f.width := by omega
      have h1 : g.lo + i < 32 := by omega
      simp [hi, a, b, h1]
  · simp [hi]

/-! Registers. -/

theorem State.rawReg_setReg_ne (s : State) (r q : Reg) (v : Reg32) (k n key : Nat) (h : key ≠ r.key n k) :
    (s.setReg r v k n).rawReg q key = s.rawReg q key := by
  simp [State.rawReg, kget_kput_ne _ _ _ _ _ h]

theorem State.reg_setReg (s : State) (r : Reg) (v : Reg32) (k n : Nat) (hs : ksorted s.regs = true) :
    (s.setReg r v k n).reg r k n = v := by
  unfold State.reg State.rawReg
  rw [State.setReg_regs, kget_kput_same _ _ _ _ hs]

theorem State.fld_setFld (s : State) (f : Fld) (hf : f.Fits) (x k n : Nat) (hs : ksorted s.regs = true) :
    (s.setFld f x k n).fld f k n = x % 2 ^ f.width := by
  unfold State.fld State.setFld
  rw [State.reg_setReg _ _ _ _ _ hs, Fld.get_put _ hf]

/-! Tables. -/

theorem State.inst_setInst (s : State) (i : Nat) (x : Instance) (hs : ksorted s.insts = true) : (s.setInst i x).inst i = x := by
  unfold State.inst
  rw [State.setInst_insts, kget_kput_same _ _ _ _ hs]

theorem State.inst_setInst_ne (s : State) (i j : Nat) (x : Instance) (h : j ≠ i) : (s.setInst i x).inst j = s.inst j := by
  simp [State.inst, kget_kput_ne _ _ _ _ _ h]

theorem State.inst_modInst (s : State) (i : Nat) (f : Instance → Instance) (hs : ksorted s.insts = true) :
    (s.modInst i f).inst i = f (s.inst i) := State.inst_setInst s i _ hs

theorem State.flow_modFlow (s : State) (i j : Nat) (f : Flow → Flow) :
    (s.modFlow i f).flow j = if j = i then (s.flow j).map f else s.flow j := by
  simp [State.flow, kget_kmod]

/-! Commands. -/

/-- A command that is ready, whose values are in range and which the check of its issuer lets pass, does its own work. -/
theorem State.command_ready {s : State} {c : CmdRef} {t : Taken} {fr : Frame} (h : s.standsReady c t fr = true)
    {ranges : Taken → List (Nat × Bool)} {permitted : Taken → Bool} (hr : (ranges t).all (fun x => !x.2) = true)
    (hp : permitted t = true) (act : Taken → State) : s.command c fr ranges permitted act = act t := by
  simp only [State.standsReady, Bool.and_eq_true, beq_iff_eq, Bool.not_eq_true', Bool.or_eq_true] at h
  obtain ⟨⟨⟨⟨⟨⟨⟨⟨⟨ht, hst⟩, hc⟩, hw⟩, ho⟩, hsv⟩, hk⟩, hres⟩, hm⟩, hmode⟩ := h
  have hf : (ranges t).filter (·.2) = [] := by
    rw [List.filter_eq_nil_iff]
    intro x hx
    have := List.all_eq_true.mp hr x hx
    simpa using this
  have hres : fr.reserved t = [] := List.isEmpty_iff.mp hres
  have hm : (fr.manager && c.inst.val != 0) = false := by
    rcases hm with hm | hm
    · simp [hm]
    · simp only [bne, hm]; simp
  unfold State.command
  simp only [ht]
  rw [ho] at hk
  have hmode := List.contains_iff_mem.mp hmode
  simp only [hst, hc, hw, hsv, ho, hk, hres, hf]
  simp [hm, hp, hmode]

/-- What is ready stands in the taken commands. -/
theorem State.standsReady_taken {s : State} {c : CmdRef} {t : Taken} {fr : Frame} (h : s.standsReady c t fr = true) : s.taken c = some t := by
  simp only [State.standsReady, Bool.and_eq_true, beq_iff_eq] at h
  exact h.1.1.1.1.1.1.1.1.1

/-- A meaning whose operands fit together ends in its next state. -/
theorem guarded_next {ok : Bool} {s : State} (h : ok = true) : guarded ok s = .next s := by simp [guarded, h]

end Sys2Proof.Machine
end

