-- ==== Sys2Proof/Laws/Commands.lean ====
section
/-!
SUPPORT. What a command that is ready does, by what it names: a port, a flow.
-/

namespace Sys2Proof.Machine

/-- The same, for a command that a fuse or an unlocked device may turn away. -/
theorem State.command_gate {s : State} {c : CmdRef} {t : Taken} {fr : Frame} (h : s.standsReady c t fr = true)
    {ranges : Taken → List (Nat × Bool)} {permitted : Taken → Bool} (hr : (ranges t).all (fun x => !x.2) = true) (act : Taken → State) :
    s.command c fr ranges permitted act = if permitted t then act t else s.done c stNotPermitted [] := by
  by_cases hp : permitted t = true
  · rw [State.command_ready h hr hp, if_pos hp]
  · simp only [State.standsReady, Bool.and_eq_true, beq_iff_eq, Bool.not_eq_true', Bool.or_eq_true] at h
    obtain ⟨⟨⟨⟨⟨⟨⟨⟨⟨ht, hst⟩, hc⟩, hw⟩, ho⟩, hsv⟩, hk⟩, hres⟩, -⟩, -⟩ := h
    have hf : (ranges t).filter (·.2) = [] := by
      rw [List.filter_eq_nil_iff]
      intro x hx
      have := List.all_eq_true.mp hr x hx
      simpa using this
    have hres : fr.reserved t = [] := List.isEmpty_iff.mp hres
    unfold State.command
    simp only [ht]
    rw [ho] at hk
    simp only [hst, hc, hw, hsv, ho, hk, hres, hf]
    simp [hp]

/-- A command whose frame stands but whose first listed byte breaks a rule ends BAD_PARAM at that byte, where no listed byte is lower. -/
theorem State.command_bad {s : State} {c : CmdRef} {t : Taken} {fr : Frame} (h : s.standsReady c t fr = true)
    {ranges : Taken → List (Nat × Bool)} {b : Nat} {l : List (Nat × Bool)} (hr : ranges t = (b, true) :: l) (hl : ∀ x ∈ l, b ≤ x.1)
    (permitted : Taken → Bool) (act : Taken → State) : s.command c fr ranges permitted act = s.done c stBadParam [] b := by
  have hm : ∀ bs : List Nat, (∀ x ∈ bs, b ≤ x) → bs.foldl min b = b := by
    intro bs
    induction bs with
    | nil => intro _; rfl
    | cons x bs ih =>
      intro h
      rw [List.foldl_cons, Nat.min_eq_left (h x (List.mem_cons_self ..))]
      exact ih fun y hy => h y (List.mem_cons_of_mem _ hy)
  simp only [State.standsReady, Bool.and_eq_true, beq_iff_eq, Bool.not_eq_true', List.isEmpty_iff] at h
  obtain ⟨⟨⟨⟨⟨⟨⟨⟨⟨ht, hst⟩, hc⟩, hw⟩, ho⟩, hsv⟩, hk⟩, hres⟩, -⟩, -⟩ := h
  rw [ho] at hk
  unfold State.command
  simp only [ht, hst, hc, hw, ho, hsv, hk, hres, hr, List.filter_cons, if_true, List.map_cons, List.nil_append]
  rw [hm]
  · simp
  · intro x hx
    obtain ⟨y, hy, rfl⟩ := List.mem_map.mp hx
    exact hl y (List.mem_filter.mp hy).1

/-- The same as `State.command_ready`, for a command that names a port. -/
theorem State.portCommand_ready {s : State} {c : CmdRef} {t : Taken} {fr : Frame} {p : PortRef} {x : Port}
    (h : s.portReady c t fr p x = true) {more : Taken → List (Nat × Bool)} {permitted : PortRef → Bool}
    (hr : (more t).all (fun x => !x.2) = true) (hp : permitted p = true) (absent : Nat) (act : Taken → PortRef → Port → State) :
    s.portCommand c fr more permitted absent act = act t p x := by
  simp only [State.portReady, Bool.and_eq_true, beq_iff_eq] at h
  obtain ⟨⟨⟨⟨h, hpa⟩, hthere⟩, hx⟩, hbad⟩ := h
  have hpa : paPort t.entry = .ok p := by
    cases hq : paPort t.entry with
    | ok q => rw [hq] at hpa; simp at hpa; rw [hpa]
    | error e => rw [hq] at hpa; simp at hpa
  unfold State.portCommand
  rw [State.command_ready h (by rw [List.all_append, hbad, hr]; rfl) (by rw [Taken.onPort, hpa]; exact hp)]
  rw [hpa]
  simp only [hthere, hx, if_true]

/-- The same, for a command that names a flow. -/
theorem State.flowCommand_ready {s : State} {c : CmdRef} {t : Taken} {fr : Frame} {ctx : Nat} {f : Flow}
    (h : s.flowReady c t fr ctx f = true) {more : Taken → List (Nat × Bool)} {closing : Bool}
    (hr : (more t).all (fun x => !x.2) = true) (hc : (f.closing && !closing) = false) (act : Taken → Nat → Flow → State) :
    s.flowCommand c fr more closing act = act t ctx f := by
  simp only [State.flowReady, Bool.and_eq_true, beq_iff_eq] at h
  obtain ⟨h, hf⟩ := h
  unfold State.flowCommand
  rw [State.command_ready h (by simp only [List.all_cons, State.badFlow, hf, hr]; rfl) rfl]
  simp only [hf, hc]
  rfl

/-- A command that is ready by its port is ready. -/
theorem State.portReady_stands {s : State} {c : CmdRef} {t : Taken} {fr : Frame} {p : PortRef} {x : Port}
    (h : s.portReady c t fr p x = true) : s.standsReady c t fr = true := by
  simp only [State.portReady, Bool.and_eq_true] at h; exact h.1.1.1.1

/-- A command that is ready by its flow is ready. -/
theorem State.flowReady_stands {s : State} {c : CmdRef} {t : Taken} {fr : Frame} {ctx : Nat} {f : Flow}
    (h : s.flowReady c t fr ctx f = true) : s.standsReady c t fr = true := by
  simp only [State.flowReady, Bool.and_eq_true] at h; exact h.1

end Sys2Proof.Machine
end

