-- ==== Sys2Proof/Laws/Devices.lean ====
section
/-!
SUPPORT. Devices: looking one up after it was changed, the ports of a hub, and a SETUP that a node takes and performs.
-/

namespace Sys2Proof.Machine

theorem State.dev_pos {s : State} {n : Pos} {x : Device} (h : s.dev n = some x) : x.pos = n := by
  have := List.find?_some (by simpa [State.dev] using h)
  simpa using this

/-- A change that leaves the place alone is seen by a look-up. -/
theorem State.dev_modDev {s : State} {n : Pos} {x : Device} (f : Device → Device) (hf : ∀ y, (f y).pos = y.pos) (h : s.dev n = some x) :
    (s.modDev n f).dev n = some (f x) := by
  unfold State.dev State.modDev at *
  have key : ∀ l : List Device, l.find? (fun y => y.pos == n) = some x →
      (l.map fun y => if y.pos == n then f y else y).find? (fun y => y.pos == n) = some (f x) := by
    intro l
    induction l with
    | nil => simp
    | cons y l ih =>
      intro h
      by_cases hy : y.pos = n
      · have hx : y = x := by simpa [hy] using h
        subst hx
        simp [hy, hf]
      · have hb : (y.pos == n) = false := by simpa using hy
        simp only [List.map_cons, List.find?_cons, hb, Bool.false_eq_true, if_false] at h ⊢
        exact ih h
  exact key _ h

theorem State.port_hub {s : State} {n : Pos} {k : Fin 16} {x : Device} (h : s.dev n = some x) : s.port (.hub n k) = x.ports[k.val]? := by
  simp [State.port, h]

theorem State.hubAt_hub {s : State} {n : Pos} {x : Device} (h : s.dev n = some x) (hn : x.nports ≠ 0) : s.hubAt (.node n) = some x := by
  simp [State.hubAt, h, hn]

theorem State.hubAt_leaf {s : State} {n : Pos} {x : Device} (h : s.dev n = some x) (hn : x.nports = 0) : s.hubAt (.node n) = none := by
  simp [State.hubAt, h, hn]

/-- A row whose operand is the setup of its request: the fields that the model reads. -/
theorem Setup.kind_code {q : Setup} {a b : Nat} (h : q.isReq a b = true) : q.kindN = a ∧ q.code = b := by
  simpa [Setup.isReq, Setup.kind, Setup.request, Setup.kindN, Setup.code, wbits, bitsOf] using h

/-- A node that is ready takes a SETUP: it holds the transfer of the request that it performed. -/
theorem State.takeSetup_ready {s : State} {n : Pos} {q : Setup} {x : Device} (h : s.setupReady n q x = true) (u : State) (r : List Word)
    (hr : (s.setupStart n).request (.node n) x q = some (u, r)) : s.takeSetup n q true = u.setupTaken n q x r := by
  simp only [State.setupReady, Bool.and_eq_true, beq_iff_eq, Bool.not_eq_true'] at h
  obtain ⟨⟨h1, h2⟩, h3⟩ := h
  simp only [State.takeSetup, h1, h2, if_true]
  rw [if_neg (by rw [← Bool.not_eq_true] at h3; exact h3)]
  change (match (s.setupStart n).request (.node n) x q with | none => _ | some (s, reply) => _) = _
  rw [hr]
  rfl

theorem State.setupReady_dev {s : State} {n : Pos} {q : Setup} {x : Device} (h : s.setupReady n q x = true) :
    s.dev n = some x ∧ x.answers = true := by
  simp only [State.setupReady, Bool.and_eq_true, beq_iff_eq] at h
  exact h.1

end Sys2Proof.Machine
end

