-- ==== Sys2Proof/Laws/Follows.lean ====
section
/-!
SUPPORT. What a part of a command may do to the state, said once as a relation that composes: the queue stays, the log of outputs grows,
the sparse tables stay sorted, blown OTP bits stay blown (`State.Kept`); and the drive of modes and the stop latch stays as it was
(`State.Steady`) or stays in order (`State.Follows`). The files beside this one show it of every operation of the model.
-/

namespace Sys2Proof.Machine

/-- What every operation keeps. -/
structure State.Kept (s t : State) : Prop where
  pending : t.pending = s.pending
  out : s.out <:+ t.out
  regs : ksorted s.regs = true → ksorted t.regs = true
  flows : ksorted s.flows = true → ksorted t.flows = true
  insts : ksorted s.insts = true → ksorted t.insts = true
  rollback : s.boot.rollback ≤ t.boot.rollback
  revoked : s.boot.key0Revoked = true → t.boot.key0Revoked = true

/-- An operation that changes no mode and not the stop latch. -/
structure State.Steady (s t : State) : Prop where
  kept : s.Kept t
  drive : t.drive = s.drive

/-- An operation that keeps the drive in order. -/
structure State.Follows (s t : State) : Prop where
  kept : s.Kept t
  drive : s.drive.Ok → t.drive.Ok

namespace State

theorem Kept.refl (s : State) : s.Kept s := ⟨rfl, List.suffix_refl _, id, id, id, BitVec.le_refl _, id⟩

theorem Kept.trans {s t u : State} (h : s.Kept t) (k : t.Kept u) : s.Kept u :=
  ⟨k.pending.trans h.pending, h.out.trans k.out, k.regs ∘ h.regs, k.flows ∘ h.flows, k.insts ∘ h.insts,
    BitVec.le_trans h.rollback k.rollback, k.revoked ∘ h.revoked⟩

theorem Steady.refl (s : State) : s.Steady s := ⟨.refl s, rfl⟩

theorem Steady.trans {s t u : State} (h : s.Steady t) (k : t.Steady u) : s.Steady u := ⟨h.kept.trans k.kept, k.drive.trans h.drive⟩

theorem Follows.refl (s : State) : s.Follows s := ⟨.refl s, id⟩

theorem Follows.trans {s t u : State} (h : s.Follows t) (k : t.Follows u) : s.Follows u := ⟨h.kept.trans k.kept, k.drive ∘ h.drive⟩

theorem Steady.follows {s t : State} (h : s.Steady t) : s.Follows t := ⟨h.kept, fun k => by rw [h.drive]; exact k⟩

/-- An operation that is steady by itself follows whatever came before. -/
theorem Follows.steady {s t u : State} (h : s.Follows t) (k : t.Steady u) : s.Follows u := h.trans k.follows

theorem Follows.sound {s t : State} (h : s.Follows t) (k : s.Sound) : t.Sound :=
  ⟨h.kept.regs k.regs, h.kept.flows k.flows, h.kept.insts k.insts, h.drive k.drive⟩

end State

/-- A property that steady operations keep. -/
def Stable (P : State → Prop) : Prop := ∀ s t, P s → s.Steady t → P t

/-- A property that every operation keeps. -/
def Mobile (P : State → Prop) : Prop := ∀ s t, P s → s.Follows t → P t

theorem Mobile.stable {P : State → Prop} (h : Mobile P) : Stable P := fun s t hs k => h s t hs k.follows

theorem State.Follows.mobile (s : State) : Mobile s.Follows := fun _ _ h k => h.trans k

theorem State.Steady.stable (s : State) : Stable s.Steady := fun _ _ h k => h.trans k

/-- A record update that leaves the drive alone. -/
theorem Stable.upd {P : State → Prop} {s : State}
    {regs regsOld latch time course plan ports ga gb devices nodes binds amap reseats enums flows fwTasks dispLast turns relLast
     visCount planq txq expects txLine engines trace traceDropped ests encs edgesLate insts gutter errs stop gang pmu ppm feeds oscRun
     host hostq boot jtag ptbSeq ptbCount free out}
    (hS : Stable P) (hd : (⟨stop.latched, pmu.mode, pmu.target, pmu.changing, pmu.entry.map (·.mode)⟩ : Drive) = s.drive) (h : P s)
    (ho : s.out <:+ out) (hr : ksorted s.regs = true → ksorted regs = true) (hf : ksorted s.flows = true → ksorted flows = true)
    (hi : ksorted s.insts = true → ksorted insts = true) (hl : s.boot.rollback ≤ boot.rollback)
    (hk : s.boot.key0Revoked = true → boot.key0Revoked = true) :
    P ⟨regs, regsOld, latch, time, course, plan, ports, ga, gb, devices, nodes, binds, amap, reseats, enums, flows, fwTasks,
      dispLast, turns, relLast, visCount, planq, txq, expects, txLine, engines, trace, traceDropped, ests, encs, edgesLate, insts, gutter, errs, stop, gang, pmu,
      ppm, feeds, oscRun, host, hostq, boot, jtag, ptbSeq, ptbCount, free, out, s.pending⟩ :=
  hS s _ h ⟨⟨rfl, ho, hr, hf, hi, hl, hk⟩, hd⟩

/-- A record update that keeps the drive in order. -/
theorem Mobile.upd {P : State → Prop} {s : State}
    {regs regsOld latch time course plan ports ga gb devices nodes binds amap reseats enums flows fwTasks dispLast turns relLast
     visCount planq txq expects txLine engines trace traceDropped ests encs edgesLate insts gutter errs stop gang pmu ppm feeds oscRun
     host hostq boot jtag ptbSeq ptbCount free out}
    (hM : Mobile P) (h : P s)
    (hd : s.drive.Ok → (⟨stop.latched, pmu.mode, pmu.target, pmu.changing, pmu.entry.map (·.mode)⟩ : Drive).Ok)
    (ho : s.out <:+ out) (hr : ksorted s.regs = true → ksorted regs = true) (hf : ksorted s.flows = true → ksorted flows = true)
    (hi : ksorted s.insts = true → ksorted insts = true) (hl : s.boot.rollback ≤ boot.rollback)
    (hk : s.boot.key0Revoked = true → boot.key0Revoked = true) :
    P ⟨regs, regsOld, latch, time, course, plan, ports, ga, gb, devices, nodes, binds, amap, reseats, enums, flows, fwTasks,
      dispLast, turns, relLast, visCount, planq, txq, expects, txLine, engines, trace, traceDropped, ests, encs, edgesLate, insts, gutter, errs, stop, gang, pmu,
      ppm, feeds, oscRun, host, hostq, boot, jtag, ptbSeq, ptbCount, free, out, s.pending⟩ :=
  hM s _ h ⟨⟨rfl, ho, hr, hf, hi, hl, hk⟩, hd⟩

/-- A fact about a value, used where the value stands. -/
theorem cut_value {p q : Prop} (hp : p) (hq : p → q) : q := hq hp


/-! Results that hold a state: `P` of the state that is there. -/

section
variable {α β γ ε : Type} {P : α → Prop} {Q : β → Prop}

/-- `P` of the value, if there is one. -/
def OptAll (P : α → Prop) (o : Option α) : Prop := ∀ x, o = some x → P x

/-- `P` of the value, if there is no error. -/
def ExcAll (P : α → Prop) (o : Except ε α) : Prop := ∀ x, o = .ok x → P x

/-- `P` of the next state, if there is one. -/
def ResAll (P : State → Prop) (r : Res) : Prop := ∀ t, r = .next t → P t

/-- `P` of the first, or of the second, of a pair. -/
def Fst (P : α → Prop) (p : α × γ) : Prop := P p.1
def Snd (P : α → Prop) (p : γ × α) : Prop := P p.2

theorem OptAll.none : OptAll P none := fun _ h => nomatch h
theorem OptAll.some {x : α} (h : P x) : OptAll P (some x) := fun _ e => Option.some.inj e ▸ h
theorem OptAll.elim {o : Option α} {x : α} (e : o = .some x) (h : OptAll P o) : P x := h x e
theorem OptAll.snd {o : Option (γ × α)} {x : α} {y : γ} (e : o = .some (y, x)) (h : OptAll (Snd P) o) : P x := h _ e
theorem OptAll.fst {o : Option (α × γ)} {x : α} {y : γ} (e : o = .some (x, y)) (h : OptAll (Fst P) o) : P x := h _ e
theorem OptAll.bind {o : Option β} {f : β → Option α} (h : ∀ x, o = .some x → OptAll P (f x)) : OptAll P (o.bind f) := by
  cases o with
  | none => exact OptAll.none
  | some x => exact h x rfl
theorem OptAll.map {o : Option β} {f : β → α} (h : ∀ x, o = .some x → P (f x)) : OptAll P (o.map f) := by
  cases o with
  | none => exact OptAll.none
  | some x => exact OptAll.some (h x rfl)
theorem OptAll.getD {o : Option α} {d : α} (h : OptAll P o) (hd : P d) : P (o.getD d) := by
  cases o with
  | none => exact hd
  | some x => exact h x rfl

theorem ExcAll.error {e : ε} : ExcAll P (.error e) := fun _ h => nomatch h
theorem ExcAll.ok {x : α} (h : P x) : ExcAll (ε := ε) P (.ok x) := fun _ e => Except.ok.inj e ▸ h
theorem ExcAll.elim {o : Except ε α} {x : α} (e : o = .ok x) (h : ExcAll P o) : P x := h x e

theorem ResAll.fault {P : State → Prop} {e : Fault} : ResAll P (.fault e) := fun _ h => nomatch h
theorem ResAll.next {P : State → Prop} {s : State} (h : P s) : ResAll P (.next s) := fun _ e => Host.Outcome.next.inj e ▸ h
theorem ResAll.guarded {P : State → Prop} {ok : Bool} {s : State} (h : P s) : ResAll P (guarded ok s) := by
  unfold Machine.guarded
  split
  · exact ResAll.next h
  · exact ResAll.fault

theorem Fst.mk {x : α} {y : γ} (h : P x) : Fst P (x, y) := h
theorem Fst.out {p : α × γ} (h : Fst P p) : P p.1 := h
theorem Fst.elim {p : α × γ} {x : α} {y : γ} (e : p = (x, y)) (h : Fst P p) : P x := by subst e; exact h
theorem Snd.mk {x : α} {y : γ} (h : P x) : Snd P (y, x) := h
theorem Snd.out {p : γ × α} (h : Snd P p) : P p.2 := h
theorem Snd.elim {p : γ × α} {x : α} {y : γ} (e : p = (y, x)) (h : Snd P p) : P x := by subst e; exact h

theorem ExcAll.fst {o : Except ε (α × γ)} {x : α} {y : γ} (e : o = .ok (x, y)) (h : ExcAll (Fst P) o) : P x := h _ e
theorem OptAll.exc {o : Option (Except ε α)} {x : α} (e : o = .some (.ok x)) (h : OptAll (ExcAll P) o) : P x := h _ e x rfl
theorem ExcAll.bind {o : Except ε β} {f : β → Except ε α} (h : ∀ x, o = .ok x → ExcAll P (f x)) : ExcAll P (o >>= f) := by
  cases o with
  | error e => exact ExcAll.error
  | ok x => exact h x rfl

theorem ExcAll.map {o : Except ε β} {f : β → α} (h : ∀ x, o = .ok x → P (f x)) : ExcAll P (o.map f) := by
  cases o with
  | error e => exact ExcAll.error
  | ok x => exact ExcAll.ok (h x rfl)

theorem ite_keeps {c : Prop} {_ : Decidable c} {x y : α} (hx : P x) (hy : P y) : P (if c then x else y) := by
  split
  · exact hx
  · exact hy

theorem dite_keeps {c : Prop} {_ : Decidable c} {x : c → α} {y : ¬c → α} (hx : ∀ h, P (x h)) (hy : ∀ h, P (y h)) : P (dite c x y) := by
  split
  · exact hx _
  · exact hy _

/-- A fold keeps what its step keeps. -/
theorem foldl_keeps {f : α → β → α} {l : List β} {a : α} (hf : ∀ a b, P a → P (f a b)) (h : P a) : P (l.foldl f a) := by
  induction l generalizing a with
  | nil => exact h
  | cons b l ih => exact ih (hf a b h)

end

end Sys2Proof.Machine
end

