-- ==== Sys2Proof/Laws/KeepsOps.lean ====
section
/-!
SUPPORT. What the operations and meanings of Machine/Ops.lean keep (see Laws/Follows.lean): steady ones any `Stable` property, the others any
`Mobile` one.
-/

set_option linter.tactic.unusedName false
set_option linter.unusedVariables false

namespace Sys2Proof.Machine

theorem State.setReg_keeps {P s r v k n} (hS : Stable P) (hs : P s) :
    P (State.setReg s r v k n) := by
  unfold State.setReg
  exact Stable.upd hS rfl ‹_› (List.suffix_refl _) (ksorted_kput _ _ _ _) id id (BitVec.le_refl _) id

theorem State.setFld_keeps {P s f x_2 k n} (hS : Stable P) (hs : P s) :
    P (State.setFld s f x_2 k n) := by
  unfold State.setFld
  exact State.setReg_keeps hS ‹_›

theorem State.emit_keeps {P s o} (hS : Stable P) (hs : P s) :
    P (State.emit s o) := by
  unfold State.emit
  exact Stable.upd hS rfl ‹_› (List.suffix_cons _ _) id id id (BitVec.le_refl _) id

theorem State.addSat_keeps {P s f d k n} (hS : Stable P) (hs : P s) :
    P (State.addSat s f d k n) := by
  unfold State.addSat
  exact State.setFld_keeps hS ‹_›

theorem State.modFlow_keeps {P s ctx f} (hS : Stable P) (hs : P s) :
    P (State.modFlow s ctx f) := by
  unfold State.modFlow
  exact Stable.upd hS rfl ‹_› (List.suffix_refl _) id (ksorted_kmod _ _ _) id (BitVec.le_refl _) id

theorem State.setBit_keeps {P s f k n} (hS : Stable P) (hs : P s) :
    P (State.setBit s f k n) := by
  unfold State.setBit
  exact State.setFld_keeps hS ‹_›

theorem State.setInst_keeps {P s i x_2} (hS : Stable P) (hs : P s) :
    P (State.setInst s i x_2) := by
  unfold State.setInst
  exact Stable.upd hS rfl ‹_› (List.suffix_refl _) id id (ksorted_kput _ _ _ _) (BitVec.le_refl _) id

theorem State.modInst_keeps {P s i f} (hS : Stable P) (hs : P s) :
    P (State.modInst s i f) := by
  unfold State.modInst
  exact State.setInst_keeps hS ‹_›

theorem State.setPair_keeps {P s lo hi v n} (hS : Stable P) (hs : P s) :
    P (State.setPair s lo hi v n) := by
  unfold State.setPair
  exact State.setFld_keeps hS (State.setFld_keeps hS ‹_›)

theorem State.shadow_keeps {P s r n k} (hS : Stable P) (hs : P s) :
    P (State.shadow s r n k) := by
  unfold State.shadow
  extract_lets +onlyGivenNames x
  clear_value x
  exact ite_keeps (P := P) (Stable.upd hS rfl ‹_› (List.suffix_refl _) id id id (BitVec.le_refl _) id) ‹_›

theorem State.freeWord_keeps {P s} (hS : Stable P) (hs : P s) :
    Snd P (State.freeWord s) := by
  unfold State.freeWord
  exact Snd.mk (Stable.upd hS rfl ‹_› (List.suffix_refl _) id id id (BitVec.le_refl _) id)

theorem State.modDev_keeps {P s d f} (hS : Stable P) (hs : P s) :
    P (State.modDev s d f) := by
  unfold State.modDev
  exact Stable.upd hS rfl ‹_› (List.suffix_refl _) id id id (BitVec.le_refl _) id

theorem State.modDevAt_keeps {P s d f} (hS : Stable P) (hs : P s) :
    P (State.modDevAt s d f) := by
  unfold State.modDevAt
  split
  · exact State.modDev_keeps hS ‹_›
  · exact Stable.upd hS rfl ‹_› (List.suffix_refl _) id id id (BitVec.le_refl _) id

theorem State.modPort_keeps {P s p f} (hS : Stable P) (hs : P s) :
    P (State.modPort s p f) := by
  unfold State.modPort
  split
  · exact Stable.upd hS rfl ‹_› (List.suffix_refl _) id id id (BitVec.le_refl _) id
  · exact Stable.upd hS rfl ‹_› (List.suffix_refl _) id id id (BitVec.le_refl _) id
  · exact State.modDev_keeps hS ‹_›

theorem State.planAgain_keeps {P s} (hS : Stable P) (hs : P s) :
    P (State.planAgain s) := by
  unfold State.planAgain
  extract_lets +onlyGivenNames x
  clear_value x
  exact Stable.upd hS rfl ‹_› (List.suffix_refl _) id id id (BitVec.le_refl _) id

theorem State.sendWords_keeps {P s x_1 k ws} (hS : Stable P) (hs : P s) :
    P (State.sendWords s x_1 k ws) := by
  unfold State.sendWords
  exact State.emit_keeps hS ‹_›

theorem State.answer_keeps {P s d ws} (hS : Stable P) (hs : P s) :
    P (State.answer s d ws) := by
  unfold State.answer
  split
  · assumption
  · extract_lets +onlyGivenNames x
    clear_value x
    exact State.modDevAt_keeps hS (State.sendWords_keeps hS ‹_›)

theorem State.mapFlows_keeps {P s f} (hS : Stable P) (hs : P s) :
    P (State.mapFlows s f) := by
  unfold State.mapFlows
  exact Stable.upd hS rfl ‹_› (List.suffix_refl _) id (ksorted_map _ _ (fun _ => rfl)) id (BitVec.le_refl _) id

theorem State.freeBool_keeps {P s} (hS : Stable P) (hs : P s) :
    Snd P (State.freeBool s) := by
  unfold State.freeBool
  exact Snd.mk (Stable.upd hS rfl ‹_› (List.suffix_refl _) id id id (BitVec.le_refl _) id)

theorem State.heardAt_keeps {P s d w} (hS : Stable P) (hs : P s) :
    P (State.heardAt s d w) := by
  unfold State.heardAt
  exact State.modDevAt_keeps hS ‹_›

theorem State.lostPulse_keeps {P s} (hS : Stable P) (hs : P s) :
    P (State.lostPulse s) := by
  unfold State.lostPulse
  exact ite_keeps (P := P) ‹_› (State.addSat_keeps hS ‹_›)

theorem guarded_keeps {P ok s} (hS : Stable P) (hs : P s) :
    ResAll P (guarded ok s) := by
  unfold guarded
  exact ite_keeps (P := ResAll P) (ResAll.next ‹_›) ResAll.fault

end Sys2Proof.Machine
end

