-- ==== Sys2Proof/Laws/KeepsAdmit.lean ====
section
/-!
SUPPORT. What the operations and meanings of Machine/Admit.lean keep (see Laws/Follows.lean): steady ones any `Stable` property, the others any
`Mobile` one.
-/

set_option linter.tactic.unusedName false
set_option linter.unusedVariables false

namespace Sys2Proof.Machine

theorem State.pick_keeps {P s l} (hS : Stable P) (hs : P s) :
    OptAll (Snd P) (State.pick s l) := by
  unfold State.pick
  extract_lets +onlyGivenNames x
  refine cut_value (p := Snd P x) ?_ ?_
  · subst x
    exact State.freeWord_keeps hS ‹_›
  intro hx
  clear_value x
  exact OptAll.map (fun a e => (Snd.mk (Snd.out ‹_›)))

theorem State.takeContext_keeps {P s i} (hS : Stable P) (hs : P s) :
    OptAll (Snd P) (State.takeContext s i) := by
  unfold State.takeContext
  exact ite_keeps (P := OptAll (Snd P)) (State.pick_keeps hS ‹_›) OptAll.none

theorem State.putFlow_keeps {P s ctx f} (hS : Stable P) (hs : P s) :
    P (State.putFlow s ctx f) := by
  unfold State.putFlow
  extract_lets +onlyGivenNames x
  refine cut_value (p := P x) ?_ ?_
  · subst x
    exact Stable.upd hS rfl ‹_› (List.suffix_refl _) id (ksorted_kset _ _ _) id (BitVec.le_refl _) id
  intro hx
  clear_value x
  exact State.modFlow_keeps hS ‹_›

theorem State.openScheduled_keeps {P s ctx f auto cmd} (hS : Stable P) (hs : P s) :
    ExcAll P (State.openScheduled s ctx f auto cmd) := by
  unfold State.openScheduled
  extract_lets +onlyGivenNames x
  clear_value x
  extract_lets +onlyGivenNames x
  clear_value x
  extract_lets +onlyGivenNames x
  clear_value x
  extract_lets +onlyGivenNames x
  clear_value x
  extract_lets +onlyGivenNames x
  clear_value x
  extract_lets +onlyGivenNames x
  refine cut_value (p := P x) ?_ ?_
  · subst x
    exact State.putFlow_keeps hS ‹_›
  intro hx
  clear_value x
  split
  · exact ExcAll.error
  · exact ExcAll.ok (State.planAgain_keeps hS ‹_›)

theorem State.openService_keeps {P s pos addr ep svc words k} (hS : Stable P) (hs : P s) :
    ExcAll P (State.openService s pos addr ep svc words k) := by
  unfold State.openService
  split
  · exact ExcAll.error
  · extract_lets +onlyGivenNames x
    clear_value x
    refine State.openScheduled_keeps hS ?_
    refine OptAll.snd (by assumption) ?_
    exact State.takeContext_keeps hS ‹_›

theorem State.takeNumber_keeps {P s i} (hS : Stable P) (hs : P s) :
    OptAll (Snd P) (State.takeNumber s i) := by
  unfold State.takeNumber
  exact State.pick_keeps hS ‹_›

theorem State.closeScheduled_keeps {P s ctx cmd} (hS : Stable P) (hs : P s) :
    P (State.closeScheduled s ctx cmd) := by
  unfold State.closeScheduled
  extract_lets +onlyGivenNames x
  clear_value x
  exact State.planAgain_keeps hS (State.modFlow_keeps hS ‹_›)

theorem State.closeService_keeps {P s svc} (hS : Stable P) (hs : P s) :
    P (State.closeService s svc) := by
  unfold State.closeService
  exact foldl_keeps (P := P) (fun a b h => (State.closeScheduled_keeps hS ‹_›)) ‹_›

end Sys2Proof.Machine
end

