-- ==== Sys2Proof/Laws/KeepsSignal.lean ====
section
/-!
SUPPORT. What the operations and meanings of Machine/Signal.lean keep (see Laws/Follows.lean): steady ones any `Stable` property, the others any
`Mobile` one.
-/

set_option linter.tactic.unusedName false
set_option linter.unusedVariables false

namespace Sys2Proof.Machine

theorem State.stopBurst_keeps {P s reason skip} (hS : Stable P) (hs : P s) :
    P (State.stopBurst s reason skip) := by
  unfold State.stopBurst
  extract_lets +onlyGivenNames x
  clear_value x
  extract_lets +onlyGivenNames x
  clear_value x
  extract_lets +onlyGivenNames x
  clear_value x
  extract_lets +onlyGivenNames x
  clear_value x
  extract_lets +onlyGivenNames x
  refine cut_value (p := P x) ?_ ?_
  · subst x
    exact ite_keeps (P := P) (foldl_keeps (P := P) (fun a b h => (State.emit_keeps hS ‹_›)) ‹_›) ‹_›
  intro hx
  clear_value x
  extract_lets +onlyGivenNames x
  refine cut_value (p := P x) ?_ ?_
  · subst x
    exact State.addSat_keeps hS ‹_›
  intro hx
  clear_value x
  extract_lets +onlyGivenNames x
  exact Stable.upd hS rfl ‹_› (List.suffix_refl _) id id id (BitVec.le_refl _) id

theorem State.finishBy_keeps {P r s ctx i st length effect} (hS : Stable P) (hr : ∀ u0 u1, P u0 → P (r u0 u1)) (hs : P s) :
    P (State.finishBy r s ctx i st length effect) := by
  unfold State.finishBy
  split
  · assumption
  · extract_lets +onlyGivenNames x
    clear_value x
    extract_lets +onlyGivenNames x
    clear_value x
    extract_lets +onlyGivenNames x
    refine cut_value (p := P x) ?_ ?_
    · subst x
      exact State.modFlow_keeps hS ‹_›
    intro hx
    clear_value x
    extract_lets +onlyGivenNames x
    clear_value x
    refine ite_keeps (P := P) ?_ ?_
    · assumption
    · split
      · exact State.addSat_keeps hS ‹_›
      · exact State.addSat_keeps hS ‹_›
      · apply hr
        exact State.setBit_keeps hS (State.addSat_keeps hS ‹_›)
      · apply hr
        exact State.setBit_keeps hS (State.addSat_keeps hS ‹_›)
      · assumption

theorem State.wakeHost_keeps {P s} (hS : Stable P) (hs : P s) : P (State.wakeHost s) := by
  unfold State.wakeHost
  exact ite_keeps (P := P) (State.addSat_keeps hS (Stable.upd hS rfl ‹_› (List.suffix_refl _) id id id (BitVec.le_refl _) id)) ‹_›

theorem State.post_keeps {P s o} (hS : Stable P) (hs : P s) :
    P (State.post s o) := by
  unfold State.post
  refine ite_keeps (P := P) ‹_› ?_
  extract_lets +onlyGivenNames x
  refine cut_value (p := P x) ?_ ?_
  · subst x
    exact State.wakeHost_keeps hS ‹_›
  intro hx
  clear_value x
  exact ite_keeps (P := P) (State.emit_keeps hS ‹_›) (Stable.upd hS rfl ‹_› (List.suffix_refl _) id id id (BitVec.le_refl _) id)

theorem State.putEntry_keeps {P s i body flags bad} (hS : Stable P) (hs : P s) :
    P (State.putEntry s i body flags bad) := by
  unfold State.putEntry
  extract_lets +onlyGivenNames x
  clear_value x
  extract_lets +onlyGivenNames x
  clear_value x
  extract_lets +onlyGivenNames x
  clear_value x
  extract_lets +onlyGivenNames x
  clear_value x
  extract_lets +onlyGivenNames x
  clear_value x
  extract_lets +onlyGivenNames x
  refine cut_value (p := P x) ?_ ?_
  · subst x
    exact State.post_keeps hS ‹_›
  intro hx
  clear_value x
  exact State.modInst_keeps hS ‹_›

theorem State.raiseAfterBy_keeps {P r s src} (hS : Stable P) (hr : ∀ u0 u1, P u0 → P (r u0 u1)) (hs : P s) :
    P (State.raiseAfterBy r s src) := by
  unfold State.raiseAfterBy
  split
  · assumption
  · refine ite_keeps (P := P) ?_ ?_
    · apply hr
      assumption
    · exact Stable.upd hS rfl ‹_› (List.suffix_refl _) id id id (BitVec.le_refl _) id

theorem State.eventAtBy_keeps {P r s i code subject time detail} (hS : Stable P) (hr : ∀ u0 u1, P u0 → P (r u0 u1)) (hs : P s) :
    P (State.eventAtBy r s i code subject time detail) := by
  unfold State.eventAtBy
  extract_lets +onlyGivenNames x
  clear_value x
  extract_lets +onlyGivenNames x
  clear_value x
  extract_lets +onlyGivenNames x
  clear_value x
  extract_lets +onlyGivenNames x
  clear_value x
  extract_lets +onlyGivenNames x
  clear_value x
  extract_lets +onlyGivenNames x
  refine cut_value (p := P x) ?_ ?_
  · subst x
    exact State.modInst_keeps hS ‹_›
  intro hx
  clear_value x
  extract_lets +onlyGivenNames x
  clear_value x
  extract_lets +onlyGivenNames x
  clear_value x
  extract_lets +onlyGivenNames x
  refine cut_value (p := P x) ?_ ?_
  · subst x
    exact State.putEntry_keeps hS ‹_›
  intro hx
  clear_value x
  extract_lets +onlyGivenNames x
  refine cut_value (p := P x) ?_ ?_
  · subst x
    exact State.modInst_keeps hS ‹_›
  intro hx
  clear_value x
  extract_lets +onlyGivenNames x
  clear_value x
  extract_lets +onlyGivenNames x
  refine cut_value (p := P x) ?_ ?_
  · subst x
    refine ite_keeps (P := P) ?_ ?_
    · refine State.raiseAfterBy_keeps hS ?_ ?_
      · intro a
        intro a
        intro a
        apply hr
        assumption
      · assumption
    · assumption
  intro hx
  clear_value x
  extract_lets +onlyGivenNames x
  refine cut_value (p := P x) ?_ ?_
  · subst x
    exact State.modInst_keeps hS ‹_›
  intro hx
  clear_value x
  refine ite_keeps (P := P) ?_ ?_
  · assumption
  · refine ite_keeps (P := P) ?_ ?_
    · refine ite_keeps (P := P) ?_ ?_
      · refine State.raiseAfterBy_keeps hS ?_ ?_
        · intro a
          intro a
          intro a
          apply hr
          assumption
        · assumption
      · assumption
    · exact State.addSat_keeps hS (State.setBit_keeps hS ‹_›)

theorem State.eventBy_keeps {P r s i code subject detail} (hS : Stable P) (hr : ∀ u0 u1, P u0 → P (r u0 u1)) (hs : P s) :
    P (State.eventBy r s i code subject detail) := by
  unfold State.eventBy
  refine State.eventAtBy_keeps hS ?_ ?_
  · intro a
    intro a
    intro a
    apply hr
    assumption
  · assumption

theorem State.startResyncBy_keeps {P r s ctx} (hS : Stable P) (hr : ∀ u0 u1, P u0 → P (r u0 u1)) (hs : P s) :
    P (State.startResyncBy r s ctx) := by
  unfold State.startResyncBy
  extract_lets +onlyGivenNames x
  refine cut_value (p := P x) ?_ ?_
  · subst x
    exact State.modFlow_keeps hS ‹_›
  intro hx
  clear_value x
  split
  · assumption
  · extract_lets +onlyGivenNames x
    refine cut_value (p := P x) ?_ ?_
    · subst x
      refine ite_keeps (P := P) ?_ ?_
      · assumption
      · refine State.eventBy_keeps hS ?_ ?_
        · intro a
          intro a
          intro a
          apply hr
          assumption
        · assumption
    intro hx
    clear_value x
    refine State.emit_keeps hS (State.eventBy_keeps hS ?_ ?_)
    · intro a
      intro a
      intro a
      apply hr
      assumption
    · assumption

theorem State.toggleUnknownBy_keeps {P r s ctx} (hS : Stable P) (hr : ∀ u0 u1, P u0 → P (r u0 u1)) (hs : P s) :
    P (State.toggleUnknownBy r s ctx) := by
  unfold State.toggleUnknownBy
  extract_lets +onlyGivenNames x
  refine cut_value (p := P x) ?_ ?_
  · subst x
    exact State.modFlow_keeps hS ‹_›
  intro hx
  clear_value x
  refine ite_keeps (P := P) ?_ ?_
  · refine State.startResyncBy_keeps hS ?_ ?_
    · intro a
      intro a
      intro a
      apply hr
      assumption
    · assumption
  · assumption

theorem State.holdAcceptedBy_keeps {P r s} (hS : Stable P) (hr : ∀ u0 u1, P u0 → P (r u0 u1)) (hs : P s) :
    P (State.holdAcceptedBy r s) := by
  unfold State.holdAcceptedBy
  refine foldl_keeps (P := P) (fun a b h => ?_) ?_
  · extract_lets +onlyGivenNames x
    clear_value x
    extract_lets +onlyGivenNames x
    refine cut_value (p := P x) ?_ ?_
    · subst x
      refine State.finishBy_keeps hS ?_ ?_
      · intro a
        intro a
        intro a
        apply hr
        assumption
      · assumption
    intro hx
    clear_value x
    refine ite_keeps (P := P) ?_ ?_
    · apply hr
      refine State.setBit_keeps hS (State.toggleUnknownBy_keeps hS ?_ ?_)
      · intro a
        intro a
        intro a
        apply hr
        assumption
      · assumption
    · assumption
  · assumption

theorem State.pend_keeps {P s src} (hS : Stable P) (hs : P s) :
    P (State.pend s src) := by
  unfold State.pend
  extract_lets +onlyGivenNames x
  clear_value x
  exact ite_keeps (P := P) (State.addSat_keeps hS ‹_›) (Stable.upd hS rfl ‹_› (List.suffix_refl _) id id id (BitVec.le_refl _) id)

theorem State.raiseAgain_keeps {P s src} (hS : Stable P) (hs : P s) :
    P (State.raiseAgain s src) := by
  unfold State.raiseAgain
  extract_lets +onlyGivenNames x
  clear_value x
  extract_lets +onlyGivenNames x
  refine cut_value (p := P x) ?_ ?_
  · subst x
    exact ite_keeps (P := P) (State.stopBurst_keeps hS (Stable.upd hS rfl ‹_› (List.suffix_refl _) id id id (BitVec.le_refl _) id)) ‹_›
  intro hx
  clear_value x
  exact State.pend_keeps hS ‹_›

theorem State.handsBack_keeps {P s p} (hS : Stable P) (hs : P s) :
    P (State.handsBack s p) := by
  unfold State.handsBack
  extract_lets +onlyGivenNames x
  subst x
  dsimp -zeta -zetaDelta only
  exact Stable.upd hS rfl ‹_› (List.suffix_refl _) id (ksorted_map _ _ (fun _ => by split <;> rfl)) id (BitVec.le_refl _) id

theorem State.stopTraffic_keeps {P s} (hS : Stable P) (hs : P s) :
    P (State.stopTraffic s) := by
  unfold State.stopTraffic
  extract_lets +onlyGivenNames x
  clear_value x
  extract_lets +onlyGivenNames x
  refine cut_value (p := P x) ?_ ?_
  · subst x
    exact Stable.upd hS rfl ‹_› (List.suffix_refl _) id id id (BitVec.le_refl _) id
  intro hx
  clear_value x
  extract_lets +onlyGivenNames x
  clear_value x
  extract_lets +onlyGivenNames x
  clear_value x
  extract_lets +onlyGivenNames x
  refine cut_value (p := P x) ?_ ?_
  · subst x
    refine State.holdAcceptedBy_keeps hS ?_ ?_
    · intro a
      intro a
      intro a
      exact State.raiseAgain_keeps hS ‹_›
    · assumption
  intro hx
  clear_value x
  extract_lets +onlyGivenNames x
  clear_value x
  extract_lets +onlyGivenNames x
  clear_value x
  extract_lets +onlyGivenNames x
  refine cut_value (p := P x) ?_ ?_
  · subst x
    exact State.handsBack_keeps hS ‹_›
  intro hx
  clear_value x
  extract_lets +onlyGivenNames x
  exact Stable.upd hS rfl ‹_› (List.suffix_refl _) id id id (BitVec.le_refl _) id

theorem State.clearPtbBy_keeps {P r s} (hS : Stable P) (hr : ∀ u0 u1, P u0 → P (r u0 u1)) (hs : P s) :
    P (State.clearPtbBy r s) := by
  unfold State.clearPtbBy
  extract_lets +onlyGivenNames x
  clear_value x
  extract_lets +onlyGivenNames x
  refine cut_value (p := P x) ?_ ?_
  · subst x
    exact foldl_keeps (P := P) (fun a b h => (State.setReg_keeps hS ‹_›)) ‹_›
  intro hx
  clear_value x
  extract_lets +onlyGivenNames x
  refine cut_value (p := P x) ?_ ?_
  · subst x
    exact foldl_keeps (P := P) (fun a b h => (State.setReg_keeps hS ‹_›)) ‹_›
  intro hx
  clear_value x
  extract_lets +onlyGivenNames x
  refine cut_value (p := P x) ?_ ?_
  · subst x
    exact State.setPair_keeps hS ‹_›
  intro hx
  clear_value x
  refine ite_keeps (P := P) ?_ ?_
  · apply hr
    exact Stable.upd hS rfl ‹_› (List.suffix_refl _) id id id (BitVec.le_refl _) id
  · assumption

/-- Within a STOP trigger a change of mode is the new mode, the old one's change dropped, and then steady. -/
theorem State.setModeBy_steady {s : State} {m : Mode} (h : s.pmu.mode ≠ m) :
    ({ s with pmu := { s.pmu with mode := m, target := m, changing := false } } : State).Steady (s.setModeBy State.raiseAgain m) := by
  unfold State.setModeBy
  extract_lets old p a b between
  split
  · exact absurd ‹_› h
  · have hS := State.Steady.stable a
    have hr : ∀ t n, a.Steady t → a.Steady (State.raiseAgain t n) := fun _ _ k => State.raiseAgain_keeps hS k
    have hb : a.Steady b := State.eventBy_keeps hS hr (State.setBit_keeps hS (.refl a))
    exact hr _ _ (ite_keeps (P := a.Steady) hb (State.clearPtbBy_keeps hS hr hb))

/-- What it does to the drive. -/
theorem State.setModeBy_drive {s : State} {m : Mode} (h : s.pmu.mode ≠ m) :
    (s.setModeBy State.raiseAgain m).drive = ⟨s.stop.latched, m, m, false, s.pmu.entry.map (·.mode)⟩ := (State.setModeBy_steady h).drive

theorem State.setModeBy_kept {s : State} {m : Mode} (h : s.pmu.mode ≠ m) : s.Kept (s.setModeBy State.raiseAgain m) := by
  have k := (State.setModeBy_steady h).kept
  exact ⟨k.pending, k.out, k.regs, k.flows, k.insts, k.rollback, k.revoked⟩


theorem State.setModeBy_keeps {P r s m} (hM : Mobile P) (hr : ∀ t n, P t → P (r t n)) (hs : P s)
    (ha : P { s with pmu := { s.pmu with mode := m, target := m, changing := false } }) : P (State.setModeBy r s m) := by
  have hS := hM.stable
  unfold State.setModeBy
  extract_lets old p a b between
  split
  · exact hs
  · have hb : P b := State.eventBy_keeps hS hr (State.setBit_keeps hS ha)
    exact hr _ _ (ite_keeps (P := P) hb (State.clearPtbBy_keeps hS hr hb))

/-- A trigger leaves Run, and changes nothing else of the drive but the latch. -/
theorem State.stopTrigger_follows (s : State) (reason : BitVec 4) (skip : Option Side) : s.Follows (s.stopTrigger reason skip) := by
  unfold State.stopTrigger
  extract_lets fresh q t u v w
  have ht : s.Kept t := by
    subst t
    exact ite_keeps (P := s.Kept) ⟨rfl, List.suffix_refl _, id, id, id, BitVec.le_refl _, id⟩ (.refl s)
  have hd : t.drive = ⟨t.stop.latched, s.pmu.mode, s.pmu.target, s.pmu.changing, s.pmu.entry.map (·.mode)⟩ := by
    subst t
    split <;> rfl
  have hS := State.Steady.stable t
  have hu : t.Steady u := State.stopBurst_keeps hS (.refl t)
  have hv : t.Steady v := by
    subst v
    exact ite_keeps (P := t.Steady) (State.stopTraffic_keeps hS hu) hu
  have hvd : v.drive = _ := hv.drive.trans hd
  have hw : s.Follows w := by
    subst w
    split
    · rename_i hr
      have hne : v.pmu.mode ≠ .hold := by rw [hr]; exact nofun
      refine ⟨(ht.trans hv.kept).trans (State.setModeBy_kept hne), fun ok => ?_⟩
      rw [State.setModeBy_drive hne]
      refine ⟨fun _ => nofun, nofun, fun m hm => ok.entry m ?_⟩
      exact (congrArg Drive.entry hvd).symm.trans hm
    · rename_i hr
      refine ⟨ht.trans hv.kept, fun ok => ⟨fun _ => hr, fun hc => ?_, fun m hm => ok.entry m ?_⟩⟩
      · rw [hvd] at hc ⊢
        exact ok.wake hc
      · exact (congrArg Drive.entry hvd).symm.trans hm
  have hM := State.Follows.mobile s
  exact ite_keeps (P := s.Follows) (State.raiseAgain_keeps hM.stable (State.setBit_keeps hM.stable hw)) hw

theorem State.stopTrigger_keeps {P s reason skip} (hM : Mobile P) (hs : P s) :
    P (State.stopTrigger s reason skip) := hM s _ hs (State.stopTrigger_follows s reason skip)

theorem State.raise_keeps {P s src} (hM : Mobile P) (hs : P s) :
    P (State.raise s src) := by
  have hS := hM.stable
  unfold State.raise
  extract_lets +onlyGivenNames x
  clear_value x
  extract_lets +onlyGivenNames x
  refine cut_value (p := P x) ?_ ?_
  · subst x
    exact ite_keeps (P := P) (State.stopTrigger_keeps hM (Stable.upd hS rfl ‹_› (List.suffix_refl _) id id id (BitVec.le_refl _) id)) ‹_›
  intro hx
  clear_value x
  exact State.pend_keeps hS ‹_›

theorem State.happen_keeps {P s f src k} (hM : Mobile P) (hs : P s) :
    P (State.happen s f src k) := by
  have hS := hM.stable
  unfold State.happen
  exact State.raise_keeps hM (State.setBit_keeps hS ‹_›)

theorem State.event_keeps {P s i code subject detail} (hM : Mobile P) (hs : P s) :
    P (State.event s i code subject detail) := by
  have hS := hM.stable
  unfold State.event
  refine State.eventBy_keeps hS ?_ ?_
  · intro a
    intro a
    intro a
    exact State.raise_keeps hM ‹_›
  · assumption

theorem State.escalateNow_keeps {P s cat cause} (hM : Mobile P) (hs : P s) :
    P (State.escalateNow s cat cause) := by
  have hS := hM.stable
  unfold State.escalateNow
  extract_lets +onlyGivenNames x
  clear_value x
  refine ite_keeps (P := P) (Stable.upd hS rfl ‹_› (List.suffix_refl _) id id id (BitVec.le_refl _) id) ?_
  extract_lets +onlyGivenNames x
  refine cut_value (p := P x) ?_ ?_
  · subst x
    exact State.stopTrigger_keeps hM ‹_›
  intro hx
  clear_value x
  exact State.raise_keeps hM (Stable.upd hS rfl ‹_› (List.suffix_refl _) id id id (BitVec.le_refl _) id)

theorem State.escalate_keeps {P s cat cause} (hM : Mobile P) (hs : P s) :
    P (State.escalate s cat cause) := by
  have hS := hM.stable
  unfold State.escalate
  extract_lets +onlyGivenNames x
  clear_value x
  extract_lets +onlyGivenNames x
  refine cut_value (p := P x) ?_ ?_
  · subst x
    exact Stable.upd hS rfl ‹_› (List.suffix_refl _) id id id (BitVec.le_refl _) id
  intro hx
  clear_value x
  extract_lets +onlyGivenNames x
  exact ite_keeps (P := P) (Stable.upd hS rfl ‹_› (List.suffix_refl _) id id id (BitVec.le_refl _) id) (State.escalateNow_keeps hM ‹_›)

theorem State.error_keeps {P s cat code source cls detail} (hM : Mobile P) (hs : P s) :
    P (State.error s cat code source cls detail) := by
  have hS := hM.stable
  unfold State.error
  extract_lets +onlyGivenNames x
  refine cut_value (p := P x) ?_ ?_
  · subst x
    exact State.addSat_keeps hS ‹_›
  intro hx
  clear_value x
  extract_lets +onlyGivenNames x
  clear_value x
  extract_lets +onlyGivenNames x
  clear_value x
  extract_lets +onlyGivenNames x
  subst x
  dsimp -zeta -zetaDelta only
  extract_lets +onlyGivenNames x
  subst x
  dsimp -zeta -zetaDelta only
  extract_lets +onlyGivenNames x
  clear_value x
  split
  · assumption
  · extract_lets +onlyGivenNames x
    refine cut_value (p := P x) ?_ ?_
    · subst x
      exact Stable.upd hS rfl ‹_› (List.suffix_refl _) id id id (BitVec.le_refl _) id
    intro hx
    clear_value x
    extract_lets +onlyGivenNames x
    refine cut_value (p := P x) ?_ ?_
    · subst x
      exact ite_keeps (P := P) (ite_keeps (P := P) ‹_› (State.event_keeps hM ‹_›)) (State.event_keeps hM (State.raise_keeps hM (Stable.upd hS rfl ‹_› (List.suffix_refl _) id id id (BitVec.le_refl _) id)))
    intro hx
    clear_value x
    extract_lets +onlyGivenNames x
    clear_value x
    extract_lets +onlyGivenNames x
    refine cut_value (p := P x) ?_ ?_
    · subst x
      exact ite_keeps (P := P) (Stable.upd hS rfl ‹_› (List.suffix_refl _) id id id (BitVec.le_refl _) id) ‹_›
    intro hx
    clear_value x
    exact ite_keeps (P := P) (State.escalate_keeps hM ‹_›) (ite_keeps (P := P) (State.escalate_keeps hM ‹_›) ‹_›)

theorem State.raiseAfter_keeps {P s src} (hM : Mobile P) (hs : P s) :
    P (State.raiseAfter s src) := by
  have hS := hM.stable
  unfold State.raiseAfter
  refine State.raiseAfterBy_keeps hS ?_ ?_
  · intro a
    intro a
    intro a
    exact State.raise_keeps hM ‹_›
  · assumption

theorem State.modXfer_keeps {P s ctx i g} (hS : Stable P) (hs : P s) :
    P (State.modXfer s ctx i g) := by
  unfold State.modXfer
  exact State.modFlow_keeps hS ‹_›

theorem State.finish_keeps {P s ctx i st length effect} (hM : Mobile P) (hs : P s) :
    P (State.finish s ctx i st length effect) := by
  have hS := hM.stable
  unfold State.finish
  refine State.finishBy_keeps hS ?_ ?_
  · intro a
    intro a
    intro a
    exact State.raise_keeps hM ‹_›
  · assumption

theorem State.finishAll_keeps {P s xs st} (hM : Mobile P) (hs : P s) :
    P (State.finishAll s xs st) := by
  have hS := hM.stable
  unfold State.finishAll
  exact foldl_keeps (P := P) (fun a b h => (State.finish_keeps hM ‹_›)) ‹_›

theorem State.raiseOpt_keeps {P s a_1} (hM : Mobile P) (hs : P s) :
    P (State.raiseOpt s a_1) := by
  have hS := hM.stable
  unfold State.raiseOpt
  split
  · exact State.raise_keeps hM ‹_›
  · assumption

theorem State.ptbRefresh_keeps {P s} (hM : Mobile P) (hs : P s) :
    P (State.ptbRefresh s) := by
  have hS := hM.stable
  unfold State.ptbRefresh
  extract_lets +onlyGivenNames x
  clear_value x
  extract_lets +onlyGivenNames x
  clear_value x
  extract_lets +onlyGivenNames x
  refine cut_value (p := P x) ?_ ?_
  · subst x
    exact State.setFld_keeps hS (State.setFld_keeps hS (Stable.upd hS rfl ‹_› (List.suffix_refl _) id id id (BitVec.le_refl _) id))
  intro hx
  clear_value x
  exact ite_keeps (P := P) ‹_› (ite_keeps (P := P) (State.raise_keeps hM (State.setPair_keeps hS ‹_›)) (State.raise_keeps hM (State.setPair_keeps hS ‹_›)))

/-- A change of mode keeps the drive in order where it does not enter Run under the latch. -/
theorem State.setMode_follows {s₀ s : State} {m : Mode} (h : s₀.Follows s)
    (hm : s₀.drive.Ok → m = .run → s.stop.latched = false) : s₀.Follows (s.setMode m) := by
  have hM := State.Follows.mobile s₀
  refine State.setModeBy_keeps hM (fun _ _ h => State.raise_keeps hM h) h
    ⟨h.kept.trans ⟨rfl, List.suffix_refl _, id, id, id, BitVec.le_refl _, id⟩, fun ok => ⟨fun hl hr => ?_, nofun, (h.drive ok).entry⟩⟩
  have hf := hm ok hr
  rw [show s.stop.latched = true from hl] at hf
  exact nomatch hf

theorem State.setMode_keeps {P s m} (hM : Mobile P) (hs : P s) (hm : s.drive.Ok → m = .run → s.stop.latched = false) :
    P (State.setMode s m) := hM s _ hs (State.setMode_follows (.refl s) hm)

theorem State.eventAt_keeps {P s i code subject time detail} (hM : Mobile P) (hs : P s) :
    P (State.eventAt s i code subject time detail) := by
  have hS := hM.stable
  unfold State.eventAt
  refine State.eventAtBy_keeps hS ?_ ?_
  · intro a
    intro a
    intro a
    exact State.raise_keeps hM ‹_›
  · assumption

theorem State.rebuildHeld_keeps {P s} (hS : Stable P) (hs : P s) :
    P (State.rebuildHeld s) := by
  unfold State.rebuildHeld
  extract_lets +onlyGivenNames x
  subst x
  dsimp -zeta -zetaDelta only
  extract_lets +onlyGivenNames x
  refine cut_value (p := P x) ?_ ?_
  · subst x
    exact State.handsBack_keeps hS ‹_›
  intro hx
  clear_value x
  exact Stable.upd hS rfl ‹_› (List.suffix_refl _) id id id (BitVec.le_refl _) id

theorem State.enterHold_keeps {P s} (hM : Mobile P) (hs : P s) :
    P (State.enterHold s) := by
  have hS := hM.stable
  unfold State.enterHold
  refine ite_keeps (P := P) ?_ ?_
  · refine State.setMode_keeps hM ?_ ?_
    · refine State.rebuildHeld_keeps hS (State.holdAcceptedBy_keeps hS ?_ ?_)
      · intro a
        intro a
        intro a
        exact State.raise_keeps hM ‹_›
      · assumption
    · exact fun _ h => nomatch h
  · assumption

theorem State.startResync_keeps {P s ctx} (hM : Mobile P) (hs : P s) :
    P (State.startResync s ctx) := by
  have hS := hM.stable
  unfold State.startResync
  refine State.startResyncBy_keeps hS ?_ ?_
  · intro a
    intro a
    intro a
    exact State.raise_keeps hM ‹_›
  · assumption

theorem State.toggleUnknown_keeps {P s ctx} (hM : Mobile P) (hs : P s) :
    P (State.toggleUnknown s ctx) := by
  have hS := hM.stable
  unfold State.toggleUnknown
  refine State.toggleUnknownBy_keeps hS ?_ ?_
  · intro a
    intro a
    intro a
    exact State.raise_keeps hM ‹_›
  · assumption

end Sys2Proof.Machine
end

