-- ==== Sys2Proof/Laws/KeepsComplete.lean ====
section
/-!
SUPPORT. What the operations and meanings of Machine/Complete.lean keep (see Laws/Follows.lean): steady ones any `Stable` property, the others any
`Mobile` one.
-/

set_option linter.tactic.unusedName false
set_option linter.unusedVariables false

namespace Sys2Proof.Machine

theorem State.raiseMb_keeps {P s i sig} (hM : Mobile P) (hs : P s) :
    P (State.raiseMb s i sig) := by
  have hS := hM.stable
  unfold State.raiseMb
  exact ite_keeps (P := P) (State.raiseAfter_keeps hM ‹_›) ‹_›

theorem State.writeCopies_keeps {P s i dups body flags bad} (hM : Mobile P) (hs : P s) :
    P (State.writeCopies s i dups body flags bad) := by
  have hS := hM.stable
  unfold State.writeCopies
  refine foldl_keeps (P := P) (fun a b h => ?_) ?_
  · extract_lets +onlyGivenNames x
    refine cut_value (p := P x) ?_ ?_
    · subst x
      exact State.putEntry_keeps hS ‹_›
    intro hx
    clear_value x
    extract_lets +onlyGivenNames x
    refine cut_value (p := P x) ?_ ?_
    · subst x
      exact State.modInst_keeps hS ‹_›
    intro hx
    clear_value x
    exact State.raiseMb_keeps hM ‹_›
  · assumption

theorem State.complete_keeps {P s i idx status result bad} (hM : Mobile P) (hs : P s) :
    P (State.complete s i idx status result bad) := by
  have hS := hM.stable
  unfold State.complete
  extract_lets +onlyGivenNames x
  clear_value x
  split
  · assumption
  · extract_lets +onlyGivenNames x
    clear_value x
    extract_lets +onlyGivenNames x
    clear_value x
    extract_lets +onlyGivenNames x
    clear_value x
    extract_lets +onlyGivenNames x
    refine cut_value (p := P x) ?_ ?_
    · subst x
      exact State.putEntry_keeps hS ‹_›
    intro hx
    clear_value x
    extract_lets +onlyGivenNames x
    refine cut_value (p := P x) ?_ ?_
    · subst x
      exact State.modInst_keeps hS ‹_›
    intro hx
    clear_value x
    extract_lets +onlyGivenNames x
    refine cut_value (p := P x) ?_ ?_
    · subst x
      exact State.raiseMb_keeps hM ‹_›
    intro hx
    clear_value x
    exact ite_keeps (P := P) ‹_› (State.writeCopies_keeps hM ‹_›)

theorem State.modTaken_keeps {P s i idx f} (hS : Stable P) (hs : P s) :
    P (State.modTaken s i idx f) := by
  unfold State.modTaken
  exact State.modInst_keeps hS ‹_›

theorem State.treeCmds_keeps {P s t} (hM : Mobile P) (hs : P s) :
    P (State.treeCmds s t) := by
  have hS := hM.stable
  unfold State.treeCmds
  exact ite_keeps (P := P) ‹_› (foldl_keeps (P := P) (fun a b h => (State.complete_keeps hM ‹_›)) ‹_›)

theorem State.settle_keeps {P s p} (hM : Mobile P) (hs : P s) :
    P (State.settle s p) := by
  have hS := hM.stable
  unfold State.settle
  split
  · assumption
  · extract_lets +onlyGivenNames x
    clear_value x
    extract_lets +onlyGivenNames x
    clear_value x
    extract_lets +onlyGivenNames x
    refine cut_value (p := P x) ?_ ?_
    · subst x
      exact foldl_keeps (P := P) (fun a b h => (State.complete_keeps hM ‹_›)) ‹_›
    intro hx
    clear_value x
    split
    · exact State.treeCmds_keeps hM ‹_›
    · assumption

theorem State.done_keeps {P s c status result bad} (hM : Mobile P) (hs : P s) :
    P (State.done s c status result bad) := by
  have hS := hM.stable
  unfold State.done
  exact State.complete_keeps hM ‹_›

end Sys2Proof.Machine
end

