-- ==== Sys2Proof/Laws/KeepsGutter.lean ====
section
/-!
SUPPORT. What the operations and meanings of Machine/Gutter.lean keep (see Laws/Follows.lean): steady ones any `Stable` property, the others any
`Mobile` one.
-/

set_option linter.tactic.unusedName false
set_option linter.unusedVariables false

namespace Sys2Proof.Machine

theorem State.askWake_keeps {P s} (hM : Mobile P) (hs : P s) :
    P (State.askWake s) := by
  have hS := hM.stable
  unfold State.askWake
  extract_lets +onlyGivenNames x
  clear_value x
  exact ite_keeps (P := P) (ite_keeps (P := P) (State.happen_keeps hM (State.emit_keeps hS (Stable.upd hS rfl ‹_› (List.suffix_refl _) id id id (BitVec.le_refl _) id))) ‹_›) (ite_keeps (P := P) (State.happen_keeps hM (State.emit_keeps hS ‹_›)) ‹_›)

theorem State.badAccess_keeps {P s bar2 ofs reason} (hS : Stable P) (hs : P s) :
    P (State.badAccess s bar2 ofs reason) := by
  unfold State.badAccess
  extract_lets +onlyGivenNames x
  refine cut_value (p := P x) ?_ ?_
  · subst x
    exact State.setFld_keeps hS ‹_›
  intro hx
  clear_value x
  extract_lets +onlyGivenNames x
  refine cut_value (p := P x) ?_ ?_
  · subst x
    exact State.setFld_keeps hS ‹_›
  intro hx
  clear_value x
  extract_lets +onlyGivenNames x
  refine cut_value (p := P x) ?_ ?_
  · subst x
    exact State.setFld_keeps hS ‹_›
  intro hx
  clear_value x
  exact State.setBit_keeps hS (State.addSat_keeps hS ‹_›)

theorem State.flushPosted_keeps {P s} (hM : Mobile P) (hs : P s) :
    P (State.flushPosted s) := by
  have hS := hM.stable
  unfold State.flushPosted
  extract_lets +onlyGivenNames x
  clear_value x
  refine ite_keeps (P := P) ?_ ?_
  · refine foldl_keeps (P := P) (fun a b h => ?_) ?_
    · split
      · exact State.emit_keeps hS ‹_›
      · exact State.raise_keeps hM ‹_›
    · exact Stable.upd hS rfl ‹_› (List.suffix_refl _) id id id (BitVec.le_refl _) id
  · assumption

theorem State.pageGate_keeps {P s n ofs} (hS : Stable P) (hs : P s) :
    OptAll P (State.pageGate s n ofs) := by
  unfold State.pageGate
  split
  · exact OptAll.some (State.badAccess_keeps hS ‹_›)
  · exact OptAll.some (State.badAccess_keeps hS ‹_›)
  · exact OptAll.none

theorem State.sendMsix_keeps {P s vec} (hS : Stable P) (hs : P s) :
    P (State.sendMsix s vec) := by
  unfold State.sendMsix
  extract_lets +onlyGivenNames x
  clear_value x
  exact State.post_keeps hS ‹_›

theorem State.messageOrPba_keeps {P s vec} (hS : Stable P) (hs : P s) :
    P (State.messageOrPba s vec) := by
  unfold State.messageOrPba
  extract_lets +onlyGivenNames x
  clear_value x
  exact ite_keeps (P := P) (Stable.upd hS rfl ‹_› (List.suffix_refl _) id id id (BitVec.le_refl _) id) (State.sendMsix_keeps hS ‹_›)

theorem State.deliverVec_keeps {P s vec} (hM : Mobile P) (hs : P s) :
    P (State.deliverVec s vec) := by
  have hS := hM.stable
  unfold State.deliverVec
  extract_lets +onlyGivenNames x
  clear_value x
  extract_lets +onlyGivenNames x
  clear_value x
  extract_lets +onlyGivenNames x
  refine cut_value (p := P x) ?_ ?_
  · subst x
    exact Stable.upd hS rfl ‹_› (List.suffix_refl _) id id id (BitVec.le_refl _) id
  intro hx
  clear_value x
  exact ite_keeps (P := P) (State.messageOrPba_keeps hS ‹_›) (ite_keeps (P := P) (State.askWake_keeps hM ‹_›) ‹_›)

theorem State.deliverCore_keeps {P s src c fast} (hS : Stable P) (hs : P s) :
    P (State.deliverCore s src c fast) := by
  unfold State.deliverCore
  extract_lets +onlyGivenNames x
  clear_value x
  extract_lets +onlyGivenNames x
  subst x
  extract_lets +onlyGivenNames x
  clear_value x
  extract_lets +onlyGivenNames x
  refine cut_value (p := P x) ?_ ?_
  · subst x
    exact Stable.upd hS rfl ‹_› (List.suffix_refl _) id id id (BitVec.le_refl _) id
  intro hx
  clear_value x
  extract_lets +onlyGivenNames x
  extract_lets +onlyGivenNames x
  refine cut_value (p := P x) ?_ ?_
  · subst x
    exact ite_keeps (P := P) (Stable.upd hS rfl ‹_› (List.suffix_refl _) id id id (BitVec.le_refl _) id) ‹_›
  intro hx
  clear_value x
  exact State.emit_keeps hS ‹_›

theorem State.decideFor_keeps {P s src m} (hM : Mobile P) (hs : P s) :
    P (State.decideFor s src m) := by
  have hS := hM.stable
  unfold State.decideFor
  extract_lets +onlyGivenNames x
  clear_value x
  extract_lets +onlyGivenNames x
  clear_value x
  extract_lets +onlyGivenNames x
  clear_value x
  extract_lets +onlyGivenNames x
  subst x
  dsimp -zeta -zetaDelta only
  extract_lets +onlyGivenNames x
  clear_value x
  extract_lets +onlyGivenNames x
  clear_value x
  extract_lets +onlyGivenNames x
  clear_value x
  extract_lets +onlyGivenNames x
  refine cut_value (p := P x) ?_ ?_
  · subst x
    exact Stable.upd hS rfl ‹_› (List.suffix_refl _) id id id (BitVec.le_refl _) id
  intro hx
  clear_value x
  extract_lets +onlyGivenNames x
  refine cut_value (p := P x) ?_ ?_
  · subst x
    exact State.addSat_keeps hS ‹_›
  intro hx
  clear_value x
  exact ite_keeps (P := P) (State.deliverVec_keeps hM ‹_›) (State.deliverCore_keeps hS ‹_›)

theorem State.modCore_keeps {P s c f} (hS : Stable P) (hs : P s) :
    P (State.modCore s c f) := by
  unfold State.modCore
  extract_lets +onlyGivenNames x
  clear_value x
  exact Stable.upd hS rfl ‹_› (List.suffix_refl _) id id id (BitVec.le_refl _) id

theorem State.msixWrite_keeps {P s idx v} (hS : Stable P) (hs : P s) :
    P (State.msixWrite s idx v) := by
  unfold State.msixWrite
  extract_lets +onlyGivenNames x
  clear_value x
  extract_lets +onlyGivenNames x
  clear_value x
  extract_lets +onlyGivenNames x
  clear_value x
  extract_lets +onlyGivenNames x
  clear_value x
  extract_lets +onlyGivenNames x
  refine cut_value (p := P x) ?_ ?_
  · subst x
    exact Stable.upd hS rfl ‹_› (List.suffix_refl _) id id id (BitVec.le_refl _) id
  intro hx
  clear_value x
  extract_lets +onlyGivenNames x
  clear_value x
  exact ite_keeps (P := P) (State.sendMsix_keeps hS (Stable.upd hS rfl ‹_› (List.suffix_refl _) id id id (BitVec.le_refl _) id)) ‹_›

theorem State.releaseHeld_keeps {P s} (hS : Stable P) (hs : P s) :
    P (State.releaseHeld s) := by
  unfold State.releaseHeld
  extract_lets +onlyGivenNames x
  clear_value x
  extract_lets +onlyGivenNames x
  clear_value x
  extract_lets +onlyGivenNames x
  refine cut_value (p := P x) ?_ ?_
  · subst x
    exact Stable.upd hS rfl ‹_› (List.suffix_refl _) id id id (BitVec.le_refl _) id
  intro hx
  clear_value x
  refine ite_keeps (P := P) ?_ ?_
  · extract_lets +onlyGivenNames x
    refine foldl_keeps (P := P) (fun a b h => ?_) ?_
    · extract_lets +onlyGivenNames x
      refine cut_value (p := P x) ?_ ?_
      · subst x
        exact ite_keeps (P := P) (State.messageOrPba_keeps hS ‹_›) ‹_›
      intro hx
      clear_value x
      extract_lets +onlyGivenNames x
      clear_value x
      exact ite_keeps (P := P) (State.sendMsix_keeps hS (Stable.upd hS rfl ‹_› (List.suffix_refl _) id id id (BitVec.le_refl _) id)) ‹_›
    · assumption
  · assumption

theorem State.sigErr_keeps {P s w num reason} (hS : Stable P) (hs : P s) :
    P (State.sigErr s w num reason) := by
  unfold State.sigErr
  split
  · exact State.addSat_keeps hS (State.setFld_keeps hS (State.setFld_keeps hS ‹_›))
  · exact State.addSat_keeps hS (State.setFld_keeps hS (State.setFld_keeps hS ‹_›))

theorem State.sigWrite_keeps {P s w ofs v quiet act} (hS : Stable P) (hs : P s) (hact : ∀ u0 u1, P u0 → P (act u0 u1)) :
    P (State.sigWrite s w ofs v quiet act) := by
  unfold State.sigWrite
  extract_lets +onlyGivenNames x
  clear_value x
  extract_lets +onlyGivenNames x
  refine cut_value (p := P x) ?_ ?_
  · subst x
    split
    · refine ite_keeps (P := P) ?_ ?_
      · exact State.sigErr_keeps hS ‹_›
      · apply hact
        assumption
    · exact State.sigErr_keeps hS ‹_›
  intro hx
  clear_value x
  split
  · assumption
  · split
    · exact State.badAccess_keeps hS ‹_›
    · exact ite_keeps (P := P) ‹_› (State.badAccess_keeps hS ‹_›)
    · assumption

theorem State.sigMaskClr_keeps {P s w v} (hS : Stable P) (hs : P s) :
    P (State.sigMaskClr s w v) := by
  unfold State.sigMaskClr
  refine State.sigWrite_keeps hS ?_ ?_
  · assumption
  · intro a
    intro a
    intro a
    extract_lets +onlyGivenNames x
    clear_value x
    exact Stable.upd hS rfl ‹_› (List.suffix_refl _) id id id (BitVec.le_refl _) id

theorem State.sigMaskSet_keeps {P s w v} (hS : Stable P) (hs : P s) :
    P (State.sigMaskSet s w v) := by
  unfold State.sigMaskSet
  refine State.sigWrite_keeps hS ?_ ?_
  · assumption
  · intro a
    intro a
    intro a
    extract_lets +onlyGivenNames x
    clear_value x
    exact Stable.upd hS rfl ‹_› (List.suffix_refl _) id id id (BitVec.le_refl _) id

theorem State.sigPendClr_keeps {P s w v} (hS : Stable P) (hs : P s) :
    P (State.sigPendClr s w v) := by
  unfold State.sigPendClr
  refine State.sigWrite_keeps hS ?_ ?_
  · assumption
  · intro a
    intro a
    intro a
    extract_lets +onlyGivenNames x
    clear_value x
    exact Stable.upd hS rfl ‹_› (List.suffix_refl _) id id id (BitVec.le_refl _) id

theorem State.sigPendSet_keeps {P s w v} (hS : Stable P) (hs : P s) :
    P (State.sigPendSet s w v) := by
  unfold State.sigPendSet
  refine State.sigWrite_keeps hS ?_ ?_
  · assumption
  · intro a
    intro a
    intro a
    extract_lets +onlyGivenNames x
    clear_value x
    exact Stable.upd hS rfl ‹_› (List.suffix_refl _) id id id (BitVec.le_refl _) id

theorem State.sigPrio_keeps {P s i v} (hS : Stable P) (hs : P s) :
    P (State.sigPrio s i v) := by
  unfold State.sigPrio
  extract_lets +onlyGivenNames x
  clear_value x
  extract_lets +onlyGivenNames x
  clear_value x
  extract_lets +onlyGivenNames x
  clear_value x
  split
  · refine OptAll.elim (by assumption) ?_
    exact State.pageGate_keeps hS ‹_›
  · exact ite_keeps (P := P) (Stable.upd hS rfl ‹_› (List.suffix_refl _) id id id (BitVec.le_refl _) id) ‹_›

theorem State.sigRaise_keeps {P s w v} (hM : Mobile P) (hs : P s) :
    P (State.sigRaise s w v) := by
  have hS := hM.stable
  unfold State.sigRaise
  refine State.sigWrite_keeps hS ?_ ?_
  · assumption
  · intro a
    intro a
    intro a
    exact ite_keeps (P := P) (State.sigErr_keeps hS ‹_›) (State.raise_keeps hM ‹_›)

theorem State.sigSrcCfg_keeps {P s w v} (hS : Stable P) (hs : P s) :
    P (State.sigSrcCfg s w v) := by
  unfold State.sigSrcCfg
  extract_lets +onlyGivenNames x
  clear_value x
  extract_lets +onlyGivenNames x
  subst x
  dsimp -zeta -zetaDelta only
  split
  · refine ite_keeps (P := P) ?_ ?_
    · assumption
    · extract_lets +onlyGivenNames x
      refine State.sigWrite_keeps hS ?_ ?_
      · assumption
      · intro a
        intro a
        intro a
        extract_lets +onlyGivenNames x
        clear_value x
        exact ite_keeps (P := P) ‹_› (ite_keeps (P := P) (Stable.upd hS rfl ‹_› (List.suffix_refl _) id id id (BitVec.le_refl _) id) (State.sigErr_keeps hS ‹_›))
  · refine State.sigWrite_keeps hS ?_ ?_
    · assumption
    · intro a
      intro a
      intro a
      extract_lets +onlyGivenNames x
      clear_value x
      exact ite_keeps (P := P) ‹_› (ite_keeps (P := P) (Stable.upd hS rfl ‹_› (List.suffix_refl _) id id id (BitVec.le_refl _) id) (State.sigErr_keeps hS ‹_›))

theorem execSigRaise_keeps {P w v s} (hM : Mobile P) (hs : P s) :
    ResAll P (execSigRaise w v s) := by
  have hS := hM.stable
  unfold execSigRaise
  exact ResAll.next (State.sigRaise_keeps hM ‹_›)

theorem execSigPendSet_keeps {P w v s} (hS : Stable P) (hs : P s) :
    ResAll P (execSigPendSet w v s) := by
  unfold execSigPendSet
  exact ResAll.next (State.sigPendSet_keeps hS ‹_›)

theorem execSigPendClr_keeps {P w v s} (hS : Stable P) (hs : P s) :
    ResAll P (execSigPendClr w v s) := by
  unfold execSigPendClr
  exact ResAll.next (State.sigPendClr_keeps hS ‹_›)

theorem execSigMaskSet_keeps {P w v s} (hS : Stable P) (hs : P s) :
    ResAll P (execSigMaskSet w v s) := by
  unfold execSigMaskSet
  exact ResAll.next (State.sigMaskSet_keeps hS ‹_›)

theorem execSigMaskClr_keeps {P w v s} (hS : Stable P) (hs : P s) :
    ResAll P (execSigMaskClr w v s) := by
  unfold execSigMaskClr
  exact ResAll.next (State.sigMaskClr_keeps hS ‹_›)

theorem execSigSrcCfgWrite_keeps {P w v s} (hS : Stable P) (hs : P s) :
    ResAll P (execSigSrcCfgWrite w v s) := by
  unfold execSigSrcCfgWrite
  exact ResAll.next (State.sigSrcCfg_keeps hS ‹_›)

theorem execSigPrio_keeps {P i v s} (hS : Stable P) (hs : P s) :
    ResAll P (execSigPrio i v s) := by
  unfold execSigPrio
  exact ResAll.next (State.sigPrio_keeps hS ‹_›)

theorem execGutterDecision_keeps {P s} (hM : Mobile P) (hs : P s) :
    ResAll P (execGutterDecision s) := by
  have hS := hM.stable
  unfold execGutterDecision
  refine ResAll.next (ite_keeps (P := P) ?_ ?_)
  · split
    · exact State.decideFor_keeps hM ‹_›
    · split
      · exact State.decideFor_keeps hM ‹_›
      · assumption
  · assumption

theorem execHoldoffEnd_keeps {P group member s} (hS : Stable P) (hs : P s) :
    ResAll P (execHoldoffEnd group member s) := by
  unfold execHoldoffEnd
  extract_lets +onlyGivenNames x
  clear_value x
  exact ResAll.next (Stable.upd hS rfl ‹_› (List.suffix_refl _) id id id (BitVec.le_refl _) id)

theorem execCoreDeliveryTaken_keeps {P core s} (hS : Stable P) (hs : P s) :
    ResAll P (execCoreDeliveryTaken core s) := by
  unfold execCoreDeliveryTaken
  exact ResAll.next (State.modCore_keeps hS ‹_›)

theorem execPowerStateChange_keeps {P d pmeEn s} (hM : Mobile P) (hs : P s) :
    ResAll P (execPowerStateChange d pmeEn s) := by
  have hS := hM.stable
  unfold execPowerStateChange
  extract_lets +onlyGivenNames x
  clear_value x
  extract_lets +onlyGivenNames x
  refine cut_value (p := P x) ?_ ?_
  · subst x
    exact Stable.upd hS rfl ‹_› (List.suffix_refl _) id id id (BitVec.le_refl _) id
  intro hx
  clear_value x
  extract_lets +onlyGivenNames x
  clear_value x
  extract_lets +onlyGivenNames x
  clear_value x
  extract_lets +onlyGivenNames x
  refine cut_value (p := P x) ?_ ?_
  · subst x
    exact Stable.upd hS rfl ‹_› (List.suffix_refl _) id id id (BitVec.le_refl _) id
  intro hx
  clear_value x
  refine ResAll.next (ite_keeps (P := P) ?_ ?_)
  · assumption
  · split
    · exact ite_keeps (P := P) (State.setBit_keeps hS ‹_›) ‹_›
    · exact State.releaseHeld_keeps hS (State.flushPosted_keeps hM (Stable.upd hS rfl ‹_› (List.suffix_refl _) id id id (BitVec.le_refl _) id))

theorem execMsixControlChange_keeps {P enable mask s} (hS : Stable P) (hs : P s) :
    ResAll P (execMsixControlChange enable mask s) := by
  unfold execMsixControlChange
  extract_lets +onlyGivenNames x
  clear_value x
  exact ResAll.next (ite_keeps (P := P) ‹_› (State.releaseHeld_keeps hS (Stable.upd hS rfl ‹_› (List.suffix_refl _) id id id (BitVec.le_refl _) id)))

theorem execVectorUnmask_keeps {P v s} (hS : Stable P) (hs : P s) :
    ResAll P (execVectorUnmask v s) := by
  unfold execVectorUnmask
  exact ResAll.next (ite_keeps (P := P) ‹_› (State.msixWrite_keeps hS ‹_›))

theorem execFastBankRelease_keeps {P core s} (hS : Stable P) (hs : P s) :
    ResAll P (execFastBankRelease core s) := by
  unfold execFastBankRelease
  exact ResAll.next (State.modCore_keeps hS ‹_›)

end Sys2Proof.Machine
end

