-- ==== Sys2Proof/Laws/KeepsSched.lean ====
section
/-!
SUPPORT. What the operations and meanings of Machine/Sched.lean keep (see Laws/Follows.lean): steady ones any `Stable` property, the others any
`Mobile` one.
-/

set_option linter.tactic.unusedName false
set_option linter.unusedVariables false

namespace Sys2Proof.Machine

theorem State.dropTrace_keeps {P s} (hM : Mobile P) (hs : P s) :
    P (State.dropTrace s) := by
  have hS := hM.stable
  unfold State.dropTrace
  extract_lets +onlyGivenNames x
  clear_value x
  extract_lets +onlyGivenNames x
  refine cut_value (p := P x) ?_ ?_
  · subst x
    exact State.addSat_keeps hS ‹_›
  intro hx
  clear_value x
  extract_lets +onlyGivenNames x
  refine cut_value (p := P x) ?_ ?_
  · subst x
    exact Stable.upd hS rfl ‹_› (List.suffix_refl _) id id id (BitVec.le_refl _) id
  intro hx
  clear_value x
  exact ite_keeps (P := P) (State.raise_keeps hM ‹_›) ‹_›

theorem State.record_keeps {P s a_1} (hM : Mobile P) (hs : P s) :
    P (State.record s a_1) := by
  have hS := hM.stable
  unfold State.record
  extract_lets +onlyGivenNames x
  extract_lets +onlyGivenNames x
  extract_lets +onlyGivenNames x
  clear_value x
  extract_lets +onlyGivenNames x
  clear_value x
  extract_lets +onlyGivenNames x
  clear_value x
  extract_lets +onlyGivenNames x
  refine cut_value (p := P x) ?_ ?_
  · subst x
    exact State.post_keeps hS ‹_›
  intro hx
  clear_value x
  extract_lets +onlyGivenNames x
  refine cut_value (p := P x) ?_ ?_
  · subst x
    exact State.setFld_keeps hS ‹_›
  intro hx
  clear_value x
  extract_lets +onlyGivenNames x
  refine cut_value (p := P x) ?_ ?_
  · subst x
    exact Stable.upd hS rfl ‹_› (List.suffix_refl _) id id id (BitVec.le_refl _) id
  intro hx
  exact ite_keeps (P := P) ‹_› (ite_keeps (P := P) (ite_keeps (P := P) (Stable.upd hS rfl ‹_› (List.suffix_refl _) id id id (BitVec.le_refl _) id) (State.dropTrace_keeps hM ‹_›)) (ite_keeps (P := P) (ite_keeps (P := P) (State.raise_keeps hM ‹_›) ‹_›) (ite_keeps (P := P) (State.dropTrace_keeps hM ‹_›) (Stable.upd hS rfl ‹_› (List.suffix_refl _) id id id (BitVec.le_refl _) id))))

theorem State.recordFlow_keeps {P s ctx f reason engine lost aged} (hM : Mobile P) (hs : P s) :
    P (State.recordFlow s ctx f reason engine lost aged) := by
  have hS := hM.stable
  unfold State.recordFlow
  exact State.record_keeps hM ‹_›

theorem State.resolve_keeps {P s ctx f c n r} (hM : Mobile P) (hs : P s) :
    P (State.resolve s ctx f c n r) := by
  have hS := hM.stable
  unfold State.resolve
  extract_lets +onlyGivenNames x
  subst x
  dsimp -zeta -zetaDelta only
  extract_lets +onlyGivenNames x
  refine cut_value (p := P x) ?_ ?_
  · subst x
    exact State.recordFlow_keeps hM ‹_›
  intro hx
  clear_value x
  exact ite_keeps (P := P) (Stable.upd hS rfl ‹_› (List.suffix_refl _) id id id (BitVec.le_refl _) id) (Stable.upd hS rfl ‹_› (List.suffix_refl _) id id id (BitVec.le_refl _) id)

theorem State.accept_keeps {P s ctx i} (hM : Mobile P) (hs : P s) :
    P (State.accept s ctx i) := by
  have hS := hM.stable
  unfold State.accept
  extract_lets +onlyGivenNames x
  refine cut_value (p := P x) ?_ ?_
  · subst x
    exact State.modXfer_keeps hS ‹_›
  intro hx
  clear_value x
  split
  · assumption
  · exact ite_keeps (P := P) ‹_› (ite_keeps (P := P) ‹_› (ite_keeps (P := P) (State.resolve_keeps hM ‹_›) (ite_keeps (P := P) ‹_› (State.finish_keeps hM ‹_›))))

theorem State.setRelease_keeps {P s ctx i x_3} (hS : Stable P) (hs : P s) :
    P (State.setRelease s ctx i x_3) := by
  unfold State.setRelease
  exact State.modFlow_keeps hS ‹_›

theorem State.modCounts_keeps {P s ctx g} (hS : Stable P) (hs : P s) :
    P (State.modCounts s ctx g) := by
  unfold State.modCounts
  exact State.modFlow_keeps hS ‹_›

theorem State.angleConvert_keeps {P s ctx i} (hM : Mobile P) (hs : P s) :
    P (State.angleConvert s ctx i) := by
  have hS := hM.stable
  unfold State.angleConvert
  extract_lets +onlyGivenNames x
  refine cut_value (p := P x) ?_ ?_
  · subst x
    exact State.modCounts_keeps hS ‹_›
  intro hx
  clear_value x
  split
  · assumption
  · extract_lets +onlyGivenNames x
    refine cut_value (p := P x) ?_ ?_
    · subst x
      exact State.resolve_keeps hM ‹_›
    intro hx
    clear_value x
    refine ite_keeps (P := P) ?_ ?_
    · assumption
    · split
      · exact State.setRelease_keeps hS ‹_›
      · exact ite_keeps (P := P) (State.finish_keeps hM ‹_›) ‹_›

theorem State.bindTo_keeps {P s ctx f x_3 c n} (hM : Mobile P) (hs : P s) :
    P (State.bindTo s ctx f x_3 c n) := by
  have hS := hM.stable
  unfold State.bindTo
  extract_lets +onlyGivenNames x
  clear_value x
  extract_lets +onlyGivenNames x
  refine cut_value (p := P x) ?_ ?_
  · subst x
    exact State.modFlow_keeps hS ‹_›
  intro hx
  clear_value x
  extract_lets +onlyGivenNames x
  refine cut_value (p := P x) ?_ ?_
  · subst x
    exact State.modCounts_keeps hS ‹_›
  intro hx
  clear_value x
  extract_lets +onlyGivenNames x
  refine cut_value (p := P x) ?_ ?_
  · subst x
    exact ite_keeps (P := P) (State.angleConvert_keeps hM ‹_›) ‹_›
  intro hx
  clear_value x
  split
  · assumption
  · exact ite_keeps (P := P) (State.finish_keeps hM ‹_›) (ite_keeps (P := P) (State.finish_keeps hM ‹_›) (ite_keeps (P := P) (State.accept_keeps hM ‹_›) ‹_›))

theorem State.bindWaiting_keeps {P ctx a_1 a_2} (hM : Mobile P) (ha_2 : P a_2) :
    P (State.bindWaiting ctx a_1 a_2) := by
  induction a_1 generalizing a_2 with
  | zero => exact ha_2
  | succ n ih =>
    unfold State.bindWaiting
    split
    · exact ha_2
    · refine ite_keeps (P := P) ha_2 ?_
      split
      · exact ih (State.bindTo_keeps hM ha_2)
      · exact ha_2

theorem State.dueStart_keeps {P s ctx c} (hS : Stable P) (hs : P s) :
    P (State.dueStart s ctx c) := by
  unfold State.dueStart
  split
  · assumption
  · extract_lets +onlyGivenNames x
    clear_value x
    extract_lets +onlyGivenNames x
    clear_value x
    refine ite_keeps (P := P) ?_ ?_
    · assumption
    · split
      · exact State.modFlow_keeps hS ‹_›
      · exact ite_keeps (P := P) (State.modFlow_keeps hS ‹_›) ‹_›

theorem State.underrun_keeps {P s ctx} (hM : Mobile P) (hs : P s) :
    P (State.underrun s ctx) := by
  have hS := hM.stable
  unfold State.underrun
  extract_lets +onlyGivenNames x
  refine cut_value (p := P x) ?_ ?_
  · subst x
    exact State.modCounts_keeps hS ‹_›
  intro hx
  clear_value x
  exact State.happen_keeps hM (State.addSat_keeps hS ‹_›)

theorem State.dueLoop_keeps {P ctx c a_2 a_3 a_4} (hM : Mobile P) (ha_4 : P a_4) :
    Fst P (State.dueLoop ctx c a_2 a_3 a_4) := by
  have hS := hM.stable
  induction a_2 generalizing a_3 a_4 with
  | zero => exact Fst.mk ha_4
  | succ n ih =>
    unfold State.dueLoop
    split
    · exact Fst.mk ha_4
    · extract_lets p
      split
      · refine ite_keeps (P := Fst P) (Fst.mk ha_4) ?_
        extract_lets spend
        have hspend : ∀ t, P t → P (spend t) := fun t ht => State.modFlow_keeps hS ht
        split
        · exact ih (hspend _ (State.underrun_keeps hM ha_4))
        · split
          · exact Fst.mk ha_4
          · refine ite_keeps (P := Fst P) ?_ (ih (hspend _ (State.bindTo_keeps hM ha_4)))
            split
            · exact Fst.mk (State.modCounts_keeps hS ha_4)
            · exact ih (hspend _ (State.bindTo_keeps hM (State.setRelease_keeps hS ha_4)))
      · exact Fst.mk ha_4

theorem State.dueRule_keeps {P s ctx c} (hM : Mobile P) (hs : P s) :
    Fst P (State.dueRule s ctx c) := by
  have hS := hM.stable
  unfold State.dueRule
  split
  · exact Fst.mk ‹_›
  · extract_lets +onlyGivenNames x
    clear_value x
    refine ite_keeps (P := Fst P) ?_ ?_
    · exact Fst.mk ‹_›
    · extract_lets +onlyGivenNames x
      split
      extract_lets +onlyGivenNames x
      clear_value x
      refine Fst.mk (ite_keeps (P := P) ?_ ?_)
      · refine State.modCounts_keeps hS ?_
        refine Fst.elim (by assumption) ?_
        exact State.dueLoop_keeps hM ‹_›
      · refine Fst.elim (by assumption) ?_
        exact State.dueLoop_keeps hM ‹_›

theorem State.holdSlot_keeps {P s ctx f c n r} (hS : Stable P) (hs : P s) :
    P (State.holdSlot s ctx f c n r) := by
  unfold State.holdSlot
  extract_lets +onlyGivenNames x
  subst x
  dsimp -zeta -zetaDelta only
  refine ite_keeps (P := P) ?_ ?_
  · exact Stable.upd hS rfl ‹_› (List.suffix_refl _) id id id (BitVec.le_refl _) id
  · extract_lets +onlyGivenNames x
    exact Stable.upd hS rfl ‹_› (List.suffix_refl _) id id id (BitVec.le_refl _) id

end Sys2Proof.Machine
end

