-- ==== Sys2Proof/Laws/KeepsDisp.lean ====
section
/-!
SUPPORT. What the operations and meanings of Machine/Disp.lean keep (see Laws/Follows.lean): steady ones any `Stable` property, the others any
`Mobile` one.
-/

set_option linter.tactic.unusedName false
set_option linter.unusedVariables false

namespace Sys2Proof.Machine

theorem State.accessDom_keeps {P s d} (hS : Stable P) (hs : P s) :
    P (State.accessDom s d) := by
  unfold State.accessDom
  extract_lets +onlyGivenNames x
  clear_value x
  extract_lets +onlyGivenNames x
  exact ite_keeps (P := P) (State.addSat_keeps hS (Stable.upd hS rfl ‹_› (List.suffix_refl _) id id id (BitVec.le_refl _) id)) ‹_›

theorem State.lostReady_keeps {P s lost} (hM : Mobile P) (hs : P s) :
    P (State.lostReady s lost) := by
  have hS := hM.stable
  unfold State.lostReady
  exact ite_keeps (P := P) (State.happen_keeps hM (State.addSat_keeps hS ‹_›)) ‹_›

theorem State.modTask_keeps {P s ctx g} (hS : Stable P) (hs : P s) :
    P (State.modTask s ctx g) := by
  unfold State.modTask
  exact State.modFlow_keeps hS ‹_›

theorem State.applyCancel_keeps {P s ctx f lost} (hM : Mobile P) (hs : P s) :
    P (State.applyCancel s ctx f lost) := by
  have hS := hM.stable
  unfold State.applyCancel
  extract_lets +onlyGivenNames x
  refine cut_value (p := P x) ?_ ?_
  · subst x
    exact State.lostReady_keeps hM (State.modTask_keeps hS ‹_›)
  intro hx
  clear_value x
  exact ite_keeps (P := P) (State.recordFlow_keeps hM ‹_›) ‹_›

theorem State.cancelTask_keeps {P s ctx} (hM : Mobile P) (hs : P s) :
    P (State.cancelTask s ctx) := by
  have hS := hM.stable
  unfold State.cancelTask
  split
  · assumption
  · extract_lets +onlyGivenNames x
    clear_value x
    exact ite_keeps (P := P) ‹_› (ite_keeps (P := P) (State.modTask_keeps hS ‹_›) (State.applyCancel_keeps hM ‹_›))

theorem State.armed_keeps {P s d} (hM : Mobile P) (hs : P s) :
    Snd P (State.armed s d) := by
  have hS := hM.stable
  unfold State.armed
  extract_lets +onlyGivenNames x
  clear_value x
  refine ite_keeps (P := Snd P) ?_ ?_
  · exact Snd.mk ‹_›
  · extract_lets +onlyGivenNames x
    split
    extract_lets +onlyGivenNames x
    refine cut_value (p := P x) ?_ ?_
    · subst x
      refine State.setFld_keeps hS ?_
      refine Snd.elim (by assumption) ?_
      exact State.freeWord_keeps hS ‹_›
    intro hx
    clear_value x
    exact ite_keeps (P := Snd P) (Snd.mk (State.happen_keeps hM (State.addSat_keeps hS ‹_›))) (Snd.mk ‹_›)

theorem State.armDelay_keeps {P s ctx d} (hM : Mobile P) (hs : P s) :
    P (State.armDelay s ctx d) := by
  have hS := hM.stable
  unfold State.armDelay
  split
  refine State.modTask_keeps hS ?_
  refine Snd.elim (by assumption) ?_
  exact State.armed_keeps hM ‹_›

theorem State.modFw_keeps {P s n g} (hS : Stable P) (hs : P s) :
    P (State.modFw s n g) := by
  unfold State.modFw
  exact Stable.upd hS rfl ‹_› (List.suffix_refl _) id id id (BitVec.le_refl _) id

theorem State.recordFw_keeps {P s n prio reason engine lost} (hM : Mobile P) (hs : P s) :
    P (State.recordFw s n prio reason engine lost) := by
  have hS := hM.stable
  unfold State.recordFw
  exact State.record_keeps hM ‹_›

theorem State.expireDelay_keeps {P s n} (hM : Mobile P) (hs : P s) :
    P (State.expireDelay s n) := by
  have hS := hM.stable
  unfold State.expireDelay
  extract_lets +onlyGivenNames x
  refine cut_value (p := P x) ?_ ?_
  · subst x
    exact State.modTask_keeps hS ‹_›
  intro hx
  clear_value x
  extract_lets +onlyGivenNames x
  clear_value x
  extract_lets +onlyGivenNames x
  refine cut_value (p := P x) ?_ ?_
  · subst x
    exact State.modFw_keeps hS ‹_›
  intro hx
  clear_value x
  split
  · exact ite_keeps (P := P) (State.recordFlow_keeps hM ‹_›) ‹_›
  · exact ite_keeps (P := P) (State.recordFw_keeps hM ‹_›) ‹_›

theorem State.expireDue_keeps {P s} (hM : Mobile P) (hs : P s) :
    P (State.expireDue s) := by
  have hS := hM.stable
  unfold State.expireDue
  exact foldl_keeps (P := P) (fun a b h => (State.expireDelay_keeps hM ‹_›)) ‹_›

theorem State.cancelDue_keeps {P s ctx} (hM : Mobile P) (hs : P s) :
    P (State.cancelDue s ctx) := by
  have hS := hM.stable
  unfold State.cancelDue
  split
  · assumption
  · extract_lets +onlyGivenNames x
    clear_value x
    exact ite_keeps (P := P) (State.applyCancel_keeps hM ‹_›) ‹_›

theorem State.countDecision_keeps {P s} (hS : Stable P) (hs : P s) :
    P (State.countDecision s) := by
  unfold State.countDecision
  extract_lets +onlyGivenNames x
  clear_value x
  exact State.setPair_keeps hS ‹_›

theorem State.handEntry_keeps {P s t x_2 e} (hM : Mobile P) (hs : P s) :
    P (State.handEntry s t x_2 e) := by
  have hS := hM.stable
  unfold State.handEntry
  extract_lets +onlyGivenNames x
  refine cut_value (p := P x) ?_ ?_
  · subst x
    exact Stable.upd hS rfl ‹_› (List.suffix_refl _) id id id (BitVec.le_refl _) id
  intro hx
  clear_value x
  extract_lets +onlyGivenNames x
  refine cut_value (p := P x) ?_ ?_
  · subst x
    exact State.accessDom_keeps hS (State.modTask_keeps hS ‹_›)
  intro hx
  clear_value x
  split
  · assumption
  · exact State.recordFlow_keeps hM (State.countDecision_keeps hS ‹_›)

theorem State.takeOrder_keeps {P s ctx f piece} (hM : Mobile P) (hs : P s) :
    P (State.takeOrder s ctx f piece) := by
  have hS := hM.stable
  unfold State.takeOrder
  split
  · assumption
  · extract_lets +onlyGivenNames x
    refine cut_value (p := P x) ?_ ?_
    · subst x
      exact State.modXfer_keeps hS ‹_›
    intro hx
    clear_value x
    extract_lets +onlyGivenNames x
    refine cut_value (p := P x) ?_ ?_
    · subst x
      exact State.setFld_keeps hS ‹_›
    intro hx
    clear_value x
    exact ite_keeps (P := P) ‹_› (ite_keeps (P := P) (State.happen_keeps hM ‹_›) ‹_›)

theorem State.handTask_keeps {P s ctx f e} (hM : Mobile P) (hs : P s) :
    P (State.handTask s ctx f e) := by
  have hS := hM.stable
  unfold State.handTask
  extract_lets +onlyGivenNames x
  clear_value x
  extract_lets +onlyGivenNames x
  clear_value x
  extract_lets +onlyGivenNames x
  clear_value x
  extract_lets +onlyGivenNames x
  refine cut_value (p := P x) ?_ ?_
  · subst x
    exact State.takeOrder_keeps hM ‹_›
  intro hx
  clear_value x
  extract_lets +onlyGivenNames x
  refine cut_value (p := P x) ?_ ?_
  · subst x
    exact Stable.upd hS rfl ‹_› (List.suffix_refl _) id id id (BitVec.le_refl _) id
  intro hx
  clear_value x
  extract_lets +onlyGivenNames x
  clear_value x
  extract_lets +onlyGivenNames x
  clear_value x
  extract_lets +onlyGivenNames x
  refine cut_value (p := P x) ?_ ?_
  · subst x
    split
    · exact Stable.upd hS rfl ‹_› (List.suffix_refl _) id id id (BitVec.le_refl _) id
    · assumption
  intro hx
  clear_value x
  extract_lets +onlyGivenNames x
  refine cut_value (p := P x) ?_ ?_
  · subst x
    exact State.accessDom_keeps hS (State.modTask_keeps hS ‹_›)
  intro hx
  clear_value x
  extract_lets +onlyGivenNames x
  refine cut_value (p := P x) ?_ ?_
  · subst x
    exact State.recordFlow_keeps hM (State.countDecision_keeps hS ‹_›)
  intro hx
  clear_value x
  exact ite_keeps (P := P) (State.happen_keeps hM ‹_›) ‹_›

theorem State.decision_keeps {P s cs} (hM : Mobile P) (hs : P s) :
    P (State.decision s cs) := by
  have hS := hM.stable
  unfold State.decision
  split
  · exact State.handEntry_keeps hM ‹_›
  · split
    · exact State.handTask_keeps hM ‹_›
    · assumption

theorem State.dropMalformed_keeps {P s} (hM : Mobile P) (hs : P s) :
    P (State.dropMalformed s) := by
  have hS := hM.stable
  unfold State.dropMalformed
  refine foldl_keeps (P := P) (fun a b h => ?_) ?_
  · refine ite_keeps (P := P) ?_ ?_
    · assumption
    · split
      · split
        · exact ite_keeps (P := P) (State.finish_keeps hM (State.modCounts_keeps hS ‹_›)) ‹_›
        · assumption
      · assumption
  · assumption

theorem State.evaluate_keeps {P s} (hS : Stable P) (hs : P s) :
    P (State.evaluate s) := by
  unfold State.evaluate
  extract_lets +onlyGivenNames x
  clear_value x
  extract_lets +onlyGivenNames x
  clear_value x
  exact Stable.upd hS rfl ‹_› (List.suffix_refl _) id (ksorted_map _ _ (fun _ => rfl)) id (BitVec.le_refl _) id

theorem State.recordCancelFw_keeps {P s n t lost} (hM : Mobile P) (hs : P s) :
    P (State.recordCancelFw s n t lost) := by
  have hS := hM.stable
  unfold State.recordCancelFw
  exact ite_keeps (P := P) (State.recordFw_keeps hM ‹_›) ‹_›

theorem State.fwOp_keeps {P s op} (hM : Mobile P) (hs : P s) :
    P (State.fwOp s op) := by
  have hS := hM.stable
  unfold State.fwOp
  split
  · exact State.modFw_keeps hS ‹_›
  · exact State.modFw_keeps hS ‹_›
  · exact State.modFw_keeps hS ‹_›
  · exact State.modFw_keeps hS ‹_›
  · exact State.modFw_keeps hS ‹_›
  · split
    refine State.modFw_keeps hS ?_
    refine Snd.elim (by assumption) ?_
    exact State.armed_keeps hM ‹_›
  · extract_lets +onlyGivenNames x
    clear_value x
    extract_lets +onlyGivenNames x
    clear_value x
    extract_lets +onlyGivenNames x
    clear_value x
    exact ite_keeps (P := P) ‹_› (ite_keeps (P := P) (State.modFw_keeps hS ‹_›) (State.recordCancelFw_keeps hM (State.lostReady_keeps hM (State.modFw_keeps hS ‹_›))))

theorem State.trcRead_keeps {P s} (hS : Stable P) (hs : P s) :
    Snd P (State.trcRead s) := by
  unfold State.trcRead
  extract_lets +onlyGivenNames x
  subst x
  dsimp -zeta -zetaDelta only
  split
  · exact Snd.mk (Stable.upd hS rfl ‹_› (List.suffix_refl _) id id id (BitVec.le_refl _) id)
  · exact Snd.mk (Stable.upd hS rfl ‹_› (List.suffix_refl _) id id id (BitVec.le_refl _) id)

theorem execTrcBufRead_keeps {P s} (hS : Stable P) (hs : P s) :
    ResAll P (execTrcBufRead s) := by
  unfold execTrcBufRead
  extract_lets +onlyGivenNames x
  refine cut_value (p := Snd P x) ?_ ?_
  · subst x
    exact ite_keeps (P := Snd P) (Snd.mk ‹_›) (State.trcRead_keeps hS ‹_›)
  intro hx
  clear_value x
  exact ResAll.next (State.emit_keeps hS (Snd.out ‹_›))

theorem execDispatchDecision_keeps {P fw s} (hM : Mobile P) (hs : P s) :
    ResAll P (execDispatchDecision s fw) := by
  have hS := hM.stable
  unfold execDispatchDecision
  extract_lets +onlyGivenNames x
  clear_value x
  extract_lets +onlyGivenNames x
  refine cut_value (p := P x) ?_ ?_
  · subst x
    exact ite_keeps (P := P) (foldl_keeps (P := P) (fun a b h => (State.fwOp_keeps hM ‹_›)) ‹_›) ‹_›
  intro hx
  clear_value x
  extract_lets +onlyGivenNames x
  refine cut_value (p := P x) ?_ ?_
  · subst x
    exact foldl_keeps (P := P) (fun a b h => (State.cancelDue_keeps hM ‹_›)) ‹_›
  intro hx
  clear_value x
  exact ResAll.next (ite_keeps (P := P) (State.evaluate_keeps hS (State.dropMalformed_keeps hM (State.decision_keeps hM (State.decision_keeps hM ‹_›)))) ‹_›)

theorem execFirmwareTaskDispatch_keeps {P core s} (hM : Mobile P) (hs : P s) :
    ResAll P (execFirmwareTaskDispatch core s) := by
  have hS := hM.stable
  unfold execFirmwareTaskDispatch
  extract_lets +onlyGivenNames x
  clear_value x
  refine ResAll.next ?_
  extract_lets +onlyGivenNames x
  refine ite_keeps (P := P) ?_ ?_
  · extract_lets +onlyGivenNames x
    split
    · extract_lets +onlyGivenNames x
      refine cut_value (p := P x) ?_ ?_
      · subst x
        exact State.modCore_keeps hS ‹_›
      intro hx
      clear_value x
      extract_lets +onlyGivenNames x
      refine cut_value (p := P x) ?_ ?_
      · subst x
        exact State.modFw_keeps hS ‹_›
      intro hx
      clear_value x
      exact State.recordFw_keeps hM ‹_›
    · assumption
  · assumption

theorem execDelayExpiry_keeps {P ctx s} (hM : Mobile P) (hs : P s) :
    ResAll P (execDelayExpiry ctx s) := by
  have hS := hM.stable
  unfold execDelayExpiry
  extract_lets +onlyGivenNames x
  clear_value x
  refine ResAll.next ?_
  split
  · exact ite_keeps (P := P) (State.expireDelay_keeps hM ‹_›) ‹_›
  · assumption

theorem execTaskAged_keeps {P ctx s} (hS : Stable P) (hs : P s) :
    ResAll P (execTaskAged ctx s) := by
  unfold execTaskAged
  extract_lets +onlyGivenNames x
  clear_value x
  refine ResAll.next ?_
  split
  · exact ite_keeps (P := P) (State.modTask_keeps hS ‹_›) ‹_›
  · assumption

theorem execFirmwareTaskReturn_keeps {P core s} (hM : Mobile P) (hs : P s) :
    ResAll P (execFirmwareTaskReturn core s) := by
  have hS := hM.stable
  unfold execFirmwareTaskReturn
  extract_lets +onlyGivenNames x
  refine cut_value (p := P x) ?_ ?_
  · subst x
    exact State.modCore_keeps hS ‹_›
  intro hx
  clear_value x
  refine ResAll.next ?_
  extract_lets +onlyGivenNames x
  split
  · assumption
  · extract_lets +onlyGivenNames x
    clear_value x
    exact ite_keeps (P := P) (State.recordCancelFw_keeps hM (State.modFw_keeps hS ‹_›)) (State.modFw_keeps hS ‹_›)

end Sys2Proof.Machine
end

