-- ==== Sys2Proof/Laws/KeepsFlowOps.lean ====
section
/-!
SUPPORT. What the operations and meanings of Machine/FlowOps.lean keep (see Laws/Follows.lean): steady ones any `Stable` property, the others any
`Mobile` one.
-/

set_option linter.tactic.unusedName false
set_option linter.unusedVariables false

namespace Sys2Proof.Machine

theorem State.flowEvent_keeps {P s code f detail} (hM : Mobile P) (hs : P s) :
    P (State.flowEvent s code f detail) := by
  have hS := hM.stable
  unfold State.flowEvent
  exact ite_keeps (P := P) ‹_› (State.event_keeps hM ‹_›)

theorem State.setCauses_keeps {P s ctx g} (hM : Mobile P) (hs : P s) :
    P (State.setCauses s ctx g) := by
  have hS := hM.stable
  unfold State.setCauses
  split
  · assumption
  · extract_lets +onlyGivenNames x
    clear_value x
    extract_lets +onlyGivenNames x
    clear_value x
    extract_lets +onlyGivenNames x
    refine cut_value (p := P x) ?_ ?_
    · subst x
      exact State.modFlow_keeps hS ‹_›
    intro hx
    clear_value x
    extract_lets +onlyGivenNames x
    clear_value x
    exact ite_keeps (P := P) (State.flowEvent_keeps hM ‹_›) (ite_keeps (P := P) (State.flowEvent_keeps hM ‹_›) ‹_›)

theorem State.setCausesAll_keeps {P s ctxs g} (hM : Mobile P) (hs : P s) :
    P (State.setCausesAll s ctxs g) := by
  have hS := hM.stable
  unfold State.setCausesAll
  exact foldl_keeps (P := P) (fun a b h => (State.setCauses_keeps hM ‹_›)) ‹_›

theorem State.recordNodes_keeps {P s p byLink} (hS : Stable P) (hs : P s) :
    P (State.recordNodes s p byLink) := by
  unfold State.recordNodes
  extract_lets +onlyGivenNames x
  clear_value x
  extract_lets +onlyGivenNames x
  clear_value x
  extract_lets +onlyGivenNames x
  clear_value x
  exact Stable.upd hS rfl ‹_› (List.suffix_refl _) id id id (BitVec.le_refl _) id

theorem State.endXfers_keeps {P s cs st pick} (hM : Mobile P) (hs : P s) :
    P (State.endXfers s cs st pick) := by
  have hS := hM.stable
  unfold State.endXfers
  refine foldl_keeps (P := P) (fun a b h => ?_) ?_
  · split
    · assumption
    · exact foldl_keeps (P := P) (fun a b h => (State.finish_keeps hM ‹_›)) ‹_›
  · assumption

theorem State.dropWork_keeps {P s hit} (hS : Stable P) (hs : P s) :
    P (State.dropWork s hit) := by
  unfold State.dropWork
  exact Stable.upd hS rfl ‹_› (List.suffix_refl _) id (ksorted_map _ _ (fun _ => by split <;> rfl)) id (BitVec.le_refl _) id

theorem State.endCtlCmds_keeps {P s p status} (hM : Mobile P) (hs : P s) :
    P (State.endCtlCmds s p status) := by
  have hS := hM.stable
  unfold State.endCtlCmds
  exact foldl_keeps (P := P) (fun a b h => (State.complete_keeps hM ‹_›)) ‹_›

theorem State.nodeEvent_keeps {P s code addr detail} (hM : Mobile P) (hs : P s) :
    P (State.nodeEvent s code addr detail) := by
  have hS := hM.stable
  unfold State.nodeEvent
  extract_lets +onlyGivenNames x
  refine cut_value (p := P x) ?_ ?_
  · subst x
    exact State.event_keeps hM ‹_›
  intro hx
  clear_value x
  split
  · exact ite_keeps (P := P) ‹_› (State.event_keeps hM ‹_›)
  · assumption

theorem State.loseNodes_keeps {P s p byLink} (hM : Mobile P) (hs : P s) :
    P (State.loseNodes s p byLink) := by
  have hS := hM.stable
  unfold State.loseNodes
  extract_lets +onlyGivenNames x
  clear_value x
  extract_lets +onlyGivenNames x
  refine cut_value (p := P x) ?_ ?_
  · subst x
    exact Stable.upd hS rfl ‹_› (List.suffix_refl _) id id id (BitVec.le_refl _) id
  intro hx
  clear_value x
  exact foldl_keeps (P := P) (fun a b h => (State.nodeEvent_keeps hM ‹_›)) ‹_›

theorem State.failSubtree_keeps {P s p} (hM : Mobile P) (hs : P s) :
    P (State.failSubtree s p) := by
  have hS := hM.stable
  unfold State.failSubtree
  extract_lets +onlyGivenNames x
  clear_value x
  extract_lets +onlyGivenNames x
  clear_value x
  extract_lets +onlyGivenNames x
  refine cut_value (p := P x) ?_ ?_
  · subst x
    exact State.recordNodes_keeps hS ‹_›
  intro hx
  clear_value x
  extract_lets +onlyGivenNames x
  refine cut_value (p := P x) ?_ ?_
  · subst x
    exact State.endXfers_keeps hM ‹_›
  intro hx
  clear_value x
  extract_lets +onlyGivenNames x
  refine cut_value (p := P x) ?_ ?_
  · subst x
    exact State.dropWork_keeps hS ‹_›
  intro hx
  clear_value x
  extract_lets +onlyGivenNames x
  refine cut_value (p := P x) ?_ ?_
  · subst x
    exact State.endCtlCmds_keeps hM ‹_›
  intro hx
  clear_value x
  extract_lets +onlyGivenNames x
  refine cut_value (p := P x) ?_ ?_
  · subst x
    exact foldl_keeps (P := P) (fun a b h => (State.modFlow_keeps hS ‹_›)) ‹_›
  intro hx
  clear_value x
  extract_lets +onlyGivenNames x
  refine cut_value (p := P x) ?_ ?_
  · subst x
    exact ite_keeps (P := P) (State.setCausesAll_keeps hM ‹_›) ‹_›
  intro hx
  clear_value x
  exact State.loseNodes_keeps hM ‹_›

theorem State.closeHubFlows_keeps {P s p} (hS : Stable P) (hs : P s) :
    P (State.closeHubFlows s p) := by
  unfold State.closeHubFlows
  exact Stable.upd hS rfl ‹_› (List.suffix_refl _) id (ksorted_filter _ _) id (BitVec.le_refl _) id

theorem State.endSubtree_keeps {P s p} (hM : Mobile P) (hs : P s) :
    P (State.endSubtree s p) := by
  have hS := hM.stable
  unfold State.endSubtree
  extract_lets +onlyGivenNames x
  clear_value x
  extract_lets +onlyGivenNames x
  refine cut_value (p := P x) ?_ ?_
  · subst x
    exact State.recordNodes_keeps hS ‹_›
  intro hx
  clear_value x
  extract_lets +onlyGivenNames x
  refine cut_value (p := P x) ?_ ?_
  · subst x
    exact State.endXfers_keeps hM ‹_›
  intro hx
  clear_value x
  extract_lets +onlyGivenNames x
  refine cut_value (p := P x) ?_ ?_
  · subst x
    exact State.dropWork_keeps hS ‹_›
  intro hx
  clear_value x
  extract_lets +onlyGivenNames x
  refine cut_value (p := P x) ?_ ?_
  · subst x
    exact State.endCtlCmds_keeps hM ‹_›
  intro hx
  clear_value x
  extract_lets +onlyGivenNames x
  refine cut_value (p := P x) ?_ ?_
  · subst x
    exact State.setCausesAll_keeps hM ‹_›
  intro hx
  clear_value x
  exact State.closeHubFlows_keeps hS (State.loseNodes_keeps hM ‹_›)

end Sys2Proof.Machine
end

