-- ==== Sys2Proof/Laws/KeepsGangOps.lean ====
section
/-!
SUPPORT. What the operations and meanings of Machine/GangOps.lean keep (see Laws/Follows.lean): steady ones any `Stable` property, the others any
`Mobile` one.
-/

set_option linter.tactic.unusedName false
set_option linter.unusedVariables false

namespace Sys2Proof.Machine

theorem State.endJoin_keeps {P s status} (hM : Mobile P) (hs : P s) :
    P (State.endJoin s status) := by
  have hS := hM.stable
  unfold State.endJoin
  extract_lets +onlyGivenNames x
  clear_value x
  extract_lets +onlyGivenNames x
  clear_value x
  extract_lets +onlyGivenNames x
  refine cut_value (p := P x) ?_ ?_
  · subst x
    exact Stable.upd hS rfl ‹_› (List.suffix_refl _) id id id (BitVec.le_refl _) id
  intro hx
  clear_value x
  extract_lets +onlyGivenNames x
  clear_value x
  split
  · assumption
  · exact State.complete_keeps hM ‹_›

theorem State.joinCheck_keeps {P s} (hM : Mobile P) (hs : P s) :
    P (State.joinCheck s) := by
  have hS := hM.stable
  unfold State.joinCheck
  extract_lets +onlyGivenNames x
  clear_value x
  exact ite_keeps (P := P) ‹_› (ite_keeps (P := P) (ite_keeps (P := P) (State.endJoin_keeps hM ‹_›) ‹_›) (ite_keeps (P := P) (State.endJoin_keeps hM ‹_›) (ite_keeps (P := P) (State.endJoin_keeps hM ‹_›) ‹_›)))

theorem State.modGang_keeps {P s f} (hM : Mobile P) (hs : P s) :
    P (State.modGang s f) := by
  have hS := hM.stable
  unfold State.modGang
  extract_lets +onlyGivenNames x
  clear_value x
  extract_lets +onlyGivenNames x
  refine cut_value (p := P x) ?_ ?_
  · subst x
    exact Stable.upd hS rfl ‹_› (List.suffix_refl _) id id id (BitVec.le_refl _) id
  intro hx
  clear_value x
  extract_lets +onlyGivenNames x
  clear_value x
  extract_lets +onlyGivenNames x
  clear_value x
  extract_lets +onlyGivenNames x
  subst x
  dsimp -zeta -zetaDelta only
  extract_lets +onlyGivenNames x
  subst x
  dsimp -zeta -zetaDelta only
  extract_lets +onlyGivenNames x
  refine cut_value (p := P x) ?_ ?_
  · subst x
    exact ite_keeps (P := P) (State.happen_keeps hM ‹_›) ‹_›
  intro hx
  clear_value x
  extract_lets +onlyGivenNames x
  refine cut_value (p := P x) ?_ ?_
  · subst x
    exact ite_keeps (P := P) (State.happen_keeps hM ‹_›) ‹_›
  intro hx
  clear_value x
  extract_lets +onlyGivenNames x
  refine cut_value (p := P x) ?_ ?_
  · subst x
    exact ite_keeps (P := P) (State.happen_keeps hM (State.addSat_keeps hS ‹_›)) ‹_›
  intro hx
  clear_value x
  extract_lets +onlyGivenNames x
  refine cut_value (p := P x) ?_ ?_
  · subst x
    exact ite_keeps (P := P) (State.happen_keeps hM (State.addSat_keeps hS ‹_›)) ‹_›
  intro hx
  clear_value x
  extract_lets +onlyGivenNames x
  refine cut_value (p := P x) ?_ ?_
  · subst x
    exact ite_keeps (P := P) (State.happen_keeps hM ‹_›) ‹_›
  intro hx
  clear_value x
  extract_lets +onlyGivenNames x
  refine cut_value (p := P x) ?_ ?_
  · subst x
    exact ite_keeps (P := P) (State.event_keeps hM ‹_›) ‹_›
  intro hx
  clear_value x
  exact State.joinCheck_keeps hM ‹_›

theorem State.gbEdge_keeps {P s d} (hS : Stable P) (hs : P s) :
    P (State.gbEdge s d) := by
  unfold State.gbEdge
  extract_lets +onlyGivenNames x
  clear_value x
  exact ite_keeps (P := P) (Stable.upd hS rfl ‹_› (List.suffix_refl _) id id id (BitVec.le_refl _) id) ‹_›

end Sys2Proof.Machine
end

