-- ==== Sys2Proof/Laws/KeepsPorts.lean ====
section
/-!
SUPPORT. What the operations and meanings of Machine/Ports.lean keep (see Laws/Follows.lean): steady ones any `Stable` property, the others any
`Mobile` one.
-/

set_option linter.tactic.unusedName false
set_option linter.unusedVariables false

namespace Sys2Proof.Machine

theorem State.boardPower_keeps {P s p on} (hS : Stable P) (hs : P s) :
    P (State.boardPower s p on) := by
  unfold State.boardPower
  split
  · assumption
  · exact ite_keeps (P := P) (State.modDev_keeps hS ‹_›) (Stable.upd hS rfl ‹_› (List.suffix_refl _) id id id (BitVec.le_refl _) id)

theorem State.portPowered_keeps {P s p} (hM : Mobile P) (hs : P s) :
    P (State.portPowered s p) := by
  have hS := hM.stable
  unfold State.portPowered
  split
  · exact ite_keeps (P := P) (State.settle_keeps hM (State.boardPower_keeps hS (State.modPort_keeps hS ‹_›))) ‹_›
  · assumption

theorem State.exchangeAborted_keeps {P s} (hM : Mobile P) (hs : P s) : P (State.exchangeAborted s) := by
  have hS := hM.stable
  unfold State.exchangeAborted
  exact State.error_keeps hM (State.happen_keeps hM (State.addSat_keeps hS (State.setFld_keeps hS hs)))

theorem State.gaDown_keeps {P s p} (hM : Mobile P) (hs : P s) :
    P (State.gaDown s p) := by
  have hS := hM.stable
  unfold State.gaDown
  extract_lets +onlyGivenNames x
  refine cut_value (p := P x) ?_ ?_
  · subst x
    exact ite_keeps (P := P) (State.exchangeAborted_keeps hM ‹_›) ‹_›
  intro hx
  clear_value x
  extract_lets +onlyGivenNames x
  clear_value x
  exact ite_keeps (P := P) (Stable.upd hS rfl ‹_› (List.suffix_refl _) id id id (BitVec.le_refl _) id) ‹_›

theorem State.startHold_keeps {P s p} (hM : Mobile P) (hs : P s) :
    P (State.startHold s p) := by
  have hS := hM.stable
  unfold State.startHold
  extract_lets +onlyGivenNames x
  refine cut_value (p := P x) ?_ ?_
  · subst x
    exact State.gaDown_keeps hM ‹_›
  intro hx
  clear_value x
  extract_lets +onlyGivenNames x
  clear_value x
  extract_lets +onlyGivenNames x
  refine cut_value (p := P x) ?_ ?_
  · subst x
    exact State.modPort_keeps hS ‹_›
  intro hx
  clear_value x
  exact State.emit_keeps hS ‹_›

theorem State.portEvent_keeps {P s p f change} (hM : Mobile P) (hs : P s) :
    P (State.portEvent s p f change) := by
  have hS := hM.stable
  unfold State.portEvent
  extract_lets +onlyGivenNames x
  clear_value x
  extract_lets +onlyGivenNames x
  refine cut_value (p := P x) ?_ ?_
  · subst x
    exact State.raiseOpt_keeps hM (State.setBit_keeps hS ‹_›)
  intro hx
  clear_value x
  extract_lets +onlyGivenNames x
  clear_value x
  split
  · exact State.modPort_keeps hS ‹_›
  · exact State.event_keeps hM ‹_›

theorem State.resetPort_keeps {P s p failure} (hM : Mobile P) (hs : P s) :
    P (State.resetPort s p failure) := by
  have hS := hM.stable
  unfold State.resetPort
  extract_lets +onlyGivenNames x
  refine cut_value (p := P x) ?_ ?_
  · subst x
    exact ite_keeps (P := P) (State.failSubtree_keeps hM ‹_›) ‹_›
  intro hx
  clear_value x
  extract_lets +onlyGivenNames x
  refine cut_value (p := P x) ?_ ?_
  · subst x
    exact State.startHold_keeps hM ‹_›
  intro hx
  clear_value x
  extract_lets +onlyGivenNames x
  refine cut_value (p := P x) ?_ ?_
  · subst x
    exact State.modPort_keeps hS ‹_›
  intro hx
  clear_value x
  exact ite_keeps (P := P) (State.portEvent_keeps hM ‹_›) ‹_›

theorem State.requestReset_keeps {P s p failure} (hM : Mobile P) (hs : P s) :
    P (State.requestReset s p failure) := by
  have hS := hM.stable
  unfold State.requestReset
  extract_lets +onlyGivenNames x
  refine cut_value (p := P x) ?_ ?_
  · subst x
    exact ite_keeps (P := P) (State.failSubtree_keeps hM ‹_›) ‹_›
  intro hx
  clear_value x
  extract_lets +onlyGivenNames x
  refine cut_value (p := P x) ?_ ?_
  · subst x
    exact State.gaDown_keeps hM ‹_›
  intro hx
  clear_value x
  extract_lets +onlyGivenNames x
  refine cut_value (p := P x) ?_ ?_
  · subst x
    exact State.modPort_keeps hS ‹_›
  intro hx
  clear_value x
  split
  · assumption
  · split
    · exact State.resetPort_keeps hM ‹_›
    · exact State.resetPort_keeps hM ‹_›
    · exact State.resetPort_keeps hM ‹_›
    · exact State.resetPort_keeps hM ‹_›
    · exact State.emit_keeps hS ‹_›
    · assumption

theorem State.requestResume_keeps {P s p remote} (hS : Stable P) (hs : P s) :
    P (State.requestResume s p remote) := by
  unfold State.requestResume
  extract_lets +onlyGivenNames x
  refine cut_value (p := P x) ?_ ?_
  · subst x
    exact State.modPort_keeps hS ‹_›
  intro hx
  clear_value x
  split
  · exact ite_keeps (P := P) (State.emit_keeps hS ‹_›) ‹_›
  · assumption

theorem State.gaGone_keeps {P s p} (hM : Mobile P) (hs : P s) :
    P (State.gaGone s p) := by
  have hS := hM.stable
  unfold State.gaGone
  exact ite_keeps (P := P) (State.modGang_keeps hM (State.gaDown_keeps hM ‹_›)) ‹_›

theorem State.portOff_keeps {P s p} (hM : Mobile P) (hs : P s) :
    P (State.portOff s p) := by
  have hS := hM.stable
  unfold State.portOff
  split
  · assumption
  · extract_lets +onlyGivenNames x
    refine cut_value (p := P x) ?_ ?_
    · subst x
      exact ite_keeps (P := P) (State.endSubtree_keeps hM ‹_›) ‹_›
    intro hx
    clear_value x
    extract_lets +onlyGivenNames x
    refine cut_value (p := P x) ?_ ?_
    · subst x
      exact State.gaGone_keeps hM ‹_›
    intro hx
    clear_value x
    extract_lets +onlyGivenNames x
    refine cut_value (p := P x) ?_ ?_
    · subst x
      exact State.modPort_keeps hS ‹_›
    intro hx
    clear_value x
    exact State.settle_keeps hM (State.emit_keeps hS (State.boardPower_keeps hS ‹_›))

theorem State.disablePort_keeps {P s p} (hM : Mobile P) (hs : P s) :
    P (State.disablePort s p) := by
  have hS := hM.stable
  unfold State.disablePort
  extract_lets +onlyGivenNames x
  refine cut_value (p := P x) ?_ ?_
  · subst x
    exact State.gaDown_keeps hM ‹_›
  intro hx
  clear_value x
  extract_lets +onlyGivenNames x
  refine cut_value (p := P x) ?_ ?_
  · subst x
    exact State.modPort_keeps hS ‹_›
  intro hx
  clear_value x
  exact State.settle_keeps hM (State.emit_keeps hS ‹_›)

theorem State.awaitDevice_keeps {P s p} (hS : Stable P) (hs : P s) :
    P (State.awaitDevice s p) := by
  unfold State.awaitDevice
  split
  · assumption
  · exact ite_keeps (P := P) ‹_› (Stable.upd hS rfl ‹_› (List.suffix_refl _) id id id (BitVec.le_refl _) id)

theorem State.ppmCut_keeps {P s n} (hS : Stable P) (hs : P s) :
    P (State.ppmCut s n) := by
  unfold State.ppmCut
  extract_lets +onlyGivenNames x
  refine cut_value (p := P x) ?_ ?_
  · subst x
    exact Stable.upd hS rfl ‹_› (List.suffix_refl _) id id id (BitVec.le_refl _) id
  intro hx
  clear_value x
  split
  · assumption
  · extract_lets +onlyGivenNames x
    refine cut_value (p := P x) ?_ ?_
    · subst x
      exact ite_keeps (P := P) (State.emit_keeps hS ‹_›) ‹_›
    intro hx
    clear_value x
    exact ite_keeps (P := P) (State.emit_keeps hS ‹_›) ‹_›

theorem State.boardMove_keeps {P s p m} (hS : Stable P) (hs : P s) :
    P (State.boardMove s p m) := by
  unfold State.boardMove
  extract_lets +onlyGivenNames x
  clear_value x
  split
  · assumption
  · split
    · assumption
    · exact Stable.upd hS rfl ‹_› (List.suffix_refl _) id id id (BitVec.le_refl _) id
    · extract_lets +onlyGivenNames x
      clear_value x
      exact Stable.upd hS rfl ‹_› (List.suffix_refl _) id id id (BitVec.le_refl _) id

theorem State.linkEvent_keeps {P s p bits more} (hM : Mobile P) (hs : P s) :
    P (State.linkEvent s p bits more) := by
  have hS := hM.stable
  unfold State.linkEvent
  split
  · assumption
  · exact State.event_keeps hM ‹_›
  · exact State.event_keeps hM ‹_›

theorem State.latchAttach_keeps {P s p} (hM : Mobile P) (hs : P s) :
    P (State.latchAttach s p) := by
  have hS := hM.stable
  unfold State.latchAttach
  exact State.portEvent_keeps hM (State.modPort_keeps hS ‹_›)

theorem State.portFault_keeps {P s p cause} (hM : Mobile P) (hs : P s) :
    P (State.portFault s p cause) := by
  have hS := hM.stable
  unfold State.portFault
  split
  · assumption
  · extract_lets +onlyGivenNames x
    refine cut_value (p := P x) ?_ ?_
    · subst x
      exact ite_keeps (P := P) (State.endSubtree_keeps hM ‹_›) ‹_›
    intro hx
    clear_value x
    extract_lets +onlyGivenNames x
    refine cut_value (p := P x) ?_ ?_
    · subst x
      exact State.gaGone_keeps hM ‹_›
    intro hx
    clear_value x
    extract_lets +onlyGivenNames x
    refine cut_value (p := P x) ?_ ?_
    · subst x
      exact State.modPort_keeps hS ‹_›
    intro hx
    clear_value x
    extract_lets +onlyGivenNames x
    refine cut_value (p := P x) ?_ ?_
    · subst x
      exact State.boardPower_keeps hS (State.portEvent_keeps hM ‹_›)
    intro hx
    clear_value x
    extract_lets +onlyGivenNames x
    refine cut_value (p := P x) ?_ ?_
    · subst x
      exact ite_keeps (P := P) (State.latchAttach_keeps hM ‹_›) ‹_›
    intro hx
    clear_value x
    exact State.settle_keeps hM (State.emit_keeps hS ‹_›)

theorem State.ppmTrainFault_keeps {P s n} (hS : Stable P) (hs : P s) :
    P (State.ppmTrainFault s n) := by
  unfold State.ppmTrainFault
  extract_lets +onlyGivenNames x
  refine cut_value (p := P x) ?_ ?_
  · subst x
    exact State.ppmCut_keeps hS ‹_›
  intro hx
  clear_value x
  extract_lets +onlyGivenNames x
  clear_value x
  exact Stable.upd hS rfl ‹_› (List.suffix_refl _) id id id (BitVec.le_refl _) id

theorem State.presenceChange_keeps {P s p level m} (hM : Mobile P) (hs : P s) :
    P (State.presenceChange s p level m) := by
  have hS := hM.stable
  unfold State.presenceChange
  extract_lets +onlyGivenNames x
  refine cut_value (p := P x) ?_ ?_
  · subst x
    exact State.boardMove_keeps hS ‹_›
  intro hx
  clear_value x
  extract_lets +onlyGivenNames x
  refine cut_value (p := P x) ?_ ?_
  · subst x
    exact State.modPort_keeps hS ‹_›
  intro hx
  clear_value x
  split
  · assumption
  · exact ite_keeps (P := P) (State.latchAttach_keeps hM ‹_›) ‹_›

theorem execAttach_keeps {P p s} (hM : Mobile P) (hs : P s) :
    ResAll P (execAttach p s) := by
  have hS := hM.stable
  unfold execAttach
  extract_lets +onlyGivenNames x
  refine cut_value (p := P x) ?_ ?_
  · subst x
    exact State.modPort_keeps hS ‹_›
  intro hx
  clear_value x
  extract_lets +onlyGivenNames x
  refine cut_value (p := P x) ?_ ?_
  · subst x
    exact State.portEvent_keeps hM ‹_›
  intro hx
  clear_value x
  extract_lets +onlyGivenNames x
  refine cut_value (p := P x) ?_ ?_
  · subst x
    exact State.awaitDevice_keeps hS ‹_›
  intro hx
  clear_value x
  extract_lets +onlyGivenNames x
  refine cut_value (p := P x) ?_ ?_
  · subst x
    exact ite_keeps (P := P) (State.requestReset_keeps hM ‹_›) ‹_›
  intro hx
  clear_value x
  split
  · exact ResAll.next ‹_›
  · exact ResAll.next (ite_keeps (P := P) (State.settle_keeps hM ‹_›) ‹_›)

theorem execDetach_keeps {P p s} (hM : Mobile P) (hs : P s) :
    ResAll P (execDetach p s) := by
  have hS := hM.stable
  unfold execDetach
  extract_lets +onlyGivenNames x
  refine cut_value (p := P x) ?_ ?_
  · subst x
    exact ite_keeps (P := P) (State.endSubtree_keeps hM ‹_›) ‹_›
  intro hx
  clear_value x
  extract_lets +onlyGivenNames x
  refine cut_value (p := P x) ?_ ?_
  · subst x
    exact State.gaGone_keeps hM ‹_›
  intro hx
  clear_value x
  extract_lets +onlyGivenNames x
  refine cut_value (p := P x) ?_ ?_
  · subst x
    exact State.modPort_keeps hS ‹_›
  intro hx
  clear_value x
  extract_lets +onlyGivenNames x
  refine cut_value (p := P x) ?_ ?_
  · subst x
    exact State.portEvent_keeps hM ‹_›
  intro hx
  clear_value x
  split
  · exact ResAll.next ‹_›
  · exact ResAll.next (ite_keeps (P := P) (State.settle_keeps hM (State.emit_keeps hS ‹_›)) ‹_›)

end Sys2Proof.Machine
end

