-- ==== Sys2Proof/Laws/KeepsHub.lean ====
section
/-!
SUPPORT. What the operations and meanings of Machine/Hub.lean keep (see Laws/Follows.lean): steady ones any `Stable` property, the others any
`Mobile` one.
-/

set_option linter.tactic.unusedName false
set_option linter.unusedVariables false

namespace Sys2Proof.Machine

theorem State.firmwareSends_keeps {P s addr q data} (hS : Stable P) (hs : P s) :
    P (State.firmwareSends s addr q data) := by
  unfold State.firmwareSends
  exact State.emit_keeps hS ‹_›

theorem State.hubPortReport_keeps {P s h_1 addr q} (hM : Mobile P) (hs : P s) :
    P (State.hubPortReport s h_1 addr q) := by
  have hS := hM.stable
  unfold State.hubPortReport
  extract_lets +onlyGivenNames x
  clear_value x
  extract_lets +onlyGivenNames x
  refine cut_value (p := P x) ?_ ?_
  · subst x
    exact State.firmwareSends_keeps hS ‹_›
  intro hx
  clear_value x
  split
  · assumption
  · extract_lets +onlyGivenNames x
    clear_value x
    extract_lets +onlyGivenNames x
    refine cut_value (p := P x) ?_ ?_
    · subst x
      exact ite_keeps (P := P) (State.endSubtree_keeps hM ‹_›) ‹_›
    intro hx
    clear_value x
    extract_lets +onlyGivenNames x
    refine cut_value (p := P x) ?_ ?_
    · subst x
      exact State.error_keeps hM (State.failSubtree_keeps hM ‹_›)
    intro hx
    clear_value x
    extract_lets +onlyGivenNames x
    refine cut_value (p := P x) ?_ ?_
    · subst x
      exact ite_keeps (P := P) (State.linkEvent_keeps hM (State.raise_keeps hM ‹_›)) ‹_›
    intro hx
    clear_value x
    extract_lets +onlyGivenNames x
    refine cut_value (p := P x) ?_ ?_
    · subst x
      exact foldl_keeps (P := P) (fun a b h => (ite_keeps (P := P) (State.firmwareSends_keeps hS ‹_›) ‹_›)) ‹_›
    intro hx
    clear_value x
    exact ite_keeps (P := P) ‹_› (State.treeCmds_keeps hM (State.modPort_keeps hS ‹_›))

theorem State.hubReport_keeps {P s h_1 addr ws} (hM : Mobile P) (hs : P s) :
    P (State.hubReport s h_1 addr ws) := by
  have hS := hM.stable
  unfold State.hubReport
  extract_lets +onlyGivenNames x
  clear_value x
  exact foldl_keeps (P := P) (fun a b h => (ite_keeps (P := P) (State.hubPortReport_keeps hM ‹_›) ‹_›)) ‹_›

end Sys2Proof.Machine
end

