-- ==== Sys2Proof/Laws/KeepsRegFile.lean ====
section
/-!
SUPPORT. What the operations and meanings of Machine/RegFile.lean keep (see Laws/Follows.lean): steady ones any `Stable` property, the others any
`Mobile` one.
-/

set_option linter.tactic.unusedName false
set_option linter.unusedVariables false

namespace Sys2Proof.Machine

theorem State.writeField_keeps {P s f n k v runs locked} (hS : Stable P) (hs : P s) :
    Fst P (State.writeField s f n k v runs locked) := by
  unfold State.writeField
  extract_lets +onlyGivenNames x
  clear_value x
  extract_lets +onlyGivenNames x
  clear_value x
  refine ite_keeps (P := Fst P) ?_ ?_
  · exact Fst.mk ‹_›
  · split
    · exact ite_keeps (P := Fst P) (Fst.mk ‹_›) (ite_keeps (P := Fst P) (Fst.mk ‹_›) (Fst.mk (State.setFld_keeps hS (ite_keeps (P := P) (State.shadow_keeps hS ‹_›) ‹_›))))
    · exact Fst.mk (State.setFld_keeps hS ‹_›)
    · exact Fst.mk (State.setFld_keeps hS ‹_›)
    · exact Fst.mk ‹_›

theorem State.writeFields_keeps {P s r n k v locked} (hM : Mobile P) (hs : P s) :
    P (State.writeFields s r n k v locked) := by
  have hS := hM.stable
  unfold State.writeFields
  extract_lets +onlyGivenNames x
  refine cut_value (p := Fst P x) ?_ ?_
  · subst x
    refine foldl_keeps (P := Fst P) (fun a b h => ?_) ?_
    · extract_lets +onlyGivenNames x
      refine cut_value (p := Fst P x) ?_ ?_
      · subst x
        exact State.writeField_keeps hS (Fst.out ‹_›)
      intro hx
      clear_value x
      exact Fst.mk (Fst.out ‹_›)
    · exact Fst.mk ‹_›
  intro hx
  clear_value x
  exact ite_keeps (P := P) (State.error_keeps hM (Fst.out ‹_›)) (Fst.out ‹_›)

end Sys2Proof.Machine
end

