-- ==== Sys2Proof/Laws/KeepsRings.lean ====
section
/-!
SUPPORT. What the operations and meanings of Machine/Rings.lean keep (see Laws/Follows.lean): steady ones any `Stable` property, the others any
`Mobile` one.
-/

set_option linter.tactic.unusedName false
set_option linter.unusedVariables false

namespace Sys2Proof.Machine

theorem State.addVisible_keeps {P s ctx n} (hM : Mobile P) (hs : P s) :
    P (State.addVisible s ctx n) := by
  have hS := hM.stable
  unfold State.addVisible
  extract_lets +onlyGivenNames x
  refine cut_value (p := P x) ?_ ?_
  · subst x
    exact Stable.upd hS rfl ‹_› (List.suffix_refl _) id id id (BitVec.le_refl _) id
  intro hx
  clear_value x
  split
  · assumption
  · extract_lets +onlyGivenNames x
    clear_value x
    extract_lets +onlyGivenNames x
    clear_value x
    extract_lets +onlyGivenNames x
    refine cut_value (p := P x) ?_ ?_
    · subst x
      exact State.modFlow_keeps hS ‹_›
    intro hx
    clear_value x
    exact ite_keeps (P := P) (State.finishAll_keeps hM ‹_›) ‹_›

theorem State.closeCmds_keeps {P s i num} (hM : Mobile P) (hs : P s) :
    P (State.closeCmds s i num) := by
  have hS := hM.stable
  unfold State.closeCmds
  extract_lets +onlyGivenNames x
  clear_value x
  exact foldl_keeps (P := P) (fun a b h => (State.complete_keeps hM ‹_›)) ‹_›

theorem State.freeContext_keeps {P s ctx} (hM : Mobile P) (hs : P s) :
    P (State.freeContext s ctx) := by
  have hS := hM.stable
  unfold State.freeContext
  extract_lets +onlyGivenNames x
  refine cut_value (p := P x) ?_ ?_
  · subst x
    exact Stable.upd hS rfl ‹_› (List.suffix_refl _) id (ksorted_kdel _ _) id (BitVec.le_refl _) id
  intro hx
  clear_value x
  split
  · exact ite_keeps (P := P) (ite_keeps (P := P) (State.ptbRefresh_keeps hM (State.setReg_keeps hS ‹_›)) ‹_›) ‹_›
  · assumption

theorem State.arrived_keeps {P s ctx f} (hS : Stable P) (hs : P s) :
    P (State.arrived s ctx f) := by
  unfold State.arrived
  extract_lets +onlyGivenNames x
  refine cut_value (p := P x) ?_ ?_
  · subst x
    exact State.modFlow_keeps hS ‹_›
  intro hx
  clear_value x
  extract_lets +onlyGivenNames x
  clear_value x
  exact ite_keeps (P := P) (Stable.upd hS rfl ‹_› (List.suffix_refl _) id id id (BitVec.le_refl _) id) ‹_›

theorem State.stallClose_keeps {P s i} (hM : Mobile P) (hs : P s) :
    P (State.stallClose s i) := by
  have hS := hM.stable
  unfold State.stallClose
  extract_lets +onlyGivenNames x
  clear_value x
  extract_lets +onlyGivenNames x
  clear_value x
  extract_lets +onlyGivenNames x
  refine cut_value (p := P x) ?_ ?_
  · subst x
    exact State.modInst_keeps hS ‹_›
  intro hx
  clear_value x
  exact ite_keeps (P := P) ‹_› (State.eventAt_keeps hM ‹_›)

theorem State.useBank_keeps {P s b f} (hS : Stable P) (hs : P s) :
    P (State.useBank s b f) := by
  unfold State.useBank
  extract_lets +onlyGivenNames x
  exact Stable.upd hS rfl ‹_› (List.suffix_refl _) id id id (BitVec.le_refl _) id

theorem State.freeWords_keeps {P s x_1} (hS : Stable P) (hs : P s) :
    P (State.freeWords s x_1) := by
  unfold State.freeWords
  split
  · exact State.useBank_keeps hS ‹_›
  · assumption

theorem State.freeSome_keeps {P s ctx x_2 n} (hS : Stable P) (hs : P s) :
    P (State.freeSome s ctx x_2 n) := by
  unfold State.freeSome
  extract_lets +onlyGivenNames x
  clear_value x
  refine State.modXfer_keeps hS ?_
  split
  · exact State.useBank_keeps hS ‹_›
  · assumption

theorem State.openBank_keeps {P s b} (hS : Stable P) (hs : P s) :
    P (State.openBank s b) := by
  unfold State.openBank
  extract_lets +onlyGivenNames x
  exact Stable.upd hS rfl ‹_› (List.suffix_refl _) id id id (BitVec.le_refl _) id

theorem State.readError_keeps {P s ctx inst e mailbox} (hM : Mobile P) (hs : P s) :
    P (State.readError s ctx inst e mailbox) := by
  have hS := hM.stable
  unfold State.readError
  extract_lets +onlyGivenNames x
  refine cut_value (p := P x) ?_ ?_
  · subst x
    exact ite_keeps (P := P) (State.addSat_keeps hS ‹_›) (State.addSat_keeps hS ‹_›)
  intro hx
  clear_value x
  exact State.error_keeps hM ‹_›

theorem State.cqCfgWrite_keeps {P s i q v} (hM : Mobile P) (hs : P s) :
    P (State.cqCfgWrite s i q v) := by
  have hS := hM.stable
  unfold State.cqCfgWrite
  extract_lets +onlyGivenNames x
  clear_value x
  extract_lets +onlyGivenNames x
  refine cut_value (p := P x) ?_ ?_
  · subst x
    exact State.writeFields_keeps hM ‹_›
  intro hx
  clear_value x
  split
  · refine OptAll.elim (by assumption) ?_
    exact State.pageGate_keeps hS ‹_›
  · refine ite_keeps (P := P) ?_ ?_
    · extract_lets +onlyGivenNames x
      exact State.modInst_keeps hS ‹_›
    · assumption

theorem State.cqConsWrite_keeps {P s i q v} (hS : Stable P) (hs : P s) :
    P (State.cqConsWrite s i q v) := by
  unfold State.cqConsWrite
  extract_lets +onlyGivenNames x
  clear_value x
  extract_lets +onlyGivenNames x
  clear_value x
  extract_lets +onlyGivenNames x
  clear_value x
  split
  · refine OptAll.elim (by assumption) ?_
    exact State.pageGate_keeps hS ‹_›
  · exact ite_keeps (P := P) (State.setBit_keeps hS ‹_›) (State.setFld_keeps hS ‹_›)

theorem State.dbErr_keeps {P s i num reason} (hS : Stable P) (hs : P s) :
    P (State.dbErr s i num reason) := by
  unfold State.dbErr
  exact State.addSat_keeps hS (State.setFld_keeps hS (State.setFld_keeps hS ‹_›))

theorem State.deadlineSlot_keeps {P ctx c s n} (hM : Mobile P) (hs : P s) :
    P (State.deadlineSlot ctx c s n) := by
  have hS := hM.stable
  unfold State.deadlineSlot
  split
  · assumption
  · extract_lets +onlyGivenNames x
    clear_value x
    extract_lets +onlyGivenNames x
    clear_value x
    extract_lets +onlyGivenNames x
    clear_value x
    extract_lets +onlyGivenNames x
    refine cut_value (p := P x) ?_ ?_
    · subst x
      split
      · exact ite_keeps (P := P) ‹_› (State.modXfer_keeps hS (State.finish_keeps hM (State.freeWords_keeps hS ‹_›)))
      · exact ite_keeps (P := P) (State.underrun_keeps hM ‹_›) ‹_›
    intro hx
    clear_value x
    exact ite_keeps (P := P) (State.resolve_keeps hM ‹_›) (ite_keeps (P := P) (State.holdSlot_keeps hS ‹_›) ‹_›)

theorem State.doorbell_keeps {P s i v} (hM : Mobile P) (hs : P s) :
    P (State.doorbell s i v) := by
  have hS := hM.stable
  unfold State.doorbell
  extract_lets +onlyGivenNames x
  clear_value x
  extract_lets +onlyGivenNames x
  clear_value x
  split
  · exact State.dbErr_keeps hS ‹_›
  · split
    · exact State.dbErr_keeps hS ‹_›
    · extract_lets +onlyGivenNames x
      clear_value x
      extract_lets +onlyGivenNames x
      clear_value x
      exact ite_keeps (P := P) ‹_› (ite_keeps (P := P) (State.dbErr_keeps hS ‹_›) (State.addVisible_keeps hM ‹_›))

theorem State.flowDoorbell_keeps {P s i v} (hM : Mobile P) (hs : P s) :
    P (State.flowDoorbell s i v) := by
  have hS := hM.stable
  unfold State.flowDoorbell
  split
  · exact State.badAccess_keeps hS ‹_›
  · exact State.dbErr_keeps hS ‹_›
  · exact State.doorbell_keeps hM ‹_›

theorem State.orphanRing_keeps {P s} (hS : Stable P) (hs : P s) :
    P (State.orphanRing s) := by
  unfold State.orphanRing
  extract_lets +onlyGivenNames x
  clear_value x
  exact ite_keeps (P := P) (Stable.upd hS rfl ‹_› (List.suffix_refl _) id id id (BitVec.le_refl _) id) ‹_›

theorem State.orphanStage_keeps {P s} (hS : Stable P) (hs : P s) :
    P (State.orphanStage s) := by
  unfold State.orphanStage
  extract_lets +onlyGivenNames x
  clear_value x
  extract_lets +onlyGivenNames x
  clear_value x
  exact ite_keeps (P := P) (Stable.upd hS rfl ‹_› (List.suffix_refl _) id id id (BitVec.le_refl _) id) ‹_›

theorem State.postBytes_keeps {P pasid a_1 a_2 a_3 a_4} (hS : Stable P) (ha_4 : P a_4) :
    P (State.postBytes pasid a_1 a_2 a_3 a_4) := by
  induction a_1 generalizing a_2 a_3 a_4 with
  | zero => exact ha_4
  | succ n ih =>
    unfold State.postBytes
    exact ite_keeps (P := P) ha_4 (ih (State.post_keeps hS ha_4))

theorem State.releaseOne_keeps {P s ctx f x_3 n} (hM : Mobile P) (hs : P s) :
    P (State.releaseOne s ctx f x_3 n) := by
  have hS := hM.stable
  unfold State.releaseOne
  extract_lets +onlyGivenNames x
  clear_value x
  extract_lets +onlyGivenNames x
  clear_value x
  extract_lets +onlyGivenNames x
  clear_value x
  extract_lets +onlyGivenNames x
  clear_value x
  extract_lets +onlyGivenNames x
  clear_value x
  extract_lets +onlyGivenNames x
  clear_value x
  extract_lets +onlyGivenNames x
  clear_value x
  extract_lets +onlyGivenNames x
  refine cut_value (p := P x) ?_ ?_
  · subst x
    exact State.post_keeps hS ‹_›
  intro hx
  clear_value x
  extract_lets +onlyGivenNames x
  clear_value x
  extract_lets +onlyGivenNames x
  refine cut_value (p := P x) ?_ ?_
  · subst x
    exact State.modInst_keeps hS ‹_›
  intro hx
  clear_value x
  extract_lets +onlyGivenNames x
  refine cut_value (p := P x) ?_ ?_
  · subst x
    exact State.freeWords_keeps hS ‹_›
  intro hx
  clear_value x
  extract_lets +onlyGivenNames x
  refine cut_value (p := P x) ?_ ?_
  · subst x
    exact State.modFlow_keeps hS ‹_›
  intro hx
  clear_value x
  extract_lets +onlyGivenNames x
  clear_value x
  extract_lets +onlyGivenNames x
  refine cut_value (p := P x) ?_ ?_
  · subst x
    exact ite_keeps (P := P) (State.raiseAfter_keeps hM ‹_›) ‹_›
  intro hx
  clear_value x
  extract_lets +onlyGivenNames x
  clear_value x
  extract_lets +onlyGivenNames x
  refine cut_value (p := P x) ?_ ?_
  · subst x
    exact State.freeContext_keeps hM ‹_›
  intro hx
  clear_value x
  exact ite_keeps (P := P) (State.closeCmds_keeps hM ‹_›) ‹_›

theorem State.spillStaged_keeps {P s ctx i} (hS : Stable P) (hs : P s) :
    P (State.spillStaged s ctx i) := by
  unfold State.spillStaged
  split
  · assumption
  · extract_lets +onlyGivenNames x
    clear_value x
    extract_lets +onlyGivenNames x
    refine cut_value (p := P x) ?_ ?_
    · subst x
      exact State.modFlow_keeps hS ‹_›
    intro hx
    clear_value x
    extract_lets +onlyGivenNames x
    clear_value x
    exact ite_keeps (P := P) ‹_› (State.modFlow_keeps hS ‹_›)

theorem State.turnTaken_keeps {P s group ctx f} (hS : Stable P) (hs : P s) :
    P (State.turnTaken s group ctx f) := by
  unfold State.turnTaken
  extract_lets +onlyGivenNames x
  clear_value x
  extract_lets +onlyGivenNames x
  clear_value x
  extract_lets +onlyGivenNames x
  clear_value x
  exact Stable.upd hS rfl ‹_› (List.suffix_refl _) id id id (BitVec.le_refl _) id

theorem execFlowDoorbell_keeps {P i v s} (hM : Mobile P) (hs : P s) :
    ResAll P (execFlowDoorbell i v s) := by
  have hS := hM.stable
  unfold execFlowDoorbell
  exact ResAll.next (State.flowDoorbell_keeps hM ‹_›)

theorem execCqEnable_keeps {P i q v s} (hM : Mobile P) (hs : P s) :
    ResAll P (execCqEnable i q v s) := by
  have hS := hM.stable
  unfold execCqEnable
  exact ResAll.next (State.cqCfgWrite_keeps hM ‹_›)

theorem execCqConsumerWrite_keeps {P i q v s} (hS : Stable P) (hs : P s) :
    ResAll P (execCqConsumerWrite i q v s) := by
  unfold execCqConsumerWrite
  exact ResAll.next (State.cqConsWrite_keeps hS ‹_›)

theorem execStageWindowOpen_keeps {P ctx course s} (hM : Mobile P) (hs : P s) :
    ResAll P (execStageWindowOpen ctx course s) := by
  have hS := hM.stable
  unfold execStageWindowOpen
  refine ResAll.next ?_
  split
  · assumption
  · exact ite_keeps (P := P) (State.bindWaiting_keeps hM ‹_›) ‹_›

theorem execAcceptanceDeadline_keeps {P ctx course s} (hM : Mobile P) (hs : P s) :
    ResAll P (execAcceptanceDeadline ctx course s) := by
  have hS := hM.stable
  unfold execAcceptanceDeadline
  extract_lets +onlyGivenNames x
  clear_value x
  refine ResAll.next ?_
  extract_lets +onlyGivenNames x
  split
  · assumption
  · extract_lets +onlyGivenNames x
    clear_value x
    extract_lets +onlyGivenNames x
    refine cut_value (p := P x) ?_ ?_
    · subst x
      exact foldl_keeps (P := P) (fun a b h => (State.deadlineSlot_keeps hM ‹_›)) ‹_›
    intro hx
    clear_value x
    exact ite_keeps (P := P) ‹_› (State.modFlow_keeps hS ‹_›)

theorem execRingFetchIssue_keeps {P ctx s} (hS : Stable P) (hs : P s) :
    ResAll P (execRingFetchIssue ctx s) := by
  unfold execRingFetchIssue
  refine ResAll.next ?_
  extract_lets +onlyGivenNames x
  split
  · assumption
  · extract_lets +onlyGivenNames x
    clear_value x
    extract_lets +onlyGivenNames x
    refine cut_value (p := P x) ?_ ?_
    · subst x
      exact State.turnTaken_keeps hS ‹_›
    intro hx
    clear_value x
    extract_lets +onlyGivenNames x
    clear_value x
    extract_lets +onlyGivenNames x
    refine cut_value (p := P x) ?_ ?_
    · subst x
      exact State.modFlow_keeps hS ‹_›
    intro hx
    clear_value x
    extract_lets +onlyGivenNames x
    clear_value x
    extract_lets +onlyGivenNames x
    refine cut_value (p := P x) ?_ ?_
    · subst x
      exact Stable.upd hS rfl ‹_› (List.suffix_refl _) id id id (BitVec.le_refl _) id
    intro hx
    clear_value x
    extract_lets +onlyGivenNames x
    clear_value x
    extract_lets +onlyGivenNames x
    refine cut_value (p := P x) ?_ ?_
    · subst x
      exact State.setFld_keeps hS ‹_›
    intro hx
    clear_value x
    exact ite_keeps (P := P) ‹_› (State.emit_keeps hS ‹_›)

theorem execDescriptorArrival_keeps {P ctx i e w s} (hM : Mobile P) (hs : P s) :
    ResAll P (execDescriptorArrival ctx i e w s) := by
  have hS := hM.stable
  unfold execDescriptorArrival
  extract_lets +onlyGivenNames x
  refine cut_value (p := P x) ?_ ?_
  · subst x
    exact State.modFlow_keeps hS ‹_›
  intro hx
  clear_value x
  extract_lets +onlyGivenNames x
  clear_value x
  extract_lets +onlyGivenNames x
  refine cut_value (p := P x) ?_ ?_
  · subst x
    exact Stable.upd hS rfl ‹_› (List.suffix_refl _) id id id (BitVec.le_refl _) id
  intro hx
  clear_value x
  refine guarded_keeps hS ?_
  extract_lets +onlyGivenNames x
  split
  · exact State.orphanRing_keeps hS ‹_›
  · extract_lets +onlyGivenNames x
    refine cut_value (p := P x) ?_ ?_
    · subst x
      exact State.readError_keeps hM ‹_›
    intro hx
    clear_value x
    refine ite_keeps (P := P) ?_ ?_
    · exact State.orphanRing_keeps hS ‹_›
    · extract_lets +onlyGivenNames x
      split
      · extract_lets +onlyGivenNames x
        refine cut_value (p := P x) ?_ ?_
        · subst x
          exact State.modFlow_keeps hS (State.arrived_keeps hS ‹_›)
        intro hx
        clear_value x
        exact State.bindWaiting_keeps hM (State.spillStaged_keeps hS ‹_›)
      · exact State.setCauses_keeps hM ‹_›

theorem execStageFetchIssue_keeps {P ctx s} (hS : Stable P) (hs : P s) :
    ResAll P (execStageFetchIssue ctx s) := by
  unfold execStageFetchIssue
  refine ResAll.next ?_
  extract_lets +onlyGivenNames x
  split
  · assumption
  · extract_lets +onlyGivenNames x
    clear_value x
    extract_lets +onlyGivenNames x
    refine cut_value (p := P x) ?_ ?_
    · subst x
      exact State.turnTaken_keeps hS ‹_›
    intro hx
    clear_value x
    extract_lets +onlyGivenNames x
    clear_value x
    extract_lets +onlyGivenNames x
    clear_value x
    extract_lets +onlyGivenNames x
    refine cut_value (p := P x) ?_ ?_
    · subst x
      exact State.modXfer_keeps hS (State.useBank_keeps hS (State.openBank_keeps hS ‹_›))
    intro hx
    clear_value x
    extract_lets +onlyGivenNames x
    clear_value x
    extract_lets +onlyGivenNames x
    refine cut_value (p := P x) ?_ ?_
    · subst x
      exact Stable.upd hS rfl ‹_› (List.suffix_refl _) id id id (BitVec.le_refl _) id
    intro hx
    clear_value x
    extract_lets +onlyGivenNames x
    refine cut_value (p := P x) ?_ ?_
    · subst x
      exact State.setFld_keeps hS ‹_›
    intro hx
    clear_value x
    exact ite_keeps (P := P) ‹_› (State.emit_keeps hS ‹_›)

theorem execStageReadComplete_keeps {P ctx i e data s} (hM : Mobile P) (hs : P s) :
    ResAll P (execStageReadComplete ctx i e data s) := by
  have hS := hM.stable
  unfold execStageReadComplete
  extract_lets +onlyGivenNames x
  clear_value x
  extract_lets +onlyGivenNames x
  refine cut_value (p := P x) ?_ ?_
  · subst x
    exact Stable.upd hS rfl ‹_› (List.suffix_refl _) id id id (BitVec.le_refl _) id
  intro hx
  clear_value x
  extract_lets +onlyGivenNames x
  refine cut_value (p := P x) ?_ ?_
  · subst x
    exact State.modXfer_keeps hS ‹_›
  intro hx
  clear_value x
  split
  · exact ResAll.next (State.orphanStage_keeps hS ‹_›)
  · extract_lets +onlyGivenNames x
    clear_value x
    extract_lets +onlyGivenNames x
    clear_value x
    extract_lets +onlyGivenNames x
    clear_value x
    extract_lets +onlyGivenNames x
    refine cut_value (p := P x) ?_ ?_
    · subst x
      refine State.freeSome_keeps hS ?_
      split
      · exact State.openBank_keeps hS ‹_›
      · assumption
    intro hx
    clear_value x
    extract_lets +onlyGivenNames x
    refine cut_value (p := P x) ?_ ?_
    · subst x
      exact State.modXfer_keeps hS ‹_›
    intro hx
    clear_value x
    extract_lets +onlyGivenNames x
    clear_value x
    extract_lets +onlyGivenNames x
    refine cut_value (p := P x) ?_ ?_
    · subst x
      exact State.freeSome_keeps hS (State.readError_keeps hM ‹_›)
    intro hx
    clear_value x
    extract_lets +onlyGivenNames x
    refine cut_value (p := P x) ?_ ?_
    · subst x
      exact State.modXfer_keeps hS ‹_›
    intro hx
    clear_value x
    exact ite_keeps (P := ResAll P) (ResAll.next (State.orphanStage_keeps hS ‹_›)) (guarded_keeps hS (ite_keeps (P := P) ‹_› (ite_keeps (P := P) (ite_keeps (P := P) (ite_keeps (P := P) ‹_› (State.accept_keeps hM ‹_›)) ‹_›) (ite_keeps (P := P) ‹_› (State.setCauses_keeps hM (State.finish_keeps hM ‹_›))))))

theorem execInputWriteBack_keeps {P ctx i credit s} (hS : Stable P) (hs : P s) :
    ResAll P (execInputWriteBack ctx i credit s) := by
  unfold execInputWriteBack
  refine ResAll.next ?_
  extract_lets +onlyGivenNames x
  split
  · assumption
  · extract_lets +onlyGivenNames x
    refine cut_value (p := P x) ?_ ?_
    · subst x
      exact ite_keeps (P := P) (Stable.upd hS rfl ‹_› (List.suffix_refl _) id id id (BitVec.le_refl _) id) ‹_›
    intro hx
    clear_value x
    extract_lets +onlyGivenNames x
    clear_value x
    extract_lets +onlyGivenNames x
    clear_value x
    extract_lets +onlyGivenNames x
    clear_value x
    extract_lets +onlyGivenNames x
    clear_value x
    extract_lets +onlyGivenNames x
    clear_value x
    extract_lets +onlyGivenNames x
    refine cut_value (p := P x) ?_ ?_
    · subst x
      exact ite_keeps (P := P) (Snd.out (State.freeWord_keeps hS ‹_›)) ‹_›
    intro hx
    clear_value x
    extract_lets +onlyGivenNames x
    clear_value x
    extract_lets +onlyGivenNames x
    clear_value x
    extract_lets +onlyGivenNames x
    refine cut_value (p := P x) ?_ ?_
    · subst x
      exact State.postBytes_keeps hS ‹_›
    intro hx
    clear_value x
    exact ite_keeps (P := P) ‹_› (State.modXfer_keeps hS (State.freeWords_keeps hS ‹_›))

theorem execHostStallOpen_keeps {P i waits s} (hM : Mobile P) (hs : P s) :
    ResAll P (execHostStallOpen i waits s) := by
  have hS := hM.stable
  unfold execHostStallOpen
  extract_lets +onlyGivenNames x
  clear_value x
  extract_lets +onlyGivenNames x
  clear_value x
  extract_lets +onlyGivenNames x
  refine cut_value (p := P x) ?_ ?_
  · subst x
    exact State.modInst_keeps hS ‹_›
  intro hx
  clear_value x
  extract_lets +onlyGivenNames x
  refine cut_value (p := P x) ?_ ?_
  · subst x
    exact State.happen_keeps hM (State.addSat_keeps hS ‹_›)
  intro hx
  clear_value x
  exact ResAll.next (ite_keeps (P := P) ‹_› (ite_keeps (P := P) (State.raiseOpt_keeps hM ‹_›) ‹_›))

theorem execHostStallClose_keeps {P i s} (hM : Mobile P) (hs : P s) :
    ResAll P (execHostStallClose i s) := by
  have hS := hM.stable
  unfold execHostStallClose
  exact ResAll.next (State.stallClose_keeps hM ‹_›)

theorem execCompletionRelease_keeps {P s} (hM : Mobile P) (hs : P s) :
    ResAll P (execCompletionRelease s) := by
  have hS := hM.stable
  unfold execCompletionRelease
  refine ResAll.next ?_
  split
  · exact State.releaseOne_keeps hM (Stable.upd hS rfl ‹_› (List.suffix_refl _) id id id (BitVec.le_refl _) id)
  · assumption

end Sys2Proof.Machine
end

