-- ==== Sys2Proof/Laws/KeepsMailbox.lean ====
section
/-!
SUPPORT. What the operations and meanings of Machine/Mailbox.lean keep (see Laws/Follows.lean): steady ones any `Stable` property, the others any
`Mobile` one.
-/

set_option linter.tactic.unusedName false
set_option linter.unusedVariables false

namespace Sys2Proof.Machine

theorem State.wait_keeps {P s c result boundary} (hS : Stable P) (hs : P s) :
    P (State.wait s c result boundary) := by
  unfold State.wait
  exact State.modTaken_keeps hS ‹_›

theorem State.bellTasks_keeps {P s i} (hS : Stable P) (hs : P s) :
    P (State.bellTasks s i) := by
  unfold State.bellTasks
  exact Stable.upd hS rfl ‹_› (List.suffix_refl _) id id id (BitVec.le_refl _) id

theorem State.command_keeps {P s c fr ranges permitted act} (hM : Mobile P) (hs : P s) (hact : ∀ u0, P (act u0)) :
    P (State.command s c fr ranges permitted act) := by
  have hS := hM.stable
  unfold State.command
  split
  · assumption
  · extract_lets +onlyGivenNames x
    clear_value x
    refine ite_keeps (P := P) ?_ ?_
    · assumption
    · split
      · exact State.done_keeps hM ‹_›
      · refine ite_keeps (P := P) ?_ ?_
        · exact State.done_keeps hM ‹_›
        · refine ite_keeps (P := P) ?_ ?_
          · exact State.done_keeps hM ‹_›
          · apply hact

theorem State.lookUp_keeps {P s i t} (hM : Mobile P) (hs : P s) :
    P (State.lookUp s i t) := by
  have hS := hM.stable
  unfold State.lookUp
  extract_lets +onlyGivenNames x
  clear_value x
  split
  · exact State.modInst_keeps hS ‹_›
  · refine ite_keeps (P := P) ?_ ?_
    · exact State.complete_keeps hM ‹_›
    · split
      · exact State.modTaken_keeps hS ‹_›
      · exact State.writeCopies_keeps hM ‹_›

theorem State.mbCfgWrite_keeps {P s i v} (hM : Mobile P) (hs : P s) :
    P (State.mbCfgWrite s i v) := by
  have hS := hM.stable
  unfold State.mbCfgWrite
  extract_lets +onlyGivenNames x
  clear_value x
  extract_lets +onlyGivenNames x
  clear_value x
  extract_lets +onlyGivenNames x
  subst x
  dsimp -zeta -zetaDelta only
  extract_lets +onlyGivenNames x
  clear_value x
  extract_lets +onlyGivenNames x
  clear_value x
  extract_lets +onlyGivenNames x
  extract_lets +onlyGivenNames x
  refine cut_value (p := P x) ?_ ?_
  · subst x
    exact State.writeFields_keeps hM ‹_›
  intro hx
  clear_value x
  split
  · refine OptAll.elim (by assumption) ?_
    exact State.pageGate_keeps hS ‹_›
  · exact ite_keeps (P := P) ‹_› (ite_keeps (P := P) (State.setFld_keeps hS (State.modInst_keeps hS ‹_›)) ‹_›)

theorem State.mbConsWrite_keeps {P s i v} (hS : Stable P) (hs : P s) :
    P (State.mbConsWrite s i v) := by
  unfold State.mbConsWrite
  extract_lets +onlyGivenNames x
  clear_value x
  extract_lets +onlyGivenNames x
  clear_value x
  extract_lets +onlyGivenNames x
  clear_value x
  split
  · refine OptAll.elim (by assumption) ?_
    exact State.pageGate_keeps hS ‹_›
  · exact ite_keeps (P := P) (State.setBit_keeps hS ‹_›) (State.setFld_keeps hS ‹_›)

theorem State.mbDoorbell_keeps {P s i v} (hS : Stable P) (hs : P s) :
    P (State.mbDoorbell s i v) := by
  unfold State.mbDoorbell
  extract_lets +onlyGivenNames x
  clear_value x
  extract_lets +onlyGivenNames x
  clear_value x
  extract_lets +onlyGivenNames x
  clear_value x
  extract_lets +onlyGivenNames x
  clear_value x
  split
  · exact State.badAccess_keeps hS ‹_›
  · assumption
  · refine ite_keeps (P := P) ?_ ?_
    · exact State.setBit_keeps hS ‹_›
    · extract_lets +onlyGivenNames x
      refine ite_keeps (P := P) ?_ ?_
      · assumption
      · extract_lets +onlyGivenNames x
        refine ite_keeps (P := P) ?_ ?_
        · exact State.setBit_keeps hS ‹_›
        · extract_lets +onlyGivenNames x
          refine State.bellTasks_keeps hS ?_
          extract_lets +onlyGivenNames x
          exact State.modInst_keeps hS ‹_›

theorem State.mbStatusWrite_keeps {P s i v} (hM : Mobile P) (hs : P s) :
    P (State.mbStatusWrite s i v) := by
  have hS := hM.stable
  unfold State.mbStatusWrite
  split
  · refine OptAll.elim (by assumption) ?_
    exact State.pageGate_keeps hS ‹_›
  · exact State.writeFields_keeps hM ‹_›

theorem execMailboxDoorbell_keeps {P i v s} (hS : Stable P) (hs : P s) :
    ResAll P (execMailboxDoorbell i v s) := by
  unfold execMailboxDoorbell
  exact ResAll.next (State.mbDoorbell_keeps hS ‹_›)

theorem execMailboxEnable_keeps {P i v s} (hM : Mobile P) (hs : P s) :
    ResAll P (execMailboxEnable i v s) := by
  have hS := hM.stable
  unfold execMailboxEnable
  exact ResAll.next (State.mbCfgWrite_keeps hM ‹_›)

theorem execMailboxConsumerWrite_keeps {P i v s} (hS : Stable P) (hs : P s) :
    ResAll P (execMailboxConsumerWrite i v s) := by
  unfold execMailboxConsumerWrite
  exact ResAll.next (State.mbConsWrite_keeps hS ‹_›)

theorem execFetchErrClear_keeps {P i v s} (hM : Mobile P) (hs : P s) :
    ResAll P (execFetchErrClear i v s) := by
  have hS := hM.stable
  unfold execFetchErrClear
  exact ResAll.next (State.mbStatusWrite_keeps hM ‹_›)

theorem execCommandTake_keeps {P i e entry s} (hM : Mobile P) (hs : P s) :
    ResAll P (execCommandTake i e entry s) := by
  have hS := hM.stable
  unfold execCommandTake
  extract_lets +onlyGivenNames x
  clear_value x
  extract_lets +onlyGivenNames x
  clear_value x
  extract_lets +onlyGivenNames x
  clear_value x
  extract_lets +onlyGivenNames x
  refine cut_value (p := P x) ?_ ?_
  · subst x
    exact State.emit_keeps hS ‹_›
  intro hx
  clear_value x
  extract_lets +onlyGivenNames x
  clear_value x
  extract_lets +onlyGivenNames x
  refine cut_value (p := P x) ?_ ?_
  · subst x
    exact State.modInst_keeps hS ‹_›
  intro hx
  clear_value x
  exact guarded_keeps hS (ite_keeps (P := P) ‹_› (ite_keeps (P := P) (State.readError_keeps hM (State.setBit_keeps hS ‹_›)) (State.lookUp_keeps hM ‹_›)))

theorem execCommandStart_keeps {P c s} (hM : Mobile P) (hs : P s) :
    ResAll P (execCommandStart c s) := by
  have hS := hM.stable
  unfold execCommandStart
  extract_lets +onlyGivenNames x
  clear_value x
  extract_lets +onlyGivenNames x
  clear_value x
  extract_lets +onlyGivenNames x
  clear_value x
  extract_lets +onlyGivenNames x
  refine cut_value (p := P x) ?_ ?_
  · subst x
    exact ite_keeps (P := P) ‹_› (Stable.upd hS rfl ‹_› (List.suffix_refl _) id id id (BitVec.le_refl _) id)
  intro hx
  clear_value x
  refine ResAll.next ?_
  extract_lets +onlyGivenNames x
  split
  · assumption
  · extract_lets +onlyGivenNames x
    clear_value x
    exact ite_keeps (P := P) (ite_keeps (P := P) (State.modTaken_keeps hS ‹_›) (State.complete_keeps hM ‹_›)) ‹_›

end Sys2Proof.Machine
end

