-- ==== Sys2Proof/Laws/KeepsInst.lean ====
section
/-!
SUPPORT. What the operations and meanings of Machine/Inst.lean keep (see Laws/Follows.lean): steady ones any `Stable` property, the others any
`Mobile` one.
-/

set_option linter.tactic.unusedName false
set_option linter.unusedVariables false

namespace Sys2Proof.Machine

theorem State.freshSources_keeps {P s blocks} (hS : Stable P) (hs : P s) :
    P (State.freshSources s blocks) := by
  unfold State.freshSources
  refine foldl_keeps (P := P) (fun a b h => ?_) ?_
  · extract_lets +onlyGivenNames x
    clear_value x
    exact Stable.upd hS rfl ‹_› (List.suffix_refl _) id id id (BitVec.le_refl _) id
  · assumption

theorem State.freshPage_keeps {P s n} (hS : Stable P) (hs : P s) :
    P (State.freshPage s n) := by
  unfold State.freshPage
  extract_lets +onlyGivenNames x
  subst x
  dsimp -zeta -zetaDelta only
  exact Stable.upd hS rfl ‹_› (List.suffix_refl _) (ksorted_filter _ _) id id (BitVec.le_refl _) id

theorem State.afterDestroy_keeps {P s i} (hS : Stable P) (hs : P s) :
    P (State.afterDestroy s i) := by
  unfold State.afterDestroy
  extract_lets +onlyGivenNames x
  clear_value x
  extract_lets +onlyGivenNames x
  refine cut_value (p := P x) ?_ ?_
  · subst x
    exact State.freshSources_keeps hS ‹_›
  intro hx
  clear_value x
  extract_lets +onlyGivenNames x
  refine cut_value (p := P x) ?_ ?_
  · subst x
    exact Stable.upd hS rfl ‹_› (List.suffix_refl _) id id id (BitVec.le_refl _) id
  intro hx
  clear_value x
  exact State.setInst_keeps hS (State.freshPage_keeps hS ‹_›)

theorem State.afterReset_keeps {P s i} (hS : Stable P) (hs : P s) :
    P (State.afterReset s i) := by
  unfold State.afterReset
  extract_lets +onlyGivenNames x
  refine cut_value (p := P x) ?_ ?_
  · subst x
    exact foldl_keeps (P := P) (fun a b h => (State.setFld_keeps hS ‹_›)) ‹_›
  intro hx
  clear_value x
  extract_lets +onlyGivenNames x
  refine cut_value (p := P x) ?_ ?_
  · subst x
    exact State.freshSources_keeps hS ‹_›
  intro hx
  clear_value x
  exact State.modInst_keeps hS ‹_›

theorem State.dropPosted_keeps {P s i} (hS : Stable P) (hs : P s) :
    P (State.dropPosted s i) := by
  unfold State.dropPosted
  exact Stable.upd hS rfl ‹_› (List.suffix_refl _) id id id (BitVec.le_refl _) id

theorem State.unheldVecs_keeps {P s first n} (hS : Stable P) (hs : P s) :
    P (State.unheldVecs s first n) := by
  unfold State.unheldVecs
  extract_lets +onlyGivenNames x
  clear_value x
  exact Stable.upd hS rfl ‹_› (List.suffix_refl _) id id id (BitVec.le_refl _) id

theorem State.dropSignals_keeps {P s i} (hS : Stable P) (hs : P s) :
    P (State.dropSignals s i) := by
  unfold State.dropSignals
  exact State.unheldVecs_keeps hS (State.freshSources_keeps hS ‹_›)

theorem State.dropFlow_keeps {P s b ctx} (hM : Mobile P) (hs : P s) :
    P (State.dropFlow s b ctx) := by
  have hS := hM.stable
  unfold State.dropFlow
  split
  · assumption
  · extract_lets +onlyGivenNames x
    clear_value x
    extract_lets +onlyGivenNames x
    refine cut_value (p := P x) ?_ ?_
    · subst x
      exact foldl_keeps (P := P) (fun a b h => (State.freeWords_keeps hS ‹_›)) ‹_›
    intro hx
    clear_value x
    extract_lets +onlyGivenNames x
    refine cut_value (p := P x) ?_ ?_
    · subst x
      exact State.modFlow_keeps hS ‹_›
    intro hx
    clear_value x
    exact State.cancelTask_keeps hM ‹_›

theorem State.holdCommitted_keeps {P s cs} (hS : Stable P) (hs : P s) :
    P (State.holdCommitted s cs) := by
  unfold State.holdCommitted
  exact Stable.upd hS rfl ‹_› (List.suffix_refl _) id id id (BitVec.le_refl _) id

theorem State.startReset_keeps {P s i destroy cmd} (hM : Mobile P) (hs : P s) :
    P (State.startReset s i destroy cmd) := by
  have hS := hM.stable
  unfold State.startReset
  extract_lets +onlyGivenNames x
  refine cut_value (p := P x) ?_ ?_
  · subst x
    exact State.dropPosted_keeps hS ‹_›
  intro hx
  clear_value x
  extract_lets +onlyGivenNames x
  refine cut_value (p := P x) ?_ ?_
  · subst x
    exact foldl_keeps (P := P) (fun a b h => (State.complete_keeps hM ‹_›)) ‹_›
  intro hx
  clear_value x
  extract_lets +onlyGivenNames x
  refine cut_value (p := P x) ?_ ?_
  · subst x
    exact State.setBit_keeps hS (State.setFld_keeps hS ‹_›)
  intro hx
  clear_value x
  extract_lets +onlyGivenNames x
  refine cut_value (p := P x) ?_ ?_
  · subst x
    exact State.stallClose_keeps hM (State.dropSignals_keeps hS ‹_›)
  intro hx
  clear_value x
  extract_lets +onlyGivenNames x
  clear_value x
  extract_lets +onlyGivenNames x
  clear_value x
  extract_lets +onlyGivenNames x
  clear_value x
  extract_lets +onlyGivenNames x
  refine cut_value (p := P x) ?_ ?_
  · subst x
    exact State.modInst_keeps hS ‹_›
  intro hx
  clear_value x
  extract_lets +onlyGivenNames x
  refine cut_value (p := P x) ?_ ?_
  · subst x
    exact foldl_keeps (P := P) (fun a b h => (State.dropFlow_keeps hM ‹_›)) ‹_›
  intro hx
  clear_value x
  extract_lets +onlyGivenNames x
  refine cut_value (p := P x) ?_ ?_
  · subst x
    exact State.holdCommitted_keeps hS ‹_›
  intro hx
  clear_value x
  exact ite_keeps (P := P) (State.planAgain_keeps hS ‹_›) ‹_›

theorem State.carve_keeps {P s i pasid a_3} (hS : Stable P) (hs : P s) :
    P (State.carve s i pasid a_3) := by
  unfold State.carve
  extract_lets +onlyGivenNames x
  clear_value x
  extract_lets +onlyGivenNames x
  refine cut_value (p := P x) ?_ ?_
  · subst x
    exact State.freshSources_keeps hS (State.freshPage_keeps hS ‹_›)
  intro hx
  clear_value x
  extract_lets +onlyGivenNames x
  clear_value x
  exact State.setInst_keeps hS ‹_›

theorem State.endFlows_keeps {P s i destroy} (hS : Stable P) (hs : P s) :
    P (State.endFlows s i destroy) := by
  unfold State.endFlows
  extract_lets +onlyGivenNames x
  clear_value x
  refine foldl_keeps (P := P) (fun a b h => ?_) ?_
  · extract_lets +onlyGivenNames x
    split
    · assumption
    · extract_lets +onlyGivenNames x
      refine cut_value (p := P x) ?_ ?_
      · subst x
        exact foldl_keeps (P := P) (fun a b h => (State.freeWords_keeps hS ‹_›)) ‹_›
      intro hx
      clear_value x
      exact ite_keeps (P := P) (State.modFlow_keeps hS ‹_›) (Stable.upd hS rfl ‹_› (List.suffix_refl _) id (ksorted_kdel _ _) id (BitVec.le_refl _) id)
  · assumption

theorem State.endReset_keeps {P s i r} (hM : Mobile P) (hs : P s) :
    P (State.endReset s i r) := by
  have hS := hM.stable
  unfold State.endReset
  extract_lets +onlyGivenNames x
  clear_value x
  extract_lets +onlyGivenNames x
  refine cut_value (p := P x) ?_ ?_
  · subst x
    exact State.endFlows_keeps hS ‹_›
  intro hx
  clear_value x
  extract_lets +onlyGivenNames x
  refine cut_value (p := P x) ?_ ?_
  · subst x
    exact ite_keeps (P := P) (State.afterDestroy_keeps hS ‹_›) (State.afterReset_keeps hS ‹_›)
  intro hx
  clear_value x
  extract_lets +onlyGivenNames x
  refine cut_value (p := P x) ?_ ?_
  · subst x
    exact State.happen_keeps hM ‹_›
  intro hx
  clear_value x
  split
  · exact State.done_keeps hM ‹_›
  · assumption

theorem State.logRevoked_keeps {P s i removed} (hS : Stable P) (hs : P s) :
    P (State.logRevoked s i removed) := by
  unfold State.logRevoked
  extract_lets +onlyGivenNames x
  refine cut_value (p := P x) ?_ ?_
  · subst x
    exact foldl_keeps (P := P) (fun a b h => (State.setReg_keeps hS ‹_›)) ‹_›
  intro hx
  clear_value x
  refine foldl_keeps (P := P) (fun a b h => ?_) ?_
  · extract_lets +onlyGivenNames x
    clear_value x
    exact State.setFld_keeps hS (State.setFld_keeps hS ‹_›)
  · assumption

theorem State.resetCmd_keeps {P s c opcode destroy} (hM : Mobile P) (hs : P s) :
    P (State.resetCmd s c opcode destroy) := by
  have hS := hM.stable
  unfold State.resetCmd
  refine State.command_keeps hM ?_ ?_
  · assumption
  · intro a
    exact ite_keeps (P := P) (State.wait_keeps hS (State.startReset_keeps hM ‹_›)) (State.done_keeps hM ‹_›)

theorem State.setBlocks_keeps {P s i n} (hS : Stable P) (hs : P s) :
    P (State.setBlocks s i n) := by
  unfold State.setBlocks
  extract_lets +onlyGivenNames x
  clear_value x
  extract_lets +onlyGivenNames x
  clear_value x
  extract_lets +onlyGivenNames x
  refine cut_value (p := P x) ?_ ?_
  · subst x
    exact State.freshSources_keeps hS (State.freshSources_keeps hS ‹_›)
  intro hx
  clear_value x
  exact State.modInst_keeps hS ‹_›

theorem State.takeShares_keeps {P s h_1 b removed} (hS : Stable P) (hs : P s) :
    P (State.takeShares s h_1 b removed) := by
  unfold State.takeShares
  extract_lets +onlyGivenNames x
  refine cut_value (p := P x) ?_ ?_
  · subst x
    split
    · exact State.setBlocks_keeps hS ‹_›
    · assumption
  intro hx
  clear_value x
  extract_lets +onlyGivenNames x
  clear_value x
  extract_lets +onlyGivenNames x
  refine cut_value (p := P x) ?_ ?_
  · subst x
    split
    · exact State.unheldVecs_keeps hS ‹_›
    · assumption
  intro hx
  clear_value x
  extract_lets +onlyGivenNames x
  clear_value x
  extract_lets +onlyGivenNames x
  clear_value x
  exact State.modInst_keeps hS ‹_›

theorem State.shareAct_keeps {P s c h_2 force} (hM : Mobile P) (hs : P s) :
    P (State.shareAct s c h_2 force) := by
  have hS := hM.stable
  unfold State.shareAct
  extract_lets +onlyGivenNames x
  clear_value x
  extract_lets +onlyGivenNames x
  clear_value x
  extract_lets +onlyGivenNames x
  clear_value x
  extract_lets +onlyGivenNames x
  clear_value x
  extract_lets +onlyGivenNames x
  clear_value x
  extract_lets +onlyGivenNames x
  clear_value x
  extract_lets +onlyGivenNames x
  refine cut_value (p := P x) ?_ ?_
  · subst x
    exact ite_keeps (P := P) (State.logRevoked_keeps hS ‹_›) ‹_›
  intro hx
  clear_value x
  extract_lets +onlyGivenNames x
  refine cut_value (p := P x) ?_ ?_
  · subst x
    exact foldl_keeps (P := P) (fun a b h => (State.modFlow_keeps hS ‹_›)) ‹_›
  intro hx
  clear_value x
  extract_lets +onlyGivenNames x
  clear_value x
  extract_lets +onlyGivenNames x
  refine cut_value (p := P x) ?_ ?_
  · subst x
    exact State.takeShares_keeps hS ‹_›
  intro hx
  clear_value x
  exact ite_keeps (P := P) (State.wait_keeps hS (State.planAgain_keeps hS ‹_›)) (State.done_keeps hM ‹_›)

theorem execInstCreate_keeps {P c s} (hM : Mobile P) (hs : P s) :
    ResAll P (execInstCreate c s) := by
  have hS := hM.stable
  unfold execInstCreate
  refine ResAll.next ?_
  extract_lets +onlyGivenNames x
  refine State.command_keeps hM ?_ ?_
  · assumption
  · intro a
    extract_lets +onlyGivenNames x
    clear_value x
    split
    · exact State.done_keeps hM ‹_›
    · extract_lets +onlyGivenNames x
      refine cut_value (p := P x) ?_ ?_
      · subst x
        exact State.carve_keeps hS ‹_›
      intro hx
      clear_value x
      refine ite_keeps (P := P) ?_ ?_
      · exact State.done_keeps hM ‹_›
      · refine ite_keeps (P := P) ?_ ?_
        · split
          · exact State.done_keeps hM ‹_›
          · split
            refine State.done_keeps hM ?_
            refine Snd.elim (by assumption) ?_
            exact State.freeWord_keeps hS ‹_›
        · exact State.done_keeps hM ‹_›

theorem execInstDestroy_keeps {P c s} (hM : Mobile P) (hs : P s) :
    ResAll P (execInstDestroy c s) := by
  have hS := hM.stable
  unfold execInstDestroy
  exact ResAll.next (State.resetCmd_keeps hM ‹_›)

theorem execInstReset_keeps {P c s} (hM : Mobile P) (hs : P s) :
    ResAll P (execInstReset c s) := by
  have hS := hM.stable
  unfold execInstReset
  exact ResAll.next (State.resetCmd_keeps hM ‹_›)

theorem execInstSetShare_keeps {P c s} (hM : Mobile P) (hs : P s) :
    ResAll P (execInstSetShare c s) := by
  have hS := hM.stable
  unfold execInstSetShare
  refine ResAll.next ?_
  extract_lets +onlyGivenNames x
  refine State.command_keeps hM ?_ ?_
  · assumption
  · intro a
    extract_lets +onlyGivenNames x
    clear_value x
    exact ite_keeps (P := P) (State.done_keeps hM ‹_›) (ite_keeps (P := P) (State.done_keeps hM ‹_›) (ite_keeps (P := P) (State.done_keeps hM ‹_›) (State.shareAct_keeps hM ‹_›)))

theorem execInstQuery_keeps {P c s} (hM : Mobile P) (hs : P s) :
    ResAll P (execInstQuery c s) := by
  have hS := hM.stable
  unfold execInstQuery
  refine ResAll.next ?_
  extract_lets +onlyGivenNames x
  refine State.command_keeps hM ?_ ?_
  · assumption
  · intro a
    extract_lets +onlyGivenNames x
    clear_value x
    extract_lets +onlyGivenNames x
    clear_value x
    extract_lets +onlyGivenNames x
    clear_value x
    extract_lets +onlyGivenNames x
    clear_value x
    exact State.done_keeps hM ‹_›

theorem execInstFreeze_keeps {P c s} (hM : Mobile P) (hs : P s) :
    ResAll P (execInstFreeze c s) := by
  have hS := hM.stable
  unfold execInstFreeze
  refine ResAll.next ?_
  extract_lets +onlyGivenNames x
  refine State.command_keeps hM ?_ ?_
  · assumption
  · intro a
    extract_lets +onlyGivenNames x
    clear_value x
    split
    · assumption
    · extract_lets +onlyGivenNames x
      clear_value x
      exact ite_keeps (P := P) (State.done_keeps hM ‹_›) (State.wait_keeps hS (State.modInst_keeps hS ‹_›))

theorem execInstThaw_keeps {P c s} (hM : Mobile P) (hs : P s) :
    ResAll P (execInstThaw c s) := by
  have hS := hM.stable
  unfold execInstThaw
  extract_lets +onlyGivenNames x
  subst x
  dsimp -zeta -zetaDelta only
  refine ResAll.next ?_
  extract_lets +onlyGivenNames x
  refine State.command_keeps hM ?_ ?_
  · assumption
  · intro a
    extract_lets +onlyGivenNames x
    clear_value x
    split
    · assumption
    · exact ite_keeps (P := P) (State.done_keeps hM ‹_›) (State.wait_keeps hS (State.modInst_keeps hS ‹_›))

theorem execEngineEpochAck_keeps {P e i s} (hM : Mobile P) (hs : P s) :
    ResAll P (execEngineEpochAck e i s) := by
  have hS := hM.stable
  unfold execEngineEpochAck
  refine ResAll.next ?_
  extract_lets +onlyGivenNames x
  split
  · assumption
  · extract_lets +onlyGivenNames x
    exact ite_keeps (P := P) ‹_› (ite_keeps (P := P) (State.endReset_keeps hM ‹_›) (State.modInst_keeps hS ‹_›))

theorem execInstanceQuiescent_keeps {P i s} (hM : Mobile P) (hs : P s) :
    ResAll P (execInstanceQuiescent i s) := by
  have hS := hM.stable
  unfold execInstanceQuiescent
  extract_lets +onlyGivenNames x
  clear_value x
  exact ResAll.next (ite_keeps (P := P) (State.happen_keeps hM (State.modInst_keeps hS ‹_›)) ‹_›)

end Sys2Proof.Machine
end

