-- ==== Sys2Proof/Laws/KeepsTime.lean ====
section
/-!
SUPPORT. What the operations and meanings of Machine/Time.lean keep (see Laws/Follows.lean): steady ones any `Stable` property, the others any
`Mobile` one.
-/

set_option linter.tactic.unusedName false
set_option linter.unusedVariables false

namespace Sys2Proof.Machine

theorem State.setQuality_keeps {P s q} (hM : Mobile P) (hs : P s) :
    P (State.setQuality s q) := by
  have hS := hM.stable
  unfold State.setQuality
  extract_lets +onlyGivenNames x
  clear_value x
  extract_lets +onlyGivenNames x
  clear_value x
  extract_lets +onlyGivenNames x
  clear_value x
  extract_lets +onlyGivenNames x
  clear_value x
  extract_lets +onlyGivenNames x
  refine cut_value (p := P x) ?_ ?_
  · subst x
    exact Stable.upd hS rfl ‹_› (List.suffix_refl _) id id id (BitVec.le_refl _) id
  intro hx
  clear_value x
  exact ite_keeps (P := P) ‹_› (State.event_keeps hM (State.happen_keeps hM ‹_›))

theorem State.sourceEffect_keeps {P s src} (hM : Mobile P) (hs : P s) :
    P (State.sourceEffect s src) := by
  have hS := hM.stable
  unfold State.sourceEffect
  extract_lets +onlyGivenNames x
  extract_lets +onlyGivenNames x
  refine cut_value (p := P x) ?_ ?_
  · subst x
    exact Stable.upd hS rfl ‹_› (List.suffix_refl _) id id id (BitVec.le_refl _) id
  intro hx
  extract_lets +onlyGivenNames x
  exact ite_keeps (P := P) ‹_› (State.setQuality_keeps hM ‹_›)

theorem State.setSource_keeps {P s src} (hM : Mobile P) (hs : P s) :
    P (State.setSource s src) := by
  have hS := hM.stable
  unfold State.setSource
  extract_lets +onlyGivenNames x
  clear_value x
  extract_lets +onlyGivenNames x
  refine cut_value (p := P x) ?_ ?_
  · subst x
    exact ite_keeps (P := P) ‹_› (State.setFld_keeps hS (State.shadow_keeps hS ‹_›))
  intro hx
  clear_value x
  exact ite_keeps (P := P) ‹_› (State.sourceEffect_keeps hM ‹_›)

theorem State.lockTime_keeps {P s} (hM : Mobile P) (hs : P s) :
    P (State.lockTime s) := by
  have hS := hM.stable
  unfold State.lockTime
  extract_lets +onlyGivenNames x
  clear_value x
  exact State.setQuality_keeps hM (Stable.upd hS rfl ‹_› (List.suffix_refl _) id id id (BitVec.le_refl _) id)

theorem State.applyStep_keeps {P s v frac} (hM : Mobile P) (hs : P s) :
    P (State.applyStep s v frac) := by
  have hS := hM.stable
  unfold State.applyStep
  extract_lets +onlyGivenNames x
  clear_value x
  extract_lets +onlyGivenNames x
  clear_value x
  extract_lets +onlyGivenNames x
  refine cut_value (p := P x) ?_ ?_
  · subst x
    exact Stable.upd hS rfl ‹_› (List.suffix_refl _) id (ksorted_map _ _ (fun _ => rfl)) id (BitVec.le_refl _) id
  intro hx
  clear_value x
  extract_lets +onlyGivenNames x
  refine cut_value (p := P x) ?_ ?_
  · subst x
    exact State.happen_keeps hM ‹_›
  intro hx
  clear_value x
  exact ite_keeps (P := P) (State.lockTime_keeps hM ‹_›) ‹_›

theorem State.rebuild_keeps {P s base ticks} (hM : Mobile P) (hs : P s) :
    P (State.rebuild s base ticks) := by
  have hS := hM.stable
  unfold State.rebuild
  extract_lets +onlyGivenNames x
  clear_value x
  extract_lets +onlyGivenNames x
  clear_value x
  extract_lets +onlyGivenNames x
  extract_lets +onlyGivenNames x
  refine cut_value (p := P x) ?_ ?_
  · subst x
    exact Stable.upd hS rfl ‹_› (List.suffix_refl _) id id id (BitVec.le_refl _) id
  intro hx
  extract_lets +onlyGivenNames x
  refine cut_value (p := P x) ?_ ?_
  · subst x
    exact ite_keeps (P := P) ‹_› (State.setQuality_keeps hM ‹_›)
  intro hx
  clear_value x
  exact State.happen_keeps hM ‹_›

theorem State.loseLock_keeps {P s} (hM : Mobile P) (hs : P s) :
    P (State.loseLock s) := by
  have hS := hM.stable
  unfold State.loseLock
  extract_lets +onlyGivenNames x
  clear_value x
  exact State.setQuality_keeps hM (Stable.upd hS rfl ‹_› (List.suffix_refl _) id id id (BitVec.le_refl _) id)

theorem State.dueStep_keeps {P s} (hM : Mobile P) (hs : P s) :
    P (State.dueStep s) := by
  have hS := hM.stable
  unfold State.dueStep
  split
  · exact State.applyStep_keeps hM ‹_›
  · extract_lets +onlyGivenNames x
    clear_value x
    exact State.applyStep_keeps hM ‹_›
  · assumption

theorem State.nextRate_keeps {P s} (hS : Stable P) (hs : P s) :
    P (State.nextRate s) := by
  unfold State.nextRate
  extract_lets +onlyGivenNames x
  clear_value x
  extract_lets +onlyGivenNames x
  clear_value x
  extract_lets +onlyGivenNames x
  clear_value x
  extract_lets +onlyGivenNames x
  clear_value x
  extract_lets +onlyGivenNames x
  clear_value x
  extract_lets +onlyGivenNames x
  clear_value x
  exact Stable.upd hS rfl ‹_› (List.suffix_refl _) id id id (BitVec.le_refl _) id

theorem State.ppsGone_keeps {P s} (hM : Mobile P) (hs : P s) :
    P (State.ppsGone s) := by
  have hS := hM.stable
  unfold State.ppsGone
  extract_lets +onlyGivenNames x
  clear_value x
  extract_lets +onlyGivenNames x
  clear_value x
  extract_lets +onlyGivenNames x
  refine cut_value (p := P x) ?_ ?_
  · subst x
    exact Stable.upd hS rfl ‹_› (List.suffix_refl _) id id id (BitVec.le_refl _) id
  intro hx
  clear_value x
  exact ite_keeps (P := P) (State.loseLock_keeps hM ‹_›) ‹_›

theorem State.ppsSample_keeps {P s o} (hS : Stable P) (hs : P s) :
    P (State.ppsSample s o) := by
  unfold State.ppsSample
  extract_lets +onlyGivenNames x
  clear_value x
  extract_lets +onlyGivenNames x
  extract_lets +onlyGivenNames x
  clear_value x
  extract_lets +onlyGivenNames x
  clear_value x
  extract_lets +onlyGivenNames x
  clear_value x
  extract_lets +onlyGivenNames x
  clear_value x
  extract_lets +onlyGivenNames x
  clear_value x
  exact Stable.upd hS rfl ‹_› (List.suffix_refl _) id id id (BitVec.le_refl _) id

theorem State.startSlew_keeps {P s ns} (hM : Mobile P) (hs : P s) :
    P (State.startSlew s ns) := by
  have hS := hM.stable
  unfold State.startSlew
  extract_lets +onlyGivenNames x
  clear_value x
  extract_lets +onlyGivenNames x
  refine cut_value (p := P x) ?_ ?_
  · subst x
    exact Stable.upd hS rfl ‹_› (List.suffix_refl _) id id id (BitVec.le_refl _) id
  intro hx
  clear_value x
  exact ite_keeps (P := P) (State.lockTime_keeps hM ‹_›) ‹_›

theorem execHoldoverTick_keeps {P s} (hM : Mobile P) (hs : P s) :
    ResAll P (execHoldoverTick s) := by
  have hS := hM.stable
  unfold execHoldoverTick
  extract_lets +onlyGivenNames x
  clear_value x
  extract_lets +onlyGivenNames x
  clear_value x
  extract_lets +onlyGivenNames x
  clear_value x
  extract_lets +onlyGivenNames x
  clear_value x
  extract_lets +onlyGivenNames x
  refine cut_value (p := P x) ?_ ?_
  · subst x
    exact Stable.upd hS rfl ‹_› (List.suffix_refl _) id id id (BitVec.le_refl _) id
  intro hx
  clear_value x
  exact ResAll.next (ite_keeps (P := P) (ite_keeps (P := P) (State.happen_keeps hM ‹_›) ‹_›) ‹_›)

theorem execPpsEdge_keeps {P stamp fall s} (hM : Mobile P) (hs : P s) :
    ResAll P (execPpsEdge stamp s fall) := by
  have hS := hM.stable
  unfold execPpsEdge
  extract_lets +onlyGivenNames x
  refine cut_value (p := P x) ?_ ?_
  · subst x
    exact State.setFld_keeps hS (State.setPair_keeps hS ‹_›)
  intro hx
  clear_value x
  extract_lets +onlyGivenNames x
  clear_value x
  extract_lets +onlyGivenNames x
  refine cut_value (p := P x) ?_ ?_
  · subst x
    exact State.setFld_keeps hS ‹_›
  intro hx
  clear_value x
  exact ResAll.next (ite_keeps (P := P) (State.lostPulse_keeps hS ‹_›) (ite_keeps (P := P) (ite_keeps (P := P) (ite_keeps (P := P) (State.ppsGone_keeps hM ‹_›) (State.ppsSample_keeps hS ‹_›)) ‹_›) ‹_›))

theorem execPpsMissing_keeps {P s} (hM : Mobile P) (hs : P s) :
    ResAll P (execPpsMissing s) := by
  have hS := hM.stable
  unfold execPpsMissing
  exact ResAll.next (ite_keeps (P := P) (State.ppsGone_keeps hM (State.happen_keeps hM (State.addSat_keeps hS ‹_›))) ‹_›)

theorem execPpsLock_keeps {P s} (hM : Mobile P) (hs : P s) :
    ResAll P (execPpsLock s) := by
  have hS := hM.stable
  unfold execPpsLock
  exact ResAll.next (ite_keeps (P := P) (State.lockTime_keeps hM ‹_›) ‹_›)

theorem execPpsOutEdge_keeps {P s} (hS : Stable P) (hs : P s) :
    ResAll P (execPpsOutEdge s) := by
  unfold execPpsOutEdge
  extract_lets +onlyGivenNames x
  clear_value x
  extract_lets +onlyGivenNames x
  clear_value x
  exact ResAll.next (ite_keeps (P := P) (State.emit_keeps hS ‹_›) ‹_›)

theorem execAoTick_keeps {P s} (hS : Stable P) (hs : P s) :
    ResAll P (execAoTick s) := by
  unfold execAoTick
  extract_lets +onlyGivenNames x
  clear_value x
  exact ResAll.next (Stable.upd hS rfl ‹_› (List.suffix_refl _) id id id (BitVec.le_refl _) id)

end Sys2Proof.Machine
end

