-- ==== Sys2Proof/Laws/KeepsPace.lean ====
section
/-!
SUPPORT. What the operations and meanings of Machine/Pace.lean keep (see Laws/Follows.lean): steady ones any `Stable` property, the others any
`Mobile` one.
-/

set_option linter.tactic.unusedName false
set_option linter.unusedVariables false

namespace Sys2Proof.Machine

theorem State.modEst_keeps {P s e f} (hS : Stable P) (hs : P s) :
    P (State.modEst s e f) := by
  unfold State.modEst
  exact Stable.upd hS rfl ‹_› (List.suffix_refl _) id id id (BitVec.le_refl _) id

theorem State.settleReleases_keeps {P s e held exceeded} (hS : Stable P) (hs : P s) :
    P (State.settleReleases s e held exceeded) := by
  unfold State.settleReleases
  exact State.mapFlows_keeps hS ‹_›

theorem State.applyPace_keeps {P s e} (hS : Stable P) (hs : P s) :
    P (State.applyPace s e) := by
  unfold State.applyPace
  extract_lets +onlyGivenNames x
  clear_value x
  extract_lets +onlyGivenNames x
  clear_value x
  exact ite_keeps (P := P) (State.modEst_keeps hS ‹_›) (ite_keeps (P := P) (State.modEst_keeps hS (State.settleReleases_keeps hS ‹_›)) ‹_›)

theorem State.paceEvent_keeps {P s e f} (hM : Mobile P) (hs : P s) :
    P (State.paceEvent s e f) := by
  have hS := hM.stable
  unfold State.paceEvent
  extract_lets +onlyGivenNames x
  refine cut_value (p := P x) ?_ ?_
  · subst x
    exact State.happen_keeps hM ‹_›
  intro hx
  clear_value x
  exact State.event_keeps hM ‹_›

theorem State.loseEst_keeps {P s e f} (hM : Mobile P) (hs : P s) :
    P (State.loseEst s e f) := by
  have hS := hM.stable
  unfold State.loseEst
  extract_lets +onlyGivenNames x
  refine cut_value (p := P x) ?_ ?_
  · subst x
    exact State.settleReleases_keeps hS ‹_›
  intro hx
  clear_value x
  exact State.paceEvent_keeps hM (State.modEst_keeps hS ‹_›)

theorem State.quadError_keeps {P s n} (hM : Mobile P) (hs : P s) :
    P (State.quadError s n) := by
  have hS := hM.stable
  unfold State.quadError
  extract_lets +onlyGivenNames x
  refine cut_value (p := P x) ?_ ?_
  · subst x
    exact State.addSat_keeps hS ‹_›
  intro hx
  clear_value x
  exact foldl_keeps (P := P) (fun a b h => (State.loseEst_keeps hM ‹_›)) ‹_›

theorem State.takeRecords_keeps {P s} (hM : Mobile P) (hs : P s) :
    P (State.takeRecords s) := by
  have hS := hM.stable
  unfold State.takeRecords
  refine foldl_keeps (P := P) (fun a b h => ?_) ?_
  · extract_lets +onlyGivenNames x
    clear_value x
    split
    · extract_lets +onlyGivenNames x
      clear_value x
      extract_lets +onlyGivenNames x
      clear_value x
      extract_lets +onlyGivenNames x
      clear_value x
      extract_lets +onlyGivenNames x
      clear_value x
      extract_lets +onlyGivenNames x
      refine cut_value (p := P x) ?_ ?_
      · subst x
        exact ite_keeps (P := P) (State.settleReleases_keeps hS ‹_›) ‹_›
      intro hx
      clear_value x
      extract_lets +onlyGivenNames x
      clear_value x
      extract_lets +onlyGivenNames x
      clear_value x
      extract_lets +onlyGivenNames x
      refine cut_value (p := P x) ?_ ?_
      · subst x
        exact State.modEst_keeps hS ‹_›
      intro hx
      clear_value x
      extract_lets +onlyGivenNames x
      refine cut_value (p := P x) ?_ ?_
      · subst x
        exact ite_keeps (P := P) (State.paceEvent_keeps hM ‹_›) ‹_›
      intro hx
      clear_value x
      extract_lets +onlyGivenNames x
      refine cut_value (p := P x) ?_ ?_
      · subst x
        exact ite_keeps (P := P) (State.paceEvent_keeps hM ‹_›) ‹_›
      intro hx
      clear_value x
      extract_lets +onlyGivenNames x
      refine cut_value (p := P x) ?_ ?_
      · subst x
        exact ite_keeps (P := P) (State.paceEvent_keeps hM ‹_›) ‹_›
      intro hx
      clear_value x
      extract_lets +onlyGivenNames x
      refine cut_value (p := P x) ?_ ?_
      · subst x
        exact ite_keeps (P := P) (State.paceEvent_keeps hM ‹_›) ‹_›
      intro hx
      clear_value x
      exact ite_keeps (P := P) ‹_› (ite_keeps (P := P) (State.paceEvent_keeps hM ‹_›) ‹_›)
    · assumption
  · assumption

theorem State.estEdge_keeps {P s e pos stamp eps} (hM : Mobile P) (hs : P s) :
    P (State.estEdge s e pos stamp eps) := by
  have hS := hM.stable
  unfold State.estEdge
  extract_lets +onlyGivenNames x
  clear_value x
  extract_lets +onlyGivenNames x
  clear_value x
  extract_lets +onlyGivenNames x
  clear_value x
  extract_lets +onlyGivenNames x
  clear_value x
  extract_lets +onlyGivenNames x
  clear_value x
  extract_lets +onlyGivenNames x
  clear_value x
  extract_lets +onlyGivenNames x
  clear_value x
  extract_lets +onlyGivenNames x
  refine cut_value (p := P x) ?_ ?_
  · subst x
    exact State.settleReleases_keeps hS ‹_›
  intro hx
  clear_value x
  extract_lets +onlyGivenNames x
  clear_value x
  extract_lets +onlyGivenNames x
  clear_value x
  extract_lets +onlyGivenNames x
  clear_value x
  extract_lets +onlyGivenNames x
  clear_value x
  extract_lets +onlyGivenNames x
  clear_value x
  extract_lets +onlyGivenNames x
  clear_value x
  extract_lets +onlyGivenNames x
  clear_value x
  extract_lets +onlyGivenNames x
  clear_value x
  extract_lets +onlyGivenNames x
  clear_value x
  extract_lets +onlyGivenNames x
  clear_value x
  extract_lets +onlyGivenNames x
  refine cut_value (p := P x) ?_ ?_
  · subst x
    exact State.modEst_keeps hS ‹_›
  intro hx
  clear_value x
  extract_lets +onlyGivenNames x
  refine cut_value (p := P x) ?_ ?_
  · subst x
    exact ite_keeps (P := P) (State.paceEvent_keeps hM ‹_›) ‹_›
  intro hx
  clear_value x
  extract_lets +onlyGivenNames x
  refine cut_value (p := P x) ?_ ?_
  · subst x
    exact ite_keeps (P := P) (State.paceEvent_keeps hM ‹_›) ‹_›
  intro hx
  clear_value x
  extract_lets +onlyGivenNames x
  refine cut_value (p := P x) ?_ ?_
  · subst x
    exact ite_keeps (P := P) (State.paceEvent_keeps hM ‹_›) ‹_›
  intro hx
  clear_value x
  exact ite_keeps (P := P) (State.paceEvent_keeps hM ‹_›) ‹_›

theorem State.indexStarts_keeps {P s e} (hM : Mobile P) (hs : P s) :
    P (State.indexStarts s e) := by
  have hS := hM.stable
  unfold State.indexStarts
  extract_lets +onlyGivenNames x
  clear_value x
  exact ite_keeps (P := P) (State.paceEvent_keeps hM (State.modEst_keeps hS ‹_›)) ‹_›

theorem State.indexFor_keeps {P s e} (hM : Mobile P) (hs : P s) :
    Fst P (State.indexFor s e) := by
  have hS := hM.stable
  unfold State.indexFor
  extract_lets +onlyGivenNames x
  clear_value x
  extract_lets +onlyGivenNames x
  clear_value x
  extract_lets +onlyGivenNames x
  clear_value x
  extract_lets +onlyGivenNames x
  clear_value x
  extract_lets +onlyGivenNames x
  clear_value x
  extract_lets +onlyGivenNames x
  clear_value x
  exact ite_keeps (P := Fst P) (Fst.mk ‹_›) (ite_keeps (P := Fst P) (Fst.mk (State.modEst_keeps hS ‹_›)) (ite_keeps (P := Fst P) (Fst.mk (State.indexStarts_keeps hM (State.modEst_keeps hS ‹_›))) (ite_keeps (P := Fst P) (Fst.mk ‹_›) (Fst.mk (State.paceEvent_keeps hM ‹_›)))))

theorem State.edgeFor_keeps {P s x_1} (hM : Mobile P) (hs : P s) :
    P (State.edgeFor s x_1) := by
  have hS := hM.stable
  unfold State.edgeFor
  extract_lets +onlyGivenNames x
  refine cut_value (p := Fst P x) ?_ ?_
  · subst x
    refine foldl_keeps (P := Fst P) (fun a b h => ?_) ?_
    · extract_lets +onlyGivenNames x
      refine cut_value (p := Fst P x) ?_ ?_
      · subst x
        exact State.indexFor_keeps hM (Fst.out ‹_›)
      intro hx
      clear_value x
      exact Fst.mk (Fst.out ‹_›)
    · exact Fst.mk ‹_›
  intro hx
  clear_value x
  split
  · refine foldl_keeps (P := P) (fun a b h => ?_) ?_
    · extract_lets +onlyGivenNames x
      clear_value x
      extract_lets +onlyGivenNames x
      clear_value x
      exact ite_keeps (P := P) ‹_› (State.estEdge_keeps hM ‹_›)
    · assumption
  · exact ite_keeps (P := P) (State.addSat_keeps hS (Fst.out ‹_›)) (Fst.out ‹_›)

theorem State.sampleMissing_keeps {P s src} (hS : Stable P) (hs : P s) :
    P (State.sampleMissing s src) := by
  unfold State.sampleMissing
  exact foldl_keeps (P := P) (fun a b h => (State.modEst_keeps hS ‹_›)) ‹_›

theorem State.paceSample_keeps {P s src d ws} (hM : Mobile P) (hs : P s) :
    P (State.paceSample s src d ws) := by
  have hS := hM.stable
  unfold State.paceSample
  extract_lets +onlyGivenNames x
  clear_value x
  extract_lets +onlyGivenNames x
  clear_value x
  extract_lets +onlyGivenNames x
  clear_value x
  extract_lets +onlyGivenNames x
  clear_value x
  refine ite_keeps (P := P) ?_ ?_
  · exact State.sampleMissing_keeps hS ‹_›
  · extract_lets +onlyGivenNames x
    refine foldl_keeps (P := P) (fun a b h => ?_) ?_
    · extract_lets +onlyGivenNames x
      clear_value x
      extract_lets +onlyGivenNames x
      refine cut_value (p := P x) ?_ ?_
      · subst x
        exact State.modEst_keeps hS ‹_›
      intro hx
      clear_value x
      exact ite_keeps (P := P) (State.modEst_keeps hS ‹_›) (ite_keeps (P := P) ‹_› (State.estEdge_keeps hM ‹_›))
    · assumption

theorem State.takeEdge_keeps {P s x_1} (hM : Mobile P) (hs : P s) :
    P (State.takeEdge s x_1) := by
  have hS := hM.stable
  unfold State.takeEdge
  extract_lets +onlyGivenNames x
  clear_value x
  exact ite_keeps (P := P) (Stable.upd hS rfl ‹_› (List.suffix_refl _) id id id (BitVec.le_refl _) id) (State.edgeFor_keeps hM ‹_›)

theorem State.lateEdges_keeps {P s} (hM : Mobile P) (hs : P s) :
    P (State.lateEdges s) := by
  have hS := hM.stable
  unfold State.lateEdges
  exact foldl_keeps (P := P) (fun a b h => (State.takeEdge_keeps hM ‹_›)) (Stable.upd hS rfl ‹_› (List.suffix_refl _) id id id (BitVec.le_refl _) id)

theorem State.paceCfgWrite_keeps {P s e v} (hM : Mobile P) (hs : P s) :
    P (State.paceCfgWrite s e v) := by
  have hS := hM.stable
  unfold State.paceCfgWrite
  exact State.applyPace_keeps hS (State.writeFields_keeps hM ‹_›)

theorem execEstimatorEnable_keeps {P e v s} (hM : Mobile P) (hs : P s) :
    ResAll P (execEstimatorEnable e v s) := by
  have hS := hM.stable
  unfold execEstimatorEnable
  exact ResAll.next (State.paceCfgWrite_keeps hM ‹_›)

theorem execEncoderEdge_keeps {P n a_1 b stamp hold s} (hM : Mobile P) (hs : P s) :
    ResAll P (execEncoderEdge n a_1 b stamp s hold) := by
  have hS := hM.stable
  unfold execEncoderEdge
  extract_lets +onlyGivenNames x
  clear_value x
  extract_lets +onlyGivenNames x
  clear_value x
  extract_lets +onlyGivenNames x
  refine cut_value (p := P x) ?_ ?_
  · subst x
    exact Stable.upd hS rfl ‹_› (List.suffix_refl _) id id id (BitVec.le_refl _) id
  intro hx
  clear_value x
  exact ResAll.next (ite_keeps (P := P) ‹_› (ite_keeps (P := P) (State.lostPulse_keeps hS (Stable.upd hS rfl ‹_› (List.suffix_refl _) id id id (BitVec.le_refl _) id)) (ite_keeps (P := P) (State.quadError_keeps hM (Stable.upd hS rfl ‹_› (List.suffix_refl _) id id id (BitVec.le_refl _) id)) (State.takeEdge_keeps hM ‹_›))))

theorem execIndexEdge_keeps {P n stamp hold s} (hM : Mobile P) (hs : P s) :
    ResAll P (execIndexEdge n stamp s hold) := by
  have hS := hM.stable
  unfold execIndexEdge
  exact ResAll.next (ite_keeps (P := P) ‹_› (ite_keeps (P := P) (State.lostPulse_keeps hS ‹_›) (State.takeEdge_keeps hM ‹_›)))

theorem execSourceLost_keeps {P e s} (hM : Mobile P) (hs : P s) :
    ResAll P (execSourceLost e s) := by
  have hS := hM.stable
  unfold execSourceLost
  extract_lets +onlyGivenNames x
  clear_value x
  extract_lets +onlyGivenNames x
  clear_value x
  exact ResAll.next (ite_keeps (P := P) (State.loseEst_keeps hM ‹_›) ‹_›)

theorem execEstimatorStopped_keeps {P e s} (hM : Mobile P) (hs : P s) :
    ResAll P (execEstimatorStopped e s) := by
  have hS := hM.stable
  unfold execEstimatorStopped
  extract_lets +onlyGivenNames x
  clear_value x
  exact ResAll.next (ite_keeps (P := P) (State.paceEvent_keeps hM (State.modEst_keeps hS ‹_›)) ‹_›)

end Sys2Proof.Machine
end

