-- ==== Sys2Proof/Laws/KeepsEngine.lean ====
section
/-!
SUPPORT. What the operations and meanings of Machine/Engine.lean keep (see Laws/Follows.lean): steady ones any `Stable` property, the others any
`Mobile` one.
-/

set_option linter.tactic.unusedName false
set_option linter.unusedVariables false

namespace Sys2Proof.Machine

theorem State.pertBlocks_keeps {P s link transmit bs} (hS : Stable P) (hs : P s) :
    Snd P (State.pertBlocks s link transmit bs) := by
  unfold State.pertBlocks
  extract_lets +onlyGivenNames x
  clear_value x
  extract_lets +onlyGivenNames x
  clear_value x
  extract_lets +onlyGivenNames x
  subst x
  dsimp -zeta -zetaDelta only
  extract_lets +onlyGivenNames x
  clear_value x
  extract_lets +onlyGivenNames x
  clear_value x
  exact ite_keeps (P := Snd P) (Snd.mk (State.addSat_keeps hS (Stable.upd hS rfl ‹_› (List.suffix_refl _) id id id (BitVec.le_refl _) id))) (Snd.mk ‹_›)

theorem State.sendDown_keeps {P s t k ws} (hS : Stable P) (hs : P s) :
    P (State.sendDown s t k ws) := by
  unfold State.sendDown
  extract_lets +onlyGivenNames x
  clear_value x
  split
  extract_lets +onlyGivenNames x
  clear_value x
  refine State.emit_keeps hS (Stable.upd hS rfl ?_ (List.suffix_refl _) id id id (BitVec.le_refl _) id)
  refine Snd.elim (by assumption) ?_
  exact State.pertBlocks_keeps hS ‹_›

theorem State.sendNow_keeps {P s t ws} (hS : Stable P) (hs : P s) :
    P (State.sendNow s t ws) := by
  unfold State.sendNow
  extract_lets +onlyGivenNames x
  clear_value x
  extract_lets +onlyGivenNames x
  clear_value x
  exact State.sendDown_keeps hS ‹_›

theorem State.ackBulk_keeps {P s w seq} (hS : Stable P) (hs : P s) :
    P (State.ackBulk s w seq) := by
  unfold State.ackBulk
  split
  refine State.sendNow_keeps hS ?_
  refine Snd.elim (by assumption) ?_
  exact State.freeWord_keeps hS ‹_›

theorem State.ackData_keeps {P s w seq} (hS : Stable P) (hs : P s) :
    P (State.ackData s w seq) := by
  unfold State.ackData
  exact State.sendNow_keeps hS ‹_›

theorem State.bulkLost_keeps {P s ctx} (hM : Mobile P) (hs : P s) :
    P (State.bulkLost s ctx) := by
  have hS := hM.stable
  unfold State.bulkLost
  split
  · assumption
  · split
    · exact ite_keeps (P := P) (State.finish_keeps hM ‹_›) ‹_›
    · assumption

theorem State.bulkPop_keeps {P ctx a_1 a_2} (hM : Mobile P) (ha_2 : P a_2) :
    P (State.bulkPop ctx a_1 a_2) := by
  have hS := hM.stable
  induction a_1 generalizing a_2 with
  | zero => exact ha_2
  | succ n ih =>
    unfold State.bulkPop
    split
    · exact ha_2
    · split
      · exact ha_2
      · split
        · exact ha_2
        · refine ih (ite_keeps (P := P) (State.finish_keeps hM ?_) ?_)
          all_goals
            exact State.modXfer_keeps hS (State.freeSome_keeps hS ha_2)

theorem State.bulkAck_keeps {P s ctx f seq} (hM : Mobile P) (hs : P s) :
    P (State.bulkAck s ctx f seq) := by
  have hS := hM.stable
  unfold State.bulkAck
  extract_lets +onlyGivenNames x
  clear_value x
  extract_lets +onlyGivenNames x
  subst x
  dsimp -zeta -zetaDelta only
  extract_lets +onlyGivenNames x
  refine cut_value (p := P x) ?_ ?_
  · subst x
    exact Stable.upd hS rfl ‹_› (List.suffix_refl _) id id id (BitVec.le_refl _) id
  intro hx
  clear_value x
  extract_lets +onlyGivenNames x
  clear_value x
  exact ite_keeps (P := P) (State.bulkLost_keeps hM (State.modFlow_keeps hS (State.bulkPop_keeps hM ‹_›))) ‹_›

theorem State.setGot_keeps {P s w r} (hS : Stable P) (hs : P s) :
    P (State.setGot s w r) := by
  unfold State.setGot
  exact Stable.upd hS rfl ‹_› (List.suffix_refl _) id id id (BitVec.le_refl _) id

theorem State.dropExpect_keeps {P s w} (hS : Stable P) (hs : P s) :
    P (State.dropExpect s w) := by
  unfold State.dropExpect
  exact Stable.upd hS rfl ‹_› (List.suffix_refl _) id id id (BitVec.le_refl _) id

theorem State.storeWords_keeps {P s ctx i n} (hS : Stable P) (hs : P s) :
    P (State.storeWords s ctx i n) := by
  unfold State.storeWords
  split
  · exact State.modXfer_keeps hS (State.useBank_keeps hS (State.openBank_keeps hS ‹_›))
  · assumption

theorem State.takeWords_keeps {P s ctx i ws} (hS : Stable P) (hs : P s) :
    P (State.takeWords s ctx i ws) := by
  unfold State.takeWords
  exact State.modXfer_keeps hS (State.storeWords_keeps hS ‹_›)

theorem State.bulkData_keeps {P s w f h_3 ws last} (hM : Mobile P) (hs : P s) :
    P (State.bulkData s w f h_3 ws last) := by
  have hS := hM.stable
  unfold State.bulkData
  extract_lets +onlyGivenNames x
  refine cut_value (p := P x) ?_ ?_
  · subst x
    exact State.modFlow_keeps hS (State.dropExpect_keeps hS ‹_›)
  intro hx
  clear_value x
  extract_lets +onlyGivenNames x
  refine cut_value (p := P x) ?_ ?_
  · subst x
    exact State.takeWords_keeps hS (State.ackBulk_keeps hS ‹_›)
  intro hx
  clear_value x
  refine ite_keeps (P := P) ?_ ?_
  · exact State.setGot_keeps hS ‹_›
  · extract_lets +onlyGivenNames x
    refine ite_keeps (P := P) ?_ ?_
    · exact State.setGot_keeps hS (State.ackBulk_keeps hS ‹_›)
    · extract_lets +onlyGivenNames x
      split
      · exact State.dropExpect_keeps hS ‹_›
      · extract_lets +onlyGivenNames x
        clear_value x
        exact ite_keeps (P := P) (State.finish_keeps hM ‹_›) ‹_›

theorem State.stalled_keeps {P s ctx f i} (hM : Mobile P) (hs : P s) :
    P (State.stalled s ctx f i) := by
  have hS := hM.stable
  unfold State.stalled
  extract_lets +onlyGivenNames x
  clear_value x
  extract_lets +onlyGivenNames x
  refine cut_value (p := P x) ?_ ?_
  · subst x
    exact State.finish_keeps hM ‹_›
  intro hx
  clear_value x
  exact ite_keeps (P := P) ‹_› (State.setCauses_keeps hM ‹_›)

theorem State.clearFails_keeps {P s ctx i} (hS : Stable P) (hs : P s) :
    P (State.clearFails s ctx i) := by
  unfold State.clearFails
  exact State.modXfer_keeps hS ‹_›

theorem State.unqueue_keeps {P s ctx} (hS : Stable P) (hs : P s) :
    P (State.unqueue s ctx) := by
  unfold State.unqueue
  exact Stable.upd hS rfl ‹_› (List.suffix_refl _) id id id (BitVec.le_refl _) id

theorem State.goBack_keeps {P s ctx} (hM : Mobile P) (hs : P s) :
    P (State.goBack s ctx) := by
  have hS := hM.stable
  unfold State.goBack
  exact State.bulkLost_keeps hM (State.modFlow_keeps hS (State.unqueue_keeps hS ‹_›))

theorem State.probeLater_keeps {P s ctx} (hM : Mobile P) (hs : P s) :
    P (State.probeLater s ctx) := by
  have hS := hM.stable
  unfold State.probeLater
  extract_lets +onlyGivenNames x
  refine cut_value (p := P x) ?_ ?_
  · subst x
    exact State.modFlow_keeps hS ‹_›
  intro hx
  clear_value x
  exact State.armDelay_keeps hM ‹_›

theorem State.bulkResponse_keeps {P s w f k} (hM : Mobile P) (hs : P s) :
    P (State.bulkResponse s w f k) := by
  have hS := hM.stable
  unfold State.bulkResponse
  extract_lets +onlyGivenNames x
  refine cut_value (p := P x) ?_ ?_
  · subst x
    exact State.bulkAck_keeps hM (State.clearFails_keeps hS (State.dropExpect_keeps hS ‹_›))
  intro hx
  clear_value x
  extract_lets +onlyGivenNames x
  subst x
  dsimp -zeta -zetaDelta only
  exact ite_keeps (P := P) (State.setGot_keeps hS ‹_›) (ite_keeps (P := P) (State.setGot_keeps hS ‹_›) (ite_keeps (P := P) (State.stalled_keeps hM (State.dropExpect_keeps hS ‹_›)) (ite_keeps (P := P) (ite_keeps (P := P) (State.goBack_keeps hM (State.modFlow_keeps hS ‹_›)) (State.modFlow_keeps hS ‹_›)) (State.probeLater_keeps hM (ite_keeps (P := P) (State.goBack_keeps hM (State.modFlow_keeps hS ‹_›)) (State.modFlow_keeps hS ‹_›))))))

theorem State.toStep_keeps {P s ctx i st} (hS : Stable P) (hs : P s) :
    P (State.toStep s ctx i st) := by
  unfold State.toStep
  exact State.modXfer_keeps hS ‹_›

theorem State.controlData_keeps {P s w x_2 h_3 ws last} (hM : Mobile P) (hs : P s) :
    P (State.controlData s w x_2 h_3 ws last) := by
  have hS := hM.stable
  unfold State.controlData
  extract_lets +onlyGivenNames x
  refine cut_value (p := P x) ?_ ?_
  · subst x
    exact State.ackData_keeps hS (State.dropExpect_keeps hS ‹_›)
  intro hx
  clear_value x
  extract_lets +onlyGivenNames x
  refine cut_value (p := P x) ?_ ?_
  · subst x
    exact State.modXfer_keeps hS (State.takeWords_keeps hS ‹_›)
  intro hx
  clear_value x
  refine ite_keeps (P := P) ?_ ?_
  · exact State.setGot_keeps hS ‹_›
  · refine ite_keeps (P := P) ?_ ?_
    · exact State.setGot_keeps hS (State.ackData_keeps hS ‹_›)
    · split
      · exact ite_keeps (P := P) (State.toStep_keeps hS ‹_›) ‹_›
      · exact State.finish_keeps hM (State.toStep_keeps hS ‹_›)
      · assumption

theorem State.controlShake_keeps {P s w f x_3 k} (hM : Mobile P) (hs : P s) :
    P (State.controlShake s w f x_3 k) := by
  have hS := hM.stable
  unfold State.controlShake
  extract_lets +onlyGivenNames x
  refine cut_value (p := P x) ?_ ?_
  · subst x
    exact State.clearFails_keeps hS (State.dropExpect_keeps hS ‹_›)
  intro hx
  clear_value x
  extract_lets +onlyGivenNames x
  refine cut_value (p := P x) ?_ ?_
  · subst x
    exact State.dropExpect_keeps hS ‹_›
  intro hx
  clear_value x
  extract_lets +onlyGivenNames x
  clear_value x
  extract_lets +onlyGivenNames x
  refine cut_value (p := P x) ?_ ?_
  · subst x
    exact State.modXfer_keeps hS (State.freeSome_keeps hS ‹_›)
  intro hx
  clear_value x
  refine ite_keeps (P := P) ?_ ?_
  · exact State.setGot_keeps hS ‹_›
  · refine ite_keeps (P := P) ?_ ?_
    · exact State.stalled_keeps hM (State.dropExpect_keeps hS ‹_›)
    · refine ite_keeps (P := P) ?_ ?_
      · exact ite_keeps (P := P) (State.armDelay_keeps hM ‹_›) ‹_›
      · refine ite_keeps (P := P) ?_ ?_
        · exact State.setGot_keeps hS ‹_›
        · split
          · exact State.toStep_keeps hS ‹_›
          · exact ite_keeps (P := P) (State.toStep_keeps hS ‹_›) ‹_›
          · exact State.finish_keeps hM (State.toStep_keeps hS ‹_›)
          · assumption

theorem State.denyRetry_keeps {P s t} (hM : Mobile P) (hs : P s) :
    P (State.denyRetry s t) := by
  have hS := hM.stable
  unfold State.denyRetry
  exact State.linkEvent_keeps hM (State.raise_keeps hM ‹_›)

theorem State.dropTx_keeps {P s t e} (hS : Stable P) (hs : P s) :
    P (State.dropTx s t e) := by
  unfold State.dropTx
  exact Stable.upd hS rfl ‹_› (List.suffix_refl _) id id id (BitVec.le_refl _) id

theorem State.expect_keeps {P s t f e b idx startMono} (hS : Stable P) (hs : P s) :
    P (State.expect s t f e b idx startMono) := by
  unfold State.expect
  extract_lets +onlyGivenNames x
  clear_value x
  exact Stable.upd hS rfl ‹_› (List.suffix_refl _) id id id (BitVec.le_refl _) id

theorem State.firmwareActs_keeps {P s ctx} (hM : Mobile P) (hs : P s) :
    P (State.firmwareActs s ctx) := by
  have hS := hM.stable
  unfold State.firmwareActs
  extract_lets +onlyGivenNames x
  refine cut_value (p := P x) ?_ ?_
  · subst x
    exact State.modFlow_keeps hS ‹_›
  intro hx
  clear_value x
  split
  · assumption
  · extract_lets +onlyGivenNames x
    refine cut_value (p := P x) ?_ ?_
    · subst x
      exact ite_keeps (P := P) (State.happen_keeps hM (State.setCauses_keeps hM ‹_›)) ‹_›
    intro hx
    clear_value x
    extract_lets +onlyGivenNames x
    refine cut_value (p := P x) ?_ ?_
    · subst x
      exact State.setCauses_keeps hM ‹_›
    intro hx
    clear_value x
    extract_lets +onlyGivenNames x
    refine cut_value (p := P x) ?_ ?_
    · subst x
      split
      · extract_lets +onlyGivenNames x
        refine cut_value (p := P x) ?_ ?_
        · subst x
          exact State.flowEvent_keeps hM ‹_›
        intro hx
        clear_value x
        exact ite_keeps (P := P) ‹_› (State.happen_keeps hM ‹_›)
      · assumption
    intro hx
    clear_value x
    exact ite_keeps (P := P) (State.startResync_keeps hM ‹_›) ‹_›

theorem State.serviceData_keeps {P s f ws} (hM : Mobile P) (hs : P s) :
    P (State.serviceData s f ws) := by
  have hS := hM.stable
  unfold State.serviceData
  split
  · exact ite_keeps (P := P) (State.hubReport_keeps hM ‹_›) ‹_›
  · exact State.paceSample_keeps hM ‹_›
  · assumption

theorem State.inData_keeps {P s w f h_3 ws} (hM : Mobile P) (hs : P s) :
    P (State.inData s w f h_3 ws) := by
  have hS := hM.stable
  unfold State.inData
  extract_lets +onlyGivenNames x
  refine cut_value (p := P x) ?_ ?_
  · subst x
    exact State.modFlow_keeps hS (State.ackData_keeps hS (State.dropExpect_keeps hS ‹_›))
  intro hx
  clear_value x
  exact ite_keeps (P := P) (State.setGot_keeps hS ‹_›) (ite_keeps (P := P) (State.setGot_keeps hS (State.ackData_keeps hS ‹_›)) (ite_keeps (P := P) (State.serviceData_keeps hM ‹_›) (State.finish_keeps hM (State.takeWords_keeps hS ‹_›))))

theorem State.queueRetry_keeps {P s w ofs} (hS : Stable P) (hs : P s) :
    P (State.queueRetry s w ofs) := by
  unfold State.queueRetry
  exact Stable.upd hS rfl ‹_› (List.suffix_refl _) id id id (BitVec.le_refl _) id

theorem State.lapRetry_keeps {P s w f} (hS : Stable P) (hs : P s) :
    OptAll P (State.lapRetry s w f) := by
  unfold State.lapRetry
  extract_lets +onlyGivenNames x
  clear_value x
  refine ite_keeps (P := OptAll P) ?_ ?_
  · exact OptAll.map (fun a e => (State.queueRetry_keeps hS ‹_›))
  · extract_lets +onlyGivenNames x
    refine OptAll.map (fun a e => ?_)
    extract_lets +onlyGivenNames x
    clear_value x
    exact State.queueRetry_keeps hS (Stable.upd hS rfl ‹_› (List.suffix_refl _) id id id (BitVec.le_refl _) id)

theorem State.noteLasting_keeps {P s ctx course} (hM : Mobile P) (hs : P s) :
    P (State.noteLasting s ctx course) := by
  have hS := hM.stable
  unfold State.noteLasting
  extract_lets +onlyGivenNames x
  clear_value x
  extract_lets +onlyGivenNames x
  clear_value x
  extract_lets +onlyGivenNames x
  clear_value x
  split
  · assumption
  · extract_lets +onlyGivenNames x
    clear_value x
    extract_lets +onlyGivenNames x
    clear_value x
    extract_lets +onlyGivenNames x
    clear_value x
    extract_lets +onlyGivenNames x
    refine cut_value (p := P x) ?_ ?_
    · subst x
      exact State.modFlow_keeps hS ‹_›
    intro hx
    clear_value x
    exact ite_keeps (P := P) (State.firmwareActs_keeps hM ‹_›) ‹_›

theorem State.lasting_keeps {P s ctx i course len} (hM : Mobile P) (hs : P s) :
    P (State.lasting s ctx i course len) := by
  have hS := hM.stable
  unfold State.lasting
  exact State.noteLasting_keeps hM (State.finish_keeps hM ‹_›)

theorem State.ledgerBlk_keeps {P s t n} (hS : Stable P) (hs : P s) :
    P (State.ledgerBlk s t n) := by
  unfold State.ledgerBlk
  exact State.modPort_keeps hS ‹_›

theorem State.ledgerCrc_keeps {P s t} (hS : Stable P) (hs : P s) :
    P (State.ledgerCrc s t) := by
  unfold State.ledgerCrc
  exact State.modPort_keeps hS ‹_›

theorem State.ledgerRetry_keeps {P s t} (hS : Stable P) (hs : P s) :
    P (State.ledgerRetry s t) := by
  unfold State.ledgerRetry
  exact State.modPort_keeps hS ‹_›

theorem State.openToggle_keeps {P s ctx f x_3} (hM : Mobile P) (hs : P s) :
    P (State.openToggle s ctx f x_3) := by
  have hS := hM.stable
  unfold State.openToggle
  exact ite_keeps (P := P) (State.happen_keeps hM (State.toggleUnknown_keeps hM ‹_›)) ‹_›

theorem State.retryUnsent_keeps {P s e} (hM : Mobile P) (hs : P s) :
    P (State.retryUnsent s e) := by
  have hS := hM.stable
  unfold State.retryUnsent
  split
  · assumption
  · split
    · assumption
    · exact ite_keeps (P := P) (State.openToggle_keeps hM (State.finish_keeps hM ‹_›)) ‹_›

theorem State.prewakeLate_keeps {P s d} (hM : Mobile P) (hs : P s) :
    P (State.prewakeLate s d) := by
  have hS := hM.stable
  unfold State.prewakeLate
  exact ite_keeps (P := P) (State.error_keeps hM (State.happen_keeps hM ‹_›)) ‹_›

theorem State.missSlot_keeps {P s t e} (hM : Mobile P) (hs : P s) :
    P (State.missSlot s t e) := by
  have hS := hM.stable
  unfold State.missSlot
  extract_lets +onlyGivenNames x
  clear_value x
  extract_lets +onlyGivenNames x
  refine cut_value (p := P x) ?_ ?_
  · subst x
    exact State.retryUnsent_keeps hM ‹_›
  intro hx
  clear_value x
  extract_lets +onlyGivenNames x
  refine cut_value (p := P x) ?_ ?_
  · subst x
    exact ite_keeps (P := P) (State.finish_keeps hM ‹_›) ‹_›
  intro hx
  clear_value x
  extract_lets +onlyGivenNames x
  refine cut_value (p := P x) ?_ ?_
  · subst x
    exact State.prewakeLate_keeps hM ‹_›
  intro hx
  clear_value x
  exact State.error_keeps hM ‹_›

theorem State.outResponse_keeps {P s w f k} (hM : Mobile P) (hs : P s) :
    P (State.outResponse s w f k) := by
  have hS := hM.stable
  unfold State.outResponse
  extract_lets +onlyGivenNames x
  refine cut_value (p := P x) ?_ ?_
  · subst x
    exact State.modFlow_keeps hS (State.dropExpect_keeps hS ‹_›)
  intro hx
  clear_value x
  exact ite_keeps (P := P) (State.setGot_keeps hS ‹_›) (ite_keeps (P := P) (State.finish_keeps hM ‹_›) (ite_keeps (P := P) (State.setGot_keeps hS ‹_›) (State.stalled_keeps hM (State.dropExpect_keeps hS ‹_›))))

theorem State.pushTx_keeps {P s t e} (hS : Stable P) (hs : P s) :
    P (State.pushTx s t e) := by
  unfold State.pushTx
  extract_lets +onlyGivenNames x
  refine cut_value (p := P x) ?_ ?_
  · subst x
    exact Stable.upd hS rfl ‹_› (List.suffix_refl _) id id id (BitVec.le_refl _) id
  intro hx
  clear_value x
  exact State.setFld_keeps hS ‹_›

theorem State.readUp_keeps {P s t w} (hS : Stable P) (hs : P s) :
    Snd P (State.readUp s t w) := by
  unfold State.readUp
  split
  extract_lets +onlyGivenNames x
  refine cut_value (p := P x) ?_ ?_
  · subst x
    refine State.ledgerBlk_keeps hS ?_
    refine Snd.elim (by assumption) ?_
    exact State.pertBlocks_keeps hS ‹_›
  intro hx
  clear_value x
  extract_lets +onlyGivenNames x
  clear_value x
  refine Snd.mk ?_
  split
  · exact State.ledgerCrc_keeps hS ‹_›
  · assumption

theorem State.returnTask_keeps {P s ctx} (hM : Mobile P) (hs : P s) :
    P (State.returnTask s ctx) := by
  have hS := hM.stable
  unfold State.returnTask
  exact State.cancelDue_keeps hM (State.modTask_keeps hS ‹_›)

theorem State.returnSched_keeps {P s e ctx x_3} (hM : Mobile P) (hs : P s) :
    P (State.returnSched s e ctx x_3) := by
  have hS := hM.stable
  unfold State.returnSched
  extract_lets +onlyGivenNames x
  subst x
  dsimp -zeta -zetaDelta only
  extract_lets +onlyGivenNames x
  clear_value x
  extract_lets +onlyGivenNames x
  clear_value x
  split
  · exact Stable.upd hS rfl ‹_› (List.suffix_refl _) id id id (BitVec.le_refl _) id
  · extract_lets +onlyGivenNames x
    clear_value x
    extract_lets +onlyGivenNames x
    clear_value x
    extract_lets +onlyGivenNames x
    clear_value x
    extract_lets +onlyGivenNames x
    clear_value x
    extract_lets +onlyGivenNames x
    clear_value x
    extract_lets +onlyGivenNames x
    refine cut_value (p := P x) ?_ ?_
    · subst x
      exact State.pushTx_keeps hS (Stable.upd hS rfl ‹_› (List.suffix_refl _) id id id (BitVec.le_refl _) id)
    intro hx
    clear_value x
    extract_lets +onlyGivenNames x
    refine cut_value (p := P x) ?_ ?_
    · subst x
      exact ite_keeps (P := P) (State.modXfer_keeps hS ‹_›) ‹_›
    intro hx
    clear_value x
    exact ite_keeps (P := P) ‹_› (State.returnTask_keeps hM ‹_›)

theorem State.returnUnsched_keeps {P s e ctx} (hM : Mobile P) (hs : P s) :
    P (State.returnUnsched s e ctx) := by
  have hS := hM.stable
  unfold State.returnUnsched
  extract_lets +onlyGivenNames x
  subst x
  dsimp -zeta -zetaDelta only
  split
  · exact Stable.upd hS rfl ‹_› (List.suffix_refl _) id id id (BitVec.le_refl _) id
  · split
    · exact State.returnTask_keeps hM (Stable.upd hS rfl ‹_› (List.suffix_refl _) id id id (BitVec.le_refl _) id)
    · extract_lets +onlyGivenNames x
      refine cut_value (p := P x) ?_ ?_
      · subst x
        exact State.pushTx_keeps hS (Stable.upd hS rfl ‹_› (List.suffix_refl _) id id id (BitVec.le_refl _) id)
      intro hx
      clear_value x
      exact ite_keeps (P := P) (State.returnTask_keeps hM (State.modXfer_keeps hS ‹_›)) ‹_›

theorem State.schedFailed_keeps {P s w f x_3} (hM : Mobile P) (hs : P s) :
    P (State.schedFailed s w f x_3) := by
  have hS := hM.stable
  unfold State.schedFailed
  extract_lets +onlyGivenNames x
  clear_value x
  extract_lets +onlyGivenNames x
  clear_value x
  extract_lets +onlyGivenNames x
  refine cut_value (p := P x) ?_ ?_
  · subst x
    exact State.modXfer_keeps hS ‹_›
  intro hx
  clear_value x
  refine ite_keeps (P := P) ?_ ?_
  · exact State.openToggle_keeps hM (State.lasting_keeps hM ‹_›)
  · refine ite_keeps (P := P) ?_ ?_
    · exact State.openToggle_keeps hM (State.finish_keeps hM ‹_›)
    · split
      · refine OptAll.elim (by assumption) ?_
        exact State.lapRetry_keeps hS ‹_›
      · exact State.openToggle_keeps hM (State.denyRetry_keeps hM (State.finish_keeps hM ‹_›))

theorem State.sendHold_keeps {P s t f e} (hS : Stable P) (hs : P s) :
    P (State.sendHold s t f e) := by
  unfold State.sendHold
  split
  · assumption
  · exact State.sendDown_keeps hS ‹_›

theorem State.schedLost_keeps {P s t f e x_4 wire} (hM : Mobile P) (hs : P s) :
    P (State.schedLost s t f e x_4 wire) := by
  have hS := hM.stable
  unfold State.schedLost
  extract_lets +onlyGivenNames x
  clear_value x
  extract_lets +onlyGivenNames x
  refine cut_value (p := P x) ?_ ?_
  · subst x
    exact ite_keeps (P := P) (State.sendDown_keeps hS ‹_›) (ite_keeps (P := P) ‹_› (State.sendHold_keeps hS ‹_›))
  intro hx
  clear_value x
  exact State.openToggle_keeps hM (State.finish_keeps hM ‹_›)

theorem State.stageChecked_keeps {P s x_1 k} (hM : Mobile P) (hs : P s) :
    P (State.stageChecked s x_1 k) := by
  have hS := hM.stable
  unfold State.stageChecked
  extract_lets +onlyGivenNames x
  refine cut_value (p := P x) ?_ ?_
  · subst x
    exact State.addSat_keeps hS ‹_›
  intro hx
  clear_value x
  split
  · exact State.error_keeps hM ‹_›
  · assumption

theorem State.sendSched_keeps {P s t f e k} (hM : Mobile P) (hs : P s) :
    P (State.sendSched s t f e k) := by
  have hS := hM.stable
  unfold State.sendSched
  extract_lets +onlyGivenNames x
  clear_value x
  extract_lets +onlyGivenNames x
  clear_value x
  extract_lets +onlyGivenNames x
  refine cut_value (p := P x) ?_ ?_
  · subst x
    exact ite_keeps (P := P) (State.ledgerRetry_keeps hS ‹_›) ‹_›
  intro hx
  clear_value x
  extract_lets +onlyGivenNames x
  clear_value x
  split
  · exact State.sendHold_keeps hS ‹_›
  · refine ite_keeps (P := P) ?_ ?_
    · exact State.expect_keeps hS (State.sendDown_keeps hS ‹_›)
    · extract_lets +onlyGivenNames x
      split
      · assumption
      · extract_lets +onlyGivenNames x
        refine cut_value (p := P x) ?_ ?_
        · subst x
          exact ite_keeps (P := P) (State.stageChecked_keeps hM ‹_›) ‹_›
        intro hx
        clear_value x
        extract_lets +onlyGivenNames x
        clear_value x
        extract_lets +onlyGivenNames x
        refine cut_value (p := P x) ?_ ?_
        · subst x
          exact State.modFlow_keeps hS ‹_›
        intro hx
        clear_value x
        refine ite_keeps (P := P) ?_ ?_
        · assumption
        · refine ite_keeps (P := P) ?_ ?_
          · exact State.schedLost_keeps hM ‹_›
          · split
            · exact State.schedLost_keeps hM ‹_›
            · exact State.expect_keeps hS (State.sendDown_keeps hS ‹_›)

theorem State.sendUnsched_keeps {P s t f e b k} (hS : Stable P) (hs : P s) :
    P (State.sendUnsched s t f e b k) := by
  unfold State.sendUnsched
  extract_lets +onlyGivenNames x
  clear_value x
  extract_lets +onlyGivenNames x
  clear_value x
  extract_lets +onlyGivenNames x
  clear_value x
  extract_lets +onlyGivenNames x
  clear_value x
  extract_lets +onlyGivenNames x
  clear_value x
  extract_lets +onlyGivenNames x
  clear_value x
  extract_lets +onlyGivenNames x
  refine cut_value (p := P x) ?_ ?_
  · subst x
    exact State.modXfer_keeps hS ‹_›
  intro hx
  clear_value x
  extract_lets +onlyGivenNames x
  refine cut_value (p := P x) ?_ ?_
  · subst x
    exact ite_keeps (P := P) (State.ledgerRetry_keeps hS ‹_›) ‹_›
  intro hx
  clear_value x
  extract_lets +onlyGivenNames x
  refine cut_value (p := P x) ?_ ?_
  · subst x
    exact ite_keeps (P := P) (State.modFlow_keeps hS ‹_›) ‹_›
  intro hx
  clear_value x
  exact State.expect_keeps hS (State.sendDown_keeps hS ‹_›)

theorem State.noSample_keeps {P s f} (hS : Stable P) (hs : P s) : P (State.noSample s f) := by
  unfold State.noSample
  split
  · exact State.sampleMissing_keeps hS ‹_›
  · assumption

theorem State.serviceFailed_keeps {P s w f} (hM : Mobile P) (hs : P s) :
    P (State.serviceFailed s w f) := by
  have hS := hM.stable
  unfold State.serviceFailed
  refine ite_keeps (P := P) (State.noSample_keeps hS ‹_›) ?_
  · split
    · refine OptAll.elim (by assumption) ?_
      exact ite_keeps (P := OptAll P) (State.lapRetry_keeps hS ‹_›) OptAll.none
    · exact State.noSample_keeps hS (State.denyRetry_keeps hM ‹_›)

theorem State.unschedLost_keeps {P s t f ctx k x_5 wire} (hM : Mobile P) (hs : P s) :
    P (State.unschedLost s t f ctx k x_5 wire) := by
  have hS := hM.stable
  unfold State.unschedLost
  extract_lets +onlyGivenNames x
  refine cut_value (p := P x) ?_ ?_
  · subst x
    split
    · exact State.sendDown_keeps hS ‹_›
    · assumption
  intro hx
  clear_value x
  exact ite_keeps (P := P) (State.bulkLost_keeps hM (State.modXfer_keeps hS ‹_›)) (State.finish_keeps hM ‹_›)

theorem State.startUnsched_keeps {P s t f e b k c} (hM : Mobile P) (hs : P s) :
    P (State.startUnsched s t f e b k c) := by
  have hS := hM.stable
  unfold State.startUnsched
  split
  · extract_lets +onlyGivenNames x
    refine cut_value (p := P x) ?_ ?_
    · subst x
      exact State.stageChecked_keeps hM ‹_›
    intro hx
    clear_value x
    split
    · exact State.unschedLost_keeps hM ‹_›
    · exact State.sendUnsched_keeps hS ‹_›
  · exact State.sendUnsched_keeps hS ‹_›

theorem State.takeData_keeps {P s w f h_3 ws last} (hM : Mobile P) (hs : P s) :
    P (State.takeData s w f h_3 ws last) := by
  have hS := hM.stable
  unfold State.takeData
  refine ite_keeps (P := P) ?_ ?_
  · exact State.setGot_keeps hS ‹_›
  · refine ite_keeps (P := P) ?_ ?_
    · exact State.inData_keeps hM ‹_›
    · refine ite_keeps (P := P) ?_ ?_
      · exact State.bulkData_keeps hM ‹_›
      · split
        · exact State.controlData_keeps hM ‹_›
        · exact State.dropExpect_keeps hS ‹_›

theorem State.takeShake_keeps {P s w f k} (hM : Mobile P) (hs : P s) :
    P (State.takeShake s w f k) := by
  have hS := hM.stable
  unfold State.takeShake
  refine ite_keeps (P := P) ?_ ?_
  · exact ite_keeps (P := P) (State.outResponse_keeps hM ‹_›) (ite_keeps (P := P) (State.setGot_keeps hS ‹_›) (ite_keeps (P := P) (State.setGot_keeps hS ‹_›) (ite_keeps (P := P) (ite_keeps (P := P) (State.noSample_keeps hS (State.dropExpect_keeps hS ‹_›)) (State.stalled_keeps hM (State.dropExpect_keeps hS ‹_›))) (State.setGot_keeps hS ‹_›))))
  · refine ite_keeps (P := P) ?_ ?_
    · exact State.bulkResponse_keeps hM ‹_›
    · refine ite_keeps (P := P) ?_ ?_
      · exact ite_keeps (P := P) (State.setGot_keeps hS ‹_›) (ite_keeps (P := P) (State.probeLater_keeps hM (State.clearFails_keeps hS (State.dropExpect_keeps hS ‹_›))) (ite_keeps (P := P) (State.stalled_keeps hM (State.dropExpect_keeps hS ‹_›)) (State.setGot_keeps hS ‹_›)))
      · split
        · exact State.controlShake_keeps hM ‹_›
        · exact State.dropExpect_keeps hS ‹_›

theorem State.unschedFailed_keeps {P s w f x_3} (hM : Mobile P) (hs : P s) :
    P (State.unschedFailed s w f x_3) := by
  have hS := hM.stable
  unfold State.unschedFailed
  extract_lets +onlyGivenNames x
  clear_value x
  extract_lets +onlyGivenNames x
  clear_value x
  extract_lets +onlyGivenNames x
  clear_value x
  extract_lets +onlyGivenNames x
  refine cut_value (p := P x) ?_ ?_
  · subst x
    exact State.modXfer_keeps hS ‹_›
  intro hx
  clear_value x
  extract_lets +onlyGivenNames x
  refine cut_value (p := P x) ?_ ?_
  · subst x
    exact ite_keeps (P := P) (State.goBack_keeps hM ‹_›) ‹_›
  intro hx
  clear_value x
  exact ite_keeps (P := P) (State.lasting_keeps hM ‹_›) ‹_›

theorem execEngineTaskReturn_keeps {P e s} (hM : Mobile P) (hs : P s) :
    ResAll P (execEngineTaskReturn e s) := by
  have hS := hM.stable
  unfold execEngineTaskReturn
  extract_lets +onlyGivenNames x
  clear_value x
  refine ResAll.next (ite_keeps (P := P) ?_ ?_)
  · assumption
  · split
    · exact State.returnSched_keeps hM ‹_›
    · exact State.returnUnsched_keeps hM ‹_›
    · assumption

theorem execPacketTransmit_keeps {P t check s} (hM : Mobile P) (hs : P s) :
    ResAll P (execPacketTransmit t s check) := by
  have hS := hM.stable
  unfold execPacketTransmit
  refine ResAll.next ?_
  extract_lets +onlyGivenNames x
  refine ite_keeps (P := P) ?_ ?_
  · extract_lets +onlyGivenNames x
    split
    · refine ite_keeps (P := P) ?_ ?_
      · exact State.missSlot_keeps hM (State.dropTx_keeps hS ‹_›)
      · extract_lets +onlyGivenNames x
        split
        · extract_lets +onlyGivenNames x
          refine cut_value (p := P x) ?_ ?_
          · subst x
            exact State.dropTx_keeps hS ‹_›
          intro hx
          clear_value x
          split
          · exact State.startUnsched_keeps hM ‹_›
          · assumption
        · split
          · exact State.sendSched_keeps hM (State.dropTx_keeps hS ‹_›)
          · exact State.dropTx_keeps hS ‹_›
    · extract_lets +onlyGivenNames x
      refine cut_value (p := P x) ?_ ?_
      · subst x
        exact State.dropTx_keeps hS ‹_›
      intro hx
      clear_value x
      split
      · exact State.startUnsched_keeps hM ‹_›
      · assumption
    · assumption
  · assumption

theorem execResponseMatch_keeps {P e pkt s} (hM : Mobile P) (hs : P s) :
    ResAll P (execResponseMatch e pkt s) := by
  have hS := hM.stable
  unfold execResponseMatch
  refine ResAll.next ?_
  extract_lets +onlyGivenNames x
  split
  · exact Snd.out (State.readUp_keeps hS ‹_›)
  · extract_lets +onlyGivenNames x
    clear_value x
    refine ite_keeps (P := P) ?_ ?_
    · exact State.addSat_keeps hS ‹_›
    · split
      split
      · refine State.setGot_keeps hS ?_
        refine Snd.elim (by assumption) ?_
        exact State.readUp_keeps hS ‹_›
      · refine State.setGot_keeps hS ?_
        refine Snd.elim (by assumption) ?_
        exact State.readUp_keeps hS ‹_›
      · refine ite_keeps (P := P) ?_ ?_
        · refine State.dropExpect_keeps hS ?_
          refine Snd.elim (by assumption) ?_
          exact State.readUp_keeps hS ‹_›
        · refine State.takeData_keeps hM ?_
          refine Snd.elim (by assumption) ?_
          exact State.readUp_keeps hS ‹_›
      · refine ite_keeps (P := P) ?_ ?_
        · refine State.dropExpect_keeps hS ?_
          refine Snd.elim (by assumption) ?_
          exact State.readUp_keeps hS ‹_›
        · refine State.takeShake_keeps hM ?_
          refine Snd.elim (by assumption) ?_
          exact State.readUp_keeps hS ‹_›
      · refine State.setGot_keeps hS ?_
        refine Snd.elim (by assumption) ?_
        exact State.readUp_keeps hS ‹_›
      · refine Snd.elim (by assumption) ?_
        exact State.readUp_keeps hS ‹_›

theorem execResponseWindowClose_keeps {P e s} (hM : Mobile P) (hs : P s) :
    ResAll P (execResponseWindowClose e s) := by
  have hS := hM.stable
  unfold execResponseWindowClose
  refine ResAll.next ?_
  extract_lets +onlyGivenNames x
  split
  · assumption
  · extract_lets +onlyGivenNames x
    refine cut_value (p := P x) ?_ ?_
    · subst x
      exact State.dropExpect_keeps hS ‹_›
    intro hx
    clear_value x
    split
    · assumption
    · refine ite_keeps (P := P) ?_ ?_
      · exact State.serviceFailed_keeps hM ‹_›
      · refine ite_keeps (P := P) ?_ ?_
        · assumption
        · split
          · assumption
          · exact ite_keeps (P := P) ‹_› (ite_keeps (P := P) (State.schedFailed_keeps hM ‹_›) (State.unschedFailed_keeps hM ‹_›))

end Sys2Proof.Machine
end

