-- ==== Sys2Proof/Laws/KeepsLink.lean ====
section
/-!
SUPPORT. What the operations and meanings of Machine/Link.lean keep (see Laws/Follows.lean): steady ones any `Stable` property, the others any
`Mobile` one.
-/

set_option linter.tactic.unusedName false
set_option linter.unusedVariables false

namespace Sys2Proof.Machine

theorem State.linkFailure_keeps {P s p} (hM : Mobile P) (hs : P s) :
    P (State.linkFailure s p) := by
  have hS := hM.stable
  unfold State.linkFailure
  exact ite_keeps (P := P) (State.resetPort_keeps hM ‹_›) ‹_›

theorem State.gbResumes_keeps {P s own} (hM : Mobile P) (hs : P s) :
    P (State.gbResumes s own) := by
  have hS := hM.stable
  unfold State.gbResumes
  extract_lets +onlyGivenNames x
  refine cut_value (p := P x) ?_ ?_
  · subst x
    exact State.setFld_keeps hS ‹_›
  intro hx
  clear_value x
  exact ite_keeps (P := P) (State.happen_keeps hM ‹_›) ‹_›

theorem State.modLink_keeps {P s d f} (hS : Stable P) (hs : P s) :
    P (State.modLink s d f) := by
  unfold State.modLink
  exact State.modDevAt_keeps hS ‹_›

theorem State.gbWakes_keeps {P s} (hS : Stable P) (hs : P s) :
    P (State.gbWakes s) := by
  unfold State.gbWakes
  exact ite_keeps (P := P) (State.emit_keeps hS (State.modLink_keeps hS ‹_›)) ‹_›

theorem State.hrFailed_keeps {P s p} (hM : Mobile P) (hs : P s) :
    P (State.hrFailed s p) := by
  have hS := hM.stable
  unfold State.hrFailed
  extract_lets +onlyGivenNames x
  refine cut_value (p := P x) ?_ ?_
  · subst x
    exact State.modPort_keeps hS ‹_›
  intro hx
  clear_value x
  split
  · exact State.error_keeps hM (State.linkEvent_keeps hM (State.happen_keeps hM ‹_›))
  · assumption

theorem State.hubWakesUp_keeps {P s p} (hM : Mobile P) (hs : P s) :
    P (State.hubWakesUp s p) := by
  have hS := hM.stable
  unfold State.hubWakesUp
  split
  · split
    · exact ite_keeps (P := P) (State.emit_keeps hS (State.modLink_keeps hS ‹_›)) ‹_›
    · assumption
  · exact State.happen_keeps hM (ite_keeps (P := P) (State.gbWakes_keeps hS ‹_›) ‹_›)
  · assumption

theorem State.missStart_keeps {P s d} (hM : Mobile P) (hs : P s) :
    P (State.missStart s d) := by
  have hS := hM.stable
  unfold State.missStart
  extract_lets +onlyGivenNames x
  refine cut_value (p := P x) ?_ ?_
  · subst x
    exact State.modDevAt_keeps hS ‹_›
  intro hx
  clear_value x
  split
  · assumption
  · refine ite_keeps (P := P) ?_ ?_
    · assumption
    · refine ite_keeps (P := P) ?_ ?_
      · assumption
      · split
        · exact State.linkFailure_keeps hM ‹_›
        · assumption

theorem State.modRx_keeps {P s x_1 f} (hS : Stable P) (hs : P s) :
    P (State.modRx s x_1 f) := by
  unfold State.modRx
  split
  · exact State.modPort_keeps hS ‹_›
  · exact State.modLink_keeps hS ‹_›

theorem State.owedStops_keeps {P s p} (hS : Stable P) (hs : P s) :
    P (State.owedStops s p) := by
  unfold State.owedStops
  extract_lets +onlyGivenNames x
  refine ite_keeps (P := P) ?_ ?_
  · split
    · exact Stable.upd hS rfl ‹_› (List.suffix_refl _) id id id (BitVec.le_refl _) id
    · assumption
  · assumption

theorem State.resumeByHub_keeps {P s d} (hS : Stable P) (hs : P s) :
    P (State.resumeByHub s d) := by
  unfold State.resumeByHub
  split
  · assumption
  · refine foldl_keeps (P := P) (fun a b h => ?_) ?_
    · split
      · exact ite_keeps (P := P) (State.requestResume_keeps hS ‹_›) ‹_›
      · assumption
    · assumption

theorem State.sendTrain_keeps {P s x_1 n} (hS : Stable P) (hs : P s) :
    P (State.sendTrain s x_1 n) := by
  unfold State.sendTrain
  split
  · assumption
  · extract_lets +onlyGivenNames x
    clear_value x
    exact ite_keeps (P := P) (State.emit_keeps hS (State.modRx_keeps hS ‹_›)) ‹_›

theorem State.startTraining_keeps {P s p r} (hS : Stable P) (hs : P s) :
    P (State.startTraining s p r) := by
  unfold State.startTraining
  extract_lets +onlyGivenNames x
  clear_value x
  exact State.sendTrain_keeps hS (State.modPort_keeps hS ‹_›)

theorem State.trainSide_keeps {P s x_1 blocks eyeOk forced sent} (hS : Stable P) (hs : P s) :
    P (State.trainSide s x_1 blocks eyeOk forced sent) := by
  unfold State.trainSide
  extract_lets +onlyGivenNames x
  refine cut_value (p := P x) ?_ ?_
  · subst x
    exact State.sendTrain_keeps hS ‹_›
  intro hx
  clear_value x
  split
  · assumption
  · extract_lets +onlyGivenNames x
    clear_value x
    extract_lets +onlyGivenNames x
    refine cut_value (p := P x) ?_ ?_
    · subst x
      exact State.modRx_keeps hS ‹_›
    intro hx
    clear_value x
    exact ite_keeps (P := P) (State.sendTrain_keeps hS ‹_›) ‹_›

theorem State.gbAborted_keeps {P s d x_2} (hM : Mobile P) (hs : P s) : P (State.gbAborted s d x_2) := by
  unfold State.gbAborted
  exact ite_keeps (P := P) (State.exchangeAborted_keeps hM ‹_›) ‹_›

theorem execResetDetect_keeps {P d s} (hM : Mobile P) (hs : P s) :
    ResAll P (execResetDetect d s) := by
  have hS := hM.stable
  unfold execResetDetect
  extract_lets +onlyGivenNames x
  refine cut_value (p := P x) ?_ ?_
  · subst x
    exact State.gbEdge_keeps hS ‹_›
  intro hx
  clear_value x
  extract_lets +onlyGivenNames x
  refine cut_value (p := P x) ?_ ?_
  · subst x
    split
    · assumption
    · extract_lets +onlyGivenNames x
      clear_value x
      exact ite_keeps (P := P) (Stable.upd hS rfl ‹_› (List.suffix_refl _) id id id (BitVec.le_refl _) id) ‹_›
  intro hx
  clear_value x
  refine ResAll.next ?_
  split
  · assumption
  · refine ite_keeps (P := P) ?_ ?_
    · extract_lets +onlyGivenNames x
      refine cut_value (p := P x) ?_ ?_
      · subst x
        exact State.modDevAt_keeps hS (State.gbAborted_keeps hM ‹_›)
      intro hx
      clear_value x
      split
      refine ite_keeps (P := P) ?_ ?_
      · refine State.emit_keeps hS ?_
        refine Snd.elim (by assumption) ?_
        exact ite_keeps (P := Snd P) (Snd.mk ‹_›) (State.freeBool_keeps hS ‹_›)
      · refine Snd.elim (by assumption) ?_
        exact ite_keeps (P := Snd P) (Snd.mk ‹_›) (State.freeBool_keeps hS ‹_›)
    · assumption

theorem execChirpReceive_keeps {P p blocks s} (hS : Stable P) (hs : P s) :
    ResAll P (execChirpReceive p blocks s) := by
  unfold execChirpReceive
  extract_lets +onlyGivenNames x
  subst x
  extract_lets +onlyGivenNames x
  clear_value x
  refine ResAll.next ?_
  split
  · assumption
  · exact ite_keeps (P := P) (State.modPort_keeps hS ‹_›) ‹_›

theorem execResetHoldEnd_keeps {P p s} (hM : Mobile P) (hs : P s) :
    ResAll P (execResetHoldEnd p s) := by
  have hS := hM.stable
  unfold execResetHoldEnd
  extract_lets +onlyGivenNames x
  refine cut_value (p := P x) ?_ ?_
  · subst x
    exact State.emit_keeps hS ‹_›
  intro hx
  clear_value x
  refine ResAll.next ?_
  split
  · assumption
  · exact ite_keeps (P := P) (ite_keeps (P := P) (State.startTraining_keeps hS ‹_›) (ite_keeps (P := P) (State.portFault_keeps hM ‹_›) (State.startTraining_keeps hS ‹_›))) ‹_›

theorem execChirpAckReceive_keeps {P d blocks s} (hS : Stable P) (hs : P s) :
    ResAll P (execChirpAckReceive d blocks s) := by
  unfold execChirpAckReceive
  extract_lets +onlyGivenNames x
  refine cut_value (p := P x) ?_ ?_
  · subst x
    exact State.gbEdge_keeps hS ‹_›
  intro hx
  clear_value x
  refine ResAll.next ?_
  split
  · assumption
  · exact ite_keeps (P := P) (State.emit_keeps hS (State.modLink_keeps hS ‹_›)) ‹_›

theorem execTrainReceive_keeps {P x_0 blocks eye sent s} (hS : Stable P) (hs : P s) :
    ResAll P (execTrainReceive x_0 blocks eye s sent) := by
  unfold execTrainReceive
  refine guarded_keeps hS ?_
  extract_lets +onlyGivenNames x
  split
  · split
    · assumption
    · exact ite_keeps (P := P) (State.trainSide_keeps hS ‹_›) ‹_›
  · extract_lets +onlyGivenNames x
    refine cut_value (p := P x) ?_ ?_
    · subst x
      exact State.modLink_keeps hS (State.gbEdge_keeps hS ‹_›)
    intro hx
    clear_value x
    extract_lets +onlyGivenNames x
    refine cut_value (p := P x) ?_ ?_
    · subst x
      exact State.trainSide_keeps hS ‹_›
    intro hx
    clear_value x
    split
    · assumption
    · exact ite_keeps (P := P) (ite_keeps (P := P) (State.modDevAt_keeps hS ‹_›) ‹_›) ‹_›

theorem execBlockLockGained_keeps {P x_0 s} (hS : Stable P) (hs : P s) :
    ResAll P (execBlockLockGained x_0 s) := by
  unfold execBlockLockGained
  extract_lets +onlyGivenNames x
  refine cut_value (p := P x) ?_ ?_
  · subst x
    exact State.modRx_keeps hS ‹_›
  intro hx
  clear_value x
  refine ResAll.next ?_
  extract_lets +onlyGivenNames x
  split
  · assumption
  · refine ite_keeps (P := P) ?_ ?_
    · assumption
    · extract_lets +onlyGivenNames x
      split
      · extract_lets +onlyGivenNames x
        refine cut_value (p := P x) ?_ ?_
        · subst x
          exact State.gbEdge_keeps hS ‹_›
        intro hx
        clear_value x
        split
        · exact ite_keeps (P := P) (State.sendTrain_keeps hS ‹_›) ‹_›
        · assumption
      · assumption

theorem execPresetRequest_keeps {P p eyeH eyeV s} (hS : Stable P) (hs : P s) :
    ResAll P (execPresetRequest p eyeH eyeV s) := by
  unfold execPresetRequest
  refine ResAll.next ?_
  split
  · assumption
  · refine ite_keeps (P := P) ?_ ?_
    · refine ite_keeps (P := P) ?_ ?_
      · exact State.modRx_keeps hS ‹_›
      · split
        refine State.sendTrain_keeps hS (State.modRx_keeps hS ?_)
        refine Snd.elim (by assumption) ?_
        exact State.freeWord_keeps hS ‹_›
    · assumption

theorem execTrainingUp_keeps {P p s} (hM : Mobile P) (hs : P s) :
    ResAll P (execTrainingUp p s) := by
  have hS := hM.stable
  unfold execTrainingUp
  refine ResAll.next ?_
  extract_lets +onlyGivenNames x
  split
  · assumption
  · extract_lets +onlyGivenNames x
    clear_value x
    extract_lets +onlyGivenNames x
    clear_value x
    extract_lets +onlyGivenNames x
    refine cut_value (p := P x) ?_ ?_
    · subst x
      exact State.modPort_keeps hS ‹_›
    intro hx
    clear_value x
    extract_lets +onlyGivenNames x
    refine cut_value (p := P x) ?_ ?_
    · subst x
      split
      · assumption
      · refine State.emit_keeps hS ?_
        extract_lets +onlyGivenNames x
        exact State.modDev_keeps hS ‹_›
    intro hx
    clear_value x
    extract_lets +onlyGivenNames x
    refine cut_value (p := P x) ?_ ?_
    · subst x
      exact State.emit_keeps hS ‹_›
    intro hx
    clear_value x
    extract_lets +onlyGivenNames x
    refine cut_value (p := P x) ?_ ?_
    · subst x
      exact ite_keeps (P := P) (State.portEvent_keeps hM ‹_›) (State.portEvent_keeps hM ‹_›)
    intro hx
    clear_value x
    extract_lets +onlyGivenNames x
    refine cut_value (p := P x) ?_ ?_
    · subst x
      exact State.owedStops_keeps hS ‹_›
    intro hx
    clear_value x
    extract_lets +onlyGivenNames x
    clear_value x
    extract_lets +onlyGivenNames x
    refine cut_value (p := P x) ?_ ?_
    · subst x
      exact ite_keeps (P := P) (State.planAgain_keeps hS ‹_›) ‹_›
    intro hx
    clear_value x
    extract_lets +onlyGivenNames x
    refine cut_value (p := P x) ?_ ?_
    · subst x
      split
      · assumption
      · exact ite_keeps (P := P) (State.awaitDevice_keeps hS ‹_›) (State.resumeByHub_keeps hS ‹_›)
    intro hx
    clear_value x
    exact ite_keeps (P := P) (State.settle_keeps hM ‹_›) ‹_›

theorem execTrainingTimeout_keeps {P p s} (hM : Mobile P) (hs : P s) :
    ResAll P (execTrainingTimeout p s) := by
  have hS := hM.stable
  unfold execTrainingTimeout
  refine ResAll.next ?_
  extract_lets +onlyGivenNames x
  split
  · assumption
  · extract_lets +onlyGivenNames x
    clear_value x
    extract_lets +onlyGivenNames x
    refine cut_value (p := P x) ?_ ?_
    · subst x
      exact ite_keeps (P := P) (State.hrFailed_keeps hM ‹_›) ‹_›
    intro hx
    clear_value x
    extract_lets +onlyGivenNames x
    refine cut_value (p := P x) ?_ ?_
    · subst x
      exact State.portFault_keeps hM (State.modPort_keeps hS ‹_›)
    intro hx
    clear_value x
    refine ite_keeps (P := P) ?_ ?_
    · refine ite_keeps (P := P) ?_ ?_
      · exact State.requestReset_keeps hM ‹_›
      · refine ite_keeps (P := P) ?_ ?_
        · exact ite_keeps (P := P) (State.portFault_keeps hM ‹_›) (State.startHold_keeps hM ‹_›)
        · refine ite_keeps (P := P) ?_ ?_
          · exact State.startHold_keeps hM (State.modPort_keeps hS ‹_›)
          · split
            · exact State.ppmTrainFault_keeps hS ‹_›
            · assumption
    · assumption

theorem execBlockInError_keeps {P x_0 b origin s} (hS : Stable P) (hs : P s) :
    ResAll P (execBlockInError x_0 b origin s) := by
  unfold execBlockInError
  extract_lets +onlyGivenNames x
  subst x
  dsimp -zeta -zetaDelta only
  extract_lets +onlyGivenNames x
  refine cut_value (p := P x) ?_ ?_
  · subst x
    refine ite_keeps (P := P) ?_ ?_
    · extract_lets +onlyGivenNames x
      split
      · exact State.modPort_keeps hS ‹_›
      · exact State.modPort_keeps hS ‹_›
      · exact State.addSat_keeps hS ‹_›
      · assumption
    · assumption
  intro hx
  clear_value x
  refine ResAll.next (ite_keeps (P := P) ?_ ?_)
  · split
    · split
      · exact foldl_keeps (P := P) (fun a b h => (State.emit_keeps hS ‹_›)) ‹_›
      · assumption
    · exact State.emit_keeps hS ‹_›
    · assumption
  · assumption

theorem execBlockLockLost_keeps {P x_0 s} (hM : Mobile P) (hs : P s) :
    ResAll P (execBlockLockLost x_0 s) := by
  have hS := hM.stable
  unfold execBlockLockLost
  extract_lets +onlyGivenNames x
  refine cut_value (p := P x) ?_ ?_
  · subst x
    exact State.modRx_keeps hS ‹_›
  intro hx
  clear_value x
  refine ResAll.next ?_
  extract_lets +onlyGivenNames x
  split
  · assumption
  · refine ite_keeps (P := P) ?_ ?_
    · extract_lets +onlyGivenNames x
      split
      · extract_lets +onlyGivenNames x
        refine cut_value (p := P x) ?_ ?_
        · subst x
          split
          · exact State.error_keeps hM (State.linkEvent_keeps hM (State.happen_keeps hM ‹_›))
          · assumption
        intro hx
        clear_value x
        exact ite_keeps (P := P) (State.linkFailure_keeps hM ‹_›) (State.modRx_keeps hS ‹_›)
      · exact ite_keeps (P := P) (State.error_keeps hM (State.happen_keeps hM ‹_›)) ‹_›
    · assumption

theorem execCourseSyncLost_keeps {P d s} (hM : Mobile P) (hs : P s) :
    ResAll P (execCourseSyncLost d s) := by
  have hS := hM.stable
  unfold execCourseSyncLost
  refine ResAll.next ?_
  split
  · assumption
  · exact ite_keeps (P := P) (State.missStart_keeps hM ‹_›) ‹_›

theorem execNodeTimeInvalid_keeps {P d s} (hS : Stable P) (hs : P s) :
    ResAll P (execNodeTimeInvalid d s) := by
  unfold execNodeTimeInvalid
  refine ResAll.next ?_
  extract_lets +onlyGivenNames x
  exact State.modDev_keeps hS ‹_›

theorem execSuspendReceive_keeps {P d blocks idle s} (hS : Stable P) (hs : P s) :
    ResAll P (execSuspendReceive d blocks idle s) := by
  unfold execSuspendReceive
  extract_lets +onlyGivenNames x
  clear_value x
  extract_lets +onlyGivenNames x
  refine cut_value (p := P x) ?_ ?_
  · subst x
    exact State.modLink_keeps hS ‹_›
  intro hx
  clear_value x
  refine ResAll.next ?_
  extract_lets +onlyGivenNames x
  split
  · assumption
  · refine ite_keeps (P := P) ?_ ?_
    · extract_lets +onlyGivenNames x
      split
      · assumption
      · refine foldl_keeps (P := P) (fun a b h => ?_) ?_
        · extract_lets +onlyGivenNames x
          refine State.emit_keeps hS ?_
          extract_lets +onlyGivenNames x
          exact State.modPort_keeps hS ‹_›
        · assumption
    · assumption

theorem execPortSuspendEntry_keeps {P p s} (hM : Mobile P) (hs : P s) :
    ResAll P (execPortSuspendEntry p s) := by
  have hS := hM.stable
  unfold execPortSuspendEntry
  extract_lets +onlyGivenNames x
  refine cut_value (p := P x) ?_ ?_
  · subst x
    exact State.gaDown_keeps hM ‹_›
  intro hx
  clear_value x
  extract_lets +onlyGivenNames x
  refine cut_value (p := P x) ?_ ?_
  · subst x
    exact State.emit_keeps hS (State.modPort_keeps hS ‹_›)
  intro hx
  clear_value x
  refine ResAll.next ?_
  split
  · assumption
  · exact ite_keeps (P := P) (State.settle_keeps hM (State.portEvent_keeps hM ‹_›)) ‹_›

theorem execWakeRecognised_keeps {P x_0 blocks s} (hM : Mobile P) (hs : P s) :
    ResAll P (execWakeRecognised x_0 blocks s) := by
  have hS := hM.stable
  unfold execWakeRecognised
  refine ResAll.next ?_
  extract_lets +onlyGivenNames x
  refine ite_keeps (P := P) ?_ ?_
  · assumption
  · extract_lets +onlyGivenNames x
    split
    · extract_lets +onlyGivenNames x
      refine cut_value (p := P x) ?_ ?_
      · subst x
        exact State.portEvent_keeps hM (State.modPort_keeps hS ‹_›)
      intro hx
      clear_value x
      split
      · assumption
      · exact ite_keeps (P := P) ‹_› (ite_keeps (P := P) (State.hubWakesUp_keeps hM (State.portEvent_keeps hM (State.requestResume_keeps hS ‹_›))) (ite_keeps (P := P) (ite_keeps (P := P) (State.happen_keeps hM ‹_›) ‹_›) ‹_›))
    · split
      · assumption
      · extract_lets +onlyGivenNames x
        refine cut_value (p := P x) ?_ ?_
        · subst x
          exact ite_keeps (P := P) (State.gbResumes_keeps hM ‹_›) ‹_›
        intro hx
        clear_value x
        refine ite_keeps (P := P) ?_ ?_
        · extract_lets +onlyGivenNames x
          exact State.modLink_keeps hS ‹_›
        · assumption

theorem execNodeRemoteWake_keeps {P d s} (hS : Stable P) (hs : P s) :
    ResAll P (execNodeRemoteWake d s) := by
  unfold execNodeRemoteWake
  refine ResAll.next ?_
  split
  · assumption
  · exact ite_keeps (P := P) (State.emit_keeps hS (State.modLink_keeps hS ‹_›)) ‹_›

theorem execWakeSendEnd_keeps {P p s} (hS : Stable P) (hs : P s) :
    ResAll P (execWakeSendEnd p s) := by
  unfold execWakeSendEnd
  extract_lets +onlyGivenNames x
  clear_value x
  extract_lets +onlyGivenNames x
  refine cut_value (p := P x) ?_ ?_
  · subst x
    exact State.modPort_keeps hS ‹_›
  intro hx
  clear_value x
  refine ResAll.next ?_
  extract_lets +onlyGivenNames x
  split
  · assumption
  · extract_lets +onlyGivenNames x
    clear_value x
    extract_lets +onlyGivenNames x
    refine cut_value (p := P x) ?_ ?_
    · subst x
      exact State.modPort_keeps hS ‹_›
    intro hx
    clear_value x
    split
    · assumption
    · exact State.emit_keeps hS ‹_›
    · exact State.sendTrain_keeps hS ‹_›

theorem execPingSend_keeps {P p s} (hS : Stable P) (hs : P s) :
    ResAll P (execPingSend p s) := by
  unfold execPingSend
  extract_lets +onlyGivenNames x
  clear_value x
  extract_lets +onlyGivenNames x
  refine cut_value (p := P x) ?_ ?_
  · subst x
    exact State.modPort_keeps hS ‹_›
  intro hx
  clear_value x
  refine ResAll.next ?_
  split
  · assumption
  · exact ite_keeps (P := P) (State.emit_keeps hS ‹_›) ‹_›

theorem execPingReceive_keeps {P d b hold s} (hS : Stable P) (hs : P s) :
    ResAll P (execPingReceive d b hold s) := by
  unfold execPingReceive
  refine ResAll.next ?_
  split
  · assumption
  · exact ite_keeps (P := P) (State.emit_keeps hS ‹_›) ‹_›

theorem execPongReceive_keeps {P p b rtt late s} (hS : Stable P) (hs : P s) :
    ResAll P (execPongReceive p b rtt late s) := by
  unfold execPongReceive
  extract_lets +onlyGivenNames x
  clear_value x
  refine ResAll.next ?_
  extract_lets +onlyGivenNames x
  split
  · assumption
  · refine ite_keeps (P := P) ?_ ?_
    · extract_lets +onlyGivenNames x
      split
      · assumption
      · refine ite_keeps (P := P) ?_ ?_
        · extract_lets +onlyGivenNames x
          exact State.modPort_keeps hS ‹_›
        · exact State.modPort_keeps hS ‹_›
    · assumption

theorem execStopReceive_keeps {P x_0 b s} (hM : Mobile P) (hs : P s) :
    ResAll P (execStopReceive x_0 b s) := by
  have hS := hM.stable
  unfold execStopReceive
  refine ResAll.next ?_
  extract_lets +onlyGivenNames x
  refine ite_keeps (P := P) ?_ ?_
  · extract_lets +onlyGivenNames x
    split
    · extract_lets +onlyGivenNames x
      refine cut_value (p := P x) ?_ ?_
      · subst x
        split
        · exact foldl_keeps (P := P) (fun a b h => (State.emit_keeps hS ‹_›)) ‹_›
        · assumption
      intro hx
      clear_value x
      extract_lets +onlyGivenNames x
      refine cut_value (p := P x) ?_ ?_
      · subst x
        exact State.modDev_keeps hS ‹_›
      intro hx
      clear_value x
      split
      · assumption
      · exact ite_keeps (P := P) (State.emit_keeps hS ‹_›) ‹_›
    · exact ite_keeps (P := P) (State.stopTrigger_keeps hM ‹_›) ‹_›
    · exact ite_keeps (P := P) (State.stopTrigger_keeps hM ‹_›) ‹_›
    · assumption
  · assumption

theorem execNodeReady_keeps {P d s} (hS : Stable P) (hs : P s) :
    ResAll P (execNodeReady d s) := by
  unfold execNodeReady
  exact ResAll.next (State.modDev_keeps hS ‹_›)

end Sys2Proof.Machine
end

