-- ==== Sys2Proof/Laws/KeepsGang.lean ====
section
/-!
SUPPORT. What the operations and meanings of Machine/Gang.lean keep (see Laws/Follows.lean): steady ones any `Stable` property, the others any
`Mobile` one.
-/

set_option linter.tactic.unusedName false
set_option linter.unusedVariables false

namespace Sys2Proof.Machine

theorem State.applyOut_keeps {P s n ep ws} (hS : Stable P) (hs : P s) :
    P (State.applyOut s n ep ws) := by
  unfold State.applyOut
  exact State.emit_keeps hS (State.modDev_keeps hS ‹_›)

theorem State.dropRidgeLock_keeps {P s} (hM : Mobile P) (hs : P s) :
    P (State.dropRidgeLock s) := by
  have hS := hM.stable
  unfold State.dropRidgeLock
  extract_lets +onlyGivenNames x
  clear_value x
  extract_lets +onlyGivenNames x
  refine cut_value (p := P x) ?_ ?_
  · subst x
    exact Stable.upd hS rfl ‹_› (List.suffix_refl _) id id id (BitVec.le_refl _) id
  intro hx
  clear_value x
  extract_lets +onlyGivenNames x
  refine cut_value (p := P x) ?_ ?_
  · subst x
    exact ite_keeps (P := P) (State.loseLock_keeps hM ‹_›) ‹_›
  intro hx
  clear_value x
  exact ite_keeps (P := P) (State.happen_keeps hM ‹_›) ‹_›

theorem State.forwardStart_keeps {P s h_1 x_2 b0 b1 b2 residence} (hS : Stable P) (hs : P s) :
    P (State.forwardStart s h_1 x_2 b0 b1 b2 residence) := by
  unfold State.forwardStart
  extract_lets +onlyGivenNames x
  clear_value x
  refine foldl_keeps (P := P) (fun a b h => ?_) ?_
  · extract_lets +onlyGivenNames x
    refine cut_value (p := P x) ?_ ?_
    · subst x
      exact State.modPort_keeps hS ‹_›
    intro hx
    clear_value x
    split
    · assumption
    · extract_lets +onlyGivenNames x
      clear_value x
      exact State.emit_keeps hS ‹_›
  · assumption

theorem State.offsetSample_keeps {P s o} (hM : Mobile P) (hs : P s) :
    P (State.offsetSample s o) := by
  have hS := hM.stable
  unfold State.offsetSample
  extract_lets +onlyGivenNames x
  clear_value x
  extract_lets +onlyGivenNames x
  extract_lets +onlyGivenNames x
  clear_value x
  extract_lets +onlyGivenNames x
  clear_value x
  extract_lets +onlyGivenNames x
  clear_value x
  extract_lets +onlyGivenNames x
  clear_value x
  extract_lets +onlyGivenNames x
  refine cut_value (p := P x) ?_ ?_
  · subst x
    exact ite_keeps (P := P) (State.addSat_keeps hS ‹_›) ‹_›
  intro hx
  clear_value x
  extract_lets +onlyGivenNames x
  clear_value x
  extract_lets +onlyGivenNames x
  refine cut_value (p := P x) ?_ ?_
  · subst x
    exact Stable.upd hS rfl ‹_› (List.suffix_refl _) id id id (BitVec.le_refl _) id
  intro hx
  clear_value x
  extract_lets +onlyGivenNames x
  clear_value x
  extract_lets +onlyGivenNames x
  refine cut_value (p := P x) ?_ ?_
  · subst x
    exact State.modGang_keeps hM ‹_›
  intro hx
  clear_value x
  exact ite_keeps (P := P) (State.error_keeps hM ‹_›) ‹_›

theorem State.gbStart_keeps {P s x_1 stamp} (hM : Mobile P) (hs : P s) :
    P (State.gbStart s x_1 stamp) := by
  have hS := hM.stable
  unfold State.gbStart
  split
  · exact State.modGang_keeps hM ‹_›
  · extract_lets +onlyGivenNames x
    clear_value x
    extract_lets +onlyGivenNames x
    refine cut_value (p := P x) ?_ ?_
    · subst x
      exact State.modGang_keeps hM ‹_›
    intro hx
    clear_value x
    extract_lets +onlyGivenNames x
    clear_value x
    extract_lets +onlyGivenNames x
    clear_value x
    refine ite_keeps (P := P) ?_ ?_
    · extract_lets +onlyGivenNames x
      split
      · assumption
      · extract_lets +onlyGivenNames x
        refine cut_value (p := P x) ?_ ?_
        · subst x
          exact Stable.upd hS rfl ‹_› (List.suffix_refl _) id id id (BitVec.le_refl _) id
        intro hx
        clear_value x
        split
        · assumption
        · exact State.offsetSample_keeps hM ‹_›
    · assumption

theorem State.lateByStep_keeps {P s n was} (hS : Stable P) (hs : P s) :
    P (State.lateByStep s n was) := by
  unfold State.lateByStep
  split
  · assumption
  · extract_lets +onlyGivenNames x
    clear_value x
    extract_lets +onlyGivenNames x
    clear_value x
    refine foldl_keeps (P := P) (fun a b h => ?_) ?_
    · extract_lets +onlyGivenNames x
      refine cut_value (p := P x) ?_ ?_
      · subst x
        exact State.modDev_keeps hS ‹_›
      intro hx
      clear_value x
      exact ite_keeps (P := P) (State.applyOut_keeps hS ‹_›) ‹_›
    · assumption

theorem State.relay_keeps {P s w} (hS : Stable P) (hs : P s) :
    P (State.relay s w) := by
  unfold State.relay
  extract_lets +onlyGivenNames x
  clear_value x
  exact State.emit_keeps hS ‹_›

theorem execCourseStartReceive_keeps {P d b0 b1 b2 residence stamp s} (hM : Mobile P) (hs : P s) :
    ResAll P (execCourseStartReceive d b0 b1 b2 residence stamp s) := by
  have hS := hM.stable
  unfold execCourseStartReceive
  extract_lets +onlyGivenNames x
  refine cut_value (p := P x) ?_ ?_
  · subst x
    exact State.gbEdge_keeps hS ‹_›
  intro hx
  clear_value x
  extract_lets +onlyGivenNames x
  clear_value x
  refine ResAll.next ?_
  extract_lets +onlyGivenNames x
  split
  · assumption
  · extract_lets +onlyGivenNames x
    clear_value x
    extract_lets +onlyGivenNames x
    refine cut_value (p := P x) ?_ ?_
    · subst x
      split
      · exact State.missStart_keeps hM ‹_›
      · extract_lets +onlyGivenNames x
        refine cut_value (p := P x) ?_ ?_
        · subst x
          exact State.modLink_keeps hS ‹_›
        intro hx
        clear_value x
        extract_lets +onlyGivenNames x
        refine cut_value (p := P x) ?_ ?_
        · subst x
          exact State.modDevAt_keeps hS ‹_›
        intro hx
        clear_value x
        split
        · exact ite_keeps (P := P) (State.lateByStep_keeps hS ‹_›) ‹_›
        · assumption
    intro hx
    clear_value x
    refine ite_keeps (P := P) ?_ ?_
    · split
      · exact State.gbStart_keeps hM ‹_›
      · split
        · exact State.forwardStart_keeps hS ‹_›
        · assumption
    · assumption

theorem execPacePacketReceive_keeps {P pkt s} (hS : Stable P) (hs : P s) :
    ResAll P (execPacePacketReceive pkt s) := by
  unfold execPacePacketReceive
  extract_lets +onlyGivenNames x
  refine cut_value (p := P x) ?_ ?_
  · subst x
    exact ite_keeps (P := P) (State.relay_keeps hS ‹_›) ‹_›
  intro hx
  clear_value x
  refine ResAll.next ?_
  extract_lets +onlyGivenNames x
  refine ite_keeps (P := P) ?_ ?_
  · extract_lets +onlyGivenNames x
    split
    · assumption
    · extract_lets +onlyGivenNames x
      refine cut_value (p := P x) ?_ ?_
      · subst x
        exact State.setFld_keeps hS ‹_›
      intro hx
      clear_value x
      extract_lets +onlyGivenNames x
      clear_value x
      exact Stable.upd hS rfl ‹_› (List.suffix_refl _) id id id (BitVec.le_refl _) id
  · assumption

theorem execRidgeLockGained_keeps {P s} (hM : Mobile P) (hs : P s) :
    ResAll P (execRidgeLockGained s) := by
  have hS := hM.stable
  unfold execRidgeLockGained
  extract_lets +onlyGivenNames x
  refine cut_value (p := P x) ?_ ?_
  · subst x
    exact ite_keeps (P := P) (State.lockTime_keeps hM ‹_›) ‹_›
  intro hx
  clear_value x
  exact ResAll.next (ite_keeps (P := P) (State.modGang_keeps hM ‹_›) ‹_›)

theorem execRidgeLockLost_keeps {P s} (hM : Mobile P) (hs : P s) :
    ResAll P (execRidgeLockLost s) := by
  have hS := hM.stable
  unfold execRidgeLockLost
  exact ResAll.next (ite_keeps (P := P) (State.dropRidgeLock_keeps hM ‹_›) ‹_›)

theorem execLeaseLost_keeps {P s} (hM : Mobile P) (hs : P s) :
    ResAll P (execLeaseLost s) := by
  have hS := hM.stable
  unfold execLeaseLost
  extract_lets +onlyGivenNames x
  refine cut_value (p := P x) ?_ ?_
  · subst x
    exact State.modGang_keeps hM ‹_›
  intro hx
  clear_value x
  exact ResAll.next (ite_keeps (P := P) (State.enterHold_keeps hM (State.error_keeps hM ‹_›)) ‹_›)

theorem execLeaseRestored_keeps {P s} (hM : Mobile P) (hs : P s) :
    ResAll P (execLeaseRestored s) := by
  have hS := hM.stable
  unfold execLeaseRestored
  exact ResAll.next (ite_keeps (P := P) (State.modGang_keeps hM ‹_›) ‹_›)

theorem execGangDecisionEnd_keeps {P s} (hM : Mobile P) (hs : P s) :
    ResAll P (execGangDecisionEnd s) := by
  have hS := hM.stable
  unfold execGangDecisionEnd
  exact ResAll.next (ite_keeps (P := P) (ite_keeps (P := P) (State.modGang_keeps hM ‹_›) (State.endJoin_keeps hM (State.modGang_keeps hM ‹_›))) ‹_›)

theorem execGangJoinTimeout_keeps {P s} (hM : Mobile P) (hs : P s) :
    ResAll P (execGangJoinTimeout s) := by
  have hS := hM.stable
  unfold execGangJoinTimeout
  exact ResAll.next (ite_keeps (P := P) (ite_keeps (P := P) (State.endJoin_keeps hM (State.modGang_keeps hM ‹_›)) (State.endJoin_keeps hM ‹_›)) (State.endJoin_keeps hM ‹_›))

theorem execGangPortRetry_keeps {P s} (hS : Stable P) (hs : P s) :
    ResAll P (execGangPortRetry s) := by
  unfold execGangPortRetry
  exact ResAll.next (ite_keeps (P := P) (State.modPort_keeps hS ‹_›) ‹_›)

end Sys2Proof.Machine
end

