-- ==== Sys2Proof/Laws/KeepsNode.lean ====
section
/-!
SUPPORT. What the operations and meanings of Machine/Node.lean keep (see Laws/Follows.lean): steady ones any `Stable` property, the others any
`Mobile` one.
-/

set_option linter.tactic.unusedName false
set_option linter.unusedVariables false

namespace Sys2Proof.Machine

theorem State.acceptGang_keeps {P s w0 w1 w2} (hM : Mobile P) (hs : P s) :
    P (State.acceptGang s w0 w1 w2) := by
  have hS := hM.stable
  unfold State.acceptGang
  extract_lets +onlyGivenNames x
  refine cut_value (p := P x) ?_ ?_
  · subst x
    exact State.setSource_keeps hM ‹_›
  intro hx
  clear_value x
  extract_lets +onlyGivenNames x
  clear_value x
  extract_lets +onlyGivenNames x
  refine cut_value (p := P x) ?_ ?_
  · subst x
    exact ite_keeps (P := P) (Stable.upd hS rfl ‹_› (List.suffix_refl _) id id id (BitVec.le_refl _) id) ‹_›
  intro hx
  clear_value x
  extract_lets +onlyGivenNames x
  refine cut_value (p := P x) ?_ ?_
  · subst x
    exact State.setFld_keeps hS ‹_›
  intro hx
  clear_value x
  extract_lets +onlyGivenNames x
  refine cut_value (p := P x) ?_ ?_
  · subst x
    exact State.modGang_keeps hM ‹_›
  intro hx
  clear_value x
  exact State.setFld_keeps hS ‹_›

theorem ownRequest_keeps {P s x_1 q own} (hS : Stable P) (hs : P s) :
    OptAll (Fst P) (ownRequest s x_1 q own) := by
  unfold ownRequest
  exact ite_keeps (P := OptAll (Fst P)) (OptAll.map (fun a e => (Fst.mk ‹_›))) OptAll.none

theorem State.resetFlows_keeps {P s d hit} (hM : Mobile P) (hs : P s) :
    P (State.resetFlows s d hit) := by
  have hS := hM.stable
  unfold State.resetFlows
  extract_lets +onlyGivenNames x
  clear_value x
  extract_lets +onlyGivenNames x
  refine cut_value (p := P x) ?_ ?_
  · subst x
    refine foldl_keeps (P := P) (fun a b h => ?_) ?_
    · extract_lets +onlyGivenNames x
      exact State.modFlow_keeps hS ‹_›
    · assumption
  intro hx
  clear_value x
  exact State.setCausesAll_keeps hM ‹_›

theorem State.standardRequest_keeps {P s d x_2 q} (hM : Mobile P) (hs : P s) :
    OptAll (Fst P) (State.standardRequest s d x_2 q) := by
  have hS := hM.stable
  unfold State.standardRequest
  extract_lets +onlyGivenNames x
  clear_value x
  extract_lets +onlyGivenNames x
  clear_value x
  extract_lets +onlyGivenNames x
  clear_value x
  extract_lets +onlyGivenNames x
  subst x
  dsimp -zeta -zetaDelta only
  extract_lets +onlyGivenNames x
  clear_value x
  refine ite_keeps (P := OptAll (Fst P)) ?_ ?_
  · exact ite_keeps (P := OptAll (Fst P)) (OptAll.map (fun a e => (Fst.mk ‹_›))) OptAll.none
  · extract_lets +onlyGivenNames x
    refine ite_keeps (P := OptAll (Fst P)) ?_ ?_
    · exact ite_keeps (P := OptAll (Fst P)) (OptAll.some (Fst.mk (State.modDevAt_keeps hS ‹_›))) OptAll.none
    · extract_lets +onlyGivenNames x
      refine ite_keeps (P := OptAll (Fst P)) ?_ ?_
      · refine ite_keeps (P := OptAll (Fst P)) ?_ ?_
        · refine OptAll.some (Fst.mk ?_)
          split
          · exact State.resetFlows_keeps hM (State.modDevAt_keeps hS ‹_›)
          · exact State.modDevAt_keeps hS ‹_›
        · exact OptAll.none
      · extract_lets +onlyGivenNames x
        refine ite_keeps (P := OptAll (Fst P)) ?_ ?_
        · refine ite_keeps (P := OptAll (Fst P)) ?_ ?_
          · refine OptAll.some (Fst.mk ?_)
            split
            · exact State.resetFlows_keeps hM (State.modDevAt_keeps hS ‹_›)
            · exact State.modDevAt_keeps hS ‹_›
          · exact OptAll.none
        · extract_lets +onlyGivenNames x
          refine ite_keeps (P := OptAll (Fst P)) ?_ ?_
          · exact ite_keeps (P := OptAll (Fst P)) (OptAll.some (Fst.mk (State.modDevAt_keeps hS ‹_›))) OptAll.none
          · extract_lets +onlyGivenNames x
            refine ite_keeps (P := OptAll (Fst P)) ?_ ?_
            · exact ite_keeps (P := OptAll (Fst P)) (OptAll.some (Fst.mk (State.modDevAt_keeps hS ‹_›))) OptAll.none
            · extract_lets +onlyGivenNames x
              refine ite_keeps (P := OptAll (Fst P)) ?_ ?_
              · extract_lets +onlyGivenNames x
                refine ite_keeps (P := OptAll (Fst P)) ?_ ?_
                · extract_lets +onlyGivenNames x
                  refine OptAll.some ?_
                  extract_lets +onlyGivenNames x
                  refine Fst.mk ?_
                  extract_lets +onlyGivenNames x
                  exact State.modDevAt_keeps hS ‹_›
                · exact OptAll.none
              · exact OptAll.none

theorem State.setFeature_keeps {P s h_1 q feature n} (hM : Mobile P) (hs : P s) :
    OptAll P (State.setFeature s h_1 q feature n) := by
  have hS := hM.stable
  unfold State.setFeature
  extract_lets +onlyGivenNames x
  clear_value x
  exact OptAll.bind (fun a e => (ite_keeps (P := OptAll P) (ite_keeps (P := OptAll P) (OptAll.some (State.portPowered_keeps hM (State.modPort_keeps hS ‹_›))) OptAll.none) (ite_keeps (P := OptAll P) (ite_keeps (P := OptAll P) (OptAll.some (State.requestReset_keeps hM (State.failSubtree_keeps hM ‹_›))) OptAll.none) (ite_keeps (P := OptAll P) (ite_keeps (P := OptAll P) (OptAll.some (State.modPort_keeps hS ‹_›)) OptAll.none) (ite_keeps (P := OptAll P) (ite_keeps (P := OptAll P) (OptAll.some (State.requestResume_keeps hS ‹_›)) (ite_keeps (P := OptAll P) (OptAll.some ‹_›) OptAll.none)) (ite_keeps (P := OptAll P) (OptAll.some (State.modPort_keeps hS ‹_›)) (ite_keeps (P := OptAll P) (ite_keeps (P := OptAll P) (ite_keeps (P := OptAll P) (OptAll.some (State.modPort_keeps hS ‹_›)) (OptAll.some ‹_›)) OptAll.none) OptAll.none)))))))

theorem State.clearFeature_keeps {P s h_1 q feature} (hM : Mobile P) (hs : P s) :
    OptAll P (State.clearFeature s h_1 q feature) := by
  have hS := hM.stable
  unfold State.clearFeature
  extract_lets +onlyGivenNames x
  clear_value x
  exact OptAll.bind (fun a e => (ite_keeps (P := OptAll P) (OptAll.some (State.portOff_keeps hM ‹_›)) (ite_keeps (P := OptAll P) (ite_keeps (P := OptAll P) (OptAll.some (State.disablePort_keeps hM ‹_›)) OptAll.none) (ite_keeps (P := OptAll P) (OptAll.some (State.modPort_keeps hS ‹_›)) (ite_keeps (P := OptAll P) (OptAll.some (State.modPort_keeps hS ‹_›)) OptAll.none)))))

theorem State.hubRequest_keeps {P s x_1 q} (hM : Mobile P) (hs : P s) :
    OptAll (Fst P) (State.hubRequest s x_1 q) := by
  have hS := hM.stable
  unfold State.hubRequest
  extract_lets +onlyGivenNames x
  clear_value x
  extract_lets +onlyGivenNames x
  subst x
  dsimp -zeta -zetaDelta only
  extract_lets +onlyGivenNames x
  clear_value x
  refine ite_keeps (P := OptAll (Fst P)) ?_ ?_
  · exact OptAll.none
  · refine ite_keeps (P := OptAll (Fst P)) ?_ ?_
    · exact ite_keeps (P := OptAll (Fst P)) (OptAll.some (Fst.mk (State.modDev_keeps hS ‹_›))) OptAll.none
    · refine ite_keeps (P := OptAll (Fst P)) ?_ ?_
      · exact OptAll.none
      · refine OptAll.bind (fun a e => (ite_keeps (P := OptAll (Fst P)) ?_ ?_))
        · exact ite_keeps (P := OptAll (Fst P)) (OptAll.some (Fst.mk ‹_›)) OptAll.none
        · refine ite_keeps (P := OptAll (Fst P)) ?_ ?_
          · exact OptAll.none
          · refine ite_keeps (P := OptAll (Fst P)) ?_ ?_
            · exact ite_keeps (P := OptAll (Fst P)) (OptAll.some (Fst.mk (State.modPort_keeps hS ‹_›))) OptAll.none
            · refine ite_keeps (P := OptAll (Fst P)) ?_ ?_
              · refine ite_keeps (P := OptAll (Fst P)) ?_ ?_
                · refine OptAll.map (fun a e => (Fst.mk ?_))
                  refine OptAll.elim (by assumption) ?_
                  exact State.setFeature_keeps hM ‹_›
                · exact OptAll.none
              · refine ite_keeps (P := OptAll (Fst P)) ?_ ?_
                · refine ite_keeps (P := OptAll (Fst P)) ?_ ?_
                  · refine OptAll.map (fun a e => (Fst.mk ?_))
                    refine OptAll.elim (by assumption) ?_
                    exact State.clearFeature_keeps hM ‹_›
                  · exact OptAll.none
                · exact ite_keeps (P := OptAll (Fst P)) (ite_keeps (P := OptAll (Fst P)) (OptAll.some (Fst.mk ‹_›)) OptAll.none) OptAll.none

theorem State.request_keeps {P s d x_2 q own} (hM : Mobile P) (hs : P s) :
    OptAll (Fst P) (State.request s d x_2 q own) := by
  have hS := hM.stable
  unfold State.request
  exact ite_keeps (P := OptAll (Fst P)) (ownRequest_keeps hS ‹_›) (ite_keeps (P := OptAll (Fst P)) (State.standardRequest_keeps hM ‹_›) (ite_keeps (P := OptAll (Fst P)) (State.hubRequest_keeps hM ‹_›) (ite_keeps (P := OptAll (Fst P)) (OptAll.some (Fst.mk ‹_›)) OptAll.none)))

theorem State.shake_keeps {P s d addr code ep seq bulk} (hS : Stable P) (hs : P s) :
    P (State.shake s d addr code ep seq bulk) := by
  unfold State.shake
  exact State.answer_keeps hS ‹_›

theorem State.takeControl_keeps {P s n x_2 h_3 ws busy} (hS : Stable P) (hs : P s) :
    P (State.takeControl s n x_2 h_3 ws busy) := by
  unfold State.takeControl
  extract_lets +onlyGivenNames x
  clear_value x
  extract_lets +onlyGivenNames x
  subst x
  dsimp -zeta -zetaDelta only
  extract_lets +onlyGivenNames x
  subst x
  dsimp -zeta -zetaDelta only
  refine ite_keeps (P := P) ?_ ?_
  · exact ite_keeps (P := P) ‹_› (State.shake_keeps hS ‹_›)
  · extract_lets +onlyGivenNames x
    split
    · exact ite_keeps (P := P) ‹_› (State.shake_keeps hS ‹_›)
    · extract_lets +onlyGivenNames x
      clear_value x
      exact ite_keeps (P := P) (ite_keeps (P := P) (ite_keeps (P := P) ‹_› (State.shake_keeps hS ‹_›)) (ite_keeps (P := P) (ite_keeps (P := P) ‹_› (State.shake_keeps hS ‹_›)) (ite_keeps (P := P) (State.modDev_keeps hS ‹_›) (State.shake_keeps hS (State.modDev_keeps hS ‹_›))))) (ite_keeps (P := P) (ite_keeps (P := P) ‹_› (State.shake_keeps hS ‹_›)) (ite_keeps (P := P) (ite_keeps (P := P) ‹_› (State.shake_keeps hS ‹_›)) (ite_keeps (P := P) (ite_keeps (P := P) ‹_› (State.shake_keeps hS ‹_›)) (ite_keeps (P := P) (State.modDev_keeps hS ‹_›) (State.shake_keeps hS (State.modDev_keeps hS ‹_›))))))

theorem State.takeOut_keeps {P s n x_2 h_3 ws busy} (hS : Stable P) (hs : P s) :
    P (State.takeOut s n x_2 h_3 ws busy) := by
  unfold State.takeOut
  extract_lets +onlyGivenNames x
  clear_value x
  extract_lets +onlyGivenNames x
  clear_value x
  extract_lets +onlyGivenNames x
  clear_value x
  extract_lets +onlyGivenNames x
  subst x
  dsimp -zeta -zetaDelta only
  extract_lets +onlyGivenNames x
  subst x
  dsimp -zeta -zetaDelta only
  extract_lets +onlyGivenNames x
  clear_value x
  extract_lets +onlyGivenNames x
  clear_value x
  extract_lets +onlyGivenNames x
  clear_value x
  extract_lets +onlyGivenNames x
  clear_value x
  extract_lets +onlyGivenNames x
  clear_value x
  extract_lets +onlyGivenNames x
  clear_value x
  extract_lets +onlyGivenNames x
  refine cut_value (p := P x) ?_ ?_
  · subst x
    exact State.modDev_keeps hS (State.modDev_keeps hS ‹_›)
  intro hx
  clear_value x
  extract_lets +onlyGivenNames x
  clear_value x
  exact ite_keeps (P := P) (ite_keeps (P := P) (State.applyOut_keeps hS ‹_›) (State.shake_keeps hS (State.applyOut_keeps hS ‹_›))) (ite_keeps (P := P) (ite_keeps (P := P) ‹_› (State.shake_keeps hS ‹_›)) (ite_keeps (P := P) (ite_keeps (P := P) ‹_› (State.shake_keeps hS ‹_›)) (ite_keeps (P := P) (ite_keeps (P := P) ‹_› (State.shake_keeps hS ‹_›)) (ite_keeps (P := P) (ite_keeps (P := P) (State.modDev_keeps hS (State.applyOut_keeps hS ‹_›)) (State.shake_keeps hS (State.modDev_keeps hS (State.applyOut_keeps hS ‹_›)))) (ite_keeps (P := P) (ite_keeps (P := P) (ite_keeps (P := P) (State.applyOut_keeps hS ‹_›) ‹_›) (State.shake_keeps hS (ite_keeps (P := P) (State.applyOut_keeps hS ‹_›) ‹_›))) (ite_keeps (P := P) (ite_keeps (P := P) ‹_› (State.shake_keeps hS ‹_›)) (ite_keeps (P := P) (State.modDev_keeps hS (State.modDev_keeps hS ‹_›)) (State.shake_keeps hS (State.modDev_keeps hS (State.modDev_keeps hS ‹_›))))))))))

theorem State.takeBulk_keeps {P s n x_2 h_3 ws busy} (hS : Stable P) (hs : P s) :
    P (State.takeBulk s n x_2 h_3 ws busy) := by
  unfold State.takeBulk
  extract_lets +onlyGivenNames x
  clear_value x
  extract_lets +onlyGivenNames x
  subst x
  dsimp -zeta -zetaDelta only
  extract_lets +onlyGivenNames x
  refine cut_value (p := P x) ?_ ?_
  · subst x
    exact State.applyOut_keeps hS (State.modDev_keeps hS ‹_›)
  intro hx
  clear_value x
  exact ite_keeps (P := P) (ite_keeps (P := P) ‹_› (State.shake_keeps hS ‹_›)) (ite_keeps (P := P) (ite_keeps (P := P) (Snd.out (State.freeWord_keeps hS ‹_›)) (State.shake_keeps hS (Snd.out (State.freeWord_keeps hS ‹_›)))) (ite_keeps (P := P) (ite_keeps (P := P) ‹_› (State.shake_keeps hS ‹_›)) (ite_keeps (P := P) (ite_keeps (P := P) (Snd.out (State.freeWord_keeps hS (Snd.out (State.freeBool_keeps hS ‹_›)))) (State.shake_keeps hS (Snd.out (State.freeWord_keeps hS (Snd.out (State.freeBool_keeps hS ‹_›)))))) (ite_keeps (P := P) (Snd.out (State.freeWord_keeps hS (Snd.out (State.freeBool_keeps hS ‹_›)))) (State.shake_keeps hS (Snd.out (State.freeWord_keeps hS (Snd.out (State.freeBool_keeps hS ‹_›)))))))))

theorem State.nodeOut_keeps {P s n x_2 h_3 ws abort busy} (hS : Stable P) (hs : P s) :
    P (State.nodeOut s n x_2 h_3 ws abort busy) := by
  unfold State.nodeOut
  extract_lets +onlyGivenNames x
  clear_value x
  exact ite_keeps (P := P) ‹_› (ite_keeps (P := P) (ite_keeps (P := P) (State.applyOut_keeps hS ‹_›) ‹_›) (ite_keeps (P := P) ‹_› (ite_keeps (P := P) (State.takeControl_keeps hS ‹_›) (ite_keeps (P := P) (State.takeOut_keeps hS ‹_›) (ite_keeps (P := P) (State.takeBulk_keeps hS ‹_›) (ite_keeps (P := P) ‹_› (State.shake_keeps hS ‹_›)))))))

theorem State.takeSetup_keeps {P s n q ack own} (hM : Mobile P) (hs : P s) :
    P (State.takeSetup s n q ack own) := by
  have hS := hM.stable
  unfold State.takeSetup
  extract_lets +onlyGivenNames x
  refine cut_value (p := P x) ?_ ?_
  · subst x
    exact State.modDev_keeps hS ‹_›
  intro hx
  clear_value x
  split
  · assumption
  · extract_lets +onlyGivenNames x
    clear_value x
    extract_lets +onlyGivenNames x
    subst x
    dsimp -zeta -zetaDelta only
    extract_lets +onlyGivenNames x
    clear_value x
    refine ite_keeps (P := P) ?_ ?_
    · refine ite_keeps (P := P) ?_ ?_
      · exact ite_keeps (P := P) (State.shake_keeps hS ‹_›) ‹_›
      · split
        · exact ite_keeps (P := P) (State.shake_keeps hS (State.modDev_keeps hS ‹_›)) (State.modDev_keeps hS ‹_›)
        · refine ite_keeps (P := P) ?_ ?_
          · refine State.shake_keeps hS (State.modDev_keeps hS ?_)
            refine OptAll.fst (by assumption) ?_
            exact State.request_keeps hM ‹_›
          · refine State.modDev_keeps hS ?_
            refine OptAll.fst (by assumption) ?_
            exact State.request_keeps hM ‹_›
    · assumption

theorem State.nodeSetup_keeps {P s n x_2 h_3 ws abort own} (hM : Mobile P) (hs : P s) :
    P (State.nodeSetup s n x_2 h_3 ws abort own) := by
  have hS := hM.stable
  unfold State.nodeSetup
  refine ite_keeps (P := P) ?_ ?_
  · assumption
  · refine ite_keeps (P := P) ?_ ?_
    · exact ite_keeps (P := P) ‹_› (State.shake_keeps hS ‹_›)
    · split
      · exact State.takeSetup_keeps hM ‹_›
      · assumption

theorem State.sendData_keeps {P s d route addr ep seq ws last} (hS : Stable P) (hs : P s) :
    P (State.sendData s d route addr ep seq ws last) := by
  unfold State.sendData
  exact State.answer_keeps hS ‹_›

theorem State.ctrlIn_keeps {P s n x_2 h_3 busy} (hS : Stable P) (hs : P s) :
    P (State.ctrlIn s n x_2 h_3 busy) := by
  unfold State.ctrlIn
  extract_lets +onlyGivenNames x
  clear_value x
  extract_lets +onlyGivenNames x
  refine cut_value (p := P x) ?_ ?_
  · subst x
    exact State.sendData_keeps hS ‹_›
  intro hx
  clear_value x
  refine ite_keeps (P := P) ?_ ?_
  · exact State.shake_keeps hS ‹_›
  · extract_lets +onlyGivenNames x
    split
    · exact State.shake_keeps hS ‹_›
    · extract_lets +onlyGivenNames x
      clear_value x
      extract_lets +onlyGivenNames x
      refine cut_value (p := P x) ?_ ?_
      · subst x
        exact State.modDev_keeps hS ‹_›
      intro hx
      clear_value x
      split
      · exact State.sendData_keeps hS ‹_›
      · exact ite_keeps (P := P) (State.shake_keeps hS ‹_›) (State.modDev_keeps hS ‹_›)
      · exact ite_keeps (P := P) (State.shake_keeps hS ‹_›) (State.modDev_keeps hS ‹_›)
      · exact State.shake_keeps hS ‹_›

theorem State.sampleIn_keeps {P s n x_2 h_3 sample} (hS : Stable P) (hs : P s) :
    P (State.sampleIn s n x_2 h_3 sample) := by
  unfold State.sampleIn
  extract_lets +onlyGivenNames x
  clear_value x
  extract_lets +onlyGivenNames x
  clear_value x
  extract_lets +onlyGivenNames x
  clear_value x
  refine ite_keeps (P := P) ?_ ?_
  · exact State.shake_keeps hS ‹_›
  · extract_lets +onlyGivenNames x
    split
    · exact State.shake_keeps hS ‹_›
    · split
      extract_lets +onlyGivenNames x
      refine cut_value (p := P x) ?_ ?_
      · subst x
        refine State.modDev_keeps hS ?_
        refine Snd.elim (by assumption) ?_
        exact State.freeWord_keeps hS ‹_›
      intro hx
      clear_value x
      exact State.sendData_keeps hS ‹_›

theorem State.bulkIn_keeps {P s n x_2 h_3 sample} (hS : Stable P) (hs : P s) :
    P (State.bulkIn s n x_2 h_3 sample) := by
  unfold State.bulkIn
  extract_lets +onlyGivenNames x
  clear_value x
  extract_lets +onlyGivenNames x
  clear_value x
  extract_lets +onlyGivenNames x
  clear_value x
  extract_lets +onlyGivenNames x
  subst x
  dsimp -zeta -zetaDelta only
  refine ite_keeps (P := P) ?_ ?_
  · exact State.shake_keeps hS ‹_›
  · split
    · exact State.sendData_keeps hS ‹_›
    · split
      · exact ite_keeps (P := P) (State.sendData_keeps hS (State.modDev_keeps hS ‹_›)) (State.shake_keeps hS ‹_›)
      · exact State.shake_keeps hS ‹_›

theorem State.nodeIn_keeps {P s n x_2 h_3 sample busy} (hS : Stable P) (hs : P s) :
    P (State.nodeIn s n x_2 h_3 sample busy) := by
  unfold State.nodeIn
  extract_lets +onlyGivenNames x
  clear_value x
  exact ite_keeps (P := P) ‹_› (ite_keeps (P := P) (State.ctrlIn_keeps hS ‹_›) (ite_keeps (P := P) (State.sampleIn_keeps hS ‹_›) (ite_keeps (P := P) (State.bulkIn_keeps hS ‹_›) (State.shake_keeps hS ‹_›))))

theorem State.nodeShake_keeps {P s n x_2 k} (hS : Stable P) (hs : P s) :
    P (State.nodeShake s n x_2 k) := by
  unfold State.nodeShake
  extract_lets +onlyGivenNames x
  clear_value x
  refine ite_keeps (P := P) ?_ ?_
  · assumption
  · extract_lets +onlyGivenNames x
    refine ite_keeps (P := P) ?_ ?_
    · extract_lets +onlyGivenNames x
      split
      · assumption
      · extract_lets +onlyGivenNames x
        clear_value x
        extract_lets +onlyGivenNames x
        clear_value x
        refine ite_keeps (P := P) ?_ ?_
        · assumption
        · split
          · exact ite_keeps (P := P) (State.modDev_keeps hS ‹_›) ‹_›
          · exact ite_keeps (P := P) (State.modDev_keeps hS ‹_›) ‹_›
          · assumption
    · extract_lets +onlyGivenNames x
      refine ite_keeps (P := P) ?_ ?_
      · extract_lets +onlyGivenNames x
        exact State.modDev_keeps hS ‹_›
      · exact ite_keeps (P := P) (State.modDev_keeps hS ‹_›) ‹_›

theorem State.nodeTake_keeps {P s n pkt busy sample own} (hM : Mobile P) (hs : P s) :
    P (State.nodeTake s n pkt busy sample own) := by
  have hS := hM.stable
  unfold State.nodeTake
  split
  · assumption
  · refine ite_keeps (P := P) ?_ ?_
    · split
      · exact ite_keeps (P := P) (State.nodeOut_keeps hS ‹_›) (ite_keeps (P := P) (State.nodeSetup_keeps hM ‹_›) ‹_›)
      · exact State.nodeIn_keeps hS ‹_›
      · exact State.nodeShake_keeps hS ‹_›
      · assumption
    · assumption

theorem State.arrive_keeps {P s n w kind busy sample own} (hM : Mobile P) (hs : P s) :
    P (State.arrive s n w kind busy sample own) := by
  have hS := hM.stable
  unfold State.arrive
  extract_lets +onlyGivenNames x
  clear_value x
  exact ite_keeps (P := P) (State.nodeTake_keeps hM (State.heardAt_keeps hS ‹_›)) ‹_›

theorem State.gangExchange_keeps {P s desc info} (hM : Mobile P) (hs : P s) :
    P (State.gangExchange s desc info) := by
  have hS := hM.stable
  unfold State.gangExchange
  extract_lets +onlyGivenNames x
  refine cut_value (p := P x) ?_ ?_
  · subst x
    exact State.happen_keeps hM (State.setFld_keeps hS ‹_›)
  intro hx
  clear_value x
  extract_lets +onlyGivenNames x
  clear_value x
  extract_lets +onlyGivenNames x
  refine cut_value (p := P x) ?_ ?_
  · subst x
    exact State.emit_keeps hS ‹_›
  intro hx
  clear_value x
  extract_lets +onlyGivenNames x
  refine cut_value (p := P x) ?_ ?_
  · subst x
    exact State.emit_keeps hS ‹_›
  intro hx
  clear_value x
  extract_lets +onlyGivenNames x
  refine cut_value (p := P x) ?_ ?_
  · subst x
    exact State.emit_keeps hS ‹_›
  intro hx
  clear_value x
  extract_lets +onlyGivenNames x
  refine cut_value (p := P x) ?_ ?_
  · subst x
    exact State.emit_keeps hS ‹_›
  intro hx
  clear_value x
  refine ite_keeps (P := P) ?_ ?_
  · refine ite_keeps (P := P) ?_ ?_
    · split
      · exact State.modGang_keeps hM (State.emit_keeps hS ‹_›)
      · assumption
    · refine ite_keeps (P := P) ?_ ?_
      · exact State.disablePort_keeps hM (Stable.upd hS rfl ‹_› (List.suffix_refl _) id id id (BitVec.le_refl _) id)
      · split
        · exact State.modGang_keeps hM (State.setFld_keeps hS ‹_›)
        · assumption
  · assumption

theorem State.takeGang_keeps {P s data} (hM : Mobile P) (hs : P s) :
    OptAll P (State.takeGang s data) := by
  have hS := hM.stable
  unfold State.takeGang
  extract_lets +onlyGivenNames x
  clear_value x
  extract_lets +onlyGivenNames x
  refine cut_value (p := P x) ?_ ?_
  · subst x
    exact State.modGang_keeps hM ‹_›
  intro hx
  clear_value x
  extract_lets +onlyGivenNames x
  refine cut_value (p := P x) ?_ ?_
  · subst x
    exact State.error_keeps hM (State.happen_keeps hM ‹_›)
  intro hx
  clear_value x
  extract_lets +onlyGivenNames x
  refine cut_value (p := P x) ?_ ?_
  · subst x
    exact State.modGang_keeps hM (State.setFld_keeps hS ‹_›)
  intro hx
  clear_value x
  refine ite_keeps (P := OptAll P) ?_ ?_
  · exact OptAll.some ‹_›
  · refine ite_keeps (P := OptAll P) ?_ ?_
    · exact OptAll.none
    · split
      · refine ite_keeps (P := OptAll P) ?_ ?_
        · exact OptAll.some ‹_›
        · split
          · exact OptAll.some (State.error_keeps hM ‹_›)
          · exact OptAll.some (State.acceptGang_keeps hM ‹_›)
      · exact OptAll.none

theorem State.gbRequest_keeps {P s q data} (hM : Mobile P) (hs : P s) :
    P (State.gbRequest s q data) := by
  have hS := hM.stable
  unfold State.gbRequest
  extract_lets +onlyGivenNames x
  clear_value x
  extract_lets +onlyGivenNames x
  refine cut_value (p := P x) ?_ ?_
  · subst x
    exact State.gbEdge_keeps hS ‹_›
  intro hx
  clear_value x
  extract_lets +onlyGivenNames x
  clear_value x
  extract_lets +onlyGivenNames x
  clear_value x
  extract_lets +onlyGivenNames x
  clear_value x
  extract_lets +onlyGivenNames x
  refine cut_value (p := OptAll (Fst P) x) ?_ ?_
  · subst x
    refine ite_keeps (P := OptAll (Fst P)) ?_ ?_
    · refine OptAll.map (fun a e => (Fst.mk ?_))
      refine OptAll.elim (by assumption) ?_
      exact State.takeGang_keeps hM ‹_›
    · exact State.request_keeps hM ‹_›
  intro hx
  clear_value x
  refine ite_keeps (P := P) ?_ ?_
  · extract_lets +onlyGivenNames x
    split
    · exact State.shake_keeps hS ‹_›
    · extract_lets +onlyGivenNames x
      refine cut_value (p := P x) ?_ ?_
      · subst x
        refine ite_keeps (P := P) ?_ ?_
        · refine State.shake_keeps hS ?_
          exact OptAll.fst rfl (by assumption)
        · refine State.shake_keeps hS ?_
          exact OptAll.fst rfl (by assumption)
      intro hx
      clear_value x
      extract_lets +onlyGivenNames x
      refine cut_value (p := P x) ?_ ?_
      · subst x
        exact State.modDevAt_keeps hS ‹_›
      intro hx
      clear_value x
      exact ite_keeps (P := P) ‹_› (State.sendData_keeps hS ‹_›)
  · assumption

theorem State.requestAt_keeps {P s d q} (hM : Mobile P) (hs : P s) :
    P (State.requestAt s d q) := by
  have hS := hM.stable
  unfold State.requestAt
  split
  · exact State.takeSetup_keeps hM ‹_›
  · exact State.gbRequest_keeps hM ‹_›

theorem State.sendGang_keeps {P s a_1} (hS : Stable P) (hs : P s) :
    P (State.sendGang s a_1) := by
  unfold State.sendGang
  refine ite_keeps (P := P) ?_ ?_
  · extract_lets +onlyGivenNames x
    split
    · assumption
    · extract_lets +onlyGivenNames x
      refine cut_value (p := P x) ?_ ?_
      · subst x
        exact State.emit_keeps hS ‹_›
      intro hx
      clear_value x
      extract_lets +onlyGivenNames x
      clear_value x
      extract_lets +onlyGivenNames x
      refine cut_value (p := P x) ?_ ?_
      · subst x
        exact Stable.upd hS rfl ‹_› (List.suffix_refl _) id id id (BitVec.le_refl _) id
      intro hx
      clear_value x
      exact State.setFld_keeps hS ‹_›
  · assumption

theorem execGetDescriptor_keeps {P d q s} (hM : Mobile P) (hs : P s) :
    ResAll P (execGetDescriptor d q s) := by
  have hS := hM.stable
  unfold execGetDescriptor
  exact guarded_keeps hS (State.requestAt_keeps hM ‹_›)

theorem execSetAddress_keeps {P d q s} (hM : Mobile P) (hs : P s) :
    ResAll P (execSetAddress d q s) := by
  have hS := hM.stable
  unfold execSetAddress
  exact guarded_keeps hS (State.requestAt_keeps hM ‹_›)

theorem execSetConfig_keeps {P d q s} (hM : Mobile P) (hs : P s) :
    ResAll P (execSetConfig d q s) := by
  have hS := hM.stable
  unfold execSetConfig
  exact guarded_keeps hS (State.requestAt_keeps hM ‹_›)

theorem execClearHalt_keeps {P d q s} (hM : Mobile P) (hs : P s) :
    ResAll P (execClearHalt d q s) := by
  have hS := hM.stable
  unfold execClearHalt
  exact guarded_keeps hS (State.requestAt_keeps hM ‹_›)

theorem execSetHalt_keeps {P d q s} (hM : Mobile P) (hs : P s) :
    ResAll P (execSetHalt d q s) := by
  have hS := hM.stable
  unfold execSetHalt
  exact guarded_keeps hS (State.requestAt_keeps hM ‹_›)

theorem execGetStatus_keeps {P d q s} (hM : Mobile P) (hs : P s) :
    ResAll P (execGetStatus d q s) := by
  have hS := hM.stable
  unfold execGetStatus
  exact guarded_keeps hS (State.requestAt_keeps hM ‹_›)

theorem execSetPathDelay_keeps {P d q s} (hM : Mobile P) (hs : P s) :
    ResAll P (execSetPathDelay d q s) := by
  have hS := hM.stable
  unfold execSetPathDelay
  exact guarded_keeps hS (State.requestAt_keeps hM ‹_›)

theorem execGetPortStatus_keeps {P d q s} (hM : Mobile P) (hs : P s) :
    ResAll P (execGetPortStatus d q s) := by
  have hS := hM.stable
  unfold execGetPortStatus
  exact guarded_keeps hS (State.requestAt_keeps hM ‹_›)

theorem execGetPortErrors_keeps {P d q s} (hM : Mobile P) (hs : P s) :
    ResAll P (execGetPortErrors d q s) := by
  have hS := hM.stable
  unfold execGetPortErrors
  exact guarded_keeps hS (State.requestAt_keeps hM ‹_›)

theorem execSetPortFeature_keeps {P d q s} (hM : Mobile P) (hs : P s) :
    ResAll P (execSetPortFeature d q s) := by
  have hS := hM.stable
  unfold execSetPortFeature
  exact guarded_keeps hS (State.requestAt_keeps hM ‹_›)

theorem execClearPortFeature_keeps {P d q s} (hM : Mobile P) (hs : P s) :
    ResAll P (execClearPortFeature d q s) := by
  have hS := hM.stable
  unfold execClearPortFeature
  exact guarded_keeps hS (State.requestAt_keeps hM ‹_›)

theorem execSetHubTier_keeps {P d q s} (hM : Mobile P) (hs : P s) :
    ResAll P (execSetHubTier d q s) := by
  have hS := hM.stable
  unfold execSetHubTier
  exact guarded_keeps hS (State.requestAt_keeps hM ‹_›)

theorem execGetPortDelay_keeps {P d q s} (hM : Mobile P) (hs : P s) :
    ResAll P (execGetPortDelay d q s) := by
  have hS := hM.stable
  unfold execGetPortDelay
  exact guarded_keeps hS (State.requestAt_keeps hM ‹_›)

theorem execGetGangInfo_keeps {P x_0 s} (hM : Mobile P) (hs : P s) :
    ResAll P (execGetGangInfo x_0 s) := by
  have hS := hM.stable
  unfold execGetGangInfo
  split
  · exact guarded_keeps hS (State.requestAt_keeps hM ‹_›)
  · exact ResAll.next (State.gangExchange_keeps hM ‹_›)

theorem execSetGang_keeps {P x_0 s} (hM : Mobile P) (hs : P s) :
    ResAll P (execSetGang x_0 s) := by
  have hS := hM.stable
  unfold execSetGang
  split
  · exact guarded_keeps hS (State.gbRequest_keeps hM ‹_›)
  · exact guarded_keeps hS (State.takeSetup_keeps hM ‹_›)
  · exact ResAll.next (State.sendGang_keeps hS ‹_›)

theorem execHubDownstreamForward_keeps {P h_0 pkt s} (hM : Mobile P) (hs : P s) :
    ResAll P (execHubDownstreamForward h_0 pkt s) := by
  have hS := hM.stable
  unfold execHubDownstreamForward
  extract_lets +onlyGivenNames x
  clear_value x
  extract_lets +onlyGivenNames x
  clear_value x
  extract_lets +onlyGivenNames x
  subst x
  dsimp -zeta -zetaDelta only
  refine ResAll.next ?_
  extract_lets +onlyGivenNames x
  split
  · extract_lets +onlyGivenNames x
    clear_value x
    refine ite_keeps (P := P) ?_ ?_
    · extract_lets +onlyGivenNames x
      refine ite_keeps (P := P) ?_ ?_
      · assumption
      · extract_lets +onlyGivenNames x
        split
        · assumption
        · exact State.nodeTake_keeps hM (State.heardAt_keeps hS (foldl_keeps (P := P) (fun a b h => (State.emit_keeps hS ‹_›)) ‹_›))
        · exact State.nodeTake_keeps hM (State.heardAt_keeps hS ‹_›)
        · extract_lets +onlyGivenNames x
          clear_value x
          refine ite_keeps (P := P) ?_ ?_
          · assumption
          · extract_lets +onlyGivenNames x
            refine ite_keeps (P := P) ?_ ?_
            · exact State.emit_keeps hS ‹_›
            · extract_lets +onlyGivenNames x
              exact State.modPort_keeps hS ‹_›
    · assumption
  · assumption

theorem execHubUpstreamForward_keeps {P h_0 arrivals s} (hS : Stable P) (hs : P s) :
    ResAll P (execHubUpstreamForward h_0 arrivals s) := by
  unfold execHubUpstreamForward
  extract_lets +onlyGivenNames x
  clear_value x
  refine ResAll.next ?_
  extract_lets +onlyGivenNames x
  split
  · assumption
  · refine ite_keeps (P := P) ?_ ?_
    · extract_lets +onlyGivenNames x
      refine foldl_keeps (P := P) (fun a b h => ?_) ?_
      · extract_lets +onlyGivenNames x
        clear_value x
        extract_lets +onlyGivenNames x
        refine cut_value (p := P x) ?_ ?_
        · subst x
          split
          · exact State.modPort_keeps hS ‹_›
          · assumption
        intro hx
        clear_value x
        extract_lets +onlyGivenNames x
        clear_value x
        extract_lets +onlyGivenNames x
        clear_value x
        extract_lets +onlyGivenNames x
        clear_value x
        extract_lets +onlyGivenNames x
        refine cut_value (p := P x) ?_ ?_
        · subst x
          exact ite_keeps (P := P) ‹_› (State.emit_keeps hS ‹_›)
        intro hx
        clear_value x
        refine ite_keeps (P := P) ?_ ?_
        · extract_lets +onlyGivenNames x
          exact State.modPort_keeps hS ‹_›
        · assumption
      · assumption
    · assumption

theorem execOutReceive_keeps {P d pkt busy s} (hM : Mobile P) (hs : P s) :
    ResAll P (execOutReceive d pkt busy s) := by
  have hS := hM.stable
  unfold execOutReceive
  exact ResAll.next (State.arrive_keeps hM ‹_›)

theorem execInTokenReceive_keeps {P d pkt sample busy s} (hM : Mobile P) (hs : P s) :
    ResAll P (execInTokenReceive d pkt sample s busy) := by
  have hS := hM.stable
  unfold execInTokenReceive
  exact ResAll.next (State.arrive_keeps hM ‹_›)

theorem execSetupReceive_keeps {P d pkt own s} (hM : Mobile P) (hs : P s) :
    ResAll P (execSetupReceive d pkt s own) := by
  have hS := hM.stable
  unfold execSetupReceive
  exact ResAll.next (State.arrive_keeps hM ‹_›)

theorem execNodeHandshakeReceive_keeps {P d pkt s} (hM : Mobile P) (hs : P s) :
    ResAll P (execNodeHandshakeReceive d pkt s) := by
  have hS := hM.stable
  unfold execNodeHandshakeReceive
  exact ResAll.next (State.arrive_keeps hM ‹_›)

theorem execReleaseFire_keeps {P d ep s} (hS : Stable P) (hs : P s) :
    ResAll P (execReleaseFire d ep s) := by
  unfold execReleaseFire
  refine ResAll.next ?_
  extract_lets +onlyGivenNames x
  split
  · assumption
  · split
    · assumption
    · extract_lets +onlyGivenNames x
      refine cut_value (p := P x) ?_ ?_
      · subst x
        exact State.modDev_keeps hS ‹_›
      intro hx
      clear_value x
      extract_lets +onlyGivenNames x
      refine cut_value (p := P x) ?_ ?_
      · subst x
        exact State.modDev_keeps hS ‹_›
      intro hx
      clear_value x
      exact ite_keeps (P := P) (State.applyOut_keeps hS ‹_›) (ite_keeps (P := P) (State.applyOut_keeps hS ‹_›) ‹_›)

theorem execHubPortOvercurrent_keeps {P h_0 p s} (hM : Mobile P) (hs : P s) :
    ResAll P (execHubPortOvercurrent h_0 p s) := by
  have hS := hM.stable
  unfold execHubPortOvercurrent
  refine ResAll.next ?_
  split
  · exact ite_keeps (P := P) (State.portFault_keeps hM (State.modPort_keeps hS ‹_›)) ‹_›
  · assumption

end Sys2Proof.Machine
end

