-- ==== Sys2Proof/Laws/KeepsPlan.lean ====
section
/-!
SUPPORT. What the operations and meanings of Machine/Plan.lean keep (see Laws/Follows.lean): steady ones any `Stable` property, the others any
`Mobile` one.
-/

set_option linter.tactic.unusedName false
set_option linter.unusedVariables false

namespace Sys2Proof.Machine

theorem State.layoutNext_keeps {P s b} (hS : Stable P) (hs : P s) :
    P (State.layoutNext s b) := by
  unfold State.layoutNext
  extract_lets +onlyGivenNames x
  clear_value x
  extract_lets +onlyGivenNames x
  subst x
  extract_lets +onlyGivenNames x
  subst x
  extract_lets +onlyGivenNames x
  clear_value x
  extract_lets +onlyGivenNames x
  subst x
  dsimp -zeta -zetaDelta only
  extract_lets +onlyGivenNames x
  clear_value x
  exact Stable.upd hS rfl ‹_› (List.suffix_refl _) id (ksorted_map _ _ (fun _ => rfl)) id (BitVec.le_refl _) id

theorem State.layoutSwap_keeps {P s} (hS : Stable P) (hs : P s) :
    P (State.layoutSwap s) := by
  unfold State.layoutSwap
  extract_lets +onlyGivenNames x
  clear_value x
  exact Stable.upd hS rfl ‹_› (List.suffix_refl _) id (ksorted_map _ _ (fun _ => rfl)) id (BitVec.le_refl _) id

end Sys2Proof.Machine
end

