-- ==== Sys2Proof/Laws/KeepsCourse.lean ====
section
/-!
SUPPORT. What the operations and meanings of Machine/Course.lean keep (see Laws/Follows.lean): steady ones any `Stable` property, the others any
`Mobile` one.
-/

set_option linter.tactic.unusedName false
set_option linter.unusedVariables false

namespace Sys2Proof.Machine

theorem State.sendDelay_keeps {P s key} (hS : Stable P) (hs : P s) :
    P (State.sendDelay s key) := by
  unfold State.sendDelay
  split
  · assumption
  · extract_lets +onlyGivenNames x
    clear_value x
    exact ite_keeps (P := P) (State.firmwareSends_keeps hS (Stable.upd hS rfl ‹_› (List.suffix_refl _) id id id (BitVec.le_refl _) id)) ‹_›

theorem State.closeFlow_keeps {P s b ctx f} (hM : Mobile P) (hs : P s) :
    P (State.closeFlow s b ctx f) := by
  have hS := hM.stable
  unfold State.closeFlow
  extract_lets +onlyGivenNames x
  clear_value x
  extract_lets +onlyGivenNames x
  clear_value x
  extract_lets +onlyGivenNames x
  subst x
  dsimp -zeta -zetaDelta only
  extract_lets +onlyGivenNames x
  clear_value x
  extract_lets +onlyGivenNames x
  refine cut_value (p := P x) ?_ ?_
  · subst x
    exact State.cancelTask_keeps hM ‹_›
  intro hx
  clear_value x
  extract_lets +onlyGivenNames x
  refine cut_value (p := P x) ?_ ?_
  · subst x
    exact State.modFlow_keeps hS ‹_›
  intro hx
  clear_value x
  extract_lets +onlyGivenNames x
  refine cut_value (p := P x) ?_ ?_
  · subst x
    exact State.finishAll_keeps hM ‹_›
  intro hx
  clear_value x
  extract_lets +onlyGivenNames x
  refine cut_value (p := P x) ?_ ?_
  · subst x
    exact ite_keeps (P := P) (State.modInst_keeps hS ‹_›) ‹_›
  intro hx
  clear_value x
  extract_lets +onlyGivenNames x
  clear_value x
  extract_lets +onlyGivenNames x
  refine cut_value (p := P x) ?_ ?_
  · subst x
    exact foldl_keeps (P := P) (fun a b h => (State.modTaken_keeps hS ‹_›)) ‹_›
  intro hx
  clear_value x
  exact ite_keeps (P := P) (State.closeCmds_keeps hM (State.freeContext_keeps hM ‹_›)) ‹_›

theorem State.applyOne_keeps {P b ctx s ch} (hM : Mobile P) (hs : P s) :
    P (State.applyOne b ctx s ch) := by
  have hS := hM.stable
  unfold State.applyOne
  extract_lets +onlyGivenNames x
  refine cut_value (p := P x) ?_ ?_
  · subst x
    exact State.modFlow_keeps hS ‹_›
  intro hx
  clear_value x
  split
  · assumption
  · exact ite_keeps (P := P) (State.closeFlow_keeps hM ‹_›) (ite_keeps (P := P) (State.setCauses_keeps hM ‹_›) ‹_›)

theorem State.applyChange_keeps {P b s ctx} (hM : Mobile P) (hs : P s) :
    P (State.applyChange b s ctx) := by
  have hS := hM.stable
  unfold State.applyChange
  split
  · assumption
  · exact foldl_keeps (P := P) (fun a b h => (State.applyOne_keeps hM ‹_›)) (State.modFlow_keeps hS ‹_›)

theorem State.applyPolicies_keeps {P s} (hM : Mobile P) (hs : P s) :
    P (State.applyPolicies s) := by
  have hS := hM.stable
  unfold State.applyPolicies
  extract_lets +onlyGivenNames x
  refine cut_value (p := P x) ?_ ?_
  · subst x
    exact ite_keeps (P := P) (State.portOff_keeps hM ‹_›) ‹_›
  intro hx
  clear_value x
  extract_lets +onlyGivenNames x
  exact Stable.upd hS rfl ‹_› (List.suffix_refl _) id id id (BitVec.le_refl _) id

theorem State.bulkCourse_keeps {P s c} (hS : Stable P) (hs : P s) :
    P (State.bulkCourse s c) := by
  unfold State.bulkCourse
  extract_lets +onlyGivenNames x
  clear_value x
  extract_lets +onlyGivenNames x
  clear_value x
  extract_lets +onlyGivenNames x
  refine cut_value (p := P x) ?_ ?_
  · subst x
    exact Stable.upd hS rfl ‹_› (List.suffix_refl _) id id id (BitVec.le_refl _) id
  intro hx
  clear_value x
  extract_lets +onlyGivenNames x
  clear_value x
  extract_lets +onlyGivenNames x
  subst x
  dsimp -zeta -zetaDelta only
  extract_lets +onlyGivenNames x
  subst x
  dsimp -zeta -zetaDelta only
  extract_lets +onlyGivenNames x
  clear_value x
  extract_lets +onlyGivenNames x
  clear_value x
  extract_lets +onlyGivenNames x
  clear_value x
  exact Stable.upd hS rfl ‹_› (List.suffix_refl _) id id id (BitVec.le_refl _) id

theorem State.pushEntries_keeps {P s t es} (hS : Stable P) (hs : P s) :
    P (State.pushEntries s t es) := by
  unfold State.pushEntries
  exact Stable.upd hS rfl ‹_› (List.suffix_refl _) id id id (BitVec.le_refl _) id

theorem State.emptySlot_keeps {P s ctx f} (hM : Mobile P) (hs : P s) :
    P (State.emptySlot s ctx f) := by
  have hS := hM.stable
  unfold State.emptySlot
  exact State.recordFlow_keeps hM ‹_›

theorem State.commitService_keeps {P s ctx c f es} (hM : Mobile P) (hs : P s) :
    P (State.commitService s ctx c f es) := by
  have hS := hM.stable
  unfold State.commitService
  exact ite_keeps (P := P) (State.pushEntries_keeps hS ‹_›) (foldl_keeps (P := P) (fun a b h => (State.emptySlot_keeps hM ‹_›)) ‹_›)

theorem State.freezeFlow_keeps {P s ctx c f} (hM : Mobile P) (hs : P s) :
    P (State.freezeFlow s ctx c f) := by
  have hS := hM.stable
  unfold State.freezeFlow
  extract_lets +onlyGivenNames x
  clear_value x
  extract_lets +onlyGivenNames x
  clear_value x
  exact ite_keeps (P := P) (State.setCauses_keeps hM ‹_›) ‹_›

theorem State.commitPaced_keeps {P s ctx c f es off} (hM : Mobile P) (hs : P s) :
    P (State.commitPaced s ctx c f es off) := by
  have hS := hM.stable
  unfold State.commitPaced
  extract_lets +onlyGivenNames x
  clear_value x
  refine ite_keeps (P := P) ?_ ?_
  · extract_lets +onlyGivenNames x
    split
    extract_lets +onlyGivenNames x
    refine cut_value (p := P x) ?_ ?_
    · subst x
      refine State.pushEntries_keeps hS ?_
      refine Fst.elim (by assumption) ?_
      exact State.dueRule_keeps hM ‹_›
    intro hx
    clear_value x
    exact foldl_keeps (P := P) (fun a b h => (State.resolve_keeps hM ‹_›)) ‹_›
  · extract_lets +onlyGivenNames x
    split
    refine foldl_keeps (P := P) (fun a b h => ?_) ?_
    · extract_lets +onlyGivenNames x
      clear_value x
      exact ite_keeps (P := P) (State.resolve_keeps hM ‹_›) (ite_keeps (P := P) ‹_› (State.resolve_keeps hM ‹_›))
    · refine Fst.elim (by assumption) ?_
      exact State.dueRule_keeps hM (State.pushEntries_keeps hS ‹_›)

theorem State.commitPeriodic_keeps {P s ctx c f es off} (hM : Mobile P) (hs : P s) :
    P (State.commitPeriodic s ctx c f es off) := by
  have hS := hM.stable
  unfold State.commitPeriodic
  extract_lets +onlyGivenNames x
  refine cut_value (p := P x) ?_ ?_
  · subst x
    exact State.pushEntries_keeps hS ‹_›
  intro hx
  clear_value x
  extract_lets +onlyGivenNames x
  clear_value x
  extract_lets +onlyGivenNames x
  clear_value x
  extract_lets +onlyGivenNames x
  refine cut_value (p := P x) ?_ ?_
  · subst x
    exact foldl_keeps (P := P) (fun a b h => (State.finish_keeps hM ‹_›)) ‹_›
  intro hx
  clear_value x
  extract_lets +onlyGivenNames x
  refine cut_value (p := P x) ?_ ?_
  · subst x
    exact foldl_keeps (P := P) (fun a b h => (State.angleConvert_keeps hM ‹_›)) ‹_›
  intro hx
  clear_value x
  exact ite_keeps (P := P) (foldl_keeps (P := P) (fun a b h => (State.resolve_keeps hM ‹_›)) ‹_›) (foldl_keeps (P := P) (fun a b h => (ite_keeps (P := P) (State.resolve_keeps hM ‹_›) ‹_›)) ‹_›)

theorem State.commitFlow_keeps {P c s ctx} (hM : Mobile P) (hs : P s) :
    P (State.commitFlow c s ctx) := by
  have hS := hM.stable
  unfold State.commitFlow
  split
  · assumption
  · extract_lets +onlyGivenNames x
    refine cut_value (p := P x) ?_ ?_
    · subst x
      exact ite_keeps (P := P) (State.dueStart_keeps hS ‹_›) ‹_›
    intro hx
    clear_value x
    extract_lets +onlyGivenNames x
    clear_value x
    extract_lets +onlyGivenNames x
    refine cut_value (p := P x) ?_ ?_
    · subst x
      exact State.modFlow_keeps hS ‹_›
    intro hx
    clear_value x
    extract_lets +onlyGivenNames x
    refine cut_value (p := P x) ?_ ?_
    · subst x
      exact State.freezeFlow_keeps hM ‹_›
    intro hx
    clear_value x
    refine ite_keeps (P := P) ?_ ?_
    · assumption
    · extract_lets +onlyGivenNames x
      refine ite_keeps (P := P) ?_ ?_
      · assumption
      · extract_lets +onlyGivenNames x
        refine ite_keeps (P := P) ?_ ?_
        · exact State.commitService_keeps hM ‹_›
        · extract_lets +onlyGivenNames x
          split
          · assumption
          · extract_lets +onlyGivenNames x
            clear_value x
            exact ite_keeps (P := P) (State.commitPaced_keeps hM ‹_›) (State.commitPeriodic_keeps hM ‹_›)

theorem State.commit_keeps {P s c} (hM : Mobile P) (hs : P s) :
    P (State.commit s c) := by
  have hS := hM.stable
  unfold State.commit
  extract_lets +onlyGivenNames x
  refine cut_value (p := P x) ?_ ?_
  · subst x
    exact ite_keeps (P := P) (State.takeRecords_keeps hM ‹_›) ‹_›
  intro hx
  clear_value x
  extract_lets +onlyGivenNames x
  clear_value x
  extract_lets +onlyGivenNames x
  refine cut_value (p := P x) ?_ ?_
  · subst x
    exact foldl_keeps (P := P) (fun a b h => (State.commitFlow_keeps hM ‹_›)) ‹_›
  intro hx
  clear_value x
  extract_lets +onlyGivenNames x
  subst x
  exact State.bulkCourse_keeps hS (Stable.upd hS rfl ‹_› (List.suffix_refl _) id id id (BitVec.le_refl _) id)

theorem State.cutShares_keeps {P s i} (hM : Mobile P) (hs : P s) :
    P (State.cutShares s i) := by
  have hS := hM.stable
  unfold State.cutShares
  extract_lets +onlyGivenNames x
  clear_value x
  extract_lets +onlyGivenNames x
  clear_value x
  extract_lets +onlyGivenNames x
  clear_value x
  extract_lets +onlyGivenNames x
  refine cut_value (p := P x) ?_ ?_
  · subst x
    exact State.modInst_keeps hS ‹_›
  intro hx
  clear_value x
  extract_lets +onlyGivenNames x
  refine cut_value (p := P x) ?_ ?_
  · subst x
    exact State.setFld_keeps hS (State.setFld_keeps hS ‹_›)
  intro hx
  clear_value x
  extract_lets +onlyGivenNames x
  refine cut_value (p := P x) ?_ ?_
  · subst x
    exact State.happen_keeps hM (State.event_keeps hM ‹_›)
  intro hx
  clear_value x
  exact ite_keeps (P := P) ‹_› (ite_keeps (P := P) ‹_› (State.event_keeps hM ‹_›))

theorem State.endDelayCycle_keeps {P s p} (hM : Mobile P) (hs : P s) :
    P (State.endDelayCycle s p) := by
  have hS := hM.stable
  unfold State.endDelayCycle
  split
  · assumption
  · extract_lets +onlyGivenNames x
    clear_value x
    extract_lets +onlyGivenNames x
    refine cut_value (p := P x) ?_ ?_
    · subst x
      exact State.modPort_keeps hS ‹_›
    intro hx
    clear_value x
    exact ite_keeps (P := P) (State.happen_keeps hM ‹_›) ‹_›

theorem State.takeEye_keeps {P s e} (hS : Stable P) (hs : P s) :
    P (State.takeEye s e) := by
  unfold State.takeEye
  extract_lets +onlyGivenNames x
  subst x
  dsimp -zeta -zetaDelta only
  exact State.modPort_keeps hS ‹_›

theorem State.requestStep_keeps {P s p} (hS : Stable P) (hs : P s) :
    P (State.requestStep s p) := by
  unfold State.requestStep
  extract_lets +onlyGivenNames x
  clear_value x
  exact ite_keeps (P := P) (State.planAgain_keeps hS (foldl_keeps (P := P) (fun a b h => (State.modPort_keeps hS ‹_›)) ‹_›)) ‹_›

theorem State.reportCrossings_keeps {P s p new} (hM : Mobile P) (hs : P s) :
    P (State.reportCrossings s p new) := by
  have hS := hM.stable
  unfold State.reportCrossings
  extract_lets +onlyGivenNames x
  refine cut_value (p := P x) ?_ ?_
  · subst x
    split
    · exact foldl_keeps (P := P) (fun a b h => (ite_keeps (P := P) (State.setBit_keeps hS ‹_›) ‹_›)) ‹_›
    · assumption
  intro hx
  clear_value x
  extract_lets +onlyGivenNames x
  refine cut_value (p := P x) ?_ ?_
  · subst x
    exact State.linkEvent_keeps hM (State.raiseOpt_keeps hM ‹_›)
  intro hx
  clear_value x
  exact ite_keeps (P := P) ‹_› (ite_keeps (P := P) (State.requestStep_keeps hS ‹_›) ‹_›)

theorem State.windowCycle_keeps {P s p} (hM : Mobile P) (hs : P s) :
    P (State.windowCycle s p) := by
  have hS := hM.stable
  unfold State.windowCycle
  split
  · assumption
  · extract_lets +onlyGivenNames x
    clear_value x
    extract_lets +onlyGivenNames x
    refine cut_value (p := P x) ?_ ?_
    · subst x
      exact State.reportCrossings_keeps hM ‹_›
    intro hx
    clear_value x
    extract_lets +onlyGivenNames x
    clear_value x
    refine ite_keeps (P := P) ?_ ?_
    · assumption
    · extract_lets +onlyGivenNames x
      refine ite_keeps (P := P) ?_ ?_
      · exact State.modPort_keeps hS ‹_›
      · extract_lets +onlyGivenNames x
        exact State.modPort_keeps hS ‹_›

theorem State.readHub_keeps {P s n} (hS : Stable P) (hs : P s) :
    P (State.readHub s n) := by
  unfold State.readHub
  refine ite_keeps (P := P) ?_ ?_
  · extract_lets +onlyGivenNames x
    refine foldl_keeps (P := P) (fun a b h => ?_) ?_
    · extract_lets +onlyGivenNames x
      clear_value x
      extract_lets +onlyGivenNames x
      refine cut_value (p := P x) ?_ ?_
      · subst x
        exact State.firmwareSends_keeps hS (State.firmwareSends_keeps hS ‹_›)
      intro hx
      clear_value x
      extract_lets +onlyGivenNames x
      refine cut_value (p := P x) ?_ ?_
      · subst x
        split
        · exact ite_keeps (P := P) (Stable.upd hS rfl ‹_› (List.suffix_refl _) id id id (BitVec.le_refl _) id) ‹_›
        · assumption
      intro hx
      clear_value x
      exact ite_keeps (P := P) (State.modPort_keeps hS ‹_›) ‹_›
    · assumption
  · assumption

theorem State.suspectLink_keeps {P s p} (hM : Mobile P) (hs : P s) :
    P (State.suspectLink s p) := by
  have hS := hM.stable
  unfold State.suspectLink
  extract_lets +onlyGivenNames x
  clear_value x
  extract_lets +onlyGivenNames x
  clear_value x
  extract_lets +onlyGivenNames x
  refine cut_value (p := P x) ?_ ?_
  · subst x
    exact State.setFld_keeps hS (State.setFld_keeps hS (State.setFld_keeps hS (State.setFld_keeps hS ‹_›)))
  intro hx
  clear_value x
  extract_lets +onlyGivenNames x
  refine cut_value (p := P x) ?_ ?_
  · subst x
    exact State.happen_keeps hM (State.addSat_keeps hS ‹_›)
  intro hx
  clear_value x
  extract_lets +onlyGivenNames x
  refine cut_value (p := P x) ?_ ?_
  · subst x
    exact State.error_keeps hM (State.linkEvent_keeps hM (State.raiseOpt_keeps hM ‹_›))
  intro hx
  clear_value x
  refine ite_keeps (P := P) ?_ ?_
  · assumption
  · extract_lets +onlyGivenNames x
    split
    · split
      · assumption
      · extract_lets +onlyGivenNames x
        refine cut_value (p := P x) ?_ ?_
        · subst x
          exact State.failSubtree_keeps hM (State.firmwareSends_keeps hS ‹_›)
        intro hx
        clear_value x
        exact OptAll.getD (P := P) (State.setFeature_keeps hM ‹_›) ‹_›
    · exact State.resetPort_keeps hM ‹_›

theorem State.resync_keeps {P s} (hS : Stable P) (hs : P s) :
    P (State.resync s) := by
  unfold State.resync
  exact foldl_keeps (P := P) (fun a b h => (State.firmwareSends_keeps hS ‹_›)) ‹_›

theorem State.sendGangDelay_keeps {P s} (hS : Stable P) (hs : P s) :
    P (State.sendGangDelay s) := by
  unfold State.sendGangDelay
  extract_lets +onlyGivenNames x
  clear_value x
  extract_lets +onlyGivenNames x
  clear_value x
  exact ite_keeps (P := P) (State.emit_keeps hS (Stable.upd hS rfl ‹_› (List.suffix_refl _) id id id (BitVec.le_refl _) id)) ‹_›

theorem State.firmwareRound_keeps {P s} (hM : Mobile P) (hs : P s) :
    P (State.firmwareRound s) := by
  have hS := hM.stable
  unfold State.firmwareRound
  extract_lets +onlyGivenNames x
  refine cut_value (p := P x) ?_ ?_
  · subst x
    exact foldl_keeps (P := P) (fun a b h => (ite_keeps (P := P) ‹_› (State.readHub_keeps hS ‹_›))) ‹_›
  intro hx
  clear_value x
  extract_lets +onlyGivenNames x
  clear_value x
  extract_lets +onlyGivenNames x
  refine cut_value (p := P x) ?_ ?_
  · subst x
    exact State.mapFlows_keeps hS ‹_›
  intro hx
  clear_value x
  extract_lets +onlyGivenNames x
  refine cut_value (p := P x) ?_ ?_
  · subst x
    exact foldl_keeps (P := P) (fun a b h => (State.suspectLink_keeps hM ‹_›)) ‹_›
  intro hx
  clear_value x
  extract_lets +onlyGivenNames x
  refine cut_value (p := P x) ?_ ?_
  · subst x
    exact foldl_keeps (P := P) (fun a b h => (State.sendDelay_keeps hS ‹_›)) ‹_›
  intro hx
  clear_value x
  exact State.resync_keeps hS (State.sendGangDelay_keeps hS ‹_›)

theorem State.cycleRound_keeps {P s eyes} (hM : Mobile P) (hs : P s) :
    P (State.cycleRound s eyes) := by
  have hS := hM.stable
  unfold State.cycleRound
  extract_lets +onlyGivenNames x
  refine cut_value (p := P x) ?_ ?_
  · subst x
    exact foldl_keeps (P := P) (fun a b h => (State.endDelayCycle_keeps hM ‹_›)) ‹_›
  intro hx
  clear_value x
  extract_lets +onlyGivenNames x
  refine cut_value (p := P x) ?_ ?_
  · subst x
    exact foldl_keeps (P := P) (fun a b h => (State.takeEye_keeps hS ‹_›)) ‹_›
  intro hx
  clear_value x
  extract_lets +onlyGivenNames x
  refine cut_value (p := P x) ?_ ?_
  · subst x
    exact foldl_keeps (P := P) (fun a b h => (State.windowCycle_keeps hM ‹_›)) ‹_›
  intro hx
  clear_value x
  extract_lets +onlyGivenNames x
  refine cut_value (p := P x) ?_ ?_
  · subst x
    exact Stable.upd hS rfl ‹_› (List.suffix_refl _) id id id (BitVec.le_refl _) id
  intro hx
  clear_value x
  exact ite_keeps (P := P) (State.firmwareRound_keeps hM ‹_›) ‹_›

theorem State.deferOpens_keeps {P s b} (hS : Stable P) (hs : P s) :
    P (State.deferOpens s b) := by
  unfold State.deferOpens
  exact State.mapFlows_keeps hS ‹_›

theorem State.decideSwap_keeps {P s b} (hS : Stable P) (hs : P s) :
    P (State.decideSwap s b) := by
  unfold State.decideSwap
  extract_lets +onlyGivenNames x
  refine cut_value (p := P x) ?_ ?_
  · subst x
    exact State.deferOpens_keeps hS ‹_›
  intro hx
  clear_value x
  extract_lets +onlyGivenNames x
  refine cut_value (p := P x) ?_ ?_
  · subst x
    exact State.layoutNext_keeps hS ‹_›
  intro hx
  clear_value x
  extract_lets +onlyGivenNames x
  clear_value x
  extract_lets +onlyGivenNames x
  clear_value x
  exact ite_keeps (P := P) (Stable.upd hS rfl ‹_› (List.suffix_refl _) id id id (BitVec.le_refl _) id) ‹_›

theorem State.firmwareCatchesUp_keeps {P s} (hM : Mobile P) (hs : P s) :
    P (State.firmwareCatchesUp s) := by
  have hS := hM.stable
  unfold State.firmwareCatchesUp
  exact ite_keeps (P := P) (foldl_keeps (P := P) (fun a b h => (State.firmwareActs_keeps hM ‹_›)) ‹_›) ‹_›

theorem State.gangCourse_keeps {P s} (hM : Mobile P) (hs : P s) :
    P (State.gangCourse s) := by
  have hS := hM.stable
  unfold State.gangCourse
  extract_lets +onlyGivenNames x
  refine cut_value (p := P x) ?_ ?_
  · subst x
    exact ite_keeps (P := P) ‹_› (State.modGang_keeps hM ‹_›)
  intro hx
  clear_value x
  extract_lets +onlyGivenNames x
  refine cut_value (p := P x) ?_ ?_
  · subst x
    exact ite_keeps (P := P) ‹_› (State.addSat_keeps hS ‹_›)
  intro hx
  clear_value x
  exact ite_keeps (P := P) ‹_› (State.modGang_keeps hM ‹_›)

theorem State.gbLedgerClear_keeps {P s} (hS : Stable P) (hs : P s) :
    P (State.gbLedgerClear s) := by
  unfold State.gbLedgerClear
  extract_lets +onlyGivenNames x
  refine cut_value (p := P x) ?_ ?_
  · subst x
    exact foldl_keeps (P := P) (fun a b h => (State.setReg_keeps hS ‹_›)) ‹_›
  intro hx
  clear_value x
  exact State.setFld_keeps hS (State.setFld_keeps hS ‹_›)

theorem State.instCourse_keeps {P c s i} (hM : Mobile P) (hs : P s) :
    P (State.instCourse c s i) := by
  have hS := hM.stable
  unfold State.instCourse
  extract_lets +onlyGivenNames x
  clear_value x
  extract_lets +onlyGivenNames x
  refine cut_value (p := P x) ?_ ?_
  · subst x
    exact State.modInst_keeps hS ‹_›
  intro hx
  clear_value x
  extract_lets +onlyGivenNames x
  refine cut_value (p := P x) ?_ ?_
  · subst x
    split
    · extract_lets +onlyGivenNames x
      refine cut_value (p := P x) ?_ ?_
      · subst x
        exact State.setFld_keeps hS ‹_›
      intro hx
      clear_value x
      extract_lets +onlyGivenNames x
      refine cut_value (p := P x) ?_ ?_
      · subst x
        exact State.setCausesAll_keeps hM ‹_›
      intro hx
      clear_value x
      exact ite_keeps (P := P) (State.happen_keeps hM ‹_›) ‹_›
    · assumption
  intro hx
  clear_value x
  extract_lets +onlyGivenNames x
  refine cut_value (p := P x) ?_ ?_
  · subst x
    exact State.modInst_keeps hS ‹_›
  intro hx
  clear_value x
  extract_lets +onlyGivenNames x
  refine cut_value (p := P x) ?_ ?_
  · subst x
    exact State.setCausesAll_keeps hM ‹_›
  intro hx
  clear_value x
  split
  · exact ite_keeps (P := P) (State.happen_keeps hM ‹_›) ‹_›
  · assumption

theorem State.instructHubs_keeps {P s} (hM : Mobile P) (hs : P s) :
    P (State.instructHubs s) := by
  have hS := hM.stable
  unfold State.instructHubs
  extract_lets +onlyGivenNames x
  clear_value x
  refine foldl_keeps (P := P) (fun a b h => ?_) ?_
  · extract_lets +onlyGivenNames x
    split
    · assumption
    · extract_lets +onlyGivenNames x
      refine cut_value (p := P x) ?_ ?_
      · subst x
        exact State.firmwareSends_keeps hS ‹_›
      intro hx
      clear_value x
      extract_lets +onlyGivenNames x
      refine cut_value (p := P x) ?_ ?_
      · subst x
        exact OptAll.getD (P := P) (State.setFeature_keeps hM ‹_›) ‹_›
      intro hx
      clear_value x
      extract_lets +onlyGivenNames x
      clear_value x
      exact State.modPort_keeps hS ‹_›
  · assumption

theorem State.ledgerClear_keeps {P s t v} (hS : Stable P) (hs : P s) :
    P (State.ledgerClear s t v) := by
  unfold State.ledgerClear
  refine ite_keeps (P := P) ?_ ?_
  · split
    · exact State.modPort_keeps hS ‹_›
    · exact State.gbLedgerClear_keeps hS ‹_›
  · assumption

theorem State.setPeriod_keeps {P s p} (hS : Stable P) (hs : P s) :
    P (State.setPeriod s p) := by
  unfold State.setPeriod
  extract_lets +onlyGivenNames x
  refine cut_value (p := P x) ?_ ?_
  · subst x
    exact State.setFld_keeps hS ‹_›
  intro hx
  clear_value x
  extract_lets +onlyGivenNames x
  clear_value x
  exact ite_keeps (P := P) (State.planAgain_keeps hS (Stable.upd hS rfl ‹_› (List.suffix_refl _) id id id (BitVec.le_refl _) id)) (Stable.upd hS rfl ‹_› (List.suffix_refl _) id id id (BitVec.le_refl _) id)

theorem State.periodWrite_keeps {P s v} (hS : Stable P) (hs : P s) :
    P (State.periodWrite s v) := by
  unfold State.periodWrite
  extract_lets +onlyGivenNames x
  clear_value x
  exact ite_keeps (P := P) ‹_› (State.setPeriod_keeps hS ‹_›)

theorem State.planCmds_keeps {P s b} (hM : Mobile P) (hs : P s) :
    P (State.planCmds s b) := by
  have hS := hM.stable
  unfold State.planCmds
  extract_lets +onlyGivenNames x
  clear_value x
  extract_lets +onlyGivenNames x
  refine cut_value (p := P x) ?_ ?_
  · subst x
    refine foldl_keeps (P := P) (fun a b h => ?_) ?_
    · split
      · exact State.complete_keeps hM ‹_›
      · assumption
    · assumption
  intro hx
  clear_value x
  extract_lets +onlyGivenNames x
  refine cut_value (p := P x) ?_ ?_
  · subst x
    exact State.mapFlows_keeps hS ‹_›
  intro hx
  clear_value x
  refine foldl_keeps (P := P) (fun a b h => ?_) ?_
  · extract_lets +onlyGivenNames x
    clear_value x
    extract_lets +onlyGivenNames x
    clear_value x
    exact State.complete_keeps hM ‹_›
  · assumption

theorem State.quietServices_keeps {P s} (hS : Stable P) (hs : P s) :
    P (State.quietServices s) := by
  unfold State.quietServices
  extract_lets +onlyGivenNames x
  clear_value x
  exact State.mapFlows_keeps hS ‹_›

theorem State.reachStart_keeps {P s} (hS : Stable P) (hs : P s) :
    P (State.reachStart s) := by
  unfold State.reachStart
  extract_lets +onlyGivenNames x
  clear_value x
  extract_lets +onlyGivenNames x
  clear_value x
  extract_lets +onlyGivenNames x
  clear_value x
  extract_lets +onlyGivenNames x
  clear_value x
  exact ite_keeps (P := P) ‹_› (Stable.upd hS rfl ‹_› (List.suffix_refl _) id id id (BitVec.le_refl _) id)

theorem State.releaseShadows_keeps {P s cycle} (hS : Stable P) (hs : P s) :
    P (State.releaseShadows s cycle) := by
  unfold State.releaseShadows
  extract_lets +onlyGivenNames x
  subst x
  dsimp -zeta -zetaDelta only
  extract_lets +onlyGivenNames x
  clear_value x
  extract_lets +onlyGivenNames x
  clear_value x
  exact Stable.upd hS rfl ‹_› (List.suffix_refl _) id id id (BitVec.le_refl _) id

theorem State.repeatStop_keeps {P s} (hS : Stable P) (hs : P s) :
    P (State.repeatStop s) := by
  unfold State.repeatStop
  extract_lets +onlyGivenNames x
  clear_value x
  refine ite_keeps (P := P) ?_ ?_
  · assumption
  · extract_lets +onlyGivenNames x
    refine foldl_keeps (P := P) (fun a b h => ?_) ?_
    · extract_lets +onlyGivenNames x
      extract_lets +onlyGivenNames x
      refine cut_value (p := P x) ?_ ?_
      · subst x
        exact Stable.upd hS rfl ‹_› (List.suffix_refl _) id id id (BitVec.le_refl _) id
      intro hx
      clear_value x
      exact ite_keeps (P := P) (State.emit_keeps hS ‹_›) ‹_›
    · assumption

theorem State.resumeNode_keeps {P s r} (hM : Mobile P) (hs : P s) :
    P (State.resumeNode s r) := by
  have hS := hM.stable
  unfold State.resumeNode
  extract_lets +onlyGivenNames x
  refine cut_value (p := P x) ?_ ?_
  · subst x
    exact Stable.upd hS rfl ‹_› (List.suffix_refl _) id id id (BitVec.le_refl _) id
  intro hx
  clear_value x
  extract_lets +onlyGivenNames x
  refine cut_value (p := P x) ?_ ?_
  · subst x
    exact State.setCausesAll_keeps hM ‹_›
  intro hx
  clear_value x
  exact ite_keeps (P := P) (State.nodeEvent_keeps hM ‹_›) (State.nodeEvent_keeps hM ‹_›)

theorem State.sendPace_keeps {P s} (hS : Stable P) (hs : P s) :
    P (State.sendPace s) := by
  unfold State.sendPace
  extract_lets +onlyGivenNames x
  clear_value x
  extract_lets +onlyGivenNames x
  clear_value x
  extract_lets +onlyGivenNames x
  clear_value x
  exact ite_keeps (P := P) (State.sendWords_keeps hS ‹_›) ‹_›

theorem State.sendStart_keeps {P s p lease} (hS : Stable P) (hs : P s) :
    P (State.sendStart s p lease) := by
  unfold State.sendStart
  extract_lets +onlyGivenNames x
  clear_value x
  extract_lets +onlyGivenNames x
  clear_value x
  extract_lets +onlyGivenNames x
  clear_value x
  extract_lets +onlyGivenNames x
  clear_value x
  split
  · assumption
  · extract_lets +onlyGivenNames x
    clear_value x
    extract_lets +onlyGivenNames x
    clear_value x
    extract_lets +onlyGivenNames x
    refine cut_value (p := P x) ?_ ?_
    · subst x
      exact State.modPort_keeps hS ‹_›
    intro hx
    clear_value x
    exact ite_keeps (P := P) ‹_› (State.emit_keeps hS ‹_›)

theorem State.stepRoot_keeps {P s t} (hM : Mobile P) (hs : P s) :
    P (State.stepRoot s t) := by
  have hS := hM.stable
  unfold State.stepRoot
  extract_lets +onlyGivenNames x
  clear_value x
  extract_lets +onlyGivenNames x
  refine cut_value (p := P x) ?_ ?_
  · subst x
    exact State.modPort_keeps hS ‹_›
  intro hx
  clear_value x
  extract_lets +onlyGivenNames x
  refine cut_value (p := P x) ?_ ?_
  · subst x
    exact State.setFld_keeps hS ‹_›
  intro hx
  clear_value x
  exact State.error_keeps hM (State.linkEvent_keeps hM (State.happen_keeps hM ‹_›))

theorem State.swapBanks_keeps {P s b} (hM : Mobile P) (hs : P s) :
    P (State.swapBanks s b) := by
  have hS := hM.stable
  unfold State.swapBanks
  extract_lets +onlyGivenNames x
  refine cut_value (p := P x) ?_ ?_
  · subst x
    exact foldl_keeps (P := P) (fun a b h => (ite_keeps (P := P) (State.stepRoot_keeps hM ‹_›) ‹_›)) ‹_›
  intro hx
  clear_value x
  extract_lets +onlyGivenNames x
  refine cut_value (p := P x) ?_ ?_
  · subst x
    exact foldl_keeps (P := P) (fun a b h => (State.applyChange_keeps hM ‹_›)) ‹_›
  intro hx
  clear_value x
  extract_lets +onlyGivenNames x
  refine cut_value (p := P x) ?_ ?_
  · subst x
    exact State.layoutSwap_keeps hS ‹_›
  intro hx
  clear_value x
  extract_lets +onlyGivenNames x
  clear_value x
  extract_lets +onlyGivenNames x
  refine cut_value (p := P x) ?_ ?_
  · subst x
    split
    · exact Stable.upd hS rfl ‹_› (List.suffix_refl _) id id id (BitVec.le_refl _) id
    · assumption
  intro hx
  clear_value x
  extract_lets +onlyGivenNames x
  clear_value x
  extract_lets +onlyGivenNames x
  refine cut_value (p := P x) ?_ ?_
  · subst x
    exact Stable.upd hS rfl ‹_› (List.suffix_refl _) id id id (BitVec.le_refl _) id
  intro hx
  clear_value x
  extract_lets +onlyGivenNames x
  refine cut_value (p := P x) ?_ ?_
  · subst x
    exact State.setFld_keeps hS ‹_›
  intro hx
  clear_value x
  extract_lets +onlyGivenNames x
  refine cut_value (p := P x) ?_ ?_
  · subst x
    exact State.happen_keeps hM ‹_›
  intro hx
  clear_value x
  extract_lets +onlyGivenNames x
  clear_value x
  extract_lets +onlyGivenNames x
  refine cut_value (p := P x) ?_ ?_
  · subst x
    exact foldl_keeps (P := P) (fun a b h => (State.resumeNode_keeps hM ‹_›)) ‹_›
  intro hx
  clear_value x
  exact foldl_keeps (P := P) (fun a b h => (State.cutShares_keeps hM ‹_›)) ‹_›

theorem State.startCourse_keeps {P s eyes} (hM : Mobile P) (hs : P s) :
    P (State.startCourse s eyes) := by
  have hS := hM.stable
  unfold State.startCourse
  extract_lets +onlyGivenNames x
  refine cut_value (p := P x) ?_ ?_
  · subst x
    exact State.reachStart_keeps hS ‹_›
  intro hx
  clear_value x
  extract_lets +onlyGivenNames x
  refine cut_value (p := P x) ?_ ?_
  · subst x
    exact ite_keeps (P := P) (State.nextRate_keeps hS ‹_›) ‹_›
  intro hx
  clear_value x
  extract_lets +onlyGivenNames x
  clear_value x
  extract_lets +onlyGivenNames x
  refine cut_value (p := P x) ?_ ?_
  · subst x
    exact State.dueStep_keeps hM ‹_›
  intro hx
  clear_value x
  extract_lets +onlyGivenNames x
  clear_value x
  extract_lets +onlyGivenNames x
  clear_value x
  extract_lets +onlyGivenNames x
  refine cut_value (p := P x) ?_ ?_
  · subst x
    exact ite_keeps (P := P) (State.gangCourse_keeps hM ‹_›) ‹_›
  intro hx
  clear_value x
  extract_lets +onlyGivenNames x
  clear_value x
  extract_lets +onlyGivenNames x
  clear_value x
  extract_lets +onlyGivenNames x
  refine cut_value (p := P x) ?_ ?_
  · subst x
    exact Stable.upd hS rfl ‹_› (List.suffix_refl _) id id id (BitVec.le_refl _) id
  intro hx
  clear_value x
  extract_lets +onlyGivenNames x
  clear_value x
  extract_lets +onlyGivenNames x
  refine cut_value (p := P x) ?_ ?_
  · subst x
    exact State.releaseShadows_keeps hS ‹_›
  intro hx
  clear_value x
  extract_lets +onlyGivenNames x
  refine cut_value (p := P x) ?_ ?_
  · subst x
    exact ite_keeps (P := P) ‹_› (State.sourceEffect_keeps hM ‹_›)
  intro hx
  clear_value x
  extract_lets +onlyGivenNames x
  refine cut_value (p := P x) ?_ ?_
  · subst x
    exact ite_keeps (P := P) (State.swapBanks_keeps hM ‹_›) ‹_›
  intro hx
  clear_value x
  extract_lets +onlyGivenNames x
  refine cut_value (p := P x) ?_ ?_
  · subst x
    exact ite_keeps (P := P) (State.cycleRound_keeps hM ‹_›) ‹_›
  intro hx
  clear_value x
  extract_lets +onlyGivenNames x
  refine cut_value (p := P x) ?_ ?_
  · subst x
    exact State.applyPolicies_keeps hM (foldl_keeps (P := P) (fun a b h => (State.applyPace_keeps hS ‹_›)) ‹_›)
  intro hx
  clear_value x
  extract_lets +onlyGivenNames x
  refine cut_value (p := P x) ?_ ?_
  · subst x
    exact foldl_keeps (P := P) (fun a b h => (State.instCourse_keeps hM ‹_›)) ‹_›
  intro hx
  clear_value x
  extract_lets +onlyGivenNames x
  refine cut_value (p := P x) ?_ ?_
  · subst x
    exact foldl_keeps (P := P) (fun a b h => (State.complete_keeps hM ‹_›)) ‹_›
  intro hx
  clear_value x
  extract_lets +onlyGivenNames x
  refine cut_value (p := P x) ?_ ?_
  · subst x
    exact State.firmwareCatchesUp_keeps hM (State.quietServices_keeps hS ‹_›)
  intro hx
  clear_value x
  extract_lets +onlyGivenNames x
  refine cut_value (p := P x) ?_ ?_
  · subst x
    exact ite_keeps (P := P) (State.decideSwap_keeps hS ‹_›) ‹_›
  intro hx
  clear_value x
  extract_lets +onlyGivenNames x
  refine cut_value (p := P x) ?_ ?_
  · subst x
    exact ite_keeps (P := P) ‹_› (State.commit_keeps hM ‹_›)
  intro hx
  clear_value x
  extract_lets +onlyGivenNames x
  clear_value x
  extract_lets +onlyGivenNames x
  refine cut_value (p := P x) ?_ ?_
  · subst x
    exact foldl_keeps (P := P) (fun a b h => (State.sendStart_keeps hS ‹_›)) ‹_›
  intro hx
  clear_value x
  exact State.lateEdges_keeps hM (State.repeatStop_keeps hS (State.sendPace_keeps hS (State.sendStart_keeps hS ‹_›)))

theorem State.stepDownWrite_keeps {P s t v} (hS : Stable P) (hs : P s) :
    P (State.stepDownWrite s t v) := by
  unfold State.stepDownWrite
  exact dite_keeps (P := P) (fun _ => (ite_keeps (P := P) (State.requestStep_keeps hS ‹_›) ‹_›)) (fun _ => ‹_›)

theorem execCoursePeriodWrite_keeps {P v s} (hS : Stable P) (hs : P s) :
    ResAll P (execCoursePeriodWrite v s) := by
  unfold execCoursePeriodWrite
  exact ResAll.next (State.periodWrite_keeps hS ‹_›)

theorem execStepDownWrite_keeps {P t v s} (hS : Stable P) (hs : P s) :
    ResAll P (execStepDownWrite t v s) := by
  unfold execStepDownWrite
  exact ResAll.next (State.stepDownWrite_keeps hS ‹_›)

theorem execTrkLedgerClr_keeps {P t v s} (hS : Stable P) (hs : P s) :
    ResAll P (execTrkLedgerClr t v s) := by
  unfold execTrkLedgerClr
  exact ResAll.next (State.ledgerClear_keeps hS ‹_›)

theorem execCourseBoundary_keeps {P eyes s} (hM : Mobile P) (hs : P s) :
    ResAll P (execCourseBoundary eyes s) := by
  have hS := hM.stable
  unfold execCourseBoundary
  exact ResAll.next (ite_keeps (P := P) (State.startCourse_keeps hM ‹_›) ‹_›)

theorem execMarginWindowEnd_keeps {P p s} (hS : Stable P) (hs : P s) :
    ResAll P (execMarginWindowEnd p s) := by
  unfold execMarginWindowEnd
  refine ResAll.next ?_
  split
  · assumption
  · exact ite_keeps (P := P) (State.modPort_keeps hS ‹_›) ‹_›

theorem execPlanMarkedReady_keeps {P s} (hM : Mobile P) (hs : P s) :
    ResAll P (execPlanMarkedReady s) := by
  have hS := hM.stable
  unfold execPlanMarkedReady
  extract_lets +onlyGivenNames x
  clear_value x
  extract_lets +onlyGivenNames x
  refine cut_value (p := P x) ?_ ?_
  · subst x
    exact Stable.upd hS rfl ‹_› (List.suffix_refl _) id id id (BitVec.le_refl _) id
  intro hx
  clear_value x
  extract_lets +onlyGivenNames x
  refine cut_value (p := P x) ?_ ?_
  · subst x
    exact State.deferOpens_keeps hS ‹_›
  intro hx
  clear_value x
  extract_lets +onlyGivenNames x
  refine cut_value (p := P x) ?_ ?_
  · subst x
    exact ite_keeps (P := P) (State.happen_keeps hM ‹_›) ‹_›
  intro hx
  clear_value x
  exact ResAll.next (ite_keeps (P := P) (State.planCmds_keeps hM (State.instructHubs_keeps hM ‹_›)) ‹_›)

end Sys2Proof.Machine
end

