-- ==== Sys2Proof/Laws/KeepsTree.lean ====
section
/-!
SUPPORT. What the operations and meanings of Machine/Tree.lean keep (see Laws/Follows.lean): steady ones any `Stable` property, the others any
`Mobile` one.
-/

set_option linter.tactic.unusedName false
set_option linter.unusedVariables false

namespace Sys2Proof.Machine

theorem State.tally_keeps {P s t o} (hS : Stable P) (hs : P s) :
    P (State.tally s t o) := by
  unfold State.tally
  exact foldl_keeps (P := P) (fun a b h => (State.modTaken_keeps hS ‹_›)) ‹_›

theorem State.firmwareDoes_keeps {P s d addr q} (hM : Mobile P) (hs : P s) :
    P (State.firmwareDoes s d addr q) := by
  have hS := hM.stable
  unfold State.firmwareDoes
  extract_lets +onlyGivenNames x
  refine cut_value (p := P x) ?_ ?_
  · subst x
    exact State.firmwareSends_keeps hS ‹_›
  intro hx
  clear_value x
  split
  · assumption
  · split
    · exact State.modDev_keeps hS ‹_›
    · refine State.modDev_keeps hS ?_
      refine OptAll.fst (by assumption) ?_
      exact State.request_keeps hM ‹_›

theorem State.hubFeature_keeps {P s h_1 q set feature} (hM : Mobile P) (hs : P s) :
    P (State.hubFeature s h_1 q set feature) := by
  have hS := hM.stable
  unfold State.hubFeature
  split
  · exact State.firmwareDoes_keeps hM ‹_›
  · assumption

theorem State.enumFailed_keeps {P s p d tooDeep} (hM : Mobile P) (hs : P s) :
    P (State.enumFailed s p d tooDeep) := by
  have hS := hM.stable
  unfold State.enumFailed
  extract_lets +onlyGivenNames x
  refine cut_value (p := P x) ?_ ?_
  · subst x
    exact Stable.upd hS rfl ‹_› (List.suffix_refl _) id id id (BitVec.le_refl _) id
  intro hx
  clear_value x
  extract_lets +onlyGivenNames x
  refine cut_value (p := P x) ?_ ?_
  · subst x
    exact State.tally_keeps hS ‹_›
  intro hx
  clear_value x
  extract_lets +onlyGivenNames x
  refine cut_value (p := P x) ?_ ?_
  · subst x
    exact State.event_keeps hM ‹_›
  intro hx
  clear_value x
  extract_lets +onlyGivenNames x
  refine cut_value (p := P x) ?_ ?_
  · subst x
    split
    · exact State.hubFeature_keeps hM ‹_›
    · exact State.disablePort_keeps hM ‹_›
  intro hx
  clear_value x
  exact State.treeCmds_keeps hM ‹_›

theorem State.keepBinding_keeps {P s a_1 d desc matched} (hS : Stable P) (hs : P s) :
    P (State.keepBinding s a_1 d desc matched) := by
  unfold State.keepBinding
  extract_lets +onlyGivenNames x
  clear_value x
  exact ite_keeps (P := P) ‹_› (Stable.upd hS rfl ‹_› (List.suffix_refl _) id id id (BitVec.le_refl _) id)

theorem State.afresh_keeps {P s d} (hS : Stable P) (hs : P s) :
    P (State.afresh s d) := by
  unfold State.afresh
  exact Stable.upd hS rfl ‹_› (List.suffix_refl _) id (ksorted_filter _ _) id (BitVec.le_refl _) id

theorem State.setUpHub_keeps {P s d a_2} (hM : Mobile P) (hs : P s) :
    P (State.setUpHub s d a_2) := by
  have hS := hM.stable
  unfold State.setUpHub
  extract_lets +onlyGivenNames x
  refine cut_value (p := P x) ?_ ?_
  · subst x
    exact State.firmwareDoes_keeps hM ‹_›
  intro hx
  clear_value x
  extract_lets +onlyGivenNames x
  refine cut_value (p := P x) ?_ ?_
  · subst x
    exact State.firmwareDoes_keeps hM ‹_›
  intro hx
  clear_value x
  extract_lets +onlyGivenNames x
  refine cut_value (p := P x) ?_ ?_
  · subst x
    exact State.firmwareDoes_keeps hM ‹_›
  intro hx
  clear_value x
  split
  · refine ExcAll.elim (by assumption) ?_
    exact State.openService_keeps hS ‹_›
  · assumption

theorem State.reseatNode_keeps {P s d r} (hM : Mobile P) (hs : P s) :
    P (State.reseatNode s d r) := by
  have hS := hM.stable
  unfold State.reseatNode
  extract_lets +onlyGivenNames x
  clear_value x
  extract_lets +onlyGivenNames x
  refine cut_value (p := P x) ?_ ?_
  · subst x
    exact foldl_keeps (P := P) (fun a b h => (State.firmwareDoes_keeps hM ‹_›)) ‹_›
  intro hx
  clear_value x
  extract_lets +onlyGivenNames x
  refine cut_value (p := P x) ?_ ?_
  · subst x
    exact foldl_keeps (P := P) (fun a b h => (State.modFlow_keeps hS ‹_›)) ‹_›
  intro hx
  clear_value x
  extract_lets +onlyGivenNames x
  clear_value x
  extract_lets +onlyGivenNames x
  refine cut_value (p := P x) ?_ ?_
  · subst x
    exact Stable.upd hS rfl ‹_› (List.suffix_refl _) id id id (BitVec.le_refl _) id
  intro hx
  clear_value x
  exact State.tally_keeps hS (State.planAgain_keeps hS ‹_›)

theorem State.addressDevice_keeps {P s p d x_3 hub match_} (hM : Mobile P) (hs : P s) :
    P (State.addressDevice s p d x_3 hub match_) := by
  have hS := hM.stable
  unfold State.addressDevice
  extract_lets +onlyGivenNames x
  clear_value x
  split
  · exact State.enumFailed_keeps hM ‹_›
  · extract_lets +onlyGivenNames x
    refine cut_value (p := P x) ?_ ?_
    · subst x
      exact State.keepBinding_keeps hS ‹_›
    intro hx
    clear_value x
    extract_lets +onlyGivenNames x
    refine cut_value (p := P x) ?_ ?_
    · subst x
      exact ite_keeps (P := P) ‹_› (Stable.upd hS rfl ‹_› (List.suffix_refl _) id id id (BitVec.le_refl _) id)
    intro hx
    clear_value x
    extract_lets +onlyGivenNames x
    refine cut_value (p := P x) ?_ ?_
    · subst x
      exact State.firmwareDoes_keeps hM ‹_›
    intro hx
    clear_value x
    extract_lets +onlyGivenNames x
    clear_value x
    extract_lets +onlyGivenNames x
    refine cut_value (p := P x) ?_ ?_
    · subst x
      exact Stable.upd hS rfl ‹_› (List.suffix_refl _) id id id (BitVec.le_refl _) id
    intro hx
    clear_value x
    extract_lets +onlyGivenNames x
    refine cut_value (p := P x) ?_ ?_
    · subst x
      exact State.afresh_keeps hS ‹_›
    intro hx
    clear_value x
    extract_lets +onlyGivenNames x
    refine cut_value (p := P x) ?_ ?_
    · subst x
      exact ite_keeps (P := P) (State.setUpHub_keeps hM ‹_›) (State.firmwareDoes_keeps hM ‹_›)
    intro hx
    clear_value x
    extract_lets +onlyGivenNames x
    refine cut_value (p := P x) ?_ ?_
    · subst x
      exact State.sendDelay_keeps hS ‹_›
    intro hx
    clear_value x
    extract_lets +onlyGivenNames x
    refine cut_value (p := P x) ?_ ?_
    · subst x
      split
      · exact State.reseatNode_keeps hM ‹_›
      · assumption
    intro hx
    clear_value x
    exact State.treeCmds_keeps hM (State.tally_keeps hS ‹_›)

theorem State.cmdRead_keeps {P s c addr bytes e} (hM : Mobile P) (hs : P s) :
    P (State.cmdRead s c addr bytes e) := by
  have hS := hM.stable
  unfold State.cmdRead
  extract_lets +onlyGivenNames x
  refine cut_value (p := P x) ?_ ?_
  · subst x
    exact State.emit_keeps hS ‹_›
  intro hx
  clear_value x
  exact ite_keeps (P := P) ‹_› (State.readError_keeps hM ‹_›)

theorem State.firmwareReset_keeps {P s p} (hM : Mobile P) (hs : P s) :
    P (State.firmwareReset s p) := by
  have hS := hM.stable
  unfold State.firmwareReset
  split
  · exact State.hubFeature_keeps hM ‹_›
  · exact State.requestReset_keeps hM ‹_›

theorem State.recordEnds_keeps {P s r} (hM : Mobile P) (hs : P s) :
    P (State.recordEnds s r) := by
  have hS := hM.stable
  unfold State.recordEnds
  extract_lets +onlyGivenNames x
  refine cut_value (p := P x) ?_ ?_
  · subst x
    exact Stable.upd hS rfl ‹_› (List.suffix_refl _) id id id (BitVec.le_refl _) id
  intro hx
  clear_value x
  exact State.setCausesAll_keeps hM ‹_›

theorem State.foundDevice_keeps {P s p d x_3} (hM : Mobile P) (hs : P s) :
    P (State.foundDevice s p d x_3) := by
  have hS := hM.stable
  unfold State.foundDevice
  extract_lets +onlyGivenNames x
  clear_value x
  extract_lets +onlyGivenNames x
  clear_value x
  extract_lets +onlyGivenNames x
  refine cut_value (p := P x) ?_ ?_
  · subst x
    exact State.firmwareDoes_keeps hM ‹_›
  intro hx
  clear_value x
  refine ite_keeps (P := P) ?_ ?_
  · exact State.enumFailed_keeps hM ‹_›
  · extract_lets +onlyGivenNames x
    split
    · exact State.addressDevice_keeps hM ‹_›
    · extract_lets +onlyGivenNames x
      refine cut_value (p := P x) ?_ ?_
      · subst x
        exact State.nodeEvent_keeps hM (State.recordEnds_keeps hM ‹_›)
      intro hx
      clear_value x
      exact ite_keeps (P := P) (State.addressDevice_keeps hM ‹_›) (State.addressDevice_keeps hM ‹_›)

theorem State.portCommand_keeps {P s c fr more permitted absent act} (hM : Mobile P) (hs : P s) (hact : ∀ u0 u1 u2, P (act u0 u1 u2)) :
    P (State.portCommand s c fr more permitted absent act) := by
  have hS := hM.stable
  unfold State.portCommand
  refine State.command_keeps hM ?_ ?_
  · assumption
  · intro a
    split
    · assumption
    · refine ite_keeps (P := P) ?_ ?_
      · split
        · apply hact
        · exact State.done_keeps hM ‹_›
      · exact State.done_keeps hM ‹_›

theorem State.portCut_keeps {P s c p} (hM : Mobile P) (hs : P s) :
    P (State.portCut s c p) := by
  have hS := hM.stable
  unfold State.portCut
  extract_lets +onlyGivenNames x
  refine cut_value (p := P x) ?_ ?_
  · subst x
    exact State.wait_keeps hS ‹_›
  intro hx
  clear_value x
  split
  · extract_lets +onlyGivenNames x
    refine cut_value (p := P x) ?_ ?_
    · subst x
      exact Stable.upd hS rfl ‹_› (List.suffix_refl _) id id id (BitVec.le_refl _) id
    intro hx
    clear_value x
    exact State.portOff_keeps hM ‹_›
  · exact State.settle_keeps hM (State.hubFeature_keeps hM (State.endSubtree_keeps hM ‹_›))
  · assumption

theorem State.portOn_keeps {P s c p x_3} (hM : Mobile P) (hs : P s) :
    P (State.portOn s c p x_3) := by
  have hS := hM.stable
  unfold State.portOn
  extract_lets +onlyGivenNames x
  refine cut_value (p := P x) ?_ ?_
  · subst x
    exact State.wait_keeps hS ‹_›
  intro hx
  clear_value x
  extract_lets +onlyGivenNames x
  refine cut_value (p := P x) ?_ ?_
  · subst x
    exact State.modPort_keeps hS ‹_›
  intro hx
  clear_value x
  refine ite_keeps (P := P) ?_ ?_
  · exact State.done_keeps hM ‹_›
  · split
    · exact Stable.upd hS rfl ‹_› (List.suffix_refl _) id id id (BitVec.le_refl _) id
    · exact State.hubFeature_keeps hM (State.modPort_keeps hS ‹_›)
    · assumption

theorem State.treeWalk_keeps {P s c t} (hM : Mobile P) (hs : P s) :
    P (State.treeWalk s c t) := by
  have hS := hM.stable
  unfold State.treeWalk
  extract_lets +onlyGivenNames x
  refine cut_value (p := P x) ?_ ?_
  · subst x
    exact State.wait_keeps hS ‹_›
  intro hx
  clear_value x
  extract_lets +onlyGivenNames x
  clear_value x
  extract_lets +onlyGivenNames x
  refine cut_value (p := P x) ?_ ?_
  · subst x
    split
    · exact State.requestReset_keeps hM ‹_›
    · exact State.requestReset_keeps hM ‹_›
    · exact State.requestReset_keeps hM ‹_›
    · assumption
  intro hx
  clear_value x
  exact State.treeCmds_keeps hM ‹_›

theorem execPortPower_keeps {P c s} (hM : Mobile P) (hs : P s) :
    ResAll P (execPortPower c s) := by
  have hS := hM.stable
  unfold execPortPower
  refine ResAll.next (State.portCommand_keeps hM ?_ ?_)
  · assumption
  · intro a
    intro a
    intro a
    refine ite_keeps (P := P) ?_ ?_
    · split
      · exact ite_keeps (P := P) (State.done_keeps hM ‹_›) (State.portOn_keeps hM ‹_›)
      · exact State.portOn_keeps hM ‹_›
    · exact ite_keeps (P := P) (State.done_keeps hM ‹_›) (State.portCut_keeps hM ‹_›)

theorem execPortReset_keeps {P c s} (hM : Mobile P) (hs : P s) :
    ResAll P (execPortReset c s) := by
  have hS := hM.stable
  unfold execPortReset
  refine ResAll.next (State.portCommand_keeps hM ?_ ?_)
  · assumption
  · intro a
    intro a
    intro a
    exact ite_keeps (P := P) (State.firmwareReset_keeps hM (State.wait_keeps hS ‹_›)) (State.done_keeps hM ‹_›)

theorem execPortSuspend_keeps {P c s} (hM : Mobile P) (hs : P s) :
    ResAll P (execPortSuspend c s) := by
  have hS := hM.stable
  unfold execPortSuspend
  extract_lets +onlyGivenNames x
  refine cut_value (p := P x) ?_ ?_
  · subst x
    exact State.wait_keeps hS ‹_›
  intro hx
  clear_value x
  refine ResAll.next (State.portCommand_keeps hM ?_ ?_)
  · assumption
  · intro a
    intro a
    intro a
    refine ite_keeps (P := P) ?_ ?_
    · exact State.done_keeps hM ‹_›
    · refine ite_keeps (P := P) ?_ ?_
      · exact State.done_keeps hM ‹_›
      · split
        · exact State.hubFeature_keeps hM ‹_›
        · exact State.modPort_keeps hS ‹_›

theorem execPortResume_keeps {P c s} (hM : Mobile P) (hs : P s) :
    ResAll P (execPortResume c s) := by
  have hS := hM.stable
  unfold execPortResume
  extract_lets +onlyGivenNames x
  refine cut_value (p := P x) ?_ ?_
  · subst x
    exact State.wait_keeps hS ‹_›
  intro hx
  clear_value x
  refine ResAll.next (State.portCommand_keeps hM ?_ ?_)
  · assumption
  · intro a
    intro a
    intro a
    refine ite_keeps (P := P) ?_ ?_
    · exact State.wait_keeps hS ‹_›
    · refine ite_keeps (P := P) ?_ ?_
      · exact State.done_keeps hM ‹_›
      · split
        · exact State.hubFeature_keeps hM ‹_›
        · exact State.requestResume_keeps hS ‹_›

theorem execPortStatus_keeps {P c s} (hM : Mobile P) (hs : P s) :
    ResAll P (execPortStatus c s) := by
  have hS := hM.stable
  unfold execPortStatus
  extract_lets +onlyGivenNames x
  subst x
  dsimp -zeta -zetaDelta only
  extract_lets +onlyGivenNames x
  clear_value x
  refine ResAll.next ?_
  extract_lets +onlyGivenNames x
  refine State.portCommand_keeps hM ?_ ?_
  · assumption
  · intro a
    intro a
    intro a
    extract_lets +onlyGivenNames x
    refine cut_value (p := P x) ?_ ?_
    · subst x
      split
      · split
        · exact State.firmwareDoes_keeps hM ‹_›
        · assumption
      · assumption
    intro hx
    clear_value x
    exact State.done_keeps hM ‹_›

theorem execTreeEnumerate_keeps {P c map e s} (hM : Mobile P) (hs : P s) :
    ResAll P (execTreeEnumerate c map e s) := by
  have hS := hM.stable
  unfold execTreeEnumerate
  extract_lets +onlyGivenNames x
  subst x
  dsimp -zeta -zetaDelta only
  refine guarded_keeps hS ?_
  extract_lets +onlyGivenNames x
  refine State.command_keeps hM ?_ ?_
  · assumption
  · intro a
    extract_lets +onlyGivenNames x
    clear_value x
    extract_lets +onlyGivenNames x
    refine cut_value (p := P x) ?_ ?_
    · subst x
      exact ite_keeps (P := P) ‹_› (State.cmdRead_keeps hM ‹_›)
    intro hx
    clear_value x
    refine ite_keeps (P := P) ?_ ?_
    · refine ite_keeps (P := P) ?_ ?_
      · exact State.done_keeps hM ‹_›
      · split
        · exact State.done_keeps hM ‹_›
        · exact State.treeWalk_keeps hM (Stable.upd hS rfl ‹_› (List.suffix_refl _) id id id (BitVec.le_refl _) id)
    · exact State.treeWalk_keeps hM ‹_›

theorem execNodeInfo_keeps {P c s} (hM : Mobile P) (hs : P s) :
    ResAll P (execNodeInfo c s) := by
  have hS := hM.stable
  unfold execNodeInfo
  refine ResAll.next ?_
  extract_lets +onlyGivenNames x
  refine State.command_keeps hM ?_ ?_
  · assumption
  · intro a
    extract_lets +onlyGivenNames x
    clear_value x
    split
    · exact State.done_keeps hM ‹_›
    · extract_lets +onlyGivenNames x
      subst x
      dsimp -zeta -zetaDelta only
      extract_lets +onlyGivenNames x
      refine cut_value (p := P x) ?_ ?_
      · subst x
        exact ite_keeps (P := P) ‹_› (State.postBytes_keeps hS ‹_›)
      intro hx
      clear_value x
      exact State.done_keeps hM ‹_›

theorem execNodeBind_keeps {P c s} (hM : Mobile P) (hs : P s) :
    ResAll P (execNodeBind c s) := by
  have hS := hM.stable
  unfold execNodeBind
  refine ResAll.next ?_
  extract_lets +onlyGivenNames x
  refine State.command_keeps hM ?_ ?_
  · assumption
  · intro a
    extract_lets +onlyGivenNames x
    clear_value x
    extract_lets +onlyGivenNames x
    clear_value x
    extract_lets +onlyGivenNames x
    clear_value x
    extract_lets +onlyGivenNames x
    clear_value x
    extract_lets +onlyGivenNames x
    refine cut_value (p := P x) ?_ ?_
    · subst x
      exact Stable.upd hS rfl ‹_› (List.suffix_refl _) id id id (BitVec.le_refl _) id
    intro hx
    clear_value x
    exact ite_keeps (P := P) (State.done_keeps hM ‹_›) (ite_keeps (P := P) (State.done_keeps hM ‹_›) (State.done_keeps hM ‹_›))

theorem execLinkMargin_keeps {P c s} (hM : Mobile P) (hs : P s) :
    ResAll P (execLinkMargin c s) := by
  have hS := hM.stable
  unfold execLinkMargin
  refine ResAll.next ?_
  extract_lets +onlyGivenNames x
  refine State.portCommand_keeps hM ?_ ?_
  · assumption
  · intro a
    intro a
    intro a
    extract_lets +onlyGivenNames x
    refine cut_value (p := P x) ?_ ?_
    · subst x
      split
      · split
        · exact State.firmwareDoes_keeps hM (State.modPort_keeps hS ‹_›)
        · assumption
      · assumption
    intro hx
    clear_value x
    extract_lets +onlyGivenNames x
    refine cut_value (p := P x) ?_ ?_
    · subst x
      exact ite_keeps (P := P) (State.modPort_keeps hS ‹_›) ‹_›
    intro hx
    clear_value x
    split
    · exact State.done_keeps hM ‹_›
    · extract_lets +onlyGivenNames x
      clear_value x
      exact State.done_keeps hM ‹_›

theorem execLinkRate_keeps {P c s} (hM : Mobile P) (hs : P s) :
    ResAll P (execLinkRate c s) := by
  have hS := hM.stable
  unfold execLinkRate
  refine ResAll.next ?_
  extract_lets +onlyGivenNames x
  refine State.portCommand_keeps hM ?_ ?_
  · assumption
  · intro a
    intro a
    intro a
    extract_lets +onlyGivenNames x
    refine cut_value (p := P x) ?_ ?_
    · subst x
      exact State.requestStep_keeps hS ‹_›
    intro hx
    clear_value x
    extract_lets +onlyGivenNames x
    clear_value x
    extract_lets +onlyGivenNames x
    refine cut_value (p := P x) ?_ ?_
    · subst x
      exact State.modPort_keeps hS (State.wait_keeps hS ‹_›)
    intro hx
    clear_value x
    extract_lets +onlyGivenNames x
    refine cut_value (p := P x) ?_ ?_
    · subst x
      split
      · exact State.setFld_keeps hS ‹_›
      · exact State.modPort_keeps hS ‹_›
    intro hx
    clear_value x
    exact ite_keeps (P := P) (ite_keeps (P := P) (State.done_keeps hM ‹_›) (State.done_keeps hM ‹_›)) (ite_keeps (P := P) (State.firmwareReset_keeps hM ‹_›) (State.done_keeps hM ‹_›))

theorem execAutoEnumerate_keeps {P p a_1 s} (hM : Mobile P) (hs : P s) :
    ResAll P (execAutoEnumerate p a_1 s) := by
  have hS := hM.stable
  unfold execAutoEnumerate
  extract_lets +onlyGivenNames x
  refine cut_value (p := P x) ?_ ?_
  · subst x
    exact State.firmwareSends_keeps hS ‹_›
  intro hx
  clear_value x
  refine ResAll.next ?_
  split
  · refine ite_keeps (P := P) ?_ ?_
    · assumption
    · refine ite_keeps (P := P) ?_ ?_
      · exact ite_keeps (P := P) (State.firmwareReset_keeps hM ‹_›) ‹_›
      · refine ite_keeps (P := P) ?_ ?_
        · split
          · exact ite_keeps (P := P) (State.foundDevice_keeps hM ‹_›) ‹_›
          · assumption
        · assumption
  · assumption

theorem execEnumFail_keeps {P p s} (hM : Mobile P) (hs : P s) :
    ResAll P (execEnumFail p s) := by
  have hS := hM.stable
  unfold execEnumFail
  refine ResAll.next ?_
  split
  · assumption
  · exact ite_keeps (P := P) (State.enumFailed_keeps hM ‹_›) ‹_›

theorem execReseatExpired_keeps {P addr s} (hM : Mobile P) (hs : P s) :
    ResAll P (execReseatExpired addr s) := by
  have hS := hM.stable
  unfold execReseatExpired
  refine ResAll.next ?_
  split
  · assumption
  · exact State.nodeEvent_keeps hM (State.recordEnds_keeps hM ‹_›)

theorem execHubPortPowerStep_keeps {P h_0 s} (hM : Mobile P) (hs : P s) :
    ResAll P (execHubPortPowerStep h_0 s) := by
  have hS := hM.stable
  unfold execHubPortPowerStep
  refine ResAll.next ?_
  extract_lets +onlyGivenNames x
  split
  · assumption
  · extract_lets +onlyGivenNames x
    clear_value x
    extract_lets +onlyGivenNames x
    refine cut_value (p := P x) ?_ ?_
    · subst x
      exact State.modPort_keeps hS (State.hubFeature_keeps hM ‹_›)
    intro hx
    clear_value x
    extract_lets +onlyGivenNames x
    refine cut_value (p := P x) ?_ ?_
    · subst x
      exact Stable.upd hS rfl ‹_› (List.suffix_refl _) id id id (BitVec.le_refl _) id
    intro hx
    clear_value x
    exact ite_keeps (P := P) (State.treeCmds_keeps hM ‹_›) ‹_›

theorem execHubPortRetryExpiry_keeps {P h_0 p s} (hM : Mobile P) (hs : P s) :
    ResAll P (execHubPortRetryExpiry h_0 p s) := by
  have hS := hM.stable
  unfold execHubPortRetryExpiry
  extract_lets +onlyGivenNames x
  clear_value x
  refine ResAll.next ?_
  split
  · assumption
  · exact ite_keeps (P := P) (State.hubFeature_keeps hM (State.modPort_keeps hS ‹_›)) ‹_›

end Sys2Proof.Machine
end

