-- ==== Sys2Proof/Laws/KeepsBoot.lean ====
section
/-!
SUPPORT. What the operations and meanings of Machine/Boot.lean keep (see Laws/Follows.lean): steady ones any `Stable` property, the others any
`Mobile` one.
-/

set_option linter.tactic.unusedName false
set_option linter.unusedVariables false

namespace Sys2Proof.Machine

theorem State.abortTaken_keeps {P s} (hM : Mobile P) (hs : P s) :
    P (State.abortTaken s) := by
  have hS := hM.stable
  unfold State.abortTaken
  extract_lets +onlyGivenNames x
  clear_value x
  extract_lets +onlyGivenNames x
  refine cut_value (p := P x) ?_ ?_
  · subst x
    exact Stable.upd hS rfl ‹_› (List.suffix_refl _) id id id (BitVec.le_refl _) id
  intro hx
  clear_value x
  exact foldl_keeps (P := P) (fun a b h => (foldl_keeps (P := P) (fun a b h => (State.complete_keeps hM ‹_›)) ‹_›)) ‹_›

theorem State.setDoms_keeps {P s l x_2} (hS : Stable P) (hs : P s) :
    P (State.setDoms s l x_2) := by
  unfold State.setDoms
  extract_lets +onlyGivenNames x
  exact Stable.upd hS rfl ‹_› (List.suffix_refl _) id id id (BitVec.le_refl _) id

/-- The registers that a warm start passes on keep their keys. -/
theorem warmEntry_key (e x : Nat × Reg32) (h : (have v := warmReg e.1 e.2; match findReg .bar0 e.1 with
      | some (r, _) => if v == r.reset then none else some (e.1, v)
      | none => some (e.1, v)) = some x) : x.1 = e.1 := by
  dsimp only at h
  split at h
  · split at h
    · exact nomatch h
    · cases h
      rfl
  · cases h
    rfl

theorem State.warmBegin_keeps {P s relocked} (hM : Mobile P) (hs : P s) :
    P (State.warmBegin s relocked) := by
  have hS := hM.stable
  unfold State.warmBegin
  extract_lets +onlyGivenNames x
  refine cut_value (p := P x) ?_ ?_
  · subst x
    exact ite_keeps (P := P) (State.setMode_keeps hM ‹_› (fun _ h => nomatch h)) ‹_›
  intro hx
  clear_value x
  extract_lets +onlyGivenNames x
  refine cut_value (p := P x) ?_ ?_
  · subst x
    exact State.setDoms_keeps hS ‹_›
  intro hx
  clear_value x
  extract_lets +onlyGivenNames x
  extract_lets +onlyGivenNames x
  refine cut_value (p := P x) ?_ ?_
  · subst x
    exact Mobile.upd hM ‹_› (fun ok => ⟨ok.run, nofun, nofun⟩) (List.suffix_refl _) (ksorted_filterMap _ _ warmEntry_key) (ksorted_map _ _ (fun _ => rfl)) id (BitVec.le_refl _) id
  intro hx
  clear_value x
  exact ite_keeps (P := P) (State.expireDue_keeps hM (State.rebuild_keeps hM ‹_›)) ‹_›

/-- The drive at the begin of a cold start. -/
theorem cold_drive : Drive.Ok ⟨StopState.init.latched, Pmu.init.mode, Pmu.init.target, Pmu.init.changing, Pmu.init.entry.map (·.mode)⟩ :=
  ⟨fun h => absurd h (by decide), fun h => absurd h (by decide), nofun⟩

theorem State.coldBegin_keeps {P s porst} (hM : Mobile P) (hs : P s) :
    P (State.coldBegin s porst) := by
  have hS := hM.stable
  unfold State.coldBegin
  extract_lets +onlyGivenNames x y z
  have hx : P x := ite_keeps (P := P) (foldl_keeps (P := P) (fun _ _ h => State.ppmCut_keeps hS h) hs) hs
  have hy : P y := by
    refine ite_keeps (P := P) (foldl_keeps (P := P) (fun a b h => ?_) hx) hx
    extract_lets f w
    have hw : P w := ite_keeps (P := P) (State.emit_keeps hS h) h
    exact ite_keeps (P := P) (State.emit_keeps hS hw) hw
  refine Mobile.upd hM hy (fun _ => cold_drive) (List.suffix_refl _) (fun h => ?_) (fun _ => rfl) (fun _ => rfl) ?_ ?_
  · split
    · rfl
    · exact ksorted_filter _ _ h
  · split <;> exact BitVec.le_refl _
  · split <;> exact id

theorem State.beginStart_keeps {P s kind warm run} (hM : Mobile P) (hs : P s) :
    P (State.beginStart s kind warm run) := by
  have hS := hM.stable
  unfold State.beginStart
  extract_lets +onlyGivenNames x
  clear_value x
  extract_lets +onlyGivenNames x
  clear_value x
  extract_lets +onlyGivenNames x
  refine cut_value (p := P x) ?_ ?_
  · subst x
    exact ite_keeps (P := P) (State.warmBegin_keeps hM ‹_›) (State.coldBegin_keeps hM ‹_›)
  intro hx
  clear_value x
  extract_lets +onlyGivenNames x
  clear_value x
  extract_lets +onlyGivenNames x
  exact Stable.upd hS rfl ‹_› (List.suffix_refl _) id id id (BitVec.le_refl _) id

theorem State.noteFail_keeps {P s step code warm} (hM : Mobile P) (hs : P s) :
    Fst P (State.noteFail s step code warm) := by
  have hS := hM.stable
  unfold State.noteFail
  extract_lets +onlyGivenNames x
  extract_lets +onlyGivenNames x
  extract_lets +onlyGivenNames x
  refine cut_value (p := P x) ?_ ?_
  · subst x
    exact State.error_keeps hM (Stable.upd hS rfl ‹_› (List.suffix_refl _) id id id (BitVec.le_refl _) id)
  intro hx
  extract_lets +onlyGivenNames x
  refine ite_keeps (P := Fst P) ?_ ?_
  · extract_lets +onlyGivenNames x
    exact ite_keeps (P := Fst P) (Fst.mk (Stable.upd hS rfl ‹_› (List.suffix_refl _) id id id (BitVec.le_refl _) id)) (Fst.mk (Stable.upd hS rfl ‹_› (List.suffix_refl _) id id id (BitVec.le_refl _) id))
  · extract_lets +onlyGivenNames x
    exact ite_keeps (P := Fst P) (Fst.mk (Stable.upd hS rfl ‹_› (List.suffix_refl _) id id id (BitVec.le_refl _) id)) (ite_keeps (P := Fst P) (Fst.mk (Stable.upd hS rfl ‹_› (List.suffix_refl _) id id id (BitVec.le_refl _) id)) (Fst.mk (Stable.upd hS rfl ‹_› (List.suffix_refl _) id id id (BitVec.le_refl _) id)))

theorem State.linkTrains_keeps {P s} (hM : Mobile P) (hs : P s) :
    P (State.linkTrains s) := by
  have hS := hM.stable
  unfold State.linkTrains
  refine ite_keeps (P := P) ?_ ?_
  · assumption
  · extract_lets +onlyGivenNames x
    split
    split
    extract_lets +onlyGivenNames x
    clear_value x
    refine State.flushPosted_keeps hM (Stable.upd hS rfl ?_ (List.suffix_refl _) id id id (BitVec.le_refl _) id)
    refine Snd.elim (by assumption) ?_
    refine State.freeWord_keeps hS ?_
    refine Snd.elim (by assumption) ?_
    exact State.freeWord_keeps hS ‹_›

theorem State.coldEnd_keeps {P s} (hM : Mobile P) (hs : P s) :
    P (State.coldEnd s) := by
  have hS := hM.stable
  unfold State.coldEnd
  extract_lets +onlyGivenNames x
  refine cut_value (p := P x) ?_ ?_
  · subst x
    exact State.linkTrains_keeps hM ‹_›
  intro hx
  clear_value x
  extract_lets +onlyGivenNames x
  extract_lets +onlyGivenNames x
  clear_value x
  exact ite_keeps (P := P) (Stable.upd hS rfl ‹_› (List.suffix_refl _) id id id (BitVec.le_refl _) id) ‹_›

theorem State.romRecovery_keeps {P s} (hM : Mobile P) (hs : P s) :
    P (State.romRecovery s) := by
  have hS := hM.stable
  unfold State.romRecovery
  extract_lets +onlyGivenNames x
  clear_value x
  extract_lets +onlyGivenNames x
  extract_lets +onlyGivenNames x
  extract_lets +onlyGivenNames x
  refine cut_value (p := P x) ?_ ?_
  · subst x
    exact Mobile.upd hM ‹_› (fun ok => ⟨fun _ => nofun, fun _ => nofun, ok.entry⟩) (List.suffix_refl _) id id id (BitVec.le_refl _) id
  intro hx
  clear_value x
  exact State.coldEnd_keeps hM ‹_›

theorem State.modSlot_keeps {P s y f} (hS : Stable P) (hs : P s) :
    P (State.modSlot s y f) := by
  unfold State.modSlot
  extract_lets +onlyGivenNames x
  exact Stable.upd hS rfl ‹_› (List.suffix_refl _) id id id (by split <;> exact BitVec.le_refl _) (by split <;> exact id)

theorem State.loaded_keeps {P s y} (hS : Stable P) (hs : P s) :
    P (State.loaded s y) := by
  unfold State.loaded
  extract_lets +onlyGivenNames x
  clear_value x
  exact State.modSlot_keeps hS ‹_›

theorem State.hifReset_keeps {P s} (hS : Stable P) (hs : P s) :
    P (State.hifReset s) := by
  unfold State.hifReset
  exact Stable.upd hS rfl ‹_› (List.suffix_refl _) (ksorted_filter _ _) id id (BitVec.le_refl _) id

theorem State.functionReset_keeps {P s} (hS : Stable P) (hs : P s) :
    P (State.functionReset s) := by
  unfold State.functionReset
  extract_lets +onlyGivenNames x
  refine cut_value (p := P x) ?_ ?_
  · subst x
    exact State.hifReset_keeps hS ‹_›
  intro hx
  clear_value x
  extract_lets +onlyGivenNames x
  clear_value x
  extract_lets +onlyGivenNames x
  clear_value x
  exact Stable.upd hS rfl ‹_› (List.suffix_refl _) id id id (BitVec.le_refl _) id

theorem State.resumeSlept_keeps {P s} (hS : Stable P) (hs : P s) :
    P (State.resumeSlept s) := by
  unfold State.resumeSlept
  extract_lets +onlyGivenNames x
  refine cut_value (p := P x) ?_ ?_
  · subst x
    exact foldl_keeps (P := P) (fun a b h => (State.requestResume_keeps hS ‹_›)) ‹_›
  intro hx
  clear_value x
  extract_lets +onlyGivenNames x
  exact Stable.upd hS rfl ‹_› (List.suffix_refl _) id id id (BitVec.le_refl _) id

theorem State.heldByStart_keeps {P s} (hM : Mobile P) (hs : P s) :
    P (State.heldByStart s) := by
  have hS := hM.stable
  unfold State.heldByStart
  extract_lets +onlyGivenNames x
  clear_value x
  extract_lets +onlyGivenNames x
  clear_value x
  exact State.finishAll_keeps hM ‹_›

theorem State.checkNode_keeps {P s e} (hM : Mobile P) (hs : P s) :
    P (State.checkNode s e) := by
  have hS := hM.stable
  unfold State.checkNode
  extract_lets +onlyGivenNames x
  clear_value x
  extract_lets +onlyGivenNames x
  clear_value x
  extract_lets +onlyGivenNames x
  refine cut_value (p := P x) ?_ ?_
  · subst x
    exact State.firmwareSends_keeps hS ‹_›
  intro hx
  clear_value x
  extract_lets +onlyGivenNames x
  clear_value x
  extract_lets +onlyGivenNames x
  clear_value x
  exact ite_keeps (P := P) ‹_› (ite_keeps (P := P) ‹_› (State.nodeEvent_keeps hM (State.setCausesAll_keeps hM ‹_›)))

theorem State.warmEnd_keeps {P s r} (hM : Mobile P) (hs : P s) :
    P (State.warmEnd s r) := by
  have hS := hM.stable
  unfold State.warmEnd
  extract_lets +onlyGivenNames x
  refine cut_value (p := P x) ?_ ?_
  · subst x
    exact State.setDoms_keeps hS ‹_›
  intro hx
  clear_value x
  extract_lets +onlyGivenNames x
  refine cut_value (p := P x) ?_ ?_
  · subst x
    exact ite_keeps (P := P) ‹_› (State.linkTrains_keeps hM (State.functionReset_keeps hS ‹_›))
  intro hx
  clear_value x
  extract_lets +onlyGivenNames x
  clear_value x
  extract_lets +onlyGivenNames x
  refine cut_value (p := P x) ?_ ?_
  · subst x
    exact ite_keeps (P := P) (State.resumeSlept_keeps hS (State.setDoms_keeps hS ‹_›)) ‹_›
  intro hx
  clear_value x
  extract_lets +onlyGivenNames x
  refine cut_value (p := P x) ?_ ?_
  · subst x
    exact ite_keeps (P := P) ‹_› (State.setMode_keeps hM ‹_› (fun _ h => nomatch h))
  intro hx
  clear_value x
  extract_lets +onlyGivenNames x
  refine cut_value (p := P x) ?_ ?_
  · subst x
    exact State.abortTaken_keeps hM ‹_›
  intro hx
  clear_value x
  exact State.heldByStart_keeps hM (foldl_keeps (P := P) (fun a b h => (State.checkNode_keeps hM ‹_›)) ‹_›)

theorem State.fatalHeld_keeps {P s} (hM : Mobile P) (hs : P s) :
    P (State.fatalHeld s) := by
  have hS := hM.stable
  unfold State.fatalHeld
  extract_lets +onlyGivenNames x
  exact foldl_keeps (P := P) (fun a b h => (State.escalateNow_keeps hM ‹_›)) (Stable.upd hS rfl ‹_› (List.suffix_refl _) id id id (BitVec.le_refl _) id)

theorem State.muteMailbox_keeps {P s i} (hS : Stable P) (hs : P s) :
    P (State.muteMailbox s i) := by
  unfold State.muteMailbox
  refine State.setFld_keeps hS ?_
  extract_lets +onlyGivenNames x
  exact State.modInst_keeps hS ‹_›

theorem State.flrInstance_keeps {P s i} (hM : Mobile P) (hs : P s) :
    P (State.flrInstance s i) := by
  have hS := hM.stable
  unfold State.flrInstance
  split
  · assumption
  · exact State.modInst_keeps hS ‹_›
  · exact State.startReset_keeps hM ‹_›

theorem State.flrActions_keeps {P s} (hM : Mobile P) (hs : P s) :
    P (State.flrActions s) := by
  have hS := hM.stable
  unfold State.flrActions
  extract_lets +onlyGivenNames x
  clear_value x
  extract_lets +onlyGivenNames x
  refine cut_value (p := P x) ?_ ?_
  · subst x
    exact foldl_keeps (P := P) (fun a b h => (State.muteMailbox_keeps hS ‹_›)) ‹_›
  intro hx
  clear_value x
  extract_lets +onlyGivenNames x
  clear_value x
  extract_lets +onlyGivenNames x
  extract_lets +onlyGivenNames x
  refine cut_value (p := P x) ?_ ?_
  · subst x
    exact Stable.upd hS (by simp only [State.drive, Option.map_map]; rfl) ‹_› (List.suffix_refl _) id (ksorted_map _ _ (fun _ => rfl)) id (BitVec.le_refl _) id
  intro hx
  clear_value x
  exact foldl_keeps (P := P) (fun a b h => (State.flrInstance_keeps hM ‹_›)) (State.enterHold_keeps hM ‹_›)

theorem State.heldOver_keeps {P s was} (hS : Stable P) (hs : P s) (hwas : P was) :
    P (State.heldOver s was) := by
  unfold State.heldOver
  extract_lets +onlyGivenNames x
  clear_value x
  exact Stable.upd hS rfl ‹_› (List.suffix_refl _) id id id (BitVec.le_refl _) id

theorem State.perstNow_keeps {P s} (hM : Mobile P) (hs : P s) :
    P (State.perstNow s) := by
  have hS := hM.stable
  unfold State.perstNow
  extract_lets +onlyGivenNames x
  clear_value x
  extract_lets +onlyGivenNames x
  refine cut_value (p := P x) ?_ ?_
  · subst x
    exact ite_keeps (P := P) (State.functionReset_keeps hS (State.flrActions_keeps hM ‹_›)) (State.heldOver_keeps hS (State.functionReset_keeps hS ‹_›) ‹_›)
  intro hx
  clear_value x
  extract_lets +onlyGivenNames x
  extract_lets +onlyGivenNames x
  clear_value x
  extract_lets +onlyGivenNames x
  refine cut_value (p := P x) ?_ ?_
  · subst x
    exact Stable.upd hS rfl ‹_› (List.suffix_refl _) id id id (BitVec.le_refl _) id
  intro hx
  clear_value x
  exact State.setBit_keeps hS ‹_›

theorem State.perstRise_keeps {P s} (hS : Stable P) (hs : P s) :
    P (State.perstRise s) := by
  unfold State.perstRise
  extract_lets +onlyGivenNames x
  clear_value x
  extract_lets +onlyGivenNames x
  refine cut_value (p := P x) ?_ ?_
  · subst x
    exact ite_keeps (P := P) (State.emit_keeps hS (Stable.upd hS rfl ‹_› (List.suffix_refl _) id id id (BitVec.le_refl _) id)) ‹_›
  intro hx
  clear_value x
  extract_lets +onlyGivenNames x
  clear_value x
  exact Stable.upd hS rfl ‹_› (List.suffix_refl _) id id id (BitVec.le_refl _) id

theorem State.perstHeld_keeps {P s} (hM : Mobile P) (hs : P s) :
    P (State.perstHeld s) := by
  have hS := hM.stable
  unfold State.perstHeld
  extract_lets +onlyGivenNames x
  clear_value x
  extract_lets +onlyGivenNames x
  extract_lets +onlyGivenNames x
  refine cut_value (p := P x) ?_ ?_
  · subst x
    exact State.perstNow_keeps hM (Stable.upd hS rfl ‹_› (List.suffix_refl _) id id id (BitVec.le_refl _) id)
  intro hx
  clear_value x
  exact ite_keeps (P := P) ‹_› (State.linkTrains_keeps hM (State.setDoms_keeps hS (State.perstRise_keeps hS ‹_›)))

theorem State.flrNow_keeps {P s} (hM : Mobile P) (hs : P s) :
    P (State.flrNow s) := by
  have hS := hM.stable
  unfold State.flrNow
  exact State.setBit_keeps hS (State.functionReset_keeps hS (State.flrActions_keeps hM ‹_›))

theorem State.endStart_keeps {P s r} (hM : Mobile P) (hs : P s) :
    P (State.endStart s r) := by
  have hS := hM.stable
  unfold State.endStart
  extract_lets +onlyGivenNames x
  clear_value x
  extract_lets +onlyGivenNames x
  refine cut_value (p := P x) ?_ ?_
  · subst x
    exact ite_keeps (P := P) (State.loaded_keeps hS ‹_›) ‹_›
  intro hx
  clear_value x
  extract_lets +onlyGivenNames x
  extract_lets +onlyGivenNames x
  refine cut_value (p := P x) ?_ ?_
  · subst x
    exact Stable.upd hS rfl ‹_› (List.suffix_refl _) id id id (BitVec.le_refl _) id
  intro hx
  clear_value x
  extract_lets +onlyGivenNames x
  refine cut_value (p := P x) ?_ ?_
  · subst x
    exact ite_keeps (P := P) (State.warmEnd_keeps hM ‹_›) (State.coldEnd_keeps hM ‹_›)
  intro hx
  clear_value x
  extract_lets +onlyGivenNames x
  refine cut_value (p := P x) ?_ ?_
  · subst x
    exact State.fatalHeld_keeps hM ‹_›
  intro hx
  clear_value x
  extract_lets +onlyGivenNames x
  refine cut_value (p := P x) ?_ ?_
  · subst x
    exact ite_keeps (P := P) (State.perstHeld_keeps hM ‹_›) ‹_›
  intro hx
  clear_value x
  extract_lets +onlyGivenNames x
  exact ite_keeps (P := P) (State.flrNow_keeps hM (Stable.upd hS rfl ‹_› (List.suffix_refl _) id id id (BitVec.le_refl _) id)) ‹_›

theorem State.goOn_keeps {P s r run} (hM : Mobile P) (hs : P s) :
    Fst P (State.goOn s r run) := by
  have hS := hM.stable
  unfold State.goOn
  extract_lets +onlyGivenNames x
  subst x
  dsimp -zeta -zetaDelta only
  extract_lets +onlyGivenNames x
  extract_lets +onlyGivenNames x
  refine cut_value (p := P x) ?_ ?_
  · subst x
    exact State.endStart_keeps hM ‹_›
  intro hx
  clear_value x
  extract_lets +onlyGivenNames x
  split
  · split
    · refine Fst.mk (State.romRecovery_keeps hM ?_)
      refine Fst.elim (by assumption) ?_
      exact State.noteFail_keeps hM ‹_›
    · refine Fst.mk ?_
      refine Fst.elim (by assumption) ?_
      exact State.noteFail_keeps hM ‹_›
  · refine ite_keeps (P := Fst P) ?_ ?_
    · split
      · refine Fst.mk (State.romRecovery_keeps hM ?_)
        refine Fst.elim (by assumption) ?_
        exact State.noteFail_keeps hM ‹_›
      · refine Fst.mk ?_
        refine Fst.elim (by assumption) ?_
        exact State.noteFail_keeps hM ‹_›
    · exact Fst.mk (Stable.upd hS rfl ‹_› (List.suffix_refl _) id id id (BitVec.le_refl _) id)
  · exact Fst.mk (Stable.upd hS rfl ‹_› (List.suffix_refl _) id id id (BitVec.le_refl _) id)
  · split
    · exact Fst.mk (Stable.upd hS rfl ‹_› (List.suffix_refl _) id id id (BitVec.le_refl _) id)
    · exact Fst.mk ‹_›

theorem State.runStart_keeps {P a_0 a_1 a_2 a_3 a_4} (hM : Mobile P) (ha_4 : P a_4) :
    P (State.runStart a_0 a_1 a_2 a_3 a_4) := by
  induction a_0 generalizing a_1 a_2 a_4 with
  | zero => exact ha_4
  | succ n ih =>
    unfold State.runStart
    extract_lets x
    have hx : P x := State.beginStart_keeps hM ha_4
    split
    · exact hx
    · split
      · exact Fst.elim ‹_› (State.goOn_keeps hM hx)
      · exact ih (Fst.elim ‹_› (State.goOn_keeps hM hx))

theorem State.warmTrigger_keeps {P s kind run} (hM : Mobile P) (hs : P s) :
    P (State.warmTrigger s kind run) := by
  have hS := hM.stable
  unfold State.warmTrigger
  extract_lets +onlyGivenNames x
  split
  · exact State.runStart_keeps hM ‹_›
  · exact ite_keeps (P := P) (ite_keeps (P := P) (Stable.upd hS rfl ‹_› (List.suffix_refl _) id id id (BitVec.le_refl _) id) (Stable.upd hS rfl ‹_› (List.suffix_refl _) id id id (BitVec.le_refl _) id)) (ite_keeps (P := P) (State.runStart_keeps hM ‹_›) ‹_›)

theorem State.bootCtrlWrite_keeps {P s v run} (hM : Mobile P) (hs : P s) :
    P (State.bootCtrlWrite s v run) := by
  have hS := hM.stable
  unfold State.bootCtrlWrite
  exact ite_keeps (P := P) (State.warmTrigger_keeps hM ‹_›) ‹_›

theorem State.failStart_keeps {P s step code kind warm run} (hM : Mobile P) (hs : P s) :
    P (State.failStart s step code kind warm run) := by
  have hS := hM.stable
  unfold State.failStart
  split
  · refine State.romRecovery_keeps hM ?_
    refine Fst.elim (by assumption) ?_
    exact State.noteFail_keeps hM ‹_›
  · refine State.runStart_keeps hM ?_
    refine Fst.elim (by assumption) ?_
    exact State.noteFail_keeps hM ‹_›

theorem State.faultStart_keeps {P s kind code run} (hM : Mobile P) (hs : P s) :
    P (State.faultStart s kind code run) := by
  have hS := hM.stable
  unfold State.faultStart
  exact ite_keeps (P := P) (State.failStart_keeps hM ‹_›) (State.warmTrigger_keeps hM ‹_›)

theorem State.verifyStaged_keeps {P s y} (hS : Stable P) (hs : P s) :
    Fst P (State.verifyStaged s y) := by
  unfold State.verifyStaged
  extract_lets +onlyGivenNames x
  clear_value x
  split
  · exact Fst.mk (State.modSlot_keeps hS ‹_›)
  · exact Fst.mk ‹_›

theorem State.writeRecord_keeps {P s y pending} (hS : Stable P) (hs : P s) :
    P (State.writeRecord s y pending) := by
  unfold State.writeRecord
  extract_lets +onlyGivenNames x
  exact Stable.upd hS rfl ‹_› (List.suffix_refl _) id id id (BitVec.le_refl _) id

theorem execFwStage_keeps {P c data e s} (hM : Mobile P) (hs : P s) :
    ResAll P (execFwStage c data e s) := by
  have hS := hM.stable
  unfold execFwStage
  refine guarded_keeps hS ?_
  extract_lets +onlyGivenNames x
  refine State.command_keeps hM ?_ ?_
  · assumption
  · intro a
    extract_lets +onlyGivenNames x
    refine cut_value (p := P x) ?_ ?_
    · subst x
      exact State.cmdRead_keeps hM ‹_›
    intro hx
    clear_value x
    extract_lets +onlyGivenNames x
    clear_value x
    extract_lets +onlyGivenNames x
    refine cut_value (p := P x) ?_ ?_
    · subst x
      exact State.modSlot_keeps hS ‹_›
    intro hx
    clear_value x
    refine ite_keeps (P := P) ?_ ?_
    · exact State.done_keeps hM ‹_›
    · refine ite_keeps (P := P) ?_ ?_
      · exact State.done_keeps hM ‹_›
      · split
        refine State.done_keeps hM ?_
        refine Fst.elim (by assumption) ?_
        exact ite_keeps (P := Fst P) (State.verifyStaged_keeps hS ‹_›) (Fst.mk ‹_›)

theorem execFwCommit_keeps {P c run s} (hM : Mobile P) (hs : P s) :
    ResAll P (execFwCommit c run s) := by
  have hS := hM.stable
  unfold execFwCommit
  extract_lets +onlyGivenNames x
  clear_value x
  extract_lets +onlyGivenNames x
  clear_value x
  extract_lets +onlyGivenNames x
  clear_value x
  extract_lets +onlyGivenNames x
  clear_value x
  refine ResAll.next ?_
  extract_lets +onlyGivenNames x
  refine State.command_keeps hM ?_ ?_
  · assumption
  · intro a
    extract_lets +onlyGivenNames x
    refine cut_value (p := P x) ?_ ?_
    · subst x
      exact State.done_keeps hM (State.writeRecord_keeps hS ‹_›)
    intro hx
    clear_value x
    extract_lets +onlyGivenNames x
    exact ite_keeps (P := P) (State.done_keeps hM ‹_›) (ite_keeps (P := P) ‹_› (ite_keeps (P := P) (State.runStart_keeps hM (Stable.upd hS rfl ‹_› (List.suffix_refl _) id id id (BitVec.le_refl _) id)) (State.warmTrigger_keeps hM ‹_›)))

theorem execBootCtrl_keeps {P v run s} (hM : Mobile P) (hs : P s) :
    ResAll P (execBootCtrl v run s) := by
  have hS := hM.stable
  unfold execBootCtrl
  exact ResAll.next (State.bootCtrlWrite_keeps hM ‹_›)

theorem execPorst_keeps {P run s} (hM : Mobile P) (hs : P s) :
    ResAll P (execPorst run s) := by
  have hS := hM.stable
  unfold execPorst
  exact ResAll.next (State.runStart_keeps hM ‹_›)

theorem execWrst_keeps {P run s} (hM : Mobile P) (hs : P s) :
    ResAll P (execWrst run s) := by
  have hS := hM.stable
  unfold execWrst
  exact ResAll.next (State.warmTrigger_keeps hM ‹_›)

theorem execStartStepTimeout_keeps {P code run s} (hM : Mobile P) (hs : P s) :
    ResAll P (execStartStepTimeout code run s) := by
  have hS := hM.stable
  unfold execStartStepTimeout
  refine ResAll.next ?_
  split
  · assumption
  · refine ite_keeps (P := P) ?_ ?_
    · split
      · refine Fst.elim (by assumption) ?_
        exact State.goOn_keeps hM ‹_›
      · refine State.runStart_keeps hM ?_
        refine Fst.elim (by assumption) ?_
        exact State.goOn_keeps hM ‹_›
    · exact State.failStart_keeps hM ‹_›

theorem execWatchdog_keeps {P run s} (hM : Mobile P) (hs : P s) :
    ResAll P (execWatchdog run s) := by
  have hS := hM.stable
  unfold execWatchdog
  exact ResAll.next (ite_keeps (P := P) (State.faultStart_keeps hM (State.error_keeps hM ‹_›)) ‹_›)

/-- The level that the OTP is advanced to is never below the one blown. -/
theorem rollback_mono (s : State) (r : Nat) : s.boot.rollback ≤ BitVec.ofNat 7 (max s.rollbackLevel (min 64 r)) := by
  have hw : ∀ n : Fin 64, ((List.range 32).filter fun b => (Config.otpWord n).getLsbD b).length ≤ 32 :=
    fun n => Nat.le_trans (List.length_filter_le _ _) (by simp)
  have hb := s.boot.rollback.isLt
  have h1 : s.boot.rollback.toNat ≤ s.rollbackLevel := Nat.le_max_right _ _
  have h2 : s.rollbackLevel ≤ 127 :=
    Nat.max_le.mpr ⟨Nat.le_trans (Nat.add_le_add (hw 18) (hw 19)) (by decide), by omega⟩
  rw [BitVec.le_def, BitVec.toNat_ofNat]
  omega

theorem execSuccessWindowEnd_keeps {P s} (hS : Stable P) (hs : P s) :
    ResAll P (execSuccessWindowEnd s) := by
  unfold execSuccessWindowEnd
  refine ResAll.next (ite_keeps (P := P) ?_ hs)
  extract_lets b x level c
  refine Stable.upd hS rfl hs (List.suffix_refl _) id id id ?_ ?_
  · split
    · exact rollback_mono s _
    · exact rollback_mono s _
  · intro h
    have : b.key0Revoked = true := h
    split <;> simp [c, this]

theorem execPerstAssert_keeps {P s} (hM : Mobile P) (hs : P s) :
    ResAll P (execPerstAssert s) := by
  have hS := hM.stable
  unfold execPerstAssert
  extract_lets +onlyGivenNames x
  clear_value x
  extract_lets +onlyGivenNames x
  refine ResAll.next (ite_keeps (P := P) ?_ ?_)
  · assumption
  · split
    · exact Stable.upd hS rfl ‹_› (List.suffix_refl _) id id id (BitVec.le_refl _) id
    · exact State.perstNow_keeps hM ‹_›

theorem execFlr_keeps {P s} (hM : Mobile P) (hs : P s) :
    ResAll P (execFlr s) := by
  have hS := hM.stable
  unfold execFlr
  extract_lets +onlyGivenNames x
  exact ResAll.next (ite_keeps (P := P) ‹_› (ite_keeps (P := P) (Stable.upd hS rfl ‹_› (List.suffix_refl _) id id id (BitVec.le_refl _) id) (State.flrNow_keeps hM ‹_›)))

end Sys2Proof.Machine
end

