-- ==== Sys2Proof/Laws/KeepsCmdGeneral.lean ====
section
/-!
SUPPORT. What the operations and meanings of Machine/CmdGeneral.lean keep (see Laws/Follows.lean): steady ones any `Stable` property, the others any
`Mobile` one.
-/

set_option linter.tactic.unusedName false
set_option linter.unusedVariables false

namespace Sys2Proof.Machine

theorem execNop_keeps {P c s} (hM : Mobile P) (hs : P s) :
    ResAll P (execNop c s) := by
  have hS := hM.stable
  unfold execNop
  refine ResAll.next (State.command_keeps hM ?_ ?_)
  · assumption
  · intro a
    exact State.done_keeps hM ‹_›

theorem execIdentify_keeps {P c s} (hM : Mobile P) (hs : P s) :
    ResAll P (execIdentify c s) := by
  have hS := hM.stable
  unfold execIdentify
  extract_lets +onlyGivenNames x
  clear_value x
  refine ResAll.next (State.command_keeps hM ?_ ?_)
  · assumption
  · intro a
    exact State.done_keeps hM ‹_›

theorem execGetLimits_keeps {P c s} (hM : Mobile P) (hs : P s) :
    ResAll P (execGetLimits c s) := by
  have hS := hM.stable
  unfold execGetLimits
  extract_lets +onlyGivenNames x
  clear_value x
  refine ResAll.next ?_
  extract_lets +onlyGivenNames x
  refine State.command_keeps hM ?_ ?_
  · assumption
  · intro a
    extract_lets +onlyGivenNames x
    extract_lets +onlyGivenNames x
    exact ite_keeps (P := P) (State.done_keeps hM ‹_›) (State.done_keeps hM ‹_›)

theorem execEventRoute_keeps {P c s} (hM : Mobile P) (hs : P s) :
    ResAll P (execEventRoute c s) := by
  have hS := hM.stable
  unfold execEventRoute
  extract_lets +onlyGivenNames x
  clear_value x
  refine ResAll.next ?_
  extract_lets +onlyGivenNames x
  refine State.command_keeps hM ?_ ?_
  · assumption
  · intro a
    extract_lets +onlyGivenNames x
    clear_value x
    extract_lets +onlyGivenNames x
    subst x
    dsimp -zeta -zetaDelta only
    extract_lets +onlyGivenNames x
    subst x
    dsimp -zeta -zetaDelta only
    extract_lets +onlyGivenNames x
    clear_value x
    extract_lets +onlyGivenNames x
    refine cut_value (p := P x) ?_ ?_
    · subst x
      exact State.modInst_keeps hS ‹_›
    intro hx
    clear_value x
    exact State.done_keeps hM ‹_›

end Sys2Proof.Machine
end

