-- ==== Sys2Proof/Laws/KeepsErrors.lean ====
section
/-!
SUPPORT. What the operations and meanings of Machine/Errors.lean keep (see Laws/Follows.lean): steady ones any `Stable` property, the others any
`Mobile` one.
-/

set_option linter.tactic.unusedName false
set_option linter.unusedVariables false

namespace Sys2Proof.Machine

theorem State.ackRec_keeps {P s cat} (hS : Stable P) (hs : P s) :
    P (State.ackRec s cat) := by
  unfold State.ackRec
  extract_lets +onlyGivenNames x
  clear_value x
  split
  · assumption
  · extract_lets +onlyGivenNames x
    clear_value x
    exact Stable.upd hS rfl ‹_› (List.suffix_refl _) id id id (BitVec.le_refl _) id

theorem State.errAck_keeps {P s v} (hS : Stable P) (hs : P s) :
    P (State.errAck s v) := by
  unfold State.errAck
  extract_lets +onlyGivenNames x
  clear_value x
  split
  · assumption
  · exact ite_keeps (P := P) (State.ackRec_keeps hS ‹_›) ‹_›

theorem State.errFatalAck_keeps {P s v} (hS : Stable P) (hs : P s) :
    P (State.errFatalAck s v) := by
  unfold State.errFatalAck
  extract_lets +onlyGivenNames x
  clear_value x
  extract_lets +onlyGivenNames x
  clear_value x
  exact ite_keeps (P := P) (Stable.upd hS rfl ‹_› (List.suffix_refl _) id id id (BitVec.le_refl _) id) ‹_›

theorem State.ltrWrite_keeps {P s v} (hS : Stable P) (hs : P s) :
    P (State.ltrWrite s v) := by
  unfold State.ltrWrite
  extract_lets +onlyGivenNames x
  clear_value x
  extract_lets +onlyGivenNames x
  clear_value x
  extract_lets +onlyGivenNames x
  refine cut_value (p := P x) ?_ ?_
  · subst x
    exact State.setReg_keeps hS ‹_›
  intro hx
  clear_value x
  exact ite_keeps (P := P) (State.emit_keeps hS ‹_›) ‹_›

theorem State.stopCmd_keeps {P s v} (hM : Mobile P) (hs : P s) :
    P (State.stopCmd s v) := by
  have hS := hM.stable
  unfold State.stopCmd
  exact ite_keeps (P := P) ‹_› (ite_keeps (P := P) (State.stopTrigger_keeps hM ‹_›) ‹_›)

theorem execEngStopCmd_keeps {P v s} (hM : Mobile P) (hs : P s) :
    ResAll P (execEngStopCmd v s) := by
  have hS := hM.stable
  unfold execEngStopCmd
  exact ResAll.next (State.stopCmd_keeps hM ‹_›)

theorem execErrAck_keeps {P v s} (hS : Stable P) (hs : P s) :
    ResAll P (execErrAck v s) := by
  unfold execErrAck
  exact ResAll.next (State.errAck_keeps hS ‹_›)

theorem execErrFatalAck_keeps {P v s} (hS : Stable P) (hs : P s) :
    ResAll P (execErrFatalAck v s) := by
  unfold execErrFatalAck
  exact ResAll.next (State.errFatalAck_keeps hS ‹_›)

theorem execHifLtrWrite_keeps {P v s} (hS : Stable P) (hs : P s) :
    ResAll P (execHifLtrWrite v s) := by
  unfold execHifLtrWrite
  exact ResAll.next (State.ltrWrite_keeps hS ‹_›)

theorem execSupplyFault_keeps {P n s} (hM : Mobile P) (hs : P s) :
    ResAll P (execSupplyFault n s) := by
  have hS := hM.stable
  unfold execSupplyFault
  exact ResAll.next (State.error_keeps hM ‹_›)

theorem execSurpriseDown_keeps {P ltssm s} (hM : Mobile P) (hs : P s) :
    ResAll P (execSurpriseDown ltssm s) := by
  have hS := hM.stable
  unfold execSurpriseDown
  extract_lets +onlyGivenNames x
  clear_value x
  extract_lets +onlyGivenNames x
  refine cut_value (p := P x) ?_ ?_
  · subst x
    exact Stable.upd hS rfl ‹_› (List.suffix_refl _) id id id (BitVec.le_refl _) id
  intro hx
  clear_value x
  exact ResAll.next (ite_keeps (P := P) (State.error_keeps hM (State.setBit_keeps hS ‹_›)) ‹_›)

theorem execAerUncorrectable_keeps {P status s} (hM : Mobile P) (hs : P s) :
    ResAll P (execAerUncorrectable status s) := by
  have hS := hM.stable
  unfold execAerUncorrectable
  exact ResAll.next (State.error_keeps hM (State.setBit_keeps hS ‹_›))

theorem execLtrEnable_keeps {P s} (hS : Stable P) (hs : P s) :
    ResAll P (execLtrEnable s) := by
  unfold execLtrEnable
  extract_lets +onlyGivenNames x
  clear_value x
  exact ResAll.next (ite_keeps (P := P) ‹_› (State.emit_keeps hS (Stable.upd hS rfl ‹_› (List.suffix_refl _) id id id (BitVec.le_refl _) id)))

end Sys2Proof.Machine
end

