-- ==== Sys2Proof/Laws/KeepsCmdService.lean ====
section
/-!
SUPPORT. What the operations and meanings of Machine/CmdService.lean keep (see Laws/Follows.lean): steady ones any `Stable` property, the others any
`Mobile` one.
-/

set_option linter.tactic.unusedName false
set_option linter.unusedVariables false

namespace Sys2Proof.Machine

theorem State.perturbClear_keeps {P s} (hS : Stable P) (hs : P s) :
    P (State.perturbClear s) := by
  unfold State.perturbClear
  extract_lets +onlyGivenNames x
  refine cut_value (p := P x) ?_ ?_
  · subst x
    exact foldl_keeps (P := P) (fun a b h => (State.setReg_keeps hS ‹_›)) ‹_›
  intro hx
  clear_value x
  extract_lets +onlyGivenNames x
  refine cut_value (p := P x) ?_ ?_
  · subst x
    exact foldl_keeps (P := P) (fun a b h => (State.setReg_keeps hS ‹_›)) ‹_›
  intro hx
  clear_value x
  exact Stable.upd hS rfl ‹_› (List.suffix_refl _) id id id (BitVec.le_refl _) id

theorem State.perturbOff_keeps {P s ctl target} (hS : Stable P) (hs : P s) :
    P (State.perturbOff s ctl target) := by
  unfold State.perturbOff
  extract_lets +onlyGivenNames x
  clear_value x
  extract_lets +onlyGivenNames x
  clear_value x
  extract_lets +onlyGivenNames x
  clear_value x
  extract_lets +onlyGivenNames x
  clear_value x
  split
  · exact ite_keeps (P := P) (State.setReg_keeps hS ‹_›) (State.setFld_keeps hS ‹_›)
  · exact ite_keeps (P := P) (State.setReg_keeps hS ‹_›) ‹_›
  · exact ite_keeps (P := P) (State.setReg_keeps hS (State.setReg_keeps hS ‹_›)) ‹_›
  · exact ite_keeps (P := P) (State.setReg_keeps hS ‹_›) ‹_›
  · exact ite_keeps (P := P) (State.setReg_keeps hS (State.setReg_keeps hS ‹_›)) ‹_›
  · exact ite_keeps (P := P) (State.setReg_keeps hS ‹_›) (State.setFld_keeps hS ‹_›)

theorem State.perturbOn_keeps {P s ctl target v} (hS : Stable P) (hs : P s) :
    P (State.perturbOn s ctl target v) := by
  unfold State.perturbOn
  extract_lets +onlyGivenNames x
  clear_value x
  extract_lets +onlyGivenNames x
  clear_value x
  extract_lets +onlyGivenNames x
  clear_value x
  extract_lets +onlyGivenNames x
  refine cut_value (p := P x) ?_ ?_
  · subst x
    exact State.setFld_keeps hS (State.setFld_keeps hS (State.setFld_keeps hS ‹_›))
  intro hx
  clear_value x
  extract_lets +onlyGivenNames x
  refine cut_value (p := P x) ?_ ?_
  · subst x
    exact State.setFld_keeps hS (State.setFld_keeps hS ‹_›)
  intro hx
  clear_value x
  extract_lets +onlyGivenNames x
  refine cut_value (p := P x) ?_ ?_
  · subst x
    exact State.setFld_keeps hS (State.setFld_keeps hS ‹_›)
  intro hx
  clear_value x
  extract_lets +onlyGivenNames x
  clear_value x
  extract_lets +onlyGivenNames x
  refine cut_value (p := P x) ?_ ?_
  · subst x
    exact State.setFld_keeps hS (State.setFld_keeps hS ‹_›)
  intro hx
  clear_value x
  extract_lets +onlyGivenNames x
  clear_value x
  split
  · exact State.setFld_keeps hS (State.setFld_keeps hS ‹_›)
  · exact ite_keeps (P := P) (Stable.upd hS rfl ‹_› (List.suffix_refl _) id id id (BitVec.le_refl _) id) ‹_›
  · exact Stable.upd hS rfl ‹_› (List.suffix_refl _) id id id (BitVec.le_refl _) id
  · exact State.setFld_keeps hS (State.setFld_keeps hS (State.setFld_keeps hS ‹_›))
  · exact State.setFld_keeps hS (State.setFld_keeps hS ‹_›)
  · exact State.setFld_keeps hS (State.setFld_keeps hS ‹_›)
  · assumption

theorem State.traceEnable_keeps {P s on} (hS : Stable P) (hs : P s) :
    P (State.traceEnable s on) := by
  unfold State.traceEnable
  extract_lets +onlyGivenNames x
  clear_value x
  extract_lets +onlyGivenNames x
  refine cut_value (p := P x) ?_ ?_
  · subst x
    exact State.setFld_keeps hS ‹_›
  intro hx
  clear_value x
  exact ite_keeps (P := P) (State.setFld_keeps hS ‹_›) ‹_›

theorem State.trcCtrlWrite_keeps {P s v} (hM : Mobile P) (hs : P s) :
    P (State.trcCtrlWrite s v) := by
  have hS := hM.stable
  unfold State.trcCtrlWrite
  extract_lets +onlyGivenNames x
  clear_value x
  extract_lets +onlyGivenNames x
  refine cut_value (p := P x) ?_ ?_
  · subst x
    exact State.writeFields_keeps hM ‹_›
  intro hx
  clear_value x
  exact ite_keeps (P := P) (State.setFld_keeps hS ‹_›) ‹_›

theorem execErrlogRead_keeps {P c s} (hM : Mobile P) (hs : P s) :
    ResAll P (execErrlogRead c s) := by
  have hS := hM.stable
  unfold execErrlogRead
  refine ResAll.next ?_
  extract_lets +onlyGivenNames x
  refine State.command_keeps hM ?_ ?_
  · assumption
  · intro a
    extract_lets +onlyGivenNames x
    clear_value x
    extract_lets +onlyGivenNames x
    clear_value x
    exact State.done_keeps hM (ite_keeps (P := P) (State.ackRec_keeps hS ‹_›) ‹_›)

theorem execTraceConfig_keeps {P c s} (hM : Mobile P) (hs : P s) :
    ResAll P (execTraceConfig c s) := by
  have hS := hM.stable
  unfold execTraceConfig
  extract_lets +onlyGivenNames x
  subst x
  dsimp -zeta -zetaDelta only
  extract_lets +onlyGivenNames x
  refine cut_value (p := P x) ?_ ?_
  · subst x
    exact State.traceEnable_keeps hS ‹_›
  intro hx
  clear_value x
  refine ResAll.next ?_
  extract_lets +onlyGivenNames x
  refine State.command_keeps hM ?_ ?_
  · assumption
  · intro a
    extract_lets +onlyGivenNames x
    refine cut_value (p := P x) ?_ ?_
    · subst x
      exact State.setFld_keeps hS (State.setFld_keeps hS (State.setFld_keeps hS ‹_›))
    intro hx
    clear_value x
    extract_lets +onlyGivenNames x
    refine cut_value (p := P x) ?_ ?_
    · subst x
      exact ite_keeps (P := P) (State.setReg_keeps hS (State.setReg_keeps hS (State.setFld_keeps hS ‹_›))) ‹_›
    intro hx
    clear_value x
    extract_lets +onlyGivenNames x
    refine cut_value (p := P x) ?_ ?_
    · subst x
      exact State.setFld_keeps hS (State.setFld_keeps hS ‹_›)
    intro hx
    clear_value x
    extract_lets +onlyGivenNames x
    refine cut_value (p := P x) ?_ ?_
    · subst x
      exact State.setFld_keeps hS (State.setFld_keeps hS ‹_›)
    intro hx
    clear_value x
    extract_lets +onlyGivenNames x
    refine cut_value (p := P x) ?_ ?_
    · subst x
      exact State.setReg_keeps hS ‹_›
    intro hx
    clear_value x
    exact State.done_keeps hM (State.traceEnable_keeps hS ‹_›)

theorem execPerturbSet_keeps {P c s} (hM : Mobile P) (hs : P s) :
    ResAll P (execPerturbSet c s) := by
  have hS := hM.stable
  unfold execPerturbSet
  extract_lets +onlyGivenNames x
  clear_value x
  refine ResAll.next ?_
  extract_lets +onlyGivenNames x
  refine State.command_keeps hM ?_ ?_
  · assumption
  · intro a
    extract_lets +onlyGivenNames x
    clear_value x
    extract_lets +onlyGivenNames x
    refine cut_value (p := P x) ?_ ?_
    · subst x
      exact ite_keeps (P := P) (State.perturbClear_keeps hS ‹_›) (ite_keeps (P := P) (State.perturbOn_keeps hS ‹_›) (State.perturbOff_keeps hS ‹_›))
    intro hx
    clear_value x
    extract_lets +onlyGivenNames x
    refine cut_value (p := P x) ?_ ?_
    · subst x
      exact State.ptbRefresh_keeps hM ‹_›
    intro hx
    clear_value x
    exact State.done_keeps hM ‹_›

theorem execSelftest_keeps {P c fails s} (hM : Mobile P) (hs : P s) :
    ResAll P (execSelftest c fails s) := by
  have hS := hM.stable
  unfold execSelftest
  refine ResAll.next ?_
  extract_lets +onlyGivenNames x
  refine State.command_keeps hM ?_ ?_
  · assumption
  · intro a
    extract_lets +onlyGivenNames x
    clear_value x
    extract_lets +onlyGivenNames x
    clear_value x
    exact ite_keeps (P := P) (State.done_keeps hM ‹_›) (State.done_keeps hM ‹_›)

end Sys2Proof.Machine
end

