-- ==== Sys2Proof/Laws/KeepsFlowCmd.lean ====
section
/-!
SUPPORT. What the operations and meanings of Machine/FlowCmd.lean keep (see Laws/Follows.lean): steady ones any `Stable` property, the others any
`Mobile` one.
-/

set_option linter.tactic.unusedName false
set_option linter.unusedVariables false

namespace Sys2Proof.Machine

theorem State.admitOpen_keeps {P s c t ty n safe} (hS : Stable P) (hs : P s) :
    ExcAll (Fst P) (State.admitOpen s c t ty n safe) := by
  unfold State.admitOpen
  extract_lets +onlyGivenNames x
  clear_value x
  split
  · exact ExcAll.error
  · refine ite_keeps (P := ExcAll (Fst P)) ?_ ?_
    · exact ExcAll.error
    · extract_lets +onlyGivenNames x
      split
      · exact ExcAll.error
      · extract_lets +onlyGivenNames x
        clear_value x
        refine ite_keeps (P := ExcAll (Fst P)) ?_ ?_
        · refine ExcAll.map (fun a e => (Fst.mk ?_))
          refine ExcAll.elim (by assumption) ?_
          refine State.openScheduled_keeps hS ?_
          refine OptAll.snd (by assumption) ?_
          refine State.takeNumber_keeps hS ?_
          refine OptAll.snd (by assumption) ?_
          exact State.takeContext_keeps hS ‹_›
        · refine ExcAll.ok (Fst.mk (State.putFlow_keeps hS ?_))
          refine OptAll.snd (by assumption) ?_
          refine State.takeNumber_keeps hS ?_
          refine OptAll.snd (by assumption) ?_
          exact State.takeContext_keeps hS ‹_›

theorem State.checkEntry_keeps {P s i t} (hS : Stable P) (hs : P s) :
    ExcAll P (State.checkEntry s i t) := by
  unfold State.checkEntry
  extract_lets +onlyGivenNames x
  clear_value x
  refine ite_keeps (P := ExcAll P) ?_ ?_
  · extract_lets +onlyGivenNames x
    split
    · exact ExcAll.error
    · exact ExcAll.error
    · split
      · exact ExcAll.error
      · extract_lets +onlyGivenNames x
        clear_value x
        extract_lets +onlyGivenNames x
        clear_value x
        extract_lets +onlyGivenNames x
        clear_value x
        exact ite_keeps (P := ExcAll P) (ExcAll.ok (State.putFlow_keeps hS ‹_›)) (ExcAll.ok ‹_›)
  · refine ite_keeps (P := ExcAll P) ?_ ?_
    · split
      · exact ExcAll.error
      · exact ExcAll.error
      · exact ite_keeps (P := ExcAll P) ExcAll.error (ExcAll.ok (State.modFlow_keeps hS ‹_›))
    · refine ite_keeps (P := ExcAll P) ?_ ?_
      · split
        · exact ExcAll.error
        · exact ExcAll.error
        · exact ite_keeps (P := ExcAll P) ExcAll.error (ExcAll.ok (State.modFlow_keeps hS ‹_›))
      · exact ExcAll.error

theorem State.checkList_keeps {P i a_1 a_2 a_3} (hS : Stable P) (ha_3 : P a_3) :
    ExcAll P (State.checkList i a_1 a_2 a_3) := by
  induction a_1 generalizing a_2 a_3 with
  | nil => exact ExcAll.ok ha_3
  | cons t ts ih =>
    unfold State.checkList
    split
    · exact ExcAll.error
    · exact ih (ExcAll.elim ‹_› (State.checkEntry_keeps hS ha_3))

theorem State.clearHalt_keeps {P s n ep a_3} (hM : Mobile P) (hs : P s) :
    Fst P (State.clearHalt s n ep a_3) := by
  have hS := hM.stable
  unfold State.clearHalt
  extract_lets +onlyGivenNames x
  clear_value x
  extract_lets +onlyGivenNames x
  clear_value x
  exact Fst.mk (ite_keeps (P := P) (State.firmwareDoes_keeps hM ‹_›) (State.firmwareSends_keeps hS ‹_›))

theorem State.closeNow_keeps {P s c ctx f} (hM : Mobile P) (hs : P s) :
    P (State.closeNow s c ctx f) := by
  have hS := hM.stable
  unfold State.closeNow
  extract_lets +onlyGivenNames x
  clear_value x
  extract_lets +onlyGivenNames x
  refine cut_value (p := P x) ?_ ?_
  · subst x
    exact State.modFlow_keeps hS (State.cancelTask_keeps hM ‹_›)
  intro hx
  clear_value x
  extract_lets +onlyGivenNames x
  refine cut_value (p := P x) ?_ ?_
  · subst x
    exact State.finishAll_keeps hM ‹_›
  intro hx
  clear_value x
  extract_lets +onlyGivenNames x
  refine cut_value (p := P x) ?_ ?_
  · subst x
    exact State.wait_keeps hS ‹_›
  intro hx
  clear_value x
  exact ite_keeps (P := P) (State.closeCmds_keeps hM (State.freeContext_keeps hM ‹_›)) ‹_›

theorem State.flowCommand_keeps {P s c fr more closing act} (hM : Mobile P) (hs : P s) (hact : ∀ u0 u1 u2, P (act u0 u1 u2)) :
    P (State.flowCommand s c fr more closing act) := by
  have hS := hM.stable
  unfold State.flowCommand
  refine State.command_keeps hM ?_ ?_
  · assumption
  · intro a
    split
    · assumption
    · refine ite_keeps (P := P) ?_ ?_
      · exact State.done_keeps hM ‹_›
      · apply hact

theorem State.flowOpenAct_keeps {P s c t ty safe a_5} (hM : Mobile P) (hs : P s) :
    P (State.flowOpenAct s c t ty safe a_5) := by
  have hS := hM.stable
  unfold State.flowOpenAct
  extract_lets +onlyGivenNames x
  clear_value x
  extract_lets +onlyGivenNames x
  clear_value x
  extract_lets +onlyGivenNames x
  clear_value x
  split
  · split
    · exact State.done_keeps hM ‹_›
    · exact State.done_keeps hM ‹_›
  · split
    · exact State.done_keeps hM ‹_›
    · extract_lets +onlyGivenNames x
      refine cut_value (p := P x) ?_ ?_
      · subst x
        refine Fst.out (State.clearHalt_keeps hM ?_)
        refine ExcAll.fst (by assumption) ?_
        exact State.admitOpen_keeps hS ‹_›
      intro hx
      clear_value x
      split
      · exact ite_keeps (P := P) (State.wait_keeps hS ‹_›) (State.done_keeps hM ‹_›)
      · exact State.done_keeps hM (Fst.out (State.clearHalt_keeps hM ‹_›))
      · exact State.done_keeps hM (Fst.out (State.clearHalt_keeps hM ‹_›))

theorem State.freeBelow_keeps {P s n} (hS : Stable P) (hs : P s) :
    Snd P (State.freeBelow s n) := by
  unfold State.freeBelow
  extract_lets +onlyGivenNames x
  refine cut_value (p := Snd P x) ?_ ?_
  · subst x
    exact State.freeWord_keeps hS ‹_›
  intro hx
  clear_value x
  exact Snd.mk (Snd.out ‹_›)

theorem State.modifyNow_keeps {P s ctx t safe} (hS : Stable P) (hs : P s) :
    P (State.modifyNow s ctx t safe) := by
  unfold State.modifyNow
  extract_lets +onlyGivenNames x
  subst x
  dsimp -zeta -zetaDelta only
  exact State.modFlow_keeps hS ‹_›

theorem State.modifyAct_keeps {P s c t ctx f safe} (hM : Mobile P) (hs : P s) :
    P (State.modifyAct s c t ctx f safe) := by
  have hS := hM.stable
  unfold State.modifyAct
  extract_lets +onlyGivenNames x
  clear_value x
  extract_lets +onlyGivenNames x
  refine cut_value (p := P x) ?_ ?_
  · subst x
    exact State.modFlow_keeps hS ‹_›
  intro hx
  clear_value x
  refine ite_keeps (P := P) ?_ ?_
  · split
    · exact State.done_keeps hM ‹_›
    · exact State.wait_keeps hS (State.modifyNow_keeps hS (State.planAgain_keeps hS ‹_›))
  · exact State.done_keeps hM (State.modifyNow_keeps hS ‹_›)

theorem State.readdress_keeps {P s n a_2} (hS : Stable P) (hs : P s) :
    P (State.readdress s n a_2) := by
  unfold State.readdress
  exact ite_keeps (P := P) ‹_› (Stable.upd hS rfl ‹_› (List.suffix_refl _) id id id (BitVec.le_refl _) id)

theorem State.xferResult_keeps {P s c length st} (hM : Mobile P) (hs : P s) :
    P (State.xferResult s c length st) := by
  have hS := hM.stable
  unfold State.xferResult
  extract_lets +onlyGivenNames x
  refine cut_value (p := Snd P x) ?_ ?_
  · subst x
    exact State.freeBelow_keeps hS ‹_›
  intro hx
  clear_value x
  extract_lets +onlyGivenNames x
  clear_value x
  exact State.done_keeps hM (Snd.out ‹_›)

theorem State.xferLasting_keeps {P s c q} (hM : Mobile P) (hs : P s) :
    P (State.xferLasting s c q) := by
  have hS := hM.stable
  unfold State.xferLasting
  extract_lets +onlyGivenNames x
  refine cut_value (p := Snd P x) ?_ ?_
  · subst x
    exact State.freeBelow_keeps hS ‹_›
  intro hx
  clear_value x
  exact State.xferResult_keeps hM (Snd.out ‹_›)

theorem anyWords_keeps {P a_0 a_1} (hS : Stable P) (ha_1 : P a_1) :
    Snd P (anyWords a_0 a_1) := by
  induction a_0 generalizing a_1 with
  | zero => exact Snd.mk ha_1
  | succ n ih => exact Snd.mk (Snd.out (ih (Snd.out (State.freeWord_keeps hS ha_1))))

theorem State.xferData_keeps {P s c t q ws} (hM : Mobile P) (hs : P s) :
    P (State.xferData s c t q ws) := by
  have hS := hM.stable
  unfold State.xferData
  extract_lets +onlyGivenNames x
  refine cut_value (p := P x) ?_ ?_
  · subst x
    exact ite_keeps (P := P) (State.postBytes_keeps hS ‹_›) ‹_›
  intro hx
  clear_value x
  exact State.xferResult_keeps hM ‹_›

theorem State.xferVendor_keeps {P s c t q a_4} (hM : Mobile P) (hs : P s) :
    P (State.xferVendor s c t q a_4) := by
  have hS := hM.stable
  unfold State.xferVendor
  extract_lets +onlyGivenNames x
  refine cut_value (p := Snd P x) ?_ ?_
  · subst x
    exact State.freeBelow_keeps hS ‹_›
  intro hx
  clear_value x
  extract_lets +onlyGivenNames x
  refine cut_value (p := Snd P x) ?_ ?_
  · subst x
    exact ite_keeps (P := Snd P) (anyWords_keeps hS (Snd.out ‹_›)) (Snd.mk (Snd.out ‹_›))
  intro hx
  clear_value x
  split
  · exact State.xferData_keeps hM (Snd.out ‹_›)
  · exact State.xferResult_keeps hM ‹_›

theorem State.xferPerformed_keeps {P s n} (hS : Stable P) (hs : P s) :
    P (State.xferPerformed s n) := by
  unfold State.xferPerformed
  extract_lets +onlyGivenNames x
  refine cut_value (p := P x) ?_ ?_
  · subst x
    exact State.modDev_keeps hS ‹_›
  intro hx
  clear_value x
  split
  · exact State.readdress_keeps hS ‹_›
  · assumption

theorem State.runXfer_keeps {P s c t n q data a_6} (hM : Mobile P) (hs : P s) :
    P (State.runXfer s c t n q data a_6) := by
  have hS := hM.stable
  unfold State.runXfer
  extract_lets +onlyGivenNames x
  refine cut_value (p := P x) ?_ ?_
  · subst x
    exact ite_keeps (P := P) (State.firmwareSends_keeps hS ‹_›) ‹_›
  intro hx
  clear_value x
  split
  · split
    extract_lets +onlyGivenNames x
    clear_value x
    refine State.xferLasting_keeps hM ?_
    split
    · refine ite_keeps (P := P) ?_ ?_
      · refine OptAll.fst (by assumption) ?_
        refine State.request_keeps hM ?_
        refine Snd.elim (by assumption) ?_
        exact State.freeBool_keeps hS ‹_›
      · refine Snd.elim (by assumption) ?_
        exact State.freeBool_keeps hS ‹_›
    · refine Snd.elim (by assumption) ?_
      exact State.freeBool_keeps hS ‹_›
  · exact State.xferLasting_keeps hM ‹_›
  · refine ite_keeps (P := P) ?_ ?_
    · exact State.xferVendor_keeps hM ‹_›
    · split
      · exact State.xferData_keeps hM (State.xferPerformed_keeps hS ‹_›)
      · exact State.xferResult_keeps hM ‹_›
      · split
        · refine State.xferData_keeps hM (State.xferPerformed_keeps hS ?_)
          refine OptAll.fst (by assumption) ?_
          exact State.request_keeps hM ‹_›
        · exact State.xferResult_keeps hM ‹_›

theorem State.setRan_keeps {P s c r} (hS : Stable P) (hs : P s) :
    P (State.setRan s c r) := by
  unfold State.setRan
  exact State.modTaken_keeps hS ‹_›

theorem State.unholdAct_keeps {P s c ctx} (hM : Mobile P) (hs : P s) :
    P (State.unholdAct s c ctx) := by
  have hS := hM.stable
  unfold State.unholdAct
  extract_lets +onlyGivenNames x
  refine cut_value (p := P x) ?_ ?_
  · subst x
    exact State.modFlow_keeps hS ‹_›
  intro hx
  clear_value x
  split
  · assumption
  · extract_lets +onlyGivenNames x
    clear_value x
    extract_lets +onlyGivenNames x
    refine cut_value (p := P x) ?_ ?_
    · subst x
      exact State.modFlow_keeps hS ‹_›
    intro hx
    clear_value x
    exact ite_keeps (P := P) (State.wait_keeps hS (State.planAgain_keeps hS ‹_›)) (State.done_keeps hM (State.setCauses_keeps hM ‹_›))

theorem State.xferCommand_keeps {P s c act} (hM : Mobile P) (hs : P s) (hact : ∀ u0 u1, P (act u0 u1)) :
    P (State.xferCommand s c act) := by
  have hS := hM.stable
  unfold State.xferCommand
  refine State.command_keeps hM ?_ ?_
  · assumption
  · intro a
    split
    · exact State.done_keeps hM ‹_›
    · refine ite_keeps (P := P) ?_ ?_
      · exact State.done_keeps hM ‹_›
      · apply hact

theorem State.xferGoes_keeps {P s c n q data} (hM : Mobile P) (hs : P s) :
    P (State.xferGoes s c n q data) := by
  have hS := hM.stable
  unfold State.xferGoes
  extract_lets +onlyGivenNames x
  refine cut_value (p := P x) ?_ ?_
  · subst x
    exact State.setRan_keeps hS (State.firmwareSends_keeps hS ‹_›)
  intro hx
  clear_value x
  split
  split
  · refine ite_keeps (P := P) ?_ ?_
    · refine Snd.elim (by assumption) ?_
      exact State.freeBool_keeps hS ‹_›
    · split
      · refine State.setRan_keeps hS ?_
        refine OptAll.fst (by assumption) ?_
        refine State.request_keeps hM ?_
        refine Snd.elim (by assumption) ?_
        exact State.freeBool_keeps hS ‹_›
      · refine State.setRan_keeps hS ?_
        refine Snd.elim (by assumption) ?_
        exact State.freeBool_keeps hS ‹_›
  · refine Snd.elim (by assumption) ?_
    exact State.freeBool_keeps hS ‹_›

theorem execFlowOpen_keeps {P c safe e a_3 s} (hM : Mobile P) (hs : P s) :
    ResAll P (execFlowOpen c safe e a_3 s) := by
  have hS := hM.stable
  unfold execFlowOpen
  extract_lets +onlyGivenNames x
  subst x
  dsimp -zeta -zetaDelta only
  extract_lets +onlyGivenNames x
  clear_value x
  refine guarded_keeps hS ?_
  extract_lets +onlyGivenNames x
  refine State.command_keeps hM ?_ ?_
  · assumption
  · intro a
    extract_lets +onlyGivenNames x
    refine cut_value (p := P x) ?_ ?_
    · subst x
      exact State.cmdRead_keeps hM ‹_›
    intro hx
    clear_value x
    split
    · assumption
    · exact ite_keeps (P := P) (State.flowOpenAct_keeps hM ‹_›) (ite_keeps (P := P) (State.flowOpenAct_keeps hM ‹_›) (State.done_keeps hM ‹_›))

theorem execFlowClose_keeps {P c s} (hM : Mobile P) (hs : P s) :
    ResAll P (execFlowClose c s) := by
  have hS := hM.stable
  unfold execFlowClose
  refine ResAll.next (State.flowCommand_keeps hM ?_ ?_)
  · assumption
  · intro a
    intro a
    intro a
    exact ite_keeps (P := P) (State.wait_keeps hS (State.closeScheduled_keeps hS ‹_›)) (State.closeNow_keeps hM ‹_›)

theorem execFlowModify_keeps {P c safe e s} (hM : Mobile P) (hs : P s) :
    ResAll P (execFlowModify c safe e s) := by
  have hS := hM.stable
  unfold execFlowModify
  extract_lets +onlyGivenNames x
  subst x
  dsimp -zeta -zetaDelta only
  extract_lets +onlyGivenNames x
  clear_value x
  refine guarded_keeps hS ?_
  extract_lets +onlyGivenNames x
  refine State.flowCommand_keeps hM ?_ ?_
  · assumption
  · intro a
    intro a
    intro a
    extract_lets +onlyGivenNames x
    split
    · exact State.modifyAct_keeps hM ‹_›
    · extract_lets +onlyGivenNames x
      refine cut_value (p := P x) ?_ ?_
      · subst x
        exact State.cmdRead_keeps hM ‹_›
      intro hx
      clear_value x
      exact ite_keeps (P := P) (State.modifyAct_keeps hM ‹_›) (State.done_keeps hM ‹_›)

theorem execFlowQuery_keeps {P c s} (hM : Mobile P) (hs : P s) :
    ResAll P (execFlowQuery c s) := by
  have hS := hM.stable
  unfold execFlowQuery
  refine ResAll.next (State.flowCommand_keeps hM ?_ ?_)
  · assumption
  · intro a
    intro a
    intro a
    exact State.done_keeps hM ‹_›

theorem execPlanCheck_keeps {P c list e s} (hM : Mobile P) (hs : P s) :
    ResAll P (execPlanCheck c list e s) := by
  have hS := hM.stable
  unfold execPlanCheck
  extract_lets +onlyGivenNames x
  clear_value x
  refine guarded_keeps hS ?_
  extract_lets +onlyGivenNames x
  refine State.command_keeps hM ?_ ?_
  · assumption
  · intro a
    extract_lets +onlyGivenNames x
    refine cut_value (p := P x) ?_ ?_
    · subst x
      exact State.cmdRead_keeps hM ‹_›
    intro hx
    clear_value x
    extract_lets +onlyGivenNames x
    clear_value x
    refine ite_keeps (P := P) ?_ ?_
    · exact State.done_keeps hM ‹_›
    · split
      · exact State.done_keeps hM ‹_›
      · split
        · exact State.done_keeps hM ‹_›
        · exact State.done_keeps hM ‹_›

theorem execFlowHold_keeps {P c s} (hM : Mobile P) (hs : P s) :
    ResAll P (execFlowHold c s) := by
  have hS := hM.stable
  unfold execFlowHold
  refine ResAll.next ?_
  extract_lets +onlyGivenNames x
  refine State.flowCommand_keeps hM ?_ ?_
  · assumption
  · intro a
    intro a
    intro a
    extract_lets +onlyGivenNames x
    clear_value x
    exact State.done_keeps hM (State.setCauses_keeps hM ‹_›)

theorem execFlowUnhold_keeps {P c a_1 s} (hM : Mobile P) (hs : P s) :
    ResAll P (execFlowUnhold c a_1 s) := by
  have hS := hM.stable
  unfold execFlowUnhold
  refine ResAll.next ?_
  extract_lets +onlyGivenNames x
  refine State.flowCommand_keeps hM ?_ ?_
  · assumption
  · intro a
    intro a
    intro a
    extract_lets +onlyGivenNames x
    refine ite_keeps (P := P) ?_ ?_
    · extract_lets +onlyGivenNames x
      split
      · exact State.done_keeps hM ‹_›
      · extract_lets +onlyGivenNames x
        refine cut_value (p := Fst P x) ?_ ?_
        · subst x
          exact State.clearHalt_keeps hM ‹_›
        intro hx
        clear_value x
        split
        · exact State.unholdAct_keeps hM (Fst.out ‹_›)
        · exact ite_keeps (P := P) (State.done_keeps hM (Fst.out ‹_›)) (State.done_keeps hM (Fst.out ‹_›))
    · exact State.unholdAct_keeps hM ‹_›

theorem execControlXfer_keeps {P c data e a_3 s} (hM : Mobile P) (hs : P s) :
    ResAll P (execControlXfer c data e a_3 s) := by
  have hS := hM.stable
  unfold execControlXfer
  extract_lets +onlyGivenNames x
  subst x
  dsimp -zeta -zetaDelta only
  refine guarded_keeps hS ?_
  extract_lets +onlyGivenNames x
  refine State.xferCommand_keeps hM ?_ ?_
  · assumption
  · intro a
    intro a
    extract_lets +onlyGivenNames x
    subst x
    dsimp -zeta -zetaDelta only
    extract_lets +onlyGivenNames x
    clear_value x
    split
    · split
      · exact State.runXfer_keeps hM ‹_›
      · exact ite_keeps (P := P) (State.xferGoes_keeps hM ‹_›) ‹_›
    · extract_lets +onlyGivenNames x
      refine cut_value (p := P x) ?_ ?_
      · subst x
        exact State.cmdRead_keeps hM ‹_›
      intro hx
      clear_value x
      refine ite_keeps (P := P) ?_ ?_
      · split
        · exact State.runXfer_keeps hM ‹_›
        · exact ite_keeps (P := P) (State.xferGoes_keeps hM ‹_›) ‹_›
      · exact State.done_keeps hM ‹_›

theorem execControlXferTimeout_keeps {P c s} (hM : Mobile P) (hs : P s) :
    ResAll P (execControlXferTimeout c s) := by
  have hS := hM.stable
  unfold execControlXferTimeout
  refine ResAll.next (State.xferCommand_keeps hM ?_ ?_)
  · assumption
  · intro a
    intro a
    exact State.xferLasting_keeps hM ‹_›

end Sys2Proof.Machine
end

