-- ==== Sys2Proof/Laws/KeepsTimeCmd.lean ====
section
/-!
SUPPORT. What the operations and meanings of Machine/TimeCmd.lean keep (see Laws/Follows.lean): steady ones any `Stable` property, the others any
`Mobile` one.
-/

set_option linter.tactic.unusedName false
set_option linter.unusedVariables false

namespace Sys2Proof.Machine

theorem State.bindSource_keeps {P s src n k} (hS : Stable P) (hs : P s) :
    OptAll (ExcAll P) (State.bindSource s src n k) := by
  unfold State.bindSource
  extract_lets +onlyGivenNames x
  clear_value x
  exact ite_keeps (P := OptAll (ExcAll P)) OptAll.none (OptAll.some (State.openService_keeps hS (State.closeService_keeps hS ‹_›)))

theorem State.dropSource_keeps {P s kind src} (hS : Stable P) (hs : P s) :
    P (State.dropSource s kind src) := by
  unfold State.dropSource
  exact ite_keeps (P := P) (State.closeService_keeps hS ‹_›) ‹_›

theorem State.paceSet_keeps {P s t} (hS : Stable P) (hs : P s) :
    P (State.paceSet s t) := by
  unfold State.paceSet
  extract_lets +onlyGivenNames x
  clear_value x
  extract_lets +onlyGivenNames x
  clear_value x
  extract_lets +onlyGivenNames x
  clear_value x
  extract_lets +onlyGivenNames x
  refine cut_value (p := P x) ?_ ?_
  · subst x
    exact ite_keeps (P := P) (State.modEst_keeps hS (State.settleReleases_keeps hS ‹_›)) ‹_›
  intro hx
  clear_value x
  extract_lets +onlyGivenNames x
  refine cut_value (p := P x) ?_ ?_
  · subst x
    exact State.shadow_keeps hS (State.shadow_keeps hS ‹_›)
  intro hx
  clear_value x
  extract_lets +onlyGivenNames x
  refine cut_value (p := P x) ?_ ?_
  · subst x
    exact foldl_keeps (P := P) (fun a b h => (State.setFld_keeps hS ‹_›)) ‹_›
  intro hx
  clear_value x
  extract_lets +onlyGivenNames x
  refine cut_value (p := P x) ?_ ?_
  · subst x
    exact State.setFld_keeps hS (State.setFld_keeps hS (State.setFld_keeps hS ‹_›))
  intro hx
  clear_value x
  extract_lets +onlyGivenNames x
  refine cut_value (p := P x) ?_ ?_
  · subst x
    exact State.setFld_keeps hS (State.setFld_keeps hS (State.setFld_keeps hS ‹_›))
  intro hx
  clear_value x
  exact ite_keeps (P := P) ‹_› (State.applyPace_keeps hS ‹_›)

theorem State.paceConfigAct_keeps {P s c t} (hM : Mobile P) (hs : P s) :
    P (State.paceConfigAct s c t) := by
  have hS := hM.stable
  unfold State.paceConfigAct
  extract_lets +onlyGivenNames x
  extract_lets +onlyGivenNames x
  clear_value x
  extract_lets +onlyGivenNames x
  clear_value x
  extract_lets +onlyGivenNames x
  subst x
  dsimp -zeta -zetaDelta only
  extract_lets +onlyGivenNames x
  refine cut_value (p := P x) ?_ ?_
  · subst x
    exact State.dropSource_keeps hS (State.paceSet_keeps hS ‹_›)
  intro hx
  clear_value x
  refine ite_keeps (P := P) ?_ ?_
  · extract_lets +onlyGivenNames x
    split
    · exact State.done_keeps hM ‹_›
    · split
      · exact State.done_keeps hM ‹_›
      · exact State.done_keeps hM ‹_›
      · extract_lets +onlyGivenNames x
        refine cut_value (p := P x) ?_ ?_
        · subst x
          refine State.dropSource_keeps hS (State.paceSet_keeps hS ?_)
          refine OptAll.exc (by assumption) ?_
          exact State.bindSource_keeps hS ‹_›
        intro hx
        clear_value x
        exact State.wait_keeps hS ‹_›
  · exact State.done_keeps hM ‹_›

theorem State.stepTo_keeps {P s v} (hM : Mobile P) (hs : P s) :
    Fst P (State.stepTo s v) := by
  have hS := hM.stable
  unfold State.stepTo
  extract_lets +onlyGivenNames x
  clear_value x
  exact ite_keeps (P := Fst P) (Fst.mk (Stable.upd hS rfl ‹_› (List.suffix_refl _) id id id (BitVec.le_refl _) id)) (Fst.mk (State.applyStep_keeps hM ‹_›))

theorem execTimeGet_keeps {P c s} (hM : Mobile P) (hs : P s) :
    ResAll P (execTimeGet c s) := by
  have hS := hM.stable
  unfold execTimeGet
  refine ResAll.next (State.command_keeps hM ?_ ?_)
  · assumption
  · intro a
    exact State.done_keeps hM ‹_›

theorem execTimeAdjust_keeps {P c s} (hM : Mobile P) (hs : P s) :
    ResAll P (execTimeAdjust c s) := by
  have hS := hM.stable
  unfold execTimeAdjust
  refine ResAll.next ?_
  extract_lets +onlyGivenNames x
  refine State.command_keeps hM ?_ ?_
  · assumption
  · intro a
    extract_lets +onlyGivenNames x
    refine cut_value (p := P x) ?_ ?_
    · subst x
      exact State.startSlew_keeps hM ‹_›
    intro hx
    clear_value x
    refine ite_keeps (P := P) ?_ ?_
    · refine ite_keeps (P := P) ?_ ?_
      · exact State.done_keeps hM ‹_›
      · split
        refine State.done_keeps hM ?_
        refine Fst.elim (by assumption) ?_
        exact State.stepTo_keeps hM ‹_›
    · exact State.done_keeps hM ‹_›

theorem execTimeSource_keeps {P c s} (hM : Mobile P) (hs : P s) :
    ResAll P (execTimeSource c s) := by
  have hS := hM.stable
  unfold execTimeSource
  refine ResAll.next ?_
  extract_lets +onlyGivenNames x
  refine State.command_keeps hM ?_ ?_
  · assumption
  · intro a
    extract_lets +onlyGivenNames x
    clear_value x
    extract_lets +onlyGivenNames x
    clear_value x
    extract_lets +onlyGivenNames x
    refine cut_value (p := P x) ?_ ?_
    · subst x
      exact State.setFld_keeps hS (State.setFld_keeps hS ‹_›)
    intro hx
    clear_value x
    exact ite_keeps (P := P) (State.done_keeps hM ‹_›) (State.done_keeps hM (State.setSource_keeps hM ‹_›))

theorem execPaceConfig_keeps {P c s} (hM : Mobile P) (hs : P s) :
    ResAll P (execPaceConfig c s) := by
  have hS := hM.stable
  unfold execPaceConfig
  refine ResAll.next (State.command_keeps hM ?_ ?_)
  · assumption
  · intro a
    exact State.paceConfigAct_keeps hM ‹_›

theorem execPaceQuery_keeps {P c s} (hM : Mobile P) (hs : P s) :
    ResAll P (execPaceQuery c s) := by
  have hS := hM.stable
  unfold execPaceQuery
  refine ResAll.next (State.command_keeps hM ?_ ?_)
  · assumption
  · intro a
    exact State.done_keeps hM ‹_›

theorem execCourseConfig_keeps {P c s} (hM : Mobile P) (hs : P s) :
    ResAll P (execCourseConfig c s) := by
  have hS := hM.stable
  unfold execCourseConfig
  refine ResAll.next (State.command_keeps hM ?_ ?_)
  · assumption
  · intro a
    refine ite_keeps (P := P) ?_ ?_
    · exact State.done_keeps hM ‹_›
    · refine ite_keeps (P := P) ?_ ?_
      · exact State.done_keeps hM ‹_›
      · split
        · exact State.done_keeps hM ‹_›
        · exact State.wait_keeps hS (State.setPeriod_keeps hS ‹_›)

theorem execCoreClockChange_keeps {P ticks lost s} (hM : Mobile P) (hs : P s) :
    ResAll P (execCoreClockChange ticks lost s) := by
  have hS := hM.stable
  unfold execCoreClockChange
  extract_lets +onlyGivenNames x
  clear_value x
  extract_lets +onlyGivenNames x
  refine cut_value (p := P x) ?_ ?_
  · subst x
    exact Stable.upd hS rfl ‹_› (List.suffix_refl _) id id id (BitVec.le_refl _) id
  intro hx
  clear_value x
  extract_lets +onlyGivenNames x
  refine cut_value (p := P x) ?_ ?_
  · subst x
    exact State.expireDue_keeps hM (State.rebuild_keeps hM ‹_›)
  intro hx
  clear_value x
  exact ResAll.next (foldl_keeps (P := P) (fun a b h => (ite_keeps (P := P) (State.linkFailure_keeps hM ‹_›) ‹_›)) ‹_›)

end Sys2Proof.Machine
end

