-- ==== Sys2Proof/Laws/KeepsGangCmd.lean ====
section
/-!
SUPPORT. What the operations and meanings of Machine/GangCmd.lean keep (see Laws/Follows.lean): steady ones any `Stable` property, the others any
`Mobile` one.
-/

set_option linter.tactic.unusedName false
set_option linter.unusedVariables false

namespace Sys2Proof.Machine

theorem State.paceOff_keeps {P s e} (hS : Stable P) (hs : P s) :
    P (State.paceOff s e) := by
  unfold State.paceOff
  exact State.modEst_keeps hS (State.settleReleases_keeps hS ‹_›)

theorem State.paceFromRidge_keeps {P s e src} (hS : Stable P) (hs : P s) :
    P (State.paceFromRidge s e src) := by
  unfold State.paceFromRidge
  extract_lets +onlyGivenNames x
  clear_value x
  extract_lets +onlyGivenNames x
  clear_value x
  extract_lets +onlyGivenNames x
  refine cut_value (p := P x) ?_ ?_
  · subst x
    exact State.shadow_keeps hS (State.paceOff_keeps hS ‹_›)
  intro hx
  clear_value x
  extract_lets +onlyGivenNames x
  refine cut_value (p := P x) ?_ ?_
  · subst x
    exact State.setFld_keeps hS (State.setFld_keeps hS (State.setFld_keeps hS ‹_›))
  intro hx
  clear_value x
  exact State.applyPace_keeps hS (State.dropSource_keeps hS ‹_›)

theorem State.mapPace_keeps {P s} (hS : Stable P) (hs : P s) :
    P (State.mapPace s) := by
  unfold State.mapPace
  refine foldl_keeps (P := P) (fun a b h => ?_) ?_
  · extract_lets +onlyGivenNames x
    clear_value x
    exact ite_keeps (P := P) ‹_› (State.paceFromRidge_keeps hS ‹_›)
  · assumption

theorem State.joinRole_keeps {P s} (hM : Mobile P) (hs : P s) :
    P (State.joinRole s) := by
  have hS := hM.stable
  unfold State.joinRole
  exact ite_keeps (P := P) (State.joinCheck_keeps hM ‹_›) (ite_keeps (P := P) (State.joinCheck_keeps hM (State.mapPace_keeps hS ‹_›)) (ite_keeps (P := P) (State.mapPace_keeps hS (State.modGang_keeps hM ‹_›)) (State.modGang_keeps hM ‹_›)))

theorem execGangConfig_keeps {P c s} (hM : Mobile P) (hs : P s) :
    ResAll P (execGangConfig c s) := by
  have hS := hM.stable
  unfold execGangConfig
  refine ResAll.next ?_
  extract_lets +onlyGivenNames x
  refine State.command_keeps hM ?_ ?_
  · assumption
  · intro a
    extract_lets +onlyGivenNames x
    clear_value x
    extract_lets +onlyGivenNames x
    refine cut_value (p := P x) ?_ ?_
    · subst x
      exact State.modGang_keeps hM ‹_›
    intro hx
    clear_value x
    exact State.done_keeps hM (State.portPowered_keeps hM (State.applyPolicies_keeps hM ‹_›))

theorem execGangStatus_keeps {P c s} (hM : Mobile P) (hs : P s) :
    ResAll P (execGangStatus c s) := by
  have hS := hM.stable
  unfold execGangStatus
  extract_lets +onlyGivenNames x
  clear_value x
  refine ResAll.next (State.command_keeps hM ?_ ?_)
  · assumption
  · intro a
    exact State.done_keeps hM ‹_›

theorem execGangJoin_keeps {P c s} (hM : Mobile P) (hs : P s) :
    ResAll P (execGangJoin c s) := by
  have hS := hM.stable
  unfold execGangJoin
  extract_lets +onlyGivenNames x
  refine cut_value (p := P x) ?_ ?_
  · subst x
    exact State.wait_keeps hS ‹_›
  intro hx
  clear_value x
  extract_lets +onlyGivenNames x
  clear_value x
  refine ResAll.next (State.command_keeps hM ?_ ?_)
  · assumption
  · intro a
    exact ite_keeps (P := P) (State.joinRole_keeps hM (Stable.upd hS rfl ‹_› (List.suffix_refl _) id id id (BitVec.le_refl _) id)) (State.done_keeps hM ‹_›)

theorem execGangLeave_keeps {P c s} (hM : Mobile P) (hs : P s) :
    ResAll P (execGangLeave c s) := by
  have hS := hM.stable
  unfold execGangLeave
  extract_lets +onlyGivenNames x
  refine cut_value (p := P x) ?_ ?_
  · subst x
    exact foldl_keeps (P := P) (fun a b h => (ite_keeps (P := P) (State.setFld_keeps hS (State.paceOff_keeps hS ‹_›)) ‹_›)) ‹_›
  intro hx
  clear_value x
  extract_lets +onlyGivenNames x
  refine cut_value (p := P x) ?_ ?_
  · subst x
    exact ite_keeps (P := P) ‹_› (State.portOff_keeps hM ‹_›)
  intro hx
  clear_value x
  extract_lets +onlyGivenNames x
  refine cut_value (p := P x) ?_ ?_
  · subst x
    exact State.modGang_keeps hM ‹_›
  intro hx
  clear_value x
  refine ResAll.next (State.command_keeps hM ?_ ?_)
  · assumption
  · intro a
    exact State.done_keeps hM (State.setSource_keeps hM ‹_›)

end Sys2Proof.Machine
end

