-- ==== Sys2Proof/Laws/KeepsPower.lean ====
section
/-!
SUPPORT. What the operations and meanings of Machine/Power.lean keep (see Laws/Follows.lean): steady ones any `Stable` property, the others any
`Mobile` one.
-/

set_option linter.tactic.unusedName false
set_option linter.unusedVariables false

namespace Sys2Proof.Machine

theorem State.abandon_keeps {P s d block reason} (hM : Mobile P) (hs : P s) :
    P (State.abandon s d block reason) := by
  have hS := hM.stable
  unfold State.abandon
  extract_lets +onlyGivenNames x
  refine cut_value (p := P x) ?_ ?_
  · subst x
    exact State.setFld_keeps hS (State.setFld_keeps hS (State.setFld_keeps hS ‹_›))
  intro hx
  clear_value x
  extract_lets +onlyGivenNames x
  refine cut_value (p := P x) ?_ ?_
  · subst x
    exact State.happen_keeps hM (State.addSat_keeps hS ‹_›)
  intro hx
  clear_value x
  extract_lets +onlyGivenNames x
  refine cut_value (p := P x) ?_ ?_
  · subst x
    exact ite_keeps (P := P) (State.error_keeps hM ‹_›) ‹_›
  intro hx
  clear_value x
  extract_lets +onlyGivenNames x
  split
  · exact ite_keeps (P := P) (Stable.upd hS rfl ‹_› (List.suffix_refl _) id id id (BitVec.le_refl _) id) ‹_›
  · assumption

theorem State.wakeDoms_keeps {P s l} (hS : Stable P) (hs : P s) :
    P (State.wakeDoms s l) := by
  unfold State.wakeDoms
  extract_lets +onlyGivenNames x
  clear_value x
  extract_lets +onlyGivenNames x
  refine cut_value (p := P x) ?_ ?_
  · subst x
    exact ite_keeps (P := P) (State.emit_keeps hS ‹_›) ‹_›
  intro hx
  clear_value x
  extract_lets +onlyGivenNames x
  exact ite_keeps (P := P) ‹_› (ite_keeps (P := P) (Stable.upd hS rfl ‹_› (List.suffix_refl _) id id id (BitVec.le_refl _) id) (State.setDoms_keeps hS ‹_›))

theorem State.arrayPort_keeps {P s p} (hM : Mobile P) (hs : P s) :
    P (State.arrayPort s p) := by
  have hS := hM.stable
  unfold State.arrayPort
  split
  · exact ite_keeps (P := P) (State.requestReset_keeps hM ‹_›) (State.linkFailure_keeps hM ‹_›)
  · assumption

theorem State.beginEntry_keeps {P s c m} (hM : Mobile P) (hs : P s) (hm : m.courses = false) :
    P (State.beginEntry s c m) := by
  have hS := hM.stable
  unfold State.beginEntry
  extract_lets +onlyGivenNames x
  clear_value x
  extract_lets +onlyGivenNames x
  refine cut_value (p := P x) ?_ ?_
  · subst x
    exact foldl_keeps (P := P) (fun a b h => (State.modPort_keeps hS ‹_›)) ‹_›
  intro hx
  clear_value x
  extract_lets +onlyGivenNames x
  exact ite_keeps (P := P) (State.done_keeps hM ‹_›) (State.wait_keeps hS (Mobile.upd hM ‹_› (fun ok => ⟨ok.run, fun _ hr => by cases (show m = .run from hr); exact absurd hm (by decide), fun _ h => Option.some.inj h ▸ hm⟩) (List.suffix_refl _) id id id (BitVec.le_refl _) id))

theorem State.checkPaceLevels_keeps {P s} (hM : Mobile P) (hs : P s) :
    P (State.checkPaceLevels s) := by
  have hS := hM.stable
  unfold State.checkPaceLevels
  extract_lets +onlyGivenNames x
  clear_value x
  extract_lets +onlyGivenNames x
  clear_value x
  refine foldl_keeps (P := P) (fun a b h => ?_) ?_
  · extract_lets +onlyGivenNames x
    clear_value x
    exact ite_keeps (P := P) (State.happen_keeps hM (State.quadError_keeps hM ‹_›)) ‹_›
  · assumption

theorem State.commitDom_keeps {P s d} (hM : Mobile P) (hs : P s) :
    P (State.commitDom s d) := by
  have hS := hM.stable
  have hd : ∀ (l : List Nat) (p : Pmu), (l.foldl Pmu.bankSleeps p).mode = p.mode ∧ (l.foldl Pmu.bankSleeps p).target = p.target ∧
      (l.foldl Pmu.bankSleeps p).changing = p.changing ∧ (l.foldl Pmu.bankSleeps p).entry = p.entry := by
    intro l
    induction l with
    | nil => exact fun p => ⟨rfl, rfl, rfl, rfl⟩
    | cons b l ih => exact fun p => ih (p.bankSleeps b)
  unfold State.commitDom
  extract_lets +onlyGivenNames x g z w
  have hx : P x := State.setDoms_keeps hS hs
  have hz : P z := ite_keeps (P := P) (Stable.upd hS rfl hx (List.suffix_refl _) id id id (BitVec.le_refl _) id) hx
  have hw : P w := by
    refine ite_keeps (P := P) (Stable.upd hS ?_ hz (List.suffix_refl _) id id id (BitVec.le_refl _) id) hz
    obtain ⟨h1, h2, h3, h4⟩ := hd (List.range 64) z.pmu
    rw [h1, h2, h3, h4]
    rfl
  refine ite_keeps (P := P) ?_ hw
  extract_lets +onlyGivenNames v
  have hv : P v := foldl_keeps (P := P) (fun _ _ h => State.edgeFor_keeps hM h)
    (Stable.upd hS rfl hw (List.suffix_refl _) id id id (BitVec.le_refl _) id)
  exact Stable.upd hS rfl hv (List.suffix_refl _) id id id (BitVec.le_refl _) id

theorem State.unlatch_keeps {P s again} (hM : Mobile P) (hs : P s) :
    P (State.unlatch s again) := by
  have hS := hM.stable
  unfold State.unlatch
  extract_lets +onlyGivenNames x
  extract_lets +onlyGivenNames x
  refine cut_value (p := P x) ?_ ?_
  · subst x
    exact Mobile.upd hM ‹_› (fun ok => ⟨nofun, ok.wake, ok.entry⟩) (List.suffix_refl _) id id id (BitVec.le_refl _) id
  intro hx
  clear_value x
  exact ite_keeps (P := P) (ite_keeps (P := P) (State.stopTrigger_keeps hM ‹_›) ‹_›) ‹_›

/-- Without another trigger the latch is gone. -/
theorem State.unlatch_latched (s : State) : (s.unlatch false).stop.latched = false := by
  unfold State.unlatch
  split
  · rfl
  · exact Bool.eq_false_iff.mpr ‹_›

theorem State.stopCourses_keeps {P s} (hM : Mobile P) (hs : P s) :
    P (State.stopCourses s) := by
  have hS := hM.stable
  unfold State.stopCourses
  extract_lets +onlyGivenNames x
  clear_value x
  extract_lets +onlyGivenNames x
  clear_value x
  extract_lets +onlyGivenNames x
  refine cut_value (p := P x) ?_ ?_
  · subst x
    exact Stable.upd hS rfl ‹_› (List.suffix_refl _) id id id (BitVec.le_refl _) id
  intro hx
  clear_value x
  extract_lets +onlyGivenNames x
  refine cut_value (p := P x) ?_ ?_
  · subst x
    exact ite_keeps (P := P) ‹_› (State.sourceEffect_keeps hM ‹_›)
  intro hx
  clear_value x
  exact State.applyPolicies_keeps hM (foldl_keeps (P := P) (fun a b h => (State.applyPace_keeps hS ‹_›)) ‹_›)

theorem State.sramCheck_keeps {P s} (hS : Stable P) (hs : P s) :
    P (State.sramCheck s) := by
  unfold State.sramCheck
  extract_lets +onlyGivenNames x
  clear_value x
  extract_lets +onlyGivenNames x
  exact ite_keeps (P := P) (State.emit_keeps hS (Stable.upd hS rfl ‹_› (List.suffix_refl _) id id id (BitVec.le_refl _) id)) ‹_›

theorem State.lastStep_keeps {P answers s d} (hM : Mobile P) (hs : P s) :
    P (State.lastStep answers s d) := by
  have hS := hM.stable
  unfold State.lastStep
  refine ite_keeps (P := P) ?_ ?_
  · assumption
  · split
    · exact State.abandon_keeps hM ‹_›
    · exact State.commitDom_keeps hM ‹_›

theorem State.endEntry_follows {s₀ s : State} {e answers} (h : s₀.Follows s) (he : s₀.drive.Ok → e.mode ≠ .run) :
    s₀.Follows (State.endEntry s e answers) := by
  have hM := State.Follows.mobile s₀
  have hS := hM.stable
  unfold State.endEntry
  extract_lets old a p c d f
  have ha : s₀.Follows a := by
    subst a
    split
    · exact State.complete_keeps hM h
    · exact h
  have hc : s₀.Follows c :=
    Mobile.upd hM ha (fun ok => ⟨ok.run, ok.wake, nofun⟩) (List.suffix_refl _) id id id (BitVec.le_refl _) id
  have hd : s₀.Follows d := State.setMode_follows hc (fun ok hr => absurd hr (he ok))
  have hf : s₀.Follows f := ite_keeps (P := s₀.Follows) (State.unlatch_keeps hM (State.stopCourses_keeps hM hd)) hd
  exact State.sramCheck_keeps hS (foldl_keeps (P := s₀.Follows) (fun _ _ h => State.lastStep_keeps hM h) hf)

theorem State.entryStep_keeps {P answers a_1 d} (hM : Mobile P) (ha_1 : Fst P a_1) :
    Fst P (State.entryStep answers a_1 d) := by
  have hS := hM.stable
  unfold State.entryStep
  split
  · assumption
  · split
    · refine Fst.mk ?_
      exact Fst.elim rfl (by assumption)
    · refine Fst.mk (State.commitDom_keeps hM ?_)
      exact Fst.elim rfl (by assumption)

theorem State.wakePorts_keeps {P s l} (hS : Stable P) (hs : P s) :
    P (State.wakePorts s l) := by
  unfold State.wakePorts
  refine foldl_keeps (P := P) (fun a b h => ?_) ?_
  · extract_lets +onlyGivenNames x
    clear_value x
    exact ite_keeps (P := P) (State.modPort_keeps hS ‹_›) (State.requestResume_keeps hS ‹_›)
  · assumption

theorem State.failEntry_keeps {P s e done d block reason} (hM : Mobile P) (hs : P s) :
    P (State.failEntry s e done d block reason) := by
  have hS := hM.stable
  unfold State.failEntry
  extract_lets +onlyGivenNames x
  refine cut_value (p := P x) ?_ ?_
  · subst x
    exact State.abandon_keeps hM ‹_›
  intro hx
  clear_value x
  extract_lets +onlyGivenNames x
  extract_lets +onlyGivenNames x
  refine cut_value (p := P x) ?_ ?_
  · subst x
    exact Mobile.upd hM ‹_› (fun ok => ⟨ok.run, nofun, nofun⟩) (List.suffix_refl _) id id id (BitVec.le_refl _) id
  intro hx
  clear_value x
  extract_lets +onlyGivenNames x
  refine cut_value (p := P x) ?_ ?_
  · subst x
    exact State.wakePorts_keeps hS (State.wakeDoms_keeps hS ‹_›)
  intro hx
  clear_value x
  split
  · exact State.complete_keeps hM ‹_›
  · assumption

theorem State.modeCmds_keeps {P s} (hM : Mobile P) (hs : P s) :
    P (State.modeCmds s) := by
  have hS := hM.stable
  unfold State.modeCmds
  extract_lets +onlyGivenNames x
  clear_value x
  exact foldl_keeps (P := P) (fun a b h => (State.complete_keeps hM ‹_›)) ‹_›

theorem State.leaveCheck_keeps {P s} (hM : Mobile P) (hs : P s) :
    P (State.leaveCheck s) := by
  refine hM s _ hs ?_
  have hS := (State.Follows.mobile s).stable
  unfold State.leaveCheck
  extract_lets p q
  split
  · rename_i hc
    have hch : s.pmu.changing = true := by
      simp only [Bool.and_eq_true] at hc
      exact hc.1.1.1
    have h1 : s.Follows q := State.setMode_keeps (State.Follows.mobile s) (.refl s) (fun ok h => absurd h (ok.wake hch))
    exact State.modeCmds_keeps (State.Follows.mobile s) (ite_keeps (P := s.Follows) (State.resumeSlept_keeps hS h1) h1)
  · exact .refl s

theorem State.goTo_keeps {P s m} (hM : Mobile P) (hs : P s) (hm : m ≠ .run) :
    P (State.goTo s m) := by
  have hS := hM.stable
  unfold State.goTo
  refine State.leaveCheck_keeps hM (State.wakeDoms_keeps hS ?_)
  exact Mobile.upd hM hs (fun ok => ⟨ok.run, fun _ => hm, ok.entry⟩) (List.suffix_refl _) id id id (BitVec.le_refl _) id

theorem State.reloadMbx_keeps {P s} (hM : Mobile P) (hs : P s) :
    P (State.reloadMbx s) := by
  have hS := hM.stable
  unfold State.reloadMbx
  refine foldl_keeps (P := P) (fun a b h => ?_) ?_
  · extract_lets +onlyGivenNames x
    refine cut_value (p := P x) ?_ ?_
    · subst x
      exact State.setBit_keeps hS (State.setFld_keeps hS ‹_›)
    intro hx
    clear_value x
    exact State.modInst_keeps hS ‹_›
  · exact State.abortTaken_keeps hM ‹_›

theorem State.reloadCore_keeps {P s} (hM : Mobile P) (hs : P s) :
    P (State.reloadCore s) := by
  have hS := hM.stable
  unfold State.reloadCore
  extract_lets +onlyGivenNames x
  refine cut_value (p := P x) ?_ ?_
  · subst x
    exact State.abortTaken_keeps hM ‹_›
  intro hx
  clear_value x
  extract_lets +onlyGivenNames x
  clear_value x
  exact Stable.upd hS rfl ‹_› (List.suffix_refl _) id id id (BitVec.le_refl _) id

theorem State.loseArray_keeps {P s run d} (hM : Mobile P) (hs : P s) :
    P (State.loseArray s run d) := by
  have hS := hM.stable
  unfold State.loseArray
  extract_lets +onlyGivenNames x
  clear_value x
  extract_lets +onlyGivenNames x
  refine cut_value (p := P x) ?_ ?_
  · subst x
    exact State.functionReset_keeps hS (State.flrActions_keeps hM ‹_›)
  intro hx
  clear_value x
  extract_lets +onlyGivenNames x
  clear_value x
  split
  · exact Stable.upd hS rfl ‹_› (List.suffix_refl _) id id id (BitVec.le_refl _) id
  · exact ite_keeps (P := P) (State.faultStart_keeps hM ‹_›) (State.reloadMbx_keeps hM ‹_›)
  · exact ite_keeps (P := P) (State.faultStart_keeps hM ‹_›) (State.reloadCore_keeps hM ‹_›)
  · exact foldl_keeps (P := P) (fun a b h => (State.arrayPort_keeps hM ‹_›)) ‹_›
  · exact foldl_keeps (P := P) (fun a b h => (State.arrayPort_keeps hM ‹_›)) ‹_›
  · exact State.setQuality_keeps hM ‹_›
  · exact State.dropRidgeLock_keeps hM (State.arrayPort_keeps hM ‹_›)
  · assumption

theorem State.loseXfer_keeps {P s b ctx f x_4} (hM : Mobile P) (hs : P s) :
    P (State.loseXfer s b ctx f x_4) := by
  have hS := hM.stable
  unfold State.loseXfer
  extract_lets +onlyGivenNames x
  subst x
  dsimp -zeta -zetaDelta only
  extract_lets +onlyGivenNames x
  refine cut_value (p := P x) ?_ ?_
  · subst x
    exact Stable.upd hS rfl ‹_› (List.suffix_refl _) id id id (BitVec.le_refl _) id
  intro hx
  clear_value x
  refine ite_keeps (P := P) ?_ ?_
  · assumption
  · refine ite_keeps (P := P) ?_ ?_
    · split
      · exact State.modXfer_keeps hS ‹_›
      · exact ite_keeps (P := P) (State.modXfer_keeps hS ‹_›) (ite_keeps (P := P) (State.modXfer_keeps hS ‹_›) (State.finish_keeps hM (State.holdSlot_keeps hS ‹_›)))
    · exact State.modXfer_keeps hS ‹_›

theorem State.loseBank_keeps {P s b} (hM : Mobile P) (hs : P s) :
    P (State.loseBank s b) := by
  have hS := hM.stable
  unfold State.loseBank
  extract_lets +onlyGivenNames x
  extract_lets +onlyGivenNames x
  refine cut_value (p := P x) ?_ ?_
  · subst x
    exact Stable.upd hS rfl ‹_› (List.suffix_refl _) id id id (BitVec.le_refl _) id
  intro hx
  clear_value x
  extract_lets +onlyGivenNames x
  subst x
  dsimp -zeta -zetaDelta only
  extract_lets +onlyGivenNames x
  refine cut_value (p := P x) ?_ ?_
  · subst x
    exact ite_keeps (P := P) (State.setFld_keeps hS ‹_›) (State.setFld_keeps hS ‹_›)
  intro hx
  clear_value x
  extract_lets +onlyGivenNames x
  refine cut_value (p := P x) ?_ ?_
  · subst x
    exact State.happen_keeps hM (State.addSat_keeps hS ‹_›)
  intro hx
  clear_value x
  extract_lets +onlyGivenNames x
  refine cut_value (p := P x) ?_ ?_
  · subst x
    exact State.error_keeps hM ‹_›
  intro hx
  clear_value x
  exact foldl_keeps (P := P) (fun a b h => (foldl_keeps (P := P) (fun a b h => (State.loseXfer_keeps hM ‹_›)) ‹_›)) ‹_›

theorem State.modeDone_keeps {P s c old} (hM : Mobile P) (hs : P s) :
    P (State.modeDone s c old) := by
  have hS := hM.stable
  unfold State.modeDone
  exact State.done_keeps hM ‹_›

theorem State.modeSet_keeps {P s c m stop} (hM : Mobile P) (hs : P s) :
    P (State.modeSet s c m stop) := by
  have hS := hM.stable
  unfold State.modeSet
  extract_lets +onlyGivenNames x
  clear_value x
  extract_lets +onlyGivenNames x
  refine cut_value (p := P x) ?_ ?_
  · subst x
    exact State.done_keeps hM ‹_›
  intro hx
  clear_value x
  extract_lets +onlyGivenNames x
  subst x
  dsimp -zeta -zetaDelta only
  extract_lets +onlyGivenNames x
  refine ite_keeps (P := P) ?_ ?_
  · assumption
  · refine ite_keeps (P := P) ?_ ?_
    · exact State.done_keeps hM ‹_›
    · split
      · exact ite_keeps (P := P) ‹_› (State.modeDone_keeps hM (State.setMode_keeps hM (State.unlatch_keeps hM (Stable.upd hS rfl ‹_› (List.suffix_refl _) id id id (BitVec.le_refl _) id)) (fun _ _ => State.unlatch_latched _)))
      · exact State.modeDone_keeps hM (State.unlatch_keeps hM (State.setMode_keeps hM (Stable.upd hS rfl ‹_› (List.suffix_refl _) id id id (BitVec.le_refl _) id) (fun _ h => nomatch h)))
      · exact State.beginEntry_keeps hM ‹_› rfl
      · exact State.beginEntry_keeps hM ‹_› rfl
      · exact State.beginEntry_keeps hM ‹_› rfl
      · exact State.modeDone_keeps hM (ite_keeps (P := P) (State.stopTrigger_keeps hM ‹_›) (State.enterHold_keeps hM ‹_›))
      · exact ite_keeps (P := P) ‹_› (State.modeDone_keeps hM (State.setMode_keeps hM (State.unlatch_keeps hM ‹_›) (fun _ _ => State.unlatch_latched _)))
      · exact ite_keeps (P := P) (State.done_keeps hM ‹_›) (State.modeDone_keeps hM (State.setMode_keeps hM ‹_› (fun _ h => nomatch h)))
      · exact ite_keeps (P := P) ‹_› (ite_keeps (P := P) (State.done_keeps hM ‹_›) (State.modeDone_keeps hM (State.unlatch_keeps hM (State.setMode_keeps hM ‹_› (fun _ h => nomatch h)))))
      · exact ite_keeps (P := P) (State.done_keeps hM ‹_›) (State.modeDone_keeps hM (State.unlatch_keeps hM (State.setMode_keeps hM ‹_› (fun _ h => nomatch h))))
      · exact State.goTo_keeps hM (State.wait_keeps hS ‹_›) nofun
      · exact State.goTo_keeps hM (State.wait_keeps hS ‹_›) nofun
      · exact State.goTo_keeps hM (State.wait_keeps hS ‹_›) nofun
      · assumption

theorem State.noteArray_keeps {P s d} (hM : Mobile P) (hs : P s) :
    P (State.noteArray s d) := by
  have hS := hM.stable
  unfold State.noteArray
  extract_lets +onlyGivenNames x
  refine cut_value (p := P x) ?_ ?_
  · subst x
    exact State.setFld_keeps hS ‹_›
  intro hx
  clear_value x
  extract_lets +onlyGivenNames x
  refine cut_value (p := P x) ?_ ?_
  · subst x
    exact State.happen_keeps hM (State.addSat_keeps hS ‹_›)
  intro hx
  clear_value x
  exact State.error_keeps hM ‹_›

theorem State.setPolicies_keeps {P s v} (hM : Mobile P) (hs : P s) :
    P (State.setPolicies s v) := by
  have hS := hM.stable
  unfold State.setPolicies
  extract_lets +onlyGivenNames x
  refine cut_value (p := P x) ?_ ?_
  · subst x
    exact State.setFld_keeps hS (State.shadow_keeps hS ‹_›)
  intro hx
  clear_value x
  exact ite_keeps (P := P) ‹_› (State.applyPolicies_keeps hM ‹_›)

theorem State.sleepRound_keeps {P s d rounds answers} (hM : Mobile P) (hs : P s) :
    P (State.sleepRound s d rounds answers) := by
  have hS := hM.stable
  unfold State.sleepRound
  extract_lets +onlyGivenNames x
  split
  · exact State.abandon_keeps hM ‹_›
  · split
    · exact ite_keeps (P := P) (State.abandon_keeps hM ‹_›) (Stable.upd hS rfl ‹_› (List.suffix_refl _) id id id (BitVec.le_refl _) id)
    · exact State.sramCheck_keeps hS (State.commitDom_keeps hM (Stable.upd hS rfl ‹_› (List.suffix_refl _) id id id (BitVec.le_refl _) id))

theorem State.wakeBanks_keeps {P s bad} (hM : Mobile P) (hs : P s) :
    P (State.wakeBanks s bad) := by
  have hS := hM.stable
  unfold State.wakeBanks
  refine foldl_keeps (P := P) (fun a b h => ?_) ?_
  · extract_lets +onlyGivenNames x
    refine cut_value (p := P x) ?_ ?_
    · subst x
      exact State.openBank_keeps hS ‹_›
    intro hx
    clear_value x
    exact ite_keeps (P := P) (ite_keeps (P := P) (State.loseBank_keeps hM ‹_›) ‹_›) ‹_›
  · assumption

theorem State.wakeSource_keeps {P s n extra} (hM : Mobile P) (hs : P s) :
    P (State.wakeSource s n extra) := by
  have hS := hM.stable
  unfold State.wakeSource
  extract_lets +onlyGivenNames x
  refine cut_value (p := P x) ?_ ?_
  · subst x
    exact State.setFld_keeps hS ‹_›
  intro hx
  clear_value x
  extract_lets +onlyGivenNames x
  refine cut_value (p := P x) ?_ ?_
  · subst x
    exact ite_keeps (P := P) (State.askWake_keeps hM ‹_›) ‹_›
  intro hx
  clear_value x
  extract_lets +onlyGivenNames x
  refine cut_value (p := P x) ?_ ?_
  · subst x
    split
    · exact State.abandon_keeps hM ‹_›
    · assumption
  intro hx
  clear_value x
  extract_lets +onlyGivenNames x
  refine cut_value (p := P x) ?_ ?_
  · subst x
    split
    · exact State.failEntry_keeps hM ‹_›
    · assumption
  intro hx
  clear_value x
  extract_lets +onlyGivenNames x
  refine cut_value (p := P x) ?_ ?_
  · subst x
    exact State.happen_keeps hM (State.wakeDoms_keeps hS ‹_›)
  intro hx
  clear_value x
  extract_lets +onlyGivenNames x
  refine cut_value (p := P x) ?_ ?_
  · subst x
    exact ite_keeps (P := P) (State.gbWakes_keeps hS ‹_›) ‹_›
  intro hx
  clear_value x
  exact ite_keeps (P := P) ‹_› (ite_keeps (P := P) ‹_› (ite_keeps (P := P) (State.goTo_keeps hM ‹_› nofun) ‹_›))

theorem State.wakeTime_keeps {P s} (hM : Mobile P) (hs : P s) :
    P (State.wakeTime s) := by
  have hS := hM.stable
  unfold State.wakeTime
  extract_lets +onlyGivenNames x
  clear_value x
  split
  · exact State.expireDue_keeps hM (State.rebuild_keeps hM (Stable.upd hS rfl ‹_› (List.suffix_refl _) id id id (BitVec.le_refl _) id))
  · assumption

theorem execModeSet_keeps {P c s} (hM : Mobile P) (hs : P s) :
    ResAll P (execModeSet c s) := by
  have hS := hM.stable
  unfold execModeSet
  refine ResAll.next (State.command_keeps hM ?_ ?_)
  · assumption
  · intro a
    exact State.modeSet_keeps hM ‹_›

theorem execDomainPolicy_keeps {P c s} (hM : Mobile P) (hs : P s) :
    ResAll P (execDomainPolicy c s) := by
  have hS := hM.stable
  unfold execDomainPolicy
  extract_lets +onlyGivenNames x
  clear_value x
  refine ResAll.next ?_
  extract_lets +onlyGivenNames x
  refine State.command_keeps hM ?_ ?_
  · assumption
  · intro a
    extract_lets +onlyGivenNames x
    clear_value x
    exact State.done_keeps hM (State.setPolicies_keeps hM ‹_›)

theorem execPresenceChange_keeps {P p level m s} (hM : Mobile P) (hs : P s) :
    ResAll P (execPresenceChange p level m s) := by
  have hS := hM.stable
  unfold execPresenceChange
  extract_lets +onlyGivenNames x
  clear_value x
  extract_lets +onlyGivenNames x
  refine cut_value (p := P x) ?_ ?_
  · subst x
    exact State.presenceChange_keeps hM ‹_›
  intro hx
  clear_value x
  refine ResAll.next ?_
  split
  · exact ite_keeps (P := P) (State.wakeSource_keeps hM ‹_›) ‹_›
  · assumption

theorem execActivityDetect_keeps {P p level s} (hM : Mobile P) (hs : P s) :
    ResAll P (execActivityDetect p level s) := by
  have hS := hM.stable
  unfold execActivityDetect
  extract_lets +onlyGivenNames x
  refine cut_value (p := P x) ?_ ?_
  · subst x
    exact State.modPort_keeps hS ‹_›
  intro hx
  clear_value x
  refine ResAll.next ?_
  split
  · exact ite_keeps (P := P) (State.wakeSource_keeps hM ‹_›) ‹_›
  · exact ite_keeps (P := P) (State.wakeSource_keeps hM ‹_›) ‹_›
  · assumption

theorem execStopInLow_keeps {P ns s} (hM : Mobile P) (hs : P s) :
    ResAll P (execStopInLow ns s) := by
  have hS := hM.stable
  unfold execStopInLow
  refine ResAll.next ?_
  extract_lets +onlyGivenNames x
  split
  extract_lets +onlyGivenNames x
  extract_lets +onlyGivenNames x
  refine cut_value (p := P x) ?_ ?_
  · subst x
    refine Stable.upd hS rfl ?_ (List.suffix_refl _) id id id (BitVec.le_refl _) id
    refine Snd.elim (by assumption) ?_
    exact ite_keeps (P := Snd P) (State.freeBool_keeps hS ‹_›) (Snd.mk ‹_›)
  intro hx
  clear_value x
  extract_lets +onlyGivenNames x
  refine cut_value (p := P x) ?_ ?_
  · subst x
    exact ite_keeps (P := P) (State.stopTrigger_keeps hM ‹_›) ‹_›
  intro hx
  clear_value x
  refine ite_keeps (P := P) ?_ ?_
  · exact State.wakeSource_keeps hM ‹_›
  · refine Snd.elim (by assumption) ?_
    exact ite_keeps (P := Snd P) (State.freeBool_keeps hS ‹_›) (Snd.mk ‹_›)

theorem execSleepRequest_keeps {P dom answers s} (hM : Mobile P) (hs : P s) :
    ResAll P (execSleepRequest dom answers s) := by
  have hS := hM.stable
  unfold execSleepRequest
  extract_lets +onlyGivenNames x
  clear_value x
  refine ResAll.next ?_
  split
  · assumption
  · exact ite_keeps (P := P) ‹_› (ite_keeps (P := P) (State.abandon_keeps hM ‹_›) (State.sleepRound_keeps hM ‹_›))

theorem execDeferRetry_keeps {P dom s} (hS : Stable P) (hs : P s) :
    ResAll P (execDeferRetry dom s) := by
  unfold execDeferRetry
  extract_lets +onlyGivenNames x
  refine ResAll.next ?_
  split
  · exact ite_keeps (P := P) (Stable.upd hS rfl ‹_› (List.suffix_refl _) id id id (BitVec.le_refl _) id) ‹_›
  · assumption

theorem execHandshakeNoAnswer_keeps {P dom s} (hM : Mobile P) (hs : P s) :
    ResAll P (execHandshakeNoAnswer dom s) := by
  have hS := hM.stable
  unfold execHandshakeNoAnswer
  extract_lets +onlyGivenNames x
  clear_value x
  refine ResAll.next (ite_keeps (P := P) ?_ ?_)
  · split
    refine State.abandon_keeps hM ?_
    refine Snd.elim (by assumption) ?_
    exact State.freeWord_keeps hS ‹_›
  · assumption

theorem execStandbyEntry_keeps {P answers busy s} (hM : Mobile P) (hs : P s) :
    ResAll P (execStandbyEntry answers busy s) := by
  refine (fun t ht => hM s t hs ?_)
  revert t
  have hM := State.Follows.mobile s
  have hS := hM.stable
  change ResAll s.Follows _
  unfold execStandbyEntry
  refine ResAll.next ?_
  split
  · exact .refl s
  · rename_i e he
    have hr : s.drive.Ok → e.mode ≠ .run := fun ok hr => by
      have hc := ok.entry e.mode (congrArg (Option.map (fun x : Entry => x.mode)) he)
      rw [hr] at hc
      exact nomatch hc
    extract_lets todo
    refine ite_keeps (P := s.Follows) (.refl s) (ite_keeps (P := s.Follows) (State.failEntry_keeps hM (.refl s)) ?_)
    have hx : ∀ l : List (Fin 12), Fst s.Follows (l.foldl (State.entryStep answers) (s, [], none)) := fun l =>
      foldl_keeps (P := Fst s.Follows) (fun _ _ h => State.entryStep_keeps hM h) (Fst.mk (.refl s))
    split
    · exact State.failEntry_keeps hM (Fst.elim ‹_› (hx _))
    · exact State.endEntry_follows (Fst.elim ‹_› (hx _)) hr

theorem execWakeSourceActive_keeps {P n s} (hM : Mobile P) (hs : P s) :
    ResAll P (execWakeSourceActive n s) := by
  have hS := hM.stable
  unfold execWakeSourceActive
  refine ResAll.next ?_
  split
  · exact ite_keeps (P := P) (State.wakeSource_keeps hM ‹_›) ‹_›
  · exact ite_keeps (P := P) (State.wakeSource_keeps hM ‹_›) ‹_›
  · exact ite_keeps (P := P) ‹_› (State.wakeSource_keeps hM ‹_›)
  · exact State.wakeSource_keeps hM ‹_›
  · exact ite_keeps (P := P) ‹_› (State.wakeSource_keeps hM ‹_›)
  · exact ite_keeps (P := P) (State.wakeSource_keeps hM (State.wakeDoms_keeps hS ‹_›)) ‹_›
  · exact ite_keeps (P := P) (State.wakeSource_keeps hM ‹_›) ‹_›

theorem execDomainWakeRequest_keeps {P dom s} (hS : Stable P) (hs : P s) :
    ResAll P (execDomainWakeRequest dom s) := by
  unfold execDomainWakeRequest
  extract_lets +onlyGivenNames x
  extract_lets +onlyGivenNames x
  refine cut_value (p := P x) ?_ ?_
  · subst x
    exact State.addSat_keeps hS (Stable.upd hS rfl ‹_› (List.suffix_refl _) id id id (BitVec.le_refl _) id)
  intro hx
  clear_value x
  exact ResAll.next (ite_keeps (P := P) (State.wakeDoms_keeps hS ‹_›) ‹_›)

theorem execDomainWakeComplete_keeps {P dom bad run s} (hM : Mobile P) (hs : P s) :
    ResAll P (execDomainWakeComplete dom bad run s) := by
  have hS := hM.stable
  unfold execDomainWakeComplete
  extract_lets +onlyGivenNames x
  refine cut_value (p := P x) ?_ ?_
  · subst x
    exact State.setDoms_keeps hS ‹_›
  intro hx
  clear_value x
  extract_lets +onlyGivenNames x
  extract_lets +onlyGivenNames x
  refine cut_value (p := P x) ?_ ?_
  · subst x
    exact Stable.upd hS rfl ‹_› (List.suffix_refl _) id id id (BitVec.le_refl _) id
  intro hx
  clear_value x
  extract_lets +onlyGivenNames x
  clear_value x
  extract_lets +onlyGivenNames x
  refine cut_value (p := P x) ?_ ?_
  · subst x
    exact ite_keeps (P := P) (Stable.upd hS rfl ‹_› (List.suffix_refl _) id id id (BitVec.le_refl _) id) ‹_›
  intro hx
  clear_value x
  extract_lets +onlyGivenNames x
  refine cut_value (p := P x) ?_ ?_
  · subst x
    exact ite_keeps (P := P) (State.wakeBanks_keeps hM ‹_›) ‹_›
  intro hx
  clear_value x
  extract_lets +onlyGivenNames x
  refine cut_value (p := P x) ?_ ?_
  · subst x
    exact ite_keeps (P := P) (State.wakeTime_keeps hM (State.checkPaceLevels_keeps hM ‹_›)) ‹_›
  intro hx
  clear_value x
  extract_lets +onlyGivenNames x
  clear_value x
  extract_lets +onlyGivenNames x
  refine cut_value (p := P x) ?_ ?_
  · subst x
    exact foldl_keeps (P := P) (fun a b h => (State.noteArray_keeps hM ‹_›)) ‹_›
  intro hx
  clear_value x
  extract_lets +onlyGivenNames x
  refine cut_value (p := P x) ?_ ?_
  · subst x
    exact ite_keeps (P := P) (State.faultStart_keeps hM ‹_›) (foldl_keeps (P := P) (fun a b h => (State.loseArray_keeps hM ‹_›)) ‹_›)
  intro hx
  clear_value x
  extract_lets +onlyGivenNames x
  refine cut_value (p := P x) ?_ ?_
  · subst x
    exact ite_keeps (P := P) (State.linkTrains_keeps hM ‹_›) ‹_›
  intro hx
  clear_value x
  exact ResAll.next (ite_keeps (P := P) ‹_› (State.leaveCheck_keeps hM ‹_›))

theorem execPrewake_keeps {P s} (hM : Mobile P) (hs : P s) :
    ResAll P (execPrewake s) := by
  have hS := hM.stable
  unfold execPrewake
  extract_lets +onlyGivenNames x
  clear_value x
  extract_lets +onlyGivenNames x
  clear_value x
  extract_lets +onlyGivenNames x
  refine cut_value (p := P x) ?_ ?_
  · subst x
    split
    · exact ite_keeps (P := P) (State.abandon_keeps hM ‹_›) ‹_›
    · assumption
  intro hx
  clear_value x
  extract_lets +onlyGivenNames x
  refine cut_value (p := P x) ?_ ?_
  · subst x
    exact State.wakeDoms_keeps hS ‹_›
  intro hx
  clear_value x
  extract_lets +onlyGivenNames x
  exact ResAll.next (ite_keeps (P := P) (Stable.upd hS rfl ‹_› (List.suffix_refl _) id id id (BitVec.le_refl _) id) ‹_›)

theorem execBankIdleGate_keeps {P b s} (hS : Stable P) (hs : P s) :
    ResAll P (execBankIdleGate b s) := by
  unfold execBankIdleGate
  extract_lets +onlyGivenNames x
  clear_value x
  exact ResAll.next (ite_keeps (P := P) (Stable.upd hS rfl ‹_› (List.suffix_refl _) id id id (BitVec.le_refl _) id) ‹_›)

theorem execScrubPass_keeps {P b corrected bad s} (hM : Mobile P) (hs : P s) :
    ResAll P (execScrubPass b bad s corrected) := by
  have hS := hM.stable
  unfold execScrubPass
  extract_lets +onlyGivenNames x
  refine cut_value (p := P x) ?_ ?_
  · subst x
    exact State.addSat_keeps hS ‹_›
  intro hx
  clear_value x
  exact ResAll.next (ite_keeps (P := P) (ite_keeps (P := P) (State.loseBank_keeps hM ‹_›) ‹_›) ‹_›)

theorem execBankRestore_keeps {P b s} (hS : Stable P) (hs : P s) :
    ResAll P (execBankRestore b s) := by
  unfold execBankRestore
  extract_lets +onlyGivenNames x
  clear_value x
  extract_lets +onlyGivenNames x
  exact ResAll.next (ite_keeps (P := P) (Stable.upd hS rfl ‹_› (List.suffix_refl _) id id id (BitVec.le_refl _) id) ‹_›)

theorem execSramRetRelease_keeps {P s} (hS : Stable P) (hs : P s) :
    ResAll P (execSramRetRelease s) := by
  unfold execSramRetRelease
  extract_lets +onlyGivenNames x
  clear_value x
  extract_lets +onlyGivenNames x
  exact ResAll.next (ite_keeps (P := P) (State.wakeDoms_keeps hS (Stable.upd hS rfl ‹_› (List.suffix_refl _) id id id (BitVec.le_refl _) id)) ‹_›)

theorem execPerstDeassert_keeps {P s} (hM : Mobile P) (hs : P s) :
    ResAll P (execPerstDeassert s) := by
  have hS := hM.stable
  unfold execPerstDeassert
  extract_lets +onlyGivenNames x
  refine cut_value (p := P x) ?_ ?_
  · subst x
    exact State.perstRise_keeps hS ‹_›
  intro hx
  clear_value x
  exact ResAll.next (ite_keeps (P := P) ‹_› (ite_keeps (P := P) ‹_› (State.wakeSource_keeps hM (State.wakeDoms_keeps hS ‹_›))))

theorem execL1ExitRequest_keeps {P s} (hM : Mobile P) (hs : P s) :
    ResAll P (execL1ExitRequest s) := by
  have hS := hM.stable
  unfold execL1ExitRequest
  exact ResAll.next (State.wakeSource_keeps hM ‹_›)

theorem execWakein_keeps {P n low s} (hM : Mobile P) (hs : P s) :
    ResAll P (execWakein n low s) := by
  have hS := hM.stable
  unfold execWakein
  extract_lets +onlyGivenNames x
  clear_value x
  extract_lets +onlyGivenNames x
  extract_lets +onlyGivenNames x
  refine cut_value (p := P x) ?_ ?_
  · subst x
    exact Stable.upd hS rfl ‹_› (List.suffix_refl _) id id id (BitVec.le_refl _) id
  intro hx
  clear_value x
  exact ResAll.next (ite_keeps (P := P) (State.wakeSource_keeps hM ‹_›) ‹_›)

theorem execAoTimer_keeps {P s} (hM : Mobile P) (hs : P s) :
    ResAll P (execAoTimer s) := by
  have hS := hM.stable
  unfold execAoTimer
  exact ResAll.next (ite_keeps (P := P) (State.wakeSource_keeps hM ‹_›) ‹_›)

theorem execStopInRelease_keeps {P s} (hS : Stable P) (hs : P s) :
    ResAll P (execStopInRelease s) := by
  unfold execStopInRelease
  extract_lets +onlyGivenNames x
  exact ResAll.next (Stable.upd hS rfl ‹_› (List.suffix_refl _) id id id (BitVec.le_refl _) id)

end Sys2Proof.Machine
end

