-- ==== Sys2Proof/Laws/KeepsPpm.lean ====
section
/-!
SUPPORT. What the operations and meanings of Machine/Ppm.lean keep (see Laws/Follows.lean): steady ones any `Stable` property, the others any
`Mobile` one.
-/

set_option linter.tactic.unusedName false
set_option linter.unusedVariables false

namespace Sys2Proof.Machine

theorem State.modFeed_keeps {P s g f} (hS : Stable P) (hs : P s) :
    P (State.modFeed s g f) := by
  unfold State.modFeed
  exact Stable.upd hS rfl ‹_› (List.suffix_refl _) id id id (BitVec.le_refl _) id

theorem State.modPpm_keeps {P s n f} (hS : Stable P) (hs : P s) :
    P (State.modPpm s n f) := by
  unfold State.modPpm
  exact Stable.upd hS rfl ‹_› (List.suffix_refl _) id id id (BitVec.le_refl _) id

theorem State.startRamp_keeps {P s n} (hS : Stable P) (hs : P s) :
    P (State.startRamp s n) := by
  unfold State.startRamp
  extract_lets +onlyGivenNames x
  clear_value x
  extract_lets +onlyGivenNames x
  clear_value x
  extract_lets +onlyGivenNames x
  clear_value x
  extract_lets +onlyGivenNames x
  refine cut_value (p := P x) ?_ ?_
  · subst x
    exact State.modPpm_keeps hS ‹_›
  intro hx
  clear_value x
  extract_lets +onlyGivenNames x
  refine cut_value (p := P x) ?_ ?_
  · subst x
    exact State.modPort_keeps hS ‹_›
  intro hx
  clear_value x
  exact State.emit_keeps hS ‹_›

theorem State.ppmEvent_keeps {P s n f} (hM : Mobile P) (hs : P s) :
    P (State.ppmEvent s n f) := by
  have hS := hM.stable
  unfold State.ppmEvent
  exact State.happen_keeps hM ‹_›

theorem State.ppmRetry_keeps {P s n} (hM : Mobile P) (hs : P s) :
    P (State.ppmRetry s n) := by
  have hS := hM.stable
  unfold State.ppmRetry
  extract_lets +onlyGivenNames x
  clear_value x
  extract_lets +onlyGivenNames x
  clear_value x
  extract_lets +onlyGivenNames x
  refine cut_value (p := P x) ?_ ?_
  · subst x
    exact State.modPpm_keeps hS ‹_›
  intro hx
  clear_value x
  extract_lets +onlyGivenNames x
  refine cut_value (p := P x) ?_ ?_
  · subst x
    exact State.modPpm_keeps hS ‹_›
  intro hx
  clear_value x
  exact ite_keeps (P := P) (State.error_keeps hM (State.ppmEvent_keeps hM ‹_›)) (ite_keeps (P := P) (State.modPpm_keeps hS ‹_›) (State.ppmEvent_keeps hM (State.startRamp_keeps hS (State.modPpm_keeps hS ‹_›))))

theorem State.feedSelected_keeps {P s g} (hM : Mobile P) (hs : P s) :
    P (State.feedSelected s g) := by
  have hS := hM.stable
  unfold State.feedSelected
  refine foldl_keeps (P := P) (fun a b h => ?_) ?_
  · extract_lets +onlyGivenNames x
    clear_value x
    exact ite_keeps (P := P) (State.startRamp_keeps hS ‹_›) (ite_keeps (P := P) (State.ppmRetry_keeps hM ‹_›) ‹_›)
  · assumption

theorem State.setFeed_keeps {P s g b on} (hS : Stable P) (hs : P s) :
    P (State.setFeed s g b on) := by
  unfold State.setFeed
  extract_lets +onlyGivenNames x
  clear_value x
  exact ite_keeps (P := P) ‹_› (State.emit_keeps hS (State.modFeed_keeps hS ‹_›))

theorem State.closeFeed_keeps {P s g b} (hM : Mobile P) (hs : P s) :
    P (State.closeFeed s g b) := by
  have hS := hM.stable
  unfold State.closeFeed
  extract_lets +onlyGivenNames x
  clear_value x
  extract_lets +onlyGivenNames x
  refine cut_value (p := P x) ?_ ?_
  · subst x
    exact State.modFeed_keeps hS ‹_›
  intro hx
  clear_value x
  exact State.feedSelected_keeps hM (State.setFeed_keeps hS ‹_›)

theorem State.feedEvent_keeps {P s g f} (hM : Mobile P) (hs : P s) :
    P (State.feedEvent s g f) := by
  have hS := hM.stable
  unfold State.feedEvent
  exact State.happen_keeps hM ‹_›

theorem State.ppmDown_keeps {P s n phase cause f retry} (hM : Mobile P) (hs : P s) :
    P (State.ppmDown s n phase cause f retry) := by
  have hS := hM.stable
  unfold State.ppmDown
  extract_lets +onlyGivenNames x
  refine cut_value (p := P x) ?_ ?_
  · subst x
    exact State.modPpm_keeps hS (State.ppmCut_keeps hS ‹_›)
  intro hx
  clear_value x
  extract_lets +onlyGivenNames x
  refine cut_value (p := P x) ?_ ?_
  · subst x
    exact State.ppmEvent_keeps hM ‹_›
  intro hx
  clear_value x
  split
  · exact ite_keeps (P := P) ‹_› (State.portFault_keeps hM ‹_›)
  · assumption

theorem State.feedNone_keeps {P s g report} (hM : Mobile P) (hs : P s) :
    P (State.feedNone s g report) := by
  have hS := hM.stable
  unfold State.feedNone
  extract_lets +onlyGivenNames x
  refine cut_value (p := P x) ?_ ?_
  · subst x
    exact State.modFeed_keeps hS ‹_›
  intro hx
  clear_value x
  extract_lets +onlyGivenNames x
  refine cut_value (p := P x) ?_ ?_
  · subst x
    exact ite_keeps (P := P) (State.error_keeps hM (State.feedEvent_keeps hM ‹_›)) ‹_›
  intro hx
  clear_value x
  refine foldl_keeps (P := P) (fun a b h => ?_) ?_
  · extract_lets +onlyGivenNames x
    clear_value x
    exact ite_keeps (P := P) (State.ppmDown_keeps hM ‹_›) ‹_›
  · assumption

theorem State.endDead_keeps {P s g} (hM : Mobile P) (hs : P s) :
    P (State.endDead s g) := by
  have hS := hM.stable
  unfold State.endDead
  extract_lets +onlyGivenNames x
  clear_value x
  extract_lets +onlyGivenNames x
  refine cut_value (p := P x) ?_ ?_
  · subst x
    exact State.modFeed_keeps hS ‹_›
  intro hx
  clear_value x
  split
  · exact ite_keeps (P := P) (State.feedEvent_keeps hM (State.closeFeed_keeps hM ‹_›)) (State.feedNone_keeps hM ‹_›)
  · exact ite_keeps (P := P) (State.feedEvent_keeps hM (State.closeFeed_keeps hM ‹_›)) (ite_keeps (P := P) (State.closeFeed_keeps hM ‹_›) (State.feedNone_keeps hM ‹_›))
  · assumption

theorem State.feedSample_keeps {P s g b code} (hS : Stable P) (hs : P s) :
    P (State.feedSample s g b code) := by
  unfold State.feedSample
  extract_lets +onlyGivenNames x
  clear_value x
  extract_lets +onlyGivenNames x
  clear_value x
  extract_lets +onlyGivenNames x
  subst x
  dsimp -zeta -zetaDelta only
  exact State.modFeed_keeps hS ‹_›

theorem State.goodFeed_keeps {P s g b} (hM : Mobile P) (hs : P s) :
    P (State.goodFeed s g b) := by
  have hS := hM.stable
  unfold State.goodFeed
  extract_lets +onlyGivenNames x
  clear_value x
  extract_lets +onlyGivenNames x
  refine cut_value (p := P x) ?_ ?_
  · subst x
    exact State.modFeed_keeps hS ‹_›
  intro hx
  clear_value x
  exact ite_keeps (P := P) (State.closeFeed_keeps hM ‹_›) ‹_›

theorem State.startDead_keeps {P s g toB} (hS : Stable P) (hs : P s) :
    P (State.startDead s g toB) := by
  unfold State.startDead
  extract_lets +onlyGivenNames x
  clear_value x
  exact State.modFeed_keeps hS (State.setFeed_keeps hS ‹_›)

theorem State.loseFeed_keeps {P s g b} (hM : Mobile P) (hs : P s) :
    P (State.loseFeed s g b) := by
  have hS := hM.stable
  unfold State.loseFeed
  extract_lets +onlyGivenNames x
  subst x
  dsimp -zeta -zetaDelta only
  extract_lets +onlyGivenNames x
  refine cut_value (p := P x) ?_ ?_
  · subst x
    exact State.modFeed_keeps hS ‹_›
  intro hx
  clear_value x
  extract_lets +onlyGivenNames x
  refine cut_value (p := P x) ?_ ?_
  · subst x
    exact State.feedEvent_keeps hM ‹_›
  intro hx
  clear_value x
  extract_lets +onlyGivenNames x
  clear_value x
  split
  · exact State.startDead_keeps hS ‹_›
  · exact ite_keeps (P := P) (State.startDead_keeps hS ‹_›) (State.feedNone_keeps hM (State.setFeed_keeps hS ‹_›))
  · assumption

theorem State.watchFeed_keeps {P s g b} (hM : Mobile P) (hs : P s) :
    P (State.watchFeed s g b) := by
  have hS := hM.stable
  unfold State.watchFeed
  extract_lets +onlyGivenNames x
  clear_value x
  extract_lets +onlyGivenNames x
  clear_value x
  extract_lets +onlyGivenNames x
  clear_value x
  extract_lets +onlyGivenNames x
  subst x
  dsimp -zeta -zetaDelta only
  extract_lets +onlyGivenNames x
  refine cut_value (p := P x) ?_ ?_
  · subst x
    exact State.modFeed_keeps hS ‹_›
  intro hx
  clear_value x
  exact ite_keeps (P := P) (State.loseFeed_keeps hM ‹_›) (ite_keeps (P := P) (State.goodFeed_keeps hM ‹_›) ‹_›)

theorem State.groupTick_keeps {P s g} (hM : Mobile P) (hs : P s) :
    P (State.groupTick s g) := by
  have hS := hM.stable
  unfold State.groupTick
  extract_lets +onlyGivenNames x
  clear_value x
  extract_lets +onlyGivenNames x
  refine cut_value (p := P x) ?_ ?_
  · subst x
    exact State.modFeed_keeps hS ‹_›
  intro hx
  clear_value x
  extract_lets +onlyGivenNames x
  refine cut_value (p := P x) ?_ ?_
  · subst x
    exact ite_keeps (P := P) (State.endDead_keeps hM ‹_›) ‹_›
  intro hx
  clear_value x
  extract_lets +onlyGivenNames x
  clear_value x
  extract_lets +onlyGivenNames x
  refine cut_value (p := P x) ?_ ?_
  · subst x
    exact ite_keeps (P := P) (State.startDead_keeps hS ‹_›) ‹_›
  intro hx
  clear_value x
  extract_lets +onlyGivenNames x
  refine cut_value (p := P x) ?_ ?_
  · subst x
    exact State.watchFeed_keeps hM (State.watchFeed_keeps hM ‹_›)
  intro hx
  clear_value x
  extract_lets +onlyGivenNames x
  clear_value x
  exact ite_keeps (P := P) (State.closeFeed_keeps hM ‹_›) ‹_›

theorem State.releaseLimit_keeps {P s n} (hM : Mobile P) (hs : P s) :
    P (State.releaseLimit s n) := by
  have hS := hM.stable
  unfold State.releaseLimit
  extract_lets +onlyGivenNames x
  clear_value x
  extract_lets +onlyGivenNames x
  clear_value x
  extract_lets +onlyGivenNames x
  refine cut_value (p := P x) ?_ ?_
  · subst x
    exact State.modPpm_keeps hS ‹_›
  intro hx
  clear_value x
  exact State.ppmEvent_keeps hM ‹_›

theorem State.limitSample_keeps {P s n} (hM : Mobile P) (hs : P s) :
    P (State.limitSample s n) := by
  have hS := hM.stable
  unfold State.limitSample
  extract_lets +onlyGivenNames x
  clear_value x
  extract_lets +onlyGivenNames x
  clear_value x
  extract_lets +onlyGivenNames x
  clear_value x
  extract_lets +onlyGivenNames x
  clear_value x
  extract_lets +onlyGivenNames x
  clear_value x
  extract_lets +onlyGivenNames x
  clear_value x
  exact ite_keeps (P := P) ‹_› (ite_keeps (P := P) (ite_keeps (P := P) (State.modPpm_keeps hS ‹_›) (ite_keeps (P := P) (State.ppmEvent_keeps hM (State.modPpm_keeps hS ‹_›)) (State.modPpm_keeps hS ‹_›))) (ite_keeps (P := P) ‹_› (ite_keeps (P := P) (ite_keeps (P := P) (State.releaseLimit_keeps hM ‹_›) (State.modPpm_keeps hS ‹_›)) (State.modPpm_keeps hS ‹_›))))

theorem State.oscCheck_keeps {P s} (hS : Stable P) (hs : P s) :
    P (State.oscCheck s) := by
  unfold State.oscCheck
  exact ite_keeps (P := P) (Stable.upd hS rfl ‹_› (List.suffix_refl _) id id id (BitVec.le_refl _) id) ‹_›

theorem State.portAdvance_keeps {P s n} (hM : Mobile P) (hs : P s) :
    P (State.portAdvance s n) := by
  have hS := hM.stable
  unfold State.portAdvance
  extract_lets +onlyGivenNames x
  clear_value x
  extract_lets +onlyGivenNames x
  clear_value x
  extract_lets +onlyGivenNames x
  clear_value x
  extract_lets +onlyGivenNames x
  clear_value x
  extract_lets +onlyGivenNames x
  refine cut_value (p := P x) ?_ ?_
  · subst x
    exact State.modPpm_keeps hS ‹_›
  intro hx
  clear_value x
  exact ite_keeps (P := P) (State.ppmRetry_keeps hM ‹_›) ‹_›

theorem State.ppmFault_keeps {P s n cause f} (hM : Mobile P) (hs : P s) :
    P (State.ppmFault s n cause f) := by
  have hS := hM.stable
  unfold State.ppmFault
  exact State.ppmDown_keeps hM ‹_›

theorem State.portFaults_keeps {P s n fresh} (hM : Mobile P) (hs : P s) :
    P (State.portFaults s n fresh) := by
  have hS := hM.stable
  unfold State.portFaults
  extract_lets +onlyGivenNames x
  clear_value x
  extract_lets +onlyGivenNames x
  clear_value x
  extract_lets +onlyGivenNames x
  clear_value x
  extract_lets +onlyGivenNames x
  refine cut_value (p := P x) ?_ ?_
  · subst x
    exact State.modPpm_keeps hS ‹_›
  intro hx
  clear_value x
  exact ite_keeps (P := P) (State.ppmFault_keeps hM ‹_›) (ite_keeps (P := P) (State.ppmFault_keeps hM ‹_›) (ite_keeps (P := P) (State.ppmFault_keeps hM ‹_›) (ite_keeps (P := P) (State.limitSample_keeps hM ‹_›) ‹_›)))

theorem State.portSample_keeps {P s n isns vsns} (hS : Stable P) (hs : P s) :
    P (State.portSample s n isns vsns) := by
  unfold State.portSample
  extract_lets +onlyGivenNames x
  clear_value x
  extract_lets +onlyGivenNames x
  clear_value x
  extract_lets +onlyGivenNames x
  clear_value x
  extract_lets +onlyGivenNames x
  refine cut_value (p := P x) ?_ ?_
  · subst x
    exact State.setFld_keeps hS ‹_›
  intro hx
  clear_value x
  extract_lets +onlyGivenNames x
  clear_value x
  extract_lets +onlyGivenNames x
  clear_value x
  extract_lets +onlyGivenNames x
  clear_value x
  extract_lets +onlyGivenNames x
  extract_lets +onlyGivenNames x
  clear_value x
  extract_lets +onlyGivenNames x
  clear_value x
  extract_lets +onlyGivenNames x
  clear_value x
  split
  extract_lets +onlyGivenNames x
  refine cut_value (p := P x) ?_ ?_
  · subst x
    refine State.modPpm_keeps hS ?_
    refine Snd.elim (by assumption) ?_
    exact State.freeWord_keeps hS ‹_›
  intro hx
  clear_value x
  extract_lets +onlyGivenNames x
  refine cut_value (p := P x) ?_ ?_
  · subst x
    exact State.setFld_keeps hS (State.setFld_keeps hS ‹_›)
  intro hx
  clear_value x
  exact ite_keeps (P := P) (State.setFld_keeps hS ‹_›) ‹_›

theorem State.powerGood_keeps {P s n} (hM : Mobile P) (hs : P s) :
    P (State.powerGood s n) := by
  have hS := hM.stable
  unfold State.powerGood
  extract_lets +onlyGivenNames x
  clear_value x
  extract_lets +onlyGivenNames x
  refine cut_value (p := P x) ?_ ?_
  · subst x
    exact State.emit_keeps hS (State.modPpm_keeps hS ‹_›)
  intro hx
  clear_value x
  split
  · assumption
  · exact ite_keeps (P := P) (State.portPowered_keeps hM (State.ppmEvent_keeps hM ‹_›)) (ite_keeps (P := P) (State.ppmEvent_keeps hM ‹_›) ‹_›)

theorem State.ppmEclrWrite_keeps {P s v} (hS : Stable P) (hs : P s) :
    P (State.ppmEclrWrite s v) := by
  unfold State.ppmEclrWrite
  exact Stable.upd hS rfl ‹_› (List.suffix_refl _) id id id (BitVec.le_refl _) id

theorem State.ppmSample_keeps {P s x_1} (hS : Stable P) (hs : P s) :
    P (State.ppmSample s x_1) := by
  unfold State.ppmSample
  split
  · exact State.portSample_keeps hS ‹_›
  · exact State.feedSample_keeps hS ‹_›

theorem State.takeOff_keeps {P s n} (hM : Mobile P) (hs : P s) :
    P (State.takeOff s n) := by
  have hS := hM.stable
  unfold State.takeOff
  extract_lets +onlyGivenNames x
  refine cut_value (p := P x) ?_ ?_
  · subst x
    exact State.modPpm_keeps hS (State.ppmCut_keeps hS ‹_›)
  intro hx
  clear_value x
  split
  · exact ite_keeps (P := P) ‹_› (State.portOff_keeps hM ‹_›)
  · assumption

theorem State.takeOn_keeps {P s n} (hS : Stable P) (hs : P s) :
    P (State.takeOn s n) := by
  unfold State.takeOn
  extract_lets +onlyGivenNames x
  clear_value x
  extract_lets +onlyGivenNames x
  clear_value x
  extract_lets +onlyGivenNames x
  refine cut_value (p := P x) ?_ ?_
  · subst x
    exact State.modPpm_keeps hS ‹_›
  intro hx
  clear_value x
  extract_lets +onlyGivenNames x
  refine cut_value (p := P x) ?_ ?_
  · subst x
    exact State.modPort_keeps hS ‹_›
  intro hx
  clear_value x
  split
  · exact ite_keeps (P := P) (State.startRamp_keeps hS (State.modPpm_keeps hS ‹_›)) ‹_›
  · exact ite_keeps (P := P) (State.startRamp_keeps hS (State.modPpm_keeps hS ‹_›)) ‹_›
  · exact ite_keeps (P := P) (State.startRamp_keeps hS (State.modPpm_keeps hS ‹_›)) ‹_›
  · exact State.modPpm_keeps hS ‹_›
  · exact State.modPpm_keeps hS ‹_›

theorem State.takeRequest_keeps {P s n} (hM : Mobile P) (hs : P s) :
    P (State.takeRequest s n) := by
  have hS := hM.stable
  unfold State.takeRequest
  exact ite_keeps (P := P) (State.takeOff_keeps hM ‹_›) (ite_keeps (P := P) (State.takeOn_keeps hS ‹_›) ‹_›)

theorem execPpmConfig_keeps {P c s} (hM : Mobile P) (hs : P s) :
    ResAll P (execPpmConfig c s) := by
  have hS := hM.stable
  unfold execPpmConfig
  refine ResAll.next ?_
  extract_lets +onlyGivenNames x
  refine State.command_keeps hM ?_ ?_
  · assumption
  · intro a
    extract_lets +onlyGivenNames x
    extract_lets +onlyGivenNames x
    clear_value x
    extract_lets +onlyGivenNames x
    clear_value x
    extract_lets +onlyGivenNames x
    clear_value x
    extract_lets +onlyGivenNames x
    refine cut_value (p := P x) ?_ ?_
    · subst x
      exact State.setFld_keeps hS (State.setFld_keeps hS ‹_›)
    intro hx
    clear_value x
    extract_lets +onlyGivenNames x
    refine cut_value (p := P x) ?_ ?_
    · subst x
      exact State.setFld_keeps hS (State.setFld_keeps hS (State.setFld_keeps hS ‹_›))
    intro hx
    clear_value x
    extract_lets +onlyGivenNames x
    refine cut_value (p := P x) ?_ ?_
    · subst x
      exact State.setFld_keeps hS (State.setFld_keeps hS (State.setFld_keeps hS ‹_›))
    intro hx
    clear_value x
    exact ite_keeps (P := P) (State.done_keeps hM ‹_›) (State.done_keeps hM ‹_›)

theorem execPpmRead_keeps {P c s} (hM : Mobile P) (hs : P s) :
    ResAll P (execPpmRead c s) := by
  have hS := hM.stable
  unfold execPpmRead
  refine ResAll.next ?_
  extract_lets +onlyGivenNames x
  refine State.command_keeps hM ?_ ?_
  · assumption
  · intro a
    extract_lets +onlyGivenNames x
    extract_lets +onlyGivenNames x
    clear_value x
    exact State.done_keeps hM ‹_›

theorem execPpmEclr_keeps {P v s} (hS : Stable P) (hs : P s) :
    ResAll P (execPpmEclr v s) := by
  unfold execPpmEclr
  exact ResAll.next (State.ppmEclrWrite_keeps hS ‹_›)

theorem execPpmTick_keeps {P samples s} (hM : Mobile P) (hs : P s) :
    ResAll P (execPpmTick samples s) := by
  have hS := hM.stable
  unfold execPpmTick
  extract_lets +onlyGivenNames x
  clear_value x
  extract_lets +onlyGivenNames x
  refine cut_value (p := P x) ?_ ?_
  · subst x
    exact foldl_keeps (P := P) (fun a b h => (State.takeRequest_keeps hM ‹_›)) ‹_›
  intro hx
  clear_value x
  extract_lets +onlyGivenNames x
  refine cut_value (p := P x) ?_ ?_
  · subst x
    exact foldl_keeps (P := P) (fun a b h => (State.ppmSample_keeps hS ‹_›)) ‹_›
  intro hx
  clear_value x
  extract_lets +onlyGivenNames x
  refine cut_value (p := P x) ?_ ?_
  · subst x
    exact foldl_keeps (P := P) (fun a b h => (State.portFaults_keeps hM ‹_›)) ‹_›
  intro hx
  clear_value x
  extract_lets +onlyGivenNames x
  refine cut_value (p := P x) ?_ ?_
  · subst x
    exact foldl_keeps (P := P) (fun a b h => (State.groupTick_keeps hM ‹_›)) ‹_›
  intro hx
  clear_value x
  extract_lets +onlyGivenNames x
  refine cut_value (p := P x) ?_ ?_
  · subst x
    exact foldl_keeps (P := P) (fun a b h => (State.powerGood_keeps hM ‹_›)) ‹_›
  intro hx
  clear_value x
  exact ResAll.next (ite_keeps (P := P) ‹_› (State.oscCheck_keeps hS (foldl_keeps (P := P) (fun a b h => (State.portAdvance_keeps hM ‹_›)) ‹_›)))

theorem execLimitRelease_keeps {P n s} (hM : Mobile P) (hs : P s) :
    ResAll P (execLimitRelease n s) := by
  have hS := hM.stable
  unfold execLimitRelease
  exact ResAll.next (ite_keeps (P := P) (State.releaseLimit_keeps hM ‹_›) ‹_›)

theorem execFaultTimerExpiry_keeps {P n s} (hM : Mobile P) (hs : P s) :
    ResAll P (execFaultTimerExpiry n s) := by
  have hS := hM.stable
  unfold execFaultTimerExpiry
  exact ResAll.next (ite_keeps (P := P) ‹_› (ite_keeps (P := P) (State.ppmFault_keeps hM ‹_›) (State.ppmFault_keeps hM ‹_›)))

theorem execRampTimeout_keeps {P n s} (hM : Mobile P) (hs : P s) :
    ResAll P (execRampTimeout n s) := by
  have hS := hM.stable
  unfold execRampTimeout
  exact ResAll.next (ite_keeps (P := P) (State.ppmFault_keeps hM ‹_›) ‹_›)

theorem execFastTrip_keeps {P n s} (hS : Stable P) (hs : P s) :
    ResAll P (execFastTrip n s) := by
  unfold execFastTrip
  exact ResAll.next (ite_keeps (P := P) (State.addSat_keeps hS (State.emit_keeps hS (State.modPpm_keeps hS ‹_›))) ‹_›)

theorem execPpmRetryExpiry_keeps {P n s} (hM : Mobile P) (hs : P s) :
    ResAll P (execPpmRetryExpiry n s) := by
  have hS := hM.stable
  unfold execPpmRetryExpiry
  exact ResAll.next (ite_keeps (P := P) (State.ppmRetry_keeps hM ‹_›) ‹_›)

theorem execRetriesClear_keeps {P n s} (hS : Stable P) (hs : P s) :
    ResAll P (execRetriesClear n s) := by
  unfold execRetriesClear
  exact ResAll.next (ite_keeps (P := P) (State.modPpm_keeps hS ‹_›) ‹_›)

theorem execOscillatorStart_keeps {P s} (hS : Stable P) (hs : P s) :
    ResAll P (execOscillatorStart s) := by
  unfold execOscillatorStart
  extract_lets +onlyGivenNames x
  subst x
  dsimp -zeta -zetaDelta only
  exact ResAll.next (ite_keeps (P := P) (Stable.upd hS rfl ‹_› (List.suffix_refl _) id id id (BitVec.le_refl _) id) ‹_›)

theorem execFeedGood_keeps {P g b s} (hM : Mobile P) (hs : P s) :
    ResAll P (execFeedGood g b s) := by
  have hS := hM.stable
  unfold execFeedGood
  exact ResAll.next (ite_keeps (P := P) (State.goodFeed_keeps hM ‹_›) ‹_›)

theorem execFeedLost_keeps {P g b s} (hM : Mobile P) (hs : P s) :
    ResAll P (execFeedLost g b s) := by
  have hS := hM.stable
  unfold execFeedLost
  exact ResAll.next (ite_keeps (P := P) (State.loseFeed_keeps hM ‹_›) ‹_›)

theorem execDeadTimeEnd_keeps {P g s} (hM : Mobile P) (hs : P s) :
    ResAll P (execDeadTimeEnd g s) := by
  have hS := hM.stable
  unfold execDeadTimeEnd
  exact ResAll.next (ite_keeps (P := P) (State.endDead_keeps hM ‹_›) ‹_›)

theorem execFeedReturn_keeps {P g s} (hS : Stable P) (hs : P s) :
    ResAll P (execFeedReturn g s) := by
  unfold execFeedReturn
  exact ResAll.next (ite_keeps (P := P) (State.startDead_keeps hS ‹_›) ‹_›)

theorem execBlankingEnd_keeps {P g s} (hS : Stable P) (hs : P s) :
    ResAll P (execBlankingEnd g s) := by
  unfold execBlankingEnd
  exact ResAll.next (ite_keeps (P := P) (State.modFeed_keeps hS ‹_›) ‹_›)

end Sys2Proof.Machine
end

