-- ==== Sys2Proof/Laws/KeepsHif.lean ====
section
/-!
SUPPORT. What the operations and meanings of Machine/Hif.lean keep (see Laws/Follows.lean): steady ones any `Stable` property, the others any
`Mobile` one.
-/

set_option linter.tactic.unusedName false
set_option linter.unusedVariables false

namespace Sys2Proof.Machine

theorem State.accessReg_keeps {P s r k} (hS : Stable P) (hs : P s) :
    P (State.accessReg s r k) := by
  unfold State.accessReg
  extract_lets +onlyGivenNames x
  split
  · assumption
  · exact ite_keeps (P := P) (State.wakeDoms_keeps hS (State.addSat_keeps hS (Stable.upd hS rfl ‹_› (List.suffix_refl _) id id id (BitVec.le_refl _) id))) ‹_›

theorem State.clearRead_keeps {P s r n k} (hS : Stable P) (hs : P s) :
    P (State.clearRead s r n k) := by
  unfold State.clearRead
  extract_lets +onlyGivenNames x
  refine cut_value (p := P x) ?_ ?_
  · subst x
    exact foldl_keeps (P := P) (fun a b h => (ite_keeps (P := P) (State.setFld_keeps hS ‹_›) ‹_›)) ‹_›
  intro hx
  clear_value x
  extract_lets +onlyGivenNames x
  split
  · split
    · exact State.modPort_keeps hS ‹_›
    · assumption
  · exact Stable.upd hS rfl ‹_› (List.suffix_refl _) id id id (BitVec.le_refl _) id
  · assumption

theorem State.msixByte_keeps {P s a_1 b} (hS : Stable P) (hs : P s) :
    P (State.msixByte s a_1 b) := by
  unfold State.msixByte
  extract_lets +onlyGivenNames x
  clear_value x
  extract_lets +onlyGivenNames x
  clear_value x
  extract_lets +onlyGivenNames x
  clear_value x
  exact ite_keeps (P := P) (State.msixWrite_keeps hS ‹_›) ‹_›

theorem State.msixBytesWrite_keeps {P s a_1 data} (hS : Stable P) (hs : P s) :
    P (State.msixBytesWrite s a_1 data) := by
  unfold State.msixBytesWrite
  refine foldl_keeps (P := P) (fun a b h => ?_) ?_
  · split
    · exact State.msixByte_keeps hS ‹_›
    · assumption
  · assumption

theorem State.readReg_keeps {P s r n k} (hS : Stable P) (hs : P s) :
    Snd P (State.readReg s r n k) := by
  unfold State.readReg
  extract_lets +onlyGivenNames x
  refine cut_value (p := P x) ?_ ?_
  · subst x
    exact State.accessReg_keeps hS ‹_›
  intro hx
  clear_value x
  extract_lets +onlyGivenNames x
  clear_value x
  extract_lets +onlyGivenNames x
  clear_value x
  extract_lets +onlyGivenNames x
  refine cut_value (p := P x) ?_ ?_
  · subst x
    exact Stable.upd hS rfl ‹_› (List.suffix_refl _) id id id (BitVec.le_refl _) id
  intro hx
  clear_value x
  exact ite_keeps (P := Snd P) (Snd.mk ‹_›) (ite_keeps (P := Snd P) (State.trcRead_keeps hS ‹_›) (Snd.mk (State.clearRead_keeps hS ‹_›)))

theorem State.read32_keeps {P s bar2 a_2} (hS : Stable P) (hs : P s) :
    Snd P (State.read32 s bar2 a_2) := by
  unfold State.read32
  extract_lets +onlyGivenNames x
  clear_value x
  refine ite_keeps (P := Snd P) ?_ ?_
  · exact Snd.mk ‹_›
  · refine ite_keeps (P := Snd P) ?_ ?_
    · split
      · exact Snd.mk ‹_›
      · exact ite_keeps (P := Snd P) (Snd.mk ‹_›) (State.readReg_keeps hS ‹_›)
    · split
      · exact Snd.mk ‹_›
      · exact State.readReg_keeps hS ‹_›

theorem State.readWords_keeps {P s bar2 a_2 a_3} (hS : Stable P) (hs : P s) :
    Snd P (State.readWords s bar2 a_2 a_3) := by
  induction a_3 generalizing s a_2 with
  | zero => exact Snd.mk hs
  | succ n ih => exact Snd.mk (Snd.out (ih (Snd.out (State.read32_keeps hS hs))))

theorem State.srcCtlWrite_keeps {P s v} (hS : Stable P) (hs : P s) :
    P (State.srcCtlWrite s v) := by
  unfold State.srcCtlWrite
  extract_lets +onlyGivenNames x
  clear_value x
  extract_lets +onlyGivenNames x
  clear_value x
  exact Stable.upd hS rfl ‹_› (List.suffix_refl _) id id id (BitVec.le_refl _) id

theorem State.writePage_keeps {P s r n k v} (hM : Mobile P) (hs : P s) :
    P (State.writePage s r n k v) := by
  have hS := hM.stable
  unfold State.writePage
  split
  · exact State.flowDoorbell_keeps hM ‹_›
  · exact State.mbDoorbell_keeps hS ‹_›
  · exact State.mbCfgWrite_keeps hM ‹_›
  · exact State.mbConsWrite_keeps hS ‹_›
  · exact State.mbStatusWrite_keeps hM ‹_›
  · exact State.cqCfgWrite_keeps hM ‹_›
  · exact State.cqConsWrite_keeps hS ‹_›
  · exact State.sigRaise_keeps hM ‹_›
  · exact State.sigPendSet_keeps hS ‹_›
  · exact State.sigPendClr_keeps hS ‹_›
  · exact State.sigMaskSet_keeps hS ‹_›
  · exact State.sigMaskClr_keeps hS ‹_›
  · exact State.sigSrcCfg_keeps hS ‹_›
  · exact State.sigPrio_keeps hS ‹_›
  · split
    · refine OptAll.elim (by assumption) ?_
      exact State.pageGate_keeps hS ‹_›
    · exact State.writeFields_keeps hM ‹_›

theorem State.writeBar0_keeps {P s r k v run} (hM : Mobile P) (hs : P s) :
    P (State.writeBar0 s r k v run) := by
  have hS := hM.stable
  unfold State.writeBar0
  extract_lets +onlyGivenNames x
  clear_value x
  extract_lets +onlyGivenNames x
  refine cut_value (p := P x) ?_ ?_
  · subst x
    exact State.writeFields_keeps hM ‹_›
  intro hx
  clear_value x
  extract_lets +onlyGivenNames x
  split
  · exact State.stepDownWrite_keeps hS (State.writeFields_keeps hM ‹_›)
  · exact State.ledgerClear_keeps hS ‹_›
  · exact State.periodWrite_keeps hS ‹_›
  · exact ite_keeps (P := P) (State.setSource_keeps hM ‹_›) ‹_›
  · exact State.paceCfgWrite_keeps hM ‹_›
  · exact State.trcCtrlWrite_keeps hM ‹_›
  · exact State.stopCmd_keeps hM ‹_›
  · exact ite_keeps (P := P) (State.stopTrigger_keeps hM ‹_›) ‹_›
  · exact State.sigRaise_keeps hM ‹_›
  · exact State.sigPendSet_keeps hS ‹_›
  · exact State.sigPendClr_keeps hS ‹_›
  · exact State.sigMaskSet_keeps hS ‹_›
  · exact State.sigMaskClr_keeps hS ‹_›
  · exact State.sigSrcCfg_keeps hS ‹_›
  · exact State.srcCtlWrite_keeps hS ‹_›
  · exact State.setPolicies_keeps hM ‹_›
  · exact State.ppmEclrWrite_keeps hS ‹_›
  · exact State.bootCtrlWrite_keeps hM ‹_›
  · exact ite_keeps (P := P) (Stable.upd hS rfl ‹_› (List.suffix_refl _) id id id (BitVec.le_refl _) id) ‹_›
  · exact State.errAck_keeps hS ‹_›
  · exact State.errFatalAck_keeps hS ‹_›
  · exact State.ltrWrite_keeps hS ‹_›
  · exact ite_keeps (P := P) ‹_› (State.writeFields_keeps hM ‹_›)
  · exact State.writeFields_keeps hM ‹_›

theorem State.write32_keeps {P s bar2 a_2 v run} (hM : Mobile P) (hs : P s) :
    P (State.write32 s bar2 a_2 v run) := by
  have hS := hM.stable
  unfold State.write32
  refine ite_keeps (P := P) ?_ ?_
  · exact ite_keeps (P := P) (State.msixWrite_keeps hS ‹_›) ‹_›
  · extract_lets +onlyGivenNames x
    refine ite_keeps (P := P) ?_ ?_
    · split
      · exact ite_keeps (P := P) (State.badAccess_keeps hS ‹_›) (ite_keeps (P := P) (State.badAccess_keeps hS ‹_›) ‹_›)
      · exact State.writePage_keeps hM (ite_keeps (P := P) ‹_› (State.accessReg_keeps hS ‹_›))
    · extract_lets +onlyGivenNames x
      split
      · assumption
      · extract_lets +onlyGivenNames x
        refine cut_value (p := P x) ?_ ?_
        · subst x
          exact State.accessReg_keeps hS ‹_›
        intro hx
        clear_value x
        exact ite_keeps (P := P) ‹_› (State.writeBar0_keeps hM ‹_›)

theorem State.writeWords_keeps {P s bar2 a_2 data run a_5} (hM : Mobile P) (hs : P s) :
    P (State.writeWords s bar2 a_2 data run a_5) := by
  induction a_5 generalizing s a_2 data with
  | zero => exact hs
  | succ n ih => exact ih (State.write32_keeps hM hs)

theorem execRegisterWrite_keeps {P bar2 addr data run s} (hM : Mobile P) (hs : P s) :
    ResAll P (execRegisterWrite bar2 addr data run s) := by
  have hS := hM.stable
  unfold execRegisterWrite
  extract_lets +onlyGivenNames x
  clear_value x
  extract_lets +onlyGivenNames x
  clear_value x
  refine ite_keeps (P := ResAll P) ?_ ?_
  · refine ResAll.next ?_
    split
    · exact State.badAccess_keeps hS ‹_›
    · exact ite_keeps (P := P) (State.writeWords_keeps hM ‹_›) (ite_keeps (P := P) (State.msixBytesWrite_keeps hS ‹_›) (State.badAccess_keeps hS ‹_›))
    · exact ite_keeps (P := P) (State.msixBytesWrite_keeps hS ‹_›) (State.badAccess_keeps hS ‹_›)
  · exact ResAll.fault

theorem execRegisterRead_keeps {P bar2 addr bytes s} (hS : Stable P) (hs : P s) :
    ResAll P (execRegisterRead bar2 addr bytes s) := by
  unfold execRegisterRead
  extract_lets +onlyGivenNames x
  clear_value x
  refine ite_keeps (P := ResAll P) ?_ ?_
  · extract_lets +onlyGivenNames x
    refine ResAll.next ?_
    extract_lets +onlyGivenNames x
    split
    · extract_lets +onlyGivenNames x
      refine cut_value (p := Snd P x) ?_ ?_
      · subst x
        exact State.readWords_keeps hS ‹_›
      intro hx
      clear_value x
      exact State.emit_keeps hS (Snd.out ‹_›)
    · extract_lets +onlyGivenNames x
      refine cut_value (p := Snd P x) ?_ ?_
      · subst x
        exact State.readWords_keeps hS ‹_›
      intro hx
      clear_value x
      exact ite_keeps (P := P) (State.emit_keeps hS ‹_›) (State.emit_keeps hS (Snd.out ‹_›))
    · exact State.emit_keeps hS (State.badAccess_keeps hS ‹_›)
    · exact ite_keeps (P := P) (State.emit_keeps hS ‹_›) (State.emit_keeps hS (State.badAccess_keeps hS ‹_›))
  · exact ResAll.fault

end Sys2Proof.Machine
end

