-- ==== Sys2Proof/Laws/KeepsImage.lean ====
section
/-!
SUPPORT. What the operations and meanings of Machine/Image.lean keep (see Laws/Follows.lean): steady ones any `Stable` property, the others any
`Mobile` one.
-/

set_option linter.tactic.unusedName false
set_option linter.unusedVariables false

namespace Sys2Proof.Machine

theorem State.freeList_keeps {P a_0 a_1} (hS : Stable P) (ha_1 : P a_1) :
    Snd P (State.freeList a_0 a_1) := by
  induction a_0 generalizing a_1 with
  | zero => exact Snd.mk ha_1
  | succ n ih => exact Snd.mk (Snd.out (ih (Snd.out (State.freeWord_keeps hS ha_1))))

theorem State.placeStaged_keeps {P s ctx idx ws whole} (hS : Stable P) (hs : P s) :
    P (State.placeStaged s ctx idx ws whole) := by
  unfold State.placeStaged
  extract_lets +onlyGivenNames x
  clear_value x
  extract_lets +onlyGivenNames x
  refine cut_value (p := P x) ?_ ?_
  · subst x
    split
    · exact State.useBank_keeps hS ‹_›
    · assumption
  intro hx
  clear_value x
  exact ite_keeps (P := P) ‹_› (State.modXfer_keeps hS ‹_›)

theorem State.putSources_keeps {P s i img} (hS : Stable P) (hs : P s) :
    P (State.putSources s i img) := by
  unfold State.putSources
  extract_lets +onlyGivenNames x
  subst x
  dsimp -zeta -zetaDelta only
  refine foldl_keeps (P := P) (fun a b h => ?_) ?_
  · extract_lets +onlyGivenNames x
    clear_value x
    split
    · exact Stable.upd hS rfl ‹_› (List.suffix_refl _) id id id (BitVec.le_refl _) id
    · assumption
  · assumption

theorem State.putPage_keeps {P s i r k v} (hS : Stable P) (hs : P s) :
    P (State.putPage s i r k v) := by
  unfold State.putPage
  exact State.setReg_keeps hS ‹_›

theorem State.putRings_keeps {P s i img} (hS : Stable P) (hs : P s) :
    P (State.putRings s i img) := by
  unfold State.putRings
  refine foldl_keeps (P := P) (fun a b h => ?_) ?_
  · extract_lets +onlyGivenNames x
    clear_value x
    extract_lets +onlyGivenNames x
    clear_value x
    extract_lets +onlyGivenNames x
    refine cut_value (p := P x) ?_ ?_
    · subst x
      exact State.putPage_keeps hS (State.putPage_keeps hS (State.putPage_keeps hS (State.putPage_keeps hS ‹_›)))
    intro hx
    clear_value x
    extract_lets +onlyGivenNames x
    refine cut_value (p := P x) ?_ ?_
    · subst x
      exact State.setFld_keeps hS ‹_›
    intro hx
    clear_value x
    exact State.modInst_keeps hS ‹_›
  · assumption

theorem State.putMailbox_keeps {P s i img} (hS : Stable P) (hs : P s) :
    P (State.putMailbox s i img) := by
  unfold State.putMailbox
  extract_lets +onlyGivenNames x
  subst x
  dsimp -zeta -zetaDelta only
  extract_lets +onlyGivenNames x
  refine cut_value (p := P x) ?_ ?_
  · subst x
    exact State.putPage_keeps hS (State.putPage_keeps hS (State.putPage_keeps hS (State.putPage_keeps hS (State.putPage_keeps hS ‹_›))))
  intro hx
  clear_value x
  extract_lets +onlyGivenNames x
  refine cut_value (p := P x) ?_ ?_
  · subst x
    exact State.putPage_keeps hS ‹_›
  intro hx
  clear_value x
  extract_lets +onlyGivenNames x
  refine cut_value (p := P x) ?_ ?_
  · subst x
    exact State.putPage_keeps hS ‹_›
  intro hx
  clear_value x
  extract_lets +onlyGivenNames x
  clear_value x
  exact State.modInst_keeps hS ‹_›

theorem State.putHeader_keeps {P s i pasid img} (hS : Stable P) (hs : P s) :
    P (State.putHeader s i pasid img) := by
  unfold State.putHeader
  extract_lets +onlyGivenNames x
  refine cut_value (p := P x) ?_ ?_
  · subst x
    exact State.carve_keeps hS ‹_›
  intro hx
  clear_value x
  extract_lets +onlyGivenNames x
  refine cut_value (p := P x) ?_ ?_
  · subst x
    exact State.putSources_keeps hS (State.putRings_keeps hS (State.putMailbox_keeps hS ‹_›))
  intro hx
  clear_value x
  extract_lets +onlyGivenNames x
  refine cut_value (p := P x) ?_ ?_
  · subst x
    exact State.putPage_keeps hS (State.putPage_keeps hS ‹_›)
  intro hx
  clear_value x
  extract_lets +onlyGivenNames x
  clear_value x
  extract_lets +onlyGivenNames x
  clear_value x
  exact State.modInst_keeps hS ‹_›

theorem State.putXfers_keeps {P s ctx r data} (hM : Mobile P) (hs : P s) :
    P (State.putXfers s ctx r data) := by
  have hS := hM.stable
  unfold State.putXfers
  split
  · assumption
  · extract_lets +onlyGivenNames x
    clear_value x
    extract_lets +onlyGivenNames x
    refine cut_value (p := P x) ?_ ?_
    · subst x
      exact State.addVisible_keeps hM ‹_›
    intro hx
    clear_value x
    extract_lets +onlyGivenNames x
    refine cut_value (p := P x) ?_ ?_
    · subst x
      exact State.modXfer_keeps hS ‹_›
    intro hx
    clear_value x
    extract_lets +onlyGivenNames x
    clear_value x
    exact ite_keeps (P := P) (foldl_keeps (P := P) (fun a b h => (State.placeStaged_keeps hS ‹_›)) ‹_›) (State.placeStaged_keeps hS ‹_›)

theorem State.restoreFlow_keeps {P s i img k ofs} (hM : Mobile P) (hs : P s) :
    OptAll P (State.restoreFlow s i img k ofs) := by
  have hS := hM.stable
  unfold State.restoreFlow
  extract_lets +onlyGivenNames x
  clear_value x
  extract_lets +onlyGivenNames x
  clear_value x
  extract_lets +onlyGivenNames x
  clear_value x
  extract_lets +onlyGivenNames x
  clear_value x
  split
  · split
    extract_lets +onlyGivenNames x
    clear_value x
    extract_lets +onlyGivenNames x
    clear_value x
    extract_lets +onlyGivenNames x
    refine cut_value (p := P x) ?_ ?_
    · subst x
      refine Stable.upd hS rfl ?_ (List.suffix_refl _) id id id (BitVec.le_refl _) id
      refine Snd.elim (by assumption) ?_
      refine State.freeList_keeps hS ?_
      refine OptAll.snd (by assumption) ?_
      exact State.takeContext_keeps hS ‹_›
    intro hx
    clear_value x
    exact OptAll.some (State.putXfers_keeps hM (State.putFlow_keeps hS ‹_›))
  · exact OptAll.none

theorem State.restoreFlows_keeps {P i img a_2 a_3 a_4 a_5} (hM : Mobile P) (ha_5 : P a_5) :
    OptAll P (State.restoreFlows i img a_2 a_3 a_4 a_5) := by
  induction a_2 generalizing a_3 a_4 a_5 with
  | zero => exact OptAll.some ha_5
  | succ n ih =>
    unfold State.restoreFlows
    split
    · exact ih (OptAll.elim ‹_› (State.restoreFlow_keeps hM ha_5))
    · exact OptAll.none

theorem State.restore_keeps {P s c i pasid img} (hM : Mobile P) (hs : P s) :
    P (State.restore s c i pasid img) := by
  have hS := hM.stable
  unfold State.restore
  extract_lets +onlyGivenNames x
  clear_value x
  extract_lets +onlyGivenNames x
  clear_value x
  extract_lets +onlyGivenNames x
  subst x
  refine ite_keeps (P := P) ?_ ?_
  · exact State.done_keeps hM ‹_›
  · refine ite_keeps (P := P) ?_ ?_
    · exact State.done_keeps hM ‹_›
    · refine ite_keeps (P := P) ?_ ?_
      · exact State.done_keeps hM ‹_›
      · refine ite_keeps (P := P) ?_ ?_
        · exact State.done_keeps hM ‹_›
        · refine ite_keeps (P := P) ?_ ?_
          · exact State.done_keeps hM ‹_›
          · refine ite_keeps (P := P) ?_ ?_
            · exact State.done_keeps hM ‹_›
            · split
              · exact State.done_keeps hM ‹_›
              · split
                · exact State.done_keeps hM ‹_›
                · refine State.done_keeps hM (State.happen_keeps hM (ite_keeps (P := P) ?_ ?_))
                  · refine State.planAgain_keeps hS ?_
                    refine OptAll.elim (by assumption) ?_
                    exact State.restoreFlows_keeps hM (State.putHeader_keeps hS ‹_›)
                  · refine OptAll.elim (by assumption) ?_
                    exact State.restoreFlows_keeps hM (State.putHeader_keeps hS ‹_›)

theorem execInstSave_keeps {P c s} (hM : Mobile P) (hs : P s) :
    ResAll P (execInstSave c s) := by
  have hS := hM.stable
  unfold execInstSave
  refine ResAll.next ?_
  extract_lets +onlyGivenNames x
  refine State.command_keeps hM ?_ ?_
  · assumption
  · intro a
    extract_lets +onlyGivenNames x
    clear_value x
    extract_lets +onlyGivenNames x
    clear_value x
    exact ite_keeps (P := P) (State.done_keeps hM ‹_›) (ite_keeps (P := P) (State.done_keeps hM ‹_›) (State.done_keeps hM (State.postBytes_keeps hS ‹_›)))

theorem execInstRestore_keeps {P c image e s} (hM : Mobile P) (hs : P s) :
    ResAll P (execInstRestore c image e s) := by
  have hS := hM.stable
  unfold execInstRestore
  extract_lets +onlyGivenNames x
  clear_value x
  refine guarded_keeps hS ?_
  extract_lets +onlyGivenNames x
  refine State.command_keeps hM ?_ ?_
  · assumption
  · intro a
    extract_lets +onlyGivenNames x
    clear_value x
    extract_lets +onlyGivenNames x
    refine cut_value (p := P x) ?_ ?_
    · subst x
      exact State.cmdRead_keeps hM ‹_›
    intro hx
    clear_value x
    exact ite_keeps (P := P) (State.done_keeps hM ‹_›) (ite_keeps (P := P) (State.done_keeps hM ‹_›) (State.restore_keeps hM ‹_›))

end Sys2Proof.Machine
end

