-- ==== Sys2Proof/Laws/KeepsJtag.lean ====
section
/-!
SUPPORT. What the operations and meanings of Machine/Jtag.lean keep (see Laws/Follows.lean): steady ones any `Stable` property, the others any
`Mobile` one.
-/

set_option linter.tactic.unusedName false
set_option linter.unusedVariables false

namespace Sys2Proof.Machine

theorem State.bareManager_keeps {P s} (hS : Stable P) (hs : P s) :
    P (State.bareManager s) := by
  unfold State.bareManager
  exact State.setInst_keeps hS (State.freshPage_keeps hS ‹_›)

theorem State.jtagLoad_keeps {P s i width v} (hS : Stable P) (hs : P s) :
    P (State.jtagLoad s i width v) := by
  unfold State.jtagLoad
  extract_lets +onlyGivenNames x
  clear_value x
  exact State.emit_keeps hS (Stable.upd hS rfl ‹_› (List.suffix_refl _) id id id (BitVec.le_refl _) id)

theorem State.zeroArrays_keeps {P s} (hS : Stable P) (hs : P s) :
    P (State.zeroArrays s) := by
  unfold State.zeroArrays
  extract_lets +onlyGivenNames x
  refine cut_value (p := P x) ?_ ?_
  · subst x
    exact foldl_keeps (P := P) (fun a b h => (ite_keeps (P := P) ‹_› (State.afterDestroy_keeps hS ‹_›))) ‹_›
  intro hx
  clear_value x
  extract_lets +onlyGivenNames x
  refine cut_value (p := P x) ?_ ?_
  · subst x
    exact State.bareManager_keeps hS ‹_›
  intro hx
  clear_value x
  extract_lets +onlyGivenNames x
  clear_value x
  extract_lets +onlyGivenNames x
  exact Stable.upd hS rfl ‹_› (List.suffix_refl _) id (fun _ => rfl) id (BitVec.le_refl _) id

theorem execDbgUnlock_keeps {P s} (hM : Mobile P) (hs : P s) :
    ResAll P (execDbgUnlock s) := by
  have hS := hM.stable
  unfold execDbgUnlock
  extract_lets +onlyGivenNames x
  refine cut_value (p := P x) ?_ ?_
  · subst x
    exact State.stopTrigger_keeps hM ‹_›
  intro hx
  clear_value x
  extract_lets +onlyGivenNames x
  extract_lets +onlyGivenNames x
  clear_value x
  extract_lets +onlyGivenNames x
  refine cut_value (p := P x) ?_ ?_
  · subst x
    exact Stable.upd hS rfl ‹_› (List.suffix_refl _) id id id (BitVec.le_refl _) id
  intro hx
  clear_value x
  extract_lets +onlyGivenNames x
  refine cut_value (p := P x) ?_ ?_
  · subst x
    exact State.zeroArrays_keeps hS ‹_›
  intro hx
  clear_value x
  extract_lets +onlyGivenNames x
  extract_lets +onlyGivenNames x
  refine cut_value (p := P x) ?_ ?_
  · subst x
    exact Mobile.upd hM ‹_› (fun ok => ⟨ok.run, nofun, nofun⟩) (List.suffix_refl _) id id id (BitVec.le_refl _) id
  intro hx
  clear_value x
  extract_lets +onlyGivenNames x
  refine cut_value (p := P x) ?_ ?_
  · subst x
    exact State.wakeDoms_keeps hS (State.setMode_keeps hM ‹_› (fun _ h => nomatch h))
  intro hx
  clear_value x
  extract_lets +onlyGivenNames x
  exact ResAll.next (Stable.upd hS rfl ‹_› (List.suffix_refl _) id id id (BitVec.le_refl _) id)

theorem execBypass_keeps {P s} (hS : Stable P) (hs : P s) :
    ResAll P (execBypass s) := by
  unfold execBypass
  exact ResAll.next (State.jtagLoad_keeps hS ‹_›)

theorem execIdcode_keeps {P s} (hS : Stable P) (hs : P s) :
    ResAll P (execIdcode s) := by
  unfold execIdcode
  exact ResAll.next (State.jtagLoad_keeps hS ‹_›)

theorem execSamplePreload_keeps {P pins preload s} (hS : Stable P) (hs : P s) :
    ResAll P (execSamplePreload pins preload s) := by
  unfold execSamplePreload
  extract_lets +onlyGivenNames x
  refine cut_value (p := P x) ?_ ?_
  · subst x
    exact State.jtagLoad_keeps hS ‹_›
  intro hx
  clear_value x
  exact ResAll.next (Stable.upd hS rfl ‹_› (List.suffix_refl _) id id id (BitVec.le_refl _) id)

theorem execExtest_keeps {P s} (hS : Stable P) (hs : P s) :
    ResAll P (execExtest s) := by
  unfold execExtest
  extract_lets +onlyGivenNames x
  clear_value x
  exact ResAll.next (State.emit_keeps hS (Stable.upd hS rfl ‹_› (List.suffix_refl _) id id id (BitVec.le_refl _) id))

theorem execClamp_keeps {P s} (hS : Stable P) (hs : P s) :
    ResAll P (execClamp s) := by
  unfold execClamp
  exact ResAll.next (State.emit_keeps hS (State.jtagLoad_keeps hS ‹_›))

theorem execHighz_keeps {P s} (hS : Stable P) (hs : P s) :
    ResAll P (execHighz s) := by
  unfold execHighz
  exact ResAll.next (State.emit_keeps hS (State.jtagLoad_keeps hS ‹_›))

end Sys2Proof.Machine
end

