-- ==== Sys2Proof/Laws/KeepsDispatch.lean ====
section
/-!
SUPPORT. What the operations and meanings of Machine/Dispatch.lean keep (see Laws/Follows.lean): steady ones any `Stable` property, the others any
`Mobile` one.
-/

set_option linter.tactic.unusedName false
set_option linter.unusedVariables false

namespace Sys2Proof.Machine

theorem exec_keeps {P i s} (hM : Mobile P) (hs : P s) :
    ResAll P (exec i s) := by
  have hS := hM.stable
  unfold exec
  split
  · exact execNop_keeps hM ‹_›
  · exact execIdentify_keeps hM ‹_›
  · exact execGetLimits_keeps hM ‹_›
  · exact execEventRoute_keeps hM ‹_›
  · exact execInstCreate_keeps hM ‹_›
  · exact execInstDestroy_keeps hM ‹_›
  · exact execInstReset_keeps hM ‹_›
  · exact execInstSetShare_keeps hM ‹_›
  · exact execInstQuery_keeps hM ‹_›
  · exact execInstFreeze_keeps hM ‹_›
  · exact execInstSave_keeps hM ‹_›
  · exact execInstRestore_keeps hM ‹_›
  · exact execInstThaw_keeps hM ‹_›
  · exact execPortPower_keeps hM ‹_›
  · exact execPortReset_keeps hM ‹_›
  · exact execPortSuspend_keeps hM ‹_›
  · exact execPortResume_keeps hM ‹_›
  · exact execPortStatus_keeps hM ‹_›
  · exact execTreeEnumerate_keeps hM ‹_›
  · exact execNodeInfo_keeps hM ‹_›
  · exact execNodeBind_keeps hM ‹_›
  · exact execLinkMargin_keeps hM ‹_›
  · exact execLinkRate_keeps hM ‹_›
  · exact execFlowOpen_keeps hM ‹_›
  · exact execFlowClose_keeps hM ‹_›
  · exact execFlowModify_keeps hM ‹_›
  · exact execFlowQuery_keeps hM ‹_›
  · exact execPlanCheck_keeps hM ‹_›
  · exact execFlowHold_keeps hM ‹_›
  · exact execFlowUnhold_keeps hM ‹_›
  · exact execControlXfer_keeps hM ‹_›
  · exact execTimeGet_keeps hM ‹_›
  · exact execTimeAdjust_keeps hM ‹_›
  · exact execTimeSource_keeps hM ‹_›
  · exact execPaceConfig_keeps hM ‹_›
  · exact execPaceQuery_keeps hM ‹_›
  · exact execCourseConfig_keeps hM ‹_›
  · exact execCoursePeriodWrite_keeps hS ‹_›
  · exact execGangConfig_keeps hM ‹_›
  · exact execGangStatus_keeps hM ‹_›
  · exact execGangJoin_keeps hM ‹_›
  · exact execGangLeave_keeps hM ‹_›
  · exact execModeSet_keeps hM ‹_›
  · exact execDomainPolicy_keeps hM ‹_›
  · exact execPpmConfig_keeps hM ‹_›
  · exact execPpmRead_keeps hM ‹_›
  · exact execFwStage_keeps hM ‹_›
  · exact execFwCommit_keeps hM ‹_›
  · exact execErrlogRead_keeps hM ‹_›
  · exact execTraceConfig_keeps hM ‹_›
  · exact execPerturbSet_keeps hM ‹_›
  · exact execSelftest_keeps hM ‹_›
  · exact execGetDescriptor_keeps hM ‹_›
  · exact execSetAddress_keeps hM ‹_›
  · exact execSetConfig_keeps hM ‹_›
  · exact execClearHalt_keeps hM ‹_›
  · exact execSetHalt_keeps hM ‹_›
  · exact execGetStatus_keeps hM ‹_›
  · exact execSetPathDelay_keeps hM ‹_›
  · exact execGetPortStatus_keeps hM ‹_›
  · exact execGetPortErrors_keeps hM ‹_›
  · exact execSetPortFeature_keeps hM ‹_›
  · exact execClearPortFeature_keeps hM ‹_›
  · exact execSetHubTier_keeps hM ‹_›
  · exact execGetPortDelay_keeps hM ‹_›
  · exact execGetGangInfo_keeps hM ‹_›
  · exact execSetGang_keeps hM ‹_›
  · exact execFlowDoorbell_keeps hM ‹_›
  · exact execMailboxDoorbell_keeps hS ‹_›
  · exact execMailboxEnable_keeps hM ‹_›
  · exact execMailboxConsumerWrite_keeps hS ‹_›
  · exact execFetchErrClear_keeps hM ‹_›
  · exact execCqEnable_keeps hM ‹_›
  · exact execCqConsumerWrite_keeps hS ‹_›
  · exact execSigRaise_keeps hM ‹_›
  · exact execSigPendSet_keeps hS ‹_›
  · exact execSigPendClr_keeps hS ‹_›
  · exact execSigMaskSet_keeps hS ‹_›
  · exact execSigMaskClr_keeps hS ‹_›
  · exact execSigSrcCfgWrite_keeps hS ‹_›
  · exact execSigPrio_keeps hS ‹_›
  · exact execStepDownWrite_keeps hS ‹_›
  · exact execTrkLedgerClr_keeps hS ‹_›
  · exact execEngStopCmd_keeps hM ‹_›
  · exact execErrAck_keeps hS ‹_›
  · exact execErrFatalAck_keeps hS ‹_›
  · exact execBootCtrl_keeps hM ‹_›
  · exact execPpmEclr_keeps hS ‹_›
  · exact execHifLtrWrite_keeps hS ‹_›
  · exact execTrcBufRead_keeps hS ‹_›
  · exact execRegisterWrite_keeps hM ‹_›
  · exact execPresenceChange_keeps hM ‹_›
  · exact execAttach_keeps hM ‹_›
  · exact execDetach_keeps hM ‹_›
  · exact execActivityDetect_keeps hM ‹_›
  · exact execResetDetect_keeps hM ‹_›
  · exact execChirpReceive_keeps hS ‹_›
  · exact execResetHoldEnd_keeps hM ‹_›
  · exact execChirpAckReceive_keeps hS ‹_›
  · exact execTrainReceive_keeps hS ‹_›
  · exact execBlockLockGained_keeps hS ‹_›
  · exact execPresetRequest_keeps hS ‹_›
  · exact execTrainingUp_keeps hM ‹_›
  · exact execTrainingTimeout_keeps hM ‹_›
  · exact execBlockInError_keeps hS ‹_›
  · exact execBlockLockLost_keeps hM ‹_›
  · exact execCourseStartReceive_keeps hM ‹_›
  · exact execCourseSyncLost_keeps hM ‹_›
  · exact execNodeTimeInvalid_keeps hS ‹_›
  · exact execSuspendReceive_keeps hS ‹_›
  · exact execPortSuspendEntry_keeps hM ‹_›
  · exact execWakeRecognised_keeps hM ‹_›
  · exact execNodeRemoteWake_keeps hS ‹_›
  · exact execWakeSendEnd_keeps hS ‹_›
  · exact execPingSend_keeps hS ‹_›
  · exact execPingReceive_keeps hS ‹_›
  · exact execPongReceive_keeps hS ‹_›
  · exact execStopReceive_keeps hM ‹_›
  · exact execHubDownstreamForward_keeps hM ‹_›
  · exact execHubUpstreamForward_keeps hS ‹_›
  · exact execOutReceive_keeps hM ‹_›
  · exact execInTokenReceive_keeps hM ‹_›
  · exact execSetupReceive_keeps hM ‹_›
  · exact execNodeHandshakeReceive_keeps hM ‹_›
  · exact execReleaseFire_keeps hS ‹_›
  · exact execCourseBoundary_keeps hM ‹_›
  · exact execMarginWindowEnd_keeps hS ‹_›
  · exact execPlanMarkedReady_keeps hM ‹_›
  · exact execHoldoverTick_keeps hM ‹_›
  · exact execPpsEdge_keeps hM ‹_›
  · exact execPpsMissing_keeps hM ‹_›
  · exact execPpsLock_keeps hM ‹_›
  · exact execPpsOutEdge_keeps hS ‹_›
  · exact execCoreClockChange_keeps hM ‹_›
  · exact execStageWindowOpen_keeps hM ‹_›
  · exact execAcceptanceDeadline_keeps hM ‹_›
  · exact execRingFetchIssue_keeps hS ‹_›
  · exact execDescriptorArrival_keeps hM ‹_›
  · exact execStageFetchIssue_keeps hS ‹_›
  · exact execStageReadComplete_keeps hM ‹_›
  · exact execInputWriteBack_keeps hS ‹_›
  · exact execHostStallOpen_keeps hM ‹_›
  · exact execHostStallClose_keeps hM ‹_›
  · exact execCompletionRelease_keeps hM ‹_›
  · exact execDispatchDecision_keeps hM ‹_›
  · exact execFirmwareTaskDispatch_keeps hM ‹_›
  · exact execDelayExpiry_keeps hM ‹_›
  · exact execTaskAged_keeps hS ‹_›
  · exact execEngineTaskReturn_keeps hM ‹_›
  · exact execPacketTransmit_keeps hM ‹_›
  · exact execResponseMatch_keeps hM ‹_›
  · exact execResponseWindowClose_keeps hM ‹_›
  · exact execStopInLow_keeps hM ‹_›
  · exact execCommandTake_keeps hM ‹_›
  · exact execCommandStart_keeps hM ‹_›
  · exact execEngineEpochAck_keeps hM ‹_›
  · exact execInstanceQuiescent_keeps hM ‹_›
  · exact execAutoEnumerate_keeps hM ‹_›
  · exact execEnumFail_keeps hM ‹_›
  · exact execReseatExpired_keeps hM ‹_›
  · exact execHubPortPowerStep_keeps hM ‹_›
  · exact execHubPortRetryExpiry_keeps hM ‹_›
  · exact execGutterDecision_keeps hM ‹_›
  · exact execHoldoffEnd_keeps hS ‹_›
  · exact execCoreDeliveryTaken_keeps hS ‹_›
  · exact execPowerStateChange_keeps hM ‹_›
  · exact execMsixControlChange_keeps hS ‹_›
  · exact execVectorUnmask_keeps hS ‹_›
  · exact execPacePacketReceive_keeps hS ‹_›
  · exact execRidgeLockGained_keeps hM ‹_›
  · exact execRidgeLockLost_keeps hM ‹_›
  · exact execLeaseLost_keeps hM ‹_›
  · exact execLeaseRestored_keeps hM ‹_›
  · exact execGangDecisionEnd_keeps hM ‹_›
  · exact execGangJoinTimeout_keeps hM ‹_›
  · exact execGangPortRetry_keeps hS ‹_›
  · exact execEstimatorEnable_keeps hM ‹_›
  · exact execEncoderEdge_keeps hM ‹_›
  · exact execIndexEdge_keeps hM ‹_›
  · exact execSourceLost_keeps hM ‹_›
  · exact execEstimatorStopped_keeps hM ‹_›
  · exact execSleepRequest_keeps hM ‹_›
  · exact execDeferRetry_keeps hS ‹_›
  · exact execHandshakeNoAnswer_keeps hM ‹_›
  · exact execStandbyEntry_keeps hM ‹_›
  · exact execWakeSourceActive_keeps hM ‹_›
  · exact execDomainWakeRequest_keeps hS ‹_›
  · exact execDomainWakeComplete_keeps hM ‹_›
  · exact execPrewake_keeps hM ‹_›
  · exact execBankIdleGate_keeps hS ‹_›
  · exact execScrubPass_keeps hM ‹_›
  · exact execBankRestore_keeps hS ‹_›
  · exact execSramRetRelease_keeps hS ‹_›
  · exact execPpmTick_keeps hM ‹_›
  · exact execLimitRelease_keeps hM ‹_›
  · exact execFaultTimerExpiry_keeps hM ‹_›
  · exact execRampTimeout_keeps hM ‹_›
  · exact execFastTrip_keeps hS ‹_›
  · exact execPpmRetryExpiry_keeps hM ‹_›
  · exact execRetriesClear_keeps hS ‹_›
  · exact execOscillatorStart_keeps hS ‹_›
  · exact execFeedGood_keeps hM ‹_›
  · exact execFeedLost_keeps hM ‹_›
  · exact execDeadTimeEnd_keeps hM ‹_›
  · exact execFeedReturn_keeps hS ‹_›
  · exact execBlankingEnd_keeps hS ‹_›
  · exact execPorst_keeps hM ‹_›
  · exact execWrst_keeps hM ‹_›
  · exact execStartStepTimeout_keeps hM ‹_›
  · exact execWatchdog_keeps hM ‹_›
  · exact execSuccessWindowEnd_keeps hS ‹_›
  · exact execPerstAssert_keeps hM ‹_›
  · exact execPerstDeassert_keeps hM ‹_›
  · exact execFlr_keeps hM ‹_›
  · exact execL1ExitRequest_keeps hM ‹_›
  · exact execWakein_keeps hM ‹_›
  · exact execAoTimer_keeps hM ‹_›
  · exact execDbgUnlock_keeps hM ‹_›
  · exact execBypass_keeps hS ‹_›
  · exact execIdcode_keeps hS ‹_›
  · exact execSamplePreload_keeps hS ‹_›
  · exact execExtest_keeps hS ‹_›
  · exact execClamp_keeps hS ‹_›
  · exact execHighz_keeps hS ‹_›
  · exact execRegisterRead_keeps hS ‹_›
  · exact execFirmwareTaskReturn_keeps hM ‹_›
  · exact execFastBankRelease_keeps hS ‹_›
  · exact execControlXferTimeout_keeps hM ‹_›
  · exact execStopInRelease_keeps hS ‹_›
  · exact execSupplyFault_keeps hM ‹_›
  · exact execSurpriseDown_keeps hM ‹_›
  · exact execAerUncorrectable_keeps hM ‹_›
  · exact execHubPortOvercurrent_keeps hM ‹_›
  · exact execAoTick_keeps hS ‹_›
  · exact execNodeReady_keeps hS ‹_›
  · exact execLtrEnable_keeps hS ‹_›

end Sys2Proof.Machine
end

