-- ==== Sys2Proof/Laws/Step.lean ====
section
/-!
SUPPORT. What one step can do, said once: an idle step is a tick, another is the front command's meaning, and either follows the state it
started from with the front command taken.
-/

namespace Sys2Proof.Machine

theorem step_idle {s : State} (h : s.pending = []) : step s = .next (tick s) := by simp [step, h]

theorem step_front {c : Instr} {rest : List Instr} {s : State} (h : s.pending = c :: rest) :
    step s = exec c { s with pending := rest } := by simp [step, h]

theorem tick_follows (s : State) : s.Follows (tick s) := by
  unfold tick
  split <;> exact ⟨⟨rfl, List.suffix_refl _, id, id, id, BitVec.le_refl _, id⟩, id⟩

/-- A meaning that answers a next state follows the state it was given. -/
theorem exec_follows {c : Instr} {s t : State} (h : exec c s = .next t) : s.Follows t := exec_keeps (State.Follows.mobile s) (.refl s) t h

theorem step_follows {s t : State} (h : step s = .next t) : ({ s with pending := s.pending.tail } : State).Follows t := by
  cases hp : s.pending with
  | nil =>
    rw [step_idle hp] at h
    cases h
    have : ({ s with pending := s.pending.tail } : State) = s := by cases s; simp_all
    rw [← hp, this]
    exact tick_follows s
  | cons c rest =>
    rw [step_front hp] at h
    exact exec_follows h

end Sys2Proof.Machine
end

