-- ==== Sys2Proof/Tests/Slice0.lean ====
section
/-!
SUPPORT. Tests of the model against the spec's own figures, and witnesses of the statements' hypotheses.
-/

namespace Sys2Proof.Tests

open Sys2Proof Sys2Proof.Machine

set_option Elab.async false

/-! ## Small states -/

/-- An entry of 64 bytes: opcode, and parameters as offset, number of bytes, value. -/
def entryOf (op : Nat) (ps : List (Nat × Nat × Nat)) : List Byte :=
  (List.range 64).map fun o => BitVec.ofNat 8 ((if o < 2 then op / 256 ^ o else 0) +
    (ps.map fun p => if p.1 ≤ o && o < p.1 + p.2.1 then p.2.2 / 256 ^ (o - p.1) % 256 else 0).sum)

/-- A taken command that has started. -/
def tk (op : Nat) (ps : List (Nat × Nat × Nat)) : Taken := ⟨0, entryOf op ps, true, false, false, 0, [], .notSent, false, 0⟩

/-- The first command of the manager. -/
def c0 : CmdRef := ⟨0, 0⟩

/-- After start-up, in a mode. -/
def up (m : Mode) : State :=
  { State.reset with boot := { State.reset.boot with start := none }, pmu := { State.reset.pmu with mode := m, target := m } }

/-- The manager with a taken command. -/
def mgr (t : Taken) : Instance := { Instance.manager with mb := { Instance.manager.mb with taken := [t] } }

/-- After start-up, with a command of the manager in hand. -/
def inHand (s : State) (t : Taken) : State := { s with insts := kput Instance.init s.insts 0 (mgr t) }

/-- A command of the manager with these parameters stands ready in a state. -/
abbrev ready (s : State) (fr : Frame) (ps : List (Nat × Nat × Nat)) : Prop :=
  (inHand s (tk fr.opcode ps)).standsReady c0 (tk fr.opcode ps) fr = true

theorem maxInstances_pos : 0 < maxInstances := by simp only [maxInstances]; split <;> (try split) <;> omega


/-! ## Witnesses: states and operands that meet the hypotheses of the statements -/

theorem witness_StepRunsTheFrontCommand : ({ up .setup with pending := [.wakein 0 true] } : State).pending = [.wakein 0 true] := by decide

theorem witness_IdleStepAdvancesBusTimeOnly :
    (up .setup).pending = [] ∧ (up .setup).pmu.doms[10] = .on ∧ -1000000000 ≤ (up .setup).time.rate ∧
    ({ up .setup with pmu := { (up .setup).pmu with doms := (up .setup).pmu.doms.set 10 .off } } : State).pmu.doms[10] ≠ .on := by
  decide +kernel

/-- A drive in order: the premise of the statements about sound states. -/
theorem witness_sound (s : State) (hr : s.regs = []) (hf : s.flows = []) (hi : s.insts = [(0, Instance.manager)])
    (h1 : s.stop.latched = true → s.pmu.mode ≠ .run) (h2 : s.pmu.changing = false) (h3 : s.pmu.entry = none) : s.Sound where
  regs := by rw [hr]; rfl
  flows := by rw [hf]; rfl
  insts := by rw [hi]; rfl
  drive := ⟨h1, by intro h; simp [State.drive, h2] at h, by intro m h; simp [State.drive, h3] at h⟩

/-- A stop latched in Hold, with a command in front. -/
def stopped : State := { up .hold with stop := { (up .hold).stop with latched := true }, pending := [.wakein 0 true] }

theorem witness_EveryStepKeepsTheStateSound : stopped.Sound ∧ ∃ t, step stopped = .next t :=
  ⟨witness_sound _ rfl rfl rfl (by decide) rfl rfl, _, rfl⟩

theorem witness_LatchedStopExcludesRun : stopped.Sound ∧ stopped.stop.latched = true ∧ ∃ t, step stopped = .next t ∧ t.stop.latched = true :=
  ⟨witness_sound _ rfl rfl rfl (by decide) rfl rfl, rfl, _, rfl, by decide +kernel⟩

theorem witness_CommandsKeepTheQueueAndTheLog : ∃ t, exec (.wakein 0 true) stopped = .next t := ⟨_, rfl⟩

/-- The end of a success window, with an image of rollback 64 under KEY1. -/
def inWindow : State := { up .setup with boot := { (up .setup).boot with
  window := true, slotA := { Slot.init with rollback := 64, key := 1 } } }

theorem witness_RollbackLevelOnlyAdvances :
    (∃ t, step { inWindow with boot := { inWindow.boot with key0Revoked := true } } = .next t) ∧ inWindow.boot.window = true ∧
      inWindow.boot.start = none ∧ (inWindow.boot.slot inWindow.boot.running).rollback ≤ 64 := ⟨⟨_, rfl⟩, by decide⟩

/-- A header of an OUT packet with 127 words. -/
def hdr (ty len : Nat) : Header := ⟨ty, 0x6000, 0x037, false, false, 1, 1, len, 0, 0⟩

theorem witness_PacketsReadBackAsBuilt :
    ((hdr tOut 127).ty = tOut ∧ (List.replicate 127 (0 : Word)).length = (hdr tOut 127).len ∧ (hdr tOut 127).len < 128) ∧
    ((hdr tSetup 0).ty = tSetup ∧ ([] : List Word).length = (hdr tSetup 0).len) ∧ (hdr tData 1).ty = tData ∧
    ((hdr tIn 127).ty = tIn ∧ (hdr tIn 127).len < 128) ∧
    (⟨true, 0, 0, 0, 31⟩ : Shake).bulk = true ∧ (1 ≤ (⟨false, hsNyet, 0, 0, 0⟩ : Shake).code ∧ (⟨false, hsNyet, 0, 0, 0⟩ : Shake).code ≤ hsNyet) := by
  decide +kernel

/-- A place at depth 4. -/
def deep : Pos := ⟨15, [15, 0, 1, 2]⟩

theorem witness_RoutesAndPortAddressesReadBack :
    (deep.trunk = deep.trunk ∧ deep.path.length = deep.path.length ∧ deep.path.length ≤ 4 ∧ deep.route = deep.route) ∧
    (List.replicate 8 (0 : Byte)).length = 8 ∧ (⟨0, [1, 2, 15]⟩ : Pos).path.length ≤ 3 := by decide

theorem witness_StoringAFieldChangesItAlone : ksorted (up .run).regs = true ∧ Fld.INST_MB_CFG_CMD_SIZE ∈ Reg.fields .INST_MB_CFG ∧
    Fld.INST_MB_CFG_CPL_SIZE ∈ Reg.fields .INST_MB_CFG ∧ Fld.INST_MB_CFG_CMD_SIZE ≠ Fld.INST_MB_CFG_CPL_SIZE ∧
    Reg.INST_MB_STATUS.key 0 0 ≠ Reg.INST_MB_CFG.key 0 0 := by decide +kernel

/-- A host function that takes posted writes. -/
def posting (s : State) : State := { s with host := { s.host with up := true }, time := s.time }

theorem witness_CompletionIsOneEntry :
    let s := inHand (posting (up .setup)) (tk 1 [])
    ksorted s.insts = true ∧ s.taken c0 = some (tk 1 []) ∧ s.canPost = true ∧ s.hostq = [] ∧ s.boot.dmaRefused = false ∧
      (tk 1 []).flags % 2 = 0 ∧ s.flag .INST_MB_CFG_EVERY 0 c0.inst.val = false ∧
      (s.inst c0.inst.val).mb.taken.all (fun u => !u.copies) = true := by decide +kernel

theorem witness_CommonChecksComeInOrder :
    let t := tk 1 [(3, 1, 1)]
    let s := inHand (up .setup) t
    let t0 := tk 1 []
    let s0 := inHand (up .setup) t0
    (s.taken c0 = some t ∧ t.started = true ∧ t.copies = false ∧ t.waiting = false ∧ s.serves c0.inst.val = true ∧ s.knows t.opcode = true ∧
      (⟨1, [], modesAll, false⟩ : Frame).reserved t = [3]) ∧
    (s0.taken c0 = some t0 ∧ s0.serves c0.inst.val = true ∧ (⟨1, [], modesRH, true⟩ : Frame).reserved t0 = [] ∧ s0.pmu.mode ∉ modesRH ∧
      s0.pmu.mode ∈ modesAll) := by decide +kernel

/-- A mailbox of instance 1, for a command that only the manager may issue. -/
theorem witness_CommonChecksComeInOrder_issuer :
    let t := tk 0x0104 []
    let s := { up .setup with insts := [(1, mgr t)] }
    s.taken ⟨1, 0⟩ = some t ∧ s.serves 1 = true ∧ s.knows t.opcode = true ∧ (⟨1, 0⟩ : CmdRef).inst.val ≠ 0 ∧
      (⟨0x0104, [], modesAll, true⟩ : Frame).reserved t = [] := by decide +kernel

theorem witness_ReportsCompleteWithTheirTables :
    ready (up .dormant) ⟨0x0001, [], modesAll, false⟩ [] ∧ ready (up .service) ⟨0x0002, [], modesAll, false⟩ [] ∧
    ready (up .setup) ⟨0x0003, [(8, 1, 0xFF)], modesAll, false⟩ [(8, 1, 0xFF)] ∧ (tk 3 [(8, 1, 0xFF)]).arg 8 1 = 0xFF ∧
    ready (up .setup) ⟨0x0003, [(8, 1, 0xFF)], modesAll, false⟩ [(8, 1, 15)] ∧ (tk 3 [(8, 1, 15)]).arg 8 1 = (15 : Fin 16).val ∧
    ready (up .setup) ⟨0x0105, [(8, 2, 0xFFFF), (10, 1, 0xFF)], modesAll, true⟩ [(8, 2, 511)] ∧
    ((tk 0x105 [(8, 2, 511)]).arg 8 2 = 511 ∧ (tk 0x105 [(8, 2, 511)]).arg 10 1 = 0) ∧
    ready (up .setup) ⟨0x0105, [(8, 2, 0xFFFF), (10, 1, 0xFF)], modesAll, true⟩ [(10, 1, 1)] ∧
    ((tk 0x105 [(10, 1, 1)]).arg 8 2 = 0 ∧ (tk 0x105 [(10, 1, 1)]).arg 10 1 = 1) ∧
    ready (up .standby) ⟨0x0401, [], modesSURHV, false⟩ [] ∧ ready (up .setup) ⟨0x0502, [], modesAll, false⟩ [] ∧
    ready (up .setup) ⟨0x0604, [(8, 1, 0xFF)], modesAll, false⟩ [(8, 1, 15)] ∧ (tk 0x604 [(8, 1, 15)]).arg 8 1 = (15 : Fin 16).val ∧
    c0.inst.val = 0 := by decide +kernel

/-- A flow of the manager in context 0, and a node on root port 0 with its device. -/
def flow0 : Flow :=
  { inst := 0, num := 0, pos := ⟨0, []⟩, addr := 1, ep := 1, service := none,
    par := { ty := .bulkOut, words := 16, k := 1, phase := 0, q := 0, lead := 1, rel := .course, lateFire := false, policy := .rep, essential := false,
             dedicated := false, prio := 0, est := 0, m := 1, z := 0, rho := 0, safe := [], safeAddr := 0, packed := false, packet := 16 },
    ring := 0, ringLog := 4, cq := 0, dom := 0, order := 0, active := true, since := 0, changes := [], holdOld := [], closedAt := none,
    causes := ⟨false, false, false, false, false, false, false, false, false⟩, prod := 0, cons := 0, fetched := 0, fetching := 0, xfers := [],
    sendToggle := false, recvToggle := false, seq := 0, acked := 0, credit := 0, recvSeq := 0, probe := false, lastSent := none, due := none,
    unconfirmed := [], counts := ⟨0, 0, 0, 0, 0, 0, 0, 0, 0, 0, 0, 0⟩, lastingAt := [], lastingCycle := false, escalateDue := none,
    bulkDue := false, toggleUnknown := false, slots := [], laps := [], slotsNext := [],
    lapsNext := [], quietUntil := 0, missing := 0, lastBound := 0, deadDone := 0, sentTop := 0, task := Task.init }

/-- A paced flow. -/
def pacedFlow : Flow := { flow0 with par := { flow0.par with ty := .pacedOut } }

/-- A scheduled flow. -/
def schedFlow : Flow := { flow0 with par := { flow0.par with ty := .periodicOut }, slots := [(0, [0])] }

/-- A state with a flow in context 0. -/
def withFlow (s : State) (f : Flow) : State := { s with flows := [(0, f)] }

/-- A node on root port 0. -/
def node1 : NodeRec := ⟨1, ⟨0, []⟩, List.replicate 8 0, [], none, true, 0, []⟩

/-- A state with that node at address 1, bound to the manager. -/
def withNode (s : State) : State := { s with nodes := [(1, node1)], binds := [(1, ⟨0, false⟩)] }

/-- A state whose root port stands so. -/
def withPort (s : State) (k : Fin 16) (x : Port) : State := { s with ports := s.ports.set k x }

/-- A command of the manager on a flow stands ready. -/
abbrev flowStands (s : State) (fr : Frame) (ps : List (Nat × Nat × Nat)) (f : Flow) : Prop :=
  (inHand (withFlow s f) (tk fr.opcode ps)).flowReady c0 (tk fr.opcode ps) fr 0 f = true

/-- A command of the manager on a port stands ready. -/
abbrev portStands (s : State) (fr : Frame) (ps : List (Nat × Nat × Nat)) (p : PortRef) (x : Port) : Prop :=
  (inHand s (tk fr.opcode ps)).portReady c0 (tk fr.opcode ps) fr p x = true

/-- A command of the manager on the node stands ready. -/
abbrev nodeStands (s : State) (fr : Frame) (ps : List (Nat × Nat × Nat)) : Prop :=
  (inHand (withNode s) (tk fr.opcode ps)).nodeReady c0 (tk fr.opcode ps) fr node1 = true

theorem witness_LookupsCompleteWithTheirPages :
    ready (up .run) ⟨0x0405, [(8, 1, 0xFF), (9, 1, 0xFF), (10, 2, 0xFFFF)], modesURHV, false⟩ [(8, 1, 7), (9, 1, 1), (10, 2, 0xFFFF)] ∧
    (let t := tk 0x405 [(8, 1, 7), (9, 1, 1), (10, 2, 0xFFFF)]; t.arg 8 1 ≤ 7 ∧ t.arg 9 1 ≤ 1 ∧ t.arg 10 2 = 0xFFFF) ∧
    flowStands (up .run) ⟨0x0304, [(8, 2, 0x1FFF), (10, 1, 0xFF)], modesAll, false⟩ [] flow0 ∧
    flowStands (up .run) ⟨0x0304, [(8, 2, 0x1FFF), (10, 1, 0xFF)], modesAll, false⟩ [(10, 1, 2)] pacedFlow ∧
    ((tk 0x304 [(10, 1, 2)]).arg 10 1 = 2 ∧ pacedFlow.par.ty.paced = true ∧ (tk 0x304 [(10, 1, 1)]).arg 10 1 = 1) ∧
    nodeStands (up .run) ⟨0x0207, [(10, 2, 0x0FFF), (16, 8, 2 ^ 64 - 1)], modesAll, false⟩ [(10, 2, 1), (16, 8, 64)] ∧
    (tk 0x207 [(10, 2, 1), (16, 8, 64)]).arg 16 8 % 64 = 0 ∧
    portStands (up .run) (paFrame 0x0205 modesAll false []) [(8, 1, 15)] (.root 15) Port.init ∧
    (tk 0x205 [(8, 1, 15)]).arg 9 1 = 0 ∧ (up .run).routedPort 0 (.root 15) = true := by decide +kernel

theorem witness_EventRouteSetsTheNamedCodes :
    let t := tk 4 [(8, 4, 0x000FFFFE), (14, 1, 1)]
    ksorted (inHand (up .setup) t).insts = true ∧
    ready (up .setup) ⟨0x0004, [(8, 4, 0x000FFFFE), (12, 2, 0xFFFF), (14, 1, 3)], modesAll, false⟩ [(8, 4, 0x000FFFFE), (14, 1, 1)] ∧
    (t.arg 14 1).testBit 1 = false ∧ t.arg 12 2 = 0 := by decide +kernel

/-- The same with a source of the manager. -/
theorem witness_EventRouteSetsTheNamedCodes_source :
    let t := tk 4 [(8, 4, 2), (12, 2, 128), (14, 1, 3)]
    ready (up .setup) ⟨0x0004, [(8, 4, 0x000FFFFE), (12, 2, 0xFFFF), (14, 1, 3)], modesAll, false⟩ [(8, 4, 2), (12, 2, 128), (14, 1, 3)] ∧
    (t.arg 14 1).testBit 1 = true ∧ (inHand (up .setup) t).nameable 0 (t.arg 12 2) = true := by decide +kernel

theorem witness_ServiceCommandsComplete :
    ready (up .setup) ⟨0x0703, [(8, 1, 0xFF), (9, 1, 1)], modesAll, true⟩ [(8, 1, 6), (9, 1, 1)] ∧
    (tk 0x703 [(8, 1, 6), (9, 1, 1)]).arg 8 1 = (6 : Fin 7).val ∧
    ready (up .service) ⟨0x0706, [(8, 4, 0xFF)], [.service], true⟩ [(8, 4, 0xFF)] ∧
    (∀ k : Fin 16, (up .service).ports[k].state = .off ∨ (up .service).ports[k].state = .fault) ∧
    ready (up .service) ⟨0x0705, [(8, 1, 0xFF), (9, 1, 1), (10, 2, 0xFFFF), (12, 4, 0xFFFFFFFF)],
      if (up .service).flag .PTB_CFG_RUN_ENABLE then [.service, .run] else [.service], true⟩ [] ∧
    (perturbRanges (tk 0x705 [])).all (fun b => !b.2) = true ∧
    ready (up .run) ⟨0x0704, [(8, 1, 0x0F), (9, 1, 0xFF), (10, 2, 0x81FF), (12, 2, 0xFFFF), (14, 1, 1), (15, 1, 0x1F),
        (16, 8, 0xFFFFFFFFFFFFFFFF)], modesURHV, true⟩ [(8, 1, 1)] ∧
    ((tk 0x704 [(8, 1, 1)]).arg 8 1).testBit 1 = false ∧ (tk 0x704 [(8, 1, 1)]).arg 9 1 = 0 ∧ (tk 0x704 [(8, 1, 1)]).arg 16 8 = 0 ∧
    ready (up .run) ⟨0x0704, [(8, 1, 0x0F), (9, 1, 0xFF), (10, 2, 0x81FF), (12, 2, 0xFFFF), (14, 1, 1), (15, 1, 0x1F),
        (16, 8, 0xFFFFFFFFFFFFFFFF)], modesURHV, true⟩ [(8, 1, 2), (9, 1, 20), (16, 8, 64)] ∧
    (let t := tk 0x704 [(8, 1, 2), (9, 1, 20), (16, 8, 64)];
      (t.arg 8 1).testBit 1 = true ∧ 6 ≤ t.arg 9 1 ∧ t.arg 9 1 ≤ 20 ∧ t.arg 16 8 % 64 = 0) := by decide +kernel


/-- An instance in a state, beside the manager with its command. -/
def withInst (s : State) (i : Nat) (x : Instance) : State := { s with insts := kput Instance.init s.insts i x }

/-- Instance 1, in a state. -/
def inst1 (st : InstState) : Instance := { Instance.init with state := st }

/-- A command of the manager beside instance 1 in a state. -/
abbrev besideInst (m : Mode) (st : InstState) (op : Nat) (ps : List (Nat × Nat × Nat)) : State :=
  withInst (inHand (up m) (tk op ps)) 1 (inst1 st)

theorem witness_InstancesAreMadeAndUnmade_create :
    let t := tk 0x0101 [(8, 2, 1), (10, 3, 5), (13, 1, 1), (20, 1, 1)]
    let s := inHand (up .setup) t
    s.standsReady c0 t ⟨0x0101, [(8, 2, 0xFFFF), (10, 3, 0xFFFFF), (13, 1, 0xFF), (14, 2, 0xFFFF), (16, 4, 0xFFFFFFFF), (20, 1, 0xFF),
        (22, 2, 0xFFFF), (24, 2, 0xFFFF), (32, 32, 2 ^ 256 - 1)], modesURHV, true⟩ = true ∧ t.arg 8 2 = 1 ∧ t.arg 8 2 ≠ 0xFFFF ∧
      s.pasidUsed 1 (t.arg 10 3) = false ∧ t.arg 13 1 ≠ 0 ∧ t.arg 20 1 ≤ 224 ∧ (s.inst 1).state = .free ∧
      s.poolsHold 1 (askOf t.entry) = true ∧ ksorted s.insts = true ∧ (s.takeBlocks (fieldAt t.entry 20 1)).length = 1 := by decide +kernel

/-- The same with no source block asked for. -/
theorem witness_InstancesAreMadeAndUnmade_noBlock :
    let t := tk 0x0101 [(8, 2, 1), (10, 3, 5), (13, 1, 1)]
    let s := inHand (up .setup) t
    s.pasidUsed 1 (t.arg 10 3) = false ∧ s.poolsHold 1 (askOf t.entry) = true ∧ s.takeBlocks (fieldAt t.entry 20 1) = [] := by decide +kernel

theorem createNumber_named : (inHand (up .setup) (tk 0x0101 [(8, 2, 1)])).createNumber (tk 0x0101 [(8, 2, 1)]) = some 1 := by
  simp only [State.createNumber]
  rw [if_neg (by decide +kernel)]
  decide +kernel

theorem witness_InstancesAreMadeAndUnmade_share :
    let t := tk 0x0104 [(10, 1, 8), (13, 1, 1)]
    let s := inHand (up .setup) t
    s.standsReady c0 t (instFrame 0x0104 modesURHV [(10, 1, 0x3F), (11, 1, 1), (13, 1, 0xFF), (14, 2, 0xFFFF), (16, 4, 0xFFFFFFFF), (20, 1, 0xFF),
        (22, 2, 0xFFFF), (24, 2, 0xFFFF), (32, 32, 2 ^ 256 - 1)]) = true ∧ (s.inst (t.arg 8 2)).lives = true ∧
      s.growsTooFar (changeOf t) = false ∧ s.shareInUse (changeOf t) (t.arg 11 1 == 1) = false ∧ (t.arg 10 1).testBit 0 = false ∧ t.arg 14 2 = 0 ∧
      t.arg 16 4 = 0 ∧ t.arg 32 32 = 0 ∧ (t.arg 10 1).testBit 3 = true ∧ t.arg 13 1 ≠ 0 ∧ (t.arg 10 1).testBit 4 = false ∧ t.arg 20 1 = 0 ∧
      t.arg 24 2 = 0 ∧ t.arg 22 2 = 0 := by decide +kernel

theorem witness_InstancesAreMadeAndUnmade_share_inRange : (tk 0x0104 [(10, 1, 8), (13, 1, 1)]).arg 8 2 < maxInstances :=
  Nat.lt_of_le_of_lt (by decide +kernel : (tk 0x0104 [(10, 1, 8), (13, 1, 1)]).arg 8 2 ≤ 0) maxInstances_pos

theorem witness_InstancesAreMadeAndUnmade_reset :
    (besideInst .run .active 0x0103 [(8, 2, 1)]).standsReady c0 (tk 0x0103 [(8, 2, 1)]) (instFrame 0x0103 modesURHV []) = true ∧
    (besideInst .run .frozen 0x0102 [(8, 2, 1)]).standsReady c0 (tk 0x0102 [(8, 2, 1)]) (instFrame 0x0102 modesURHV []) = true ∧
    (tk 0x0103 [(8, 2, 1)]).arg 8 2 = 1 ∧ ((besideInst .run .active 0x0103 [(8, 2, 1)]).inst 1).lives = true ∧
    ((besideInst .run .frozen 0x0102 [(8, 2, 1)]).inst 1).lives = true := by decide +kernel

theorem witness_InstancesAreFrozenAndMoved :
    (besideInst .run .active 0x0106 [(8, 2, 1), (12, 4, 0)]).standsReady c0 (tk 0x0106 [(8, 2, 1), (12, 4, 0)])
      (instFrame 0x0106 modesRH [(12, 4, 0xFFFFFFFF)]) = true ∧
    ((besideInst .run .active 0x0106 [(8, 2, 1)]).inst 1).state = .active ∧
    ((besideInst .run .active 0x0106 [(8, 2, 1)]).namedCourse ((tk 0x0106 [(8, 2, 1)]).arg 12 4) 2).isSome = true ∧
    (besideInst .run .frozen 0x0109 [(8, 2, 1)]).standsReady c0 (tk 0x0109 [(8, 2, 1)]) (instFrame 0x0109 modesRH [(12, 4, 0xFFFFFFFF)]) = true ∧
    ((besideInst .run .frozen 0x0109 [(8, 2, 1)]).inst 1).state = .frozen ∧
    ((besideInst .run .frozen 0x0109 [(8, 2, 1)]).namedCourse 0 (max 2 ((besideInst .run .frozen 0x0109 [(8, 2, 1)]).restoreBound 1))).isSome
      = true ∧ (tk 0x0109 [(8, 2, 1)]).arg 8 2 = 1 := by decide +kernel

/-- A save of a quiescent instance into a buffer of 64 KiB. -/
theorem witness_InstancesAreFrozenAndMoved_save :
    let t := tk 0x0107 [(8, 2, 1), (16, 8, 64), (24, 4, 65536)]
    let s := withInst (inHand (up .setup) t) 1 { inst1 .frozen with quiescent := true }
    s.standsReady c0 t (instFrame 0x0107 modesURHV [(16, 8, 2 ^ 64 - 1), (24, 4, 0xFFFFFFFF)]) = true ∧
      (s.inst (t.arg 8 2)).state = .frozen ∧ (s.inst (t.arg 8 2)).quiescent = true ∧ t.arg 16 8 % 64 = 0 ∧
      (s.image (t.arg 8 2)).length ≤ t.arg 24 4 := by decide +kernel

/-- A restore from an image of one word, into a FREE instance. -/
theorem witness_InstancesAreFrozenAndMoved_restore :
    let t := tk 0x0108 [(8, 2, 1), (10, 3, 5), (16, 8, 64), (24, 4, 4)]
    let s := inHand (up .setup) t
    s.standsReady c0 t (instFrame 0x0108 (if imageScheduled [0, 0, 0, 0] then [Mode.run] else modesURHV)
        [(10, 3, 0xFFFFF), (16, 8, 2 ^ 64 - 1), (24, 4, 0xFFFFFFFF)]) = true ∧ (s.inst (t.arg 8 2)).state = .free ∧
      s.pasidUsed (t.arg 8 2) (t.arg 10 3) = false ∧ t.arg 16 8 % 64 = 0 ∧ ([0, 0, 0, 0] : List Byte).length = t.arg 24 4 := by decide +kernel

theorem witness_InstancesAreFrozenAndMoved_ack :
    let s := withInst (up .run) 1 { inst1 .resetting with reset := some ⟨false, 0x7FFF, none⟩ }
    (s.inst 1).reset = some ⟨false, 0x7FFF, none⟩ ∧ (s.inst 1).state = .resetting ∧ s.oldWork 1 15 = false ∧
      (0x7FFF ||| BitVec.ofNat 16 (2 ^ (15 : Fin 16).val) : BitVec 16) = 0xFFFF ∧
    (let q := withInst (up .run) 1 (inst1 .frozen);
      (q.inst 1).state = .frozen ∧ (q.inst 1).quiescent = false ∧ q.drained 1 = true) := by decide +kernel

/-- A port of a hub, enabled, in a state whose hub runs. -/
def onPort (st : PortState) : Port := { Port.init with state := st }

/-- A root port in a state, and a command of the manager on it. -/
abbrev rootStands (m : Mode) (op : Nat) (modes : List Mode) (mgr : Bool) (more : List (Nat × Nat × Nat)) (ps : List (Nat × Nat × Nat))
    (x : Port) : Prop :=
  portStands (withPort (up m) 15 x) (paFrame op modes mgr more) ((8, 1, 15) :: ps) (.root 15) x

theorem witness_PortCommandsComplete :
    (rootStands .setup 0x0201 modesURHV true [(13, 1, 3)] [(13, 1, 1)] (onPort .off) ∧ (tk 0x201 [(13, 1, 1)]).arg 13 1 = 1) ∧
    rootStands .setup 0x0201 modesURHV true [(13, 1, 3)] [(13, 1, 1)] (onPort .fault) ∧
    rootStands .setup 0x0201 modesURHV true [(13, 1, 3)] [(13, 1, 1)] (onPort .enabled) ∧
    (rootStands .setup 0x0201 modesURHV true [(13, 1, 3)] [] (onPort .enabled) ∧ (tk 0x201 [(8, 1, 15)]).arg 13 1 = 0 ∧
      (inHand (withPort (up .setup) 15 (onPort .enabled)) (tk 0x201 [(8, 1, 15)])).admittedBelow (.root 15) true = false) ∧
    (rootStands .setup 0x0201 modesURHV true [(13, 1, 3)] [(13, 1, 2)] (onPort .enabled) ∧ (tk 0x201 [(13, 1, 2)]).arg 13 1 = 2) ∧
    (rootStands .run 0x0202 modesURHV false [] [] (onPort .disabled) ∧ (up .run).boundPort 0 (.root 15) = true) ∧
    (rootStands .run 0x0203 modesURHV false [] [] (onPort .enabled) ∧
      (inHand (withPort (up .run) 15 (onPort .enabled)) (tk 0x203 [(8, 1, 15)])).admittedBelow (.root 15) false = false) ∧
    rootStands .hold 0x0204 modesURHV false [] [] (onPort .resuming) ∧ rootStands .hold 0x0204 modesURHV false [] [] (onPort .suspended) ∧
    (rootStands .hold 0x020A modesURHV true [(13, 1, 0xFF)] [(13, 1, 2)] (onPort .suspended) ∧ (tk 0x20A [(13, 1, 2)]).arg 13 1 = 2) ∧
    (rootStands .hold 0x0209 modesURHV false [(13, 1, 1)] [(13, 1, 1)] (onPort .off) ∧ (up .hold).routedPort 0 (.root 15) = true) := by
  decide +kernel

/-- An enabled root port at a rate. -/
def atRate (r : Rate) : Port := { onPort .enabled with rx := { Rx.init with rate := some r }, lastRate := some r }

theorem witness_PortCommandsComplete_rate :
    (rootStands .run 0x020A modesURHV true [(13, 1, 0xFF)] [(13, 1, 1)] (atRate .br) ∧
      (inHand (withPort (up .run) 15 (atRate .br)) (tk 0x20A [(8, 1, 15), (13, 1, 1)])).rateOf (.root 15) = some .br) ∧
    rootStands .run 0x020A modesURHV true [(13, 1, 0xFF)] [(13, 1, 1)] (atRate .hr) ∧
    ((inHand (withPort (up .run) 15 (atRate .hr)) (tk 0x20A [(8, 1, 15), (13, 1, 1)])).requestStep (.root 15)).port (.root 15) ≠ none := by
  decide +kernel

/-- A hub at root port 0: its record and its device, with a tier, whose port 1 stands so. -/
def hubDev (x : Port) : Device :=
  { Device.init ⟨0, []⟩ gbBoard with
    powered := true, ready := true, addr := some 1, tier := 1, link := { DownLink.init with phase := .up }, ports := [Port.init, x] }

theorem witness_TreeCommandsComplete :
    ready (up .setup) ⟨0x0206, [(8, 1, 0x0F), (9, 1, 1), (10, 2, 0xFFFF), (16, 8, 2 ^ 64 - 1)], modesURHV, true⟩ [(8, 1, 15)] ∧
    (let t := tk 0x206 [(8, 1, 15)]; t.arg 8 1 = (15 : Fin 16).val ∧ t.arg 9 1 = 0 ∧ t.arg 10 2 = 0 ∧ t.arg 16 8 = 0) ∧
    ready (up .setup) ⟨0x0206, [(8, 1, 0x0F), (9, 1, 1), (10, 2, 0xFFFF), (16, 8, 2 ^ 64 - 1)], modesURHV, true⟩
      [(9, 1, 1), (10, 2, 1), (16, 8, 64)] ∧
    (let t := tk 0x206 [(9, 1, 1), (10, 2, 1), (16, 8, 64)];
      t.arg 9 1 = 1 ∧ 1 ≤ t.arg 10 2 ∧ t.arg 10 2 ≤ 4064 ∧ t.arg 16 8 % 64 = 0 ∧ ([0, 0, 1, 0] : List Byte).length = 4 * t.arg 10 2 ∧
        (mapEntries 0 [0, 0, 1, 0] (t.arg 10 2)).isSome = true) := by decide +kernel

/-- The node at address 1, and a NODE_BIND of it. -/
abbrev binding (ps : List (Nat × Nat × Nat)) : Prop :=
  (inHand (withNode (up .setup)) (tk 0x208 ps)).standsReady c0 (tk 0x208 ps)
    ⟨0x0208, [(10, 2, 0x0FFF), (12, 2, 0xFFFF), (14, 1, 1)], modesURHV, true⟩ = true

theorem witness_TreeCommandsComplete_bind :
    binding [(10, 2, 1), (12, 2, 0xFFFF)] ∧ (tk 0x208 [(10, 2, 1), (12, 2, 0xFFFF)]).arg 10 2 = 1 ∧
    (tk 0x208 [(10, 2, 1), (12, 2, 0xFFFF)]).arg 12 2 = 0xFFFF ∧ (tk 0x208 [(10, 2, 1), (12, 2, 0xFFFF)]).arg 14 1 = 0 ∧
    (kget (withNode (up .setup)).nodes 1).isSome = true ∧ (inHand (withNode (up .setup)) (tk 0x208 [])).bindBusy 1 = false ∧
    binding [(10, 2, 1), (14, 1, 1)] ∧ (tk 0x208 [(10, 2, 1), (14, 1, 1)]).arg 12 2 = 0 ∧
    ((inHand (withNode (up .setup)) (tk 0x208 [(10, 2, 1), (14, 1, 1)])).inst 0).lives = true ∧
    kget (withNode (up .setup)).binds 1 = some ⟨0, false⟩ := by decide +kernel

/-- An instance 0 that NODE_BIND names is below MAX_INSTANCES. -/
theorem witness_TreeCommandsComplete_inRange : (tk 0x208 [(10, 2, 1), (14, 1, 1)]).arg 12 2 < maxInstances :=
  Nat.lt_of_le_of_lt (by decide +kernel : (tk 0x208 [(10, 2, 1), (14, 1, 1)]).arg 12 2 ≤ 0) maxInstances_pos


/-- Descriptor of a node with a bulk OUT endpoint 1 of packets up to 10 words. -/
def desc0 : List Word := [0, 0, 0, 0, 0x100000000, 0x131400000]

/-- The node as a device on root port 0 that answers. -/
def dev0 : Device :=
  { Device.init ⟨0, []⟩ ⟨desc0, [], []⟩ with
    powered := true, ready := true, addr := some 1, configured := true, link := { DownLink.init with phase := .up } }

/-- The record of that node. -/
def node0 : NodeRec := ⟨1, ⟨0, []⟩, desc0, [], none, true, 0, []⟩

/-- A state with that node up at address 1, bound to the manager, whose completion ring 0 is enabled. -/
def withDev (s : State) : State :=
  { (s.setFld .INST_CQ_CFG_ENABLE 1) with
    nodes := [(1, node0)], binds := [(1, ⟨0, false⟩)], devices := [dev0], ports := s.ports.set 0 (onPort .enabled) }

/-- One of some numbers is taken where there are some. -/
theorem pick_some (s : State) (l : List Nat) (h : 0 < l.length) : ∃ n, s.pick l = some (n, s.freeWord.2) := by
  have hm : s.freeWord.1.toNat % l.length < l.length := Nat.mod_lt _ h
  exact ⟨l[s.freeWord.1.toNat % l.length], by simp only [State.pick, List.getElem?_eq_getElem hm]; rfl⟩

/-- An opening of a bulk flow of packets of 10 words, its ring of 4 descriptors. -/
def openParams : List (Nat × Nat × Nat) := [(8, 1, 4), (9, 1, 1), (10, 2, 1), (12, 1, 10), (21, 1, 2), (24, 8, 64)]

/-- That opening in hand. -/
def opening : State := inHand (withDev (up .setup)) (tk 0x0301 openParams)

theorem witness_FlowCommandsComplete_open :
    let t := tk 0x0301 openParams
    opening.standsReady c0 t (openFrame (openModes t)) = true ∧ (opening.openBad c0.inst.val t).all (fun b => !b.2) = true ∧
      opening.boundNode c0.inst.val (t.arg 10 2) = true ∧ flowTypeOf (t.arg 8 1) = some .bulkOut ∧ t.arg 32 8 = 0 ∧
      kget opening.nodes (t.arg 10 2) = some node0 ∧ (opening.clearHalt node0 (BitVec.ofNat 4 (t.arg 9 1)) .ack).2 = .ack := by decide +kernel

theorem witness_FlowCommandsComplete_admit :
    ∃ r : State × Nat × Nat, opening.admitOpen c0 (tk 0x0301 openParams) .bulkOut node0 [] = .ok r := by
  obtain ⟨ctx, h1⟩ := pick_some opening ((List.range 8192).filter fun c => (opening.flow c).isNone) (by decide +kernel)
  obtain ⟨num, h2⟩ := pick_some opening.freeWord.2 ((List.range 8192).filter fun n => (opening.freeWord.2.ctxOf 0 n).isNone) (by decide +kernel)
  have h3 : opening.takeContext c0.inst.val = some (ctx, opening.freeWord.2) := by
    unfold State.takeContext; rw [if_pos (by decide +kernel), h1]
  have h4 : opening.freeWord.2.noDomain c0.inst.val ((tk 0x0301 openParams).arg 18 2) = false := by decide +kernel
  have h5 : opening.freeWord.2.takeNumber c0.inst.val = some (num, opening.freeWord.2.freeWord.2) := h2
  simp only [State.admitOpen, h3, h4, h5]
  exact ⟨_, rfl⟩

theorem witness_FlowCommandsComplete :
    (flow0.closing = false ∧ flowStands (up .run) (flowFrame 0x0302 modesURHV []) [] flow0) ∧
    (schedFlow.closing = false ∧ flowStands (up .run) (flowFrame 0x0302 modesURHV []) [] schedFlow ∧ schedFlow.par.ty.scheduled = true) ∧
    (let t := tk 0x303 [(10, 1, 2), (13, 1, 7)];
      flowStands (up .setup) (modifyFrame (modifyModes t)) [(10, 1, 2), (13, 1, 7)] flow0 ∧
      ((inHand (withFlow (up .setup) flow0) t).modifyBad 0 t).all (fun b => !b.2) = true ∧ t.arg 10 1 = 2) ∧
    (let t := tk 0x303 [(10, 1, 1), (12, 1, 64)];
      flowStands (up .run) (modifyFrame (modifyModes t)) [(10, 1, 1), (12, 1, 64)] schedFlow ∧
      ((inHand (withFlow (up .run) schedFlow) t).modifyBad 0 t).all (fun b => !b.2) = true ∧ (t.arg 10 1).testBit 2 = false) ∧
    (let t := tk 0x303 [(10, 1, 4), (14, 1, 1), (24, 8, 64)];
      flowStands (up .run) (modifyFrame (modifyModes t)) [(10, 1, 4), (14, 1, 1), (24, 8, 64)] schedFlow ∧
      ((inHand (withFlow (up .run) schedFlow) t).modifyBad 0 t).all (fun b => !b.2) = true ∧ (t.arg 10 1).testBit 2 = true ∧ t.arg 24 8 ≠ 0 ∧
      (List.replicate 128 (0 : Byte)).length = 8 * safeWords schedFlow.par.words schedFlow.par.rel) ∧
    flowStands (up .hold) (flowFrame 0x0306 modesRH []) [] flow0 ∧
    (flowStands (up .run) (flowFrame 0x0307 modesRH []) [] schedFlow ∧ schedFlow.causes.stalled = false ∧ schedFlow.causes.bulkLasting = false ∧
      (inHand (withFlow (up .run) schedFlow) (tk 0x307 [])).flow 0 = some schedFlow ∧ schedFlow.changes = []) ∧
    (flowStands (up .run) (flowFrame 0x0307 modesRH []) [] flow0 ∧ flow0.par.ty.scheduled = false) := by decide +kernel

/-- A PLAN_CHECK of a list of one entry, a FLOW_CLOSE of the flow. -/
theorem witness_FlowCommandsComplete_check :
    let t := tk 0x305 [(8, 1, 1), (16, 8, 64)]
    let s := inHand (withFlow (up .run) flow0) t
    s.standsReady c0 t ⟨0x0305, [(8, 1, 0xFF), (16, 8, 2 ^ 64 - 1)], modesURHV, false⟩ = true ∧ t.arg 8 1 = 1 ∧ t.arg 16 8 % 64 = 0 ∧
      (entryOf 0x302 []).length = 64 * t.arg 8 1 ∧
      ((State.checkList 0 [listEntry (entryOf 0x302 [])] 0 (s.emit (.hostRead (s.pasidOf 0) 64 64))).toOption.map fun u => u.admitNext) = some none := by
  decide +kernel

/-- A read of a status, and a write of two words that the maker of the board defines. -/
theorem witness_ControlTransfersComplete :
    let t := tk 0x308 [(10, 2, 1), (16, 8, 0x806000000), (24, 8, 1), (32, 8, 64)]
    let s := inHand (withDev (up .run)) t
    let t' := tk 0x308 [(10, 2, 1), (16, 8, 0x300000000), (24, 8, 2), (32, 8, 64)]
    let s' := inHand (withDev (up .run)) t'
    (s.nodeReady c0 t ⟨0x0308, [(10, 2, 0x0FFF), (16, 8, 2 ^ 64 - 1), (24, 8, 2 ^ 64 - 1), (32, 8, 2 ^ 64 - 1)], modesURHV, false⟩ node0 = true ∧
      wbits (xferSetup t).w1 15 12 = 0 ∧ wbits (xferSetup t).w1 19 16 = 0 ∧ (xferSetup t).count = 1 ∧ t.arg 32 8 % 64 = 0 ∧
      s.xferForbidden (t.arg 10 2) (xferSetup t) = false ∧ node0.pos.ports.all (fun p => (s.port p).map (·.state) != some .suspended) = true ∧
      (xferSetup t).dir = true ∧ t.ran = .notSent) ∧
    (s'.nodeReady c0 t' ⟨0x0308, [(10, 2, 0x0FFF), (16, 8, 2 ^ 64 - 1), (24, 8, 2 ^ 64 - 1), (32, 8, 2 ^ 64 - 1)], modesURHV, false⟩ node0 = true ∧
      s'.xferForbidden (t'.arg 10 2) (xferSetup t') = false ∧ (xferSetup t').dir = false ∧
      (List.replicate 16 (0 : Byte)).length = 8 * (xferSetup t').count ∧ (xferSetup t').count ≠ 0 ∧ t'.ran = .notSent) := by decide +kernel

/-- With courses running. -/
def running (s : State) : State := { s with course := { s.course with running := true } }

theorem witness_TimeCommandsComplete :
    (ready (up .setup) ⟨0x0402, [(8, 1, 0xFF), (16, 8, 2 ^ 64 - 1)], modesSURHV, true⟩ [(16, 8, 1000)] ∧ (tk 0x402 [(16, 8, 1000)]).arg 8 1 = 0 ∧
      (up .setup).course.running = false) ∧
    (ready (running (up .service)) ⟨0x0402, [(8, 1, 0xFF), (16, 8, 2 ^ 64 - 1)], modesSURHV, true⟩ [(16, 8, 1000)] ∧
      (running (up .service)).course.running = true) ∧
    (ready (up .run) ⟨0x0402, [(8, 1, 0xFF), (16, 8, 2 ^ 64 - 1)], modesSURHV, true⟩ [(8, 1, 1), (16, 8, 10000000000)] ∧
      (tk 0x402 [(8, 1, 1), (16, 8, 10000000000)]).arg 8 1 = 1 ∧ (tk 0x402 [(8, 1, 1), (16, 8, 10000000000)]).slew.natAbs ≤ 10000000000) ∧
    (ready (up .setup) ⟨0x0403, [(8, 1, 0xFF), (9, 1, 3)], modesURHV, true⟩ [(8, 1, 1)] ∧ (up .setup).gang.fixed = false) ∧
    (ready (up .run) ⟨0x0404, [(8, 1, 0xFF), (9, 1, 0x1F), (10, 1, 0xFF), (11, 1, 0xFF), (12, 1, 0xFF), (16, 3, 0xFFFFFF), (20, 3, 0xFFFFFF),
        (24, 4, 0xFFFFFFFF), (28, 4, 0xFFFFFFFF), (32, 3, 0x0FFFFF), (36, 2, 0x0FFF), (38, 1, 7)], modesURHV, true⟩ [(8, 1, 7), (9, 1, 1)] ∧
      ((up .run).paceBad (tk 0x404 [(8, 1, 7), (9, 1, 1)])).all (fun b => !b.2) = true ∧ (tk 0x404 [(8, 1, 7), (9, 1, 1)]).arg 9 1 / 2 % 4 ≠ 1) ∧
    (ready (up .run) ⟨0x0406, [(8, 2, 0xFFFF)], modesURHV, true⟩ [(8, 2, 32)] ∧ (tk 0x406 [(8, 2, 32)]).arg 8 2 = 32 ∧
      (up .run).hostScheduled = false ∧ (up .run).serviceRefused 32 = none) := by decide +kernel

/-- A bus source at a node that can be one. -/
theorem witness_TimeCommandsComplete_busSource :
    let t := tk 0x404 [(8, 1, 1), (9, 1, 3), (36, 2, 1)]
    let n : NodeRec := { node0 with desc := [0, 0, 0, 0, 0x2000, 0] }
    let s := { (inHand (up .run) t) with nodes := [(1, n)] }
    s.standsReady c0 t ⟨0x0404, [(8, 1, 0xFF), (9, 1, 0x1F), (10, 1, 0xFF), (11, 1, 0xFF), (12, 1, 0xFF), (16, 3, 0xFFFFFF), (20, 3, 0xFFFFFF),
        (24, 4, 0xFFFFFFFF), (28, 4, 0xFFFFFFFF), (32, 3, 0x0FFFFF), (36, 2, 0x0FFF), (38, 1, 7)], modesURHV, true⟩ = true ∧
      (s.paceBad t).all (fun b => !b.2) = true ∧ t.arg 9 1 / 2 % 4 = 1 ∧ (kget s.nodes (t.arg 36 2)).filter (·.present) = some n := by
  decide +kernel

theorem witness_GangCommandsComplete :
    (ready (up .setup) ⟨0x0501, [(8, 1, 0xFF), (9, 1, 1), (16, 8, 2 ^ 64 - 1)], [.setup], true⟩ [(8, 1, 8), (16, 8, 0xFFFFFFFFFFFFFF07)] ∧
      (let t := tk 0x501 [(8, 1, 8), (16, 8, 0xFFFFFFFFFFFFFF07)];
        t.arg 8 1 = 8 ∧ ∀ e : Fin 8, t.arg (16 + e.val) 1 ≤ 7 ∨ t.arg (16 + e.val) 1 = 0xFF)) ∧
    (let s := { (up .setup) with gang := { (up .setup).gang with configured := true } };
      ready s ⟨0x0503, [], [.setup], true⟩ [] ∧ s.gang.configured = true) ∧
    ready (up .setup) ⟨0x0504, [], [.setup], true⟩ [] := by decide +kernel

/-- A MODE_SET stands ready in a mode. -/
abbrev modeSetReady (m : Mode) (ps : List (Nat × Nat × Nat)) : Prop :=
  ready (up m) ⟨0x0601, [(8, 1, 0xFF), (9, 1, 1)], modesAll, true⟩ ps ∧ (up m).boot.debugUnlocked = false ∧ (up m).pmu.changing = false

theorem witness_ModeSetMakesItsTransitions :
    (modeSetReady .setup [(8, 1, 3)] ∧ (up .setup).runBarred = false) ∧ modeSetReady .setup [(8, 1, 5)] ∧ modeSetReady .run [(8, 1, 4)] ∧
    (modeSetReady .run [(8, 1, 4), (9, 1, 1)] ∧ (tk 0x601 [(8, 1, 4), (9, 1, 1)]).arg 9 1 = 1 ∧ (tk 0x601 [(8, 1, 4), (9, 1, 1)]).arg 8 1 = 4) ∧
    (modeSetReady .hold [(8, 1, 3)] ∧ (up .hold).stopActive = false ∧ (up .hold).gang.barsRun = false) ∧
    (modeSetReady .run [(8, 1, 2)] ∧ (up .run).hostScheduled = false) ∧ (modeSetReady .hold [(8, 1, 2)] ∧ (up .hold).hostScheduled = false) ∧
    (modeSetReady .service [(8, 1, 2)] ∧ ∀ e ∈ (inHand (up .service) (tk 0x601 [(8, 1, 2)])).insts, ∀ u ∈ e.2.mb.taken, u.opcode ≠ 0x0706) ∧
    (modeSetReady .setup [(8, 1, 1)] ∧ (inHand (up .setup) (tk 0x601 [(8, 1, 1)])).othersTaken c0 = false) ∧
    (modeSetReady .standby [] ∧ (tk 0x601 []).arg 8 1 = 0 ∧ (inHand (up .standby) (tk 0x601 [])).othersTaken c0 = false) ∧
    modeSetReady .dormant [(8, 1, 2)] ∧ modeSetReady .standby [(8, 1, 2)] ∧ modeSetReady .dormant [(8, 1, 1)] := by decide +kernel

/-- An image staged, valid, in the slot that does not run. -/
def staged (s : State) : State := { s with boot := { s.boot with slotB := { Slot.init with staged := some [], valid := true }, slotA :=
  { Slot.init with staged := some [], valid := true } } }

theorem witness_PowerAndFirmwareCommandsComplete :
    (ready (running (up .run)) ⟨0x0602, [(8, 1, 0xFF), (9, 1, 0xFF)], modesSURHV, true⟩ [(8, 1, 11), (9, 1, 2)] ∧
      (tk 0x602 [(8, 1, 11), (9, 1, 2)]).arg 8 1 = 11 ∧ (tk 0x602 [(8, 1, 11), (9, 1, 2)]).arg 9 1 = 2) ∧
    (ready (up .standby) ⟨0x0602, [(8, 1, 0xFF), (9, 1, 0xFF)], modesSURHV, true⟩ [(9, 1, 1)] ∧ (up .standby).course.running = false) ∧
    (let ps := [(8, 1, 15), (10, 2, 1), (12, 2, 1), (14, 1, 100), (15, 1, 60), (18, 2, 1), (20, 2, 20)];
      let t := tk 0x603 ps;
      ready (up .setup) ⟨0x0603, [(8, 1, 0xFF), (10, 2, 0xFFFF), (12, 2, 0xFFFF), (14, 1, 0xFF), (15, 1, 0xFF), (16, 1, 0xFF), (18, 2, 0xFFFF),
        (20, 2, 0xFFFF), (22, 2, 0xFFFF)], modesURHV, true⟩ ps ∧ t.arg 8 1 = (15 : Fin 16).val ∧ t.arg 10 2 = 1 ∧ t.arg 12 2 = 1 ∧
      t.arg 12 2 ≤ (up .setup).iFs 15 ∧ t.arg 14 1 = 100 ∧ t.arg 15 1 = 60 ∧ t.arg 18 2 = 1 ∧ t.arg 20 2 = 20 ∧
      (up .setup).ppm[15].phase ≠ .fault ∧ (up .setup).ppm[15].gen = false) ∧
    (let t := tk 0x701 [(8, 1, 1), (16, 8, 64), (24, 4, 8)];
      ready (up .setup) ⟨0x0701, [(8, 1, 1), (12, 4, 0xFFFFFFFF), (16, 8, 2 ^ 64 - 1), (24, 4, 0xFFFFFFFF)], modesURHV, true⟩
        [(8, 1, 1), (16, 8, 64), (24, 4, 8)] ∧ t.arg 12 4 = 0 ∧ t.arg 16 8 % 8 = 0 ∧ t.arg 24 4 = 8 ∧
      (List.replicate 8 (0 : Byte)).length = t.arg 24 4 ∧ (up .setup).boot.commitPending = false ∧ t.arg 8 1 = 1) ∧
    (ready (staged (up .service)) ⟨0x0702, [(8, 1, 0xFF)], [.service], true⟩ [(8, 1, 1)] ∧ (staged (up .service)).boot.debugUnlocked = false ∧
      ((staged (up .service)).boot.slot (staged (up .service)).stageSlot).staged.isSome = true ∧
      ((staged (up .service)).boot.slot (staged (up .service)).stageSlot).valid = true ∧ (staged (up .service)).boot.rom = false) := by
  decide +kernel


theorem page0 (s : State) : s.pageState 0 = (s.inst 0).state := by
  simp only [State.pageState]; rw [if_neg (Nat.not_le.mpr maxInstances_pos)]

theorem page_free (s : State) (n : Nat) (h : (s.inst n).state = .free) : s.pageState n = .free := by
  simp only [State.pageState]; split
  · rfl
  · exact h

/-- The manager's mailbox enabled with rings of four, one command made visible. -/
def mailed : State :=
  let s := ((((up .setup).setFld .INST_MB_CFG_ENABLE 1).setFld .INST_MB_CFG_CMD_SIZE 2).setFld .INST_MB_CFG_CPL_SIZE 2)
  { s with insts := [(0, { Instance.manager with mb := { Instance.manager.mb with prod := 1 } })] }

/-- The same with page 0 resetting: a state no run reaches, for the clauses that turn a write away. -/
def resettingPage : State := { up .setup with insts := [(0, { Instance.manager with state := .resetting })] }

theorem witness_pages : mailed.pageState 0 = .active ∧ resettingPage.pageState 0 = .resetting ∧ mailed.pageState 511 = .free := by
  refine ⟨?_, ?_, ?_⟩
  · rw [page0]; decide +kernel
  · rw [page0]; decide +kernel
  · exact page_free _ _ (by decide +kernel)

/-- The four rows of the table: a ≤ b, one more, the last place, beyond the ring of 4, and a mailbox that is not enabled. -/
theorem witness_MailboxDoorbellsFollowTheTable :
    let m := (mailed.inst 0).mb
    ((1 - m.oldest : BitVec 16).toNat ≤ (m.prod - m.oldest).toNat ∧ (m.prod - m.oldest).toNat < (4 - m.oldest : BitVec 16).toNat ∧
      (4 - m.oldest : BitVec 16).toNat ≤ 2 ^ mailed.fld .INST_MB_CFG_CMD_SIZE 0 0 ∧
      2 ^ mailed.fld .INST_MB_CFG_CMD_SIZE 0 0 < (5 - m.oldest : BitVec 16).toNat) ∧
    mailed.flag .INST_MB_CFG_ENABLE 0 0 = true ∧ (up .setup).flag .INST_MB_CFG_ENABLE 0 0 = false ∧ Fld.INST_MB_DB_PROD.get 4 = 4 := by
  decide +kernel

/-- A ring of 16 with no descriptor: PROD 0, 16, 17; a flow number that is not open; a flow that is closing. -/
theorem witness_FlowDoorbellsFollowTheTable :
    (withFlow (up .run) flow0).ctxOf 0 (Fld.INST_FLOW_DB_FLOW.get 1) = none ∧
    (withFlow (up .run) flow0).ctxOf 0 (Fld.INST_FLOW_DB_FLOW.get 0) = some 0 ∧ (withFlow (up .run) flow0).flow 0 = some flow0 ∧
    (0 - flow0.cons : BitVec 16).toNat ≤ (flow0.prod - flow0.cons).toNat ∧
    ((flow0.prod - flow0.cons).toNat < (16 - flow0.cons : BitVec 16).toNat ∧ (16 - flow0.cons : BitVec 16).toNat ≤ 2 ^ flow0.ringLog) ∧
    2 ^ flow0.ringLog < (17 - flow0.cons : BitVec 16).toNat ∧ flow0.closedAt = none ∧
    (withFlow (up .run) { flow0 with closedAt := some 64 }).ctxOf 0 0 = some 0 ∧ Fld.INST_FLOW_DB_PROD.get (17 <<< 13) = 17 := by decide +kernel

/-- A mailbox that runs, one that does not with sizes 8 and 8, and one whose sizes do not fit. -/
theorem witness_RingRegistersWork :
    mailed.blockRuns .INST_MB_CFG 0 0 = true ∧ mailed.fld .INST_MB_CFG_CMD_SIZE 0 0 = 2 ∧ (up .setup).blockRuns .INST_MB_CFG 0 0 = false ∧
    (∃ v : Reg32, Fld.INST_MB_CFG_ENABLE.get v = 1 ∧ Fld.INST_MB_CFG_CMD_SIZE.get v = 8 ∧ Fld.INST_MB_CFG_CPL_SIZE.get v = 8) ∧
    (∃ v : Reg32, Fld.INST_MB_CFG_ENABLE.get v = 1 ∧ Fld.INST_MB_CFG_CMD_SIZE.get v = 1) := by
  refine ⟨by decide +kernel, by decide +kernel, by decide +kernel,
    ⟨((Fld.INST_MB_CFG_ENABLE.put 0 1) ||| (Fld.INST_MB_CFG_CMD_SIZE.put 0 8) ||| (Fld.INST_MB_CFG_CPL_SIZE.put 0 8)), by decide +kernel⟩,
    ⟨((Fld.INST_MB_CFG_ENABLE.put 0 1) ||| (Fld.INST_MB_CFG_CMD_SIZE.put 0 1)), by decide +kernel⟩⟩

/-- BAR0 as writer: source 2047 and number 2048; a source of hardware, one of software; settings with and without a target; a vector of the
manager. -/
theorem witness_SourceAddressesWork :
    ((up .run).writerSrc .bar0 2047 = some 2047 ∧ hwSource 51 = true ∧ (128 ≤ 2047) ∧ (2048#32).toNat = 2048) ∧
    mailed.writerSrc (.page 0) 256 = none ∧ mailed.writerSrc (.page 0) 255 = some 255 ∧
    ((up .run).boot.start = none ∧ (up .run).fld .SIG_SRC_SEL_SOURCE = 0 ∧ (up .run).writerSrc .bar0 0 = some 0 ∧
      (up .run).targetOk 0 ⟨0, 0, 0, 0, 0⟩ = true ∧ (up .run).targetOk 0 ⟨0, 2, 0, 0, 8⟩ = true) ∧
    63 < (mailed.inst 0).shares.vecs := by decide +kernel

theorem witness_AcknowledgementsNameTheirRecord :
    (∃ v : Reg32, Fld.ERR_ACK_CATEGORY.get v = (6 : Fin 7).val) ∧ (∃ v : Reg32, 7 ≤ Fld.ERR_ACK_CATEGORY.get v) :=
  ⟨⟨Fld.ERR_ACK_CATEGORY.put 0 6, by decide +kernel⟩, ⟨Fld.ERR_ACK_CATEGORY.put 0 7, by decide +kernel⟩⟩

/-- A device that runs, with one trace record, and one in step 7 of a warm start. -/
theorem witness_DeviceRegistersAct :
    (up .run).boot.start = none ∧ ({ up .run with trace := [⟨1, 2⟩] } : State).trace = [⟨1, 2⟩] ∧ (up .run).trace = [] ∧
    (let s := { up .run with boot := { (up .run).boot with start := some ⟨.wrst, true, 7, false, false, .run⟩ } };
      s.boot.start = some ⟨.wrst, true, 7, false, false, .run⟩) ∧ (17 : Fin 18).val = 17 := by decide +kernel

/-- Requests of 4, 8 and 64 bytes, of 3 bytes within a register and across two, of 65 bytes; an offset with no register. -/
theorem witness_RequestsBecomeRegisterAccesses :
    ((0xEFFFC#25).toNat < 0x100000 ∧ msixOfs false 0xEFFFC = false ∧ (0x1FFFFC#25).toNat < 0x200000 ∧ msixOfs true 0x1FFFFC = false) ∧
    ((8#25).toNat % 8 = 0 ∧ (64 : Nat) % 4 = 0 ∧ (1#25).toNat % 4 + 3 ≤ 4 ∧ 4 < (2#25).toNat % 4 + 3 ∧ 64 < (65 : Nat)) ∧
    (none ∈ ([some 0, none, some 0, some 0] : List (Option Byte))) ∧ findReg .bar0 0xEFFFC = none := by decide +kernel

theorem witness_CommandsAreTakenAndStarted :
    (mailed.mayTake 0 = true ∧ (entryOf 1 []).length = 64 ∧ ksorted mailed.insts = true ∧
      (mailed.inst 0).mb.cache.all (fun k => k.tag != BitVec.ofNat 32 (fieldAt (entryOf 1 []) 4 4)) = true) ∧
    (let t := { tk 1 [] with started := false };
      let s := inHand (up .run) t;
      s.taken c0 = some t ∧ s.serves 0 = true ∧ s.startable 0 t = true ∧
        (s.inst 0).mb.taken.all (fun u => !decide ((u.idx - (s.inst 0).mb.oldest).toNat < (t.idx - (s.inst 0).mb.oldest).toNat)) = true) := by
  decide +kernel

/-- A setup: direction, kind, request, VALUE, INDEX, COUNT. -/
def req (dir : Bool) (kind code value index count : Nat) : Setup := mkSetup dir kind code value index count

/-- A node with a periodic OUT endpoint 1, an IN endpoint 2, TIMED, one pending release. -/
def nodeDesc : List Word := [0, 0, 0, 0, 0x101000000, 0x114100000, 0x224000000]

/-- That node on root port 0. -/
def dev1 : Device := { dev0 with board := ⟨nodeDesc, [], []⟩, time := { NodeTime.init with valid := true } }

/-- A state with a device on root port 0. -/
def onRoot (s : State) (x : Device) : State := { s with devices := [x], ports := s.ports.set 0 (onPort .enabled) }

/-- The place of the node. -/
def p0 : Pos := ⟨0, []⟩

theorem witness_StandardRequestsArePerformed :
    let s := onRoot (up .run) dev1
    ([req true 0 1 1 0 7, req true 0 6 0 0 1, req true 0 6 0 2 1, req false 0 2 4064 0 0, req false 0 2 1 0 0, req false 0 3 1 0 0,
      req false 0 4 0 0 0, req false 0 4 0 1 0, req false 0 5 0 0 0, req false 0 5 0 2 0, req false 0 7 100 0 0].all
        fun q => s.setupReady p0 q dev1) = true ∧
    ((req true 0 1 1 0 7).isReq 0 1 = true ∧ (req true 0 1 1 0 7).dir = true ∧ (req true 0 1 1 0 7).value / 256 % 256 = 0 ∧
      dev1.descriptor ((req true 0 1 1 0 7).value % 256) = some nodeDesc) ∧
    ((req true 0 6 0 2 1).isReq 0 6 = true ∧ (req true 0 6 0 2 1).count = 1 ∧ BitVec.ofNat 4 (req true 0 6 0 2 1).index = 2 ∧ dev1.epKind 2 ≠ 0) ∧
    ((req false 0 2 4064 0 0).isReq 0 2 = true ∧ (req false 0 2 4064 0 0).value % 4096 = 4064 ∧ (req false 0 2 4064 0 0).dir = false ∧
      (req false 0 2 4064 0 0).count = 0) ∧
    (req false 0 3 1 0 0).isReq 0 3 = true ∧ (req false 0 4 0 1 0).isReq 0 4 = true ∧ (req false 0 5 0 2 0).isReq 0 5 = true ∧ dev1.epKind 1 ≠ 0 ∧
    (req false 0 7 100 0 0).isReq 0 7 = true ∧ dev1.timing = true := by decide +kernel

/-- A hub with two ports and a tier; its port 1 stands so. -/
def hub1 (y : Port) : Device := { dev1 with board := ⟨nodeDesc, [0, 0x100000000], []⟩, tier := 1, ports := [Port.init, y] }

/-- A request of kind 1 stands ready at a hub whose port 1 is in a state. -/
abbrev hubReady (q : Setup) (y : Port) : Prop :=
  (onRoot (up .run) (hub1 y)).setupReady p0 q (hub1 y) = true ∧ (1 : Fin 16).val = q.index % 16 ∧ (hub1 y).ports[1]? = some y ∧
    1 < (hub1 y).nports ∧ (hub1 y).tier ≠ 0

theorem witness_HubRequestsArePerformed :
    hubReady (req true 1 1 0 1 1) (onPort .off) ∧ (req true 1 1 0 1 1).isReq 1 1 = true ∧
    hubReady (req false 1 5 4 1 0) (onPort .off) ∧ (req false 1 5 4 1 0).value % 8 = 4 ∧
    hubReady (req true 1 2 0 1 4) (onPort .off) ∧ (req true 1 2 0 1 4).count = 4 ∧ hubReady (req true 1 6 0 1 1) (onPort .off) ∧
    hubReady (req false 1 3 1 1 0) (onPort .fault) ∧ (req false 1 3 1 1 0).value % 256 = 1 ∧
    hubReady (req false 1 3 2 1 0) (onPort .disabled) ∧ hubReady (req false 1 3 3 1 0) (onPort .enabled) ∧
    hubReady (req false 1 3 4 1 0) (onPort .suspended) ∧ hubReady (req false 1 3 4 1 0) (onPort .resuming) ∧
    (req true 1 6 0 1 1).isReq 1 6 = true := by
  decide +kernel

theorem witness_HubRequestsArePerformed_features :
    hubReady (req false 1 3 6 1 0) (onPort .off) ∧ hubReady (req false 1 4 1 1 0) (onPort .off) ∧ hubReady (req false 1 4 5 1 0) (onPort .enabled) ∧
    hubReady (req false 1 4 6 1 0) (onPort .off) ∧ hubReady (req false 1 4 0x15 1 0) (onPort .off) ∧
    (req false 1 4 0x15 1 0).value % 256 = 0x10 + 5 ∧ (req false 1 4 0x15 1 0).isReq 1 4 = true ∧ (req false 1 3 6 1 0).isReq 1 3 = true := by
  decide +kernel

theorem witness_StandardRequestsArePerformed_repeats :
    let q := req true 0 1 1 0 7
    let x := { dev1 with ctrl := some (ctrlStart q []) }
    (onRoot (up .run) x).setupRepeats p0 q x = true ∧ (Instr.getDescriptor (.node p0) q).wf = true ∧
    (let h := { hub1 (onPort .off) with ctrl := some (ctrlStart (req false 1 5 4 1 0) []) };
      (onRoot (up .run) h).setupRepeats p0 (req false 1 5 4 1 0) h = true ∧ (Instr.setHubTier (.node p0) (req false 1 5 4 1 0)).wf = true) ∧
    dev1.descriptor 3 = none ∧ (onRoot (up .run) dev1).setupReady p0 (req true 0 1 3 0 7) dev1 = true ∧
    (onRoot (up .run) dev0).setupReady p0 (req false 0 7 100 0 0) dev0 = true ∧ dev0.timing = false := by decide +kernel

theorem witness_HubRequestsArePerformed_refuses :
    let x := hub1 (onPort .disabled)
    (onRoot (up .run) x).setupReady p0 (req true 1 2 0 2 4) x = true ∧ x.nports ≤ 2 ∧ (Instr.getPortErrors (.node p0) (req true 1 2 0 2 4)).wf = true ∧
    (onRoot (up .run) { x with tier := 0 }).setupReady p0 (req true 1 2 0 1 4) { x with tier := 0 } = true ∧
    (req true 1 1 0 15 1).isReq 1 1 = true ∧ (onRoot (up .run) x).setupReady p0 (req true 1 1 0 15 1) x = true ∧
    (req false 1 3 3 1 0).isReq 1 3 = true ∧ (onRoot (up .run) x).setupReady p0 (req false 1 3 3 1 0) x = true ∧
    (req false 1 4 2 1 0).isReq 1 4 = true ∧ (onRoot (up .run) x).setupReady p0 (req false 1 4 2 1 0) x = true ∧
    x.ports[(req false 1 4 2 1 0).index % 16]? = some (onPort .disabled) := by decide +kernel

/-- A header to the node: type, HOLD, NOACK, endpoint, SEQ, length, release mode. -/
def toNode (ty : Nat) (hold : Bool) (ep : BitVec 4) (seq : BitVec 5) (len : Nat) (rel : BitVec 2) : Header :=
  ⟨ty, 0, 1, hold, false, ep, seq, len, rel, 0⟩

/-- The packet with that header and payload, intact. -/
def intact (h : Header) (ws : List Word) : Packet := (dataPacket h ws true).map some

/-- Words put on the node's link from block 3 of the course on, scrambled as its receiver unscrambles them. -/
def onLink (x : Device) (ws : List Word) : Wire := onWire ((onRoot (up .run) x).seedOf (.down (.node p0))) 3 ws

/-- A node, up, reads a packet of this type from its link, and answers. -/
abbrev hears (x : Device) (ws : List Word) (ty : Nat) (got : Parsed) : Prop :=
  let s := onRoot (up .run) x
  (s.heardAt (.node p0) (onLink x ws)).dev p0 = some { x with link := { x.link with heard := 3 + ws.length } } ∧ x.answers = true ∧
    pktType (s.receive (.down (.node p0)) (onLink x ws)) ty = true ∧ parsePacket (s.receive (.down (.node p0)) (onLink x ws)) = got

/-- It reads a data packet with this header and payload. -/
abbrev hearsData (x : Device) (h : Header) (ws : List Word) : Prop := hears x (dataPacket h ws true) h.ty (.data h ws true false)

theorem witness_NodePacketsAreTaken :
    let s := onRoot (up .run) dev1
    (dev1.address = 1 ∧ dev1.epKind 1 = 1 ∧ dev1.epKind 2 = 2 ∧ dev1.nports = 0 ∧ (dev1.ep 1).halted = false ∧ (dev1.ep 2).halted = false) ∧
    hearsData dev1 (toNode tOut true 1 0 1 0) [7] ∧ hearsData dev1 { toNode tOut false 1 0 1 0 with addr := 4095 } [7] ∧
    (let h := toNode tOut false 1 0 1 0; hearsData dev1 h [7] ∧ h.rel ≠ 3 ∧ h.addr ≠ 4095 ∧ h.seq.getLsbD 0 = (dev1.ep 1).expToggle) ∧
    (let h := toNode tOut false 1 1 1 0; hearsData dev1 h [7] ∧ h.seq.getLsbD 0 ≠ (dev1.ep 1).expToggle) ∧
    (let h := toNode tOut false 1 0 2 1;
      hearsData dev1 h [1000, 7] ∧ dev1.time.valid = true ∧
        ((dev1.localNs s.time.mono : Nat) : Int) ≤ fullTime 1000 (dev1.localNs s.time.mono) ∧
        (dev1.ep 1).releases.length < wbits ((dev1.board.desc[4]?).getD 0) 31 24) ∧
    (let h := toNode tIn false 2 0 4 0; hears dev1 (tokenPacket h) tIn (.token h)) ∧
    hearsData dev1 (toNode tSetup false 0 0 2 0) [1, 2] ∧
    (let k : Shake := ⟨false, hsAck, 1, 2, 0⟩; hears dev1 [k.word] tHs (.shake k)) := by decide +kernel

/-- A node whose endpoint 1 is halted, and a release that waits at one, with time valid and not. -/
theorem witness_NodePacketsAreTaken_ep :
    let e : Endpoint := { Endpoint.init 1 with halted := true }
    hearsData { dev1 with eps := [e] } (toNode tOut false 1 0 1 0) [7] ∧
    let r : Release := ⟨1000, true, 0, [7]⟩
    let x := { dev1 with eps := [{ Endpoint.init 1 with releases := [r] }] }
    (({ dev1 with eps := [e] } : Device).ep 1).halted = true ∧
    ((onRoot (up .run) x).dev p0 = some x ∧ nextRelease (x.ep 1).releases = some r ∧ x.time.valid = true ∧ dev0.time.valid = false) ∧
    (∀ y ∈ (onRoot (up .run) { dev1 with ready := false }).devices, y.pos = p0 → y.powered = true ∧ y.link.phase = .up) := by decide +kernel

/-- A controller whose GB answers, configured in its gang. -/
def gangB : State :=
  { up .setup with
    gb := { (up .setup).gb with ready := true, link := { DownLink.init with phase := .up } }
    gang := { (up .setup).gang with configured := true, role := .member, size := 2 } }

/-- A controller whose GA is enabled, with what the exchange needs. -/
def gangA : State :=
  { up .setup with ga := onPort .enabled, gang := { (up .setup).gang with configured := true, exchanged := true, size := 2 } }

theorem witness_GangRequestsArePerformed :
    (gangB.gb.answers = true ∧ (req true 2 0x10 0 0 3).isReq 2 0x10 = true ∧ (req true 2 0x10 0 0 3).dir = true ∧
      (req true 2 0x10 0 0 3).count = 3 ∧ gangB.gang.info.isEmpty = false) ∧
    ((req false 2 0x11 0 0 3).isReq 2 0x11 = true ∧ (gangB.gbEdge .gb).gang.role ≠ .ridge ∧ (gangB.gbEdge .gb).gang.configured = true ∧
      (gangB.gbEdge .gb).gang.phase ≠ .mismatch ∧ (gangB.gbEdge .gb).gang.accepted = none) ∧
    (gangA.enabled .ga = true ∧ gangA.gang.exchanged = true ∧ (up .setup).gang.exchanged = false ∧
      wbits (([0, 0, 0, 0x200000000] : List Word)[3]) 35 28 = 0x20) := by decide +kernel

theorem witness_StandardRequestsArePerformed_gb :
    gangB.gb.answers = true ∧ (req true 0 1 1 0 7).isReq 0 1 = true ∧ (gangB.gb.descriptor 1).isSome = true ∧
    (req true 0 6 0 0 1).isReq 0 6 = true ∧ BitVec.ofNat 4 (req true 0 6 0 0 1).index = 0 := by decide +kernel


/-- The words of a SET_GANG that a configured member of two takes: no controller above, hop 1, command set 1, any minor. -/
theorem witness_GangRequestsArePerformed_set : (gangB.gbEdge .gb).gang.checkSet (BitVec.ofNat 36 (1 * 8 + cmdMajor * 2 ^ 14 + 0xFF * 2 ^ 22)) 0 = none := by
  have h : wbits (BitVec.ofNat 36 (1 * 8 + cmdMajor * 2 ^ 14 + 0xFF * 2 ^ 22)) 13 6 = 0 := by decide +kernel
  unfold Gang.checkSet
  rw [h, Nat.zero_testBit]
  decide +kernel

/-- What a ridge sends to the controller below. -/
theorem witness_GangRequestsArePerformed_words :
    ({ gangA with gang := { gangA.gang with role := .ridge, joined := true } } : State).gangWords.isSome = true := by decide +kernel

/-- A port in a state with its receiver so. -/
def inTrain (st : PortState) (tr : TrainState) (r : Option Rate) : Port := { onPort st with rx := { Rx.init with train := tr, rate := r } }

/-- Root port 15 stands at a port's state. -/
abbrev rootAt (m : Mode) (x : Port) : Prop := (withPort (up m) 15 x).port (.root 15) = some x

/-- Port 1 of the hub on root port 0 stands at a port's state. -/
abbrev hubAt (m : Mode) (x : Port) : Prop := (onRoot (up m) (hub1 x)).port (.hub p0 1) = some x

/-- A trained link whose two sides are ready. -/
def trained : Port := { inTrain .resetting .ready (some .hr) with rx := { Rx.init with
  train := .ready, rate := some .hr, gotReady := 16, sentReady := 16, blockLock := true, eyeOk := true } }

/-- The device on it. -/
def devTrained : Device := { dev1 with link := { DownLink.init with
  phase := .train, rx := { Rx.init with train := .ready, rate := some .hr, gotReady := 16, sentReady := 16 } } }

/-- The state with both on root port 0. -/
def linkTrained : State := { up .setup with devices := [devTrained], ports := (up .setup).ports.set 0 trained }

theorem witness_PortsFollowTheirEvents :
    (rootAt .setup { onPort .powered with present := true } ∧ PortRef.root 15 ≠ .ga) ∧ rootAt .setup (onPort .enabled) ∧
    (PortState.enabled.linked = true ∧ (onPort .enabled).present = false) ∧
    (hubAt .setup (onPort .fault) ∧ ∀ k : Fin 16, PortRef.hub p0 1 ≠ .root k) ∧
    (rootAt .setup (inTrain .resetting .hold none) ∧ Block.isSet (ctlBlock cChirp (2 ^ 20 + 0x5A5A5)) cChirp = true) ∧
    (rootAt .setup { inTrain .resetting .hold none with chirps := 8 } ∧
      (withPort (up .setup) 15 { inTrain .resetting .hold none with chirps := 8 }).hrAllowed (.root 15)
        { inTrain .resetting .hold none with chirps := 8 } = true) ∧
    (rootAt .setup { inTrain .resetting .hold none with chirps := 7 }) ∧
    (rootAt .setup (inTrain .resetting .eq none) ∧ 20 ≤ (20#8).toNat) ∧
    (rootAt .setup (inTrain .resetting .lock (some .br)) ∧ (inTrain .resetting .lock (some .br)).brFails.toNat < 2) ∧
    (hubAt .setup { inTrain .resetting .eq (some .br) with brFails := 2 }) ∧ rootAt .setup (inTrain .resuming .ready (some .br)) ∧
    rootAt .setup (inTrain .resuming .ready (some .hr)) := by decide +kernel

theorem witness_PortsFollowTheirEvents_run :
    rootAt .setup { onPort .enabled with suspendReq := true } ∧ rootAt .setup { onPort .suspended with wakeFor := .reset } ∧
    rootAt .run { onPort .enabled with started := true } ∧
    rootAt .run { onPort .enabled with delay := { Delay.init with awaiting := some 5 } } ∧
    Block.isSet (ctlBlock cPong (5 * 2 ^ 20)) cPong = true ∧ BitVec.ofNat 8 (Block.arg (ctlBlock cPong (5 * 2 ^ 20)) / 2 ^ 20) = 5 := by decide +kernel

theorem witness_PortsFollowTheirEvents_up :
    linkTrained.port (.root 0) = some trained ∧ trained.state = .resetting ∧ PortRef.below (.root 0) = some p0 ∧ trained.rx.train = .ready ∧
    trained.rx.sixteen = true ∧ trained.rx.blockLock = true ∧ trained.rx.eyeOk = true ∧ linkTrained.farReady (.root 0) trained.rx.rate = true ∧
    ({ trained with state := .resuming } : Port).rx.sixteen = true := by decide +kernel

/-- A port that comes up has no flow below it in a state without flows. -/
theorem witness_PortsFollowTheirEvents_upFlows : linkTrained.flows = [] ∧
    (((((linkTrained.modPort (.root 0) fun y => { y with
        state := .enabled, rx := { y.rx with train := .up }, lastRate := y.rx.rate, attachLatch := false, wakeFor := .none, brFails := 0
        hrFails := 0, stepped := false, recovering := false, started := false, enabledAt := linkTrained.course.count.toNat
        window := { y.window with started := false }, cause := .none, byHub := false, eyed := false, seed := scrSeed 0
        seedBefore := scrSeed 0 }).modDev p0 fun y => { y with link := { y.link with
          phase := .up, synced := false, lastRate := y.link.rx.rate, waking := false, seed := scrSeed 0
          rx := { y.link.rx with train := .up } } }).emit (.blocks (.up (.root 0)) [idleBlock (scrSeed 0) 1])).portEvent (.root 0)
        .TRK_PEVENT_RESET_DONE chgReset).owedStops (.root 0)).flows.isEmpty = true := by decide +kernel

/-- The node with its link so. -/
def linked (l : DownLink) : Device := { dev1 with board := ⟨[0, 0, 0, 0, 0x10100C000], [], []⟩, link := l }

/-- The node stands so on root port 0. -/
abbrev downAt (x : Device) : Prop := (onRoot (up .run) x).dev p0 = some x

theorem witness_DownstreamSidesFollowTheirEvents :
    (downAt (linked DownLink.init) ∧ (linked DownLink.init).powered = true ∧ DownLink.init.phase ≠ .suspended ∧ (linked DownLink.init).nports = 0) ∧
    (downAt (linked { DownLink.init with phase := .chirp }) ∧
      4 ≤ ((List.replicate 4 (ctlBlock cChirpAck (2 ^ 20 + 0xA5A5A))).filter fun b => Block.isSet b cChirpAck).length) ∧
    (downAt (linked { DownLink.init with phase := .up }) ∧ Block.isSet (ctlBlock cSuspend 0) cSuspend = true ∧
      Block.arg (ctlBlock cSuspend 0) % 16 = 0 ∧ Block.isSet (ctlBlock cPing 0) cPing = true) ∧
    (readStart (linked { DownLink.init with phase := .up }).link.expected 0 0 0 = none ∧
      (readStart (linked { DownLink.init with phase := .up }).link.expected (ctlBlock cCourseStart (5 * 16)) (mkBlock 1 7) (mkBlock 1 0x80)).isSome
        = true) ∧
    (downAt (linked { DownLink.init with phase := .up, synced := true, missed := 1 })) ∧
    (downAt (linked { DownLink.init with phase := .up, synced := true })) ∧ (downAt (linked DownLink.init) ∧ DownLink.init.synced = false) ∧
    (downAt (linked { DownLink.init with phase := .suspended }) ∧ (linked DownLink.init).cap 14 = true) := by decide +kernel

theorem witness_DownstreamSidesFollowTheirEvents_gb :
    (∀ x, gangB.devAt .gb = some x → x.link.phase = .up) ∧ gangB.gb.answers = true ∧
    readStart gangB.gb.link.expected 0 0 0 = none ∧
    (∃ b ∈ List.replicate 4 (ctlBlock cSuspend 1), Block.isSet b cSuspend = true) ∧
    4 ≤ ((List.replicate 4 (ctlBlock cSuspend 1)).filter fun b => Block.isSet b cSuspend).length ∧
    (let x := { hub1 (onPort .enabled) with link := { DownLink.init with phase := .up } };
      downAt x ∧ ((onRoot (up .run) x).hubAt (.node p0)).isSome = true ∧ x.enabledPorts ≠ []) :=
  ⟨fun x h => by cases h; decide +kernel, by decide +kernel, by decide +kernel,
    ⟨_, List.mem_cons_self, by decide +kernel⟩, by decide +kernel, by decide +kernel⟩

theorem witness_ReceiversFollowTheirBlocks_down :
    (downAt (linked { DownLink.init with phase := .train }) ∧ DownLink.init.rx.blockLock = false) ∧
    (downAt (linked { DownLink.init with phase := .up, rx := { Rx.init with blockLock := true } })) ∧ gangB.gbUp = true ∧
    (downAt (linked { DownLink.init with phase := .suspended }) ∧
      8 ≤ longestRun (fun b => Block.isSet b cWake) (List.replicate 8 (ctlBlock cWake 0xAAAAAAA))) ∧
    (let s := { gangB with gb := { gangB.gb with link := { DownLink.init with phase := .suspended } } }; (s.devAt .gb).isSome = true) ∧
    (let s := { gangB with gb := { gangB.gb with link := { DownLink.init with phase := .train, rx := { Rx.init with train := .lock } } } };
      wfEye (.down .gb) (.measured 20 20) = true ∧ (((s.gbEdge .gb).modLink .gb fun l => l.meetTrain []).devAt .gb).isSome = true ∧
      (∀ y, ((s.gbEdge .gb).modLink .gb fun l => l.meetTrain []).devAt .gb = some y → y.link.phase = .train)) ∧
    Block.faulty none (ctlBlock cIdle 0) = false ∧ Block.faulty none (mkBlock 1 7) = false ∧
    (let x := { onPort .resuming with wakeFor := .resume };
      ({ up .setup with ga := x } : State).port .ga = some x ∧ ({ up .setup with ga := x } : State).wakeEnabled .ga x = true) :=
  ⟨by decide +kernel, by decide +kernel, by decide +kernel, by decide +kernel, by decide +kernel,
    ⟨by decide +kernel, by decide +kernel, fun y h => by cases h; decide +kernel⟩, by decide +kernel, by decide +kernel, by decide +kernel⟩

theorem witness_ReceiversFollowTheirBlocks :
    (rootAt .setup (inTrain .resetting .lock none) ∧ (inTrain .resetting .lock none).rx.training = true ∧
      wfEye (.up (.root 15)) (.measured 20 20) = true ∧ Block.isSet (trainBlock { Rx.init with train := .lock }) cTrain = true) ∧
    (let x := { devTrained with link := { devTrained.link with rx := { Rx.init with train := .lock, blockLock := true } } };
      wfEye (.down (.node p0)) (.judged true) = true ∧ ((onRoot (up .setup) x).modLink (.node p0) fun l => l.meetTrain []).dev p0 = some
        { x with link := x.link.meetTrain [] } ∧ (x.link.meetTrain []).phase = .train ∧ x.link.rx.training = true ∧
        (onRoot (up .setup) x).rxOf (.down (.node p0)) = some x.link.rx) ∧
    rootAt .setup (onPort .resetting) ∧ (onPort .resetting).rx.blockLock = false ∧
    (let x := { onPort .resetting with rx := { Rx.init with blockLock := true } };
      rootAt .setup x ∧ (withPort (up .setup) 15 x).enabled (.root 15) = false) ∧
    (let x := { onPort .enabled with rx := { Rx.init with blockLock := true } };
      rootAt .setup x ∧ (withPort (up .setup) 15 x).enabled (.root 15) = true ∧ hubAt .setup x ∧
        (onRoot (up .setup) (hub1 x)).enabled (.hub p0 1) = true) ∧
    (let x := { onPort .suspended with wakeEn := true };
      hubAt .setup x ∧ (onRoot (up .setup) (hub1 x)).wakeEnabled (.hub p0 1) x = true ∧
        8 ≤ longestRun (fun b => Block.isSet b cWake) (List.replicate 8 (ctlBlock cWake 0xAAAAAAA))) ∧
    (let x := { onPort .resuming with wakeEn := true, wakeFor := .resume };
      hubAt .setup x ∧ (onRoot (up .setup) (hub1 x)).wakeEnabled (.hub p0 1) x = true) ∧
    Block.faulty none 0 = true ∧ Block.faulty ((up .setup).idleDue (.up (.root 15)) 5) 0 = true ∧ (∃ a : Nat, Block.isSet (ctlBlock cStop a) cStop = true) ∧ dev1.nports = 0 :=
  ⟨by decide +kernel, by decide +kernel, by decide +kernel, by decide +kernel, by decide +kernel, by decide +kernel, by decide +kernel,
    by decide +kernel, by decide +kernel, by decide +kernel, ⟨0x5555555, by decide +kernel⟩, by decide +kernel⟩

/-- A packet to the hub itself, a handshake, one to port 1 of the tier-1 hub. -/
def hubH : Device := hub1 (onPort .enabled)

/-- Words on the hub's link, and on that of its port. -/
def toHub (ws : List Word) : Wire := onWire ((onRoot (up .run) hubH).seedOf (.down (.node p0))) 3 ws
def fromPort (ws : List Word) : Wire := onWire ((onRoot (up .run) hubH).seedOf (.up (.hub p0 1))) 3 ws

/-- A header to an address. -/
def hubHdr (route : BitVec 16) (addr : BitVec 12) : Header := ⟨tOut, route, addr, false, false, 0, 0, 0, 0, 0⟩

theorem witness_HubsForward :
    let s := onRoot (up .run) hubH
    (s.dev p0 = some hubH ∧ hubH.nports ≠ 0 ∧ hubH.link.phase = .up ∧ hubH.tier ≠ 0 ∧ s.enabled (.hub p0 1) = true ∧ s.enabled (.hub p0 0) = false) ∧
    (hubH.way (hubHdr 0 1).h0 = .self ∧ hubH.way (Shake.word ⟨false, hsAck, 1, 0, 0⟩) = .all ∧ hubH.way (hubHdr 0x1000 2).h0 = .port 1 ∧
      hubH.way (hubHdr 0 2).h0 = .port 0 ∧ hubH.way (hubHdr 0 4065).h0 = .discard ∧ wbits (hubHdr 0 1).h0 35 32 = 1 ∧
      wbits (Shake.word ⟨true, 0, 1, 0, 0⟩) 35 32 = tBulkAck) ∧
    (s.receive (.down (.node p0)) (toHub [(hubHdr 0 1).h0, 5]) = [some (hubHdr 0 1).h0, some 5] ∧
      parsePacket (s.receive (.up (.hub p0 1)) (fromPort [Shake.word ⟨false, hsAck, 1, 0, 0⟩])) ≠ .bad true ∧
      (fromPort [Shake.word ⟨false, hsAck, 1, 0, 0⟩]).blocks ≠ [] ∧
      (let x := { hubH with ports := [onPort .enabled, onPort .enabled] };
        (onRoot (up .run) x).enabled (.hub p0 0) = true ∧ (onRoot (up .run) x).enabled (.hub p0 1) = true)) := by decide +kernel


/-- A pending shadow plan. -/
def planPending (s : State) : State := { s with plan := { s.plan with pending := true } }

theorem witness_CoursesAndPlansAdvance :
    ((up .run).pmu.mode.courses = true ∧ (up .run).pmu.doms[10] = .on) ∧
    ((planPending (up .run)).plan.pending = true ∧ (planPending (up .run)).plan.ready = false ∧ (planPending (up .run)).plan.swapAt = none ∧
      ({ running (up .run) with course := { (running (up .run)).course with count := 62 } } : State).course.count.toNat % 64 = 62) ∧
    (let x := { onPort .enabled with window := ⟨true, 5, 5, 0, 0, 0, 0⟩ };
      rootAt .run x ∧ x.window.started = true ∧ x.window.length ≤ x.window.cycles) := by decide +kernel

/-- PPS as the source, its input enabled. -/
def pps (q : Quality) : State :=
  let s := ((up .run).setFld .TAPU_PPS_CFG_IN_EN 1).setFld .TAPU_TIME_CTRL_SOURCE 1
  { s with time := { s.time with quality := q, lockRun := 65535 } }

/-- PD_TIME in a state. -/
def timeDom (d : DomState) : State := { up .standby with pmu := { (up .standby).pmu with doms := (up .standby).pmu.doms.set 10 d } }

theorem witness_BusTimeFollowsItsEvents :
    ((pps .locked).flag .TAPU_PPS_CFG_IN_EN = true ∧ (pps .locked).timeSource = 1 ∧ (pps .locked).time.stepped = false ∧
      (pps .locked).flag .TAPU_PPS_CFG_IN_FALL = false ∧ (pps .locked).pmu.doms[10] = .on ∧ ksorted (pps .locked).regs = true ∧
      ((up .run).setFld .TAPU_PPS_CFG_IN_FALL 1).flag .TAPU_PPS_CFG_IN_FALL = true) ∧
    ((pps .estimated).time.quality ≠ .locked ∧ max 1 ((pps .estimated).fld .TAPU_LOCK_CFG_LOCK_CNT) ≤ (pps .estimated).time.lockRun) ∧
    (pps .holdover).time.quality = .holdover ∧ (((up .run).setFld .TAPU_PPS_CFG_OUT_EN 1).flag .TAPU_PPS_CFG_OUT_EN = true) ∧
    (((up .run).time.bus.toNat : Int) * 64 + ((up .run).time.frac.toNat / 2 ^ 26 : Nat) - (BitVec.ofNat 32 ((up .run).effFld .TAPU_PPS_OUT_OFS_OFS)).toInt) %
      (second64 : Int) = 0 ∧
    (timeDom .retained).pmu.doms[10] ≠ .on ∧ (pps .holdover).time.quality ≠ .unset ∧
    (({ timeDom .on with time := { (timeDom .on).time with snap := some (5, 7) } } : State).time.snap = some (5, 7)) := by decide +kernel

/-- An estimator in a state, of a kind, that reads input 0. -/
def estAt (st : EstState) (kind : Nat) : State :=
  let s := ((up .run).setFld .TAPU_PACE_CFG_KIND kind 7).setFld .TAPU_PACE_CFG_EN 1 7
  { s with ests := s.ests.set 7 { Estimator.init with state := st, missing := 2, quiet := 255 }
           gang := { s.gang with recordMiss := Vector.replicate 8 2 } }

theorem witness_PaceFollowsItsEvents :
    let s := up .run
    (s.encs[7].a = false ∧ s.encs[7].b = false ∧ s.pmu.doms[10] = .on ∧ s.filtNs 7 = 16 ∧ 8 < s.filtNs 7 ∧ s.readers 0 7 = [] ∧ s.course.running = false) ∧
    (timeDom .off).pmu.doms[10] ≠ .on ∧ (timeDom .off).filtNs 7 = 16 ∧
    ((estAt .tracking 0).readers 0 0 = [7] ∧ (estAt .tracking 0).ests[7].state ≠ .lost ∧ (estAt .tracking 0).course.running = false) ∧
    ((running s).course.running = true ∧ ((running s).startOf ((running s).course.count.toNat + 1)).toNat ≤ (2 ^ 63 : BitVec 64).toNat ∧
      ({ running s with edgesLate := [⟨0, none, 5⟩] } : State).edgesLate ≠ [] ∧ (running s).edgesLate = [] ∧
      (0#64).toNat < ((running s).startOf ((running s).course.count.toNat + 1)).toNat) ∧
    ((estAt .acquiring 1).ests[7].state ≠ .off ∧ (estAt .acquiring 1).ests[7].state ≠ .lost ∧ (estAt .acquiring 1).paceKind 7 = 1 ∧
      2 ≤ (estAt .acquiring 1).ests[7].missing) ∧
    ((estAt .tracking 2).paceKind 7 = 2 ∧ 2 ≤ (estAt .tracking 2).recordGone 7) ∧
    ((estAt .tracking 0).ests[7].state = .tracking ∧ max 1 ((estAt .tracking 0).effFld .TAPU_PACE_CFG_STOP_CYC 7) ≤ 255) := by decide +kernel

/-- A transfer whose descriptor has come: four words of data for a buffer at 64. -/
def xfer0 : Transfer := { Transfer.fresh 0 0 false 0 with desc := some (64, 0, 4, 0) }

/-- A bulk flow with one visible descriptor, and with that transfer. -/
def ringed : Flow := { flow0 with prod := 1 }
def staging : Flow := { flow0 with prod := 1, fetched := 1, xfers := [xfer0] }

/-- A periodic flow that every course serves. -/
def sched0 : Flow := { schedFlow with par := { schedFlow.par with k := 0 } }

theorem witness_DescriptorsAreFetched :
    (let s := withFlow (up .run) ringed;
      s.flow 0 = some ringed ∧ s.ringReadSize 0 ringed = 1 ∧ s.ringNext = some 0 ∧ s.host.ringTags < s.depth 2 0 256 ∧ s.canPost = true ∧
        s.boot.dmaRefused = false) ∧
    (({ ringed with fetching := 1 } : Flow).fetching ≠ 0 ∧ ringed.fetching = 0 ∧ (1 : BitVec 16) ≠ ringed.fetched ∧
      (List.replicate 32 (0 : Byte)).length = 32 ∧ ReadEnd.timeout ≠ .ok) ∧
    (sched0.bindsByWindow = true ∧ (withFlow (up .run) sched0).slotCourse sched0 = some (1#48).toNat) := by decide +kernel

/-- A bulk flow in packed format. -/
def packedFlow : Flow := { flow0 with par := { flow0.par with packed := true } }

theorem witness_StagesAreFilledAndDrained :
    (let s := withFlow (up .run) staging;
      s.flow 0 = some staging ∧ s.stageDue staging = some (xfer0, 0) ∧ xfer0.desc = some (64, 0, 4, 0) ∧ staging.readWords xfer0 = 4 ∧
        s.stageTurn 0 staging = true ∧ s.canPost = true ∧ s.boot.dmaRefused = false ∧ s.stageNext staging = some xfer0 ∧
        s.fetchStopped staging = false ∧ s.readHeld staging xfer0 = false ∧ s.bankOf xfer0 4 = some 0 ∧
        s.stageUse 0 + staging.readWords xfer0 ≤ (s.inst 0).shares.words ∧ staging.xfers.any (·.reading) = false) ∧
    (staging.xfer 0 = some xfer0 ∧ xfer0.reading = false ∧ staging.par.ty.scheduled = false) ∧
    (let x := { xfer0 with reading := true, bank := some 3 };
      ({ staging with xfers := [x] } : Flow).xfer 0 = some x ∧ x.fin = none ∧ staging.readWords { x with moved := x.readAt, staged := [] } = 4 ∧
        (List.replicate 32 (0 : Byte)).length = staging.par.byteLen x.readAt 4 ∧ x.moved + x.staged.length = x.readAt) ∧
    (staging.par.packed = false ∧ packedFlow.par.packed = true ∧ (2 : Nat) % 2 = 0 ∧ ([1, 2, 3] : List Word).length = 3) := by
  decide +kernel

theorem witness_StagesAreFilledAndDrained_more :
    (let x := { xfer0 with staged := [1, 2], toWrite := [2], moved := 2 };
     let f := { flow0 with par := { flow0.par with ty := .bulkIn }, xfers := [x] };
      (withFlow (up .run) f).flow 0 = some f ∧ f.xfer 0 = some x ∧ x.desc = some (64, 0, 4, 0) ∧
        (f.xfers.find? fun y => !y.toWrite.isEmpty).map (·.idx) = some 0 ∧
        ((withFlow (up .run) f).inst 0).state ≠ .resetting ∧ (withFlow (up .run) f).writeThrottled 0 = false ∧
        (withFlow (up .run) f).flag .PTB_THROTTLE_ON 7 = false ∧ (f.par.packed && f.par.ty.bulk) = false ∧
        x.moved - x.staged.length ≤ x.moved - x.toWrite.length) ∧
    (let s := withFlow (up .run) sched0;
      s.flow 0 = some sched0 ∧ sched0.service = none ∧ sched0.par.ty.scheduled = true ∧ (2#48).toNat ≤ s.committed ∧
        sched0.deadDone < (2#48).toNat ∧ s.activeFor sched0 2 = true) := by decide +kernel

/-- A transfer that has ended. -/
def ended : Flow := { staging with xfers := [{ xfer0 with fin := some ⟨.done, 4, 0, 0, true⟩ }] }

theorem witness_CompletionsAndStallsGoOut :
    (withFlow ((up .run).setFld .INST_CQ_CFG_ENABLE 1 0 0) ended).nextRelease.isSome = true ∧
    (let s := withFlow (up .run) ended;
      (s.inst 0).stall.open_ = false ∧ (7#3) ≠ 0 ∧ (s.inst 0).state ≠ .free ∧ s.hostWaits 0 = true) ∧
    (let s := { up .run with insts := [(0, { Instance.manager with stall := { Stall.init with open_ := true } })] };
      (s.inst 0).stall.open_ = true) := by decide +kernel


/-- A flow whose task is READY, aged by courses, with a deadline that has come. -/
def readyFlow : Flow := { flow0 with task := { Task.init with state := .ready, delay := some 0 } }

/-- A firmware task that is READY, with a deadline that has come. -/
def fwTask : Task := { Task.init with state := .ready, delay := some 0 }

/-- A course count beyond the age of tasks. -/
def lateCourse (s : State) : State := { s with course := { s.course with count := 300 } }

theorem witness_TasksAreDispatched :
    ((up .run).busy = true ∧ (up .run).pmu.doms[4] = .on ∧ (up .run).fwReady = true) ∧
    (let s := { up .run with fwTasks := [(8192, fwTask)] };
      s.gutter.cores[3].task = none ∧ s.gutter.cores[3].sleep = false ∧ s.busy = true ∧ s.nextFw = some (8192, fwTask) ∧
        s.flow 8192 = none ∧ ksorted s.fwTasks = true ∧ s.fwTask (8192 + (0 : Fin 64).val) = fwTask ∧ fwTask.state = .ready ∧
        (s.fwTask (8192 + (63 : Fin 64).val)).state = .idle ∧ s.armedOn.find? (fun x => x.2.2 == 8192) = some (0, 16, 8192) ∧ 0 ≤ s.tickNow ∧
        (∀ y ∈ s.armedOn, y.2.1 = 16 → 0 ≤ y.1)) ∧
    (let s := (up .run).modCore 3 fun c => { c with task := some 8192 };
      s.gutter.cores[3].task = some 8192) ∧
    (let s := (lateCourse (withFlow (up .run) readyFlow)).setFld .DSP_CFG_AGE 255;
      s.flow 0 = some readyFlow ∧ s.armedOn.find? (fun x => x.2.2 == 0) = some (0, 0, 0) ∧ s.fld .DSP_CFG_AGE ≠ 0 ∧
        readyFlow.par.ty.scheduled = false ∧ readyFlow.task.state = .ready ∧
        readyFlow.task.readyCourse + s.fld .DSP_CFG_AGE < s.course.count.toNat) := by decide +kernel

/-- An entry of a trunk's queue. -/
def txe (sched late : Bool) : TxEntry := ⟨0, 0, 0, 0, 0, sched, if sched then .send else .bulk, 0, late, 0⟩

/-- A trunk whose course runs and that has sent a COURSE_START, with entries in its queue and a flow in context 0. -/
def sending (f : Flow) (l : List TxEntry) : State :=
  let s := running (withDev (withFlow (up .run) f))
  { s with txq := s.txq.set 0 l, ports := s.ports.set 0 { onPort .enabled with started := true } }

/-- A bulk flow whose first packet is staged. -/
def bulkFlow : Flow := { staging with xfers := [{ xfer0 with staged := [1, 2, 3, 4], stagedAll := true }], task := { Task.init with state := .ready } }

theorem witness_EnginesSendAndTakeAnswers :
    ((up .run).pmu.doms[engineDomain 15] = .on) ∧
    ((sending sched0 [txe true true]).nextSched 0 = some (txe true true) ∧ (sending sched0 [txe true false]).enabled (.root 0) = true ∧
      (sending sched0 [txe true false]).syncedAt (.up (.root 0)) = true ∧
      (sending sched0 [txe true false]).pmu.mode.courses = true ∧ (sending sched0 [txe true false]).course.running = true) ∧
    ((sending sched0 [txe true false]).nextSched 0 = some (txe true false) ∧ (txe true false).late = false ∧
      (sending sched0 [txe true false]).course.count.toNat ≤ (txe true false).course ∧
      ((sending sched0 [txe true false]).nextUnsched 0).isNone = true ∧ (sending sched0 [txe true false]).flow 0 = some sched0) ∧
    ((sending bulkFlow [txe false false]).nextSched 0 = none ∧
      ((sending bulkFlow [txe false false]).nextUnsched 0).any (fun x => x.2.2.1.isSome) = true) ∧
    ((sending bulkFlow [txe false false, { txe true false with ofs := 1000 }]).nextSched 0).isSome = true ∧
    (((sending bulkFlow [txe false false, { txe true false with ofs := 1000 }]).nextUnsched 0).any fun x => x.2.2.1.isSome) = true := by decide +kernel

/-- An expectation of engine 0 on trunk 0 for a transfer of the flow in context 0. -/
def expect0 : Expect := ⟨0, 0, 0, 0, 0, 0, .bulk, 1, 1, 0, 4, false, 0, 100, .none⟩

/-- That expectation stands. -/
def expecting (f : Flow) : State := { withDev (withFlow (up .run) f) with expects := [expect0] }

/-- Blocks that arrive on trunk 0 while that flow stands. -/
def atTrunk (f : Flow) (ws : List Word) : Wire := onWire ((expecting f).seedOf (.up (.root 0))) 3 ws

theorem witness_EnginesSendAndTakeAnswers_match :
    let s := expecting bulkFlow
    (s.firstExpect 0 (fun w => w.trunk == 0 && w.got == .none) = some expect0 ∧ s.flow expect0.ctx = some bulkFlow ∧ s.silenced expect0 = false) ∧
    (let q := ((s.setFld .PTB_SILENCE_MODE 2).setFld .PTB_SILENCE_CONTEXT 0).setFld .PTB_SILENCE_PERIOD 0;
      q.silenced expect0 = true ∧ q.firstExpect 0 (fun w => w.trunk == 0 && w.got == .none) = some expect0) ∧
    ((s.readUp 0 ⟨false, 3, [0]⟩).1 = .bad false ∧
      (s.readUp 0 (atTrunk bulkFlow [Shake.word ⟨true, 0, 1, 1, 0⟩])).1 = .shake ⟨true, 0, 1, 1, 0⟩) ∧
    (let h := toNode tData false 1 0 1 0;
      (s.readUp 0 (atTrunk bulkFlow (dataPacket h [7] true))).1 = .data h [7] true false) := by decide +kernel

/-- A window that closes: of a transfer of a host's flow, and of a service flow; and what the trunk finds in its staged words. -/
theorem witness_EnginesSendAndTakeAnswers_close :
    let s := expecting bulkFlow
    ((minBy (·.closes) (s.expects.filter fun w => w.engine == 0)).map s.closesFirst = some expect0 ∧
      (s.dropExpect expect0).flow 0 = some bulkFlow ∧ bulkFlow.service = none ∧
      bulkFlow.dead = false ∧ (bulkFlow.xfer 0).isSome = true ∧ (bulkFlow.xfer 0).any (fun x => x.fin.isNone) = true) ∧
    (let f := { flow0 with service := some .hubStatus };
      (minBy (·.closes) ((expecting f).expects.filter fun w => w.engine == 0)).map (expecting f).closesFirst = some expect0 ∧
      ((expecting f).dropExpect expect0).flow 0 = some f ∧ f.service ≠ none) ∧
    (bulkFlow.carried.isSome = true ∧ flow0.carried = none ∧ (⟨1, none⟩ : StageCheck).bad = none ∧ (⟨0, some (5, true)⟩ : StageCheck).bad = some (5, true)) := by
  decide +kernel

/-- Plan entries and tasks in an engine's hands. -/
theorem witness_EnginesSendAndTakeAnswers_return :
    let e := ⟨0, 0, 0, 0, false, none⟩
    let s : State := { up .run with engines := (up .run).engines.set 15 ⟨some (0, e), some 1, 0, 0, none⟩ }
    let q : State := { up .run with engines := (up .run).engines.set 15 ⟨none, some 1, 0, 0, none⟩ }
    s.engines[15].sched = some (0, e) ∧ s.delayPast 15 0 = true ∧ q.engines[15].sched = none ∧ q.engines[15].unsched = some 1 := by decide +kernel

/-- A walk at root port 0, whose port and device stand so. -/
def walking (x : Port) (y : Device) : State :=
  { (up .setup).setFld .TRK_PCFG_AUTO_ENUM 1 with ports := (up .setup).ports.set 0 x, devices := [y], enums := [⟨p0⟩] }

/-- The record of a hub with two ports on root port 0, one of them powered. -/
def hubRec0 : NodeRec := { node0 with hub := [0, 0x100000000], powered := 1 }

theorem witness_TreesGrowAndShrink :
    (let s := walking (onPort .disabled) dev0;
      PortRef.below (.root 0) = some p0 ∧ s.port (.root 0) = some (onPort .disabled) ∧ s.fwReady = true ∧
        s.enums.any (fun r => r.pos == p0) = true ∧ s.enumerates 0 = true) ∧
    (let y := { dev0 with addr := none };
     let s := walking (onPort .enabled) y;
      s.port (.root 0) = some (onPort .enabled) ∧ s.routeUp p0 = true ∧ (s.firmwareSends 0 (mkSetup true 0 1 1 0 5)).dev p0 = some y ∧
        y.answers = true ∧ y.addr = none ∧ s.enabled (.root 0) = true) ∧
    (let y := { dev0 with ready := false };
     let s := walking (onPort .enabled) y;
      (s.firmwareSends 0 (mkSetup true 0 1 1 0 5)).dev p0 = some y ∧ y.answers = false) ∧
    (let r : Reseat := ⟨1, p0, 5, 1, false, false, none⟩;
      (({ up .run with reseats := [r] } : State).reseats.find? fun r => r.addr == 1 && !r.expired && r.resumeAt.isNone) = some r) ∧
    (let s := { onRoot (up .setup) (hub1 (onPort .off)) with nodes := [(1, hubRec0)] };
      s.hubRec p0 = some hubRec0 ∧ hubRec0.powered < hubRec0.nports ∧ s.routeUp p0 = true ∧ s.fwReady = true) := by decide +kernel

theorem witness_TreesGrowAndShrink_hubPort :
    (let s := (onRoot (up .setup) (hub1 (onPort .fault))).setFld .PPM_TIMERS_RETRY_LIM 1 0;
      s.port (.hub p0 1) = some (onPort .fault) ∧ s.fwReady = true ∧ (onPort .fault).retries.toNat < s.fld .PPM_TIMERS_RETRY_LIM 0) ∧
    (let x := { hub1 (onPort .enabled) with board := ⟨nodeDesc, [0, 0x100040000], []⟩ };
     let s := onRoot (up .setup) x;
      s.dev p0 = some x ∧ x.nports ≠ 0 ∧ s.port (.hub p0 1) = some (onPort .enabled) ∧ ((x.board.hub[1]?).getD 0).getLsbD 18 = true) := by
  decide +kernel

/-- A source that is pending, not masked, of core set 0b1000, fast or not. -/
def signalled (fast : Bool) : State :=
  { up .run with gutter := { (up .run).gutter with
      pend := 1, mask := 0, fast := if fast then 1 else 0, cfg := [(0, ⟨0, 2, 0, 0, 8⟩)] } }

theorem witness_SignalsAreDelivered :
    (up .run).pmu.doms[4] = .on ∧ ((signalled true).nextSource true).isSome = true ∧
    ((signalled false).nextSource true = none ∧ ((signalled false).nextSource false).isSome = true) ∧
    ((up .run).nextSource true = none ∧ (up .run).nextSource false = none) ∧ ((up .run).host.perst = false ∧ (up .run).host.d = .d0) ∧
    ({ up .run with host := { (up .run).host with perst := true } } : State).host.perst = true := by decide +kernel

/-- A controller in a role and phase of its gang. -/
def ganged (role : Role) (phase : GangPhase) : State :=
  { (up .run).setFld .TAPU_TIME_CTRL_SOURCE 2 with
    gb := { (up .run).gb with link := { DownLink.init with phase := .up } }, ga := onPort .fault
    gang := { (up .run).gang with role := role, phase := phase, accepted := some (0, 0, 0), goodRun := 64, noSample := 2, leaseMiss := 8
                                  leaseHave := 8, deciding := true } }

/-- The header of a pace packet. -/
def paceHdr : Header := ⟨tOut, 0, 1, false, true, 15, 0, 57, 0, 0⟩

/-- Its 57 words, and its trailer with LAST and its CRC-32. -/
def paceWords : List Word := List.replicate 57 5
def paceTrailer : Word := 38104798790#36

/-- The CRC-32 register after the header and after every three words (a worked chain, so that no evaluation is deep). -/
def paceChain : List Nat :=
  [2861014800, 3925825371, 2349249400, 383014137, 4268307216, 120466169, 407499852, 1504272940, 859428531, 4087356454,
    1069582007, 1685480260, 1846434844, 3350287283, 2009970229, 736884781, 2366757437, 4190292850, 2593314164, 3000524022]

theorem pace_header_crc : crcWords 32 0x04C11DB7 [paceHdr.h0, paceHdr.h1] 0xFFFFFFFF = 2861014800 := by decide +kernel

theorem pace_chain : ∀ p ∈ paceChain.zip paceChain.tail, crcWords 32 0x04C11DB7 (List.replicate 3 5) p.1 = p.2 := by decide +kernel

theorem crcWords_append (a b : List Word) (r : Nat) :
    crcWords 32 0x04C11DB7 (a ++ b) r = crcWords 32 0x04C11DB7 b (crcWords 32 0x04C11DB7 a r) := List.foldl_append

/-- A chain of register values, run to its end. -/
theorem crcWords_chain (ws : List Word) : ∀ (l : List Nat) (r : Nat),
    (∀ p ∈ (r :: l).zip l, crcWords 32 0x04C11DB7 ws p.1 = p.2) →
      crcWords 32 0x04C11DB7 (List.replicate l.length ws).flatten r = (r :: l).getLast (List.cons_ne_nil _ _)
  | [], _, _ => rfl
  | x :: l, r, h => by
    rw [List.length_cons, List.replicate_succ, List.flatten_cons, crcWords_append, h (r, x) (by simp), List.getLast_cons_cons]
    exact crcWords_chain ws l x fun p hp => h p (by simp [hp])

theorem pace_words_chain : paceWords = (List.replicate 19 (List.replicate 3 5)).flatten := by decide +kernel

theorem pace_crc : crcWords 32 0x04C11DB7 paceWords 2861014800 = 3000524022 := by
  have hc := crcWords_chain (List.replicate 3 5) paceChain.tail 2861014800 pace_chain
  rw [pace_words_chain]
  exact hc

theorem pace_trailer_crc : crcTop 32 0x04C11DB7 paceTrailer.toNat 36 4 3000524022 ^^^ 0xFFFFFFFF = wbits paceTrailer 31 0 := by decide +kernel

/-- A data packet, by the CRC-32 register's stages. -/
theorem parseWords_data (h0 h1 t : Word) (p : List Word) (a b : Nat) (hty : wbits h0 35 32 = tOut) (h8 : crc8Ok h0 h1 = true)
    (hl : p.length = (headerOf h0 h1).len) (ha : crcWords 32 0x04C11DB7 [h0, h1] 0xFFFFFFFF = a) (hb : crcWords 32 0x04C11DB7 p a = b)
    (ht : crcTop 32 0x04C11DB7 t.toNat 36 4 b ^^^ 0xFFFFFFFF = wbits t 31 0) :
    parseWords (h0 :: h1 :: (p ++ [t])) = .data (headerOf h0 h1) p (t.getLsbD 35) (t.getLsbD 34) := by
  have hc : crc32 (h0 :: h1 :: p) t = wbits t 31 0 := by
    have : h0 :: h1 :: p = [h0, h1] ++ p := rfl
    rw [crc32, this, crcWords_append, ha, hb, ht]
  unfold parseWords
  simp [hty, h8, ← hl, hc, tOut, tIn, tHs, tBulkAck]

theorem wholeWords_some : ∀ ws : List Word, wholeWords (ws.map some) = some ws
  | [] => rfl
  | w :: ws => by simp [wholeWords, wholeWords_some ws]

theorem paceRecord_data (ws p : List Word) (h : Header) (l z : Bool) (hp : parseWords ws = .data h p l z)
    (hh : (h.ty = tOut && h.addr == 1 && h.route == 0 && h.ep == 15 && h.noack && h.len = 57) = true) :
    paceRecord (ws.map some) = some p := by
  unfold paceRecord parsePacket
  simp only [wholeWords_some, hp, hh, if_true]

theorem paceHdr_fields : headerOf paceHdr.h0 paceHdr.h1 = paceHdr := by decide +kernel

theorem paceHdr_checks : wbits paceHdr.h0 35 32 = tOut ∧ crc8Ok paceHdr.h0 paceHdr.h1 = true := by decide +kernel

/-- The blocks of the pace packet on gangway B's link. -/
def paceWire : Wire := onWire ((ganged .member .locked).seedOf (.down .gb)) 3 (paceHdr.h0 :: paceHdr.h1 :: (paceWords ++ [paceTrailer]))

theorem witness_GangsFollowTheirEvents_pace :
    (ganged .member .locked).enabled .ga = false ∧ paceRecord ((ganged .member .locked).receive (.down .gb) paceWire) = some paceWords := by
  refine ⟨by decide +kernel, ?_⟩
  have h : (ganged .member .locked).receive (.down .gb) paceWire = (paceHdr.h0 :: paceHdr.h1 :: (paceWords ++ [paceTrailer])).map some :=
    read_onWire _ _ _
  rw [h]
  exact paceRecord_data _ _ _ _ _ (parseWords_data _ _ paceTrailer paceWords 2861014800 3000524022 paceHdr_checks.1 paceHdr_checks.2
    (by rw [paceHdr_fields]; rfl) pace_header_crc pace_crc pace_trailer_crc) (by rw [paceHdr_fields]; rfl)

theorem witness_GangsFollowTheirEvents :
    ((ganged .member .locked).gang.role = .member ∧ (ganged .member .locked).gbUp = true) ∧
    ((ganged .member .setup).gang.follows = true ∧ (ganged .member .setup).gang.goodRun = 64 ∧ (ganged .member .setup).timeSource = 2) ∧
    ((ganged .member .unqualified).gang.leaseMiss = 8 ∧ (ganged .member .leaseLost).gang.leaseHave = 8 ∧ (ganged .member .locked).gang.noSample = 2) ∧
    ((ganged .solo .setup).gang.deciding = true ∧ (ganged .solo .setup).gang.ridgeAllowed = false ∧ (ganged .solo .setup).gbLive = true) ∧
    (let s := { ganged .solo .setup with gb := (up .run).gb };
      s.gang.deciding = true ∧ s.gang.ridgeAllowed = false ∧ s.gbLive = false) ∧
    (ganged .solo .setup).ga.state = .fault := by decide +kernel

/-- A state with an entry to a mode under way. -/
def entering (m : Mode) (doms : Vector DomState 12) : State :=
  { up .setup with pmu := { (up .setup).pmu with entry := some ⟨m, [], none⟩, doms := doms } }

theorem witness_DomainsGoToSleep :
    ((up .run).pmu.handshake = none ∧ (up .run).pmu.doms[2] = .on ∧ (up .run).pmu.entry = none ∧ (up .run).pmu.changing = false ∧
      (up .run).boot.start = none ∧ (up .run).pmu.mode.sleepers.contains 2 = true ∧ (up .run).domPolicy 2 ≠ 1 ∧ (up .run).needNear 2 = false) ∧
    (let s := (up .run).setFld .PMU_DOM_POLICY_POLICY (4 ^ 2);
      s.domPolicy 2 = 1 ∧ s.pmu.mode ≠ .dormant) ∧
    (({ up .run with pmu := { (up .run).pmu with handshake := some ⟨2, 0, 5⟩ } } : State).pmu.handshake = some ⟨2, 0, 5⟩) ∧
    ((entering .dormant (up .setup).pmu.doms).pmu.entry = some ⟨.dormant, [], none⟩ ∧
      (∀ d ∈ (entering .dormant (up .setup).pmu.doms).entryDoms .dormant, (entering .dormant (up .setup).pmu.doms).pmu.doms[d] ≠ .waking)) ∧
    (let s := entering .standby (Vector.replicate 12 .retained);
      s.wakePending = false ∧ (∀ d ∈ s.entryDoms .standby, s.pmu.doms[d] ≠ .on) ∧ ∀ d ∈ s.entryDoms .standby, s.pmu.doms[d] ≠ .waking) ∧
    ((up .standby).domPolicy 7 = 0 ∧ (up .standby).pmu.doms[7] = .on ∧ (up .standby).bankBound 63 1 = false) ∧
    ((running (up .run)).course.running = true ∧ (up .run).pmu.mode.courses = true ∧ ((running (up .run)).course.count.toNat + 1) % 64 ≠ 0) := by
  decide +kernel

/-- Standby, with root port 0 and GA suspended and their devices active. -/
def sleeping : State :=
  let x := { onPort .suspended with activity := true }
  let s := (up .standby).setFld .TRK_PCFG_WAKE_EN 1
  { s with
    ports := (s.ports.set 0 x).set 1 (onPort .powered), ga := x
    pmu := { s.pmu with doms := ((s.pmu.doms.set 2 .retained).set 3 .waking), wakeLow := 3, sramFell := true
                        banks := (s.pmu.banks.set 0 .lost).set 1 .on }
    stop := { s.stop with pinLow := true }
    gutter := { s.gutter with pend := 1, mask := 0, wake := 1, cfg := [(0, ⟨0, 2, 0, 0, 8⟩)] } }

theorem witness_DomainsWake :
    (sleeping.wakeLevel 0 = true ∧ sleeping.wakeLevel 1 = true ∧ (sleeping.trunkDoms .powered).isEmpty = false ∧ sleeping.wakeLevel 3 = true ∧
      sleeping.wakeLevel 4 = true ∧ sleeping.wakeLevel 5 = true ∧ sleeping.wakeLevel 9 = true ∧ sleeping.host.perst = false) ∧
    (let s := sleeping.setFld .PMU_TIMER_HI_ARM 1;
      s.wakeLevel 6 = true) ∧
    (sleeping.asleep 2 = true ∧ sleeping.pmu.doms[3] = .waking ∧ sleeping.boot.start = none) ∧
    (sleeping.pmu.doms[7] = .on ∧ sleeping.pmu.banks[1] = .on) ∧
    (sleeping.pmu.banks[0] = .lost ∧ ∀ e ∈ sleeping.flows, ∀ x ∈ e.2.xfers, x.bank = some 0 → x.fin ≠ none) ∧ sleeping.pmu.sramFell = true := by
  decide +kernel

/-- Port 15 and its feeds in a state. -/
def fed (x : PpmPort) (f : FeedGroup) : State := { up .setup with ppm := (up .setup).ppm.set 15 x, feeds := (up .setup).feeds.set 3 f, oscRun := true }

theorem witness_PortPowerFollowsItsEvents :
    ((up .setup).oscRun = false ∧ (fed PpmPort.init FeedGroup.init).oscRun = true) ∧
    (let s := fed { PpmPort.init with faultLeft := some 1 } FeedGroup.init;
      s.ppm[15].faultLeft ≠ none ∧ s.ppm[15].tripLatch = false) ∧
    (let s := fed { PpmPort.init with faultLeft := some 1, tripLatch := true } FeedGroup.init;
      s.ppm[15].faultLeft ≠ none ∧ s.ppm[15].tripLatch = true) ∧
    (let s := fed { PpmPort.init with gen := true } FeedGroup.init;
      s.ppm[15].gen = true ∧ s.ppm[15].pg = false ∧ s.blanked 15 = false) ∧
    ((fed { PpmPort.init with pg := true } FeedGroup.init).ppm[15].pg = true) ∧
    (let s := fed { PpmPort.init with retryLeft := some 1, retries := 200 } FeedGroup.init;
      s.ppm[15].retryLeft ≠ none ∧ s.fld .PPM_TIMERS_RETRY_LIM 15 ≠ 255 ∧ s.fld .PPM_TIMERS_RETRY_LIM 15 ≤ s.ppm[15].retries.toNat) ∧
    (let s := (fed { PpmPort.init with retryLeft := some 1 } FeedGroup.init).setFld .PPM_TIMERS_RETRY_LIM 255 15;
      s.ppm[15].retryLeft ≠ none ∧ s.fld .PPM_TIMERS_RETRY_LIM 15 = 255 ∧ s.feeds[groupOf 15].sel = .none) ∧
    ((fed PpmPort.init { FeedGroup.init with sel := .onB, a := ⟨true, true, 0, 0, 0⟩ }).feeds[groupOf 15].sel ≠ .none) ∧
    (({ up .setup with ppm := (up .setup).ppm.set 15 { PpmPort.init with onReq := true } } : State).ppm[15].onReq = true) ∧
    ((fed PpmPort.init FeedGroup.init).feeds[3].a.good = false ∧ (fed PpmPort.init { FeedGroup.init with b := ⟨true, true, 0, 0, 0⟩ }).feeds[3].b.good = true) ∧
    ((fed PpmPort.init { FeedGroup.init with deadLeft := some 1 }).feeds[3].deadLeft ≠ none) ∧
    (let s := fed PpmPort.init { FeedGroup.init with sel := .onB, a := ⟨true, true, 0, 0, 0⟩ };
      s.feeds[3].sel = .onB ∧ s.feeds[3].a.good = true ∧ s.feeds[3].deadLeft = none) := by decide +kernel

/-- A warm start in progress at a step. -/
def starting (step : Nat) : State :=
  { up .run with boot := { (up .run).boot with start := some ⟨.wrst, true, step, false, false, .run⟩ } }

theorem witness_StartsAndResetsAct :
    ((up .run).boot.start = none ∧ (starting 5).boot.start = some ⟨.wrst, true, 5, false, false, .run⟩ ∧ (1#8) ≠ 0 ∧ (up .run).fwReady = true ∧
      (up .run).host.perst = false) ∧
    (let s := { up .run with host := { (up .run).host with perst := true } };
      s.host.perst = true ∧ s.host.wakeN = false) := by decide +kernel

theorem witness_ErrorsAndPinsAct :
    (({ up .run with host := { (up .run).host with up := true } } : State).host.up = true ∧ (up .run).host.ltrEn = false) := by decide +kernel

/-! ## Figures of the spec -/

/-- Chapter 0, lane format: the word 0x9_0000_0ABC. -/
theorem test_lane_format : laneBytes [0x900000ABC] = [0xBC, 0x0A, 0, 0, 0x09, 0, 0, 0] := by decide

/-- Chapter 3, the selector packet: the route of trunk 3, hub port 6. -/
theorem test_route_selector : Pos.route ⟨3, [6]⟩ = 0x6000 := by decide

/-- Chapter 7: port 3 of the tier-2 hub at tier-1 port 1. -/
theorem test_route_module : Pos.route ⟨0, [1, 3]⟩ = 0x1300 := by decide

/-- Chapter 3, the selector packet's header. -/
def selectorHdr : Header := ⟨tOut, 0x6000, 0x037, false, false, 1, 1, 2, 1, 0x0A3⟩

theorem test_packet_h0 : selectorHdr.h0 = 0x160000370 := by decide

theorem test_packet_h1 : selectorHdr.h1 >>> 8 = 0x10824A300 >>> 8 := by decide +kernel

/-- The packet has 2 + 2 + 1 blocks. -/
theorem test_packet_blocks : (dataPacket selectorHdr [7, 9] true).length = 5 := by decide +kernel

/-- A damaged bit of a header ends its check. -/
theorem test_packet_damaged : crc8Ok selectorHdr.h0 (selectorHdr.h1 ^^^ 0x100) = false := by decide +kernel

/-- Chapter 2: course 64's seed. -/
theorem test_scrambler_seed : scrSeed 0x000040 = 0x5A3C96A1 := by decide

/-- Chapter 2, R30: a flipped payload bit shows in the check. -/
theorem test_block_check : Block.checkOk (mkBlock 0b01 0x160000370) = true ∧
    Block.checkOk (mkBlock 0b01 0x160000370 ^^^ 0x40) = false := by decide

/-- Chapter 5, trunk 3: the request of a path delay of 68 ns carries 4352. -/
theorem test_path_delay : (pathDelaySetup (68 * 64)).value = 4352 ∧ Instr.wf (.setPathDelay (.node ⟨3, [6]⟩) (pathDelaySetup 4352)) = true := by decide

/-- Chapter 7: C of an HR link at the default period. -/
theorem test_link_cap : capOf 1280 = 960 := by decide

/-- Chapter 7: q of the modules' flows. -/
theorem test_paced_q : pacedQ 4 20480 90000 8192 = 1 := by decide

/-- Chapter 7: 7,281.777 counts as an angle word. -/
theorem test_angle_word : angleOf 0x0001C71C7 = 7281 + 199 / 256 := by decide +kernel

/-- Chapter 7: the estimator at t_e. -/
def crank : Estimator := { Estimator.init with
  state := .tracking, pos := 8199217, stamp := 5000000000, omega := 8192 * 640 / 60, dTheta := 35 / 100000, dOmega := 1398 / 100 }

/-- Chapter 7: pick 1,000 gets the release word 0x1_2A11_41C6, with 500.5 ns rounded up. -/
theorem test_pick_release :
    let s : State := { (up .run).setFld .TAPU_PACE_AMAX_AMAX 60000 with ests := (up .run).ests.set 0 crank }
    ((s.setFld .TAPU_PACE_CPR_CPR 8192).setFld .TAPU_PACE_HMAX_HMAX 1000000).convert 0 8199217 0x0001C71C7 = some (0x12A1141C6, 501) := by decide +kernel

/-- Chapter 7: TAPU_PACE_RATE and TAPU_PACE_ERR of estimator 0. -/
theorem test_pace_registers : crank.rateReg = 0x00155555 ∧ crank.errReg = 0x001700E0 := by decide +kernel

/-- Chapter 19: three places of the register map. -/
theorem test_register_places : Reg.key .TRK_DELAY 0 3 = 0x8338 ∧ Reg.key .PPM_ENERGY_LO 0 8 = 0xB2C4 ∧
    Reg.key .INST_CQ_CONS 1 1 = 0x1000000 + 0x182C := by decide

/-- Chapter 9: the cancel record. -/
theorem test_trace_record :
    let s : State := { (up .run).setFld .TRC_CTRL_EVENTS 1 with time := { (up .run).time with bus := 5000012345 } }
    ((s.setFld .TRC_CTRL_EN 1).record ⟨0x402, 0x0DB, 0x11, 0x1F, true, false, 0, some 8, FlowType.bulkOut.traceClass⟩).trace = [⟨0x002540C44, 0x1009B71FA⟩] := by decide +kernel

/-- Chapter 9: BULK_OUT of trunk 8 at priority 3 has list 0x0DB. -/
theorem test_list : listOf 8 .bulkOut 3 = 0x0DB := by decide

/-- Chapter 13: priorities 3, 1, 1 and 15 and no choice before: vector 1, then vector 2; and R350's search from LAST + 1. -/
theorem test_member_choice :
    let prio : Nat → Nat := fun m => ([3, 1, 1, 15][m]?).getD 0
    pickMember 7 prio [(0, 0), (1, 1), (2, 2)] = some (1, 1) ∧ pickMember 1 prio [(0, 0), (2, 2)] = some (2, 2) ∧
      pickMember 1 prio [(0, 0), (1, 1), (2, 2)] = some (2, 2) := by decide

/-- Chapter 11: the entry that opens the selector's flow. -/
def selectorOpen : Taken := ⟨0x11, [0x01, 0x03, 0x01, 0x00, 0x31, 0x0C, 0x00, 0x00, 0x02, 0x01, 0x37, 0x00, 0x02, 0x04, 0x06, 0x00,
  0x02, 0x02, 0x03, 0x00, 0x00, 0x06, 0x00, 0x00, 0x00, 0x00, 0x40, 0x23, 0x01, 0x00, 0x00, 0x00,
  0x00, 0x00, 0x00, 0x00, 0x00, 0x00, 0x00, 0x00, 0x00, 0x08, 0x00, 0x00, 0x00, 0x00, 0x00, 0x00,
  0x98, 0x08, 0x00, 0x00, 0x00, 0x00, 0x00, 0x00, 0x00, 0x00, 0x00, 0x00, 0x00, 0x00, 0x00, 0x00], true, false, false, 0, [], .notSent, false, 0⟩

/-- L = 2, k = 4, φ = 6, pooled, ANGLE, REPEAT, lead 2, estimator 0, M = 8, Z = 0, ρ = 2,200. -/
theorem test_flow_open_parameters : ((up .run).openPar selectorOpen .pacedOut []) =
    ⟨.pacedOut, 2, 4, 6, 1, 2, .angle, false, .rep, false, false, 0, 0, 8, 0, 2200, [], 0, false, 2⟩ := by decide +kernel

theorem test_flow_open_rest :
    let f := (up .run).openFlow 1 0x36 node1 selectorOpen .pacedOut []
    selectorOpen.opcode = 0x0301 ∧ selectorOpen.tag = 0xC31 ∧ f.ep = 1 ∧ f.dom = 3 ∧ f.cq = 0 ∧ f.ringLog = 6 ∧ f.ring = 0x123400000 := by
  decide +kernel

/-- Chapter 19: a write of 0x49 to TRK_CTRL of the enabled trunk 3 changes nothing and logs STATIC_WRITE; one of 0x27 takes effect. -/
theorem test_static_write :
    let s : State := { withPort (up .run) 3 (atRate .hr) with regs := [(0x8300, 0x25)] }
    (s.write32 false 0x8300 0x49 ⟨true, true, none⟩).reg .TRK_CTRL 3 = 0x25 ∧
    (((s.write32 false 0x8300 0x49 ⟨true, true, none⟩).errs.recs[5]?).map fun r => (r.valid, r.code, r.source, r.detail)) =
      some (true, 0x0001, 7, 0x8300) ∧
    (s.write32 false 0x8300 0x27 ⟨true, true, none⟩).reg .TRK_CTRL 3 = 0x27 := by decide +kernel

/-- Chapter 5, trunk 3: a round trip of 62 ns less a hold field of 1408 (22 ns), halved, is 1280: 20 ns. -/
theorem test_ping_pong :
    let s := withPort (up .run) 3 { atRate .hr with delay := { (atRate .hr).delay with pings := 64, awaiting := some 5 } }
    ∃ t, exec (.pongReceive (.root 3) (ctlBlock cPong (5 * 2 ^ 20 + 1408)) (62 * 64) false) s = .next t ∧
      (t.ports[(3 : Fin 16)].delay.sum, t.ports[(3 : Fin 16)].delay.count) = (40 * 64, 1) := ⟨_, rfl, by decide +kernel⟩

theorem test_one_way :
    ({ (Port.init).delay with sum := 64 * 40 * 64, count := 64, pings := 64 } : Delay).endCycle.oneWay = 1280 := by decide +kernel

/-- Chapter 10: STOP_IN_N in Run latches reason 1, leaves Run for Hold and keeps the trigger's time. -/
theorem test_stop_pin :
    let s : State := { (up .run).setFld .ENG_STOP_CFG_PIN_EN 1 with time := { (up .run).time with bus := 80 } }
    ∃ t, exec (.stopInLow 10) s = .next t ∧ t.stop.latched = true ∧ t.stop.reason = 1 ∧ t.stop.time = 80 ∧ t.stop.pinLow = true ∧
      t.pmu.mode = .hold ∧ t.fld .ENG_EVENT_STOP = 1 := ⟨_, rfl, by decide +kernel⟩

/-- R269: under 2 ns nothing is recognised. -/
theorem test_stop_pin_short : exec (.stopInLow 1) (up .run) = .next (up .run) := rfl

/-- R471: 64 bytes are 16 accesses, 65 end the request, and 2 bytes within a register are a part of it. -/
theorem test_requests : requestOf 0x8300 64 = .words 0x8300 16 ∧ requestOf 0x8300 65 = .bad 3 ∧ requestOf 0x8302 2 = .part 0x8300 2 ∧
    requestOf 0x8302 4 = .bad 1 := by decide

/-- Chapter 19, R472: a bus-time pair by its LO and HI words, and a place without a register. -/
theorem test_no_register : ((up .run).read32 false 0xE0000).1 = 0 := by decide +kernel

/-- R128: 2 ns a cycle at no rate correction. -/
theorem test_tick : (tick (up .run)).time.bus = (up .run).time.bus + 2 := by decide +kernel

/-- A block's step takes the front command and leaves the rest. -/
theorem test_step_front :
    ∃ t, step { up .run with pending := [.stopInLow 1, .holdoverTick] } = .next t ∧ t.pending = [.holdoverTick] := ⟨_, rfl, rfl⟩

/-- No row of the table spells a word. -/
theorem test_no_words : decodeTableWord 32 0x12345678 = none ∧ (up .run).withFetchWord 32 5 = up .run := ⟨rfl, rfl⟩

/-! ## Ill-formed operands: each check of `Instr.wf` refuses one, and the command then faults -/

/-- A setup of no request. -/
def noSetup : Setup := ⟨0xF00000000, 0⟩

theorem test_wf_commandTake : Instr.wf (.commandTake 1 .ok (List.replicate 63 0)) = false := by decide
theorem test_wf_descriptorArrival : Instr.wf (.descriptorArrival 1 0 .ok [1, 2, 3]) = false := by decide
theorem test_wf_getDescriptor : Instr.wf (.getDescriptor (.node ⟨0, []⟩) noSetup) = false := by decide
theorem test_wf_setAddress : Instr.wf (.setAddress (.node ⟨0, []⟩) noSetup) = false := by decide
theorem test_wf_setConfig : Instr.wf (.setConfig (.node ⟨0, []⟩) noSetup) = false := by decide
theorem test_wf_clearHalt : Instr.wf (.clearHalt (.node ⟨0, []⟩) noSetup) = false := by decide
theorem test_wf_setHalt : Instr.wf (.setHalt (.node ⟨0, []⟩) noSetup) = false := by decide
theorem test_wf_getStatus : Instr.wf (.getStatus (.node ⟨0, []⟩) noSetup) = false := by decide
theorem test_wf_setPathDelay : Instr.wf (.setPathDelay (.node ⟨0, []⟩) noSetup) = false := by decide
theorem test_wf_getPortStatus : Instr.wf (.getPortStatus (.node ⟨0, []⟩) noSetup) = false := by decide
theorem test_wf_getPortErrors : Instr.wf (.getPortErrors (.node ⟨0, []⟩) noSetup) = false := by decide
theorem test_wf_setPortFeature : Instr.wf (.setPortFeature (.node ⟨0, []⟩) noSetup) = false := by decide
theorem test_wf_clearPortFeature : Instr.wf (.clearPortFeature (.node ⟨0, []⟩) noSetup) = false := by decide
theorem test_wf_setHubTier : Instr.wf (.setHubTier (.node ⟨0, []⟩) noSetup) = false := by decide
theorem test_wf_getPortDelay : Instr.wf (.getPortDelay (.node ⟨0, []⟩) noSetup) = false := by decide
theorem test_wf_getGangInfo : Instr.wf (.getGangInfo (.dev .gb noSetup)) = false := by decide
theorem test_wf_setGang : Instr.wf (.setGang (.dev .gb noSetup [])) = false := by decide

theorem test_ill_formed_entry (s : State) : exec (.commandTake 1 .ok (List.replicate 63 0)) s = .fault .illFormed := rfl
theorem test_ill_formed_descriptor (s : State) : exec (.descriptorArrival 1 0 .ok [1, 2, 3]) s = .fault .illFormed := rfl
theorem test_ill_formed_setup (s : State) : exec (.setAddress (.node ⟨0, []⟩) noSetup) s = .fault .illFormed := by
  simp [exec, execSetAddress, guarded, noSetup, Instr.wf, Setup.isReq, Setup.kind, Setup.request]

/-- R52: an eye is measured at the controller's own receivers and judged at a hub's or a node's. -/
theorem test_wf_trainReceive : Instr.wf (.trainReceive (.up (.root 0)) [] (.judged true) 0) = false ∧
    Instr.wf (.trainReceive (.down (.node ⟨0, []⟩)) [] (.measured 20 20) 0) = false := by decide

/-- Chapter 5, a night in Dormant: 943,718,400 ticks are 28,800,000,000,000 ns, and U is 1,440,030,518 ns. -/
theorem test_dormant_night :
    let s : State := { up .dormant with time := { (up .dormant).time with quality := .locked, uncert := 0 } }
    (s.rebuild 0 943718400).time.bus = 28800000000000 ∧ (s.rebuild 0 943718400).time.uncert = 1440030518 * 10 ^ 9 ∧
      (s.rebuild 0 943718400).time.quality = .estimated ∧ (s.rebuild 0 943718400).fld .TAPU_EVENT_RECONSTRUCTED = 1 := by decide +kernel

/-- R34 and R36: a node reads what was put on its link, and with another course's seed it does not. -/
theorem test_scrambled : Wire.read (scrSeed 64) (onWire (scrSeed 64) 3 [5]) = [some 5] ∧ Wire.read (scrSeed 65) (onWire (scrSeed 64) 3 [5]) ≠ [some 5] := by
  decide +kernel

/-- R3: two words of 36 bits in 9 bytes, the odd one above. -/
theorem test_packed_format : packedBytes [0x900000ABC, 1] = [0xBC, 0x0A, 0, 0, 0x19, 0, 0, 0, 0] ∧
    packedWords [0xBC, 0x0A, 0, 0, 0x19, 0, 0, 0, 0] = [0x900000ABC, 1] := by decide +kernel

end Sys2Proof.Tests
end

section
/-!
PROOFS. Writes of a flow doorbell (R204, R469): what each state of the page does with the write, the rows of the table of R204 one by one, and
the descriptors that a doorbell makes visible.
-/

namespace Sys2Proof.Machine

/-! The page. -/

theorem exec_flowDoorbell (i : Fin 512) (v : Reg32) (s : State) : exec (.flowDoorbell i v) s = .next (s.flowDoorbell i.val v) := rfl

theorem State.flowDoorbell_free {s : State} {i : Nat} (v : Reg32) (h : s.pageState i = .free) :
    s.flowDoorbell i v = s.badAccess true (i * 0x1000 + 0x100) 4 := by simp [State.flowDoorbell, h]

theorem State.flowDoorbell_resetting {s : State} {i : Nat} (v : Reg32) (h : s.pageState i = .resetting) :
    s.flowDoorbell i v = s.dbErr i (Fld.INST_FLOW_DB_FLOW.get v) 2 := by simp [State.flowDoorbell, h]

/-- The page of an instance that works takes the write. -/
theorem State.flowDoorbell_taken {s : State} {i : Nat} (v : Reg32) (h : s.pageState i = .active ∨ s.pageState i = .frozen) :
    s.flowDoorbell i v = s.doorbell i v := by
  obtain h | h := h <;> simp [State.flowDoorbell, h]

/-! The rows of the table (R204). -/

theorem State.doorbell_no_flow {s : State} {i : Nat} {v : Reg32} (h : s.ctxOf i (Fld.INST_FLOW_DB_FLOW.get v) = none) :
    s.doorbell i v = s.dbErr i (Fld.INST_FLOW_DB_FLOW.get v) 2 := by simp [State.doorbell, h]

/-- On an open flow a and b alone choose the row. -/
theorem State.doorbell_flow {s : State} {i ctx : Nat} {v : Reg32} {f : Flow} (hctx : s.ctxOf i (Fld.INST_FLOW_DB_FLOW.get v) = some ctx)
    (hf : s.flow ctx = some f) {a b : Nat} (ha : a = (BitVec.ofNat 16 (Fld.INST_FLOW_DB_PROD.get v) - f.cons).toNat)
    (hb : b = (f.prod - f.cons).toNat) :
    s.doorbell i v =
      if a ≤ b then s
      else if 2 ^ f.ringLog < a then s.dbErr i (Fld.INST_FLOW_DB_FLOW.get v) 1
      else s.addVisible ctx (a - b) := by
  subst ha hb
  simp only [State.doorbell, hctx, hf, gt_iff_lt]

/-! The descriptors that become visible (R204, R222, R225). -/

/-- The `n` descriptors after the producer index of `f`, in index order; on a flow that is closing they are bound to its boundary course. -/
def State.newlyVisible (s : State) (f : Flow) (n : Nat) : List Transfer :=
  (List.range n).map fun k =>
    { Transfer.fresh (f.prod + BitVec.ofNat 16 k) (s.visCount + k) s.perturbed s.ptbSeq with
      course := if f.par.ty.scheduled then f.closedAt else none }

@[simp] theorem State.newlyVisible_length (s : State) (f : Flow) (n : Nat) : (s.newlyVisible f n).length = n := by
  simp [State.newlyVisible]

theorem State.newlyVisible_getElem (s : State) (f : Flow) (n k : Nat) (h : k < (s.newlyVisible f n).length) :
    (s.newlyVisible f n)[k].idx = f.prod + BitVec.ofNat 16 k ∧ (s.newlyVisible f n)[k].desc = none ∧
      (s.newlyVisible f n)[k].fin = none ∧ (s.newlyVisible f n)[k].vis = s.visCount + k := by
  simp [State.newlyVisible, Transfer.fresh]

/-- The state with the descriptors taken over, before those of a flow that is closing end. -/
def State.takeVisible (s : State) (ctx n : Nat) (new : List Transfer) : State :=
  ({ s with visCount := s.visCount + n } : State).modFlow ctx fun g =>
    { g with prod := g.prod + BitVec.ofNat 16 n, xfers := g.xfers ++ new }

theorem State.addVisible_flow {s : State} {ctx : Nat} {f : Flow} (hf : s.flow ctx = some f) (n : Nat) :
    s.addVisible ctx n =
      if f.closedAt = none then s.takeVisible ctx n (s.newlyVisible f n)
      else (s.takeVisible ctx n (s.newlyVisible f n)).finishAll ((s.newlyVisible f n).map fun x => (ctx, x.idx)) .cancelled := by
  cases hc : f.closedAt with
  | none => simp [State.addVisible, State.takeVisible, State.newlyVisible, hf, hc, Transfer.fresh]
  | some boundary => simp [State.addVisible, State.takeVisible, State.newlyVisible, hf, hc, Function.comp_def]

/-- The producer index moved on by a − b is PROD: both are taken from the same K, and b < a leaves no wrap between them. -/
theorem prod_add_sub_eq {p k v : BitVec 16} (h : (p - k).toNat < (v - k).toNat) :
    p + BitVec.ofNat 16 ((v - k).toNat - (p - k).toNat) = v := by bv_omega

/-- Settles O30: the page decides first, then the flow, then a and b choose the row of the table. -/
theorem flowDoorbellsFollowTheTable : Obligations.FlowDoorbellsFollowTheTable := by
  unfold Obligations.FlowDoorbellsFollowTheTable
  intro i v s
  simp only [exec_flowDoorbell]
  refine ⟨fun hp => ?free, fun hp => ?resetting, fun hp => ?taken⟩
  case free => rw [State.flowDoorbell_free v hp]
  case resetting => rw [State.flowDoorbell_resetting v hp]
  case taken =>
    rw [State.flowDoorbell_taken v hp]
    refine ⟨fun hctx => by rw [State.doorbell_no_flow hctx], fun ctx a b f hctx hf ha hb => ?_⟩
    rw [State.doorbell_flow hctx hf ha hb]
    refine ⟨fun hab => ?old, fun hover hab => ?overflow, fun hab hn => ?visible⟩
    case old => rw [if_pos hab]
    case overflow => rw [if_neg (Nat.not_le.mpr hab), if_pos hover]
    case visible =>
      rw [if_neg (Nat.not_le.mpr hab), if_neg (Nat.not_lt.mpr hn), State.addVisible_flow hf]
      refine ⟨s.newlyVisible f (a - b), s.takeVisible ctx (a - b) (s.newlyVisible f (a - b)), rfl, rfl, ?_,
        State.newlyVisible_length s f (a - b), State.newlyVisible_getElem s f (a - b)⟩
      subst ha hb
      exact prod_add_sub_eq hab

end Sys2Proof.Machine
end

section
/-!
PROOFS. The doorbell of a mailbox (O29): the page decides whether the write is taken, and a and b choose the row of R204's table with the
substitutions of R281.
-/

namespace Sys2Proof.Machine

/-! Mailbox doorbells (R229, R281, R469). -/

theorem exec_mailboxDoorbell (i : Fin 512) (v : Reg32) (s : State) : exec (.mailboxDoorbell i v) s = .next (s.mbDoorbell i.val v) := rfl

theorem State.mbDoorbell_free {s : State} {i : Nat} (v : Reg32) (h : s.pageState i = .free) :
    s.mbDoorbell i v = s.badAccess true (i * 0x1000 + 0x014) 4 := by simp only [State.mbDoorbell, h]

theorem State.mbDoorbell_resetting {s : State} {i : Nat} (v : Reg32) (h : s.pageState i = .resetting) :
    s.mbDoorbell i v = s := by simp only [State.mbDoorbell, h]

/-- The instance takes `prod` as the producer index of its mailbox, and its firmware tasks hear of it. -/
def State.takeProd (s : State) (i : Nat) (prod : BitVec 16) : State :=
  (s.modInst i fun x => { x with mb := { x.mb with prod := prod } }).bellTasks i

/-- In the page of an instance that works, ENABLE, then a and b alone choose the row. -/
theorem State.mbDoorbell_taken {s : State} {i a b : Nat} {v : Reg32} (h : s.pageState i = .active ∨ s.pageState i = .frozen)
    (ha : a = (BitVec.ofNat 16 (Fld.INST_MB_DB_PROD.get v) - (s.inst i).mb.oldest).toNat)
    (hb : b = ((s.inst i).mb.prod - (s.inst i).mb.oldest).toNat) :
    s.mbDoorbell i v =
      if s.flag .INST_MB_CFG_ENABLE 0 i = false then s.setBit .INST_MB_STATUS_DB_ERR 0 i
      else if a ≤ b then s
      else if 2 ^ s.fld .INST_MB_CFG_CMD_SIZE 0 i < a then s.setBit .INST_MB_STATUS_DB_ERR 0 i
      else s.takeProd i (BitVec.ofNat 16 (Fld.INST_MB_DB_PROD.get v)) := by
  subst ha hb
  obtain h | h := h <;> simp only [State.mbDoorbell, State.takeProd, h, gt_iff_lt, Bool.not_eq_true']

/-- Settles O29: the page decides first, then ENABLE, then a and b choose the row of the table. -/
theorem mailboxDoorbellsFollowTheTable : Obligations.MailboxDoorbellsFollowTheTable := by
  unfold Obligations.MailboxDoorbellsFollowTheTable
  intro i v s
  simp only [exec_mailboxDoorbell]
  refine ⟨fun hp => ?free, fun hp => ?resetting, fun a b hp ha hb => ?taken⟩
  case free => rw [State.mbDoorbell_free v hp]
  case resetting => rw [State.mbDoorbell_resetting v hp]
  case taken =>
    rw [State.mbDoorbell_taken hp ha hb]
    rfl

end Sys2Proof.Machine
end

section
/-!
PROOFS. The rollback level and KEY0_REVOKED (R440): every step keeps what is blown, and the end of a success window advances both.
-/

namespace Sys2Proof.Machine

/-! The level that the OTP holds (R440, R442). -/

/-- The bits of an OTP word that were blown when the part was made. -/
def otpOnes (n : Fin 64) : Nat := ((List.range 32).filter fun b => (Config.otpWord n).getLsbD b).length

theorem otpOnes_le (n : Fin 64) : otpOnes n ≤ 32 := by
  have hle : otpOnes n ≤ (List.range 32).length := List.length_filter_le _ _
  rwa [List.length_range] at hle

/-- The level with which the part was made: the thermometer stands in words 18 and 19 (R442). -/
def otpThermometer : Nat := otpOnes 18 + otpOnes 19

theorem State.rollbackLevel_eq_max (s : State) : s.rollbackLevel = max otpThermometer s.boot.rollback.toNat := rfl

theorem otpThermometer_le : otpThermometer ≤ 64 := Nat.add_le_add (otpOnes_le 18) (otpOnes_le 19)

/-- The level fits the 7 bits that the boot state has for it. -/
theorem State.rollbackLevel_lt (s : State) : s.rollbackLevel < 2 ^ 7 :=
  Nat.max_lt.mpr ⟨Nat.lt_of_le_of_lt otpThermometer_le (by decide), s.boot.rollback.isLt⟩

/-- A level blown over the one that stands is the level that the OTP then holds. -/
theorem State.rollbackLevel_of_blown {s t : State} {r : Nat} (hr : r ≤ 64)
    (ht : t.boot.rollback = BitVec.ofNat 7 (max s.rollbackLevel r)) : t.rollbackLevel = max s.rollbackLevel r := by
  have hfit : max s.rollbackLevel r < 2 ^ 7 := Nat.max_lt.mpr ⟨s.rollbackLevel_lt, by omega⟩
  have hbase : otpThermometer ≤ max s.rollbackLevel r := Nat.le_trans (Nat.le_max_left _ _) (Nat.le_max_left _ _)
  rw [State.rollbackLevel_eq_max, ht, BitVec.toNat_ofNat, Nat.mod_eq_of_lt hfit, Nat.max_eq_right hbase]

/-! The success window (R434, R440). -/

/-- The end of a success window, with no start in progress and `x` the slot that runs, changes the boot state only; a fallback that becomes
the boot record (R435) leaves these fields alone. -/
theorem exec_successWindowEnd_of_window {s : State} {x : Slot} (hw : s.boot.window = true) (hs : s.boot.start = none)
    (hx : s.boot.slot s.boot.running = x) :
    ∃ b : Boot, exec .successWindowEnd s = .next { s with boot := b } ∧
      b.rollback = BitVec.ofNat 7 (max s.rollbackLevel (min 64 x.rollback.toNat)) ∧
      b.key0Revoked = (s.boot.key0Revoked || (x.key == 1 && decide (1 ≤ x.rollback.toNat))) ∧
      b.window = false ∧ b.healthy = true := by
  subst hx
  have hopen : (s.boot.window && s.boot.start.isNone) = true := by rw [hw, hs]; rfl
  have hexec : exec .successWindowEnd s = execSuccessWindowEnd s := rfl
  rw [hexec, execSuccessWindowEnd, if_pos hopen]
  refine ⟨_, rfl, ?_⟩
  split <;> exact ⟨rfl, rfl, rfl, rfl⟩

/-- Settles O8: every step keeps what is blown (`step_follows`), and the level blown at the end of a window fits its 7 bits. -/
theorem rollbackLevelOnlyAdvances : Obligations.RollbackLevelOnlyAdvances := by
  unfold Obligations.RollbackLevelOnlyAdvances
  refine ⟨fun s t h => ?steps, fun s hw hs hr => ?windowEnd⟩
  case steps =>
    obtain ⟨kept, -⟩ := step_follows h
    exact ⟨kept.rollback, kept.revoked⟩
  case windowEnd =>
    obtain ⟨b, hexec, hlevel, hkey, hwindow, hhealthy⟩ := exec_successWindowEnd_of_window hw hs rfl
    have hr64 : (s.boot.slot s.boot.running).rollback.toNat ≤ 64 := BitVec.le_def.mp hr
    rw [Nat.min_eq_right hr64] at hlevel
    exact ⟨_, hexec, State.rollbackLevel_of_blown hr64 hlevel, hkey, hwindow, hhealthy, rfl⟩

end Sys2Proof.Machine
end

section
/-!
PROOFS. Requests to the registers of BAR0 and BAR2 (O35): the four kinds of request that R471 tells apart, what a read and a write of each kind
do (R471, R472), and an offset that no register occupies (R473).
-/

namespace Sys2Proof.Machine

/-! The kinds of request (R471). -/

/-- A request that is whole 32-bit accesses: 4 or 8 bytes aligned to their size, or 12 to 64 bytes in whole words. -/
def WholeWords (a n : Nat) : Prop :=
  (n = 4 ∧ a % 4 = 0) ∨ (n = 8 ∧ a % 8 = 0) ∨ (12 ≤ n ∧ n ≤ 64 ∧ n % 4 = 0 ∧ a % 4 = 0)

theorem requestOf_long {a n : Nat} (h : 64 < n) : requestOf a n = .bad 3 := if_pos h

theorem requestOf_whole {a n : Nat} (h : WholeWords a n) : requestOf a n = .words a (n / 4) := by
  unfold WholeWords at h
  rw [requestOf, if_neg (by omega), if_pos (by omega)]

/-- A request that is not of whole words falls within one register or is turned away. -/
theorem requestOf_narrow {a n : Nat} (h : ¬ WholeWords a n) (h0 : 1 ≤ n) (h64 : n ≤ 64) :
    requestOf a n = if a % 4 + n ≤ 4 then .part (a - a % 4) (a % 4) else .bad 1 := by
  unfold WholeWords at h
  rw [requestOf, if_neg (by omega), if_neg (by omega)]
  simp only [show 0 < n from h0, true_and]

theorem requestOf_part {a n : Nat} (h : ¬ WholeWords a n) (h0 : 1 ≤ n) (h4 : a % 4 + n ≤ 4) :
    requestOf a n = .part (a - a % 4) (a % 4) := by
  rw [requestOf_narrow h h0 (by omega), if_pos h4]

theorem requestOf_misaligned {a n : Nat} (h : ¬ WholeWords a n) (h64 : n ≤ 64) (h4 : 4 < a % 4 + n) : requestOf a n = .bad 1 := by
  rw [requestOf_narrow h (by omega) h64, if_neg (by omega)]

/-! Byte enables: a byte whose enable is clear is `none`. -/

theorem all_isSome_iff {α : Type} (data : List (Option α)) : data.all Option.isSome = true ↔ none ∉ data := by
  induction data with
  | nil => exact iff_of_true rfl List.not_mem_nil
  | cons d ds ih =>
    rw [List.all_cons, Bool.and_eq_true, ih, List.mem_cons, not_or]
    exact and_congr_left fun _ => Option.isSome_iff_ne_none.trans ne_comm

theorem all_isSome_map_some {α : Type} (bs : List α) : (bs.map some).all Option.isSome = true :=
  (all_isSome_iff _).mpr (by simp)

theorem filterMap_id_map_some {α : Type} (bs : List α) : (bs.map some).filterMap id = bs := by
  rw [List.filterMap_map]
  exact List.filterMap_some

/-! Requests that R471 speaks of: in their BAR, outside the MSI-X table and PBA. -/

theorem exec_registerRead (bar2 : Bool) (addr : BitVec 25) (n : Nat) (s : State) :
    exec (.registerRead bar2 addr n) s = execRegisterRead bar2 addr n s := rfl

theorem exec_registerWrite (bar2 : Bool) (addr : BitVec 25) (data : List (Option Byte)) (run : StartEnv) (s : State) :
    exec (.registerWrite bar2 addr data run) s = execRegisterWrite bar2 addr data run s := rfl

section
variable {bar2 : Bool} {addr : BitVec 25} {n : Nat} {data : List (Option Byte)} {run : StartEnv} {s : State}
  (hin : inBar bar2 addr.toNat = true) (hmsix : msixOfs bar2 addr.toNat = false)
include hin

theorem exec_registerRead_whole (h : WholeWords addr.toNat n) :
    exec (.registerRead bar2 addr n) s =
      .next ((s.readWords bar2 addr.toNat (n / 4)).2.emit (.reply (s.readWords bar2 addr.toNat (n / 4)).1)) := by
  simp only [exec_registerRead, execRegisterRead, hin, requestOf_whole h, if_true]

theorem exec_registerRead_long (h : 64 < n) :
    exec (.registerRead bar2 addr n) s = .next ((s.badAccess bar2 addr.toNat 3).emit .unsupported) := by
  simp only [exec_registerRead, execRegisterRead, hin, requestOf_long h, if_true]

theorem exec_registerWrite_long (h : 64 < data.length) :
    exec (.registerWrite bar2 addr data run) s = .next (s.badAccess bar2 addr.toNat 3) := by
  simp only [exec_registerWrite, execRegisterWrite, hin, requestOf_long h, if_true]

theorem exec_registerWrite_whole {bs : List Byte} (h : WholeWords addr.toNat bs.length) :
    exec (.registerWrite bar2 addr (bs.map some) run) s = .next (s.writeWords bar2 addr.toNat bs run (bs.length / 4)) := by
  simp only [exec_registerWrite, execRegisterWrite, hin, List.length_map, requestOf_whole h, all_isSome_map_some, filterMap_id_map_some,
    if_true]

include hmsix

theorem exec_registerRead_part (h : ¬ WholeWords addr.toNat n) (h0 : 1 ≤ n) (h4 : addr.toNat % 4 + n ≤ 4) :
    exec (.registerRead bar2 addr n) s =
      .next ((s.readWords bar2 (addr.toNat - addr.toNat % 4) 1).2.emit
        (.reply (((s.readWords bar2 (addr.toNat - addr.toNat % 4) 1).1.drop (addr.toNat % 4)).take n))) := by
  simp only [exec_registerRead, execRegisterRead, hin, hmsix, requestOf_part h h0 h4, if_true, Bool.false_eq_true, if_false]

theorem exec_registerRead_misaligned (h : ¬ WholeWords addr.toNat n) (h64 : n ≤ 64) (h4 : 4 < addr.toNat % 4 + n) :
    exec (.registerRead bar2 addr n) s = .next ((s.badAccess bar2 addr.toNat 1).emit (.reply (List.replicate n 0))) := by
  simp only [exec_registerRead, execRegisterRead, hin, hmsix, requestOf_misaligned h h64 h4, if_true, Bool.false_eq_true, if_false]

theorem exec_registerWrite_whole_partialEnables (h : WholeWords addr.toNat data.length) (hnone : none ∈ data) :
    exec (.registerWrite bar2 addr data run) s = .next (s.badAccess bar2 addr.toNat 2) := by
  simp only [exec_registerWrite, execRegisterWrite, hin, hmsix, requestOf_whole h, all_isSome_iff, hnone, not_true_eq_false,
    if_true, Bool.false_eq_true, if_false]

/-- Whether it falls within one register or not, a write that is not of whole words is discarded. -/
theorem exec_registerWrite_narrow (h : ¬ WholeWords addr.toNat data.length) (h0 : 1 ≤ data.length) (h64 : data.length ≤ 64) :
    exec (.registerWrite bar2 addr data run) s = .next (s.badAccess bar2 addr.toNat (if none ∈ data then 2 else 1)) := by
  have hreason : (if data.all Option.isSome = true then 1 else 2) = if none ∈ data then 2 else 1 := by
    simp only [all_isSome_iff, ite_not]
  by_cases h4 : addr.toNat % 4 + data.length ≤ 4
  · simp only [exec_registerWrite, execRegisterWrite, hin, hmsix, requestOf_part h h0 h4, hreason, if_true, Bool.false_eq_true, if_false]
  · simp only [exec_registerWrite, execRegisterWrite, hin, hmsix, requestOf_misaligned h h64 (Nat.not_le.mp h4), hreason, if_true,
      Bool.false_eq_true, if_false]

end

/-! Offsets of BAR0 that no register occupies (R473). -/

section
variable {a : Nat} {s : State} (hmsix : msixOfs false a = false) (hreg : findReg .bar0 a = none)
include hmsix hreg

theorem State.read32_noRegister : s.read32 false a = (0, s) := by
  simp only [State.read32, hmsix, hreg, Bool.false_eq_true, if_false]

theorem State.write32_noRegister (v : Reg32) (run : StartEnv) : s.write32 false a v run = s := by
  simp only [State.write32, hmsix, hreg, Bool.false_eq_true, if_false]

theorem State.readWords_one_noRegister : s.readWords false a 1 = ([0, 0, 0, 0], s) := by
  simp only [State.readWords, State.read32_noRegister hmsix hreg]
  rfl

theorem State.writeWords_one_noRegister (data : List Byte) (run : StartEnv) : s.writeWords false a data run 1 = s := by
  simp only [State.writeWords, State.write32_noRegister hmsix hreg]

end

/-- Settles O35: the address and the length choose the kind of request, and each kind has its read and its write. -/
theorem requestsBecomeRegisterAccesses : Obligations.RequestsBecomeRegisterAccesses := by
  unfold Obligations.RequestsBecomeRegisterAccesses
  intro bar2 addr s hbar hmsix
  have hin : inBar bar2 addr.toNat = true := decide_eq_true hbar
  refine ⟨fun bytes data run whole h0 hlen hwhole => ?requests, fun hb ha hreg => ?noRegister⟩
  case requests =>
    subst hlen
    obtain rfl : whole = WholeWords addr.toNat data.length := hwhole
    refine ⟨fun h => ⟨exec_registerRead_whole hin h, fun bs hbs => ?_, exec_registerWrite_whole_partialEnables hin hmsix h⟩,
      fun h h64 => ⟨exec_registerWrite_narrow hin hmsix h h0 h64, exec_registerRead_part hin hmsix h h0,
        exec_registerRead_misaligned hin hmsix h h64⟩,
      fun h => ⟨exec_registerRead_long hin h, exec_registerWrite_long hin h⟩⟩
    subst hbs
    rw [List.length_map] at h ⊢
    exact exec_registerWrite_whole hin h
  case noRegister =>
    subst hb
    have hfour : WholeWords addr.toNat 4 := .inl ⟨rfl, ha⟩
    refine ⟨?read, fun data run hlen => ?write⟩
    case read => rw [exec_registerRead_whole hin hfour, State.readWords_one_noRegister hmsix hreg]
    case write => rw [exec_registerWrite_whole hin (hlen ▸ hfour), hlen, State.writeWords_one_noRegister hmsix hreg]

end Sys2Proof.Machine
end

section
/-!
PROOFS. The machine as a whole: what a step carries out (O1, O2), the state after reset (O3, O4), and what every step keeps (O5, O6, O7).
-/

namespace Sys2Proof.Machine

/-! One cycle of the core clock (R128, R142, R396). -/

theorem tick_timeOn {s : State} (h : s.pmu.doms[10] = .on) : tick s = { s with time := s.time.advance } := by simp [tick, h]

theorem tick_timeOff {s : State} (h : s.pmu.doms[10] ≠ .on) :
    tick s = { s with pmu := { s.pmu with window := s.pmu.window - 1 } } := by simp [tick, h]

/-- Bus time with its fraction of 2^-32 ns, as one number of 96 bits (R128). -/
def TimeState.fine (t : TimeState) : Nat := t.bus.toNat * 2 ^ 32 + t.frac.toNat

/-- What one CCLK adds to it. -/
def TimeState.increment (t : TimeState) : Nat := ((2 * (1000000000 + t.rate) * 4294967296) / 1000000000).toNat

theorem TimeState.advance_fine (t : TimeState) : t.advance.fine % 2 ^ 96 = (t.fine + t.increment) % 2 ^ 96 := by
  have hbus : t.advance.bus = t.bus + BitVec.ofNat 64 ((t.frac.toNat + t.increment) / 4294967296) := rfl
  have hfrac : t.advance.frac = BitVec.ofNat 32 ((t.frac.toNat + t.increment) % 4294967296) := rfl
  simp only [TimeState.fine, hbus, hfrac, BitVec.toNat_add, BitVec.toNat_ofNat]
  omega

/-- A rate offset above -1 keeps the increment a natural number. -/
theorem TimeState.increment_eq {t : TimeState} (h : -1000000000 ≤ t.rate) :
    t.increment = (2 * (1000000000 + t.rate).toNat * 2 ^ 32) / 1000000000 := by
  obtain ⟨n, hn⟩ := Int.eq_ofNat_of_zero_le (show 0 ≤ 1000000000 + t.rate by omega)
  simp only [TimeState.increment, hn, Int.toNat_natCast]
  omega

theorem State.reset_reg (r : Reg) (n k : Nat) : State.reset.reg r k n = r.reset := rfl

/-- Every instance but the manager is FREE after reset (R317, R322). -/
theorem State.reset_inst {i : Nat} (h : i ≠ 0) : State.reset.inst i = Instance.init := by
  simp [State.inst, State.reset, kget, h]

/-- Only the queue tells apart a state and the one that a step hands to its front command. -/
theorem State.Sound.withPending {s : State} (h : s.Sound) (q : List Instr) : ({ s with pending := q } : State).Sound :=
  ⟨h.regs, h.flows, h.insts, h.drive⟩

theorem step_keeps_sound {s t : State} (hs : s.Sound) (h : step s = .next t) : t.Sound :=
  (step_follows h).sound (hs.withPending _)

theorem State.Sound.latched_not_run {s : State} (h : s.Sound) : s.stop.latched = true → s.pmu.mode ≠ .run := h.drive.run

/-- Settles O1. -/
theorem stepRunsTheFrontCommand : Obligations.StepRunsTheFrontCommand := fun _ _ _ => step_front

/-- Settles O2: an idle step is a tick, and whole nanoseconds carried from the fraction keep bus time with its fraction exact. -/
theorem idleStepAdvancesBusTimeOnly : Obligations.IdleStepAdvancesBusTimeOnly := by
  unfold Obligations.IdleStepAdvancesBusTimeOnly
  intro s hidle
  rw [step_idle hidle]
  refine ⟨fun hoff => by rw [tick_timeOff hoff], fun hon hrate => ?_⟩
  rw [tick_timeOn hon]
  refine ⟨s.time.advance, rfl, rfl, ?_⟩
  have hfine := s.time.advance_fine
  rwa [TimeState.increment_eq hrate] at hfine

/-- Settles O3: the tables are at their initial values, and no register is stored. -/
theorem resetState : Obligations.ResetState := by
  unfold Obligations.ResetState
  refine ⟨rfl, by decide, by decide, rfl, rfl, rfl, rfl, rfl, fun i hi => ?_, rfl, rfl, by decide, rfl, rfl, State.reset_reg⟩
  rw [State.reset_inst hi]
  rfl

/-- Settles O4. -/
theorem resetStateIsSound : Obligations.ResetStateIsSound where
  regs := rfl
  flows := rfl
  insts := rfl
  drive := ⟨nofun, nofun, nofun⟩

/-- Settles O5: what the front command does follows the state it is given. -/
theorem everyStepKeepsTheStateSound : Obligations.EveryStepKeepsTheStateSound := fun _ _ => step_keeps_sound

/-- Settles O6. -/
theorem commandsKeepTheQueueAndTheLog : Obligations.CommandsKeepTheQueueAndTheLog := fun _ _ _ h =>
  have kept := (exec_follows h).kept
  ⟨kept.pending, kept.out⟩

/-- Settles O7: soundness says it of the state, and the step keeps the state sound. -/
theorem latchedStopExcludesRun : Obligations.LatchedStopExcludesRun := fun _ hs =>
  ⟨hs.latched_not_run, fun _ h => (step_keeps_sound hs h).latched_not_run⟩

end Sys2Proof.Machine
end

section
/-!
PROOFS. Codes on the links: the check of a block (O9).
-/

namespace Sys2Proof.Machine

/-! The check of a block is linear (R30). -/

theorem xorEvery_xor (p q : Word) (n : Nat) : xorEvery (p ^^^ q) n = (xorEvery p n ^^ xorEvery q n) := by
  induction n using xorEvery.induct with
  | case1 => simp [xorEvery]
  | case2 => simp [xorEvery]
  | case3 n ih => simp [xorEvery, ih]; grind

theorem checkOf_xor (p q : Word) : checkOf (p ^^^ q) = checkOf p ^^^ checkOf q := by
  simp only [checkOf, xorEvery_xor]
  generalize xorEvery p 35 = a, xorEvery p 34 = b, xorEvery q 35 = c, xorEvery q 34 = d
  revert a b c d
  decide

theorem check_mkBlock (h : BitVec 2) (p : Word) : (mkBlock h p).extractLsb' 0 2 = checkOf p := by
  simp only [mkBlock]
  ext i hi
  simp only [BitVec.getElem_extractLsb', BitVec.getLsbD_append]
  rw [if_pos (by omega), Nat.zero_add]
  exact BitVec.getLsbD_eq_getElem hi

theorem checkOk_iff (b : Block) : Block.checkOk b = true ↔ b.extractLsb' 0 2 = checkOf (Block.payload b) := beq_iff_eq

/-- Over an intact block an error pattern passes the check only if it would by itself. -/
theorem checkOk_xor {b : Block} (hb : Block.checkOk b = true) (e : Block) : Block.checkOk (b ^^^ e) = Block.checkOk e := by
  rw [checkOk_iff] at hb
  rw [Bool.eq_iff_iff, checkOk_iff, checkOk_iff]
  simp only [Block.payload, BitVec.extractLsb'_xor, checkOf_xor] at hb ⊢
  rw [hb, BitVec.xor_right_inj]

theorem checkOk_mkBlock (h : BitVec 2) (p : Word) : Block.checkOk (mkBlock h p) = true := by
  rw [checkOk_iff, check_mkBlock, payload_mkBlock]

/-- A pattern of one wrong bit, in payload or check, does not pass the check. -/
theorem checkOk_oneBit : ∀ k : Fin 38, Block.checkOk (BitVec.ofNat 40 (2 ^ k.val)) = false := by decide

/-- Settles O9: the check is linear, so it fails wherever it fails for the wrong bit alone. -/
theorem blocksCarryTheirCheck : Obligations.BlocksCarryTheirCheck := by
  unfold Obligations.BlocksCarryTheirCheck
  intro h p
  have hok := checkOk_mkBlock h p
  exact ⟨sync_mkBlock h p, payload_mkBlock h p, hok, fun k => by rw [checkOk_xor hok, checkOk_oneBit]⟩

end Sys2Proof.Machine
end

section
/-!
PROOFS. Packets and handshakes on the links (O10): the CRCs fit their fields and do not depend on them, the fields of a built word read back,
and a receiver of intact blocks reads what was built.
-/

namespace Sys2Proof.Machine

/-! CRCs (R71). -/

theorem crcBit_lt {width poly : Nat} (hp : poly < 2 ^ width) (reg : Nat) (b : Bool) : crcBit width poly reg b < 2 ^ width := by
  have hr : (reg <<< 1) % 2 ^ width < 2 ^ width := Nat.mod_lt _ (Nat.two_pow_pos width)
  simp only [crcBit]
  split
  · exact Nat.xor_lt_two_pow hr hp
  · exact hr

theorem crcTop_lt {width poly v : Nat} (hp : poly < 2 ^ width) (w n reg : Nat) (hreg : reg < 2 ^ width) :
    crcTop width poly v w n reg < 2 ^ width := by
  induction n generalizing w reg with
  | zero => exact hreg
  | succ n ih => exact ih _ _ (crcBit_lt hp _ _)

/-- The top `n` of `w` bits alone enter. -/
theorem crcTop_congr {width poly u v : Nat} (w n reg : Nat) (hn : n ≤ w) (h : u / 2 ^ (w - n) = v / 2 ^ (w - n)) :
    crcTop width poly u w n reg = crcTop width poly v w n reg := by
  induction n generalizing w reg with
  | zero => rfl
  | succ n ih =>
    have hbit : u.testBit (w - 1) = v.testBit (w - 1) := by
      have key := congrArg (·.testBit n) h
      simpa only [Nat.testBit_div_two_pow, show n + (w - (n + 1)) = w - 1 by omega] using key
    simp only [crcTop, hbit]
    exact ih _ _ (by omega) (by rwa [show w - 1 - n = w - (n + 1) by omega])

theorem crcWords_lt {width poly : Nat} (hp : poly < 2 ^ width) (ws : List Word) (reg : Nat) (hreg : reg < 2 ^ width) :
    crcWords width poly ws reg < 2 ^ width := by
  induction ws generalizing reg with
  | nil => exact hreg
  | cons w ws ih => exact ih _ (crcTop_lt hp _ _ _ hreg)

theorem crc8_lt (h0 h1 : Word) : crc8 h0 h1 < 2 ^ 8 := crcTop_lt (by decide) _ _ _ (crcWords_lt (by decide) _ _ (by decide))

theorem crc7_lt (w : Word) : crc7 w < 2 ^ 7 := crcTop_lt (by decide) _ _ _ (by decide)

theorem crc32_lt (ws : List Word) (t : Word) : crc32 ws t < 2 ^ 32 :=
  Nat.xor_lt_two_pow (crcTop_lt (by decide) _ _ _ (crcWords_lt (by decide) _ _ (by decide))) (by decide)

theorem crc8_congr {h0 u v : Word} (h : u.toNat / 2 ^ 8 = v.toNat / 2 ^ 8) : crc8 h0 u = crc8 h0 v := crcTop_congr _ _ _ (by decide) h

theorem crc7_congr {u v : Word} (h : u.toNat / 2 ^ 7 = v.toNat / 2 ^ 7) : crc7 u = crc7 v := crcTop_congr _ _ _ (by decide) h

theorem crc32_congr {ws : List Word} {u v : Word} (h : u.toNat / 2 ^ 32 = v.toNat / 2 ^ 32) : crc32 ws u = crc32 ws v :=
  congrArg (· ^^^ 0xFFFFFFFF) (crcTop_congr _ _ _ (by decide) h)

/-! A word with its CRC in the bits that were left free for it. -/

/-- A word whose low `k` bits are free, with a CRC of `k` bits put in. -/
theorem toNat_or_crc {k a c : Nat} (ha : 2 ^ k * a < 2 ^ 36) (hk : k ≤ 36) (hc : c < 2 ^ k) :
    (BitVec.ofNat 36 (2 ^ k * a) ||| BitVec.ofNat 36 c : Word).toNat = 2 ^ k * a + c := by
  have hc36 : c < 2 ^ 36 := Nat.lt_of_lt_of_le hc (Nat.pow_le_pow_right (by decide) hk)
  rw [BitVec.toNat_or, BitVec.toNat_ofNat, BitVec.toNat_ofNat, Nat.mod_eq_of_lt ha, Nat.mod_eq_of_lt hc36, Nat.two_pow_add_eq_or_of_lt hc]

theorem wbits_eq (w : Word) (hi lo : Nat) : wbits w hi lo = w.toNat / 2 ^ lo % 2 ^ (hi + 1 - lo) := by
  rw [wbits, bitsOf, Nat.shiftRight_eq_div_pow]

theorem getLsbD_eq_decide (w : Word) (i : Nat) : w.getLsbD i = decide (w.toNat / 2 ^ i % 2 = 1) := by
  rw [BitVec.getLsbD, Nat.testBit_eq_decide_div_mod_eq]

/-! Headers (R63). -/

section
variable {h : Header} (hty : h.ty < 16) (hlen : h.len < 128)

include hty in
theorem Header.h0_toNat :
    h.h0.toNat = h.ty * 2 ^ 32 + h.route.toNat * 2 ^ 16 + h.addr.toNat * 2 ^ 4 + h.hold.toNat * 8 + h.noack.toNat * 4 := by
  have hhold := h.hold.toNat_le
  have hnoack := h.noack.toNat_le
  have hroute := h.route.isLt
  have haddr := h.addr.isLt
  rw [Header.h0, BitVec.toNat_ofNat]
  omega

/-- H1 over its CRC-8. -/
def Header.fields1 (h : Header) : Nat := h.ep.toNat * 2 ^ 24 + h.seq.toNat * 2 ^ 19 + h.len % 128 * 2 ^ 12 + h.rel.toNat * 2 ^ 10 + h.tag.toNat

theorem Header.fields1_lt (h : Header) : 2 ^ 8 * h.fields1 < 2 ^ 36 := by
  have hep := h.ep.isLt
  have hseq := h.seq.isLt
  have hrel := h.rel.isLt
  have htag := h.tag.isLt
  unfold Header.fields1
  omega

theorem Header.h1_eq (h : Header) :
    h.h1 = BitVec.ofNat 36 (2 ^ 8 * h.fields1) ||| BitVec.ofNat 36 (crc8 h.h0 (BitVec.ofNat 36 (2 ^ 8 * h.fields1))) := by
  have hw : h.ep.toNat * 2 ^ 32 + h.seq.toNat * 2 ^ 27 + h.len % 128 * 2 ^ 20 + h.rel.toNat * 2 ^ 18 + h.tag.toNat * 2 ^ 8 =
      2 ^ 8 * h.fields1 := by unfold Header.fields1; omega
  rw [Header.h1, hw]

theorem Header.h1_toNat (h : Header) : h.h1.toNat = 2 ^ 8 * h.fields1 + crc8 h.h0 (BitVec.ofNat 36 (2 ^ 8 * h.fields1)) := by
  rw [Header.h1_eq, toNat_or_crc h.fields1_lt (by decide) (crc8_lt _ _)]

/-- The CRC-8 of a header holds as it is built. -/
theorem Header.crc8Ok_built (h : Header) : crc8Ok h.h0 h.h1 = true := by
  have hfit := h.fields1_lt
  have hc := crc8_lt h.h0 (BitVec.ofNat 36 (2 ^ 8 * h.fields1))
  have hcrc : crc8 h.h0 h.h1 = crc8 h.h0 (BitVec.ofNat 36 (2 ^ 8 * h.fields1)) :=
    crc8_congr (by rw [Header.h1_toNat, BitVec.toNat_ofNat]; omega)
  rw [crc8Ok, beq_iff_eq, hcrc, wbits_eq, Header.h1_toNat]
  omega

include hty in
theorem Header.type_built : wbits h.h0 35 32 = h.ty := by
  have hhold := h.hold.toNat_le
  have hnoack := h.noack.toNat_le
  have hroute := h.route.isLt
  have haddr := h.addr.isLt
  rw [wbits_eq, Header.h0_toNat hty]
  omega

include hty hlen in
theorem Header.headerOf_built : headerOf h.h0 h.h1 = h := by
  have hhold := h.hold.toNat_le
  have hnoack := h.noack.toNat_le
  have hroute := h.route.isLt
  have haddr := h.addr.isLt
  have hep := h.ep.isLt
  have hseq := h.seq.isLt
  have hrel := h.rel.isLt
  have htag := h.tag.isLt
  have hc := crc8_lt h.h0 (BitVec.ofNat 36 (2 ^ 8 * h.fields1))
  simp only [headerOf, Header.type_built hty]
  obtain ⟨ty, route, addr, hold, noack, ep, seq, len, rel, tag⟩ := h
  simp only [getLsbD_eq_decide, wbits_eq, Header.h0_toNat hty, Header.h1_toNat] at *
  generalize crc8 _ _ = c at hc ⊢
  simp only [Header.fields1, Header.mk.injEq, true_and]
  refine ⟨?route, ?addr, ?hold, ?noack, ?ep, ?seq, ?len, ?rel, ?tag⟩
  case hold =>
    cases hold <;> cases noack <;> simp only [Bool.toNat_true, Bool.toNat_false, decide_eq_true_eq, decide_eq_false_iff_not] <;> omega
  case noack =>
    cases hold <;> cases noack <;> simp only [Bool.toNat_true, Bool.toNat_false, decide_eq_true_eq, decide_eq_false_iff_not] <;> omega
  case len => omega
  all_goals
    apply BitVec.eq_of_toNat_eq
    rw [BitVec.toNat_ofNat]
    omega

/-! Trailers (R69). -/

/-- A trailer's bits over its CRC-32. -/
def trailerFlags (last abort : Bool) : Nat := last.toNat * 8 + abort.toNat * 4

theorem trailerFlags_lt (last abort : Bool) : 2 ^ 32 * trailerFlags last abort < 2 ^ 36 := by
  have hlast := last.toNat_le
  have habort := abort.toNat_le
  unfold trailerFlags
  omega

theorem mkTrailer_eq (h : Header) (payload : List Word) (last abort : Bool) :
    mkTrailer h payload last abort = BitVec.ofNat 36 (2 ^ 32 * trailerFlags last abort) |||
      BitVec.ofNat 36 (crc32 ([h.h0, h.h1] ++ payload) (BitVec.ofNat 36 (2 ^ 32 * trailerFlags last abort))) := by
  have hw : last.toNat * 2 ^ 35 + abort.toNat * 2 ^ 34 = 2 ^ 32 * trailerFlags last abort := by unfold trailerFlags; omega
  rw [mkTrailer, hw]

theorem mkTrailer_toNat (h : Header) (payload : List Word) (last abort : Bool) :
    (mkTrailer h payload last abort).toNat = 2 ^ 32 * trailerFlags last abort +
      crc32 ([h.h0, h.h1] ++ payload) (BitVec.ofNat 36 (2 ^ 32 * trailerFlags last abort)) := by
  rw [mkTrailer_eq, toNat_or_crc (trailerFlags_lt _ _) (by decide) (crc32_lt _ _)]

theorem crc32_mkTrailer (h : Header) (payload : List Word) (last abort : Bool) :
    wbits (mkTrailer h payload last abort) 31 0 = crc32 ([h.h0, h.h1] ++ payload) (mkTrailer h payload last abort) := by
  have hfit := trailerFlags_lt last abort
  have hc := crc32_lt ([h.h0, h.h1] ++ payload) (BitVec.ofNat 36 (2 ^ 32 * trailerFlags last abort))
  have hcrc : crc32 ([h.h0, h.h1] ++ payload) (mkTrailer h payload last abort) =
      crc32 ([h.h0, h.h1] ++ payload) (BitVec.ofNat 36 (2 ^ 32 * trailerFlags last abort)) :=
    crc32_congr (by rw [mkTrailer_toNat, BitVec.toNat_ofNat]; omega)
  rw [hcrc, wbits_eq, mkTrailer_toNat]
  omega

/-- The bits of a trailer over its CRC-32 are LAST and ABORT. -/
theorem mkTrailer_flags (h : Header) (payload : List Word) (last abort : Bool) :
    (mkTrailer h payload last abort).toNat / 2 ^ 32 = trailerFlags last abort := by
  have hc := crc32_lt ([h.h0, h.h1] ++ payload) (BitVec.ofNat 36 (2 ^ 32 * trailerFlags last abort))
  rw [mkTrailer_toNat]
  omega

theorem mkTrailer_last (h : Header) (payload : List Word) (last abort : Bool) :
    (mkTrailer h payload last abort).getLsbD 35 = last := by
  rw [getLsbD_eq_decide, show 2 ^ 35 = 2 ^ 32 * 2 ^ 3 from rfl, ← Nat.div_div_eq_div_mul, mkTrailer_flags]
  revert last abort
  decide

theorem mkTrailer_abort (h : Header) (payload : List Word) (last abort : Bool) :
    (mkTrailer h payload last abort).getLsbD 34 = abort := by
  rw [getLsbD_eq_decide, show 2 ^ 34 = 2 ^ 32 * 2 ^ 2 from rfl, ← Nat.div_div_eq_div_mul, mkTrailer_flags]
  revert last abort
  decide

end

/-! Reading a packet (R62–R70). -/

theorem wholeWords_map_some (ws : List Word) : wholeWords (ws.map some) = some ws := by
  induction ws with
  | nil => rfl
  | cons w ws ih => simp [wholeWords, ih]

theorem parsePacket_map_some (ws : List Word) : parsePacket (ws.map some) = parseWords ws := by
  rw [parsePacket, wholeWords_map_some]

theorem parsePacket_dataPacket {h : Header} {payload : List Word} {last : Bool} (hty : h.ty = tOut ∨ h.ty = tSetup ∨ h.ty = tData)
    (hp : payload.length = h.len) (hlen : h.len < 128) :
    parsePacket ((dataPacket h payload last).map some) = .data h payload last false := by
  have h16 : h.ty < 16 := by rcases hty with e | e | e <;> rw [e] <;> decide
  have hdata : ¬ (h.ty = tHs ∨ h.ty = tBulkAck) ∧ ¬ (h.ty = 0 ∨ h.ty > tBulkAck) ∧ h.ty ≠ tIn := by
    rcases hty with e | e | e <;> rw [e] <;> decide
  obtain ⟨hshake, hreserved, htoken⟩ := hdata
  have htake : (payload ++ [mkTrailer h payload last false]).take h.len = payload := by rw [← hp, List.take_left']; rfl
  have hdrop : (payload ++ [mkTrailer h payload last false]).drop h.len = [mkTrailer h payload last false] := by
    rw [← hp, List.drop_left']; rfl
  have hlength : ¬ (payload ++ [mkTrailer h payload last false]).length ≠ h.len + 1 := by simp [hp]
  rw [parsePacket_map_some, dataPacket, List.append_assoc, List.cons_append, List.cons_append, List.nil_append]
  simp only [parseWords, Header.type_built h16, Header.headerOf_built h16 hlen, Header.crc8Ok_built, if_neg hshake, if_neg hreserved,
    if_neg htoken, if_neg hlength, htake, hdrop, if_true, crc32_mkTrailer, mkTrailer_last, mkTrailer_abort]

theorem parsePacket_tokenPacket {h : Header} (hty : h.ty = tIn) (hlen : h.len < 128) :
    parsePacket ((tokenPacket h).map some) = .token h := by
  have h16 : h.ty < 16 := by rw [hty]; decide
  have htype : wbits h.h0 35 32 = tIn := (Header.type_built h16).trans hty
  have hcases : ¬ (tIn = tHs ∨ tIn = tBulkAck) ∧ ¬ (tIn = 0 ∨ tIn > tBulkAck) := by decide
  simp only [parsePacket_map_some, tokenPacket, parseWords, htype, Header.headerOf_built h16 hlen, Header.crc8Ok_built, if_neg hcases.1,
    if_neg hcases.2, if_true, List.isEmpty_nil]

/-! Handshakes (R70). -/

/-- A handshake word over its CRC-7. -/
def Shake.fields (k : Shake) : Nat :=
  (if k.bulk then tBulkAck else tHs) * 2 ^ 25 + k.code.toNat * 2 ^ 21 + k.addr.toNat * 2 ^ 9 + k.ep.toNat * 2 ^ 5 + k.seq.toNat

theorem Shake.type_le (k : Shake) : (if k.bulk then tBulkAck else tHs) ≤ 6 := by cases k.bulk <;> decide

theorem Shake.fields_lt (k : Shake) : 2 ^ 7 * k.fields < 2 ^ 36 := by
  have hty := k.type_le
  have hcode := k.code.isLt
  have haddr := k.addr.isLt
  have hep := k.ep.isLt
  have hseq := k.seq.isLt
  unfold Shake.fields
  omega

theorem Shake.word_eq (k : Shake) :
    k.word = BitVec.ofNat 36 (2 ^ 7 * k.fields) ||| BitVec.ofNat 36 (crc7 (BitVec.ofNat 36 (2 ^ 7 * k.fields))) := by
  have hw : (if k.bulk then tBulkAck else tHs) * 2 ^ 32 + k.code.toNat * 2 ^ 28 + k.addr.toNat * 2 ^ 16 + k.ep.toNat * 2 ^ 12 +
      k.seq.toNat * 2 ^ 7 = 2 ^ 7 * k.fields := by unfold Shake.fields; omega
  rw [Shake.word, hw]

theorem Shake.word_toNat (k : Shake) : k.word.toNat = 2 ^ 7 * k.fields + crc7 (BitVec.ofNat 36 (2 ^ 7 * k.fields)) := by
  rw [Shake.word_eq, toNat_or_crc k.fields_lt (by decide) (crc7_lt _)]

theorem Shake.crc7_built (k : Shake) : wbits k.word 6 0 = crc7 k.word := by
  have hfit := k.fields_lt
  have hc := crc7_lt (BitVec.ofNat 36 (2 ^ 7 * k.fields))
  have hcrc : crc7 k.word = crc7 (BitVec.ofNat 36 (2 ^ 7 * k.fields)) := crc7_congr (by rw [Shake.word_toNat, BitVec.toNat_ofNat]; omega)
  rw [hcrc, wbits_eq, Shake.word_toNat]
  omega

/-- The fields of a handshake word read back. -/
theorem Shake.fields_built (k : Shake) :
    wbits k.word 35 32 = (if k.bulk then tBulkAck else tHs) ∧ wbits k.word 31 28 = k.code.toNat ∧ wbits k.word 27 16 = k.addr.toNat ∧
      wbits k.word 15 12 = k.ep.toNat ∧ wbits k.word 11 7 = k.seq.toNat := by
  have hty := k.type_le
  have hcode := k.code.isLt
  have haddr := k.addr.isLt
  have hep := k.ep.isLt
  have hseq := k.seq.isLt
  have hc := crc7_lt (BitVec.ofNat 36 (2 ^ 7 * k.fields))
  simp only [wbits_eq, Shake.word_toNat]
  generalize crc7 _ = c at hc ⊢
  unfold Shake.fields
  omega

theorem parsePacket_shake {k : Shake} (hk : k.bulk = true ∨ (1 ≤ k.code ∧ k.code ≤ hsNyet)) : parsePacket [some k.word] = .shake k := by
  obtain ⟨hty, hcode, haddr, hep, hseq⟩ := k.fields_built
  have hpacket : parsePacket [some k.word] = parseWords [k.word] := parsePacket_map_some [k.word]
  have hshake : wbits k.word 35 32 = tHs ∨ wbits k.word 35 32 = tBulkAck := by rw [hty]; cases k.bulk <;> decide
  have hbulk : (wbits k.word 35 32 == tBulkAck) = k.bulk := by rw [hty]; cases k.bulk <;> decide
  have hvalid : ¬ (!k.bulk && (k.code == 0 || decide (k.code > hsNyet))) = true := by
    rcases hk with hb | ⟨hlow, hhigh⟩
    · simp [hb]
    · have hne : ¬ k.code = 0#4 := by rintro e; rw [e] at hlow; exact absurd hlow (by decide)
      simp [hne, BitVec.not_lt.mpr hhigh]
  rw [hpacket]
  simp only [parseWords, if_pos hshake, List.isEmpty_nil, if_true, parseShake, Shake.crc7_built, ne_eq, not_true_eq_false, if_false, hbulk,
    hcode, haddr, hep, hseq, BitVec.ofNat_toNat, BitVec.setWidth_eq, if_neg hvalid]

/-- Settles O10: the words that arrive intact are those that were built, whose fields and CRCs read back. -/
theorem packetsReadBackAsBuilt : Obligations.PacketsReadBackAsBuilt := by
  unfold Obligations.PacketsReadBackAsBuilt
  exact ⟨fun h payload last => parsePacket_dataPacket, fun h => parsePacket_tokenPacket, fun k => parsePacket_shake⟩

end Sys2Proof.Machine
end

section
/-!
PROOFS. Route strings and port addresses (O11): a route string is its four nibbles, and the bytes of a port address read back.
-/

namespace Sys2Proof

open Sys2Proof.Machine

/-! The route string (R65). -/

/-- The port taken at tier `i + 1`, 0 where the path has ended. -/
def Pos.nibble (d : Pos) (i : Nat) : Nat := ((d.path[i]?).map (·.val)).getD 0

theorem Pos.nibble_lt (d : Pos) (i : Nat) : d.nibble i < 16 := by
  unfold Pos.nibble
  cases d.path[i]? with
  | none => decide
  | some p => exact p.isLt

theorem Pos.nibble_of_lt {d : Pos} {i : Nat} (h : i < d.path.length) : d.nibble i = d.path[i].val := by
  simp [Pos.nibble, h]

theorem Pos.route_toNat (d : Pos) : d.route.toNat = d.nibble 0 * 4096 + d.nibble 1 * 256 + d.nibble 2 * 16 + d.nibble 3 := by
  have h0 := d.nibble_lt 0
  have h1 := d.nibble_lt 1
  have h2 := d.nibble_lt 2
  have h3 := d.nibble_lt 3
  have hroute : d.route = BitVec.ofNat 16 (d.nibble 0 * 4096 + d.nibble 1 * 256 + d.nibble 2 * 16 + d.nibble 3) := rfl
  rw [hroute, BitVec.toNat_ofNat]
  omega

theorem Pos.bitsOf_route (d : Pos) (i : Fin 4) : bitsOf d.route.toNat (15 - 4 * i.val) (12 - 4 * i.val) = d.nibble i.val := by
  have h0 := d.nibble_lt 0
  have h1 := d.nibble_lt 1
  have h2 := d.nibble_lt 2
  have h3 := d.nibble_lt 3
  rw [bitsOf, Nat.shiftRight_eq_div_pow, d.route_toNat]
  match i with
  | 0 | 1 | 2 | 3 => simp only [Fin.isValue, Fin.val_zero, Fin.val_one, Fin.val_two, Nat.reduceMul, Nat.reduceSub, Nat.reduceAdd,
      Nat.reducePow, show (3 : Fin 4).val = 3 from rfl]; omega

/-- Two places of one trunk and one depth up to 4 have the same route only if they are the same place. -/
theorem Pos.route_inj {d e : Pos} (ht : d.trunk = e.trunk) (hl : d.path.length = e.path.length) (h4 : d.path.length ≤ 4)
    (hr : d.route = e.route) : d = e := by
  have hpath : d.path = e.path := by
    refine List.ext_getElem hl fun i hd he => Fin.ext ?_
    have hd4 := d.bitsOf_route ⟨i, by omega⟩
    have he4 := e.bitsOf_route ⟨i, by omega⟩
    rw [Pos.nibble_of_lt hd] at hd4
    rw [Pos.nibble_of_lt he] at he4
    rw [← hd4, ← he4, hr]
  obtain ⟨trunk, path⟩ := d
  obtain rfl : trunk = e.trunk := ht
  obtain rfl : path = e.path := hpath
  rfl

/-- The nibbles of a route string are the ports taken, tier by tier. -/
theorem routeNibs_route (d : Pos) :
    routeNibs d.route.toNat = [d.path.getD 0 0, d.path.getD 1 0, d.path.getD 2 0, d.path.getD 3 0] := by
  have hport : ∀ i, (d.path.getD i 0).val = d.nibble i := fun i => by
    rw [Pos.nibble, List.getD_eq_getElem?_getD]
    cases d.path[i]? <;> rfl
  have h0 := d.nibble_lt 0
  have h1 := d.nibble_lt 1
  have h2 := d.nibble_lt 2
  have h3 := d.nibble_lt 3
  rw [routeNibs, d.route_toNat]
  simp only [List.cons.injEq, Fin.ext_iff, hport, Fin.val_ofNat, and_true]
  omega

/-- Up to tier 4 the nibbles are the path, and zero below its end. -/
theorem routeNibs_take_drop {d : Pos} (h : d.path.length ≤ 3) :
    (routeNibs d.route.toNat).take d.path.length = d.path ∧ ((routeNibs d.route.toNat).drop d.path.length).any (· != 0) = false := by
  rw [routeNibs_route]
  match hp : d.path with
  | [] | [_] | [_, _] | [_, _, _] => exact ⟨rfl, rfl⟩
  | _ :: _ :: _ :: _ :: l => simp only [hp, List.length_cons] at h; omega

/-! The port address (R294). -/

/-- A field of what follows the first `n` bytes. -/
theorem fieldAt_append {head : List Byte} {n : Nat} (h : head.length = n) (l : List Byte) (k m : Nat) :
    fieldAt (head ++ l) (n + k) m = fieldAt l k m := by
  rw [fieldAt, fieldAt, ← List.drop_drop, ← h, List.drop_left']
  rfl

/-- Bytes 8 to 12 of an entry, as the port address is laid out in them. -/
theorem paPort_bytes {head tail : List Byte} (h : head.length = 8) (a b c d e : Byte) :
    paPort (head ++ [a, b, c, d, e] ++ tail) =
      if a.toNat ≥ 16 then .error 8
      else if b.toNat > 4 then .error 9
      else if b.toNat = 0 then
        if c.toNat + 256 * d.toNat ≠ 0 then .error 10 else if e.toNat ≠ 0 then .error 12 else .ok (.root (Fin.ofNat 16 a.toNat))
      else if ((routeNibs (c.toNat + 256 * d.toNat)).drop (b.toNat - 1)).any (· != 0) then .error 10
      else if e.toNat ≥ 16 then .error 12
      else .ok (.hub (posOf (Fin.ofNat 16 a.toNat) (b.toNat - 1) (c.toNat + 256 * d.toNat)) (Fin.ofNat 16 e.toNat)) := by
  have field := fieldAt_append h ([a, b, c, d, e] ++ tail)
  have h8 : fieldAt (head ++ ([a, b, c, d, e] ++ tail)) 8 1 = a.toNat := by rw [field 0 1]; simp [fieldAt, leNat]
  have h9 : fieldAt (head ++ ([a, b, c, d, e] ++ tail)) 9 1 = b.toNat := by rw [field 1 1]; simp [fieldAt, leNat]
  have h10 : fieldAt (head ++ ([a, b, c, d, e] ++ tail)) 10 2 = c.toNat + 256 * d.toNat := by rw [field 2 2]; simp [fieldAt, leNat]
  have h12 : fieldAt (head ++ ([a, b, c, d, e] ++ tail)) 12 1 = e.toNat := by rw [field 4 1]; simp [fieldAt, leNat]
  rw [List.append_assoc]
  simp only [paPort, h8, h9, h10, h12]

theorem paBytes_hub (d : Pos) (q : Fin 16) : paBytes (.hub d q) =
    [BitVec.ofNat 8 d.trunk.val, BitVec.ofNat 8 (d.path.length + 1), BitVec.ofNat 8 d.route.toNat, BitVec.ofNat 8 (d.route.toNat / 256),
      BitVec.ofNat 8 q.val] := rfl

theorem paPort_root {head tail : List Byte} (h : head.length = 8) (t : Fin 16) :
    paPort (head ++ paBytes (.root t) ++ tail) = .ok (.root t) := by
  have ht : (BitVec.ofNat 8 t.val).toNat = t.val := by simp; omega
  rw [paBytes, paPort_bytes h, ht, if_neg (by omega), if_neg (by decide), if_pos (by decide), if_neg (by decide), if_neg (by decide),
    Fin.ofNat_val_eq_self]

theorem paPort_hub {head tail : List Byte} (h : head.length = 8) (d : Pos) (q : Fin 16) (hd : d.path.length ≤ 3) :
    paPort (head ++ paBytes (.hub d q) ++ tail) = .ok (.hub d q) := by
  have hroute := d.route.isLt
  have htrunk : (BitVec.ofNat 8 d.trunk.val).toNat = d.trunk.val := by simp; omega
  have hq : (BitVec.ofNat 8 q.val).toNat = q.val := by simp; omega
  have hdepth : (BitVec.ofNat 8 (d.path.length + 1)).toNat = d.path.length + 1 := by simp; omega
  have hr : (BitVec.ofNat 8 d.route.toNat).toNat + 256 * (BitVec.ofNat 8 (d.route.toNat / 256)).toNat = d.route.toNat := by
    simp only [BitVec.toNat_ofNat]; omega
  obtain ⟨htake, hdrop⟩ := routeNibs_take_drop hd
  rw [paBytes_hub, paPort_bytes h, htrunk, hdepth, hr, hq, Nat.add_sub_cancel, hdrop, if_neg (by omega), if_neg (by omega), if_neg (by omega),
    if_neg (by decide), if_neg (by omega), posOf, htake, Fin.ofNat_val_eq_self, Fin.ofNat_val_eq_self]

/-- Settles O11. -/
theorem routesAndPortAddressesReadBack : Obligations.RoutesAndPortAddressesReadBack := by
  unfold Obligations.RoutesAndPortAddressesReadBack
  refine ⟨Pos.bitsOf_route, fun d e => Pos.route_inj, fun p head tail hhead hp => ?_⟩
  cases p with
  | root t => exact paPort_root hhead t
  | ga => exact hp.elim
  | hub d q => exact paPort_hub hhead d q hp

end Sys2Proof
end

section
/-!
PROOFS. Fields of registers (O12): the fields of a register lie apart within it, so storing one leaves the others alone.
-/

namespace Sys2Proof.Machine

/-- Two fields of one register that share no bit. -/
abbrev Fld.Apart (f g : Fld) : Prop := g.lo + g.width ≤ f.lo ∨ f.lo + f.width ≤ g.lo

/-- The fields of a register are its own, fit in it, and lie apart. -/
def Reg.wellLaid (r : Reg) : Bool :=
  r.fields.all fun f => f.reg == r && decide f.Fits && r.fields.all fun g => f == g || decide (f.Apart g)

/-- The register map has no fields that overlap: a look at the table of each register. -/
theorem Reg.wellLaid_all (r : Reg) : r.wellLaid = true := by cases r <;> rfl

theorem Reg.mem_fields {r : Reg} {f : Fld} (hf : f ∈ r.fields) :
    f.reg = r ∧ f.Fits ∧ ∀ g ∈ r.fields, f ≠ g → f.Apart g := by
  have hall := List.all_eq_true.mp r.wellLaid_all f hf
  simp only [Bool.and_eq_true, beq_iff_eq, decide_eq_true_eq, List.all_eq_true, Bool.or_eq_true] at hall
  obtain ⟨⟨hreg, hfits⟩, hapart⟩ := hall
  exact ⟨hreg, hfits, fun g hg hne => (hapart g hg).resolve_left hne⟩

/-- Storing a field leaves a field of the same register alone that lies apart from it. -/
theorem State.fld_setFld_apart {s : State} {f g : Fld} (hreg : g.reg = f.reg) (hg : g.Fits) (hapart : f.Apart g) (x k n : Nat)
    (hs : ksorted s.regs = true) : (s.setFld f x k n).fld g k n = s.fld g k n := by
  rw [State.fld, State.fld, State.setFld, hreg, State.reg_setReg _ _ _ _ _ hs, Fld.get_put_apart f g hg _ _ hapart]

/-- Storing a field leaves a register at another place alone. -/
theorem State.reg_setFld_ne {s : State} {f : Fld} {q : Reg} {x k n j m : Nat} (h : q.key m j ≠ f.reg.key n k) :
    (s.setFld f x k n).reg q j m = s.reg q j m := State.rawReg_setReg_ne s f.reg q _ k n _ h

/-- Settles O12. -/
theorem storingAFieldChangesItAlone : Obligations.StoringAFieldChangesItAlone := by
  unfold Obligations.StoringAFieldChangesItAlone
  intro s r f g x k n hs hf hg hne
  obtain ⟨hfreg, hffits, hfapart⟩ := Reg.mem_fields hf
  obtain ⟨hgreg, hgfits, -⟩ := Reg.mem_fields hg
  refine ⟨State.fld_setFld s f hffits x k n hs, ?others, fun q j m hq => ?registers, rfl⟩
  case others => exact State.fld_setFld_apart (hgreg.trans hfreg.symm) hgfits (hfapart g hg hne) x k n hs
  case registers => exact State.reg_setFld_ne (by rwa [hfreg])

end Sys2Proof.Machine
end

section
/-!
PROOFS. Completions (O13), the common checks of a command (O14), and EVENT_ROUTE (O17).
-/

namespace Sys2Proof.Machine

/-! Completions. A completion is a posted write, and as an access of a block it wakes PD_HOST where it sleeps (R400): then the power domains
change as well. -/

/-- A command of all zero bytes that has started. -/
def zeroCommand : Taken := ⟨0, List.replicate 64 0, true, false, false, 0, [], .notSent, false, 0⟩

/-- That command in the manager's hand, the host function taking posted writes, PD_HOST in retention. -/
def hostAsleep : State :=
  { State.reset with
    insts := [(0, { Instance.manager with mb := { Instance.manager.mb with taken := [zeroCommand] } })]
    pmu := { State.reset.pmu with doms := State.reset.pmu.doms.set 0 .retained } }

theorem hostAsleep_wakes : (hostAsleep.done ⟨0, 0⟩ stOk []).pmu.doms[0] = .waking := by decide +kernel

/-- Refutes O13: with PD_HOST in retention the write of the completion takes it to WAKING. -/
theorem not_completionIsOneEntry : ¬ Obligations.CompletionIsOneEntry := by
  unfold Obligations.CompletionIsOneEntry
  intro h
  obtain ⟨m, hdone, -⟩ := h hostAsleep ⟨0, 0⟩ zeroCommand stOk [] 0 rfl (by decide) (by decide) rfl rfl (by decide) (by decide) (by decide)
  have hdoms := hostAsleep_wakes
  rw [hdone] at hdoms
  have hretained : hostAsleep.pmu.doms[0] = .retained := rfl
  exact absurd (hretained.symm.trans hdoms) (by decide)

/-! The common checks (R293). -/

theorem foldl_min_le (b : Nat) (bs : List Nat) : bs.foldl min b ≤ b ∧ ∀ x ∈ bs, bs.foldl min b ≤ x := by
  induction bs generalizing b with
  | nil => exact ⟨Nat.le_refl b, nofun⟩
  | cons y bs ih =>
    obtain ⟨hmin, hle⟩ := ih (min b y)
    refine ⟨Nat.le_trans hmin (Nat.min_le_left b y), fun x hx => ?_⟩
    rcases List.mem_cons.mp hx with rfl | hx
    · exact Nat.le_trans hmin (Nat.min_le_right b x)
    · exact hle x hx

theorem foldl_min_mem (b : Nat) (bs : List Nat) : bs.foldl min b ∈ b :: bs := by
  induction bs generalizing b with
  | nil => exact List.mem_cons_self
  | cons y bs ih =>
    rcases List.mem_cons.mp (ih (min b y)) with h | h
    · rw [List.foldl_cons, h]
      rcases Nat.le_total b y with hby | hby
      · rw [Nat.min_eq_left hby]; exact List.mem_cons_self
      · rw [Nat.min_eq_right hby]; exact List.mem_cons_of_mem _ List.mem_cons_self
    · exact List.mem_cons_of_mem _ (List.mem_cons_of_mem _ h)

/-- The bytes that break a rule: those with a bit that must be zero, then those of the ranges. -/
def Frame.badBytes (fr : Frame) (ranges : Taken → List (Nat × Bool)) (t : Taken) : List Nat :=
  fr.reserved t ++ ((ranges t).filter (·.2)).map (·.1)

theorem Frame.mem_badBytes {fr : Frame} {ranges : Taken → List (Nat × Bool)} {t : Taken} {b : Nat} :
    b ∈ fr.badBytes ranges t ↔ b ∈ fr.reserved t ∨ (b, true) ∈ ranges t := by
  simp [Frame.badBytes]

/-- A command of a mailbox that stands at its common checks: started, no copy, not waiting, its issuer served. -/
theorem State.command_checked {s : State} {c : CmdRef} {t : Taken} {fr : Frame} (ht : s.taken c = some t) (hst : t.started = true)
    (hcp : t.copies = false) (hw : t.waiting = false) (hop : t.opcode = fr.opcode) (hsv : s.serves c.inst.val = true)
    (hk : s.knows t.opcode = true) (ranges : Taken → List (Nat × Bool)) (permitted : Taken → Bool) (act : Taken → State) :
    s.command c fr ranges permitted act =
      match fr.badBytes ranges t with
      | b :: bs => s.done c stBadParam [] (bs.foldl min b)
      | [] =>
        if (fr.manager && c.inst.val != 0) || !permitted t then s.done c stNotPermitted []
        else if !fr.modes.contains s.pmu.mode then s.done c stWrongMode []
        else act t := by
  have hstands : (!t.started || t.copies || t.waiting || t.opcode != fr.opcode || !s.serves c.inst.val || !s.knows t.opcode) = false := by
    rw [hop] at hk
    simp [hst, hcp, hw, hsv, hk, hop]
  simp only [State.command, ht, hstands, Bool.false_eq_true, if_false]
  rfl

/-- Settles O14: the lowest bad byte is the least of the list of them, and past an empty list issuer and mode come in their order. -/
theorem commonChecksComeInOrder : Obligations.CommonChecksComeInOrder := by
  unfold Obligations.CommonChecksComeInOrder
  intro s c t fr ranges permitted act ht hst hcp hw hop hsv hk
  rw [State.command_checked ht hst hcp hw hop hsv hk]
  refine ⟨fun b hb hlow => ?bad, fun hres hranges => ?good⟩
  case bad =>
    simp only [← Frame.mem_badBytes] at hb hlow
    cases hbad : fr.badBytes ranges t with
    | nil => rw [hbad] at hb; exact absurd hb List.not_mem_nil
    | cons x xs =>
      rw [hbad] at hb hlow
      obtain ⟨hx, hxs⟩ := foldl_min_le x xs
      have hle : xs.foldl min x ≤ b := (List.mem_cons.mp hb).elim (fun e => e ▸ hx) (hxs b)
      show s.done c stBadParam [] (xs.foldl min x) = s.done c stBadParam [] b
      rw [Nat.le_antisymm hle (hlow _ (foldl_min_mem x xs))]
  case good =>
    have hbad : fr.badBytes ranges t = [] := by
      refine List.eq_nil_iff_forall_not_mem.mpr fun b hb => ?_
      rcases Frame.mem_badBytes.mp hb with h | h
      · rw [hres] at h; exact absurd h List.not_mem_nil
      · exact absurd (hranges _ h).symm Bool.false_ne_true
    simp only [hbad]
    refine ⟨fun hissuer => ?_, fun hissuer hperm => ?_⟩
    · rw [if_pos]
      rcases hissuer with ⟨hm, hne⟩ | hp
      · simp [hm, hne]
      · simp [hp]
    · have hno : ¬ ((fr.manager && c.inst.val != 0) || !permitted t) = true := by
        rcases hissuer with hm | hz
        · simp [hm, hperm]
        · simp [hz, hperm]
      rw [if_neg hno]
      exact ⟨fun hmode => by rw [if_pos (by simpa using hmode)], fun hmode => by rw [if_neg (by simpa using hmode)]⟩

/-! EVENT_ROUTE (R311). -/

/-- Setting the bits of a word that a mask names, or clearing them. -/
theorem getLsbD_putBits (old codes : BitVec 32) (on : Bool) {k : Nat} (hk : k < 32) :
    (if on then old ||| codes else old &&& ~~~codes).getLsbD k = if codes.getLsbD k then on else old.getLsbD k := by
  cases on with
  | true => rw [if_pos rfl, BitVec.getLsbD_or]; cases codes.getLsbD k <;> simp
  | false => rw [if_neg Bool.false_ne_true, BitVec.getLsbD_and, BitVec.getLsbD_not]; cases codes.getLsbD k <;> simp [hk]

/-- A table in which each key of a list that passes a test has been written. -/
theorem kget_foldl_kset (named : Nat → Bool) (v : Nat) (l : List Nat) (m : KMap Nat) (k : Nat) :
    kget (l.foldl (fun (m : KMap Nat) j => if named j then kset m j v else m) m) k =
      if k ∈ l ∧ named k = true then some v else kget m k := by
  induction l generalizing m with
  | nil => simp
  | cons j l ih =>
    rw [List.foldl_cons, ih]
    by_cases hl : k ∈ l ∧ named k = true
    · rw [if_pos hl, if_pos ⟨List.mem_cons_of_mem _ hl.1, hl.2⟩]
    · rw [if_neg hl]
      by_cases hj : k = j
      · subst hj
        by_cases hn : named k = true
        · rw [if_pos hn, kget_kset_same, if_pos ⟨List.mem_cons_self, hn⟩]
        · rw [if_neg hn, if_neg fun h => hn h.2]
      · have hcons : ¬ (k ∈ j :: l ∧ named k = true) := fun h => hl ⟨(List.mem_cons.mp h.1).resolve_left hj, h.2⟩
        rw [if_neg hcons]
        split
        · exact kget_kset_ne _ _ _ _ hj
        · rfl

/-- What EVENT_ROUTE makes of an instance's routes. -/
def Routes.named (r : Routes) (codes : BitVec 32) (enable signal : Bool) (src : Nat) : Routes :=
  ⟨if enable then r.enabled ||| codes else r.enabled &&& ~~~codes, if signal then r.signalled ||| codes else r.signalled &&& ~~~codes,
    (List.range 32).foldl (fun (m : KMap Nat) k => if codes.getLsbD k && signal then kset m k src else m) r.src⟩

theorem testBit_one_eq (n : Nat) : n.testBit 1 = (n / 2 % 2 == 1) := by
  rw [Nat.testBit_eq_decide_div_mod_eq]; rfl

/-- EVENT_ROUTE that is ready: its source is one that the issuer may name, or none where it does not signal. -/
theorem execEventRoute_ready {s : State} {c : CmdRef} {t : Taken} (hs : ksorted s.insts = true)
    (h : s.standsReady c t ⟨0x0004, [(8, 4, 0x000FFFFE), (12, 2, 0xFFFF), (14, 1, 3)], modesAll, false⟩ = true)
    (hsrc : (t.arg 14 1).testBit 1 = true → s.nameable c.inst.val (t.arg 12 2) = true)
    (hnone : (t.arg 14 1).testBit 1 = false → t.arg 12 2 = 0) {r : Routes}
    (hr : r = (s.inst c.inst.val).routes.named (BitVec.ofNat 32 (t.arg 8 4)) ((t.arg 14 1).testBit 0) ((t.arg 14 1).testBit 1) (t.arg 12 2)) :
    exec (.eventRoute c) s = .next ((s.modInst c.inst.val fun x => { x with routes := r }).done c stOk (leBytes 4 r.enabled.toNat)) := by
  have hrange : (if t.arg 14 1 / 2 % 2 == 1 then !s.nameable c.inst.val (t.arg 12 2) else t.arg 12 2 != 0) = false := by
    rw [← testBit_one_eq]
    cases hb : (t.arg 14 1).testBit 1 with
    | true => simp [hsrc hb]
    | false => simp [hnone hb]
  have hzero : (t.arg 14 1).testBit 0 = (t.arg 14 1 % 2 == 1) := Nat.testBit_zero _
  have hexec : exec (.eventRoute c) s = execEventRoute c s := rfl
  rw [hexec, execEventRoute, State.command_ready h (by simp only [List.all_cons, hrange]; rfl) rfl]
  subst hr
  simp only [State.modInst, State.inst_setInst _ _ _ hs, Routes.named, hzero, testBit_one_eq]

/-- Settles O17. -/
theorem eventRouteSetsTheNamedCodes : Obligations.EventRouteSetsTheNamedCodes := by
  unfold Obligations.EventRouteSetsTheNamedCodes
  intro s c t hs h hsrc hnone
  refine ⟨_, execEventRoute_ready hs h hsrc hnone rfl, fun k hk => ?_⟩
  have hcode : (BitVec.ofNat 32 (t.arg 8 4)).getLsbD k = (t.arg 8 4).testBit k := by
    rw [BitVec.getLsbD_ofNat, decide_eq_true hk, Bool.true_and]
  refine ⟨?enabled, ?signalled, ?src⟩
  case enabled => rw [Routes.named, getLsbD_putBits _ _ _ hk, hcode]
  case signalled => rw [Routes.named, getLsbD_putBits _ _ _ hk, hcode]
  case src =>
    rw [Routes.named, kget_foldl_kset (fun k => (BitVec.ofNat 32 (t.arg 8 4)).getLsbD k && (t.arg 14 1).testBit 1)]
    simp only [List.mem_range, hk, true_and, hcode]

end Sys2Proof.Machine
end

section
/-!
PROOFS. Commands that report (O15), lookups (O16), and service commands (O18): what each does where it is ready.
-/

namespace Sys2Proof.Machine

/-! A meaning that runs a command of a mailbox, where the command is ready. -/

section
variable {s r : State} {c : CmdRef} {t : Taken} {fr : Frame}

/-- The meaning's next state is what the command's own work makes of the state. -/
theorem next_command {ranges : Taken → List (Nat × Bool)} {permitted : Taken → Bool} {act : Taken → State}
    (h : s.standsReady c t fr = true) (hranges : (ranges t).all (fun x => !x.2) = true) (hperm : permitted t = true) (hact : act t = r) :
    (Host.Outcome.next (s.command c fr ranges permitted act) : Res) = .next r := by
  rw [State.command_ready h hranges hperm, hact]

theorem next_flowCommand {ctx : Nat} {f : Flow} {more : Taken → List (Nat × Bool)} {closing : Bool} {act : Taken → Nat → Flow → State}
    (h : s.flowReady c t fr ctx f = true) (hmore : (more t).all (fun x => !x.2) = true) (hclosing : (f.closing && !closing) = false)
    (hact : act t ctx f = r) : (Host.Outcome.next (s.flowCommand c fr more closing act) : Res) = .next r := by
  rw [State.flowCommand_ready h hmore hclosing, hact]

theorem next_portCommand {p : PortRef} {x : Port} {more : Taken → List (Nat × Bool)} {permitted : PortRef → Bool} {absent : Nat}
    {act : Taken → PortRef → Port → State} (h : s.portReady c t fr p x = true) (hmore : (more t).all (fun x => !x.2) = true)
    (hperm : permitted p = true) (hact : act t p x = r) :
    (Host.Outcome.next (s.portCommand c fr more permitted absent act) : Res) = .next r := by
  rw [State.portCommand_ready h hmore hperm, hact]

end

/-- A range check that lists one byte, or two, whose values are good. -/
theorem all_good_one {b : Nat} {p : Bool} (h : p = false) : ([(b, p)] : List (Nat × Bool)).all (fun x => !x.2) = true := by simp [h]

theorem all_good_two {a b : Nat} {p q : Bool} (hp : p = false) (hq : q = false) :
    ([(a, p), (b, q)] : List (Nat × Bool)).all (fun x => !x.2) = true := by simp [hp, hq]

theorem all_good_three {a b d : Nat} {p q r : Bool} (hp : p = false) (hq : q = false) (hr : r = false) :
    ([(a, p), (b, q), (d, r)] : List (Nat × Bool)).all (fun x => !x.2) = true := by simp [hp, hq, hr]

theorem finOfNat_of_eq {n v : Nat} [NeZero n] {k : Fin n} (h : v = k.val) : Fin.ofNat n v = k := by
  rw [h]; exact Fin.ext (Nat.mod_eq_of_lt k.isLt)

/-! Commands that report (R295, R297, R304, R307, R308). -/

section
variable {s : State} {c : CmdRef} {t : Taken}

theorem exec_nop_ready (h : s.standsReady c t (plainFrame 0x0001 modesAll false) = true) : exec (.nop c) s = .next (s.done c stOk []) :=
  next_command h rfl rfl rfl

theorem exec_identify_ready (h : s.standsReady c t (plainFrame 0x0002 modesAll false) = true) :
    exec (.identify c) s = .next (s.done c stOk ([0x12, 0x75, 0xB0] ++ s.identity ++ [1, 4, s.gang.effMinor] ++ leBytes 2 c.inst.val ++
      [BitVec.ofNat 8 (ptbDisable.toNat + 2 * gangAllowed.toNat + 4 * (s.flag .PTB_CFG_RUN_ENABLE).toNat), 0] ++ leBytes 2 maxInstances)) := by
  refine next_command h rfl rfl ?_
  rw [Nat.mul_comm 2, Nat.mul_comm 4]
  rfl

theorem exec_getLimits_ready (h : s.standsReady c t ⟨0x0003, [(8, 1, 0xFF)], modesAll, false⟩ = true) (hpage : t.arg 8 1 = 0xFF) :
    exec (.getLimits c) s = .next (s.done c stOk (s.limitsPage c.inst.val)) :=
  next_command h (all_good_one (by simp [hpage])) rfl (if_pos hpage)

theorem exec_getLimits_trunk (h : s.standsReady c t ⟨0x0003, [(8, 1, 0xFF)], modesAll, false⟩ = true) {k : Fin 16} (hk : t.arg 8 1 = k.val) :
    exec (.getLimits c) s = .next (s.done c stOk
      (leBytes 2 (s.inst c.inst.val).shares.slots[k] ++ leBytes 2 (s.slotUse c.inst.val k))) := by
  have hpage : ¬ t.arg 8 1 = 0xFF := by omega
  refine next_command h (all_good_one (by simp only [Bool.and_eq_false_iff, decide_eq_false_iff_not]; omega)) rfl ?_
  simp only [if_neg hpage, finOfNat_of_eq hk]

theorem exec_instQuery_ready (h : s.standsReady c t ⟨0x0105, [(8, 2, 0xFFFF), (10, 1, 0xFF)], modesAll, true⟩ = true) (hi : t.arg 8 2 < 512)
    (hpage : t.arg 10 1 ≤ 1) {page : List Byte} (hr : page = if t.arg 10 1 = 0 then
        [BitVec.ofNat 8 (s.inst (t.arg 8 2)).state.code, 0] ++
          leBytes 3 (if t.arg 8 2 = 0 then s.fld .INST_MGR_CFG_PASID else (s.inst (t.arg 8 2)).pasid.toNat) ++ [0] ++
          leBytes 2 (s.ctxUse (t.arg 8 2)) ++ leBytes 4 (s.stageUse (t.arg 8 2)) ++ leBytes 4 (s.inst (t.arg 8 2)).epoch.toNat ++
          leBytes 4 (s.inst (t.arg 8 2)).stall.cnt.toNat
      else leBytes 8 (s.inst (t.arg 8 2)).stall.openAt.toNat ++ leBytes 8 (s.inst (t.arg 8 2)).stall.closeAt.toNat) :
    exec (.instQuery c) s = .next (s.done c stOk page) := by
  refine next_command h (all_good_two (decide_eq_false (Nat.not_le.mpr hi)) (decide_eq_false (Nat.not_lt.mpr hpage))) rfl ?_
  subst hr
  rfl

theorem exec_timeGet_ready (h : s.standsReady c t (plainFrame 0x0401 modesSURHV false) = true) :
    exec (.timeGet c) s = .next (s.done c stOk (leBytes 8 s.time.bus.toNat ++ [BitVec.ofNat 8 s.time.quality.code,
      BitVec.ofNat 8 s.timeFlags] ++ leBytes 4 s.uncertNs ++ leBytes 4 (s.course.count.toNat % 2 ^ 32) ++ [BitVec.ofNat 8 s.timeSource])) :=
  next_command h rfl rfl rfl

theorem exec_gangStatus_ready (h : s.standsReady c t (plainFrame 0x0502 modesAll false) = true) :
    exec (.gangStatus c) s = .next (s.done c stOk (s.gang.brief ++ leBytes 4 s.gang.digest.toNat ++ leBytes 4 (sat32 s.gang.offset) ++
      [s.gang.effMinor, BitVec.ofNat 8 (s.gang.members % 256)])) :=
  next_command h rfl rfl rfl

theorem exec_ppmRead_ready (h : s.standsReady c t ⟨0x0604, [(8, 1, 0xFF)], modesAll, false⟩ = true) {n : Fin 16} (hn : t.arg 8 1 = n.val)
    (hbound : c.inst.val = 0 ∨ s.boundPort c.inst.val (.root n) = true) :
    exec (.ppmRead c) s = .next (s.done c stOk (leBytes 2 (s.fld .PPM_MEAS_I n.val) ++ leBytes 2 (s.fld .PPM_MEAS_V n.val) ++
      leBytes 4 (s.fld .PPM_POWER_P n.val) ++ leBytes 6 s.ppm[n].energy.toNat ++
      [BitVec.ofNat 8 s.ppm[n].phase.code, BitVec.ofNat 8 s.ppm[n].cause.code, s.ppm[n].retries])) := by
  have hfin := finOfNat_of_eq hn
  refine next_command h (all_good_one (decide_eq_false (by omega))) ?_ ?_
  · rw [hfin, Bool.or_eq_true, beq_iff_eq]; exact hbound
  · simp only [hfin]

end

/-- Settles O15: each report completes with the bytes of its table. -/
theorem reportsCompleteWithTheirTables : Obligations.ReportsCompleteWithTheirTables := by
  unfold Obligations.ReportsCompleteWithTheirTables
  intro s c t
  refine ⟨exec_nop_ready, exec_identify_ready, fun h => ⟨exec_getLimits_ready h, fun k => exec_getLimits_trunk h⟩, fun h i harg hi => ?query,
    exec_timeGet_ready, exec_gangStatus_ready, fun h n => exec_ppmRead_ready h⟩
  case query =>
    subst harg
    refine ⟨fun hpage => exec_instQuery_ready h hi (by omega) ?_, fun hpage => exec_instQuery_ready h hi (by omega) ?_⟩
    · rw [if_pos hpage]
      cases (s.inst (t.arg 8 2)).state <;> rfl
    · rw [if_neg (by omega)]

/-! Lookups (R298, R301, R306). -/

section
variable {s : State} {c : CmdRef} {t : Taken}

theorem exec_paceQuery_ready (h : s.standsReady c t ⟨0x0405, [(8, 1, 0xFF), (9, 1, 0xFF), (10, 2, 0xFFFF)], modesURHV, false⟩ = true)
    (hest : t.arg 8 1 ≤ 7) (hpage : t.arg 9 1 ≤ 1) (hflow : t.arg 10 2 = 0xFFFF) :
    exec (.paceQuery c) s = .next (s.done c stOk (s.pacePage t none)) := by
  refine next_command h (all_good_three (decide_eq_false (Nat.not_lt.mpr hest)) (decide_eq_false (Nat.not_lt.mpr hpage)) ?_) rfl ?_
  · simp [hflow]
  · simp only [hflow, if_true]

theorem exec_flowQuery_ready {ctx : Nat} {f : Flow} (h : s.flowReady c t ⟨0x0304, [(8, 2, 0x1FFF), (10, 1, 0xFF)], modesAll, false⟩ ctx f = true)
    (hpage : t.arg 10 1 ≤ 2) : exec (.flowQuery c) s = .next (s.done c stOk
      (if t.arg 10 1 = 0 then s.queryState ctx f else if t.arg 10 1 = 1 then f.counts.page else f.pacePage)) :=
  next_flowCommand h (all_good_one (decide_eq_false (Nat.not_lt.mpr hpage))) (by rw [Bool.not_true, Bool.and_false]) rfl

theorem FlowCounts.page_eq (n : FlowCounts) : n.page =
    ([n.underrun, n.notAccepted, n.held, n.retryDenied, n.lasting].map fun k => leBytes 4 (min 0xFFFFFFFF k)).flatten := rfl

theorem Flow.pacePage_paced {f : Flow} (h : f.par.ty.paced = true) : f.pacePage = leBytes 6 (BitVec.ofInt 48 (f.due.getD 0)).toNat ++
    ([f.counts.angleWait, f.counts.overrate, f.counts.angleErrMax, f.counts.angleVoid].map fun n => leBytes 4 (min 0xFFFFFFFF n)).flatten := by
  rw [Flow.pacePage, h, Bool.true_or, if_pos rfl]
  rfl

theorem State.nodeReady_iff {fr : Frame} {n : NodeRec} : s.nodeReady c t fr n = true ↔
    s.standsReady c t fr = true ∧ badNode (t.arg 10 2) = false ∧ kget s.nodes (t.arg 10 2) = some n ∧ n.present = true ∧
      s.boundNode c.inst.val (t.arg 10 2) = true := by
  simp only [State.nodeReady, Bool.and_eq_true, Bool.not_eq_true', beq_iff_eq, and_assoc]

theorem exec_nodeInfo_ready {n : NodeRec} (h : s.nodeReady c t ⟨0x0207, [(10, 2, 0x0FFF), (16, 8, 2 ^ 64 - 1)], modesAll, false⟩ n = true)
    (halign : t.arg 16 8 % 64 = 0) : exec (.nodeInfo c) s = .next ((if t.arg 16 8 = 0 then s
          else State.postBytes (s.pasidOf c.inst.val) n.desc.length (t.arg 16 8) (laneBytes n.desc) s).done c stOk
        (leBytes 8 (identOf n.desc).toNat ++ leBytes 2 (genOf n.desc).toNat ++
          [BitVec.ofNat 8 (classOf n.desc), BitVec.ofNat 8 (wbits ((n.desc[3]?).getD 0) 11 8), BitVec.ofNat 8 (wbits ((n.desc[3]?).getD 0) 6 0),
            BitVec.ofNat 8 (wbits ((n.desc[4]?).getD 0) 35 32), BitVec.ofNat 8 (n.pos.trunk.val + n.pos.path.length * 16), 0] ++
          leBytes 2 n.pos.route.toNat ++ leBytes 2 (match kget s.binds (t.arg 10 2) with | some b => b.inst | none => 0xFFFF))) := by
  obtain ⟨hready, hbad, hnode, hpresent, hbound⟩ := State.nodeReady_iff.mp h
  have hfound : (kget s.nodes (t.arg 10 2)).filter (·.present) = some n := by rw [hnode, Option.filter_some, if_pos hpresent]
  refine next_command hready (all_good_two hbad (by simp [halign])) hbound ?_
  simp only [hfound] <;> rfl

theorem exec_portStatus_root {k : Fin 16} {x : Port} (h : s.portReady c t (paFrame 0x0205 modesAll false []) (.root k) x = true)
    (hroot : t.arg 9 1 = 0) (hrouted : s.routedPort c.inst.val (.root k) = true) :
    exec (.portStatus c) s = .next (s.done c stOk (s.portStatus (.root k) x)) := by
  have htaken := State.standsReady_taken (State.portReady_stands h)
  have hmodes : (match s.taken c with
      | some t => if t.arg 9 1 != 0 then modesURHV else modesAll
      | none => modesAll) = modesAll := by rw [htaken]; simp [hroot]
  exact next_portCommand (fr := paFrame 0x0205 (match s.taken c with
      | some t => if t.arg 9 1 != 0 then modesURHV else modesAll
      | none => modesAll) false []) (by rw [hmodes]; exact h) rfl hrouted rfl

end

/-- Settles O16. -/
theorem lookupsCompleteWithTheirPages : Obligations.LookupsCompleteWithTheirPages := by
  unfold Obligations.LookupsCompleteWithTheirPages
  intro s c t
  refine ⟨exec_paceQuery_ready, fun ctx f h => ⟨fun hp => ?state, fun hp => ?counts, fun hp hpaced => ?pace⟩,
    fun n => exec_nodeInfo_ready, fun k x => exec_portStatus_root⟩
  case state =>
    rw [exec_flowQuery_ready h (by omega), if_pos hp, State.queryState]
    simp only [apply_ite (BitVec.ofNat 8)]
    rfl
  case counts => rw [exec_flowQuery_ready h (by omega), if_neg (by omega), if_pos hp, FlowCounts.page_eq]
  case pace => rw [exec_flowQuery_ready h (by omega), if_neg (by omega), if_neg (by omega), Flow.pacePage_paced hpaced]

/-! Service commands (R309, R310). -/

section
variable {s : State} {c : CmdRef} {t : Taken}

theorem setIfInBounds_eq_set {α : Type} {n i : Nat} (v : Vector α n) (hi : i < n) (x : α) : v.setIfInBounds i x = v.set i x := by
  ext j hj
  rw [Vector.getElem_setIfInBounds, Vector.getElem_set]

/-- An acknowledgement clears VALID, OVERFLOW and COUNT of its record (R451). -/
theorem State.ackRec_fin (s : State) (k : Fin 7) : s.ackRec k.val =
    { s with errs := { s.errs with recs := s.errs.recs.set k.val { s.errs.recs[k] with valid := false, overflow := false, count := 0 } } } := by
  have hk : s.errs.recs[k.val]? = some s.errs.recs[k] := Vector.getElem?_eq_getElem k.isLt
  simp only [State.ackRec, hk, setIfInBounds_eq_set _ k.isLt]

theorem exec_errlogRead_ready (h : s.standsReady c t ⟨0x0703, [(8, 1, 0xFF), (9, 1, 1)], modesAll, true⟩ = true) {k : Fin 7}
    (hk : t.arg 8 1 = k.val) :
    exec (.errlogRead c) s = .next ((if t.arg 9 1 = 1 then s.ackRec k.val else s).done c stOk s.errs.recs[k].bytes) := by
  have hrec : s.errs.recs[k.val]? = some s.errs.recs[k] := Vector.getElem?_eq_getElem k.isLt
  refine next_command h (all_good_one (decide_eq_false (by omega))) rfl ?_
  simp only [hk, hrec, Option.getD_some]

theorem exec_selftest_ready (h : s.standsReady c t ⟨0x0706, [(8, 4, 0xFF)], [.service], true⟩ = true)
    (hports : (t.arg 8 4).testBit 3 = true → ∀ k : Fin 16, s.ports[k].state = .off ∨ s.ports[k].state = .fault) (fails : BitVec 32) :
    exec (.selftest c fails) s = .next (s.done c stOk
      (leBytes 4 (t.arg 8 4 - (t.arg 8 4 &&& fails.toNat)) ++ leBytes 4 (t.arg 8 4 &&& fails.toNat))) := by
  have hfree : ¬ ((t.arg 8 4).testBit 3 && s.ports.any fun x => x.state != .off && x.state != .fault) = true := by
    simp only [Bool.and_eq_true, Vector.any_eq_true, not_and, not_exists, bne_iff_ne, ne_eq]
    intro hloop k hk hoff hfault
    exact (hports hloop ⟨k, hk⟩).elim hoff hfault
  exact next_command h rfl rfl (if_neg hfree)

/-- PERTURB_SET's own work (R455, R456), before its completion. -/
def State.perturbWork (s : State) (t : Taken) : State :=
  (if t.arg 8 1 = 0 then s.perturbClear else if t.arg 9 1 = 1 then s.perturbOn (t.arg 8 1) (t.arg 10 2) (t.arg 12 4)
    else s.perturbOff (t.arg 8 1) (t.arg 10 2)).ptbRefresh

theorem exec_perturbSet_ready (h : s.standsReady c t ⟨0x0705, [(8, 1, 0xFF), (9, 1, 1), (10, 2, 0xFFFF), (12, 4, 0xFFFFFFFF)],
      if s.flag .PTB_CFG_RUN_ENABLE then [.service, .run] else [.service], true⟩ = true)
    (hranges : (perturbRanges t).all (fun b => !b.2) = true) :
    exec (.perturbSet c) s = .next (if ptbDisable then s.done c stNotPermitted []
      else (s.perturbWork t).done c stOk [BitVec.ofNat 8 (s.perturbWork t).ptbControls]) := by
  refine (congrArg Host.Outcome.next (State.command_gate h hranges _)).trans ?_
  cases ptbDisable <;> rfl

theorem exec_traceConfig_ready (h : s.standsReady c t ⟨0x0704, [(8, 1, 0x0F), (9, 1, 0xFF), (10, 2, 0x81FF), (12, 2, 0xFFFF), (14, 1, 1),
      (15, 1, 0x1F), (16, 8, 0xFFFFFFFFFFFFFFFF)], modesURHV, true⟩ = true) {ring : Bool} (hring : (t.arg 8 1 / 2 % 2 == 1) = ring)
    (hsize : (if ring then decide (t.arg 9 1 < 6) || decide (t.arg 9 1 > 20) else t.arg 9 1 != 0) = false)
    (hbase : (if ring then t.arg 16 8 % 64 != 0 else t.arg 16 8 != 0) = false) {u v : State}
    (hu : u = (((s.traceEnable false).setFld .TRC_CTRL_DEST ring.toNat).setFld .TRC_CTRL_STOP_FULL (t.arg 8 1 / 4)).setFld .TRC_CTRL_EVENTS
      (t.arg 8 1 / 8))
    (hv : v = if ring then ((u.setFld .TRC_RING_CFG_SIZE (t.arg 9 1)).setReg .TRC_RING_BASE_LO (BitVec.ofNat 32 (t.arg 16 8))).setReg
      .TRC_RING_BASE_HI (BitVec.ofNat 32 (t.arg 16 8 / 2 ^ 32)) else u) :
    exec (.traceConfig c) s = .next ((((((v.setFld .TRC_FILT_INST_INST (t.arg 10 2)).setFld .TRC_FILT_INST_ALL (t.arg 10 2 / 2 ^ 15)).setFld
      .TRC_FILT_TRUNK_TRUNKS (t.arg 12 2)).setFld .TRC_FILT_TRUNK_NO_TRUNK (t.arg 14 1)).setReg .TRC_FILT_CLASS (BitVec.ofNat 32 (t.arg 15 1))
      |>.traceEnable (t.arg 8 1 % 2 == 1)).done c stOk []) := by
  subst hring hu hv
  exact next_command h (all_good_two hsize hbase) rfl rfl

end

/-- Settles O18. -/
theorem serviceCommandsComplete : Obligations.ServiceCommandsComplete := by
  unfold Obligations.ServiceCommandsComplete
  intro s c t
  refine ⟨fun h k hk => ?errlog, exec_selftest_ready, fun h hr => ⟨_, rfl, exec_perturbSet_ready h hr⟩, fun h => ⟨fun hb hsize hbase => ?plain,
    fun hb h6 h20 hbase => ?ring⟩⟩
  case errlog => rw [exec_errlogRead_ready h hk, State.ackRec_fin]; rfl
  case plain =>
    rw [testBit_one_eq] at hb
    exact exec_traceConfig_ready h hb (by simp [hsize]) (by simp [hbase]) rfl rfl
  case ring =>
    rw [testBit_one_eq] at hb
    exact exec_traceConfig_ready h hb (by simp; omega) (by simp [hbase]) rfl rfl

end Sys2Proof.Machine
end

section
/-!
PROOFS. Instances made and unmade (O19), frozen and moved (O20).
-/

namespace Sys2Proof.Machine

/-! Commands that name an instance, which the part may not have (R317); commands that read host memory first (R449). -/

section
variable {s r : State} {c : CmdRef} {t : Taken} {fr : Frame} {ranges : Taken → List (Nat × Bool)} {permitted : Taken → Bool}
  {act : Taken → State}

/-- A command whose first range is that of the instance number at byte 8. -/
theorem State.command_within {n : Nat} {bad : Bool} {l : List (Nat × Bool)} (h : s.standsReady c t fr = true)
    (hranges : ranges t = (8, bad) :: l) (hbad : bad = !decide (n < maxInstances)) (hgood : l.all (fun x => !x.2) = true)
    (hlater : ∀ x ∈ l, 8 ≤ x.1) (hperm : permitted t = true) (hact : act t = r) : s.command c fr ranges permitted act = s.within c n r := by
  unfold State.within
  by_cases hn : n < maxInstances
  · have hall : (ranges t).all (fun x => !x.2) = true := by rw [hranges, List.all_cons, hgood, hbad, decide_eq_true hn]; rfl
    rw [if_pos hn, State.command_ready h hall hperm, hact]
  · have hfirst : ranges t = (8, true) :: l := by rw [hranges, hbad, decide_eq_false hn]; rfl
    rw [if_neg hn, State.command_bad h hfirst hlater]

theorem decide_ge_eq (a b : Nat) : decide (a ≥ b) = !decide (a < b) := (decide_eq_decide.mpr Nat.not_lt.symm).trans decide_not

theorem badInst_eq (h : 1 ≤ t.arg 8 2) : badInst t = [(8, !decide (t.arg 8 2 < maxInstances))] := by
  have hne : (t.arg 8 2 == 0) = false := beq_eq_false_iff_ne.mpr (by omega)
  rw [badInst, hne, Bool.false_or, decide_ge_eq]

/-- The data fit a read whose length is theirs. -/
theorem State.readFits_of_length {opcode : Nat} {want : Taken → Option Nat} {e : ReadEnd} {data : List Byte} (h : s.taken c = some t)
    (hlen : ∀ n, want t = some n → data.length = n) : s.readFits c opcode want e data = true := by
  cases hw : want t with
  | none => simp [State.readFits, h, hw]
  | some n => simp [State.readFits, h, hw, hlen n hw]

/-- A meaning that guards its operands, where they fit. -/
theorem guarded_eq {ok : Bool} {u : State} (hok : ok = true) (hu : u = r) : guarded ok u = .next r := by rw [hu, guarded_next hok]

theorem State.cmdRead_ok (s : State) (c : CmdRef) (addr bytes : Nat) :
    s.cmdRead c addr bytes .ok = s.emit (.hostRead (s.pasidOf c.inst.val) (BitVec.ofNat 64 addr) bytes) := rfl

end

/-! Creation (R296, R323). -/

/-- Fresh sources are a matter of the gutter alone. -/
theorem State.freshSources_eq (s : State) (blocks : List Nat) :
    s.freshSources blocks = { s with gutter := (s.freshSources blocks).gutter } := by
  unfold State.freshSources
  generalize (blocks.flatMap fun b => (List.range 8).map fun r => 256 + 8 * b + r) = l
  induction l generalizing s with
  | nil => rfl
  | cons n l ih => rw [List.foldl_cons, ih]

theorem State.carve_eq (s : State) (i pasid : Nat) (a : Ask) : s.carve i pasid a =
    { s with regs := (s.carve i pasid a).regs, latch := (s.carve i pasid a).latch, gutter := (s.carve i pasid a).gutter
             insts := (s.carve i pasid a).insts } := by
  simp only [State.carve]
  rw [State.freshSources_eq]
  rfl

theorem State.carve_insts (s : State) (i pasid : Nat) (a : Ask) : (s.carve i pasid a).insts = kput Instance.init s.insts i
    { Instance.init with
      state := .active, pasid := BitVec.ofNat 20 pasid, routes := Routes.all
      shares := ⟨a.ctx, a.words, a.weight, s.takeBlocks a.blocks, a.vecFirst, a.vecs, a.slots⟩ } := by
  simp only [State.carve]
  rw [State.freshSources_eq]
  rfl

theorem State.carve_inst {s : State} (hs : ksorted s.insts = true) (i pasid : Nat) (a : Ask) : (s.carve i pasid a).inst i =
    { Instance.init with
      state := .active, pasid := BitVec.ofNat 20 pasid, routes := Routes.all
      shares := ⟨a.ctx, a.words, a.weight, s.takeBlocks a.blocks, a.vecFirst, a.vecs, a.slots⟩ } := by
  rw [State.inst, State.carve_insts, kget_kput_same _ _ _ _ hs]

theorem State.carve_inst_ne (s : State) {i j : Nat} (pasid : Nat) (a : Ask) (h : j ≠ i) : (s.carve i pasid a).inst j = s.inst j := by
  rw [State.inst, State.carve_insts, kget_kput_ne _ _ _ _ _ h]
  rfl

/-- The frame of INST_CREATE. -/
def createFrame : Frame :=
  ⟨0x0101, [(8, 2, 0xFFFF), (10, 3, 0xFFFFF), (13, 1, 0xFF), (14, 2, 0xFFFF), (16, 4, 0xFFFFFFFF), (20, 1, 0xFF), (22, 2, 0xFFFF),
    (24, 2, 0xFFFF), (32, 32, 2 ^ 256 - 1)], modesURHV, true⟩

section
variable {s r : State} {c : CmdRef} {t : Taken} {i : Nat}

/-- The number that INST_CREATE means is one the part has, unless it is named. -/
theorem State.createNumber_range (hn : s.createNumber t = some i) (hlow : 1 ≤ t.arg 8 2) :
    (t.arg 8 2 != 0xFFFF && (t.arg 8 2 == 0 || decide (t.arg 8 2 ≥ maxInstances))) = !decide (i < maxInstances) := by
  by_cases hany : t.arg 8 2 = 0xFFFF
  · rw [State.createNumber, if_pos hany] at hn
    have hi : i < maxInstances := List.mem_range.mp (List.mem_of_mem_drop (List.mem_of_find?_eq_some hn))
    simp [hany, hi]
  · rw [State.createNumber, if_neg hany] at hn
    obtain rfl := Option.some.inj hn
    have hne : t.arg 8 2 ≠ 0 := by omega
    rw [bne_iff_ne.mpr hany, beq_eq_false_iff_ne.mpr hne, Bool.true_and, Bool.false_or, decide_ge_eq]

theorem exec_instCreate_ready (h : s.standsReady c t createFrame = true) (hn : s.createNumber t = some i) (hlow : 1 ≤ t.arg 8 2)
    (hpasid : s.pasidUsed i (t.arg 10 3) = false) (hweight : t.arg 13 1 ≠ 0) (hblocks : t.arg 20 1 ≤ 224) (hfree : (s.inst i).state = .free)
    (hpools : s.poolsHold i (askOf t.entry) = true)
    (hr : (match ((s.carve i (t.arg 10 3) (askOf t.entry)).inst i).shares.blocks with
      | b :: _ => (s.carve i (t.arg 10 3) (askOf t.entry)).done c stOk (leBytes 2 i ++ leBytes 2 (256 + 8 * b))
      | [] => (s.carve i (t.arg 10 3) (askOf t.entry)).freeWord.2.done c stOk
          (leBytes 2 i ++ leBytes 2 ((s.carve i (t.arg 10 3) (askOf t.entry)).freeWord.1.toNat % 2 ^ 16))) = r) :
    exec (.instCreate c) s = .next (s.within c i r) := by
  refine congrArg Host.Outcome.next (State.command_within h rfl (State.createNumber_range hn hlow) ?_ (by simp) rfl ?_)
  · simp [hn, hpasid, hweight, hblocks]
  · subst hr
    simp only [hn, hfree, hpools, bne_self_eq_false, Bool.false_eq_true, if_false, if_true] <;> rfl

/-! Shares, resets and destruction (R296, R326, R330, R332). -/

theorem exec_instReset_ready (h : s.standsReady c t (instFrame 0x0103 modesURHV []) = true) (hlow : 1 ≤ t.arg 8 2)
    (hlives : (s.inst (t.arg 8 2)).lives = true) :
    exec (.instReset c) s = .next (s.within c (t.arg 8 2) ((s.startReset (t.arg 8 2) false (some c)).wait c [])) :=
  congrArg Host.Outcome.next (State.command_within h (badInst_eq hlow) rfl rfl nofun rfl (if_pos hlives))

theorem exec_instDestroy_ready (h : s.standsReady c t (instFrame 0x0102 modesURHV []) = true) (hlow : 1 ≤ t.arg 8 2)
    (hlives : (s.inst (t.arg 8 2)).lives = true) :
    exec (.instDestroy c) s = .next (s.within c (t.arg 8 2) ((s.startReset (t.arg 8 2) true (some c)).wait c [])) :=
  congrArg Host.Outcome.next (State.command_within h (badInst_eq hlow) rfl rfl nofun rfl (if_pos hlives))

end

/-- Settles O19. -/
theorem instancesAreMadeAndUnmade : Obligations.InstancesAreMadeAndUnmade := by
  unfold Obligations.InstancesAreMadeAndUnmade
  intro s c t
  refine ⟨fun h i hn hlow hpasid hweight hblocks hfree hpools hs => ?create,
    fun h hrange hlives hgrow huse h0 h1 h2 h3 h4 h5 hfirst => ?share, exec_instReset_ready, exec_instDestroy_ready⟩
  case create =>
    have hinst := State.carve_inst hs i (t.arg 10 3) (askOf t.entry)
    have hexec := fun r => exec_instCreate_ready (r := r) h hn hlow hpasid hweight hblocks hfree hpools
    refine ⟨s.carve i (t.arg 10 3) (askOf t.entry), hinst, fun j hj => State.carve_inst_ne s _ _ hj, State.carve_eq _ _ _ _,
      fun b l hb => hexec _ ?_, fun hb => ⟨(s.carve i (t.arg 10 3) (askOf t.entry)).freeWord.1.toNat % 2 ^ 16, hexec _ ?_⟩⟩
    · rw [hinst]
      simp only [askOf, hb]
    · rw [hinst]
      simp only [askOf, hb]
      rw [State.carve_eq]
      rfl
  case share =>
    refine next_command h ?_ rfl ?_
    · have hweight : (if (t.arg 10 1).testBit 3 then t.arg 13 1 == 0 else t.arg 13 1 != 0) = false := by
        split at h3 <;> simp_all
      have hblocks : (if (t.arg 10 1).testBit 4 then decide (t.arg 20 1 > 224) else t.arg 20 1 != 0) = false := by
        split at h4 <;> simp_all
      have hvec : (t.arg 22 2 != 0 && !((t.arg 10 1).testBit 5 && t.arg 22 2 == (s.inst (t.arg 8 2)).shares.vecFirst)) = false := by
        rcases hfirst with e | ⟨e5, e⟩
        · simp [e]
        · simp [e5, e]
      simp only [List.all_cons, List.all_nil, hweight, hblocks, hvec]
      grind
    · have hlives' : (s.inst (changeOf t).inst).lives = true := hlives
      simp only [hlives', hgrow, huse, Bool.not_true, Bool.false_eq_true, if_false]

/-! Freezing and thawing, saving and restoring (R333–R340). -/

section
variable {s : State} {c : CmdRef} {t : Taken}

theorem exec_instFreeze_ready (hlow : 1 ≤ t.arg 8 2) (h : s.standsReady c t (instFrame 0x0106 modesRH [(12, 4, 0xFFFFFFFF)]) = true)
    (hactive : (s.inst (t.arg 8 2)).state = .active) {f : Nat} (hf : s.namedCourse (t.arg 12 4) (s.course.count.toNat + 2) = some f) :
    exec (.instFreeze c) s = .next (s.within c (t.arg 8 2)
      ((s.modInst (t.arg 8 2) fun x => { x with freezeAt := some (max f (s.committed + 1)) }).wait c
        ([0, 0, 0, 0] ++ leBytes 4 (max f (s.committed + 1))) (max f (s.committed + 1)))) := by
  refine congrArg Host.Outcome.next (State.command_within h
    (show badInst t ++ [(12, (s.namedCourse (t.arg 12 4) (s.course.count.toNat + 2)).isNone)] = _ by rw [badInst_eq hlow]; rfl) rfl ?_
    (by simp) rfl ?_)
  · simp [hf]
  · simp only [hf, hactive, bne_self_eq_false, Bool.false_eq_true, if_false]
    rfl

theorem exec_instThaw_ready (hlow : 1 ≤ t.arg 8 2) (h : s.standsReady c t (instFrame 0x0109 modesRH [(12, 4, 0xFFFFFFFF)]) = true)
    (hfrozen : (s.inst (t.arg 8 2)).state = .frozen) {b : Nat}
    (hb : s.namedCourse (t.arg 12 4) (max (s.course.count.toNat + 2) (s.restoreBound (t.arg 8 2))) = some b) :
    exec (.instThaw c) s = .next (s.within c (t.arg 8 2)
      ((s.modInst (t.arg 8 2) fun x => { x with thawAt := some b }).wait c ([0, 0, 0, 0] ++ leBytes 4 b) b)) := by
  refine congrArg Host.Outcome.next (State.command_within h
    (show badInst t ++ [(12, (s.namedCourse (t.arg 12 4) (max (s.course.count.toNat + 2) (s.restoreBound (t.arg 8 2)))).isNone)] = _ by
      rw [badInst_eq hlow]; rfl) rfl ?_ (by simp) rfl ?_)
  · simp [hb]
  · simp only [hb, hfrozen, bne_self_eq_false, Bool.false_eq_true, if_false]
    rfl

theorem exec_instSave_ready (hlow : 1 ≤ t.arg 8 2)
    (h : s.standsReady c t (instFrame 0x0107 modesURHV [(16, 8, 2 ^ 64 - 1), (24, 4, 0xFFFFFFFF)]) = true)
    (hfrozen : (s.inst (t.arg 8 2)).state = .frozen) (hquiet : (s.inst (t.arg 8 2)).quiescent = true) (halign : t.arg 16 8 % 64 = 0)
    (hroom : (s.image (t.arg 8 2)).length ≤ t.arg 24 4) :
    exec (.instSave c) s = .next (s.within c (t.arg 8 2)
      ((State.postBytes (s.pasidOf 0) (s.image (t.arg 8 2)).length (t.arg 16 8) (s.image (t.arg 8 2)) s).done c stOk
        (leBytes 4 (s.image (t.arg 8 2)).length))) := by
  refine congrArg Host.Outcome.next (State.command_within h
    (show badInst t ++ [(16, t.arg 16 8 % 64 != 0)] = _ by rw [badInst_eq hlow]; rfl) rfl ?_ (by simp) rfl ?_)
  · simp [halign]
  · simp only [hfrozen, hquiet, Nat.not_lt.mpr hroom, bne_self_eq_false, Bool.not_true, Bool.or_self, Bool.false_eq_true, if_false]

theorem exec_instRestore_ready (hlow : 1 ≤ t.arg 8 2) {image : List Byte}
    (h : s.standsReady c t (instFrame 0x0108 (if imageScheduled image then [Mode.run] else modesURHV)
      [(10, 3, 0xFFFFF), (16, 8, 2 ^ 64 - 1), (24, 4, 0xFFFFFFFF)]) = true) (hfree : (s.inst (t.arg 8 2)).state = .free)
    (hpasid : s.pasidUsed (t.arg 8 2) (t.arg 10 3) = false) (halign : t.arg 16 8 % 64 = 0) (hlen : image.length = t.arg 24 4) :
    exec (.instRestore c image .ok) s = .next (s.within c (t.arg 8 2)
      ((s.emit (.hostRead (s.pasidOf c.inst.val) (BitVec.ofNat 64 (t.arg 16 8)) (t.arg 24 4))).restore c (t.arg 8 2) (t.arg 10 3) image)) := by
  have hfits : s.readFits c 0x0108 (fun t => some (t.arg 24 4)) .ok image = true :=
    State.readFits_of_length (State.standsReady_taken h) fun n hn => Option.some.inj hn ▸ hlen
  refine guarded_eq hfits (State.command_within h
    (show badInst t ++ [(10, s.pasidUsed (t.arg 8 2) (t.arg 10 3)), (16, t.arg 16 8 % 64 != 0)] = _ by rw [badInst_eq hlow]; rfl) rfl ?_
    (by simp) rfl ?_)
  · simp [hpasid, halign]
  · simp only [hfree, bne_self_eq_false, Bool.false_eq_true, if_false]
    rfl

end

theorem exec_engineEpochAck_done {s : State} {e : Fin 16} {i : Fin 512} {r r' : ResetRun} (hr : (s.inst i.val).reset = some r)
    (hst : (s.inst i.val).state = .resetting) (hold : s.oldWork i.val e = false)
    (hr' : r' = { r with acked := r.acked ||| BitVec.ofNat 16 (2 ^ e.val) }) : exec (.engineEpochAck e i) s =
      .next (if r'.acked = 0xFFFF then s.endReset i.val r' else s.modInst i.val fun x => { x with reset := some r' }) := by
  subst hr'
  have hexec : exec (.engineEpochAck e i) s = execEngineEpochAck e i s := rfl
  simp only [hexec, execEngineEpochAck, hr, hst, hold, bne_self_eq_false, Bool.or_self, Bool.false_eq_true, if_false]

theorem exec_instanceQuiescent_drained {s : State} {i : Fin 512} (hst : (s.inst i.val).state = .frozen)
    (hq : (s.inst i.val).quiescent = false) (hd : s.drained i.val = true) : exec (.instanceQuiescent i) s =
      .next ((s.modInst i.val fun x => { x with quiescent := true }).happen .INST_EVENT_QUIESCENT 7) := by
  have hready : ((s.inst i.val).state == .frozen && !(s.inst i.val).quiescent && s.drained i.val) = true := by rw [hst, hq, hd]; rfl
  exact congrArg Host.Outcome.next (if_pos hready)

/-- Settles O20. -/
theorem instancesAreFrozenAndMoved : Obligations.InstancesAreFrozenAndMoved := by
  unfold Obligations.InstancesAreFrozenAndMoved
  refine ⟨fun s c t hlow => ⟨fun h hst f => exec_instFreeze_ready hlow h hst, fun h hst b => exec_instThaw_ready hlow h hst,
    exec_instSave_ready hlow, fun image => exec_instRestore_ready hlow⟩, fun s e i r r' => exec_engineEpochAck_done,
    fun s i => exec_instanceQuiescent_drained⟩

end Sys2Proof.Machine
end

section
/-!
PROOFS. Port commands (O21) and tree commands (O22): what each does where it is ready.
-/

namespace Sys2Proof.Machine

/-! Port commands (R298). -/

section
variable {s : State} {c : CmdRef} {t : Taken} {p : PortRef} {x : Port}

theorem State.portReady_port {fr : Frame} (h : s.portReady c t fr p x = true) : s.port p = some x := by
  simp only [State.portReady, Bool.and_eq_true, beq_iff_eq] at h
  exact h.1.2

theorem State.portCode_of_port (h : s.port p = some x) : s.portCode p = [BitVec.ofNat 8 x.state.code] := by
  simp only [State.portCode, h, Option.map_some, Option.getD_some]

/-- Power on, of a port that has power. -/
theorem State.portOn_powered (hp : s.port p = some x) (hoff : x.state ≠ .off) (hfault : x.state ≠ .fault) :
    s.portOn c p x = s.done c stOk [BitVec.ofNat 8 x.state.code] := by
  rw [State.portOn, if_pos (by simp [hoff, hfault]), State.portCode_of_port hp]

/-- Power on, of a root port without power. -/
theorem State.portOn_root {k : Fin 16} (h : x.state = .off ∨ x.state = .fault) : s.portOn c (.root k) x =
    { (s.wait c []).modPort (.root k) (fun y => { y with state := .off, cause := .none }) with
      ppm := vmod s.ppm k.val fun y => { y with onReq := true, offReq := false } } := by
  rw [State.portOn, if_neg (by rcases h with h | h <;> simp [h])]
  rfl

/-- The work of PORT_POWER (R298, R299). -/
def State.powerWork (s : State) (c : CmdRef) (t : Taken) (p : PortRef) (x : Port) : State :=
  if t.arg 13 1 % 2 = 1 then
    match p with
    | .hub h _ => if ((s.dev h).map (·.tier)).getD 0 = 0 then s.done c stWrongMode [] else s.portOn c p x
    | _ => s.portOn c p x
  else if t.arg 13 1 = 0 && s.admittedBelow p true then s.done c stBusy []
  else s.portCut c p

theorem exec_portPower_ready (h : s.portReady c t (paFrame 0x0201 modesURHV true [(13, 1, 3)]) p x = true) (harg : t.arg 13 1 ≤ 2) :
    exec (.portPower c) s = .next (s.powerWork c t p x) :=
  next_portCommand h (all_good_one (by simp; omega)) rfl rfl

theorem exec_portReset_ready (h : s.portReady c t (paFrame 0x0202 modesURHV false []) p x = true)
    (hbound : s.boundPort c.inst.val p = true) (hst : x.state = .disabled ∨ x.state = .enabled ∨ x.state = .suspended) :
    exec (.portReset c) s = .next ((s.wait c []).firmwareReset p) :=
  next_portCommand h rfl hbound (if_pos (by rcases hst with e | e | e <;> rw [e] <;> rfl))

/-- A port is asked to suspend, to resume, or to train at HR: a root port by the hardware, a hub port through its hub. -/
def State.suspendPort (s : State) (p : PortRef) : State :=
  match p with
  | .hub h q => s.hubFeature h q true 3
  | _ => s.modPort p fun y => { y with suspendReq := true }

def State.resumePort (s : State) (p : PortRef) : State :=
  match p with
  | .hub h q => s.hubFeature h q true 4
  | _ => (s.modPort p fun y => { y with state := .resuming, wakeFor := .resume, remoteWake := false, byHub := false }).emit
      (.blocks (.up p) [ctlBlock cWake 0xAAAAAAA])

def State.openHr (s : State) (p : PortRef) : State :=
  match p with
  | .root k => (s.setFld .TRK_CTRL_HR_EN 1 k.val).firmwareReset p
  | _ => (s.modPort p fun y => { y with hrEn := true }).firmwareReset p

theorem exec_portSuspend_ready (h : s.portReady c t (paFrame 0x0203 modesURHV false []) p x = true)
    (hbound : s.boundPort c.inst.val p = true) (hst : x.state = .enabled) (hflows : s.admittedBelow p false = false) :
    exec (.portSuspend c) s = .next ((s.wait c []).suspendPort p) := by
  refine next_portCommand h rfl hbound ?_
  simp only [hst, hflows, bne_self_eq_false, Bool.false_eq_true, if_false]
  cases p <;> rfl

theorem exec_portResume_joins (h : s.portReady c t (paFrame 0x0204 modesURHV false []) p x = true)
    (hbound : s.boundPort c.inst.val p = true) (hst : x.state = .resuming) : exec (.portResume c) s = .next (s.wait c []) := by
  refine next_portCommand h rfl hbound ?_
  rw [hst]
  rfl

/-- A suspended port sends WAKE. -/
theorem State.requestResume_suspended (hp : s.port p = some x) (hst : x.state = .suspended) : s.requestResume p false =
    (s.modPort p fun y => { y with state := .resuming, wakeFor := .resume, remoteWake := false, byHub := false }).emit
      (.blocks (.up p) [ctlBlock cWake 0xAAAAAAA]) := by
  simp only [State.requestResume, hp, hst, beq_self_eq_true, if_true]

theorem State.port_wait (p : PortRef) : (s.wait c []).port p = s.port p := by cases p <;> rfl

theorem exec_portResume_suspended (h : s.portReady c t (paFrame 0x0204 modesURHV false []) p x = true)
    (hbound : s.boundPort c.inst.val p = true) (hst : x.state = .suspended) : exec (.portResume c) s = .next ((s.wait c []).resumePort p) := by
  have hp : (s.wait c []).port p = some x := (State.port_wait p).trans (State.portReady_port h)
  have hresuming : ¬ (x.state == .resuming) = true := by rw [hst]; decide
  have hother : ¬ (x.state != .suspended) = true := by rw [hst]; decide
  refine next_portCommand h rfl hbound ?_
  rw [if_neg hresuming, if_neg hother]
  cases p with
  | hub h q => rfl
  | root k => exact State.requestResume_suspended hp hst
  | ga => exact State.requestResume_suspended hp hst

theorem exec_linkRate_step (h : s.portReady c t (paFrame 0x020A modesURHV true [(13, 1, 0xFF)]) p x = true) (harg : t.arg 13 1 = 1)
    (hst : x.state = .enabled) {y : Port} (hy : (s.requestStep p).port p = some y) :
    exec (.linkRate c) s = .next ((s.requestStep p).done c stOk ([BitVec.ofNat 8 y.state.code, 0, 0, 0] ++
      leBytes 4 (if y.stepPending then (if y.stepFrom = 0 then (s.requestStep p).boundaryIn 8 else y.stepFrom) else 0))) := by
  have hcode : (s.requestStep p).portCode p = [BitVec.ofNat 8 y.state.code] := State.portCode_of_port hy
  refine next_portCommand h (all_good_one (by simp [harg])) rfl ?_
  simp only [harg, if_true, hst, bne_self_eq_false, Bool.false_eq_true, if_false, hy, hcode]
  rfl

/-- A link at BR steps no further down. -/
theorem State.requestStep_br (h : s.rateOf p = some .br) : s.requestStep p = s := by
  rw [State.requestStep, h]
  exact if_neg (by simp)

theorem exec_linkRate_up (h : s.portReady c t (paFrame 0x020A modesURHV true [(13, 1, 0xFF)]) p x = true) (harg : t.arg 13 1 = 2)
    (hst : x.state = .disabled ∨ x.state = .enabled ∨ x.state = .suspended) :
    exec (.linkRate c) s = .next (((s.wait c []).modPort p fun y => { y with hrFails := 0 }).openHr p) := by
  have hstate : (x.state == .disabled || x.state == .enabled || x.state == .suspended) = true := by rcases hst with e | e | e <;> rw [e] <;> rfl
  refine next_portCommand h (all_good_one (by simp [harg])) rfl ?_
  simp only [harg, Nat.reduceEqDiff, if_false, hstate, if_true]
  cases p <;> rfl

theorem exec_linkMargin_root {k : Fin 16} (h : s.portReady c t (paFrame 0x0209 modesURHV false [(13, 1, 1)]) (.root k) x = true)
    (hrouted : s.routedPort c.inst.val (.root k) = true) :
    exec (.linkMargin c) s = .next ((if t.arg 13 1 = 1 then s.modPort (.root k) fun y => { y with ledger := y.ledger.cleared } else s).done c stOk
      (leBytes 4 x.ledger.blk.toNat ++ leBytes 4 x.ledger.crc.toNat ++ leBytes 4 x.ledger.retry.toNat ++ leBytes 4 x.ledger.eye ++
        [BitVec.ofNat 8 (rateCode x.linkRate), 0])) := by
  refine next_portCommand h rfl hrouted ?_
  simp only [State.portReady_port h]

end

/-- Settles O21. -/
theorem portCommandsComplete : Obligations.PortCommandsComplete := by
  unfold Obligations.PortCommandsComplete
  intro s c t p x
  refine ⟨fun h => ⟨fun harg k hp hst => ?on, fun harg hoff hfault htier => ?powered, fun harg hbusy => ?off⟩, exec_portReset_ready,
    fun h hb hst hflows => ?suspend, fun h hb => ⟨exec_portResume_joins h hb, fun hst => ?resume⟩,
    fun h => ⟨fun harg hst hrate => ?br, fun harg hst y => exec_linkRate_step h harg hst, fun harg hst u hu => ?hr⟩,
    fun h hrouted k hp => ?margin⟩
  case on =>
    subst hp
    rw [exec_portPower_ready h (by omega)]
    refine congrArg Host.Outcome.next ?_
    unfold State.powerWork
    rw [if_pos (by omega)]
    exact State.portOn_root hst
  case powered =>
    rw [exec_portPower_ready h (by omega)]
    refine congrArg Host.Outcome.next ?_
    unfold State.powerWork
    rw [if_pos (by omega)]
    cases p with
    | hub d q => exact (if_neg (htier d q rfl)).trans (State.portOn_powered (State.portReady_port h) hoff hfault)
    | root k => exact State.portOn_powered (State.portReady_port h) hoff hfault
    | ga => exact State.portOn_powered (State.portReady_port h) hoff hfault
  case off =>
    rw [exec_portPower_ready h (by omega)]
    refine congrArg Host.Outcome.next ?_
    unfold State.powerWork
    rw [if_neg (by omega), if_neg]
    rcases harg with e | e
    · simp [e, hbusy e]
    · simp [e]
  case suspend => rw [exec_portSuspend_ready h hb hst hflows]; cases p <;> rfl
  case resume => rw [exec_portResume_suspended h hb hst]; cases p <;> rfl
  case hr => subst hu; rw [exec_linkRate_up h harg hst]; cases p <;> rfl
  case br =>
    have hp : (s.requestStep p).port p = some x := by rw [State.requestStep_br hrate]; exact State.portReady_port h
    rw [exec_linkRate_step h harg hst hp, State.requestStep_br hrate]
  case margin =>
    subst hp
    exact exec_linkMargin_root h hrouted

/-! Tree commands (R298, R299). -/

section
variable {s : State} {c : CmdRef} {t : Taken}

/-- The frame of TREE_ENUMERATE. -/
def enumerateFrame : Frame := ⟨0x0206, [(8, 1, 0x0F), (9, 1, 1), (10, 2, 0xFFFF), (16, 8, 2 ^ 64 - 1)], modesURHV, true⟩

theorem exec_treeEnumerate_plain (h : s.standsReady c t enumerateFrame = true) {k : Fin 16} (hk : t.arg 8 1 = k.val) (huse : t.arg 9 1 = 0)
    (hn : t.arg 10 2 = 0) (haddr : t.arg 16 8 = 0) (map : List Byte) : exec (.treeEnumerate c map .ok) s = .next (s.treeWalk c k) := by
  refine guarded_eq (State.readFits_of_length (State.standsReady_taken h) (by simp [huse]))
    ((State.command_ready h (all_good_two (by simp [huse, hn]) (by simp [huse, haddr])) rfl _).trans ?_)
  simp only [huse, finOfNat_of_eq hk, Nat.reduceBEq, Bool.false_eq_true, if_false]

theorem exec_treeEnumerate_map (h : s.standsReady c t enumerateFrame = true) {k : Fin 16} (hk : t.arg 8 1 = k.val) (huse : t.arg 9 1 = 1)
    (hlow : 1 ≤ t.arg 10 2) (hhigh : t.arg 10 2 ≤ 4064) (halign : t.arg 16 8 % 64 = 0) {map : List Byte} (hlen : map.length = 4 * t.arg 10 2)
    {l : List MapEntry} (hl : mapEntries k map (t.arg 10 2) = some l) : exec (.treeEnumerate c map .ok) s = .next (State.treeWalk
      { s.emit (.hostRead (s.pasidOf c.inst.val) (BitVec.ofNat 64 (t.arg 16 8)) (4 * t.arg 10 2)) with
        amap := (s.amap.filter fun (m : MapEntry) => m.trunk != k) ++ l } c k) := by
  have hne : ¬ t.arg 10 2 = 0 := by omega
  refine guarded_eq (State.readFits_of_length (State.standsReady_taken h) (by simp [huse, hlen]))
    ((State.command_ready h (all_good_two (by simp [huse, hhigh]) (by simp [huse, halign])) rfl _).trans ?_)
  simp only [huse, finOfNat_of_eq hk, beq_self_eq_true, if_true, if_neg hne, State.cmdRead_ok, bne_self_eq_false, Bool.false_and,
    Bool.false_eq_true, if_false, hl]
  rfl

theorem badNode_of_range {a : Nat} (hlow : 1 ≤ a) (hhigh : a ≤ 4064) : badNode a = false := by
  have hne : (a == 0) = false := beq_eq_false_iff_ne.mpr (by omega)
  rw [badNode, hne, decide_eq_false (by omega)]
  rfl

/-- The binding of the node that a NODE_BIND names stays, or is not held. -/
def State.bindFree (s : State) (a i : Nat) : Prop := ∀ b : Binding, kget s.binds a = some b → b.inst = i ∨ s.bindBusy a = false

theorem State.bindFree.notBusy {a i : Nat} (h : s.bindFree a i) :
    ((match kget s.binds a with | some b => b.inst != i | none => false) && s.bindBusy a) = false := by
  cases hb : kget s.binds a with
  | none => rfl
  | some b => rcases h b hb with e | e <;> simp [e]

theorem exec_nodeBind_ready (h : s.standsReady c t ⟨0x0208, [(10, 2, 0x0FFF), (12, 2, 0xFFFF), (14, 1, 1)], modesURHV, true⟩ = true)
    (hlow : 1 ≤ t.arg 10 2) (hhigh : t.arg 10 2 ≤ 4064) (hnode : (kget s.nodes (t.arg 10 2)).isSome = true)
    (hfree : s.bindFree (t.arg 10 2) (t.arg 12 2))
    (hinst : (t.arg 12 2 = 0xFFFF ∧ t.arg 14 1 = 0) ∨ (t.arg 12 2 ≠ 0xFFFF ∧ t.arg 12 2 < maxInstances ∧ (s.inst (t.arg 12 2)).lives = true)) :
    exec (.nodeBind c) s = .next (State.done { s with
      binds := if t.arg 12 2 = 0xFFFF then kdel s.binds (t.arg 10 2) else kset s.binds (t.arg 10 2) ⟨t.arg 12 2, t.arg 14 1 == 1⟩ } c stOk []) := by
  have hthere : (kget s.nodes (t.arg 10 2)).isNone = false := by rw [← Option.not_isSome, hnode]; rfl
  have hbad := badNode_of_range hlow hhigh
  have hbusy := hfree.notBusy
  rcases hinst with ⟨hnone, hport⟩ | ⟨hsome, hrange, hlives⟩
  · refine next_command h (all_good_three hbad (by simp [hnone]) (by simp [hport])) rfl ?_
    rw [if_neg (by simp [hthere, hnone])]
    exact if_neg (Bool.eq_false_iff.mp hbusy)
  · refine next_command h (all_good_three hbad (by simp [hrange]) (by simp [hsome])) rfl ?_
    rw [if_neg (by simp [hthere, hlives])]
    exact if_neg (Bool.eq_false_iff.mp hbusy)

end

/-- Settles O22. -/
theorem treeCommandsComplete : Obligations.TreeCommandsComplete := by
  unfold Obligations.TreeCommandsComplete
  intro s c t
  refine ⟨fun h k map hk => ⟨fun huse hn haddr => exec_treeEnumerate_plain h hk huse hn haddr map,
    fun l huse hlow hhigh halign hlen => exec_treeEnumerate_map h hk huse hlow hhigh halign hlen⟩,
    fun h hlow hhigh hnode => ⟨fun hnone hport hfree => ?unbind, fun hrange hsome hlives hfree => ?bind⟩⟩
  case unbind =>
    rw [exec_nodeBind_ready h hlow hhigh hnode (hnone ▸ hfree) (.inl ⟨hnone, hport⟩), if_pos hnone]
  case bind => rw [exec_nodeBind_ready h hlow hhigh hnode hfree (.inr ⟨hsome, hrange, hlives⟩), if_neg hsome]

end Sys2Proof.Machine
end

section
/-!
PROOFS. Flow commands (O23) and control transfers (O24): what each does where it is ready.
-/

namespace Sys2Proof.Machine

section
variable {s : State} {c : CmdRef} {t : Taken} {ctx : Nat} {f : Flow}

/-! FLOW_OPEN (R165, R300). -/

/-- The state in which a FLOW_OPEN is decided: its safe value has been read where it names one. -/
def State.openRead (s : State) (c : CmdRef) (t : Taken) : State :=
  if t.arg 32 8 = 0 then s
  else s.emit (.hostRead (s.pasidOf c.inst.val) (BitVec.ofNat 64 (t.arg 32 8)) (8 * safeWords (t.arg 12 1) (relOf (t.arg 16 1 % 4))))

theorem exec_flowOpen_ready {safe : List Byte} {ty : FlowType} (h : s.standsReady c t (openFrame (openModes t)) = true)
    (hgood : (s.openBad c.inst.val t).all (fun b => !b.2) = true) (hbound : s.boundNode c.inst.val (t.arg 10 2) = true)
    (hty : flowTypeOf (t.arg 8 1) = some ty)
    (hlen : t.arg 32 8 ≠ 0 → safe.length = 8 * safeWords (t.arg 12 1) (relOf (t.arg 16 1 % 4))) :
    exec (.flowOpen c safe .ok .ack) s =
      .next ((s.openRead c t).flowOpenAct c t ty (if t.arg 32 8 = 0 then [] else laneWords safe) .ack) := by
  have htaken := State.standsReady_taken h
  have hexec : exec (.flowOpen c safe .ok .ack) s = execFlowOpen c safe .ok .ack s := rfl
  rw [hexec]
  unfold execFlowOpen
  simp only [htaken]
  refine guarded_eq (State.readFits_of_length htaken ?_) ((State.command_ready h hgood hbound _).trans ?_)
  · intro n hn
    by_cases haddr : t.arg 32 8 = 0
    · simp [haddr] at hn
    · rw [if_neg haddr] at hn
      exact Option.some.inj hn ▸ hlen haddr
  · simp only [hty, State.openRead]
    by_cases haddr : t.arg 32 8 = 0
    · simp only [haddr, if_true]
    · simp only [if_neg haddr]
      rfl

theorem State.flowOpenAct_admitted {ty : FlowType} {n : NodeRec} {safe : List Word} {s1 : State} {num : Nat}
    (hnode : kget s.nodes (t.arg 10 2) = some n) (hclear : (s.clearHalt n (BitVec.ofNat 4 (t.arg 9 1)) .ack).2 = .ack)
    (hadmit : s.admitOpen c t ty n safe = .ok (s1, ctx, num)) : s.flowOpenAct c t ty safe .ack =
      if ty.scheduled then (s1.clearHalt n (BitVec.ofNat 4 (t.arg 9 1)) .ack).1.wait c
        ((s1.clearHalt n (BitVec.ofNat 4 (t.arg 9 1)) .ack).1.openReply ctx num)
      else (s1.clearHalt n (BitVec.ofNat 4 (t.arg 9 1)) .ack).1.done c stOk
        ((s1.clearHalt n (BitVec.ofNat 4 (t.arg 9 1)) .ack).1.openReply ctx num) := by
  simp only [State.flowOpenAct, hnode, hadmit, hclear]

/-! FLOW_CLOSE, FLOW_MODIFY and FLOW_HOLD (R177, R178, R303). -/

theorem exec_flowClose_ready (hopen : f.closing = false) (h : s.flowReady c t (flowFrame 0x0302 modesURHV []) ctx f = true) :
    exec (.flowClose c) s = .next (if f.par.ty.scheduled then (s.closeScheduled ctx none).wait c [] else s.closeNow c ctx f) :=
  next_flowCommand h rfl (by rw [hopen]; rfl) rfl

theorem State.flowReady_flowOf {fr : Frame} (h : s.flowReady c t fr ctx f = true) : s.flowOf c.inst.val t = some (ctx, f) := by
  simp only [State.flowReady, Bool.and_eq_true, beq_iff_eq] at h
  exact h.2

/-- FLOW_MODIFY without a safe value to be read. -/
theorem exec_flowModify_plain (hopen : f.closing = false) (h : s.flowReady c t (modifyFrame (modifyModes t)) ctx f = true)
    (hgood : (s.modifyBad c.inst.val t).all (fun b => !b.2) = true) (hsafe : (t.arg 10 1).testBit 2 = false ∨ t.arg 24 8 = 0)
    (safe : List Byte) : exec (.flowModify c safe .ok) s = .next (s.modifyAct c t ctx f none) := by
  have htaken := State.standsReady_taken (State.flowReady_stands h)
  have hread : ((t.arg 10 1).testBit 2 && t.arg 24 8 != 0) = false := by rcases hsafe with e | e <;> simp [e]
  have hexec : exec (.flowModify c safe .ok) s = execFlowModify c safe .ok s := rfl
  rw [hexec]
  unfold execFlowModify
  simp only [htaken]
  refine guarded_eq (State.readFits_of_length htaken ?_) ((State.flowCommand_ready h hgood (by rw [hopen]; rfl) _).trans ?_)
  · simp only [hread, Bool.false_eq_true, if_false]
    exact nofun
  · simp only [hread, Bool.false_eq_true, if_false]

/-- FLOW_MODIFY with a safe value, which is read first. -/
theorem exec_flowModify_safe (hopen : f.closing = false) (h : s.flowReady c t (modifyFrame (modifyModes t)) ctx f = true)
    (hgood : (s.modifyBad c.inst.val t).all (fun b => !b.2) = true) {safe : List Byte} (hbit : (t.arg 10 1).testBit 2 = true)
    (haddr : t.arg 24 8 ≠ 0) (hlen : safe.length = 8 * safeWords f.par.words f.par.rel) : exec (.flowModify c safe .ok) s =
      .next ((s.emit (.hostRead (s.pasidOf c.inst.val) (BitVec.ofNat 64 (t.arg 24 8)) (8 * safeWords f.par.words f.par.rel))).modifyAct c t
        ctx f (some (laneWords safe))) := by
  have htaken := State.standsReady_taken (State.flowReady_stands h)
  have hflow := State.flowReady_flowOf h
  have hread : ((t.arg 10 1).testBit 2 && t.arg 24 8 != 0) = true := by simp [hbit, haddr]
  have hexec : exec (.flowModify c safe .ok) s = execFlowModify c safe .ok s := rfl
  rw [hexec]
  unfold execFlowModify
  simp only [htaken]
  refine guarded_eq (State.readFits_of_length htaken ?_) ((State.flowCommand_ready h hgood (by rw [hopen]; rfl) _).trans ?_)
  · simp only [hread, if_true, hflow, Option.map_some]
    exact fun n hn => Option.some.inj hn ▸ hlen
  · simp only [hread, if_true, hflow, Option.map_some]
    rfl

/-- Of the priority alone the plan does not change. -/
theorem State.modifyAct_prio (hprio : t.arg 10 1 = 2) : s.modifyAct c t ctx f none =
    (s.modFlow ctx fun g => { g with
      par := { g.par with prio := t.arg 13 1 }
      changes := g.changes.map fun ch => { ch with params := ch.params.map fun p => { p with prio := t.arg 13 1 } }
      task := { g.task with prio := t.arg 13 1 } }).done c stOk (leBytes 8 0 ++ [0, BitVec.ofNat 8 f.par.q]) := by
  have hplan : planWhat t = false := by rw [planWhat, hprio]; decide
  have hbits : (2 : Nat).testBit 1 = true ∧ (2 : Nat).testBit 2 = false := by decide
  rw [State.modifyAct, hplan]
  simp only [State.modifyNow, modifyHold, hprio, hbits.1, hbits.2, Bool.false_eq_true, if_false, if_true]

theorem exec_flowHold_ready (hopen : f.closing = false) (h : s.flowReady c t (flowFrame 0x0306 modesRH []) ctx f = true) :
    exec (.flowHold c) s = .next ((s.setCauses ctx fun k => { k with command := true }).done c stOk
      ([0, 0, 0, 0] ++ leBytes 4 (if f.par.ty.scheduled then s.committed + 1 else s.course.count.toNat))) :=
  next_flowCommand h rfl (by rw [hopen]; rfl) rfl

/-! FLOW_UNHOLD (R267, R303). -/

theorem exec_flowUnhold_ready (hopen : f.closing = false) (h : s.flowReady c t (flowFrame 0x0307 modesRH []) ctx f = true)
    (hstalled : f.causes.stalled = false) (hlasting : f.causes.bulkLasting = false) (a : Answer) :
    exec (.flowUnhold c a) s = .next (s.unholdAct c ctx) :=
  next_flowCommand h rfl (by rw [hopen]; rfl) (if_neg (by rw [hstalled, hlasting]; exact Bool.false_ne_true))

/-- A change of a scheduled flow waits for its boundary, behind the changes that wait already (R176). -/
theorem State.unholdAct_scheduled (hf : s.flow ctx = some f) (hsched : f.par.ty.scheduled = true) {b : Nat} {u : State}
    (hb : b = max (s.changeFrom f.par.lead) ((f.changes.getLast?.map (·.from_)).getD 0))
    (hu : u = s.modFlow ctx fun g => { g with changes := f.changes ++ [⟨b, false, false, true, none, false, none⟩] }) :
    s.unholdAct c ctx = u.planAgain.wait c (leBytes 8 0 ++ leBytes 2 (u.remaining f)) b := by
  subst hb hu
  simp only [State.unholdAct, hf, hsched, if_true, Flow.addChange, List.getLast?_concat, Option.map_some, Option.getD_some]

theorem State.unholdAct_unscheduled (hf : s.flow ctx = some f) (hsched : f.par.ty.scheduled = false) :
    s.unholdAct c ctx = ((s.modFlow ctx Flow.forgetLasting).setCauses ctx HoldCauses.unheld).done c stOk
      (leBytes 8 0 ++ leBytes 2 ((s.modFlow ctx Flow.forgetLasting).remaining f)) := by
  simp only [State.unholdAct, hf, hsched, Bool.false_eq_true, if_false]

/-! PLAN_CHECK (R303). -/

theorem exec_planCheck_ready (h : s.standsReady c t ⟨0x0305, [(8, 1, 0xFF), (16, 8, 2 ^ 64 - 1)], modesURHV, false⟩ = true)
    (hlow : 1 ≤ t.arg 8 1) (hhigh : t.arg 8 1 ≤ 64) (halign : t.arg 16 8 % 64 = 0) {list : List Byte} {u : State}
    (hlen : list.length = 64 * t.arg 8 1)
    (hlist : State.checkList c.inst.val ((List.range (t.arg 8 1)).map fun k => listEntry ((list.drop (64 * k)).take 64)) 0
      (s.emit (.hostRead (s.pasidOf c.inst.val) (BitVec.ofNat 64 (t.arg 16 8)) (64 * t.arg 8 1))) = .ok u)
    (hadmit : u.admitNext = none) : exec (.planCheck c list .ok) s =
      .next ((s.emit (.hostRead (s.pasidOf c.inst.val) (BitVec.ofNat 64 (t.arg 16 8)) (64 * t.arg 8 1))).done c stOk []) := by
  have hne : (t.arg 8 1 == 0) = false := beq_eq_false_iff_ne.mpr (by omega)
  refine guarded_eq (State.readFits_of_length (State.standsReady_taken h) (by simp [hlen]))
    ((State.command_ready h (all_good_two (by simp [hne, hhigh]) (by simp [halign])) rfl _).trans ?_)
  simp only [bne_self_eq_false, Bool.false_eq_true, if_false, State.cmdRead_ok, hlist, hadmit]

end

/-- Settles O23. -/
theorem flowCommandsComplete : Obligations.FlowCommandsComplete := by
  unfold Obligations.FlowCommandsComplete
  intro s c t
  refine ⟨fun safe ty n s0 s1 ctx num h hgood hbound hty hlen hs0 hnode hclear hadmit => ?flowOpen,
    fun ctx f hopen => ⟨exec_flowClose_ready hopen, fun h hgood => ⟨fun hprio safe => ?prio,
      fun hsafe safe => exec_flowModify_plain hopen h hgood hsafe safe, fun safe => exec_flowModify_safe hopen h hgood⟩,
      exec_flowHold_ready hopen, fun h hst hlast hf a => ⟨fun hsched b hb => ?unholdPlan, fun hsched => ?unholdNow⟩⟩,
    fun h hlow hhigh halign list u => exec_planCheck_ready h hlow hhigh halign⟩
  case flowOpen =>
    obtain rfl : s0 = s.openRead c t := hs0
    have hnode0 : kget (s.openRead c t).nodes (t.arg 10 2) = some n := by
      unfold State.openRead
      split <;> exact hnode
    rw [exec_flowOpen_ready h hgood hbound hty hlen, State.flowOpenAct_admitted hnode0 hclear hadmit]
  case prio =>
    rw [exec_flowModify_plain hopen h hgood (.inl (by rw [hprio]; decide)) safe, State.modifyAct_prio hprio]
  case unholdPlan =>
    exact ⟨_, rfl, by rw [exec_flowUnhold_ready hopen h hst hlast, State.unholdAct_scheduled hf hsched hb rfl]⟩
  case unholdNow => rw [exec_flowUnhold_ready hopen h hst hlast, State.unholdAct_unscheduled hf hsched]

/-! CONTROL_XFER (R83, R84, R303). -/

section
variable {s : State} {c : CmdRef} {t : Taken} {n : NodeRec}

/-- The frame of CONTROL_XFER. -/
def xferFrame : Frame := ⟨0x0308, [(10, 2, 0x0FFF), (16, 8, 2 ^ 64 - 1), (24, 8, 2 ^ 64 - 1), (32, 8, 2 ^ 64 - 1)], modesURHV, false⟩

/-- What a CONTROL_XFER has to meet beside its frame: a setup and a buffer that it may name, and a route that takes traffic. -/
structure State.XferReady (s : State) (c : CmdRef) (t : Taken) (n : NodeRec) : Prop where
  node : s.nodeReady c t xferFrame n = true
  low : wbits (xferSetup t).w1 15 12 = 0
  high : wbits (xferSetup t).w1 19 16 = 0
  buffer : if (xferSetup t).count = 0 then t.arg 32 8 = 0 else t.arg 32 8 % 64 = 0
  allowed : s.xferForbidden (t.arg 10 2) (xferSetup t) = false
  route : ∀ p ∈ n.pos.ports, ∀ x : Port, s.port p = some x → x.state ≠ .suspended

theorem State.XferReady.taken (h : s.XferReady c t n) : s.taken c = some t :=
  State.standsReady_taken (State.nodeReady_iff.mp h.node).1

theorem State.xferCommand_ready (h : s.XferReady c t n) (act : Taken → NodeRec → State) : s.xferCommand c act = act t n := by
  obtain ⟨hready, hbad, hnode, hpresent, hbound⟩ := State.nodeReady_iff.mp h.node
  have hfound : (kget s.nodes (t.arg 10 2)).filter (·.present) = some n := by rw [hnode, Option.filter_some, if_pos hpresent]
  have hbuffer : (if (xferSetup t).count = 0 then t.arg 32 8 != 0 else t.arg 32 8 % 64 != 0) = false := by
    have := h.buffer
    split at this <;> simp [*]
  have hroute : (n.pos.ports.any fun p => (match s.port p with | some x => x.state == .suspended | none => false)) = false := by
    rw [List.any_eq_false]
    intro p hp
    cases hx : s.port p with
    | none => exact Bool.false_ne_true
    | some x => exact fun e => h.route p hp x hx (beq_iff_eq.mp e)
  unfold State.xferCommand
  refine (State.command_ready hready (by simp [hbad, h.low, h.high, hbuffer]) (by rw [hbound, h.allowed]; rfl) _).trans ?_
  simp only [hfound]
  exact if_neg (Bool.eq_false_iff.mp hroute)

theorem xferReads_none (hdir : (xferSetup t).dir = true ∨ (xferSetup t).count = 0) :
    (!(xferSetup t).dir && (xferSetup t).count != 0) = false := by rcases hdir with e | e <;> simp [e]

/-- A transfer without OUT data. -/
theorem exec_controlXfer_noData (h : s.XferReady c t n) (hdir : (xferSetup t).dir = true ∨ (xferSetup t).count = 0) (data : List Byte)
    (a : Option Answer) : exec (.controlXfer c data .ok a) s = .next (match a with
      | some a => s.runXfer c t n (xferSetup t) [] a
      | none => if t.ran = .notSent then s.xferGoes c n (xferSetup t) [] else s) := by
  refine guarded_eq (State.readFits_of_length h.taken ?_) ((State.xferCommand_ready h _).trans ?_)
  · simp only [xferReads_none hdir, Bool.false_eq_true, if_false]
    exact nofun
  · simp only [xferReads_none hdir, Bool.false_eq_true, if_false]
    rfl

/-- A transfer that has not gone out and has OUT data, which are read first. -/
theorem exec_controlXfer_data (h : s.XferReady c t n) (hdir : (xferSetup t).dir = false) (hcount : (xferSetup t).count ≠ 0)
    (hran : t.ran = .notSent) {data : List Byte} (hlen : data.length = 8 * (xferSetup t).count) (a : Answer) :
    exec (.controlXfer c data .ok a) s = .next ((s.emit (.hostRead (s.pasidOf c.inst.val) (BitVec.ofNat 64 (t.arg 32 8))
      (8 * (xferSetup t).count))).runXfer c t n (xferSetup t) (laneWords data) a) := by
  have hreads : (!(xferSetup t).dir && (xferSetup t).count != 0) = true := by simp [hdir, hcount]
  refine guarded_eq (State.readFits_of_length h.taken ?_) ((State.xferCommand_ready h _).trans ?_)
  · simp only [hreads, if_true]
    exact fun n hn => Option.some.inj hn ▸ hlen
  · simp only [hreads, if_true, hran, beq_self_eq_true, Option.filter_some]
    rfl

/-- A transfer that lasts too long returns a length up to what the setup asked for and a count of retries, both free. -/
theorem State.xferLasting_done (s : State) (c : CmdRef) (q : Setup) : ∃ length retries : Nat, length ≤ q.count ∧ retries < 16 ∧
    s.xferLasting c q = State.done { s with free := s.free + 2 } c stOk
      (leBytes 2 length ++ [BitVec.ofNat 8 Status.lasting.code, 0, BitVec.ofNat 8 retries]) :=
  ⟨(s.freeBelow (q.count + 1)).1, ((s.freeBelow (q.count + 1)).2.freeBelow 16).1,
    Nat.lt_succ_iff.mp (Nat.mod_lt _ (Nat.succ_pos q.count)), Nat.mod_lt _ (by decide), rfl⟩

end

/-- Settles O24. -/
theorem controlTransfersComplete : Obligations.ControlTransfersComplete := by
  unfold Obligations.ControlTransfersComplete
  intro s c t n hnode hlow hhigh hbuffer hallowed hroute
  have h : s.XferReady c t n := ⟨hnode, hlow, hhigh, hbuffer, hallowed, hroute⟩
  refine ⟨fun data a hdir => exec_controlXfer_noData h hdir data a, fun data hdir hran => ?goes,
    fun data a hdir hcount hran hlen => exec_controlXfer_data h hdir hcount hran hlen a, ?timeout⟩
  case goes =>
    rw [exec_controlXfer_noData h hdir data none]
    exact congrArg Host.Outcome.next (if_pos hran)
  case timeout =>
    obtain ⟨length, retries, hl, hr, hdone⟩ := s.xferLasting_done c (xferSetup t)
    exact ⟨length, retries, hl, hr, congrArg Host.Outcome.next ((State.xferCommand_ready h _).trans hdone)⟩

end Sys2Proof.Machine
end

section
/-!
PROOFS. Time commands and a write of the course period (O25): what each does where it is ready.
-/

namespace Sys2Proof.Machine

/-- An `if` by its condition up to equivalence, and by its branches. -/
theorem if_iff_congr {α : Type} {p q : Prop} [Decidable p] [Decidable q] {a b c d : α} (h : p ↔ q) (ha : a = b) (hc : c = d) :
    (if p then a else c) = if q then b else d :=
  ite_congr (propext h) (fun _ => ha) fun _ => hc

section
variable {s : State} {c : CmdRef} {t : Taken}

/-- The mode of a command that stands ready is one of its modes. -/
theorem State.standsReady_mode {fr : Frame} (h : s.standsReady c t fr = true) : s.pmu.mode ∈ fr.modes := by
  simp only [State.standsReady, Bool.and_eq_true, List.contains_eq_mem, decide_eq_true_eq] at h
  exact h.2

/-- Courses run in every mode of a scheduled flow's commands. -/
theorem Mode.courses_of_mem {m : Mode} (h : m ∈ modesURHV) : m.courses = true := by
  revert h
  cases m <;> decide

/-- A new period: with courses it waits for the plan. -/
theorem State.setPeriod_courses (p : Nat) (h : s.pmu.mode.courses = true) : s.setPeriod p = State.planAgain
    { s.setFld .TAPU_COURSE_CFG_PERIOD p with course := { s.course with periodNext := some (BitVec.ofNat 14 p) } } := if_pos h

theorem State.setPeriod_idle (p : Nat) (h : ¬ s.pmu.mode.courses = true) : s.setPeriod p =
    { s.setFld .TAPU_COURSE_CFG_PERIOD p with course := { s.course with period := BitVec.ofNat 14 p, periodNext := none } } := if_neg h

abbrev timeAdjustFrame : Frame := ⟨0x0402, [(8, 1, 0xFF), (16, 8, 2 ^ 64 - 1)], modesSURHV, true⟩

/-- A step of time, outside Run and Hold. -/
theorem exec_timeAdjust_step (h : s.standsReady c t timeAdjustFrame = true) (harg : t.arg 8 1 = 0) (hrun : s.pmu.mode ≠ .run)
    (hhold : s.pmu.mode ≠ .hold) : exec (.timeAdjust c) s =
      .next ((s.stepTo (BitVec.ofNat 64 (t.arg 16 8))).1.done c stOk (s.stepTo (BitVec.ofNat 64 (t.arg 16 8))).2) := by
  refine next_command h (all_good_two (by simp [harg]) (by simp [harg])) rfl ?_
  rw [if_pos harg, if_neg (not_or.mpr ⟨hrun, hhold⟩)]

theorem State.stepTo_idle (v : BitVec 64) (h : s.course.running = false) : s.stepTo v = (s.applyStep v 0, leBytes 8 s.time.bus.toNat) := by
  rw [State.stepTo, h]
  rfl

theorem State.stepTo_running (v : BitVec 64) (h : s.course.running = true) : s.stepTo v =
    ({ s with time := { s.time with step := some v } }, leBytes 8 (s.startOf (s.course.count.toNat + 1)).toNat) := by
  rw [State.stepTo, h]
  rfl

theorem exec_timeAdjust_slew (h : s.standsReady c t timeAdjustFrame = true) (harg : t.arg 8 1 = 1) (hslew : t.slew.natAbs ≤ 10000000000) :
    exec (.timeAdjust c) s = .next ((s.startSlew t.slew).done c stOk (leBytes 4 (sat32 t.slew))) :=
  next_command h (all_good_two (by simp [harg]) (by simp [harg]; omega)) rfl (if_neg (by omega))

theorem State.startSlew_eq (ns : Int) : s.startSlew ns =
    if s.timeSource = 0 ∧ s.time.quality = .estimated
    then State.lockTime { s with time := { s.time with slewLeft := ns * 1000000000 } }
    else { s with time := { s.time with slewLeft := ns * 1000000000 } } := by
  refine if_iff_congr ?_ rfl rfl
  rw [Bool.and_eq_true, decide_eq_true_iff, beq_iff_eq]
  rfl

/-- The gang leaves the source to its members alone, and a member takes it from nowhere else. -/
theorem source_allowed {fixed : Bool} {role : Role} {src : Nat} (h : if src = 2 then role = .member else fixed = false) :
    ¬ ((fixed && src != 2) || (src == 2 && role != .member)) = true := by
  by_cases h2 : src = 2
  · rw [if_pos h2] at h
    simp [h2, h]
  · rw [if_neg h2] at h
    simp [h2, h]

theorem State.qualityWith_eq (src : Nat) : s.qualityWith src = if s.timeSource = src ∨ s.time.quality = .unset then s.time.quality
    else if src = 0 then .locked else .holdover :=
  if_iff_congr (by rw [Bool.or_eq_true, decide_eq_true_iff, beq_iff_eq]) rfl rfl

theorem exec_timeSource_ready (h : s.standsReady c t ⟨0x0403, [(8, 1, 0xFF), (9, 1, 3)], modesURHV, true⟩ = true) (harg : t.arg 8 1 ≤ 2)
    (hgang : if t.arg 8 1 = 2 then s.gang.role = .member else s.gang.fixed = false) : exec (.timeSource c) s =
      .next ((((s.setFld .TAPU_PPS_CFG_IN_EN (t.arg 9 1 % 2)).setFld .TAPU_PPS_CFG_IN_FALL (t.arg 9 1 / 2)).setSource (t.arg 8 1)).done c stOk
        [BitVec.ofNat 8 (s.qualityWith (t.arg 8 1)).code]) :=
  next_command h (all_good_one (by simp; omega)) rfl (if_neg (source_allowed hgang))

abbrev paceConfigFrame : Frame :=
  ⟨0x0404, [(8, 1, 0xFF), (9, 1, 0x1F), (10, 1, 0xFF), (11, 1, 0xFF), (12, 1, 0xFF), (16, 3, 0xFFFFFF), (20, 3, 0xFFFFFF),
    (24, 4, 0xFFFFFFFF), (28, 4, 0xFFFFFFFF), (32, 3, 0x0FFFFF), (36, 2, 0x0FFF), (38, 1, 7)], modesURHV, true⟩

theorem exec_paceConfig_ready (h : s.standsReady c t paceConfigFrame = true) (hgood : (s.paceBad t).all (fun b => !b.2) = true) :
    exec (.paceConfig c) s = .next (s.paceConfigAct c t) := next_command h hgood rfl rfl

theorem State.paceConfigAct_bound {n : NodeRec} (hkind : t.arg 9 1 / 2 % 4 = 1)
    (hnode : (kget s.nodes (t.arg 36 2)).filter (·.present) = some n) (set : State → State)
    (hset : set = fun v => (v.paceSet t).dropSource (s.paceKind t.est) (s.paceOf t.est)) : s.paceConfigAct c t =
      match s.bindSource (t.arg 10 1) n (t.arg 38 1) with
      | none => (set s).done c stOk [BitVec.ofNat 8 (set s).ests[t.est].state.code]
      | some (.ok v) => (set v).wait c [BitVec.ofNat 8 (set v).ests[t.est].state.code]
      | some (.error r) => s.done c r.status r.record := by
  subst hset
  unfold State.paceConfigAct
  simp only [if_pos hkind, hnode]
  cases s.bindSource (t.arg 10 1) n (t.arg 38 1) with
  | none => rfl
  | some r => cases r <;> rfl

theorem exec_courseConfig_ready (h : s.standsReady c t ⟨0x0406, [(8, 2, 0xFFFF)], modesURHV, true⟩ = true) (hlow : 32 ≤ t.arg 8 2)
    (hhigh : t.arg 8 2 ≤ 8192) (hfixed : s.gang.fixed = false) (hhost : s.hostScheduled = false)
    (hservice : s.serviceRefused (t.arg 8 2) = none) : exec (.courseConfig c) s = .next ((s.setPeriod (t.arg 8 2)).wait c []) := by
  refine next_command h (all_good_one (by simp; omega)) rfl ?_
  simp only [hfixed, hhost, hservice, Bool.false_eq_true, if_false]

/-- A write of the period: discarded where it may not take effect. -/
theorem State.periodWrite_eq (v : Reg32) {p : Nat} (hp : p = Fld.TAPU_COURSE_CFG_PERIOD.get v) : s.periodWrite v =
    if p < 32 ∨ 8192 < p ∨ s.hostScheduled = true ∨ s.gang.fixed = true ∨ s.serviceRefused p ≠ none then s else s.setPeriod p := by
  subst hp
  refine if_iff_congr ?_ rfl rfl
  simp only [Bool.or_eq_true, decide_eq_true_iff, gt_iff_lt, Option.isSome_iff_ne_none, or_assoc, or_comm (a := s.gang.fixed = true)]

end

/-- Settles O25. -/
theorem timeCommandsComplete : Obligations.TimeCommandsComplete := by
  unfold Obligations.TimeCommandsComplete
  refine ⟨fun s c t => ⟨fun h => ⟨fun harg hrun hhold => ⟨fun hidle => ?idle, fun hruns => ?running⟩, fun harg hslew u hu => ?slew⟩,
    fun h harg hgang => ?source, fun h hgood => ⟨fun u hkind hu => ?pace, fun n hkind hnode => ?bus⟩,
    fun h hlow hhigh hfixed hhost hservice => ?course⟩, fun s v p hp => ?write⟩
  case idle => rw [exec_timeAdjust_step h harg hrun hhold, State.stepTo_idle _ hidle]
  case running => rw [exec_timeAdjust_step h harg hrun hhold, State.stepTo_running _ hruns]
  case slew =>
    subst hu
    rw [exec_timeAdjust_slew h harg hslew, State.startSlew_eq]
  case source => rw [exec_timeSource_ready h harg hgang, State.qualityWith_eq]
  case pace =>
    subst hu
    exact (exec_paceConfig_ready h hgood).trans (congrArg _ (if_neg hkind))
  case bus => exact (exec_paceConfig_ready h hgood).trans (congrArg _ (State.paceConfigAct_bound hkind hnode _ rfl))
  case course =>
    rw [exec_courseConfig_ready h hlow hhigh hfixed hhost hservice,
      State.setPeriod_courses _ (Mode.courses_of_mem (State.standsReady_mode h))]
  case write =>
    have hexec : exec (.coursePeriodWrite v) s = .next (s.periodWrite v) := rfl
    rw [hexec, State.periodWrite_eq v hp]
    refine congrArg Host.Outcome.next (if_iff_congr Iff.rfl rfl ?_)
    by_cases hcourses : s.pmu.mode.courses = true
    · rw [if_pos hcourses, State.setPeriod_courses p hcourses]
    · rw [if_neg hcourses, State.setPeriod_idle p hcourses]

end Sys2Proof.Machine
end

section
/-!
PROOFS. MODE_SET by its transitions (O27).
-/

namespace Sys2Proof.Machine

section
variable {s : State} {c : CmdRef} {t : Taken}

theorem exec_modeSet_ready (h : s.standsReady c t ⟨0x0601, [(8, 1, 0xFF), (9, 1, 1)], modesAll, true⟩ = true) (harg : t.arg 8 1 ≤ 5)
    (hstop : t.arg 9 1 ≠ 1 ∨ t.arg 8 1 = 4) : exec (.modeSet c) s = .next (s.modeSet c (modeOf (t.arg 8 1)) (t.arg 9 1 == 1)) := by
  have hrange : (t.arg 9 1 == 1 && t.arg 8 1 != 4) = false := by rcases hstop with e | e <;> simp [e]
  exact next_command h (all_good_two (by simp; omega) hrange) rfl rfl

/-- A transition under the mode's own conditions: the device is not unlocked and no change is under way. -/
structure State.ModeFree (s : State) (old : Mode) : Prop where
  locked : s.boot.debugUnlocked = false
  settled : s.pmu.changing = false
  mode : s.pmu.mode = old

/-- A mode asked for by an entry or a wake, of a device whose mode has one. -/
theorem State.modeSet_setup_run {stop : Bool} (h : s.ModeFree .setup) (hbarred : s.runBarred = false) : s.modeSet c .run stop =
    (((({ s with pmu := { s.pmu with handshake := none } } : State).unlatch false).setMode .run).modeDone c .setup) := by
  unfold State.modeSet
  simp only [h.locked, h.settled, h.mode, hbarred, Bool.false_and, Bool.false_eq_true, if_false]

theorem State.modeSet_setup_service {stop : Bool} (h : s.ModeFree .setup) : s.modeSet c .service stop =
    (((({ s with pmu := { s.pmu with handshake := none } } : State).setMode .service).unlatch true).modeDone c .setup) := by
  unfold State.modeSet
  simp only [h.locked, h.settled, h.mode, Bool.false_and, Bool.false_eq_true, if_false]

theorem State.modeSet_run_hold {stop : Bool} (h : s.ModeFree .run) :
    s.modeSet c .hold stop = (if stop then s.stopTrigger 3 else s.enterHold).modeDone c .run := by
  unfold State.modeSet
  simp only [h.locked, h.settled, h.mode, Bool.false_and, Bool.false_eq_true, if_false]

theorem State.modeSet_hold_run {stop : Bool} (h : s.ModeFree .hold) (hstop : s.stopActive = false) (hgang : s.gang.barsRun = false) :
    s.modeSet c .run stop = ((s.unlatch false).setMode .run).modeDone c .hold := by
  unfold State.modeSet
  simp only [h.locked, h.settled, h.mode, hstop, hgang, Bool.false_and, Bool.or_self, Bool.false_eq_true, if_false]

theorem State.modeSet_run_setup {stop : Bool} (h : s.ModeFree .run) (hhost : s.hostScheduled = false) :
    s.modeSet c .setup stop = (s.setMode .setup).modeDone c .run := by
  unfold State.modeSet
  simp only [h.locked, h.settled, h.mode, hhost, Bool.false_and, Bool.false_eq_true, if_false]

theorem State.modeSet_hold_setup {stop : Bool} (h : s.ModeFree .hold) (hstop : s.stopActive = false) (hhost : s.hostScheduled = false) :
    s.modeSet c .setup stop = ((s.setMode .setup).unlatch true).modeDone c .hold := by
  unfold State.modeSet
  simp only [h.locked, h.settled, h.mode, hstop, hhost, Bool.false_and, Bool.false_eq_true, if_false]

theorem State.modeSet_service_setup {stop : Bool} (h : s.ModeFree .service)
    (hidle : ∀ e ∈ s.insts, ∀ u ∈ e.2.mb.taken, u.opcode ≠ 0x0706) :
    s.modeSet c .setup stop = ((s.setMode .setup).unlatch true).modeDone c .service := by
  have hnone : (s.insts.any fun e => e.2.mb.taken.any fun t => t.started && t.opcode == 0x0706) = false := by
    rw [List.any_eq_false]
    intro e he hany
    obtain ⟨u, hu, hop⟩ := List.any_eq_true.mp hany
    exact hidle e he u hu (beq_iff_eq.mp (Bool.and_eq_true_iff.mp hop).2)
  unfold State.modeSet
  simp only [h.locked, h.settled, h.mode, hnone, Bool.false_and, Bool.false_eq_true, if_false]

/-- Standby and Dormant are entered from Setup, and Dormant from Standby. -/
theorem State.modeSet_entry {stop : Bool} {old m : Mode} (h : s.ModeFree old)
    (hpath : (old = .setup ∧ (m = .standby ∨ m = .dormant)) ∨ (old = .standby ∧ m = .dormant)) : s.modeSet c m stop = s.beginEntry c m := by
  unfold State.modeSet
  rcases hpath with ⟨rfl, rfl | rfl⟩ | ⟨rfl, rfl⟩ <;>
    simp only [h.locked, h.settled, h.mode, Bool.false_and, Bool.false_eq_true, if_false]

theorem State.modeSet_wake {stop : Bool} {old m : Mode} (h : s.ModeFree old)
    (hpath : ((old = .dormant ∨ old = .standby) ∧ m = .setup) ∨ (old = .dormant ∧ m = .standby)) :
    s.modeSet c m stop = (s.wait c [BitVec.ofNat 8 old.code, 0, 0, 0]).goTo m := by
  unfold State.modeSet
  rcases hpath with ⟨rfl | rfl, rfl⟩ | ⟨rfl, rfl⟩ <;>
    simp only [h.locked, h.settled, h.mode, Bool.false_and, Bool.false_eq_true, if_false]

/-- The ports that an entry asks to suspend: those that are ENABLED. -/
def State.entryPorts (s : State) : List Nat :=
  ((List.range 16).filter fun k => s.enabled (entryPort k)) ++ (if s.enabled .ga then [16] else [])

theorem State.mem_entryPorts {k : Nat} : k ∈ s.entryPorts ↔ k ≤ 16 ∧ s.enabled (entryPort k) = true := by
  have hga : k ∈ (if s.enabled .ga then [16] else []) ↔ k = 16 ∧ s.enabled .ga = true := by
    by_cases h : s.enabled .ga = true <;> simp [h]
  have hport : entryPort 16 = .ga := rfl
  rw [State.entryPorts, List.mem_append, List.mem_filter, List.mem_range, hga]
  constructor
  · rintro (⟨hk, hen⟩ | ⟨rfl, hen⟩)
    · exact ⟨by omega, hen⟩
    · exact ⟨Nat.le_refl _, hport ▸ hen⟩
  · rintro ⟨hk, hen⟩
    rcases Nat.lt_or_eq_of_le hk with hlt | rfl
    · exact .inl ⟨hlt, hen⟩
    · exact .inr ⟨rfl, hport ▸ hen⟩

/-- A port of an entry is asked to suspend. -/
def State.askSuspend (s : State) (k : Nat) : State := s.modPort (entryPort k) fun x => { x with suspendReq := true }

theorem State.askSuspend_pmu (k : Nat) : (s.askSuspend k).pmu = s.pmu := by
  unfold State.askSuspend entryPort
  by_cases hk : k < 16
  · rw [if_pos hk]; rfl
  · rw [if_neg hk]; rfl

theorem State.foldl_askSuspend_pmu (l : List Nat) : (l.foldl State.askSuspend s).pmu = s.pmu := by
  induction l generalizing s with
  | nil => rfl
  | cons k l ih => rw [List.foldl_cons, ih, State.askSuspend_pmu]

theorem State.beginEntry_alone (m : Mode) (h : s.othersTaken c = false) : s.beginEntry c m = State.wait
    { s.entryPorts.foldl State.askSuspend s with pmu := { s.pmu with
      handshake := none, target := m, changing := true, entry := some ⟨m, s.entryPorts, some (c.inst.val, c.idx)⟩ } } c [] := by
  rw [← State.foldl_askSuspend_pmu (s := s) s.entryPorts]
  unfold State.beginEntry
  rw [if_neg (by rw [h]; exact Bool.false_ne_true)]
  rfl

end

/-- Settles O27. -/
theorem modeSetMakesItsTransitions : Obligations.ModeSetMakesItsTransitions := by
  unfold Obligations.ModeSetMakesItsTransitions
  intro s c t h hlocked hsettled harg hstop at_ awake
  have free {old : Mode} (hmode : s.pmu.mode = old) : s.ModeFree old := ⟨hlocked, hsettled, hmode⟩
  have hat (u : State) : at_ u = u.modeDone c s.pmu.mode := rfl
  rw [exec_modeSet_ready h harg hstop]
  refine ⟨fun hm ha hb => ?_, fun hm ha => ?_, fun hm ha hb => ?_, fun hm ha hb => ?_, fun hm ha hb hg => ?_, fun hm ha hb => ?_,
    fun hm ha hb hg => ?_, fun hm ha hb => ?_, fun hpath halone => ?entry, fun hm ha => ?_, fun hm ha => ?_⟩
  case entry =>
    have hpath : (s.pmu.mode = .setup ∧ (modeOf (t.arg 8 1) = .standby ∨ modeOf (t.arg 8 1) = .dormant)) ∨
        (s.pmu.mode = .standby ∧ modeOf (t.arg 8 1) = .dormant) := by
      rcases hpath with ⟨hm, ha⟩ | ⟨hm, ha⟩
      · rcases Nat.le_one_iff_eq_zero_or_eq_one.mp ha with e | e
        · exact .inl ⟨hm, .inr (by rw [e]; rfl)⟩
        · exact .inl ⟨hm, .inl (by rw [e]; rfl)⟩
      · exact .inr ⟨hm, by rw [ha]; rfl⟩
    refine ⟨s.entryPorts, ?_, fun k => State.mem_entryPorts⟩
    rw [State.modeSet_entry (free rfl) hpath, State.beginEntry_alone _ halone]
    rfl
  all_goals simp only [ha, modeOf, hat, hm]
  · rw [State.modeSet_setup_run (free hm) hb]
  · rw [State.modeSet_setup_service (free hm)]
  · rw [State.modeSet_run_hold (free hm), hb]
    exact congrArg (fun u : State => Host.Outcome.next (u.modeDone c .run)) (if_pos hm)
  · rw [State.modeSet_run_hold (free hm), hb]
    rfl
  · rw [State.modeSet_hold_run (free hm) hb hg]
  · rw [State.modeSet_run_setup (free hm) hb]
  · rw [State.modeSet_hold_setup (free hm) hb hg]
  · rw [State.modeSet_service_setup (free hm) hb]
  · rcases hm with hm | hm
    · rw [State.modeSet_wake (free hm) (.inl ⟨.inl rfl, rfl⟩), hm]
    · rw [State.modeSet_wake (free hm) (.inl ⟨.inr rfl, rfl⟩), hm]
  · rw [State.modeSet_wake (free hm) (.inr ⟨rfl, rfl⟩)]

end Sys2Proof.Machine
end

section
/-!
PROOFS. Power and firmware commands (O28).
-/

namespace Sys2Proof.Machine

section
variable {s : State} {c : CmdRef} {t : Taken}

theorem exec_domainPolicy_ready (h : s.standsReady c t ⟨0x0602, [(8, 1, 0xFF), (9, 1, 0xFF)], modesSURHV, true⟩ = true)
    (hdom : t.arg 8 1 ≤ 11) (hpolicy : t.arg 9 1 ≤ 1 ∨ (t.arg 9 1 = 2 ∧ t.arg 8 1 = 11)) : exec (.domainPolicy c) s =
      .next ((s.setPolicies (s.fld .PMU_DOM_POLICY_POLICY - s.fld .PMU_DOM_POLICY_POLICY / 4 ^ t.arg 8 1 % 4 * 4 ^ t.arg 8 1 +
        t.arg 9 1 * 4 ^ t.arg 8 1)).done c stOk []) := by
  refine next_command h (all_good_two (by simp; omega) ?_) rfl rfl
  rcases hpolicy with h1 | ⟨h1, h2⟩
  · simp; omega
  · simp [h1, h2]

/-- A field store or a shadow copy does not start or stop courses. -/
theorem State.policyStored_running (v : Nat) :
    ((s.shadow .PMU_DOM_POLICY 0 0).setFld .PMU_DOM_POLICY_POLICY v).course.running = s.course.running := by
  unfold State.shadow
  simp only [State.setFld_course]
  split <;> rfl

theorem State.setPolicies_running (v : Nat) (h : s.course.running = true) :
    s.setPolicies v = (s.shadow .PMU_DOM_POLICY 0 0).setFld .PMU_DOM_POLICY_POLICY v :=
  if_pos ((State.policyStored_running v).trans h)

theorem State.setPolicies_idle (v : Nat) (h : s.course.running = false) :
    s.setPolicies v = ((s.shadow .PMU_DOM_POLICY 0 0).setFld .PMU_DOM_POLICY_POLICY v).applyPolicies :=
  if_neg (by rw [State.policyStored_running, h]; exact Bool.false_ne_true)

/-- A port that is not in FAULT and not ramping takes its limits. -/
theorem State.ppmFree {n : Fin 16} (hphase : s.ppm[n].phase ≠ .fault) (hgen : s.ppm[n].gen = true → s.ppm[n].pg = true) :
    (s.ppm[n].phase == .fault || (s.ppm[n].gen && !s.ppm[n].pg)) = false := by
  rw [Bool.or_eq_false_iff]
  refine ⟨beq_false_of_ne hphase, ?_⟩
  cases hg : s.ppm[n].gen with
  | false => rfl
  | true => rw [hgen hg]; rfl

abbrev fwStageFrame : Frame := ⟨0x0701, [(8, 1, 1), (12, 4, 0xFFFFFFFF), (16, 8, 2 ^ 64 - 1), (24, 4, 0xFFFFFFFF)], modesURHV, true⟩

/-- The bytes of an FW_STAGE are read and join the staging slot. -/
def State.stageRead (s : State) (c : CmdRef) (t : Taken) (data : List Byte) : State :=
  (s.emit (.hostRead (s.pasidOf c.inst.val) (BitVec.ofNat 64 (t.arg 16 8)) (t.arg 24 4))).modSlot s.stageSlot
    (fun x => x.stage (t.arg 12 4) data)

/-- What FW_STAGE answers: the bytes staged so far and the slot. -/
def State.stageReply (s : State) (y : Bool) : List Byte := leBytes 4 (s.boot.slot y).offset ++ [BitVec.ofNat 8 y.toNat]

structure State.StageReady (s : State) (c : CmdRef) (t : Taken) (data : List Byte) : Prop where
  ready : s.standsReady c t fwStageFrame = true
  offset : t.arg 12 4 = 0 ∨ t.arg 12 4 = (s.boot.slot s.stageSlot).offset
  align : t.arg 16 8 % 8 = 0
  some_ : 1 ≤ t.arg 24 4
  most : t.arg 24 4 ≤ 65536
  room : t.arg 12 4 + t.arg 24 4 ≤ 7340032
  length : data.length = t.arg 24 4
  free : s.boot.commitPending = false

theorem exec_fwStage_ready {data : List Byte} (h : s.StageReady c t data) {w : State} {st : Nat}
    (hlast : (if t.arg 8 1 = 1 then (s.stageRead c t data).verifyStaged s.stageSlot else (s.stageRead c t data, stOk)) = (w, st)) :
    exec (.fwStage c data .ok) s = .next (w.done c st (if st = stOk then w.stageReply s.stageSlot else [])) := by
  have hoffset : (t.arg 12 4 != 0 && t.arg 12 4 != (s.boot.slot s.stageSlot).offset) = false := by
    rcases h.offset with e | e <;> simp [e]
  have hcount : (t.arg 24 4 == 0 || decide (65536 < t.arg 24 4) || decide (7340032 < t.arg 12 4 + t.arg 24 4)) = false := by
    have := h.some_; have := h.most; have := h.room
    simp; omega
  refine guarded_eq (State.readFits_of_length (State.standsReady_taken h.ready) fun n hn => Option.some.inj hn ▸ h.length)
    ((State.command_ready h.ready (all_good_three hoffset (by simp [h.align]) hcount) rfl _).trans ?_)
  rw [if_neg (by rw [h.free]; exact Bool.false_ne_true)]
  change (let (s', st') := (if t.arg 8 1 = 1 then (s.stageRead c t data).verifyStaged s.stageSlot else (s.stageRead c t data, stOk))
    s'.done c st' (if st' = stOk then s'.stageReply s.stageSlot else [])) = _
  rw [hlast]

/-- FW_COMMIT of a valid staged image outside ROM recovery: its boot record is written. -/
def State.commitRecord (s : State) (c : CmdRef) (t : Taken) : State :=
  (s.writeRecord s.stageSlot (t.arg 8 1 == 1)).done c stOk
    [BitVec.ofNat 8 s.stageSlot.toNat, BitVec.ofNat 8 ((s.boot.slot s.stageSlot).version.toNat / 65536),
      BitVec.ofNat 8 ((s.boot.slot s.stageSlot).version.toNat / 256), BitVec.ofNat 8 (s.boot.slot s.stageSlot).version.toNat]

theorem exec_fwCommit_ready (h : s.standsReady c t ⟨0x0702, [(8, 1, 0xFF)], [.service], true⟩ = true) (hlocked : s.boot.debugUnlocked = false)
    (hstaged : (s.boot.slot s.stageSlot).staged.isSome = true) (hvalid : (s.boot.slot s.stageSlot).valid = true) (hrom : s.boot.rom = false)
    (run : StartEnv) (harg : t.arg 8 1 ≤ 1) : exec (.fwCommit c run) s =
      .next (if t.arg 8 1 = 1 then s.commitRecord c t else (s.commitRecord c t).warmTrigger .fwCommit run) := by
  have himage : ((s.boot.slot s.stageSlot).staged.isNone || !(s.boot.slot s.stageSlot).valid) = false := by
    rw [hvalid, Option.isNone_eq_false_iff.mpr hstaged]; rfl
  refine next_command h (all_good_one (by simp [hrom]; omega)) (by rw [hlocked]; rfl) ?_
  simp only [himage, hrom, Bool.false_eq_true, if_false]
  rfl

end

/-- Settles O28. -/
theorem powerAndFirmwareCommandsComplete : Obligations.PowerAndFirmwareCommandsComplete := by
  unfold Obligations.PowerAndFirmwareCommandsComplete
  intro s c t
  refine ⟨fun h hdom hpolicy hruns => ?_, fun h hdom hpolicy hidle => ?_,
    fun h n hn hlo hft hfs hfm hfm' hre hre' hsl hde hde' hphase hgen => ?ppm,
    fun h data hoff halign hlo hhi hroom hlen hfree => ⟨_, rfl, fun harg => ?more, fun w st harg hverify => ?last⟩,
    fun h hlocked hstaged hvalid hrom run => ⟨_, rfl, fun harg => ?pending, fun harg => ?now⟩⟩
  · rw [exec_domainPolicy_ready h hdom hpolicy, State.setPolicies_running _ hruns]
  · rw [exec_domainPolicy_ready h hdom hpolicy, State.setPolicies_idle _ hidle]
  case ppm =>
    have hport : Fin.ofNat 16 (t.arg 8 1) = n := finOfNat_of_eq hn
    refine next_command h ?_ rfl ?_
    · simp only [hport]
      simp; omega
    · simp only [hport, State.ppmFree hphase hgen, Bool.false_eq_true, if_false]
  case more =>
    rw [exec_fwStage_ready ⟨h, hoff, halign, hlo, hhi, hroom, hlen, hfree⟩ (if_neg (by omega)), if_pos rfl]
    rfl
  case last => exact exec_fwStage_ready ⟨h, hoff, halign, hlo, hhi, hroom, hlen, hfree⟩ ((if_pos harg).trans hverify)
  case pending => rw [exec_fwCommit_ready h hlocked hstaged hvalid hrom run (by omega), if_pos harg]; rfl
  case now => rw [exec_fwCommit_ready h hlocked hstaged hvalid hrom run (by omega), if_neg (by omega)]; rfl

end Sys2Proof.Machine
end

section
/-!
PROOFS. Registers that act: rings (O31), source addresses (O32), acknowledgements (O33), and those of the device (O34).
-/

namespace Sys2Proof.Machine

section
variable {s : State} {n ofs : Nat} {v : Reg32}

/-! The page of an instance (R469). -/

theorem State.pageGate_open (h : s.pageState n = .active ∨ s.pageState n = .frozen) : s.pageGate n ofs = none := by
  unfold State.pageGate
  rcases h with e | e <;> simp only [e]

/-- The page of a FREE instance, or of a RESETTING one, turns a write away with its reason. -/
theorem State.pageGate_closed {reason : Nat} (h : (s.pageState n = .free ∧ reason = 4) ∨ (s.pageState n = .resetting ∧ reason = 5)) :
    s.pageGate n ofs = some (s.badAccess true (n * 0x1000 + ofs) reason) := by
  unfold State.pageGate
  rcases h with ⟨e, rfl⟩ | ⟨e, rfl⟩ <;> simp only [e]

theorem Fld.get_lt (f : Fld) (v : Reg32) : f.get v < 2 ^ f.width := Nat.mod_lt _ (Nat.two_pow_pos _)

theorem Fld.toNat_get {f : Fld} (h : f.width = 16) (v : Reg32) : (BitVec.ofNat 16 (f.get v)).toNat = f.get v :=
  Nat.mod_eq_of_lt (h ▸ f.get_lt v)

/-! Ring registers (R219, R226, R279, R282). -/

theorem State.mbConsWrite_open (h : s.pageGate n 0x018 = none) {a b : Nat}
    (ha : a = (BitVec.ofNat 16 (Fld.INST_MB_CPL_CONS_CONS.get v) - BitVec.ofNat 16 (s.fld .INST_MB_CPL_CONS_CONS 0 n)).toNat)
    (hb : b = ((s.inst n).mb.write - BitVec.ofNat 16 (s.fld .INST_MB_CPL_CONS_CONS 0 n)).toNat) :
    s.mbConsWrite n v = if a ≤ b then s.setFld .INST_MB_CPL_CONS_CONS (Fld.INST_MB_CPL_CONS_CONS.get v) 0 n
      else s.setFld .INST_MB_STATUS_CONS_ERR 1 0 n := by
  subst ha hb
  unfold State.mbConsWrite
  simp only [h, Fld.toNat_get (f := .INST_MB_CPL_CONS_CONS) rfl, gt_iff_lt, ← Nat.not_le, ite_not]
  rfl

theorem State.cqConsWrite_open {q : Fin 16} (h : s.pageGate n (0x80C + 0x20 * q.val) = none) {a b : Nat}
    (ha : a = (BitVec.ofNat 16 (Fld.INST_CQ_CONS_CONS.get v) - BitVec.ofNat 16 (s.fld .INST_CQ_CONS_CONS q.val n)).toNat)
    (hb : b = ((s.inst n).cqs[q].write - BitVec.ofNat 16 (s.fld .INST_CQ_CONS_CONS q.val n)).toNat) :
    s.cqConsWrite n q v = if a ≤ b then s.setFld .INST_CQ_CONS_CONS (Fld.INST_CQ_CONS_CONS.get v) q.val n
      else s.setFld .INST_CQ_STATUS_CONS_ERR 1 q.val n := by
  subst ha hb
  unfold State.cqConsWrite
  simp only [h, Fld.toNat_get (f := .INST_CQ_CONS_CONS) rfl, gt_iff_lt, ← Nat.not_le, ite_not]
  rfl

/-- The sizes that a write of INST_MB_CFG leaves in force: while the mailbox runs, the stored ones. -/
def State.mbSize (s : State) (n : Nat) (v : Reg32) (f : Fld) : Nat := if s.blockRuns .INST_MB_CFG n 0 then s.fld f 0 n else f.get v

/-- Sizes of a mailbox that may be enabled. -/
def mbSizesFit (cmd cpl : Nat) : Prop := 2 ≤ cmd ∧ cmd ≤ 8 ∧ 2 ≤ cpl ∧ cpl ≤ 8 ∧ cmd ≤ cpl

theorem mbSizes_bad {cmd cpl : Nat} : (cmd < 2 || cmd > 8 || cpl < 2 || cpl > 8 || cpl < cmd) = true ↔ ¬ mbSizesFit cmd cpl := by
  simp only [mbSizesFit, Bool.or_eq_true, decide_eq_true_iff]
  omega

theorem State.mbCfgWrite_misfit (h : s.pageGate n 0x010 = none) (hon : Fld.INST_MB_CFG_ENABLE.get v = 1)
    (hsizes : ¬ mbSizesFit (s.mbSize n v .INST_MB_CFG_CMD_SIZE) (s.mbSize n v .INST_MB_CFG_CPL_SIZE)) : s.mbCfgWrite n v = s := by
  unfold State.mbCfgWrite
  simp only [h]
  exact if_pos (Bool.and_eq_true_iff.mpr ⟨decide_eq_true hon, mbSizes_bad.mpr hsizes⟩)

/-- A flag that goes from clear to set. -/
theorem rising_iff {was is_ : Bool} : (!was && is_) = true ↔ was = false ∧ is_ = true := by
  rw [Bool.and_eq_true, Bool.not_eq_true']

theorem State.mbCfgWrite_fit (h : s.pageGate n 0x010 = none)
    (hsizes : mbSizesFit (s.mbSize n v .INST_MB_CFG_CMD_SIZE) (s.mbSize n v .INST_MB_CFG_CPL_SIZE)) {u : State}
    (hu : u = s.writeFields .INST_MB_CFG n 0 v) : s.mbCfgWrite n v =
      if s.flag .INST_MB_CFG_ENABLE 0 n = false ∧ u.flag .INST_MB_CFG_ENABLE 0 n = true then
        (u.modInst n fun x => { x with mb := x.mb.restart }).setFld .INST_MB_STATUS_FETCH_ERR 0 0 n
      else u := by
  subst hu
  unfold State.mbCfgWrite
  simp only [h]
  refine (if_neg fun hbad => mbSizes_bad.mp (Bool.and_eq_true_iff.mp hbad).2 hsizes).trans ?_
  exact if_iff_congr rising_iff rfl rfl

theorem State.cqCfgWrite_open {q : Fin 16} (h : s.pageGate n (0x808 + 0x20 * q.val) = none) {u : State}
    (hu : u = s.writeFields .INST_CQ_CFG n q.val v (fun f =>
      f == .INST_CQ_CFG_ENABLE && s.flag .INST_CQ_CFG_ENABLE q.val n && s.ringNamed n q.val)) : s.cqCfgWrite n q v =
      if s.flag .INST_CQ_CFG_ENABLE q.val n = false ∧ u.flag .INST_CQ_CFG_ENABLE q.val n = true then
        u.modInst n fun x => { x with cqs := x.cqs.set q.val { x.cqs[q] with write := 0, phase := true } }
      else u := by
  subst hu
  unfold State.cqCfgWrite
  simp only [h, setIfInBounds_eq_set _ q.isLt]
  exact if_iff_congr rising_iff rfl rfl

theorem State.mbStatusWrite_open (h : s.pageGate n 0x01C = none) : s.mbStatusWrite n v = s.writeFields .INST_MB_STATUS n 0 v := by
  unfold State.mbStatusWrite
  simp only [h]

end

/-- Settles O31. -/
theorem ringRegistersWork : Obligations.RingRegistersWork := by
  unfold Obligations.RingRegistersWork
  intro i v s
  refine ⟨fun q reason hclosed => ?closed, fun hopen => ⟨fun a b ha hb => ?_, fun q a b ha hb => ?_,
    fun cmd cpl hcmd hcpl hon => ⟨fun hmis => ?_, fun h1 h2 h3 h4 h5 u hu => ?_⟩, fun q u hu => ?_, ?_⟩⟩
  case closed =>
    have gate (ofs : Nat) := State.pageGate_closed (s := s) (n := i.val) (ofs := ofs) hclosed
    refine ⟨congrArg Host.Outcome.next ?_, congrArg Host.Outcome.next ?_, congrArg Host.Outcome.next ?_,
      congrArg Host.Outcome.next ?_, congrArg Host.Outcome.next ?_⟩
    · unfold State.mbCfgWrite; simp only [gate]
    · unfold State.mbConsWrite; simp only [gate]
    · unfold State.mbStatusWrite; simp only [gate]
    · unfold State.cqCfgWrite; simp only [gate]
    · unfold State.cqConsWrite; simp only [gate]
  · exact congrArg _ (State.mbConsWrite_open (State.pageGate_open hopen) ha hb)
  · exact congrArg _ (State.cqConsWrite_open (State.pageGate_open hopen) ha hb)
  · subst hcmd hcpl
    exact congrArg _ (State.mbCfgWrite_misfit (State.pageGate_open hopen) hon hmis)
  · subst hcmd hcpl
    exact congrArg _ (State.mbCfgWrite_fit (State.pageGate_open hopen) ⟨h1, h2, h3, h4, h5⟩ hu)
  · exact congrArg _ (State.cqCfgWrite_open (State.pageGate_open hopen) hu)
  · exact congrArg _ (State.mbStatusWrite_open (State.pageGate_open hopen))

section
variable {s : State} {w : SigWriter} {v : Reg32} {ofs : Nat} {quiet : Bool} {act : State → Nat → State}

/-! The five addresses (R347). -/

/-- The writer's registers are open to it: BAR0, or the page of an ACTIVE or FROZEN instance. -/
def State.writerOpen (s : State) (w : SigWriter) : Prop :=
  ∀ n : Fin 512, w = .page n → s.pageState n.val = .active ∨ s.pageState n.val = .frozen

theorem State.sigWrite_open (h : s.writerOpen w) : s.sigWrite w ofs v quiet act =
    match s.writerSrc w (v.toNat % 2048) with
    | some src => if v.toNat ≥ 2048 then s.sigErr w (v.toNat % 2048) 1 else act s src
    | none => s.sigErr w (v.toNat % 2048) 1 := by
  unfold State.sigWrite
  cases w with
  | bar0 => rfl
  | page n => rcases h n rfl with e | e <;> simp only [e] <;> rfl

theorem State.sigWrite_named (h : s.writerOpen w) {src : Nat} (hv : v.toNat < 2048) (hsrc : s.writerSrc w v.toNat = some src) :
    s.sigWrite w ofs v quiet act = act s src := by
  rw [State.sigWrite_open h, Nat.mod_eq_of_lt hv, hsrc]
  exact if_neg (by omega)

theorem State.sigWrite_unnamed (h : s.writerOpen w) (hv : 2048 ≤ v.toNat ∨ s.writerSrc w v.toNat = none) :
    s.sigWrite w ofs v quiet act = s.sigErr w (v.toNat % 2048) 1 := by
  rw [State.sigWrite_open h]
  by_cases hlow : v.toNat < 2048
  · rw [Nat.mod_eq_of_lt hlow, hv.resolve_left (by omega)]
  · cases s.writerSrc w (v.toNat % 2048) with
    | none => rfl
    | some src => exact if_pos (by omega)

theorem State.sigWrite_closed {n : Fin 512} {reason : Nat}
    (h : (s.pageState n.val = .free ∧ reason = 4) ∨ (s.pageState n.val = .resetting ∧ reason = 5)) :
    s.sigWrite (.page n) ofs v false act = s.badAccess true (n.val * 0x1000 + sigOfs ofs) reason := by
  unfold State.sigWrite
  rcases h with ⟨e, rfl⟩ | ⟨e, rfl⟩ <;> simp only [e] <;> rfl

/-- A raise in the page of a RESETTING instance leaves no record. -/
theorem State.sigWrite_quiet {n : Fin 512} {reason : Nat}
    (h : (s.pageState n.val = .free ∧ reason = 4) ∨ (s.pageState n.val = .resetting ∧ reason = 5)) :
    s.sigWrite (.page n) ofs v true act = if reason = 5 then s else s.badAccess true (n.val * 0x1000 + sigOfs ofs) 4 := by
  unfold State.sigWrite
  rcases h with ⟨e, rfl⟩ | ⟨e, rfl⟩ <;> simp only [e] <;> rfl

/-- The source that a writer's selection register shows. -/
def State.shownSrc (s : State) (w : SigWriter) : Nat :=
  match w with
  | .bar0 => s.fld .SIG_SRC_SEL_SOURCE
  | .page n => s.fld .PSIG_SRC_SEL_SOURCE 0 n.val

/-- What a write of SIG_SRC_CFG does to the source that it names. -/
def State.configSource (s : State) (w : SigWriter) (num : Nat) (v : Reg32) (src : Nat) : State :=
  if (srcCfgOf v).2.2.kind = 3 then s
  else if s.targetOk src (srcCfgOf v).2.2 then
    { s with gutter := { s.gutter with
      fast := bitPut s.gutter.fast src (srcCfgOf v).1, wake := bitPut s.gutter.wake src (srcCfgOf v).2.1
      cfg := kput ⟨0, 0, 0, 0, 0⟩ s.gutter.cfg src (srcCfgOf v).2.2 } }
  else s.sigErr w num 2

theorem State.underReset_idle (r : Reg) (h : s.boot.start = none) : s.underReset r = false := by
  unfold State.underReset
  simp only [h]

theorem State.underReset_warm {r : Reg} {x : StartRun} (h : s.boot.start = some x) (hwarm : x.warm = true) (hstep : x.step ≤ 7)
    (hr : r.warmReset = true) : s.underReset r = true := by
  unfold State.underReset
  simp only [h, hwarm, hr, decide_eq_true hstep, Bool.and_self]

theorem State.sigSrcCfg_eq (h : w = .bar0 → s.boot.start = none) : s.sigSrcCfg w v =
    s.sigWrite w 0x18 (BitVec.ofNat 32 (s.shownSrc w)) false (fun s src => s.configSource w (s.shownSrc w) v src) := by
  unfold State.sigSrcCfg
  cases w with
  | bar0 => exact if_neg (by rw [State.underReset_idle _ (h rfl)]; exact Bool.false_ne_true)
  | page n => rfl

end

/-- Settles O32. -/
theorem sourceAddressesWork : Obligations.SourceAddressesWork := by
  unfold Obligations.SourceAddressesWork
  intro w v s
  refine ⟨fun n reason hw hclosed => ?closed, fun hopen => ⟨fun src hv hsrc => ?named, fun hv => ?unnamed,
    fun src num hstart hnum hlow hsrc c hc hkind htarget => ?config, fun n hw => ?prio⟩⟩
  case closed =>
    subst hw
    have gate : s.sigPrio n.val v = s.badAccess true (n.val * 0x1000 + 0x31C) reason := by
      unfold State.sigPrio
      simp only [State.pageGate_closed hclosed]
    have hconfig := State.sigSrcCfg_eq (s := s) (w := .page n) (v := v) nofun
    exact ⟨congrArg _ (State.sigWrite_quiet hclosed), congrArg _ (State.sigWrite_closed hclosed), congrArg _ (State.sigWrite_closed hclosed),
      congrArg _ (State.sigWrite_closed hclosed), congrArg _ (State.sigWrite_closed hclosed),
      congrArg _ (hconfig.trans (State.sigWrite_closed hclosed)), congrArg _ gate⟩
  case named =>
    have hraise (h : 128 ≤ src ∨ hwSource src = true) : ¬ (src < 128 && !hwSource src) = true := by
      rcases h with e | e
      · simp; omega
      · simp [e]
    exact ⟨fun h => congrArg _ ((State.sigWrite_named hopen hv hsrc).trans (if_neg (hraise h))), congrArg _ (State.sigWrite_named hopen hv hsrc),
      congrArg _ (State.sigWrite_named hopen hv hsrc), congrArg _ (State.sigWrite_named hopen hv hsrc),
      congrArg _ (State.sigWrite_named hopen hv hsrc)⟩
  case unnamed =>
    exact ⟨congrArg _ (State.sigWrite_unnamed hopen hv), congrArg _ (State.sigWrite_unnamed hopen hv), congrArg _ (State.sigWrite_unnamed hopen hv),
      congrArg _ (State.sigWrite_unnamed hopen hv), congrArg _ (State.sigWrite_unnamed hopen hv)⟩
  case config =>
    have hshown : s.shownSrc w = num := by rw [hnum]; cases w <;> rfl
    have hnat : (BitVec.ofNat 32 num).toNat = num := Nat.mod_eq_of_lt (by omega)
    have hsettings : srcCfgOf v = (v.getLsbD 0, v.getLsbD 1, c) := by rw [hc]; rfl
    refine congrArg Host.Outcome.next ((State.sigSrcCfg_eq fun _ => hstart).trans ?_)
    rw [hshown, State.sigWrite_named hopen (by omega) (by rw [hnat]; exact hsrc), State.configSource, hsettings, if_neg hkind, if_pos htarget]
  case prio =>
    have gate : s.sigPrio n.val v = if v.toNat % 2048 < (s.inst n.val).shares.vecs then
        { s with gutter := { s.gutter with prio := kput 0 s.gutter.prio ((s.inst n.val).shares.vecFirst + v.toNat % 2048) (v.extractLsb' 16 4) } }
        else s := by
      unfold State.sigPrio
      simp only [State.pageGate_open (hopen n hw)]
    exact congrArg _ gate

/-! Acknowledgements (R451, R453). -/

/-- Settles O33. -/
theorem acknowledgementsNameTheirRecord : Obligations.AcknowledgementsNameTheirRecord := by
  unfold Obligations.AcknowledgementsNameTheirRecord
  intro v s
  refine ⟨fun k hk => congrArg Host.Outcome.next ?_, fun hbad => congrArg Host.Outcome.next ?_, congrArg Host.Outcome.next ?_⟩
  · have hrec : s.errs.recs[k.val]? = some s.errs.recs[k] := Vector.getElem?_eq_getElem k.isLt
    unfold State.errAck
    simp only [hk, hrec, State.ackRec_fin, Bool.and_eq_true, beq_iff_eq]
  · unfold State.errAck
    simp only [Vector.getElem?_eq_none hbad]
  · exact if_iff_congr (by rw [Bool.and_eq_true, beq_iff_eq]) rfl rfl

section
variable {s : State} {v : Reg32}

/-! Registers of the device. -/

theorem State.stopCmd_idle (h : s.boot.start = none) : s.stopCmd v = if Fld.ENG_STOP_CMD_TRIGGER.get v = 1 then s.stopTrigger 3 else s := by
  rw [State.stopCmd, State.underReset_idle _ h]
  rfl

theorem State.stopCmd_reset (h : s.underReset .ENG_STOP_CMD = true) : s.stopCmd v = s := if_pos h

theorem exec_trcBufRead_idle (h : s.boot.start = none) :
    exec .trcBufRead s = .next (s.trcRead.2.emit (.reply (leBytes 4 s.trcRead.1.toNat))) := by
  have hexec : exec .trcBufRead s = execTrcBufRead s := rfl
  rw [hexec]
  simp only [execTrcBufRead, State.underReset_idle _ h, Bool.false_eq_true, if_false]

theorem exec_trcBufRead_reset (h : s.underReset .TRC_BUF_LO = true) : exec .trcBufRead s = .next (s.emit (.reply [0xFF, 0xFF, 0xFF, 0xFF])) := by
  have hexec : exec .trcBufRead s = execTrcBufRead s := rfl
  have hones : leBytes 4 (0xFFFFFFFF : Reg32).toNat = [0xFF, 0xFF, 0xFF, 0xFF] := by decide
  rw [hexec]
  simp only [execTrcBufRead, h, if_true, hones]

/-- The trace's oldest record leaves it. -/
theorem State.trcRead_cons {x : TraceRec} {l : List TraceRec} (h : s.trace = x :: l) : s.trcRead = (BitVec.ofNat 32 (wbits x.w0 31 0),
    { s with
      latch := kset (kset s.latch (Reg.key .TRC_BUF_MID 0 0) (BitVec.ofNat 32 (wbits x.w0 35 32 + wbits x.w1 27 0 * 16)))
        (Reg.key .TRC_BUF_HI 0 0) (BitVec.ofNat 32 (wbits x.w1 35 28))
      trace := l }) := by
  unfold State.trcRead
  simp only [h]

theorem State.trcRead_nil (h : s.trace = []) : s.trcRead = (0,
    { s with latch := kset (kset s.latch (Reg.key .TRC_BUF_MID 0 0) 0) (Reg.key .TRC_BUF_HI 0 0) (BitVec.ofNat 32 (2 ^ 31)) }) := by
  unfold State.trcRead
  simp only [h]
  rfl

theorem State.warmTrigger_idle (kind : StartKind) (run : StartEnv) (h : s.boot.start = none) :
    s.warmTrigger kind run = s.runStart startFuel kind true run := by
  unfold State.warmTrigger
  simp only [h]

theorem State.applyPace_eq (e : Fin 8) : s.applyPace e =
    if s.effFld .TAPU_PACE_CFG_EN e.val = 1 ∧ s.ests[e].state = .off then s.modEst e fun _ => Estimator.started
    else if s.effFld .TAPU_PACE_CFG_EN e.val ≠ 1 ∧ s.ests[e].state ≠ .off then (s.settleReleases e false false).modEst e fun _ => Estimator.init
    else s := by
  refine if_iff_congr ?_ rfl (if_iff_congr ?_ rfl rfl)
  · rw [Bool.and_eq_true, beq_iff_eq, beq_iff_eq]
  · rw [Bool.and_eq_true, Bool.not_eq_true', beq_eq_false_iff_ne, bne_iff_ne]

end

/-- Settles O34. -/
theorem deviceRegistersAct : Obligations.DeviceRegistersAct := by
  unfold Obligations.DeviceRegistersAct
  intro v s
  refine ⟨fun k => congrArg Host.Outcome.next (dif_pos k.isLt), fun k hk => congrArg Host.Outcome.next (dif_neg (by omega)), fun k => ?ledger,
    rfl, rfl, ⟨_, rfl, fun n => ?energy⟩, ?ltr, fun hidle => ⟨congrArg _ (State.stopCmd_idle hidle), fun x l hl => ?trace, fun hl => ?empty,
      fun run => ?boot⟩, fun r hr hwarm hstep => ⟨?stop, ?ones⟩, fun e u hu => ?est⟩
  case ledger =>
    have hcopy : portOfCopy ⟨k.val, by omega⟩ = some (.root k) := dif_pos k.isLt
    refine congrArg Host.Outcome.next ?_
    unfold State.ledgerClear
    rw [hcopy]
  case energy => exact (Vector.getElem_ofFn n.isLt).trans rfl
  case ltr => exact congrArg Host.Outcome.next (if_iff_congr (by rw [Bool.and_eq_true, bne_iff_ne]; rfl) rfl rfl)
  case trace => rw [exec_trcBufRead_idle hidle, State.trcRead_cons hl]
  case empty =>
    have hzero : leBytes 4 (0 : Reg32).toNat = [0, 0, 0, 0] := by decide
    rw [exec_trcBufRead_idle hidle, State.trcRead_nil hl]
    simp only [hzero]
  case boot => exact congrArg Host.Outcome.next (if_iff_congr Iff.rfl (State.warmTrigger_idle _ _ hidle) rfl)
  case stop => exact congrArg Host.Outcome.next (State.stopCmd_reset (State.underReset_warm hr hwarm hstep rfl))
  case ones => exact exec_trcBufRead_reset (State.underReset_warm hr hwarm hstep rfl)
  case est =>
    subst hu
    exact congrArg Host.Outcome.next (State.applyPace_eq e)

end Sys2Proof.Machine
end

section
/-!
PROOFS. Commands are taken and started (O36); the standard requests (O37).
-/

namespace Sys2Proof.Machine

section
variable {s : State}

/-! Taking and starting (R282, R285, R286, R288). -/

theorem State.modInst_modInst {i : Nat} (hs : ksorted s.insts = true) (f g : Instance → Instance) :
    (s.modInst i f).modInst i g = s.modInst i fun x => g (f x) := by
  have hread : (s.modInst i f).inst i = f (s.inst i) := State.inst_modInst s i f hs
  unfold State.modInst State.setInst at *
  rw [hread]
  simp only [kput_kput _ _ _ _ _ hs]

/-- A tag that the cache does not have. -/
theorem State.lookUp_new {i : Nat} {t : Taken} (h : (s.inst i).mb.cache.all (fun k => k.tag != t.tag) = true) :
    s.lookUp i t = s.modInst i fun x => { x with mb := { x.mb with cache := cacheAdd x.mb.cache ⟨t.tag, cmdDigest t.entry, none⟩ } } := by
  have hnone : (s.inst i).mb.cache.find? (·.tag == t.tag) = none := by
    rw [List.find?_eq_none]
    intro k hk heq
    exact (bne_iff_ne.mp (List.all_eq_true.mp h k hk)) (beq_iff_eq.mp heq)
  unfold State.lookUp
  simp only [hnone]

/-- The command that an instance's ring holds at its fetch index, as it is taken. -/
def State.fetched (s : State) (i : Nat) (entry : List Byte) : Taken :=
  { idx := (s.inst i).mb.fetch, entry := entry, started := false, copies := false, waiting := false, boundary := 0
    result := [], ran := .notSent, pertOn := s.perturbed, pertSeq := s.ptbSeq }

/-- Its place in host memory. -/
def State.fetchPlace (s : State) (i : Nat) : Nat :=
  s.pair .INST_MB_CMD_BASE_LO .INST_MB_CMD_BASE_HI 0 i + 64 * ((s.inst i).mb.fetch.toNat % 2 ^ s.fld .INST_MB_CFG_CMD_SIZE 0 i)

theorem exec_commandTake {i : Fin 512} {entry : List Byte} (h : s.mayTake i.val = true) (hlen : entry.length = 64) :
    exec (.commandTake i .ok entry) s =
      .next ((((s.emit (.hostRead (s.pasidOf i.val) (BitVec.ofNat 64 (s.fetchPlace i.val)) 64)).modInst i.val fun x =>
        { x with mb := { x.mb with fetch := x.mb.fetch + 1, taken := x.mb.taken ++ [s.fetched i.val entry] } })).lookUp i.val
          (s.fetched i.val entry)) := by
  have hwf : Instr.wf (.commandTake i .ok entry) = true := by simp [Instr.wf, wfEntry, hlen]
  exact guarded_eq hwf (if_neg (by rw [h]; exact Bool.false_ne_true))

theorem State.startFirst {i : Nat} {t : Taken}
    (h : ∀ u ∈ (s.inst i).mb.taken, (u.idx - (s.inst i).mb.oldest).toNat < (t.idx - (s.inst i).mb.oldest).toNat → s.startable i u = false) :
    ((s.inst i).mb.taken.any fun u => decide ((u.idx - (s.inst i).mb.oldest).toNat < (t.idx - (s.inst i).mb.oldest).toNat) &&
      s.startable i u) = false := by
  rw [List.any_eq_false]
  intro u hu hboth
  obtain ⟨hlt, hstart⟩ := Bool.and_eq_true_iff.mp hboth
  rw [h u hu (of_decide_eq_true hlt)] at hstart
  exact Bool.false_ne_true hstart

end

/-- Settles O36. -/
theorem commandsAreTakenAndStarted : Obligations.CommandsAreTakenAndStarted := by
  unfold Obligations.CommandsAreTakenAndStarted
  refine ⟨fun i s entry t hmay hlen hsorted hnew ht => ?take, fun c s t htaken hserves hstart hfirst hturn u hu => ?start⟩
  case take =>
    have hread := State.inst_modInst (s.emit (.hostRead (s.pasidOf i.val) (BitVec.ofNat 64 (s.fetchPlace i.val)) 64)) i.val
      (fun x => { x with mb := { x.mb with fetch := x.mb.fetch + 1, taken := x.mb.taken ++ [s.fetched i.val entry] } }) hsorted
    rw [exec_commandTake hmay hlen, State.lookUp_new (by rw [hread]; exact hnew), State.modInst_modInst (s := s.emit _) hsorted, ht]
    rfl
  case start =>
    have hturn : s.startTurn c.inst.val = true := by
      rcases hturn with h0 | h
      · unfold State.startTurn
        rw [h0]
        rfl
      · exact h
    subst hu
    have hexec : exec (.commandStart c) s = execCommandStart c s := rfl
    rw [hexec]
    unfold execCommandStart
    simp only [htaken, hserves, hstart, State.startFirst hfirst, hturn, Bool.and_self, Bool.not_false, if_true]

/-! Standard requests (R84, R85, R99, R100, R132). -/

section
variable {s : State} {n : Pos} {d : DevRef} {q : Setup} {x : Device}

theorem State.request_standard {b : Nat} (h : q.isReq 0 b = true) : s.request d x q = s.standardRequest d x q := by
  obtain ⟨hkind, -⟩ := Setup.kind_code h
  simp [State.request, ownRequest, hkind]

/-- Flows to a node's endpoints start afresh; GB has none. -/
def State.resetAt (s : State) (d : DevRef) (hit : BitVec 4 → Bool) : State :=
  match d with
  | .node n => s.resetFlows n hit
  | .gb => s

/-- An endpoint that a standard request may name: 0, or one that is declared. -/
def Device.knows (x : Device) (e : BitVec 4) : Prop := e = 0 ∨ x.epKind e ≠ 0

theorem Device.knows_iff {e : BitVec 4} : (decide (e = 0) || decide (x.epKind e ≠ 0)) = true ↔ x.knows e := by
  rw [Bool.or_eq_true, decide_eq_true_iff, decide_eq_true_iff]
  rfl

theorem State.standard_descriptor {ws : List Word} (hcode : q.code = 1) (hdir : q.dir = true) (hindex : q.value / 256 % 256 = 0)
    (hws : x.descriptor (q.value % 256) = some ws) : s.standardRequest d x q = some (s, ws.take q.count) := by
  simp [State.standardRequest, hcode, hdir, hindex, hws]

theorem State.standard_noDescriptor (hcode : q.code = 1) (hws : x.descriptor (q.value % 256) = none) : s.standardRequest d x q = none := by
  simp [State.standardRequest, hcode, hws]

theorem State.standard_address (hcode : q.code = 2) (hdir : q.dir = false) (hcount : q.count = 0) (hlow : 1 ≤ q.value % 4096)
    (hhigh : q.value % 4096 ≤ 4064) : s.standardRequest d x q =
      some (s.modDevAt d fun y => { y with addrNext := some (BitVec.ofNat 12 q.value) }, []) := by
  have haddr : BitVec.ofNat 12 (q.value % 4096) = BitVec.ofNat 12 q.value := BitVec.eq_of_toNat_eq (by simp)
  simp [State.standardRequest, hcode, hdir, hcount, hlow, hhigh, haddr]

theorem State.standard_config (hcode : q.code = 3) (hdir : q.dir = false) (hcount : q.count = 0) : s.standardRequest d x q =
    some ((s.modDevAt d fun y => y.configure q.value).resetAt d (· != 0), []) := by
  simp [State.standardRequest, hcode, hdir, hcount]
  rfl

theorem State.standard_clearHalt (hcode : q.code = 4) (hdir : q.dir = false) (hcount : q.count = 0) {e : BitVec 4} (he : e = BitVec.ofNat 4 q.index)
    (hknown : x.knows e) : s.standardRequest d x q = some ((s.modDevAt d fun y =>
      if e = 0 then { y with stalled0 := false } else y.modEp e Endpoint.initial).resetAt d (· == e), []) := by
  subst he
  have hknown := Device.knows_iff.mpr hknown
  simp only [State.standardRequest, hcode, hdir, hcount, hknown, Bool.not_false, beq_self_eq_true, Bool.and_self, Nat.reduceEqDiff, reduceIte]
  rfl

theorem State.standard_setHalt (hcode : q.code = 5) (hdir : q.dir = false) (hcount : q.count = 0) {e : BitVec 4} (he : e = BitVec.ofNat 4 q.index)
    (hknown : x.knows e) : s.standardRequest d x q = some (s.modDevAt d fun y =>
      if e = 0 then { y with stalled0 := true } else y.modEp e fun z => { z with halted := true }, []) := by
  subst he
  have hknown := Device.knows_iff.mpr hknown
  simp only [State.standardRequest, hcode, hdir, hcount, hknown, Bool.not_false, beq_self_eq_true, Bool.and_self, Nat.reduceEqDiff, reduceIte]

theorem State.standard_status (hcode : q.code = 6) (hdir : q.dir = true) (hcount : q.count = 1) {e : BitVec 4} (he : e = BitVec.ofNat 4 q.index)
    (hknown : x.knows e) : s.standardRequest d x q = some (s.modDevAt d fun y => (y.status e).2, [(x.status e).1]) := by
  subst he
  have hknown := Device.knows_iff.mpr hknown
  simp only [State.standardRequest, hcode, hdir, hcount, hknown, beq_self_eq_true, Bool.and_self, Nat.reduceEqDiff, reduceIte]

theorem State.standard_pathDelay (hcode : q.code = 7) (hdir : q.dir = false) (hcount : q.count = 0) (htiming : x.timing = true ∨ d = .gb) :
    s.standardRequest d x q =
      some (s.modDevAt d fun y => { y with time := { y.time with dNext := some (BitVec.ofNat 24 q.value) } }, []) := by
  simp [State.standardRequest, hcode, hdir, hcount, htiming]

theorem State.standard_noTiming (hcode : q.code = 7) (htiming : x.timing = false) : s.standardRequest (.node n) x q = none := by
  simp [State.standardRequest, hcode, htiming]

/-- A request that a node refuses stalls its endpoint 0. -/
theorem State.takeSetup_refused (h : s.setupReady n q x = true) (hr : (s.setupStart n).request (.node n) x q = none) :
    s.takeSetup n q true = s.setupStalled n x := by
  simp only [State.setupReady, Bool.and_eq_true, beq_iff_eq, Bool.not_eq_true'] at h
  obtain ⟨⟨hdev, hanswers⟩, hnew⟩ := h
  unfold State.takeSetup
  simp only [hdev, hanswers, if_true]
  refine (if_neg (Bool.eq_false_iff.mp hnew)).trans ?_
  change (match (s.setupStart n).request (.node n) x q with | none => _ | some (s, reply) => _) = _
  rw [hr]
  rfl

/-- A SETUP that repeats that of the unfinished transfer. -/
theorem State.takeSetup_repeat (h : s.setupRepeats n q x = true) : s.takeSetup n q true = s.shake (.node n) x.address hsAck 0 0 := by
  simp only [State.setupRepeats, Bool.and_eq_true, beq_iff_eq] at h
  obtain ⟨⟨hdev, hanswers⟩, hsame⟩ := h
  unfold State.takeSetup
  simp only [hdev, hanswers, if_true]
  exact if_pos hsame

theorem State.gbRequest_taken (h : s.gb.answers = true) {b : Nat} (hq : q.isReq 0 b = true) {u : State} {r : List Word}
    (hr : (s.gbEdge .gb).standardRequest .gb s.gb q = some (u, r)) : s.gbRequest q [] = u.gbTaken s.gb.address r := by
  obtain ⟨hkind, -⟩ := Setup.kind_code hq
  have hset : (decide (q.kindN = 2) && decide (q.code = 0x11) && !q.dir && decide (q.count = 3)) = false := by simp [hkind]
  unfold State.gbRequest
  rw [if_pos h]
  simp only [hset, Bool.false_and, Bool.false_eq_true, if_false, State.request_standard hq, hr]
  rfl

end

/-- Settles O37. -/
theorem standardRequestsArePerformed : Obligations.StandardRequestsArePerformed := by
  unfold Obligations.StandardRequestsArePerformed
  refine ⟨fun s n q x h i hi hwf => ?repeats, fun s g q h hg => ?gb, fun s n q x e he h => ?node⟩
  case repeats =>
    simp only [List.mem_cons, List.not_mem_nil, or_false] at hi
    rcases hi with rfl | rfl | rfl | rfl | rfl | rfl | rfl <;> exact guarded_eq hwf (State.takeSetup_repeat h)
  case gb =>
    subst hg
    have taken {b : Nat} {u : State} {r : List Word} (hq : q.isReq 0 b = true)
        (hr : q.code = b → (s.gbEdge .gb).standardRequest .gb s.gb q = some (u, r)) : s.gbRequest q [] = u.gbTaken s.gb.address r :=
      State.gbRequest_taken h hq (hr (Setup.kind_code hq).2)
    refine ⟨fun hq hdir hindex ws hws => guarded_eq hq (taken hq fun hc => State.standard_descriptor hc hdir hindex hws),
      fun hq hdir hcount he => guarded_eq hq (taken hq fun hc => ?_), fun hdir hcount => ⟨fun hq hlow hhigh => guarded_eq hq
        (taken hq fun hc => State.standard_address hc hdir hcount hlow hhigh), fun hq => guarded_eq hq
        (taken hq fun hc => State.standard_config hc hdir hcount), fun hq he => guarded_eq hq (taken hq fun hc => ?_),
        fun hq he => guarded_eq hq (taken hq fun hc => ?_), fun hq => guarded_eq hq
        (taken hq fun hc => State.standard_pathDelay hc hdir hcount (.inr rfl))⟩⟩
    · exact State.standard_status hc hdir hcount he.symm (.inl rfl)
    · exact State.standard_clearHalt hc hdir hcount he.symm (.inl rfl)
    · exact State.standard_setHalt hc hdir hcount he.symm (.inl rfl)
  case node =>
    have taken {b : Nat} {u : State} {r : List Word} (hq : q.isReq 0 b = true)
        (hr : q.code = b → (s.setupStart n).standardRequest (.node n) x q = some (u, r)) : s.takeSetup n q true = u.setupTaken n q x r :=
      State.takeSetup_ready h u r ((State.request_standard hq).trans (hr (Setup.kind_code hq).2))
    have refused {b : Nat} (hq : q.isReq 0 b = true) (hr : q.code = b → (s.setupStart n).standardRequest (.node n) x q = none) :
        s.takeSetup n q true = s.setupStalled n x :=
      State.takeSetup_refused h ((State.request_standard hq).trans (hr (Setup.kind_code hq).2))
    refine ⟨fun hq hdir hindex ws hws => guarded_eq hq (taken hq fun hc => State.standard_descriptor hc hdir hindex hws),
      fun hq hws => guarded_eq hq (refused hq fun hc => State.standard_noDescriptor hc hws),
      fun hq htiming => guarded_eq hq (refused hq fun hc => State.standard_noTiming hc htiming),
      fun hq hdir hcount hknown => guarded_eq hq (taken hq fun hc => State.standard_status hc hdir hcount he hknown),
      fun hdir hcount => ⟨fun hq hlow hhigh => guarded_eq hq (taken hq fun hc => State.standard_address hc hdir hcount hlow hhigh),
        fun hq => guarded_eq hq (taken hq fun hc => State.standard_config hc hdir hcount), fun hq => ⟨fun h0 => ?_, fun hne hkind => ?_⟩,
        fun hq => ⟨fun h0 => ?_, fun hne hkind => ?_⟩, fun hq htiming => guarded_eq hq
        (taken hq fun hc => State.standard_pathDelay hc hdir hcount (.inl htiming))⟩⟩
    · subst h0
      exact guarded_eq hq (taken hq fun hc => State.standard_clearHalt hc hdir hcount he (.inl rfl))
    · refine guarded_eq hq ((taken hq fun hc => State.standard_clearHalt hc hdir hcount he (.inr hkind)).trans ?_)
      simp only [if_neg hne]
      rfl
    · subst h0
      exact guarded_eq hq (taken hq fun hc => State.standard_setHalt hc hdir hcount he (.inl rfl))
    · refine guarded_eq hq ((taken hq fun hc => State.standard_setHalt hc hdir hcount he (.inr hkind)).trans ?_)
      simp only [if_neg hne]
      rfl

end Sys2Proof.Machine
end

section
/-!
PROOFS. The requests of hubs (O38).
-/

namespace Sys2Proof.Machine

section
variable {s : State} {n : Pos} {q : Setup} {x : Device} {y : Port} {k : Fin 16}

theorem State.request_hub {b : Nat} (h : q.isReq 1 b = true) : s.request (.node n) x q = s.hubRequest x q := by
  obtain ⟨hkind, -⟩ := Setup.kind_code h
  simp [State.request, ownRequest, hkind]

/-- The request names a port that the hub has. -/
structure NamesPort (q : Setup) (x : Device) (k : Fin 16) (y : Port) : Prop where
  number : k.val = q.index % 16
  port : x.ports[k.val]? = some y
  within : k.val < x.nports

/-- The part of a hub's request past the look-up of its port. -/
theorem State.hubRequest_port (h : NamesPort q x k y) (hcode : q.code ≠ 5) (htier : q.code = 1 ∨ x.tier ≠ 0) : s.hubRequest x q =
    if q.code = 1 then (if q.dir && q.count == 1 then some (s, [y.word]) else none)
    else if q.code = 2 then
      if q.dir && q.count == 4 then
        some (s.modPort (.hub x.pos k) fun y => { y with errs := PortErrors.init },
          [y.errs.blk.zeroExtend 36, y.errs.crc.zeroExtend 36, y.errs.misroute.zeroExtend 36, y.errs.collision.zeroExtend 36])
      else none
    else if q.code = 3 then
      if !q.dir && q.count == 0 then (s.setFeature x.pos k (q.value % 256) x.link.course).map fun s => (s, []) else none
    else if q.code = 4 then
      if !q.dir && q.count == 0 then (s.clearFeature x.pos k (q.value % 256)).map fun s => (s, []) else none
    else if q.code = 6 then
      if q.dir && q.count == 1 then
        some (s, [BitVec.ofNat 36 (y.delay.oneWay.toNat + y.delay.valid.toNat * 2 ^ 20 + y.delay.stale.toNat * 2 ^ 21)])
      else none
    else none := by
  obtain ⟨hnumber, hport, hwithin⟩ := h
  have hk : Fin.ofNat 16 k.val = k := finOfNat_of_eq rfl
  unfold State.hubRequest
  rw [if_neg (by omega), if_neg hcode]
  simp only [← hnumber, hk]
  rw [if_neg (by omega), hport, Option.bind_some]
  by_cases h1 : q.code = 1
  · rw [if_pos h1, if_pos h1]
  · rw [if_neg h1, if_neg h1, if_neg (htier.resolve_left h1)]
    rfl

/-- A request that names a port which the hub does not have, or comes before the hub has its tier. -/
theorem State.hubRequest_refused (hcode : q.code ≠ 5) (h : x.nports ≤ q.index % 16 ∨ (q.code ≠ 1 ∧ x.tier = 0)) : s.hubRequest x q = none := by
  unfold State.hubRequest
  by_cases hleaf : x.nports = 0
  · exact if_pos hleaf
  rw [if_neg hleaf, if_neg hcode]
  by_cases hport : x.nports ≤ q.index % 16
  · exact if_pos hport
  · obtain ⟨h1, htier⟩ := h.resolve_left hport
    rw [if_neg hport]
    cases x.ports[q.index % 16]? with
    | none => rfl
    | some y => rw [Option.bind_some, if_neg h1, if_pos htier]

/-- A feature that does not fit the state of its port. -/
def Port.refusesSet (y : Port) (f : Nat) : Prop :=
  (f = 2 ∧ y.state ≠ .disabled ∧ y.state ≠ .enabled ∧ y.state ≠ .suspended) ∨ (f = 3 ∧ y.state ≠ .enabled) ∨
    (f = 4 ∧ y.state ≠ .suspended ∧ y.state ≠ .resuming) ∨ f = 5 ∨ (f = 7 ∧ y.state ≠ .enabled) ∨ (0x10 ≤ f ∧ f ≤ 0x15)

def Port.refusesClear (y : Port) (f : Nat) : Prop := f = 2 ∨ f = 3 ∨ f = 4 ∨ (f = 5 ∧ y.state ≠ .enabled) ∨ f = 7

theorem State.setFeature_refused {f : Nat} {c : BitVec 24} (hp : s.port (.hub n k) = some y) (h : y.refusesSet f) :
    s.setFeature n k f c = none := by
  rw [State.setFeature, hp, Option.bind_some]
  rcases h with ⟨rfl, h1, h2, h3⟩ | ⟨rfl, h1⟩ | ⟨rfl, h1, h2⟩ | rfl | ⟨rfl, h1⟩ | ⟨h1, h2⟩
  · simp [h1, h2, h3]
  · simp [h1]
  · simp [h1, h2]
  · simp
  · simp [h1]
  · repeat rw [if_neg (by omega)]

theorem State.clearFeature_refused {f : Nat} (hp : s.port (.hub n k) = some y) (h : y.refusesClear f) : s.clearFeature n k f = none := by
  rw [State.clearFeature, hp, Option.bind_some]
  rcases h with rfl | rfl | rfl | ⟨rfl, h1⟩ | rfl
  · simp
  · simp
  · simp
  · simp [h1]
  · simp

/-- What a node keeps while its SETUP is performed: the ports of a hub stand. -/
theorem State.setupStart_port (h : s.setupReady n q x = true) : (s.setupStart n).port (.hub n k) = x.ports[k.val]? := by
  obtain ⟨hdev, -⟩ := State.setupReady_dev h
  have hstart := State.dev_modDev (fun y => { y with ctrl := none, stalled0 := false, addrNext := none }) (fun _ => rfl) hdev
  have hport := State.port_hub (k := k) hstart
  exact hport

/-- The port of the request, at the place of the hub. -/
theorem State.setupStart_named (h : s.setupReady n q x = true) (hk : k.val = q.index % 16) (hport : x.ports[q.index % 16]? = some y) :
    (s.setupStart n).port (.hub x.pos k) = some y := by
  rw [State.dev_pos (State.setupReady_dev h).1, State.setupStart_port h, hk, hport]

/-- The writes of a feature, once the hub has its tier. -/
theorem State.hubRequest_set (h : NamesPort q x k y) (hcode : q.code = 3) (htier : x.tier ≠ 0) (hdir : q.dir = false) (hcount : q.count = 0)
    {u : State} (hu : s.setFeature x.pos k (q.value % 256) x.link.course = some u) : s.hubRequest x q = some (u, []) := by
  rw [State.hubRequest_port h (by omega) (.inr htier)]
  simp [hcode, hdir, hcount, hu]

theorem State.hubRequest_clear (h : NamesPort q x k y) (hcode : q.code = 4) (htier : x.tier ≠ 0) (hdir : q.dir = false) (hcount : q.count = 0)
    {u : State} (hu : s.clearFeature x.pos k (q.value % 256) = some u) : s.hubRequest x q = some (u, []) := by
  rw [State.hubRequest_port h (by omega) (.inr htier)]
  simp [hcode, hdir, hcount, hu]

theorem State.hubRequest_misfit (hport : x.ports[q.index % 16]? = some y)
    (hcode : (q.code = 3 ∧ ∀ k : Fin 16, k.val = q.index % 16 → s.setFeature x.pos k (q.value % 256) x.link.course = none) ∨
      (q.code = 4 ∧ ∀ k : Fin 16, k.val = q.index % 16 → s.clearFeature x.pos k (q.value % 256) = none)) : s.hubRequest x q = none := by
  have hcodes : q.code = 3 ∨ q.code = 4 := hcode.imp And.left And.left
  by_cases hbad : x.nports ≤ q.index % 16 ∨ x.tier = 0
  · exact State.hubRequest_refused (by omega) (hbad.imp_right fun htier => ⟨by omega, htier⟩)
  · obtain ⟨hwithin, htier⟩ := not_or.mp hbad
    have hnames : NamesPort q x ⟨q.index % 16, Nat.mod_lt _ (by decide)⟩ y := ⟨rfl, hport, Nat.not_le.mp hwithin⟩
    rw [State.hubRequest_port hnames (by omega) (.inr htier)]
    rcases hcode with ⟨h, hnone⟩ | ⟨h, hnone⟩ <;> simp [h, hnone]

end

/-- Settles O38. -/
theorem hubRequestsArePerformed : Obligations.HubRequestsArePerformed := by
  unfold Obligations.HubRequestsArePerformed
  refine ⟨fun s n q x h i hi hwf => ?repeats, fun s n q x h hbad i hi hwf => ?refused, fun s n q x h hbad hq => ?status,
    fun s n q x y f h hport hf => ⟨fun hq hbad => ?misfit, fun hq hbad => ?misclear⟩, fun s n q x k y h hnumber hport hwithin => ?port⟩
  case repeats =>
    simp only [List.mem_cons, List.not_mem_nil, or_false] at hi
    rcases hi with rfl | rfl | rfl | rfl | rfl | rfl <;> exact guarded_eq hwf (State.takeSetup_repeat h)
  case refused =>
    have stalled {b : Nat} (hq : q.isReq 1 b = true) (h1 : b ≠ 1) (h5 : b ≠ 5) : s.takeSetup n q true = s.setupStalled n x := by
      obtain ⟨-, hcode⟩ := Setup.kind_code hq
      refine State.takeSetup_refused h ((State.request_hub hq).trans (State.hubRequest_refused (by omega) ?_))
      exact hbad.imp_right fun htier => ⟨by omega, htier⟩
    simp only [List.mem_cons, List.not_mem_nil, or_false] at hi
    rcases hi with rfl | rfl | rfl | rfl <;> exact guarded_eq hwf (stalled hwf (by decide) (by decide))
  case status =>
    obtain ⟨-, hcode⟩ := Setup.kind_code hq
    exact guarded_eq hq (State.takeSetup_refused h ((State.request_hub hq).trans (State.hubRequest_refused (by omega) (.inl hbad))))
  case misfit =>
    subst hf
    obtain ⟨-, hcode⟩ := Setup.kind_code hq
    refine guarded_eq hq (State.takeSetup_refused h ((State.request_hub hq).trans (State.hubRequest_misfit hport (.inl ⟨hcode, fun k hk => ?_⟩))))
    exact State.setFeature_refused (State.setupStart_named h hk hport) hbad
  case misclear =>
    subst hf
    obtain ⟨-, hcode⟩ := Setup.kind_code hq
    refine guarded_eq hq (State.takeSetup_refused h ((State.request_hub hq).trans (State.hubRequest_misfit hport (.inr ⟨hcode, fun k hk => ?_⟩))))
    exact State.clearFeature_refused (State.setupStart_named h hk hport) hbad
  case port =>
    have hnames : NamesPort q x k y := ⟨hnumber, hport, hwithin⟩
    have hpos : x.pos = n := State.dev_pos (State.setupReady_dev h).1
    have hread : (s.setupStart n).port (.hub n k) = some y := (State.setupStart_port h).trans hport
    have taken {b : Nat} {u : State} {r : List Word} (hq : q.isReq 1 b = true)
        (hr : q.code = b → (s.setupStart n).hubRequest x q = some (u, r)) : s.takeSetup n q true = u.setupTaken n q x r :=
      State.takeSetup_ready h u r ((State.request_hub hq).trans (hr (Setup.kind_code hq).2))
    refine ⟨fun hq hdir hcount => guarded_eq hq (taken hq fun hc => ?status), fun hq hdir hcount hlow hhigh => guarded_eq hq
      (taken hq fun hc => ?tier), fun htier => ⟨fun hq hdir hcount => guarded_eq hq (taken hq fun hc => ?errors),
      fun hq hdir hcount => guarded_eq hq (taken hq fun hc => ?delay), fun hdir hcount => ⟨fun hq => ?set, fun hq => ?clear⟩⟩⟩
    case status =>
      rw [State.hubRequest_port hnames (by omega) (.inl hc)]
      simp [hc, hdir, hcount]
    case tier =>
      unfold State.hubRequest
      have hhub : x.nports ≠ 0 := by omega
      simp [hc, hdir, hcount, hhub, hlow, hhigh, hpos]
    case errors =>
      rw [State.hubRequest_port hnames (by omega) (.inr htier)]
      simp [hc, hdir, hcount, hpos]
    case delay =>
      rw [State.hubRequest_port hnames (by omega) (.inr htier)]
      simp [hc, hdir, hcount]
    case set =>
      have set {u : State} (hu : (s.setupStart n).setFeature n k (q.value % 256) x.link.course = some u) :
          exec (.setPortFeature (.node n) q) s = .next (u.setupTaken n q x []) :=
        guarded_eq hq (taken hq fun hc => State.hubRequest_set hnames hc htier hdir hcount (hpos ▸ hu))
      refine ⟨fun hf hst => set ?_, fun hf hst => set ?_, fun hf hst => set ?_, fun hf hst => set ?_, fun hf hst => set ?_, fun hf => set ?_,
        fun hf hst => set ?_⟩
      all_goals rw [State.setFeature, hread, Option.bind_some, hf]
      · rcases hst with e | e <;> simp [e]
      · rcases hst with e | e | e <;> simp [e]
      · simp [hst]
      · simp [hst]
      · simp [hst]
      · simp
      · have hrate : (y.rx.rate == some .hr && (!y.stepPending || y.stepFrom == 0)) = true ↔
            y.rx.rate = some .hr ∧ (y.stepPending = false ∨ y.stepFrom = 0) := by simp
        simp only [hst, hrate, beq_self_eq_true, Nat.reduceEqDiff, reduceIte]
        exact (apply_ite some _ _ _).symm
    case clear =>
      have clear {u : State} (hu : (s.setupStart n).clearFeature n k (q.value % 256) = some u) :
          exec (.clearPortFeature (.node n) q) s = .next (u.setupTaken n q x []) :=
        guarded_eq hq (taken hq fun hc => State.hubRequest_clear hnames hc htier hdir hcount (hpos ▸ hu))
      refine ⟨fun hf => clear ?_, fun hf hst => clear ?_, fun hf => clear ?_, fun b hf hb => clear ?_⟩
      all_goals rw [State.clearFeature, hread, Option.bind_some, hf]
      · simp
      · simp [hst]
      · simp
      · rw [if_neg (by omega), if_neg (by omega), if_neg (by omega), if_pos (by omega), Nat.add_sub_cancel_left]

end Sys2Proof.Machine
end

section
/-!
PROOFS. Hubs forward (O44).
-/

namespace Sys2Proof.Machine

section
variable {s : State} {h : Pos} {x : Device} {k : Fin 16} {pkt : Wire}

/-- A hub that is up and reads the packet's first word. -/
structure State.HubReads (s : State) (h : Pos) (x : Device) (pkt : Wire) (w : Word) (rest : Packet) : Prop where
  hub : s.hubAt (.node h) = some x
  up : x.link.phase = .up
  read : s.receive (.down (.node h)) pkt = some w :: rest
  low : 1 ≤ wbits w 35 32
  high : wbits w 35 32 ≤ tBulkAck

/-- What a hub does with a packet whose way is known. -/
def State.hubRoute (s : State) (h : Pos) (x : Device) (on : Wire) (own : State → State) (way : HubWay) : State :=
  match way with
  | .discard => s
  | .all => own (x.enabledPorts.foldl (fun (s : State) p => s.emit (.forward (.up p) on)) s)
  | .self => own s
  | .port p =>
    if p ≥ x.nports || x.tier = 0 then s
    else if s.enabled (.hub h (Fin.ofNat 16 p)) then s.emit (.forward (.up (.hub h (Fin.ofNat 16 p))) on)
    else s.modPort (.hub h (Fin.ofNat 16 p)) fun y => { y with errs := { y.errs with misroute := inc32 y.errs.misroute } }

theorem exec_hubDownstreamForward {w : Word} {rest : Packet} (hr : s.HubReads h x pkt w rest) : exec (.hubDownstreamForward h pkt) s =
    .next (s.hubRoute h x { pkt with blocks := hubBlocks (some w :: rest) pkt.blocks }
      (fun u => (u.heardAt (.node h) pkt).nodeTake h (some w :: rest) false none none) (x.way w)) := by
  have hlow := hr.low
  have hhigh := hr.high
  have hexec : exec (.hubDownstreamForward h pkt) s = execHubDownstreamForward h pkt s := rfl
  rw [hexec]
  unfold execHubDownstreamForward
  simp only [hr.hub, hr.read, hr.up, beq_self_eq_true, if_true]
  rw [if_neg (by omega)]
  cases x.way w <;> rfl

theorem State.hubRoute_port {on : Wire} {own : State → State} (hk : k.val < x.nports) (htier : x.tier ≠ 0) : s.hubRoute h x on own (.port k.val) =
    if s.enabled (.hub h k) then s.emit (.forward (.up (.hub h k)) on)
    else s.modPort (.hub h k) fun y => { y with errs := { y.errs with misroute := inc32 y.errs.misroute } } := by
  have hport : Fin.ofNat 16 k.val = k := finOfNat_of_eq rfl
  have hfound : ¬ ((decide (k.val ≥ x.nports) || decide (x.tier = 0)) = true) := by
    rw [Bool.or_eq_true, decide_eq_true_iff, decide_eq_true_iff]
    exact not_or.mpr ⟨Nat.not_le.mpr hk, htier⟩
  unfold State.hubRoute
  simp only [hport]
  exact if_neg hfound

/-- A CRC that fails is counted at its port. -/
def State.countCrc (s : State) (p : PortRef) (r : Parsed) : State :=
  match r with
  | .bad true => s.modPort p fun y => { y with errs := { y.errs with crc := inc32 y.errs.crc } }
  | _ => s

theorem State.countCrc_intact {p : PortRef} {r : Parsed} (h : r ≠ .bad true) : s.countCrc p r = s := by
  unfold State.countCrc
  split
  · contradiction
  · rfl

/-- One arrival goes up, or as much of it as meets nothing. -/
def State.upArrival (s : State) (h : Pos) (live : List (Fin 16 × Wire)) (a : Fin 16 × Wire) : State :=
  let p := PortRef.hub h a.1
  let s := s.countCrc p (parsePacket (s.receive (.up p) a.2))
  let n := clearPart live a
  let part := (a.2.blocks.take n).map fun b => if Block.isData b then b else Block.killed b
  let s := if n = 0 then s else s.emit (.forward (.down (.node h)) { a.2 with blocks := part })
  if n < a.2.blocks.length then s.modPort p fun y => { y with errs := { y.errs with collision := inc32 y.errs.collision } } else s

theorem exec_hubUpstreamForward (hhub : s.hubAt (.node h) = some x) (hup : x.link.phase = .up) {l : List (Fin 16 × Wire)}
    (hl : ∀ a ∈ l, s.enabled (.hub h a.1) = true) : exec (.hubUpstreamForward h l) s = .next (l.foldl (fun s a => s.upArrival h l a) s) := by
  have hlive : (l.filter fun a => s.enabled (.hub h a.1)) = l := List.filter_eq_self.mpr hl
  have hexec : exec (.hubUpstreamForward h l) s = execHubUpstreamForward h l s := rfl
  rw [hexec]
  unfold execHubUpstreamForward
  simp only [hhub, hup, beq_self_eq_true, if_true, hlive]
  rfl

/-- The blocks of an arrival that no lower port's arrival meets all go up. -/
theorem clearPart_first {all : List (Fin 16 × Wire)} {a : Fin 16 × Wire} (h : ∀ b ∈ all, a.1.val ≤ b.1.val) :
    clearPart all a = a.2.blocks.length := by
  have hlower : (all.filter fun b => b.1.val < a.1.val) = [] := by
    rw [List.filter_eq_nil_iff]
    intro b hb
    have := h b hb
    simp; omega
  simp only [clearPart, hlower, List.any_nil]
  rw [List.find?_eq_none.mpr (by simp)]
  rfl

/-- An arrival whose first block meets a block of a lower port goes nowhere. -/
theorem clearPart_met {all : List (Fin 16 × Wire)} {a b : Fin 16 × Wire} (hb : b ∈ all) (hlow : b.1.val < a.1.val) (hne : a.2.blocks ≠ [])
    (hfirst : b.2.first ≤ a.2.first) (hlast : a.2.first < b.2.first + b.2.blocks.length) : clearPart all a = 0 := by
  have hlen : 0 < a.2.blocks.length := List.length_pos_iff.mpr hne
  obtain ⟨m, hm⟩ : ∃ m, a.2.blocks.length = m + 1 := ⟨_, (Nat.succ_pred_eq_of_pos hlen).symm⟩
  simp only [clearPart, hm, List.range_succ_eq_map]
  rw [List.find?_cons_of_pos]
  · rfl
  · refine List.any_eq_true.mpr ⟨b, List.mem_filter.mpr ⟨hb, decide_eq_true hlow⟩, ?_⟩
    simp [hfirst, hlast]

/-- An arrival that is not damaged. -/
theorem State.upArrival_intact {live : List (Fin 16 × Wire)} {a : Fin 16 × Wire}
    (hgood : parsePacket (s.receive (.up (.hub h a.1)) a.2) ≠ .bad true) : s.upArrival h live a =
      let n := clearPart live a
      let u := if n = 0 then s else s.emit (.forward (.down (.node h))
        { a.2 with blocks := (a.2.blocks.take n).map fun b => if Block.isData b then b else Block.killed b })
      if n < a.2.blocks.length then u.modPort (.hub h a.1) fun y => { y with errs := { y.errs with collision := inc32 y.errs.collision } }
      else u := by
  simp only [State.upArrival, State.countCrc_intact hgood]

end

/-- Settles O44. -/
theorem hubsForward : Obligations.HubsForward := by
  unfold Obligations.HubsForward
  intro s h x hdev hports hup
  have hhub := State.hubAt_hub hdev hports
  refine ⟨fun pkt on w rest own hread hlow hhigh hon hown => ?down, fun k pkt up hen hgood hne hup' => ⟨?one, fun j other hlt hen' hgood' hne' hfirst hlast => ?two⟩⟩
  case down =>
    have hall := exec_hubDownstreamForward (s := s) ⟨hhub, hup, hread, hlow, hhigh⟩
    rw [← hon, ← funext hown] at hall
    rw [hall]
    refine ⟨fun hw => ?_, fun hw => ?_, fun hw => ?_, fun k hw hk htier => ?_⟩ <;> rw [hw]
    · rfl
    · rfl
    · rfl
    · rw [State.hubRoute_port hk htier]
  case one =>
    have hclear : clearPart [(k, pkt)] (k, pkt) = pkt.blocks.length := clearPart_first (by simp)
    rw [exec_hubUpstreamForward hhub hup (by simp [hen]), List.foldl_cons, List.foldl_nil, State.upArrival_intact hgood]
    simp only [hclear, List.length_eq_zero_iff, hne, if_false, List.take_length, Nat.lt_irrefl, hup']
  case two =>
    have hclear : clearPart [(k, pkt), (j, other)] (k, pkt) = pkt.blocks.length := clearPart_first (by simp; omega)
    have hmet : clearPart [(k, pkt), (j, other)] (j, other) = 0 := clearPart_met (b := (k, pkt)) (by simp) hlt hne' hfirst hlast
    have hlen : 0 < other.blocks.length := List.length_pos_iff.mpr hne'
    have hkept : parsePacket ((s.emit (.forward (.down (.node h)) up)).receive (.up (.hub h j)) other) ≠ .bad true := hgood'
    have hfst : s.upArrival h [(k, pkt), (j, other)] (k, pkt) = s.emit (.forward (.down (.node h)) up) := by
      rw [State.upArrival_intact hgood]
      simp only [hclear, List.length_eq_zero_iff, hne, if_false, List.take_length, Nat.lt_irrefl, hup']
    rw [exec_hubUpstreamForward hhub hup (by simp [hen, hen']), List.foldl_cons, List.foldl_cons, List.foldl_nil, hfst,
      State.upArrival_intact hkept]
    simp only [hmet, if_true, hlen]

end Sys2Proof.Machine
end

section
/-!
PROOFS. Packets at a node (O39).
-/

namespace Sys2Proof.Machine

section
variable {s t : State} {n : Pos} {x : Device} {w : Wire} {pkt : Packet} {h : Header} {ws : List Word} {l busy : Bool}

/-- A device that answers stands at a place. -/
structure State.Answers (t : State) (n : Pos) (x : Device) : Prop where
  dev : t.dev n = some x
  answers : x.answers = true

theorem State.arrive_read {kind : Packet → Bool} {sample own : Option (List Word)} (hkind : kind (s.receive (.down (.node n)) w) = true) :
    s.arrive n w kind busy sample own = (s.heardAt (.node n) w).nodeTake n (s.receive (.down (.node n)) w) busy sample own := if_pos hkind

theorem State.nodeTake_out {sample own : Option (List Word)} (ht : t.Answers n x) (hp : parsePacket pkt = .data h ws l false) (hty : h.ty = tOut) :
    t.nodeTake n pkt busy sample own = t.nodeOut n x h ws false busy := by
  unfold State.nodeTake
  simp only [ht.dev, ht.answers, hp, hty, if_true]

theorem State.nodeTake_setup {sample own : Option (List Word)} (ht : t.Answers n x) (hp : parsePacket pkt = .data h ws l false)
    (hty : h.ty = tSetup) : t.nodeTake n pkt busy sample own = t.nodeSetup n x h ws false own := by
  have hother : ¬ tSetup = tOut := by decide
  unfold State.nodeTake
  simp only [ht.dev, ht.answers, hp, hty, if_true, if_neg hother]

theorem State.nodeTake_token {sample own : Option (List Word)} (ht : t.Answers n x) (hp : parsePacket pkt = .token h) :
    t.nodeTake n pkt busy sample own = t.nodeIn n x h sample busy := by
  unfold State.nodeTake
  simp only [ht.dev, ht.answers, hp, if_true]

theorem State.nodeTake_shake {sample own : Option (List Word)} {k : Shake} (ht : t.Answers n x) (hp : parsePacket pkt = .shake k) :
    t.nodeTake n pkt busy sample own = t.nodeShake n x k := by
  unfold State.nodeTake
  simp only [ht.dev, ht.answers, hp, if_true]

/-- An OUT to every node is applied by those that have the endpoint (R64). -/
theorem State.nodeOut_broadcast (hrel : h.rel ≠ 3) (haddr : h.addr = 4095) (hkind : x.epKind h.ep = 1) :
    t.nodeOut n x h ws false busy = t.applyOut n h.ep ws := by
  unfold State.nodeOut
  simp only [Bool.false_or, decide_eq_true_iff, if_neg hrel, if_pos haddr, hkind, if_true]

theorem State.nodeOut_own (hrel : h.rel ≠ 3) (haddr : h.addr = x.address) (hall : h.addr ≠ 4095) (hep : h.ep ≠ 0) (hkind : x.epKind h.ep = 1) :
    t.nodeOut n x h ws false busy = t.takeOut n x h ws busy := by
  have hown : ¬ (h.addr != x.address) = true := by rw [haddr, bne_self_eq_false]; exact Bool.false_ne_true
  unfold State.nodeOut
  simp only [Bool.false_or, decide_eq_true_iff, if_neg hrel, if_neg hall, if_neg hown, if_neg hep, hkind, if_true]

/-- The answer of a node to an OUT, which NOACK leaves out. -/
def State.sayOut (x : Device) (n : Pos) (h : Header) (u : State) (code : BitVec 4) : State :=
  if h.noack then u else u.shake (.node n) x.address code h.ep (h.seq &&& 1)

/-- The endpoint expects the other toggle. -/
def State.flipToggle (u : State) (n : Pos) (ep : BitVec 4) : State :=
  u.modDev n fun y => y.modEp ep fun e => { e with expToggle := !e.expToggle }

theorem State.takeOut_hold (hhold : h.hold = true) : t.takeOut n x h ws busy = State.sayOut x n h (t.applyOut n h.ep ws) hsAck :=
  if_pos hhold

theorem State.takeOut_halted (hhold : h.hold = false) (hhalt : (x.ep h.ep).halted = true) :
    t.takeOut n x h ws busy = State.sayOut x n h t hsStall :=
  (if_neg (Bool.eq_false_iff.mp hhold)).trans (if_pos hhalt)

theorem State.takeOut_stale (hhold : h.hold = false) (hhalt : (x.ep h.ep).halted = false) (hturn : h.seq.getLsbD 0 ≠ (x.ep h.ep).expToggle) :
    t.takeOut n x h ws busy = State.sayOut x n h t hsAck :=
  (if_neg (Bool.eq_false_iff.mp hhold)).trans ((if_neg (Bool.eq_false_iff.mp hhalt)).trans (if_pos (bne_iff_ne.mpr hturn)))

/-- An OUT in turn at an endpoint that is not halted. -/
theorem State.takeOut_turn (hhold : h.hold = false) (hhalt : (x.ep h.ep).halted = false) (hturn : h.seq.getLsbD 0 = (x.ep h.ep).expToggle) :
    t.takeOut n x h ws busy =
      if busy then State.sayOut x n h t hsNak
      else if h.rel = 0 then State.sayOut x n h ((t.applyOut n h.ep ws).flipToggle n h.ep) hsAck
      else
        let word := (ws[0]?).getD 0
        let body := ws.drop 1
        let now := x.localNs t.time.mono
        let at_ := fullTime word now
        let late := !x.time.valid || decide (at_ < (now : Int))
        let depth := wbits ((x.board.desc[4]?).getD 0) 31 24
        if late then
          let s := (t.modDev n fun x => x.lateRelease h.ep h.tag).flipToggle n h.ep
          State.sayOut x n h (if h.rel = 2 then s.applyOut n h.ep body else s) hsAck
        else if (x.ep h.ep).releases.length ≥ depth then State.sayOut x n h t hsNak
        else
          let r : Release := ⟨BitVec.ofInt 64 at_, h.rel == 2, h.tag, body⟩
          State.sayOut x n h ((t.modDev n fun x => x.modEp h.ep fun e => { e with releases := e.releases ++ [r] }).flipToggle n h.ep) hsAck := by
  have hsame : ¬ (h.seq.getLsbD 0 != (x.ep h.ep).expToggle) = true := by rw [hturn, bne_self_eq_false]; exact Bool.false_ne_true
  exact (if_neg (Bool.eq_false_iff.mp hhold)).trans ((if_neg (Bool.eq_false_iff.mp hhalt)).trans (if_neg hsame))

theorem State.takeOut_now (hhold : h.hold = false) (hhalt : (x.ep h.ep).halted = false) (hturn : h.seq.getLsbD 0 = (x.ep h.ep).expToggle)
    (hrel : h.rel = 0) : t.takeOut n x h ws false = State.sayOut x n h ((t.applyOut n h.ep ws).flipToggle n h.ep) hsAck := by
  rw [State.takeOut_turn hhold hhalt hturn, if_neg Bool.false_ne_true, if_pos hrel]

theorem State.takeOut_timed (hhold : h.hold = false) (hhalt : (x.ep h.ep).halted = false) (hturn : h.seq.getLsbD 0 = (x.ep h.ep).expToggle)
    (hrel : h.rel ≠ 0) (hvalid : x.time.valid = true) {now : Nat} {at_ : Int} (hnow : now = x.localNs t.time.mono)
    (hat : at_ = fullTime ((ws[0]?).getD 0) now) (hdue : (now : Int) ≤ at_)
    (hroom : (x.ep h.ep).releases.length < wbits ((x.board.desc[4]?).getD 0) 31 24) : t.takeOut n x h ws false =
      State.sayOut x n h ((t.modDev n fun y => y.modEp h.ep fun e => { e with releases := e.releases ++
        [⟨BitVec.ofInt 64 at_, h.rel == 2, h.tag, ws.drop 1⟩] }).flipToggle n h.ep) hsAck := by
  subst hnow hat
  have hlate : ¬ ((!x.time.valid || decide (fullTime ((ws[0]?).getD 0) (x.localNs t.time.mono) < (x.localNs t.time.mono : Int))) = true) := by
    rw [hvalid, decide_eq_false (by omega)]
    exact Bool.false_ne_true
  rw [State.takeOut_turn hhold hhalt hturn, if_neg Bool.false_ne_true, if_neg hrel]
  exact (if_neg hlate).trans (if_neg (Nat.not_le.mpr hroom))

/-- An IN token at a periodic or paced endpoint of a node, with a new sample. -/
theorem State.nodeIn_sample (haddr : h.addr = x.address) (hnoack : h.noack = false) (hep : h.ep ≠ 0) (hkind : x.epKind h.ep = 2)
    (hleaf : x.nports = 0) (hhalt : (x.ep h.ep).halted = false) : t.nodeIn n x h (some ws) busy =
      (t.freeWord.2.modDev n fun y => y.modEp h.ep fun e => { e with sample := some ws }).sendData (.node n) h.route x.address h.ep
        (if (x.ep h.ep).sendToggle then 1 else 0) (sized t.freeWord.1 ws h.len) false := by
  have hown : ¬ (h.addr != x.address || h.noack) = true := by rw [haddr, hnoack, bne_self_eq_false]; exact Bool.false_ne_true
  unfold State.nodeIn
  simp only [if_neg hown, if_neg hep, hkind, if_true, State.sampleIn, hhalt, Bool.false_eq_true, if_false]
  simp [hleaf]

theorem State.nodeSetup_own {w0 w1 : Word} {own : Option (List Word)} (haddr : h.addr = x.address) (hep : h.ep = 0) :
    t.nodeSetup n x h [w0, w1] false own = t.takeSetup n ⟨w0, w1⟩ (!h.noack) own := by
  have hown : ¬ (h.addr != x.address || false) = true := by rw [haddr, bne_self_eq_false]; exact Bool.false_ne_true
  unfold State.nodeSetup
  rw [if_neg hown, if_neg fun hne => hne hep]

theorem State.nodeShake_ack {k : Shake} (haddr : k.addr = x.address) (hep : k.ep ≠ 0) (hbulk : k.bulk = false) (hcode : k.code = hsAck) :
    t.nodeShake n x k = t.modDev n fun y => y.modEp k.ep fun e =>
      if e.sample.isSome && k.seq.getLsbD 0 == e.sendToggle then { e with sendToggle := !e.sendToggle } else e := by
  unfold State.nodeShake
  simp only [haddr, beq_self_eq_true, Bool.true_or, Bool.not_true, Bool.false_eq_true, if_false, if_neg hep, hbulk, hcode, if_true]

/-- A change of a device that leaves it as another does is the same change. -/
theorem State.modDev_congr {f g : Device → Device} (hfg : ∀ y ∈ s.devices, y.pos = n → f y = g y) : s.modDev n f = s.modDev n g := by
  unfold State.modDev
  congr 1
  refine List.map_congr_left fun y hy => ?_
  by_cases hpos : y.pos = n
  · rw [if_pos (beq_iff_eq.mpr hpos), if_pos (beq_iff_eq.mpr hpos), hfg y hy hpos]
  · rw [if_neg fun e => hpos (beq_iff_eq.mp e), if_neg fun e => hpos (beq_iff_eq.mp e)]

theorem exec_releaseFire {ep : BitVec 4} {r : Release} (hdev : s.dev n = some x) (hr : nextRelease (x.ep ep).releases = some r) {u : State}
    (hu : u = s.modDev n fun y => y.modEp ep fun e => { e with releases := e.releases.erase r }) : exec (.releaseFire n ep) s =
      .next (if x.time.valid then u.applyOut n ep r.payload
        else if r.lateFire then (u.modDev n fun y => y.lateRelease ep r.tag).applyOut n ep r.payload
        else u.modDev n fun y => y.lateRelease ep r.tag) := by
  subst hu
  have hexec : exec (.releaseFire n ep) s = execReleaseFire n ep s := rfl
  rw [hexec]
  unfold execReleaseFire
  simp only [hdev, hr]

end

/-- Settles O39. -/
theorem nodePacketsAreTaken : Obligations.NodePacketsAreTaken := by
  unfold Obligations.NodePacketsAreTaken
  refine ⟨fun s n w t x ht hdev hans pkt h ws l hpkt => ?packets, fun s n x ep r hdev hr => ⟨fun hvalid => ?_, fun hvalid => ?_⟩,
    fun s n hall => congrArg Host.Outcome.next (State.modDev_congr fun y hy hpos => ?_)⟩
  case packets =>
    subst ht hpkt
    have hanswers : (s.heardAt (.node n) w).Answers n x := ⟨hdev, hans⟩
    refine ⟨fun hty hk hp haddr hkind hrel busy => congrArg Host.Outcome.next ((State.arrive_read hk).trans
        ((State.nodeTake_out hanswers hp hty).trans (State.nodeOut_broadcast hrel haddr hkind))),
      fun hty hk hp haddr hall hep hkind hrel busy say hsay => ?out,
      fun hk hp haddr hnoack hep hkind hleaf hhalt busy => congrArg Host.Outcome.next ((State.arrive_read hk).trans
        ((State.nodeTake_token hanswers hp).trans (State.nodeIn_sample haddr hnoack hep hkind hleaf hhalt))),
      fun w0 w1 own hty hk hp haddr hep => congrArg Host.Outcome.next ((State.arrive_read hk).trans
        ((State.nodeTake_setup hanswers hp hty).trans (State.nodeSetup_own haddr hep))),
      fun k hk hp haddr hep hbulk hcode => congrArg Host.Outcome.next ((State.arrive_read (by rw [hk]; rfl)).trans
        ((State.nodeTake_shake hanswers hp).trans (State.nodeShake_ack haddr hep hbulk hcode)))⟩
    case out =>
      obtain rfl : say = State.sayOut x n h := funext fun u => funext fun code => hsay u code
      have take {u : State} (hu : (s.heardAt (.node n) w).takeOut n x h ws busy = u) : exec (.outReceive n w busy) s = .next u :=
        congrArg Host.Outcome.next ((State.arrive_read hk).trans ((State.nodeTake_out hanswers hp hty).trans
          ((State.nodeOut_own hrel haddr hall hep hkind).trans hu)))
      refine ⟨fun hhold => take (State.takeOut_hold hhold), fun hhold hhalt => take (State.takeOut_halted hhold hhalt), fun hhold hhalt =>
        ⟨fun hturn => take (State.takeOut_stale hhold hhalt hturn), fun hturn hbusy => take ?_, fun hturn hbusy => ⟨fun h0 => take ?_,
          fun h0 hvalid hdue hroom => take ?_⟩⟩⟩
      · rw [State.takeOut_turn hhold hhalt hturn, if_pos hbusy]
      · subst hbusy
        exact State.takeOut_now hhold hhalt hturn h0
      · subst hbusy
        exact State.takeOut_timed hhold hhalt hturn h0 hvalid rfl rfl hdue hroom
  · rw [exec_releaseFire hdev hr rfl, if_pos hvalid]
  · rw [exec_releaseFire hdev hr rfl, if_neg (Bool.eq_false_iff.mp hvalid)]
  · obtain ⟨hpow, hup⟩ := hall y hy hpos
    exact if_pos (by rw [hpow, hup]; rfl)

end Sys2Proof.Machine
end

section
/-!
PROOFS. The gang exchange (O40).
-/

namespace Sys2Proof.Machine

section
variable {s : State} {q : Setup}

/-- An address that a request at GB set is in force at once. -/
def State.gbAddressed (s : State) : State := s.modDevAt .gb fun y => { y with addr := y.addrNext.or y.addr, addrNext := none }

theorem State.gbRequest_info (h : s.gb.answers = true) (hq : q.isReq 2 0x10 = true) (hdir : q.dir = true) (hcount : q.count = 3) :
    s.gbRequest q [] = (((s.gbEdge .gb).shake .gb s.gb.address hsAck 0 0).gbAddressed).sendData .gb 0 s.gb.address 0 1
      (s.gbEdge .gb).gang.info true := by
  obtain ⟨hkind, hcode⟩ := Setup.kind_code hq
  have hset : (decide (q.kindN = 2) && decide (q.code = 0x11) && !q.dir && decide (q.count = 3)) = false := by simp [hcode]
  have hreply : (s.gbEdge .gb).request .gb s.gb q = some (s.gbEdge .gb, (s.gbEdge .gb).gang.info) := by
    simp [State.request, ownRequest, hkind, hcode, hdir, hcount]
  unfold State.gbRequest
  rw [if_pos h]
  simp only [hset, Bool.false_and, Bool.false_eq_true, if_false, hreply]
  rfl

/-- SET_GANG at GB of a controller that is not a ridge. -/
theorem State.gbRequest_set {data : List Word} (h : s.gb.answers = true) (hq : q.isReq 2 0x11 = true) (hdir : q.dir = false) (hcount : q.count = 3)
    (hrole : (s.gbEdge .gb).gang.role ≠ .ridge) : s.gbRequest q data = match (s.gbEdge .gb).takeGang data with
      | none => (s.gbEdge .gb).shake .gb s.gb.address hsStall 0 0
      | some u => (u.shake .gb s.gb.address hsAck 0 0).gbAddressed := by
  obtain ⟨hkind, hcode⟩ := Setup.kind_code hq
  have hset : (decide (q.kindN = 2) && decide (q.code = 0x11) && !q.dir && decide (q.count = 3)) = true := by simp [hkind, hcode, hdir, hcount]
  have hridge : ((s.gbEdge .gb).gang.role == .ridge) = false := beq_false_of_ne hrole
  unfold State.gbRequest
  rw [if_pos h]
  simp only [hset, hridge, Bool.and_false, Bool.false_eq_true, if_true, if_false]
  cases (s.gbEdge .gb).takeGang data <;> rfl

theorem State.takeGang_unconfigured {data : List Word} (hrole : s.gang.role ≠ .ridge) (hconf : s.gang.configured = false) :
    s.takeGang data = none := by
  have hridge : ¬ (s.gang.role == .ridge) = true := fun e => hrole (beq_iff_eq.mp e)
  exact (if_neg hridge).trans (if_pos (by rw [hconf]; rfl))

theorem State.takeGang_first {w0 w1 w2 : Word} (hrole : s.gang.role ≠ .ridge) (hconf : s.gang.configured = true) (hphase : s.gang.phase ≠ .mismatch)
    (hnew : s.gang.accepted ≠ some (w0, w1, w2)) (hcheck : s.gang.checkSet w0 w1 = none) :
    s.takeGang [w0, w1, w2] = some (s.acceptGang w0 w1 w2) := by
  have hridge : ¬ (s.gang.role == .ridge) = true := fun e => hrole (beq_iff_eq.mp e)
  have hopen : ¬ (!s.gang.configured) = true := by rw [hconf]; exact Bool.false_ne_true
  have hrepeat : ¬ (s.gang.phase == .mismatch || s.gang.accepted == some (w0, w1, w2)) = true := by
    rw [Bool.or_eq_true, beq_iff_eq, beq_iff_eq]
    exact not_or.mpr ⟨hphase, hnew⟩
  unfold State.takeGang
  simp only [if_neg hridge, if_neg hopen, if_neg hrepeat, hcheck]

theorem State.gangExchange_again {desc : List Word} {w0 w1 w2 : Word} (hga : s.enabled .ga = true) (hdone : s.gang.exchanged = true) :
    s.gangExchange desc [w0, w1, w2] =
      (s.emit (.gangControl (mkSetup true 2 0x10 0 0 3) [])).modGang fun g => { g with below := some (w0, w1, w2) } :=
  (if_pos hga).trans (if_pos hdone)

theorem State.gangExchange_first {desc : List Word} {w0 w1 w2 : Word} (hga : s.enabled .ga = true) (hnew : s.gang.exchanged = false)
    (hclass : wbits ((desc[3]?).getD 0) 35 28 = 0x20) : s.gangExchange desc [w0, w1, w2] =
      (((((s.emit (.gangControl (mkSetup true 0 1 1 0 desc.length) [])).emit (.gangControl (mkSetup false 0 2 1 0 0) [])).emit
        (.gangControl (mkSetup false 0 3 1 0 0) [])).emit (.gangControl (mkSetup true 2 0x10 0 0 3) [])).setFld .GANG_XCHG_STATUS 0).modGang
          fun g => { g with below := some (w0, w1, w2), exchanged := true } :=
  (if_pos hga).trans ((if_neg (Bool.eq_false_iff.mp hnew)).trans (if_neg fun hne => hne hclass))

theorem State.sendGang_ready {a : Answer} {ws : List Word} (hga : s.enabled .ga = true) (hdone : s.gang.exchanged = true)
    (hws : s.gangWords = some ws) : s.sendGang a = State.setFld { s.emit (.gangControl (mkSetup false 2 0x11 0 0 3) ws) with
        gang := { s.gang with setSent := a == Answer.ack } } .GANG_XCHG_STATUS (if a == Answer.stall then stGangMismatch else 0) := by
  unfold State.sendGang
  rw [if_pos (Bool.and_eq_true_iff.mpr ⟨hga, hdone⟩), hws]
  rfl

end

/-- Settles O40. -/
theorem gangRequestsArePerformed : Obligations.GangRequestsArePerformed := by
  unfold Obligations.GangRequestsArePerformed
  refine ⟨fun s q h => ⟨fun hq hdir hcount hinfo => guarded_eq hq (State.gbRequest_info h hq hdir hcount), fun hq hdir hcount w0 w1 w2 =>
    ⟨fun hrole hconf => guarded_eq hq ?_, fun hrole hconf hphase hnew hcheck => guarded_eq hq ?_⟩⟩,
    fun s hga => ⟨fun desc w0 w1 w2 => ⟨fun hdone => congrArg Host.Outcome.next (State.gangExchange_again hga hdone),
      fun hnew hclass => congrArg Host.Outcome.next (State.gangExchange_first hga hnew hclass)⟩,
      fun a ws hdone hws => congrArg Host.Outcome.next (State.sendGang_ready hga hdone hws)⟩⟩
  · rw [State.gbRequest_set h hq hdir hcount hrole, State.takeGang_unconfigured hrole hconf]
  · rw [State.gbRequest_set h hq hdir hcount hrole, State.takeGang_first hrole hconf hphase hnew hcheck]
    rfl

end Sys2Proof.Machine
end

section
/-!
PROOFS. The events at a port (O41).
-/

namespace Sys2Proof.Machine

section
variable {s : State} {p : PortRef} {x : Port}

theorem exec_attach (hp : s.port p = some x) (hst : x.state = .powered) (hpresent : x.present = true) {u : State}
    (hu : u = ((s.modPort p fun y => { y with state := .disabled }).portEvent p .TRK_PEVENT_ATTACH chgAttach).awaitDevice p) :
    exec (.attach p) s = .next ((if p = .ga then u.requestReset .ga false else u).settle p) := by
  subst hu
  have hexec : exec (.attach p) s = execAttach p s := rfl
  rw [hexec]
  unfold execAttach
  simp only [hp, hst, hpresent, beq_self_eq_true, Bool.and_self, if_true, beq_iff_eq]

theorem exec_detach (hp : s.port p = some x) (hst : x.state.linked = true) (hpresent : x.present = false) :
    exec (.detach p) s = .next (((((((if p.isRoot then s.endSubtree p else s).gaGone p).modPort p fun y =>
      { y.unlink with state := .powered, hrFails := 0, recovering := false, stepped := false }).portEvent p .TRK_PEVENT_DETACH chgDetach).emit
        (.drive (.up p) false)).settle p)) := by
  have hexec : exec (.detach p) s = execDetach p s := rfl
  rw [hexec]
  unfold execDetach
  simp only [hp, hst, hpresent, Bool.not_false, Bool.and_self, if_true]

theorem State.boardMove_same : s.boardMove p .same = s := by
  unfold State.boardMove
  cases p.below <;> rfl

/-- The comparator alone changes. -/
theorem State.presenceChange_same (level : Bool) (hp : s.port p = some x) : s.presenceChange p level .same =
    if level = true ∧ (x.state = .off ∨ x.state = .fault) then (s.modPort p fun y => { y with present := level }).latchAttach p
    else s.modPort p fun y => { y with present := level } := by
  unfold State.presenceChange
  simp only [State.boardMove_same, hp, Bool.and_eq_true, Bool.or_eq_true, beq_iff_eq]

theorem exec_presenceChange_root {k : Fin 16} (level : Bool) (hp : s.port (.root k) = some x) :
    exec (.presenceChange (.root k) level .same) s = .next (if x.state = .powered ∧ x.present = !level
      then (s.presenceChange (.root k) level .same).wakeSource 2 [trunkDomain k] else s.presenceChange (.root k) level .same) := by
  have hwas : ((some (x.state, x.present) : Option (PortState × Bool)) == some (.powered, !level)) = true ↔ x.state = .powered ∧ x.present = !level := by
    rw [beq_iff_eq, Option.some_inj, Prod.mk.injEq]
  have hexec : exec (.presenceChange (.root k) level .same) s = execPresenceChange (.root k) level .same s := rfl
  rw [hexec]
  unfold execPresenceChange
  simp only [hp, Option.map_some, hwas]

/-- CHIRP as a device without MARGIN_CAP sends it. -/
def chirpBlock : Block := ctlBlock cChirp (2 ^ 20 + 0x5A5A5)

theorem chirpBlock_reads : Block.isSet chirpBlock cChirp = true ∧ (Block.arg chirpBlock).testBit 20 = true ∧
    (Block.arg chirpBlock).testBit 21 = false := by decide

/-- The running count and its highest over blocks that all count. -/
theorem longestRun_from {f : Block → Bool} {bs : List Block} (n : Nat) (h : ∀ b ∈ bs, f b = true) :
    bs.foldl (fun (x : Nat × Nat) b => let n := if f b then x.1 + 1 else 0; (n, max x.2 n)) (n, n) = (n + bs.length, n + bs.length) := by
  induction bs generalizing n with
  | nil => rfl
  | cons b bs ih =>
    have hmax : max n (n + 1) = n + 1 := Nat.max_eq_right (Nat.le_succ n)
    rw [List.foldl_cons]
    simp only [h b List.mem_cons_self, if_true, hmax]
    rw [ih (n + 1) fun c hc => h c (List.mem_cons_of_mem _ hc), List.length_cons]
    simp only [Nat.add_assoc, Nat.add_comm 1]

theorem longestRun_all {f : Block → Bool} {bs : List Block} (h : ∀ b ∈ bs, f b = true) : longestRun f bs = bs.length := by
  unfold longestRun
  rw [longestRun_from 0 h, Nat.zero_add]

theorem exec_chirpReceive (hp : s.port p = some x) (hst : x.state = .resetting) (htrain : x.rx.train = .hold) {blocks : List Block}
    (hne : blocks ≠ []) (hall : ∀ b ∈ blocks, b = chirpBlock) : exec (.chirpReceive p blocks) s =
      .next (s.modPort p fun y => { y with chirps := max y.chirps blocks.length, farHrCap := true, farMarginCap := false }) := by
  obtain ⟨hset, hhr, hmargin⟩ := chirpBlock_reads
  have hrun : longestRun (fun b => Block.isSet b cChirp && (Block.arg b).testBit 20) blocks = blocks.length :=
    longestRun_all fun b hb => by rw [hall b hb, hset, hhr]; rfl
  have hchirps : blocks.filter (fun b => Block.isSet b cChirp) = blocks := List.filter_eq_self.mpr fun b hb => by rw [hall b hb, hset]
  have hlast : blocks.getLast? = some chirpBlock := by
    rw [List.getLast?_eq_some_getLast hne, hall _ (List.getLast_mem hne)]
  have hexec : exec (.chirpReceive p blocks) s = execChirpReceive p blocks s := rfl
  rw [hexec]
  unfold execChirpReceive
  simp only [hp, hst, htrain, beq_self_eq_true, Bool.and_self, if_true, hrun, hchirps, hlast, hhr, hmargin]

theorem exec_resetHoldEnd_hr (hp : s.port p = some x) (hst : x.state = .resetting) (htrain : x.rx.train = .hold) (hchirps : 8 ≤ x.chirps)
    (hallowed : s.hrAllowed p x = true) : exec (.resetHoldEnd p) s =
      .next ((s.emit (.blocks (.up p) (List.replicate 16 (ctlBlock cChirpAck (2 ^ 20 + 0xA5A5A))))).startTraining p .hr) := by
  have hexec : exec (.resetHoldEnd p) s = execResetHoldEnd p s := rfl
  rw [hexec]
  unfold execResetHoldEnd
  simp only [hp, hst, htrain, beq_self_eq_true, Bool.and_self, if_true, decide_eq_true hchirps, ge_iff_le, hallowed]

theorem exec_resetHoldEnd_br (hp : s.port p = some x) (hst : x.state = .resetting) (htrain : x.rx.train = .hold)
    (hnot : x.chirps < 8 ∨ s.hrAllowed p x = false) : exec (.resetHoldEnd p) s =
      .next (if p = .ga then s.portFault .ga .train else s.startTraining p .br) := by
  have hhr : (decide (x.chirps ≥ 8) && s.hrAllowed p x) = false := by
    rcases hnot with h | h
    · rw [decide_eq_false (by omega), Bool.false_and]
    · rw [h, Bool.and_false]
  have hexec : exec (.resetHoldEnd p) s = execResetHoldEnd p s := rfl
  rw [hexec]
  unfold execResetHoldEnd
  simp only [hp, hst, htrain, beq_self_eq_true, Bool.and_self, if_true, hhr, Bool.false_eq_true, if_false, beq_iff_eq]

theorem eyeMeets_iff {h v : BitVec 8} : eyeMeets (.measured h v) = true ↔ 20 ≤ h.toNat ∧ 20 ≤ v.toNat := by
  rw [eyeMeets, Bool.and_eq_true, decide_eq_true_iff, decide_eq_true_iff]

theorem exec_presetRequest (hp : s.port p = some x) (htrain : x.rx.train = .eq) (h v : BitVec 8) : exec (.presetRequest p h v) s =
    .next (if 20 ≤ h.toNat ∧ 20 ≤ v.toNat then s.modPort p fun y => { y with rx := { y.rx with eyeOk := true } }
      else (s.freeWord.2.modPort p fun y =>
        { y with rx := { y.rx with eyeOk := false, request := s.freeWord.1.setWidth 3 } }).sendTrain (.up p) 1) := by
  have hexec : exec (.presetRequest p h v) s = execPresetRequest p h v s := rfl
  rw [hexec]
  unfold execPresetRequest
  simp only [hp, htrain, beq_self_eq_true, if_true, eyeMeets_iff]
  rfl

/-- What a port takes over as it becomes ENABLED (R51, R91). -/
def State.portUp (s : State) (p : PortRef) (x : Port) (d : Pos) : State :=
  ((((((s.modPort p fun y => { y with
    state := .enabled, rx := { y.rx with train := .up }, lastRate := y.rx.rate, attachLatch := false, wakeFor := .none
    brFails := if x.state = .resetting then 0 else y.brFails, hrFails := if x.rx.rate = some .hr then 0 else y.hrFails
    stepped := y.stepped && !(x.rx.rate == some .hr), recovering := false, started := false, enabledAt := s.course.count.toNat
    window := { y.window with started := false }, cause := .none, byHub := false, eyed := false
    seed := scrSeed 0, seedBefore := scrSeed 0 }).modDev d fun y => { y with link := { y.link with
      phase := .up, synced := false, lastRate := y.link.rx.rate, waking := false, seed := scrSeed 0
      rx := { y.link.rx with train := .up } } }).emit (.blocks (.down (.node d)) [idleBlock (scrSeed 0) 1])).emit
    (.blocks (.up p) [idleBlock (scrSeed 0) 1])).portEvent p
    (if x.state = .resetting then .TRK_PEVENT_RESET_DONE else .TRK_PEVENT_RESUMED) chgReset).owedStops p)

/-- No scheduled flow crosses a port: the plan stands as it becomes ENABLED. -/
theorem noneCovered {u : State} (h : ∀ e ∈ u.flows, e.2.par.ty.scheduled = true → p.covers e.2.pos = false) :
    (u.flows.any fun e => e.2.par.ty.scheduled && p.covers e.2.pos) = false := by
  rw [List.any_eq_false]
  intro e he hboth
  obtain ⟨hs, hc⟩ := Bool.and_eq_true_iff.mp hboth
  rw [h e he hs] at hc
  exact Bool.false_ne_true hc

theorem exec_trainingUp {d : Pos} (hp : s.port p = some x) (hst : x.state = .resetting ∨ x.state = .resuming) (hbelow : p.below = some d)
    (hsixteen : x.rx.sixteen = true) (hlock : x.rx.blockLock = true) (heye : x.rx.eyeOk = true) (hfar : s.farReady p x.rx.rate = true)
    (hflows : ∀ e ∈ (s.portUp p x d).flows, e.2.par.ty.scheduled = true → p.covers e.2.pos = false) : exec (.trainingUp p) s =
      .next ((if x.state = .resetting then (s.portUp p x d).awaitDevice p else (s.portUp p x d).resumeByHub d).settle p) := by
  have hplan := noneCovered hflows
  have hexec : exec (.trainingUp p) s = execTrainingUp p s := rfl
  rw [hexec]
  unfold execTrainingUp
  have hother : (PortState.resuming == PortState.resetting) = false := rfl
  rcases hst with e | e
  · simp only [State.portUp, e, if_true] at hplan ⊢
    simp only [hp, e, hbelow, hsixteen, hlock, heye, hfar, beq_self_eq_true, Bool.true_or, Bool.and_self, if_true, beq_iff_eq, hplan,
      Bool.false_and, Bool.false_eq_true, if_false]
  · simp only [State.portUp, e, reduceCtorEq, if_false] at hplan ⊢
    simp only [hp, e, hother, hbelow, hsixteen, hlock, heye, hfar, beq_self_eq_true, Bool.or_true, Bool.and_self, if_true, beq_iff_eq, hplan,
      Bool.false_and, Bool.false_eq_true, if_false]

/-- A port that failed to train three times at BR is in FAULT, at a root port in the power manager as well. -/
def State.brFault (s : State) (p : PortRef) : State :=
  let u := (s.modPort p fun y => { y with brFails := 3 }).portFault p .train
  match p with
  | .root k => u.ppmTrainFault k.val
  | _ => u

/-- What the end of a training attempt at BR leads to. -/
theorem exec_trainingTimeout_br (hp : s.port p = some x) (htrain : x.rx.training = true) (hrate : x.rx.rate ≠ some .hr)
    (hst : x.state = .resetting ∨ x.state = .resuming) : exec (.trainingTimeout p) s = .next (
      if x.state = .resuming then s.requestReset p false
      else if x.brFails.toNat < 2 then (s.modPort p fun y => { y with brFails := y.brFails + 1 }).startHold p
      else s.brFault p) := by
  have hbr : (x.rx.rate == some .hr) = false := beq_false_of_ne hrate
  have hstate : (x.state == .resetting || x.state == .resuming) = true := by rcases hst with e | e <;> rw [e] <;> rfl
  have hcount : (x.brFails.toNat + 1 < 3) = (x.brFails.toNat < 2) := propext (by omega)
  have hexec : exec (.trainingTimeout p) s = execTrainingTimeout p s := rfl
  rw [hexec]
  unfold execTrainingTimeout
  simp only [hp, htrain, hstate, hbr, Bool.and_self, if_true, Bool.false_eq_true, if_false, beq_iff_eq, hcount]
  rfl

theorem exec_trainingTimeout_hr (hp : s.port p = some x) (htrain : x.rx.training = true) (hrate : x.rx.rate = some .hr)
    (hst : x.state = .resetting ∨ x.state = .resuming) : exec (.trainingTimeout p) s = .next (
      if x.state = .resuming then (s.hrFailed p).requestReset p false
      else if p = .ga ∧ 2 ≤ x.hrFails.toNat then (s.hrFailed p).portFault .ga .train else (s.hrFailed p).startHold p) := by
  have hstate : (x.state == .resetting || x.state == .resuming) = true := by rcases hst with e | e <;> rw [e] <;> rfl
  have hcount : (x.hrFails.toNat + 1 ≥ 3) = (2 ≤ x.hrFails.toNat) := propext (by omega)
  have hexec : exec (.trainingTimeout p) s = execTrainingTimeout p s := rfl
  rw [hexec]
  unfold execTrainingTimeout
  simp only [hp, htrain, hstate, hrate, Bool.and_self, if_true, beq_iff_eq, beq_self_eq_true, hcount, Bool.and_eq_true, decide_eq_true_iff]

theorem exec_portSuspendEntry (hp : s.port p = some x) (hst : x.state = .enabled) (hreq : x.suspendReq = true) :
    exec (.portSuspendEntry p) s = .next (((((s.gaDown p).modPort p Port.asleep).emit
      (.blocks (.up p) suspendBlocks)).portEvent p .TRK_PEVENT_SUSPENDED 0).settle p) := by
  have hexec : exec (.portSuspendEntry p) s = execPortSuspendEntry p s := rfl
  rw [hexec]
  unfold execPortSuspendEntry
  simp only [hp, hst, hreq, beq_self_eq_true, Bool.and_self, if_true]

theorem exec_wakeSendEnd_reset (hp : s.port p = some x) (hwake : x.wakeFor = .reset) : exec (.wakeSendEnd p) s =
    .next ((s.modPort p fun y => { y with wakeFor := .none, state := .resetting, rx := { Rx.init with train := .hold } }).emit
      (.drive (.up p) true)) := by
  have hexec : exec (.wakeSendEnd p) s = execWakeSendEnd p s := rfl
  rw [hexec]
  unfold execWakeSendEnd
  simp only [hp, hwake]

theorem exec_wakeSendEnd_resume (hp : s.port p = some x) (hwake : x.wakeFor = .resume) : exec (.wakeSendEnd p) s =
    .next ((s.modPort p fun y => { y with
      wakeFor := .none
      rx := { y.rx with train := .lock, rate := some (s.resumeRate p x), blockLock := false, gotReady := 0, sentReady := 0, sent := 0, attempt := 1
                        eyeOk := false, request := y.rx.farPreset } }).sendTrain (.up p) 1) := by
  have hexec : exec (.wakeSendEnd p) s = execWakeSendEnd p s := rfl
  rw [hexec]
  unfold execWakeSendEnd
  simp only [hp, hwake]

theorem exec_pingSend (hp : s.port p = some x) (hst : x.state = .enabled) (hstarted : x.started = true) : exec (.pingSend p) s =
    .next ((s.modPort p fun y =>
      { y with delay := { (if y.delay.awaiting.isSome then y.delay.miss else y.delay) with
          awaiting := some (BitVec.ofNat 8 (s.linkCourse p % 256))
          pings := (if y.delay.awaiting.isSome then y.delay.miss else y.delay).pings + 1 } }).emit
            (.blocks (.up p) [ctlBlock cPing (s.linkCourse p % 256 * 2 ^ 20)])) := by
  have hexec : exec (.pingSend p) s = execPingSend p s := rfl
  rw [hexec]
  unfold execPingSend
  simp only [hp, hst, hstarted, beq_self_eq_true, Bool.and_self, if_true]

theorem exec_pongReceive {q : BitVec 8} (b : Block) (rtt : Nat) (late : Bool) (hp : s.port p = some x) (hst : x.state = .enabled)
    (hq : x.delay.awaiting = some q) : exec (.pongReceive p b rtt late) s = .next (
      if Block.isSet b cPong = true ∧ BitVec.ofNat 8 (Block.arg b / 2 ^ 20) = q ∧ late = false then
        s.modPort p fun y => { y with delay := { y.delay with awaiting := none, lastSeq := BitVec.ofNat 8 (Block.arg b / 2 ^ 20)
                                                              sum := y.delay.sum + (rtt - Block.arg b % 2 ^ 20), count := y.delay.count + 1 } }
      else s.modPort p fun y => { y with delay := y.delay.miss }) := by
  have hexec : exec (.pongReceive p b rtt late) s = execPongReceive p b rtt late s := rfl
  rw [hexec]
  unfold execPongReceive
  simp only [hp, hst, hq, beq_self_eq_true, if_true, Bool.and_eq_true, beq_iff_eq, Bool.not_eq_true', and_assoc]

end

/-- Settles O41. -/
theorem portsFollowTheirEvents : Obligations.PortsFollowTheirEvents := by
  unfold Obligations.PortsFollowTheirEvents
  intro s p x hp
  refine ⟨fun hst hpresent u hu => exec_attach hp hst hpresent hu, fun hst hpresent => exec_detach hp hst hpresent,
    fun level u hu => ⟨fun hroot => ?other, fun k hk => ?root⟩, fun h k hk level => ?activity,
    fun hst htrain => ⟨fun blocks hne hall => exec_chirpReceive hp hst htrain hne hall, exec_resetHoldEnd_hr hp hst htrain,
      exec_resetHoldEnd_br hp hst htrain⟩,
    fun htrain h v => ⟨fun hh hv => ?eyeGood, fun hbad => ?eyeBad⟩,
    fun d u hst hbelow hsixteen hlock heye hfar hu hflows => ?up,
    fun htrain => ⟨fun hst hrate hfew => ?_, fun hst hrate hmany u hu => ?_, fun hst hrate => ?_, fun hst hrate => ?_, fun hst hrate => ?_⟩,
    exec_portSuspendEntry hp, exec_wakeSendEnd_reset hp, exec_wakeSendEnd_resume hp, exec_pingSend hp,
    fun q b rtt late hst hq => exec_pongReceive b rtt late hp hst hq⟩
  case other =>
    rw [hu, ← State.presenceChange_same level hp]
    cases p with
    | root k => exact absurd rfl (hroot k)
    | ga => rfl
    | hub h q => rfl
  case root =>
    subst hk
    rw [exec_presenceChange_root level hp, hu, ← State.presenceChange_same level hp]
  case activity =>
    subst hk
    rfl
  case eyeGood => rw [exec_presetRequest hp htrain, if_pos ⟨hh, hv⟩]
  case eyeBad => rw [exec_presetRequest hp htrain, if_neg (by omega)]
  case up =>
    subst hu
    exact exec_trainingUp hp hst hbelow hsixteen hlock heye hfar hflows
  · rw [exec_trainingTimeout_br hp htrain hrate (.inl hst), if_neg (by rw [hst]; decide), if_pos hfew]
  · rw [exec_trainingTimeout_br hp htrain hrate (.inl hst), if_neg (by rw [hst]; decide), if_neg (by omega), hu]
    cases p <;> rfl
  · rw [exec_trainingTimeout_hr hp htrain hrate (.inl hst), if_neg (by rw [hst]; decide)]
  · rw [exec_trainingTimeout_br hp htrain hrate (.inr hst), if_pos hst]
  · rw [exec_trainingTimeout_hr hp htrain hrate (.inr hst), if_pos hst]

end Sys2Proof.Machine
end

section
/-!
PROOFS. The events at a downstream side (O42).
-/

namespace Sys2Proof.Machine

section
variable {s : State} {d : DevRef} {n : Pos} {x : Device}

/-! The first edges at GB are noted: the gang alone changes (R366). -/

theorem State.gbEdge_devAt : (s.gbEdge d).devAt d = s.devAt d := by
  unfold State.gbEdge
  split <;> cases d <;> rfl

theorem State.gbEdge_free : (s.gbEdge d).free = s.free := by
  unfold State.gbEdge
  split <;> rfl

theorem State.gbEdge_mono : (s.gbEdge d).time.mono = s.time.mono := by
  unfold State.gbEdge
  split <;> rfl

/-- A hub that switches port power takes it away from what is below. -/
def State.darkBelow (t : State) (d : DevRef) : State :=
  match t.hubAt d with
  | none => t
  | some h =>
    if wbits ((h.board.hub[1]?).getD 0) 19 19 == 1 then
      { t with devices := t.devices.map fun (y : Device) => if y.pos.under h.pos && y.pos != h.pos then y.dark else y }
    else t

theorem State.darkBelow_free {t : State} : (t.darkBelow d).free = t.free := by
  unfold State.darkBelow
  cases t.hubAt d with
  | none => rfl
  | some h => dsimp only; split <;> rfl

/-- A side is reset, with whether it announces MARGIN_CAP: GB does, a node's is free. -/
def State.resetSide (t : State) (d : DevRef) (x : Device) : Bool × State :=
  if d == .gb then (true, (((t.darkBelow d).gbAborted d x).modDevAt d Device.reset))
  else (((t.darkBelow d).gbAborted d x).modDevAt d Device.reset).freeBool

theorem exec_resetDetect (hd : s.devAt d = some x) (hpow : x.powered = true ∨ d = .gb) (hphase : x.link.phase ≠ .suspended) {margin : Bool}
    {v : State} (hv : (s.gbEdge d).resetSide d x = (margin, v)) : exec (.resetDetect d) s = .next (if x.cap 15 then
      v.emit (.blocks (.down d) [ctlBlock cChirp (margin.toNat * 2 ^ 21 + 2 ^ 20 + 0x5A5A5)]) else v) := by
  have hopen : ((x.powered || d == .gb) && x.link.phase != .suspended) = true := by
    rw [Bool.and_eq_true, Bool.or_eq_true, beq_iff_eq, bne_iff_ne]
    exact ⟨hpow, hphase⟩
  have hexec : exec (.resetDetect d) s = execResetDetect d s := rfl
  rw [hexec]
  unfold execResetDetect
  simp only [State.gbEdge_devAt, hd, hopen, if_true]
  exact congrArg (fun r : Bool × State => Host.Outcome.next (if x.cap 15 then
    r.2.emit (.blocks (.down d) [ctlBlock cChirp (r.1.toNat * 2 ^ 21 + 2 ^ 20 + 0x5A5A5)]) else r.2)) hv

theorem exec_chirpAckReceive (hd : s.devAt d = some x) (hphase : x.link.phase = .chirp) {blocks : List Block}
    (hfour : 4 ≤ (blocks.filter fun b => Block.isSet b cChirpAck).length) : exec (.chirpAckReceive d blocks) s =
      .next (((s.gbEdge d).modLink d fun l => { l with phase := .train, rx := lockRx .hr none }).emit (.drive (.down d) false)) := by
  have hexec : exec (.chirpAckReceive d blocks) s = execChirpAckReceive d blocks s := rfl
  rw [hexec]
  unfold execChirpAckReceive
  simp only [State.gbEdge_devAt, hd, hphase, beq_self_eq_true, Bool.true_and, ge_iff_le, decide_eq_true hfour, if_true]

/-- A hub suspends its ENABLED ports (R111). -/
def State.suspendBelow (u : State) (d : DevRef) : State :=
  match u.hubAt d with
  | none => u
  | some h => h.enabledPorts.foldl (fun (u : State) p =>
      (u.modPort p fun y => { y.asleep with byHub := true }).emit (.blocks (.up p) suspendBlocks)) u

theorem exec_suspendReceive (hd : s.devAt d = some x) (hphase : x.link.phase = .up) {blocks : List Block} {idle : Bool}
    (hlast : (∃ b ∈ blocks, Block.isSet b cSuspend = true ∧ Block.arg b % 16 = 0) ∨
      (idle = true ∧ 4 ≤ (blocks.filter fun b => Block.isSet b cSuspend).length)) : exec (.suspendReceive d blocks idle) s =
    .next ((s.modLink d fun l => { l with
      phase := .suspended, synced := false, lastRate := l.rx.rate, waking := false
      rx := { l.rx with train := .idle, blockLock := false, gotReady := 0 } }).suspendBelow d) := by
  have hgood : (((blocks.filter fun b => Block.isSet b cSuspend).any fun b => Block.arg b % 16 == 0) ||
      (idle && decide ((blocks.filter fun b => Block.isSet b cSuspend).length ≥ 4))) = true := by
    rw [Bool.or_eq_true]
    rcases hlast with ⟨b, hb, hset, harg⟩ | ⟨hidle, hfour⟩
    · exact .inl (List.any_eq_true.mpr ⟨b, List.mem_filter.mpr ⟨hb, hset⟩, beq_iff_eq.mpr harg⟩)
    · exact .inr (by rw [hidle, decide_eq_true hfour]; rfl)
  have hexec : exec (.suspendReceive d blocks idle) s = execSuspendReceive d blocks idle s := rfl
  rw [hexec]
  unfold execSuspendReceive
  simp only [hd, hphase, beq_self_eq_true, Bool.true_and, hgood, if_true]
  rfl

theorem exec_pingReceive (hd : s.devAt d = some x) (hphase : x.link.phase = .up) (b : Block) (hold : Nat) (hset : Block.isSet b cPing = true) :
    exec (.pingReceive d b hold) s =
      .next (s.emit (.blocks (.down d) [ctlBlock cPong (Block.arg b / 2 ^ 20 * 2 ^ 20 + min hold (2 ^ 20 - 1))])) := by
  have hexec : exec (.pingReceive d b hold) s = execPingReceive d b hold s := rfl
  rw [hexec]
  unfold execPingReceive
  simp only [hd, hphase, hset, beq_self_eq_true, Bool.and_self, if_true]

/-- The state after a COURSE_START at a side: a good one anchors its course and time. -/
def State.started (t : State) (d : DevRef) (st : Started) (now : Nat) : State :=
  (t.modLink d fun l => l.begin st now).modDevAt d fun y => { y with time := y.time.anchorAtStart st.time now }

/-- A hub sends a good COURSE_START on. -/
def State.startOn (v : State) (d : DevRef) (st : Started) (b0 b1 b2 : Block) (residence : Nat) : State :=
  match v.hubAt d with
  | some h => v.forwardStart h st b0 b1 b2 residence
  | none => v

theorem exec_courseStartReceive_none (hd : s.devAt d = some x) (hphase : x.link.phase = .up) {b0 b1 b2 : Block} (residence stamp : Nat)
    (hread : readStart x.link.expected b0 b1 b2 = none) : exec (.courseStartReceive d b0 b1 b2 residence stamp) s =
      .next (if d = .gb then ((s.gbEdge d).missStart d).gbStart none stamp else (s.gbEdge d).missStart d) := by
  have hexec : exec (.courseStartReceive d b0 b1 b2 residence stamp) s = execCourseStartReceive d b0 b1 b2 residence stamp s := rfl
  rw [hexec]
  unfold execCourseStartReceive
  simp only [hd, hphase, hread, beq_self_eq_true, if_true]
  cases d <;> rfl

theorem exec_courseStartReceive_gb (hd : s.devAt .gb = some x) (hphase : x.link.phase = .up) {b0 b1 b2 : Block} (residence stamp : Nat) {st : Started}
    (hread : readStart x.link.expected b0 b1 b2 = some st) : exec (.courseStartReceive .gb b0 b1 b2 residence stamp) s =
      .next (((s.gbEdge .gb).started .gb st s.time.mono).gbStart (some st) stamp) := by
  have hexec : exec (.courseStartReceive .gb b0 b1 b2 residence stamp) s = execCourseStartReceive .gb b0 b1 b2 residence stamp s := rfl
  rw [hexec]
  unfold execCourseStartReceive
  simp only [hd, hphase, hread, beq_self_eq_true, if_true, State.gbEdge_mono]
  rfl

theorem exec_courseStartReceive_node (hd : s.devAt (.node n) = some x) (hphase : x.link.phase = .up) {b0 b1 b2 : Block} (residence stamp : Nat)
    {st : Started} (hread : readStart x.link.expected b0 b1 b2 = some st) {u v : State} (hu : u = (s.gbEdge (.node n)).started (.node n) st s.time.mono)
    (hv : v = if x.time.valid then u.lateByStep n (x.localNs s.time.mono) else u) :
    exec (.courseStartReceive (.node n) b0 b1 b2 residence stamp) s = .next (v.startOn (.node n) st b0 b1 b2 residence) := by
  subst hu
  have hexec : exec (.courseStartReceive (.node n) b0 b1 b2 residence stamp) s = execCourseStartReceive (.node n) b0 b1 b2 residence stamp s := rfl
  rw [hexec]
  unfold execCourseStartReceive
  simp only [hd, hphase, hread, beq_self_eq_true, if_true, State.gbEdge_mono]
  subst hv
  unfold State.started State.startOn
  generalize (if x.time.valid = true then _ else _ : State) = v
  cases v.hubAt (.node n) <;> rfl

theorem exec_courseSyncLost (hd : s.devAt d = some x) (hsynced : x.link.synced = true) (hmissed : 1 ≤ x.link.missed) :
    exec (.courseSyncLost d) s = .next (s.missStart d) := by
  have hexec : exec (.courseSyncLost d) s = execCourseSyncLost d s := rfl
  rw [hexec]
  unfold execCourseSyncLost
  simp only [hd, hsynced, Bool.true_and, ge_iff_le, decide_eq_true hmissed, if_true]

/-- A side without course synchronisation misses nothing. -/
theorem State.missStart_unsynced (hd : s.devAt d = some x) (hsynced : x.link.synced = false) : s.missStart d = s := by
  unfold State.missStart
  simp only [hd, hsynced, Bool.not_false, if_true]

/-- The link of a side fails at the port above it. -/
def State.failAbove (u : State) (d : DevRef) : State :=
  match d with
  | .node n => u.linkFailure n.above
  | .gb => u

theorem State.missStart_synced (hd : s.devAt d = some x) (hsynced : x.link.synced = true) {u : State} (hu : u = s.modDevAt d fun y => { y with
      link := { y.link with missed := y.link.missed + 1, synced := decide (y.link.missed + 1 < 2) }, time := y.time.miss }) :
    s.missStart d = if x.link.missed = 0 then u else u.failAbove d := by
  have hfirst : (x.link.missed + 1 < 2) = (x.link.missed = 0) := propext (by omega)
  subst hu
  unfold State.missStart
  simp only [hd, hsynced, Bool.not_true, Bool.false_eq_true, if_false, hfirst]
  rfl

theorem exec_nodeRemoteWake (hd : s.dev n = some x) (hphase : x.link.phase = .suspended) (hcap : x.cap 14 = true) (hwaking : x.link.waking = false) :
    exec (.nodeRemoteWake n) s = .next ((s.modDev n fun y => { y with link := { y.link with waking := true } }).emit
      (.blocks (.down (.node n)) [ctlBlock cWake 0xAAAAAAA])) := by
  have hexec : exec (.nodeRemoteWake n) s = execNodeRemoteWake n s := rfl
  rw [hexec]
  unfold execNodeRemoteWake
  simp only [hd, hphase, hcap, hwaking, beq_self_eq_true, Bool.not_false, Bool.and_self, if_true]
  rfl

end

/-- Settles O42. -/
theorem downstreamSidesFollowTheirEvents : Obligations.DownstreamSidesFollowTheirEvents := by
  unfold Obligations.DownstreamSidesFollowTheirEvents
  intro s t d x hd ht
  subst ht
  refine ⟨fun hpow hphase u v margin hu hgb hnode => exec_resetDetect hd hpow hphase ?reset,
    fun hphase blocks hfour => exec_chirpAckReceive hd hphase hfour,
    fun hphase => ⟨fun blocks idle hlast u hu => ?suspend, exec_pingReceive hd hphase, fun b0 b1 b2 residence stamp =>
      ⟨exec_courseStartReceive_none hd hphase residence stamp, fun st u hread hu => ⟨fun hgb => ?gb, fun n v hn hv => ?node⟩⟩⟩,
    exec_courseSyncLost hd, fun hsynced u hu => ?miss, State.missStart_unsynced hd, fun n hn => rfl,
    fun n hn hphase hcap hwaking => exec_nodeRemoteWake (by rw [hn] at hd; exact hd) hphase hcap hwaking⟩
  case reset =>
    have hdark : u = (s.gbEdge d).darkBelow d := by
      rw [hu]
      unfold State.darkBelow
      cases (s.gbEdge d).hubAt d with
      | none => rfl
      | some h => simp only [beq_iff_eq]
    by_cases h : d = .gb
    · obtain ⟨hm, hv⟩ := hgb h
      rw [hm, hv, hdark, State.resetSide, if_pos (beq_iff_eq.mpr h)]
    · obtain ⟨hm, hv⟩ := hnode h
      have hb : (d == .gb) = false := beq_false_of_ne h
      have hkept (w : State) : w.gbAborted d x = w := by simp only [State.gbAborted, hb, Bool.false_and, Bool.false_eq_true, if_false]
      have hfree : (u.modDevAt d Device.reset).free = s.free := by
        rw [hdark]
        cases d <;> exact State.darkBelow_free.trans State.gbEdge_free
      rw [hm, hv, State.resetSide, hb, hkept, ← hdark, State.freeBool, hfree]
      rfl
  case suspend =>
    rw [exec_suspendReceive hd hphase hlast, ← hu]
    unfold State.suspendBelow
    cases u.hubAt d <;> rfl
  case gb =>
    subst hgb hu
    exact exec_courseStartReceive_gb hd hphase residence stamp hread
  case node =>
    subst hn
    exact exec_courseStartReceive_node hd hphase residence stamp hread hu hv
  case miss =>
    rw [State.missStart_synced hd hsynced hu]
    cases d <;> rfl

end Sys2Proof.Machine
end

section
/-!
PROOFS. The events at a receiver of either side (O43).
-/

namespace Sys2Proof.Machine

section
variable {s : State} {p : PortRef} {x : Port} {d : DevRef} {y : Device} {side : Side} {r : Rx}

theorem State.rxOf_up (hp : s.port p = some x) : s.rxOf (.up p) = some x.rx := by
  simp only [State.rxOf, hp, Option.map_some]

theorem State.rxOf_down (hd : s.devAt d = some y) : s.rxOf (.down d) = some y.link.rx := by
  simp only [State.rxOf, hd, Option.map_some]

theorem State.devAt_modDevAt {f : Device → Device} (hf : ∀ z, (f z).pos = z.pos) (hd : s.devAt d = some y) :
    (s.modDevAt d f).devAt d = some (f y) := by
  cases d with
  | node n => exact State.dev_modDev f hf hd
  | gb => exact congrArg (Option.map f) hd

theorem exec_trainReceive_up (hp : s.port p = some x) {blocks : List Block} {eye : Eye} {sent : Nat} (hwf : wfEye (.up p) eye = true)
    (hst : x.state = .resetting ∨ x.state = .resuming) (htrain : x.rx.training = true) : exec (.trainReceive (.up p) blocks eye sent) s =
      .next (s.trainSide (.up p) blocks (eyeMeets eye) (s.forcedPreset p).isSome sent) := by
  have hstate : (x.state == .resetting || x.state == .resuming) = true := by rcases hst with e | e <;> rw [e] <;> rfl
  refine guarded_eq hwf ?_
  simp only [hp, hstate, htrain, Bool.and_self, if_true]

theorem exec_trainReceive_down {blocks : List Block} {eye : Eye} {sent : Nat} {u : State} (hwf : wfEye (.down d) eye = true)
    (hu : u = (s.gbEdge d).modLink d (fun l => l.meetTrain blocks)) (hd : u.devAt d = some y) (hphase : y.link.phase = .train) :
    exec (.trainReceive (.down d) blocks eye sent) s = .next (if d = .gb
      then (u.trainSide (.down d) blocks (eyeMeets eye) false sent).modDevAt .gb Device.gbUp
      else u.trainSide (.down d) blocks (eyeMeets eye) false sent) := by
  subst hu
  refine guarded_eq hwf ?_
  simp only [hd, hphase, beq_self_eq_true, if_true, beq_iff_eq]

theorem exec_blockLockGained_up (hp : s.port p = some x) (hlock : x.rx.blockLock = false) : exec (.blockLockGained (.up p)) s =
    .next (s.modPort p fun y => { y with rx := { y.rx with blockLock := true } }) := by
  have hexec : exec (.blockLockGained (.up p)) s = execBlockLockGained (.up p) s := rfl
  rw [hexec]
  unfold execBlockLockGained
  simp only [State.rxOf_up hp, hlock, Bool.false_eq_true, if_false]
  rfl

theorem exec_blockLockGained_down (hd : s.devAt d = some y) (hlock : y.link.rx.blockLock = false) {u : State}
    (hu : u = State.gbEdge (s.modRx (.down d) fun r => { r with blockLock := true }) d) : exec (.blockLockGained (.down d)) s =
      .next (if y.link.phase = .train then u.sendTrain (.down d) 1 else u) := by
  subst hu
  have hkept := State.devAt_modDevAt (s := s) (f := fun z => { z with link := { z.link with rx := { z.link.rx with blockLock := true } } })
    (fun _ => rfl) hd
  have hexec : exec (.blockLockGained (.down d)) s = execBlockLockGained (.down d) s := rfl
  rw [hexec]
  unfold execBlockLockGained
  simp only [State.rxOf_down hd, hlock, Bool.false_eq_true, if_false, State.gbEdge_devAt, State.modRx, State.modLink, hkept, beq_iff_eq]

/-- The event of a controller's link whose receiver lost block lock; a hub port has none. -/
def State.lockEvent (s : State) (p : PortRef) : State :=
  match p.copy with
  | some k => ((s.happen .TRK_EVENT_LOCK_LOST ((linkSrc p).getD 0) k).linkEvent p 0x40 0).error catLink 0x01 blkTrk .normal (linkDetail p)
  | none => s

theorem exec_blockLockLost_up (hp : s.port p = some x) (hlock : x.rx.blockLock = true) : exec (.blockLockLost (.up p)) s =
    .next (if s.enabled p then (s.lockEvent p).linkFailure p else s.modPort p fun y => { y with rx := { y.rx with blockLock := false } }) := by
  have hexec : exec (.blockLockLost (.up p)) s = execBlockLockLost (.up p) s := rfl
  rw [hexec]
  unfold execBlockLockLost
  simp only [State.rxOf_up hp, hlock, if_true]
  rfl

theorem exec_blockLockLost_down (hd : s.devAt d = some y) (hlock : y.link.rx.blockLock = true) {u : State}
    (hu : u = s.modRx (.down d) (fun r => { r with blockLock := false })) : exec (.blockLockLost (.down d)) s =
      .next (if d = .gb ∧ u.gbUp = true then (u.happen .TRK_EVENT_LOCK_LOST 49 17).error catLink 0x01 blkTrk .normal 17 else u) := by
  subst hu
  have hexec : exec (.blockLockLost (.down d)) s = execBlockLockLost (.down d) s := rfl
  rw [hexec]
  unfold execBlockLockLost
  simp only [State.rxOf_down hd, hlock, if_true, Bool.and_eq_true, beq_iff_eq]

theorem exec_wakeRecognised_suspended (hp : s.port p = some x) {blocks : List Block} (height : 8 ≤ longestRun (fun b => Block.isSet b cWake) blocks)
    (hwake : s.wakeEnabled p x = true) (hst : x.state = .suspended) : exec (.wakeRecognised (.up p) blocks) s =
      .next (((s.requestResume p true).portEvent p .TRK_PEVENT_WAKE chgWake).hubWakesUp p) := by
  have hexec : exec (.wakeRecognised (.up p) blocks) s = execWakeRecognised (.up p) blocks s := rfl
  rw [hexec]
  unfold execWakeRecognised
  rw [if_neg (by omega)]
  simp only [hp, hwake, hst, Bool.not_true, Bool.false_eq_true, if_false, beq_self_eq_true, if_true]

theorem exec_wakeRecognised_resuming (hp : s.port p = some x) {blocks : List Block} (height : 8 ≤ longestRun (fun b => Block.isSet b cWake) blocks)
    (hwake : s.wakeEnabled p x = true) (hst : x.state = .resuming) (hfor : x.wakeFor = .resume) {u : State}
    (hu : u = (s.modPort p fun y => { y with remoteWake := true }).portEvent p .TRK_PEVENT_WAKE chgWake) :
    exec (.wakeRecognised (.up p) blocks) s = .next (if p = .ga then u.happen .GANG_EVENT_REMOTE_WAKE 48 else u) := by
  subst hu
  have hother : (PortState.resuming == PortState.suspended) = false := rfl
  have hexec : exec (.wakeRecognised (.up p) blocks) s = execWakeRecognised (.up p) blocks s := rfl
  rw [hexec]
  unfold execWakeRecognised
  rw [if_neg (by omega)]
  simp only [hp, hwake, hst, hfor, hother, Bool.not_true, Bool.false_eq_true, if_false, beq_self_eq_true, Bool.and_self, if_true, beq_iff_eq]

theorem exec_wakeRecognised_down (hd : s.devAt d = some y) {blocks : List Block} (height : 8 ≤ longestRun (fun b => Block.isSet b cWake) blocks)
    (hphase : y.link.phase = .suspended) : exec (.wakeRecognised (.down d) blocks) s =
      .next (State.modLink (if d = .gb then s.gbResumes y.link.waking else s) d fun l => { l with
        phase := .train, waking := false
        rx := { l.rx with train := .lock, rate := l.lastRate, blockLock := false, gotReady := 0, sentReady := 0, sent := 0, attempt := 1
                          eyeOk := false, request := l.rx.farPreset } }) := by
  have hexec : exec (.wakeRecognised (.down d) blocks) s = execWakeRecognised (.down d) blocks s := rfl
  rw [hexec]
  unfold execWakeRecognised
  rw [if_neg (by omega)]
  simp only [hd, hphase, beq_self_eq_true, if_true, beq_iff_eq]

/-- A side in training takes the blocks that arrive, and shows a new state in the next block (R51). -/
theorem State.trainSide_eq {blocks : List Block} {eyeOk forced : Bool} {sent : Nat} (hr : (s.sendTrain side sent).rxOf side = some r) :
    s.trainSide side blocks eyeOk forced sent =
      if (r.takeTrain blocks eyeOk forced).train = r.train then (s.sendTrain side sent).modRx side fun _ => r.takeTrain blocks eyeOk forced
      else ((s.sendTrain side sent).modRx side fun _ => r.takeTrain blocks eyeOk forced).sendTrain side 1 := by
  unfold State.trainSide
  simp only [hr, bne_iff_ne, ne_eq, ite_not]

theorem State.sendTrain_ready {n : Nat} (hr : s.rxOf side = some r) (hn : n ≠ 0) (htrain : r.training = true) (hlock : r.blockLock = true) :
    s.sendTrain side n =
      (s.modRx side fun r => r.count n).emit (.blocks side ((List.range n).map fun i => trainBlock (r.count i))) := by
  have hsome : (n != 0) = true := bne_iff_ne.mpr hn
  unfold State.sendTrain
  simp only [hr, htrain]
  cases side <;> simp only [hlock, hsome, Bool.and_self, if_true]

/-! Block errors (R32, R56, R104). -/

/-- The origin's count of a block error. -/
def State.countBlk (s : State) (side : Side) : State :=
  match side with
  | .up (.hub h p) => s.modPort (.hub h p) fun y => { y with errs := { y.errs with blk := inc32 y.errs.blk } }
  | .up p => s.modPort p fun y => { y with ledger := { y.ledger with blk := inc32 y.ledger.blk }, window := { y.window with blk := y.window.blk + 1 } }
  | .down .gb => s.addSat .TRK_LEDGER_BLK_COUNT 1 17
  | .down (.node _) => s

/-- A hub passes a block in error on with sync header 0b00. -/
def State.passError (s : State) (side : Side) (b : Block) : State :=
  match side with
  | .down (.node h) =>
    (match s.hubAt (.node h) with
      | some y => y.enabledPorts.foldl (fun (s : State) p => s.emit (.blocks (.up p) [Block.killed b])) s
      | none => s)
  | .up (.hub h _) => s.emit (.blocks (.down (.node h)) [Block.killed b])
  | _ => s

theorem exec_blockInError (b : Block) (k : Nat) (origin : Bool) : exec (.blockInError side (k, b) origin) s =
    .next (if Block.faulty (s.idleDue side k) b then (if origin then s.countBlk side else s).passError side b else s) := by
  have hexec : exec (.blockInError side (k, b) origin) s = execBlockInError side (k, b) origin s := rfl
  rw [hexec]
  unfold execBlockInError
  cases Block.faulty (s.idleDue side k) b with
  | false => rfl
  | true => cases origin <;> rfl

/-! STOP (R43, R272, R384). -/

/-- A hub sends a STOP on to its ENABLED ports. -/
def State.passStop (s : State) (n : Pos) (b : Block) : State :=
  match s.hubAt (.node n) with
  | some h => h.enabledPorts.foldl (fun (s : State) p => s.emit (.blocks (.up p) [b])) s
  | none => s

theorem exec_stopReceive_node {n : Pos} {b : Block} (hb : Block.isSet b cStop = true) (hd : s.dev n = some y) {v : State}
    (hv : v = (s.passStop n b).modDev n (fun y => { y with stopped := true, eps := y.eps.map fun e => { e with releases := [] } })) :
    exec (.stopReceive (.down (.node n)) b) s = .next (if y.nports = 0 then v.emit (.stopAction n) else v) := by
  subst hv
  have hexec : exec (.stopReceive (.down (.node n)) b) s = execStopReceive (.down (.node n)) b s := rfl
  rw [hexec]
  unfold execStopReceive
  simp only [hb, if_true, hd]
  rfl

theorem exec_stopReceive_gang {b : Block} (hb : Block.isSet b cStop = true) (hside : side = .down .gb ∨ side = .up .ga) :
    exec (.stopReceive side b) s = .next (if s.flag .ENG_STOP_CFG_GANG_EN then s.stopTrigger 5 (some side) else s) := by
  rcases hside with rfl | rfl <;> exact congrArg Host.Outcome.next (if_pos hb)

theorem exec_stopReceive_other {b : Block} (hb : Block.isSet b cStop = true) (hp : p ≠ .ga) : exec (.stopReceive (.up p) b) s = .next s := by
  cases p with
  | ga => exact absurd rfl hp
  | root k => exact congrArg Host.Outcome.next (if_pos hb)
  | hub h q => exact congrArg Host.Outcome.next (if_pos hb)

end

/-- Settles O43. -/
theorem receiversFollowTheirBlocks : Obligations.ReceiversFollowTheirBlocks := by
  unfold Obligations.ReceiversFollowTheirBlocks
  refine ⟨fun s p x blocks hp => ⟨fun eye sent hwf hst htrain => exec_trainReceive_up hp hwf hst htrain, exec_blockLockGained_up hp,
      fun hlock hen => ?_, fun hlock hen => ?_, fun height hwake => ⟨exec_wakeRecognised_suspended hp height hwake,
      fun hst hfor u hu => exec_wakeRecognised_resuming hp height hwake hst hfor hu⟩⟩,
    fun s d x hd => ⟨fun hlock u hu => exec_blockLockGained_down hd hlock hu, fun hlock u hu => exec_blockLockLost_down hd hlock hu,
      fun blocks height hphase => exec_wakeRecognised_down hd height hphase,
      fun blocks eye sent u y hwf hu hy hphase => exec_trainReceive_down hwf hu hy hphase⟩,
    fun s side r blocks eyeOk forced sent hr => State.trainSide_eq hr,
    fun s side r n hr hn htrain hlock => State.sendTrain_ready hr hn htrain hlock,
    fun s side b k origin => ⟨fun hgood => ?_, fun hbad => ⟨fun h q hs => ?_, fun p hs hp => ?_, fun hs => ?_, fun h hs => ?_⟩⟩,
    fun s b hb => ⟨fun n x u v hd hu hv => exec_stopReceive_node hb hd ?_, exec_stopReceive_gang hb (.inl rfl),
      exec_stopReceive_gang hb (.inr rfl), fun p hp => exec_stopReceive_other hb hp⟩⟩
  · rw [exec_blockLockLost_up hp hlock, hen, if_neg Bool.false_ne_true]
  · rw [exec_blockLockLost_up hp hlock, hen, if_pos rfl]
    unfold State.lockEvent
    cases p.copy <;> rfl
  · rw [exec_blockInError, hgood, if_neg Bool.false_ne_true]
  · rw [exec_blockInError, hbad, if_pos rfl, hs]
    rfl
  · rw [exec_blockInError, hbad, if_pos rfl, hs]
    cases p with
    | hub h q => exact absurd rfl (hp h q)
    | root k => rfl
    | ga => rfl
  · rw [exec_blockInError, hbad, if_pos rfl, hs]
    rfl
  · have hcount : (if origin then s.countBlk (.down (.node h)) else s) = s := by cases origin <;> rfl
    rw [exec_blockInError, hbad, if_pos rfl, hs, hcount]
    rfl
  · rw [hv, hu]
    unfold State.passStop
    cases s.hubAt (.node n) <;> rfl

end Sys2Proof.Machine
end

section
/-!
PROOFS. Courses and plans (O45).
-/

namespace Sys2Proof.Machine

variable {s : State}

theorem exec_courseBoundary {eyes : List (PortRef × BitVec 8 × BitVec 8)} (hmode : s.pmu.mode.courses = true) (hon : s.pmu.doms[10] = .on) :
    exec (.courseBoundary eyes) s = .next (s.startCourse eyes) := by
  have hboth : (s.pmu.mode.courses && s.pmu.doms[10] == .on) = true := by rw [hmode, hon]; rfl
  exact congrArg Host.Outcome.next (if_pos hboth)

theorem exec_planMarkedReady {t u v : State} (hpending : s.plan.pending = true) (hready : s.plan.ready = false) (hswap : s.plan.swapAt = none)
    (ht : t = { s with plan := { s.plan with ready := true } }) (hu : u = t.deferOpens t.openSwap)
    (hv : v = if u.course.running = true ∧ 62 ≤ u.course.count.toNat % 64 then u.happen .PLN_EVENT_SWAP_DEFERRED 4 else u) :
    exec .planMarkedReady s = .next (v.instructHubs.planCmds v.openSwap) := by
  have hexec : exec .planMarkedReady s = execPlanMarkedReady s := rfl
  have hfree : (s.plan.pending && !s.plan.ready && s.plan.swapAt.isNone) = true := by rw [hpending, hready, hswap]; rfl
  rw [hexec, hv, hu, ht]
  unfold execPlanMarkedReady
  simp only [hfree, if_true, Bool.and_eq_true, decide_eq_true_eq, ge_iff_le]

theorem exec_marginWindowEnd {p : PortRef} {x : Port} (hp : s.port p = some x) (hstate : x.state = .enabled) (hstarted : x.window.started = true)
    (hcycles : x.window.length ≤ x.window.cycles) :
    exec (.marginWindowEnd p) s = .next (s.modPort p fun y => { y with window := Window.fresh (s.windowLen p) }) := by
  have hexec : exec (.marginWindowEnd p) s = execMarginWindowEnd p s := rfl
  have hend : (x.state == .enabled && x.window.started && x.window.cycles ≥ x.window.length) = true := by
    rw [hstate, hstarted]
    exact decide_eq_true hcycles
  rw [hexec]
  unfold execMarginWindowEnd
  rw [hp]
  exact congrArg Host.Outcome.next (if_pos hend)

/-- Settles O45. -/
theorem coursesAndPlansAdvance : Obligations.CoursesAndPlansAdvance := fun _ =>
  ⟨fun _ => exec_courseBoundary,
    fun hpending hready hswap _ _ _ => exec_planMarkedReady hpending hready hswap,
    fun _ _ => exec_marginWindowEnd⟩

end Sys2Proof.Machine
end

section
/-!
PROOFS. Raises, stops, outcomes and events leave bus time as it is: one lemma for each operation of Machine/Signal.lean that `State.happen` and
`State.event` go through. A raise is a parameter of most of them, so it is assumed to leave time alone there.
-/

namespace Sys2Proof.Machine.State

/-- A raise that leaves time alone. -/
def TimeStays (r : Raising) : Prop := ∀ s src, (r s src).time = s.time

theorem foldl_time {α : Type} {f : State → α → State} (hf : ∀ s a, (f s a).time = s.time) :
    ∀ (l : List α) (s : State), (l.foldl f s).time = s.time
  | [], _ => rfl
  | a :: l, s => (foldl_time hf l (f s a)).trans (hf s a)

variable {r : Raising} (s : State)

@[simp] theorem pend_time (src : Nat) : (s.pend src).time = s.time := by
  unfold pend
  split
  · exact addSat_time ..
  · rfl

@[simp] theorem stopBurst_time (reason : BitVec 4) (skip : Option Side) : (s.stopBurst reason skip).time = s.time := by
  unfold stopBurst
  simp only [addSat_time]
  split
  · exact foldl_time (fun t x => emit_time t _) _ _
  · rfl

theorem raiseAgain_time : TimeStays raiseAgain := fun s src => by
  unfold raiseAgain
  rw [pend_time]
  split
  · exact stopBurst_time ..
  · rfl

@[simp] theorem wakeHost_time : s.wakeHost.time = s.time := by
  unfold wakeHost
  split <;> simp only [addSat_time]

@[simp] theorem post_time (o : Out) : (s.post o).time = s.time := by
  unfold post
  split
  · rfl
  · dsimp only
    split <;> simp only [emit_time, wakeHost_time]

@[simp] theorem putEntry_time (i : Nat) (body : List Byte) (flags bad : Byte) : (s.putEntry i body flags bad).time = s.time := by
  simp only [putEntry, modInst_time, post_time]

theorem finishBy_time (hr : TimeStays r) (ctx : Nat) (i : BitVec 16) (st : Status) (n : Nat) (effect : Bool) :
    (s.finishBy r ctx i st n effect).time = s.time := by
  unfold finishBy
  split
  · rfl
  · split
    · rfl
    · cases st <;> simp only [hr _ _, addSat_time, setBit_time, modFlow_time]

theorem raiseAfterBy_time (hr : TimeStays r) (src : Option Nat) : (s.raiseAfterBy r src).time = s.time := by
  unfold raiseAfterBy
  cases src with
  | none => rfl
  | some n =>
    dsimp only
    split
    · exact hr s n
    · rfl

theorem eventAtBy_time (hr : TimeStays r) (i code subject : Nat) (time : BitVec 64) (detail : List Byte) :
    (s.eventAtBy r i code subject time detail).time = s.time := by
  unfold eventAtBy
  dsimp only
  split
  · rfl
  · split
    · simp only [apply_ite State.time, raiseAfterBy_time _ hr, modInst_time, putEntry_time, ite_self]
    · simp only [addSat_time, setBit_time, modInst_time]

theorem eventBy_time (hr : TimeStays r) (i code subject : Nat) (detail : List Byte) : (s.eventBy r i code subject detail).time = s.time :=
  eventAtBy_time s hr ..

theorem startResyncBy_time (hr : TimeStays r) (ctx : Nat) : (s.startResyncBy r ctx).time = s.time := by
  unfold startResyncBy
  split
  · rfl
  · dsimp only
    split <;> simp only [emit_time, eventBy_time _ hr, modFlow_time]

theorem toggleUnknownBy_time (hr : TimeStays r) (ctx : Nat) : (s.toggleUnknownBy r ctx).time = s.time := by
  unfold toggleUnknownBy
  dsimp only
  split <;> simp only [startResyncBy_time _ hr, modFlow_time]

theorem holdAcceptedBy_time (hr : TimeStays r) : (s.holdAcceptedBy r).time = s.time := by
  refine foldl_time (fun s y => ?_) _ _
  dsimp only
  split <;> simp only [hr _ _, setBit_time, toggleUnknownBy_time _ hr, finishBy_time _ hr]

@[simp] theorem stopTraffic_time : s.stopTraffic.time = s.time :=
  holdAcceptedBy_time _ raiseAgain_time

theorem clearPtbBy_time (hr : TimeStays r) : (s.clearPtbBy r).time = s.time := by
  unfold clearPtbBy
  split
  · rw [hr]
    simp only [setPair_time]
    rw [foldl_time (fun _ _ => setReg_time ..), foldl_time (fun _ _ => setReg_time ..)]
  · rfl

theorem setModeBy_time (hr : TimeStays r) (m : Mode) : (s.setModeBy r m).time = s.time := by
  unfold setModeBy
  dsimp only
  split
  · rfl
  · rw [hr]
    split <;> simp only [clearPtbBy_time _ hr, eventBy_time _ hr, setBit_time]

@[simp] theorem stopTrigger_time (reason : BitVec 4) (skip : Option Side) : (s.stopTrigger reason skip).time = s.time := by
  have hmode (t : State) : (if t.pmu.mode = .run then t.setModeBy raiseAgain .hold else t).time = t.time := by
    split
    · exact setModeBy_time t raiseAgain_time .hold
    · rfl
  have htraffic (t : State) : (if t.pmu.mode.courses then t.stopTraffic else t).time = t.time := by
    split
    · exact stopTraffic_time t
    · rfl
  unfold stopTrigger
  dsimp only
  split <;> simp only [raiseAgain_time _ _, setBit_time, hmode, htraffic, stopBurst_time]

theorem raise_time : TimeStays raise := fun s src => by
  unfold raise
  rw [pend_time]
  split
  · exact stopTrigger_time ..
  · rfl

@[simp] theorem happen_time (f : Fld) (src k : Nat) : (s.happen f src k).time = s.time := by
  rw [happen, raise_time, setBit_time]

@[simp] theorem event_time (i code subject : Nat) (detail : List Byte) : (s.event i code subject detail).time = s.time :=
  eventBy_time s raise_time ..

end Sys2Proof.Machine.State
end

section
/-!
PROOFS. Bus time (O46).
-/

namespace Sys2Proof.Machine

section
variable {s : State}

/-- Storing a field leaves the fields of a register at another place alone. -/
theorem State.fld_setFld_ne {f g : Fld} {x k n j m : Nat} (h : g.reg.key m j ≠ f.reg.key n k) : (s.setFld f x k n).fld g j m = s.fld g j m :=
  congrArg g.get (State.rawReg_setReg_ne s f.reg g.reg _ k n _ h)

/-- … and their values in force. -/
theorem State.effFld_setFld_ne {f g : Fld} {x k n j m : Nat} (h : g.reg.key m j ≠ f.reg.key n k) :
    (s.setFld f x k n).effFld g j m = s.effFld g j m :=
  congrArg (fun v => g.get ((kget s.regsOld (g.reg.key m j)).getD v)) (State.rawReg_setReg_ne s f.reg g.reg _ k n _ h)

/-- An edge of PPS_IN leaves its stamp. -/
def State.ppsStamped (s : State) (stamp : Nat) : State :=
  (s.setPair .TAPU_PPS_STAMP_LO_STAMP .TAPU_PPS_STAMP_HI_STAMP (stamp / 64)).setFld .TAPU_PPS_STAT_FRAC (stamp % 64)

theorem State.ppsStamped_timeSource (stamp : Nat) : (s.ppsStamped stamp).timeSource = s.timeSource := by
  unfold State.ppsStamped State.setPair State.timeSource
  iterate 3 rw [State.effFld_setFld_ne (by decide)]

/-- What an edge stores leaves the threshold of a lock alone. -/
theorem State.ppsStamped_lockThr (stamp o : Nat) :
    ((s.ppsStamped stamp).setFld .TAPU_OFFSET_OFFSET o).fld .TAPU_LOCK_CFG_LOCK_THR = s.fld .TAPU_LOCK_CFG_LOCK_THR := by
  unfold State.ppsStamped State.setPair
  iterate 4 rw [State.fld_setFld_ne (by decide)]

theorem exec_ppsEdge_asleep (stamp : Nat) (fall : Bool) (h : s.pmu.doms[10] ≠ .on) : exec (.ppsEdge stamp fall) s = .next s.lostPulse :=
  congrArg Host.Outcome.next (if_pos (bne_iff_ne.mpr h))

/-- An edge that marks the second, with PPS the source of bus time. -/
theorem exec_ppsEdge_sampled {stamp : Nat} {fall : Bool} {u : State} (hon : s.pmu.doms[10] = .on) (hin : s.flag .TAPU_PPS_CFG_IN_EN = true)
    (hfall : s.flag .TAPU_PPS_CFG_IN_FALL = fall) (hsource : s.timeSource = 1) (hstepped : s.time.stepped = false)
    (hu : u = (s.ppsStamped stamp).setFld .TAPU_OFFSET_OFFSET (sat32 (ppsOffset stamp))) :
    exec (.ppsEdge stamp fall) s = .next (if s.time.quality = .locked ∧ 256 * s.fld .TAPU_LOCK_CFG_LOCK_THR < (ppsOffset stamp).natAbs
      then u.ppsGone else u.ppsSample (ppsOffset stamp)) := by
  have hexec : exec (.ppsEdge stamp fall) s = execPpsEdge stamp s fall := rfl
  have hawake : ¬ (s.pmu.doms[10] != .on) = true := fun e => bne_iff_ne.mp e hon
  have hmarks : (s.flag .TAPU_PPS_CFG_IN_EN && s.flag .TAPU_PPS_CFG_IN_FALL == fall) = true := by rw [hin, hfall]; exact beq_self_eq_true fall
  have htaken : ((s.ppsStamped stamp).timeSource = 1 && !(s.ppsStamped stamp).time.stepped) = true := by
    rw [State.ppsStamped_timeSource, hsource]
    exact congrArg (!·) hstepped
  rw [hexec, execPpsEdge, if_neg hawake, if_pos hmarks]
  refine congrArg Host.Outcome.next ((if_pos htaken).trans ?_)
  rw [hu]
  refine if_iff_congr ?_ rfl rfl
  rw [Bool.and_eq_true, decide_eq_true_iff, decide_eq_true_iff, ← State.ppsStamped_lockThr (s := s) stamp (sat32 (ppsOffset stamp))]
  rfl

theorem exec_ppsMissing (hin : s.flag .TAPU_PPS_CFG_IN_EN = true) (hsource : s.timeSource = 1) (hstepped : s.time.stepped = false) :
    exec .ppsMissing s = .next ((s.addSat .TAPU_PPS_STAT_MISSED 1).happen .TAPU_EVENT_PPS_MISSED srcTapu).ppsGone := by
  refine congrArg Host.Outcome.next (if_pos ?_)
  rw [hin, hsource, hstepped]
  rfl

theorem exec_ppsLock (hsource : s.timeSource = 1) (hquality : s.time.quality ≠ .locked)
    (hrun : max 1 (s.fld .TAPU_LOCK_CFG_LOCK_CNT) ≤ s.time.lockRun) :
    exec .ppsLock s = .next (State.setQuality { s with time := { s.time with uncert := 0, missRun := 0 } } .locked) := by
  refine congrArg Host.Outcome.next (if_pos ?_)
  simp only [hsource, bne_iff_ne.mpr hquality, decide_true, decide_eq_true hrun, Bool.and_self]

/-- One course in HOLDOVER. -/
theorem exec_holdoverTick {limit u : Nat} (hquality : s.time.quality = .holdover) (hlimit : limit = s.fld .TAPU_HOLD_CFG_LIMIT * 1000000000)
    (hu : u = s.time.uncert + s.fld .TAPU_HOLD_CFG_WANDER * s.periodNs) :
    exec .holdoverTick s = .next (if s.time.uncert ≤ limit ∧ limit < u then
      State.happen { s with time := { s.time with uncert := u } } .TAPU_EVENT_BOUND_EXCEEDED srcTapu
    else { s with time := { s.time with uncert := u } }) := by
  refine congrArg Host.Outcome.next ((if_pos hquality).trans ?_)
  rw [hu, hlimit]
  exact if_iff_congr (by rw [Bool.and_eq_true, decide_eq_true_iff, decide_eq_true_iff]) rfl rfl

theorem exec_ppsOutEdge (hout : s.flag .TAPU_PPS_CFG_OUT_EN = true) (hon : s.pmu.doms[10] = .on)
    (hnow : ((s.time.bus.toNat : Int) * 64 + (s.time.frac.toNat / 2 ^ 26 : Nat) - (BitVec.ofNat 32 (s.effFld .TAPU_PPS_OUT_OFS_OFS)).toInt) %
      (second64 : Int) < 129) :
    exec .ppsOutEdge s = .next (s.emit (.ppsOut (max 1 (s.fld .TAPU_PPS_CFG_OUT_WIDTH)))) := by
  refine congrArg Host.Outcome.next (if_pos ?_)
  rw [hout, hon]
  exact decide_eq_true hnow

theorem exec_coreClockChange_none (ticks : Nat) : exec (.coreClockChange ticks 0) s =
    .next (State.rebuild { s with time := { s.time with ao := s.time.ao + BitVec.ofNat 48 ticks } } s.time.bus ticks).expireDue := by
  refine congrArg Host.Outcome.next (List.foldlRecOn (motive := (· = _)) _ _ rfl fun t ht k _ => ?_)
  simp [ht]

theorem State.wakeTime_snap {bus : BitVec 64} {ao : BitVec 48} (h : s.time.snap = some (bus, ao)) :
    s.wakeTime = (State.rebuild { s with time := { s.time with snap := none } } bus (s.time.ao - ao).toNat).expireDue := by
  unfold State.wakeTime
  rw [h]

theorem State.setQuality_bus (q : Quality) : (s.setQuality q).time.bus = s.time.bus := by
  unfold State.setQuality
  dsimp only
  split
  · rfl
  · rw [State.event_time, State.happen_time]

theorem State.setQuality_quality (q : Quality) : (s.setQuality q).time.quality = q := by
  unfold State.setQuality
  dsimp only
  split
  case isTrue h => exact h
  case isFalse => rw [State.event_time, State.happen_time]

/-- Bus time set anew over a gap of `ps` picoseconds, before the quality follows. -/
def State.timeSpanned (s : State) (base : BitVec 64) (ps : Nat) : State :=
  { s with
    time := { s.time with
      bus := base + BitVec.ofNat 64 (ps / 1000000), frac := BitVec.ofNat 32 (ps % 1000000 * 2 ^ 32 / 1000000), mono := s.time.mono + ps / 1000000
      uncert := s.time.uncert + 50 * 1000 * (ps / 1000000) + 30518 * 1000000000
      lockRun := 0, firstPulse := true, secondsSet := false } }

/-- Rebuilding ends with the quality ESTIMATED, unless time was never set, and with an event. -/
def State.spanEnded (v : State) : State :=
  (if v.time.quality = .unset then v else v.setQuality .estimated).happen .TAPU_EVENT_RECONSTRUCTED srcTapu

theorem State.rebuild_eq (base : BitVec 64) (ticks : Nat) : s.rebuild base ticks = (s.timeSpanned base (ticks * 30517578125)).spanEnded := rfl

theorem State.spanEnded_bus : s.spanEnded.time.bus = s.time.bus := by
  rw [State.spanEnded, State.happen_time]
  split
  · rfl
  · exact State.setQuality_bus _

theorem State.spanEnded_quality (h : s.time.quality ≠ .unset) : s.spanEnded.time.quality = .estimated := by
  rw [State.spanEnded, State.happen_time, if_neg h, State.setQuality_quality]

theorem State.timeSpanned_quality (base : BitVec 64) (ps : Nat) : (s.timeSpanned base ps).time.quality = s.time.quality := rfl

theorem State.rebuild_bus (base : BitVec 64) (ticks : Nat) :
    (s.rebuild base ticks).time.bus = base + BitVec.ofNat 64 (ticks * 30517578125 / 1000000) := by
  rw [State.rebuild_eq, State.spanEnded_bus, State.timeSpanned]

theorem State.rebuild_quality (base : BitVec 64) (ticks : Nat) (h : s.time.quality ≠ .unset) :
    (s.rebuild base ticks).time.quality = .estimated := by
  rw [State.rebuild_eq, State.spanEnded_quality (by rwa [State.timeSpanned_quality])]

end

/-- Settles O46. -/
theorem busTimeFollowsItsEvents : Obligations.BusTimeFollowsItsEvents := fun _ =>
  ⟨exec_ppsEdge_asleep,
    fun _ _ hon hin hfall hsource hstepped _ _ hu => exec_ppsEdge_sampled hon hin hfall hsource hstepped hu,
    exec_ppsMissing, exec_ppsLock, fun _ _ => exec_holdoverTick, exec_ppsOutEdge, exec_coreClockChange_none, rfl,
    fun _ _ => State.wakeTime_snap, fun base ticks => ⟨State.rebuild_bus base ticks, State.rebuild_quality base ticks⟩⟩

end Sys2Proof.Machine
end

section
/-!
PROOFS. Encoders and estimators (O47).
-/

namespace Sys2Proof.Machine

section
variable {s : State} {n e : Fin 8} {a b : Bool} {stamp : BusTime} {hold : Nat}

theorem exec_encoderEdge_same (h : (s.encs[n].a = a ∧ s.encs[n].b = b) ∨ hold < s.filtNs n) : exec (.encoderEdge n a b stamp hold) s = .next s :=
  congrArg Host.Outcome.next (if_pos (by simpa only [Bool.or_eq_true, Bool.and_eq_true, beq_iff_eq, decide_eq_true_eq] using h))

/-- Levels that differ from those known, held long enough. -/
theorem encoderEdge_seen (hdiff : s.encs[n].a ≠ a ∨ s.encs[n].b ≠ b) (hheld : s.filtNs n ≤ hold) :
    ((s.encs[n].a == a && s.encs[n].b == b) || decide (hold < s.filtNs n)) = false := by
  have hlevels : (s.encs[n].a == a && s.encs[n].b == b) = false := by
    rw [Bool.and_eq_false_iff]
    exact hdiff.imp beq_eq_false_iff_ne.mpr beq_eq_false_iff_ne.mpr
  rw [hlevels, Bool.false_or]
  exact decide_eq_false (Nat.not_lt.mpr hheld)

/-- The levels of an input that the controller knows. -/
def State.encLevels (s : State) (n : Fin 8) (a b : Bool) : State := { s with encs := vmod s.encs n.val fun x => { x with a := a, b := b } }

theorem exec_encoderEdge_asleep (hdiff : s.encs[n].a ≠ a ∨ s.encs[n].b ≠ b) (hheld : s.filtNs n ≤ hold) (hoff : s.pmu.doms[10] ≠ .on) :
    exec (.encoderEdge n a b stamp hold) s = .next (s.encLevels n a b).lostPulse :=
  congrArg Host.Outcome.next ((if_neg (Bool.eq_false_iff.mp (encoderEdge_seen hdiff hheld))).trans (if_pos (bne_iff_ne.mpr hoff)))

theorem exec_encoderEdge_quad (ha : s.encs[n].a ≠ a) (hb : s.encs[n].b ≠ b) (hheld : s.filtNs n ≤ hold) (hon : s.pmu.doms[10] = .on) :
    exec (.encoderEdge n a b stamp hold) s = .next ((s.encLevels n a b).quadError n) := by
  have hawake : ¬ (s.pmu.doms[10] != .on) = true := fun h => bne_iff_ne.mp h hon
  have hboth : (s.encs[n].a != a && s.encs[n].b != b) = true := by rw [bne_iff_ne.mpr ha, bne_iff_ne.mpr hb]; rfl
  exact congrArg Host.Outcome.next ((if_neg (Bool.eq_false_iff.mp (encoderEdge_seen (.inl ha) hheld))).trans
    ((if_neg hawake).trans (if_pos hboth)))

/-- A change of one level counts one place. -/
theorem exec_encoderEdge_counted {up : Bool} {u : State} (hone : (s.encs[n].a = a) ≠ (s.encs[n].b = b)) (hheld : s.filtNs n ≤ hold)
    (hon : s.pmu.doms[10] = .on) (hup : up = leadsA s.encs[n].a s.encs[n].b a b)
    (hu : u = { s with encs := vmod s.encs n.val fun x => { x with a := a, b := b, up := up, count := if up then x.count + 1 else x.count - 1 } }) :
    exec (.encoderEdge n a b stamp hold) s = .next (u.takeEdge ⟨n, some up, stamp⟩) := by
  have hawake : ¬ (s.pmu.doms[10] != .on) = true := fun h => bne_iff_ne.mp h hon
  have hdiff : s.encs[n].a ≠ a ∨ s.encs[n].b ≠ b := by
    by_cases ha : s.encs[n].a = a
    · exact .inr fun hb => hone (propext ⟨fun _ => hb, fun _ => ha⟩)
    · exact .inl ha
  have hnotBoth : ¬ (s.encs[n].a != a && s.encs[n].b != b) = true := by
    rw [Bool.and_eq_true, bne_iff_ne, bne_iff_ne]
    exact fun ⟨ha, hb⟩ => hone (propext ⟨fun h => absurd h ha, fun h => absurd h hb⟩)
  rw [hu, hup]
  exact congrArg Host.Outcome.next ((if_neg (Bool.eq_false_iff.mp (encoderEdge_seen hdiff hheld))).trans
    ((if_neg hawake).trans (if_neg hnotBoth)))

/-! An edge waits, or reaches the estimators that read its input. -/

theorem State.takeEdge_late {x : LateEdge} (hrun : s.course.running = true)
    (hlate : s.edgesLate ≠ [] ∨ (s.startOf (s.course.count.toNat + 1)).toNat ≤ x.stamp.toNat) :
    s.takeEdge x = { s with edgesLate := s.edgesLate ++ [x] } := by
  refine if_pos ?_
  rw [hrun, Bool.true_and, Bool.or_eq_true, decide_eq_true_iff]
  exact hlate.imp_left fun h => by rw [Bool.not_eq_true', List.isEmpty_eq_false_iff]; exact h

theorem State.takeEdge_now {x : LateEdge} (h : s.course.running = false ∨
      (s.edgesLate = [] ∧ x.stamp.toNat < (s.startOf (s.course.count.toNat + 1)).toNat)) : s.takeEdge x = s.edgeFor x := by
  refine if_neg ?_
  rcases h with h | ⟨hnone, hbefore⟩
  · simp only [h, Bool.false_and, Bool.false_eq_true, not_false_eq_true]
  · simp only [hnone, List.isEmpty_nil, Bool.not_true, Bool.false_or, decide_eq_false (Nat.not_le.mpr hbefore), Bool.and_false,
      Bool.false_eq_true, not_false_eq_true]

theorem State.edgeFor_unread {x : LateEdge} (h : s.readers 0 x.input.val = []) : s.edgeFor x = s := by
  unfold State.edgeFor
  rw [h]
  cases x.up <;> rfl

theorem State.edgeFor_index {x : LateEdge} (h : s.readers 0 x.input.val = [e]) (hup : x.up = none) :
    s.edgeFor x = if (s.indexFor e).2 then (s.indexFor e).1.addSat .TAPU_ENC_ERR_INDEX_ERRS 1 x.input.val else (s.indexFor e).1 := by
  unfold State.edgeFor
  rw [h, hup]
  simp only [List.foldl_cons, List.foldl_nil, Bool.false_or]

theorem State.edgeFor_counted {x : LateEdge} {up : Bool} (h : s.readers 0 x.input.val = [e]) (hup : x.up = some up)
    (hest : s.ests[e].state ≠ .lost) : s.edgeFor x =
      s.estEdge e (if up ≠ s.flag .TAPU_PACE_CFG_REVERSE_DIR e.val then s.ests[e].pos + 1 else s.ests[e].pos - 1) x.stamp encoderEps := by
  unfold State.edgeFor
  rw [h, hup]
  refine (if_neg fun h => hest (beq_iff_eq.mp h)).trans (congrArg (fun p : Int => s.estEdge e p x.stamp encoderEps) ?_)
  exact if_iff_congr bne_iff_ne rfl rfl

theorem exec_indexEdge_asleep (hheld : s.filtNs n ≤ hold) (hoff : s.pmu.doms[10] ≠ .on) : exec (.indexEdge n stamp hold) s = .next s.lostPulse :=
  congrArg Host.Outcome.next ((if_neg (Nat.not_lt.mpr hheld)).trans (if_pos (bne_iff_ne.mpr hoff)))

theorem exec_indexEdge_awake (hheld : s.filtNs n ≤ hold) (hon : s.pmu.doms[10] = .on) :
    exec (.indexEdge n stamp hold) s = .next (s.takeEdge ⟨n, none, stamp⟩) :=
  congrArg Host.Outcome.next ((if_neg (Nat.not_lt.mpr hheld)).trans (if_neg fun h => bne_iff_ne.mp h hon))

theorem exec_sourceLost (hoff : s.ests[e].state ≠ .off) (hlost : s.ests[e].state ≠ .lost)
    (hgone : (s.paceKind e = 1 ∧ 2 ≤ s.ests[e].missing) ∨ (s.paceKind e = 2 ∧ 2 ≤ s.recordGone e)) :
    exec (.sourceLost e) s = .next (s.loseEst e .TAPU_PACE_EVENT_SOURCE_LOST) := by
  refine congrArg Host.Outcome.next (if_pos ?_)
  simp only [bne_iff_ne.mpr hoff, bne_iff_ne.mpr hlost, Bool.and_true, Bool.or_eq_true, Bool.and_eq_true, beq_iff_eq, decide_eq_true_eq]
  exact hgone

theorem exec_estimatorStopped (hstate : s.ests[e].state = .tracking)
    (hquiet : max 1 (s.effFld .TAPU_PACE_CFG_STOP_CYC e.val) ≤ s.ests[e].quiet) :
    exec (.estimatorStopped e) s = .next ((s.modEst e fun x => { x with state := .acquiring, stopped := true, omega := 0, alpha := 0
                                                                        edges := [] }).paceEvent e .TAPU_PACE_EVENT_STOPPED) := by
  refine congrArg Host.Outcome.next (if_pos ?_)
  rw [hstate]
  exact decide_eq_true hquiet

end

/-- Settles O47. -/
theorem paceFollowsItsEvents : Obligations.PaceFollowsItsEvents := by
  refine ⟨fun s n a b stamp hold t ht => ⟨exec_encoderEdge_same, fun hdiff hheld hoff => ?asleep, fun ha hb hheld hon => ?quad,
      fun up u => exec_encoderEdge_counted⟩,
    fun s x => ⟨State.takeEdge_late, fun h => ⟨fun hr => ?unread, fun e hr hup => ?index, fun e up hr hup hest => ?counted⟩⟩,
    fun s n stamp hold hheld => ⟨exec_indexEdge_asleep hheld, exec_indexEdge_awake hheld⟩,
    fun s e => exec_sourceLost, fun s e => exec_estimatorStopped⟩
  case asleep => rw [ht]; exact exec_encoderEdge_asleep hdiff hheld hoff
  case quad => rw [ht]; exact exec_encoderEdge_quad ha hb hheld hon
  case unread => rw [State.takeEdge_now h, State.edgeFor_unread hr]
  case index => rw [State.takeEdge_now h, State.edgeFor_index hr hup]
  case counted => rw [State.takeEdge_now h, State.edgeFor_counted hr hup hest]

end Sys2Proof.Machine
end

section
/-!
PROOFS. Descriptors (O48): the lane and the packed format read back (R2, R3), and what a fetch leaves of an instance's PASID.
-/

namespace Sys2Proof.Machine

/-! Bytes of a number, and words in lane and packed format. -/

theorem leBytes_length (n v : Nat) : (leBytes n v).length = n := by
  induction n generalizing v with
  | zero => rfl
  | succ n ih => rw [leBytes, List.length_cons, ih]

theorem leNat_leBytes (n v : Nat) : leNat (leBytes n v) = v % 256 ^ n := by
  induction n generalizing v with
  | zero => rw [Nat.pow_zero, Nat.mod_one]; rfl
  | succ n ih =>
    rw [leBytes, leNat, ih, BitVec.toNat_ofNat]
    exact ((congrArg (v % ·) Nat.pow_succ').trans Nat.mod_mul).symm

/-- The field at the start of what is laid out there. -/
theorem fieldAt_zero_append (n v : Nat) (tail : List Byte) : fieldAt (leBytes n v ++ tail) 0 n = v % 256 ^ n := by
  rw [fieldAt, List.drop_zero, List.take_left' (leBytes_length n v), leNat_leBytes]

theorem laneWords_append (head tail : List Byte) (h : head.length = 8) :
    laneWords (head ++ tail) = BitVec.ofNat 36 (fieldAt (head ++ tail) 0 8) :: laneWords tail := by
  have hlen : (head ++ tail).length / 8 = tail.length / 8 + 1 := by rw [List.length_append, h, Nat.add_div_left _ (by decide)]
  rw [laneWords, hlen, List.range_succ_eq_map, List.map_cons, List.map_map, laneWords]
  refine congrArg _ (List.map_congr_left fun k _ => ?_)
  exact congrArg (BitVec.ofNat 36) ((congrArg (fun o => fieldAt (head ++ tail) o 8) (Nat.mul_succ 8 k |>.trans (Nat.add_comm _ _))).trans
    (fieldAt_append h tail (8 * k) 8))

theorem laneWords_laneBytes (ws : List Word) : laneWords (laneBytes ws) = ws := by
  induction ws with
  | nil => rfl
  | cons w ws ih =>
    have hw : w.toNat % 256 ^ 8 = w.toNat := Nat.mod_eq_of_lt (by have := w.isLt; omega)
    have hcons : laneBytes (w :: ws) = leBytes 8 w.toNat ++ laneBytes ws := rfl
    rw [hcons, laneWords_append _ _ (leBytes_length 8 _), fieldAt_zero_append, hw, BitVec.ofNat_toNat, BitVec.setWidth_eq, ih]

theorem laneBytes_length (ws : List Word) : (laneBytes ws).length = 8 * ws.length := by
  induction ws with
  | nil => rfl
  | cons w ws ih =>
    have hcons : laneBytes (w :: ws) = leBytes 8 w.toNat ++ laneBytes ws := rfl
    rw [hcons, List.length_append, leBytes_length, ih, List.length_cons, Nat.mul_succ, Nat.add_comm]

theorem packedWords_append (head tail : List Byte) (h : head.length = 9) : packedWords (head ++ tail) =
    BitVec.ofNat 36 (fieldAt (head ++ tail) 0 9) :: BitVec.ofNat 36 (fieldAt (head ++ tail) 0 9 / 2 ^ 36) :: packedWords tail := by
  have hlen : (head ++ tail).length / 9 = tail.length / 9 + 1 := by rw [List.length_append, h, Nat.add_div_left _ (by decide)]
  have hshift (k : Nat) : fieldAt (head ++ tail) (9 * (k + 1)) 9 = fieldAt tail (9 * k) 9 := by
    rw [Nat.mul_succ, Nat.add_comm, fieldAt_append h]
  rw [packedWords, hlen, List.range_succ_eq_map, List.flatMap_cons, List.flatMap_map, packedWords]
  simp only [Nat.succ_eq_add_one, hshift, Nat.mul_zero, List.cons_append, List.nil_append]

theorem packedPair_lt (w v : Word) : w.toNat + v.toNat * 2 ^ 36 < 256 ^ 9 := by
  have := w.isLt
  have := v.isLt
  omega

/-- Packed words read back; a last one alone has a zero after it. -/
theorem packedWords_packedBytes (ws : List Word) : (packedWords (packedBytes ws)).take ws.length = ws := by
  induction ws using packedBytes.induct with
  | case1 => rfl
  | case2 w =>
    have hw : w.toNat % 256 ^ 9 = w.toNat := Nat.mod_eq_of_lt (by have := w.isLt; omega)
    have hone := packedWords_append (leBytes 9 w.toNat) [] (leBytes_length 9 _)
    rw [fieldAt_zero_append, hw, List.append_nil] at hone
    rw [packedBytes, hone, List.length_singleton, List.take_succ_cons, List.take_zero, BitVec.ofNat_toNat, BitVec.setWidth_eq]
  | case3 w v ws ih =>
    have hlow : BitVec.ofNat 36 (w.toNat + v.toNat * 2 ^ 36) = w := BitVec.eq_of_toNat_eq (by
      rw [BitVec.toNat_ofNat, Nat.add_mul_mod_self_right, Nat.mod_eq_of_lt w.isLt])
    have hhigh : BitVec.ofNat 36 ((w.toNat + v.toNat * 2 ^ 36) / 2 ^ 36) = v := by
      rw [Nat.add_mul_div_right _ _ (by decide), Nat.div_eq_of_lt w.isLt, Nat.zero_add, BitVec.ofNat_toNat, BitVec.setWidth_eq]
    rw [packedBytes, packedWords_append _ _ (leBytes_length 9 _), fieldAt_zero_append, Nat.mod_eq_of_lt (packedPair_lt w v), hlow, hhigh,
      List.length_cons, List.length_cons, List.take_succ_cons, List.take_succ_cons, ih]

end Sys2Proof.Machine
end

section
/-!
PROOFS. Descriptors and staged data (O48, O49): fetch, arrival and failure, write-back, and the acceptance deadline.
-/

namespace Sys2Proof.Machine

section
variable {s : State} {ctx : Nat} {f : Flow}

/-- The mark of the most tags in use leaves an instance's PASID alone. -/
theorem State.pasidOf_tagsHwm (x i : Nat) : (s.setFld .HIF_TAGS_HWM x).pasidOf i = s.pasidOf i := by
  unfold State.pasidOf State.flag
  rw [State.fld_setFld_ne (by decide), State.fld_setFld_ne (by decide)]
  rfl

theorem State.pasidOf_congr {v : State} (hregs : v.regs = s.regs) (hinsts : v.insts = s.insts) (i : Nat) : v.pasidOf i = s.pasidOf i := by
  unfold State.pasidOf State.flag State.fld State.reg State.rawReg State.inst
  rw [hregs, hinsts]

/-- A read goes out with its tag counted. -/
theorem State.readGoes (v : State) (tags i bytes : Nat) (addr : BitVec 64) (hpasid : v.pasidOf i = s.pasidOf i) :
    (v.setFld .HIF_TAGS_HWM tags).emit (.hostRead ((v.setFld .HIF_TAGS_HWM tags).pasidOf i) addr bytes) =
      (v.setFld .HIF_TAGS_HWM tags).emit (.hostRead (s.pasidOf i) addr bytes) := by
  rw [State.pasidOf_tagsHwm, hpasid]

/-! Descriptors. -/

theorem exec_ringFetchIssue {k : Nat} {t u : State} (hf : s.flow ctx = some f) (hk : k = s.ringReadSize ctx f) (hnext : s.ringNext = some ctx)
    (htags : s.host.ringTags < s.depth 2 0 256) (hpost : s.canPost = true) (hdma : s.boot.dmaRefused = false)
    (ht : t = s.turnTaken (if f.par.ty.scheduled then 0 else 1) ctx f)
    (hu : u = { t.modFlow ctx fun g => { g with fetching := k } with host := { s.host with ringTags := s.host.ringTags + 1 } }) :
    exec (.ringFetchIssue ctx) s =
      .next ((u.setFld .HIF_TAGS_HWM (max (u.fld .HIF_TAGS_HWM) (s.host.ringTags + 1 + s.host.stageTags))).emit
        (.hostRead (s.pasidOf f.inst) (f.ring + BitVec.ofNat 64 (32 * (f.fetched.toNat % 2 ^ f.ringLog))) (32 * k))) := by
  have hexec : exec (.ringFetchIssue ctx) s = execRingFetchIssue ctx s := rfl
  have hmay : (s.ringNext != some ctx || decide (s.host.ringTags ≥ s.depth 2 0 256) || !s.canPost || s.boot.dmaRefused) = false := by
    rw [hnext, hpost, hdma, decide_eq_false (Nat.not_le.mpr htags), bne_self_eq_false]
    rfl
  rw [hexec, execRingFetchIssue, hf]
  refine congrArg Host.Outcome.next ((if_neg (Bool.eq_false_iff.mp hmay)).trans ?_)
  rw [hu, ht, hk]
  exact State.readGoes _ _ _ _ _ rfl

/-- A descriptor that no read waits for. -/
theorem exec_descriptorArrival_orphan {i : BitVec 16} {e : ReadEnd} {w : List Byte} (hf : s.flow ctx = some f) (hfits : e ≠ .ok ∨ w.length = 32)
    (horphan : f.fetching = 0 ∨ i ≠ f.fetched) : exec (.descriptorArrival ctx i e w) s = .next s.orphanRing := by
  have hwf : wfDesc e w = true := by simpa only [wfDesc, Bool.or_eq_true, bne_iff_ne, beq_iff_eq] using hfits
  have hnone : (f.fetching = 0 || i != f.fetched) = true := by
    simpa only [Bool.or_eq_true, decide_eq_true_eq, bne_iff_ne] using horphan
  refine guarded_eq hwf ?_
  rw [hf]
  exact if_pos hnone

/-- A read waits for the descriptor that is next. -/
theorem Flow.expects_next (h : f.fetching ≠ 0) : ¬ (f.fetching = 0 || f.fetched != f.fetched) = true := by
  rw [bne_self_eq_false, Bool.or_false, decide_eq_true_iff]
  exact h

theorem exec_descriptorArrival_next {w0 w1 a0 a1 : Word} {u : State} (hf : s.flow ctx = some f) (hfetching : f.fetching ≠ 0)
    (hu : u = s.arrived ctx f) : exec (.descriptorArrival ctx f.fetched .ok (laneBytes [w0, w1, a0, a1])) s =
      .next (State.bindWaiting ctx 1 ((u.modFlow ctx fun g => { g.modXfer f.fetched fun x =>
        { x with desc := some (w0, w1, a0, a1), dueAt := s.time.mono, pertOn := s.perturbed, pertSeq := s.ptbSeq } with
          fetched := g.fetched + 1 }).spillStaged ctx f.fetched)) := by
  have hwf : wfDesc .ok (laneBytes [w0, w1, a0, a1]) = true := beq_iff_eq.mpr (laneBytes_length _)
  refine guarded_eq hwf ?_
  rw [hf, hu, laneWords_laneBytes]
  exact if_neg (Flow.expects_next hfetching)

theorem exec_descriptorArrival_failed {e : ReadEnd} {w : List Byte} (hf : s.flow ctx = some f) (hfetching : f.fetching ≠ 0) (he : e ≠ .ok) :
    exec (.descriptorArrival ctx f.fetched e w) s =
      .next ((State.readError { s.modFlow ctx fun g => { g with fetching := 0 } with
        host := { s.host with ringTags := s.host.ringTags - 1 } } ctx f.inst e false).setCauses ctx fun c => { c with ringFault := true }) := by
  have hwf : wfDesc e w = true := by rw [wfDesc, bne_iff_ne.mpr he, Bool.true_or]
  refine guarded_eq hwf ?_
  rw [hf]
  refine (if_neg (Flow.expects_next hfetching)).trans ?_
  cases e with
  | ok => exact absurd rfl he
  | ur | ca | poisoned | timeout => rfl

theorem exec_stageWindowOpen {course : BitVec 48} (hf : s.flow ctx = some f) (hbinds : f.bindsByWindow = true)
    (hslot : s.slotCourse f = some course.toNat) : exec (.stageWindowOpen ctx course) s = .next (State.bindWaiting ctx 1 s) := by
  have hexec : exec (.stageWindowOpen ctx course) s = execStageWindowOpen ctx course s := rfl
  rw [hexec, execStageWindowOpen, hf]
  refine congrArg Host.Outcome.next (if_pos ?_)
  rw [hbinds, hslot, Bool.true_and, beq_self_eq_true]

end

/-- Settles O48. -/
theorem descriptorsAreFetched : Obligations.DescriptorsAreFetched := fun _ _ _ hf =>
  ⟨fun _ hk hnext htags hpost hdma _ _ ht hu => exec_ringFetchIssue hf hk hnext htags hpost hdma ht hu,
    fun _ _ _ => exec_descriptorArrival_orphan hf,
    fun hfetching _ _ _ _ _ => exec_descriptorArrival_next hf hfetching,
    fun hfetching _ _ => exec_descriptorArrival_failed hf hfetching,
    fun _ => exec_stageWindowOpen hf⟩

/-! Staged data. -/

section
variable {s : State} {ctx : Nat} {f : Flow} {i : BitVec 16} {x : Transfer} {d : Word × Word × Word × Word}

theorem exec_stageFetchIssue {b : Fin 64} {n : Nat} {t u : State} (hf : s.flow ctx = some f) (hdue : s.stageDue f = some (x, b))
    (hdesc : x.desc = some d) (hn : n = f.readWords x) (hturn : s.stageTurn ctx f = true) (hpost : s.canPost = true)
    (hdma : s.boot.dmaRefused = false) (ht : t = s.turnTaken (if f.par.ty.scheduled then 2 else 3) ctx f)
    (hu : u = { ((t.openBank b).useBank b (· + n)).modXfer ctx x.idx (fun y =>
      { y with reading := true, readAt := x.moved + x.staged.length, issued := true, words := y.words + n, bank := some b }) with
      host := { s.host with stageTags := s.host.stageTags + 1 } }) :
    exec (.stageFetchIssue ctx) s =
      .next ((u.setFld .HIF_TAGS_HWM (max (u.fld .HIF_TAGS_HWM) (s.host.ringTags + (s.host.stageTags + 1)))).emit
        (.hostRead (s.pasidOf f.inst) (BitVec.ofNat 64 (descAddr d.1 d.2.1 + f.par.byteOfs (x.moved + x.staged.length)))
          (f.par.byteLen (x.moved + x.staged.length) n))) := by
  have hexec : exec (.stageFetchIssue ctx) s = execStageFetchIssue ctx s := rfl
  have hfound : ((s.flow ctx).bind fun f => (s.stageDue f).bind fun y => y.1.desc.map fun d => (f, y.1, y.2, d)) = some (f, x, b, d) := by
    rw [hf, Option.bind_some, hdue, Option.bind_some, hdesc, Option.map_some]
  have hmay : (!s.stageTurn ctx f || !s.canPost || s.boot.dmaRefused) = false := by rw [hturn, hpost, hdma]; rfl
  have hpasid : u.pasidOf f.inst = s.pasidOf f.inst := State.pasidOf_congr (by rw [hu, ht]; rfl) (by rw [hu, ht]; rfl) _
  rw [← State.readGoes u _ _ _ _ hpasid, hexec, execStageFetchIssue, hfound, hu, ht, hn]
  exact congrArg Host.Outcome.next (if_neg (Bool.eq_false_iff.mp hmay))

theorem State.stageDue_eq {b : Fin 64} (hnext : s.stageNext f = some x) (hstopped : s.fetchStopped f = false) (hheld : s.readHeld f x = false)
    (hbank : s.bankOf x (f.readWords x) = some b)
    (hroom : f.par.ty.scheduled = true ∨ (s.stageUse f.inst + f.readWords x ≤ (s.inst f.inst).shares.words ∧ f.xfers.any (·.reading) = false)) :
    s.stageDue f = some (x, b) := by
  have hroom : (f.par.ty.scheduled || (decide (s.stageUse f.inst + f.readWords x ≤ (s.inst f.inst).shares.words) &&
      !f.xfers.any (·.reading))) = true := by
    simpa only [Bool.or_eq_true, Bool.and_eq_true, decide_eq_true_eq, Bool.not_eq_true'] using hroom
  rw [State.stageDue, hnext]
  simp only [Option.bind_some, hroom, hstopped, hheld, hbank, Bool.not_false, Bool.and_self, if_true, Option.map_some]

theorem State.transfer_found (hf : s.flow ctx = some f) (hx : f.xfer i = some x) :
    ((s.flow ctx).bind fun f => (f.xfer i).map fun x => (f, x)) = some (f, x) := by
  rw [hf, Option.bind_some, hx, Option.map_some]

theorem exec_stageReadComplete_orphan {e : ReadEnd} {data : List Byte} (hf : s.flow ctx = some f) (hx : f.xfer i = some x)
    (hreading : x.reading = false) : exec (.stageReadComplete ctx i e data) s = .next s.orphanStage := by
  have hexec : exec (.stageReadComplete ctx i e data) s = execStageReadComplete ctx i e data s := rfl
  rw [hexec, execStageReadComplete, State.transfer_found hf hx]
  exact if_pos (by rw [hreading]; rfl)

section
variable {data : List Byte} {n : Nat} {v : State} (hf : s.flow ctx = some f) (hx : f.xfer i = some x)
  (hn : n = f.readWords { x with moved := x.readAt, staged := [] }) (hreading : x.reading = true) (hfin : x.fin = none)
  (hrest : f.par.ty.scheduled = false)
  (hv : v = ({ s with host := { s.host with stageTags := s.host.stageTags - 1 } } : State).modXfer ctx i (fun y =>
    { y with reading := false, dueAt := s.time.mono }))
include hf hx hn hreading hfin hrest hv

/-- The data of a bulk or control transfer join what is staged. -/
theorem exec_stageReadComplete_data {b : Fin 64} (hlen : data.length = f.par.byteLen x.readAt n) (hat : x.moved + x.staged.length = x.readAt)
    (hbank : x.bank = some b) : exec (.stageReadComplete ctx i .ok data) s =
      .next (((v.openBank b).freeSome ctx x (n - (f.par.readData x.readAt n data).length)).modXfer
        ctx i fun y => { y with staged := y.staged ++ f.par.readData x.readAt n data
                                stagedAll := f.wholeStaged x (x.staged.length + (f.par.readData x.readAt n data).length) }) := by
  have hexec : exec (.stageReadComplete ctx i .ok data) s = execStageReadComplete ctx i .ok data s := rfl
  have hfits : (ReadEnd.ok != .ok || data.length == f.par.byteLen x.readAt n) = true := by rw [hlen, beq_self_eq_true, Bool.or_true]
  rw [hn] at hfits
  rw [hexec, execStageReadComplete, State.transfer_found hf hx, hv, hn]
  simp only [hreading, hfin, hrest, hbank, hat, Nat.sub_self, List.drop_zero, Bool.not_true, Bool.false_eq_true, if_false, Option.isSome_none,
    beq_self_eq_true, if_true, Bool.false_and]
  exact guarded_next hfits

theorem exec_stageReadComplete_failed {e : ReadEnd} (he : e ≠ .ok) : exec (.stageReadComplete ctx i e data) s =
      .next (((((v.readError ctx f.inst e false).freeSome ctx x n).modXfer ctx i fun y => { y with readFail := true }).finish ctx i
        .notAccepted x.moved).setCauses ctx fun c => { c with readFault := true }) := by
  have hexec : exec (.stageReadComplete ctx i e data) s = execStageReadComplete ctx i e data s := rfl
  rw [hexec, execStageReadComplete, State.transfer_found hf hx, hv, hn]
  simp only [hreading, hfin, hrest, bne_iff_ne.mpr he, beq_eq_false_iff_ne.mpr he, Bool.not_true, Bool.false_eq_true, if_false,
    Option.isSome_none, Bool.true_or]
  rfl

end

theorem exec_inputWriteBack {ws : List Word} (hf : s.flow ctx = some f) (hx : f.xfer i = some x) (hdesc : x.desc = some d)
    (hfirst : (f.xfers.find? fun y => !y.toWrite.isEmpty).map (·.idx) = some i) (hinst : (s.inst f.inst).state ≠ .resetting)
    (hthrottled : s.writeThrottled f.inst = false) (hthrottle : s.flag .PTB_THROTTLE_ON 7 = false)
    (hlane : (f.par.packed && f.par.ty.bulk) = false) (hheld : x.moved - x.staged.length ≤ x.moved - x.toWrite.length)
    (hws : ws = x.staged.drop (x.moved - x.toWrite.length - (x.moved - x.staged.length))) :
    exec (.inputWriteBack ctx i true) s = .next (((State.postBytes (s.pasidOf f.inst) ((laneBytes ws).length + 1)
      (descAddr d.1 d.2.1 + 8 * (x.moved - x.toWrite.length)) (laneBytes ws) s).freeWords x).modXfer ctx i fun y =>
        { y with toWrite := [], writtenAt := none, words := 0, bank := none }) := by
  have hexec : exec (.inputWriteBack ctx i true) s = execInputWriteBack ctx i true s := rfl
  have hfound : ((s.flow ctx).bind fun f => (f.xfer i).bind fun x => x.desc.map fun d => (f, x, d)) = some (f, x, d) := by
    rw [hf, Option.bind_some, hx, Option.bind_some, hdesc, Option.map_some]
  have hmay : ((f.xfers.find? fun y => !y.toWrite.isEmpty).map (·.idx) != some i || !true || (s.inst f.inst).state == .resetting ||
      s.writeThrottled f.inst) = false := by
    rw [hfirst, hthrottled, beq_eq_false_iff_ne.mpr hinst, bne_self_eq_false]
    rfl
  rw [hexec, execInputWriteBack, hfound, hws]
  refine congrArg Host.Outcome.next ((if_neg (Bool.eq_false_iff.mp hmay)).trans ?_)
  simp only [hthrottle, hlane, Nat.not_lt.mpr hheld, Bool.false_eq_true, if_false, List.nil_append]

theorem exec_acceptanceDeadline {course : BitVec 48} (hf : s.flow ctx = some f) (hservice : f.service = none)
    (hsched : f.par.ty.scheduled = true) (hcommitted : course.toNat ≤ s.committed) (hdone : f.deadDone < course.toNat)
    (hactive : s.activeFor f course.toNat = true) : exec (.acceptanceDeadline ctx course) s = .next (State.modFlow
      ((if f.par.ty.paced then List.range (s.parFor f course.toNat).q else [0]).foldl (State.deadlineSlot ctx course.toNat) s) ctx fun g =>
        { g with deadDone := course.toNat }) := by
  have hexec : exec (.acceptanceDeadline ctx course) s = execAcceptanceDeadline ctx course s := rfl
  have hdue : (f.service.isSome || !f.par.ty.scheduled || decide (s.committed < course.toNat) || decide (course.toNat ≤ f.deadDone) ||
      !s.activeFor f course.toNat) = false := by
    rw [hservice, hsched, hactive, decide_eq_false (Nat.not_lt.mpr hcommitted), decide_eq_false (Nat.not_le.mpr hdone)]
    rfl
  rw [hexec, execAcceptanceDeadline, hf]
  exact congrArg Host.Outcome.next (if_neg (Bool.eq_false_iff.mp hdue))

end

theorem FlowParams.readData_lane {p : FlowParams} {ws : List Word} (first n : Nat) (h : p.packed = false) :
    p.readData first n (laneBytes ws) = ws := by
  rw [FlowParams.readData, h, if_neg Bool.false_ne_true, laneWords_laneBytes]

theorem FlowParams.readData_packed {p : FlowParams} {first n : Nat} {ws : List Word} (h : p.packed = true) (hfirst : first % 2 = 0)
    (hlen : ws.length = n) : p.readData first n (packedBytes ws) = ws := by
  rw [FlowParams.readData, if_pos h, hfirst, List.drop_zero, ← hlen, packedWords_packedBytes]

/-- Settles O49. -/
theorem stagesAreFilledAndDrained : Obligations.StagesAreFilledAndDrained :=
  ⟨fun _ _ _ _ _ _ _ hf hdue hdesc hn hturn hpost hdma _ _ ht hu => exec_stageFetchIssue hf hdue hdesc hn hturn hpost hdma ht hu,
    fun _ _ _ _ => State.stageDue_eq,
    fun _ _ _ _ _ _ hf hx => ⟨fun hreading _ => exec_stageReadComplete_orphan hf hx hreading,
      fun _ hn hreading hfin hrest _ hv => ⟨fun _ => exec_stageReadComplete_data hf hx hn hreading hfin hrest hv,
        fun _ => exec_stageReadComplete_failed hf hx hn hreading hfin hrest hv⟩⟩,
    fun _ first n _ hp _ => FlowParams.readData_lane first n hp,
    fun _ _ _ _ => FlowParams.readData_packed,
    fun _ _ _ _ _ _ hf hx hdesc hfirst hinst hthrottled hthrottle hlane hheld _ hws =>
      exec_inputWriteBack hf hx hdesc hfirst hinst hthrottled hthrottle hlane hheld hws,
    fun _ _ _ _ => exec_acceptanceDeadline⟩

end Sys2Proof.Machine
end

section
/-!
PROOFS. Completions and host stalls (O50). The release of a completion of an unscheduled flow also moves the round robin on (R242), which the
statement leaves out.
-/

namespace Sys2Proof.Machine

/-- A bulk transfer of the manager that has ended and waits to be released. -/
def endedTransfer : Transfer := { Transfer.fresh 0 0 false 0 with fin := some ⟨.done, 4, 0, 0, true⟩ }

/-- The parameters of a bulk OUT flow with packets of 16 words. -/
def bulkPar : FlowParams where
  ty := .bulkOut
  words := 16
  k := 1
  phase := 0
  q := 0
  lead := 1
  rel := .course
  lateFire := false
  policy := .rep
  essential := false
  dedicated := false
  prio := 0
  est := 0
  m := 1
  z := 0
  rho := 0
  safe := []
  safeAddr := 0
  packed := false
  packet := 16

/-- A bulk flow of the manager that holds it. -/
def endedFlow : Flow := { newFlow 0 0 ⟨0, []⟩ 1 1 none bulkPar 0 with active := true, prod := 1, xfers := [endedTransfer] }

/-- That flow alone, in context 0. -/
def oneEnded : State := { State.reset with flows := [(0, endedFlow)] }

theorem oneEnded_next : oneEnded.nextRelease = some (0, endedFlow, endedTransfer, ⟨.done, 4, 0, 0, true⟩) := by decide +kernel

theorem oneEnded_released : exec .completionRelease oneEnded =
    .next (State.releaseOne { oneEnded with relLast := 1 } 0 endedFlow endedTransfer ⟨.done, 4, 0, 0, true⟩) := by
  have hexec : exec .completionRelease oneEnded = execCompletionRelease oneEnded := rfl
  rw [hexec, execCompletionRelease, oneEnded_next]
  rfl

/-- The round robin's place before and after that release. -/
theorem oneEnded_turn :
    (oneEnded.releaseOne 0 endedFlow endedTransfer ⟨.done, 4, 0, 0, true⟩).relLast = 0 ∧
      (State.releaseOne { oneEnded with relLast := 1 } 0 endedFlow endedTransfer ⟨.done, 4, 0, 0, true⟩).relLast = 1 := by decide +kernel

/-- Refutes O50: the release of an unscheduled completion leaves the turn of the next domain in `relLast`. -/
theorem not_completionsAndStallsGoOut : ¬ Obligations.CompletionsAndStallsGoOut := by
  unfold Obligations.CompletionsAndStallsGoOut
  rintro ⟨hrelease, -⟩
  have hclaimed := hrelease oneEnded 0 endedFlow endedTransfer _ oneEnded_next
  rw [oneEnded_released] at hclaimed
  obtain ⟨hbefore, hafter⟩ := oneEnded_turn
  rw [Host.Outcome.next.inj hclaimed, hbefore] at hafter
  exact absurd hafter (by decide)

end Sys2Proof.Machine
end

section
/-!
PROOFS. The dispatcher (O51).
-/

namespace Sys2Proof.Machine

section
variable {s : State}

theorem exec_dispatchDecision {fw : List FwOp} {cs : List Nat} {u v : State} (hbusy : s.busy = true) (hon : s.pmu.doms[4] = .on)
    (hcs : cs = (s.flows.filter fun e => !e.2.par.ty.scheduled && e.2.task.state == .ready).map (·.1))
    (hu : u = if s.fwReady = true then fw.foldl State.fwOp s else s)
    (hv : v = (u.ctxs fun f => f.task.cancelPending).foldl State.cancelDue u) :
    exec (.dispatchDecision fw) s = .next ((v.decision cs).decision cs).dropMalformed.evaluate := by
  have hruns : (s.busy && s.pmu.doms[4] == .on) = true := by rw [hbusy, hon]; rfl
  rw [hv, hu, hcs]
  exact congrArg Host.Outcome.next (if_pos hruns)

/-! Firmware's work on its tasks. -/

theorem State.fwTask_modFw (hs : ksorted s.fwTasks = true) (n : Nat) (g : Task → Task) : (s.modFw n g).fwTask n = g (s.fwTask n) :=
  kget_kput_same _ _ _ _ hs

theorem State.fwOp_enable_idle {n : Fin 64} {p : Fin 8} (hs : ksorted s.fwTasks = true) (hidle : (s.fwTask (8192 + n.val)).state = .idle) :
    (s.fwOp (.enable n p)).fwTask (8192 + n.val) = { s.fwTask (8192 + n.val) with state := .waiting, flags := 0x10, prio := p.val } :=
  (State.fwTask_modFw hs _ _).trans (if_pos (beq_iff_eq.mpr hidle))

theorem State.fwOp_mask {n : Fin 64} (m : BitVec 8) (hs : ksorted s.fwTasks = true) :
    (s.fwOp (.mask n m)).fwTask (8192 + n.val) = { s.fwTask (8192 + n.val) with mask := m } :=
  State.fwTask_modFw hs _ _

/-- A cancel of a task that is on a list takes effect at once. -/
theorem State.fwOp_cancel {n : Fin 64} {t : Task} {lost : Bool} (ht : s.fwTask (8192 + n.val) = t) (hstate : t.state = .waiting ∨ t.state = .ready)
    (hlost : lost = (t.state == .waiting && t.isReady t.flags)) :
    s.fwOp (.cancel n) = ((s.modFw (8192 + n.val) Task.idled).lostReady lost).recordCancelFw (8192 + n.val) t lost := by
  have hidle : ¬ (t.state == .idle) = true := by rcases hstate with h | h <;> rw [h] <;> decide
  have hhand : ¬ (t.state == .inHand) = true := by rcases hstate with h | h <;> rw [h] <;> decide
  rw [hlost]
  subst ht
  exact (if_neg hidle).trans (if_neg hhand)

theorem exec_firmwareTaskDispatch {core : Fin 4} {n : Nat} {t : Task} (htask : s.gutter.cores[core].task = none)
    (hsleep : s.gutter.cores[core].sleep = false) (hbusy : s.busy = true) (hnext : s.nextFw = some (n, t)) :
    exec (.firmwareTaskDispatch core) s = .next (State.recordFw
      ((s.modCore core.val fun c => { c with task := some n }).modFw n fun t => { t with state := .inHand }) n t.prio 0x0A (0x10 + core.val) false) := by
  have hexec : exec (.firmwareTaskDispatch core) s = execFirmwareTaskDispatch core s := rfl
  have hidle : (s.gutter.cores[core].task.isNone && !s.gutter.cores[core].sleep && s.busy) = true := by rw [htask, hsleep, hbusy]; rfl
  rw [hexec, execFirmwareTaskDispatch, hnext]
  exact congrArg Host.Outcome.next (if_pos hidle)

theorem exec_firmwareTaskReturn {core : Fin 4} {n : Nat} {u : State} (htask : s.gutter.cores[core].task = some n)
    (hu : u = s.modCore core.val (fun c => { c with task := none })) :
    exec (.firmwareTaskReturn core) s = .next (if (s.fwTask n).cancelPending
      then (u.modFw n Task.idled).recordCancelFw n (s.fwTask n) false else u.modFw n fun t => { t with state := .waiting }) := by
  have hexec : exec (.firmwareTaskReturn core) s = execFirmwareTaskReturn core s := rfl
  rw [hexec, execFirmwareTaskReturn, htask, hu]
  rfl

/-! Delays. -/

/-- A deadline that has come, the earliest of its list. -/
theorem exec_delayExpiry {ctx d l : Nat} (hfound : s.armedOn.find? (fun x => x.2.2 == ctx) = some (d, l, ctx)) (hdue : d ≤ s.tickNow)
    (hfirst : ∀ y ∈ s.armedOn, y.2.1 = l → d ≤ y.1) : exec (.delayExpiry ctx) s = .next (s.expireDelay ctx) := by
  have hexec : exec (.delayExpiry ctx) s = execDelayExpiry ctx s := rfl
  have hexpires : (d ≤ s.tickNow && s.armedOn.all fun y => y.2.1 != l || decide (d ≤ y.1)) = true := by
    rw [Bool.and_eq_true, decide_eq_true_iff, List.all_eq_true]
    refine ⟨hdue, fun y hy => ?_⟩
    rw [Bool.or_eq_true, bne_iff_ne, decide_eq_true_iff]
    exact (Decidable.em (y.2.1 = l)).symm.imp_right (hfirst y hy)
  rw [hexec, execDelayExpiry]
  dsimp only
  rw [hfound]
  exact congrArg Host.Outcome.next (if_pos hexpires)

theorem State.expireDelay_flow {ctx : Nat} {f : Flow} {u : State} (hf : s.flow ctx = some f)
    (hu : u = s.modTask ctx (fun t => { t with delay := none })) :
    s.expireDelay ctx = if s.flag .TRC_CTRL_EVENTS = true then u.recordFlow ctx f 0x10 0x1F false false else u := by
  rw [State.expireDelay, hf, hu]
  rfl

theorem State.expireDelay_firmware {ctx : Nat} {u : State} (hf : s.flow ctx = none)
    (hu : u = s.modFw ctx (fun t => { t with delay := none, flags := t.flags ||| 0x10 })) :
    s.expireDelay ctx = if s.flag .TRC_CTRL_EVENTS = true then u.recordFw ctx (s.fwTask ctx).prio 0x10 0x1F false else u := by
  rw [State.expireDelay, hf, hu]
  rfl

theorem exec_taskAged {ctx : Nat} {f : Flow} (hf : s.flow ctx = some f) (hage : s.fld .DSP_CFG_AGE ≠ 0) (hrest : f.par.ty.scheduled = false)
    (hready : f.task.state = .ready) (hold : f.task.readyCourse + s.fld .DSP_CFG_AGE < s.course.count.toNat) :
    exec (.taskAged ctx) s = .next (s.modTask ctx fun t => { t with aged := true }) := by
  have hexec : exec (.taskAged ctx) s = execTaskAged ctx s := rfl
  have hages : (s.fld .DSP_CFG_AGE ≠ 0 && !f.par.ty.scheduled && f.task.state == .ready &&
      decide (f.task.readyCourse + s.fld .DSP_CFG_AGE < s.course.count.toNat)) = true := by
    rw [decide_eq_true hage, hrest, hready, decide_eq_true hold]
    rfl
  rw [hexec, execTaskAged]
  dsimp only
  rw [hf]
  exact congrArg Host.Outcome.next (if_pos hages)

end

/-- Settles O51. -/
theorem tasksAreDispatched : Obligations.TasksAreDispatched := by
  refine fun s => ⟨fun hbusy hon fw cs u v => exec_dispatchDecision hbusy hon,
    fun hs n t ht => ⟨fun p hidle => ?enable, fun m => ?mask, fun hstate lost => State.fwOp_cancel ht hstate⟩,
    fun core htask hsleep hbusy n t => exec_firmwareTaskDispatch htask hsleep hbusy, fun core n htask u => exec_firmwareTaskReturn htask,
    fun ctx d l hfound hdue hfirst => ⟨fun f u hf hu => ?flow, fun u hf hu => ?firmware⟩,
    fun ctx f => exec_taskAged⟩
  case enable => subst ht; exact State.fwOp_enable_idle hs hidle
  case mask => subst ht; exact State.fwOp_mask m hs
  case flow => rw [exec_delayExpiry hfound hdue hfirst, State.expireDelay_flow hf hu]
  case firmware => rw [exec_delayExpiry hfound hdue hfirst, State.expireDelay_firmware hf hu]

end Sys2Proof.Machine
end

section
/-!
PROOFS. The engines and the trunks (O52).
-/

namespace Sys2Proof.Machine

/-! An engine returns what it has in hand. -/

section
variable {s : State} {e : Fin 16}

theorem exec_engineTaskReturn_sched {ctx : Nat} {x : PlanEntry} (hon : s.pmu.doms[engineDomain e] = .on)
    (hsched : s.engines[e].sched = some (ctx, x)) (hpast : s.delayPast e s.engines[e].schedAt = true) :
    exec (.engineTaskReturn e) s = .next (s.returnSched e ctx x) := by
  have hexec : exec (.engineTaskReturn e) s = execEngineTaskReturn e s := rfl
  have hawake : ¬ (s.pmu.doms[engineDomain e] != .on) = true := fun h => bne_iff_ne.mp h hon
  rw [hexec, execEngineTaskReturn]
  dsimp only
  rw [if_neg hawake, hsched, Option.filter_some, hpast, if_pos rfl]

theorem exec_engineTaskReturn_unsched {ctx : Nat} (hon : s.pmu.doms[engineDomain e] = .on)
    (hsched : s.engines[e].sched = none ∨ s.delayPast e s.engines[e].schedAt = false) (hunsched : s.engines[e].unsched = some ctx)
    (hpast : s.delayPast e s.engines[e].unschedAt = true) : exec (.engineTaskReturn e) s = .next (s.returnUnsched e ctx) := by
  have hexec : exec (.engineTaskReturn e) s = execEngineTaskReturn e s := rfl
  have hawake : ¬ (s.pmu.doms[engineDomain e] != .on) = true := fun h => bne_iff_ne.mp h hon
  have hnone : (s.engines[e].sched.filter fun _ => s.delayPast e s.engines[e].schedAt) = none := by
    rcases hsched with h | h
    · rw [h, Option.filter_none]
    · rw [h, Option.filter_eq_none_iff]
      exact fun _ _ => Bool.false_ne_true
  rw [hexec, execEngineTaskReturn]
  dsimp only
  rw [if_neg hawake, hnone, hunsched, Option.filter_some, hpast, if_pos rfl]

end

/-! A trunk sends. -/

section
variable {s : State} {t : Fin 16} {check : StageCheck} {e : TxEntry}

/-- A trunk that has sent a COURSE_START and may send. -/
structure State.TrunkSends (s : State) (t : Fin 16) : Prop where
  synced : s.syncedAt (.up (.root t)) = true
  enabled : s.enabled (.root t) = true
  courses : s.pmu.mode.courses = true
  running : s.course.running = true

theorem State.TrunkSends.all (h : s.TrunkSends t) :
    (s.syncedAt (.up (.root t)) && s.enabled (.root t) && s.pmu.mode.courses && s.course.running) = true := by
  rw [h.synced, h.enabled, h.courses, h.running]
  rfl

theorem exec_packetTransmit (check : StageCheck) : exec (.packetTransmit t check) s = execPacketTransmit t s check := rfl

theorem exec_packetTransmit_late (h : s.TrunkSends t) (hnext : s.nextSched t = some e) (hlate : e.late = true ∨ e.course < s.course.count.toNat) :
    exec (.packetTransmit t check) s = .next ((s.dropTx t e).missSlot t e) := by
  have hmissed : (e.late || decide (e.course < s.course.count.toNat)) = true := by rwa [Bool.or_eq_true, decide_eq_true_iff]
  rw [exec_packetTransmit, execPacketTransmit, if_pos h.all, hnext]
  exact congrArg Host.Outcome.next (if_pos hmissed)

/-- An entry whose slot is still to come. -/
theorem txEntry_inTime (hlate : e.late = false) (hcourse : s.course.count.toNat ≤ e.course) :
    ¬ (e.late || decide (e.course < s.course.count.toNat)) = true := by
  rw [hlate, Bool.false_or, decide_eq_true_iff]
  exact Nat.not_lt.mpr hcourse

theorem exec_packetTransmit_sched {f : Flow} (h : s.TrunkSends t) (hnext : s.nextSched t = some e) (hlate : e.late = false)
    (hcourse : s.course.count.toNat ≤ e.course) (hnone : s.nextUnsched t = none) (hf : s.flow e.ctx = some f) :
    exec (.packetTransmit t check) s = .next ((s.dropTx t e).sendSched t f e check) := by
  rw [exec_packetTransmit, execPacketTransmit, if_pos h.all, hnext, hnone]
  dsimp only
  rw [if_neg (txEntry_inTime hlate hcourse), hf]

theorem exec_packetTransmit_before {u : TxEntry} {f : Flow} {b : Built} {k : Nat} (h : s.TrunkSends t) (hnext : s.nextSched t = some e)
    (hlate : e.late = false) (hcourse : s.course.count.toNat ≤ e.course) (hfits : s.nextUnsched t = some (u, f, some b, k)) :
    exec (.packetTransmit t check) s = .next ((s.dropTx t u).startUnsched t f u b k check) := by
  rw [exec_packetTransmit, execPacketTransmit, if_pos h.all, hnext, hfits]
  exact congrArg Host.Outcome.next (if_neg (txEntry_inTime hlate hcourse))

theorem exec_packetTransmit_unsched {u : TxEntry} {f : Flow} {b : Built} {k : Nat} (h : s.TrunkSends t) (hnext : s.nextSched t = none)
    (hfits : s.nextUnsched t = some (u, f, some b, k)) :
    exec (.packetTransmit t check) s = .next ((s.dropTx t u).startUnsched t f u b k check) := by
  rw [exec_packetTransmit, execPacketTransmit, if_pos h.all, hnext, hfits]

variable {f : Flow} {b : Built} {k : Nat} {c : StageCheck} {x : Transfer}

theorem State.startUnsched_token (h : f.carried = none) : s.startUnsched t f e b k c = s.sendUnsched t f e b k := by
  rw [State.startUnsched, h]

theorem State.startUnsched_intact (h : f.carried = some x) (hbad : c.bad = none) :
    s.startUnsched t f e b k c = (s.addSat .ERR_CE_CNT_COUNT c.corrected).sendUnsched t f e b k := by
  rw [State.startUnsched, h]
  dsimp only
  rw [State.stageChecked, hbad]

theorem State.startUnsched_damaged {w : Nat} {wire : Bool} (h : f.carried = some x) (hbad : c.bad = some (w, wire)) :
    s.startUnsched t f e b k c = ((s.addSat .ERR_CE_CNT_COUNT c.corrected).error catMemory 0x01 blkStg .normal
      ((x.bank.map (·.val)).getD 0 + w % 65536 * 64)).unschedLost t f e.ctx k x wire := by
  rw [State.startUnsched, h]
  dsimp only
  rw [State.stageChecked, hbad]

end

/-! Responses. -/

section
variable {s v : State} {e t : Fin 16} {w : Expect} {f : Flow} {pkt : Wire}

/-- An expectation takes nothing any more: its flow is dead, or its transfer has ended. -/
def Expect.moot (w : Expect) (f : Flow) : Bool := f.dead || (f.service.isNone && ((f.xfer w.idx).map (·.fin.isSome)).getD true)

section
variable (hw : s.firstExpect e (fun w => w.trunk == t && w.got == .none) = some w) (hf : s.flow w.ctx = some f)
include hw hf

theorem State.expectation_found :
    ((s.firstExpect e fun w => w.trunk == t && w.got == .none).bind fun w => (s.flow w.ctx).map fun f => (w, f)) = some (w, f) := by
  rw [hw, Option.bind_some, hf, Option.map_some]

theorem exec_responseMatch_silenced (hsilenced : s.silenced w = true) :
    exec (.responseMatch e (t, pkt)) s = .next (s.addSat .PTB_SILENCE_CNT_COUNT 1) := by
  have hexec : exec (.responseMatch e (t, pkt)) s = execResponseMatch e (t, pkt) s := rfl
  rw [hexec, execResponseMatch]
  dsimp only
  rw [State.expectation_found hw hf]
  exact congrArg Host.Outcome.next (if_pos hsilenced)

/-- What a response to an expectation does, by what was read. -/
def State.takeResponse (v : State) (w : Expect) (f : Flow) : Parsed → State
  | .bad _ => v.setGot w .damaged
  | .data _ _ _ true => v.setGot w .damaged
  | .data h ws last false => if w.moot f then v.dropExpect w else v.takeData w f h ws last
  | .shake k => if w.moot f then v.dropExpect w else v.takeShake w f k
  | .token _ => v.setGot w .mismatched
  | .ignored => v

theorem exec_responseMatch_read {got : Parsed} (hsilenced : s.silenced w = false) (hread : s.readUp t pkt = (got, v)) :
    exec (.responseMatch e (t, pkt)) s = .next (v.takeResponse w f got) := by
  have hexec : exec (.responseMatch e (t, pkt)) s = execResponseMatch e (t, pkt) s := rfl
  rw [hexec, execResponseMatch]
  dsimp only
  rw [State.expectation_found hw hf]
  refine congrArg Host.Outcome.next ((if_neg (Bool.eq_false_iff.mp hsilenced)).trans ?_)
  rw [hread]
  rcases got with ⟨h, ws, last, _ | _⟩ | _ | _ | _ | _ <;> rfl

end

/-! A window closes. -/

section
variable (hw : (minBy (·.closes) (s.expects.filter fun w => w.engine == e)).map s.closesFirst = some w)
  (hf : (s.dropExpect w).flow w.ctx = some f)
include hw hf

theorem exec_responseWindowClose_service (hservice : f.service ≠ none) :
    exec (.responseWindowClose e) s = .next ((s.dropExpect w).serviceFailed w f) := by
  have hexec : exec (.responseWindowClose e) s = execResponseWindowClose e s := rfl
  rw [hexec, execResponseWindowClose, hw]
  dsimp only
  rw [hf]
  exact congrArg Host.Outcome.next (if_pos (Option.isSome_iff_ne_none.mpr hservice))

theorem exec_responseWindowClose_transfer {x : Transfer} (hservice : f.service = none) (hdead : f.dead = false) (hx : f.xfer w.idx = some x)
    (hfin : x.fin = none) : exec (.responseWindowClose e) s =
      .next (if f.par.ty.scheduled then (s.dropExpect w).schedFailed w f x else (s.dropExpect w).unschedFailed w f x) := by
  have hexec : exec (.responseWindowClose e) s = execResponseWindowClose e s := rfl
  rw [hexec, execResponseWindowClose, hw]
  dsimp only
  rw [hf]
  simp only [hservice, hdead, hx, hfin, Option.isSome_none, Bool.false_eq_true, if_false]

end

end

/-- Settles O52. -/
theorem enginesSendAndTakeAnswers : Obligations.EnginesSendAndTakeAnswers := by
  refine ⟨fun s e hon => ⟨fun ctx x => exec_engineTaskReturn_sched hon, fun ctx => exec_engineTaskReturn_unsched hon⟩,
    fun s t check hsynced henabled hcourses hrunning => ?trunk,
    fun s t f e b k c => ⟨State.startUnsched_token, fun x hx => ⟨State.startUnsched_intact hx, fun w wire => State.startUnsched_damaged hx⟩⟩,
    fun s e t w f pkt hw hf => ⟨exec_responseMatch_silenced hw hf, fun hsilenced got v hread gone hgone => ?response⟩,
    fun s e w hw => ⟨fun f hf => exec_responseWindowClose_service hw hf, fun f x hf => exec_responseWindowClose_transfer hw hf⟩⟩
  case trunk =>
    have h : s.TrunkSends t := ⟨hsynced, henabled, hcourses, hrunning⟩
    exact ⟨fun e hnext => ⟨exec_packetTransmit_late h hnext, fun hlate hcourse hnone f => exec_packetTransmit_sched h hnext hlate hcourse hnone,
      fun hlate hcourse u f b k => exec_packetTransmit_before h hnext hlate hcourse⟩,
      fun hnext u f b k => exec_packetTransmit_unsched h hnext⟩
  case response =>
    rw [exec_responseMatch_read hw hf hsilenced hread, hgone]
    refine ⟨fun crc hgot => ?_, fun h ws l hgot => ?_, fun k hgot => ?_⟩ <;> rw [hgot] <;> rfl

end Sys2Proof.Machine
end

section
/-!
PROOFS. Trees (O53).
-/

namespace Sys2Proof.Machine

/-! Enumeration. -/

section
variable {s : State} {p : PortRef} {d : Pos} {x : Port}

section
variable (hbelow : p.below = some d) (hp : s.port p = some x) (hfw : s.fwReady = true) (hrun : s.enums.any (fun r => r.pos == d) = true)
include hbelow hp hfw hrun

/-- What firmware does next at a port that it enumerates, by the port's state. -/
theorem exec_autoEnumerate (a : Answer) : exec (.autoEnumerate p a) s = .next (
    if x.state == .disabled then (if s.enumerates d.trunk then s.firmwareReset p else s)
    else if x.state == .enabled && s.routeUp d then
      match (s.firmwareSends 0 (mkSetup true 0 1 1 0 5)).dev d with
      | some y => if a == .ack && y.answers && y.addr.isNone then (s.firmwareSends 0 (mkSetup true 0 1 1 0 5)).foundDevice p d y
        else s.firmwareSends 0 (mkSetup true 0 1 1 0 5)
      | none => s.firmwareSends 0 (mkSetup true 0 1 1 0 5)
    else s) := by
  have hexec : exec (.autoEnumerate p a) s = execAutoEnumerate p a s := rfl
  have hworks : ¬ (!s.fwReady || !(s.enums.any fun r => r.pos == d)) = true := by rw [hfw, hrun]; exact Bool.false_ne_true
  rw [hexec, execAutoEnumerate, hbelow, hp]
  exact congrArg Host.Outcome.next (if_neg hworks)

theorem exec_autoEnumerate_disabled {a : Answer} (hstate : x.state = .disabled) (hwalk : s.enumerates d.trunk = true) :
    exec (.autoEnumerate p a) s = .next (s.firmwareReset p) := by
  rw [exec_autoEnumerate hbelow hp hfw hrun, hstate, hwalk]
  rfl

theorem exec_autoEnumerate_polled {y : Device} {u : State} {a : Answer} (hstate : x.state = .enabled) (hroute : s.routeUp d = true)
    (hu : u = s.firmwareSends 0 (mkSetup true 0 1 1 0 5)) (hy : u.dev d = some y) :
    exec (.autoEnumerate p a) s = .next (if a == .ack && y.answers && y.addr.isNone then u.foundDevice p d y else u) := by
  rw [exec_autoEnumerate hbelow hp hfw hrun, hstate, hroute, ← hu, hy]
  rfl

end

theorem exec_enumFail (hbelow : p.below = some d) (hen : s.enabled p = true) (hrun : s.enums.any (fun r => r.pos == d) = true) :
    exec (.enumFail p) s = .next (s.enumFailed p d false) := by
  have hexec : exec (.enumFail p) s = execEnumFail p s := rfl
  rw [hexec, execEnumFail, hbelow]
  exact congrArg Host.Outcome.next (if_pos (by rw [hen, hrun]; rfl))

theorem exec_reseatExpired {addr : BitVec 12} {r : Reseat}
    (hr : (s.reseats.find? fun r => r.addr == addr && !r.expired && r.resumeAt.isNone) = some r) :
    exec (.reseatExpired addr) s = .next ((s.recordEnds r).nodeEvent evReseatExpired addr (leBytes 8 r.ident.toNat)) := by
  have hexec : exec (.reseatExpired addr) s = execReseatExpired addr s := rfl
  rw [hexec, execReseatExpired, hr]

end

/-! Hub ports. -/

section
variable {s : State} {h : Pos} {p q : Fin 16} {n : NodeRec}

theorem exec_hubPortPowerStep {u : State} (hrec : s.hubRec h = some n) (hmore : n.powered < n.nports) (hroute : s.routeUp h = true)
    (hfw : s.fwReady = true) (hq : q = Fin.ofNat 16 n.powered)
    (hu : u = (s.hubFeature h q true 1).modPort (.hub h q) (fun x => { x with retries := 0 })) :
    exec (.hubPortPowerStep h) s = .next (State.treeCmds { u with
      nodes := kmod u.nodes n.addr.toNat fun n => { n with powered := n.powered + 1 } } h.trunk) := by
  have hexec : exec (.hubPortPowerStep h) s = execHubPortPowerStep h s := rfl
  have hsteps : (n.powered < n.nports && s.routeUp h && s.fwReady) = true := by rw [hroute, hfw, decide_eq_true hmore]; rfl
  rw [hexec, execHubPortPowerStep, hrec, hu, hq]
  exact congrArg Host.Outcome.next (if_pos hsteps)

theorem exec_hubPortRetryExpiry {x : Port} (hx : s.port (.hub h p) = some x) (hstate : x.state = .fault) (hfw : s.fwReady = true)
    (hleft : s.fld .PPM_TIMERS_RETRY_LIM h.trunk.val = 255 ∨ x.retries.toNat < s.fld .PPM_TIMERS_RETRY_LIM h.trunk.val) :
    exec (.hubPortRetryExpiry h p) s = .next ((s.modPort (.hub h p) fun x =>
      { x with retries := if x.retries = 255 then 255 else x.retries + 1 }).hubFeature h p true 1) := by
  have hexec : exec (.hubPortRetryExpiry h p) s = execHubPortRetryExpiry h p s := rfl
  have hretries : (x.state == .fault && s.fwReady && (s.fld .PPM_TIMERS_RETRY_LIM h.trunk.val == 255 ||
      decide (x.retries.toNat < s.fld .PPM_TIMERS_RETRY_LIM h.trunk.val))) = true := by
    rw [hstate, hfw, beq_self_eq_true, Bool.true_and, Bool.true_and, Bool.or_eq_true, beq_iff_eq, decide_eq_true_iff]
    exact hleft
  rw [hexec, execHubPortRetryExpiry, hx]
  exact congrArg Host.Outcome.next (if_pos hretries)

theorem exec_hubPortOvercurrent {x : Device} {y : Port} (hd : s.dev h = some x) (hports : x.nports ≠ 0) (hy : s.port (.hub h p) = some y)
    (hswitch : ((x.board.hub[1]?).getD 0).getLsbD 18 = true) (hoff : y.state ≠ .off) (hfault : y.state ≠ .fault) :
    exec (.hubPortOvercurrent h p) s = .next ((s.modPort (.hub h p) fun y => { y with overcurrent := true }).portFault (.hub h p) .power) := by
  have hexec : exec (.hubPortOvercurrent h p) s = execHubPortOvercurrent h p s := rfl
  have htrips : (((x.board.hub[1]?).getD 0).getLsbD 18 && y.state != .off && y.state != .fault) = true := by
    rw [hswitch, bne_iff_ne.mpr hoff, bne_iff_ne.mpr hfault]
    rfl
  rw [hexec, execHubPortOvercurrent, State.hubAt_hub hd hports, hy]
  exact congrArg Host.Outcome.next (if_pos htrips)

end

/-- Settles O53. -/
theorem treesGrowAndShrink : Obligations.TreesGrowAndShrink := by
  refine ⟨fun s p d x hbelow hp hfw hrun => ⟨fun hstate hwalk a => exec_autoEnumerate_disabled hbelow hp hfw hrun hstate hwalk,
      fun hstate hroute y u hu hy => ⟨fun hans haddr => ?found, fun hans => ?silent⟩⟩,
    fun s p d => exec_enumFail, fun s addr r => exec_reseatExpired,
    fun s h n q hrec hmore hroute hfw hq u => exec_hubPortPowerStep hrec hmore hroute hfw hq, fun s h p x => exec_hubPortRetryExpiry,
    fun s h p x y => exec_hubPortOvercurrent⟩
  case found => rw [exec_autoEnumerate_polled hbelow hp hfw hrun hstate hroute hu hy, hans, haddr]; rfl
  case silent => rw [exec_autoEnumerate_polled hbelow hp hfw hrun hstate hroute hu hy, hans]; rfl

end Sys2Proof.Machine
end

section
/-!
PROOFS. The gutter and the function (O54).
-/

namespace Sys2Proof.Machine

section
variable {s : State}

theorem exec_gutterDecision_fast {src : Nat} {m : Nat × Nat} (hon : s.pmu.doms[4] = .on) (hfast : s.nextSource true = some (src, m)) :
    exec .gutterDecision s = .next (s.decideFor src m) := by
  have hexec : exec .gutterDecision s = execGutterDecision s := rfl
  rw [hexec, execGutterDecision, if_pos (beq_iff_eq.mpr hon), hfast]

theorem exec_gutterDecision_other {src : Nat} {m : Nat × Nat} (hon : s.pmu.doms[4] = .on) (hfast : s.nextSource true = none)
    (hother : s.nextSource false = some (src, m)) : exec .gutterDecision s = .next (s.decideFor src m) := by
  have hexec : exec .gutterDecision s = execGutterDecision s := rfl
  rw [hexec, execGutterDecision, if_pos (beq_iff_eq.mpr hon), hfast, hother]

theorem exec_gutterDecision_none (hon : s.pmu.doms[4] = .on) (hfast : s.nextSource true = none) (hother : s.nextSource false = none) :
    exec .gutterDecision s = .next s := by
  have hexec : exec .gutterDecision s = execGutterDecision s := rfl
  rw [hexec, execGutterDecision, if_pos (beq_iff_eq.mpr hon), hfast, hother]

/-! The function, while PERST_N is not asserted; while it is, its rows change nothing. -/

theorem exec_powerStateChange_d3hot {pme : Bool} (hperst : s.host.perst = false) (hd : s.host.d = .d0) :
    exec (.powerStateChange .d3hot pme) s =
      .next (State.setBit { s with host := { s.host with pmeEn := pme, d := .d3hot } } .HIF_EVENT_D3HOT) :=
  congrArg Host.Outcome.next ((if_neg (Bool.eq_false_iff.mp hperst)).trans (if_pos (beq_iff_eq.mpr hd)))

theorem exec_powerStateChange_d0 {pme : Bool} (hperst : s.host.perst = false) : exec (.powerStateChange .d0 pme) s =
    .next (State.flushPosted { s with host := { s.host with pmeEn := pme, d := .d0 } }).releaseHeld :=
  congrArg Host.Outcome.next (if_neg (Bool.eq_false_iff.mp hperst))

theorem exec_msixControlChange {en mask : Bool} (hperst : s.host.perst = false) : exec (.msixControlChange en mask) s =
    .next (State.releaseHeld { s with host := { s.host with msixEn := en, funcMask := mask } }) :=
  congrArg Host.Outcome.next (if_neg (Bool.eq_false_iff.mp hperst))

theorem exec_vectorUnmask {v : Fin 2048} (hperst : s.host.perst = false) : exec (.vectorUnmask v) s = .next (s.msixWrite (4 * v.val + 3) 0) :=
  congrArg Host.Outcome.next (if_neg (Bool.eq_false_iff.mp hperst))

end

/-- Settles O54. -/
theorem signalsAreDelivered : Obligations.SignalsAreDelivered := fun _ =>
  ⟨fun hon => ⟨fun _ _ => exec_gutterDecision_fast hon, fun _ _ => exec_gutterDecision_other hon, exec_gutterDecision_none hon⟩,
    fun _ _ => rfl, fun _ => ⟨rfl, rfl⟩,
    fun hperst => ⟨fun _ => ⟨exec_powerStateChange_d3hot hperst, exec_powerStateChange_d0 hperst⟩, fun _ _ => exec_msixControlChange hperst,
      fun _ => exec_vectorUnmask hperst⟩,
    fun hperst => ⟨fun _ _ => congrArg Host.Outcome.next (if_pos hperst), fun _ _ => congrArg Host.Outcome.next (if_pos hperst),
      fun _ => congrArg Host.Outcome.next (if_pos hperst)⟩⟩

end Sys2Proof.Machine
end

section
/-!
PROOFS. A gang at work (O55).
-/

namespace Sys2Proof.Machine

section
variable {s : State}

/-- The pace record of the ridge arrives at a member. -/
theorem exec_pacePacketReceive {pkt : Wire} {payload : List Word} {u v : State} (hrole : s.gang.role = .member) (hup : s.gbUp = true)
    (hv : v = if s.enabled .ga then s.relay pkt else s) (hrecord : paceRecord (v.receive (.down .gb) pkt) = some payload)
    (hu : u = v.setFld .GANG_PACE_STAT_VALID (wbits ((payload[0]?).getD 0) 7 0)) : exec (.pacePacketReceive pkt) s =
      .next { u with gang := { u.gang with record := (List.range 8).map (recordEntry payload), recordNow := true } } := by
  have hexec : exec (.pacePacketReceive pkt) s = execPacePacketReceive pkt s := rfl
  have htakes : (s.gang.role == .member && s.gbUp) = true := by rw [hrole, hup]; rfl
  rw [hexec, execPacePacketReceive, if_pos htakes]
  dsimp only
  rw [← hv, hrecord, hu]

theorem exec_ridgeLockGained (hfollows : s.gang.follows = true) (hrun : 64 ≤ s.gang.goodRun) (hsource : s.timeSource = 2) :
    exec .ridgeLockGained s = .next (s.lockTime.modGang fun g =>
      { g with ridgeLock := true, phase := if g.phase == .setup || g.phase == .unqualified then .locked else g.phase }) := by
  have hexec : exec .ridgeLockGained s = execRidgeLockGained s := rfl
  have hlocks : (s.gang.follows && s.gang.goodRun ≥ 64) = true := by rw [hfollows]; exact decide_eq_true hrun
  rw [hexec, execRidgeLockGained, if_pos hlocks]
  dsimp only
  rw [if_pos hsource]

theorem exec_leaseLost {u : State} (hrole : s.gang.role = .member) (hphase : s.gang.phase = .locked ∨ s.gang.phase = .unqualified)
    (hmiss : 8 ≤ s.gang.leaseMiss) (hu : u = s.modGang (fun g => { g with phase := .leaseLost })) : exec .leaseLost s =
      .next (u.error catGang 0x02 blkGang .normal (u.course.count.toNat % 2 ^ 32)).enterHold := by
  have hlost : (s.gang.role == .member && (s.gang.phase == .locked || s.gang.phase == .unqualified) && s.gang.leaseMiss ≥ 8) = true := by
    rw [hrole, beq_self_eq_true, Bool.true_and, Bool.and_eq_true, Bool.or_eq_true, beq_iff_eq, beq_iff_eq, decide_eq_true_iff]
    exact ⟨hphase, hmiss⟩
  rw [hu]
  exact congrArg Host.Outcome.next (if_pos hlost)

theorem exec_leaseRestored (hphase : s.gang.phase = .leaseLost) (hhave : 8 ≤ s.gang.leaseHave) : exec .leaseRestored s =
    .next (s.modGang fun g => { g with phase := if g.ridgeLock then .locked else .setup }) := by
  refine congrArg Host.Outcome.next (if_pos ?_)
  rw [hphase]
  exact decide_eq_true hhave

/-! A controller without RIDGE_ALLOWED that has no role yet. -/

section
variable (hdeciding : s.gang.deciding = true) (hridge : s.gang.ridgeAllowed = false)
include hdeciding hridge

theorem State.roleOpen : (s.gang.deciding && !s.gang.ridgeAllowed) = true := by rw [hdeciding, hridge]; rfl

theorem exec_gangDecisionEnd : exec .gangDecisionEnd s = .next (if s.gbLive then s.modGang fun g => { g with deciding := false, role := .member }
    else (s.modGang fun g => { g with role := .solo }).endJoin stGangMismatch) :=
  congrArg Host.Outcome.next (if_pos (State.roleOpen hdeciding hridge))

theorem exec_gangJoinTimeout_open : exec .gangJoinTimeout s =
    .next (if s.gbLive then (s.modGang fun g => { g with deciding := false, role := .member }).endJoin stOk else s.endJoin stGangMismatch) :=
  congrArg Host.Outcome.next (if_pos (State.roleOpen hdeciding hridge))

end

theorem exec_gangJoinTimeout_found (h : s.gang.deciding = false ∨ s.gang.ridgeAllowed = true) :
    exec .gangJoinTimeout s = .next (s.endJoin stOk) := by
  refine congrArg Host.Outcome.next (if_neg ?_)
  rcases h with h | h <;> simp only [h, Bool.false_and, Bool.not_true, Bool.and_false, Bool.false_eq_true, not_false_eq_true]

theorem exec_gangPortRetry (h : s.ga.state = .fault) :
    exec .gangPortRetry s = .next { s with ga := { s.ga with state := .powered, cause := .none, hrFails := 0 } } :=
  congrArg Host.Outcome.next (if_pos (beq_iff_eq.mpr h))

end

/-- Settles O55. -/
theorem gangsFollowTheirEvents : Obligations.GangsFollowTheirEvents := by
  refine fun s => ⟨fun pkt payload hrole hup v u => exec_pacePacketReceive hrole hup, exec_ridgeLockGained,
    fun hnone => congrArg Host.Outcome.next (if_pos hnone), fun hrole hphase hmiss u => exec_leaseLost hrole hphase hmiss, exec_leaseRestored,
    fun hdeciding hridge => ⟨fun hlive => ?member, fun hlive => ?solo⟩, exec_gangJoinTimeout_found,
    fun hdeciding hridge => ⟨fun hlive => ?joined, fun hlive => ?mismatch⟩, exec_gangPortRetry⟩
  case member => rw [exec_gangDecisionEnd hdeciding hridge, if_pos hlive]
  case solo => rw [exec_gangDecisionEnd hdeciding hridge, if_neg (Bool.eq_false_iff.mp hlive)]
  case joined => rw [exec_gangJoinTimeout_open hdeciding hridge, if_pos hlive]
  case mismatch => rw [exec_gangJoinTimeout_open hdeciding hridge, if_neg (Bool.eq_false_iff.mp hlive)]

end Sys2Proof.Machine
end

section
/-!
PROOFS. Power domains going to sleep (O56).
-/

namespace Sys2Proof.Machine

section
variable {s : State}

/-- A domain without a handshake that its mode lets sleep, with nothing under way, and that no near course needs. -/
structure State.SleepDue (s : State) (dom : Fin 12) : Prop where
  fresh : s.pmu.handshake = none
  on : s.pmu.doms[dom] = .on
  entry : s.pmu.entry = none
  changing : s.pmu.changing = false
  start : s.boot.start = none
  sleeps : s.pmu.mode.sleepers.contains dom = true
  near : s.needNear dom = false

theorem exec_sleepRequest {dom : Fin 12} {answers : List SleepAnswer} (h : s.SleepDue dom) : exec (.sleepRequest dom answers) s =
    .next (if s.domPolicy dom = 1 && s.pmu.mode != .dormant then s.abandon dom 0 denyPolicy else s.sleepRound dom 0 answers) := by
  have hexec : exec (.sleepRequest dom answers) s = execSleepRequest dom answers s := rfl
  have hfree : (s.pmu.doms[dom] != .on || s.pmu.entry.isSome || s.pmu.changing || s.boot.start.isSome ||
      !s.pmu.mode.sleepers.contains dom || s.needNear dom) = false := by
    rw [h.on, h.entry, h.changing, h.start, h.sleeps, h.near]
    rfl
  rw [hexec, execSleepRequest, h.fresh]
  exact congrArg Host.Outcome.next (if_neg (Bool.eq_false_iff.mp hfree))

theorem exec_sleepRequest_kept {dom : Fin 12} {answers : List SleepAnswer} (h : s.SleepDue dom) (hpolicy : s.domPolicy dom = 1)
    (hmode : s.pmu.mode ≠ .dormant) : exec (.sleepRequest dom answers) s = .next (s.abandon dom 0 denyPolicy) := by
  rw [exec_sleepRequest h, if_pos (by rw [decide_eq_true hpolicy, bne_iff_ne.mpr hmode]; rfl)]

theorem exec_sleepRequest_asked {dom : Fin 12} {answers : List SleepAnswer} (h : s.SleepDue dom)
    (hpolicy : s.domPolicy dom ≠ 1 ∨ s.pmu.mode = .dormant) : exec (.sleepRequest dom answers) s = .next (s.sleepRound dom 0 answers) := by
  rw [exec_sleepRequest h, if_neg]
  rw [Bool.and_eq_true, decide_eq_true_iff, bne_iff_ne]
  exact fun ⟨hkept, hmode⟩ => hpolicy.elim (· hkept) hmode

theorem exec_deferRetry {dom : Fin 12} {h : Handshake} (hh : s.pmu.handshake = some h) (hdom : h.dom = dom) :
    exec (.deferRetry dom) s = .next { s with pmu := { s.pmu with handshake := some { h with retry := 0 } } } := by
  have hexec : exec (.deferRetry dom) s = execDeferRetry dom s := rfl
  rw [hexec, execDeferRetry, hh]
  exact congrArg Host.Outcome.next (if_pos hdom)

theorem exec_handshakeNoAnswer {dom : Fin 12} (hasked : s.pmu.handshake = none ∨ ∃ h, s.pmu.handshake = some h ∧ h.dom = dom)
    (hon : s.pmu.doms[dom] = .on) (hentry : s.pmu.entry = none) (hsleeps : s.pmu.mode.sleepers.contains dom = true) :
    exec (.handshakeNoAnswer dom) s =
      .next (State.abandon { s with free := s.free + 1 } dom ((Config.freeWord s.free).toNat % 256) denySilent) := by
  have hexec : exec (.handshakeNoAnswer dom) s = execHandshakeNoAnswer dom s := rfl
  rw [hexec, execHandshakeNoAnswer]
  rcases hasked with hh | ⟨h, hh, hdom⟩
  · simp only [hh, hon, hentry, hsleeps, beq_self_eq_true, Option.isNone_none, Bool.and_self, if_true, State.freeWord]
  · simp only [hh, hdom, hon, hentry, hsleeps, beq_self_eq_true, Option.isNone_none, Bool.and_self, if_true, State.freeWord]

/-! A mode's entry. -/

section
variable {e : Entry} {answers : List (Fin 12 × List SleepAnswer)} {busy : Bool} (he : s.pmu.entry = some e)
  (hports : ∀ k ∈ e.ports, s.enabled (entryPort k) = false) (hdoms : ∀ d ∈ s.entryDoms e.mode, s.pmu.doms[d] ≠ .waking)
include he hports hdoms

/-- Once its ports sleep and none of its domains wakes, an entry goes on. -/
theorem exec_standbyEntry : exec (.standbyEntry answers busy) s = .next (
    if busy || s.wakePending then s.failEntry e [] ((s.entryDoms e.mode).headD 6) 0 denyWake
    else match ((s.entryDoms e.mode).filter fun d => s.pmu.doms[d] == .on).foldl (State.entryStep answers) (s, [], none) with
      | (s, done, some (d, b, r)) => s.failEntry e done d b r
      | (s, _, none) => s.endEntry e answers) := by
  have hexec : exec (.standbyEntry answers busy) s = execStandbyEntry answers busy s := rfl
  have hasleep : ¬ ((e.ports.any fun k => s.enabled (entryPort k)) || (s.entryDoms e.mode).any fun d => s.pmu.doms[d] == .waking) = true := by
    simp only [Bool.or_eq_true, List.any_eq_true, beq_iff_eq]
    rintro (⟨k, hk, hen⟩ | ⟨d, hd, hwaking⟩)
    · exact Bool.false_ne_true ((hports k hk).symm.trans hen)
    · exact hdoms d hd hwaking
  rw [hexec, execStandbyEntry, he]
  exact congrArg Host.Outcome.next (if_neg hasleep)

theorem exec_standbyEntry_woken (hwake : busy = true ∨ s.wakePending = true) :
    exec (.standbyEntry answers busy) s = .next (s.failEntry e [] ((s.entryDoms e.mode).headD 6) 0 denyWake) := by
  rw [exec_standbyEntry he hports hdoms, if_pos (by rwa [Bool.or_eq_true])]

theorem exec_standbyEntry_ends (hbusy : busy = false) (hwake : s.wakePending = false)
    (hoff : ∀ d ∈ s.entryDoms e.mode, s.pmu.doms[d] ≠ .on) : exec (.standbyEntry answers busy) s = .next (s.endEntry e answers) := by
  have hnone : ((s.entryDoms e.mode).filter fun d => s.pmu.doms[d] == .on) = [] := by
    rw [List.filter_eq_nil_iff]
    exact fun d hd hon => hoff d hd (beq_iff_eq.mp hon)
  rw [exec_standbyEntry he hports hdoms, hbusy, hwake, hnone]
  simp only [Bool.or_self, Bool.false_eq_true, if_false, List.foldl_nil]

end

theorem exec_bankIdleGate {b : Fin 64} (hpolicy : s.domPolicy 7 = 0) (hon : s.pmu.doms[7] = .on)
    (hbound : s.bankBound b (if s.ahead (s.course.count.toNat + 1) 1000 then s.course.count.toNat else s.course.count.toNat + 1) = false) :
    exec (.bankIdleGate b) s = .next { s with pmu := s.pmu.bankSleeps b.val } := by
  have hexec : exec (.bankIdleGate b) s = execBankIdleGate b s := rfl
  rw [hexec, execBankIdleGate, if_pos (by rw [hpolicy, hon, hbound]; rfl)]

/-- The domains of a list begin to wake, and the banks with words of the courses up to `c` are ON. -/
def State.wakeAhead (s : State) (l : List (Fin 12)) (c : Nat) : State :=
  { s.wakeDoms l with pmu := { (s.wakeDoms l).pmu with banks := Vector.ofFn fun b =>
      if (s.wakeDoms l).pmu.banks[b] == .retained && (s.wakeDoms l).bankBound b c then .on else (s.wakeDoms l).pmu.banks[b] } }

/-- A handshake of a domain that is to wake is abandoned. -/
def State.dropHandshake (s : State) (l : List (Fin 12)) : State :=
  match s.pmu.handshake with
  | some h => if l.contains h.dom then s.abandon h.dom 0 denyAccess else s
  | none => s

theorem State.dropHandshake_other {l : List (Fin 12)} (hfree : ∀ h : Handshake, s.pmu.handshake = some h → h.dom ∉ l) :
    s.dropHandshake l = s := by
  unfold State.dropHandshake
  cases hh : s.pmu.handshake with
  | none => rfl
  | some h => exact if_neg fun hin => hfree h hh (List.contains_iff_mem.mp hin)

theorem exec_prewake {l : List (Fin 12)} {u : State} (hrun : s.course.running = true) (hmode : s.pmu.mode.courses = true)
    (hl : l = [3] ++ (if s.usesEngines (s.course.count.toNat + 3) then [5, 6] else []) ++
      (if (s.course.count.toNat + 1) % 64 = 0 then [2] else []))
    (hfree : ∀ h : Handshake, s.pmu.handshake = some h → h.dom ∉ l) (hu : u = s.wakeDoms l) :
    exec .prewake s = .next { u with pmu := { u.pmu with
      banks := Vector.ofFn fun b => if u.pmu.banks[b] == .retained && u.bankBound b (s.course.count.toNat + 3) then .on else u.pmu.banks[b] } } := by
  have hexec : exec .prewake s = execPrewake s := rfl
  rw [hexec, execPrewake, if_pos (by rw [hrun, hmode]; rfl)]
  dsimp only
  rw [← hl, hu]
  exact congrArg (fun v : State => Host.Outcome.next (v.wakeAhead l (s.course.count.toNat + 3))) (State.dropHandshake_other hfree)

end

/-- Settles O56. -/
theorem domainsGoToSleep : Obligations.DomainsGoToSleep := by
  refine fun s => ⟨fun dom answers hfresh hon hentry hchanging hstart hsleeps hnear => ?request, fun dom h => exec_deferRetry,
    fun dom => exec_handshakeNoAnswer,
    fun e answers busy he hports hdoms => ⟨exec_standbyEntry_woken he hports hdoms, exec_standbyEntry_ends he hports hdoms⟩,
    fun b => exec_bankIdleGate, fun hrun hmode l u => exec_prewake hrun hmode⟩
  have h : s.SleepDue dom := ⟨hfresh, hon, hentry, hchanging, hstart, hsleeps, hnear⟩
  exact ⟨exec_sleepRequest_kept h, exec_sleepRequest_asked h⟩

end Sys2Proof.Machine
end

section
/-!
PROOFS. Power domains and banks waking (O57).
-/

namespace Sys2Proof.Machine

section
variable {s : State}

/-! Wake sources: what each one names. -/

/-- What an active wake source does, by its number. -/
def State.sourceWakes (s : State) : Nat → State
  | 0 => if s.wakeLevel 0 then s.wakeSource 0 (s.trunkDoms .suspended) else s
  | 1 => if s.wakeLevel 1 || s.gb.link.phase == .suspended then s.wakeSource 1 [11] else s
  | 2 => if (s.trunkDoms .powered).isEmpty then s else s.wakeSource 2 (s.trunkDoms .powered)
  | 7 => s.wakeSource 7 [0]
  | 8 => if s.host.perst then s else s.wakeSource 8 [0]
  | 9 => if s.wakeLevel 9 then (s.wakeDoms [4]).wakeSource 9 [] else s
  | k => if s.wakeLevel k then s.wakeSource k [] else s

theorem exec_wakeSourceActive (n : Fin 32) : exec (.wakeSourceActive n) s = .next (s.sourceWakes n.val) := rfl

/-- The sources that name no domain of their own. -/
theorem State.sourceWakes_level {k : Nat} (hk : (3 ≤ k ∧ k ≤ 6) ∨ 10 ≤ k) (hlevel : s.wakeLevel k = true) :
    s.sourceWakes k = s.wakeSource k [] := by
  unfold State.sourceWakes
  split
  case h_7 => exact if_pos hlevel
  all_goals omega

theorem exec_domainWakeRequest {dom : Fin 12} (h : s.asleep dom = true ∨ s.pmu.doms[dom] = .waking) : exec (.domainWakeRequest dom) s =
    .next ((State.addSat { s with pmu := { s.pmu with stalled := vmod s.pmu.stalled dom.val (· + 1) } } .PMU_STALL_CNT_COUNT 1).wakeDoms [dom]) := by
  refine congrArg Host.Outcome.next (if_pos ?_)
  rwa [Bool.or_eq_true, beq_iff_eq]

/-- PD_PLAN, PD_DISP and the engines' domains have no array that retention could lose. -/
theorem exec_domainWakeComplete {dom : Fin 12} {run : StartEnv} {u : State} (hwaking : s.pmu.doms[dom] = .waking) (hstart : s.boot.start = none)
    (hdom : dom = 3 ∨ dom = 4 ∨ dom = 5 ∨ dom = 6) (hu : u = s.setDoms [dom] .on) : exec (.domainWakeComplete dom 0 run) s =
      .next (State.leaveCheck { u with pmu := { u.pmu with stalled := vmod u.pmu.stalled dom.val fun _ => 0 } }) := by
  have hexec : exec (.domainWakeComplete dom 0 run) s = execDomainWakeComplete dom 0 run s := rfl
  have hwakes : (s.pmu.doms[dom] != .waking || (s.boot.start.isSome && warmDomains.contains dom)) = false := by
    rw [hwaking, hstart]
    rfl
  rw [hexec, execDomainWakeComplete, hwakes, hu]
  refine congrArg Host.Outcome.next ((if_neg Bool.false_ne_true).trans ?_)
  rcases hdom with rfl | rfl | rfl | rfl <;> rfl

theorem exec_scrubPass {b : Fin 64} {corrected : Nat} {bad : Bool} (hon : s.pmu.doms[7] = .on) (hbank : s.pmu.banks[b] = .on) :
    exec (.scrubPass b bad corrected) s =
      .next (if bad then (s.addSat .ERR_CE_CNT_COUNT corrected).loseBank b else s.addSat .ERR_CE_CNT_COUNT corrected) := by
  refine congrArg Host.Outcome.next (if_pos ?_)
  rw [hon, hbank]
  rfl

theorem exec_bankRestore {b : Fin 64} (hlost : s.pmu.banks[b] = .lost)
    (hfree : ∀ e ∈ s.flows, ∀ x ∈ e.2.xfers, x.bank = some b → x.fin ≠ none) : exec (.bankRestore b) s =
      .next { s with pmu := { s.pmu with banks := s.pmu.banks.set b.val .on, bankUse := s.pmu.bankUse.set b.val 0 } } := by
  have hnone : (s.flows.any fun e => e.2.xfers.any fun x => x.bank == some b && x.fin.isNone) = false := by
    simp only [List.any_eq_false, List.any_eq_true, Bool.and_eq_true, beq_iff_eq, Option.isNone_iff_eq_none]
    rintro e he ⟨x, hx, hbank, hfin⟩
    exact hfree e he x hx hbank hfin
  refine congrArg Host.Outcome.next (if_pos ?_)
  rw [hlost, hnone]
  rfl

end

/-- Settles O57. -/
theorem domainsWake : Obligations.DomainsWake := by
  refine fun s => ⟨fun n k hk => ?sources, rfl, fun hlevel => congrArg Host.Outcome.next (if_pos hlevel), fun n => ⟨rfl, rfl⟩,
    fun dom => exec_domainWakeRequest, fun dom run hwaking hstart hdom u => exec_domainWakeComplete hwaking hstart hdom,
    fun b corrected bad => exec_scrubPass, fun b => exec_bankRestore, fun hfell => congrArg Host.Outcome.next (if_pos hfell)⟩
  rw [exec_wakeSourceActive, hk]
  refine ⟨?trunk, ?gang, ?presence, ?l1, ?perst, ?gutter, fun hother hlevel => congrArg Host.Outcome.next (State.sourceWakes_level hother hlevel)⟩
  case trunk => rintro rfl hlevel; exact congrArg Host.Outcome.next (if_pos hlevel)
  case gang => rintro rfl hlevel; exact congrArg Host.Outcome.next (if_pos (by rwa [Bool.or_eq_true, beq_iff_eq]))
  case presence => rintro rfl hdoms; exact congrArg Host.Outcome.next (if_neg fun h => hdoms (List.isEmpty_iff.mp h))
  case l1 => rintro rfl; rfl
  case perst => rintro rfl hperst; exact congrArg Host.Outcome.next (if_neg (Bool.eq_false_iff.mp hperst))
  case gutter => rintro rfl hlevel; rw [State.sourceWakes, if_pos hlevel]

end Sys2Proof.Machine
end

section
/-!
PROOFS. Port power (O58).
-/

namespace Sys2Proof.Machine

section
variable {s : State} {n : Fin 16}

/-! Ports: the limit, the ramp, the retries. -/

theorem exec_faultTimerExpiry {cause : PpmCause} {f : Fld} (hlimit : s.ppm[n].faultLeft ≠ none)
    (hcause : (if s.ppm[n].tripLatch then s.ppmFault n .fastTrip .PPM_PEVENT_FAST_TRIP else s.ppmFault n .overcurrent .PPM_PEVENT_OVERCURRENT) =
      s.ppmFault n cause f) :
    exec (.faultTimerExpiry n) s = .next (s.ppmDown n .fault cause f (some (s.retryTicks n))) :=
  congrArg Host.Outcome.next ((if_neg fun h => hlimit (Option.isNone_iff_eq_none.mp h)).trans hcause)

theorem exec_rampTimeout (hgen : s.ppm[n].gen = true) (hpg : s.ppm[n].pg = false) (hblank : s.blanked n = false) :
    exec (.rampTimeout n) s = .next (s.ppmDown n .fault .rampTimeout .PPM_PEVENT_RAMP_TIMEOUT (some (s.retryTicks n))) := by
  have hexec : exec (.rampTimeout n) s = execRampTimeout n s := rfl
  rw [hexec, execRampTimeout, if_pos (by rw [hgen, hpg, hblank]; rfl)]
  rfl

theorem retries_left {lim : Nat} (hleft : lim = 255 ∨ s.ppm[n].retries.toNat < lim) :
    ¬ (lim != 255 && decide (lim ≤ s.ppm[n].retries.toNat)) = true := by
  rw [Bool.and_eq_true, bne_iff_ne, decide_eq_true_iff]
  exact fun ⟨hne, hle⟩ => hleft.elim hne (Nat.not_lt.mpr hle)

section
variable {lim : Nat} {u : State} (hretry : s.ppm[n].retryLeft ≠ none) (hlim : lim = s.fld .PPM_TIMERS_RETRY_LIM n.val)
  (hu : u = s.modPpm n (fun x => { x with retryLeft := none }))
include hretry hlim hu

/-- A retry timer that runs out: the retries are used up, or the port waits for a feed, or it ramps. -/
theorem exec_ppmRetryExpiry : exec (.ppmRetryExpiry n) s = .next (
    if lim != 255 && decide (lim ≤ s.ppm[n].retries.toNat) then
      ((u.modPpm n fun x => { x with phase := .lockout, waitFeed := false }).ppmEvent n .PPM_PEVENT_LOCKOUT).error catPower 0x05 blkPpm .normal n.val
    else if s.feeds[groupOf n].sel == .none then u.modPpm n fun x => { x with waitFeed := true }
    else ((u.modPpm n fun x => { x with retries := if x.retries = 255 then 255 else x.retries + 1 }).startRamp n).ppmEvent n .PPM_PEVENT_RETRY) := by
  have hexec : exec (.ppmRetryExpiry n) s = execPpmRetryExpiry n s := rfl
  rw [hexec, execPpmRetryExpiry, if_pos (Option.isSome_iff_ne_none.mpr hretry), hu, hlim]
  rfl

theorem exec_ppmRetryExpiry_lockout (hne : lim ≠ 255) (hused : lim ≤ s.ppm[n].retries.toNat) : exec (.ppmRetryExpiry n) s =
    .next (((u.modPpm n fun x => { x with phase := .lockout, waitFeed := false }).ppmEvent n .PPM_PEVENT_LOCKOUT).error catPower 0x05 blkPpm
      .normal n.val) := by
  rw [exec_ppmRetryExpiry hretry hlim hu, if_pos (by rw [bne_iff_ne.mpr hne, decide_eq_true hused]; rfl)]

theorem exec_ppmRetryExpiry_waits (hleft : lim = 255 ∨ s.ppm[n].retries.toNat < lim) (hfeed : s.feeds[groupOf n].sel = .none) :
    exec (.ppmRetryExpiry n) s = .next (u.modPpm n fun x => { x with waitFeed := true }) := by
  rw [exec_ppmRetryExpiry hretry hlim hu, if_neg (retries_left hleft), if_pos (beq_iff_eq.mpr hfeed)]

theorem exec_ppmRetryExpiry_ramps (hleft : lim = 255 ∨ s.ppm[n].retries.toNat < lim) (hfeed : s.feeds[groupOf n].sel ≠ .none) :
    exec (.ppmRetryExpiry n) s =
      .next (((u.modPpm n fun x => { x with retries := if x.retries = 255 then 255 else x.retries + 1 }).startRamp n).ppmEvent n
        .PPM_PEVENT_RETRY) := by
  rw [exec_ppmRetryExpiry hretry hlim hu, if_neg (retries_left hleft), if_neg fun h => hfeed (beq_iff_eq.mp h)]

end

/-! The oscillator and the feeds. -/

theorem exec_oscillatorStart (hosc : s.oscRun = false) (hreq : ∃ n : Fin 16, s.ppm[n].onReq = true) : exec .oscillatorStart s =
    .next { s with oscRun := true, feeds := s.feeds.map fun (x : FeedGroup) =>
      { x with a := { x.a with seen := false, goodTicks := 0, lowRun := 0 }, b := { x.b with seen := false, goodTicks := 0, lowRun := 0 } } } := by
  obtain ⟨n, hn⟩ := hreq
  have hany : ((List.finRange 16).any fun n => s.ppm[n].onReq) = true := List.any_eq_true.mpr ⟨n, List.mem_finRange n, hn⟩
  refine congrArg Host.Outcome.next (if_pos ?_)
  rw [hosc, hany]
  rfl

theorem exec_feedGood {g : Fin 4} {b : Bool} (hosc : s.oscRun = true) (hgood : (if b then s.feeds[g].b.good else s.feeds[g].a.good) = false) :
    exec (.feedGood g b) s = .next (s.goodFeed g b) := by
  have hexec : exec (.feedGood g b) s = execFeedGood g b s := rfl
  rw [hexec, execFeedGood, if_pos (by rw [hosc, hgood]; rfl)]

theorem exec_feedLost {g : Fin 4} {b : Bool} (hosc : s.oscRun = true) (hgood : (if b then s.feeds[g].b.good else s.feeds[g].a.good) = true) :
    exec (.feedLost g b) s = .next (s.loseFeed g b) := by
  have hexec : exec (.feedLost g b) s = execFeedLost g b s := rfl
  rw [hexec, execFeedLost, if_pos (by rw [hosc, hgood]; rfl)]

theorem exec_feedReturn {g : Fin 4} (hsel : s.feeds[g].sel = .onB) (hgood : s.feeds[g].a.good = true) : exec (.feedReturn g) s =
    .next ((s.setFeed g true false).modFeed g fun x =>
      { x with sel := .deadToA, deadLeft := some (s.deadTicks g), blankLeft := some (s.deadTicks g + 1000) }) := by
  have hexec : exec (.feedReturn g) s = execFeedReturn g s := rfl
  rw [hexec, execFeedReturn, if_pos (by rw [hsel, hgood]; rfl)]
  rfl

end

/-- Settles O58. -/
theorem portPowerFollowsItsEvents : Obligations.PortPowerFollowsItsEvents :=
  ⟨fun s samples => ⟨fun hosc => congrArg Host.Outcome.next (if_pos (by rw [hosc]; rfl)),
      fun hosc => congrArg Host.Outcome.next (if_neg (by rw [hosc]; exact Bool.false_ne_true))⟩,
    fun s n => ⟨fun hlimit => ⟨congrArg Host.Outcome.next (if_pos (Option.isSome_iff_ne_none.mpr hlimit)),
        fun htrip => exec_faultTimerExpiry hlimit (if_neg (Bool.eq_false_iff.mp htrip)), fun htrip => exec_faultTimerExpiry hlimit (if_pos htrip)⟩,
      exec_rampTimeout, fun hgen => congrArg Host.Outcome.next (if_pos hgen), fun hpg => congrArg Host.Outcome.next (if_pos hpg),
      fun lim u hretry hlim hu => ⟨exec_ppmRetryExpiry_lockout hretry hlim hu, exec_ppmRetryExpiry_waits hretry hlim hu,
        exec_ppmRetryExpiry_ramps hretry hlim hu⟩⟩,
    fun s => exec_oscillatorStart,
    fun s g => ⟨fun hosc => ⟨exec_feedGood (b := false) hosc, exec_feedGood (b := true) hosc, exec_feedLost (b := false) hosc, exec_feedLost (b := true) hosc⟩,
      fun hdead => congrArg Host.Outcome.next (if_pos (Option.isSome_iff_ne_none.mpr hdead)), exec_feedReturn,
      fun hdead => congrArg Host.Outcome.next (if_pos (Option.isNone_iff_eq_none.mpr hdead))⟩⟩

end Sys2Proof.Machine
end

section
/-!
PROOFS. Starts and resets (O59), errors and pins (O60).
-/

namespace Sys2Proof.Machine

section
variable {s : State} {run : StartEnv} {r : StartRun}

theorem exec_wrst_warm (hstart : s.boot.start = some r) (hwarm : r.warm = true) :
    exec (.wrst run) s = .next (s.runStart startFuel r.kind true run) := by
  have hexec : exec (.wrst run) s = .next (s.warmTrigger .wrst run) := rfl
  have hcold : ¬ (!r.warm) = true := by rw [hwarm]; exact Bool.false_ne_true
  rw [hexec, State.warmTrigger, hstart]
  dsimp only
  rw [if_neg hcold, if_pos rfl]

theorem exec_startStepTimeout_failed {code : BitVec 8} (hstart : s.boot.start = some r) (hcode : code ≠ 0) :
    exec (.startStepTimeout code run) s = .next (s.failStart r.step code.toNat r.kind r.warm run) := by
  have hexec : exec (.startStepTimeout code run) s = execStartStepTimeout code run s := rfl
  rw [hexec, execStartStepTimeout, hstart]
  exact congrArg Host.Outcome.next (if_neg hcode)

/-- How a start goes on from a step that passed: it stands, or the next one begins. -/
def nextStart (run : StartEnv) : State × Option (StartKind × Bool) → State
  | (u, none) => u
  | (u, some (kind, warm)) => u.runStart startFuel kind warm run

theorem exec_startStepTimeout_passed (hstart : s.boot.start = some r) :
    exec (.startStepTimeout 0 run) s = .next (nextStart run (s.goOn r run)) := by
  have hexec : exec (.startStepTimeout 0 run) s = execStartStepTimeout 0 run s := rfl
  rw [hexec, execStartStepTimeout, hstart]
  refine congrArg Host.Outcome.next ((if_pos rfl).trans ?_)
  rcases s.goOn r run with ⟨u, _ | ⟨kind, warm⟩⟩ <;> rfl

/-! The resets of the host function. -/

section
variable (hperst : s.host.perst = false)
include hperst

theorem exec_perstAssert_idle (hstart : s.boot.start = none) : exec .perstAssert s = .next s.perstNow := by
  have hexec : exec .perstAssert s = execPerstAssert s := rfl
  rw [hexec, execPerstAssert, if_neg (Bool.eq_false_iff.mp hperst), hstart]

theorem exec_perstAssert_held (hstart : s.boot.start = some r) : exec .perstAssert s =
    .next { s with host := { s.host with perst := true }, boot := { s.boot with heldPerst := r.warm } } := by
  have hexec : exec .perstAssert s = execPerstAssert s := rfl
  rw [hexec, execPerstAssert, if_neg (Bool.eq_false_iff.mp hperst), hstart]

theorem exec_flr : exec .flr s = .next (if s.boot.start.isSome then { s with boot := { s.boot with heldFlr := true } } else s.flrNow) :=
  congrArg Host.Outcome.next (if_neg (Bool.eq_false_iff.mp hperst))

end

theorem exec_perstDeassert {u : State} (hperst : s.host.perst = true) (hwake : s.host.wakeN = false)
    (hu : u = { s with host := { s.host with perst := false, d := .d0, pmeAtCold := false } }) :
    exec .perstDeassert s = .next (if s.boot.start.isSome then u else (u.wakeDoms [0]).wakeSource 8 [0]) := by
  have hexec : exec .perstDeassert s = execPerstDeassert s := rfl
  have hrise : s.perstRise = u := by
    unfold State.perstRise
    rw [hwake, hu]
    rfl
  have hstart : u.boot.start = s.boot.start := by rw [hu]
  have hheld : ¬ (!s.host.perst) = true := by rw [hperst]; exact Bool.false_ne_true
  rw [hexec, execPerstDeassert, if_neg hheld]
  dsimp only
  rw [hrise, hstart]

end

/-- Settles O59. -/
theorem startsAndResetsAct : Obligations.StartsAndResetsAct := by
  refine fun s run => ⟨rfl, fun hstart => congrArg Host.Outcome.next (State.warmTrigger_idle .wrst run hstart), fun r => exec_wrst_warm,
    fun r code => exec_startStepTimeout_failed, fun r hstart => ?passed, fun hfw => congrArg Host.Outcome.next (if_pos hfw),
    fun hperst => ⟨fun hstart => ⟨exec_perstAssert_idle hperst hstart, ?flr⟩, fun r hstart => ⟨exec_perstAssert_held hperst hstart, ?flrHeld⟩⟩,
    fun hperst hwake u => exec_perstDeassert hperst hwake⟩
  case passed =>
    rw [exec_startStepTimeout_passed hstart]
    rcases s.goOn r run with ⟨u, _ | ⟨kind, warm⟩⟩ <;> rfl
  case flr => rw [exec_flr hperst, hstart]; rfl
  case flrHeld => rw [exec_flr hperst, hstart]; rfl

/-! Errors and pins. -/

section
variable {s : State}

theorem exec_surpriseDown {ltssm : Reg32} (hup : s.host.up = true) : exec (.surpriseDown ltssm) s = .next ((State.setBit
    { s with host := { s.host with up := false, width := 0 } } .HIF_EVENT_SURPRISE_DOWN).error catHost 0x03 blkHif .fatalClass ltssm.toNat) :=
  congrArg Host.Outcome.next (if_pos hup)

theorem exec_ltrEnable (h : s.host.ltrEn = false) : exec .ltrEnable s =
    .next (State.emit { s with host := { s.host with ltrEn := true } } (.ltr (s.reg .HIF_LTR))) :=
  congrArg Host.Outcome.next (if_neg (Bool.eq_false_iff.mp h))

/-- Outside the 2 ns in which either may happen, the filter's verdict is certain. -/
theorem stopInLow_certain {ns : Nat} (h : ns < 2 ∨ 4 ≤ ns) :
    (if 2 ≤ ns && ns < 4 then s.freeBool else (decide (4 ≤ ns), s)) = (decide (4 ≤ ns), s) := by
  refine if_neg ?_
  rw [Bool.and_eq_true, decide_eq_true_iff, decide_eq_true_iff]
  omega

theorem exec_stopInLow_held {ns : Nat} {u : State} (hns : 4 ≤ ns) (hu : u = { s with stop := { s.stop with pinLow := true } }) :
    exec (.stopInLow ns) s = .next ((if u.flag .ENG_STOP_CFG_PIN_EN then u.stopTrigger 1 else u).wakeSource 5 []) := by
  have hexec : exec (.stopInLow ns) s = execStopInLow ns s := rfl
  rw [hexec, execStopInLow, stopInLow_certain (.inr hns), hu]
  exact congrArg Host.Outcome.next (if_pos (decide_eq_true hns))

theorem exec_stopInLow_glitch {ns : Nat} (hns : ns < 2) : exec (.stopInLow ns) s = .next s := by
  have hexec : exec (.stopInLow ns) s = execStopInLow ns s := rfl
  rw [hexec, execStopInLow, stopInLow_certain (.inl hns)]
  exact congrArg Host.Outcome.next (if_neg (by rw [decide_eq_true_iff]; omega))

/-- DBG_UNLOCK, step by step. -/
theorem exec_dbgUnlock {u v w z : State} (hu : u = s.stopTrigger 4)
    (hv : v = State.zeroArrays { u with
      jtag := { u.jtag with instr := .dbgUnlock }
      boot := { u.boot with dmaRefused := true, slotA := u.boot.slotA.cut, slotB := u.boot.slotB.cut }
      hostq := [] })
    (hw : w = { v with pmu := { v.pmu with entry := none, handshake := none, changing := false } })
    (hz : z = (w.setMode .service).wakeDoms (w.modeDoms .service)) :
    exec .dbgUnlock s = .next { z with boot := { z.boot with debugUnlocked := true } } := by
  have hexec : exec .dbgUnlock s = execDbgUnlock s := rfl
  rw [hexec, execDbgUnlock, hz, hw, hv, hu]

end

/-- Settles O60. -/
theorem errorsAndPinsAct : Obligations.ErrorsAndPinsAct := fun _ =>
  ⟨fun _ => rfl, fun _ => exec_surpriseDown, fun _ => rfl, exec_ltrEnable, fun _ hns _ => exec_stopInLow_held hns, fun _ => exec_stopInLow_glitch, rfl,
    fun _ _ hu hv _ hw _ hz => exec_dbgUnlock hu hv hw hz, rfl, rfl, fun _ _ => rfl, rfl, rfl, rfl⟩

end Sys2Proof.Machine
end

section
/-!
PROOFS. The gang commands (O26): what the statement comes to, by the fuse GANG_ALLOWED. The fuse is a bit of an OTP word, which is an opaque
constant of the model, so neither side of the equivalence can be proved of it.
-/

namespace Sys2Proof.Machine

/-! A fuse that is not blown: the common checks end every gang command. -/

section
variable {s : State} {c : CmdRef} {t : Taken} {fr : Frame} {ranges : Taken → List (Nat × Bool)}

theorem State.command_notGanged (hfuse : gangAllowed = false) (h : s.standsReady c t fr = true) (hranges : (ranges t).all (fun b => !b.2) = true)
    (act : Taken → State) (u : State) :
    Host.Outcome.next (s.command c fr ranges ganged act) = (.next (if gangAllowed then u else s.done c stNotPermitted []) : Res) := by
  have hperm : ganged t = false := hfuse
  rw [State.command_gate h hranges, hperm, hfuse]
  rfl

/-- The ranges of GANG_CONFIG: a size of 1 to 8, and estimators or none in the map (R306). -/
theorem gangConfig_ranges (hlow : 1 ≤ t.arg 8 1) (hhigh : t.arg 8 1 ≤ 8) (hmap : ∀ e : Nat, e < 8 → t.arg (16 + e) 1 ≤ 7 ∨ t.arg (16 + e) 1 = 0xFF) :
    ((8, t.arg 8 1 == 0 || decide (8 < t.arg 8 1)) :: (List.range 8).map fun e =>
      (16 + e, decide (7 < t.arg (16 + e) 1) && t.arg (16 + e) 1 != 0xFF)).all (fun b : Nat × Bool => !b.2) = true := by
  have hsize : (t.arg 8 1 == 0 || decide (8 < t.arg 8 1)) = false := by simp; omega
  simp only [List.all_cons, hsize, List.all_map, Bool.not_false, Bool.true_and, List.all_eq_true, List.mem_range, Function.comp_apply]
  intro e he
  rcases hmap e he with h | h
  · rw [decide_eq_false (Nat.not_lt.mpr h)]; rfl
  · rw [h]; rfl

theorem gangCommandsComplete_unblown (hfuse : gangAllowed = false) : Obligations.GangCommandsComplete := fun _ _ _ =>
  ⟨fun h hlow hhigh hmap _ _ => State.command_notGanged hfuse h (gangConfig_ranges hlow hhigh hmap) _ _,
    fun h _ => State.command_notGanged hfuse h rfl _ _, fun _ _ h _ _ => State.command_notGanged hfuse h rfl _ _⟩

end

/-! A blown fuse: GANG_JOIN of a member without RIDGE_ALLOWED that is still to be decided and stands in MISMATCH. The model takes the pace
map into its estimators (R372) and then ends the command; in the statement the command has ended, and its controller is decided, before the
role is looked at. -/

/-- What the gang block raises for a change that leaves phase, members and the device below alone: nothing. -/
theorem State.modGang_joining (s : State) (x : Option (Nat × BitVec 16)) :
    (s.modGang fun g => { g with joining := x }) = State.joinCheck { s with gang := { s.gang with joining := x } } := by
  have hmembers : Gang.members { s.gang with joining := x } = s.gang.members := rfl
  simp only [State.modGang, hmembers, bne_self_eq_false, Bool.false_and, Bool.false_eq_true, if_false, ne_eq, not_true_eq_false, decide_false,
    Bool.or_self]

/-- A GANG_JOIN that has started. -/
def startedJoin : Taken := ⟨0, [0x03, 0x05] ++ List.replicate 62 0, true, false, false, 0, [], .notSent, false, 0⟩

/-- It stands in the manager's hand, in Setup, before the decision of a member in MISMATCH. -/
def undecided : State :=
  { State.reset with
    insts := [(0, { Instance.manager with mb := { Instance.manager.mb with taken := [startedJoin] } })]
    boot := { State.reset.boot with start := none }
    pmu := { State.reset.pmu with mode := .setup }
    gang := { State.reset.gang with configured := true, deciding := true, ridgeAllowed := false, role := .member, phase := .mismatch } }

theorem undecided_ready : undecided.standsReady ⟨0, 0⟩ startedJoin ⟨0x0503, [], [.setup], true⟩ = true := by decide +kernel

/-- The command waits. -/
def waitingJoin : State :=
  { undecided.wait ⟨0, 0⟩ [] with gang := { (undecided.wait ⟨0, 0⟩ []).gang with joining := some (0, 0) } }

/-- Estimator 0 follows the ridge's record as the model has it, and not as the statement has it. -/
theorem waitingJoin_paceKind : waitingJoin.joinRole.paceKind 0 = 2 ∧ waitingJoin.joinCheck.joinRole.paceKind 0 = 0 := by decide +kernel

theorem exec_gangJoin_blown (hfuse : gangAllowed = true) : exec (.gangJoin ⟨0, 0⟩) undecided = .next waitingJoin.joinRole := by
  have hexec : exec (.gangJoin ⟨0, 0⟩) undecided = execGangJoin ⟨0, 0⟩ undecided := rfl
  have hperm : ganged startedJoin = true := hfuse
  have hready : undecided.standsReady ⟨0, 0⟩ startedJoin (plainFrame 0x0503 [.setup] true) = true := undecided_ready
  have hconfigured : undecided.gang.configured = true := rfl
  have hranges : (noRanges startedJoin).all (fun b => !b.2) = true := rfl
  rw [hexec, execGangJoin, State.command_ready hready hranges hperm, if_pos hconfigured]
  rfl

theorem not_gangCommandsComplete_blown (hfuse : gangAllowed = true) : ¬ Obligations.GangCommandsComplete := by
  intro h
  obtain ⟨-, hjoin, -⟩ := h undecided ⟨0, 0⟩ startedJoin
  have hclaimed := hjoin undecided_ready rfl
  rw [exec_gangJoin_blown hfuse, if_pos hfuse] at hclaimed
  have hstates : waitingJoin.joinRole = waitingJoin.joinCheck.joinRole :=
    (Host.Outcome.next.inj hclaimed).trans (congrArg State.joinRole (State.modGang_joining _ _))
  obtain ⟨hmapped, hunmapped⟩ := waitingJoin_paceKind
  rw [hstates, hunmapped] at hmapped
  exact absurd hmapped (by decide)

/-- The statement of O26 says that the fuse GANG_ALLOWED is not blown. -/
theorem gangCommandsComplete_iff : Obligations.GangCommandsComplete ↔ gangAllowed = false :=
  ⟨fun h => Bool.eq_false_iff.mpr fun hfuse => not_gangCommandsComplete_blown hfuse h, gangCommandsComplete_unblown⟩

end Sys2Proof.Machine
end
